-- ==== Sys2Proof/Word.lean ====
section
/-! DEFINITION. The word types of the model and the plainest arithmetic on them. -/

namespace Sys2Proof

/-- One byte of a frame, a message, an image or a memory. -/
abbrev Byte := BitVec 8
/-- One 32-bit parameter word or item word. -/
abbrev Word := BitVec 32
/-- One 64-bit image entry, rule or memory word. -/
abbrev Word64 := BitVec 64

end Sys2Proof
end

