-- ==== Sys2Proof/Syntax.lean ====
section
/-! DEFINITION. The commands of the block: one constructor of `Instr` per row of the opcode table, with its operands.
Every command carries first the instant `t` at which it happens, in `CD_TIME` ticks (4 ns) since reset (log 1). -/

namespace Sys2Proof

/-- A Pastasy request as it stands on a mailbox (11 R250 Table 11.2). Its COMMAND is the constructor it comes with. -/
structure Req where
  mb : Nat
  version : Nat
  flags : Nat
  tag : Nat
  status : Nat
  length : Nat
  session : Nat
  payload : List Byte
  crc : Word
deriving DecidableEq, Repr

/-- The header fields of a well-formed request: used where a row stands for the write of one register field. -/
structure Hdr where
  mb : Nat
  tag : Nat
  session : Nat
deriving DecidableEq, Repr

/-- A received Ethernet frame, destination address first and FCS last, and the plant port it came in on (04 R68). -/
structure RxFrame where
  port : Nat
  bytes : List Byte
deriving DecidableEq, Repr

/-- Direction of a fabric access (12 R270, R281). -/
inductive AccessOp | read | write | cas
deriving DecidableEq, Repr

/-- What the SECDED check of the word finds (12 R272). -/
inductive Ecc | clean | single | double
deriving DecidableEq, Repr

/-- A fabric access of one master (12 R270, R281); `portA` is a steward write in the same cycle to mailbox RAM:
word index, byte-enable mask and data (12 R279). -/
structure Access where
  master : Nat
  priv : Bool
  op : AccessOp
  addr : Nat
  size : Nat
  data : Nat
  expected : Nat
  ecc : Ecc
  portA : Option (Nat × Nat × Nat)
deriving DecidableEq, Repr

/-- The causes of a tamper registered by the ling domain (08 Table 8.7). -/
inductive Tamper | intrusion | voltage | temperature | clock
deriving DecidableEq, Repr

/-- The steps of a cold start or a wake (08 Tables 8.5, 8.6), with what each found. -/
inductive BootStep
  | pllsLocked
  | steward (stewardOk prevOk : Bool)
  | mower (fault : Option (Nat × Nat))
  | store
  | components (failed : Option Nat) (prevOk : Bool)
  | lbist (passed : Nat)
  | config (verified : Bool)
  | holdup
deriving DecidableEq, Repr

/-- What the comparator or its self-test found on a core pair (09 R202, R206). -/
inductive LockFinding | mismatch | railDisagreement | selfTestFailed
deriving DecidableEq, Repr

/-- A Swath time marker (06 R133): the twin's TB0 and TB1 at transmission in 2^-16 ns, and the measured round trip. -/
structure Marker where
  tb0 : Nat
  tb1 : Nat
  roundTrip : Nat
  rate0 : Int
  rate1 : Int
deriving DecidableEq, Repr

/-- A received Sync (06 R122, R127): the origin timestamp plus correction field and the raw receive stamp, in 2^-16 ns,
and the measured frequency ratio minus one in 2^-40. -/
structure SyncMsg where
  domain : Nat
  port : Nat
  origin : Nat
  rawRx : Nat
  ratio : Int
  oneStep : Bool
deriving DecidableEq, Repr

/-- A received gPTP Announce (06 R125): the priority vector fields of IEEE 802.1AS. -/
structure AnnounceMsg where
  domain : Nat
  port : Nat
  priority1 : Nat
  clockClass : Nat
  clockAccuracy : Nat
  variance : Nat
  priority2 : Nat
  gmId : Nat
  stepsRemoved : Nat
  source : Nat
  utcOffset : Int
deriving DecidableEq, Repr

/-- A Pdelay event on a port (06 R125, Table 6.2). Stamps are raw, in 2^-16 ns. -/
inductive PdelayEvent
  | requestReceived (source rawRx : Nat)
  | completed (t1 t2 t3 t4 : Nat) (neighborRate : Int)
  | lost
deriving DecidableEq, Repr

/-- The tables of runtime data that shipped pages hold, read out: the spec gives their places in no page (log 38). Force table
(02 R42), filter state (02 R36), outcome ring (05 R110), consumed stamps (16 R357). -/
structure Tables where
  forces : List (Nat × Nat × Word × Nat)
  filters : List (Nat × Word64 × Nat)
  ring : List (Nat × Nat × Nat)
  consumed : List Nat
deriving DecidableEq, Repr

/-- A checkpoint as the STANDBY receives it (07 R153 Table 7.3). -/
structure Ckpt where
  seq : Nat
  cls : Nat
  cycle : Nat
  term : Nat
  cfgVersion : Nat
  nextId : Nat
  state0 : Nat
  state1 : Nat
  rate0 : Int
  rate1 : Int
  tb0 : Nat
  tb1 : Nat
  armedVersion : Nat
  armedCycle : Nat
  reads : List (Nat × Nat)
  outputs : List (Nat × Word64)
  pages : List (Nat × List Byte)
  entries : List (List Byte)
  repairs : List (Nat × Word64)
  tables : Tables
  trailerSeq : Nat
  trailerLen : Nat
  crcOk : Bool
deriving DecidableEq, Repr

/-- A part of the full copy of SYNCING (07 R158). -/
inductive CopyBlock
  | memory (addr : Nat) (bytes : List Byte)
  | tables (x : Tables)
  | timeState (state0 state1 : Nat) (rate0 rate1 : Int)
  | twinConfig (version : Nat) (digest : List Byte)
  | done
deriving DecidableEq, Repr

/-- The parts of the twin's checks and forwards that an MB14 response may carry (11 R261). -/
structure Mb14Resp where
  id : Nat
  status : Nat
  payload : List Byte
deriving DecidableEq, Repr

/-- A CAN frame on a bus (16 R349, R352). `sofNs` is the TB0 compact stamp of its start-of-frame edge. -/
structure CanFrame where
  sofNs : Nat
  fdf : Bool
  brs : Bool
  xtd : Bool
  remote : Bool
  id : Nat
  dlc : Nat
  esi : Bool
  data : List Byte
deriving DecidableEq, Repr

/-- How a CAN transmission ended (16 R360, R362), with the loop delay measured in an FD frame sent with BRS (R351). -/
inductive CanTxOutcome
  | success (sofNs : Nat) (loopDelay : Option Nat)
  | lostArbitration
  | ackError
  | error (code : Nat) (dataPhase : Bool)
  | tdcFault (measured : Nat)
deriving DecidableEq, Repr

/-- A HART modem event (15 R345). -/
inductive HartEvent
  | reply (responseCode deviceStatus : Nat) (data : List Byte)
  | noReply
  | burst
deriving DecidableEq, Repr

/-- A fault row of Table 15.3 detected or cleared (15 R339); the alarm direction and the NE 43 range flag. -/
inductive UaFault | miswire | wireBreak | compliance | alarmLow | alarmHigh | overrange | ne43Range
deriving DecidableEq, Repr

/-- A scalar that a front end delivers: a binary32 pattern or a 32-bit integer, in the raw format of the channel. -/
abbrev Raw := Word

/-- What the 1 s diagnostic read of a transceiver finds (19 R400). -/
structure SfpId where
  present : Bool
  pmdCode : Nat
  powerLevel : Nat
  answers : Bool
deriving DecidableEq, Repr

/-- The commands of the block (spec/opcode_table.json, in its order). -/
inductive Instr
  -- Pastasy commands (11 Table 11.5)
  | identify (t : Nat) (r : Req)
  | sessionOpen (t : Nat) (r : Req)
  | sessionClose (t : Nat) (r : Req)
  | jobStatus (t : Nat) (r : Req)
  | modeGet (t : Nat) (r : Req)
  | modeRequest (t : Nat) (r : Req)
  | pairStatus (t : Nat) (r : Req)
  | pairHandover (t : Nat) (r : Req)
  | paramRead (t : Nat) (r : Req)
  | paramWrite (t : Nat) (r : Req)
  | pointRead (t : Nat) (r : Req)
  | pointForce (t : Nat) (r : Req)
  | pointRelease (t : Nat) (r : Req)
  | pointBrowse (t : Nat) (r : Req)
  | cfgStage (t : Nat) (r : Req)
  | cfgStageJobEnd (t : Nat)
  | cfgCheck (t : Nat) (r : Req)
  | cfgCheckJobEnd (t : Nat)
  | cfgFlip (t : Nat) (r : Req)
  | cfgRevert (t : Nat) (r : Req)
  | cfgList (t : Nat) (r : Req)
  | sheafLoad (t : Nat) (r : Req)
  | sheafVerify (t : Nat) (r : Req)
  | sheafVerifyJobEnd (t : Nat)
  | sheafActivate (t : Nat) (r : Req)
  | sheafConfirm (t : Nat) (r : Req)
  | sheafStatus (t : Nat) (r : Req)
  | sheafAbandon (t : Nat) (r : Req)
  | timeStatus (t : Nat) (r : Req)
  | timeStep (t : Nat) (r : Req)
  | recOpen (t : Nat) (r : Req)
  | recRead (t : Nat) (r : Req)
  | recClose (t : Nat) (r : Req)
  | recMark (t : Nat) (r : Req)
  | memTest (t : Nat) (r : Req)
  | memTestJobEnd (t : Nat) (tested faults addr bit : Nat)
  | displayText (t : Nat) (r : Req)
  | displayRefresh (t : Nat) (r : Req)
  | ownerLock (t : Nat) (r : Req)
  | ownerUnlock (t : Nat) (r : Req)
  | lifecycleAdvance (t : Nat) (r : Req)
  | lifecycleJobEnd (t : Nat)
  | diagRead (t : Nat) (r : Req)
  | continuation (t : Nat) (code : Nat) (r : Req)
  | post (t : Nat) (mb len : Nat)
  | doneClear (t : Nat) (mb : Nat)
  | tlsHandshake (t : Nat) (verified : Bool) (fingerprint : List Byte)
  | handshakeTimeout (t : Nat)
  | connectionClosed (t : Nat) (mb : Nat)
  | sessionIdleTimeout (t : Nat) (mb : Nat)
  | cursorExpiry (t : Nat) (mb : Nat)
  | jobExpiry (t : Nat) (job : Nat)
  | mb14Timeout (t : Nat) (id : Nat)
  -- writes of one register field (11 R265)
  | pointsClrCounters (t : Nat) (h : Hdr)
  | cycleClrCounters (t : Nat) (h : Hdr)
  | schedClrCounters (t : Nat) (h : Hdr)
  | timeClrCounters (t : Nat) (h : Hdr)
  | pairClrCounters (t : Nat) (h : Hdr)
  | powerClrCounters (t : Nat) (h : Hdr)
  | lockClrCounters (t : Nat) (h : Hdr)
  | reenable (t : Nat) (h : Hdr) (mask : Nat)
  | memClrCounters (t : Nat) (h : Hdr)
  | keyCtrlSetWindowBase (t : Nat) (h : Hdr) (base : Nat)
  | keyCtrlCommit (t : Nat) (h : Hdr)
  | keyCtrlDiscardStaging (t : Nat) (h : Hdr)
  | keyWindow (t : Nat) (h : Hdr) (first : Nat) (words : List Word)
  | gateClrCounters (t : Nat) (h : Hdr)
  | debugOpen (t : Nat) (h : Hdr)
  | debugClose (t : Nat) (h : Hdr)
  | sheafClrCounters (t : Nat) (h : Hdr)
  | dioClrCounters (t : Nat) (h : Hdr)
  | uaClrCounters (t : Nat) (h : Hdr)
  | recoverCan (t : Nat) (h : Hdr) (ch : Nat)
  | canClrCounters (t : Nat) (h : Hdr)
  | recClrCounters (t : Nat) (h : Hdr)
  | dispClrCounters (t : Nat) (h : Hdr)
  -- gates, fabric and debug (12)
  | gateCommit (t : Nat)
  | commitDrainDone (t : Nat)
  | fabricAccess (t : Nat) (a : Access)
  | debugReadWords (t : Nat) (addr count : Nat) (crcOk : Bool)
  | debugWriteWords (t : Nat) (addr : Nat) (words : List Word) (crcOk : Bool)
  | debugHaltCorePair (t : Nat) (pair : Nat) (crcOk : Bool)
  | debugResumeCorePair (t : Nat) (pair : Nat) (crcOk : Bool)
  | dbgRstN (t : Nat) (low : Bool)
  -- clocks, watchdog, tamper and power (01, 08)
  | watchdogService (t : Nat)
  | watchdogExpiry (t : Nat)
  | pllLossOfLock (t : Nat)
  | clockCheckWindow (t : Nat) (stwCycles : Nat)
  | tamper (t : Nat) (k : Tamper)
  | powerGood (t : Nat) (mv : Nat)
  | dip (t : Nat) (mv : Nat)
  | rideThroughEnd (t : Nat) (mv : Nat)
  | auxGoodChange (t : Nat) (rising : Bool) (mv : Nat)
  | overTemperature (t : Nat) (tenths : Int)
  | lingCellLow (t : Nat) (mv : Nat)
  | presentNBreak (t : Nat)
  | ejectNOpen (t : Nat)
  | ejectNClose (t : Nat)
  | safeNAssert (t : Nat)
  | safeNRelease (t : Nat)
  | peerPresentNChange (t : Nat) (present : Bool)
  | wakeEvent (t : Nat) (holdupMj : Nat)
  | wakeDelayExpiry (t : Nat) (holdupMj : Nat)
  | bootStepEnd (t : Nat) (step : BootStep)
  | bootEnd (t : Nat)
  | startWaitExpiry (t : Nat)
  | termWindowEnd (t : Nat)
  | retireStart (t : Nat)
  | retireSwitchOff (t : Nat)
  | retireCommitWrites (t : Nat)
  | retireImage (t : Nat) (holdupMj : Nat)
  | retireEnd (t : Nat)
  | holdupMeasurement (t : Nat) (fullMj nowMj : Nat)
  | tb3Save (t : Nat)
  -- the pair (07)
  | twinClaimBegin (t : Nat) (malformed : Bool)
  | twinClaimAbsent (t : Nat) (malformed : Bool)
  | releasePattern (t : Nat) (malformed : Bool)
  | claimConfirmed (t : Nat)
  | ownClaimLost (t : Nat)
  | laneDown (t : Nat) (lane : Nat)
  | laneStartUp (t : Nat) (lane : Nat) (proto min slotId : Nat)
  | swathBlockReceived (t : Nat) (lane : Nat) (crcOk : Bool)
  | yield (t : Nat) (term : Nat)
  | claimReport (t : Nat) (seesClaim ownReadback : Bool)
  | yieldClaimStillPresent (t : Nat)
  | twinReportTimeout (t : Nat)
  | timeMarker (t : Nat) (m : Marker)
  | checkpointReceived (t : Nat) (c : Ckpt)
  | checkpointAck (t : Nat) (cls seq : Nat) (gaps : List Nat)
  | ckptLate (t : Nat) (cls : Nat)
  | synchronised (t : Nat)
  | syncingCopyBlock (t : Nat) (b : CopyBlock)
  | takeover (t : Nat)
  | isolated (t : Nat)
  | handoverArmCheck (t : Nat)
  | handover (t : Nat)
  | handoverStandbyEntry (t : Nat)
  | homeSettleExpiry (t : Nat)
  | provePeriodExpiry (t : Nat)
  | proveDwellExpiry (t : Nat)
  | swathLoopback (t : Nat) (lane : Nat) (passed : Bool)
  | fieldReadback (t : Nat) (agrees : Bool)
  | unprovenTick (t : Nat)
  -- cycles (03)
  | cycleStart (t : Nat) (cls : Nat)
  | readRetryTimeout (t : Nat) (tag : Nat)
  | readRsp (t : Nat) (f : RxFrame)
  | localCompletion (t : Nat) (offset : Nat) (status : Nat) (item : List Word)
  | publication (t : Nat) (cls : Nat)
  | taskEnd (t : Nat) (cls : Nat) (foldDiffers : Option Nat) (dirtyPages : List Nat)
  | outputCutoff (t : Nat) (cls : Nat)
  | writeRetryTimeout (t : Nat) (tag : Nat)
  -- received frames (04)
  | writeAck (t : Nat) (f : RxFrame)
  | peer (t : Nat) (f : RxFrame)
  | foreignFrame (t : Nat) (f : RxFrame)
  | bindRetryTimeout (t : Nat) (station : Nat)
  | announceBound (t : Nat) (f : RxFrame)
  | announceStart (t : Nat) (f : RxFrame)
  | diagResponse (t : Nat) (f : RxFrame)
  | diagTimeout (t : Nat) (station : Nat)
  -- timed actions (05)
  | schedPut (t : Nat) (cls handle : Nat) (value : Word) (apply : Nat) (asap : Bool)
  | schedCancel (t : Nat) (id : Nat)
  | schedStatus (t : Nat) (id : Nat)
  | schedEvaluation (t : Nat)
  | schedRetryTimeout (t : Nat) (station dispatch : Nat)
  | schedAck (t : Nat) (f : RxFrame)
  | publish (t : Nat) (f : RxFrame)
  | reportDeadlineExpiry (t : Nat) (id : Nat)
  -- runtime calls on points and time (02, 03, 06)
  | pointWrite (t : Nat) (handle : Nat) (value : Word)
  | pointReadCall (t : Nat) (handle : Nat)
  | epochRead (t : Nat) (ownCls cls : Nat) (handles : List Nat)
  | stampBlockRead (t : Nat) (handle : Nat)
  | timeNow (t : Nat) (base : Nat)
  -- time bases (06)
  | sync (t : Nat) (m : SyncMsg)
  | syncReceiptTimeout (t : Nat) (base : Nat)
  | announceReceiptTimeout (t : Nat) (base : Nat)
  | gptpAnnounce (t : Nat) (m : AnnounceMsg)
  | pdelayExchange (t : Nat) (port : Nat) (e : PdelayEvent)
  | gptpIntervalTimer (t : Nat) (kind port domain : Nat)
  | triggerFire (t : Nat) (slot : Nat)
  | ppsOutPulse (t : Nat)
  | ppsInEdge (t : Nat) (rising : Bool)
  | dio15Edge (t : Nat) (rising : Bool)
  | gateControlInterval (t : Nat) (port : Nat)
  -- lockstep (09)
  | lockstepFault (t : Nat) (cp : Nat) (f : LockFinding) (group : Nat)
  | comparatorSelfTest (t : Nat) (failed : Option Nat)
  | lockstepDiagnosisEnd (t : Nat) (cp : Nat) (retestOk scanOk lbistOk cacheError : Bool)
  | lbistStart (t : Nat)
  | lbistComplete (t : Nat) (passed : Bool)
  -- configurations (10)
  | flipArmCheck (t : Nat)
  | flipGo (t : Nat)
  | flipBoundary (t : Nat)
  | changeSetWritten (t : Nat)
  | snapshotCommit (t : Nat)
  -- Sheaf (13)
  | trialTokenRequest (t : Nat)
  | trialTokenTimeout (t : Nat)
  | activationRecordWritten (t : Nat) (readbackOk : Bool)
  | healthDwellPass (t : Nat)
  | trialWindowExpiry (t : Nat)
  | twinSheafPoll (t : Nat)
  -- digital channels (14)
  | sequencerUpdate (t : Nat) (fe : Nat) (valid : Bool)
  | outputApply (t : Nat) (offset : Nat) (status : Nat) (measured : Raw)
  | silenceTimeout (t : Nat) (fe : Nat)
  | wireBreakDetect (t : Nat) (ch : Nat) (broken : Bool)
  | overload (t : Nat) (ch : Nat) (cleared : Bool)
  | aggregateLimit (t : Nat) (ma : Nat)
  | mismatch (t : Nat) (ch : Nat) (differ : Bool)
  | fldLost (t : Nat) (lost : Bool) (mv : Nat)
  -- analogue channels (15)
  | conversionComplete (t : Nat) (ch : Nat) (value : Raw)
  | excitationWindow (t : Nat) (opens : Bool) (readings : List (Nat × Nat × Nat))
  | twinSenseReport (t : Nat) (ch : Nat) (inCircuit : Bool) (milliohm : Nat) (settings : Word)
  | twinSenseTimeout (t : Nat)
  | uaChannelFault (t : Nat) (ch : Nat) (f : UaFault) (cleared : Bool)
  | afsLost (t : Nat) (lost : Bool) (mv : Nat)
  | hartPut (t : Nat) (ch addr cmd : Nat) (data : List Byte)
  | hartGet (t : Nat) (id : Nat)
  | hartReply (t : Nat) (modem : Nat) (e : HartEvent)
  | hartPoll (t : Nat) (modem : Nat)
  -- CAN FD (16)
  | canFrameReceived (t : Nat) (ch : Nat) (f : CanFrame)
  | canTxRequest (t : Nat) (ch buf : Nat)
  | canTxEnd (t : Nat) (ch buf : Nat) (o : CanTxOutcome)
  | busOffRecoveryComplete (t : Nat) (ch : Nat)
  | canFifoRead (t : Nat) (ch fifo after max : Nat)
  | canFifoConsume (t : Nat) (ch fifo stamp : Nat)
  | canCancel (t : Nat) (ch buf : Nat)
  | canRecover (t : Nat) (ch : Nat)
  | referenceMessage (t : Nat) (ch : Nat)
  | refLate (t : Nat) (ch : Nat)
  | busIntegration (t : Nat) (ch : Nat)
  | canSettingsApply (t : Nat) (ch : Nat)
  -- recorder, display, memory tests, ports (17, 18, 12, 19)
  | recordAccept (t : Nat) (type : Nat) (payload : List Byte)
  | recorderFlush (t : Nat)
  | displayUpdate (t : Nat)
  | waveformEnd (t : Nat)
  | railDischargeDone (t : Nat)
  | panelTemperatureRead (t : Nat) (tenths : Int)
  | ledgerSave (t : Nat)
  | scrubVisit (t : Nat) (addr : Nat) (ecc : Ecc)
  | mowerWindow (t : Nat) (bank window : Nat) (demanded : Bool) (fault : Option (Nat × Nat))
  | windowAbandonedRetry (t : Nat) (bank window : Nat) (demanded : Bool)
  | transceiverInsertion (t : Nat) (port : Nat) (id : SfpId)
  | transceiverMonitor (t : Nat) (port : Nat) (highAlarm : Bool)
  | linkReturn (t : Nat) (port : Nat)
  -- rows added at the end of the table
  | twinModeReport (t : Nat) (mode : Nat)
  | homeReturnRequest (t : Nat)
  | flipArming (t : Nat) (version cycle : Nat)
  | flipArmed (t : Nat)
  | trialTokenGrant (t : Nat) (granted : Bool)
  | mb14Response (t : Nat) (m : Mb14Resp)
  | undefinedCommand (t : Nat) (code : Nat) (r : Req)
  | canBusError (t : Nat) (ch code : Nat) (dataPhase : Bool) (recRise : Nat)
  | lingCellEmpty (t : Nat)
  | recoveryReset (t : Nat) (port : Nat) (source dest : Nat)
  | messageIntervalRequest (t : Nat) (port domain : Nat) (logSync logPdelay logAnnounce : Int)
deriving DecidableEq, Repr

end Sys2Proof
end

