-- ==== Sys2Proof/WellFormed.lean ====
section
/-! DEFINITION. Well-formed commands: every operand names something that the module has. The meanings are total on all
commands; where an operand names nothing, only the clock moves. -/

namespace Sys2Proof

/-- The fields of a request fit the 16-byte header, and its mailbox exists; 16 stands for a connection beyond the eight
(11 R249, R250, R258). -/
def Req.wf (r : Req) : Bool :=
  decide (r.mb < 17) && decide (r.version < 256) && decide (r.flags < 256) && decide (r.tag < 65536) && decide (r.status < 65536) &&
  decide (r.length < 2 ^ 32) && decide (r.session < 2 ^ 32)
def Hdr.wf (h : Hdr) : Bool := decide (h.mb < 16) && decide (h.tag < 65536) && decide (h.session < 2 ^ 32)
/-- A frame came in on one of the plant ports P0 to P3 (04 R68). -/
def RxFrame.wf (f : RxFrame) : Bool := decide (f.port < 4)
/-- Masters are 0 to 18, addresses 40 bits, sizes 1, 2, 4 or 8 bytes (01 Table 1.3, 12 R270). -/
def Access.wf (a : Access) : Bool :=
  decide (a.master < 19) && decide (a.addr < 2 ^ 40) && (a.size == 1 || a.size == 2 || a.size == 4 || a.size == 8)
/-- Identifiers of 11 or 29 bits, at most 64 data bytes, DLC of 4 bits (16 R349, R352). -/
def CanFrame.wf (f : CanFrame) : Bool :=
  decide (f.id < 2 ^ 29) && decide (f.dlc < 16) && decide (f.data.length ≤ 64)

/-- A command whose operands exist. -/
def Instr.wf : Instr → Bool
  | .identify _ r | .sessionOpen _ r | .sessionClose _ r | .jobStatus _ r | .modeGet _ r | .modeRequest _ r | .pairStatus _ r
  | .pairHandover _ r | .paramRead _ r | .paramWrite _ r | .pointRead _ r | .pointForce _ r | .pointRelease _ r
  | .pointBrowse _ r | .cfgStage _ r | .cfgCheck _ r | .cfgFlip _ r | .cfgRevert _ r | .cfgList _ r | .sheafLoad _ r
  | .sheafVerify _ r | .sheafActivate _ r | .sheafConfirm _ r | .sheafStatus _ r | .sheafAbandon _ r | .timeStatus _ r
  | .timeStep _ r | .recOpen _ r | .recRead _ r | .recClose _ r | .recMark _ r | .memTest _ r | .displayText _ r
  | .displayRefresh _ r | .ownerLock _ r | .ownerUnlock _ r | .lifecycleAdvance _ r | .diagRead _ r => r.wf
  | .continuation _ code r | .undefinedCommand _ code r => decide (code < 65536) && r.wf
  | .pointsClrCounters _ h | .cycleClrCounters _ h | .schedClrCounters _ h | .timeClrCounters _ h | .pairClrCounters _ h
  | .powerClrCounters _ h | .lockClrCounters _ h | .memClrCounters _ h | .keyCtrlCommit _ h | .keyCtrlDiscardStaging _ h
  | .gateClrCounters _ h | .debugOpen _ h | .debugClose _ h | .sheafClrCounters _ h | .dioClrCounters _ h | .uaClrCounters _ h
  | .canClrCounters _ h | .recClrCounters _ h | .dispClrCounters _ h => h.wf
  | .reenable _ h mask => h.wf && decide (mask < 256)
  | .keyCtrlSetWindowBase _ h _ => h.wf
  | .keyWindow _ h first ws => h.wf && decide (first + ws.length ≤ 256)
  | .recoverCan _ h ch => h.wf && decide (ch < 2)
  | .post _ mb len => decide (mb < 16) && decide (len < 2 ^ 32)
  | .connectionClosed _ mb => decide (mb < 17)
  | .doneClear _ mb | .sessionIdleTimeout _ mb | .cursorExpiry _ mb => decide (mb < 16)
  | .fabricAccess _ a => a.wf
  | .debugReadWords _ addr _ _ | .debugWriteWords _ addr _ _ => decide (addr < 2 ^ 40)
  | .debugHaltCorePair _ n _ | .debugResumeCorePair _ n _ => decide (n < 8)
  | .laneDown _ l | .laneStartUp _ l _ _ _ | .swathBlockReceived _ l _ | .swathLoopback _ l _ => decide (l < 2)
  | .checkpointAck _ c _ _ | .ckptLate _ c | .cycleStart _ c | .publication _ c | .taskEnd _ c _ _ | .outputCutoff _ c
  | .schedPut _ c _ _ _ _ => decide (c < 4)
  | .epochRead _ own c _ => decide (own < 4) && decide (c < 4)
  | .readRsp _ f | .writeAck _ f | .peer _ f | .foreignFrame _ f | .announceBound _ f | .announceStart _ f | .diagResponse _ f
  | .schedAck _ f | .publish _ f => f.wf
  | .timeNow _ b => decide (b < 4)
  | .sync _ m => decide (m.port < 4)
  | .syncReceiptTimeout _ b | .announceReceiptTimeout _ b => decide (b < 2)
  | .gptpAnnounce _ m => decide (m.port < 4)
  | .pdelayExchange _ p _ | .gptpIntervalTimer _ _ p _ | .gateControlInterval _ p | .transceiverInsertion _ p _
  | .transceiverMonitor _ p _ | .linkReturn _ p | .messageIntervalRequest _ p _ _ _ _ => decide (p < 4)
  | .triggerFire _ n => decide (n < 32)
  | .lockstepFault _ cp _ _ | .lockstepDiagnosisEnd _ cp _ _ _ _ => decide (cp < 8)
  | .sequencerUpdate _ fe _ | .silenceTimeout _ fe => decide (fe < 2)
  | .wireBreakDetect _ ch _ | .overload _ ch _ | .mismatch _ ch _ => decide (ch < 16)
  | .conversionComplete _ ch _ | .twinSenseReport _ ch _ _ _ | .uaChannelFault _ ch _ _ | .hartPut _ ch _ _ _ => decide (ch < 8)
  | .hartReply _ m _ | .hartPoll _ m => decide (m < 2)
  | .canFrameReceived _ ch f => decide (ch < 2) && f.wf
  | .canTxRequest _ ch b | .canCancel _ ch b => decide (ch < 2) && decide (b < 32)
  | .canTxEnd _ ch b _ => decide (ch < 2) && decide (b < 32)
  | .busOffRecoveryComplete _ ch | .canRecover _ ch | .referenceMessage _ ch | .refLate _ ch | .busIntegration _ ch
  | .canSettingsApply _ ch => decide (ch < 2)
  | .canFifoRead _ ch f _ _ | .canFifoConsume _ ch f _ => decide (ch < 2) && decide (f < 2)
  | .canBusError _ ch _ _ _ => decide (ch < 2)
  | .mowerWindow _ b w _ _ | .windowAbandonedRetry _ b w _ => decide (b < 256) && decide (w < 1536)
  | .recoveryReset _ p _ _ => decide (p < 2)
  | .recordAccept _ ty pl => decide (ty < 65536) && decide (pl.length ≤ 32)
  | .twinModeReport _ m => decide (1 ≤ m) && decide (m ≤ 8)
  | .cfgStageJobEnd _ | .cfgCheckJobEnd _ | .sheafVerifyJobEnd _ | .memTestJobEnd _ _ _ _ _ | .lifecycleJobEnd _
  | .tlsHandshake _ _ _ | .handshakeTimeout _ | .jobExpiry _ _ | .mb14Timeout _ _ | .gateCommit _ | .commitDrainDone _
  | .dbgRstN _ _ | .watchdogService _ | .watchdogExpiry _ | .pllLossOfLock _ | .clockCheckWindow _ _ | .tamper _ _
  | .powerGood _ _ | .dip _ _ | .rideThroughEnd _ _ | .auxGoodChange _ _ _ | .overTemperature _ _ | .lingCellLow _ _
  | .presentNBreak _ | .ejectNOpen _ | .ejectNClose _ | .safeNAssert _ | .safeNRelease _ | .peerPresentNChange _ _
  | .wakeEvent _ _ | .wakeDelayExpiry _ _ | .bootStepEnd _ _ | .bootEnd _ | .startWaitExpiry _ | .termWindowEnd _
  | .retireStart _ | .retireSwitchOff _ | .retireCommitWrites _ | .retireImage _ _ | .retireEnd _ | .holdupMeasurement _ _ _
  | .tb3Save _ | .twinClaimBegin _ _ | .twinClaimAbsent _ _ | .releasePattern _ _ | .claimConfirmed _ | .ownClaimLost _
  | .yield _ _ | .claimReport _ _ _ | .yieldClaimStillPresent _ | .twinReportTimeout _ | .timeMarker _ _
  | .checkpointReceived _ _ | .synchronised _ | .syncingCopyBlock _ _ | .takeover _ | .isolated _ | .handoverArmCheck _
  | .handover _ | .handoverStandbyEntry _ | .homeSettleExpiry _ | .provePeriodExpiry _ | .proveDwellExpiry _
  | .fieldReadback _ _ | .unprovenTick _ | .readRetryTimeout _ _ | .localCompletion _ _ _ _ | .writeRetryTimeout _ _
  | .bindRetryTimeout _ _ | .diagTimeout _ _ | .schedCancel _ _ | .schedStatus _ _ | .schedEvaluation _
  | .schedRetryTimeout _ _ _ | .reportDeadlineExpiry _ _ | .pointWrite _ _ _ | .pointReadCall _ _ | .stampBlockRead _ _
  | .ppsOutPulse _ | .ppsInEdge _ _ | .dio15Edge _ _ | .comparatorSelfTest _ _ | .lbistStart _ | .lbistComplete _ _
  | .flipArmCheck _ | .flipGo _ | .flipBoundary _ | .changeSetWritten _ | .snapshotCommit _ | .trialTokenRequest _
  | .trialTokenTimeout _ | .activationRecordWritten _ _ | .healthDwellPass _ | .trialWindowExpiry _ | .twinSheafPoll _
  | .outputApply _ _ _ _ | .aggregateLimit _ _ | .fldLost _ _ _ | .excitationWindow _ _ _ | .twinSenseTimeout _
  | .afsLost _ _ _ | .hartGet _ _ | .recorderFlush _ | .displayUpdate _ | .waveformEnd _ | .railDischargeDone _
  | .panelTemperatureRead _ _ | .ledgerSave _ | .scrubVisit _ _ _ | .homeReturnRequest _ | .flipArming _ _ _ | .flipArmed _
  | .trialTokenGrant _ _ | .mb14Response _ _ | .lingCellEmpty _ => true

end Sys2Proof
end

