-- ==== Sys2Proof/Config.lean ====
section
/-! DEFINITION. What the spec leaves free or one implementation fixes: constants without a body, so that no proof can see
their values. -/

namespace Sys2Proof.Config

/-- A value nothing constrains, one per use (log 3): random session ids, segment response numbers. -/
opaque freeWord : Nat → Word
/-- SHA-384 (10 R216, 13 R299, 11 R257): a standard the spec names and does not print (log 4). -/
opaque sha384 : List Byte → List Byte
/-- Whether an ECDSA P-384 signature of a digest verifies under a public key (10 R216, 13 R299) (log 4). -/
opaque ecdsaOk : List Byte → List Byte → List Byte → Bool
/-- Whether the P-384 server key matches the leaf of a certificate chain (12 R289) (log 4). -/
opaque keyMatches : List Byte → List Byte → Bool
/-- α = 1 − exp(−T / P) of FIRST_ORDER in binary64 from the period in µs and P (02 R35, R33) (log 5). -/
opaque firstOrderAlpha : Nat → Word64 → Word64
/-- °C of an RTD from its sensor code and resistance in mΩ, IEC 60751, in binary64 (15 R332) (log 6). -/
opaque rtdCelsius : Nat → Nat → Word64
/-- °C of a thermocouple from its type code, emf in nV and cold junction in 0.01 °C, IEC 60584-1 (15 R343) (log 6). -/
opaque thermocoupleCelsius : Nat → Nat → Int → Word64
/-- Cold-junction temperature in 0.01 °C from the Pt1000 resistance in mΩ (15 R342) (log 6). -/
opaque coldJunction : Nat → Int
/-- Ling ticks between two instants in CD_TIME ticks while the die is off (06 R123): the crystal's error is free (log 2). -/
opaque lingTicks : Nat → Nat → Nat
/-- LEAD in µs of a configuration version (05 R104): no section of the image holds it (log 7). -/
opaque leadUs : Nat → Nat
/-- Whether a core runtime of the first version serves a RUNTIME_ABI (10 R222): the spec gives no table (log 8). -/
opaque abiServed : Nat → Nat → Bool
/-- Whether a received priority vector's path is better when all listed fields tie (06 R125) (log 9). -/
opaque tieBreak : Nat → Nat → Bool

/-- The declared capacity c of a BLOCK point, in units of 8 bytes less one, by configuration version and handle: no section
of the image holds it (02 R29; log 15). -/
opaque blockUnits : Nat → Nat → Nat

/-- Drive frames at +15 V (positive) or −15 V (negative) that a waveform gives an icon, from the free-value counter and the
icon: the waveform tables are a Sheaf component (18 R386; log 17). -/
opaque iconFrames : Nat → Nat → Int

/-- The factory-calibrated value in mΩ of a channel's own sense resistor, plain or multi-drop (15 R335; log 22). -/
opaque senseMilliohm : Nat → Bool → Nat
/-- The element resistance of a 3-wire RTD from its two conversions in mΩ: the spec gives no formula (15 R334; log 6). -/
opaque rtd3Milliohm : Nat → Nat → Nat

/-- RATE in 2^-40 by which a base in TWIN is steered, from TWIN_DIFF in 2^-8 ns and the PRIMARY's RATE: the spec bounds it and
gives no formula (06 R133; log 27). -/
opaque twinSteer : Int → Int → Int
/-- The module's own clockIdentity: no section of the spec gives it (06 R125; log 9). -/
opaque ownClockId : Nat

/-- The architectural state of a core at a fold: word i of the 81, by the free-value counter (09 R203; log 29). -/
opaque coreWord : Nat → Nat → Word64

/-- What the factory writes into the module: 0 the serial number, 1 the board issue, 2 the die stepping (11 Table 11.11; log 39). -/
opaque factory : Nat → Nat

/-- VALUE and LIMIT of a report entry for which the spec names no figure, by configuration version, check, subject and which of
the two (10 R233; log 41). -/
opaque reportFigure : Nat → Nat → Nat → Bool → Nat

end Sys2Proof.Config
end

