-- ==== Sys2Proof/Machine/Bits.lean ====
section
/-! DEFINITION. Bit fields, byte order, saturation, serial arithmetic and the two CRCs of the spec. -/

namespace Sys2Proof.Machine

/-- Bits [lo + w − 1 : lo] of a number (00 Table 0.3). -/
def bits (x lo w : Nat) : Nat := (x / 2 ^ lo) % 2 ^ w
/-- One bit of a number. -/
def bit (x n : Nat) : Bool := x.testBit n
/-- `x` with bits [lo + w − 1 : lo] replaced by `v`. -/
def setBits (x lo w v : Nat) : Nat := x - bits x lo w * 2 ^ lo + (v % 2 ^ w) * 2 ^ lo
/-- A one-bit field from a condition. -/
def b2n (b : Bool) : Nat := if b then 1 else 0
/-- Counters saturate at 0xFFFF_FFFF (02 R46 and every block). -/
def sat32 (n : Nat) : Nat := min n 0xFFFFFFFF
/-- One more on a counter that saturates at 0xFFFF_FFFF. -/
def inc32 (n : Nat) : Nat := sat32 (n + 1)
/-- `k` more on a counter that saturates at 0xFFFF_FFFF. -/
def add32 (n k : Nat) : Nat := sat32 (n + k)
/-- Two's complement value of the low `w` bits. -/
def signed (w x : Nat) : Int := if x % 2 ^ w < 2 ^ (w - 1) then (x % 2 ^ w : Nat) else ((x % 2 ^ w : Nat) : Int) - 2 ^ w
/-- The low `w` bits of an integer, two's complement. -/
def unsignedOf (w : Nat) (x : Int) : Nat := (x % (2 ^ w : Int)).toNat
/-- A signed field that saturates at its ends (06 R144). -/
def satSigned (w : Nat) (x : Int) : Nat := unsignedOf w (max (-(2 ^ (w - 1))) (min (2 ^ (w - 1) - 1) x))
/-- a is after b among 32-bit serial values (00 R7). -/
def serialAfter (a b : Nat) : Bool :=
  let d := (a + 2 ^ 32 - b % 2 ^ 32) % 2 ^ 32
  decide (1 ≤ d) && decide (d ≤ 2 ^ 31 - 1)
/-- a is after b or equal to it (00 R7). -/
def serialGe (a b : Nat) : Bool := serialAfter a b || decide (a % 2 ^ 32 = b % 2 ^ 32)

/-- The n low bytes of a number, least significant first (00 R5). -/
def leBytes : Nat → Nat → List Byte
  | 0, _ => []
  | n + 1, x => BitVec.ofNat 8 x :: leBytes n (x / 256)
/-- The number that little-endian bytes spell (00 R5). -/
def leNat : List Byte → Nat
  | [] => 0
  | b :: bs => b.toNat + 256 * leNat bs
/-- The number that bytes in network order spell (00 R5). -/
def beNat (bs : List Byte) : Nat := leNat bs.reverse
/-- The n low bytes of a number in network order. -/
def beBytes (n x : Nat) : List Byte := (leBytes n x).reverse
/-- The n bytes at an offset. -/
def slice (bs : List Byte) (off n : Nat) : List Byte := (bs.drop off).take n
/-- The little-endian field of n bytes at an offset; bytes beyond the end read 0. -/
def field (bs : List Byte) (off n : Nat) : Nat := leNat (slice bs off n)
/-- All bytes of a range are 0. -/
def zeros (bs : List Byte) (off n : Nat) : Bool := (slice bs off n).all (· == 0#8)
/-- n zero bytes. -/
def zeroBytes (n : Nat) : List Byte := List.replicate n 0#8
/-- Bytes cut or zero-padded to n. -/
def padTo (n : Nat) (bs : List Byte) : List Byte := bs.take n ++ zeroBytes (n - bs.length)
/-- The items of size k that a byte sequence holds. -/
def chunks (k : Nat) : Nat → List Byte → List (List Byte)
  | 0, _ => []
  | n + 1, bs => bs.take k :: chunks k n (bs.drop k)
/-- ASCII text as bytes. -/
def ascii (s : String) : List Byte := s.toList.map fun c => BitVec.ofNat 8 c.toNat

/-- One bit of the reflected CRC-32C (04 R72: polynomial 0x1EDC_6F41). -/
def crc32cBit (c : Word) : Word := if c.getLsbD 0 then (c >>> 1) ^^^ 0x82F63B78#32 else c >>> 1
/-- One byte of the CRC-32C. -/
def crc32cByte (c : Word) (b : Byte) : Word :=
  let x := c ^^^ b.zeroExtend 32
  crc32cBit (crc32cBit (crc32cBit (crc32cBit (crc32cBit (crc32cBit (crc32cBit (crc32cBit x)))))))
/-- CRC-32C: initial value and final XOR 0xFFFF_FFFF (04 R72). -/
def crc32c (bs : List Byte) : Word := (bs.foldl crc32cByte 0xFFFFFFFF#32) ^^^ 0xFFFFFFFF#32

/-- One bit of the CRC-64 of the state fold (09 R203: polynomial 0x42F0_E1EB_A9EA_3693, not reflected). -/
def crc64Bit (c : Word64) (b : Bool) : Word64 :=
  if c.getLsbD 63 != b then (c <<< 1) ^^^ 0x42F0E1EBA9EA3693#64 else c <<< 1
/-- CRC-64 over 64-bit words, most significant bit first, initial value 0, no final XOR (09 R203). -/
def crc64 (ws : List Word64) : Word64 :=
  ws.foldl (fun c w => ((List.range 64).map fun i => w.getLsbD (63 - i)).foldl crc64Bit c) 0#64

/-! Status codes of Pastasy responses and of runtime calls (11 Table 11.7). -/
def stOk : Nat := 0x0000
def stAccepted : Nat := 0x0001
def stPartial : Nat := 0x0002
def stGap : Nat := 0x0003
def stBusy : Nat := 0x0101
def stLength : Nat := 0x0102
def stUnknown : Nat := 0x0103
def stState : Nat := 0x0104
def stDenied : Nat := 0x0105
def stConflict : Nat := 0x0106
def stCapacity : Nat := 0x0107
def stVersion : Nat := 0x0108
def stIntegrity : Nat := 0x0109
def stTimeout : Nat := 0x010A
def stRange : Nat := 0x010B
def stLocked : Nat := 0x010C
def stLowEnergy : Nat := 0x010D
def stTooLate : Nat := 0x010E

/-- ⌈a / b⌉. -/
def ceilDiv (a b : Nat) : Nat := (a + b - 1) / b

end Sys2Proof.Machine
end

