-- ==== Sys2Proof/Machine/Float.lean ====
section
/-! DEFINITION. IEEE 754 binary64 and binary32 arithmetic, round to nearest even, one rounding per operation (02 R33). -/

namespace Sys2Proof.Machine

/-- The pattern of num/den (both positive or num 0) rounded to nearest even, for `p` significant bits and a least
exponent `emin`, over `w` exponent bits; overflow gives infinity. -/
def roundRat (p w : Nat) (emin : Int) (neg : Bool) (num den : Nat) : Nat :=
  let sgn := b2n neg * 2 ^ (p - 1 + w)
  let inf := (2 ^ w - 1) * 2 ^ (p - 1)
  if num = 0 then sgn else
  let e0 : Int := (Nat.log2 num : Int) - (Nat.log2 den : Int)
  let ge : Bool := if 0 ≤ e0 then decide (den * 2 ^ e0.toNat ≤ num) else decide (den ≤ num * 2 ^ (-e0).toNat)
  let e : Int := if ge then e0 else e0 - 1
  let q : Int := max (e - (p - 1 : Nat)) emin
  let n := if 0 ≤ q then num else num * 2 ^ (-q).toNat
  let d := if 0 ≤ q then den * 2 ^ q.toNat else den
  let r := n / d
  let m := n % d
  let r := if 2 * m > d || (2 * m == d && r % 2 == 1) then r + 1 else r
  let enc := if r < 2 ^ (p - 1) then r else (q - emin + 1).toNat * 2 ^ (p - 1) + (r - 2 ^ (p - 1))
  sgn + min enc inf

/-- binary64 of ± num/den. -/
def f64OfRat (neg : Bool) (num den : Nat) : Word64 := BitVec.ofNat 64 (roundRat 53 11 (-1074) neg num den)
/-- binary32 of ± num/den. -/
def f32OfRat (neg : Bool) (num den : Nat) : Word := BitVec.ofNat 32 (roundRat 24 8 (-149) neg num den)

def f64Neg (x : Word64) : Bool := x.getLsbD 63
def f64Exp (x : Word64) : Nat := bits x.toNat 52 11
def f64Frac (x : Word64) : Nat := bits x.toNat 0 52
/-- Neither infinite nor NaN. -/
def f64Finite (x : Word64) : Bool := f64Exp x != 2047
def f64IsNaN (x : Word64) : Bool := f64Exp x == 2047 && f64Frac x != 0
def f64IsInf (x : Word64) : Bool := f64Exp x == 2047 && f64Frac x == 0
def f64IsZero (x : Word64) : Bool := f64Exp x == 0 && f64Frac x == 0
def f64NaN : Word64 := 0x7FF8000000000000#64
def f64Inf (neg : Bool) : Word64 := if neg then 0xFFF0000000000000#64 else 0x7FF0000000000000#64
def f64Zero (neg : Bool) : Word64 := if neg then 0x8000000000000000#64 else 0#64
/-- Significand of a finite number: the value is ± sig · 2^-1074 · 2^shift. -/
def f64Sig (x : Word64) : Nat := if f64Exp x = 0 then f64Frac x else 2 ^ 52 + f64Frac x
def f64Shift (x : Word64) : Nat := f64Exp x - 1
/-- A finite number in units of 2^-1074. -/
def f64Units (x : Word64) : Int := (if f64Neg x then -1 else 1) * ((f64Sig x * 2 ^ f64Shift x : Nat) : Int)
/-- An exact integer in units of 2^-1074, rounded. -/
def f64OfUnits (zeroNeg : Bool) (u : Int) : Word64 :=
  if u = 0 then f64Zero zeroNeg else f64OfRat (decide (u < 0)) u.natAbs (2 ^ 1074)

/-- binary64 addition. -/
def f64Add (x y : Word64) : Word64 :=
  if f64IsNaN x || f64IsNaN y then f64NaN
  else if f64IsInf x then (if f64IsInf y && f64Neg x != f64Neg y then f64NaN else x)
  else if f64IsInf y then y
  else f64OfUnits (f64Neg x && f64Neg y) (f64Units x + f64Units y)
/-- binary64 negation. -/
def f64Opp (x : Word64) : Word64 := x ^^^ 0x8000000000000000#64
/-- binary64 subtraction. -/
def f64Sub (x y : Word64) : Word64 := f64Add x (f64Opp y)
/-- binary64 multiplication. -/
def f64Mul (x y : Word64) : Word64 :=
  let s := f64Neg x != f64Neg y
  if f64IsNaN x || f64IsNaN y then f64NaN
  else if f64IsInf x || f64IsInf y then (if f64IsZero x || f64IsZero y then f64NaN else f64Inf s)
  else if f64IsZero x || f64IsZero y then f64Zero s
  else f64OfRat s ((f64Units x).natAbs * (f64Units y).natAbs) (2 ^ 2148)
/-- binary64 division. -/
def f64Div (x y : Word64) : Word64 :=
  let s := f64Neg x != f64Neg y
  if f64IsNaN x || f64IsNaN y then f64NaN
  else if f64IsInf x then (if f64IsInf y then f64NaN else f64Inf s)
  else if f64IsInf y then f64Zero s
  else if f64IsZero y then (if f64IsZero x then f64NaN else f64Inf s)
  else if f64IsZero x then f64Zero s
  else f64OfRat s (f64Units x).natAbs (f64Units y).natAbs
/-- binary64 square root, correctly rounded: the integer root carries a sticky bit. -/
def f64Sqrt (x : Word64) : Word64 :=
  if f64IsNaN x then f64NaN else if f64IsZero x then x else if f64Neg x then f64NaN else if f64IsInf x then x
  else
    let n := (f64Units x).natAbs * 2 ^ 1074
    let r := Nat.sqrt n
    f64OfRat false (2 * r + b2n (decide (r * r ≠ n))) (2 * 2 ^ 1074)
/-- x < y for numbers that are not NaN. -/
def f64Lt (x y : Word64) : Bool :=
  if f64IsNaN x || f64IsNaN y then false
  else if f64IsInf x then (f64Neg x && !(f64IsInf y && f64Neg y))
  else if f64IsInf y then !f64Neg y
  else decide (f64Units x < f64Units y)
/-- |x|. -/
def f64Abs (x : Word64) : Word64 := x &&& 0x7FFFFFFFFFFFFFFF#64
/-- An integer as binary64. -/
def f64OfInt (i : Int) : Word64 := if i = 0 then 0#64 else f64OfRat (decide (i < 0)) i.natAbs 1
/-- A finite binary64 rounded to the nearest integer, ties to even. -/
def f64ToInt (x : Word64) : Int :=
  let u := (f64Units x).natAbs
  let d := 2 ^ 1074
  let r := u / d
  let m := u % d
  let r := if 2 * m > d || (2 * m == d && r % 2 == 1) then r + 1 else r
  if f64Neg x then -(r : Int) else r

def f32Exp (x : Word) : Nat := bits x.toNat 23 8
def f32Frac (x : Word) : Nat := bits x.toNat 0 23
/-- Neither infinite nor NaN. -/
def f32Finite (x : Word) : Bool := f32Exp x != 255
/-- A finite binary32 as binary64, exactly. -/
def f64OfF32 (x : Word) : Word64 :=
  let neg := x.getLsbD 31
  let sig := if f32Exp x = 0 then f32Frac x else 2 ^ 23 + f32Frac x
  if sig = 0 then f64Zero neg else f64OfRat neg (sig * 2 ^ (f32Exp x - 1)) (2 ^ 149)
/-- A finite binary64 rounded once to binary32. -/
def f32OfF64 (x : Word64) : Word :=
  if f64IsZero x then (if f64Neg x then 0x80000000#32 else 0#32)
  else f32OfRat (f64Neg x) (f64Units x).natAbs (2 ^ 1074)

end Sys2Proof.Machine
end

