-- ==== Sys2Proof/Machine/Cfg.lean ====
section
/-! DEFINITION. A configuration: the records of the sections of an image and how they are read from its bytes
(10 R215–R228). -/

namespace Sys2Proof.Machine

/-- A station record (10 Table 10.12). -/
structure StationRec where
  addr : Nat
  flags : Nat
  ports : Nat
  mac : List Byte
  hops : Nat
  model : Nat
  delayPs : Nat
  turnNs : Nat
  leadNs : Nat
  holdUs : List Nat
  spare : Bool
deriving DecidableEq, Repr

/-- A peer record (10 Table 10.13). -/
structure PeerRec where
  peer : Nat
  pairId : Nat
  group : List Byte
  spare : Bool
deriving DecidableEq, Repr

/-- A point record (10 R218). -/
structure PointRec where
  handle : Nat
  rule : Word64
  init : Word
  spare : Bool
deriving DecidableEq, Repr

/-- A transform table entry (02 Table 2.7). -/
structure Transform where
  type : Nat
  flags : Nat
  rawKind : Nat
  count : Nat
  index : Nat
  spare : Bool
  p : List Word64
deriving DecidableEq, Repr

/-- A filter table entry (02 R35). -/
structure Filter where
  type : Nat
  edges : Nat
  n : Nat
  spare : Bool
  p : Word64
deriving DecidableEq, Repr

/-- A class record (10 Table 10.14). -/
structure ClassRec where
  periodUs : Nat
  deadlineUs : Nat
  windowUs : Nat
  applyUs : Nat
  quota : Nat
  stale : Nat
  overrun : Nat
  spare : Bool
  reads : Nat
  writes : Nat
deriving DecidableEq, Repr

/-- A transaction record (10 Table 10.15): the class it stands under, its station, direction and ranges. -/
structure TransRec where
  cls : Nat
  station : Nat
  isWrite : Bool
  count : Nat
  ranges : List (Nat × Nat)
  spare : Bool
deriving DecidableEq, Repr

/-- A task record (10 Table 10.16). -/
structure TaskRec where
  task : Nat
  cls : Nat
  prio : Nat
  pair : Nat
  fallback : List Nat
  wcetNs : Nat
  entry : Nat
  spare : Bool
deriving DecidableEq, Repr

/-- A protection map entry (12 R283): gate, rule index and the four words of Table 12.2. -/
structure MapEntry where
  gate : Nat
  rule : Nat
  spare : Bool
  words : List Nat
deriving DecidableEq, Repr

/-- A CAN channel's block of section 0x0A (10 R224): words C + 0 to C + 4, the transmit buffer words, the elements. -/
structure CanCfg where
  words : List Nat
  tx : List Nat
  filters : List (Nat × Nat × Nat)
deriving DecidableEq, Repr

/-- A gate control list entry (06 R140): gate states and interval in ns. -/
structure GclEntry where
  gates : Nat
  interval : Nat
  spare : Bool
deriving DecidableEq, Repr

/-- The head of section 0x0B (10 Table 10.17) and its port records (10 Table 10.18). -/
structure TimeCfg where
  domain0 : Nat
  domain1 : Nat
  priority1 : Nat
  priority2 : Nat
  gmCapable : Nat
  extPort : Nat
  logSync : Int
  logPdelay : Int
  slewPpm : Nat
  ppsOutBase : Nat
  ppsIn : Nat
  thresholdNs : Nat
  tb2Offset : Int
  ports : List (Int × Int × Nat × Nat)
  triggers : List (List Nat)
  lists : List (List GclEntry)
deriving DecidableEq, Repr

/-- Sections 0x0C to 0x0F (10 R226–R228). -/
structure PairCfg where
  homeSlot : Nat
  proveEnable : Bool
  autoStart : Bool
  homeSettle : Nat
  provePeriodH : Nat
  proveDwellS : Nat
  spare : Bool
  pubCounts : List Nat
  pubs : List Nat
  minimums : List (Nat × Nat)
  budgets : List (Nat × Nat × Nat)
  taskPages : List (Nat × Nat)
deriving DecidableEq, Repr

/-- The station map head and records (10 Tables 10.11–10.13). -/
structure MapCfg where
  topology : Nat
  ethertype : Nat
  vid : Nat
  stationGroup : List Byte
  pairGroup : List Byte
  pubGroup : List Byte
  pcp : List Nat
  pmd : List Nat
  e0Port : Nat
  stations : List StationRec
  peers : List PeerRec
deriving DecidableEq, Repr

/-- A whole configuration. -/
structure Cfg where
  version : Nat
  pairId : Nat
  length : Nat
  keyIndex : Nat
  digest : List Byte
  map : MapCfg
  points : List PointRec
  transforms : List Transform
  filters : List Filter
  characteristics : List (List (Word × Word))
  classes : List ClassRec
  trans : List TransRec
  tasks : List TaskRec
  abi : Nat
  text : List Byte
  data : List Byte
  zeroLen : Nat
  gates : List MapEntry
  dioWord : Nat
  dio : List Nat
  uaWord : Nat
  ua : List (Nat × Nat)
  can : List CanCfg
  time : TimeCfg
  pair : PairCfg
deriving DecidableEq, Repr

/-- The section of an id, by the section table (10 R215 Table 10.2). -/
def section_ (img : List Byte) (id : Nat) : List Byte :=
  match ((chunks 32 32 (slice img 256 1024)).find? fun e => field e 0 2 == id) with
  | some e => slice img (field e 8 8) (field e 16 8)
  | none => []

def parseStation (b : List Byte) : StationRec :=
  { addr := field b 0 2, flags := field b 2 1, ports := field b 3 1, mac := slice b 4 6, hops := field b 10 2,
    model := field b 12 4, delayPs := field b 16 4, turnNs := field b 20 4, leadNs := field b 24 4,
    holdUs := (List.range 4).map fun i => field b (32 + 4 * i) 4, spare := zeros b 28 4 && zeros b 48 16 }
def parsePeer (b : List Byte) : PeerRec :=
  { peer := field b 0 1, pairId := field b 4 4, group := slice b 8 6, spare := zeros b 1 3 && zeros b 14 2 }
def parsePoint (b : List Byte) : PointRec :=
  { handle := field b 0 3, rule := BitVec.ofNat 64 (field b 4 8), init := BitVec.ofNat 32 (field b 12 4), spare := zeros b 3 1 }
def parseTransform (b : List Byte) : Transform :=
  { type := field b 0 1, flags := field b 1 1, rawKind := field b 2 1, count := field b 3 1, index := field b 4 2,
    spare := zeros b 6 2, p := (List.range 7).map fun i => BitVec.ofNat 64 (field b (8 + 8 * i) 8) }
def parseFilter (b : List Byte) : Filter :=
  { type := field b 0 1, edges := field b 1 1, n := field b 2 2, spare := zeros b 4 4, p := BitVec.ofNat 64 (field b 8 8) }
def parseChar (b : List Byte) : List (Word × Word) :=
  (chunks 8 32 b).map fun c => (BitVec.ofNat 32 (field c 0 4), BitVec.ofNat 32 (field c 4 4))
def parseClass (b : List Byte) : ClassRec :=
  { periodUs := field b 0 4, deadlineUs := field b 4 4, windowUs := field b 8 4, applyUs := field b 12 4, quota := field b 16 2,
    stale := field b 18 2, overrun := field b 20 1, spare := zeros b 21 3, reads := field b 24 4, writes := field b 28 4 }
def parseTrans (cls : Nat) (b : List Byte) : TransRec :=
  { cls := cls, station := field b 0 2, isWrite := field b 2 1 == 1, count := field b 3 1,
    ranges := (chunks 4 8 (slice b 4 32)).map fun r => (field r 0 2, field r 2 2),
    spare := zeros b 36 4 && decide (field b 2 1 < 2) }
def parseTask (b : List Byte) : TaskRec :=
  { task := field b 0 2, cls := field b 2 1, prio := field b 3 1, pair := field b 4 1,
    fallback := (List.range 8).map fun i => field b (5 + i) 1, wcetNs := field b 16 4, entry := field b 24 8,
    spare := zeros b 13 3 && zeros b 20 4 }
def parseMapEntry (b : List Byte) : MapEntry :=
  { gate := field b 0 1, rule := field b 1 1, spare := zeros b 2 2, words := (List.range 4).map fun i => field b (4 + 4 * i) 4 }
def parseGcl (b : List Byte) : GclEntry :=
  { gates := field b 7 1, interval := field b 0 4, spare := zeros b 4 3 }

/-- The transactions class by class, reads before writes (10 R221). -/
def parseTransactions (classes : List ClassRec) (b : List Byte) : List TransRec :=
  ((classes.foldl (fun (acc : Nat × Nat × List TransRec) c =>
    let n := c.reads + c.writes
    (acc.1 + 1, acc.2.1 + n,
      acc.2.2 ++ (chunks 40 n (b.drop (40 * acc.2.1))).map (parseTrans acc.1))) (0, 0, [])).2).2

/-- A CAN block and the bytes it takes (10 R224). -/
def parseCan (b : List Byte) : CanCfg × Nat :=
  let words := (List.range 5).map fun i => field b (4 * i) 4
  let n := bits (words.getD 2 0) 23 9
  let len := 152 + 12 * n
  ({ words := words, tx := (List.range 32).map fun i => field b (24 + 4 * i) 4,
     filters := (chunks 12 n (b.drop 152)).map fun e => (field e 0 4, field e 4 4, field e 8 4) },
   len + (8 - len % 8) % 8)

/-- The gate control lists that follow the trigger records, one port after another (10 R225). -/
def parseLists : Nat → List Byte → List (List GclEntry)
  | 0, _ => []
  | n + 1, b =>
    let c := field b 0 2
    (chunks 8 c (b.drop 8)).map parseGcl :: parseLists n (b.drop (8 + 8 * c))

def parseTimeCfg (b : List Byte) : TimeCfg :=
  { domain0 := field b 0 1, domain1 := field b 1 1, priority1 := field b 2 1, priority2 := field b 3 1,
    gmCapable := field b 4 1, extPort := field b 5 1, logSync := signed 8 (field b 6 1), logPdelay := signed 8 (field b 7 1),
    slewPpm := field b 8 2, ppsOutBase := field b 10 1, ppsIn := field b 11 1, thresholdNs := field b 12 4,
    tb2Offset := signed 32 (field b 16 4),
    ports := (chunks 16 4 (b.drop 64)).map fun p => (signed 32 (field p 0 4), signed 32 (field p 4 4), field p 8 1, field p 9 1),
    triggers := (chunks 16 28 (b.drop 128)).map fun t => (List.range 4).map fun i => field t (4 * i) 4,
    lists := parseLists 4 (b.drop 576) }

def parsePairCfg (s0c s0d s0e s0f : List Byte) (nTasks : Nat) : PairCfg :=
  let counts := (List.range 4).map fun i => field s0d (4 * i) 4
  { homeSlot := field s0c 0 1, proveEnable := bit (field s0c 1 1) 0, autoStart := bit (field s0c 2 1) 0,
    homeSettle := field s0c 4 4, provePeriodH := field s0c 8 4, proveDwellS := field s0c 12 4,
    spare := zeros s0c 3 1 && zeros s0c 16 8 && decide (field s0c 1 1 < 2) && decide (field s0c 2 1 < 2),
    pubCounts := counts, pubs := (chunks 4 counts.sum (s0d.drop 16)).map fun h => field h 0 4,
    minimums := (chunks 8 9 s0e).map fun m => (field m 0 2, field m 4 4),
    budgets := (chunks 16 4 s0f).map fun m => (field m 0 4, field m 4 4, field m 8 4),
    taskPages := (chunks 8 nTasks (s0f.drop 64)).map fun m => (field m 0 2, field m 4 4) }

def parseMap (b : List Byte) : MapCfg :=
  { topology := field b 3 1, ethertype := field b 4 2, vid := field b 6 2, stationGroup := slice b 8 6, pairGroup := slice b 14 6,
    pubGroup := slice b 20 6, pcp := (List.range 5).map fun i => field b (28 + i) 1,
    pmd := (List.range 4).map fun i => field b (36 + i) 1, e0Port := field b 40 2,
    stations := (chunks 64 (field b 0 2) (b.drop 64)).map parseStation,
    peers := (chunks 16 (field b 2 1) (b.drop (64 + 64 * field b 0 2))).map parsePeer }

/-- The configuration that an image holds (10 R215–R228). -/
def parseCfg (img : List Byte) : Cfg :=
  let s02 := section_ img 2
  let s06 := section_ img 6
  let s07 := section_ img 7
  let s08 := section_ img 8
  let s09 := section_ img 9
  let s0a := section_ img 10
  let classes := (chunks 32 4 (s06.drop 16)).map parseClass
  let nTasks := field s06 0 4
  let nTrans := field s06 4 4
  let textLen := field s07 8 8
  let can0 := parseCan s0a
  { version := field img 8 4, pairId := field img 12 4, length := field img 16 8, keyIndex := field img 36 4,
    digest := slice img 40 48, map := parseMap (section_ img 1),
    points := (chunks 16 (s02.length / 16) s02).map parsePoint,
    transforms := (chunks 64 16384 (section_ img 3)).map parseTransform,
    filters := (chunks 16 16384 (section_ img 4)).map parseFilter,
    characteristics := (chunks 256 1024 (section_ img 5)).map parseChar,
    classes := classes, trans := parseTransactions classes (s06.drop 144),
    tasks := (chunks 32 nTasks (s06.drop (144 + 40 * nTrans))).map parseTask,
    abi := field s07 0 4, text := slice s07 32 textLen,
    data := slice s07 (32 + textLen + (8 - textLen % 8) % 8) (field s07 16 8), zeroLen := field s07 24 8,
    gates := (chunks 20 (s08.length / 20) s08).map parseMapEntry,
    dioWord := field s09 0 4, dio := (List.range 16).map fun i => field s09 (8 + 4 * i) 4,
    uaWord := field s09 4 4, ua := (List.range 8).map fun i => (field s09 (72 + 8 * i) 4, field s09 (76 + 8 * i) 4),
    can := [can0.1, (parseCan (s0a.drop can0.2)).1],
    time := parseTimeCfg (section_ img 11),
    pair := parsePairCfg (section_ img 12) (section_ img 13) (section_ img 14) (section_ img 15) nTasks }

/-! Fields of a compiled rule (02 Table 2.3). -/
def ruleKind (r : Word64) : Nat := bits r.toNat 60 4
def ruleStation (r : Word64) : Nat := bits r.toNat 48 12
def ruleOffset (r : Word64) : Nat := bits r.toNat 32 16
def ruleClass (r : Word64) : Nat := bits r.toNat 30 2
def ruleIsOut (r : Word64) : Bool := bit r.toNat 29
def ruleTimed (r : Word64) : Bool := bit r.toNat 28
def ruleTransform (r : Word64) : Nat := bits r.toNat 14 14
def ruleFilter (r : Word64) : Nat := bits r.toNat 0 14

/-- The settings in force while no configuration is sown: the defaults that the spec prints (log 10). -/
def defaultClass (p stale : Nat) : ClassRec :=
  { periodUs := p, deadlineUs := p / 4, windowUs := p / 4, applyUs := p, quota := 8, stale := stale, overrun := 0, spare := true,
    reads := 0, writes := 0 }

/-- What the registers marked 'configuration' read while no configuration is sown (log 10). -/
def noCfg : Cfg :=
  { version := 0, pairId := 0, length := 0, keyIndex := 0, digest := [],
    map := { topology := 0, ethertype := 0x88B5, vid := 100, stationGroup := zeroBytes 6, pairGroup := zeroBytes 6,
             pubGroup := zeroBytes 6, pcp := [6, 6, 5, 4, 2], pmd := [0, 0, 0, 0], e0Port := 4470, stations := [], peers := [] },
    points := [], transforms := [], filters := [], characteristics := [],
    classes := [defaultClass 1000 8, defaultClass 10000 8, defaultClass 100000 8, defaultClass 1000000 8],
    trans := [], tasks := [], abi := 0, text := [], data := [], zeroLen := 0, gates := [], dioWord := 0,
    dio := List.replicate 16 0, uaWord := 0, ua := List.replicate 8 (0, 0),
    can := List.replicate 2 { words := [0, 0, 0, 0, 0], tx := List.replicate 32 0, filters := [] },
    time := { domain0 := 0, domain1 := 1, priority1 := 248, priority2 := 248, gmCapable := 0, extPort := 0, logSync := -3,
              logPdelay := 0, slewPpm := 100, ppsOutBase := 0, ppsIn := 0, thresholdNs := 50000, tb2Offset := 0,
              ports := List.replicate 4 (0, 0, 0, 0), triggers := List.replicate 28 [0, 0, 0, 0], lists := [[], [], [], []] },
    pair := { homeSlot := 3, proveEnable := false, autoStart := true, homeSettle := 900, provePeriodH := 168, proveDwellS := 600,
              spare := true, pubCounts := [0, 0, 0, 0], pubs := [], minimums := [], budgets := [], taskPages := [] } }

end Sys2Proof.Machine
end

