-- ==== Sys2Proof/Machine/State.lean ====
section
/-! DEFINITION. The state of one F9C-1 module, block by block, as plain data, and the state after reset. -/

namespace Sys2Proof.Machine

/-- Why a run stops with a fault. The spec describes no behaviour of this block that leaves it without a next state, so
no meaning raises one (safe: nothing is claimed of a state that never comes). -/
inductive Fault
  /-- Raised by nothing: the type has to be inhabited by a name. Safe. -/
  | none
deriving DecidableEq, Repr

/-- Why a command has no meaning. -/
inductive Refusal
  /-- A row of the opcode table whose meaning is not written: raised by its arm in Dispatch.lean. Safe: the run stops. -/
  | notModelled (mnemonic : String)
  /-- A fabric or debug access granted by its gate to a register of a device window of Table 1.4 whose registers the spec
  does not lay out; raised by `FABRIC_ACCESS`, `DEBUG_READ_WORDS` and `DEBUG_WRITE_WORDS`. Safe: the run stops. -/
  | deviceWindow (addr : Nat)
deriving DecidableEq, Repr

/-- What the module says over Swath (07 Table 7.2, R179, R311, R312, R335; 10 Table 10.6). -/
inductive SwathMsg
  | yield (term : Nat)
  | claimReport (seesClaim ownReadback : Bool)
  | armHandover (th : Nat)
  | requestHandover
  | flipArming (version cycle : Nat)
  | flipArmed
  | flipGo
  | checkpoint (c : Ckpt)
  | checkpointAck (cls seq : Nat) (gaps : List Nat)
  | tokenRequest
  | tokenGrant (granted : Bool)
  | modeReport (mode : Nat)
  | retiring
  | laneStart (lane proto min slotId : Nat)
  | retransmit (lane : Nat)
  | restarting
deriving DecidableEq, Repr

/-- What the outside can see the module do. -/
inductive Emission
  /-- An FSP frame on a plant port: destination, PCP, and header to CRC-32C trailer (04 R68). -/
  | fsp (port : Nat) (dest : List Byte) (pcp : Nat) (bytes : List Byte)
  /-- A time-protocol message: kind, port, domain and its priority1 (06 R125, R126). -/
  | gptp (kind port domain priority1 : Nat)
  /-- A Pastasy response message on a mailbox (11 R250). -/
  | response (mb : Nat) (bytes : List Byte)
  /-- The module closes a TLS connection (11 R253, R258). -/
  | close (mb : Nat)
  /-- A handshake ends with access_denied (11 R257). -/
  | tlsAlert
  /-- An MB14 request to the twin: its number, command and payload (11 R261). -/
  | mb14 (id cmd : Nat) (payload : List Byte)
  | swath (m : SwathMsg)
  /-- The return of a runtime call: status and values. -/
  | call (status : Nat) (values : List Nat)
  /-- The completion of a fabric access: bus error or done, and the data of a read (12 R281). -/
  | access (busError : Bool) (data : Nat)
  /-- A response on the debug link: status and words (12 R290). -/
  | debug (status : Nat) (words : List Word)
  /-- `HEDGE_OUT`: 0 low, 1 toggling, 2 release pattern then low (07 R146). -/
  | hedge (drive : Nat)
  | trigOut (widthUs : Nat)
  | ppsOut
  /-- A conversion start on the channels of a mask (06 R138). -/
  | convert (mask : Nat)
  /-- A HART transaction on a modem: channel, address, command and data (15 R345). -/
  | hart (modem ch addr cmd : Nat) (data : List Byte)
  /-- A waveform on the panel: 0 partial, 1 full, 2 balancing of an icon, and its length in ms (18 R382). -/
  | waveform (kind icon ms : Nat)
  /-- A value commanded to a front end, with its apply instant (14 R322, 15 R337). -/
  | frontEnd (offset : Nat) (raw : Word) (apply : Nat)
  /-- The safe states commanded to the front ends (14 R325). -/
  | safeStates
deriving DecidableEq, Repr

/-- Memory: bytes at fabric addresses, rising, none equal to the 0 an unlisted address reads as; and the 8-byte words that
hold an uncorrectable error (12 R272). -/
structure Mem where
  cells : List Host.Cell
  bad : List Nat
deriving DecidableEq, Repr

/-- One of TB0 and TB1 (06 R118, R122, R129): the accumulator in 2^-48 ns, RATE in 2^-40, the state of Table 6.4, whether it
has been stepped, the last offset in 2^-16 ns, the frequency term of RATE, the selected foreign grandmaster, the run of Syncs
that the next transition counts and the offsets measured while ACQUIRING. -/
structure Base where
  acc : Nat
  rate : Int
  st : Nat
  stepped : Bool
  offset : Int
  freq : Int
  foreign : Option AnnounceMsg
  run : Nat
  recent : List Int
deriving DecidableEq, Repr

/-- The time-protocol state of a plant port (06 R127, R128, R144). -/
structure PortTime where
  factoryRx : Int
  factoryTx : Int
  delay : Nat
  neighborRate : Int
  asCapable : Bool
  oneStep : Bool
  role0 : Nat
  role1 : Nat
  ann0 : Option AnnounceMsg
  ann1 : Option AnnounceMsg
  lost : Nat
  logSync : Int
  logPdelay : Int
  gclRunning : Bool
  gclIndex : Nat
  gates : Nat
deriving DecidableEq, Repr

/-- A stamped `PPS_IN` edge (06 R142). -/
structure PpsEdge where
  stamp : Nat
  rising : Bool
  base : Nat
deriving DecidableEq, Repr

/-- The time units (06). `tb3`, `storedTb3` and `storedDiff` are in 2^-16 ns, `twinDiff` in 2^-8 ns; `primary` is the states of
TB0 and TB1 that the PRIMARY last reported (06 R135). -/
structure TimeSt where
  now : Nat
  tb0 : Base
  tb1 : Base
  tb3 : Nat
  tb3Gap : Bool
  twinTimeLost : Bool
  utcOffset : Int
  steps : Nat
  divergedEvents : Nat
  twinDiff : Int
  twinFar : Nat
  ppsOffset : Int
  ppsEdges : Nat
  dio15Edges : Nat
  dio15Last : Option Nat
  dio15Lost : Nat
  dio15Count : Nat
  dio15Rising : Bool
  dio15At : Option Nat
  overflows : Nat
  fifo : List PpsEdge
  storedTb3 : Nat
  storedDiff : Int
  ports : List PortTime
  discarded : Nat
  primary : Nat × Nat
deriving DecidableEq, Repr

/-- An armed cooperative handover (07 R166–R168, R170, R175). `kind`: 0 command, 1 home return, 2 proving, 3 proving return,
4 ejection, 5 Sheaf fallback. -/
structure HandoverSt where
  kind : Nat
  th : Nat
  deferrals : Nat
  job : Nat
deriving DecidableEq, Repr

/-- Pair control and the Swath link (07). -/
structure PairSt where
  slotId : Nat
  twinMode : Nat
  twinReportAt : Nat
  homeArmed : Bool
  twinHomeArmed : Bool
  synced : Bool
  isolated : Bool
  owner : Bool
  term : Nat
  storedTerm : Nat
  hedgeFault : Bool
  malformed : Bool
  ownReadback : Bool
  twinClaim : Bool
  twinClaimAt : Nat
  ownClaim : Bool
  ownClaimAt : Nat
  confirmed : Bool
  tied : Bool
  claimKind : Nat
  lane0 : Bool
  lane1 : Bool
  silentAt : Nat
  yielded : Bool
  yieldAt : Nat
  tfAt : Nat
  termRef : Nat
  termBest : Nat
  termOpen : Bool
  armed : Option HandoverSt
  settleFrom : Nat
  ownerSince : Nat
  provingFrom : Option Nat
  copyDone : Bool
  ckptSeen : Nat
  loopOk : Nat
  peerPresent : Bool
deriving DecidableEq, Repr

/-- The counters and results of the PAIR block (07 R177), the checkpoint state (07 R153–R156) and unproven times (R174). `acked`
holds by class one more than the sequence of a shipped checkpoint that has no acknowledgement yet, 0 when it has; `applied` the
last cycle applied since the copy, `early` checkpoints that wait for the end of the copy (R158). -/
structure PairCnt where
  takeovers : Nat
  handovers : Nat
  deferrals : Nat
  missedApply : Nat
  lastTakeoverNs : Nat
  ckptLate : Nat
  hearGaps : Nat
  repairPoints : Nat
  swathErrors : Nat
  tieBreaks : Nat
  fencedExits : Nat
  loadPeak : Nat
  loadLast : Nat
  loadBytes : Nat
  loadSec : Nat
  proof : Nat
  proofFails : Nat
  lastProvedS : Nat
  unproven : List Nat
  seq : Nat
  acked : List (Nat × Nat)
  dueRepairs : List (Nat × Nat)
  gapStreaks : List (Nat × Nat × Nat)
  applied : List (Option Nat)
  readbackBad : Nat
  early : List Ckpt
deriving DecidableEq, Repr

/-- Modes and power (08). -/
structure PowerSt where
  mode : Nat
  reason : Nat
  retireReason : Nat
  bootKind : Nat
  latch : Bool
  fromOwner : Bool
  released : Bool
  mainGood : Bool
  riding : Bool
  dipAt : Nat
  auxGood : Bool
  lingLow : Bool
  ejectOpen : Bool
  safeN : Bool
  presentN : Bool
  mainMv : Nat
  auxMv : Nat
  boardTemp : Int
  mainPower : Nat
  lingMv : Nat
  maxMv : Nat
  minMv : Nat
  holdupMj : Nat
  fullMj : Nat
  noUpdate : Bool
  worn : Bool
  insufficient : Bool
  below32 : Bool
  powerCycles : Nat
  operatingBase : Nat
  operatingFrom : Nat
  lastBootMs : Nat
  rideThroughs : Nat
  retires : Nat
  safeEvents : Nat
  holdupTestS : Nat
  wakeDelay : Nat
deriving DecidableEq, Repr

/-- BOOT and the retire in progress (08 Tables 8.5, 8.6, 8.8), the watchdog and the clock check (01 R9, R11). `step` counts the steps
done: PLLs, steward, Mower, store, components, LBIST, configuration, holdup. `lbistOk` has bit n clear for a pair that LBIST of this
BOOT has disabled; `stopped` says that power-good was lost in BOOT (R185), `halted` that the boot ROM has stopped (13 R310);
`sleepAt` is TB3 seconds; `waitAt` the instant at which the wait of R183 or the term window began; `wakeDue` a wake event that has
not led to BOOT yet (R187); `hung` that the steward stopped servicing its watchdog (12 R272). -/
structure BootSt where
  step : Nat
  startAt : Nat
  mowerOk : Bool
  lbistOk : Nat
  cfgOk : Bool
  halted : Bool
  waiting : Bool
  waitDone : Bool
  stopped : Bool
  retiring : Bool
  retireAt : Nat
  retireRole : Nat
  committed : Bool
  sleepAt : Nat
  lingKept : Bool
  tamperLatched : Option Nat
  recordSinceVerify : Bool
  watchdogAt : Nat
  watchdogRecord : Option Nat
  clockBad : Nat
  coresOff : Bool
  retirePending : Option Nat
  wakeDue : Bool
  waitAt : Nat
  hung : Bool
deriving DecidableEq, Repr

/-- An entry of the force table (02 R42). -/
structure ForceEnt where
  handle : Nat
  mode : Nat
  value : Word
  session : Nat
deriving DecidableEq, Repr

/-- Filter state of a point (02 R35, R36): binary64 s, or the count of DEBOUNCE, or the previous bit of EDGE_COUNT. -/
structure FiltSt where
  handle : Nat
  s : Word64
  count : Nat
deriving DecidableEq, Repr

/-- The latest publication item received from a peer, and the TB0 stamp of its receipt (02 R44). -/
structure PeerItem where
  peer : Nat
  item : Nat
  value : Word
  quality : Nat
  at_ : Nat
deriving DecidableEq, Repr

/-- The point engine (02). `reseed`: points whose next good sample seeds the filter after a flip (R36). `sent`: the value that the latest WRITE built carried. `before`: the VALUE at the last publication
of an input that a force has changed since. -/
structure PointSt where
  forces : List ForceEnt
  sent : List (Nat × Word)
  before : List (Nat × Word)
  filters : List FiltSt
  reseed : List Nat
  peers : List PeerItem
  peerTerms : List (Nat × Nat)
  rateLast : Nat
  ratePeak : Nat
  rateSec : Nat
  rateCount : Nat
  rateMs : Nat
  rateMsCount : Nat
  badHandle : Nat
  overrange : Nat
  itemInvalid : Nat
  peerSeen : Nat
deriving DecidableEq, Repr

/-- A transaction whose tag is held (03 R53–R57). -/
structure Flight where
  idx : Nat
  cls : Nat
  tag : Nat
  station : Nat
  isWrite : Bool
  cycle : Nat
  version : Nat
  issued : Nat
  retried : Bool
  apply : Nat
  ranges : List (Nat × Nat)
  carried : List (Nat × Word)
  words : List Word
deriving DecidableEq, Repr

/-- One cycle class at work (03). `phase`: 0 none, 1 transit, 2 published; `toIssue` reads and `toWrite` built WRITE frames that
wait for a tag; `done` the read transactions completed, with the code of Table 7.3; `unsent` output points whose WRITE or local
value was withheld or not reported; `dirty` pages that the next checkpoint carries; `rerunTo` the cycle in progress while a
takeover re-runs earlier ones (07 R164). -/
structure ClassSt where
  cycle : Nat
  t0 : Nat
  phase : Nat
  toIssue : List Nat
  toWrite : List Flight
  held : List Flight
  done : List (Nat × Nat)
  localDone : List Nat
  tasks : Bool
  overran : Bool
  written : Bool
  skipped : Bool
  consecSkips : Nat
  notBefore : Nat
  heldApply : Nat
  pubWord : Nat
  waitFrom : Option Nat
  cycleNo : Nat
  loadPeak : Nat
  loadLast : Nat
  tagWait : Nat
  deadlinePubs : Nat
  missingLast : Nat
  overruns : Nat
  taskSkips : Nat
  unacked : Nat
  withheld : Nat
  unsent : List Nat
  dirty : List Nat
  rerunTo : Option Nat
deriving DecidableEq, Repr

/-- What a STANDBY heard for a cycle (07 R154): the read transaction, or none for local and PEER items, and the items. -/
structure Heard where
  cls : Nat
  cycle : Nat
  idx : Option Nat
  at_ : Nat
  items : List (Nat × Nat × List Word)
deriving DecidableEq, Repr

/-- The transaction engine (03). `oldTags` and `oldAcks` are the second tag table after a flip (10 R243); the next four fields
belong to the STANDBY: WRITE_ACK frames heard (class, cycle, station), transactions heard for the next checkpoint (class, index,
TB0 stamp), the journal, and the new entries that the epoch shadow holds (07 R154). `waiting` is the epoch reads that retry
(03 R61): class and handles. -/
structure CycleSt where
  cls : List ClassSt
  oldTags : List Flight
  oldAcks : List Bool
  lateDrops : Nat
  oldCfgDrops : Nat
  dupDrops : Nat
  unmatched : Nat
  retries : Nat
  completed : List (Nat × Nat × Nat)
  heardAcks : List (Nat × Nat × Nat)
  shadow : List (Nat × Nat × Nat)
  journal : List Heard
  newShots : List (Nat × Word64)
  waiting : List (Nat × List Nat)
deriving DecidableEq, Repr

/-- A binding sent to a station (04 R84). `st`: 0 outstanding, 1 bound, 2 unbound. -/
structure BindSt where
  station : Nat
  attempts : Nat
  st : Nat
  pending : Bool
  cycle : Nat
  version : Nat
deriving DecidableEq, Repr

/-- An outstanding DIAG request (04 R82), and what it is for: a Pastasy request, or the record of an UNREPORTED entry (05 R111). -/
structure DiagSt where
  station : Nat
  number : Nat
  page : Nat
  forReq : Option Hdr
  forEntry : Option Nat
deriving DecidableEq, Repr

/-- A receive stream of 802.1CB (04 R89): port pair and source, last sequence, history of 32. -/
structure StreamSt where
  ring : Nat
  source : Nat
  dest : Nat
  last : Nat
  hist : Nat
  lastAt : Nat
deriving DecidableEq, Repr

/-- FSP (04). -/
structure FspSt where
  counters : List Nat
  binds : List BindSt
  diags : List DiagSt
  diagNo : Nat
  txSeq : List (Nat × Nat × Nat)
  streams : List StreamSt
  unknownAt : List (Nat × Nat)
deriving DecidableEq, Repr

/-- A SCHED frame without its SCHED_ACK (05 R108): its ids in order, its payload, when it was sent, and the last dispatch instant
of its earliest item that is not ASAP. -/
structure SchedFrame where
  station : Nat
  number : Nat
  term : Nat
  ids : List Nat
  cancel : Bool
  retried : Bool
  payload : List Byte
  sentAt : Nat
  latest : Option Nat
deriving DecidableEq, Repr

/-- What the schedule unit knows of a station (05 R107); what is in flight follows from the frames. -/
structure SchedStation where
  station : Nat
  free : Nat
  nextNo : Nat
deriving DecidableEq, Repr

/-- The schedule unit (05). The entries themselves lie in memory (R102); `used` lists the places that are not FREE, rising;
`waited` the ids counted in STATION_FULL_WAITS; `heard` the heard ids with their stations; `causes` the outcome that a cancelled
entry takes in place of CANCELLED; `ring` the outcome ring, oldest first; `touched` and `freed` what the next checkpoint ships. -/
structure SchedSt where
  used : List Nat
  peak : Nat
  nextId : Nat
  outcomes : List Nat
  orphansCancelled : Nat
  fullWaits : Nat
  tooLate : Nat
  capacity : Nat
  waited : List Nat
  stations : List SchedStation
  frames : List SchedFrame
  heard : List (Nat × Nat)
  causes : List (Nat × Nat)
  ring : List (Nat × Nat × Nat)
  touched : List Nat
  freed : List Nat
deriving DecidableEq, Repr

/-- A core pair (09). -/
structure CorePair where
  disabled : Bool
  permanent : Bool
  lastClass : Nat
  lastGroup : Nat
  unknowns : List Nat
  lbistOk : Bool
  faultS : Nat
  lbistAt : Nat
  faults : Nat
  halted : Bool
  dbgHalted : Bool
  reenable : Bool
  kindAtFault : Nat
  selfTests : Nat
deriving DecidableEq, Repr

/-- Lockstep (09). -/
structure LockSt where
  pairs : List CorePair
  placement : Nat
  mismatches : Nat
  foldMismatches : Nat
  railDisagreements : Nat
  selftestsRun : Nat
  selftestFails : Nat
  cacheCorrected : Nat
  lbistRuns : Nat
  lbistFails : Nat
  lbistNext : Nat
  lbistRunning : Option Nat
  lbistDue : Nat
  vector : Option (Nat × Nat × Nat)
  signature : Word64
deriving DecidableEq, Repr

/-- A configuration slot (10 R230, R245). -/
structure Slot where
  present : Bool
  image : List Byte
  cfg : Cfg
  valid : Bool
  checkStatus : Nat
  stagedS : Nat
  sownAt : Nat
  snapshot : List (Nat × Word64)
deriving DecidableEq, Repr

/-- An armed flip or revert (10 R237, R238); `solo` says that it was armed on a SOLO owner, where the rows about the STANDBY fall
away (R244). -/
structure ArmedFlip where
  isRevert : Bool
  solo : Bool
  tb : Nat
  cycle : Nat
  deferrals : Nat
  job : Nat
  twinArmed : Bool
  goHeld : Bool
deriving DecidableEq, Repr

/-- A flip or revert that has taken effect and whose role record the store does not hold yet (10 R238, R240): the slots that it
still names, the boundary, and the job. -/
structure FlipDone where
  sown : Slot
  fallow : Slot
  seed : Slot
  tb : Nat
  isRevert : Bool
  job : Nat
deriving DecidableEq, Repr

/-- A completion that waits for the change set of a flip (10 R236): a frame, or a report of a local channel. -/
inductive HeldDone
  | frame (f : RxFrame)
  | channel (offset status : Nat) (item : List Word)
deriving DecidableEq, Repr

/-- A stage or check job (10 R231, R232). `twin` is the twin's final status, none while unanswered; `models` the station models that
answered, `toAsk` stations whose DIAG request waits for an earlier one. -/
structure CfgJob where
  id : Nat
  isCheck : Bool
  mb14 : Bool
  needsTwin : Bool
  twin : Option Nat
  twinReport : List Byte
  models : List (Nat × Nat)
  toAsk : List Nat
deriving DecidableEq, Repr

/-- Configurations (10). `commits` are the flips that the store's role record does not hold yet, oldest first (R240), `changed` the
change set of the last flip; `checkedTwin` says that the last check included a STANDBY (R234); `fetch` the parts of the twin's slots that SYNCING still fetches (source, length, SOWN_AT; source 9 is the listing) and
`fetched` the bytes of the first of them; `forward` the bytes of an image that the twin has taken (R231). -/
structure CfgSt where
  sown : Slot
  fallow : Slot
  seed : Slot
  highWater : Nat
  receiving : Option (List Byte)
  armed : Option ArmedFlip
  job : Option CfgJob
  flipTb : Nat
  windowOpen : Bool
  heldFrames : List HeldDone
  changed : List Nat
  commits : List FlipDone
  checkedTwin : Bool
  fallbackOk : Nat
  fetch : List (Nat × Nat × Nat)
  fetched : List Byte
  forward : Option Nat
deriving DecidableEq, Repr

/-- A segmented response that is held (11 R254, R255). -/
structure HeldRsp where
  code : Nat
  number : Nat
  status : Nat
  data : List Byte
  off : Nat
deriving DecidableEq, Repr

/-- A mailbox (11). `window` is the cursor of its recorder window (17 R377). -/
structure Mailbox where
  connected : Bool
  granted : Nat
  fingerprint : List Byte
  role : Nat
  sid : Nat
  busy : Bool
  lastAt : Nat
  held : Option HeldRsp
  post : Nat
  doneLen : Nat
  window : Option Nat
  reqLog : Nat
  rspLog : Nat
  reqNext : Nat
  rspNext : Nat
deriving DecidableEq, Repr

/-- A job (11 R256). -/
structure Job where
  id : Nat
  cmd : Nat
  done : Bool
  progress : Nat
  status : Nat
  result : List Byte
  endAt : Nat
deriving DecidableEq, Repr

/-- An MB14 request of this module that waits for its response (11 R261). -/
structure Mb14Out where
  id : Nat
  cmd : Nat
  job : Nat
  at_ : Nat
deriving DecidableEq, Repr

/-- Pastasy (11). `extra` counts the connections beyond the eight mailboxes (R258); `latches` the upper words latched by a read
of their lower word, by block and word (R265). -/
structure MsgSt where
  boxes : List Mailbox
  counters : List Nat
  jobs : List Job
  nextJob : Nat
  extra : Nat
  mb14 : List Mb14Out
  mb14Next : Nat
  mb14Size : Nat
  latches : List (Nat × Nat × Nat)
deriving DecidableEq, Repr

/-- The MEM block (12 R294), Mower, the scrubber and the borrowed windows; `windows` holds the abandoned windows by bank and
index, with the number of abandonments and the instant of the last (R275). -/
structure MowerSt where
  lastScrubS : Nat
  ceSram : Nat
  ueSram : Nat
  lastUe : Nat
  ceDram : Nat
  ueDram : Nat
  faults : Nat
  faultAddr : Nat
  faultBit : Nat
  lastPassS : Nat
  abandoned : Nat
  skipped : Nat
  fault : Bool
  bootPassOk : Bool
  test : Option (Nat × Bool × Option Nat)
  collisions : Nat
  collisionWord : Nat
  windows : List (Nat × Nat × Nat × Nat)
  passClean : Bool
  portErrors : Nat
deriving DecidableEq, Repr

/-- The secure partition and the life cycle (12 R286–R289). Life cycle: 0 BLANK, 1 PROVISIONED, 2 OPERATIONAL, 3 DECOMMISSIONED. -/
structure SecureSt where
  lifecycle : Nat
  latch : Nat
  fuse : Bool
  sealedRec : Bool
  serverKey : List Byte
  chain : List Byte
  anchors : List (Nat × List Byte)
  roles : List (Nat × List Byte × Nat)
  cfgKeys : List (Nat × List Byte)
  sheafKeys : List (Nat × List Byte)
  ownerLock : Bool
  staging : List Host.Cell
  windowBase : Nat
  pendingRec : Option (List Byte)
  wipes : Nat
  wipeReason : Nat
  wipeS : Nat
  advanceTo : Option (Nat × Nat)
deriving DecidableEq, Repr

/-- Gates and debug (12 R280–R285, R290, R291). Rules are listed by gate and index; an unlisted rule is all zeros. `logs` holds the
four words of a fault log entry under 16 × gate + entry; `logged` counts the entries by gate; `linkReset` says that `DBG_RST_N` holds the debug link in reset (R290). -/
structure GateSt where
  active : List (Nat × Nat × List Nat)
  shadow : List (Nat × Nat × List Nat)
  epoch : Nat
  draining : Bool
  commits : Nat
  debugOpen : Bool
  debugMb : Option Nat
  debugOpens : Nat
  violations : List Nat
  logs : List (Nat × List Nat)
  logged : List Nat
  linkReset : Bool
deriving DecidableEq, Repr

/-- Sheaf (13). The commit record's fields are `recTrial` to `seq`; `tokenWait` is the instant from which an activation waits for
the trial token (R304). -/
structure SheafSt where
  st : Nat
  result : Nat
  recTrial : Bool
  trialBoots : Nat
  active : Nat
  slots : Nat
  previous : Nat
  trialStart : Nat
  windowRec : Nat
  seq : Nat
  loaded : List Byte
  loadedBytes : Nat
  total : Nat
  job : Nat
  tokenHeld : Bool
  twinState : Nat
  healthFrom : Nat
  healthPassed : Bool
  healthBroken : Bool
  windowS : Nat
  manual : Bool
  dwellS : Nat
  proto : Nat
  min : Nat
  prevProto : Nat
  prevMin : Nat
  newProto : Nat
  newMin : Nat
  activations : Nat
  fallbacks : Nat
  bootFault : Nat
  versions : List Nat
  prevVersions : List Nat
  newVersions : List Nat
  twinProto : Nat
  twinMin : Nat
  tokenWait : Option Nat
deriving DecidableEq, Repr

/-- A digital channel (14): `next` is what the next sequencer update carries, `loaded` what the front end applies at the
next apply instant, each with the VALUE it stands for. -/
structure DioCh where
  mismatches : Nat
  overload : Bool
  wireBreak : Bool
  mismatch : Bool
  field : Bool
  commanded : Bool
  lastApplied : Bool
  next : Option (Bool × Word)
  loaded : Option (Bool × Word)
  provedFrom : Option Nat
deriving DecidableEq, Repr

/-- The digital front end (14 R329). -/
structure DioSt where
  ch : List DioCh
  fldMv : Nat
  outMa : Nat
  aggLimit : Bool
  silent : Bool
  retireSafe : Bool
  fldLost : Bool
  linkUp : Bool
  fldLosses : Nat
  silences : Nat
  overloads : Nat
  mismatchEvents : Nat
  wireBreaks : Nat
  linkErrors : Nat
deriving DecidableEq, Repr

/-- A universal analogue channel (15): `conv` is the latest conversion in the raw format, `reading` the same as binary32,
`latched` what the front end latched at t0; `next` and `loaded` as for a digital channel. -/
structure UaCh where
  conv : Option Raw
  reading : Word
  latched : Option Raw
  cjCc : Int
  miswire : Bool
  wireBreak : Bool
  compliance : Bool
  alarmLow : Bool
  alarmHigh : Bool
  overrange : Bool
  ne43Range : Bool
  lastApplied : Option Raw
  commanded : Raw
  next : Option (Raw × Word)
  loaded : Option (Raw × Word)
  twinIn : Bool
  twinMilliohm : Nat
  twinAt : Option Nat
  quietUntil : Nat
  differs : Bool
deriving DecidableEq, Repr

/-- A HART request (15 R346): id, channel, address, command, data; attempts made; its outcome when it has ended. -/
structure HartReq where
  id : Nat
  ch : Nat
  addr : Nat
  cmd : Nat
  data : List Byte
  tries : Nat
  internal : Bool
deriving DecidableEq, Repr

/-- A HART modem (15 R344, R345). -/
structure Modem where
  attached : Option Nat
  queue : List HartReq
  answering : List (Nat × Nat)
deriving DecidableEq, Repr

/-- The analogue front end (15 R348). -/
structure UaSt where
  ch : List UaCh
  modems : List Modem
  results : List (Nat × Nat × Nat × Nat × List Byte)
  nextId : Nat
  afsMv : Nat
  loopMa : Nat
  twinDiffers : Bool
  senseUnknown : Bool
  silent : Bool
  afsLost : Bool
  linkUp : Bool
  retireSafe : Bool
  excited : Bool
  afsLosses : Nat
  silences : Nat
  complianceEvents : Nat
  miswires : Nat
  wireBreaks : Nat
  linkErrors : Nat
  hartTransactions : Nat
  hartFailures : Nat
  bursts : Nat
  ne43Events : Nat
deriving DecidableEq, Repr

/-- A stored CAN frame record (16 Table 16.2), with the flags its place adds. -/
structure CanRec where
  f : CanFrame
  element : Nat
  overrun : Bool
deriving DecidableEq, Repr

/-- A transmit buffer (16 R358–R360). -/
structure TxBuf where
  status : Nat
  content : Option CanFrame
  after : Option CanFrame
  cancelled : Bool
  lastSeq : Option Nat
  isRef : Bool
  refAt : Nat
  value : Word
deriving DecidableEq, Repr

/-- A CAN FD channel (16). -/
structure CanCh where
  tec : Nat
  rxErr : Nat
  fc : Nat
  monitoring : Bool
  alone : Bool
  ackRun : Nat
  integrating : Bool
  recovering : Bool
  rxFrames : Nat
  txFrames : Nat
  errors : Nat
  busOffs : Nat
  fifoLost : Nat
  rejected : Nat
  refSent : Nat
  refLate : Nat
  cancelLate : Nat
  txOverruns : Nat
  foreignRef : Nat
  lastError : Nat
  dataPhase : Bool
  tdcMeasured : Nat
  tdcFaults : Nat
  fifo0 : List CanRec
  fifo1 : List CanRec
  lost0 : Bool
  lost1 : Bool
  consumed0 : Nat
  consumed1 : Nat
  rxBufs : List (Nat × CanRec × Bool)
  tx : List TxBuf
  mark : Option (Nat × Nat)
  foreignAt : Option Nat
  newFilters : Bool
deriving DecidableEq, Repr

/-- A record of the recorder (17 Table 17.1). -/
structure Record where
  seq : Nat
  type : Nat
  opSeconds : Nat
  severity : Nat
  powerCycles : Nat
  stamp : Nat
  payload : List Byte
deriving DecidableEq, Repr

/-- The recorder (17). `ring` is oldest first; `skips` the ranges of sequences, the end excluded, that were never stored (R374). -/
structure RecSt where
  ring : List Record
  nextSeq : Nat
  flushed : Nat
  unflushed : Nat
  oldestUnflushed : Nat
  reserved : Nat
  dropped : Nat
  droppedUnreported : Nat
  second : Nat
  inSecond : Nat
  gaps : Nat
  storeErrors : Nat
  exhausted : Bool
  limits : List (Nat × Nat × Nat)
  skips : List (Nat × Nat)
deriving DecidableEq, Repr

/-- The front display (18). -/
structure DispSt where
  panelTemp : Int
  band : Nat
  lastFullBand : Nat
  frozen : Bool
  fullPending : Bool
  updating : Nat
  retireSkipped : Bool
  retireImage : Bool
  panelOk : Bool
  partials : Nat
  segments : Nat
  shown : List (List Byte)
  lastStart : Option Nat
  line7At : Nat
  updates : Nat
  fulls : Nat
  balances : Nat
  freezes : Nat
  ledgers : List Int
  storedLedgers : List Int
  fullEvery : Nat
  name : List Byte
  lines : List (List Byte)
  bootSeq : Nat
  frozenLines : List (List Byte)
deriving DecidableEq, Repr

/-- A front cage (19 R400). -/
structure SfpSt where
  id : SfpId
  linkUp : Bool
  alarm : Bool
  alarmClearAt : Nat
deriving DecidableEq, Repr

/-- The state of one F9C-1 module. `pending` is the queue of commands (the front first), `free` the model's own counter of
free values (log 3), `out` what the outside has seen, oldest first. -/
structure State where
  pending : List Instr
  free : Nat
  out : List Emission
  mem : Mem
  time : TimeSt
  pair : PairSt
  cnt : PairCnt
  power : PowerSt
  boot : BootSt
  pts : PointSt
  cyc : CycleSt
  fsp : FspSt
  sched : SchedSt
  lock : LockSt
  cfg : CfgSt
  msg : MsgSt
  mower : MowerSt
  sec : SecureSt
  gate : GateSt
  sheaf : SheafSt
  dio : DioSt
  ua : UaSt
  can : List CanCh
  log : RecSt
  disp : DispSt
  sfp : List SfpSt
deriving DecidableEq, Repr

/-! The parts of the state after reset. -/

def Base.reset : Base :=
  { acc := 0, rate := 0, st := 0, stepped := false, offset := 0, freq := 0, foreign := none, run := 0, recent := [] }
def PortTime.reset : PortTime :=
  { factoryRx := 0, factoryTx := 0, delay := 0, neighborRate := 0, asCapable := false, oneStep := false, role0 := 0, role1 := 0,
    ann0 := none, ann1 := none, lost := 0, logSync := -3, logPdelay := 0, gclRunning := false, gclIndex := 0, gates := 0xFF }
def TimeSt.reset : TimeSt :=
  { now := 0, tb0 := Base.reset, tb1 := Base.reset, tb3 := 0, tb3Gap := false, twinTimeLost := false, utcOffset := 0, steps := 0,
    divergedEvents := 0, twinDiff := 0, twinFar := 0, ppsOffset := 0, ppsEdges := 0, dio15Edges := 0, dio15Last := none, dio15Lost := 0,
    dio15Count := 0, dio15Rising := false, dio15At := none, overflows := 0, fifo := [], storedTb3 := 0, storedDiff := 0, ports := List.replicate 4 PortTime.reset, discarded := 0,
    primary := (0, 0) }
def PairSt.reset : PairSt :=
  { slotId := 0, twinMode := 0, twinReportAt := 0, homeArmed := false, twinHomeArmed := false, synced := false, isolated := false,
    owner := false, term := 0, storedTerm := 0, hedgeFault := false, malformed := false, ownReadback := false, twinClaim := false,
    twinClaimAt := 0, ownClaim := false, ownClaimAt := 0, confirmed := false, tied := false, claimKind := 0, lane0 := false,
    lane1 := false, silentAt := 0, yielded := false, yieldAt := 0, tfAt := 0, termRef := 0, termBest := 0, termOpen := false,
    armed := none, settleFrom := 0, ownerSince := 0, provingFrom := none, copyDone := false, ckptSeen := 0,
    loopOk := 0, peerPresent := false }
def PairCnt.reset : PairCnt :=
  { takeovers := 0, handovers := 0, deferrals := 0, missedApply := 0, lastTakeoverNs := 0, ckptLate := 0, hearGaps := 0,
    repairPoints := 0, swathErrors := 0, tieBreaks := 0, fencedExits := 0, loadPeak := 0, loadLast := 0, loadBytes := 0, loadSec := 0, proof := 0,
    proofFails := 0, lastProvedS := 0, unproven := List.replicate 26 0, seq := 0, acked := [], dueRepairs := [], gapStreaks := [],
    applied := [none, none, none, none], readbackBad := 0, early := [] }
def PowerSt.reset : PowerSt :=
  { mode := 1, reason := 0, retireReason := 0, bootKind := 0, latch := false, fromOwner := false, released := false,
    mainGood := true, riding := false, dipAt := 0, auxGood := false, lingLow := false, ejectOpen := false, safeN := false,
    presentN := true, mainMv := 24000, auxMv := 0, boardTemp := 0, mainPower := 0, lingMv := 0, maxMv := 0, minMv := 0xFFFF,
    holdupMj := 0, fullMj := 0, noUpdate := false, worn := false, insufficient := false, below32 := true, powerCycles := 0,
    operatingBase := 0, operatingFrom := 0, lastBootMs := 0, rideThroughs := 0, retires := 0, safeEvents := 0, holdupTestS := 0,
    wakeDelay := 0 }
def BootSt.reset : BootSt :=
  { step := 0, startAt := 0, mowerOk := true, lbistOk := 255, cfgOk := true, halted := false, waiting := false, waitDone := false, stopped := false,
    retiring := false, retireAt := 0, retireRole := 0, committed := false, sleepAt := 0, lingKept := true, tamperLatched := none,
    recordSinceVerify := false, watchdogAt := 0, watchdogRecord := none, clockBad := 0, coresOff := false, retirePending := none,
    wakeDue := false, waitAt := 0, hung := false }
def PointSt.reset : PointSt :=
  { forces := [], sent := [], before := [], filters := [], reseed := [], peers := [], peerTerms := [], rateLast := 0, ratePeak := 0, rateSec := 0,
    rateCount := 0, rateMs := 0, rateMsCount := 0, badHandle := 0, overrange := 0, itemInvalid := 0, peerSeen := 0 }
def ClassSt.reset : ClassSt :=
  { cycle := 0, t0 := 0, phase := 0, toIssue := [], toWrite := [], held := [], done := [], localDone := [], tasks := false,
    overran := false, written := false, skipped := false, consecSkips := 0, notBefore := 0, heldApply := 0, pubWord := 0,
    waitFrom := none, cycleNo := 0, loadPeak := 0, loadLast := 0, tagWait := 0, deadlinePubs := 0, missingLast := 0, overruns := 0,
    taskSkips := 0, unacked := 0, withheld := 0, unsent := [], dirty := [], rerunTo := none }
def CycleSt.reset : CycleSt :=
  { cls := List.replicate 4 ClassSt.reset, oldTags := [], oldAcks := [false, false, false, false], lateDrops := 0, oldCfgDrops := 0,
    dupDrops := 0, unmatched := 0, retries := 0, completed := [], heardAcks := [], shadow := [], journal := [], newShots := [], waiting := [] }
def FspSt.reset : FspSt :=
  { counters := List.replicate 18 0, binds := [], diags := [], diagNo := 0, txSeq := [], streams := [], unknownAt := [] }
def SchedSt.reset : SchedSt :=
  { used := [], peak := 0, nextId := 1, outcomes := List.replicate 10 0, orphansCancelled := 0, fullWaits := 0, tooLate := 0,
    capacity := 0, waited := [], stations := [], frames := [], heard := [], causes := [], ring := [], touched := [], freed := [] }
def CorePair.reset : CorePair :=
  { disabled := false, permanent := false, lastClass := 0, lastGroup := 0, unknowns := [], lbistOk := false, faultS := 0,
    lbistAt := 0, faults := 0, halted := false, dbgHalted := false, reenable := false, kindAtFault := 0, selfTests := 0 }
def LockSt.reset : LockSt :=
  { pairs := List.replicate 8 CorePair.reset, placement := 8, mismatches := 0, foldMismatches := 0, railDisagreements := 0,
    selftestsRun := 0, selftestFails := 0, cacheCorrected := 0, lbistRuns := 0, lbistFails := 0, lbistNext := 0,
    lbistRunning := none, lbistDue := 0, vector := none, signature := 0#64 }
def Slot.empty : Slot :=
  { present := false, image := [], cfg := noCfg, valid := false, checkStatus := 0xFFFF, stagedS := 0, sownAt := 0, snapshot := [] }
def CfgSt.reset : CfgSt :=
  { sown := Slot.empty, fallow := Slot.empty, seed := Slot.empty, highWater := 0, receiving := none, armed := none, job := none,
    flipTb := 0, windowOpen := false, heldFrames := [], changed := [], commits := [], checkedTwin := false, fallbackOk := 0, fetch := [],
    fetched := [], forward := none }
/-- Default buffer sizes: 2^16 for MB0–MB7 and MB14, 2^12 otherwise (11 Table 11.11). -/
def Mailbox.reset (n : Nat) : Mailbox :=
  let l := if n < 8 || n == 14 then 16 else 12
  { connected := false, granted := 0, fingerprint := [], role := 0, sid := 0, busy := false, lastAt := 0,
    held := none, post := 0, doneLen := 0, window := none, reqLog := l, rspLog := l, reqNext := l, rspNext := l }
def MsgSt.reset : MsgSt :=
  { boxes := (List.range 16).map Mailbox.reset, counters := List.replicate 13 0, jobs := [], nextJob := 1, extra := 0,
    mb14 := [], mb14Next := 0, mb14Size := 65536, latches := [] }
def MowerSt.reset : MowerSt :=
  { lastScrubS := 0, ceSram := 0, ueSram := 0, lastUe := 0, ceDram := 0, ueDram := 0, faults := 0, faultAddr := 0,
    faultBit := 0xFF, lastPassS := 0, abandoned := 0, skipped := 0, fault := false, bootPassOk := false, test := none,
    collisions := 0, collisionWord := 0, windows := [], passClean := true, portErrors := 0 }
def SecureSt.reset : SecureSt :=
  { lifecycle := 0, latch := 0, fuse := false, sealedRec := false, serverKey := [], chain := [], anchors := [], roles := [],
    cfgKeys := [], sheafKeys := [], ownerLock := false, staging := [], windowBase := 0, pendingRec := none, wipes := 0,
    wipeReason := 0, wipeS := 0, advanceTo := none }
def GateSt.reset : GateSt :=
  { active := [], shadow := [], epoch := 0, draining := false, commits := 0, debugOpen := false, debugMb := none, debugOpens := 0,
    violations := List.replicate 24 0, logs := [], logged := List.replicate 24 0, linkReset := false }
def SheafSt.reset : SheafSt :=
  { st := 0, result := 0, recTrial := false, trialBoots := 0, active := 1, slots := 0, previous := 0, trialStart := 0,
    windowRec := 0, seq := 0, loaded := [], loadedBytes := 0, total := 0, job := 0, tokenHeld := false, twinState := 0,
    healthFrom := 0, healthPassed := false, healthBroken := false, windowS := 1800, manual := false, dwellS := 300, proto := 0,
    min := 0, prevProto := 0, prevMin := 0, newProto := 0, newMin := 0, activations := 0, fallbacks := 0, bootFault := 0, versions := List.replicate 9 1,
    prevVersions := List.replicate 9 0, newVersions := List.replicate 9 0, twinProto := 0, twinMin := 0, tokenWait := none }
def DioCh.reset : DioCh :=
  { mismatches := 0, overload := false, wireBreak := false, mismatch := false, field := false, commanded := false,
    lastApplied := false, next := none, loaded := none, provedFrom := none }
def DioSt.reset : DioSt :=
  { ch := List.replicate 16 DioCh.reset, fldMv := 0, outMa := 0, aggLimit := false, silent := false, retireSafe := false,
    fldLost := false, linkUp := false, fldLosses := 0, silences := 0, overloads := 0, mismatchEvents := 0, wireBreaks := 0,
    linkErrors := 0 }
def UaCh.reset : UaCh :=
  { conv := none, reading := 0#32, latched := none, cjCc := 0, miswire := false, wireBreak := false, compliance := false,
    alarmLow := false, alarmHigh := false, overrange := false, ne43Range := false, lastApplied := none, commanded := 0#32,
    next := none, loaded := none, twinIn := false, twinMilliohm := 0, twinAt := none, quietUntil := 0, differs := false }
def Modem.reset : Modem := { attached := none, queue := [], answering := [] }
def UaSt.reset : UaSt :=
  { ch := List.replicate 8 UaCh.reset, modems := [Modem.reset, Modem.reset], results := [], nextId := 1, afsMv := 0, loopMa := 0,
    twinDiffers := false, senseUnknown := false, silent := false, afsLost := false, linkUp := false, retireSafe := false,
    excited := false, afsLosses := 0, silences := 0, complianceEvents := 0, miswires := 0, wireBreaks := 0, linkErrors := 0,
    hartTransactions := 0, hartFailures := 0, bursts := 0, ne43Events := 0 }
def TxBuf.reset : TxBuf :=
  { status := 0, content := none, after := none, cancelled := false, lastSeq := none, isRef := false, refAt := 0, value := 0#32 }
def CanCh.reset : CanCh :=
  { tec := 0, rxErr := 0, fc := 0, monitoring := true, alone := false, ackRun := 0, integrating := false, recovering := false,
    rxFrames := 0, txFrames := 0, errors := 0, busOffs := 0, fifoLost := 0, rejected := 0, refSent := 0, refLate := 0,
    cancelLate := 0, txOverruns := 0, foreignRef := 0, lastError := 0, dataPhase := false, tdcMeasured := 0, tdcFaults := 0,
    fifo0 := [], fifo1 := [], lost0 := false, lost1 := false, consumed0 := 0, consumed1 := 0, rxBufs := [],
    tx := List.replicate 32 TxBuf.reset, mark := none, foreignAt := none, newFilters := false }
def RecSt.reset : RecSt :=
  { ring := [], nextSeq := 1, flushed := 0, unflushed := 0, oldestUnflushed := 0, reserved := 1, dropped := 0,
    droppedUnreported := 0, second := 0, inSecond := 0, gaps := 0, storeErrors := 0, exhausted := false, limits := [], skips := [] }
def DispSt.reset : DispSt :=
  { panelTemp := 200, band := 4, lastFullBand := 4, frozen := false, fullPending := true, updating := 0, retireSkipped := false,
    retireImage := false, panelOk := false, partials := 0, segments := 0, shown := [], lastStart := none, line7At := 0,
    updates := 0, fulls := 0, balances := 0, freezes := 0, ledgers := List.replicate 12 0, storedLedgers := List.replicate 12 0,
    fullEvery := 50, name := zeroBytes 24, lines := [[], []], bootSeq := 0, frozenLines := [] }
def SfpSt.reset : SfpSt :=
  { id := { present := false, pmdCode := 0, powerLevel := 0, answers := false }, linkUp := false, alarm := false, alarmClearAt := 0 }

/-- The module right after reset: at power-good, in BOOT, with a store as the factory leaves it (log 11). -/
def State.reset : State :=
  { pending := [], free := 0, out := [], mem := { cells := [], bad := [] }, time := TimeSt.reset, pair := PairSt.reset,
    cnt := PairCnt.reset, power := PowerSt.reset, boot := BootSt.reset, pts := PointSt.reset, cyc := CycleSt.reset,
    fsp := FspSt.reset, sched := SchedSt.reset, lock := LockSt.reset, cfg := CfgSt.reset, msg := MsgSt.reset,
    mower := MowerSt.reset, sec := SecureSt.reset, gate := GateSt.reset, sheaf := SheafSt.reset, dio := DioSt.reset,
    ua := UaSt.reset, can := [CanCh.reset, CanCh.reset], log := RecSt.reset, disp := DispSt.reset,
    sfp := List.replicate 4 SfpSt.reset }

end Sys2Proof.Machine
end

