-- ==== Sys2Proof/Machine/Update.lean ====
section
/-! DEFINITION. One update per part of the state. -/

namespace Sys2Proof.Machine

/-- Change the part `mem` and nothing else. -/
def State.upMem (f : Mem → Mem) (s : State) : State := { s with mem := f s.mem }
/-- Change the part `time` and nothing else. -/
def State.upTime (f : TimeSt → TimeSt) (s : State) : State := { s with time := f s.time }
/-- Change the part `pair` and nothing else. -/
def State.upPair (f : PairSt → PairSt) (s : State) : State := { s with pair := f s.pair }
/-- Change the part `cnt` and nothing else. -/
def State.upCnt (f : PairCnt → PairCnt) (s : State) : State := { s with cnt := f s.cnt }
/-- Change the part `power` and nothing else. -/
def State.upPower (f : PowerSt → PowerSt) (s : State) : State := { s with power := f s.power }
/-- Change the part `boot` and nothing else. -/
def State.upBoot (f : BootSt → BootSt) (s : State) : State := { s with boot := f s.boot }
/-- Change the part `pts` and nothing else. -/
def State.upPts (f : PointSt → PointSt) (s : State) : State := { s with pts := f s.pts }
/-- Change the part `cyc` and nothing else. -/
def State.upCyc (f : CycleSt → CycleSt) (s : State) : State := { s with cyc := f s.cyc }
/-- Change the part `fsp` and nothing else. -/
def State.upFsp (f : FspSt → FspSt) (s : State) : State := { s with fsp := f s.fsp }
/-- Change the part `sched` and nothing else. -/
def State.upSched (f : SchedSt → SchedSt) (s : State) : State := { s with sched := f s.sched }
/-- Change the part `lock` and nothing else. -/
def State.upLock (f : LockSt → LockSt) (s : State) : State := { s with lock := f s.lock }
/-- Change the part `cfg` and nothing else. -/
def State.upCfg (f : CfgSt → CfgSt) (s : State) : State := { s with cfg := f s.cfg }
/-- Change the part `msg` and nothing else. -/
def State.upMsg (f : MsgSt → MsgSt) (s : State) : State := { s with msg := f s.msg }
/-- Change the part `mower` and nothing else. -/
def State.upMower (f : MowerSt → MowerSt) (s : State) : State := { s with mower := f s.mower }
/-- Change the part `sec` and nothing else. -/
def State.upSec (f : SecureSt → SecureSt) (s : State) : State := { s with sec := f s.sec }
/-- Change the part `gate` and nothing else. -/
def State.upGate (f : GateSt → GateSt) (s : State) : State := { s with gate := f s.gate }
/-- Change the part `sheaf` and nothing else. -/
def State.upSheaf (f : SheafSt → SheafSt) (s : State) : State := { s with sheaf := f s.sheaf }
/-- Change the part `dio` and nothing else. -/
def State.upDio (f : DioSt → DioSt) (s : State) : State := { s with dio := f s.dio }
/-- Change the part `ua` and nothing else. -/
def State.upUa (f : UaSt → UaSt) (s : State) : State := { s with ua := f s.ua }
/-- Change the part `can` and nothing else. -/
def State.upCan (f : List CanCh → List CanCh) (s : State) : State := { s with can := f s.can }
/-- Change the part `log` and nothing else. -/
def State.upLog (f : RecSt → RecSt) (s : State) : State := { s with log := f s.log }
/-- Change the part `disp` and nothing else. -/
def State.upDisp (f : DispSt → DispSt) (s : State) : State := { s with disp := f s.disp }
/-- Change the part `sfp` and nothing else. -/
def State.upSfp (f : List SfpSt → List SfpSt) (s : State) : State := { s with sfp := f s.sfp }
/-- Append to what the outside has seen. -/
def State.emit (e : Emission) (s : State) : State := { s with out := s.out ++ [e] }
/-- Append several. -/
def State.emits (es : List Emission) (s : State) : State := { s with out := s.out ++ es }
/-- Count one use of a free value (log 3). -/
def State.useFree (s : State) : State := { s with free := s.free + 1 }

/-- Replace the n-th element. -/
def setAt {α : Type} (xs : List α) (n : Nat) (f : α → α) : List α :=
  match xs, n with
  | [], _ => []
  | x :: xs, 0 => f x :: xs
  | x :: xs, n + 1 => x :: setAt xs n f

end Sys2Proof.Machine
end

