-- ==== Sys2Proof/Machine/Ops.lean ====
section
/-! DEFINITION. The named operations over memory, time, the recorder, modes and frames that the meanings share. A block
has no exception entry: what stops control here is the entry into SAFE HOLD. -/

namespace Sys2Proof.Machine

/-! ## Memory (12 R268–R272) -/

/-- The byte at an address: 0 where nothing is listed (12 R274; DRAM: log 12). -/
def cellsRead : List Host.Cell → Nat → Byte
  | [], _ => 0#8
  | (b, w) :: cs, a => if a = b then w else cellsRead cs a
/-- Write one byte, keeping the canonical form. -/
def cellsWrite : List Host.Cell → Nat → Byte → List Host.Cell
  | [], a, v => if v = 0#8 then [] else [(a, v)]
  | (b, w) :: cs, a, v =>
    if a < b then (if v = 0#8 then (b, w) :: cs else (a, v) :: (b, w) :: cs)
    else if a = b then (if v = 0#8 then cs else (a, v) :: cs)
    else (b, w) :: cellsWrite cs a v
/-- Addresses strictly rising from a bound, and no byte equal to what an unlisted address reads as. -/
def cellsFrom : Nat → List Host.Cell → Bool
  | _, [] => true
  | lo, (a, v) :: cs => decide (lo ≤ a) && decide (v ≠ 0#8) && cellsFrom (a + 1) cs
/-- The canonical form of memory. -/
def Memory.wf (m : Mem) : Bool := cellsFrom 0 m.cells
def memRead (m : Mem) (a : Nat) : Byte := cellsRead m.cells a
def memWrite (m : Mem) (a : Nat) (v : Byte) : Mem := { m with cells := cellsWrite m.cells a v }
/-- Write bytes from an address upward. -/
def memWriteBytes : List Byte → Nat → Mem → Mem
  | [], _, m => m
  | b :: bs, a, m => memWriteBytes bs (a + 1) (memWrite m a b)
def memReadBytes (m : Mem) (a n : Nat) : List Byte := (List.range n).map fun i => memRead m (a + i)
/-- The little-endian number of n bytes. -/
def memReadN (m : Mem) (a n : Nat) : Nat := leNat (memReadBytes m a n)
/-- Write bytes from an address upward; a whole word that is written is sound again (12 R272). -/
def memStore (bs : List Byte) (a : Nat) (m : Mem) : Mem :=
  { memWriteBytes bs a m with bad := m.bad.filter fun w => !(decide (a ≤ w) && decide (w + 8 ≤ a + bs.length)) }
def memWriteN (m : Mem) (a n v : Nat) : Mem := memStore (leBytes n v) a m
/-- Every byte of a range becomes 0 and sound. -/
def memClear (m : Mem) (lo hi : Nat) : Mem :=
  { cells := m.cells.filter fun c => decide (c.1 < lo) || decide (hi < c.1),
    bad := m.bad.filter fun w => decide (w < lo) || decide (hi < w) }

/-- Address of the image entry of a handle (02 R18). -/
def imageAddr (h : Nat) : Nat := 8 * h
/-- Address of the compiled rule of a handle (02 R18). -/
def ruleAddr (h : Nat) : Nat := 0x03000000 + 8 * h
/-- Address of the epoch-shadow slot of a handle (02 R18). -/
def shadowAddr (h : Nat) : Nat := 0x06000000 + 4 * h
def poolBase : Nat := 0x07800000
def queueBase : Nat := 0x08800000
def State.ruleOf (s : State) (h : Nat) : Word64 := BitVec.ofNat 64 (memReadN s.mem (ruleAddr h) 8)
/-- The entry of handle 0 and of every handle of kind 0 (02 R19). -/
def unusedEntry : Word64 := 0x000000008600FFFF#64
/-- An image entry; a handle whose rule has kind 0 shows the entry of R19 (02 R19). -/
def State.image (s : State) (h : Nat) : Word64 :=
  if (s.ruleOf h).toNat / 2 ^ 60 = 0 then unusedEntry else BitVec.ofNat 64 (memReadN s.mem (imageAddr h) 8)
/-- Every writer writes the whole aligned entry at once (02 R21). -/
def State.setImage (h : Nat) (e : Word64) (s : State) : State := s.upMem fun m => memWriteN m (imageAddr h) 8 e.toNat
def State.setRule (h : Nat) (r : Word64) (s : State) : State := s.upMem fun m => memWriteN m (ruleAddr h) 8 r.toNat

/-! ## Time (06) -/

/-- 2^48: units of the accumulator per ns (06 R122). -/
def nsUnit : Nat := 2 ^ 48
/-- A base after d ticks of 4 ns × (1 + RATE × 2^-40) (06 R122). -/
def Base.ahead (b : Base) (d : Nat) : Base := { b with acc := b.acc + d * (2 ^ 50 + b.rate * 2 ^ 10).toNat }
/-- The clocks moved forward to an instant, never back (06 R122, R123; in SLEEP only the ling counter runs). -/
def advanceTime (asleep : Bool) (t : Nat) (c : TimeSt) : TimeSt :=
  if t ≤ c.now then c
  else if asleep then { c with now := t, tb3 := c.tb3 + 2000000000 * Config.lingTicks c.now t }
  else { c with now := t, tb0 := c.tb0.ahead (t - c.now), tb1 := c.tb1.ahead (t - c.now), tb3 := c.tb3 + (t - c.now) * 262144 }
/-- A command happens at its instant. -/
def State.arrive (t : Nat) (s : State) : State := s.upTime (advanceTime (s.power.mode == 8 || s.boot.stopped) t)
/-- The compact stamp of a reading (06 R120). -/
def compactOf (acc : Nat) : Nat := (acc / nsUnit) % 2 ^ 64
def State.tb0 (s : State) : Nat := compactOf s.time.tb0.acc
def State.base (s : State) (n : Nat) : Base := if n = 0 then s.time.tb0 else s.time.tb1
def State.setBase (n : Nat) (f : Base → Base) (s : State) : State :=
  s.upTime fun c => if n = 0 then { c with tb0 := f c.tb0 } else { c with tb1 := f c.tb1 }
/-- A base is valid in states 2–7 (06 R132). -/
def Base.valid (b : Base) : Bool := decide (2 ≤ b.st)
def State.tb0Valid (s : State) : Bool := s.time.tb0.valid
/-- Whole seconds of TB3. -/
def State.tb3s (s : State) : Nat := s.time.tb3 / (65536 * 1000000000)
/-- Whole ns of TB3. -/
def State.tb3ns (s : State) : Nat := s.time.tb3 / 65536
/-- TB2 in 2^-16 ns: TB0 plus the fixed offset (06 R136). -/
def State.tb2Fine (s : State) : Nat :=
  ((s.time.tb0.acc / 2 ^ 32 : Nat) + s.cfg.sown.cfg.time.tb2Offset * 65536000000000).toNat
/-- The 14 bytes of a full timestamp from 2^-16 ns (06 R119). -/
def fullStamp (fine : Nat) : List Byte :=
  leBytes 2 fine ++ leBytes 4 (fine / 65536 % 1000000000) ++ leBytes 8 (fine / 65536 / 1000000000)
/-- 2^-16 ns from the 14 bytes of a full timestamp. -/
def fineOfFull (b : List Byte) : Nat := field b 0 2 + 65536 * (field b 2 4 + 1000000000 * field b 6 8)
def State.fine (s : State) (base : Nat) : Nat :=
  if base = 0 then s.time.tb0.acc / 2 ^ 32 else if base = 1 then s.time.tb1.acc / 2 ^ 32
  else if base = 2 then s.tb2Fine else s.time.tb3
/-- Instants in ns of a duration in CD_TIME ticks. -/
abbrev tickNs (d : Nat) : Nat := 4 * d

/-- An event at an instant, with its effect where its premise holds; else only the clock moves (log 16). -/
def happens (t : Nat) (s : State) (p : State → Bool) (f : State → State) : Host.Outcome State Fault Refusal :=
  .next (if p (s.arrive t) then f (s.arrive t) else s.arrive t)
/-- The die runs: not in SLEEP, not unpowered after a loss of power-good in BOOT, not once the boot ROM has stopped (08 R178, R185;
13 R310). -/
def State.awake (s : State) : Bool := s.power.mode != 8 && !s.boot.stopped && !s.boot.halted
/-- Seconds of TB3 or of CD_TIME ticks. -/
abbrev secTicks (n : Nat) : Nat := n * 250000000

/-! ## Configuration in force -/

def State.conf (s : State) : Cfg := s.cfg.sown.cfg
def State.classRec (s : State) (x : Nat) : ClassRec := s.conf.classes.getD x (defaultClass 1000 8)
def State.station (s : State) (a : Nat) : Option StationRec := s.conf.map.stations.find? fun r => r.addr == a
def State.pointRec (s : State) (h : Nat) : Option PointRec := s.conf.points.find? fun p => p.handle == h
/-- The rule of a handle in the sown configuration; 0 when it has none. -/
def Cfg.rule (c : Cfg) (h : Nat) : Word64 := match c.points.find? fun p => p.handle == h with | some p => p.rule | none => 0#64
/-- A usable handle with a rule of a kind other than 0 (02 R16). -/
def State.declared (s : State) (h : Nat) : Bool := decide (1 ≤ h) && decide (h ≤ 0x5FFFFF) && ruleKind (s.ruleOf h) != 0
/-- RTT_s in ns (03 Table 3.5). -/
def StationRec.rttPs (r : StationRec) : Nat := 3000000 + 2 * (r.delayPs + 1200000 * r.hops) + 1000 * r.turnNs
/-- OW_s in ps (03 Table 3.5). -/
def StationRec.owPs (r : StationRec) : Nat := 2000000 + r.delayPs + 1200000 * r.hops
/-- A duration in ps as CD_TIME ticks, rounded up. -/
def psTicks (ps : Nat) : Nat := ceilDiv ps 4000
def psNs (ps : Nat) : Nat := ceilDiv ps 1000
def State.rttPs (s : State) (a : Nat) : Nat := match s.station a with | some r => r.rttPs | none => 0
/-- OW_s + L_s in ns. -/
def State.leadInNs (s : State) (a : Nat) : Nat := match s.station a with | some r => psNs r.owPs + r.leadNs | none => 0

/-! ## Recorder (17) -/

/-- The severity of each event of Table 17.2. -/
def severityOf (type : Nat) : Nat :=
  match type with
  | 0x0103 => 1 | 0x0104 => 2 | 0x0202 => 1 | 0x0204 => 1 | 0x0205 => 1 | 0x0206 => 2 | 0x0207 => 1 | 0x0208 => 1
  | 0x0401 => 1 | 0x0501 => 1 | 0x0602 => 1 | 0x0603 => 1 | 0x0604 => 1 | 0x0605 => 1 | 0x0701 => 3 | 0x0702 => 2
  | 0x0801 => 2 | 0x0802 => 1 | 0x0803 => 3 | 0x0901 => 1 | 0x0A03 => 2 | 0x0B01 => 1 | 0x0B02 => 1 | 0x0B03 => 1
  | 0x0C01 => 1 | 0x0C02 => 1 | 0x0D01 => 1 | 0x0D02 => 1 | 0x0D03 => 1 | 0x0E02 => 2 | 0x1001 => 2 | 0x1002 => 1
  | 0x1003 => 1 | 0x1004 => 1 | 0x1104 => 1 | 0x1105 => 1 | _ => 0
/-- As many whole quantities, each of its natural width, as fit in 32 bytes (17 R407). -/
def payloadOf : List (Nat × Nat) → Nat → List Byte
  | [], _ => []
  | (w, v) :: qs, room => if w ≤ room then leBytes w v ++ payloadOf qs (room - w) else []
/-- Bytes 0–27 and 32–63 are covered by the CRC (17 Table 17.1). -/
def recordBytes (r : Record) : List Byte :=
  let head := leBytes 6 r.seq ++ leBytes 2 r.type ++ leBytes 5 r.opSeconds ++ leBytes 1 r.severity ++ leBytes 2 0 ++
    leBytes 4 r.powerCycles ++ leBytes 8 r.stamp
  head ++ leBytes 4 (crc32c (head ++ r.payload)).toNat ++ r.payload
/-- Operating seconds (08 Table 8.11). -/
def State.opSeconds (s : State) : Nat := (s.power.operatingBase + (s.tb3s - s.power.operatingFrom)) % 2 ^ 40
/-- Give a record the next sequence, reserving a block of 4,096 when needed, and put it into the cache and the ring
(17 R372–R375). -/
def State.putRecord (type : Nat) (payload : List Byte) (s : State) : State :=
  let r : Record := { seq := s.log.nextSeq, type := type, opSeconds := s.opSeconds, severity := severityOf type,
                      powerCycles := s.power.powerCycles, stamp := if s.tb0Valid then s.tb0 else 0, payload := padTo 32 payload }
  let s := s.upMem fun m => memStore (recordBytes r) (0x0AA00000 + 64 * (r.seq % 32768)) m
  s.upLog fun l =>
    { l with ring := (if 262144 ≤ l.ring.length then l.ring.drop 1 else l.ring) ++ [r], nextSeq := l.nextSeq + 1,
             reserved := if l.reserved ≤ l.nextSeq then l.reserved + 4096 else l.reserved,
             exhausted := decide (l.nextSeq = 0xFFFFFFFFFFFF), unflushed := l.unflushed + 1,
             oldestUnflushed := if l.unflushed = 0 then s.time.now else l.oldestUnflushed,
             second := s.tb3s, inSecond := (if l.second = s.tb3s then l.inSecond else 0) + 1 }
/-- Records accepted in the current whole second of TB3 (17 R375). -/
def State.inSecond (s : State) : Nat := if s.log.second = s.tb3s then s.log.inSecond else 0
/-- Whether the recorder can accept a further record (17 R373, R375). -/
def State.recRoom (s : State) : Bool := decide (s.log.unflushed < 32768) && decide (s.inSecond < 20000)
/-- A record that is not accepted gets no sequence and is counted (17 R373, R375). -/
def State.dropRecord (s : State) : State :=
  s.upLog fun l => { l with dropped := inc32 l.dropped, droppedUnreported := l.droppedUnreported + 1 }
/-- Once room returns, one record 0x0E02 reports the number dropped (17 R373). -/
def State.reportDrops (s : State) : State :=
  if s.log.droppedUnreported = 0 then s
  else (s.putRecord 0x0E02 (payloadOf [(4, s.log.droppedUnreported)] 32)).upLog fun l => { l with droppedUnreported := 0 }
/-- The recorder accepts a record, or drops and counts it (17 R372, R373, R375). -/
def State.record_ (type : Nat) (payload : List Byte) (s : State) : State :=
  if s.log.exhausted then s
  else if !s.recRoom then s.dropRecord
  else if s.reportDrops.recRoom then s.reportDrops.putRecord type payload
  else s.reportDrops.dropRecord
/-- A record with its quantities (17 R407). -/
def State.record (type : Nat) (qs : List (Nat × Nat)) (s : State) : State := s.record_ type (payloadOf qs 32)
/-- A record written at most `max` times a second of TB3 under one key; counters elsewhere stay complete. -/
def State.recordAtMost (key max type : Nat) (qs : List (Nat × Nat)) (s : State) : State :=
  let n := match s.log.limits.find? fun e => e.1 == key && e.2.1 == s.tb3s with | some e => e.2.2 | none => 0
  if n < max then
    (s.record type qs).upLog fun l => { l with limits := (key, s.tb3s, n + 1) :: l.limits.filter fun e => e.1 != key }
  else s

/-! ## Ownership and modes (07, 08) -/

/-- Slot letter: `SLOT_ID0` = 0 is slot A (01 Table 1.5). -/
def State.slotB (s : State) : Bool := bit s.pair.slotId 0
def State.swathSilent (s : State) : Bool := !s.pair.lane0 && !s.pair.lane1
/-- The own stages follow the image only while the own claim is present and the twin's is absent (07 R148). -/
def State.driving (s : State) : Bool := s.pair.ownClaim && s.pair.ownReadback && s.pair.confirmed && !s.pair.twinClaim
/-- Drop the claim: `HEDGE_OUT` rests low (07 R145, R151). -/
def State.dropClaim (s : State) : State :=
  if s.pair.ownClaim then
    (s.upPair fun p => { p with ownClaim := false, confirmed := false, tied := false, ownReadback := false }).emit (.hedge 0)
  else s
/-- YIELD goes out over Swath while a lane carries it (07 R151). -/
def State.sendYield (s : State) : State := if s.swathSilent then s else s.emit (.swath (.yield s.pair.term))
/-- A transmit buffer whose request is lost: what it last requested stays known (16 R358, R363). -/
def TxBuf.drop (b : TxBuf) : TxBuf :=
  if b.status = 1 || b.status = 2 then { TxBuf.reset with lastSeq := b.lastSeq } else b
/-- A channel in bus monitoring mode: TEC stays 0, and pending buffers are lost (16 R363, R364). -/
def CanCh.monitor (c : CanCh) : CanCh :=
  { c with monitoring := true, integrating := false, recovering := false, tec := 0, fc := if 127 < c.rxErr then 1 else 0,
           tx := c.tx.map TxBuf.drop }
/-- At claim confirmation: normal operation with TEC and REC at 0, after 11 recessive bits (16 R364). -/
def CanCh.normal (c : CanCh) : CanCh :=
  { c with monitoring := false, integrating := true, recovering := false, tec := 0, rxErr := 0, fc := 0 }
/-- A class that no longer issues: its cycle is abandoned. -/
def ClassSt.stop (c : ClassSt) : ClassSt :=
  { c with phase := 0, toIssue := [], toWrite := [], held := [], done := [], localDone := [], tasks := false, overran := false,
           skipped := false, waitFrom := none, pubWord := c.pubWord / 2 * 2 }
/-- Every class stops. -/
def CycleSt.stop (c : CycleSt) : CycleSt := { c with cls := c.cls.map ClassSt.stop, oldTags := [] }
/-- The module is no longer the owner: nothing is issued and CAN is monitored (07 R145, 16 R363). -/
def State.notOwner (s : State) : State :=
  (((s.upPair fun p => { p with owner := false }).upCyc CycleSt.stop).upCan (List.map CanCh.monitor)).upSched fun q =>
    { q with frames := [] }
/-- Give up ownership for a reason other than a cooperative handover: the claim drops, then YIELD (07 R151). -/
def State.giveUp (s : State) : State := if s.pair.owner then s.notOwner.dropClaim.sendYield else s.dropClaim
/-- Rules of gate g (12 R280). -/
def ruleCount (g : Nat) : Nat := if g < 9 then 64 else 32
/-- Close debug (12 R291): rule N − 1 of every gate goes and the gates commit. -/
def State.closeDebug (s : State) : State :=
  if s.gate.debugOpen then
    (s.upGate fun g => { g with debugOpen := false, debugMb := none, active := g.active.filter (fun r => r.2.1 + 1 != ruleCount r.1),
                                shadow := g.active.filter (fun r => r.2.1 + 1 != ruleCount r.1),
                                epoch := (g.epoch + 1) % 2 ^ 32, commits := inc32 g.commits, draining := true }).record 0x0902 [(1, 0)]
  else s
/-- Modes in which the dwell of the health checks runs (13 R306). -/
def healthyMode (m : Nat) : Bool := m == 2 || m == 4 || m == 5 || m == 6
/-- A mode transition writes a record with the old mode, the new mode and the reason; the reason of an entry into
MAINTENANCE or SAFE HOLD reads as MODE_REASON; within SAFE HOLD the record gives the old and the new reason (08 R180, Table 8.2).
An entry into a mode in which health is checked begins the dwell (13 R306). Debug closes on leaving MAINTENANCE (12 R291). Only
PRIMARY and SOLO own the pair (Table 8.1). -/
def State.goMode (new reason : Nat) (s : State) : State :=
  let old := s.power.mode
  let was := s.power.reason
  let s := if old == 2 && new != 2 then s.closeDebug else s
  let s := if healthyMode old || !healthyMode new then s else s.upSheaf fun h => { h with healthFrom := s.time.now }
  let s := s.upPair fun p => { p with owner := p.owner && (new == 5 || new == 6) }
  (s.upPower fun p => { p with mode := new, reason := if new == 2 || new == 7 then reason else p.reason }).record 0x0201
    ([(1, old), (1, new)] ++ if old == 7 && new == 7 then [(1, was), (1, reason)] else [(1, reason)])
/-- A row of Table 8.2 that keeps the mode: only the record is written (08 R180). -/
def State.stayMode (reason : Nat) (s : State) : State := s.record 0x0201 [(1, s.power.mode), (1, s.power.mode), (1, reason)]
/-! ### Local safe states (14 R325, 15 R340) -/

/-- Word C + 0 of a digital channel's settings (14 Table 14.6). -/
def State.dioWord (s : State) (n : Nat) : Nat := s.conf.dio.getD n 0
def State.dioMode (s : State) (n : Nat) : Nat := bits (s.dioWord n) 0 2
/-- Words C + 0 and C + 1 of an analogue channel's settings (15 Table 15.5). -/
def State.uaWord (s : State) (n : Nat) : Nat := (s.conf.ua.getD n (0, 0)).1
def State.uaWord1 (s : State) (n : Nat) : Nat := (s.conf.ua.getD n (0, 0)).2
def State.uaMode (s : State) (n : Nat) : Nat := bits (s.uaWord n) 28 4
/-- A number of µV, nA or m°C in the raw format of a channel: RAW_INT, or binary32 in V, mA or °C (15 R331). -/
def uaRaw (word : Nat) (x : Int) : Raw :=
  if bit word 9 then BitVec.ofNat 32 (unsignedOf 32 x)
  else f32OfRat (decide (x < 0)) x.natAbs (if 4 ≤ bits word 28 4 && bits word 28 4 ≤ 6 then 1000 else 1000000)
/-- OFF, ON or HOLD of a digital output (14 R325). -/
def dioSafe (word : Nat) (c : DioCh) : Bool := if bits word 8 2 = 1 then true else if bits word 8 2 = 2 then c.lastApplied else false
/-- The safe state of an analogue output as a raw command (15 R340). -/
def uaSafe (word word1 : Nat) (c : UaCh) : Raw :=
  match bits word 18 3 with
  | 1 => c.lastApplied.getD (uaRaw word 0)
  | 2 => uaRaw word 3600000
  | 3 => uaRaw word 21000000
  | 4 => uaRaw word (1000 * bits word1 16 16 : Nat)
  | _ => uaRaw word 0
/-- Update each element with its index. -/
def mapFrom {α : Type} (f : Nat → α → α) : Nat → List α → List α
  | _, [] => []
  | n, x :: xs => f n x :: mapFrom f (n + 1) xs
/-- The digital front end shows its safe states. -/
def State.dioToSafe (s : State) : State :=
  s.upDio fun d => { d with ch := mapFrom (fun n c => { c with commanded := dioSafe (s.dioWord n) c }) 0 d.ch }
/-- The analogue front end shows its safe states. -/
def State.uaToSafe (s : State) : State :=
  s.upUa fun u => { u with ch := mapFrom (fun n c => { c with commanded := uaSafe (s.uaWord n) (s.uaWord1 n) c }) 0 u.ch }
/-- A case of R325 holds at the digital front end. -/
def State.dioSafeActive (s : State) : Bool := s.dio.silent || s.power.safeN || s.power.mode == 7 || s.dio.retireSafe
/-- A case of R325 holds at the analogue front end (15 R340). -/
def State.uaSafeActive (s : State) : Bool := s.ua.silent || s.power.safeN || s.power.mode == 7 || s.ua.retireSafe
/-- A local stage drives: image values under the gating of 07 R148, safe states in SAFE HOLD while the twin's claim is
absent (14 R323, 15 R338). -/
def State.stageOn (s : State) : Bool := s.driving || (s.power.mode == 7 && !s.pair.twinClaim)

/-- Finish a job with a status and a result (11 R256). -/
def State.endJob (id status : Nat) (result : List Byte) (s : State) : State :=
  s.upMsg fun m => { m with jobs := m.jobs.map fun j =>
    if j.id == id && !j.done then { j with done := true, progress := 1000, status := status, result := result, endAt := s.time.now } else j }
/-- An armed handover, flip or revert is abandoned, and its job ends with a status (08 Table 8.8, 10 R239). -/
def State.abandonArmed (status : Nat) (s : State) : State :=
  let s := match s.pair.armed with
    | some h => (s.endJob h.job status []).upPair fun p => { p with armed := none, homeArmed := false }
    | none => s
  match s.cfg.armed with
  | some f => (s.endJob f.job status []).upCfg fun c => { c with armed := none }
  | none => s

/-- Entry into SAFE HOLD (08 R179, R180; 07 R151): ownership is given up, and the front ends show their safe states. -/
def State.safeHold (reason : Nat) (s : State) : State :=
  let own := s.pair.owner
  let s := s.abandonArmed stState
  let s := s.giveUp
  let s := s.upPair fun p => { p with synced := false, isolated := false, homeArmed := false, armed := none }
  let s := s.upPower fun p => { p with fromOwner := own || (p.mode == 7 && p.fromOwner) }
  let s := if reason == 2 || reason == 3 || reason == 4 || reason == 0xD then
      s.upSheaf fun h => { h with healthBroken := true, healthPassed := false } else s
  ((s.goMode 7 reason).dioToSafe.uaToSafe).emit .safeStates
/-! ## FSP frames out (04 R68–R74) -/

/-- The fields of a frame that the module builds; `cfg` is the configuration that the frame belongs to where it is not the sown
one (04 Table 4.3). -/
structure OutFrame where
  cfg : Option Nat := none
  kind : Nat
  station : Nat
  tag : Nat
  cls : Nat
  cycle : Nat
  pending : Bool
  retry : Bool
  pcp : Nat
  dest : List Byte
  payload : List Byte

/-- The 24-byte header, the payload and the CRC-32C trailer (04 Table 4.3, R72). -/
def fspBytes (f : OutFrame) (term version : Nat) (slotB ring : Bool) (seq : Nat) : List Byte :=
  let head := leBytes 1 (0x10 + f.kind) ++ leBytes 3 (f.station * 4096 + f.tag * 4 + f.cls) ++ leBytes 4 term ++ leBytes 4 version ++
    leBytes 4 f.cycle ++ leBytes 2 f.payload.length ++
    leBytes 2 (b2n slotB * 16 + b2n f.pending * 8 + b2n ring * 4 + b2n f.retry) ++ leBytes 2 seq ++ leBytes 2 0
  head ++ f.payload ++ leBytes 4 (crc32c (head ++ f.payload)).toNat
/-- The next 802.1CB sequence number of a transmit stream: port pair and destination (04 R89). -/
def State.seqOf (s : State) (ring dest : Nat) : Nat :=
  match s.fsp.txSeq.find? fun e => e.1 == ring && e.2.1 == dest with | some e => e.2.2 | none => 0
/-- Send a frame on a port pair: on a ring both ports carry it with RING and one SEQ, on chains each port alone (04 R89,
R91). Only a port whose link is up carries it (19 R400), and none once the plant MACs are off (08 Table 8.8). -/
def State.sendPair (ring : Nat) (mask : Nat) (f : OutFrame) (s : State) : State :=
  let version := f.cfg.getD s.conf.version
  let up (p : Nat) : Bool := match s.sfp[p]? with | some x => x.linkUp | none => false
  if s.boot.coresOff then s
  else if bit s.conf.map.topology ring && bits mask (2 * ring) 2 != 0 then
    let dest := beNat f.dest
    let seq := s.seqOf ring dest
    let b := fspBytes f s.pair.term version s.slotB true seq
    (s.emits (([2 * ring, 2 * ring + 1].filter up).map fun p => .fsp p f.dest f.pcp b)).upFsp fun q =>
      { q with txSeq := (ring, dest, (seq + 1) % 65536) :: q.txSeq.filter fun e => !(e.1 == ring && e.2.1 == dest) }
  else
    s.emits (([2 * ring, 2 * ring + 1].filter fun p => bit mask p && up p).map fun p =>
      .fsp p f.dest f.pcp (fspBytes f s.pair.term version s.slotB false 0))
/-- Send a frame on the ports of a mask. -/
def State.sendFrame (mask : Nat) (f : OutFrame) (s : State) : State := (s.sendPair 0 mask f).sendPair 1 mask f
/-- PCP of a class (04 Table 4.2): section 0x01 holds A, SCHED, B, C and D, DIAG in this order. -/
def State.pcpOf (s : State) (cls : Nat) : Nat := s.conf.map.pcp.getD (if cls = 0 then 0 else if cls = 1 then 2 else 3) 0
/-- A frame to one station of the map. -/
def State.toStation (a : Nat) (f : OutFrame) (s : State) : State :=
  match s.station a with
  | some r => s.sendFrame r.ports { f with station := a, dest := r.mac }
  | none => s
def announcePayload (reason : Nat) : List Byte := leBytes 4 reason
/-- ANNOUNCE to all stations on every plant port (04 R83, R87). -/
def State.announce (reason : Nat) (s : State) : State :=
  s.sendFrame 15 { kind := 10, station := 0xFFF, tag := 0, cls := 0, cycle := 0, pending := false, retry := false,
                   pcp := s.conf.map.pcp.getD 1 0, dest := s.conf.map.stationGroup, payload := announcePayload reason }
/-- The 44-byte BIND payload (04 Table 4.6) of a configuration for one station. -/
def bindPayload (c : Cfg) (r : StationRec) (pending : Bool) (cycle : Nat) : List Byte :=
  leBytes 4 3 ++ leBytes 4 15 ++ (c.classes.flatMap fun x => leBytes 4 x.periodUs) ++ (r.holdUs.flatMap (leBytes 4)) ++
    leBytes 4 (if pending then cycle else 0)
/-- BIND to one station (04 R84). -/
def State.sendBind (a : Nat) (pending : Bool) (cycle : Nat) (c : Cfg) (s : State) : State :=
  match c.map.stations.find? fun r => r.addr == a with
  | some r =>
    (s.sendFrame r.ports { cfg := some c.version, kind := 10, station := a, tag := 0, cls := 0, cycle := 0, pending := pending, retry := false,
                           pcp := c.map.pcp.getD 1 0, dest := r.mac, payload := bindPayload c r pending cycle }).upFsp fun q =>
      { q with binds := { station := a, attempts := 1, st := 0, pending := pending, cycle := cycle, version := c.version } ::
                        q.binds.filter fun b => b.station != a }
  | none => s
/-- BIND to every station of a configuration. -/
def State.bindAll (pending : Bool) (cycle : Nat) (c : Cfg) (s : State) : State :=
  c.map.stations.foldl (fun s r => s.sendBind r.addr pending cycle c) s

end Sys2Proof.Machine
end

