-- ==== Sys2Proof/Machine/Flags.lean ====
section
/-! DEFINITION. The fields and flags of an image entry and the rows of Table 2.10 (02 R20–R23, R37–R39). -/

namespace Sys2Proof.Machine

/-- The fields of Table 2.2; the reserved bit 16 is not among them. -/
structure Img where
  value : Word
  quality : Nat
  forced : Bool
  simulated : Bool
  changed : Bool
  stamped : Bool
  held : Bool
  pend : Bool
  timed : Bool
  age : Nat
deriving DecidableEq, Repr

/-- The fields of an entry (02 Table 2.2). -/
def imgOf (e : Word64) : Img :=
  { value := BitVec.ofNat 32 (bits e.toNat 32 32), quality := bits e.toNat 24 8, forced := bit e.toNat 23, simulated := bit e.toNat 22,
    changed := bit e.toNat 21, stamped := bit e.toNat 20, held := bit e.toNat 19, pend := bit e.toNat 18, timed := bit e.toNat 17,
    age := bits e.toNat 0 16 }
/-- The entry of some fields; bit 16 reads 0 (02 Table 2.2). -/
def imgWord (g : Img) : Word64 :=
  BitVec.ofNat 64 (g.value.toNat * 2 ^ 32 + g.quality % 256 * 2 ^ 24 + b2n g.forced * 2 ^ 23 + b2n g.simulated * 2 ^ 22 +
    b2n g.changed * 2 ^ 21 + b2n g.stamped * 2 ^ 20 + b2n g.held * 2 ^ 19 + b2n g.pend * 2 ^ 18 + b2n g.timed * 2 ^ 17 + g.age % 65536)
def State.img (s : State) (h : Nat) : Img := imgOf (s.image h)
/-- One aligned 64-bit compare-and-swap (02 R21). -/
def State.upImg (h : Nat) (f : Img → Img) (s : State) : State := s.setImage h (imgWord (f (s.img h)))
/-- A newly declared handle (02 Table 2.2, Table 2.10). -/
def newImg (init : Word) : Img :=
  { value := init, quality := 0x41, forced := false, simulated := false, changed := false, stamped := false, held := true,
    pend := false, timed := false, age := 0xFFFF }

/-- AGE saturates at 0xFFFF (02 R39). -/
def ageUp (a : Nat) : Nat := min 0xFFFF (a + 1)
/-- Item statuses that a station or local channel may report (02 R37). -/
def statusAllowed (q : Nat) : Bool := q == 0 || (decide (0x81 ≤ q) && decide (q ≤ 0x85)) || q == 0x87
/-- A status outside the permitted set gives BAD_CONFIG (02 R33). -/
def statusQuality (q : Nat) : Nat := if statusAllowed q then q else 0x86
/-- QUALITY under a force or a simulation (02 R38 items 1 and 2), else the quality given. -/
def Img.withQuality (g : Img) (q : Nat) : Img := { g with quality := if g.forced then 1 else if g.simulated then 2 else q }
/-- Table 2.10, good completion processed. `same` is the VALUE at the publication before. -/
def Img.good (v : Word) (stamped : Bool) (same : Word) (g : Img) : Img :=
  if g.forced || g.simulated then { g with age := 0, changed := g.value != same, stamped := false }
  else { g with value := v, quality := 0, age := 0, held := false, changed := v != same, stamped := stamped }
/-- Table 2.10, completion with a bad status, range check failure or overrange. -/
def Img.bad (q : Nat) (same : Word) (g : Img) : Img :=
  if g.forced || g.simulated then { g with age := ageUp g.age, changed := g.value != same, stamped := false }
  else { g with quality := q, age := ageUp g.age, held := true, changed := g.value != same, stamped := false }
/-- Table 2.10, no completion. -/
def Img.missing (limit : Nat) (same : Word) (g : Img) : Img :=
  ({ g with age := ageUp g.age, held := true, changed := g.value != same, stamped := false }).withQuality
    (if g.age + 1 ≤ limit then 0x40 else 0x80)
/-- Table 2.10 for an output whose WRITE has no WRITE_ACK; CHANGED of an output speaks of the values sent. -/
def Img.missingOut (limit : Nat) (g : Img) : Img :=
  ({ g with age := ageUp g.age, held := true }).withQuality (if g.age + 1 ≤ limit then 0x40 else 0x80)
/-- Table 2.10, release of a force or simulation. -/
def Img.release (g : Img) : Img := { g with forced := false, simulated := false, quality := 0x41, held := true }

/-- VALUE at the last publication: kept apart only while a force has changed it since (02 Table 2.2, CHANGED). -/
def State.published (s : State) (h : Nat) : Word :=
  match s.pts.before.find? fun e => e.1 == h with | some e => e.2 | none => (s.img h).value
/-- Stale limit of a class in cycles (02 R40). -/
def State.staleLimit (s : State) (x : Nat) : Nat := (s.classRec x).stale

end Sys2Proof.Machine
end

