-- ==== Sys2Proof/Machine/Operands.lean ====
section
/-! DEFINITION. From station item to image value and back: transforms, filters, kinds and block slots (02 R26–R36). -/

namespace Sys2Proof.Machine

/-- What an item gives after steps 1 to 6 of R32. -/
inductive Conv
  | value (v : Word)
  | bad (quality : Nat)
deriving DecidableEq, Repr

/-- A raw item of a format in binary64 (02 R32 step 2): formats 2–6 of Table 2.5. An infinite or NaN item gives none. -/
def rawToF64 (kind : Nat) (x : Word) : Option Word64 :=
  match kind with
  | 2 => some (f64OfInt (signed 16 x.toNat))
  | 3 => some (f64OfInt (bits x.toNat 0 16 : Nat))
  | 4 => some (f64OfInt (signed 32 x.toNat))
  | 6 => if f32Finite x then some (f64OfF32 x) else none
  | _ => some (f64OfInt (x.toNat : Nat))
/-- The final rounding to a kind (02 R33): none where the result is out of range, infinite or a NaN. -/
def f64ToKind (kind : Nat) (y : Word64) : Option Word :=
  if !f64Finite y then none
  else if kind = 6 then (let r := f32OfF64 y; if f32Finite r then some r else none)
  else
    let i := f64ToInt y
    let ok : Bool := match kind with
      | 2 => decide (-32768 ≤ i) && decide (i ≤ 32767)
      | 3 => decide (0 ≤ i) && decide (i ≤ 65535)
      | 4 => decide (-2147483648 ≤ i) && decide (i ≤ 2147483647)
      | _ => decide (0 ≤ i) && decide (i ≤ 4294967295)
    if ok then some (BitVec.ofNat 32 (unsignedOf 32 i)) else none

/-- The piecewise linear function of TABLE32 through the used breakpoints (02 R34): none outside them. -/
def table32 (x : Word64) : List (Word64 × Word64) → Option Word64
  | [] => none
  | [(x0, y0)] => if x = x0 || (!f64Lt x x0 && !f64Lt x0 x) then some y0 else none
  | (x0, y0) :: (x1, y1) :: rest =>
    if f64Lt x x0 then none
    else if f64Lt x x1 then some (f64Add y0 (f64Mul (f64Sub x x0) (f64Div (f64Sub y1 y0) (f64Sub x1 x0))))
    else table32 x ((x1, y1) :: rest)
/-- One of the seven parameters of a transform. -/
def Transform.par (t : Transform) (i : Nat) : Word64 := t.p.getD i 0#64
def noTransform : Transform := { type := 0, flags := 0, rawKind := 0, count := 0, index := 0, spare := true, p := [] }
def noFilter : Filter := { type := 0, edges := 0, n := 0, spare := true, p := 0#64 }
/-- The transform of Table 2.8; none is BAD_OVERRANGE. -/
def Transform.apply (c : Cfg) (t : Transform) (x : Word64) : Option Word64 :=
  match t.type with
  | 1 => some (f64Add (f64Mul (t.par 0) x) (t.par 1))
  | 2 => some (f64Add (t.par 1) (f64Mul (f64Sub x (t.par 0)) (f64Div (f64Sub (t.par 3) (t.par 1)) (f64Sub (t.par 2) (t.par 0)))))
  | 3 =>
    let n := f64Mul (f64Sub x (t.par 0)) (f64Div (f64OfInt 1) (f64Sub (t.par 1) (t.par 0)))
    if f64Lt n (t.par 4) then some (t.par 2)
    else some (f64Add (t.par 2) (f64Mul (f64Sub (t.par 3) (t.par 2)) (f64Sqrt n)))
  | 4 => table32 x (((c.characteristics.getD t.index []).take t.count).map fun p => (f64OfF32 p.1, f64OfF32 p.2))
  | _ => some x
def Cfg.transform (c : Cfg) (r : Word64) : Transform := c.transforms.getD (ruleTransform r) noTransform
def Cfg.filter (c : Cfg) (r : Word64) : Filter := c.filters.getD (ruleFilter r) noFilter
/-- The format of the raw item of a rule: RAW_KIND under a transform, the point's own format without one (02 R33, R34). -/
def Cfg.rawKind (c : Cfg) (r : Word64) : Nat := let t := c.transform r; if t.type = 0 then ruleKind r else t.rawKind
/-- Steps 2 to 4 of R32 for a numeric kind: the transform result, or a quality. -/
def Cfg.transformed (c : Cfg) (r : Word64) (x : Word) : Word64 ⊕ Nat :=
  let t := c.transform r
  match rawToF64 (c.rawKind r) x with
  | none => .inr 0x87
  | some x =>
    if bit t.flags 0 && f64Lt x (t.par 5) then .inr 0x83
    else if bit t.flags 0 && f64Lt (t.par 6) x then .inr 0x84
    else match t.apply c x with
      | some y => if f64Finite y then .inl y else .inr 0x87
      | none => .inr 0x87

def PointSt.filt (p : PointSt) (h : Nat) : FiltSt :=
  match p.filters.find? fun f => f.handle == h with | some f => f | none => { handle := h, s := 0#64, count := 0 }
def PointSt.setFilt (f : FiltSt) (p : PointSt) : PointSt := { p with filters := f :: p.filters.filter fun g => g.handle != f.handle }

/-- Steps 2 to 6 of R32 for a numeric point: conversion, range check, transform, filter and conversion to the kind, with
the filter state afterwards. A sample after any quality other than GOOD, and the first after a flip that says so, seeds the filter
(R36). -/
def State.numeric (s : State) (h : Nat) (r : Word64) (x : Word) : Conv × FiltSt :=
  let g := s.img h
  let f := s.conf.filter r
  let st := s.pts.filt h
  let seed := g.quality != 0 || s.pts.reseed.contains h
  let kind := ruleKind r
  match s.conf.transformed r x with
  | .inr q => (.bad q, st)
  | .inl y =>
    let fin (y : Word64) (st : FiltSt) : Conv × FiltSt :=
      match f64ToKind kind y with | some v => (.value v, st) | none => (.bad 0x87, st)
    match f.type with
    | 1 =>
      let v := (rawToF64 kind g.value).getD 0#64
      if seed || f64Lt f.p (f64Abs (f64Sub y v)) then fin y st else (.value g.value, st)
    | 2 =>
      let n := if seed then y else f64Add st.s (f64Mul (Config.firstOrderAlpha (s.classRec (ruleClass r)).periodUs f.p) (f64Sub y st.s))
      fin n { st with s := n }
    | _ => fin y st
/-- A BIT point: DEBOUNCE or plain (02 R35, R36). -/
def State.bitInput (s : State) (h : Nat) (r : Word64) (b : Bool) : Conv × FiltSt :=
  let g := s.img h
  let f := s.conf.filter r
  let st := s.pts.filt h
  let v := BitVec.ofNat 32 (b2n b)
  if f.type = 3 && g.quality == 0 && !s.pts.reseed.contains h then
    if bit g.value.toNat 0 == b then (.value g.value, { st with count := 0 })
    else if f.n ≤ st.count + 1 then (.value v, { st with count := 0 })
    else (.value g.value, { st with count := st.count + 1 })
  else (.value v, { st with count := 0 })
/-- COUNT32 with EDGE_COUNT (02 R35, R36). -/
def State.edgeInput (s : State) (h : Nat) (r : Word64) (b : Bool) : Conv × FiltSt :=
  let g := s.img h
  let f := s.conf.filter r
  let st := s.pts.filt h
  let was := bit st.count 0
  let edge := (bit f.edges 0 && !was && b) || (bit f.edges 1 && was && !b)
  (.value (if g.quality == 0 && edge && !s.pts.reseed.contains h then g.value + 1#32 else g.value), { st with count := b2n b })

/-! ## Block pool (02 R27–R31) -/

/-- Declared capacity c of a BLOCK point: a multiple of 8 from 8 to 256 (02 R29, log 15). -/
def Cfg.capacity (c : Cfg) (h : Nat) : Nat := 8 * (Config.blockUnits c.version h % 32 + 1)
/-- Size of a record slot. -/
def Cfg.slotSize (c : Cfg) (h : Nat) (r : Word64) : Nat := if ruleKind r = 8 then 16 else 8 + c.capacity h
/-- The slot that is not current: the declared initial VALUE names the first of the two (log 14). -/
def State.otherSlot (s : State) (h : Nat) (r : Word64) : Nat :=
  let init := (match s.pointRec h with | some p => p.init | none => 0#32).toNat
  if (s.img h).value.toNat = init then init + s.conf.slotSize h r else init
/-- The current record slot of a STAMP or BLOCK point. -/
def State.slotBytes (s : State) (h : Nat) (r : Word64) : List Byte :=
  memReadBytes s.mem (poolBase + (s.img h).value.toNat) (s.conf.slotSize h r)
/-- The 16 bytes of a STAMP slot (02 R28). -/
def stampSlot (stamp edges polarity lost : Nat) : List Byte :=
  leBytes 8 stamp ++ leBytes 4 edges ++ leBytes 1 polarity ++ leBytes 1 (min 255 lost) ++ leBytes 2 0
/-- A BLOCK slot: valid length, capacity, update sequence, data with zeros beyond (02 R29). -/
def blockSlot (cap seq : Nat) (data : List Byte) : List Byte :=
  leBytes 2 (min cap data.length) ++ leBytes 2 cap ++ leBytes 4 seq ++ padTo cap data
/-- A new record in the slot that is not current; answers its offset. -/
def State.writeSlot (h : Nat) (r : Word64) (data : List Byte) (s : State) : State × Word :=
  let off := s.otherSlot h r
  let bytes := if ruleKind r = 8 then padTo 16 data
    else blockSlot (s.conf.capacity h) (field (s.slotBytes h r) 4 4 + 1) data
  (s.upMem fun m => memStore bytes (poolBase + off) m, BitVec.ofNat 32 off)

/-! ## Completion of one item (02 R32, Table 2.10) -/

/-- The words that a point takes of its station's item space (02 R26, R77). -/
def Cfg.itemWords (c : Cfg) (h : Nat) (r : Word64) : Nat :=
  match ruleKind r with | 8 => 4 | 9 => c.capacity h / 4 | _ => 1
/-- BIT points, and COUNT32 with EDGE_COUNT, address a bit of a word (02 R26). -/
def Cfg.isBitItem (c : Cfg) (r : Word64) : Bool := ruleKind r == 1 || (ruleKind r == 7 && (c.filter r).type == 4)
/-- First item word of a rule at a station. -/
def Cfg.firstWord (c : Cfg) (r : Word64) : Nat := if c.isBitItem r then ruleOffset r / 32 else ruleOffset r
/-- The bit that a rule takes of its word: OFFSET[4:0] at a station, bit 0 on a local channel. -/
def itemBit (r : Word64) (w : Word) : Bool := bit w.toNat (if ruleStation r = 0 then 0 else ruleOffset r % 32)
/-- Words as bytes, little-endian. -/
def wordBytes (ws : List Word) : List Byte := ws.flatMap fun w => leBytes 4 w.toNat
/-- Forget what `published` kept. -/
def State.clearBefore (h : Nat) (s : State) : State := s.upPts fun p => { p with before := p.before.filter fun e => e.1 != h }
/-- A record for a STAMP or BLOCK input (02 R27). -/
def State.completeSlot (h : Nat) (r : Word64) (data : List Byte) (s : State) : State :=
  let same := s.published h
  let g := s.img h
  if g.forced || g.simulated then (s.upImg h (Img.good g.value false same)).clearBefore h
  else ((s.writeSlot h r data).1.upImg h (Img.good (s.writeSlot h r data).2 (ruleKind r == 8) same)).clearBefore h
/-- One item of a completion reaches its point: the item status, then the value (02 R32). The values of a forced or
simulated input are discarded (R41). -/
def State.complete (h : Nat) (r : Word64) (status : Nat) (words : List Word) (s : State) : State :=
  let same := s.published h
  let g := s.img h
  if g.forced || g.simulated then
    (if status = 0 then s.upImg h (Img.good g.value false same) else s.upImg h (Img.bad status same)).clearBefore h
  else if status != 0 then (s.upImg h (Img.bad (statusQuality status) same)).clearBefore h
  else if ruleKind r = 8 || ruleKind r = 9 then s.completeSlot h r (wordBytes words)
  else
    let w := words.getD 0 0#32
    let (c, f) := if ruleKind r = 1 then s.bitInput h r (itemBit r w)
      else if ruleKind r = 7 && (s.conf.filter r).type == 4 then s.edgeInput h r (itemBit r w)
      else if ruleKind r = 7 then (.value w, s.pts.filt h)
      else s.numeric h r w
    let s := if (s.conf.filter r).type = 0 || (s.conf.filter r).type = 1 then s else s.upPts (PointSt.setFilt f)
    match c with
    | .value v => ((s.upImg h (Img.good v false same)).clearBefore h).upPts fun p => { p with reseed := p.reseed.filter fun x => x != h }
    | .bad q => ((s.upImg h (Img.bad q same)).clearBefore h).upPts fun p => if q = 0x87 then { p with overrange := inc32 p.overrange } else p

/-! ## Outputs (02 R32, R33; 03 R62) -/

/-- The raw word of an output, or none where its conversion gives BAD_OVERRANGE. -/
def Cfg.outRaw (c : Cfg) (r : Word64) (v : Word) : Option Word :=
  let t := c.transform r
  let low (k : Nat) (w : Word) : Word := if k = 2 || k = 3 then w &&& 0xFFFF#32 else w
  match ruleKind r with
  | 1 => some (v &&& 1#32)
  | 9 => some v
  | k =>
    if t.type = 0 then (if k = 6 && !f32Finite v then none else some (low k v))
    else match (rawToF64 k v).bind (t.apply c) with
      | some y => (f64ToKind t.rawKind y).map (low t.rawKind)
      | none => none
/-- The force table entry of a handle. -/
def PointSt.force (p : PointSt) (h : Nat) : Option ForceEnt := p.forces.find? fun f => f.handle == h
/-- What the next WRITE of the class would carry: VALUE, or the frozen value of a simulated entry (02 R22, R41). -/
def State.carriedValue (s : State) (h : Nat) : Word :=
  let g := s.img h
  if g.simulated then (match s.pts.force h with | some f => f.value | none => g.value) else g.value
/-- An acknowledgement of the value that an output carried (02 R22). -/
def State.ackOutput (h : Nat) (carried : Word) (s : State) : State :=
  if carried = s.carriedValue h then
    s.upImg h fun g => ({ g with held := false, pend := false, age := 0 }).withQuality 0
  else s.upImg h fun g => { g with held := false }
/-- No acknowledgement: the output rows of Table 2.10 (03 R59). -/
def State.failOutput (h : Nat) (r : Word64) (s : State) : State := s.upImg h (Img.missingOut (s.staleLimit (ruleClass r)))
/-- A conversion of an output that gives BAD_OVERRANGE (02 R33). -/
def State.overrangeOutput (h : Nat) (s : State) : State :=
  (s.upImg h fun g => ({ g with age := ageUp g.age, held := true }).withQuality 0x87).upPts fun p =>
    { p with overrange := inc32 p.overrange }
/-- The points of the sown configuration that pass a test on handle and rule. -/
def Cfg.pointsWhere (c : Cfg) (f : PointRec → Bool) : List PointRec := c.points.filter f

/-- The first point at a local channel offset, in or out (02 Table 2.4). -/
def Cfg.localPoint (c : Cfg) (offset : Nat) (out : Bool) : Option PointRec :=
  c.points.find? fun p => ruleKind p.rule != 0 && ruleStation p.rule == 0 && ruleKind p.rule != 10 && ruleOffset p.rule == offset &&
    ruleIsOut p.rule == out

end Sys2Proof.Machine
end

