-- ==== Sys2Proof/Machine/Can.lean ====
section
/-! DEFINITION. The CAN FD channels (16). -/

namespace Sys2Proof.Machine

def State.canCh (s : State) (n : Nat) : CanCh := s.can.getD n CanCh.reset
def State.setCan (n : Nat) (f : CanCh → CanCh) (s : State) : State := s.upCan fun l => setAt l n f
def Cfg.canCfg (c : Cfg) (n : Nat) : CanCfg := c.can.getD n { words := [], tx := [], filters := [] }
/-- A word C + i of the channel's settings (16 Table 16.7). -/
def CanCfg.word (c : CanCfg) (i : Nat) : Nat := c.words.getD i 0
def CanCfg.enabled (c : CanCfg) : Bool := bit (c.word 2) 0
def CanCfg.txUse (c : CanCfg) (b : Nat) : Nat := bits (c.tx.getD b 0) 4 2
def CanCfg.oneShot (c : CanCfg) (b : Nat) : Bool := bit (c.tx.getD b 0) 3 || bit (c.word 2) 16
def CanCfg.tmEnable (c : CanCfg) : Bool := bit (c.word 2) 14
def CanCfg.tmBuffer (c : CanCfg) : Nat := bits (c.word 2) 8 5
def CanCfg.tmId (c : CanCfg) : Nat := bits (c.word 3) 0 29
def CanCfg.tmXtd (c : CanCfg) : Bool := bit (c.word 3) 29
/-- BASIC_CYCLE_US in ns. -/
def CanCfg.basicNs (c : CanCfg) : Nat := 1000 * c.word 4
/-- Filter elements in effect: until the first bus idle after a flip the old ones stay (16 R367). -/
def State.canInUse (s : State) (n : Nat) : CanCfg :=
  if (s.canCh n).newFilters then s.cfg.fallow.cfg.canCfg n else s.conf.canCfg n

/-! ## Frames and records -/

/-- Data bytes of a DLC (16 Table 16.2). -/
def dlcBytes (fdf : Bool) (dlc : Nat) : Nat :=
  if dlc ≤ 8 then dlc else if fdf then [12, 16, 20, 24, 32, 48, 64].getD (dlc - 9) 64 else 8
def canIdWord (f : CanFrame) : Nat := b2n f.fdf * 2 ^ 31 + b2n f.brs * 2 ^ 30 + b2n f.xtd * 2 ^ 29 + f.id
/-- The bytes of a frame record with room for `room` data bytes (16 Table 16.2, R356). -/
def CanRec.bytes (r : CanRec) (room : Nat) : List Byte :=
  let n := dlcBytes r.f.fdf r.f.dlc
  leBytes 8 r.f.sofNs ++ leBytes 4 (canIdWord r.f) ++ leBytes 1 (r.f.dlc % 16) ++
    leBytes 1 (b2n (decide (room < n)) * 4 + b2n r.overrun * 2 + b2n r.f.esi) ++ leBytes 2 r.element ++ padTo (min room n) r.f.data
/-- The whole record of 80 bytes. -/
def CanRec.full (r : CanRec) : List Byte := padTo 80 (r.bytes 64)
/-- The frame that a transmit record spells (16 Table 16.2). -/
def canFrameOf (b : List Byte) : CanFrame :=
  let w := field b 8 4
  let dlc := field b 12 1 % 16
  { sofNs := 0, fdf := bit w 31, brs := bit w 30, xtd := bit w 29, remote := false, id := bits w 0 29, dlc := dlc, esi := false,
    data := padTo (dlcBytes (bit w 31) dlc) (b.drop 16) }

/-! ## Receive (16 R354–R357) -/

/-- Whether an element decides an identifier (16 Table 16.3, R354). -/
def filterMatches (e : Nat × Nat × Nat) (f : CanFrame) : Bool :=
  let a := bits e.1 0 29
  let b := bits e.2.1 0 29
  let space := bits e.2.2 2 2
  let m := bits e.2.2 0 2
  (if f.xtd then space == 2 else space == 1) &&
  (if m = 0 then decide (a ≤ f.id) && decide (f.id ≤ b)
   else if m = 1 then f.id == a || f.id == b
   else m == 2 && (f.id &&& b) == (a &&& b))
/-- The element that decides and its TARGET; else the default target of the identifier space (16 R354). -/
def CanCfg.decide_ (c : CanCfg) (f : CanFrame) : Nat × Nat :=
  match (List.range c.filters.length).find? fun i => filterMatches (c.filters.getD i (0, 0, 0)) f with
  | some i => (i, bits (c.filters.getD i (0, 0, 0)).2.2 24 8)
  | none => (0xFFFF, if f.xtd then bits (c.word 2) 19 2 else bits (c.word 2) 21 2)
/-- A FIFO of 64 records: what it holds, whether frames were lost before the next, and frames lost (16 R357). -/
def fifoStore (keepNewest lost : Bool) (q : List CanRec) (r : CanRec) : List CanRec × Bool × Nat :=
  if q.length < 64 then (q ++ [{ r with overrun := lost }], false, 0)
  else if keepNewest then (q.drop 1 ++ [{ r with overrun := true }], false, 1)
  else (q, true, 1)
/-- REC after a received frame: ISO 11898-1 takes 1 off, and brings a value above 127 back to one of 119 to 127, which the
standard leaves free (log 20). -/
def recAfter (free rxErr : Nat) : Nat :=
  if 127 < rxErr then 119 + (Config.freeWord free).toNat % 9 else rxErr - 1
/-- Error-active, error-passive or bus-off (16 R362). -/
def fcState (tec rxErr : Nat) : Nat := if 255 < tec then 2 else if 127 < tec || 127 < rxErr then 1 else 0
/-- Store a received frame in at most one place (16 R354). -/
def CanCh.store (c : CanCfg) (f : CanFrame) (h : CanCh) : CanCh :=
  let (element, target) := c.decide_ f
  let r : CanRec := { f := f, element := element, overrun := false }
  if f.remote || target = 0 then { h with rejected := inc32 h.rejected }
  else if target = 1 then
    let (q, l, n) := fifoStore (bit (c.word 2) 17) h.lost0 h.fifo0 r
    { h with fifo0 := q, lost0 := l, fifoLost := add32 h.fifoLost n }
  else if target = 2 then
    let (q, l, n) := fifoStore (bit (c.word 2) 18) h.lost1 h.fifo1 r
    { h with fifo1 := q, lost1 := l, fifoLost := add32 h.fifoLost n }
  else
    let b := target - 0x40
    let again := h.rxBufs.any fun e => e.1 == b && e.2.2
    { h with rxBufs := (b, { r with overrun := again }, true) :: h.rxBufs.filter fun e => e.1 != b }
/-- The reference mark of a stamp: its basic cycle and the stamp in TB2 ns (16 R365, R136). -/
def State.refMark (s : State) (n sofNs : Nat) : Nat × Nat :=
  (sofNs / (s.conf.canCfg n).basicNs, ((sofNs : Int) + s.conf.time.tb2Offset * 1000000000).toNat)
/-- A reference message by its identifier (16 R365). -/
def CanCfg.isRef (c : CanCfg) (f : CanFrame) : Bool :=
  c.tmEnable && !f.fdf && !f.remote && f.id == c.tmId && f.xtd == c.tmXtd
/-- A reference message that the module hears: the owner counts it as foreign, the twin keeps its mark (16 R366). -/
def State.hearRef (n : Nat) (f : CanFrame) (s : State) : State :=
  if !(s.conf.canCfg n).isRef f then s
  else if s.pair.owner then
    let due := match (s.canCh n).foreignAt with | some a => decide (a + secTicks 60 ≤ s.time.now) | none => true
    let s := s.setCan n fun h => { h with foreignRef := inc32 h.foreignRef, foreignAt := if due then some s.time.now else h.foreignAt }
    if due then s.record 0x0D03 [(1, n), (4, f.id)] else s
  else s.setCan n fun h => { h with mark := some (s.refMark n f.sofNs) }
/-- A frame that is valid at the end of its end-of-frame field (16 R352, R354). -/
def State.receiveCan (n : Nat) (f : CanFrame) (s : State) : State :=
  let c := s.canInUse n
  (s.setCan n fun h =>
    let e := recAfter s.free h.rxErr
    { (h.store c f) with rxFrames := inc32 h.rxFrames, rxErr := e, fc := fcState h.tec e }).useFree.hearRef n f
/-- A channel that listens: configured in use, its die running, and not bus-off (16 R354, R362). -/
def State.canListens (s : State) (n : Nat) : Bool := s.awake && (s.conf.canCfg n).enabled && (s.canCh n).fc != 2 && decide (n < 2)

/-- The BLOCK in points of a class on CAN receive buffers: handle, rule, channel and buffer. -/
def Cfg.canInputs (c : Cfg) (x : Nat) : List (Nat × Word64 × Nat × Nat) :=
  (c.points.filter fun p => ruleKind p.rule == 9 && ruleStation p.rule == 0 && !ruleIsOut p.rule && ruleClass p.rule == x &&
      decide (0x200 ≤ ruleOffset p.rule) && decide (ruleOffset p.rule < 0x400)).map fun p =>
    (p.handle, p.rule, ruleOffset p.rule / 0x100 - 2, ruleOffset p.rule % 0x100)
/-- The record that a receive buffer latches at a t0: a frame received since the previous latch (16 R356). -/
def CanCh.fresh (h : CanCh) (b : Nat) : Option CanRec :=
  match h.rxBufs.find? fun e => e.1 == b with | some e => if e.2.2 then some e.2.1 else none | none => none
def CanCh.latch (b : Nat) (h : CanCh) : CanCh :=
  { h with rxBufs := h.rxBufs.map fun e => if e.1 == b then (e.1, e.2.1, false) else e }
/-- At t0 of class A the controller frees what the consumed stamps name (16 R357). -/
def CanCh.freeConsumed (h : CanCh) : CanCh :=
  { h with fifo0 := h.fifo0.filter fun r => decide (h.consumed0 < r.f.sofNs),
           fifo1 := h.fifo1.filter fun r => decide (h.consumed1 < r.f.sofNs) }

/-! ## Transmit (16 R358–R362) -/

/-- Arbitration order: the lower identifier, a standard one before an extended one with the same leading bits, then the
buffer number (16 R359). -/
def arbKey (f : CanFrame) (b : Nat) : Nat :=
  (if f.xtd then (f.id / 2 ^ 18) * 2 ^ 19 + 2 ^ 18 + f.id % 2 ^ 18 else f.id * 2 ^ 19) * 32 + b
/-- The pending buffer that goes first. -/
def CanCh.nextBuf (h : CanCh) : Option Nat :=
  ((List.range h.tx.length).filter fun i => (h.tx.getD i TxBuf.reset).status == 1).foldl (fun best i =>
    let key (i : Nat) := match (h.tx.getD i TxBuf.reset).content with | some f => arbKey f i | none => 2 ^ 40
    match best with | some j => if key i < key j then some i else some j | none => some i) none
/-- The controller commits the first pending buffer when none is selected and the channel may send (16 R359, log 21). -/
def CanCh.select (h : CanCh) : CanCh :=
  if h.monitoring || h.integrating || h.fc == 2 || h.tx.any (fun b => b.status == 2) then h
  else match h.nextBuf with | some i => { h with tx := setAt h.tx i fun b => { b with status := 2 } } | none => h
/-- A request on a buffer (16 R359, R362). -/
def CanCh.request (b : Nat) (new : TxBuf) (h : CanCh) : CanCh :=
  let old := h.tx.getD b TxBuf.reset
  if h.fc = 2 then { h with tx := setAt h.tx b fun _ => { new with status := 7 } }
  else if old.status = 2 then
    { h with txOverruns := inc32 h.txOverruns,
             tx := setAt h.tx b fun o => { o with after := new.content, lastSeq := new.lastSeq } }
  else ({ h with txOverruns := if old.status = 1 then inc32 h.txOverruns else h.txOverruns,
                 tx := setAt h.tx b fun _ => { new with status := 1 } }).select
/-- Entry to bus-off: every PENDING or ACTIVE buffer ends with ERROR (16 R362). -/
def CanCh.busOff (auto : Bool) (h : CanCh) : CanCh :=
  { h with fc := 2, busOffs := inc32 h.busOffs, recovering := auto,
           tx := h.tx.map fun b => if b.status = 1 || b.status = 2 then { b with status := 7, after := none } else b }
/-- The fault confinement state follows the counters; entry to bus-off is recorded (16 R362). -/
def State.confine (n : Nat) (s : State) : State :=
  let h := s.canCh n
  let fc := fcState h.tec h.rxErr
  if fc = 2 && h.fc != 2 then (s.setCan n (CanCh.busOff (bit ((s.conf.canCfg n).word 2) 15))).record 0x0D01 [(1, n)]
  else if h.fc = 2 then s else s.setCan n fun h => { h with fc := fc }
/-- The BLOCK out point of a transmit buffer. -/
def Cfg.canOutput (c : Cfg) (n b : Nat) : Option PointRec := c.localPoint (0x240 + 0x100 * n + b) true
/-- The point of a buffer moves by the output rows (16 R358). -/
def State.canFail (n b : Nat) (s : State) : State :=
  match s.conf.canOutput n b with | some p => s.failOutput p.handle p.rule | none => s

/-- A transmission request of a point's buffer at an apply instant (16 R358). -/
def State.requestCan (n b : Nat) (s : State) : State :=
  match s.conf.canOutput n b with
  | none => s
  | some p =>
    let c := s.conf.canCfg n
    let old := (s.canCh n).tx.getD b TxBuf.reset
    let v := s.carriedValue p.handle
    let slot := memReadBytes s.mem (poolBase + v.toNat) (8 + s.conf.capacity p.handle)
    let seq := field slot 4 4
    let f := canFrameOf (slot.drop 8)
    let bad := decide (s.conf.capacity p.handle < 16 + dlcBytes f.fdf f.dlc) || (f.fdf && !bit (c.word 1) 0) || (f.brs && !bit (c.word 1) 1)
    let s := if old.status = 1 || old.status = 2 then s.canFail n b else s
    if c.txUse b = 2 && old.lastSeq == some seq then s
    else if bad then s.overrangeOutput p.handle
    else
      let s := s.setCan n (CanCh.request b { TxBuf.reset with content := some f, lastSeq := some seq, value := v })
      if (s.canCh n).fc = 2 then s.failOutput p.handle p.rule else s

/-- The end of a transmission: what the counters and the buffer become (16 R351, R360–R362). -/
def CanCh.finish (free : Nat) (oneShot : Bool) (b : Nat) (o : CanTxOutcome) (h : CanCh) : CanCh :=
  let buf := h.tx.getD b TxBuf.reset
  let retry (code : Nat) (h : CanCh) : CanCh :=
    { h with tx := setAt h.tx b fun x =>
        if oneShot || x.after.isSome then
          (match x.after with
           | some f => { x with status := 1, content := some f, after := none, cancelled := false }
           | none => { x with status := code })
        else if x.cancelled then { x with status := code } else { x with status := 1 } }
  let err (code : Nat) (dp : Bool) (add : Nat) (h : CanCh) : CanCh :=
    { h with errors := inc32 h.errors, lastError := code, dataPhase := dp, tec := min 256 (h.tec + add) }
  match o with
  | .success _ loop =>
    { h with tec := h.tec - 1, txFrames := inc32 h.txFrames, ackRun := 0, alone := false,
             tdcMeasured := loop.getD h.tdcMeasured, refSent := if buf.isRef then inc32 h.refSent else h.refSent,
             tx := setAt h.tx b fun x => match x.after with
               | some f => { x with status := 1, content := some f, after := none, cancelled := false }
               | none => { x with status := if x.cancelled then 4 else 3 } }
  | .lostArbitration => retry 6 h
  | .ackError => retry 7 (err 3 false (if h.fc = 1 then 0 else 8)
      { h with ackRun := min 255 (h.ackRun + 1), alone := h.alone || decide (15 ≤ h.ackRun) })
  | .error code dp => retry 7 (err code dp 8 h)
  | .tdcFault m => retry 7 (err (4 + (Config.freeWord free).toNat % 2) true 8
      { h with tdcMeasured := m, tdcFaults := inc32 h.tdcFaults })
/-- What the end of a transmission brings its point: a success proves the channel (07 R174) and acknowledges the point's value; an end
without one moves the point by the output rows (16 R358). -/
def State.followTx (n b : Nat) (o : CanTxOutcome) (buf : TxBuf) (s : State) : State :=
  match o with
  | .success sof _ =>
    let s := s.upCnt fun p => { p with unproven := setAt p.unproven (24 + n) fun _ => 0 }
    if buf.isRef then s.setCan n fun h => { h with mark := some (s.refMark n sof) }
    else if buf.cancelled then s
    else (match s.conf.canOutput n b with | some p => s.ackOutput p.handle buf.value | none => s)
  | _ => if ((s.canCh n).tx.getD b TxBuf.reset).status == 1 || buf.isRef then s else s.canFail n b
/-- CAN_TX_END for the selected buffer (16 R351, R358, R360–R362). -/
def State.endCan (n b : Nat) (o : CanTxOutcome) (s : State) : State :=
  let buf := (s.canCh n).tx.getD b TxBuf.reset
  let wasAlone := (s.canCh n).alone
  let s := ((s.setCan n (CanCh.finish s.free ((s.conf.canCfg n).oneShot b) b o)).useFree).followTx n b o buf
  let s := if (s.canCh n).alone && !wasAlone then s.record 0x0D02 [(1, n)] else s
  (s.confine n).setCan n CanCh.select

/-! ## Reference messages (16 R365, R366) -/

/-- The owner is the time master: TM_ENABLE, in normal operation. -/
def State.tmActive (s : State) (n : Nat) : Bool :=
  s.pair.owner && (s.conf.canCfg n).enabled && (s.conf.canCfg n).tmEnable && !(s.canCh n).monitoring
/-- The data of a reference message (16 Table 16.5). -/
def refData (level2 : Bool) (cycle : Nat) (mark : Option (Nat × Nat)) : List Byte :=
  if !level2 then leBytes 1 (cycle % 64)
  else leBytes 1 (cycle % 64) ++ (match mark with
    | some (k, ns) => if k + 1 = cycle then leBytes 3 (ns / 1000000000) ++ leBytes 4 (ns % 1000000000) else List.replicate 7 0xFF#8
    | none => List.replicate 7 0xFF#8)
def State.requestRef (n : Nat) (s : State) : State :=
  let c := s.conf.canCfg n
  let level2 := bit (c.word 2) 13
  let data := refData level2 (s.tb0 / c.basicNs) (s.canCh n).mark
  let f : CanFrame := { sofNs := 0, fdf := false, brs := false, xtd := c.tmXtd, remote := false, id := c.tmId, dlc := data.length, esi := false, data := data }
  s.setCan n (CanCh.request c.tmBuffer { TxBuf.reset with content := some f, isRef := true, refAt := s.tb0 })
/-- A pending reference message past half a basic cycle is withdrawn (16 R366). -/
def State.refIsLate (s : State) (n : Nat) : Bool :=
  let c := s.conf.canCfg n
  let b := (s.canCh n).tx.getD c.tmBuffer TxBuf.reset
  b.isRef && b.status == 1 && decide (b.refAt + c.basicNs / 2 ≤ s.tb0)

/-- Start bus-off recovery: only while the channel is bus-off on the owner (16 R362). -/
def State.recoverCan (n : Nat) (s : State) : State × Nat :=
  if s.pair.owner && (s.canCh n).fc == 2 then (s.setCan n fun h => { h with recovering := true }, stOk) else (s, stState)
/-- A runtime call's return. -/
def State.ret (status : Nat) (vs : List Nat) (s : State) : State := s.emit (.call status vs)
/-- can_cancel (16 R361). -/
def State.cancelCan (n b : Nat) (s : State) : State :=
  let c := s.conf.canCfg n
  let st := ((s.canCh n).tx.getD b TxBuf.reset).status
  if 2 ≤ n || 32 ≤ b || c.txUse b == 3 || (c.tmEnable && c.tmBuffer == b) then s.ret stRange []
  else if st = 1 then (s.setCan n fun h => { h with tx := setAt h.tx b fun x => { x with status := 5 } }).ret stOk []
  else if st = 2 then
    (s.setCan n fun h => { h with cancelLate := inc32 h.cancelLate, tx := setAt h.tx b fun x => { x with cancelled := true } }).ret stTooLate []
  else s.ret stOk []
/-- can_fifo_read (16 R357). -/
def State.readFifo (n fifo after max : Nat) (s : State) : State :=
  if 2 ≤ n || 2 ≤ fifo || max = 0 || 64 < max then s.ret stRange []
  else
    let q := if fifo = 0 then (s.canCh n).fifo0 else (s.canCh n).fifo1
    s.ret stOk ((((q.filter fun r => decide (after < r.f.sofNs)).take max).flatMap CanRec.full).map BitVec.toNat)
/-- can_fifo_consume (16 R357). -/
def State.consumeFifo (n fifo stamp : Nat) (s : State) : State :=
  if 2 ≤ n || 2 ≤ fifo then s.ret stRange []
  else (s.setCan n fun h => if fifo = 0 then { h with consumed0 := stamp } else { h with consumed1 := stamp }).ret stOk []

def execCanFrameReceived (t ch : Nat) (f : CanFrame) (s : State) : Host.Outcome State Fault Refusal :=
  happens t s (fun s => s.canListens ch) (State.receiveCan ch f)
def execCanTxRequest (t ch buf : Nat) (s : State) : Host.Outcome State Fault Refusal :=
  happens t s (fun s => s.pair.owner && (s.conf.canCfg ch).enabled && !(s.canCh ch).monitoring && !s.boot.retiring &&
    ((s.conf.canCfg ch).txUse buf == 1 || (s.conf.canCfg ch).txUse buf == 2)) (State.requestCan ch buf)
def execCanTxEnd (t ch buf : Nat) (o : CanTxOutcome) (s : State) : Host.Outcome State Fault Refusal :=
  happens t s (fun s => s.awake && ((s.canCh ch).tx.getD buf TxBuf.reset).status == 2) (State.endCan ch buf o)
/-- BUS_OFF_RECOVERY_COMPLETE (16 R362). -/
def execBusOffRecoveryComplete (t ch : Nat) (s : State) : Host.Outcome State Fault Refusal :=
  happens t s (fun s => (s.canCh ch).fc == 2 && (s.canCh ch).recovering) fun s =>
    s.setCan ch fun h => { h with tec := 0, rxErr := 0, fc := 0, recovering := false }
def execCanFifoRead (t ch fifo after max : Nat) (s : State) : Host.Outcome State Fault Refusal :=
  happens t s State.awake (State.readFifo ch fifo after max)
def execCanFifoConsume (t ch fifo stamp : Nat) (s : State) : Host.Outcome State Fault Refusal :=
  happens t s State.awake (State.consumeFifo ch fifo stamp)
def execCanCancel (t ch buf : Nat) (s : State) : Host.Outcome State Fault Refusal := happens t s State.awake (State.cancelCan ch buf)
/-- can_recover (16 R362). -/
def execCanRecover (t ch : Nat) (s : State) : Host.Outcome State Fault Refusal :=
  happens t s State.awake fun s =>
    if 2 ≤ ch then s.ret stRange [] else (s.recoverCan ch).1.ret (s.recoverCan ch).2 []
/-- REFERENCE_MESSAGE (16 R365): only while TB0 is valid and after the bus integration. -/
def execReferenceMessage (t ch : Nat) (s : State) : Host.Outcome State Fault Refusal :=
  happens t s (fun s => s.tmActive ch && s.tb0Valid && !(s.canCh ch).integrating && !s.boot.retiring) (State.requestRef ch)
/-- REF_LATE (16 R366). -/
def execRefLate (t ch : Nat) (s : State) : Host.Outcome State Fault Refusal :=
  happens t s (fun s => s.refIsLate ch) fun s =>
    s.setCan ch fun h => { h with refLate := inc32 h.refLate,
                                  tx := setAt h.tx (s.conf.canCfg ch).tmBuffer fun x => { x with status := 5 } }
/-- BUS_INTEGRATION (16 R364). -/
def execBusIntegration (t ch : Nat) (s : State) : Host.Outcome State Fault Refusal :=
  happens t s (fun s => s.awake && (s.canCh ch).integrating) fun s => s.setCan ch fun h => ({ h with integrating := false }).select
/-- CAN_SETTINGS_APPLY (16 R367). -/
def execCanSettingsApply (t ch : Nat) (s : State) : Host.Outcome State Fault Refusal :=
  happens t s (fun s => (s.canCh ch).newFilters) fun s => s.setCan ch fun h => { h with newFilters := false }
/-- CAN_BUS_ERROR (16 R362): REC rises by what ISO 11898-1 gives for the error. -/
def execCanBusError (t ch code : Nat) (dataPhase : Bool) (recRise : Nat) (s : State) : Host.Outcome State Fault Refusal :=
  happens t s (fun s => s.canListens ch) fun s =>
    (s.setCan ch fun h => { h with errors := inc32 h.errors, lastError := code % 8, dataPhase := dataPhase,
                                   rxErr := min 255 (h.rxErr + recRise) }).confine ch

end Sys2Proof.Machine
end

