-- ==== Sys2Proof/Machine/Digital.lean ====
section
/-! DEFINITION. The digital channels (14), and the events that both front ends share. -/

namespace Sys2Proof.Machine

def State.dioCh (s : State) (n : Nat) : DioCh := s.dio.ch.getD n DioCh.reset
def State.setDio (n : Nat) (f : DioCh → DioCh) (s : State) : State := s.upDio fun d => { d with ch := setAt d.ch n f }
def State.uaCh (s : State) (n : Nat) : UaCh := s.ua.ch.getD n UaCh.reset
def State.setUa (n : Nat) (f : UaCh → UaCh) (s : State) : State := s.upUa fun u => { u with ch := setAt u.ch n f }
/-- Modes 2 and 3 are outputs (14 Table 14.1); modes 7 and 8 (15 Table 15.1). -/
def State.dioIsOut (s : State) (n : Nat) : Bool := s.dioMode n == 2 || s.dioMode n == 3
def State.uaIsOut (s : State) (n : Nat) : Bool := s.uaMode n == 7 || s.uaMode n == 8
/-- Item status of a digital input: a broken wire (14 R320). -/
def State.dioInStatus (s : State) (n : Nat) : Nat := if (s.dioCh n).wireBreak then 0x81 else 0
/-- Item status of a digital output: the field supply lost, then overload (14 R321, R326). -/
def State.dioOutStatus (s : State) (n : Nat) : Nat := if s.dio.fldLost then 0x82 else if (s.dioCh n).overload then 0x87 else 0
/-- Item status of an analogue channel: the twin's settings differ (02 R38 item 3), then the first row of Table 15.3. -/
def State.uaStatus (s : State) (n : Nat) : Nat :=
  let c := s.uaCh n
  if c.differs then 0x86 else if c.miswire then 0x85 else if c.wireBreak then 0x81 else if c.compliance then 0x82
  else if c.alarmLow then 0x83 else if c.alarmHigh then 0x84 else if c.overrange then 0x87 else 0
/-- A UA channel delivers no completion: its front end unpowered, or within the 10 ms of R335 or R336 (15 R341). -/
def State.uaMute (s : State) (n : Nat) : Bool := s.ua.afsLost || decide (s.time.now < (s.uaCh n).quietUntil)

/-- At t_w the values of a class's local outputs go into the sequencer's next update (14 R322, 15 R337). -/
def State.loadOutput (apply : Nat) (p : PointRec) (s : State) : State :=
  let v := s.carriedValue p.handle
  let off := ruleOffset p.rule
  match s.conf.outRaw p.rule v with
  | none => s.overrangeOutput p.handle
  | some w =>
    (if off < 16 then s.setDio off fun c => { c with next := some (bit w.toNat 0, v) }
     else s.setUa (off - 0x100) fun c => { c with next := some (w, v) }).emit (.frontEnd off w apply)
/-- The DIO and UA output points of a class. -/
def Cfg.localOutputs (c : Cfg) (x : Nat) : List PointRec :=
  c.pointsWhere fun p => ruleKind p.rule != 0 && ruleKind p.rule != 10 && ruleStation p.rule == 0 && ruleIsOut p.rule &&
    ruleClass p.rule == x && decide (ruleOffset p.rule < 0x108) && ruleKind p.rule != 9
/-- A sequencer update at a front end: a valid one ends a silence, and the front end holds the values it carries; an
invalid one is counted (14 R322, R325, R329). -/
def State.sequencerUpdate (fe : Nat) (valid : Bool) (s : State) : State :=
  if fe = 0 then
    if valid then s.upDio fun d =>
      { d with silent := false, linkUp := true, ch := d.ch.map fun c => if c.next.isSome then { c with loaded := c.next, next := none } else c }
    else s.upDio fun d => { d with linkErrors := inc32 d.linkErrors }
  else
    if valid then s.upUa fun u =>
      { u with silent := false, linkUp := true, ch := u.ch.map fun c => if c.next.isSome then { c with loaded := c.next, next := none } else c }
    else s.upUa fun u => { u with linkErrors := inc32 u.linkErrors }
/-- No valid update for SILENCE_MS: the safe states are applied, flagged and counted (14 R325, 15 R340). -/
def State.silenceTrip (fe : Nat) (s : State) : State :=
  if fe = 0 then
    if s.dio.silent then s
    else (s.upDio fun d => { d with silent := true, linkUp := false, silences := inc32 d.silences }).dioToSafe
  else
    if s.ua.silent then s
    else (s.upUa fun u => { u with silent := true, linkUp := false, silences := inc32 u.silences }).uaToSafe

/-- A report of an output channel: without fault the good completion of the value applied, else a bad completion with its
item status (14 R322, 15 R337). -/
def State.reportOutput (off : Nat) (status : Nat) (carried : Word) (s : State) : State :=
  match s.conf.localPoint off true with
  | none => s
  | some p =>
    if status = 0 then s.ackOutput p.handle carried
    else s.upImg p.handle fun g => ({ g with age := ageUp g.age, held := true }).withQuality (statusQuality status)
/-- Proof of a digital output by its report (07 R174): matching readback in mode 3, 1 s enabled without fault in mode 2. -/
def State.proveDio (n : Nat) (status : Nat) (measured : Raw) (s : State) : State :=
  let c := s.dioCh n
  let zero (s : State) : State := s.upCnt fun k => { k with unproven := setAt k.unproven n fun _ => 0 }
  if !s.pair.owner || !s.driving || status != 0 || !s.dioIsOut n then s.setDio n fun c => { c with provedFrom := none }
  else if s.dioMode n = 3 then (if !c.mismatch && bit measured.toNat 0 == c.commanded then zero s else s)
  else match c.provedFrom with
    | none => s.setDio n fun c => { c with provedFrom := some s.time.now }
    | some a => if a + secTicks 1 ≤ s.time.now then zero s else s
/-- |x| ≤ a bound, both in the raw format's own unit times 10^-6 (15 Table 15.2). -/
def uaWithin (word : Nat) (x y : Raw) (bound : Nat) : Bool :=
  if bit word 9 then decide ((signed 32 x.toNat - signed 32 y.toNat).natAbs ≤ bound)
  else !f64Lt (f64OfRat false bound 1000000) (f64Abs (f64Sub (f64OfF32 x) (f64OfF32 y)))
/-- Proof of an analogue output by its measured value within the channel's accuracy over temperature (07 R174, log 23). -/
def State.proveUa (n : Nat) (status : Nat) (measured : Raw) (s : State) : State :=
  let w := s.uaWord n
  if s.pair.owner && s.driving && status == 0 && s.uaIsOut n &&
      uaWithin w measured (s.uaCh n).commanded (if s.uaMode n = 7 then 15000 else 30000) then
    s.upCnt fun k => { k with unproven := setAt k.unproven (16 + n) fun _ => 0 }
  else s
/-- The apply instant of a digital output (14 R322): a safe state stays while a case of R325 holds. -/
def State.applyDio (n status : Nat) (measured : Raw) (s : State) : State :=
  match (s.dioCh n).loaded with
  | none => s
  | some (b, v) =>
    let safe := s.dioSafeActive
    let st := if s.dioOutStatus n != 0 then s.dioOutStatus n else status
    let s := s.setDio n fun c => { (if safe then c else { c with commanded := b, lastApplied := b }) with loaded := none }
    (s.reportOutput n st v).proveDio n st measured
/-- The apply instant of an analogue output (15 R337). -/
def State.applyUa (n status : Nat) (measured : Raw) (s : State) : State :=
  match (s.uaCh n).loaded with
  | none => s
  | some (w, v) =>
    if s.uaMute n then s
    else
      let safe := s.uaSafeActive
      let st := if s.uaStatus n != 0 then s.uaStatus n else status
      let s := s.setUa n fun c =>
        { (if safe || c.overrange then c else { c with commanded := w, lastApplied := some w }) with
          loaded := none, conv := some measured,
          reading := if bit (s.uaWord n) 9 then f32OfRat (decide (signed 32 measured.toNat < 0)) (signed 32 measured.toNat).natAbs 1000000 else measured }
      (s.reportOutput (0x100 + n) st v).proveUa n st measured

/-- One more output switched off by the aggregate limiter: the highest ON channel (14 R321). -/
def State.aggregate (ma : Nat) (s : State) : State :=
  let s := s.upDio fun d => { d with outMa := ma, aggLimit := decide (5500 < ma) }
  if ma ≤ 5500 then s
  else match (List.range 16).reverse.find? fun n => s.dioIsOut n && (s.dioCh n).commanded && !(s.dioCh n).overload with
    | some n => ((s.setDio n fun c => { c with overload := true, provedFrom := none }).upDio fun d =>
        { d with overloads := inc32 d.overloads }).record 0x0B03 [(1, n)]
    | none => s
/-- Overload shutdown of one output (14 R321). -/
def State.overload (n : Nat) (cleared : Bool) (s : State) : State :=
  if cleared then s.setDio n fun c => { c with overload := false }
  else if (s.dioCh n).overload then s
  else ((s.setDio n fun c => { c with overload := true, provedFrom := none }).upDio fun d =>
    { d with overloads := inc32 d.overloads }).record 0x0B03 [(1, n)]
/-- MISMATCH set or cleared (14 R324). -/
def State.setMismatch (n : Nat) (differ : Bool) (s : State) : State :=
  if !differ then s.setDio n fun c => { c with mismatch := false }
  else if (s.dioCh n).mismatch then s
  else ((s.setDio n fun c => { c with mismatch := true, mismatches := min 0xFFFF (c.mismatches + 1) }).upDio fun d =>
    { d with mismatchEvents := inc32 d.mismatchEvents }).recordAtMost (0x0B0100 + n) 10 0x0B01 [(1, n)]
/-- FLD24 lost or back (14 R326). -/
def State.setFld (lost : Bool) (mv : Nat) (s : State) : State :=
  let was := s.dio.fldLost
  let s := s.upDio fun d => { d with fldMv := mv, fldLost := lost, fldLosses := if lost && !was then inc32 d.fldLosses else d.fldLosses,
                                     ch := if lost then d.ch.map fun c => { c with provedFrom := none } else d.ch }
  if lost && !was then s.record 0x0B02 [(2, mv)] else s
/-- A broken wire found or gone (14 R320). -/
def State.setWireBreak (n : Nat) (broken : Bool) (s : State) : State :=
  let was := (s.dioCh n).wireBreak
  (s.setDio n fun c => { c with wireBreak := broken }).upDio fun d =>
    { d with wireBreaks := if broken && !was then inc32 d.wireBreaks else d.wireBreaks }

/-- SEQUENCER_UPDATE (14 R322): the sequencer runs in every mode in which the die does. -/
def execSequencerUpdate (t fe : Nat) (valid : Bool) (s : State) : Host.Outcome State Fault Refusal :=
  happens t s (fun s => s.awake && decide (fe < 2)) (State.sequencerUpdate fe valid)
/-- OUTPUT_APPLY (14 R322, 15 R337). -/
def execOutputApply (t offset status : Nat) (measured : Raw) (s : State) : Host.Outcome State Fault Refusal :=
  happens t s State.awake fun s =>
    if offset < 16 then s.applyDio offset status measured
    else if 0x100 ≤ offset && offset < 0x108 then s.applyUa (offset - 0x100) status measured else s
def execSilenceTimeout (t fe : Nat) (s : State) : Host.Outcome State Fault Refusal :=
  happens t s (fun s => s.awake && decide (fe < 2)) (State.silenceTrip fe)
/-- WIRE_BREAK_DETECT (14 R320): mode 1 with WIRE_BREAK_EN; suspended while FLD24 is lost (R326). -/
def execWireBreakDetect (t ch : Nat) (broken : Bool) (s : State) : Host.Outcome State Fault Refusal :=
  happens t s (fun s => s.awake && s.dioMode ch == 1 && bit (s.dioWord ch) 7 && !s.dio.fldLost && decide (ch < 16)) (State.setWireBreak ch broken)
def execOverload (t ch : Nat) (cleared : Bool) (s : State) : Host.Outcome State Fault Refusal :=
  happens t s (fun s => s.awake && s.dioIsOut ch && decide (ch < 16)) (State.overload ch cleared)
def execAggregateLimit (t ma : Nat) (s : State) : Host.Outcome State Fault Refusal := happens t s State.awake (State.aggregate ma)
/-- MISMATCH (14 R324): only while the stage is enabled and not in overload shutdown. -/
def execMismatch (t ch : Nat) (differ : Bool) (s : State) : Host.Outcome State Fault Refusal :=
  happens t s (fun s => s.awake && s.dioMode ch == 3 && s.stageOn && !(s.dioCh ch).overload && decide (ch < 16)) (State.setMismatch ch differ)
def execFldLost (t : Nat) (lost : Bool) (mv : Nat) (s : State) : Host.Outcome State Fault Refusal :=
  happens t s State.awake (State.setFld lost mv)

end Sys2Proof.Machine
end

