-- ==== Sys2Proof/Machine/Analog.lean ====
section
/-! DEFINITION. The universal analogue channels and HART (15). -/

namespace Sys2Proof.Machine

/-- HART_MODE and HART_DEVICES (15 Table 15.5). -/
def State.hartMode (s : State) (n : Nat) : Nat := bits (s.uaWord n) 14 2
def State.hartDevices (s : State) (n : Nat) : Nat := bits (s.uaWord n) 10 4
def State.multiDrop (s : State) (n : Nat) : Bool := s.uaMode n == 2 && s.hartMode n == 2

/-! ## Readings (15 R331–R336, R342, R343) -/

/-- A binary64 in V, mA or °C rounded once to the raw format of a channel: µV, nA or m°C under RAW_INT (15 R331, R343). -/
def rawOfUnits (word : Nat) (y : Word64) : Option Raw :=
  if bit word 9 then
    f64ToKind 4 (f64Mul y (f64OfInt (if 4 ≤ bits word 28 4 && bits word 28 4 ≤ 6 then 1000 else 1000000)))
  else f64ToKind 6 y
/-- A raw item in V, mA or °C. -/
def unitsOfRaw (word : Nat) (x : Raw) : Word64 :=
  if bit word 9 then f64Div (f64OfInt (signed 32 x.toNat)) (f64OfInt (if 4 ≤ bits word 28 4 && bits word 28 4 ≤ 6 then 1000 else 1000000))
  else f64OfF32 x
/-- Loop current in mA: V × (1/R_own + 1/R_twin), with an absent twin's resistor infinite and an unreported one 500 Ω or
125 Ω (15 R335; the order of the binary64 operations: log 24). -/
def State.loopCurrent (s : State) (n : Nat) (volts : Word) : Word64 :=
  let multi := s.multiDrop n
  let inv (mOhm : Nat) : Word64 := f64Div (f64OfInt 1000000) (f64OfInt mOhm)
  let c := s.uaCh n
  let own := inv (Config.senseMilliohm n multi)
  let sum :=
    if !s.pair.peerPresent then own
    else if s.ua.senseUnknown then f64Add own (inv (if multi then 125000 else 500000))
    else if c.twinIn then f64Add own (inv c.twinMilliohm) else own
  f64Mul (f64OfF32 volts) sum
/-- The measuring range of a thermocouple type in °C (15 Table 15.2). -/
def tcRange (code : Nat) : Int × Int :=
  match code with
  | 0 => (-210, 1200) | 1 => (-270, 1372) | 2 => (-270, 1300) | 3 => (-270, 400) | 4 => (-270, 1000) | 5 => (-50, 1768) | _ => (250, 1820)
/-- Beyond the overrange limit of Table 15.2, in V, mA or °C. -/
def State.beyond (s : State) (n : Nat) (y : Word64) : Bool :=
  let gt (a : Word64) (i : Int) := f64Lt (f64OfInt i) a
  let out (lo hi : Int) := f64Lt y (f64OfInt lo) || gt y hi
  match s.uaMode n with
  | 1 => gt (f64Abs y) 11
  | 2 => if s.hartMode n = 2 then gt y 66 else gt y 25
  | 3 => gt y 25
  | 6 => let r := tcRange (bits (s.uaWord n) 24 4); out r.1 r.2
  | 4 => out (-200) 850
  | 5 => out (-200) 850
  | _ => false
/-- A new reading of a channel: the overrange and NE 43 rows of Table 15.3 follow the value; each alarm set is counted. -/
def State.newReading (n : Nat) (y : Word64) (s : State) : State :=
  let w := s.uaWord n
  let ne := bit w 17 && (s.uaMode n == 2 || s.uaMode n == 3)
  let le (a b : Word64) := !f64Lt b a
  let mA (k : Nat) := f64OfRat false k 10
  let low := ne && le y (mA 36)
  let high := ne && le (mA 210) y
  let band := ne && !low && !high && (f64Lt y (mA 38) || f64Lt (mA 205) y)
  let was := (s.uaCh n).alarmLow || (s.uaCh n).alarmHigh
  let s := s.setUa n fun c =>
    { c with conv := rawOfUnits w y, reading := f32OfF64 y, alarmLow := low, alarmHigh := high, ne43Range := band,
             overrange := s.beyond n y }
  if (low || high) && !was then
    (s.upUa fun u => { u with ne43Events := inc32 u.ne43Events }).record 0x0C01 [(1, n), (1, if low then 0x83 else 0x84)]
  else s
/-- A conversion of modes 1, 2, 3, 7 and 8: the voltage across the own sense resistor as binary32 in modes 2 and 3
(15 R335), else the value in the raw format. -/
def State.convert (n : Nat) (value : Raw) (s : State) : State :=
  if s.uaMode n = 2 || s.uaMode n = 3 then s.newReading n (s.loopCurrent n value)
  else s.newReading n (unitsOfRaw (s.uaWord n) value)
/-- The readings of the module's own excitation window (15 R334, R342, R343). -/
def State.windowReading (r : Nat × Nat × Nat) (s : State) : State :=
  let n := r.1
  let w := s.uaWord n
  let code := bits w 24 4
  let comp := bits (s.uaWord1 n) 0 16
  match s.uaMode n with
  | 4 => s.newReading n (Config.rtdCelsius code (r.2.1 - comp))
  | 5 => s.newReading n (Config.rtdCelsius code (Config.rtd3Milliohm r.2.1 r.2.2))
  | 6 =>
    let cj := if bit w 16 then signed 16 comp else Config.coldJunction r.2.2
    (s.setUa n fun c => { c with cjCc := cj }).newReading n (Config.thermocoupleCelsius code r.2.1 cj)
  | _ => s
/-- Excitation may run: TB0 valid, or no twin inserted (15 R334). -/
def State.mayExcite (s : State) : Bool := s.awake && !s.ua.afsLost && (s.tb0Valid || !s.pair.peerPresent)
def State.excite (opens : Bool) (readings : List (Nat × Nat × Nat)) (s : State) : State :=
  if opens then s.upUa fun u => { u with excited := true }
  else if s.ua.excited then (readings.foldl (fun s r => s.windowReading r) s).upUa fun u => { u with excited := false }
  else s
/-- At t0 of a class, the most recent conversion of each input point's channel is latched (15 R333). -/
def State.latchUa (x : Nat) (s : State) : State :=
  (s.conf.points.filter fun p => ruleKind p.rule != 0 && ruleKind p.rule != 10 && ruleStation p.rule == 0 && !ruleIsOut p.rule &&
      ruleClass p.rule == x && decide (0x100 ≤ ruleOffset p.rule) && decide (ruleOffset p.rule < 0x108)).foldl
    (fun s p => s.setUa (ruleOffset p.rule - 0x100) fun c => { c with latched := c.conv }) s

/-! ## Faults and the twin (15 R335, R336, R339, R341) -/

/-- Set or clear a row of Table 15.3; each setting is counted and recorded. -/
def State.uaFault (n : Nat) (f : UaFault) (cleared : Bool) (s : State) : State :=
  let on := !cleared
  let c := s.uaCh n
  match f with
  | .miswire =>
    let s := s.setUa n fun c => { c with miswire := on }
    if on && !c.miswire then (s.upUa fun u => { u with miswires := inc32 u.miswires }).record 0x0C01 [(1, n), (1, 0x85)] else s
  | .wireBreak =>
    let s := s.setUa n fun c => { c with wireBreak := on }
    if on && !c.wireBreak then (s.upUa fun u => { u with wireBreaks := inc32 u.wireBreaks }).record 0x0C01 [(1, n), (1, 0x81)] else s
  | .compliance =>
    let s := s.setUa n fun c => { c with compliance := on }
    if on && !c.compliance then (s.upUa fun u => { u with complianceEvents := inc32 u.complianceEvents }).record 0x0C01 [(1, n), (1, 0x82)] else s
  | .alarmLow =>
    let s := s.setUa n fun c => { c with alarmLow := on }
    if on && !c.alarmLow then (s.upUa fun u => { u with ne43Events := inc32 u.ne43Events }).record 0x0C01 [(1, n), (1, 0x83)] else s
  | .alarmHigh =>
    let s := s.setUa n fun c => { c with alarmHigh := on }
    if on && !c.alarmHigh then (s.upUa fun u => { u with ne43Events := inc32 u.ne43Events }).record 0x0C01 [(1, n), (1, 0x84)] else s
  | .overrange =>
    let s := s.setUa n fun c => { c with overrange := on }
    if on && !c.overrange then s.record 0x0C01 [(1, n), (1, 0x87)] else s
  | .ne43Range => s.setUa n fun c => { c with ne43Range := on }
/-- Mode, sensor and HART settings of a channel word (15 R336). -/
def uaSettings (word : Nat) : Nat × Nat := (bits word 24 8, bits word 10 6)
/-- The twin's report: its resistor, and whether its settings differ (15 R335, R336). -/
def State.twinSense (n : Nat) (inCircuit : Bool) (milliohm : Nat) (settings : Word) (s : State) : State :=
  let c := s.uaCh n
  let changed := c.twinIn != inCircuit || c.twinMilliohm != milliohm
  let differs := uaSettings settings.toNat != uaSettings (s.uaWord n)
  let s := s.setUa n fun c => { c with twinIn := inCircuit, twinMilliohm := milliohm, twinAt := some s.time.now, differs := differs,
                                       quietUntil := if changed then s.time.now + 2500000 else c.quietUntil }
  s.upUa fun u => { u with senseUnknown := false, twinDiffers := u.ch.any UaCh.differs }
/-- 300 ms without a report of a present twin (15 R335). -/
def State.senseSilent (s : State) : Bool :=
  s.awake && s.pair.peerPresent && s.ua.ch.all fun c => match c.twinAt with | some a => decide (a + 75000000 ≤ s.time.now) | none => true
/-- AFS24 lost or back: the front end stops, and a HOLD after the restart is OFF (15 R341). -/
def State.setAfs (lost : Bool) (mv : Nat) (s : State) : State :=
  let was := s.ua.afsLost
  let stop (n : Nat) (c : UaCh) : UaCh :=
    { c with lastApplied := none, conv := none, latched := none, loaded := none, commanded := uaRaw (s.uaWord n) 0 }
  let s := s.upUa fun u =>
    { u with afsMv := mv, afsLost := lost, afsLosses := (if lost && !was then inc32 u.afsLosses else u.afsLosses),
             linkUp := u.linkUp && !lost, excited := u.excited && !lost, ch := if lost then mapFrom stop 0 u.ch else u.ch }
  if lost && !was then s.record 0x0C02 [(2, mv)] else s

/-! ## HART (15 R344–R346) -/

def State.modem (s : State) (m : Nat) : Modem := s.ua.modems.getD m Modem.reset
def State.setModem (m : Nat) (f : Modem → Modem) (s : State) : State := s.upUa fun u => { u with modems := setAt u.modems m f }
/-- The modem serves the front of its queue; only the owner's transmits (15 R345). -/
def State.serveHart (m : Nat) (s : State) : State :=
  match (s.modem m).queue.head? with
  | some q =>
    let s := s.setModem m fun d => { d with attached := some q.ch }
    if s.driving then s.emit (.hart m q.ch q.addr q.cmd q.data) else s
  | none => s
/-- Put a request at the end of a modem's queue; an idle modem serves it at once. -/
def State.queueHart (q : HartReq) (s : State) : State :=
  let m := q.ch / 4
  let idle := (s.modem m).queue.isEmpty
  let s := s.setModem m fun d => { d with queue := d.queue ++ [q] }
  if idle then s.serveHart m else s
/-- The devices declared on the channels of a modem: channel and polling address (15 R344). -/
def State.declaredDevices (s : State) (m : Nat) : List (Nat × Nat) :=
  ([0, 1, 2, 3].map (4 * m + ·)).flatMap fun n =>
    if s.hartMode n = 1 then [(n, 0)] else if s.hartMode n = 2 then (List.range (s.hartDevices n)).map fun a => (n, a + 1) else []
/-- The front end's own command to every declared device of a modem. -/
def State.pollHart (cmd m : Nat) (s : State) : State :=
  (s.declaredDevices m).foldl (fun s d =>
    s.queueHart { id := 0, ch := d.1, addr := d.2, cmd := cmd, data := [], tries := 0, internal := true }) s
/-- hart_put (15 R346). -/
def State.hartPut (n addr cmd : Nat) (data : List Byte) (s : State) : State :=
  let ok := s.hartMode n == 1 && addr == 0 || s.hartMode n == 2 && decide (1 ≤ addr) && decide (addr ≤ s.hartDevices n)
  if 8 ≤ n || !ok || 250 < data.length then s.ret stRange []
  else if 32 ≤ (s.modem (n / 4)).queue.length then s.ret stCapacity []
  else
    let id := s.ua.nextId
    ((s.upUa fun u => { u with nextId := u.nextId + 1 }).queueHart
      { id := id, ch := n, addr := addr, cmd := cmd, data := data, tries := 0, internal := false }).ret stOk [id]
/-- hart_get (15 R346). -/
def State.hartGet (id : Nat) (s : State) : State :=
  if s.ua.modems.any fun d => d.queue.any fun q => q.id == id && !q.internal then s.ret stBusy []
  else match s.ua.results.find? fun r => r.1 == id with
    | some r => if r.2.1 = stOk then s.ret stOk (r.2.2.1 :: r.2.2.2.1 :: r.2.2.2.2.map BitVec.toNat) else s.ret r.2.1 []
    | none => s.ret stUnknown []
/-- The front transaction of a modem ends. -/
def State.endHart (m status rc ds : Nat) (data : List Byte) (s : State) : State :=
  match (s.modem m).queue.head? with
  | none => s
  | some q =>
    let s := s.setModem m fun d =>
      { d with queue := d.queue.drop 1,
               answering := if status = stOk then (q.ch, q.addr) :: d.answering.filter fun a => a != (q.ch, q.addr)
                            else if q.internal then d.answering.filter fun a => a != (q.ch, q.addr) else d.answering }
    let s := s.upUa fun u =>
      { u with hartTransactions := inc32 u.hartTransactions, hartFailures := if status = stOk then u.hartFailures else inc32 u.hartFailures,
               results := if q.internal then u.results else (q.id, status, rc, ds, data) :: u.results }
    let s := s.serveHart m
    if status = stOk && bit ds 6 && q.cmd != 0 then
      s.queueHart { id := 0, ch := q.ch, addr := q.addr, cmd := 0, data := [], tries := 0, internal := true }
    else s
/-- A reply, a missing reply retried twice, or a burst frame (15 R345). A reply whose device status has HART's
configuration-changed bit 6 is followed by command 0 (log 25). -/
def State.hartEvent (m : Nat) (e : HartEvent) (s : State) : State :=
  match e with
  | .reply rc ds data => s.endHart m stOk rc ds data
  | .noReply =>
    match (s.modem m).queue.head? with
    | some q =>
      if q.tries < 2 then (s.setModem m fun d => { d with queue := { q with tries := q.tries + 1 } :: d.queue.drop 1 }).serveHart m
      else s.endHart m stTimeout 0 0 []
    | none => s
  | .burst => s.upUa fun u => { u with bursts := inc32 u.bursts }
/-- Every declared device of a channel answers (15 Table 15.5, HART_OK). -/
def State.hartOk (s : State) (n : Nat) : Bool :=
  s.hartMode n != 0 && ((s.declaredDevices (n / 4)).filter fun d => d.1 == n).all fun d => (s.modem (n / 4)).answering.any (· == d)

/-- CONVERSION_COMPLETE (15 R333). -/
def execConversionComplete (t ch : Nat) (value : Raw) (s : State) : Host.Outcome State Fault Refusal :=
  happens t s (fun s => s.awake && !s.ua.afsLost && decide (ch < 8) &&
    (s.uaMode ch == 1 || s.uaMode ch == 2 || s.uaMode ch == 3 || s.uaMode ch == 7 || s.uaMode ch == 8)) (State.convert ch value)
def execExcitationWindow (t : Nat) (opens : Bool) (readings : List (Nat × Nat × Nat)) (s : State) : Host.Outcome State Fault Refusal :=
  happens t s State.mayExcite (State.excite opens readings)
def execTwinSenseReport (t ch : Nat) (inCircuit : Bool) (milliohm : Nat) (settings : Word) (s : State) :
    Host.Outcome State Fault Refusal :=
  happens t s (fun s => s.awake && !s.swathSilent && decide (ch < 8)) (State.twinSense ch inCircuit milliohm settings)
def execTwinSenseTimeout (t : Nat) (s : State) : Host.Outcome State Fault Refusal :=
  happens t s State.senseSilent fun s => s.upUa fun u => { u with senseUnknown := true }
def execUaChannelFault (t ch : Nat) (f : UaFault) (cleared : Bool) (s : State) : Host.Outcome State Fault Refusal :=
  happens t s (fun s => s.awake && s.uaMode ch != 0 && decide (ch < 8)) (State.uaFault ch f cleared)
def execAfsLost (t : Nat) (lost : Bool) (mv : Nat) (s : State) : Host.Outcome State Fault Refusal :=
  happens t s State.awake (State.setAfs lost mv)
def execHartPut (t ch addr cmd : Nat) (data : List Byte) (s : State) : Host.Outcome State Fault Refusal :=
  happens t s State.awake (State.hartPut ch addr cmd data)
def execHartGet (t id : Nat) (s : State) : Host.Outcome State Fault Refusal := happens t s State.awake (State.hartGet id)
def execHartReply (t modem : Nat) (e : HartEvent) (s : State) : Host.Outcome State Fault Refusal :=
  happens t s (fun s => s.awake && !s.ua.afsLost && decide (modem < 2)) (State.hartEvent modem e)
/-- HART_POLL (15 R345): command 48 to each declared device; only the owner's modems transmit. -/
def execHartPoll (t modem : Nat) (s : State) : Host.Outcome State Fault Refusal :=
  happens t s (fun s => s.driving && !s.ua.afsLost && decide (modem < 2)) (State.pollHart 48 modem)

end Sys2Proof.Machine
end

