-- ==== Sys2Proof/Machine/Backplane.lean ====
section
/-! DEFINITION. The transceivers of the plant ports (19 R400). -/

namespace Sys2Proof.Machine

/-- A transceiver that the module powers: it declares the configured PMD, power level 1 or 2, and answers; code 0 is an
unused port (19 R400, 10 Table 10.11). -/
def sfpFits (pmd : Nat) (id : SfpId) : Bool :=
  id.present && pmd != 0 && id.pmdCode == pmd && (id.powerLevel == 1 || id.powerLevel == 2) && id.answers
def State.pmd (s : State) (p : Nat) : Nat := s.conf.map.pmd.getD p 0
/-- The identity is read, at insertion and at BOOT, and the link brought up or held down. -/
def SfpSt.insert (pmd : Nat) (id : SfpId) (_ : SfpSt) : SfpSt :=
  { id := id, linkUp := sfpFits pmd id, alarm := false, alarmClearAt := 0 }
/-- The diagnostic values of one second: a high alarm takes the link down, and its end starts the 10 s. -/
def SfpSt.monitor (now : Nat) (high : Bool) (x : SfpSt) : SfpSt :=
  if high then { x with alarm := true, linkUp := false }
  else if x.alarm then { x with alarm := false, alarmClearAt := now } else x
/-- The link returns 10 s after the alarm clears. -/
def SfpSt.return (pmd now : Nat) (x : SfpSt) : SfpSt :=
  if !x.linkUp && !x.alarm && decide (x.alarmClearAt + secTicks 10 ≤ now) && sfpFits pmd x.id then { x with linkUp := true } else x


end Sys2Proof.Machine
end

