-- ==== Sys2Proof/Machine/Recorder.lean ====
section
/-! DEFINITION. The recorder's own events (17 R372–R375). -/

namespace Sys2Proof.Machine

/-- The sequence of the newest record; 0 when none was ever written. -/
def State.newestSeq (s : State) : Nat := match s.log.ring.getLast? with | some r => r.seq | none => s.log.nextSeq - 1
/-- The sequence of the oldest record in the ring. -/
def State.oldestSeq (s : State) : Nat := match s.log.ring.head? with | some r => r.seq | none => s.log.nextSeq
/-- Every accepted record is in the store (17 R373). -/
def State.flushRecords (s : State) : State :=
  s.upLog fun l => { l with flushed := l.nextSeq - 1, unflushed := 0 }
/-- A flush is due: 512 unflushed, or the oldest unflushed record is 1 s old (17 R373). -/
def State.flushDue (s : State) : Bool :=
  decide (512 ≤ s.log.unflushed) || (decide (0 < s.log.unflushed) && decide (s.log.oldestUnflushed + secTicks 1 ≤ s.time.now))

/-- RECORD_ACCEPT (17 R372). -/
def execRecordAccept (t type : Nat) (payload : List Byte) (s : State) : Host.Outcome State Fault Refusal :=
  .next ((s.arrive t).record_ type payload)
/-- RECORDER_FLUSH (17 R373). -/
def execRecorderFlush (t : Nat) (s : State) : Host.Outcome State Fault Refusal := happens t s State.flushDue State.flushRecords

end Sys2Proof.Machine
end

