-- ==== Sys2Proof/Machine/Display.lean ====
section
/-! DEFINITION. The front display (18). A line is held as the quantities that it shows (log 18). -/

namespace Sys2Proof.Machine

/-- Text up to its first 0x00 byte (18 R390). -/
def textOf (bs : List Byte) : List Byte := bs.takeWhile (· != 0#8)
/-- The newest record with SEVERITY 1 or above (18 Table 18.1, line 4). -/
def State.lastFault (s : State) : Option Record := s.log.ring.reverse.find? fun r => decide (1 ≤ r.severity)
/-- Whole seconds left of the trial window (13 R316). -/
def State.trialLeft (s : State) : Nat := s.sheaf.trialStart + s.sheaf.windowRec - s.tb3s
/-- The quantities of each line of Table 18.1. Line 0 names the slot letter last; an empty NAME stands for the serial number. -/
def State.renderLine (s : State) (n : Nat) : List Byte :=
  match n with
  | 0 => textOf s.disp.name ++ ascii (if s.slotB then "B" else "A")
  | 1 => leBytes 1 (b2n s.pair.owner) ++ leBytes 1 s.power.mode ++ leBytes 4 s.pair.term
  | 2 => if s.cfg.sown.present then leBytes 4 s.conf.version else []
  | 3 => leBytes 4 s.sheaf.active ++ (if s.sheaf.st = 6 then leBytes 4 s.trialLeft else [])
  | 4 => match s.lastFault with | some r => leBytes 2 r.type ++ leBytes 8 r.stamp | none => []
  | 5 => s.disp.lines.getD 0 []
  | 6 => s.disp.lines.getD 1 []
  | _ => if s.power.mode = 1 then leBytes 1 s.boot.step else if s.power.mode = 3 then leBytes 2 (if s.pair.copyDone then 1000 else 0)
         else if s.power.reason = 0 then [] else leBytes 1 s.power.reason
/-- The eight lines; line 7 is re-rendered at most every 5 s (18 R382). -/
def State.render (s : State) : List (List Byte) :=
  (List.range 8).map fun n =>
    if n = 7 && decide (s.time.now < s.disp.line7At + secTicks 5) && !s.disp.shown.isEmpty then s.disp.shown.getD 7 [] else s.renderLine n
/-- Which icons are lit (18 Table 18.2). -/
def State.icons (s : State) : Nat :=
  let fault := match s.lastFault with | some r => decide (2 ≤ r.severity) && decide (s.disp.bootSeq ≤ r.seq) | none => false
  let on := [s.pair.owner, s.pair.synced, s.power.mode == 7, s.power.mode == 2, s.sheaf.st == 6, fault, s.tb0Valid,
             !s.swathSilent, s.pair.hedgeFault, s.power.noUpdate || s.power.worn || s.power.insufficient, s.gate.debugOpen,
             s.disp.retireImage]
  ((List.range 12).map fun n => b2n (on.getD n false) * 2 ^ n).sum
/-- Full refresh and partial update times in ms by band (18 Table 18.3). -/
def fullMs (band : Nat) : Nat := [3000, 2400, 1920, 1560, 1260, 1080, 960, 840].getD band 840
def partialMs (band : Nat) : Nat := [960, 780, 620, 500, 420, 360, 320, 280].getD band 280
/-- The icon whose ledger has passed ±2,000 (18 R386). -/
def DispSt.unbalanced (d : DispSt) : Option Nat := (List.range 12).find? fun n => decide (2000 < (d.ledgers.getD n 0).natAbs)
/-- 5 V frames of the opposite sign until the ledger lies within ±5 (18 R386). -/
def balanceFrames (l : Int) : Nat := ceilDiv (l.natAbs - 5) 5
def balanced (l : Int) : Int := if 0 ≤ l then l - 5 * balanceFrames l else l + 5 * balanceFrames l
/-- Ledgers after a waveform that drives the icons of a mask: the frames of each are free (log 17). -/
def driveIcons (free mask : Nat) (ls : List Int) : List Int :=
  (List.range 12).map fun n => ls.getD n 0 + (if bit mask n then 15 * Config.iconFrames free n else 0)
/-- Rewrite every row and every icon (18 R382). -/
def State.fullRefresh (lines : List (List Byte)) (s : State) : State :=
  ((s.upDisp fun d => { d with updating := 1, lastStart := some s.time.now, updates := inc32 d.updates, fulls := inc32 d.fulls,
                               partials := 0, fullPending := false, lastFullBand := d.band, shown := lines,
                               segments := s.icons, ledgers := driveIcons s.free 0xFFF d.ledgers,
                               line7At := s.time.now }).emit (.waveform 1 0 (fullMs s.disp.band))).useFree
/-- Write the rows that differ and the icons whose state changes (18 R382). -/
def State.partialUpdate (lines : List (List Byte)) (s : State) : State :=
  ((s.upDisp fun d => { d with updating := 1, lastStart := some s.time.now, updates := inc32 d.updates, partials := d.partials + 1,
                               fullPending := d.fullPending || decide (d.fullEvery ≤ d.partials + 1), shown := lines,
                               segments := s.icons, ledgers := driveIcons s.free (d.segments ^^^ s.icons) d.ledgers,
                               line7At := if lines.getD 7 [] = d.shown.getD 7 [] then d.line7At else s.time.now }).emit
    (.waveform 0 0 (partialMs s.disp.band))).useFree
/-- A balancing phase for one icon alone (18 R386). -/
def State.balance (n : Nat) (s : State) : State :=
  let l := s.disp.ledgers.getD n 0
  (s.upDisp fun d => { d with updating := 1, lastStart := some s.time.now, updates := inc32 d.updates, balances := inc32 d.balances,
                              ledgers := setAt d.ledgers n balanced }).emit (.waveform 2 n (20 * balanceFrames l))
/-- A waveform may start: the panel is driven, not frozen, no waveform or discharge runs, 1 s has passed since the last
start, and no retire has begun (18 R382, R383, R387, R388). -/
def State.canUpdate (s : State) : Bool :=
  s.awake && s.disp.panelOk && !s.disp.frozen && s.disp.updating == 0 && !s.boot.retiring &&
  (match s.disp.lastStart with | some a => decide (a + secTicks 1 ≤ s.time.now) | none => true)
/-- DISPLAY_UPDATE (18 R382): a balancing phase before any other waveform, then a full refresh that is pending, then a
partial update where the content has changed. -/
def State.updateDisplay (s : State) : State :=
  match s.disp.unbalanced with
  | some n => s.balance n
  | none =>
    if s.disp.fullPending then s.fullRefresh s.render
    else if s.render = s.disp.shown && s.icons == s.disp.segments then s
    else s.partialUpdate s.render

/-- Bands entered below their upper boundaries in 0.1 °C (18 Table 18.3). -/
def bandOf (tenths : Int) : Nat := ([50, 100, 150, 200, 250, 300, 400].filter fun b => decide ((b : Int) ≤ tenths)).length
/-- A band rises at its boundary and falls 0.5 °C below it (18 R384, log 19). -/
def nextBand (band : Nat) (tenths : Int) : Nat :=
  if band < bandOf tenths then bandOf tenths else if bandOf (tenths + 5) < band then bandOf (tenths + 5) else band
/-- Frozen below 0.0 °C or above 50.0 °C, until 1.0 °C rising or 49.0 °C falling (18 R383). -/
def nextFrozen (frozen : Bool) (tenths : Int) : Bool :=
  if frozen then !(decide (10 ≤ tenths) && decide (tenths ≤ 490)) else decide (tenths < 0) || decide (500 < tenths)
/-- The reading of the panel's sensor (18 R383, R384). -/
def DispSt.readPanel (tenths : Int) (d : DispSt) : DispSt :=
  let fz := nextFrozen d.frozen tenths
  let band := nextBand d.band tenths
  { d with panelTemp := tenths, band := band, frozen := fz,
           freezes := if fz && !d.frozen then inc32 d.freezes else d.freezes,
           fullPending := d.fullPending || (d.frozen && !fz) || decide (d.lastFullBand + 2 ≤ band) || decide (band + 2 ≤ d.lastFullBand) }

def execDisplayUpdate (t : Nat) (s : State) : Host.Outcome State Fault Refusal := happens t s State.canUpdate State.updateDisplay
/-- WAVEFORM_END (18 R387): the rails are discharged next. -/
def execWaveformEnd (t : Nat) (s : State) : Host.Outcome State Fault Refusal :=
  happens t s (fun s => s.disp.updating == 1) fun s => s.upDisp fun d => { d with updating := 2 }
/-- RAIL_DISCHARGE_DONE (18 R387). -/
def execRailDischargeDone (t : Nat) (s : State) : Host.Outcome State Fault Refusal :=
  happens t s (fun s => s.disp.updating == 2) fun s => s.upDisp fun d => { d with updating := 0 }
/-- PANEL_TEMPERATURE_READ (18 R383, R384). -/
def execPanelTemperatureRead (t : Nat) (tenths : Int) (s : State) : Host.Outcome State Fault Refusal :=
  happens t s State.awake fun s => s.upDisp (DispSt.readPanel tenths)
/-- LEDGER_SAVE (18 R386). -/
def execLedgerSave (t : Nat) (s : State) : Host.Outcome State Fault Refusal :=
  happens t s State.awake fun s => s.upDisp fun d => { d with storedLedgers := d.ledgers }

end Sys2Proof.Machine
end

