-- ==== Sys2Proof/Machine/Clock.lean ====
section
/-! DEFINITION. The time bases: servo, best master selection, captures, triggers and the twin's time (06). The meanings of
Sync messages stand in Machine/Start.lean, because a valid TB0 can let a start go on. -/

namespace Sys2Proof.Machine

/-- 549,755,813 × 2^-40: 500 ppm (06 R122, R143). -/
def rateMax : Int := 549755813
def clampTo (m x : Int) : Int := max (-m) (min m x)
def usFine : Int := 65536000
def msFine : Int := 65536000000
/-- Offset in whole ns as TIME.TBn_OFFSET_NS holds it (06 R144). -/
def Base.offsetNs (b : Base) : Nat := satSigned 32 (b.offset.tdiv 65536)

/-- A base changes its state; the change is recorded (06 R129). Leaving TWIN or entering another state begins new runs. -/
def State.baseTo (n st : Nat) (s : State) : State :=
  let old := (s.base n).st
  if old = st then s
  else
    let s := (s.setBase n fun b => { b with st := st, run := 0, recent := [] }).record 0x0601 [(1, old), (1, st)]
    if st = 4 then (s.upTime fun c => { c with divergedEvents := inc32 c.divergedEvents }).record 0x0602 [] else s
/-- A base is set to a new value in one tick; the step is counted and recorded with the values before and after (06 R129). -/
def State.stepBase (n : Nat) (acc : Nat) (s : State) : State :=
  let before := fullStamp ((s.base n).acc / 2 ^ 32)
  ((s.setBase n fun b => { b with acc := acc, stepped := true }).upTime fun c => { c with steps := inc32 c.steps }).record_ 0x0601
    (before ++ fullStamp (acc / 2 ^ 32))
/-- A base keeps its value and its RATE becomes r, within 500 ppm (06 R122). -/
def State.setRate (n : Nat) (r : Int) (s : State) : State := s.setBase n fun b => { b with rate := clampTo rateMax r }
/-- The slew term in 2^-40: the offset, in 2^-16 ns, taken back over 2 s, within SLEW_PPM; at the limit in DIVERGED (06 R122,
Table 6.4; log 26). -/
def slewTerm (ppm st : Nat) (offset : Int) : Int :=
  let lim : Int := (ppm * 2 ^ 40 / 1000000 : Nat)
  if st = 4 then (if 0 < offset then -lim else lim) else clampTo lim ((-offset * 2 ^ 24).tdiv 2000000000)
/-- The state that an offset gives a base that disciplines itself (06 Table 6.4). -/
def byOffset (offset : Int) : Nat := if msFine < offset.natAbs then 4 else if usFine < offset.natAbs then 3 else 2
/-- The run after one more Sync, and the next state of a valid base with its new offset (06 Table 6.4). -/
def nextState (st run : Nat) (offset : Int) : Nat × Nat :=
  let near := decide ((offset.natAbs : Int) ≤ usFine)
  if msFine < offset.natAbs then (4, 0)
  else match st with
    | 2 => if near then (2, 0) else if 4 ≤ run + 1 then (3, 0) else (2, run + 1)
    | 3 => if near then (if 16 ≤ run + 1 then (2, 0) else (3, run + 1)) else (3, 0)
    | 4 => (3, 0)
    | _ => (byOffset offset, 0)

/-! ## Ports (06 R127, R128) -/

def State.port (s : State) (p : Nat) : PortTime := s.time.ports.getD p PortTime.reset
def State.setPort (p : Nat) (f : PortTime → PortTime) (s : State) : State := s.upTime fun c => { c with ports := setAt c.ports p f }
def State.portCfg (s : State) (p : Nat) : Int × Int × Nat × Nat := s.conf.time.ports.getD p (0, 0, 0, 0)
/-- Corrected stamps in 2^-16 ns; the corrections are in 2^-8 ns (06 R128). -/
def State.rxStamp (s : State) (p : Nat) (raw : Int) : Int := raw + 256 * ((s.port p).factoryRx + (s.portCfg p).1)
def State.txStamp (s : State) (p : Nat) (raw : Int) : Int := raw + 256 * ((s.port p).factoryTx + (s.portCfg p).2.1)
def PortTime.role (n : Nat) (q : PortTime) : Nat := if n = 0 then q.role0 else q.role1
def PortTime.ann (n : Nat) (q : PortTime) : Option AnnounceMsg := if n = 0 then q.ann0 else q.ann1
def PortTime.setRole (n r : Nat) (q : PortTime) : PortTime := if n = 0 then { q with role0 := r } else { q with role1 := r }
def PortTime.setAnn (n : Nat) (a : Option AnnounceMsg) (q : PortTime) : PortTime := if n = 0 then { q with ann0 := a } else { q with ann1 := a }
/-- The base of a domain number; TB1 is disabled by 0xFF (06 Table 6.2, Table 6.7). -/
def State.baseOfDomain (s : State) (d : Nat) : Option Nat :=
  if d = s.conf.time.domain0 then some 0 else if d = s.conf.time.domain1 && d != 0xFF then some 1 else none
/-- The time protocol runs from the end of BOOT, while the plant MACs are on (06 R124, R125, 08 Table 8.8). -/
def State.timeRuns (s : State) : Bool :=
  s.awake && !s.boot.coresOff && (s.power.mode != 1 || s.boot.waiting || s.pair.termOpen || s.pair.ownClaim)
def State.linkUp (s : State) (p : Nat) : Bool := match s.sfp[p]? with | some x => x.linkUp | none => false

/-! ## Best master selection (06 R125, R126) -/

/-- The module may become grandmaster of a domain: by configuration and mode (06 R126). -/
def State.mayBeGm (s : State) (n : Nat) : Bool :=
  bit s.conf.time.gmCapable n &&
    (s.power.mode == 5 || s.power.mode == 6 || (s.power.mode == 1 && s.timeRuns) ||
      (s.power.mode == 7 && (s.power.reason == 8 || s.power.reason == 9 || s.power.reason == 0xA)) ||
      ((s.power.mode == 3 || s.power.mode == 4) && s.time.twinTimeLost))
/-- The advertised priority1 (06 R126). -/
def State.priority1 (s : State) : Nat := if s.power.mode = 4 then min 255 (s.conf.time.priority1 + 1) else s.conf.time.priority1
/-- A priority vector as one number: the lower is the better (IEEE 802.1AS; 06 R125). -/
def annKey (a : AnnounceMsg) : Nat :=
  ((((a.priority1 * 256 + a.clockClass) * 256 + a.clockAccuracy) * 65536 + a.variance) * 256 + a.priority2) * 2 ^ 64 + a.gmId % 2 ^ 64
/-- The module's own vector: attributes of Table 6.2. -/
def State.ownKey (s : State) : Nat :=
  ((((s.priority1 * 256 + 248) * 256 + 0xFE) * 65536 + 0xFFFF) * 256 + s.conf.time.priority2) * 2 ^ 64 + Config.ownClockId % 2 ^ 64
/-- A vector's path is better: fewer steps, then the source (log 9). -/
def annBetter (a b : AnnounceMsg) : Bool :=
  decide (annKey a < annKey b) || (annKey a == annKey b && (decide (a.stepsRemoved < b.stepsRemoved) ||
    (a.stepsRemoved == b.stepsRemoved && Config.tieBreak a.source b.source)))
/-- The best vector among the ports, with its port; of equal ones the lowest port's. -/
def bestOf : List (Nat × AnnounceMsg) → Option (Nat × AnnounceMsg)
  | [] => none
  | (p, a) :: rest => match bestOf rest with | some (q, b) => if annBetter b a then some (q, b) else some (p, a) | none => some (p, a)
/-- What the ports of a domain hold: only a port whose link is up and which is asCapable counts (log 28). -/
def State.candidates (s : State) (n : Nat) : List (Nat × AnnounceMsg) :=
  (List.range 4).filterMap fun p =>
    if s.linkUp p && (s.port p).asCapable then ((s.port p).ann n).map fun a => (p, a) else none
/-- externalPortConfiguration of a domain (06 Table 6.2). -/
def State.extPorts (s : State) (n : Nat) : Bool := bit s.conf.time.extPort n
/-- Port roles by externalPortConfiguration. -/
def State.fixedRoles (n : Nat) (s : State) : State :=
  s.upTime fun c => { c with ports := mapFrom (fun p q => q.setRole n (if n = 0 then (s.portCfg p).2.2.1 else (s.portCfg p).2.2.2)) 0 c.ports }
/-- Port roles of the algorithm: slave the port of the best vector, passive one that hears a path better than the module's own
through it, master otherwise, disabled without a link. -/
def State.roles (n : Nat) (best : Option (Nat × AnnounceMsg)) (s : State) : State :=
  let role (p : Nat) (q : PortTime) : Nat :=
    if !s.linkUp p then 0
    else match best, q.ann n with
      | none, _ => 1
      | some (bp, b), heard =>
        if p = bp then 2
        else match heard with
          | some a => if annKey a = annKey b && a.stepsRemoved ≤ b.stepsRemoved + 1 then 3 else 1
          | none => 1
  s.upTime fun c => { c with ports := mapFrom (fun p q => q.setRole n (role p q)) 0 c.ports }
/-- The module wins: RATE 0, and its value counts as its accepted time (06 R129). -/
def State.becomeGm (n : Nat) (s : State) : State :=
  if (s.base n).st = 7 then s
  else (s.setBase n fun b => { b with rate := 0, freq := 0, stepped := true, foreign := none }).baseTo n 6
/-- No grandmaster is selected: ACQUIRING returns to FREE; a base that was grandmaster holds over (06 Table 6.4). -/
def State.noGm (n : Nat) (s : State) : State :=
  let s := s.setBase n fun b => { b with foreign := none }
  if (s.base n).st = 1 then (s.setBase n fun b => { b with rate := 0, freq := 0 }).baseTo n 0
  else if (s.base n).st = 6 then s.baseTo n 5 else s
/-- A foreign grandmaster is selected: before any step the base acquires it, its measurement begun anew (06 Table 6.4). -/
def State.takeGm (n : Nat) (a : AnnounceMsg) (s : State) : State :=
  let new := match (s.base n).foreign with | some b => b.gmId != a.gmId | none => true
  let s := s.setBase n fun b => { b with foreign := some a }
  let s := if n = 0 then s.upTime fun c => { c with utcOffset := a.utcOffset } else s
  if (s.base n).st = 0 then s.baseTo n 1
  else if (s.base n).st = 1 && new then s.setBase n fun b => { b with run := 0, recent := [] } else s
/-- The best master selection of a domain, run on each change (06 R125, R126). -/
def State.select (n : Nat) (s : State) : State :=
  if s.extPorts n then
    let s := s.fixedRoles n
    if s.time.ports.any fun q => q.role n == 2 then
      (match bestOf ((s.candidates n).filter fun e => (s.port e.1).role n == 2) with
       | some e => s.takeGm n e.2 | none => s)
    else if s.mayBeGm n then s.becomeGm n else s.noGm n
  else
    match bestOf (s.candidates n) with
    | none => if s.mayBeGm n then (s.roles n none).becomeGm n else (s.roles n none).noGm n
    | some (p, a) =>
      if s.mayBeGm n && decide (s.ownKey < annKey a) then (s.roles n none).becomeGm n
      else (s.roles n (some (p, a))).takeGm n a
/-- A received Announce (06 R125). -/
def State.hearAnnounce (m : AnnounceMsg) (s : State) : State :=
  match s.baseOfDomain m.domain with
  | some n => (s.setPort m.port fun q => q.setAnn n (some m)).select n
  | none => s.upTime fun c => { c with discarded := c.discarded + 1 }
/-- The vector of the slave port is gone. -/
def State.loseGm (n : Nat) (s : State) : State :=
  (s.upTime fun c => { c with ports := c.ports.map fun q => if q.role n = 2 then q.setAnn n none else q }).select n
/-- syncReceiptTimeout (06 Table 6.4): HOLDOVER with RATE frozen at its frequency term, unless another grandmaster is at hand. -/
def State.syncLost (n : Nat) (s : State) : State :=
  let s := s.loseGm n
  let b := s.base n
  let none_ := b.foreign.isNone || s.extPorts n
  if none_ && (b.st = 2 || b.st = 3 || b.st = 4) then (s.setRate n b.freq).baseTo n 5
  else if none_ && b.st = 1 then (s.setBase n fun b => { b with rate := 0, freq := 0, foreign := none }).baseTo n 0
  else s

/-! ## The servo (06 R122, R129) -/

/-- Eight offsets lie within 1 µs of one another (06 Table 6.4). -/
def agree8 (xs : List Int) : Bool :=
  decide (8 ≤ xs.length) && xs.all fun a => xs.all fun b => decide (a - b ≤ usFine)
/-- One Sync on a base that is not stepped yet: it measures, and steps at the eighth that agrees. -/
def State.acquire (n : Nat) (offset : Int) (s : State) : State :=
  let s := s.baseTo n 1
  let recent := ((s.base n).recent ++ [offset]).drop ((s.base n).recent.length + 1 - 8)
  if agree8 recent then
    ((s.stepBase n (((s.base n).acc : Int) - offset * 2 ^ 32).toNat).setBase n fun b => { b with offset := 0 }).baseTo n 2
  else (s.setRate n (s.base n).freq).setBase n fun b => { b with recent := recent }
/-- One Sync on a base that disciplines itself by rate only. -/
def State.discipline (n : Nat) (offset : Int) (s : State) : State :=
  let b := s.base n
  let (st, run) := nextState b.st b.run offset
  let s := (s.baseTo n st).setBase n fun b => { b with run := run }
  s.setRate n (b.freq + slewTerm s.conf.time.slewPpm st offset)
/-- A Sync on a port (06 R122, R127–R129): only the slave port's measures, and in TWIN the offset steers nothing (R133). -/
def State.hearSync (m : SyncMsg) (s : State) : State :=
  match s.baseOfDomain m.domain with
  | none => s.upTime fun c => { c with discarded := c.discarded + 1 }
  | some n =>
    let s := s.setPort m.port fun q => { q with oneStep := m.oneStep }
    if (s.port m.port).role n != 2 then s
    else
      let offset := s.rxStamp m.port m.rawRx - m.origin - 256 * (s.port m.port).delay
      let s := s.setBase n fun b => { b with offset := offset, freq := clampTo rateMax m.ratio }
      if (s.base n).st = 7 then s
      else if (s.base n).stepped then s.discipline n offset else s.acquire n offset

/-! ## Peer delay, intervals and transmission (06 R125) -/

/-- A completed Pdelay exchange: the mean link delay in 2^-8 ns, and asCapable by the threshold. -/
def State.pdelay (p : Nat) (e : PdelayEvent) (s : State) : State :=
  match e with
  | .requestReceived _ _ => if s.linkUp p then s.emit (.gptp 3 p 0 0) else s
  | .lost => s.setPort p fun q => { q with lost := inc32 q.lost }
  | .completed t1 t2 t3 t4 rate =>
    let turn := s.rxStamp p t4 - s.txStamp p t1
    let own := turn + (turn * rate).tdiv (2 ^ 40)
    let d := (own - (t3 - t2)).tdiv 512
    let ok := decide (0 ≤ d) && decide (d ≤ 256 * s.conf.time.thresholdNs)
    let was := (s.port p).asCapable
    let s := s.setPort p fun q => { q with delay := min 0xFFFFFFFF d.toNat, neighborRate := rate, asCapable := ok }
    if was = ok then s else (s.select 0).select 1
/-- An interval ends and the message goes out: kind 0 Sync, 1 Pdelay_Req, 2 Announce. Sync and Announce go out on master ports
of a domain with a grandmaster. -/
def State.sendInterval (kind p domain : Nat) (s : State) : State :=
  if !s.linkUp p then s
  else if kind = 1 then s.emit (.gptp 1 p 0 0)
  else match s.baseOfDomain domain with
    | none => s
    | some n =>
      if (s.port p).role n != 1 || kind > 2 then s
      else if (s.base n).st = 6 && s.mayBeGm n then s.emit (.gptp kind p domain s.priority1)
      else match (s.base n).foreign with | some a => s.emit (.gptp kind p domain a.priority1) | none => s
/-- The message interval request TLV, honoured within the ranges of Table 6.2. -/
def State.setIntervals (p : Nat) (logSync logPdelay : Int) (s : State) : State :=
  s.setPort p fun q =>
    { q with logSync := if -7 ≤ logSync && logSync ≤ 0 then logSync else q.logSync,
             logPdelay := if -3 ≤ logPdelay && logPdelay ≤ 3 then logPdelay else q.logPdelay }

/-! ## Triggers, pulses and captures (06 R137–R142) -/

def State.trigger (s : State) (slot : Nat) : List Nat := s.conf.time.triggers.getD (slot - 4) [0, 0, 0, 0]
def State.gclOf (s : State) (p : Nat) : List GclEntry := s.conf.time.lists.getD p []
/-- A configured slot is enabled and its base valid (06 R132, Table 6.5). -/
def State.triggerOn (s : State) (slot : Nat) : Bool :=
  let w := (s.trigger slot).getD 0 0
  s.awake && decide (4 ≤ slot) && decide (slot < 32) && bit w 0 && decide (bits w 14 2 < 2) && (s.base (bits w 14 2)).valid
/-- A slot reaches an instant (06 R138, R140). -/
def State.fireTrigger (slot : Nat) (s : State) : State :=
  let w := (s.trigger slot).getD 0 0
  let arg := bits w 16 8
  match bits w 24 8 with
  | 2 => s.emit (.convert arg)
  | 3 =>
    (match (s.gclOf arg).head? with
     | some e => s.setPort arg fun q => { q with gclRunning := true, gclIndex := 0, gates := e.gates }
     | none => s)
  | 4 => s.emit (.trigOut (bits ((s.trigger slot).getD 3 0) 0 24))
  | _ => s
/-- The next entry of a running list; after the last the cycle waits for the slot's next instant (06 R140). -/
def State.nextGate (p : Nat) (s : State) : State :=
  match (s.gclOf p)[(s.port p).gclIndex + 1]? with
  | some e => if (s.port p).gclRunning then s.setPort p fun q => { q with gclIndex := q.gclIndex + 1, gates := e.gates } else s
  | none => s
/-- PPS_IN captures this edge (06 R142, 10 Table 10.17). -/
def State.ppsOn (s : State) (rising : Bool) : Bool := s.awake && bit s.conf.time.ppsIn (if rising then 0 else 1)
/-- Nanoseconds mapped to −500,000,000 to 499,999,999 (06 R142). -/
def ppsOffset (fine : Nat) : Int :=
  let n := fine / 65536 % 1000000000
  if n < 500000000 then n else (n : Int) - 1000000000
def State.ppsEdge (rising : Bool) (s : State) : State :=
  let b := bits s.conf.time.ppsIn 2 2
  let fine := s.fine b
  s.upTime fun c =>
    let c := if b = 0 then { c with ppsOffset := ppsOffset fine } else c
    if 16 ≤ c.fifo.length then { c with overflows := inc32 c.overflows }
    else { c with ppsEdges := inc32 c.ppsEdges, fifo := c.fifo ++ [{ stamp := fine, rising := rising, base := b }] }
/-- DIO15 captures this edge (14 R327). -/
def State.dio15On (s : State) (rising : Bool) : Bool :=
  s.awake && s.dioMode 15 == 1 && bit (s.dioWord 15) (if rising then 10 else 11)
/-- An edge closer than 10 µs to the one before is counted and not stamped (06 R142, 02 R28). -/
def State.dio15Edge (rising : Bool) (s : State) : State :=
  let stamp := s.tb0
  s.upTime fun c =>
    let close := match c.dio15At with | some a => decide (c.now < a + 2500) | none => false
    let c := { c with dio15Edges := inc32 c.dio15Edges, dio15Count := (c.dio15Count + 1) % 2 ^ 32, dio15At := some c.now,
                      dio15Rising := rising }
    if close then { c with dio15Lost := c.dio15Lost + 1 } else { c with dio15Last := some stamp }

/-! ## TB3 and the twin's time (06 R123, R133–R135) -/

/-- TB3 and TB0 − TB3 go into the store (06 R123). -/
def State.saveTb3 (s : State) : State :=
  s.upTime fun c => { c with storedTb3 := c.tb3, storedDiff := ((c.tb0.acc / 2 ^ 32 : Nat) : Int) - c.tb3 }
/-- One base follows a marker: the one step at entry to SYNCING, else RATE (06 R133). -/
def State.followTwin (n twin : Nat) (rate : Int) (s : State) : State :=
  let s := if (s.base n).st ≤ 1 && !(s.base n).stepped then s.stepBase n (twin * 2 ^ 32) else s
  let diff : Int := ((s.base n).acc / 2 ^ 32 : Nat) - (twin : Int)
  (s.setRate n (Config.twinSteer (diff.tdiv 256) rate)).baseTo n 7
/-- A time marker of the PRIMARY (06 R133). -/
def State.hearMarker (m : Marker) (s : State) : State :=
  let half := m.roundTrip / 2
  let s := s.followTwin 0 (m.tb0 + half) m.rate0
  let s := if s.conf.time.domain1 = 0xFF then s else s.followTwin 1 (m.tb1 + half) m.rate1
  let diff := ((((s.time.tb0.acc / 2 ^ 32 : Nat) : Int) - (m.tb0 + half : Nat)).tdiv 256)
  let far := decide (25600 < diff.natAbs)
  let s := s.upTime fun c => { c with twinDiff := diff, twinTimeLost := false, twinFar := if far then min 9 (c.twinFar + 1) else 0 }
  if s.time.twinFar = 8 then s.record 0x0605 [(4, satSigned 32 diff)] else s
/-- Markers stop in STANDBY: the loss is recorded, and each base goes on by its own Syncs, with no step (06 R134). -/
def State.loseMarkers (s : State) : State :=
  if s.power.mode != 4 || s.time.twinTimeLost then s
  else
    let s := (s.upTime fun c => { c with twinTimeLost := true }).record 0x0604 []
    let free (n : Nat) (s : State) : State :=
      if (s.base n).st = 7 then
        s.baseTo n (if (s.base n).foreign.isSome then byOffset (s.base n).offset else 5)
      else s
    free 1 (free 0 s)
/-- TIME_NOW (06 R121): all 112 bits at one tick. -/
def State.timeNow (base : Nat) (s : State) : State :=
  let f := s.fine base
  s.ret stOk [f / 65536 / 1000000000, f / 65536 % 1000000000, f % 65536]

/-! ## The meanings -/

def execTimeNow (t base : Nat) (s : State) : Host.Outcome State Fault Refusal :=
  happens t s (fun s => s.awake && !s.boot.coresOff && decide (base < 4)) (State.timeNow base)
def execGptpIntervalTimer (t kind port domain : Nat) (s : State) : Host.Outcome State Fault Refusal :=
  happens t s State.timeRuns (State.sendInterval kind port domain)
/-- MESSAGE_INTERVAL_REQUEST (06 R125): logAnnounceInterval is always 0. -/
def execMessageIntervalRequest (t port domain : Nat) (logSync logPdelay _logAnnounce : Int) (s : State) :
    Host.Outcome State Fault Refusal :=
  happens t s (fun s => s.timeRuns && (s.baseOfDomain domain).isSome) (State.setIntervals port logSync logPdelay)
def execTriggerFire (t slot : Nat) (s : State) : Host.Outcome State Fault Refusal :=
  happens t s (fun s => s.triggerOn slot) (State.fireTrigger slot)
/-- PPS_OUT_PULSE (06 R141): low while its base is not valid. -/
def execPpsOutPulse (t : Nat) (s : State) : Host.Outcome State Fault Refusal :=
  happens t s (fun s => s.awake && (s.base s.conf.time.ppsOutBase).valid) (State.emit .ppsOut)
def execPpsInEdge (t : Nat) (rising : Bool) (s : State) : Host.Outcome State Fault Refusal :=
  happens t s (fun s => s.ppsOn rising) (State.ppsEdge rising)
def execDio15Edge (t : Nat) (rising : Bool) (s : State) : Host.Outcome State Fault Refusal :=
  happens t s (fun s => s.dio15On rising) (State.dio15Edge rising)
def execGateControlInterval (t port : Nat) (s : State) : Host.Outcome State Fault Refusal :=
  happens t s State.awake (State.nextGate port)
/-- TB3_SAVE (06 R123). -/
def execTb3Save (t : Nat) (s : State) : Host.Outcome State Fault Refusal :=
  happens t s (fun s => s.awake && (s.power.mode != 1 || s.timeRuns)) State.saveTb3
/-- TIME_MARKER (06 R133): while SYNCING and in STANDBY. -/
def execTimeMarker (t : Nat) (m : Marker) (s : State) : Host.Outcome State Fault Refusal :=
  happens t s (fun s => s.power.mode == 3 || s.power.mode == 4) (State.hearMarker m)

end Sys2Proof.Machine
end

