-- ==== Sys2Proof/Machine/Pair.lean ====
section
/-! DEFINITION. The HEDGE interlock, the Swath link, armed handovers and the proof of the standby (07). The meanings that resume
or copy control stand in Machine/Takeover.lean. -/

namespace Sys2Proof.Machine

/-- CD_TIME ticks of a duration in µs. -/
abbrev usTicks (us : Nat) : Nat := 250 * us
/-- The module is in the preferred slot (07 R170); code 3 is none. -/
def State.inHomeSlot (s : State) : Bool := s.conf.pair.homeSlot == b2n s.slotB
/-- The twin is a synchronised STANDBY as far as this owner knows: it reports STANDBY over a Swath link that is not silent. -/
def State.twinSynced (s : State) : Bool := s.power.mode != 4 && s.pair.twinMode == 4 && !s.swathSilent
/-- The first t0 of a class at or after an instant of TB0 in ns (03 R48). -/
def State.nextT0 (s : State) (x at_ : Nat) : Nat :=
  let p := 1000 * (s.classRec x).periodUs
  ceilDiv at_ p * p
/-- The increment of a term: it is never 0 (07 R159). -/
def nextTerm (term : Nat) : Nat := if (term + 1) % 2 ^ 32 = 0 then 1 else (term + 1) % 2 ^ 32
def State.inTrial (s : State) : Bool := s.sheaf.st == 6
/-- A condition of R171 defers home return and proving: a flip is armed, a Sheaf trial on either twin, HEDGE_FAULT. -/
def State.homeDeferred (s : State) : Bool := s.cfg.armed.isSome || s.inTrial || s.sheaf.twinState == 6 || s.pair.hedgeFault
def State.countDeferral (s : State) : State := s.upCnt fun k => { k with deferrals := inc32 k.deferrals }
/-- HEDGE_FAULT is set and recorded (07 Table 7.6, 19 R395). -/
def State.setHedgeFault (s : State) : State := if s.pair.hedgeFault then s else (s.upPair fun p => { p with hedgeFault := true }).record 0x0205 []

/-! ## Claims (07 R147–R151) -/

/-- Claims begin within 2 µs of each other: slot A keeps its own, slot B withdraws with the release pattern (07 R149). -/
def State.tieBreak (s : State) : State :=
  let s := (s.upCnt fun k => { k with tieBreaks := inc32 k.tieBreaks }).record 0x0204 []
  if s.slotB then (s.upPair fun p => { p with ownClaim := false, ownReadback := false, confirmed := false, tied := false }).emit (.hedge 2)
  else s.upPair fun p => { p with tied := true }
/-- Start a claim (07 R149): only while the twin's is absent, or has begun within 2 µs, which is a tie; none in a retire (08 R191). -/
def State.startClaim (kind : Nat) (s : State) : State :=
  let tie := s.pair.twinClaim && decide (s.time.now ≤ s.pair.twinClaimAt + 500)
  if s.pair.ownClaim || s.boot.retiring || (s.pair.twinClaim && !tie) then s
  else
    let s := (s.upPair fun p => { p with ownClaim := true, ownClaimAt := s.time.now, confirmed := false, tied := false, claimKind := kind,
                                         ownReadback := true }).emit (.hedge 1)
    if tie then s.tieBreak else s
/-- A malformed interval counts as a present claim, sets the flag and is recorded (07 R147). -/
def State.hedgeIn (malformed : Bool) (s : State) : State :=
  if malformed then (s.upPair fun p => { p with malformed := true }).record 0x0205 [] else s
/-- The twin's claim begins (07 R147, R149). -/
def State.twinClaims (malformed : Bool) (s : State) : State :=
  let s := s.hedgeIn malformed
  if s.pair.twinClaim then s
  else
    let s := s.upPair fun p => { p with twinClaim := true, twinClaimAt := s.time.now }
    if s.pair.ownClaim && !s.pair.confirmed && decide (s.time.now ≤ s.pair.ownClaimAt + 500) then s.tieBreak else s
/-- A module in SYNCING, or a STANDBY that is not synchronised, does not take over: it enters SAFE HOLD (07 R162). -/
def State.twinFailed (s : State) : State :=
  if (s.power.mode == 3 || (s.power.mode == 4 && !s.pair.synced)) && !s.pair.twinClaim && (s.swathSilent || s.pair.yielded) then
    s.safeHold 0xA
  else s
/-- The twin's claim is absent from now; after a tie the two µs of slot A begin (07 R149). -/
def State.twinAbsent (tf : Nat) (s : State) : State :=
  if !s.pair.twinClaim then s
  else
    (s.upPair fun p =>
      { p with twinClaim := false, tied := false, ownClaimAt := if p.tied then s.time.now else p.ownClaimAt,
               tfAt := if p.yielded then min p.yieldAt tf else tf }).twinFailed
/-- A release pattern: absent at once; a synchronised STANDBY whose owner has yielded claims (07 R147, Table 7.5). -/
def State.released (s : State) : State :=
  let s := s.twinAbsent s.time.now
  if s.power.mode == 4 && s.pair.synced && s.pair.yielded && !s.pair.twinClaim then s.startClaim 2 else s
/-- The owner's readback shows no edge for 15 µs (07 R150). -/
def State.loseOwnClaim (s : State) : State := ((s.upPair fun p => { p with ownReadback := false }).record 0x0205 []).safeHold 6
/-- Both takeover conditions on a synchronised STANDBY (07 R162). -/
def State.mayTakeOver (s : State) : Bool :=
  s.power.mode == 4 && s.pair.synced && !s.pair.twinClaim && !s.pair.ownClaim && (s.swathSilent || s.pair.yielded)

/-! ## Swath (07 R152, 13 R311, 19 R395) -/

/-- A STANDBY loses synchronisation and returns to SYNCING (08 Table 8.2). -/
def State.resync (s : State) : State :=
  if s.power.mode != 4 then s
  else
    let s := s.upPair fun p => { p with synced := false, isolated := false, copyDone := false, yielded := false, homeArmed := false, armed := none }
    let s := (s.upCnt fun k => { k with applied := [none, none, none, none], gapStreaks := [], dueRepairs := [] }).upCyc fun c =>
      { c with shadow := [], journal := [], newShots := [] }
    s.goMode 3 0
def setLane (l : Nat) (up : Bool) (p : PairSt) : PairSt := if l = 0 then { p with lane0 := up } else { p with lane1 := up }
/-- A lane goes down; with both down the link is silent and the markers stop (07 R152, 06 R134). -/
def State.laneDown (l : Nat) (s : State) : State :=
  let was := s.swathSilent
  let s := s.upPair (setLane l false)
  if s.swathSilent && !was then
    ((s.upPair fun p => { p with silentAt := s.time.now, twinHomeArmed := false }).loseMarkers).twinFailed
  else s
/-- Compatible Swath protocols (13 R311). -/
def compatible (proto min tProto tMin : Nat) : Bool :=
  if proto = tProto then true else if proto < tProto then decide (tMin ≤ proto) else decide (min ≤ tProto)
/-- A lane starts up: protocols and SLOT_ID readings are exchanged; an incompatible twin brings no lane up. An ISOLATED STANDBY
returns through SYNCING (07 Table 7.6). -/
def State.startLane (l proto min slotId : Nat) (s : State) : State :=
  let s := s.upSheaf fun h => { h with twinProto := proto, twinMin := min }
  let s := s.emit (.swath (.laneStart l s.sheaf.proto s.sheaf.min s.pair.slotId))
  let s := if bit slotId 0 == bit s.pair.slotId 0 || bits slotId 1 5 != bits s.pair.slotId 1 5 then s.setHedgeFault else s
  if !compatible s.sheaf.proto s.sheaf.min proto min then s.record 0x0200 [(2, proto), (2, min)]
  else
    let silent := s.swathSilent
    let s := s.upPair (setLane l true)
    if silent && s.power.mode == 4 then s.resync else s
/-- A block is accepted, or discarded and asked for again (07 R152). -/
def State.swathBlock (l : Nat) (crcOk : Bool) (s : State) : State :=
  if crcOk then s else (s.upCnt fun k => { k with swathErrors := inc32 k.swathErrors }).emit (.swath (.retransmit l))
/-- A YIELD arrives (07 R151, R162). -/
def State.hearYield (s : State) : State :=
  (s.upPair fun p => { p with yielded := true, yieldAt := s.time.now, tfAt := if p.twinClaim then s.time.now else p.tfAt }).twinFailed
/-- The twin's claim report (07 R152, Table 7.6): the owner's claim is not seen while Swath is alive. -/
def State.claimReport (sees readback : Bool) (s : State) : State :=
  let settled := decide (s.pair.ownClaimAt + usTicks 120 ≤ s.time.now)
  if s.swathSilent then s
  else if s.pair.owner && s.pair.confirmed && settled && !sees then s.setHedgeFault
  else if s.power.mode == 4 && readback && !s.pair.twinClaim && !s.pair.yielded then s.setHedgeFault else s
/-- Swath is silent while the owner's claim is still present 20 µs later (07 R162, Table 7.6). -/
def State.isolate (s : State) : State :=
  (s.upPair fun p => { p with isolated := true, synced := false, homeArmed := false }).record 0x0200 []
/-- A report of the twin's mode (08 R179). -/
def State.hearMode (m : Nat) (s : State) : State :=
  let follows := m == 3 || m == 4
  let s := s.upPair fun p => { p with twinMode := m, twinReportAt := if follows then s.time.now else p.twinReportAt }
  if s.power.mode == 6 && s.pair.owner && follows then s.goMode 5 0 else s
/-- 100 ms pass without a report of the twin in SYNCING or STANDBY (08 R179). -/
def State.twinSilent (s : State) : State :=
  let s := (s.upPair fun p => { p with twinMode := 0, homeArmed := false }).upCfg fun c => { c with checkedTwin := false }
  if s.power.mode == 5 && s.pair.owner then s.goMode 6 0 else s

/-! ## Handovers (07 R166–R171, R175) -/

/-- Arm a cooperative handover; home return and proving set HOME_ARMED (07 R170, R175). -/
def State.armHandover (kind th job : Nat) (s : State) : State :=
  (s.upPair fun p => { p with armed := some { kind := kind, th := th, deferrals := 0, job := job },
                              homeArmed := p.homeArmed || kind == 1 || kind == 2 || kind == 3 }).emit (.swath (.armHandover th))
/-- Abandon an armed handover; its job ends with a status. -/
def State.dropHandover (status : Nat) (s : State) : State :=
  match s.pair.armed with
  | some h => (s.endJob h.job status []).upPair fun p => { p with armed := none, homeArmed := false }
  | none => s
/-- The last checkpoint of every class that ran is acknowledged (07 R167). -/
def State.allAcked (s : State) : Bool :=
  s.cnt.acked.all fun e => e.2 == 0
/-- The handover moves to the next class-D t0; an ejection to the next class-A t0. After three deferrals the job of
`PAIR_HANDOVER` ends with the reason (07 R166, R167; log 33). -/
def State.deferHandover (s : State) : State :=
  match s.pair.armed with
  | none => s
  | some h =>
    let s := s.countDeferral
    let x := if h.kind = 4 then 0 else 3
    if h.kind = 0 && 3 ≤ h.deferrals + 1 then s.dropHandover (if s.twinSynced then stTimeout else stState)
    else s.upPair fun p => { p with armed := some { h with th := s.nextT0 x (h.th + 1), deferrals := h.deferrals + 1 } }
/-- At th − 20 µs: every acknowledgement in and the twin synchronised, or the handover moves (07 R167). -/
def State.checkHandover (s : State) : State := if s.allAcked && s.twinSynced then s else s.deferHandover
/-- At th: YIELD, the release pattern, and no further frame (07 Table 7.5). The module keeps its mode until th + P_A. -/
def State.handOver (s : State) : State :=
  let s := s.sendYield.notOwner
  ((s.upPair fun p => { p with ownClaim := false, confirmed := false, ownReadback := false, tied := false, ownerSince := s.tb3s }).emit
    (.hedge 2)).upCnt fun k => { k with handovers := inc32 k.handovers }
/-- A handover that the owner arms on its own or on the twin's request, or defers (07 R170, R171, R175). -/
def State.homeHandover (kind : Nat) (s : State) : State :=
  if s.homeDeferred || s.power.mode != 5 || !s.twinSynced then s.countDeferral
  else if s.pair.armed.isSome then s
  else s.armHandover kind (s.nextT0 3 (s.tb0 + 1)) 0
/-- HOME_SETTLE seconds without a break (07 R170): the STANDBY requests a handover, or defers it. -/
def State.requestHome (s : State) : State :=
  if s.homeDeferred || s.pair.twinMode != 5 then s.countDeferral
  else (s.upPair fun p => { p with twinHomeArmed := true }).emit (.swath .requestHandover)
def State.settled (s : State) : Bool :=
  s.power.mode == 4 && s.pair.synced && s.inHomeSlot && s.conf.pair.homeSettle != 0 &&
    decide (s.pair.settleFrom + secTicks s.conf.pair.homeSettle ≤ s.time.now)
/-- The owner's proving period is over (07 R175). -/
def State.proveDue (s : State) : Bool :=
  s.pair.owner && s.conf.pair.proveEnable && s.pair.armed.isNone && decide (s.pair.ownerSince + 3600 * s.conf.pair.provePeriodH ≤ s.tb3s)
/-- The dwell of a proving handover is over: the module that handed over asks for ownership back (07 R175; log 34). -/
def State.dwellDue (s : State) : Bool :=
  s.power.mode == 4 && s.pair.synced &&
    (match s.pair.provingFrom with | some a => decide (a + s.conf.pair.proveDwellS ≤ s.tb3s) | none => false)

/-! ## Proof of the standby (07 R172–R174) -/

/-- One bit of PROOF_STATUS takes the result of the last run; on a STANDBY a failure is counted and recorded. -/
def State.proved (n : Nat) (ok : Bool) (s : State) : State :=
  let s := s.upCnt fun k => { k with proof := setBits k.proof n 1 (b2n ok) }
  if !ok && s.power.mode == 4 then (s.upCnt fun k => { k with proofFails := inc32 k.proofFails }).record 0x0207 [(1, n)] else s
/-- The 1 s loopback of a lane: a failed lane is marked down, and with both down the module leaves synchronisation. -/
def State.loopback (l : Nat) (passed : Bool) (s : State) : State :=
  let s := (s.proved 3 passed).upPair fun p => { p with loopOk := setBits p.loopOk l 1 (b2n passed) }
  if passed then s
  else
    let s := s.laneDown l
    if s.swathSilent then s.resync else s
/-- The 10 ms field readback: a mismatch that lasts 100 ms is a failure. -/
def State.readback (agrees : Bool) (s : State) : State :=
  let n := if agrees then 0 else min 11 (s.cnt.readbackBad + 1)
  let s := s.upCnt fun k => { k with readbackBad := n, proof := setBits k.proof 4 1 (b2n agrees) }
  if n = 10 then (s.upCnt fun k => { k with proofFails := inc32 k.proofFails }).record 0x0207 [(1, 4)] else s
/-- Whether an unproven-time counter runs: 0–15 DIO, 16–23 UA, 24–25 CAN (07 R174). -/
def State.unprovenRuns (s : State) (n : Nat) : Bool :=
  if n < 16 then s.dioIsOut n else if n < 24 then s.uaIsOut (n - 16) else true
def State.unprovenTick (s : State) : State :=
  s.upCnt fun k => { k with unproven := mapFrom (fun n v => if s.unprovenRuns n then inc32 v else 0) 0 k.unproven }

/-! ## Terms (07 R160) -/

/-- A term heard in the term window: the greatest by R7 that is not before the reference; others are recorded. -/
def State.hearTerm (v : Nat) (s : State) : State :=
  if v = 0 || !s.pair.termOpen then s
  else if s.pair.termRef = 0 then s.upPair fun p => { p with termRef := v, termBest := v }
  else if serialGe v s.pair.termRef then s.upPair fun p => { p with termBest := if serialAfter v p.termBest then v else p.termBest }
  else s.record 0x0208 [(4, v)]

/-! ## The meanings -/

/-- OWN_CLAIM_LOST (07 R150). -/
def execOwnClaimLost (t : Nat) (s : State) : Host.Outcome State Fault Refusal :=
  happens t s (fun s => s.pair.owner && s.pair.ownClaim) State.loseOwnClaim
/-- LANE_START_UP (13 R311). -/
def execLaneStartUp (t lane proto min slotId : Nat) (s : State) : Host.Outcome State Fault Refusal :=
  happens t s (fun s => s.awake && decide (lane < 2)) (State.startLane lane proto min slotId)
def execSwathBlockReceived (t lane : Nat) (crcOk : Bool) (s : State) : Host.Outcome State Fault Refusal :=
  happens t s State.awake (State.swathBlock lane crcOk)
def execClaimReport (t : Nat) (seesClaim ownReadback : Bool) (s : State) : Host.Outcome State Fault Refusal :=
  happens t s State.awake (State.claimReport seesClaim ownReadback)
/-- YIELD_CLAIM_STILL_PRESENT (07 R169). -/
def execYieldClaimStillPresent (t : Nat) (s : State) : Host.Outcome State Fault Refusal :=
  happens t s (fun s => s.awake && s.pair.yielded && s.pair.twinClaim && decide (s.pair.yieldAt + usTicks 100 ≤ s.time.now)) State.setHedgeFault
/-- TWIN_REPORT_TIMEOUT (08 R179). -/
def execTwinReportTimeout (t : Nat) (s : State) : Host.Outcome State Fault Refusal :=
  happens t s (fun s => s.awake && decide (s.pair.twinReportAt + usTicks 100000 ≤ s.time.now)) State.twinSilent
/-- ISOLATED (07 R162). -/
def execIsolated (t : Nat) (s : State) : Host.Outcome State Fault Refusal :=
  happens t s (fun s => s.power.mode == 4 && s.pair.synced && s.swathSilent && s.pair.twinClaim && decide (s.pair.silentAt + usTicks 20 ≤ s.time.now)) State.isolate
/-- TAKEOVER (07 R162, R163): the claim begins, and an LBIST run is abandoned; the rest follows at its confirmation (log 31). -/
def execTakeover (t : Nat) (s : State) : Host.Outcome State Fault Refusal :=
  happens t s State.mayTakeOver fun s => (s.upLock fun l => { l with lbistRunning := none }).startClaim 1
/-- HANDOVER_ARM_CHECK (07 R167). -/
def execHandoverArmCheck (t : Nat) (s : State) : Host.Outcome State Fault Refusal :=
  happens t s (fun s => s.pair.owner && s.pair.armed.isSome) State.checkHandover
/-- HANDOVER (07 R167): at th, with the twin synchronised. -/
def execHandover (t : Nat) (s : State) : Host.Outcome State Fault Refusal :=
  happens t s (fun s => s.pair.owner && s.twinSynced && (match s.pair.armed with | some h => decide (h.th ≤ s.tb0) | none => false)) State.handOver
/-- HOME_SETTLE_EXPIRY (07 R170). -/
def execHomeSettleExpiry (t : Nat) (s : State) : Host.Outcome State Fault Refusal := happens t s State.settled State.requestHome
/-- HOME_RETURN_REQUEST (07 R170, R171). -/
def execHomeReturnRequest (t : Nat) (s : State) : Host.Outcome State Fault Refusal :=
  happens t s (fun s => s.pair.owner) (State.homeHandover 1)
/-- PROVE_PERIOD_EXPIRY (07 R175). -/
def execProvePeriodExpiry (t : Nat) (s : State) : Host.Outcome State Fault Refusal := happens t s State.proveDue (State.homeHandover 2)
/-- PROVE_DWELL_EXPIRY (07 R175). -/
def execProveDwellExpiry (t : Nat) (s : State) : Host.Outcome State Fault Refusal :=
  happens t s State.dwellDue fun s => (s.upPair fun p => { p with provingFrom := none, twinHomeArmed := true }).emit (.swath .requestHandover)
/-- FIELD_READBACK (07 R172). -/
def execFieldReadback (t : Nat) (agrees : Bool) (s : State) : Host.Outcome State Fault Refusal :=
  happens t s (fun s => s.power.mode == 4) (State.readback agrees)
/-- UNPROVEN_TICK (07 R174). -/
def execUnprovenTick (t : Nat) (s : State) : Host.Outcome State Fault Refusal := happens t s State.awake State.unprovenTick

end Sys2Proof.Machine
end

