-- ==== Sys2Proof/Machine/Lock.lean ====
section
/-! DEFINITION. Lockstep faults, the state fold, the comparator self-test and LBIST (09). The end of a diagnosis, which can
restart the module, stands in Machine/Start.lean. -/

namespace Sys2Proof.Machine

def State.corePair (s : State) (n : Nat) : CorePair := s.lock.pairs.getD n CorePair.reset
def State.setPair (n : Nat) (f : CorePair → CorePair) (s : State) : State := s.upLock fun l => { l with pairs := setAt l.pairs n f }
/-- The disabled pairs. -/
def LockSt.disabled (l : LockSt) : List Nat := (List.range 8).filter fun n => (l.pairs.getD n CorePair.reset).disabled
/-- A change in the enabled core pairs, and other events, invalidate the seed's check (10 R234). -/
def State.invalidate (s : State) : State := s.upCfg fun c => { c with seed := { c.seed with valid := false } }
/-- The placement that the enabled pairs give: 8 normal, n fallback n, none where no placement fits (09 R210). -/
def State.placementFor (disabled : List Nat) (s : State) : Option Nat :=
  match disabled with
  | [] => some 8
  | [n] => if bit s.cfg.fallbackOk n then some n else none
  | _ => none
/-- The codes that the state keeps of a finding: 1 mismatch, 2 rail disagreement, 3 failed self-test (09 Table 9.3). -/
def findingCode : LockFinding → Nat | .mismatch => 1 | .railDisagreement => 2 | .selfTestFailed => 3
/-- A lockstep fault at tm (09 R207): the pair halts, the vector is latched and counted; control stops, in MAINTENANCE the mode
is kept. -/
def State.lockFault (n : Nat) (f : LockFinding) (group : Nat) (s : State) : State :=
  if (s.corePair n).halted then s
  else
    let g := if f = .mismatch then group else 0xFE
    let s := (s.setPair n fun c => { c with halted := true, kindAtFault := findingCode f, lastGroup := g, faultS := s.tb3s % 2 ^ 32,
                                            faults := inc32 c.faults }).upLock fun l =>
      { l with vector := some (n, g, s.time.tb3), mismatches := if f = .mismatch then inc32 l.mismatches else l.mismatches,
               foldMismatches := if f = .mismatch && g == 0xFF then inc32 l.foldMismatches else l.foldMismatches,
               railDisagreements := if f = .railDisagreement then inc32 l.railDisagreements else l.railDisagreements,
               selftestFails := if f = .selfTestFailed then inc32 l.selftestFails else l.selftestFails }
    if s.power.mode = 2 then s.stayMode 2
    else if 3 ≤ s.power.mode && s.power.mode ≤ 6 then s.safeHold 2 else s
/-- The fold of the 81 words of a core (09 R203): both copies take the same words unless they differ, which is the fault. -/
def State.fold (s : State) : State :=
  (s.upLock fun l => { l with signature := crc64 ((List.range 81).map (Config.coreWord s.free)) }).useFree
/-- A self-test on every enabled pair (09 R206). -/
def State.selfTest (failed : Option Nat) (s : State) : State :=
  let n := 8 - s.lock.disabled.length
  let s := s.upLock fun l =>
    { l with selftestsRun := add32 l.selftestsRun n,
             pairs := l.pairs.map fun c => if c.disabled then c else { c with selfTests := c.selfTests + 1 } }
  let s := s.proved 1 failed.isNone
  match failed with
  | some c => (s.upSheaf fun h => { h with healthBroken := true, healthPassed := false }).lockFault c .selfTestFailed 0xFE
  | none => s
/-- The signal that self-test k of a pair inverts: group and bit (09 R206). -/
def selfTestSignal (k : Nat) : Nat × Nat := (k % 64, k / 64 % 32)
/-- The next scheduled LBIST run is due (09 R211). -/
def State.lbistDue (s : State) : Bool :=
  (s.power.mode == 2 || s.power.mode == 4) && s.lock.lbistRunning.isNone && decide (s.lock.lbistDue ≤ s.tb3s)
def State.startLbist (s : State) : State :=
  s.upLock fun l => { l with lbistRunning := some l.lbistNext, lbistNext := (l.lbistNext + 1) % 8, lbistDue := s.tb3s + 10800 }
/-- A pair is disabled as a class: CORE, DELAY and COMPARATOR for good (09 R209). -/
def State.disablePair (n cls : Nat) (s : State) : State :=
  (s.setPair n fun c => { c with disabled := true, lastClass := cls, permanent := c.permanent || cls != 4 }).invalidate
/-- An LBIST run ends (09 R212). -/
def State.endLbist (n : Nat) (passed : Bool) (s : State) : State :=
  let s := (s.upLock fun l => { l with lbistRunning := none, lbistRuns := inc32 l.lbistRuns,
                                       lbistFails := if passed then l.lbistFails else inc32 l.lbistFails }).setPair n fun c =>
    { c with lbistOk := passed, lbistAt := if passed then s.tb3s else c.lbistAt }
  let s := s.proved 0 passed
  if passed then s
  else
    let s := (s.record 0x0702 [(1, n)]).disablePair n 1
    match s.placementFor s.lock.disabled with
    | some p => s.upLock fun l => { l with placement := p }
    | none => if s.power.mode = 4 then s.safeHold 2 else s.stayMode 2

/-- LOCKSTEP_FAULT (09 R207). -/
def execLockstepFault (t cp : Nat) (f : LockFinding) (group : Nat) (s : State) : Host.Outcome State Fault Refusal :=
  happens t s (fun s => s.awake && !s.boot.coresOff && decide (cp < 8)) (State.lockFault cp f group)
/-- COMPARATOR_SELF_TEST (09 R206). -/
def execComparatorSelfTest (t : Nat) (failed : Option Nat) (s : State) : Host.Outcome State Fault Refusal :=
  happens t s (fun s => s.awake && !s.boot.coresOff) (State.selfTest failed)
/-- LBIST_START (09 R211). -/
def execLbistStart (t : Nat) (s : State) : Host.Outcome State Fault Refusal := happens t s State.lbistDue State.startLbist
/-- LBIST_COMPLETE (09 R212). -/
def execLbistComplete (t : Nat) (passed : Bool) (s : State) : Host.Outcome State Fault Refusal :=
  happens t s (fun s => s.lock.lbistRunning.isSome) fun s => s.endLbist (s.lock.lbistRunning.getD 0) passed

end Sys2Proof.Machine
end

