-- ==== Sys2Proof/Machine/Frames.lean ====
section
/-! DEFINITION. Received FSP frames: the checks of Table 4.8, elimination on rings, and payloads (04). -/

namespace Sys2Proof.Machine

/-- A received frame as its header gives it (04 Tables 4.3, R68). -/
structure Fsp where
  port : Nat
  dest : Nat
  source : Nat
  version : Nat
  kind : Nat
  station : Nat
  tag : Nat
  cls : Nat
  term : Nat
  cfg : Nat
  cycle : Nat
  flags : Nat
  seq : Nat
  spare : Bool
  payload : List Byte

/-- Count one of the counters of Table 4.9. -/
def State.fspCount (i : Nat) (s : State) : State := s.upFsp fun q => { q with counters := setAt q.counters i inc32 }
/-- The frame carries an IEEE 802.1Q tag (04 R68). -/
def frameTagged (b : List Byte) : Bool := beNat (slice b 12 2) == 0x8100
/-- The EtherType that decides: after the tag when the frame carries one (04 R68). -/
def frameType (b : List Byte) : Nat := beNat (slice b (if frameTagged b then 16 else 12) 2)
/-- The fields of the header at byte 18. -/
def parseFsp (f : RxFrame) : Fsp :=
  let b := f.bytes
  let h := slice b 18 24
  let w := field h 1 3
  { port := f.port, dest := beNat (slice b 0 6), source := beNat (slice b 6 6), version := bits (field h 0 1) 4 4,
    kind := bits (field h 0 1) 0 4, station := bits w 12 12, tag := bits w 2 10, cls := bits w 0 2, term := field h 4 4,
    cfg := field h 8 4, cycle := field h 12 4, flags := field h 18 2, seq := field h 20 2,
    spare := zeros h 22 2 && decide (bits (field h 18 2) 5 11 = 0), payload := slice b 42 (field h 16 2) }
/-- Check 2: the lengths, and padding only to 64 bytes (04 R71). -/
def lengthOk (b : List Byte) : Bool :=
  let n := field (slice b 18 24) 16 2
  let need := 18 + 24 + n + 4 + 4
  decide (need ≤ b.length) && decide (n ≤ 1472) && (b.length == need || b.length == 64)
/-- Check 3: CRC-32C over header and payload (04 R72). -/
def crcOk (b : List Byte) : Bool :=
  let n := field (slice b 18 24) 16 2
  decide ((crc32c (slice b 18 (24 + n))).toNat = field b (42 + n) 4)
/-- Kinds and directions of frames that a module may receive: 1, 3, 5 go out only (04 Table 4.4). -/
def kindOk (k : Nat) : Bool := k == 2 || k == 4 || k == 6 || k == 7 || k == 8 || k == 9 || k == 10
/-- Addressed to the pair or to a publication group it hears (04 Table 4.1). -/
def State.addressed (s : State) (f : Fsp) : Bool :=
  f.dest == beNat s.conf.map.pairGroup || s.conf.map.peers.any fun p => beNat p.group == f.dest

/-! ## Elimination (04 R89–R91) -/

/-- The vector recovery algorithm with a history of 32: the new stream, and whether the frame is accepted. Bit i of `hist`
is the frame i before the last. -/
def recover (st : Option StreamSt) (ring source dest seq now : Nat) : StreamSt × Bool :=
  let fresh : StreamSt := { ring := ring, source := source, dest := dest, last := seq, hist := 1, lastAt := now }
  match st with
  | none => (fresh, true)
  | some x =>
    let up := (seq + 65536 - x.last) % 65536
    let down := (x.last + 65536 - seq) % 65536
    if up = 0 then ({ x with lastAt := now }, false)
    else if up < 32 then ({ x with last := seq, hist := (x.hist * 2 ^ up + 1) % 2 ^ 32, lastAt := now }, true)
    else if down < 32 then
      if bit x.hist down then ({ x with lastAt := now }, false)
      else ({ x with hist := setBits x.hist down 1 1, lastAt := now }, true)
    else ({ x with lastAt := now }, false)
def StreamSt.is (ring source dest : Nat) (x : StreamSt) : Bool := x.ring == ring && x.source == source && x.dest == dest
/-- Elimination never removes a frame with RING clear (04 R91); a removed frame is counted. -/
def State.eliminate (f : Fsp) (s : State) : State × Bool :=
  if !bit f.flags 2 then (s, true)
  else
    let ring := f.port / 2
    let r := recover (s.fsp.streams.find? (StreamSt.is ring f.source f.dest)) ring f.source f.dest f.seq s.time.now
    let s := s.upFsp fun q => { q with streams := r.1 :: q.streams.filter fun x => !x.is ring f.source f.dest }
    if r.2 then (s, true) else (s.fspCount 11, false)

/-! ## The ordered checks (04 Table 4.8) -/

/-- The peer of a PEER frame's pair id (04 R94). -/
def State.peerOf (s : State) (pairId : Nat) : Option PeerRec := s.conf.map.peers.find? fun p => p.pairId == pairId
/-- The frame is the START of ANNOUNCE. -/
def Fsp.isStart (f : Fsp) : Bool := f.kind == 10 && field f.payload 0 1 == 0x10
/-- Check 7 fails: an unknown START is also recorded, once per address in 60 s. -/
def State.unknownStation (f : Fsp) (s : State) : State :=
  let s := s.fspCount 6
  let recent := s.fsp.unknownAt.any fun e => e.1 == f.station && decide (s.time.now < e.2 + secTicks 60)
  if f.isStart && !recent then
    (s.upFsp fun q => { q with unknownAt := (f.station, s.time.now) :: q.unknownAt.filter fun e => e.1 != f.station }).record 0x1105 [(2, f.station)]
  else s
/-- A frame with FENCED set (04 R86): a later term on the owner ends its ownership (07 R161); a starting module learns it. -/
def State.fenced (f : Fsp) (s : State) : State :=
  let s := (s.fspCount 9).hearTerm f.term
  if s.pair.owner && serialAfter f.term s.pair.term then
    ((s.upCnt fun k => { k with fencedExits := inc32 k.fencedExits }).record 0x0206 []).safeHold 5
  else s
/-- Checks 1 to 8 and elimination: the frame goes on, or is discarded and counted. -/
def State.checkFrame (x : RxFrame) (s : State) : State × Option Fsp :=
  let b := x.bytes
  if !frameTagged b || bits (beNat (slice b 14 2)) 0 12 != s.conf.map.vid then (s.fspCount 0, none)
  else if !lengthOk b then (s.fspCount 1, none)
  else if !crcOk b then (s.fspCount 2, none)
  else
    let f := parseFsp x
    if f.version != 1 then (s.fspCount 3, none)
    else if !kindOk f.kind then (s.fspCount 4, none)
    else if !f.spare then (s.fspCount 5, none)
    else
      let (s, ok) := s.eliminate f
      if !ok then (s, none)
      else if (f.kind == 8 && (s.peerOf (field f.payload 0 4)).isNone) || (f.kind != 8 && (s.station f.station).isNone) then
        (s.unknownStation f, none)
      else if bit f.flags 1 then (s.fenced f, none)
      else (s, some f)
/-- A frame reaches the plant MACs: the die runs, they are on, the port's link is up, and the EtherType is FSP (04 R68). -/
def State.hears (x : RxFrame) (s : State) : Bool :=
  s.awake && !s.boot.coresOff && s.linkUp x.port && frameType x.bytes == s.conf.map.ethertype && s.addressed (parseFsp x)
/-- One received frame of a kind: the checks, then what the kind does. A frame of another kind belongs to another row. -/
def State.receive (kind : Nat) (k : Fsp → State → State) (x : RxFrame) (s : State) : State :=
  match s.checkFrame x with
  | (s, some f) => if f.kind = kind then k f s else s
  | (s, none) => s
/-- Check 9: the version is the sown one or the fallow one. -/
def State.versionKnown (f : Fsp) (s : State) : Bool :=
  f.cfg == s.conf.version || (s.cfg.fallow.present && f.cfg == s.cfg.fallow.cfg.version)

/-! ## Payloads (04 R75–R79) -/

/-- A range descriptor: FIRST, COUNT and STATUS. -/
def parseRange (w : Nat) : Nat × Nat × Nat := (bits w 16 16, bits w 7 9 + 1, bits w 0 7)
def rangeWord (first count : Nat) : Nat := first * 65536 + (count - 1) * 128
/-- The descriptors and item words of a READ_RSP: descriptors run until their counts account for the payload. -/
def splitRsp : Nat → List (Nat × Nat × Nat) → List Byte → Option (List (Nat × Nat × Nat) × List Byte)
  | 0, _, _ => none
  | n + 1, got, b =>
    let rest := b.drop 4
    let got := got ++ [parseRange (field b 0 4)]
    let words := (got.map fun r => r.2.1).sum
    if b.length < 4 then none
    else if rest.length = 4 * words then some (got, rest)
    else splitRsp n got rest
/-- The descriptors cover the requested ranges in order; a range may be split into consecutive descriptors (04 R76). -/
def coverRanges : List (Nat × Nat × Nat) → List (Nat × Nat) → Bool
  | [], [] => true
  | (f, n, _) :: ds, (g, m) :: want =>
    if f != g || m < n then false
    else if n = m then coverRanges ds want else coverRanges ds ((g + n, m - n) :: want)
  | _, _ => false
/-- The payload answers exactly the requested words, in order, in at most 8 descriptors (04 R76). -/
def parseRsp (ranges : List (Nat × Nat)) (b : List Byte) : Option (List (Nat × Nat × Nat) × List Byte) :=
  match splitRsp 8 [] b with
  | some (ds, ws) =>
    if (ds.all fun d => decide (d.2.1 ≤ 360) && decide (d.1 + d.2.1 ≤ 65536)) && coverRanges ds ranges then some (ds, ws) else none
  | none => none
/-- Every word of a READ_RSP with its address and its item status. -/
def rspWords : List (Nat × Nat × Nat) → List Byte → List (Nat × Nat × Word)
  | [], _ => []
  | (f, n, st) :: ds, b =>
    ((List.range n).map fun i => (f + i, (if st = 0 then 0 else 0x80 + st), BitVec.ofNat 32 (field b (4 * i) 4))) ++ rspWords ds (b.drop (4 * n))
/-- The payload of a READ_REQ: the ranges, and 0xFFFF_FFFF to eight (04 R76). -/
def readReqPayload (ranges : List (Nat × Nat)) : List Byte :=
  (ranges.flatMap fun r => leBytes 4 (rangeWord r.1 r.2)) ++ ((List.replicate (8 - ranges.length) (0xFFFFFFFF : Nat)).flatMap (leBytes 4))
/-- The payload of a WRITE: apply instant, descriptors, words (04 R78). -/
def writePayload (apply : Nat) (ranges : List (Nat × Nat)) (words : List Word) : List Byte :=
  leBytes 8 apply ++ (ranges.flatMap fun r => leBytes 4 (rangeWord r.1 r.2)) ++ wordBytes words

/-- FOREIGN_FRAME (04 R68): another EtherType, discarded and counted over all four ports. -/
def execForeignFrame (t : Nat) (f : RxFrame) (s : State) : Host.Outcome State Fault Refusal :=
  happens t s (fun s => s.awake && !s.boot.coresOff && s.linkUp f.port && frameType f.bytes != s.conf.map.ethertype && frameType f.bytes != 0x88F7)
    (State.fspCount 16)
/-- RECOVERY_RESET (04 R89): 10 ms without a frame on the stream. -/
def execRecoveryReset (t port source dest : Nat) (s : State) : Host.Outcome State Fault Refusal :=
  happens t s State.awake fun s =>
    s.upFsp fun q => { q with streams := q.streams.filter fun x => !(x.is port source dest && decide (x.lastAt + 2500000 ≤ s.time.now)) }

end Sys2Proof.Machine
end

