-- ==== Sys2Proof/Machine/Sched.lean ====
section
/-! DEFINITION. Timed actions: the schedule queue, dispatch, settling and cancellation (05). -/

namespace Sys2Proof.Machine

/-! ## Entries (05 Table 5.1) -/

/-- A schedule-queue entry. `state`: 0 FREE, 1 WAITING, 2 SENT, 3 QUEUED, 4 CANCELLING. -/
structure Entry where
  id : Nat
  handle : Nat
  state : Nat
  value : Word
  term : Nat
  apply : Nat
  retried : Bool
  cancelReq : Bool
  asap : Bool
  dispatch : Nat
  cls : Nat
  cycle : Nat

def parseEntry (b : List Byte) : Entry :=
  { id := field b 0 4, handle := field b 4 3, state := field b 7 1, value := BitVec.ofNat 32 (field b 8 4), term := field b 12 4,
    apply := field b 16 8, retried := bit (field b 24 1) 2, cancelReq := bit (field b 24 1) 1, asap := bit (field b 24 1) 0,
    dispatch := bits (field b 26 2) 0 10, cls := bits (field b 28 4) 30 2, cycle := bits (field b 28 4) 0 30 }
def entryBytes (e : Entry) : List Byte :=
  leBytes 4 e.id ++ leBytes 3 e.handle ++ leBytes 1 e.state ++ leBytes 4 e.value.toNat ++ leBytes 4 e.term ++ leBytes 8 e.apply ++
    leBytes 2 (b2n e.retried * 4 + b2n e.cancelReq * 2 + b2n e.asap) ++ leBytes 2 (e.dispatch % 1024) ++
    leBytes 4 (e.cls % 4 * 2 ^ 30 + e.cycle % 2 ^ 30)
/-- Entry n lies at 0x0880_0000 + 32 × n. -/
def entryAddr (n : Nat) : Nat := queueBase + 32 * n
def State.entry (s : State) (n : Nat) : Entry := parseEntry (memReadBytes s.mem (entryAddr n) 32)
def touch (n : Nat) (l : List Nat) : List Nat := if l.contains n then l else l ++ [n]
def State.setEntry (n : Nat) (e : Entry) (s : State) : State :=
  (s.upMem fun m => memStore (entryBytes e) (entryAddr n) m).upSched fun q => { q with touched := touch n q.touched }
/-- The place of an entry id. -/
def State.findEntry (s : State) (id : Nat) : Option Nat := s.sched.used.find? fun n => (s.entry n).id == id
/-- Insert into a rising list. -/
def insertRising (n : Nat) : List Nat → List Nat
  | [] => [n]
  | m :: ms => if n < m then n :: m :: ms else if n = m then m :: ms else m :: insertRising n ms
/-- The lowest number that a rising list from a bound leaves out. -/
def firstFree : Nat → List Nat → Nat
  | n, [] => n
  | n, m :: ms => if n < m then n else firstFree (m + 1) ms
/-- Whether a held entry targets the handle; TIMED shows it (05 R103). -/
def State.timedNow (s : State) (h : Nat) : Bool := s.sched.used.any fun n => (s.entry n).handle == h
def State.showTimed (h : Nat) (s : State) : State := s.upImg h fun g => { g with timed := s.timedNow h }

/-! ## Instants (05 R107, R111) -/

/-- LEAD in µs, 100 to 100,000 (log 7). -/
def State.leadUs (s : State) : Nat := 100 + Config.leadUs s.conf.version % 99901
/-- The last dispatch instant of an entry for its station. -/
def State.lastDispatch (s : State) (e : Entry) : Nat := e.apply - s.leadInNs (ruleStation (s.ruleOf e.handle))
def State.stationOf (s : State) (e : Entry) : Nat := ruleStation (s.ruleOf e.handle)
/-- Report deadline: APPLY + 100 µs + RTT_s. -/
def State.reportDeadline (s : State) (e : Entry) : Nat := e.apply + 100000 + psNs (s.rttPs (s.stationOf e))
def State.schedStation (s : State) (a : Nat) : SchedStation :=
  match s.sched.stations.find? fun x => x.station == a with | some x => x | none => { station := a, free := 256, nextNo := 0 }
def State.setSchedStation (x : SchedStation) (s : State) : State :=
  s.upSched fun q => { q with stations := x :: q.stations.filter fun y => y.station != x.station }
/-- held(s): entries in SENT, QUEUED or CANCELLING at a station. -/
def State.heldAt (s : State) (a : Nat) : Nat :=
  (s.sched.used.filter fun n => decide (2 ≤ (s.entry n).state) && s.stationOf (s.entry n) == a).length
/-- inflight(s): items in frames that have no SCHED_ACK. -/
def State.inflightAt (s : State) (a : Nat) : Nat :=
  ((s.sched.frames.filter fun f => f.station == a).map fun f => f.ids.length).sum

/-! ## Settling (05 R110) -/

/-- The outcome is counted, and appended to the ring of 8,192. -/
def State.outcome (id o stamp : Nat) (s : State) : State :=
  s.upSched fun q =>
    { q with outcomes := setAt q.outcomes o inc32, ring := (if 8192 ≤ q.ring.length then q.ring.drop 1 else q.ring) ++ [(id, o, stamp)] }
/-- LATE, MISSED, PAST, REFUSED, UNREPORTED and ORPHAN_EXECUTED are recorded, at most 100 times a second each. -/
def State.recordOutcome (o : Nat) (qs : List (Nat × Nat)) (s : State) : State :=
  if o = 1 || o = 2 || o = 3 || o = 4 || o = 8 || o = 9 then s.recordAtMost (0x050100 + o) 100 0x0501 qs else s
/-- The place becomes FREE. -/
def State.freeEntry (n : Nat) (s : State) : State :=
  let e := s.entry n
  ((s.upMem fun m => memStore (zeroBytes 32) (entryAddr n) m).upSched fun q =>
    { q with used := q.used.filter (· != n), touched := q.touched.filter (· != n), freed := q.freed ++ [e.id],
             causes := q.causes.filter fun c => c.1 != e.id, waited := q.waited.filter (· != e.id) }).showTimed e.handle
/-- A DIAG request to a station (04 R82): at most one is outstanding per station. -/
def State.sendDiag (a page : Nat) (forReq : Option Hdr) (forEntry : Option Nat) (s : State) : State :=
  let no := s.fsp.diagNo
  (s.upFsp fun q => { q with diagNo := (no + 1) % 1024,
                             diags := { station := a, number := no, page := page, forReq := forReq, forEntry := forEntry } :: q.diags }).toStation a
    { kind := 9, station := a, tag := no, cls := 0, cycle := 0, pending := false, retry := false, pcp := s.conf.map.pcp.getD 4 0,
      dest := [], payload := leBytes 2 page ++ leBytes 2 0 }
def State.diagBusy (s : State) (a : Nat) : Bool := s.fsp.diags.any fun d => d.station == a
/-- An entry settles with one outcome, which frees it; a cancelled one takes the cause of its cancellation. -/
def State.settle (n o stamp : Nat) (s : State) : State :=
  let e := s.entry n
  let o := if o = 5 then (match s.sched.causes.find? fun c => c.1 == e.id with | some c => c.2 | none => 5) else o
  let a := s.stationOf e
  let s := (s.freeEntry n).outcome e.id o stamp
  if o = 8 && !s.diagBusy a then s.sendDiag a 1 none (some e.id) else s.recordOutcome o [(4, e.id), (1, o), (8, stamp)]

/-! ## Frames out (05 R107, R108) -/

/-- A SCHED item (04 Table 4.5); the value goes in the raw format of the item. -/
def State.schedItem (s : State) (e : Entry) (cancel asap : Bool) : List Byte :=
  let r := s.ruleOf e.handle
  leBytes 4 e.id ++ leBytes 2 (ruleOffset r) ++ leBytes 2 (b2n cancel + 2 * b2n asap) ++
    leBytes 4 ((s.conf.outRaw r e.value).getD 0#32).toNat ++ leBytes 8 e.apply
/-- Send one SCHED frame and hold it for its acknowledgement. -/
def State.sendSched (a : Nat) (ids : List Nat) (cancel : Bool) (payload : List Byte) (latest : Option Nat) (s : State) : State :=
  let x := s.schedStation a
  let f : SchedFrame := { station := a, number := x.nextNo, term := s.pair.term, ids := ids, cancel := cancel, retried := false,
                          payload := payload, sentAt := s.time.now, latest := latest }
  ((s.setSchedStation { x with nextNo := (x.nextNo + 1) % 1024 }).upSched fun q => { q with frames := q.frames ++ [f] }).toStation a
    { kind := 5, station := a, tag := x.nextNo, cls := 0, cycle := 0, pending := false, retry := false, pcp := s.conf.map.pcp.getD 1 0,
      dest := [], payload := payload }
/-- The earlier of two instants, where there is one. -/
def earlier : Option Nat → Option Nat → Option Nat
  | some a, some b => some (min a b)
  | some a, none => some a
  | none, b => b
/-- Send the entries at some places to one station, 73 items to a frame. `re` clears ASAP (05 Table 5.5). -/
def State.sendEntries (a : Nat) (re : Bool) : Nat → List Nat → State → State
  | 0, _, s => s
  | fuel + 1, ns, s =>
    if ns.isEmpty then s
    else
      let now := ns.take 73
      let es := now.map s.entry
      let no := (s.schedStation a).nextNo
      let latest := es.foldl (fun l e => if e.asap && !re then l else earlier l (some (s.lastDispatch e))) none
      let payload := es.flatMap fun e => s.schedItem e false (e.asap && !re)
      let s := now.foldl (fun s n => s.setEntry n { s.entry n with state := 2, term := s.pair.term, dispatch := no, retried := false }) s
      (s.sendSched a (es.map fun e => e.id) false payload latest).sendEntries a re fuel (ns.drop 73)

/-- Order of dispatch: dispatch instant, then entry id under R7. -/
def Entry.before (a b : Entry) : Bool := decide (a.apply < b.apply) || (a.apply == b.apply && serialAfter b.id a.id)
def State.insertDue (s : State) (n : Nat) : List Nat → List Nat
  | [] => [n]
  | m :: ms => if (s.entry n).before (s.entry m) then n :: m :: ms else m :: s.insertDue n ms
/-- The WAITING entries whose dispatch instant has come, in order. -/
def State.due (s : State) : List Nat :=
  (s.sched.used.filter fun n => (s.entry n).state == 1 && decide ((s.entry n).apply ≤ s.tb0 + 1000 * s.leadUs)).foldl (fun l n => s.insertDue n l) []
/-- An entry in a word with an uncorrectable error: skipped until its last dispatch instant has passed (12 Table 12.1). -/
def State.entryBad (s : State) (n : Nat) : Bool := s.mem.bad.any fun w => decide (entryAddr n ≤ w) && decide (w < entryAddr n + 32)
/-- One due entry (05 R107): discarded, settled LATE, kept waiting, or put with those to be sent. -/
def State.evalEntry (acc : State × List (Nat × Nat)) (n : Nat) : State × List (Nat × Nat) :=
  let s := acc.1
  let e := s.entry n
  let a := s.stationOf e
  let g := s.img e.handle
  let going := (acc.2.filter fun p => p.1 == a).length
  if s.entryBad n then (if s.lastDispatch e < s.tb0 then (s.settle n 2 0, acc.2) else acc)
  else if g.forced || g.simulated then (s.settle n 6 0, acc.2)
  else if s.lastDispatch e < s.tb0 && !e.asap then (s.settle n 2 0, acc.2)
  else if 256 ≤ s.heldAt a + going || (s.schedStation a).free ≤ s.inflightAt a + going then
    (if s.sched.waited.contains e.id then s
     else s.upSched fun q => { q with waited := e.id :: q.waited, fullWaits := inc32 q.fullWaits }, acc.2)
  else (s, acc.2 ++ [(a, n)])
/-- The stations of a list, each once. -/
def stationsOf : List (Nat × Nat) → List Nat
  | [] => []
  | p :: ps => if (stationsOf ps).contains p.1 then stationsOf ps else p.1 :: stationsOf ps
def State.sendAll (re : Bool) (going : List (Nat × Nat)) (s : State) : State :=
  (stationsOf going).foldl (fun s a => s.sendEntries a re going.length ((going.filter fun p => p.1 == a).map fun p => p.2)) s
/-- The evaluation of one µs (05 R107). -/
def State.evaluate (s : State) : State :=
  let r := s.due.foldl State.evalEntry (s, [])
  r.1.sendAll false r.2

/-! ## Calls (05 R104, R105, R111, R112) -/

/-- The next id: 0 and ids that an entry holds are skipped. -/
def State.allocId (s : State) : Nat → Nat → Nat
  | 0, id => id
  | fuel + 1, id => if id = 0 || (s.findEntry id).isSome then s.allocId fuel ((id + 1) % 2 ^ 32) else id
/-- A usable timed-capable point (05 R98). -/
def State.timedPoint (s : State) (h : Nat) : Bool :=
  let r := s.ruleOf h
  s.declared h && ruleTimed r && ruleIsOut r && (match s.station (ruleStation r) with | some x => bit x.flags 0 | none => false)
/-- The checks of Table 5.2, in order: the failure status, or none. -/
def State.putRefusal (s : State) (h : Nat) (value : Word) (apply : Nat) (asap : Bool) : Option Nat :=
  if !s.timedPoint h then some stRange
  else if (s.conf.outRaw (s.ruleOf h) value).isNone then some stRange
  else if s.tb0 + 3600000000000 < apply then some stRange
  else if apply ≤ (s.cyc.cls.getD (ruleClass (s.ruleOf h)) ClassSt.reset).heldApply then some stTooLate
  else if apply < s.tb0 + 1000 * s.leadUs && !asap then some stTooLate
  else if 65536 ≤ s.sched.used.length then some stCapacity
  else none
/-- sched_put (05 R104, R105). -/
def State.schedPut (cls h : Nat) (value : Word) (apply : Nat) (asap : Bool) (s : State) : State :=
  match s.putRefusal h value apply asap with
  | some st =>
    (s.upSched fun q => { q with tooLate := if st = stTooLate then inc32 q.tooLate else q.tooLate,
                                 capacity := if st = stCapacity then inc32 q.capacity else q.capacity }).ret st []
  | none =>
    let id := s.allocId (s.sched.used.length + 2) s.sched.nextId
    let n := firstFree 0 s.sched.used
    let e : Entry := { id := id, handle := h, state := 1, value := value, term := 0, apply := apply, retried := false, cancelReq := false,
                       asap := asap, dispatch := 0, cls := cls, cycle := (s.cyc.cls.getD cls ClassSt.reset).cycle }
    let s := (s.setEntry n e).upSched fun q =>
      { q with used := insertRising n q.used, nextId := (id + 1) % 2 ^ 32, peak := max q.peak (q.used.length + 1) }
    (s.showTimed h).ret stOk [id]
/-- Cancel the entry at a place under R112, with the outcome it takes when the cancellation succeeds; the status of the call. -/
def State.cancelEntry (n cause : Nat) (s : State) : State × Nat :=
  let e := s.entry n
  let s := s.upSched fun q => { q with causes := (e.id, cause) :: q.causes.filter fun c => c.1 != e.id }
  if e.state = 1 then (s.settle n 5 0, stOk)
  else if e.state = 4 then (s, stBusy)
  else if s.lastDispatch e < s.tb0 then
    (s.upSched fun q => { q with causes := q.causes.filter fun c => c.1 != e.id }, stTooLate)
  else
    let a := s.stationOf e
    let payload := s.schedItem e true false
    let no := (s.schedStation a).nextNo
    ((s.setEntry n { e with state := 4, cancelReq := true, dispatch := no }).sendSched a [e.id] true payload (some (s.lastDispatch e)), stAccepted)
def State.schedCancel (id : Nat) (s : State) : State :=
  match s.findEntry id with
  | none => s.ret stUnknown []
  | some n =>
    let r := s.cancelEntry n 5
    (if r.2 = stTooLate then r.1.upSched fun q => { q with tooLate := inc32 q.tooLate } else r.1).ret r.2 []
/-- sched_status (05 R111). -/
def State.schedStatus (id : Nat) (s : State) : State :=
  match s.findEntry id with
  | some n => s.ret stOk [(s.entry n).state]
  | none =>
    match s.sched.ring.reverse.find? fun r => r.1 == id with
    | some r => s.ret stOk [r.1, r.2.1, r.2.2]
    | none => s.ret stUnknown []
/-- Every entry on a handle is cancelled with a cause (05 R113, R115). -/
def State.cancelHandle (h cause : Nat) (s : State) : State :=
  (s.sched.used.filter fun n => (s.entry n).handle == h).foldl (fun s n => if (s.entry n).state = 4 then s else (s.cancelEntry n cause).1) s

/-! ## Answers (05 R108–R110) -/

/-- One item of a SCHED_ACK (05 Table 5.3). -/
def State.ackItem (a : Nat) (it : Nat × Nat) (s : State) : State :=
  let (id, result) := it
  let dropHeard (s : State) : State := s.upSched fun q => { q with heard := q.heard.filter fun h => h.1 != id }
  match s.findEntry id with
  | none =>
    if s.sched.heard.any (fun h => h.1 == id && h.2 == a) && (result = 4 || result = 5) then
      dropHeard (if result = 4 then s.upSched fun q => { q with orphansCancelled := inc32 q.orphansCancelled } else s)
    else if !s.pair.owner && result = 0 then s.upSched fun q => { q with heard := (id, a) :: q.heard.filter fun h => h.1 != id } else s
  | some n =>
    let e := s.entry n
    match result with
    | 2 => s.setEntry n { e with state := 1 }
    | 3 => s.settle n 3 0
    | 4 => s.settle n 5 0
    | 5 => s
    | 6 => s.settle n 4 0
    | 7 => s.settle n 4 0
    | _ => if e.state = 4 then s else s.setEntry n { e with state := 3 }
/-- The items of a SCHED_ACK payload, where it fits its kind (04 R80). -/
def parseSchedAck (b : List Byte) : Option (Nat × List (Nat × Nat)) :=
  let n := (b.length - 4) / 8
  let items := (chunks 8 n (b.drop 4)).map fun i => (field i 0 4, field i 4 1)
  if b.length = 4 + 8 * n && 1 ≤ n && n ≤ 73 && field b 0 2 ≤ 256 && zeros b 2 2 && (items.all fun i => decide (i.2 ≤ 7)) &&
      ((chunks 8 n (b.drop 4)).all fun i => zeros i 5 3) then some (field b 0 2, items)
  else none
/-- A SCHED_ACK (05 R108, R109): the owner matches it to a dispatch; the STANDBY applies it to its copy of the queue. -/
def State.schedAck (f : Fsp) (s : State) : State :=
  if !s.versionKnown f then s.fspCount 7
  else if f.term != s.pair.term then s.upCyc fun c => { c with unmatched := inc32 c.unmatched }
  else
    let frame := s.sched.frames.find? fun x => x.station == f.station && x.number == f.tag && x.term == f.term
    match parseSchedAck f.payload with
    | none => if s.pair.owner && frame.isNone then s.upCyc fun c => { c with unmatched := inc32 c.unmatched } else s.fspCount 15
    | some (free, items) =>
      if s.pair.owner then
        match frame with
        | none => s.upCyc fun c => { c with unmatched := inc32 c.unmatched }
        | some x =>
          if items.map (fun i => i.1) != x.ids then s.fspCount 15
          else
            let s := (s.setSchedStation { s.schedStation f.station with free := free }).upSched fun q =>
              { q with frames := q.frames.filter fun y => !(y.station == x.station && y.number == x.number) }
            items.foldl (fun s i => s.ackItem f.station i) s
      else items.foldl (fun s i => s.ackItem f.station i) s
/-- The items of a PUBLISH payload (04 R81): id, outcome, stamp. -/
def parsePublish (b : List Byte) : Option (List (Nat × Nat × Nat)) :=
  let n := b.length / 16
  let cs := chunks 16 n b
  if b.length = 16 * n && 1 ≤ n && n ≤ 92 && (cs.all fun i => decide (field i 4 1 ≤ 1) && zeros i 5 3) then
    some (cs.map fun i => (field i 0 4, field i 4 1, field i 8 8))
  else none
/-- One report (05 R110, R114): the value of an executed entry becomes the image's, a forced VALUE excepted (02 R41). -/
def State.report (a : Nat) (it : Nat × Nat × Nat) (s : State) : State :=
  let (id, outcome, stamp) := it
  let s := s.upSched fun q => { q with heard := q.heard.filter fun h => h.1 != id }
  match s.findEntry id with
  | some n =>
    let e := s.entry n
    if outcome = 0 then
      (s.upImg e.handle fun g => ({ g with value := if g.forced then g.value else e.value, age := 0 }).withQuality 0).settle n 0 stamp
    else s.settle n 1 0
  | none =>
    if outcome = 0 && s.pair.owner then
      (s.outcome id 9 stamp).recordOutcome 9 [(2, a), (4, id), (8, stamp)]
    else s
def State.publishReport (f : Fsp) (s : State) : State :=
  match parsePublish f.payload with
  | none => s.fspCount 15
  | some items => items.foldl (fun s i => s.report f.station i) s
/-- No SCHED_ACK within RTT_s (05 R108): one repeat, while it can still arrive in time; then the items leave the flight. -/
def State.retrySched (a no : Nat) (s : State) : State :=
  match s.sched.frames.find? fun x => x.station == a && x.number == no with
  | none => s
  | some x =>
    if s.time.now < x.sentAt + psTicks (s.rttPs a) then s
    else
      let rest := s.sched.frames.filter fun y => !(y.station == a && y.number == no)
      let inTime := match x.latest with | some l => decide (s.tb0 ≤ l) | none => true
      if x.retried || !inTime then s.upSched fun q => { q with frames := rest }
      else
        let s := x.ids.foldl (fun s id => match s.findEntry id with | some n => s.setEntry n { s.entry n with retried := true } | none => s) s
        (s.upSched fun q => { q with frames := rest ++ [{ x with retried := true, sentAt := s.time.now }] }).toStation a
          { kind := 5, station := a, tag := no, cls := 0, cycle := 0, pending := false, retry := true, pcp := s.conf.map.pcp.getD 1 0,
            dest := [], payload := x.payload }

/-! ## Across a takeover (05 R114) -/

/-- SENT and QUEUED entries that can still arrive in time are sent again under the new term, with ASAP cleared. -/
def State.redispatch (s : State) : State :=
  let going := (s.sched.used.filter fun n => ((s.entry n).state == 2 || (s.entry n).state == 3) && decide (s.tb0 ≤ s.lastDispatch (s.entry n))).map
    fun n => (s.stationOf (s.entry n), n)
  s.sendAll true going
/-- One cancel item for each heard id that the queue does not hold. -/
def State.cancelOrphans (s : State) : State :=
  (s.sched.heard.filter fun h => (s.findEntry h.1).isNone).foldl (fun s h =>
    s.sendSched h.2 [h.1] true (leBytes 4 h.1 ++ leBytes 2 0 ++ leBytes 2 1 ++ leBytes 4 0 ++ leBytes 8 0) none) s
/-- What a checkpoint ships of the queue: changed entries, and freed ones with their ids (07 Table 7.3). -/
def State.changedEntries (s : State) : List (List Byte) :=
  (s.sched.touched.map fun n => memReadBytes s.mem (entryAddr n) 32) ++ s.sched.freed.map fun id => padTo 32 (leBytes 4 id)
/-- One schedule record of a checkpoint: located by ENTRY_ID (07 R153). -/
def State.takeEntry (b : List Byte) (s : State) : State :=
  let e := parseEntry b
  match s.findEntry e.id with
  | some n =>
    if e.state = 0 then
      ((s.upMem fun m => memStore (zeroBytes 32) (entryAddr n) m).upSched fun q => { q with used := q.used.filter (· != n) }).showTimed (s.entry n).handle
    else s.setEntry n e
  | none =>
    if e.state = 0 then s
    else
      let n := firstFree 0 s.sched.used
      ((s.setEntry n e).upSched fun q => { q with used := insertRising n q.used, heard := q.heard.filter fun h => h.1 != e.id }).showTimed e.handle

/-! ## The meanings -/

/-- SCHED_PUT (05 R104). Tasks run on the owner. -/
def execSchedPut (t cls handle : Nat) (value : Word) (apply : Nat) (asap : Bool) (s : State) : Host.Outcome State Fault Refusal :=
  happens t s (fun s => s.pair.owner) (State.schedPut cls handle value apply asap)
def execSchedCancel (t id : Nat) (s : State) : Host.Outcome State Fault Refusal := happens t s (fun s => s.pair.owner) (State.schedCancel id)
def execSchedStatus (t id : Nat) (s : State) : Host.Outcome State Fault Refusal := happens t s (fun s => s.pair.owner) (State.schedStatus id)
/-- SCHED_EVALUATION (05 R107): the owner dispatches. -/
def execSchedEvaluation (t : Nat) (s : State) : Host.Outcome State Fault Refusal := happens t s (fun s => s.pair.owner) State.evaluate
def execSchedRetryTimeout (t station dispatch : Nat) (s : State) : Host.Outcome State Fault Refusal :=
  happens t s (fun s => s.pair.owner) (State.retrySched station dispatch)
/-- SCHED_ACK (05 R109): heard by both twins. -/
def execSchedAck (t : Nat) (f : RxFrame) (s : State) : Host.Outcome State Fault Refusal :=
  happens t s (State.hears f) (State.receive 6 State.schedAck f)
/-- PUBLISH (05 R110): heard by both twins. -/
def execPublish (t : Nat) (f : RxFrame) (s : State) : Host.Outcome State Fault Refusal :=
  happens t s (State.hears f) (State.receive 7 State.publishReport f)
/-- REPORT_DEADLINE_EXPIRY (05 R111). -/
def execReportDeadlineExpiry (t id : Nat) (s : State) : Host.Outcome State Fault Refusal :=
  happens t s (fun s => s.pair.owner) fun s =>
    match s.findEntry id with
    | some n => if 2 ≤ (s.entry n).state && s.reportDeadline (s.entry n) ≤ s.tb0 then s.settle n 8 0 else s
    | none => s

end Sys2Proof.Machine
end

