-- ==== Sys2Proof/Machine/Cycles.lean ====
section
/-! DEFINITION. Cycle classes and the transaction engine (03): issue, completion, publication, outputs; checkpoints shipped and
heard frames kept (07 R153, R154); the re-run of cycles after a takeover (07 R164); PEER, BIND and ANNOUNCE frames (04). -/

namespace Sys2Proof.Machine

/-! ## A class and its transactions -/

def State.cl (s : State) (x : Nat) : ClassSt := s.cyc.cls.getD x ClassSt.reset
def State.setCl (x : Nat) (f : ClassSt → ClassSt) (s : State) : State := s.upCyc fun c => { c with cls := setAt c.cls x f }
def State.periodNs (s : State) (x : Nat) : Nat := 1000 * (s.classRec x).periodUs
/-- t0 + DL. -/
def State.deadline (s : State) (x : Nat) : Nat := (s.cl x).t0 + 1000 * (s.classRec x).deadlineUs
/-- t0 + A. -/
def State.applyAt (s : State) (x : Nat) : Nat := (s.cl x).t0 + 1000 * (s.classRec x).applyUs
/-- Transactions of a class; the position among the reads is the transaction index (10 R221). -/
def Cfg.transOf (c : Cfg) (x : Nat) (write : Bool) : List TransRec := c.trans.filter fun t => t.cls == x && t.isWrite == write
def TransRec.used (t : TransRec) : List (Nat × Nat) := t.ranges.take t.count
def TransRec.covers (t : TransRec) (w : Nat) : Bool := t.used.any fun r => decide (r.1 ≤ w) && decide (w < r.1 + r.2)
/-- The points whose items a transaction carries. -/
def Cfg.itemsOf (c : Cfg) (t : TransRec) : List PointRec :=
  c.pointsWhere fun p => ruleKind p.rule != 0 && ruleKind p.rule != 10 && ruleStation p.rule == t.station && ruleClass p.rule == t.cls &&
    ruleIsOut p.rule == t.isWrite && t.covers (c.firstWord p.rule)
/-- Input points of a class that use no tags: local channels and PEER (03 R55). -/
def Cfg.tagless (c : Cfg) (x : Nat) : List PointRec :=
  c.pointsWhere fun p => ruleKind p.rule != 0 && (ruleStation p.rule == 0 || ruleKind p.rule == 10) && !ruleIsOut p.rule && ruleClass p.rule == x
/-- Local inputs whose completion is awaited: a CAN latch completes at t0, and a PEER value is fixed there (03 R59, 16 R356). -/
def Cfg.awaited (c : Cfg) (x : Nat) : List PointRec :=
  (c.tagless x).filter fun p => ruleKind p.rule != 10 && decide (ruleOffset p.rule < 0x200)
/-- Output points of a class. -/
def Cfg.outputsOf (c : Cfg) (x : Nat) : List PointRec :=
  c.pointsWhere fun p => ruleKind p.rule != 0 && ruleIsOut p.rule && ruleClass p.rule == x && ruleKind p.rule != 10
def Cfg.hasTasks (c : Cfg) (x : Nat) : Bool := c.tasks.any fun t => t.cls == x

def insertBy {α : Type} (before : α → α → Bool) (a : α) : List α → List α
  | [] => [a]
  | b :: bs => if before b a then b :: insertBy before a bs else a :: b :: bs
/-- Sort by a strict order, keeping the order of equal elements. -/
def sortBy {α : Type} (before : α → α → Bool) (xs : List α) : List α := xs.foldr (insertBy before) []
/-- Decreasing RTT_s, ties by ascending station address (03 R55). -/
def State.issuedBefore (s : State) (a b : Nat) : Bool :=
  decide (s.rttPs b < s.rttPs a) || (s.rttPs a == s.rttPs b && decide (a < b))
def State.issueOrder (s : State) (ts : List TransRec) : List Nat :=
  let st (i : Nat) : Nat := match ts[i]? with | some t => t.station | none => 0
  sortBy (fun i j => s.issuedBefore (st i) (st j)) (List.range ts.length)

/-! ## Applications (02 R45, Table 2.12; log 37) -/

/-- Applications that one cycle of a point costs. -/
def Cfg.weight (c : Cfg) (h : Nat) (r : Word64) : Nat :=
  match ruleKind r with | 8 => 2 | 9 => 1 + ceilDiv (c.capacity h) 64 | _ => 1
def PointSt.countApps (sec ms n : Nat) (p : PointSt) : PointSt :=
  let inMs := (if p.rateMs = ms then p.rateMsCount else 0) + n
  { p with rateLast := if p.rateSec = sec then p.rateLast else if p.rateSec + 1 = sec then sat32 p.rateCount else 0, rateSec := sec,
           rateCount := (if p.rateSec = sec then p.rateCount else 0) + n, rateMs := ms, rateMsCount := inMs,
           ratePeak := max p.ratePeak (sat32 (1000 * inMs)) }
def State.countApps (n : Nat) (s : State) : State := s.upPts (PointSt.countApps s.tb3s (s.tb3ns / 1000000) n)

/-! ## Tags and issue (03 R54–R58) -/

/-- The class's tags follow those of the faster classes. -/
def State.quotaBase (s : State) (x : Nat) : Nat := ((s.conf.classes.take x).map fun c => c.quota).sum
def State.freeTag (s : State) (x : Nat) : Option Nat :=
  ((List.range (s.classRec x).quota).map (s.quotaBase x + ·)).find? fun t => !((s.cl x).held.any fun f => f.tag == t)
/-- Issue one READ_REQ. -/
def State.issueRead (x idx tag : Nat) (s : State) : State :=
  match (s.conf.transOf x false)[idx]? with
  | none => s
  | some t =>
    let f : Flight := { idx := idx, cls := x, tag := tag, station := t.station, isWrite := false, cycle := (s.cl x).cycle,
                        version := s.conf.version, issued := s.time.now, retried := false, apply := 0, ranges := t.used, carried := [], words := [] }
    (s.setCl x fun c => { c with held := c.held ++ [f] }).toStation t.station
      { kind := 1, station := 0, tag := tag, cls := x, cycle := f.cycle, pending := false, retry := false, pcp := s.pcpOf x, dest := [],
        payload := readReqPayload f.ranges }
def State.sendWrite (f : Flight) (retry : Bool) (s : State) : State :=
  s.toStation f.station
    { kind := 3, station := 0, tag := f.tag, cls := f.cls, cycle := f.cycle, pending := false, retry := retry, pcp := s.pcpOf f.cls, dest := [],
      payload := writePayload f.apply f.ranges f.words }
/-- Issue one WRITE. -/
def State.issueWrite (x tag : Nat) (f : Flight) (s : State) : State :=
  let f := { f with tag := tag, issued := s.time.now }
  (s.setCl x fun c => { c with held := c.held ++ [f] }).sendWrite f false
/-- The wait for a tag ends and is added to TAG_WAIT_NS. -/
def ClassSt.endWait (now : Nat) (c : ClassSt) : ClassSt :=
  match c.waitFrom with
  | some a => { c with tagWait := sat32 (c.tagWait + tickNs (now - a)), waitFrom := none }
  | none => c
/-- Issue while a tag is free; without one the class waits. -/
def State.issue (x : Nat) : Nat → State → State
  | 0, s => s
  | fuel + 1, s =>
    let c := s.cl x
    if c.toIssue.isEmpty && c.toWrite.isEmpty then s
    else match s.freeTag x with
      | none => s.setCl x fun c => { c with waitFrom := some (c.waitFrom.getD s.time.now) }
      | some tag =>
        let s := s.setCl x (ClassSt.endWait s.time.now)
        match c.toIssue, c.toWrite with
        | i :: rest, _ => ((s.setCl x fun c => { c with toIssue := rest }).issueRead x i tag).issue x fuel
        | [], f :: rest => ((s.setCl x fun c => { c with toWrite := rest }).issueWrite x tag f).issue x fuel
        | [], [] => s
def State.pump (x : Nat) (s : State) : State := s.issue x ((s.cl x).toIssue.length + (s.cl x).toWrite.length)

/-! ## Items (02 R32, R44; 16 R356) -/

/-- Bytes as words. -/
def bytesWords (b : List Byte) : List Word := (chunks 4 ((b.length + 3) / 4) b).map fun c => BitVec.ofNat 32 (leNat c)
/-- A publication item in use for the cycle (02 R44). -/
def State.takePeer (h : Nat) (quality : Nat) (v : Word) (s : State) : State :=
  let same := s.published h
  (s.upImg h fun g =>
    if g.forced || g.simulated then g.good g.value false same
    else { g with value := v, quality := quality, age := 0, held := false, changed := v != same, stamped := false }).clearBefore h
/-- One item: a status below 0x100 is a station's or channel's, 0x100 + q a publication item of quality q, and 0x200 + n a
record of n bytes for a BLOCK slot. -/
def State.completeItem (it : Nat × Nat × List Word) (s : State) : State :=
  let (h, status, words) := it
  let r := s.ruleOf h
  if status < 0x100 then s.complete h r status words
  else if status < 0x200 then s.takePeer h (status - 0x100) (words.getD 0 0#32)
  else s.completeSlot h r ((wordBytes words).take (status - 0x200))
/-- The items that t0 fixes: receive buffers with a new frame, and publications received since the previous t0. -/
def State.t0Items (s : State) (x prev : Nat) : List (Nat × Nat × List Word) :=
  ((s.conf.canInputs x).filterMap fun (h, _, n, b) =>
    ((s.canCh n).fresh b).map fun r =>
      let bytes := r.bytes (s.conf.capacity h - 16)
      (h, 0x200 + bytes.length, bytesWords bytes)) ++
  ((s.conf.tagless x).filter fun p => ruleKind p.rule == 10).filterMap fun p =>
    (s.pts.peers.find? fun i => i.peer == bits (ruleStation p.rule) 0 6 && i.item == ruleOffset p.rule && decide (prev ≤ i.at_)).map fun i =>
      (p.handle, 0x100 + i.quality, [i.value])
def State.latchCan (x : Nat) (s : State) : State :=
  (s.conf.canInputs x).foldl (fun s e => s.setCan e.2.2.1 (CanCh.latch e.2.2.2)) s
/-- The items that a READ_RSP carries for a transaction: a value of several words has the first bad status among them. -/
def Cfg.rspItems (c : Cfg) (t : TransRec) (words : List (Nat × Nat × Word)) : List (Nat × Nat × List Word) :=
  (c.itemsOf t).map fun p =>
    let a := c.firstWord p.rule
    let ws := words.filter fun w => decide (a ≤ w.1) && decide (w.1 < a + c.itemWords p.handle p.rule)
    (p.handle, (match ws.find? fun w => w.2.1 != 0 with | some w => w.2.1 | none => 0), ws.map fun w => w.2.2)
/-- Weight of some items. -/
def State.itemWeight (s : State) (items : List (Nat × Nat × List Word)) : Nat := (items.map fun i => s.conf.weight i.1 (s.ruleOf i.1)).sum

/-! ## What the STANDBY hears (07 R154) -/

/-- One item through the STANDBY's own point engine into the epoch shadow: its image keeps the published entry. -/
def State.shot (it : Nat × Nat × List Word) (s : State) : State :=
  let old := s.image it.1
  let s := s.completeItem it
  let e := s.image it.1
  ((s.setImage it.1 old).upMem fun m => memWriteN m (shadowAddr it.1) 4 (imgOf e).value.toNat).upCyc fun c =>
    { c with newShots := (it.1, e) :: c.newShots.filter fun p => p.1 != it.1 }
def State.shadowIn (e : Heard) (s : State) : State :=
  let s := e.items.foldl (fun s i => s.shot i) (s.countApps (s.itemWeight e.items))
  match e.idx with
  | some i => s.upCyc fun c => { c with shadow := (e.cls, i, e.at_) :: c.shadow.filter fun p => !(p.1 == e.cls && p.2.1 == i) }
  | none => s
/-- Items for the cycle after the last applied checkpoint go into the shadow, later ones into the journal. -/
def State.hear (e : Heard) (s : State) : State :=
  match s.cnt.applied.getD e.cls none with
  | some k =>
    if e.cycle % 2 ^ 32 = (k + 1) % 2 ^ 32 then s.shadowIn e
    else if serialAfter e.cycle k then s.upCyc fun c => { c with journal := c.journal ++ [e] } else s
  | none => s.upCyc fun c => { c with journal := c.journal ++ [e] }
/-- The journal of one cycle, with what arrived by an instant, goes into the shadow. -/
def State.replay (x cycle by_ : Nat) (s : State) : State :=
  let mine := s.cyc.journal.filter fun e => e.cls == x && e.cycle % 2 ^ 32 == cycle % 2 ^ 32
  let s := s.upCyc fun c => { c with journal := c.journal.filter fun e => !(e.cls == x && e.cycle % 2 ^ 32 == cycle % 2 ^ 32) }
  (mine.filter fun e => decide (e.at_ ≤ by_)).foldl (fun s e => s.shadowIn e) s
def State.followsOwner (s : State) : Bool := s.power.mode == 3 || s.power.mode == 4

/-! ## Start of a cycle (03 R48, R52, R60) -/

/-- Completions of inputs that use no tags: on the owner at once, on the STANDBY by its shadow. -/
def State.deliver (x : Nat) (items : List (Nat × Nat × List Word)) (s : State) : State :=
  let s := s.setCl x fun c => { c with localDone := c.localDone ++ items.map fun i => i.1 }
  if s.pair.owner then items.foldl (fun s i => s.completeItem i) (s.countApps (s.itemWeight items))
  else if items.isEmpty then s
  else s.hear { cls := x, cycle := (s.cl x).cycle % 2 ^ 32, idx := none, at_ := s.tb0, items := items }
/-- Local inputs are latched at t0 and the received publications fixed (03 Table 3.3). -/
def State.latchLocal (x prev : Nat) (s : State) : State :=
  let items := s.t0Items x prev
  let s := (s.latchUa x).latchCan x
  let s := if x = 0 then s.upCan (List.map CanCh.freeConsumed) else s
  s.deliver x items
/-- Cycle k of a class starts. A class-A start folds the cores (09 R203, R204). -/
def State.startCycle (x : Nat) (s : State) : State :=
  let k := s.tb0 / s.periodNs x
  let prev := (s.cl x).t0
  let s := if x = 0 then s.fold else s
  if s.power.mode = 2 then s
  else
    let own := s.pair.owner
    let order := if own then s.issueOrder (s.conf.transOf x false) else []
    let s := s.setCl x fun c =>
      { c with cycle := k, t0 := k * s.periodNs x, phase := if own then 1 else 0, pubWord := if own then (2 * k + 1) % 2 ^ 32 else c.pubWord,
               tagWait := 0, waitFrom := none, done := [], localDone := [], written := false, overran := false, toIssue := order }
    (s.latchLocal x prev).pump x
def State.mayStart (s : State) (x : Nat) : Bool :=
  let k := s.tb0 / s.periodNs x
  let c := s.cl x
  s.tb0Valid && decide (x < 4) && decide (0 < s.periodNs x) && !s.boot.retiring &&
    ((s.pair.owner && s.pair.confirmed && decide (c.notBefore ≤ k * s.periodNs x) && c.cycle != k && c.phase != 1 && c.rerunTo.isNone) ||
      (s.followsOwner && c.cycle != k) || (s.power.mode == 2 && x == 0))

/-! ## Completion (03 R56; 04 Table 4.8, checks 9 to 13) -/

def State.dropLate (s : State) : State := s.upCyc fun c => { c with lateDrops := inc32 c.lateDrops }
def State.dropUnmatched (s : State) : State := s.upCyc fun c => { c with unmatched := inc32 c.unmatched }
/-- The key of a completed transaction. -/
def doneKey (f : Fsp) : Nat × Nat × Nat := (f.tag + 1024 * f.station, f.cls * 16 + f.kind, f.cycle)
/-- Table 3.4: late, old configuration, duplicate, unmatched, in this order. `late` is the part of the first row that the kind
decides. -/
def State.dropFrame (late : Bool) (f : Fsp) (s : State) : State :=
  if late then s.dropLate
  else if f.cfg != s.conf.version then s.upCyc fun c => { c with oldCfgDrops := inc32 c.oldCfgDrops }
  else if s.cyc.completed.contains (doneKey f) then s.upCyc fun c => { c with dupDrops := inc32 c.dupDrops }
  else s.dropUnmatched
/-- Checks 9 and 10. -/
def State.checkTerm (f : Fsp) (k : State → State) (s : State) : State :=
  if !s.versionKnown f then s.fspCount 7 else if f.term != s.pair.term then s.fspCount 8 else k s
def State.countStatuses (ds : List (Nat × Nat × Nat)) (s : State) : State :=
  let n := (ds.filter fun d => d.2.2 != 0 && !statusAllowed (0x80 + d.2.2)).length
  s.upPts fun p => { p with itemInvalid := add32 p.itemInvalid n }
/-- A READ_RSP on the owner. -/
def State.ownRsp (f : Fsp) (s : State) : State :=
  let c := s.cl f.cls
  let late := serialAfter c.cycle f.cycle || (f.cycle == c.cycle % 2 ^ 32 && c.phase != 1)
  match c.held.find? fun h => !h.isWrite && h.tag == f.tag && h.station == f.station && h.cycle % 2 ^ 32 == f.cycle && h.version == f.cfg with
  | none => s.dropFrame late f
  | some h =>
    if late then s.dropLate
    else match parseRsp h.ranges f.payload, (s.conf.transOf f.cls false)[h.idx]? with
      | some (ds, ws), some t =>
        let items := s.conf.rspItems t (rspWords ds ws)
        let s := s.setCl f.cls fun c =>
          { c with held := c.held.filter fun g => g.tag != h.tag, done := c.done ++ [(h.idx, if h.retried then 1 else 0)] }
        let s := (s.upCyc fun c => { c with completed := doneKey f :: c.completed }).countStatuses ds
        (items.foldl (fun s i => s.completeItem i) (s.countApps (s.itemWeight items))).pump f.cls
      | _, _ => s.fspCount 15
/-- A READ_RSP on the STANDBY, which knows no tags: the read of the station whose ranges it answers. -/
def State.heardRsp (f : Fsp) (s : State) : State :=
  let ts := s.conf.transOf f.cls false
  let hits := (List.range ts.length).filterMap fun i =>
    match ts[i]? with
    | some t => if t.station = f.station then (parseRsp t.used f.payload).map fun p => (i, t, p) else none
    | none => none
  match hits with
  | [] => s.dropUnmatched
  | (i, t, ds, ws) :: _ =>
    (s.countStatuses ds).hear { cls := f.cls, cycle := f.cycle, idx := some i, at_ := s.tb0, items := s.conf.rspItems t (rspWords ds ws) }
def State.readRsp (f : Fsp) (s : State) : State :=
  s.checkTerm f fun s =>
    if s.pair.owner then s.ownRsp f else if s.followsOwner && f.cfg == s.conf.version then s.heardRsp f else s.dropUnmatched

/-- A completion of a local channel (14 R319, 15 R333): its point, status and words; an analogue channel delivers what it latched
at t0, and DIO15 its capture record (14 R327). -/
def State.localItem (s : State) (p : PointRec) (status : Nat) (item : List Word) : Option (Nat × Nat × List Word) :=
  let off := ruleOffset p.rule
  if off < 16 then
    let st := if s.dioInStatus off != 0 then s.dioInStatus off else status
    some (p.handle, st, if ruleKind p.rule = 8 then
      bytesWords (stampSlot (s.time.dio15Last.getD 0) s.time.dio15Count (b2n s.time.dio15Rising) s.time.dio15Lost) else item)
  else
    let n := off - 0x100
    if s.uaMute n then none
    else (s.uaCh n).latched.map fun v => (p.handle, (if s.uaStatus n != 0 then s.uaStatus n else status), [v])
def State.localCompletion (offset status : Nat) (item : List Word) (s : State) : State :=
  let waits (x : Nat) (h : Nat) (s : State) : Bool := (!s.pair.owner || (s.cl x).phase == 1) && !(s.cl x).localDone.contains h
  let s' := (List.range 4).foldl (fun s x =>
    ((s.conf.awaited x).filter fun p => ruleOffset p.rule == offset && waits x p.handle s).foldl (fun s p =>
      match s.localItem p status item with | some i => s.deliver x [i] | none => s) s) s
  if offset = 15 then s'.upTime fun c => { c with dio15Lost := 0 } else s'

/-! ## Retries (03 R57) -/

/-- The flight on a tag, and its class. -/
def State.flightOn (s : State) (tag : Nat) (write : Bool) : Option Flight :=
  (s.cyc.cls.flatMap fun c => c.held).find? fun f => f.tag == tag && f.isWrite == write
def State.markRetry (f : Flight) (s : State) : State :=
  (s.setCl f.cls fun c => { c with held := c.held.map fun g => if g.tag == f.tag then { g with retried := true, issued := s.time.now } else g }).upCyc
    fun c => { c with retries := inc32 c.retries }
/-- RTT_s has passed since the issue, no retry was made, and every first issue of the phase and class was. -/
def State.mayRetry (f : Flight) (s : State) : Bool :=
  let c := s.cl f.cls
  !f.retried && decide (f.issued + psTicks (s.rttPs f.station) ≤ s.time.now) && (if f.isWrite then c.toWrite.isEmpty else c.toIssue.isEmpty)
def State.retryRead (tag : Nat) (s : State) : State :=
  match s.flightOn tag false with
  | none => s
  | some f =>
    if s.mayRetry f && decide (s.tb0 + psNs (s.rttPs f.station) ≤ s.deadline f.cls) then
      (s.markRetry f).toStation f.station
        { kind := 1, station := 0, tag := tag, cls := f.cls, cycle := f.cycle, pending := false, retry := true, pcp := s.pcpOf f.cls,
          dest := [], payload := readReqPayload f.ranges }
    else s
def State.retryWrite (tag : Nat) (s : State) : State :=
  match s.flightOn tag true with
  | none => s
  | some f => if s.mayRetry f && decide (s.tb0 + s.leadInNs f.station ≤ f.apply) then (s.markRetry f).sendWrite f true else s

/-! ## Publication (03 R59, R60) -/

/-- Every read and every awaited local input of the cycle is in; the local ones are all in at t0 + 100 µs. -/
def State.allIn (s : State) (x : Nat) : Bool :=
  let c := s.cl x
  c.done.length == (s.conf.transOf x false).length &&
    (decide (c.t0 + 100000 ≤ s.tb0) || (s.conf.awaited x).all fun p => c.localDone.contains p.handle)
def State.mayPublish (s : State) (x : Nat) : Bool :=
  s.pair.owner && decide (x < 4) && (s.cl x).phase == 1 && (s.allIn x || decide (s.deadline x ≤ s.tb0))
/-- The no-completion rows for one input (02 Table 2.10). -/
def State.missInput (h : Nat) (s : State) : State :=
  let same := s.published h
  (s.upImg h (Img.missing (s.staleLimit (ruleClass (s.ruleOf h))) same)).clearBefore h
/-- Reads of the cycle that are not in. -/
def State.missingReads (s : State) (x : Nat) : List Nat :=
  (List.range (s.conf.transOf x false).length).filter fun i => !((s.cl x).done.any fun d => d.1 == i)
def State.readPoints (s : State) (x : Nat) (is : List Nat) : List Nat :=
  is.flatMap fun i => match (s.conf.transOf x false)[i]? with | some t => (s.conf.itemsOf t).map fun p => p.handle | none => []
/-- Inputs that the sweep moves. -/
def State.swept (s : State) (x : Nat) : List Nat :=
  s.readPoints x (s.missingReads x) ++ ((s.conf.tagless x).filter fun p => !(s.cl x).localDone.contains p.handle).map fun p => p.handle
/-- WRITE frames of the previous cycle without acknowledgement. -/
def State.unackedWrites (s : State) (x : Nat) : List Flight :=
  ((s.cl x).held.filter fun f => f.isWrite) ++ (s.cl x).toWrite ++ s.cyc.oldTags.filter fun f => f.cls == x
/-- Local outputs whose value has no report yet (14 R322). -/
def State.unreported (s : State) (x : Nat) : List Nat :=
  ((s.conf.localOutputs x).filter fun p =>
    let o := ruleOffset p.rule
    if o < 16 then (s.dioCh o).next.isSome || (s.dioCh o).loaded.isSome
    else (s.uaCh (o - 0x100)).next.isSome || (s.uaCh (o - 0x100)).loaded.isSome).map fun p => p.handle
/-- Withheld WRITE frames of the previous cycle. -/
def State.withheldOf (s : State) (x : Nat) : Nat :=
  ((s.conf.transOf x true).filter fun t => (s.conf.itemsOf t).any fun p => (s.cl x).unsent.contains p.handle).length
/-- PEER_SEEN: the peers of the class's points with AGE within the stale limit (02 Table 2.12). -/
def State.seePeers (x : Nat) (s : State) : State :=
  ((s.conf.tagless x).filter fun p => ruleKind p.rule == 10).foldl (fun s p =>
    let n := bits (ruleStation p.rule) 0 6
    s.upPts fun q => { q with peerSeen := setBits q.peerSeen n 1 (b2n (decide ((s.img p.handle).age ≤ s.staleLimit x))) }) s
/-- Epoch reads of the class that waited for its publication (03 R61). -/
def State.answerReads (x : Nat) (s : State) : State :=
  let mine := s.cyc.waiting.filter fun w => w.1 == x
  mine.foldl (fun s w => s.ret stOk (w.2.map fun h => (s.image h).toNat)) (s.upCyc fun c => { c with waiting := c.waiting.filter fun w => w.1 != x })
/-- The epoch is published: sweeps, counters, tags released, transit over. -/
def State.publishEpoch (x : Nat) (s : State) : State :=
  let missing := s.missingReads x
  let swept := s.swept x
  let late := s.unackedWrites x
  let lost := (late.flatMap fun f => f.carried.map fun p => p.1) ++ (s.cl x).unsent ++ s.unreported x
  let unacked := late.length + s.withheldOf x
  let dl := 1000 * (s.classRec x).deadlineUs
  let load := min 1000 ((s.tb0 - (s.cl x).t0) * 1000 / dl)
  let s := swept.foldl (fun s h => s.missInput h) s
  let s := lost.foldl (fun s h => s.failOutput h (s.ruleOf h)) s
  let s := s.countApps (swept.length + lost.length)
  let s := s.setCl x fun c =>
    { c with phase := 2, pubWord := 2 * c.cycle % 2 ^ 32, held := [], toIssue := [], toWrite := [], waitFrom := none, unsent := [],
             cycleNo := c.cycle % 2 ^ 32, loadLast := load, loadPeak := max c.loadPeak load, missingLast := missing.length,
             deadlinePubs := if missing.isEmpty then c.deadlinePubs else inc32 c.deadlinePubs, unacked := add32 c.unacked unacked }
  let s := s.upCyc fun c =>
    { c with oldTags := c.oldTags.filter fun f => f.cls != x, oldAcks := setAt c.oldAcks x fun _ => false,
             completed := c.completed.filter fun k => k.2.1 / 16 != x }
  (s.seePeers x).answerReads x
/-- A release that is skipped because the task of an earlier cycle still runs (03 R63). -/
def State.skipTasks (x : Nat) (s : State) : State :=
  let s := (s.setCl x fun c => { c with taskSkips := inc32 c.taskSkips, consecSkips := c.consecSkips + 1, skipped := true }).record 0x0401
    [(1, x), (4, (s.cl x).cycle)]
  if (s.classRec x).overrun != 0 && (s.classRec x).overrun ≤ (s.cl x).consecSkips then s.safeHold 7 else s
/-- All tasks of the class are released at t_pub (03 R65). -/
def State.releaseTasks (x : Nat) (s : State) : State :=
  if (s.cl x).tasks then s.skipTasks x
  else s.setCl x fun c => { c with tasks := s.conf.hasTasks x, skipped := false, consecSkips := 0 }

/-! ## Outputs (03 R62; 04 R78) -/

/-- Consecutive words as ranges. -/
def runs : List Nat → List (Nat × Nat)
  | [] => []
  | w :: ws => match runs ws with
    | (f, n) :: rest => if f = w + 1 then (w, n + 1) :: rest else (w, 1) :: (f, n) :: rest
    | [] => [(w, 1)]
/-- What one output contributes to the words of a WRITE; none where its conversion gives BAD_OVERRANGE. -/
def State.outWords (s : State) (p : PointRec) : Option (List (Nat × Nat)) :=
  let v := s.carriedValue p.handle
  let a := s.conf.firstWord p.rule
  if ruleKind p.rule = 9 then
    let ws := bytesWords (memReadBytes s.mem (poolBase + v.toNat + 8) (s.conf.capacity p.handle))
    some ((List.range ws.length).map fun i => (a + i, (ws.getD i 0#32).toNat))
  else match s.conf.outRaw p.rule v with
    | none => none
    | some w => some [(a, if ruleKind p.rule = 1 then w.toNat * 2 ^ (ruleOffset p.rule % 32) else w.toNat)]
/-- The words of a WRITE: bits of one word join, and words of no output are 0. -/
def wordAt (parts : List (Nat × Nat)) (w : Nat) : Word := BitVec.ofNat 32 ((parts.filter fun p => p.1 == w).foldl (fun a p => a ||| p.2) 0)
/-- Record the value sent; CHANGED of an output compares it with the one sent before (02 Table 2.2). -/
def State.sentValue (h : Nat) (v : Word) (s : State) : State :=
  let was := match s.pts.sent.find? fun e => e.1 == h with | some e => e.2 | none => v
  (s.upImg h fun g => { g with changed := v != was }).upPts fun p => { p with sent := (h, v) :: p.sent.filter fun e => e.1 != h }
/-- Build the WRITE of one transaction: overrange items are left out of its ranges; beyond 8 ranges it is withheld. -/
def State.buildWrite (x idx : Nat) (t : TransRec) (s : State) : State :=
  let pts := s.conf.itemsOf t
  let bad := pts.filter fun p => (s.outWords p).isNone
  let good := pts.filter fun p => (s.outWords p).isSome
  let parts := good.flatMap fun p => (s.outWords p).getD []
  let out := bad.map fun p => s.conf.firstWord p.rule
  let ranges := t.used.flatMap fun r => runs (((List.range r.2).map (r.1 + ·)).filter fun w => !out.contains w)
  let words := ranges.flatMap fun r => (List.range r.2).map fun i => wordAt parts (r.1 + i)
  let carried := good.map fun p => (p.handle, s.carriedValue p.handle)
  let s := s.countApps ((pts.map fun p => s.conf.weight p.handle p.rule).sum)
  let s := bad.foldl (fun s p => s.overrangeOutput p.handle) s
  if ranges.isEmpty then s
  else if 8 < ranges.length then
    s.setCl x fun c => { c with withheld := inc32 c.withheld, unsent := c.unsent ++ carried.map fun p => p.1 }
  else
    let f : Flight := { idx := idx, cls := x, tag := 0, station := t.station, isWrite := true, cycle := (s.cl x).cycle,
                        version := s.conf.version, issued := 0, retried := false, apply := s.applyAt x, ranges := ranges, carried := carried, words := words }
    (carried.foldl (fun s p => s.sentValue p.1 p.2) s).setCl x fun c => { c with toWrite := c.toWrite ++ [f] }
def State.buildWrites (x : Nat) (s : State) : State :=
  let ts := s.conf.transOf x true
  (s.issueOrder ts).foldl (fun s i => match ts[i]? with | some t => s.buildWrite x i t | none => s) s
/-- Local outputs go to the front ends' sequencers. -/
def State.loadLocals (x : Nat) (s : State) : State :=
  (s.conf.localOutputs x).foldl (fun s p =>
    (if (s.conf.outRaw p.rule (s.carriedValue p.handle)).isSome then s.sentValue p.handle (s.carriedValue p.handle) else s).loadOutput (s.applyAt x) p) s
/-- PEER frames of the class's publication list (04 R94). -/
def State.sendPeers (x : Nat) (s : State) : State :=
  let c := s.conf
  let first := (c.pair.pubCounts.take x).sum
  let n := c.pair.pubCounts.getD x 0
  (List.range (ceilDiv n 183)).foldl (fun s i =>
    let a := first + 183 * i
    let hs := (c.pair.pubs.drop a).take (min 183 (n - 183 * i))
    s.sendFrame 15
      { kind := 8, station := 0, tag := 0, cls := x, cycle := (s.cl x).cycle, pending := false, retry := false, pcp := s.pcpOf x,
        dest := c.map.pubGroup,
        payload := leBytes 4 c.pairId ++ leBytes 2 a ++ leBytes 2 0 ++
          hs.flatMap fun h => leBytes 4 (s.img h).value.toNat ++ leBytes 1 (s.img h).quality ++ leBytes 3 0 }) s

/-! ## Checkpoints out (07 R153, R156) -/

/-- The twin takes checkpoints: inserted, in SYNCING or STANDBY, over a Swath link that is not silent. -/
def State.ships (s : State) : Bool := (s.pair.twinMode == 3 || s.pair.twinMode == 4) && !s.swathSilent && s.pair.peerPresent
/-- Bytes of a checkpoint (03 Table 3.5, 07 Table 7.3). -/
def Ckpt.bytes (c : Ckpt) : Nat :=
  256 + 4 * c.reads.length + 12 * c.outputs.length + 4112 * c.pages.length + 32 * c.entries.length + 12 * c.repairs.length
/-- The tables of runtime data as they stand. -/
def State.tables (s : State) : Tables :=
  { forces := s.pts.forces.map fun f => (f.handle, f.mode, f.value, f.session),
    filters := s.pts.filters.map fun f => (f.handle, f.s, f.count), ring := s.sched.ring,
    consumed := s.can.flatMap fun c => [c.consumed0, c.consumed1] }
def State.checkpointOf (s : State) (x : Nat) : Ckpt :=
  let c := s.cl x
  let code (i : Nat) : Nat := match c.done.find? fun d => d.1 == i with | some d => d.2 | none => 2
  let armed : Nat × Nat := match s.cfg.armed with
    | some f => ((if f.isRevert then s.cfg.fallow.cfg.version else s.cfg.seed.cfg.version), f.cycle) | none => (0, 0)
  let seq := (s.cnt.seq + 1) % 2 ^ 32
  let reads := (List.range (s.conf.transOf x false).length).map fun i => (i, code i)
  let outputs := (s.conf.outputsOf x).map fun p => (p.handle, s.image p.handle)
  let pages := c.dirty.map fun a => (a, memReadBytes s.mem a 4096)
  let repairs := (s.cnt.dueRepairs.filter fun r => r.1 == x).map fun r => (r.2, s.image r.2)
  let k : Ckpt :=
    { seq := seq, cls := x, cycle := c.cycle % 2 ^ 32, term := s.pair.term, cfgVersion := s.conf.version, nextId := s.sched.nextId,
      state0 := s.time.tb0.st, state1 := s.time.tb1.st, rate0 := s.time.tb0.rate, rate1 := s.time.tb1.rate, tb0 := s.fine 0, tb1 := s.fine 1,
      armedVersion := armed.1, armedCycle := armed.2, reads := reads, outputs := outputs, pages := pages, entries := s.changedEntries,
      repairs := repairs, tables := s.tables, trailerSeq := seq, trailerLen := 0, crcOk := true }
  { k with trailerLen := Ckpt.bytes k }
/-- Checkpoint bytes of the current second of TB3 (07 Table 7.9). -/
def PairCnt.countLoad (sec n : Nat) (k : PairCnt) : PairCnt :=
  let last := if k.loadSec = sec then k.loadLast else if k.loadSec + 1 = sec then k.loadBytes * 1000 / 5800000000 else 0
  { k with loadLast := last, loadPeak := max k.loadPeak last, loadSec := sec, loadBytes := (if k.loadSec = sec then k.loadBytes else 0) + n }
/-- Ship the checkpoint of a cycle. -/
def State.ship (x : Nat) (s : State) : State :=
  if !s.ships then s
  else
    let k := s.checkpointOf x
    let s := s.upCnt fun q =>
      { (q.countLoad s.tb3s (Ckpt.bytes k)) with
        seq := k.seq, acked := (x, k.seq + 1) :: q.acked.filter (fun e => e.1 != x), dueRepairs := q.dueRepairs.filter (fun r => r.1 != x),
        repairPoints := add32 q.repairPoints k.repairs.length }
    ((s.setCl x fun c => { c with dirty := [] }).upSched fun q => { q with touched := [], freed := [] }).emit (.swath (.checkpoint k))

/-! ## t_w, and cycles that are run again (03 R62; 07 R164) -/

/-- M_w,x in ps (03 Table 3.5). -/
def Cfg.writeSpan (c : Cfg) (x : Nat) : Nat :=
  let sts := (c.transOf x true).filterMap fun t => c.map.stations.find? fun r => r.addr == t.station
  let q := (c.classes.getD x (defaultClass 1000 8)).quota
  ceilDiv ((sts.map StationRec.rttPs).sum) (max 1 q) + (sts.map fun r => r.owPs + 1000 * r.leadNs).foldl max 0
/-- The output cut-off: t0 + DL + TB, in a re-run t0 + A − M_w. -/
def State.cutoff (s : State) (x : Nat) : Nat :=
  let c := s.cl x
  let r := s.classRec x
  if c.rerunTo.isSome then s.applyAt x - psNs (s.conf.writeSpan x) else c.t0 + 1000 * (r.deadlineUs + r.windowUs)
/-- In a re-run, a WRITE goes only to a station whose WRITE_ACK was not heard, and only in time; what cannot is counted once. -/
def State.trimWrites (x : Nat) (s : State) : State :=
  if (s.cl x).rerunTo.isNone then s
  else
    let heard (f : Flight) : Bool := s.cyc.heardAcks.contains (x, f.cycle % 2 ^ 32, f.station)
    let inTime (f : Flight) : Bool := decide (s.tb0 + s.leadInNs f.station ≤ f.apply)
    let ws := (s.cl x).toWrite
    let acked := ws.filter heard
    let due := ws.filter fun f => !heard f
    let s := acked.foldl (fun s f => f.carried.foldl (fun s p => s.ackOutput p.1 p.2) s) s
    let s := (due.filter fun f => !inTime f).foldl (fun s f => f.carried.foldl (fun s p => s.failOutput p.1 (s.ruleOf p.1)) s) s
    let s := if due.all inTime then s else s.upCnt fun k => { k with missedApply := inc32 k.missedApply }
    s.setCl x fun c => { c with toWrite := due.filter inTime }
/-- What happens at t_w: outputs built and issued, PEER frames, the checkpoint, in a re-run the orphan sweep (05 Table 5.5). -/
def State.writeOut (x : Nat) (s : State) : State :=
  let s := ((s.setCl x fun c => { c with written := true, toWrite := [], heldApply := s.applyAt x }).buildWrites x).loadLocals x
  let s := if (s.cl x).rerunTo.isSome then (s.trimWrites x).cancelOrphans else s
  ((s.sendPeers x).ship x).pump x
/-- Inputs of a re-run cycle come from the shadow, with what was heard by its deadline; reads not heard are issued again only
for the cycle in progress. -/
def State.beginRerun (x k : Nat) (last : Bool) (s : State) : State :=
  let t0 := k * s.periodNs x
  let dl := t0 + 1000 * (s.classRec x).deadlineUs
  let s := s.replay x k dl
  let heard := (s.cyc.shadow.filter fun p => p.1 == x && decide (p.2.2 ≤ dl)).map fun p => p.2.1
  let ts := s.conf.transOf x false
  let mine := s.cyc.newShots.filter fun p => ruleClass (s.ruleOf p.1) == x
  let fromReads := s.readPoints x heard
  let taken := mine.filter fun p => fromReads.contains p.1 || (s.conf.tagless x).any fun q => q.handle == p.1
  let s := taken.foldl (fun s p => s.setImage p.1 p.2) s
  let s := s.upCyc fun c =>
    { c with shadow := c.shadow.filter fun p => p.1 != x, newShots := c.newShots.filter fun p => ruleClass (s.ruleOf p.1) != x }
  let again := if last && s.tb0 < dl then (s.issueOrder ts).filter fun i => !heard.contains i else []
  (s.setCl x fun c =>
    { c with cycle := k, t0 := t0, phase := 1, pubWord := (2 * k + 1) % 2 ^ 32, tagWait := 0, waitFrom := none,
             done := heard.map fun i => (i, 0), localDone := taken.map fun p => p.1, written := false, overran := false, toIssue := again }).pump x
/-- Run cycles again from k to the cycle in progress: a cycle whose publication instant has passed publishes at once. -/
def State.rerun (x last : Nat) : Nat → Nat → State → State
  | 0, _, s => s.setCl x fun c => { c with rerunTo := none }
  | fuel + 1, k, s =>
    let s := s.beginRerun x k (k == last)
    if !s.mayPublish x then s
    else
      let s := (s.publishEpoch x).releaseTasks x
      if (s.cl x).tasks || !s.pair.owner then s
      else
        let s := s.writeOut x
        if k < last then s.rerun x last fuel (k + 1) else s.setCl x fun c => { c with rerunTo := none }
/-- After t_w of a re-run cycle the next one begins. -/
def State.afterWrite (x : Nat) (s : State) : State :=
  match (s.cl x).rerunTo with
  | none => s
  | some last =>
    let k := (s.cl x).cycle
    if k < last then s.rerun x last (last - k) (k + 1) else s.setCl x fun c => { c with rerunTo := none }
def State.tw (x : Nat) (s : State) : State := (s.writeOut x).afterWrite x
/-- Publication, and release of the tasks; a class without tasks comes to t_w at once. -/
def State.publish (x : Nat) (s : State) : State :=
  let s := (s.publishEpoch x).releaseTasks x
  if s.pair.owner && !(s.cl x).tasks then s.tw x else s
/-- The last task of a class ends (03 R62), with a fold (09 R203). -/
def State.endTask (x : Nat) (foldDiffers : Option Nat) (pages : List Nat) (s : State) : State :=
  let s := s.fold
  match foldDiffers with
  | some cp => s.lockFault cp .mismatch 0xFF
  | none =>
    let s := s.setCl x fun c => { c with tasks := false, dirty := pages.foldl (fun l a => touch a l) c.dirty }
    if (s.cl x).phase == 2 && !(s.cl x).written then s.tw x else s
/-- A task still runs at t_oc: no WRITE is built, and the checkpoint and the PEER frames go out (03 R52, R63; log 36). -/
def State.overrunAt (x : Nat) (s : State) : State :=
  let s := (s.setCl x fun c => { c with overran := true, written := true, overruns := inc32 c.overruns }).record 0x0401 [(1, x), (4, (s.cl x).cycle)]
  (((s.sendPeers x).ship x)).afterWrite x
def State.mayOverrun (s : State) (x : Nat) : Bool :=
  s.pair.owner && decide (x < 4) && (s.cl x).phase == 2 && (s.cl x).tasks && !(s.cl x).written && decide (s.cutoff x ≤ s.tb0)

/-! ## WRITE_ACK (03 R64; 04 R79; 05 R107) -/

/-- The payload: RESULT and the free places of the timed-action queue. -/
def parseAck (b : List Byte) : Option (Nat × Nat) :=
  if b.length = 32 && field b 10 1 ≤ 3 && zeros b 11 1 && field b 12 2 ≤ 256 && zeros b 14 2 && zeros b 24 8 then
    some (field b 10 1, field b 12 2)
  else none
/-- A write of the sown configuration, or of the fallow one until its class publishes under the new version (10 R243). -/
def State.ackedFlight (s : State) (f : Fsp) : Option Flight :=
  let is (h : Flight) : Bool := h.isWrite && h.tag == f.tag && h.station == f.station && h.cls == f.cls && h.cycle % 2 ^ 32 == f.cycle && h.version == f.cfg
  match (s.cl f.cls).held.find? is with
  | some h => some h
  | none => if s.cyc.oldAcks.getD f.cls false then s.cyc.oldTags.find? is else none
/-- A RESULT on the owner: only ACCEPTED acknowledges. -/
def State.ackResult (f : Fsp) (h : Flight) (result : Nat) (s : State) : State :=
  match result with
  | 1 => s.fspCount 13
  | 2 => s.fspCount 17
  | 3 => s.fspCount 14
  | _ =>
    let s := h.carried.foldl (fun s p => s.ackOutput p.1 p.2) s
    let s := s.setCl f.cls fun c => { c with held := c.held.filter fun g => !(g.tag == h.tag && g.isWrite && g.version == h.version) }
    (s.upCyc fun c => { c with completed := doneKey f :: c.completed,
                               oldTags := c.oldTags.filter fun g => !(g.tag == h.tag && g.cls == h.cls && g.version == h.version) }).pump f.cls
def State.writeAck (f : Fsp) (s : State) : State :=
  s.checkTerm f fun s =>
    if s.pair.owner then
      match s.ackedFlight f with
      | none => s.dropFrame (serialAfter (s.cl f.cls).cycle f.cycle && f.cfg == s.conf.version && !s.cyc.completed.contains (doneKey f)) f
      | some h =>
        match parseAck f.payload with
        | none => s.fspCount 15
        | some (result, free) => (s.setSchedStation { s.schedStation f.station with free := free }).ackResult f h result
    else if s.followsOwner then
      match parseAck f.payload with
      | none => s.fspCount 15
      | some (result, free) =>
        let s := s.setSchedStation { s.schedStation f.station with free := free }
        if result = 0 then s.upCyc fun c => { c with heardAcks := (f.cls, f.cycle, f.station) :: c.heardAcks.filter fun a => a != (f.cls, f.cycle, f.station) } else s
    else s.dropUnmatched

/-! ## PEER, BIND, START (04 R83, R84, R94) -/

/-- The items of a PEER payload: the first item number, values and qualities. -/
def parsePeerItems (b : List Byte) : Option (Nat × List (Nat × Nat)) :=
  let n := (b.length - 8) / 8
  let cs := chunks 8 n (b.drop 8)
  if b.length = 8 + 8 * n && 1 ≤ n && zeros b 6 2 && cs.all fun c => zeros c 5 3 then
    some (field b 4 2, cs.map fun c => (field c 0 4, field c 4 1))
  else none
def State.peerFrame (f : Fsp) (s : State) : State :=
  match s.peerOf (field f.payload 0 4) with
  | none => s
  | some p =>
    let known := s.pts.peerTerms.find? fun t => t.1 == p.peer
    let stale := match known with | some t => !serialGe f.term t.2 | none => false
    if stale then s.fspCount 10
    else match parsePeerItems f.payload with
      | none => s.fspCount 15
      | some (first, items) =>
        if 183 < items.length || 65536 < first + items.length then s.fspCount 10
        else
          let fresh := mapFrom (fun n (i : PeerItem) => { i with item := n }) first
            (items.map fun i => ({ peer := p.peer, item := 0, value := BitVec.ofNat 32 i.1, quality := i.2, at_ := s.tb0 } : PeerItem))
          s.upPts fun q =>
            { q with peerTerms := (p.peer, f.term) :: q.peerTerms.filter (fun t => t.1 != p.peer),
                     peers := fresh ++ q.peers.filter fun i => !(i.peer == p.peer && decide (first ≤ i.item) && decide (i.item < first + items.length)) }
/-- The configuration of a version that the module holds. -/
def State.cfgOf (s : State) (version : Nat) : Cfg :=
  if s.cfg.seed.present && s.cfg.seed.cfg.version = version then s.cfg.seed.cfg
  else if s.cfg.fallow.present && s.cfg.fallow.cfg.version = version then s.cfg.fallow.cfg else s.conf
/-- 10 ms without BOUND: three repeats, then the station is recorded as unbound. -/
def State.retryBind (a : Nat) (s : State) : State :=
  match s.fsp.binds.find? fun b => b.station == a && b.st == 0 with
  | none => s
  | some b =>
    if 4 ≤ b.attempts then
      (s.upFsp fun q => { q with binds := q.binds.map fun c => if c.station = a then { c with st := 2 } else c }).record 0x1104 [(2, a)]
    else
      (s.sendBind a b.pending b.cycle (s.cfgOf b.version)).upFsp fun q =>
        { q with binds := q.binds.map fun c => if c.station = a then { c with attempts := b.attempts + 1 } else c }
/-- BOUND is matched to the outstanding BIND of its station. -/
def State.bound (f : Fsp) (s : State) : State :=
  if field f.payload 0 1 != 0x11 then s
  else if f.payload.length != 8 || !zeros f.payload 1 3 then s.fspCount 15
  else s.upFsp fun q =>
    { q with binds := q.binds.map fun b => if b.station = f.station && b.st = 0 && b.version = field f.payload 4 4 then { b with st := 1 } else b }
/-- START: counted, its term heard in the term window, and answered with BIND by the module in control. -/
def State.started (f : Fsp) (s : State) : State :=
  if !f.isStart then s
  else if f.payload.length != 16 || !zeros f.payload 1 3 then s.fspCount 15
  else
    let s := (s.fspCount 12).hearTerm (field f.payload 8 4)
    if s.pair.owner then s.sendBind f.station false 0 s.conf else s

/-! ## Runtime calls (02 R16, R21, R30, R406; 03 R61) -/

def State.countBad (s : State) : State := s.upPts fun p => { p with badHandle := inc32 p.badHandle }
def badHandle (h : Nat) : Bool := h == 0 || decide (0x600000 ≤ h)
def State.pointWrite (h : Nat) (v : Word) (s : State) : State :=
  let r := s.ruleOf h
  if badHandle h then s.countBad.ret stRange []
  else if !ruleIsOut r || ruleTimed r || ruleKind r = 0 || ruleKind r = 10 then s.ret stDenied []
  else (s.upImg h fun g => { g with value := if g.forced then g.value else v, pend := true }).ret stOk []
/-- A refused read returns 0 and BAD_CONFIG. -/
def State.pointReadCall (h : Nat) (s : State) : State :=
  if badHandle h then s.countBad.ret stRange [0x86000000] else s.ret stOk [(s.image h).toNat]
/-- The record of a STAMP or BLOCK point, copied whole. -/
def State.slotRead (h : Nat) (s : State) : State :=
  let r := s.ruleOf h
  if badHandle h then s.countBad.ret stRange []
  else if ruleKind r != 8 && ruleKind r != 9 then s.ret stRange []
  else s.ret stOk ((s.slotBytes h r).map fun b => b.toNat)
/-- The epoch read: a slower class, or one whose late task runs on, gives PARTIAL at once; else the call ends with OK when the
class is not in transit. -/
def State.epochRead (own x : Nat) (hs : List Nat) (s : State) : State :=
  let c := s.cl x
  let transit := c.pubWord % 2 == 1
  let vals := hs.map fun h => (s.image h).toNat
  if !transit && !(c.tasks && c.skipped && own == x) then s.ret stOk vals
  else if own < x || (own == x && c.tasks) then s.ret stPartial vals
  else s.upCyc fun q => { q with waiting := q.waiting ++ [(x, hs)] }

/-- While the change set of a flip is being written, completions are held in arrival order (10 R236). -/
def State.heldBack (d : HeldDone) (k : State → State) (s : State) : State :=
  if s.cfg.windowOpen then s.upCfg fun c => { c with heldFrames := c.heldFrames ++ [d] } else k s

/-! ## The meanings -/

/-- CYCLE_START (03 R52). -/
def execCycleStart (t cls : Nat) (s : State) : Host.Outcome State Fault Refusal := happens t s (fun s => s.mayStart cls) (State.startCycle cls)
def execReadRetryTimeout (t tag : Nat) (s : State) : Host.Outcome State Fault Refusal := happens t s (fun s => s.pair.owner) (State.retryRead tag)
/-- READ_RSP (03 R56, 04 R96). -/
def execReadRsp (t : Nat) (f : RxFrame) (s : State) : Host.Outcome State Fault Refusal :=
  happens t s (State.hears f) (State.heldBack (.frame f) (State.receive 2 State.readRsp f))
def execLocalCompletion (t offset status : Nat) (item : List Word) (s : State) : Host.Outcome State Fault Refusal :=
  happens t s (fun s => s.pair.owner || s.followsOwner) (State.heldBack (.channel offset status item) (State.localCompletion offset status item))
/-- PUBLICATION (03 R59). -/
def execPublication (t cls : Nat) (s : State) : Host.Outcome State Fault Refusal := happens t s (fun s => s.mayPublish cls) (State.publish cls)
/-- TASK_END (03 R62). -/
def execTaskEnd (t cls : Nat) (foldDiffers : Option Nat) (dirtyPages : List Nat) (s : State) : Host.Outcome State Fault Refusal :=
  happens t s (fun s => s.pair.owner && decide (cls < 4) && (s.cl cls).tasks) (State.endTask cls foldDiffers dirtyPages)
/-- OUTPUT_CUTOFF (03 R63). -/
def execOutputCutoff (t cls : Nat) (s : State) : Host.Outcome State Fault Refusal := happens t s (fun s => s.mayOverrun cls) (State.overrunAt cls)
def execWriteRetryTimeout (t tag : Nat) (s : State) : Host.Outcome State Fault Refusal := happens t s (fun s => s.pair.owner) (State.retryWrite tag)
/-- WRITE_ACK (02 R22). -/
def execWriteAck (t : Nat) (f : RxFrame) (s : State) : Host.Outcome State Fault Refusal :=
  happens t s (State.hears f) (State.heldBack (.frame f) (State.receive 4 State.writeAck f))
/-- PEER (04 R94). -/
def execPeer (t : Nat) (f : RxFrame) (s : State) : Host.Outcome State Fault Refusal :=
  happens t s (State.hears f) (State.receive 8 State.peerFrame f)
def execBindRetryTimeout (t station : Nat) (s : State) : Host.Outcome State Fault Refusal :=
  happens t s (fun s => s.pair.owner) (State.retryBind station)
def execAnnounceBound (t : Nat) (f : RxFrame) (s : State) : Host.Outcome State Fault Refusal :=
  happens t s (State.hears f) (State.receive 10 State.bound f)
def execAnnounceStart (t : Nat) (f : RxFrame) (s : State) : Host.Outcome State Fault Refusal :=
  happens t s (State.hears f) (State.receive 10 State.started f)
/-- POINT_WRITE (02 R406): tasks run on the owner. -/
def execPointWrite (t handle : Nat) (value : Word) (s : State) : Host.Outcome State Fault Refusal :=
  happens t s (fun s => s.pair.owner) (State.pointWrite handle value)
def execPointReadCall (t handle : Nat) (s : State) : Host.Outcome State Fault Refusal :=
  happens t s (fun s => s.pair.owner) (State.pointReadCall handle)
def execStampBlockRead (t handle : Nat) (s : State) : Host.Outcome State Fault Refusal :=
  happens t s (fun s => s.pair.owner) (State.slotRead handle)
def execEpochRead (t ownCls cls : Nat) (handles : List Nat) (s : State) : Host.Outcome State Fault Refusal :=
  happens t s (fun s => s.pair.owner && decide (cls < 4)) (State.epochRead ownCls cls handles)

end Sys2Proof.Machine
end

