-- ==== Sys2Proof/Machine/Takeover.lean ====
section
/-! DEFINITION. Checkpoints received, the copy of SYNCING, and what the confirmation of a claim brings (07 R153–R165). -/

namespace Sys2Proof.Machine

/-! ## Reset values of the image (02 R19, Table 2.2) -/

/-- Declare one handle: its rule and the entry of a newly declared handle. -/
def State.declare (p : PointRec) (s : State) : State := (s.setRule p.handle p.rule).upMem fun m => memWriteN m (imageAddr p.handle) 8 (imgWord (newImg p.init)).toNat
/-- The image, the rules, the shadow and the block pool as a configuration brings them up. -/
def State.freshPoints (s : State) : State :=
  let s := s.upMem fun m => memClear (memClear (memClear (memClear m 0 0x02FFFFFF) 0x03000000 0x05FFFFFF) 0x06000000 0x077FFFFF) 0x07800000 0x087FFFFF
  let s := s.upPts fun p => { p with forces := [], sent := [], before := [], filters := [], reseed := [] }
  s.conf.points.foldl (fun s p => s.declare p) s

/-! ## Checkpoints (07 R153–R157) -/

/-- Complete: the trailer repeats the sequence, the length agrees and the CRC-32C matches (R154). -/
def ckptComplete (c : Ckpt) : Bool := c.trailerSeq == c.seq && c.trailerLen == Ckpt.bytes c && c.crcOk
/-- Reads that the checkpoint counts as completed and that were not heard. -/
def State.gapsOf (s : State) (c : Ckpt) : List Nat :=
  (c.reads.filter fun r => decide (r.2 < 2) && !(s.cyc.shadow.any fun e => e.1 == c.cls && e.2.1 == r.1)).map fun r => r.1
/-- An input of the class takes its new entry from the shadow, or moves by the no-completion rows. -/
def State.publishPoint (heard : Bool) (h : Nat) (s : State) : State :=
  match s.cyc.newShots.find? fun e => e.1 == h with
  | some e => if heard then s.setImage h e.2 else s.missInput h
  | none => s.missInput h
/-- Publish a class on the own image, per the read records (R154). -/
def State.publishClass (c : Ckpt) (s : State) : State :=
  let done := (c.reads.filter fun r => decide (r.2 < 2)).map fun r => r.1
  let missing := (c.reads.filter fun r => decide (2 ≤ r.2)).map fun r => r.1
  let s := (s.readPoints c.cls done).foldl (fun s h => s.publishPoint true h) s
  let s := (s.readPoints c.cls missing).foldl (fun s h => s.publishPoint false h) s
  (s.conf.tagless c.cls).foldl (fun s p => s.publishPoint true p.handle) s
/-- The tables that the pages hold: those of the class's own points, and all of the rest. -/
def State.takeTables (mine : Nat → Bool) (x : Tables) (s : State) : State :=
  let fs := (x.filters.filter fun f => mine f.1).map fun f => ({ handle := f.1, s := f.2.1, count := f.2.2 } : FiltSt)
  let forces := x.forces.map fun f => ({ handle := f.1, mode := f.2.1, value := f.2.2.1, session := f.2.2.2 } : ForceEnt)
  let s := s.upPts fun p => { p with filters := fs ++ p.filters.filter (fun f => !mine f.handle), forces := forces }
  let s := s.upSched fun q => { q with ring := x.ring }
  s.upCan (mapFrom (fun n c => { c with consumed0 := x.consumed.getD (2 * n) c.consumed0, consumed1 := x.consumed.getD (2 * n + 1) c.consumed1 }) 0)
/-- The streaks of gaps of a class after one more checkpoint (R156). -/
def PairCnt.streaks (cls : Nat) (gaps : List Nat) (k : PairCnt) : PairCnt :=
  let old (i : Nat) : Nat := match k.gapStreaks.find? fun g => g.1 == cls && g.2.1 == i with | some g => g.2.2 | none => 0
  { k with gapStreaks := (gaps.map fun i => (cls, i, old i + 1)) ++ k.gapStreaks.filter fun g => g.1 != cls }
/-- The STANDBY arms for a flip or revert of a version that it holds, at a class-D cycle number modulo 2^32 (10 R238, Table 10.6). -/
def State.followFlip (version cycle : Nat) (s : State) : State :=
  let isSeed := s.cfg.seed.present && s.cfg.seed.cfg.version == version
  let isFallow := s.cfg.fallow.present && s.cfg.fallow.cfg.version == version
  let p := s.periodNs 3
  let k := s.tb0 / p
  let full := k + (cycle + 2 ^ 32 - k % 2 ^ 32) % 2 ^ 32
  let kept := match s.cfg.armed with | some f => f.tb == full * p | none => false
  if version = 0 || !(isSeed || isFallow) then s.upCfg fun c => { c with armed := none }
  else if kept then s
  else s.upCfg fun c =>
    { c with armed := some { isRevert := !isSeed, solo := false, tb := full * p, cycle := full, deferrals := 0, job := 0, twinArmed := false, goHeld := false } }
/-- A complete checkpoint is applied (R154), and acknowledged with its gaps (R155). -/
def State.applyCkpt (c : Ckpt) (s : State) : State :=
  let s := s.replay c.cls c.cycle (2 ^ 64)
  let gaps := s.gapsOf c
  let gapPoints := (s.readPoints c.cls gaps).length
  let s := c.outputs.foldl (fun s o =>
    (s.setImage o.1 o.2).upPts fun p =>
      if (imgOf o.2).simulated then p else { p with sent := (o.1, (imgOf o.2).value) :: p.sent.filter fun e => e.1 != o.1 }) s
  let s := c.entries.foldl (fun s b => s.takeEntry b) s
  let s := s.publishClass c
  let s := c.repairs.foldl (fun s r => s.setImage r.1 r.2) s
  let s := s.upMem fun m => c.pages.foldl (fun m p => memStore p.2 p.1 m) m
  let s := s.takeTables (fun h => ruleClass (s.ruleOf h) == c.cls) c.tables
  let s := s.upCyc fun q =>
    { q with shadow := q.shadow.filter fun e => e.1 != c.cls, newShots := q.newShots.filter fun e => ruleClass (s.ruleOf e.1) != c.cls,
             heardAcks := q.heardAcks.filter fun a => a.1 != c.cls || serialGe a.2.1 c.cycle,
             journal := q.journal.filter fun e => e.cls != c.cls || serialAfter e.cycle c.cycle }
  let s := s.upCnt fun k =>
    { (k.streaks c.cls gaps) with
      applied := setAt k.applied c.cls fun _ => some c.cycle, seq := c.seq, hearGaps := add32 k.hearGaps gaps.length,
      repairPoints := add32 k.repairPoints c.repairs.length }
  let s := s.upPair fun p =>
    { p with term := c.term, storedTerm := c.term, yielded := false, ckptSeen := if p.copyDone then setBits p.ckptSeen c.cls 1 1 else p.ckptSeen }
  let s := (s.upSched fun q => { q with nextId := c.nextId, touched := [], freed := [] }).upTime fun q => { q with primary := (c.state0, c.state1) }
  let s := ((s.replay c.cls (c.cycle + 1) (2 ^ 64)).followFlip c.armedVersion c.armedCycle).emit (.swath (.checkpointAck c.cls c.seq gaps))
  if 65536 < gapPoints || s.cnt.gapStreaks.any (fun g => g.1 == c.cls && decide (3 ≤ g.2.2)) then s.resync else s
/-- A checkpoint arrives: one of another sown version is discarded and synchronisation lost (10 R239); during the copy it waits
for the copy's end (R158). -/
def State.hearCkpt (c : Ckpt) (s : State) : State :=
  if !ckptComplete c then s
  else if c.cfgVersion != s.conf.version then s.resync
  else if s.power.mode == 3 && !s.pair.copyDone then s.upCnt fun k => { k with early := k.early ++ [c] }
  else s.applyCkpt c
/-- The twin acknowledges a checkpoint; its gaps are repaired in the next one of the class (R155, R156). -/
def State.hearAck (cls seq : Nat) (gaps : List Nat) (s : State) : State :=
  let hs := s.readPoints cls gaps
  s.upCnt fun k =>
    { k with acked := k.acked.map fun e => if e.1 == cls && e.2 == seq + 1 then (cls, 0) else e,
             dueRepairs := k.dueRepairs ++ (hs.map fun h => (cls, h)).filter fun r => !k.dueRepairs.contains r }
/-- The checkpoint of the previous cycle is not complete at t0 + DL, and Swath is not silent (R157). -/
def State.ckptIsLate (s : State) (x : Nat) : Bool :=
  let have_ := match s.cnt.applied.getD x none with | some a => serialGe (a + 1) (s.cl x).cycle | none => false
  s.power.mode == 4 && s.pair.synced && !s.swathSilent && decide (x < 4) && !have_ && decide (s.deadline x ≤ s.tb0)
def State.ckptLate (s : State) : State := (s.upCnt fun k => { k with ckptLate := inc32 k.ckptLate }).resync

/-! ## SYNCING (07 R158) -/

/-- After a copied block over the queue, the places that hold an entry. -/
def State.recountQueue (addr len : Nat) (s : State) : State :=
  let lo := (max addr queueBase - queueBase) / 32
  let hi := if queueBase < addr + len then min 65536 ((addr + len - queueBase + 31) / 32) else 0
  ((List.range (hi - lo)).map (lo + ·)).foldl (fun s n =>
    s.upSched fun q => { q with used := if (s.entry n).state = 0 then q.used.filter (· != n) else insertRising n q.used }) s
def State.copyMemory (addr : Nat) (bytes : List Byte) (s : State) : State :=
  (s.upMem fun m => memStore bytes addr m).recountQueue addr bytes.length
/-- The copy is over: the checkpoints that ran alongside it are applied in order. -/
def State.copyOver (s : State) : State :=
  let held := s.cnt.early
  let s := (s.upPair fun p => { p with copyDone := true, ckptSeen := 0 }).upCnt fun k => { k with early := [], applied := [none, none, none, none] }
  held.foldl (fun s c => s.applyCkpt c) s
/-- The four conditions of R158, and TB0 in TWIN (06 R132). -/
def State.maySync (s : State) : Bool :=
  s.power.mode == 3 && s.pair.copyDone && s.cnt.applied.all Option.isSome && decide (s.time.twinDiff.natAbs ≤ 2560) &&
    s.pair.loopOk != 0 && s.pair.twinClaim && s.time.tb0.st == 7
def State.synchronise (s : State) : State :=
  (s.upPair fun p => { p with synced := true, isolated := false, yielded := false, settleFrom := s.time.now }).goMode 4 0

/-! ## Claim confirmed (07 R149, R163, R164; Table 7.5; 08 R182) -/

/-- Points whose last WRITE under the old owner was acknowledged are settled so; the rest settle at the next publication. -/
def State.settleHeard (x k : Nat) (s : State) : State :=
  (s.conf.transOf x true).foldl (fun s t =>
    let hs := (s.conf.itemsOf t).map fun p => p.handle
    if s.cyc.heardAcks.contains (x, k % 2 ^ 32, t.station) then hs.foldl (fun s h => s.ackOutput h (s.carriedValue h)) s
    else s.setCl x fun c => { c with unsent := c.unsent ++ hs }) s
/-- A class resumes after the last cycle whose checkpoint was applied (R164). -/
def State.resume (x : Nat) (s : State) : State :=
  let m := s.tb0 / s.periodNs x
  let s := s.setCl x fun c => { (ClassSt.stop c) with unsent := [], dirty := [], consecSkips := 0, rerunTo := none, cycle := m, t0 := m * s.periodNs x }
  match s.cnt.applied.getD x none with
  | none => s
  | some a =>
    let d := (m + 2 ^ 32 - a % 2 ^ 32) % 2 ^ 32
    let s := s.settleHeard x a
    if d = 0 || 2 ^ 31 ≤ d then s.setCl x fun c => { c with phase := 2, written := true, pubWord := 2 * m % 2 ^ 32, cycleNo := m % 2 ^ 32 }
    else (s.setCl x fun c => { c with rerunTo := some m }).rerun x m d (m - d + 1)
/-- A class whose first cycle starts no earlier than an instant of TB0. -/
def ClassSt.fresh (from_ : Nat) (c : ClassSt) : ClassSt :=
  { (ClassSt.stop c) with
    notBefore := from_, cycle := 2 ^ 64, unsent := [], dirty := [], rerunTo := none, consecSkips := 0, heldApply := 0 }
/-- Each class begins with its first t0 at least 100 µs after the entry (03 R50; log 31). -/
def State.startFresh (s : State) : State :=
  ((s.freshPoints.upMem fun m => memClear m queueBase 0x089FFFFF).upSched fun q => { q with used := [], frames := [], heard := [], causes := [], waited := [] }).upCyc fun c => { c with cls := c.cls.map (ClassSt.fresh (s.tb0 + 100000)) }
/-- A base takes the state that the PRIMARY last reported, and keeps its value and RATE (06 R135). -/
def State.takeBases (s : State) : State :=
  let s := if 2 ≤ s.time.primary.1 then s.baseTo 0 s.time.primary.1 else s
  let s := if 2 ≤ s.time.primary.2 then s.baseTo 1 s.time.primary.2 else s
  s.upTime fun c => { c with twinTimeLost := false }
/-- A flip armed before the takeover is abandoned: its job ends with STATE and the seed's check is no longer valid (10 R239). -/
def State.abandonFlip (s : State) : State :=
  match s.cfg.armed with
  | some f => ((s.endJob f.job stState []).upCfg fun c => { c with armed := none }).invalidate
  | none => s
/-- The claim is confirmed: ownership, the new term, the mode, CAN, and ANNOUNCE TERM before any other frame (R87). -/
def State.own (s : State) : State :=
  let kind := s.pair.claimKind
  let term := nextTerm (if kind = 0 then s.pair.termBest else s.pair.term)
  let s := s.upPair fun p =>
    { p with confirmed := true, term := term, storedTerm := term, ownerSince := s.tb3s, termOpen := false, synced := false,
             isolated := false, yielded := false, provingFrom := none, copyDone := false, homeArmed := false, twinHomeArmed := false }
  let s := s.upCnt fun k =>
    { k with takeovers := if kind = 1 then inc32 k.takeovers else k.takeovers, handovers := if kind = 2 then inc32 k.handovers else k.handovers,
             lastTakeoverNs := if kind = 1 then sat32 (tickNs (s.time.now - s.pair.tfAt)) else k.lastTakeoverNs,
             lastProvedS := s.tb3s % 2 ^ 32, acked := [], dueRepairs := [], gapStreaks := [] }
  let s := s.upCan (List.map CanCh.normal)
  let s := if kind = 1 then s.record 0x0202 [] else if kind = 2 then s.record 0x0203 [] else s
  let s := (s.goMode (if kind = 0 then 6 else 5) 0).upPair fun p => { p with owner := true }
  (s.announce 1).bindAll false 0 s.conf
/-- What follows on the new owner. -/
def State.control (s : State) : State :=
  let kind := s.pair.claimKind
  let s := s.own
  let s := if kind = 0 then s.startFresh
    else
      let s := (((if kind = 1 then s.abandonFlip else s).takeBases).redispatch)
      let s := s.upCyc fun c => { c with oldTags := [], oldAcks := [false, false, false, false], completed := [], waiting := [] }
      (List.range 4).foldl (fun s x => s.resume x) s
  let s := (s.select 0).select 1
  (s.pollHart 0 0).pollHart 0 1
def State.mayConfirm (s : State) : Bool :=
  s.pair.ownClaim && !s.pair.confirmed && !s.pair.tied && !s.pair.twinClaim && decide (s.pair.ownClaimAt + usTicks 2 ≤ s.time.now)

/-! ## The meanings -/

/-- CLAIM_CONFIRMED (07 R149). -/
def execClaimConfirmed (t : Nat) (s : State) : Host.Outcome State Fault Refusal := happens t s State.mayConfirm State.control
/-- CHECKPOINT_RECEIVED (07 R154). -/
def execCheckpointReceived (t : Nat) (c : Ckpt) (s : State) : Host.Outcome State Fault Refusal :=
  happens t s (fun s => s.followsOwner && decide (c.cls < 4)) (State.hearCkpt c)
/-- CHECKPOINT_ACK (07 R155). -/
def execCheckpointAck (t cls seq : Nat) (gaps : List Nat) (s : State) : Host.Outcome State Fault Refusal :=
  happens t s (fun s => s.pair.owner) (State.hearAck cls seq gaps)
/-- CKPT_LATE (07 R157). -/
def execCkptLate (t cls : Nat) (s : State) : Host.Outcome State Fault Refusal := happens t s (fun s => s.ckptIsLate cls) State.ckptLate
/-- SYNCHRONISED (07 R158). -/
def execSynchronised (t : Nat) (s : State) : Host.Outcome State Fault Refusal := happens t s State.maySync State.synchronise

end Sys2Proof.Machine
end

