-- ==== Sys2Proof/Machine/Messages.lean ====
section
/-! DEFINITION. Pastasy: the request checks, responses and segments, jobs, sessions and mailboxes (11 R247–R264). -/

namespace Sys2Proof.Machine

def State.box (s : State) (n : Nat) : Mailbox := s.msg.boxes.getD n (Mailbox.reset n)
def State.setBox (n : Nat) (f : Mailbox → Mailbox) (s : State) : State := s.upMsg fun m => { m with boxes := setAt m.boxes n f }
/-- Count one of the counters of Table 11.8. -/
def State.msgCount (i : Nat) (s : State) : State := s.upMsg fun m => { m with counters := setAt m.counters i inc32 }
/-- The counter of a refusal with a status (11 Table 11.8). -/
def refusalCounter (status : Nat) : Option Nat :=
  if status = stLength then some 1 else if status = stIntegrity then some 2 else if status = stVersion then some 3
  else if status = stDenied then some 4 else if status = stBusy then some 5 else none
def State.countRefusal (status : Nat) (s : State) : State :=
  match refusalCounter status with | some i => s.msgCount i | none => s

/-! ## Messages (11 R250) -/

/-- The 16-byte header of Table 11.2. -/
def headerBytes (version flags code tag status length session : Nat) : List Byte :=
  leBytes 1 version ++ leBytes 1 flags ++ leBytes 2 code ++ leBytes 2 tag ++ leBytes 2 status ++ leBytes 4 length ++ leBytes 4 session
/-- A whole message: header, payload, CRC-32C trailer. -/
def messageBytes (flags code tag status session : Nat) (payload : List Byte) : List Byte :=
  let b := headerBytes 1 flags code tag status payload.length session ++ payload
  b ++ leBytes 4 (crc32c b).toNat
def reqHeader (code : Nat) (r : Req) : List Byte := headerBytes r.version r.flags code r.tag r.status r.length r.session
def reqCrcOk (code : Nat) (r : Req) : Bool := crc32c (reqHeader code r ++ r.payload) == r.crc
/-- The well-formed request of a header with a payload. -/
def hdrReq (h : Hdr) (code : Nat) (payload : List Byte) : Req :=
  let b := headerBytes 1 0 code h.tag 0 payload.length h.session ++ payload
  { mb := h.mb, version := 1, flags := 0, tag := h.tag, status := 0, length := payload.length, session := h.session, payload := payload,
    crc := crc32c b }
def hdrOf (r : Req) : Hdr := { mb := r.mb, tag := r.tag, session := r.session }
/-- The request asks for the next segment (11 R254). -/
def continues (r : Req) : Bool := bit r.flags 1

/-! ## Buffers (11 R248) -/

/-- log2 of the size of buffer i: 2n is the request buffer of mailbox n, 2n + 1 its response buffer. -/
def State.bufLog (s : State) (i : Nat) : Nat := if i % 2 = 0 then (s.box (i / 2)).reqLog else (s.box (i / 2)).rspLog
/-- Address of buffer i: by size from the largest, then by number. -/
def State.bufAddr (s : State) (i : Nat) : Nat :=
  0x0C000000 + (((List.range 32).filter fun j => decide (s.bufLog i < s.bufLog j) || (s.bufLog j == s.bufLog i && decide (j < i))).map
    fun j => 2 ^ s.bufLog j).sum
/-- Largest payload of a request and of a response on a mailbox. -/
def State.reqRoom (s : State) (mb : Nat) : Nat := 2 ^ (s.box mb).reqLog - 20
def State.rspRoom (s : State) (mb : Nat) : Nat := 2 ^ (s.box mb).rspLog - 20

/-! ## Responses (11 R250, R254, R255) -/

/-- One message of a response goes out: on E0 over TLS, elsewhere into the response buffer, then its length into DONE (R249). -/
def State.putResponse (h : Hdr) (code status : Nat) (data : List Byte) (s : State) : State :=
  let b := messageBytes 1 code h.tag status h.session data
  let s := (s.setBox h.mb fun x => { x with busy := false }).emit (.response h.mb b)
  if h.mb < 8 || 16 ≤ h.mb then s
  else (s.upMem fun m => memStore b (s.bufAddr (2 * h.mb + 1)) m).setBox h.mb fun x => { x with doneLen := b.length }
/-- The cursor of the next data of a held response (R255). -/
def cursorBytes (number off : Nat) : List Byte := leBytes 8 (number * 2 ^ 32 + off)
/-- A response, in segments where it exceeds the buffer (R254); the response number is free (log 3). -/
def State.respond (h : Hdr) (code status : Nat) (data : List Byte) (s : State) : State :=
  let s := s.countRefusal status
  if data.length ≤ s.rspRoom h.mb then s.putResponse h code status data
  else
    let number := (Config.freeWord s.free).toNat
    let n := s.rspRoom h.mb - 8
    (((s.useFree.setBox h.mb fun x => { x with held := some { code := code, number := number, status := status, data := data, off := n } }).msgCount 6).putResponse
      h code stPartial (cursorBytes number n ++ data.take n))
/-- A continuation: the next segment from the copy, or a refusal that leaves a valid cursor valid (R254, R255). -/
def State.nextSegment (code : Nat) (r : Req) (s : State) : State :=
  if r.payload.length != 8 then s.respond (hdrOf r) code stLength []
  else match (s.box r.mb).held with
    | none => s.respond (hdrOf r) code stRange []
    | some x =>
      if x.code != code || field r.payload 4 4 != x.number || field r.payload 0 4 != x.off then s.respond (hdrOf r) code stRange []
      else
        let rest := x.data.drop x.off
        let n := s.rspRoom r.mb - 8
        if rest.length ≤ s.rspRoom r.mb then
          ((s.setBox r.mb fun b => { b with held := none }).msgCount 6).putResponse (hdrOf r) code x.status rest
        else
          ((s.setBox r.mb fun b => { b with held := some { x with off := x.off + n } }).msgCount 6).putResponse (hdrOf r) code stPartial
            (cursorBytes x.number (x.off + n) ++ rest.take n)

/-! ## Request checks (11 R251 Table 11.3) -/

/-- A row of Table 11.5: code, lowest role, modes (none listed: any), whether MB8–MB13 and MB14 accept it (R260, R261), the modes
on MB14, and the payload sizes of Table 11.6. -/
structure Cmd where
  code : Nat
  role : Nat
  modes : List Nat
  runtime : Bool
  twin : Bool
  twinModes : List Nat
  size : List Byte → Bool

def sizeIs (n : Nat) (b : List Byte) : Bool := b.length == n
/-- A command that MB8–MB15 do not single out, in any mode. -/
def plainCmd (code role n : Nat) : Cmd :=
  { code := code, role := role, modes := [], runtime := false, twin := false, twinModes := [], size := sizeIs n }
/-- The codes of Table 11.5. -/
def definedCodes : List Nat :=
  [0x0000, 0x0001, 0x0002, 0x0003, 0x0100, 0x0101, 0x0102, 0x0103, 0x0200, 0x0201, 0x0300, 0x0301, 0x0302, 0x0303, 0x0400, 0x0401, 0x0402,
   0x0403, 0x0404, 0x0500, 0x0501, 0x0502, 0x0503, 0x0504, 0x0505, 0x0600, 0x0601, 0x0700, 0x0701, 0x0702, 0x0703, 0x0800, 0x0900, 0x0901,
   0x0A00, 0x0A01, 0x0A02, 0x0B00]
/-- The rights of a mailbox (R259–R262): MB0–MB7 the session's role, MB8–MB13 OPERATOR, MB15 ENGINEER while debug is open. -/
def State.rights (s : State) (mb : Nat) : Nat :=
  if mb < 8 then (s.box mb).role else if mb < 14 then 2 else if mb = 15 then (if s.gate.debugOpen then 3 else 0) else 4
/-- Row 8: role, and command permitted on this mailbox. -/
def State.permitted (s : State) (c : Cmd) (mb : Nat) : Bool :=
  if mb < 8 then c.code == 0 || c.code == 1 || decide (c.role ≤ s.rights mb)
  else if mb < 14 then c.runtime else if mb = 14 then c.twin else c.code == 0 || (s.gate.debugOpen && decide (c.role ≤ 3))
/-- Row 9. -/
def State.inModes (s : State) (c : Cmd) (mb : Nat) : Bool :=
  let ms := if mb = 14 && !c.twinModes.isEmpty then c.twinModes else c.modes
  ms.isEmpty || ms.contains s.power.mode
/-- Row 6: the SESSION field; a connection without a session serves `IDENTIFY` and `SESSION_OPEN` (R258). -/
def State.sessionOk (s : State) (code : Nat) (r : Req) : Bool :=
  if 8 ≤ r.mb then r.session == 0
  else if code = 1 then r.session == 0
  else if code = 0 then r.session == 0 || r.session == (s.box r.mb).sid
  else (s.box r.mb).sid != 0 && r.session == (s.box r.mb).sid
/-- Rows 1 to 6, before the command is known; in BOOT every request is answered with STATE (R178). -/
def State.refusedEarly (s : State) (code : Nat) (r : Req) : Option Nat :=
  if s.power.mode = 1 then some stState
  else if r.version != 1 then some stVersion
  else if s.reqRoom r.mb < r.length then some stLength
  else if !reqCrcOk code r then some stIntegrity
  else if bit r.flags 0 || bits r.flags 2 6 != 0 || r.status != 0 then some stRange
  else if r.mb < 8 && (s.box r.mb).busy then some stBusy
  else if !s.sessionOk code r then some stDenied
  else none
/-- Rows 7 to 10. -/
def State.refusedLate (s : State) (c : Cmd) (r : Req) : Option Nat :=
  if !definedCodes.contains c.code then some stUnknown
  else if !s.permitted c r.mb then some stDenied
  else if !s.inModes c r.mb then some stState
  else if !c.size r.payload then some stLength
  else none

/-! ## Sessions (11 R257, R258) -/

/-- A session ends: its recorder window and its held response end, and debug that it opened closes (17 R377, 12 R291). -/
def State.endSession (mb : Nat) (s : State) : State :=
  let x := s.box mb
  let s := s.setBox mb fun x => { x with sid := 0, role := 0, held := none, window := none }
  if x.sid = 0 then s
  else
    let s := s.record 0x0102 [(4, x.sid)]
    if s.gate.debugMb = some mb then s.closeDebug else s
/-- A connection is gone. -/
def State.dropConnection (mb : Nat) (s : State) : State :=
  if 16 ≤ mb then s.upMsg fun m => { m with extra := m.extra - 1 }
  else (s.endSession mb).setBox mb fun x => { x with connected := false, granted := 0, fingerprint := [], busy := false }
/-- The module closes a connection. -/
def State.closeConnection (mb : Nat) (s : State) : State := (s.dropConnection mb).emit (.close mb)

/-! ## Serving a request -/

/-- The message ends where its header says; on E0 the module waits for missing bytes (R253), and beyond the room it reads no payload. -/
def State.whole (s : State) (r : Req) : Bool := decide (s.reqRoom r.mb < r.length) || r.payload.length == r.length
/-- A request reaches the steward: the die runs; on E0 its connection is open and the message whole (R252, R253). -/
def State.reaches (s : State) (r : Req) : Bool :=
  s.awake && (if r.mb < 8 then (s.box r.mb).connected && s.whole r else if r.mb < 16 then true else decide (0 < s.msg.extra))
/-- A request is taken: counted, and without CONTINUATION it ends a held response (R252, R255). -/
def State.take (r : Req) (s : State) : State :=
  (s.setBox r.mb fun x =>
    { x with lastAt := s.time.now, held := if continues r then x.held else none,
             post := if 8 ≤ r.mb && x.post == 0 then 20 + r.payload.length else x.post }).msgCount 0
/-- MB8–MB15: another post while one is outstanding is ignored and counted (R249). -/
def State.postBusy (s : State) (r : Req) : Bool := decide (8 ≤ r.mb) && decide (r.mb < 16) && ((s.box r.mb).busy || (s.box r.mb).doneLen != 0)
/-- MB8–MB15: the posted length is not 20 plus LENGTH, or exceeds the buffer (R249). -/
def State.postBad (s : State) (r : Req) : Bool :=
  decide (8 ≤ r.mb) && (r.payload.length != r.length || decide (s.reqRoom r.mb < r.payload.length))
/-- One request through Table 11.3. `body` answers with a status and data, or with none when the response comes later. The
answer is the state and the status of an executed command. -/
def State.serve (c : Cmd) (r : Req) (body : State → State × Option (Nat × List Byte)) (s : State) : State × Option Nat :=
  if !s.reaches r then (s, none)
  else if s.postBusy r then (s.msgCount 12, none)
  else
    let s := s.take r
    if 16 ≤ r.mb then ((s.respond (hdrOf r) c.code stBusy []).closeConnection 16, none)
    else if s.power.mode != 1 && s.postBad r then (s.respond (hdrOf r) c.code stLength [], none)
    else match s.refusedEarly c.code r with
      | some st =>
        let s' := s.respond (hdrOf r) c.code st []
        (if r.mb < 8 && st == stLength then s'.closeConnection r.mb else s', none)
      | none =>
        if continues r && definedCodes.contains c.code then (s.nextSegment c.code r, none)
        else match s.refusedLate c r with
          | some st => (s.respond (hdrOf r) c.code st [], none)
          | none =>
            match body s with
            | (s, some (st, data)) => (s.respond (hdrOf r) c.code st data, some st)
            | (s, none) => (s.setBox r.mb fun x => { x with busy := true }, none)
/-- The state after a request. -/
def State.run (c : Cmd) (r : Req) (body : State → State × Option (Nat × List Byte)) (s : State) : State := (s.serve c r body).1
/-- A body that changes nothing. -/
def reply (status : Nat) (data : List Byte) (s : State) : State × Option (Nat × List Byte) := (s, some (status, data))
/-- A command's own checks in order: the first refusal, or the effect. -/
def guarded (checks : List (State → Option Nat)) (body : State → State × Option (Nat × List Byte)) (s : State) :
    State × Option (Nat × List Byte) :=
  match checks.findSome? fun f => f s with
  | some st => (s, some (st, []))
  | none => body s
/-- A check: the status where the condition fails. -/
def need (ok : State → Bool) (status : Nat) (s : State) : Option Nat := if ok s then none else some status
/-- Reserved bytes are 0 (R263). -/
def reserved (b : List Byte) (off n : Nat) : State → Option Nat := need (fun _ => zeros b off n) stRange

/-! ## Jobs (11 R256) -/

/-- The next job id that is not 0 and not held. -/
def freeJobId (held : List Nat) : Nat → Nat → Nat
  | 0, id => id
  | n + 1, id => if id % 65536 = 0 || held.contains (id % 65536) then freeJobId held n (id + 1) else id % 65536
/-- The done job that ended first. -/
def oldestDone : List Job → Option Job
  | [] => none
  | j :: js =>
    if !j.done then oldestDone js
    else match oldestDone js with
      | some k => if k.endAt < j.endAt then some k else some j
      | none => some j
/-- Room for a further job: fewer than 64, or a done one to discard. -/
def State.jobRoom (s : State) : Bool := decide (s.msg.jobs.length < 64) || (oldestDone s.msg.jobs).isSome
/-- Start a job of a command; answers its id. -/
def State.startJob (code : Nat) (s : State) : State × Nat :=
  let s := if s.msg.jobs.length < 64 then s
    else match oldestDone s.msg.jobs with
      | some j => (s.upMsg fun m => { m with jobs := m.jobs.filter fun k => k.id != j.id }).msgCount 11
      | none => s
  let id := freeJobId (s.msg.jobs.map fun j => j.id) 70 s.msg.nextJob
  (s.upMsg fun m =>
    { m with nextJob := (id + 1) % 65536, jobs := m.jobs ++
        [{ id := id, cmd := code, done := false, progress := 0, status := 0, result := [], endAt := 0 }] }, id)
/-- The payload of `ACCEPTED`. -/
def jobPayload (id : Nat) : List Byte := leBytes 2 id ++ leBytes 2 0
/-- A command that starts a job, or `CAPACITY`. -/
def withJob (code : Nat) (k : Nat → State → State) (s : State) : State × Option (Nat × List Byte) :=
  if !s.jobRoom then reply stCapacity [] s
  else
    let (s, id) := s.startJob code
    reply stAccepted (jobPayload id) (k id s)
def State.job (s : State) (id : Nat) : Option Job := s.msg.jobs.find? fun j => j.id == id
def State.jobRunning (s : State) (id : Nat) : Bool := match s.job id with | some j => !j.done | none => false
/-- The job head and result of Table 11.6. -/
def jobBytes (j : Job) : List Byte :=
  leBytes 2 j.id ++ leBytes 2 j.cmd ++ leBytes 1 (if j.done then 2 else 1) ++ leBytes 1 0 ++ leBytes 2 j.progress ++
    leBytes 2 (if j.done then j.status else 0) ++ leBytes 2 0 ++ leBytes 4 (if j.done then j.result.length else 0) ++
    (if j.done then j.result else [])
/-- Progress of a running job in per-mille. -/
def State.setProgress (id p : Nat) (s : State) : State :=
  s.upMsg fun m => { m with jobs := m.jobs.map fun j => if j.id == id && !j.done then { j with progress := p } else j }

/-! ## MB14 towards the twin (11 R261) -/

/-- A request to the twin's steward for a job, or for none (0), whose time limit counts from an instant. -/
def State.askTwinFrom (from_ cmd : Nat) (payload : List Byte) (job : Nat) (s : State) : State :=
  let id := s.msg.mb14Next
  (s.upMsg fun m => { m with mb14Next := id + 1, mb14 := m.mb14 ++ [{ id := id, cmd := cmd, job := job, at_ := from_ }] }).emit (.mb14 id cmd payload)
/-- A request to the twin's steward now. -/
def State.askTwin (cmd : Nat) (payload : List Byte) (job : Nat) (s : State) : State := s.askTwinFrom s.time.now cmd payload job

/-! ## The commands of this chapter -/

def slotCode (s : State) : Nat := b2n s.slotB
/-- Version of the sown configuration; 0 if none. -/
def State.sownVersion (s : State) : Nat := if s.cfg.sown.present then s.conf.version else 0
/-- The 64 bytes of `IDENTIFY` (Table 11.6). -/
def State.identity (s : State) (mb : Nat) : List Byte :=
  padTo 8 (ascii "F9C-1") ++ leBytes 1 9 ++ leBytes 1 (slotCode s) ++ leBytes 1 s.power.mode ++ leBytes 1 s.sec.lifecycle ++
    leBytes 8 (Config.factory 0) ++ leBytes 4 s.sheaf.active ++ leBytes 4 s.sownVersion ++ leBytes 4 (2 ^ (s.box mb).reqLog) ++
    leBytes 4 (2 ^ (s.box mb).rspLog) ++ leBytes 2 1 ++ zeroBytes 26
def identifyCmd : Cmd := { plainCmd 0 0 0 with runtime := true, twin := true }
/-- Open sessions. -/
def State.sids (s : State) : List Nat := (s.msg.boxes.map fun x => x.sid).filter (· != 0)
/-- A random session id, never 0 and unique among the open ones: the free value, or the next number that fits (log 3). -/
def State.newSid (s : State) : Nat :=
  let w := (Config.freeWord s.free).toNat
  (((List.range 10).map fun k => (w + k) % 2 ^ 32).find? fun id => id != 0 && !s.sids.contains id).getD 1
/-- `SESSION_OPEN` (R258). A session opened on the estimate of R124 is recorded as such (R257). -/
def openSession (r : Req) : State → State × Option (Nat × List Byte) :=
  let role := field r.payload 0 1
  guarded [need (fun _ => decide (1 ≤ role) && decide (role ≤ 4)) stRange, reserved r.payload 1 3,
           need (fun s => decide (role ≤ (s.box r.mb).granted)) stDenied, need (fun s => (s.box r.mb).sid == 0) stState] fun s =>
    let id := s.newSid
    let s := ((s.useFree.setBox r.mb fun x => { x with sid := id, role := role }).msgCount 8).record 0x0101
      ([(4, id), (1, role)] ++ if s.tb0Valid then [] else [(1, 1)])
    reply stOk (leBytes 4 id ++ leBytes 1 role ++ zeroBytes 3) s
def jobStatusCmd : Cmd := { plainCmd 3 1 4 with twin := true }
def jobStatus (r : Req) : State → State × Option (Nat × List Byte) :=
  guarded [reserved r.payload 2 2] fun s =>
    match s.job (field r.payload 0 2) with | some j => reply stOk (jobBytes j) s | none => reply stUnknown [] s
def modeGetCmd : Cmd := { plainCmd 0x100 1 0 with runtime := true, twin := true }
/-- The 8 bytes of `MODE_GET`. -/
def State.modeBytes (s : State) : List Byte :=
  leBytes 1 s.power.mode ++ leBytes 1 s.power.reason ++ leBytes 1 s.pair.twinMode ++ leBytes 1 (b2n s.pair.owner + 2 * b2n s.pair.synced) ++
    leBytes 4 s.pair.term

/-! ## Control words (11 R249) -/

/-- A write of POST: ignored while it is not 0; a length that does not fit the message is answered with LENGTH. -/
def State.postWrite (mb len : Nat) (s : State) : State :=
  if (s.box mb).post != 0 || (s.box mb).doneLen != 0 then s.msgCount 12
  else
    let h := memReadBytes s.mem (s.bufAddr (2 * mb)) 16
    let s := s.setBox mb fun x => { x with post := len, lastAt := s.time.now }
    if len < 20 || 2 ^ (s.box mb).reqLog < len || len != 20 + field h 8 4 then
      ((s.msgCount 0).setBox mb fun x => { x with held := none }).respond { mb := mb, tag := field h 4 2, session := field h 12 4 } (field h 2 2)
        (if s.power.mode = 1 then stState else stLength) []
    else s
/-- A write of 0 to DONE ends the exchange. -/
def State.doneWrite (mb : Nat) (s : State) : State :=
  if (s.box mb).doneLen = 0 then s else s.setBox mb fun x => { x with doneLen := 0, post := 0 }

/-! ## TLS (11 R257, R258; 12 R288) -/

/-- E0 accepts connections once the steward runs, in PROVISIONED and OPERATIONAL. -/
def State.e0Open (s : State) : Bool :=
  s.awake && !s.boot.halted && (s.power.mode != 1 || decide (2 ≤ s.boot.step)) && (s.sec.lifecycle == 1 || s.sec.lifecycle == 2)
/-- The highest role that the role table grants a fingerprint. -/
def State.grantedRole (s : State) (fingerprint : List Byte) : Option Nat :=
  (s.sec.roles.find? fun e => e.2.1 == fingerprint).map fun e => e.2.2
/-- A handshake ends: the connection takes a free mailbox, or is one more beyond the eight, or is refused. -/
def State.handshake (verified : Bool) (fingerprint : List Byte) (s : State) : State :=
  match (if verified then s.grantedRole fingerprint else none) with
  | none => (s.msgCount 9).emit .tlsAlert
  | some role =>
    match (List.range 8).find? fun n => !(s.box n).connected with
    | some n => s.setBox n fun x =>
        { x with connected := true, granted := role, fingerprint := fingerprint, role := 0, sid := 0, busy := false, held := none, lastAt := s.time.now }
    | none => s.upMsg fun m => { m with extra := m.extra + 1 }
/-- A time has passed since the last request on a mailbox. -/
def State.idleFor (s : State) (mb sec : Nat) : Bool := decide ((s.box mb).lastAt + secTicks sec ≤ s.time.now)

/-! ## The meanings -/

def execIdentify (t : Nat) (r : Req) (s : State) : Host.Outcome State Fault Refusal :=
  happens t s State.awake (State.run identifyCmd r fun s => reply stOk (s.identity r.mb) s)
def execSessionOpen (t : Nat) (r : Req) (s : State) : Host.Outcome State Fault Refusal :=
  happens t s State.awake (State.run (plainCmd 1 0 4) r (openSession r))
/-- SESSION_CLOSE (R258): the connection closes after the response. -/
def execSessionClose (t : Nat) (r : Req) (s : State) : Host.Outcome State Fault Refusal :=
  happens t s State.awake fun s =>
    match s.serve (plainCmd 2 1 0) r (reply stOk []) with
    | (s, some _) => if r.mb < 8 then s.closeConnection r.mb else s
    | (s, none) => s
def execJobStatus (t : Nat) (r : Req) (s : State) : Host.Outcome State Fault Refusal :=
  happens t s State.awake (State.run jobStatusCmd r (jobStatus r))
def execModeGet (t : Nat) (r : Req) (s : State) : Host.Outcome State Fault Refusal :=
  happens t s State.awake (State.run modeGetCmd r fun s => reply stOk s.modeBytes s)
/-- CONTINUATION (R254): a request of a command code with CONTINUATION set. -/
def execContinuation (t code : Nat) (r : Req) (s : State) : Host.Outcome State Fault Refusal :=
  happens t s State.awake (State.run (plainCmd code 0 8) { r with flags := setBits r.flags 1 1 1 } (reply stRange []))
/-- UNDEFINED_COMMAND (R251): a code that Table 11.5 does not hold. -/
def execUndefinedCommand (t code : Nat) (r : Req) (s : State) : Host.Outcome State Fault Refusal :=
  happens t s (fun s => s.awake && !definedCodes.contains code) (State.run (plainCmd code 0 0) r (reply stUnknown []))
def execPost (t mb len : Nat) (s : State) : Host.Outcome State Fault Refusal :=
  happens t s (fun s => s.awake && decide (8 ≤ mb) && decide (mb < 16)) (State.postWrite mb len)
def execDoneClear (t mb : Nat) (s : State) : Host.Outcome State Fault Refusal :=
  happens t s (fun s => s.awake && decide (8 ≤ mb) && decide (mb < 16)) (State.doneWrite mb)
def execTlsHandshake (t : Nat) (verified : Bool) (fingerprint : List Byte) (s : State) : Host.Outcome State Fault Refusal :=
  happens t s State.e0Open (State.handshake verified fingerprint)
/-- HANDSHAKE_TIMEOUT (R257): the handshake is aborted; it had no mailbox yet (17). -/
def execHandshakeTimeout (t : Nat) (s : State) : Host.Outcome State Fault Refusal := happens t s State.e0Open (State.emit (.close 17))
def execConnectionClosed (t mb : Nat) (s : State) : Host.Outcome State Fault Refusal :=
  happens t s (fun s => s.awake && (if mb < 8 then (s.box mb).connected else mb == 16 && decide (0 < s.msg.extra))) (State.dropConnection mb)
/-- SESSION_IDLE_TIMEOUT (R258). -/
def execSessionIdleTimeout (t mb : Nat) (s : State) : Host.Outcome State Fault Refusal :=
  happens t s (fun s => s.awake && decide (mb < 8) && (s.box mb).sid != 0 && s.idleFor mb 600) fun s => (s.msgCount 10).endSession mb
/-- CURSOR_EXPIRY (R255). -/
def execCursorExpiry (t mb : Nat) (s : State) : Host.Outcome State Fault Refusal :=
  happens t s (fun s => s.awake && (s.box mb).held.isSome && s.idleFor mb 60) fun s =>
    (s.setBox mb fun x => { x with held := none }).msgCount 7
/-- JOB_EXPIRY (R256). -/
def execJobExpiry (t job : Nat) (s : State) : Host.Outcome State Fault Refusal :=
  happens t s State.awake fun s =>
    s.upMsg fun m => { m with jobs := m.jobs.filter fun j => !(j.id == job && j.done && decide (j.endAt + secTicks 600 ≤ s.time.now)) }

end Sys2Proof.Machine
end

