-- ==== Sys2Proof/Machine/Secure.lean ====
section
/-! DEFINITION. Gate rules and their commit, debug, the secure partition, key records and the life cycle (12 R280–R292, 13 R313). -/

namespace Sys2Proof.Machine

/-! ## Gates (12 R280–R284; 01 Table 1.4) -/

/-- The target of each gate, first and last address, in the order of gates 0 to 23. -/
def gateRanges : List (Nat × Nat) :=
  [(0x00000000, 0x02FFFFFF), (0x03000000, 0x05FFFFFF), (0x06000000, 0x077FFFFF), (0x07800000, 0x087FFFFF), (0x08800000, 0x089FFFFF),
   (0x08A00000, 0x099FFFFF), (0x09A00000, 0x0A9FFFFF), (0x0AA00000, 0x0ABFFFFF), (0x0AC00000, 0x0BFFFFFF), (0x0C000000, 0x0C1FFFFF),
   (0x0C200000, 0x0C2FFFFF), (0x1000000000, 0x13FFFFFFFF), (0x0D000000, 0x0D0FFFFF), (0x0D100000, 0x0D1FFFFF), (0x0D200000, 0x0D2FFFFF),
   (0x0D300000, 0x0D3FFFFF), (0x0D400000, 0x0D4FFFFF), (0x0D500000, 0x0D5FFFFF), (0x0D600000, 0x0D6FFFFF), (0x0D700000, 0x0D7FFFFF),
   (0x0D800000, 0x0D8FFFFF), (0x0D900000, 0x0D9FFFFF), (0x0DA00000, 0x0DAFFFFF), (0x0DB00000, 0x0DBFFFFF)]
def gateRange (g : Nat) : Nat × Nat := gateRanges.getD g (1, 0)
/-- The gate whose target holds an address; none where the map lists nothing (01 R14). -/
def gateOf (a : Nat) : Option Nat := (List.range 24).find? fun g => decide ((gateRange g).1 ≤ a) && decide (a ≤ (gateRange g).2)
/-- The four words of an enabled rule (Table 12.2); `perm` is bits [6:2] of word 3. -/
def ruleWords (lo hi masters perm : Nat) : List Nat :=
  [lo / 32 % 2 ^ 32, hi / 32 % 2 ^ 32, masters, hi / 2 ^ 37 * 2 ^ 11 + lo / 2 ^ 37 * 2 ^ 8 + 0x80 + 4 * perm]
def allMasters : Nat := 0x7FFFF
def master18 : Nat := 0x40000
/-- Permissions: user read and write, both privileges, and privileged under SECURE. -/
def permUser : Nat := 3
def permBoth : Nat := 15
def permSecure : Nat := 28
/-- The rules that the steward writes itself (Table 12.3). -/
def State.fixedRules (s : State) : List (Nat × Nat × List Nat) :=
  [(9, 0, ruleWords (s.bufAddr 30) (s.bufAddr 30 + 2 ^ s.bufLog 30 - 1) master18 permUser),
   (9, 1, ruleWords (s.bufAddr 31) (s.bufAddr 31 + 2 ^ s.bufLog 31 - 1) master18 permUser),
   (10, 0, ruleWords 0x0C200000 0x0C2FFFFF allMasters permSecure),
   (23, 0, ruleWords 0x0DBF01E0 0x0DBF01FF master18 permUser), (23, 1, ruleWords 0x0DB00000 0x0DB1FFFF allMasters permSecure),
   (23, 2, ruleWords 0x0DBF0100 0x0DBF01BF 0xFF permBoth)]
/-- The debug rules: rule N − 1 of every gate except 10 and 23 (R291). -/
def debugRules : List (Nat × Nat × List Nat) :=
  ((List.range 24).filter fun g => g != 10 && g != 23).map fun g =>
    (g, ruleCount g - 1, ruleWords (gateRange g).1 (gateRange g).2 master18 permUser)
/-- All rules: the fixed ones, the protection map of the sown configuration, and the debug rules while debug is open. -/
def State.rulesOf (s : State) : List (Nat × Nat × List Nat) :=
  s.fixedRules ++ (s.conf.gates.map fun e => (e.gate, e.rule, e.words)) ++ (if s.gate.debugOpen then debugRules else [])
/-- A commit (R284): the epoch goes on, and old-epoch accesses drain. -/
def GateSt.commit (rules : List (Nat × Nat × List Nat)) (g : GateSt) : GateSt :=
  { g with active := rules, shadow := rules, epoch := (g.epoch + 1) % 2 ^ 32, commits := inc32 g.commits, draining := true }
def State.installRules (s : State) : State := s.upGate (GateSt.commit s.rulesOf)
/-- Open debug in MAINTENANCE (R291), by the OWNER session of a mailbox or, in BLANK, by none. -/
def State.openDebug (mb : Option Nat) (s : State) : State :=
  if s.gate.debugOpen || s.power.mode != 2 then s
  else
    let s := s.upGate fun g => { g with debugOpen := true, debugMb := mb, debugOpens := inc32 g.debugOpens }
    s.installRules.record 0x0902 [(1, 1)]

/-! ## Key records (12 R289) -/

/-- An item of a key record: type, index, flags and data. -/
structure KeyItem where
  type : Nat
  index : Nat
  flags : Nat
  data : List Byte

/-- The items of a count, with the bytes left over. -/
def parseKeyItems : Nat → List Byte → Option (List KeyItem × List Byte)
  | 0, b => some ([], b)
  | n + 1, b =>
    let len := field b 4 4
    let size := 8 + (len + 7) / 8 * 8
    if b.length < 8 || b.length < size then none
    else (parseKeyItems n (b.drop size)).map fun r =>
      ({ type := field b 0 1, index := field b 1 1, flags := field b 2 2, data := slice b 8 len } :: r.1, r.2)
/-- Type, index, flags and data length of Table 12.6; an item to delete may carry no data (log 40). -/
def keyItemOk (i : KeyItem) : Bool :=
  let n := i.data.length
  let del := bit i.flags 0
  decide (i.flags < 2) && match i.type with
    | 1 => i.index == 0 && (n == 48 || (del && n == 0))
    | 2 => i.index == 0 && ((decide (1 ≤ n) && decide (n ≤ 8192)) || (del && n == 0))
    | 3 => decide (i.index < 8) && ((decide (1 ≤ n) && decide (n ≤ 2048)) || (del && n == 0))
    | 4 => (n == 56 && decide (1 ≤ field i.data 48 1) && decide (field i.data 48 1 ≤ 4) && zeros i.data 49 7) || (del && n == 0)
    | 5 => decide (i.index < 8) && (n == 97 || (del && n == 0))
    | 6 => decide (i.index < 4) && (n == 97 || (del && n == 0))
    | _ => false
/-- Set or delete the entry of an index. -/
def setKey (del : Bool) (i : Nat) (v : List Byte) (l : List (Nat × List Byte)) : List (Nat × List Byte) :=
  let l := l.filter fun e => e.1 != i
  if del then l else (i, v) :: l
/-- One item applied to the content of the partition. -/
def SecureSt.apply (i : KeyItem) (c : SecureSt) : SecureSt :=
  let del := bit i.flags 0
  match i.type with
  | 1 => { c with serverKey := if del then [] else i.data }
  | 2 => { c with chain := if del then [] else i.data }
  | 3 => { c with anchors := setKey del i.index i.data c.anchors }
  | 4 =>
    let rest := c.roles.filter fun e => e.1 != i.index
    { c with roles := if del then rest else (i.index, slice i.data 0 48, field i.data 48 1) :: rest }
  | 5 => { c with cfgKeys := setKey del i.index i.data c.cfgKeys }
  | _ => { c with sheafKeys := setKey del i.index i.data c.sheafKeys }
/-- A result holds a server key matching its leaf, a trust anchor, an OWNER role, a configuration key and a Sheaf key. -/
def SecureSt.complete (c : SecureSt) : Bool :=
  !c.serverKey.isEmpty && !c.chain.isEmpty && Config.keyMatches c.serverKey c.chain && !c.anchors.isEmpty &&
    c.roles.any (fun e => e.2.2 == 4) && !c.cfgKeys.isEmpty && !c.sheafKeys.isEmpty
def SecureSt.hasCfgKey (c : SecureSt) (i : Nat) : Bool := c.cfgKeys.any fun e => e.1 == i
def stagingBytes (c : SecureSt) (off n : Nat) : List Byte := (List.range n).map fun i => cellsRead c.staging (off + i)
/-- The record that stands in the staging buffer: its total length counts the head (log 40). -/
def keyRecord (c : SecureSt) : List Byte := stagingBytes c 0 (min 65536 (max 16 (field (stagingBytes c 8 4) 0 4)))
/-- What a record makes of the content, where its head and items are well formed. -/
def SecureSt.applied (kr : List Byte) (c : SecureSt) : Option SecureSt :=
  if slice kr 0 4 != ascii "F9KR" || !zeros kr 6 2 || field kr 8 4 != kr.length then none
  else match parseKeyItems (field kr 4 2) (kr.drop 16) with
    | some (items, []) => if items.all keyItemOk then some (items.foldl (fun c i => c.apply i) c) else none
    | _ => none
/-- The checks of a commit, in order. -/
def State.keyCommitCheck (s : State) : Option Nat :=
  let kr := keyRecord s.sec
  if (crc32c (kr.drop 16)).toNat != field kr 12 4 then some stIntegrity
  else match s.sec.applied kr with
    | none => some stRange
    | some c =>
      if !c.complete then some stRange
      else if [s.cfg.sown, s.cfg.fallow, s.cfg.seed].any fun x => x.present && s.sec.hasCfgKey x.cfg.keyIndex && !c.hasCfgKey x.cfg.keyIndex then
        some stConflict
      else none
/-- Sessions whose certificate is no longer in the role table end. -/
def State.endRevoked (s : State) : State :=
  (List.range 8).foldl (fun s n =>
    if (s.box n).connected && (s.grantedRole (s.box n).fingerprint).isNone then (s.endSession n).setBox n fun x => { x with granted := 0 }
    else s) s
/-- A commit that passes: pending in BLANK, else in effect and sealed (R289). -/
def State.keyCommit (s : State) : State :=
  let kr := keyRecord s.sec
  if s.sec.lifecycle = 0 then s.upSec fun c => { c with pendingRec := some kr }
  else match s.sec.applied kr with
    | some c => ((s.upSec fun _ => { c with sealedRec := true }).record 0x0804 []).endRevoked
    | none => s
/-- A word of the key window. -/
def State.keyWindow (n : Nat) (v : Nat) (s : State) : State :=
  s.upSec fun c => { c with staging := ((List.range 4).foldl (fun l i => cellsWrite l (1024 * c.windowBase + 4 * n + i) (BitVec.ofNat 8 (v / 2 ^ (8 * i)))) c.staging) }
/-- `MEM.KEY_CTRL`: 1 sets the window base, 2 commits, 3 discards the staging. -/
def State.keyCtrl (v : Nat) (s : State) : State :=
  match bits v 6 2 with
  | 1 => s.upSec fun c => { c with windowBase := bits v 0 6 }
  | 2 => s.keyCommit
  | 3 => s.upSec fun c => { c with staging := [] }
  | _ => s

/-! ## Wipes and the life cycle (12 R287, R288) -/

/-- The partition's content is gone. -/
def SecureSt.wiped (c : SecureSt) : SecureSt :=
  { c with serverKey := [], chain := [], anchors := [], roles := [], cfgKeys := [], sheafKeys := [], ownerLock := false }
/-- Every open session ends, with the session keys of its connection. -/
def State.endAllSessions (s : State) : State :=
  let s := (List.range 8).foldl (fun s n => if (s.box n).connected then s.closeConnection n else s) s
  s.upMsg fun m => { m with extra := 0 }
/-- A wipe for a reason of `MEM.LAST_WIPE_REASON`. -/
def State.wipe (reason : Nat) (s : State) : State :=
  let s := (s.upSec fun c => { c.wiped with wipes := inc32 c.wipes, wipeReason := reason, wipeS := s.tb3s % 2 ^ 32 }).upMem fun m => memClear m 0x0C200000 0x0C2FFFFF
  s.endAllSessions.closeDebug
/-- A tamper: wiped, the sealed record destroyed, and BLANK unless the fuse says DECOMMISSIONED. -/
def State.tamperWipe (reason : Nat) (s : State) : State :=
  let s := (s.wipe reason).upSec fun c =>
    { c with lifecycle := if c.fuse then 3 else 0, latch := if c.fuse then 3 else 0, sealedRec := false, pendingRec := none, staging := [],
             advanceTo := none }
  s.record 0x0803 [(1, reason), (1, s.sec.lifecycle)]
/-- The erasure at DECOMMISSIONED (Table 12.5): slots with the snapshot, and the recorder ring; its sequence goes on (17 R376). -/
def State.eraseStore (s : State) : State :=
  (s.upCfg fun c => { c with sown := Slot.empty, fallow := Slot.empty, seed := Slot.empty }).upLog fun l => { l with ring := [] }
/-- A change of the life-cycle state (Table 12.5). -/
def State.advance (target : Nat) (s : State) : State :=
  let kept := s.sec
  let s := s.wipe 5
  let s := match target with
    | 1 =>
      (match kept.pendingRec.bind fun r => s.sec.applied r with
       | some c => s.upSec fun _ => { c with lifecycle := 1, latch := 1, sealedRec := true, pendingRec := none, staging := [] }
       | none => s)
    | 2 => s.upSec fun c =>
        { c with serverKey := kept.serverKey, chain := kept.chain, anchors := kept.anchors, roles := kept.roles, cfgKeys := kept.cfgKeys,
                 sheafKeys := kept.sheafKeys, lifecycle := 2, latch := 2 }
    | _ => (s.upSec fun c => { c with lifecycle := 3, latch := 3, fuse := true, sealedRec := false }).eraseStore
  s.record 0x0803 [(1, 5), (1, s.sec.lifecycle)]

/-! ## Commands -/

/-- Target 1 on MB15 needs no role; the others need OWNER. -/
def lifecycleCmd (r : Req) : Cmd :=
  { plainCmd 0x0A02 (if r.mb = 15 && field r.payload 0 1 == 1 then 0 else 4) 4 with modes := [2] }
/-- The transition of Table 12.5 that a target asks for exists. -/
def State.mayAdvance (s : State) (mb target : Nat) : Bool :=
  (target == 1 && s.sec.lifecycle == 0 && mb == 15 && s.sec.pendingRec.isSome) || (target == 2 && s.sec.lifecycle == 1) ||
    (target == 3 && (s.sec.lifecycle == 1 || s.sec.lifecycle == 2))
def lifecycleBody (r : Req) : State → State × Option (Nat × List Byte) :=
  let target := field r.payload 0 1
  guarded [reserved r.payload 1 3, need (fun s => s.sec.advanceTo.isNone) stBusy, need (fun s => s.mayAdvance r.mb target) stState]
    (withJob 0x0A02 fun id s => s.upSec fun c => { c with advanceTo := some (target, id) })
/-- `OWNER_LOCK` and `OWNER_UNLOCK` (13 R313). -/
def lockBody (lock : Bool) (r : Req) (s : State) : State × Option (Nat × List Byte) :=
  if s.sec.ownerLock = lock then reply stOk [] s
  else reply stOk [] ((s.upSec fun c => { c with ownerLock := lock }).record 0x0A04 [(4, r.session), (1, b2n lock)])

def execOwnerLock (t : Nat) (r : Req) (s : State) : Host.Outcome State Fault Refusal :=
  happens t s State.awake (State.run (plainCmd 0x0A00 4 0) r (lockBody true r))
def execOwnerUnlock (t : Nat) (r : Req) (s : State) : Host.Outcome State Fault Refusal :=
  happens t s State.awake (State.run (plainCmd 0x0A01 4 0) r (lockBody false r))
/-- LIFECYCLE_ADVANCE (12 R288). -/
def execLifecycleAdvance (t : Nat) (r : Req) (s : State) : Host.Outcome State Fault Refusal :=
  happens t s State.awake (State.run (lifecycleCmd r) r (lifecycleBody r))
/-- LIFECYCLE_JOB_END (12 R288): the wipe and what follows it. -/
def execLifecycleJobEnd (t : Nat) (s : State) : Host.Outcome State Fault Refusal :=
  happens t s (fun s => s.awake && s.power.mode == 2) fun s =>
    match s.sec.advanceTo with
    | some (target, id) => ((s.upSec fun c => { c with advanceTo := none }).advance target).endJob id stOk []
    | none => s
/-- GATE_COMMIT (12 R284): the shadow set takes effect; none before the last commit is done. -/
def execGateCommit (t : Nat) (s : State) : Host.Outcome State Fault Refusal :=
  happens t s (fun s => s.awake && !s.gate.draining) fun s => s.upGate fun g => g.commit g.shadow
def execCommitDrainDone (t : Nat) (s : State) : Host.Outcome State Fault Refusal :=
  happens t s (fun s => s.gate.draining) fun s => s.upGate fun g => { g with draining := false }

end Sys2Proof.Machine
end

