-- ==== Sys2Proof/Machine/Params.lean ====
section
/-! DEFINITION. The sixteen parameter blocks: every word as it reads, and what its write does (11 R265–R267 and the block tables
of the chapters). -/

namespace Sys2Proof.Machine

def half (hi lo : Nat) : Nat := hi % 65536 * 65536 + lo % 65536
/-- Bit n of a word from the n-th condition. -/
def flagWord (l : List Bool) : Nat := (mapFrom (fun n b => b * 2 ^ n) 0 (l.map b2n)).sum
def s16 (x : Int) : Nat := satSigned 16 x
def s32 (x : Int) : Nat := satSigned 32 x

/-! ## What the words read -/

/-- Block 0x01 (11 Table 11.11). -/
def State.identWord (s : State) (w : Nat) : Nat :=
  if w = 0 then 0x2D433946 else if w = 1 then 0x31 else if w = 2 then s.sec.lifecycle * 2 ^ 24 + 1 * 2 ^ 16 + 9
  else if w = 3 then Config.factory 0 % 2 ^ 32 else if w = 4 then Config.factory 0 / 2 ^ 32 % 2 ^ 32
  else if w = 5 then half (Config.factory 1) (Config.factory 2) else if w = 6 then s.sheaf.active else if w = 7 then s.sownVersion
  else if w = 8 then s.conf.map.e0Port else if w = 9 then s.sids.length
  else if 0x10 ≤ w && w < 0x20 then (s.box (w - 0x10)).rspLog * 256 + (s.box (w - 0x10)).reqLog
  else if 0x20 ≤ w && w < 0x30 then (s.box (w - 0x20)).rspNext * 256 + (s.box (w - 0x20)).reqNext
  else if 0x30 ≤ w && w < 0x40 then
    half (s.bufAddr (2 * (w - 0x30) + 1) % 0x200000 / 256) (s.bufAddr (2 * (w - 0x30)) % 0x200000 / 256)
  else 0
/-- Seconds that the module in the home slot has been a synchronised STANDBY (07 R170). -/
def State.settleElapsed (s : State) : Nat :=
  if s.power.mode == 4 && s.pair.synced && s.inHomeSlot then sat32 ((s.time.now - s.pair.settleFrom) / 250000000) else 0
/-- Per-mille of 5.8 × 10⁹ bytes shipped in the last full second of TB3. -/
def State.swathLoad (s : State) : Nat :=
  if s.cnt.loadSec = s.tb3s then s.cnt.loadLast
  else if s.cnt.loadSec + 1 = s.tb3s then s.cnt.loadBytes * 1000 / 5800000000 else 0
/-- Block 0x02 (07 Table 7.9). -/
def State.pairWord (s : State) (w : Nat) : Nat :=
  let p := s.pair
  let k := s.cnt
  if w ≤ 23 then
    [
     p.slotId % 64 * 2 ^ 24 + p.twinMode * 2 ^ 16 + s.power.mode * 2 ^ 8 + flagWord [p.owner, p.isolated, p.synced, p.homeArmed],
     p.term,
     flagWord [p.lane0, p.lane1, s.swathSilent, p.ownClaim, p.twinClaim, p.ownReadback, p.malformed, p.hedgeFault],
     s.conf.pair.homeSlot % 4, s.conf.pair.homeSettle, half s.conf.pair.provePeriodH (b2n s.conf.pair.proveEnable),
     s.conf.pair.proveDwellS, s.settleElapsed,
     (if s.conf.pair.proveEnable then p.ownerSince + 3600 * s.conf.pair.provePeriodH - s.tb3s else 0xFFFFFFFF),
     k.takeovers, k.handovers, k.deferrals, k.missedApply, k.lastTakeoverNs, k.ckptLate, k.hearGaps, k.repairPoints,
     k.swathErrors, k.tieBreaks, k.fencedExits, half (max k.loadPeak s.swathLoad) s.swathLoad, k.proof % 32, k.proofFails,
     k.lastProvedS].getD w 0
  else if 0x20 ≤ w && w < 0x3A then k.unproven.getD (w - 0x20) 0 else 0
/-- Applications in the last full second of TB3 (02 Table 2.12). -/
def State.rateLast (s : State) : Nat :=
  if s.pts.rateSec = s.tb3s then s.pts.rateLast else if s.pts.rateSec + 1 = s.tb3s then sat32 s.pts.rateCount else 0
/-- Block 0x03 (02 Table 2.12). -/
def State.pointsWord (s : State) (w : Nat) : Nat :=
  if w ≤ 9 then
    [half (s.staleLimit 1) (s.staleLimit 0), half (s.staleLimit 3) (s.staleLimit 2), s.pts.forces.length, s.rateLast,
     s.pts.ratePeak, s.pts.badHandle, s.pts.overrange, s.pts.itemInvalid, s.pts.peerSeen % 2 ^ 32 / 2 * 2,
     s.pts.peerSeen / 2 ^ 32 % 2 ^ 32].getD w 0
  else 0
/-- Tags held now: the classes' and those of the second tag table. -/
def State.tagsHeld (s : State) : Nat := (s.cyc.cls.map fun c => c.held.length).sum + s.cyc.oldTags.length
/-- Block 0x04 (03 Table 3.10). -/
def State.cycleWord (s : State) (w : Nat) : Nat :=
  if w < 0x10 then
    if w ≤ 5 then
      [s.tagsHeld, s.cyc.lateDrops, s.cyc.oldCfgDrops, s.cyc.dupDrops, s.cyc.unmatched, s.cyc.retries].getD w 0
    else 0
  else
    let c := s.cl (w / 16 - 1)
    let r := s.classRec (w / 16 - 1)
    if w % 16 ≤ 13 then
      [r.periodUs, r.deadlineUs, r.windowUs, r.applyUs, r.overrun * 2 ^ 24 + r.quota % 2 ^ 11, c.cycleNo,
       half c.loadPeak c.loadLast, c.tagWait, c.deadlinePubs, c.missingLast, c.overruns, c.taskSkips, c.unacked, c.withheld].getD (w % 16) 0
    else 0
/-- Block 0x05 (05 Table 5.8). -/
def State.schedWord (s : State) (w : Nat) : Nat :=
  let q := s.sched
  if w ≤ 3 then
    [s.leadUs, q.used.length, q.peak, q.nextId].getD w 0
  else if 14 ≤ w && w ≤ 17 then
    [q.orphansCancelled, q.fullWaits, q.tooLate, q.capacity].getD (w - 14) 0
  else if 0x04 ≤ w && w < 0x0E then q.outcomes.getD (w - 4) 0 else 0
/-- The clockIdentity of TB0's grandmaster: the own one, the selected foreign one, or 0. -/
def State.gmId (s : State) : Nat :=
  if s.time.tb0.st = 6 then Config.ownClockId % 2 ^ 64 else match s.time.tb0.foreign with | some a => a.gmId % 2 ^ 64 | none => 0
/-- The words of a port (06 Table 6.7). -/
def State.portWord (s : State) (p i : Nat) : Nat :=
  let q := s.port p
  if i ≤ 6 then
    [s32 (s.portCfg p).1, s32 (s.portCfg p).2.1, s32 q.factoryRx, s32 q.factoryTx, sat32 q.delay, s32 q.neighborRate,
     b2n q.asCapable * 2 ^ 9 + b2n q.oneStep * 2 ^ 8 + q.role0 % 256].getD i 0
  else q.lost
/-- The words of a trigger slot; slots 0 to 3 start the classes' cycles (06 R137). -/
def State.slotWord (s : State) (n i : Nat) : Nat :=
  if n < 4 then (if i = 0 then 1 * 2 ^ 24 + n * 2 ^ 16 + 1 else if i = 1 then (s.classRec n).periodUs else 0)
  else (s.trigger n).getD i 0
/-- Block 0x06 (06 Table 6.7). -/
def State.timeWord (s : State) (w : Nat) : Nat :=
  let c := s.time
  let t := s.conf.time
  if 0x20 ≤ w && w < 0x40 then s.portWord ((w - 0x20) / 8) (w % 8)
  else if 0x40 ≤ w && w < 0xC0 then s.slotWord ((w - 0x40) / 4) (w % 4)
  else if w ≤ 19 then
    [flagWord [c.twinTimeLost, c.tb0.st == 4, c.tb1.st == 4, c.tb3Gap] * 2 ^ 16 + c.tb1.st * 256 + c.tb0.st,
     c.tb0.offsetNs, s32 c.tb0.rate, c.tb1.offsetNs, s32 c.tb1.rate,
     t.priority2 * 2 ^ 24 + t.priority1 * 2 ^ 16 + t.domain1 * 256 + t.domain0, half (s16 c.utcOffset) (t.slewPpm % 512),
     s.gmId / 2 ^ 32, s.gmId % 2 ^ 32, unsignedOf 8 t.logPdelay * 256 + unsignedOf 8 t.logSync, c.steps, c.divergedEvents,
     (if s.power.mode == 3 || s.power.mode == 4 then s32 c.twinDiff else 0), s32 c.ppsOffset, c.ppsEdges, c.dio15Edges,
     c.overflows, s.tb3s % 2 ^ 32, s.tb3s / 2 ^ 32 % 2 ^ 32, s32 t.tb2Offset].getD w 0
  else 0
/-- UNKNOWN faults of a pair within the last 720 h (09 R208). -/
def State.unknownCount (s : State) (n : Nat) : Nat := ((s.corePair n).unknowns.filter fun a => decide (s.tb3s < a + 2592000)).length
/-- Block 0x07 (09 Table 9.5). -/
def State.lockWord (s : State) (w : Nat) : Nat :=
  let l := s.lock
  if 0x10 ≤ w && w < 0x30 then
    let c := s.corePair (w / 4 - 4)
    if w % 4 ≤ 2 then
      [c.lastClass * 2 ^ 24 + c.lastGroup * 2 ^ 16 + min 255 (s.unknownCount (w / 4 - 4)) * 256 + b2n c.lbistOk, c.faultS,
       (if c.lbistAt = 0 then 0 else sat32 (s.tb3s - c.lbistAt))].getD (w % 4) 0
    else c.faults
  else if w ≤ 10 then
    [
     l.placement * 2 ^ 16 + flagWord (l.pairs.map fun c => c.permanent) * 256 + flagWord (l.pairs.map fun c => c.disabled),
     s.cfg.fallbackOk % 256, l.mismatches, l.foldMismatches, l.railDisagreements, l.selftestsRun, l.selftestFails,
     l.cacheCorrected, l.lbistRuns, l.lbistFails,
     (if s.power.mode == 2 || s.power.mode == 4 then sat32 (l.lbistDue - s.tb3s) else 0xFFFFFFFF)].getD w 0
  else 0
/-- Bit n where a list of keys holds index n. -/
def keyMask (l : List (Nat × List Byte)) (n : Nat) : Nat := flagWord ((List.range n).map fun i => l.any fun e => e.1 == i)
/-- Block 0x08 (12 Table 12.8). -/
def State.memWord (s : State) (w : Nat) : Nat :=
  let m := s.mower
  if w ≤ 18 then
    [m.lastScrubS % 2 ^ 32, m.ceSram, m.ueSram, m.lastUe % 2 ^ 32, m.lastUe / 2 ^ 32 % 256, m.ceDram, m.ueDram, m.faults,
     m.faultAddr % 2 ^ 32, m.faultBit % 256, m.lastPassS % 2 ^ 32, m.abandoned, m.skipped,
     flagWord [m.test.isSome, m.bootPassOk, m.fault], m.collisions, m.collisionWord % 2 ^ 18, s.sec.wipes,
     s.sec.wipeReason, s.sec.wipeS].getD w 0
  else if 33 ≤ w && w ≤ 33 then
    [
     s.sec.anchors.length * 2 ^ 24 + keyMask s.sec.cfgKeys 8 * 2 ^ 16 + keyMask s.sec.sheafKeys 4 * 2 ^ 12 + s.sec.roles.length * 8 + b2n (!s.sec.serverKey.isEmpty) * 2 + b2n s.sec.pendingRec.isSome].getD (w - 33) 0
  else 0
/-- The active rule r of a gate; zeros where none is written or r is beyond N (Table 12.9). -/
def GateSt.rule (g r : Nat) (x : GateSt) : List Nat :=
  match x.active.find? fun e => e.1 == g && e.2.1 == r with | some e => e.2.2 | none => [0, 0, 0, 0]
/-- Block 0x09 (12 Table 12.9). -/
def State.gateWord (s : State) (w : Nat) : Nat :=
  let g := s.gate
  let fixed (n : Nat) : Nat :=
    if n = 10 || n = 23 then 0xFFFF00 + ruleCount n else 2 * 2 ^ 16 + (ruleCount n - 2) * 256 + ruleCount n
  if w = 0 then g.epoch else if w = 1 then flagWord [g.debugOpen, g.draining] else if w = 2 then g.commits else if w = 3 then g.debugOpens
  else if 0x10 ≤ w && w < 0x28 then g.violations.getD (w - 0x10) 0
  else if 0x28 ≤ w && w < 0x40 then fixed (w - 0x28)
  else if 0x400 ≤ w && w < 0xA00 then
    match g.logs.find? fun e => e.1 == (w - 0x400) / 4 with | some e => e.2.getD (w % 4) 0 | none => 0
  else if 0x1000 ≤ w && w < 0x2800 then (g.rule (w / 256 - 16) (w % 256 / 4)).getD (w % 4) 0
  else 0
/-- SET_VERSION of the Sheaf being loaded (13 Table 13.12). -/
def State.stagingSet (s : State) : Nat := if 1 ≤ s.sheaf.st && s.sheaf.st ≤ 5 then field s.sheaf.loaded 8 4 else 0
/-- Block 0x0A (13 Table 13.12). -/
def State.sheafWord (s : State) (w : Nat) : Nat :=
  let h := s.sheaf
  if w ≤ 15 then
    [
     h.st * 2 ^ 24 + h.result * 2 ^ 16 + h.trialBoots * 2 ^ 8 + flagWord [h.tokenHeld, h.healthPassed, h.twinState == 6, s.sec.ownerLock],
     h.active, h.previous, s.stagingSet, h.loadedBytes, h.total, h.slots % 512, (if h.st = 6 then s.trialLeft else 0),
     h.windowS, b2n h.manual, h.dwellS, half h.proto h.min, h.seq % 2 ^ 32, h.activations, h.fallbacks, h.bootFault % 256].getD w 0
  else 
    if 0x10 ≤ w && w < 0x19 then h.versions.getD (w - 0x10) 0
    else if 0x20 ≤ w && w < 0x29 then (if h.previous = 0 then 0 else h.prevVersions.getD (w - 0x20) 0) else 0
/-- Block 0x0B (14 Table 14.6). -/
def State.dioBlock (s : State) (w : Nat) : Nat :=
  let d := s.dio
  if 0x10 ≤ w && w < 0x30 then
    let n := w / 2 - 8
    let c := s.dioCh n
    if w % 2 = 0 then s.dioWord n
    else min 0xFFFF c.mismatches * 2 ^ 16 +
      flagWord [false, c.commanded, c.field, s.stageOn && s.dioIsOut n, s.dioSafeActive && s.dioIsOut n, c.mismatch, c.wireBreak, c.overload]
  else if w ≤ 8 then
    [half d.fldMv d.outMa, s.conf.dioWord % 1024, flagWord [d.linkUp, d.fldLost, d.silent, d.aggLimit], d.fldLosses,
     d.silences, d.overloads, d.mismatchEvents, d.wireBreaks, d.linkErrors].getD w 0
  else 0
/-- Word 0x30 + m of block 0x0C (15 Table 15.5). -/
def State.modemWord (s : State) (m : Nat) : Nat :=
  let d := s.modem m
  (s.declaredDevices m).length * 2 ^ 16 + d.answering.length * 2 ^ 8 + b2n d.attached.isSome * 8 + d.attached.getD 0 % 8
/-- Block 0x0C (15 Table 15.5). -/
def State.uaBlock (s : State) (w : Nat) : Nat :=
  let u := s.ua
  if 0x10 ≤ w && w < 0x30 then
    let n := w / 4 - 4
    let c := s.uaCh n
    if w % 4 ≤ 2 then
      [s.uaWord n, s.uaWord1 n, c.reading.toNat].getD (w % 4) 0
    else half (if s.uaMode n = 6 then s16 c.cjCc else 0) (s.uaStatus n * 256 + flagWord [c.twinIn, s.hartOk n, s.stageOn && s.uaIsOut n, s.uaSafeActive && s.uaIsOut n, c.wireBreak, c.miswire, c.compliance, c.ne43Range])
  else if w ≤ 12 then
    [half u.afsMv u.loopMa, s.conf.uaWord % 1024, flagWord [u.linkUp, u.afsLost, u.silent, u.senseUnknown, u.twinDiffers],
     u.afsLosses, u.silences, u.complianceEvents, u.miswires, u.wireBreaks, u.linkErrors, u.hartTransactions,
     u.hartFailures, u.bursts, u.ne43Events].getD w 0
  else if 48 ≤ w && w ≤ 49 then
    [s.modemWord 0, s.modemWord 1].getD (w - 48) 0
  else 0
/-- The words of a CAN channel (16 Table 16.7). -/
def State.canWord (s : State) (n i : Nat) : Nat :=
  let c := s.canCh n
  if i < 5 then (s.conf.canCfg n).word i
  else if 5 ≤ i && i ≤ 20 then
    [
     min 255 c.tec * 2 ^ 24 + min 255 c.rxErr * 2 ^ 16 + c.fc * 2 ^ 11 + b2n c.monitoring * 2 ^ 10 + b2n c.alone * 2 ^ 9 + b2n (s.tmActive n) * 2 ^ 8 + min 255 c.ackRun,
     c.rxFrames, c.txFrames, c.errors, c.busOffs, c.fifoLost, c.rejected, c.refSent, c.refLate, c.cancelLate,
     c.txOverruns, c.foreignRef, half c.fifo1.length c.fifo0.length, b2n c.dataPhase * 128 + c.lastError % 8,
     c.tdcMeasured % 65536, c.tdcFaults].getD (i - 5) 0
  else 0
/-- Block 0x0D (16 Table 16.7). -/
def State.canBlock (s : State) (w : Nat) : Nat :=
  if 0x10 ≤ w && w < 0x50 then s.canWord ((w - 0x10) / 0x20) ((w - 0x10) % 0x20)
  else if 0x50 ≤ w && w < 0x90 then
    let n := (w - 0x50) / 0x20
    let b := (w - 0x50) % 0x20
    bits ((s.conf.canCfg n).tx.getD b 0) 3 3 * 8 + ((s.canCh n).tx.getD b TxBuf.reset).status % 8
  else 0
/-- Block 0x0E (17 Table 17.4). -/
def State.recWord (s : State) (w : Nat) : Nat :=
  if w ≤ 11 then
    [s.newestSeq % 2 ^ 32, s.newestSeq / 2 ^ 32 % 2 ^ 16, s.oldestSeq % 2 ^ 32, s.oldestSeq / 2 ^ 32 % 2 ^ 16,
     s.log.flushed % 2 ^ 32, s.log.flushed / 2 ^ 32 % 2 ^ 16, s.log.ring.length,
     half (min 0xFFFF s.log.unflushed) ((s.msg.boxes.filter fun b => b.window.isSome).length % 16), s.log.dropped,
     s.log.gaps, s.log.storeErrors, b2n s.log.exhausted].getD w 0
  else 0
/-- Block 0x0F (18 Table 18.6). -/
def State.dispWord (s : State) (w : Nat) : Nat :=
  let d := s.disp
  if 0x10 ≤ w && w < 0x1C then s32 (d.ledgers.getD (w - 0x10) 0)
  else if 0x21 ≤ w && w < 0x27 then field d.name (4 * (w - 0x21)) 4
  else if w ≤ 5 then
    [
     half (s16 d.panelTemp) (d.band % 8 * 32 + b2n d.frozen * 16 + b2n d.fullPending * 8 + b2n (d.updating != 0) * 4 + b2n d.retireSkipped * 2 + b2n d.panelOk),
     half (min 0xFFFF d.partials) d.segments, d.updates, d.fulls, d.balances, d.freezes].getD w 0
  else if 32 ≤ w && w ≤ 32 then
    [d.fullEvery].getD (w - 32) 0
  else 0
/-- Block 0x10 (08 Table 8.11). -/
def State.powerWord (s : State) (w : Nat) : Nat :=
  let p := s.power
  if w ≤ 15 then
    [half p.mainMv p.auxMv, half (s16 p.boardTemp) p.mainPower, half p.holdupMj p.fullMj,
     flagWord [p.mainGood, p.auxGood, p.riding, p.latch, p.safeN, p.ejectOpen, p.below32, p.worn, p.insufficient, p.lingLow, p.noUpdate],
     p.reason * 2 ^ 24 + p.retireReason * 2 ^ 16 + p.bootKind * 2 ^ 8 + b2n s.conf.pair.autoStart, p.powerCycles,
     s.opSeconds % 2 ^ 32, s.opSeconds / 2 ^ 32 % 256, p.lastBootMs, p.rideThroughs, p.retires, p.safeEvents,
     p.lingMv % 65536, p.holdupTestS, p.wakeDelay, half p.maxMv p.minMv].getD w 0
  else 0
/-- A word of a block; a write-only word reads 0 (11 R265). -/
def State.param (s : State) (b w : Nat) : Nat :=
  (match b with
   | 0x01 => s.identWord w | 0x02 => s.pairWord w | 0x03 => s.pointsWord w | 0x04 => s.cycleWord w | 0x05 => s.schedWord w
   | 0x06 => s.timeWord w | 0x07 => s.lockWord w | 0x08 => s.memWord w | 0x09 => s.gateWord w | 0x0A => s.sheafWord w
   | 0x0B => s.dioBlock w | 0x0C => s.uaBlock w | 0x0D => s.canBlock w | 0x0E => s.recWord w | 0x0F => s.dispWord w
   | 0x10 => s.powerWord w | _ => 0) % 2 ^ 32
/-- The last word of each block (11 Table 11.10 and the block tables). -/
def lastWord (b : Nat) : Option Nat :=
  if b = 0 then none
  else [0x3F, 0x40, 0x0A, 0x4F, 0x12, 0xC0, 0x30, 0x1FF, 0x27FF, 0x30, 0x30, 0x32, 0x90, 0x0C, 0x27, 0x10][b - 1]?
/-- The lower words of two-word values, with the block (11 R265). -/
def twoWord : List (Nat × Nat) :=
  [(1, 3), (3, 8), (6, 7), (6, 0x11), (8, 3), (0x0E, 0), (0x0E, 2), (0x0E, 4), (0x10, 6)]
/-- Read one word of a pass: an upper word whose lower word was read before reads as it was latched, and a lower word latches its
upper one (11 R265, 06 R121). -/
def State.readWord (b first w : Nat) (s : State) : Nat :=
  let latched := s.msg.latches.find? fun e => e.1 == b && e.2.1 == w
  if twoWord.contains (b, w - 1) && decide (w ≤ first) && decide (1 ≤ w) then
    (match latched with | some e => e.2.2 | none => s.param b w)
  else s.param b w
/-- The latches after a pass over `count` words from `first`. -/
def State.latchWords (b first count : Nat) (s : State) : State :=
  let low := (twoWord.filter fun e => e.1 == b && decide (first ≤ e.2) && decide (e.2 < first + count)).map fun e => e.2
  s.upMsg fun m => { m with latches := (low.map fun w => (b, w + 1, s.param b (w + 1))) ++ m.latches.filter fun e => !(e.1 == b && low.contains (e.2.1 - 1)) }

/-! ## Clearing counters -/

/-- Block 0x02: words 0x09–0x13, 0x16 and SWATH_LOAD_PEAK. -/
def State.clearPair (s : State) : State :=
  s.upCnt fun k => { k with takeovers := 0, handovers := 0, deferrals := 0, missedApply := 0, lastTakeoverNs := 0, ckptLate := 0,
                            hearGaps := 0, repairPoints := 0, swathErrors := 0, tieBreaks := 0, fencedExits := 0, loadPeak := 0, proofFails := 0 }
/-- Block 0x03: words 0x04–0x07. -/
def State.clearPoints (s : State) : State := s.upPts fun p => { p with ratePeak := 0, badHandle := 0, overrange := 0, itemInvalid := 0 }
/-- Block 0x04: words 0x01–0x05, every class counter and the FSP counters (04 R96). -/
def State.clearCycle (s : State) : State :=
  (s.upCyc fun c =>
    { c with lateDrops := 0, oldCfgDrops := 0, dupDrops := 0, unmatched := 0, retries := 0,
             cls := c.cls.map fun x => { x with loadPeak := 0, deadlinePubs := 0, overruns := 0, taskSkips := 0, unacked := 0, withheld := 0 } }).upFsp
    fun q => { q with counters := List.replicate 18 0 }
/-- Block 0x05: words 0x02 and 0x04–0x11. -/
def State.clearSched (s : State) : State :=
  s.upSched fun q => { q with peak := 0, outcomes := List.replicate 10 0, orphansCancelled := 0, fullWaits := 0, tooLate := 0, capacity := 0 }
/-- Block 0x06: words 0x0B, 0x0E–0x10 and every Q + 7. -/
def State.clearTime (s : State) : State :=
  s.upTime fun c => { c with divergedEvents := 0, ppsEdges := 0, dio15Edges := 0, overflows := 0, ports := c.ports.map fun q => { q with lost := 0 } }
/-- Block 0x07: words 0x02–0x09. -/
def State.clearLock (s : State) : State :=
  s.upLock fun l => { l with mismatches := 0, foldMismatches := 0, railDisagreements := 0, selftestsRun := 0, selftestFails := 0,
                             cacheCorrected := 0, lbistRuns := 0, lbistFails := 0 }
/-- Block 0x08: words 0x01, 0x02, 0x05–0x07, 0x0B, 0x0C and 0x0E. -/
def State.clearMem (s : State) : State :=
  s.upMower fun m => { m with ceSram := 0, ueSram := 0, ceDram := 0, ueDram := 0, faults := 0, abandoned := 0, skipped := 0, collisions := 0 }
/-- Block 0x09: words 0x10–0x27. -/
def State.clearGate (s : State) : State := s.upGate fun g => { g with violations := List.replicate 24 0 }
/-- Block 0x0B: words 0x03–0x08 and every MISMATCHES. -/
def State.clearDio (s : State) : State :=
  s.upDio fun d => { d with fldLosses := 0, silences := 0, overloads := 0, mismatchEvents := 0, wireBreaks := 0, linkErrors := 0,
                            ch := d.ch.map fun c => { c with mismatches := 0 } }
/-- Block 0x0C: words 0x03–0x0C. -/
def State.clearUa (s : State) : State :=
  s.upUa fun u => { u with afsLosses := 0, silences := 0, complianceEvents := 0, miswires := 0, wireBreaks := 0, linkErrors := 0,
                           hartTransactions := 0, hartFailures := 0, bursts := 0, ne43Events := 0 }
/-- Block 0x0D: words C + 6 to C + 0x10 and C + 0x14. -/
def State.clearCan (s : State) : State :=
  s.upCan (List.map fun c => { c with rxFrames := 0, txFrames := 0, errors := 0, busOffs := 0, fifoLost := 0, rejected := 0, refSent := 0,
                                      refLate := 0, cancelLate := 0, txOverruns := 0, foreignRef := 0, tdcFaults := 0 })
/-- Block 0x0E: words 0x08–0x0A. -/
def State.clearRec (s : State) : State := s.upLog fun l => { l with dropped := 0, gaps := 0, storeErrors := 0 }
/-- Block 0x0F: words 0x02–0x05. -/
def State.clearDisp (s : State) : State := s.upDisp fun d => { d with updates := 0, fulls := 0, balances := 0, freezes := 0 }
/-- Block 0x10: words 0x09, 0x0B and 0x0F, the latter back to its reset value. -/
def State.clearPower (s : State) : State := s.upPower fun p => { p with rideThroughs := 0, safeEvents := 0, maxMv := 0, minMv := 0xFFFF }

/-! ## The checks of a write, word by word (11 R265) -/

def roleCheck (s : State) (mb role : Nat) : Option Nat := if s.rights mb < role then some stDenied else none
/-- The first failure of some checks. -/
def firstOf (l : List (Option Nat)) : Option Nat := l.findSome? id
/-- A word whose only field is CLR_COUNTERS. -/
def clrCheck (s : State) (mb v : Nat) : Option Nat :=
  firstOf [roleCheck s mb 3, if v < 2 then none else some stRange]
/-- The writable word that holds only CLR_COUNTERS, by block. -/
def clrWords : List (Nat × Nat) :=
  [(0x02, 0x40), (0x03, 0x0A), (0x04, 0x07), (0x05, 0x12), (0x06, 0xC0), (0x08, 0x22), (0x0A, 0x30), (0x0B, 0x30), (0x0C, 0x32), (0x0E, 0x0C),
   (0x0F, 0x27), (0x10, 0x10)]
def modeCheck (s : State) (m : Nat) : Option Nat := if s.power.mode = m then none else some stState
def rangeCheck (ok : Bool) : Option Nat := if ok then none else some stRange
/-- Role and mode of the key words (12 R289). -/
def keyCheck (s : State) (mb : Nat) : Option Nat :=
  if s.sec.lifecycle = 3 then some stState
  else firstOf [if s.sec.lifecycle = 0 then (if mb = 15 then none else some stDenied) else roleCheck s mb 4, modeCheck s 2]
def logOk (x : Nat) : Bool := decide (8 ≤ x) && decide (x ≤ 16)
/-- NAME bytes are 0x00 or 0x20–0x7E (18 R390). -/
def nameOk (v : Nat) : Bool := (leBytes 4 v).all fun b => b == 0#8 || (decide (0x20 ≤ b.toNat) && decide (b.toNat ≤ 0x7E))
/-- The check of one word; `others` are the words of the request, by offset. -/
def State.wordCheck (s : State) (mb b w v : Nat) (others : Nat → Option Nat) : Option Nat :=
  if clrWords.contains (b, w) then clrCheck s mb v
  else match b with
  | 0x01 =>
    if 0x20 ≤ w && w < 0x30 then
      firstOf [roleCheck s mb 4, modeCheck s 2, rangeCheck (v < 65536), rangeCheck (logOk (v / 256)), rangeCheck (logOk (v % 256))]
    else some stDenied
  | 0x07 =>
    if w = 0x30 then
      firstOf [if bits v 8 8 = 0 || bit v 0 then roleCheck s mb 3 else none, if bits v 8 8 = 0 then none else roleCheck s mb 4,
               if bits v 8 8 = 0 then none else modeCheck s 2, rangeCheck (bits v 16 16 = 0 && bits v 1 7 = 0)]
    else some stDenied
  | 0x08 =>
    if w = 0x20 then firstOf [keyCheck s mb, rangeCheck (v < 256), if bits v 6 2 = 2 then s.keyCommitCheck else none]
    else if 0x100 ≤ w && w < 0x200 then keyCheck s mb
    else some stDenied
  | 0x09 =>
    if w = 0x40 then
      let dbg := bits v 1 2 != 0
      firstOf [if bit v 0 || !dbg then roleCheck s mb 3 else none, if dbg then roleCheck s mb 4 else none,
               if dbg then modeCheck s 2 else none, if dbg && !(s.sec.lifecycle == 1 || s.sec.lifecycle == 2) then some stState else none,
               rangeCheck (v < 8), rangeCheck (bits v 1 2 != 3)]
    else some stDenied
  | 0x0A =>
    if 8 ≤ w && w ≤ 0x0A then
      let win := (others 8).getD s.sheaf.windowS
      firstOf [roleCheck s mb 3, if s.sheaf.st == 5 || s.sheaf.st == 6 then some stBusy else none,
               rangeCheck (if w = 8 then decide (300 ≤ v) && decide (v ≤ 86400) else if w = 9 then decide (v < 2)
                 else decide (60 ≤ v) && decide (v ≤ 3600) && decide (v + 60 ≤ win))]
    else some stDenied
  | 0x0D =>
    if w = 0x90 then
      firstOf [roleCheck s mb (if bit v 0 then 3 else 2), rangeCheck (bits v 4 28 = 0 && !bit v 1)]
    else some stDenied
  | 0x0F =>
    if w = 0x20 then firstOf [roleCheck s mb 3, rangeCheck (v < 256), rangeCheck (decide (10 ≤ v) && decide (v ≤ 200))]
    else if 0x21 ≤ w && w < 0x27 then firstOf [roleCheck s mb 3, rangeCheck (nameOk v)]
    else some stDenied
  | _ => some stDenied

/-! ## The effect of a write -/

def State.clearBlock (b : Nat) (s : State) : State :=
  match b with
  | 0x02 => s.clearPair | 0x03 => s.clearPoints | 0x04 => s.clearCycle | 0x05 => s.clearSched | 0x06 => s.clearTime | 0x07 => s.clearLock
  | 0x08 => s.clearMem | 0x09 => s.clearGate | 0x0B => s.clearDio | 0x0C => s.clearUa | 0x0D => s.clearCan | 0x0E => s.clearRec
  | 0x0F => s.clearDisp | 0x10 => s.clearPower | _ => s
/-- Re-admission of the pairs of a mask at the next BOOT (09 R209). -/
def State.markReenable (mask : Nat) (s : State) : State :=
  s.upLock fun l => { l with pairs := mapFrom (fun n c => { c with reenable := c.reenable || bit mask n }) 0 l.pairs }
def State.debugWrite (mb v : Nat) (s : State) : State :=
  if bit v 1 then s.openDebug (some mb) else if bit v 2 then s.closeDebug else s
/-- One word written. -/
def State.writeWord (mb b w v : Nat) (s : State) : State :=
  match b with
  | 0x01 => s.setBox (w - 0x20) fun x => { x with rspNext := v / 256, reqNext := v % 256 }
  | 0x07 => (if bit v 0 then s.clearLock else s).markReenable (bits v 8 8)
  | 0x08 => if w = 0x20 then s.keyCtrl v else if w = 0x22 then (if bit v 0 then s.clearMem else s) else s.keyWindow (w - 0x100) v
  | 0x09 => (if bit v 0 then s.clearGate else s).debugWrite mb v
  | 0x0A => s.upSheaf fun h =>
      if w = 8 then { h with windowS := v } else if w = 9 then { h with manual := bit v 0 } else if w = 0x0A then { h with dwellS := v } else h
  | 0x0D =>
    let s := if bit v 0 then s.clearCan else s
    let s := if bit v 2 then (s.recoverCan 0).1 else s
    if bit v 3 then (s.recoverCan 1).1 else s
  | 0x0F =>
    if w = 0x20 then s.upDisp fun d => { d with fullEvery := v }
    else if w = 0x27 then (if bit v 0 then s.clearDisp else s)
    else s.upDisp fun d => { d with name := d.name.take (4 * (w - 0x21)) ++ leBytes 4 v ++ d.name.drop (4 * (w - 0x21) + 4) }
  | _ => if bit v 0 then s.clearBlock b else s

/-! ## PARAM_READ and PARAM_WRITE -/

def paramReadCmd : Cmd := { plainCmd 0x200 1 8 with runtime := true }
def paramWriteCmd : Cmd := { plainCmd 0x201 1 0 with size := fun b => decide (8 ≤ b.length) && b.length == 8 + 4 * field b 2 2 }
/-- The block exists and the range lies within it (R265). -/
def rangeOk (b count first : Nat) : Bool :=
  decide (1 ≤ count) && decide (count ≤ 256) && (match lastWord b with | some l => decide (first + count ≤ l + 1) | none => false)
def paramRead (r : Req) : State → State × Option (Nat × List Byte) :=
  let b := field r.payload 0 2
  let count := field r.payload 2 2
  let first := field r.payload 4 4
  guarded [need (fun _ => rangeOk b count first) stRange] fun s =>
    let ws := (List.range count).map fun i => s.readWord b first (first + i)
    reply stOk (ws.flatMap (leBytes 4)) (s.latchWords b first count)
/-- The first failure over the words in ascending order (R265). -/
def State.writeCheck (s : State) (mb b : Nat) (ws : List (Nat × Nat)) : Option Nat :=
  ws.findSome? fun e => s.wordCheck mb b e.1 e.2 fun w => (ws.find? fun x => x.1 == w).map fun x => x.2
def paramWrite (r : Req) : State → State × Option (Nat × List Byte) :=
  let b := field r.payload 0 2
  let count := field r.payload 2 2
  let first := field r.payload 4 4
  let ws := (List.range count).map fun i => (first + i, field r.payload (8 + 4 * i) 4)
  guarded [need (fun _ => rangeOk b count first) stRange, fun s => s.writeCheck r.mb b ws] fun s =>
    reply stOk [] (ws.foldl (fun s e => s.writeWord r.mb b e.1 e.2) s)
/-- A request that writes some words of a block. -/
def writeReq (h : Hdr) (b first : Nat) (ws : List Word) : Req :=
  hdrReq h 0x201 (leBytes 2 b ++ leBytes 2 ws.length ++ leBytes 4 first ++ wordBytes ws)
/-- A `PARAM_WRITE` request at an instant. -/
def writeParams (t : Nat) (r : Req) (s : State) : Host.Outcome State Fault Refusal := happens t s State.awake (State.run paramWriteCmd r (paramWrite r))
/-- The write of one word of a block. -/
def writeField (t : Nat) (h : Hdr) (b w v : Nat) (s : State) : Host.Outcome State Fault Refusal :=
  writeParams t (writeReq h b w [BitVec.ofNat 32 v]) s

/-! ## The meanings -/

def execParamRead (t : Nat) (r : Req) (s : State) : Host.Outcome State Fault Refusal :=
  happens t s State.awake (State.run paramReadCmd r (paramRead r))
def execParamWrite (t : Nat) (r : Req) (s : State) : Host.Outcome State Fault Refusal := writeParams t r s
/-- PAIR_STATUS (11 Table 11.5): words 0x00 to 0x17 of block 0x02. -/
def execPairStatus (t : Nat) (r : Req) (s : State) : Host.Outcome State Fault Refusal :=
  happens t s State.awake (State.run { plainCmd 0x102 1 0 with runtime := true, twin := true } r fun s =>
    reply stOk (((List.range 24).map (s.param 2)).flatMap (leBytes 4)) s)
def execPointsClrCounters (t : Nat) (h : Hdr) (s : State) : Host.Outcome State Fault Refusal := writeField t h 0x03 0x0A 1 s
def execCycleClrCounters (t : Nat) (h : Hdr) (s : State) : Host.Outcome State Fault Refusal := writeField t h 0x04 0x07 1 s
def execSchedClrCounters (t : Nat) (h : Hdr) (s : State) : Host.Outcome State Fault Refusal := writeField t h 0x05 0x12 1 s
def execTimeClrCounters (t : Nat) (h : Hdr) (s : State) : Host.Outcome State Fault Refusal := writeField t h 0x06 0xC0 1 s
def execPairClrCounters (t : Nat) (h : Hdr) (s : State) : Host.Outcome State Fault Refusal := writeField t h 0x02 0x40 1 s
def execPowerClrCounters (t : Nat) (h : Hdr) (s : State) : Host.Outcome State Fault Refusal := writeField t h 0x10 0x10 1 s
def execLockClrCounters (t : Nat) (h : Hdr) (s : State) : Host.Outcome State Fault Refusal := writeField t h 0x07 0x30 1 s
/-- REENABLE (09 R209): OWNER in MAINTENANCE only. -/
def execReenable (t : Nat) (h : Hdr) (mask : Nat) (s : State) : Host.Outcome State Fault Refusal :=
  writeField t h 0x07 0x30 (256 * (mask % 256)) s
def execMemClrCounters (t : Nat) (h : Hdr) (s : State) : Host.Outcome State Fault Refusal := writeField t h 0x08 0x22 1 s
/-- KEY_CTRL_SET_WINDOW_BASE (12 R289): a base of 64 or more is out of range (12 Table 12.7). -/
def execKeyCtrlSetWindowBase (t : Nat) (h : Hdr) (base : Nat) (s : State) : Host.Outcome State Fault Refusal :=
  writeField t h 0x08 0x20 (if base < 64 then 64 + base else 256) s
def execKeyCtrlCommit (t : Nat) (h : Hdr) (s : State) : Host.Outcome State Fault Refusal := writeField t h 0x08 0x20 128 s
def execKeyCtrlDiscardStaging (t : Nat) (h : Hdr) (s : State) : Host.Outcome State Fault Refusal := writeField t h 0x08 0x20 192 s
/-- KEY_WINDOW (12 R289). -/
def execKeyWindow (t : Nat) (h : Hdr) (first : Nat) (words : List Word) (s : State) : Host.Outcome State Fault Refusal :=
  writeParams t (writeReq h 0x08 (0x100 + first) words) s
def execGateClrCounters (t : Nat) (h : Hdr) (s : State) : Host.Outcome State Fault Refusal := writeField t h 0x09 0x40 1 s
/-- DEBUG_OPEN and DEBUG_CLOSE (12 R291). -/
def execDebugOpen (t : Nat) (h : Hdr) (s : State) : Host.Outcome State Fault Refusal := writeField t h 0x09 0x40 2 s
def execDebugClose (t : Nat) (h : Hdr) (s : State) : Host.Outcome State Fault Refusal := writeField t h 0x09 0x40 4 s
def execSheafClrCounters (t : Nat) (h : Hdr) (s : State) : Host.Outcome State Fault Refusal := writeField t h 0x0A 0x30 1 s
def execDioClrCounters (t : Nat) (h : Hdr) (s : State) : Host.Outcome State Fault Refusal := writeField t h 0x0B 0x30 1 s
def execUaClrCounters (t : Nat) (h : Hdr) (s : State) : Host.Outcome State Fault Refusal := writeField t h 0x0C 0x32 1 s
/-- RECOVER_CAN (16 R362). -/
def execRecoverCan (t : Nat) (h : Hdr) (ch : Nat) (s : State) : Host.Outcome State Fault Refusal :=
  writeField t h 0x0D 0x90 (if ch = 0 then 4 else 8) s
def execCanClrCounters (t : Nat) (h : Hdr) (s : State) : Host.Outcome State Fault Refusal := writeField t h 0x0D 0x90 1 s
def execRecClrCounters (t : Nat) (h : Hdr) (s : State) : Host.Outcome State Fault Refusal := writeField t h 0x0E 0x0C 1 s
def execDispClrCounters (t : Nat) (h : Hdr) (s : State) : Host.Outcome State Fault Refusal := writeField t h 0x0F 0x27 1 s

end Sys2Proof.Machine
end

