-- ==== Sys2Proof/Machine/Commands.lean ====
section
/-! DEFINITION. Commands on points, time, records, the display, handovers and station diagnostics (02 R16, R17, R41–R43; 06 R131;
07 R166; 11 Table 11.6; 17 R377; 18 R380; 04 R82). -/

namespace Sys2Proof.Machine

/-! ## Points (02) -/

/-- A handle that a command may name: its spare bits 0, and not refused by R16. -/
def handleOk (h : Nat) : Bool := decide (1 ≤ h) && decide (h ≤ 0x5FFFFF)
/-- The slot that follows the entry of a STAMP or BLOCK point (02 R30). -/
def State.slotTail (s : State) (h : Nat) : List Byte :=
  let k := ruleKind (s.ruleOf h)
  if k = 8 || k = 9 then s.slotBytes h (s.ruleOf h) else []
def pointReadCmd : Cmd := { plainCmd 0x300 1 0 with runtime := true, size := fun b => decide (4 ≤ b.length) && b.length == 4 + 4 * field b 0 2 }
def pointRead (r : Req) : State → State × Option (Nat × List Byte) :=
  let n := field r.payload 0 2
  let hs := (List.range n).map fun i => field r.payload (4 + 4 * i) 4
  guarded [need (fun _ => decide (1 ≤ n) && decide (n ≤ 256)) stRange, need (fun _ => decide (field r.payload 2 1 < 2)) stRange,
           reserved r.payload 3 1, need (fun _ => hs.all handleOk) stRange] fun s =>
    reply stOk (hs.flatMap fun h => leBytes 8 (s.image h).toNat ++ if bit (field r.payload 2 1) 0 then s.slotTail h else []) s
/-- Keep VALUE at the last publication of an input, once, for CHANGED. -/
def State.keepBefore (h : Nat) (s : State) : State :=
  if ruleIsOut (s.ruleOf h) || s.pts.before.any (fun e => e.1 == h) then s
  else s.upPts fun p => { p with before := (h, (s.img h).value) :: p.before }
/-- The value that the latest WRITE built carried for an output, else its declared initial value (02 R41). -/
def State.frozenValue (s : State) (h : Nat) : Word :=
  match s.pts.sent.find? fun e => e.1 == h with
  | some e => e.2
  | none => match s.pointRec h with | some p => p.init | none => 0#32
/-- Force or simulate a handle (02 R41, R42): its timed actions are cancelled first (05 R113). -/
def State.force (h mode : Nat) (v : Word) (session : Nat) (s : State) : State :=
  let old := (s.img h).value
  let s := (s.cancelHandle h 6).keepBefore h
  let ent : ForceEnt := { handle := h, mode := mode, value := if mode = 1 && ruleIsOut (s.ruleOf h) then s.frozenValue h else v, session := session }
  let s := s.upPts fun p => { p with forces := ent :: p.forces.filter fun f => f.handle != h }
  (s.upImg h fun g => { g with value := v, forced := mode == 0, simulated := mode == 1, quality := mode + 1 }).record 0x0301
    [(4, h), (4, old.toNat), (4, v.toNat), (4, session)]
def pointForce (r : Req) : State → State × Option (Nat × List Byte) :=
  let h := field r.payload 0 4
  let mode := field r.payload 4 1
  guarded [need (fun s => handleOk h && s.declared h) stRange, need (fun _ => decide (mode < 2)) stRange, reserved r.payload 5 3,
           need (fun s => ruleKind (s.ruleOf h) != 8 && ruleKind (s.ruleOf h) != 9) stRange,
           need (fun s => (s.pts.force h).isSome || decide (s.pts.forces.length < 65536)) stCapacity]
    fun s => reply stOk [] (s.force h mode (BitVec.ofNat 32 (field r.payload 8 4)) r.session)
/-- Release one handle (02 R41, Table 2.10); a handle without a force keeps its entry. -/
def State.release (session h : Nat) (s : State) : State :=
  if (s.pts.force h).isNone then s
  else
    let v := (s.img h).value.toNat
    ((s.upPts fun p => { p with forces := p.forces.filter fun f => f.handle != h }).upImg h Img.release).record 0x0301
      [(4, h), (4, v), (4, v), (4, session)]
def pointRelease (r : Req) : State → State × Option (Nat × List Byte) :=
  let h := field r.payload 0 4
  guarded [need (fun s => h == 0xFFFFFF || (handleOk h && s.declared h)) stRange] fun s =>
    reply stOk [] (if h = 0xFFFFFF then (s.pts.forces.map fun f => f.handle).foldl (fun s h => s.release r.session h) s else s.release r.session h)
/-- The declared points from a handle upward that pass the two tests of `POINT_BROWSE`. -/
def State.browse (s : State) (first flags : Nat) : List PointRec :=
  s.conf.pointsWhere fun p =>
    let g := s.img p.handle
    decide (first ≤ p.handle) && s.declared p.handle && (!bit flags 0 || g.forced || g.simulated) && (!bit flags 1 || g.quality != 0)
def pointBrowse (r : Req) : State → State × Option (Nat × List Byte) :=
  let h := field r.payload 0 4
  let n := field r.payload 4 2
  let flags := field r.payload 6 1
  guarded [need (fun _ => h == 0xFFFFFF || handleOk h) stRange, need (fun _ => decide (1 ≤ n) && decide (n ≤ 4096)) stRange,
           need (fun _ => decide (flags < 4)) stRange, reserved r.payload 7 1] fun s =>
    let all := s.browse (if h = 0xFFFFFF then 1 else h) flags
    let next := match (all.drop n).head? with | some p => p.handle | none => 0
    let ps := all.take n
    reply stOk (leBytes 2 ps.length ++ leBytes 2 0 ++ leBytes 4 next ++ ps.flatMap fun p =>
      leBytes 4 p.handle ++ leBytes 8 (s.ruleOf p.handle).toNat ++ leBytes 8 (s.image p.handle).toNat ++ leBytes 4 0) s

/-! ## Time (06) -/

/-- The response of `TIME_STATUS`: all bases from one tick; the entries returned leave the FIFO. -/
def timeStatus (s : State) : State × Option (Nat × List Byte) :=
  let f := s.time.fifo
  reply stOk ((List.range 4).flatMap (fun b => fullStamp (s.fine b)) ++ leBytes 1 s.time.tb0.st ++ leBytes 1 s.time.tb1.st ++
      leBytes 1 f.length ++ leBytes 1 0 ++ f.flatMap fun e => fullStamp e.stamp ++ leBytes 1 (b2n e.rising) ++ leBytes 1 e.base)
    (s.upTime fun c => { c with fifo := [] })
/-- Re-acquire: the base returns to ACQUIRING, and its next entry to LOCKED steps it again (06 R131). -/
def State.reacquire (n : Nat) (s : State) : State := (s.setBase n fun b => { b with stepped := false, run := 0, recent := [] }).baseTo n 1
def timeStep (r : Req) : State → State × Option (Nat × List Byte) :=
  let n := field r.payload 0 1
  let action := field r.payload 1 1
  guarded [need (fun _ => decide (n < 2)) stRange, need (fun _ => decide (action < 2)) stRange, reserved r.payload 2 2,
           need (fun _ => action == 1 || zeros r.payload 4 14) stRange, need (fun _ => decide (field r.payload 6 4 < 1000000000)) stRange,
           reserved r.payload 18 2, need (fun s => action == 0 || (s.base n).foreign.isNone) stConflict] fun s =>
    reply stOk [] (if action = 0 then s.reacquire n else s.stepBase n (fineOfFull (slice r.payload 4 14) * 2 ^ 32))

/-! ## The recorder (17 R377) -/

def recOpen (r : Req) : State → State × Option (Nat × List Byte) :=
  let kind := field r.payload 0 1
  let seq := field r.payload 2 6
  guarded [need (fun _ => decide (kind < 3)) stRange, reserved r.payload 1 1, need (fun s => kind != 2 || decide (seq ≤ s.newestSeq + 1)) stRange] fun s =>
    let at_ := if kind = 0 then s.oldestSeq else if kind = 1 then s.newestSeq else seq
    let cur := max at_ s.oldestSeq
    reply stOk (leBytes 8 cur ++ leBytes 8 s.oldestSeq ++ leBytes 8 s.newestSeq) (s.setBox r.mb fun x => { x with window := some cur })
/-- Records overwritten between a cursor and the oldest: sequences that were never stored do not count (R374). -/
def State.lostRecords (s : State) (cur : Nat) : Nat :=
  let old := s.oldestSeq
  (old - cur) - (s.log.skips.map fun k => min k.2 old - max k.1 cur).sum
def recRead (r : Req) : State → State × Option (Nat × List Byte) :=
  let n := field r.payload 0 2
  guarded [need (fun _ => decide (1 ≤ n) && decide (n ≤ 1024)) stRange, reserved r.payload 2 2, need (fun s => (s.box r.mb).window.isSome) stState] fun s =>
    let cur := (s.box r.mb).window.getD 0
    let lost := s.lostRecords cur
    if lost != 0 then
      reply stGap (leBytes 2 0 ++ leBytes 2 0 ++ leBytes 4 (sat32 lost) ++ leBytes 8 s.oldestSeq)
        ((s.setBox r.mb fun x => { x with window := some s.oldestSeq }).upLog fun l => { l with gaps := inc32 l.gaps })
    else
      let rs := (s.log.ring.filter fun x => decide (cur ≤ x.seq)).take n
      let next := match rs.getLast? with | some x => x.seq + 1 | none => cur
      reply stOk (leBytes 2 rs.length ++ leBytes 2 0 ++ leBytes 4 0 ++ leBytes 8 next ++ rs.flatMap recordBytes)
        (s.setBox r.mb fun x => { x with window := some next })
def recClose (r : Req) (s : State) : State × Option (Nat × List Byte) := reply stOk [] (s.setBox r.mb fun x => { x with window := none })
def recMarkCmd : Cmd := { plainCmd 0x703 2 0 with runtime := true, size := fun b => decide (1 ≤ b.length) && decide (b.length ≤ 28) }
/-- `REC_MARK`: `STATE` once recording has stopped; `CAPACITY` where the record is dropped and counted. -/
def recMark (r : Req) (s : State) : State × Option (Nat × List Byte) :=
  if s.log.exhausted then reply stState [] s
  else
    let ok := s.recRoom && s.reportDrops.recRoom
    let s := s.record_ 0x0E03 (leBytes 4 r.session ++ padTo 28 r.payload)
    if ok then reply stOk (leBytes 8 s.newestSeq) s else reply stCapacity [] s

/-! ## The display (18 R380, R382, R383) -/

def displayTextCmd : Cmd :=
  { plainCmd 0x900 2 0 with runtime := true, size := fun b => decide (4 ≤ b.length) && b.length == 4 + field b 1 1 }
def printable (b : Byte) : Bool := decide (0x20 ≤ b.toNat) && decide (b.toNat ≤ 0x7E)
def displayText (r : Req) : State → State × Option (Nat × List Byte) :=
  let line := field r.payload 0 1
  guarded [need (fun _ => decide (line < 2)) stRange, need (fun _ => decide (field r.payload 1 1 ≤ 36)) stRange, reserved r.payload 2 2,
           need (fun _ => (r.payload.drop 4).all printable) stRange]
    fun s => reply stOk [] (s.upDisp fun d => { d with lines := setAt d.lines line fun _ => r.payload.drop 4 })
def displayRefresh : State → State × Option (Nat × List Byte) :=
  guarded [need (fun s => !s.disp.frozen) stState] fun s => reply stOk [] (s.upDisp fun d => { d with fullPending := true })

/-! ## Handovers and station diagnostics -/

/-- `PAIR_HANDOVER` (07 R166): a flip armed for the same boundary comes first. -/
def pairHandover : State → State × Option (Nat × List Byte) :=
  guarded [need (fun s => s.twinSynced && s.sheaf.twinState != 6 && !s.pair.hedgeFault) stState, need (fun s => s.pair.armed.isNone) stBusy]
    (withJob 0x103 fun id s =>
      let th := s.nextT0 3 (s.tb0 + 100000000)
      let flip := match s.cfg.armed with | some f => f.tb == th | none => false
      s.armHandover 0 (if flip then s.nextT0 3 (th + 1) else th) id)
def diagReadCmd : Cmd := { plainCmd 0xB00 1 8 with runtime := true }
/-- `DIAG_READ`: the FSP counters, a station page, or the Pastasy counters. -/
def diagRead (r : Req) : State → State × Option (Nat × List Byte) :=
  let src := field r.payload 0 1
  let a := field r.payload 2 2
  let page := field r.payload 4 2
  guarded [need (fun _ => decide (src < 3)) stRange, reserved r.payload 1 1, reserved r.payload 6 2,
           need (fun _ => src != 1 || (decide (1 ≤ a) && decide (a ≤ 0xFFE) && decide (page < 256))) stRange,
           need (fun s => src != 1 || !s.diagBusy a) stBusy] fun s =>
    if src = 0 then reply stOk (s.fsp.counters.flatMap (leBytes 4)) s
    else if src = 2 then reply stOk (s.msg.counters.flatMap (leBytes 4)) s
    else (s.sendDiag a page (some (hdrOf r)) none, none)
/-- The mailbox still waits for the response to a page request. -/
def State.waitsFor (s : State) (h : Hdr) : Bool := (s.box h.mb).busy && (decide (8 ≤ h.mb) || (s.box h.mb).sid == h.session)
/-- The quantities of an UNREPORTED record: id, outcome and stamp, then the counters of page 1 (05 R111). -/
def unreportedQs (id : Nat) (page : List Byte) : List (Nat × Nat) :=
  [(4, id), (1, 8), (8, 0)] ++ (List.range (page.length / 4)).map fun i => (4, field page (4 * i) 4)
/-- DIAG page 0 to a station of a seed's map, which the sown map may lack (10 R232). -/
def State.probe (r : StationRec) (s : State) : State :=
  let no := s.fsp.diagNo
  (s.upFsp fun q => { q with diagNo := (no + 1) % 1024,
                             diags := { station := r.addr, number := no, page := 0, forReq := none, forEntry := none } :: q.diags }).sendFrame r.ports
    { kind := 9, station := r.addr, tag := no, cls := 0, cycle := 0, pending := false, retry := false, pcp := s.conf.map.pcp.getD 4 0,
      dest := r.mac, payload := zeroBytes 4 }
/-- A check job hears a station's model id, and asks a station whose earlier DIAG request has ended (check 0x11). -/
def State.probeEnds (d : DiagSt) (page : Option (List Byte)) (s : State) : State :=
  match s.cfg.job with
  | none => s
  | some j =>
    if !j.isCheck then s
    else if j.toAsk.contains d.station then
      let s := s.upCfg fun c => { c with job := some { j with toAsk := j.toAsk.filter (· != d.station) } }
      (match s.cfg.seed.cfg.map.stations.find? fun r => r.addr == d.station with | some r => s.probe r | none => s)
    else match page with
      | some b => if d.page = 0 then s.upCfg fun c => { c with job := some { j with models := (d.station, field b 4 4) :: j.models } } else s
      | none => s
/-- An outstanding DIAG request ends: with its response, or with none after 10 ms (04 R82). -/
def State.endDiag (d : DiagSt) (page : Option (List Byte)) (s : State) : State :=
  let s := s.upFsp fun q => { q with diags := q.diags.filter fun e => e.station != d.station }
  let s := match d.forReq with
    | some h =>
      if !s.waitsFor h then s
      else (match page with | some b => s.respond h 0xB00 stOk b | none => s.respond h 0xB00 stTimeout [])
    | none => s
  let s := match d.forEntry with
    | some id => s.recordOutcome 8 (unreportedQs id ((page.getD []).drop 4))
    | none => s
  let s := match page with
    | some b => if d.page = 0 then s.hearTerm (field b 24 4) else s
    | none => s
  s.probeEnds d page
/-- A DIAG response is matched by its request number (04 R82, R96). -/
def State.diagResponse (f : Fsp) (s : State) : State :=
  match s.fsp.diags.find? fun d => d.station == f.station && d.number == f.tag with
  | none => s.upCyc fun c => { c with unmatched := inc32 c.unmatched }
  | some d =>
    if f.payload.length < 4 || field f.payload 0 2 != d.page || !zeros f.payload 2 2 then s.fspCount 15 else s.endDiag d (some f.payload)

/-! ## The meanings -/

def execPointRead (t : Nat) (r : Req) (s : State) : Host.Outcome State Fault Refusal :=
  happens t s State.awake (State.run pointReadCmd r (pointRead r))
/-- POINT_FORCE and POINT_RELEASE (02 R41): PRIMARY and SOLO. -/
def execPointForce (t : Nat) (r : Req) (s : State) : Host.Outcome State Fault Refusal :=
  happens t s State.awake (State.run { plainCmd 0x301 3 12 with modes := [5, 6] } r (pointForce r))
def execPointRelease (t : Nat) (r : Req) (s : State) : Host.Outcome State Fault Refusal :=
  happens t s State.awake (State.run { plainCmd 0x302 3 4 with modes := [5, 6] } r (pointRelease r))
def execPointBrowse (t : Nat) (r : Req) (s : State) : Host.Outcome State Fault Refusal :=
  happens t s State.awake (State.run (plainCmd 0x303 1 8) r (pointBrowse r))
def execTimeStatus (t : Nat) (r : Req) (s : State) : Host.Outcome State Fault Refusal :=
  happens t s State.awake (State.run (plainCmd 0x600 1 0) r timeStatus)
/-- TIME_STEP (06 R131). -/
def execTimeStep (t : Nat) (r : Req) (s : State) : Host.Outcome State Fault Refusal :=
  happens t s State.awake (State.run { plainCmd 0x601 3 20 with modes := [2] } r (timeStep r))
def execRecOpen (t : Nat) (r : Req) (s : State) : Host.Outcome State Fault Refusal :=
  happens t s State.awake (State.run (plainCmd 0x700 1 8) r (recOpen r))
def execRecRead (t : Nat) (r : Req) (s : State) : Host.Outcome State Fault Refusal :=
  happens t s State.awake (State.run (plainCmd 0x701 1 4) r (recRead r))
def execRecClose (t : Nat) (r : Req) (s : State) : Host.Outcome State Fault Refusal :=
  happens t s State.awake (State.run (plainCmd 0x702 1 0) r (recClose r))
def execRecMark (t : Nat) (r : Req) (s : State) : Host.Outcome State Fault Refusal :=
  happens t s State.awake (State.run recMarkCmd r (recMark r))
/-- DISPLAY_TEXT (18 R380). -/
def execDisplayText (t : Nat) (r : Req) (s : State) : Host.Outcome State Fault Refusal :=
  happens t s State.awake (State.run displayTextCmd r (displayText r))
def execDisplayRefresh (t : Nat) (r : Req) (s : State) : Host.Outcome State Fault Refusal :=
  happens t s State.awake (State.run (plainCmd 0x901 2 0) r displayRefresh)
def execPairHandover (t : Nat) (r : Req) (s : State) : Host.Outcome State Fault Refusal :=
  happens t s State.awake (State.run { plainCmd 0x103 3 0 with modes := [5] } r pairHandover)
def execDiagRead (t : Nat) (r : Req) (s : State) : Host.Outcome State Fault Refusal :=
  happens t s State.awake (State.run diagReadCmd r (diagRead r))
/-- DIAG_RESPONSE (04 R82). -/
def execDiagResponse (t : Nat) (f : RxFrame) (s : State) : Host.Outcome State Fault Refusal :=
  happens t s (fun s => s.hears f) (State.receive 9 State.diagResponse f)
def execDiagTimeout (t station : Nat) (s : State) : Host.Outcome State Fault Refusal :=
  happens t s State.awake fun s =>
    match s.fsp.diags.find? fun d => d.station == station with | some d => s.endDiag d none | none => s

end Sys2Proof.Machine
end

