-- ==== Sys2Proof/Machine/Checks.lean ====
section
/-! DEFINITION. The checks of `CFG_CHECK` (10 Table 10.4): the format of an image, the ranges of its fields, conflicts, capacities,
loads, placements and the flip window (10 R215–R236; 02 R25; 03 R66; 05 R98–R106; 06 R137–R140; 07 R157, R165; 09 R210; 12 R283;
14 R317; 15 R330; 16 R349–R356). -/

namespace Sys2Proof.Machine

/-- An entry of the check report (10 R233). -/
structure CheckEntry where
  id : Nat
  status : Nat
  subject : Nat
  value : Nat
  limit : Nat

/-- A refusal for which the spec names no figure (log 41). -/
def refuse (c : Cfg) (id status subject : Nat) : CheckEntry :=
  { id := id, status := status, subject := subject, value := Config.reportFigure c.version id subject false % 2 ^ 64,
    limit := Config.reportFigure c.version id subject true % 2 ^ 64 }
/-- The entry of a formula num / den ≤ limit; the figure is rounded up (log 42). -/
def judge (id subject num den limit : Nat) : CheckEntry :=
  { id := id, status := if num ≤ limit * den then stOk else stCapacity, subject := subject, value := ceilDiv num (max 1 den), limit := limit }
/-- A count against a limit: an entry only where it exceeds. -/
def tooMany (id subject n limit : Nat) : List CheckEntry := if n ≤ limit then [] else [judge id subject n 1 limit]
/-- Subject of a conflict: its code in Table 10.5 and its index. -/
def conflictSubject (k : Nat × Nat) : Nat := k.1 * 2 ^ 24 + k.2 % 2 ^ 24
/-- A list rises strictly. -/
def rising : List Nat → Bool
  | a :: b :: l => decide (a < b) && rising (b :: l)
  | _ => true
/-- A list never falls. -/
def notFalling : List Nat → Bool
  | a :: b :: l => decide (a ≤ b) && notFalling (b :: l)
  | _ => true
/-- The elements that repeat an earlier one. -/
def repeats : List Nat → List Nat → List Nat
  | _, [] => []
  | seen, a :: l => if seen.contains a then a :: repeats seen l else repeats (a :: seen) l
def within (lo hi x : Nat) : Bool := decide (lo ≤ x) && decide (x ≤ hi)
def pad8 (n : Nat) : Nat := (n + 7) / 8 * 8

/-! ## Checks 0x01 and 0x02 (10 R216, R229) -/

def imageDigest (img : List Byte) : List Byte := Config.sha384 (slice img 0 40 ++ zeroBytes 144 ++ img.drop 184)
/-- The key slot holds a key, and digest and signature verify. -/
def State.imageOk (s : State) (img : List Byte) : Bool :=
  match s.sec.cfgKeys.find? fun k => k.1 == field img 36 4 with
  | some k => imageDigest img == slice img 40 48 && Config.ecdsaOk (slice img 40 48) (slice img 88 96) k.2
  | none => false
/-- The version rule for an image offered as a seed. -/
def State.versionRefusal (s : State) (img : List Byte) : Option Nat :=
  let v := field img 8 4
  if v = 0 then some stRange
  else if s.cfg.seed.present && s.cfg.seed.cfg.version == v && s.cfg.seed.cfg.digest == slice img 40 48 then none
  else if s.cfg.highWater = 0xFFFFFFFF then some stCapacity
  else if v ≤ s.cfg.highWater then some stVersion
  else none
def State.check01 (s : State) (img : List Byte) (c : Cfg) : List CheckEntry := if s.imageOk img then [] else [refuse c 1 stIntegrity 0]
def State.check02 (s : State) (img : List Byte) (c : Cfg) : List CheckEntry :=
  match s.versionRefusal img with | some st => [refuse c 2 st 0] | none => []

/-! ## Check 0x03: header, section table, section formats (10 R215–R228) -/

/-- The header of Table 10.1. -/
def headerOk (img : List Byte) : Bool :=
  slice img 0 4 == ascii "F9CF" && field img 4 2 == 1 && field img 6 2 == 15 && field img 8 4 != 0 && field img 16 8 == img.length &&
    within 1280 1073741824 img.length && field img 32 4 == 9 && decide (field img 36 4 < 8) && zeros img 184 72
/-- The used entries of the section table: id, CRC, offset and size. -/
def tableOf (img : List Byte) : List (Nat × Nat × Nat × Nat) :=
  ((chunks 32 32 (slice img 256 1024)).filter fun e => field e 0 2 != 0).map fun e => (field e 0 2, field e 4 4, field e 8 8, field e 16 8)
/-- Reserved bytes of the table are 0, and its fifteen entries name each section once. -/
def tableOk (img : List Byte) : Bool :=
  (chunks 32 32 (slice img 256 1024)).all (fun e => zeros e 2 2 && zeros e 24 8) && (tableOf img).length == 15 &&
    (List.range 15).all fun i => ((tableOf img).filter fun e => e.1 == i + 1).length == 1
/-- A section lies aligned within LENGTH, after the table, and overlaps no other. -/
def placedOk (img : List Byte) (e : Nat × Nat × Nat × Nat) : Bool :=
  let (id, _, off, size) := e
  off % 8 == 0 && decide (1280 ≤ off) && decide (off + size ≤ field img 16 8) &&
    (tableOf img).all fun f => f.1 == id || decide (f.2.2.1 + f.2.2.2 ≤ off) || decide (off + size ≤ f.2.2.1)
/-- PORTS of a station: one port of a chain, or the two of its ring. -/
def portsOk (topology ports : Nat) : Bool :=
  if ports = 1 || ports = 2 then !bit topology 0 else if ports = 4 || ports = 8 then !bit topology 1
  else if ports = 3 then bit topology 0 else ports == 12 && bit topology 1
/-- Station map (R220). -/
def mapOk (b : List Byte) (m : MapCfg) : Bool :=
  b.length == 64 + 64 * field b 0 2 + 16 * field b 2 1 && decide (field b 2 1 ≤ 63) && decide (m.topology < 4) && within 1 4094 m.vid &&
    zeros b 26 2 && m.pcp.all (fun p => decide (p < 8)) && zeros b 33 3 && m.pmd.all (fun p => decide (p < 5)) && zeros b 42 22 &&
    m.stations.all (fun r => decide (r.flags < 2) && r.spare && portsOk m.topology r.ports) && notFalling (m.stations.map fun r => r.addr) &&
    m.peers.all (fun p => within 1 63 p.peer && p.spare) && rising (m.peers.map fun p => p.peer)
/-- Points (R218). -/
def pointsOk (b : List Byte) (c : Cfg) : Bool :=
  b.length % 16 == 0 && rising (c.points.map fun p => p.handle) && c.points.all fun p => p.spare && ruleKind p.rule != 0
/-- The transactions of a class: its reads, then its writes. -/
def transOk (t : TransRec) : Bool :=
  within 1 0xFFE t.station && within 1 8 t.count && t.spare && (t.ranges.drop t.count).all (· == (0xFFFF, 0xFFFF)) &&
    decide (((t.ranges.take t.count).map fun r => r.2).sum ≤ if t.isWrite then 358 else 360)
def classTransOk (c : Cfg) (x : Nat) : Bool :=
  let ts := c.trans.filter fun t => t.cls == x
  let r := c.classes.getD x (defaultClass 0 0)
  (ts.take r.reads).all (fun t => !t.isWrite) && (ts.drop r.reads).all (fun t => t.isWrite) && ts.length == r.reads + r.writes
def taskOk (textLen : Nat) (t : TaskRec) : Bool :=
  decide (t.cls < 4) && decide (t.pair < 8) && (List.range 8).all (fun n => decide (t.fallback.getD n 8 < 8) && t.fallback.getD n 8 != n) &&
    t.spare && decide (t.entry < textLen)
/-- Classes and tasks (R221). -/
def classesOk (b : List Byte) (c : Cfg) : Bool :=
  b.length == 144 + 40 * field b 4 4 + 32 * field b 0 4 && zeros b 8 8 && field b 4 4 == (c.classes.map fun r => r.reads + r.writes).sum &&
    c.classes.all (fun r => r.spare) && c.trans.all transOk && (List.range 4).all (classTransOk c) &&
    rising (c.tasks.map fun t => t.task) && c.tasks.all (taskOk c.text.length)
/-- Program code (R222). -/
def codeOk (b : List Byte) : Bool := b.length == 32 + pad8 (field b 8 8) + pad8 (field b 16 8) && zeros b 4 4
/-- First and last unit of a rule of Table 12.2 as byte addresses. -/
def ruleStart (w : List Nat) : Nat := 32 * (w.getD 0 0 + bits (w.getD 3 0) 8 3 * 2 ^ 32)
def ruleEnd (w : List Nat) : Nat := 32 * (w.getD 1 0 + bits (w.getD 3 0) 11 3 * 2 ^ 32) + 31
/-- A protection map entry (12 R283). -/
def mapEntryOk (e : MapEntry) : Bool :=
  let w3 := e.words.getD 3 0
  let m := e.words.getD 2 0
  decide (e.gate < 24) && e.gate != 10 && e.gate != 23 && within 2 (ruleCount e.gate - 2) e.rule && e.spare &&
    decide (ruleStart e.words ≤ ruleEnd e.words) && decide ((gateRange e.gate).1 ≤ ruleStart e.words) &&
    decide (ruleEnd e.words ≤ (gateRange e.gate).2) && bits m 8 10 == 0 && bits m 19 13 == 0 && (!bit m 18 || bits w3 2 4 == 0) &&
    !bit w3 6 && bits w3 14 18 == 0 && bits w3 0 2 == 0
def protectionOk (b : List Byte) (c : Cfg) : Bool :=
  b.length % 20 == 0 && c.gates.all mapEntryOk && (repeats [] (c.gates.map fun e => e.gate * 256 + e.rule)).isEmpty
/-- Word C + 0 of a digital channel (14 Table 14.6, R320, R321). -/
def dioWordOk (w : Nat) : Bool :=
  let m := bits w 0 2
  bits w 22 10 == 0 && (if m = 2 || m = 3 then within 1 500 (bits w 12 10) else bits w 12 10 == 0) && bits w 8 2 != 3 &&
    (!bit w 7 || m == 1) && decide (bits w 2 4 ≤ 8)
/-- Words C + 0 and C + 1 of an analogue channel (15 Table 15.5, R334, R340, R342, R344). -/
def uaWordsOk (u : Nat × Nat) : Bool :=
  let (w, w1) := u
  let m := bits w 28 4
  let sensor := bits w 24 4
  let rate := bits w 21 3
  let safe := bits w 18 3
  let hart := bits w 14 2
  let dev := bits w 10 4
  decide (m ≤ 8) && (if m = 4 || m = 5 then decide (sensor ≤ 1) else if m = 6 then decide (sensor ≤ 6) else sensor == 0) &&
    decide (rate ≤ (if 4 ≤ m && m ≤ 6 then 1 else 4)) && decide (safe ≤ 4) && ((safe != 2 && safe != 3) || m == 8) &&
    (if hart = 0 then dev == 0 else if hart = 1 then (m == 2 || m == 3 || m == 8) && dev == 1
     else hart == 2 && m == 2 && within 1 15 dev && !bit w 17) && bits w 0 9 == 0 &&
    (m == 7 || m == 8 || bits w1 16 16 == 0) &&
    (if m = 4 then true
     else if m = 6 && bit w 16 then decide (-4000 ≤ signed 16 w1) && decide (signed 16 w1 ≤ 8500) else bits w1 0 16 == 0)
/-- Local channels (R223). -/
def localOk (b : List Byte) (c : Cfg) : Bool :=
  b.length == 136 && within 1 1000 c.dioWord && within 1 1000 c.uaWord && c.dio.all dioWordOk && c.ua.all uaWordsOk
/-- Prescaler × quanta of a bit: 80 MHz over the rate (16 R350). -/
def CanCfg.nominal (c : CanCfg) : Nat := (bits (c.word 0) 23 9 + 1) * (3 + bits (c.word 0) 15 8 + bits (c.word 0) 8 7)
def CanCfg.data_ (c : CanCfg) : Nat := (bits (c.word 1) 27 5 + 1) * (3 + bits (c.word 1) 22 5 + bits (c.word 1) 18 4)
/-- The bit timing of a channel in use (16 R349–R351). -/
def CanCfg.timingOk (c : CanCfg) : Bool :=
  let a := c.word 0
  let b := c.word 1
  let brs := bit b 1
  let tdc := bit b 2
  decide (1 ≤ bits a 15 8) && decide (1 ≤ bits a 8 7) && decide (bits a 1 7 ≤ bits a 8 7) && decide (bits b 14 4 ≤ bits b 18 4) &&
    within 80 8000 c.nominal && (!bit a 0 || decide (640 ≤ c.nominal)) && (!brs || (decide (10 ≤ c.data_) && decide (c.data_ ≤ c.nominal))) &&
    (!brs || decide (80 ≤ c.data_) || tdc) && (if tdc then bits b 4 4 != 0 else bits b 4 4 == 0) &&
    decide (bits b 8 6 ≤ bits b 22 5 + bits b 18 4 + 2)
/-- The time master (16 R365, R366). -/
def CanCfg.masterOk (c : CanCfg) : Bool :=
  !c.tmEnable || ((c.tmXtd || decide (c.tmId ≤ 0x7FF)) && within 1000 1000000 (c.word 4))
/-- A filter element (16 Table 16.3). -/
def filterOk (e : Nat × Nat × Nat) : Bool :=
  let t := bits e.2.2 24 8
  bits e.1 29 3 == 0 && bits e.2.1 29 3 == 0 && (decide (t < 3) || within 0x40 0x7F t) && bits e.2.2 4 20 == 0 && bits e.2.2 2 2 != 3 &&
    bits e.2.2 0 2 != 3
/-- The settings of a channel but for what other checks name. -/
def CanCfg.settingsOk (c : CanCfg) : Bool :=
  bits (c.word 2) 1 7 == 0 && bits (c.word 2) 19 2 != 3 && bits (c.word 2) 21 2 != 3 && bits (c.word 3) 30 2 == 0 && !bit (c.word 1) 3 &&
    c.tx.all (fun t => bits t 6 26 == 0 && bits t 0 3 == 0) && c.filters.all filterOk &&
    (if c.enabled then c.timingOk && c.masterOk else c.filters.isEmpty)
/-- Points on the CAN channel's receive buffers (2, 3) or transmit buffers: handle and buffer. -/
def Cfg.canPoints (c : Cfg) (n : Nat) (out : Bool) : List (Nat × Nat) :=
  (c.points.filter fun p => ruleKind p.rule == 9 && ruleStation p.rule == 0 && ruleIsOut p.rule == out && ruleOffset p.rule / 0x100 == n + 2).map
    fun p => (p.handle, ruleOffset p.rule % 0x100)
/-- Dedicated receive buffers that the elements name. -/
def CanCfg.named (c : CanCfg) : List Nat := (c.filters.filter fun e => decide (0x40 ≤ bits e.2.2 24 8)).map fun e => bits e.2.2 24 8 - 0x40
/-- A receive buffer named by an element is read by a point (16 R355). -/
def Cfg.namedRead (c : Cfg) (n : Nat) : Bool := (c.canCfg n).named.all fun b => (c.canPoints n false).any fun p => p.2 == b
/-- CAN (R224): the channels at fault, or none but the layout. -/
def canFaults (b : List Byte) (c : Cfg) : List Nat :=
  let n0 := (parseCan b).2
  let n1 := (parseCan (b.drop n0)).2
  if b.length != n0 + n1 || !zeros b 20 4 || !zeros b (n0 + 20) 4 then [0xFF]
  else (List.range 2).filter fun n => !(c.canCfg n).settingsOk || !c.namedRead n
/-- Length of the gate control lists. -/
def listsLen (lists : List (List GclEntry)) : Nat := (lists.map fun l => 8 + 8 * l.length).sum
/-- Offsets of the heads of the lists. -/
def listHeads : Nat → List (List GclEntry) → List Nat
  | _, [] => []
  | off, l :: ls => off :: listHeads (off + 8 + 8 * l.length) ls
/-- A port record: roles only under external port configuration (R225). -/
def roleOk (ext : Bool) (r : Nat) : Bool := if ext then decide (r ≤ 3) else r == 0
/-- Time (R225), but for what check 0x09 names. -/
def timeOk (b : List Byte) (t : TimeCfg) : Bool :=
  b.length == 576 + listsLen t.lists && decide (t.domain0 ≤ 127) && (decide (t.domain1 ≤ 127) || t.domain1 == 0xFF) && decide (t.gmCapable < 4) &&
    decide (t.extPort < 4) && decide (-7 ≤ t.logSync) && decide (t.logSync ≤ 0) && decide (-3 ≤ t.logPdelay) && decide (t.logPdelay ≤ 3) &&
    decide (t.ppsOutBase < 2) && decide (t.ppsIn < 16) && bits t.ppsIn 2 2 != 2 && decide (t.thresholdNs ≤ 100000) && zeros b 20 44 &&
    (List.range 4).all (fun p => zeros b (64 + 16 * p + 10) 6) &&
    t.ports.all (fun p => roleOk (bit t.extPort 0) p.2.2.1 && roleOk (bit t.extPort 1) p.2.2.2) &&
    (listHeads 576 t.lists).all (fun h => zeros b (h + 2) 6 && decide (field b h 2 ≤ 1024)) && t.lists.all fun l => l.all fun e => e.spare
/-- Publications (R227). -/
def pubsOk (b : List Byte) (c : Cfg) : Bool :=
  let n := c.pair.pubCounts.sum
  let at_ (x : Nat) : List Nat := (c.pair.pubs.drop (c.pair.pubCounts.take x).sum).take (c.pair.pubCounts.getD x 0)
  b.length == 16 + 4 * n && decide (n ≤ 65536) && c.pair.pubs.all (fun h => decide (h < 2 ^ 24)) && (repeats [] c.pair.pubs).isEmpty &&
    (List.range 4).all fun x => (at_ x).all fun h => within 1 7 (ruleKind (c.rule h)) && ruleClass (c.rule h) == x
/-- Firmware minimums and declared budgets (R228). -/
def minimumsOk (b : List Byte) : Bool := b.length == 72 && (List.range 9).all fun i => field b (8 * i) 2 == i + 1 && zeros b (8 * i + 2) 2
def budgetsOk (b : List Byte) (c : Cfg) : Bool :=
  b.length == 64 + 8 * c.tasks.length && (List.range 4).all (fun x => zeros b (16 * x + 12) 4) &&
    c.pair.budgets.all (fun k => decide (k.2.2 ≤ 3600000000)) && (c.pair.taskPages.map fun p => p.1) == c.tasks.map (fun t => t.task) &&
    (List.range c.tasks.length).all fun i => zeros b (64 + 8 * i + 2) 2
/-- The format of each section. -/
def sectionOk (c : Cfg) (id : Nat) (b : List Byte) : Bool :=
  match id with
  | 1 => mapOk b c.map
  | 2 => pointsOk b c
  | 3 => b.length == 16384 * 64 && c.transforms.all fun t => t.spare && decide (t.flags < 2)
  | 4 => b.length == 16384 * 16 && c.filters.all fun f => f.spare
  | 5 => b.length == 1024 * 256
  | 6 => classesOk b c
  | 7 => codeOk b
  | 8 => protectionOk b c
  | 9 => localOk b c
  | 10 => true
  | 11 => timeOk b c.time
  | 12 => b.length == 24 && c.pair.spare
  | 13 => pubsOk b c
  | 14 => minimumsOk b
  | _ => budgetsOk b c
/-- The entries of one section: a breach of CAN settings names the channel in VALUE (16 R349; log 42). -/
def checkSection (img : List Byte) (c : Cfg) (e : Nat × Nat × Nat × Nat) : List CheckEntry :=
  let b := slice img e.2.2.1 e.2.2.2
  (if placedOk img e then [] else [refuse c 3 stRange e.1]) ++
    (if (crc32c b).toNat = e.2.1 then [] else [refuse c 3 stIntegrity e.1]) ++
    (if sectionOk c e.1 b then [] else [refuse c 3 stRange e.1]) ++
    (if e.1 = 10 then (canFaults b c).map fun n => { refuse c 3 stRange 10 with value := n } else [])
def check03 (img : List Byte) (c : Cfg) : List CheckEntry :=
  (if headerOk img && tableOk img then [] else [refuse c 3 stRange 0]) ++ (tableOf img).flatMap (checkSection img c)

/-! ## Check 0x04: firmware minimums and RUNTIME_ABI (10 R222, R228) -/

/-- Components of a set whose versions are below the minimums of a configuration. -/
def belowMinimum (versions : List Nat) (c : Cfg) : List Nat :=
  (c.pair.minimums.filter fun m => decide (versions.getD (m.1 - 1) 0 < m.2)).map fun m => m.1
def State.check04 (s : State) (c : Cfg) : List CheckEntry :=
  (belowMinimum s.sheaf.versions c).map (refuse c 4 stVersion) ++
    (if Config.abiServed (s.sheaf.versions.getD 1 0) c.abi then [] else [refuse c 4 stVersion 2])

/-! ## Check 0x05: handles and rules (02 R16, R25, Table 2.6; 14 R317, R327; 15 R330, R331; 16 R355, R356) -/

/-- The transform types that a kind and direction permit. -/
def transformAllowed (kind : Nat) (out : Bool) (t : Nat) : Bool :=
  if 2 ≤ kind && kind ≤ 6 then (if out then decide (t ≤ 2) else decide (t ≤ 4)) else t == 0
/-- The filter types that a kind and direction permit. -/
def filterAllowed (kind : Nat) (out : Bool) (f : Nat) : Bool :=
  f == 0 || (!out && ((kind == 1 && f == 3) || (within 2 6 kind && decide (f ≤ 2)) || (kind == 7 && f == 4)))
/-- Kinds that may be outputs. -/
def mayBeOut (kind : Nat) : Bool := within 1 6 kind || kind == 9
/-- A point on a digital channel (14 Table 14.1, R327). -/
def dioPointOk (c : Cfg) (p : PointRec) : Bool :=
  let n := ruleOffset p.rule
  let w := c.dio.getD n 0
  let m := bits w 0 2
  let k := ruleKind p.rule
  if ruleIsOut p.rule then k == 1 && (m == 2 || m == 3)
  else
    (m == 1 || m == 3) && (k == 1 || (k == 7 && (c.filter p.rule).type == 4) || (k == 8 && n == 15 && m == 1 && bits w 10 2 != 0))
/-- A point on an analogue channel (15 R330, R331). -/
def uaPointOk (c : Cfg) (p : PointRec) : Bool :=
  let n := ruleOffset p.rule - 0x100
  let w := (c.ua.getD n (0, 0)).1
  let m := bits w 28 4
  let k := ruleKind p.rule
  let raw := if bit w 9 then 4 else 6
  within 1 8 m && (k == 6 || k == 4) && (!ruleIsOut p.rule || m == 7 || m == 8) && c.rawKind p.rule == raw &&
    (!ruleIsOut p.rule || !(c.points.any fun q => decide (q.handle < p.handle) && ruleKind q.rule != 10 && ruleStation q.rule == 0 &&
      ruleIsOut q.rule && ruleOffset q.rule == ruleOffset p.rule))
/-- A point on a CAN buffer (16 R353, R355, R356, R358). -/
def canPointOk (c : Cfg) (p : PointRec) : Bool :=
  let n := ruleOffset p.rule / 0x100 - 2
  let b := ruleOffset p.rule % 0x100
  let use_ := (c.canCfg n).txUse (b - 0x40)
  ruleKind p.rule == 9 && within 16 80 (c.capacity p.handle) &&
    (if b < 0x40 then !ruleIsOut p.rule && (c.canCfg n).named.contains b else ruleIsOut p.rule && decide (b < 0x60) && use_ != 0)
/-- A point on a local channel (02 Table 2.4). -/
def localPointOk (c : Cfg) (p : PointRec) : Bool :=
  let o := ruleOffset p.rule
  if o < 0x10 then dioPointOk c p else if within 0x100 0x107 o then uaPointOk c p
  else if within 0x200 0x25F o || within 0x300 0x35F o then canPointOk c p else false
/-- Handle and rule of a point. -/
def pointOk (c : Cfg) (p : PointRec) : Bool :=
  let r := p.rule
  let k := ruleKind r
  let out := ruleIsOut r
  within 1 0x5FFFFF p.handle && within 1 10 k && (!out || mayBeOut k) && transformAllowed k out (c.transform r).type &&
    filterAllowed k out (c.filter r).type && (!ruleTimed r || (out && within 1 6 k)) &&
    (if k = 10 then within 1 63 (ruleStation r)
     else if ruleStation r = 0 then localPointOk c p
     else ruleStation r != 0xFFF && (c.map.stations.any fun q => q.addr == ruleStation r) && (k != 1 || decide (ruleOffset r ≤ 0x7FF)))
def check05 (c : Cfg) : List CheckEntry :=
  ((c.points.filter fun p => !pointOk c p).map fun p => refuse c 5 stRange p.handle) ++
    ((c.pair.pubs.filter fun h => !within 1 0x5FFFFF h).map (refuse c 5 stRange))

/-! ## Check 0x06: transforms, filters, characteristics (02 R34, R35, Tables 2.8, 2.11) -/

/-- The x of used breakpoints rise strictly. -/
def xRising : List (Word × Word) → Bool
  | a :: b :: l => f32Finite a.1 && f32Finite b.1 && f64Lt (f64OfF32 a.1) (f64OfF32 b.1) && xRising (b :: l)
  | _ => true
def f64Eq (x y : Word64) : Bool := !f64IsNaN x && !f64IsNaN y && !f64Lt x y && !f64Lt y x
def transformOk (c : Cfg) (t : Transform) : Bool :=
  decide (t.type ≤ 4) && (t.type == 0 || within 2 6 t.rawKind) &&
    (match t.type with
     | 1 => f64Finite (t.par 0) && f64Finite (t.par 1)
     | 2 => !f64Eq (t.par 2) (t.par 0)
     | 3 => !f64Eq (t.par 1) (t.par 0) && !f64IsNaN (t.par 4) && !f64Lt (t.par 4) 0#64 && f64Lt (t.par 4) (f64OfInt 1)
     | 4 => within 2 32 t.count && decide (t.index ≤ 1023) && xRising ((c.characteristics.getD t.index []).take t.count)
     | _ => true)
def filterEntryOk (f : Filter) : Bool :=
  match f.type with
  | 0 => true
  | 1 => true
  | 2 => f64Lt 0#64 f.p
  | 3 => within 1 255 f.n
  | 4 => within 1 3 f.edges
  | _ => false
/-- The places of the elements that fail a test. -/
def failing {α : Type} (ok : α → Bool) (xs : List α) : List Nat :=
  (List.range xs.length).filter fun i => match xs[i]? with | some x => !ok x | none => false
def check06 (c : Cfg) : List CheckEntry :=
  ((failing (transformOk c) c.transforms) ++ failing filterEntryOk c.filters).map (refuse c 6 stRange)

/-! ## Checks 0x07 and 0x08: classes and stations (03 R47, R51, R54; 02 R40; 04 R84) -/

/-- Period ranges of Table 3.1. -/
def periodRange (x : Nat) : Nat × Nat := [(250, 10000), (1000, 100000), (10000, 1000000), (100000, 10000000)].getD x (1, 0)
def classOk (c : Cfg) (x : Nat) : Bool :=
  let r := c.classes.getD x (defaultClass 0 0)
  let faster := (c.classes.getD (x - 1) (defaultClass 0 0)).periodUs
  within (periodRange x).1 (periodRange x).2 r.periodUs && (x == 0 || (faster != 0 && r.periodUs % faster == 0)) &&
    decide (100 ≤ r.deadlineUs) && decide (r.deadlineUs + 30 ≤ r.periodUs) && decide (10 ≤ r.windowUs) &&
    decide (r.deadlineUs + r.windowUs + 20 ≤ r.periodUs) && decide (r.deadlineUs + r.windowUs + 20 ≤ r.applyUs) && decide (r.applyUs ≤ r.periodUs) &&
    decide (8 ≤ r.quota) && r.quota % 8 == 0 && decide (((c.classes.take (x + 1)).map fun k => k.quota).sum ≤ 1024) && within 1 65534 r.stale
def check07 (c : Cfg) : List CheckEntry := ((List.range 4).filter fun x => !classOk c x).map (refuse c 7 stRange)
/-- Hold times between 3 × P_x and 60 s, and the address in range. -/
def stationOk (c : Cfg) (r : StationRec) : Bool :=
  within 1 0xFFE r.addr && (List.range 4).all fun x => within (3 * (c.classes.getD x (defaultClass 0 0)).periodUs) 60000000 (r.holdUs.getD x 0)
def check08 (c : Cfg) : List CheckEntry :=
  ((c.map.stations.drop 4094).take 1).map (fun r => refuse c 8 stCapacity r.addr) ++
    (c.map.stations.filter fun r => !stationOk c r).map fun r => refuse c 8 stRange r.addr

/-! ## Conflicts (10 R235 Table 10.5) -/

/-- Word i of a trigger slot's record. -/
def Cfg.slotWord (c : Cfg) (n i : Nat) : Nat := (c.time.triggers.getD (n - 4) []).getD i 0
def slotNumbers : List Nat := (List.range 28).map (· + 4)
/-- Enabled slots with a TARGET, in order. -/
def Cfg.enabledSlots (c : Cfg) (target : Nat) : List Nat :=
  slotNumbers.filter fun n => bit (c.slotWord n 0) 0 && bits (c.slotWord n 0) 24 8 == target
def Cfg.slotArg (c : Cfg) (n : Nat) : Nat := bits (c.slotWord n 0) 16 8
/-- PCPs of FSP frames but for DIAG's, and the queue of gPTP. -/
def Cfg.mustOpen (c : Cfg) : List Nat := 7 :: c.map.pcp.take 4
/-- Ports and queues that a list closes against R140. -/
def Cfg.badClosures (c : Cfg) : List (Nat × Nat) :=
  (List.range 4).flatMap fun p => (c.mustOpen.eraseDups.filter fun q => (c.time.lists.getD p []).any fun e => !bit e.gates q).map fun q => (p, q)
/-- DIO15 captures (14 R327). -/
def Cfg.captures (c : Cfg) (n : Nat) : Bool := bits (c.dio.getD n 0) 10 2 != 0
/-- The conflicts of the time units: codes 0x01 to 0x04 and 0x0B (06 R139, R140). -/
def Cfg.timeConflicts (c : Cfg) : List (Nat × Nat) :=
  let masks := c.enabledSlots 2
  ((List.range 16).filter fun n => c.captures n && (n != 15 || decide (2 ≤ bits (c.dio.getD n 0) 0 2))).map (fun _ => (1, 15)) ++
    ((c.enabledSlots 4).drop 1).map (fun n => (2, n)) ++
    ((List.range 8).filter fun u =>
      let k := (masks.filter fun n => bit (c.slotArg n) u).length
      decide (2 ≤ k) || (decide (1 ≤ k) && decide (7 ≤ bits (c.ua.getD u (0, 0)).1 28 4))).map (fun u => (3, u)) ++
    (repeats [] ((c.enabledSlots 3).map c.slotArg)).map (fun p => (4, p)) ++
    c.badClosures.map (fun k => (4, k.1)) ++
    (if bits c.time.ppsIn 0 2 != 0 && bits c.time.ppsIn 2 2 == 1 && c.time.domain1 == 0xFF then [(11, 0)] else []) ++
    (if c.captures 15 && bits c.time.ppsIn 2 2 == 1 && c.time.domain1 == 0xFF then [(11, 15)] else [])
/-- Devices and multi-drop channels of a modem group (15 R344). -/
def Cfg.hartGroup (c : Cfg) (m : Nat) : Nat × Nat :=
  let ws := ((c.ua.drop (4 * m)).take 4).map fun u => u.1
  ((ws.map fun w => if bits w 14 2 = 0 then 0 else bits w 10 4).sum, (ws.filter fun w => bits w 14 2 == 2).length)
/-- The users of a CAN channel's buffers in the index of Table 10.5: receive 0–63, transmit 64–95. -/
def Cfg.canUsers (c : Cfg) (n : Nat) : List Nat :=
  let k := c.canCfg n
  (c.canPoints n true).map (fun p => p.2) ++ (if k.tmEnable then [0x40 + k.tmBuffer] else [])
def Cfg.canConflicts (c : Cfg) (n : Nat) : List (Nat × Nat) :=
  (repeats [] ((c.canPoints n false).map fun p => p.2) ++ repeats [] (c.canCfg n).named ++ repeats [] (c.canUsers n)).eraseDups.map fun b => (6, n * 256 + b)
/-- First item word, words and bit mask place of an output rule: a BIT takes one bit, the rest all of their words. -/
def Cfg.outPlace (c : Cfg) (p : PointRec) : Nat × Nat × Option Nat :=
  if ruleKind p.rule = 1 && ruleStation p.rule != 0 then (ruleOffset p.rule / 32, 1, some (ruleOffset p.rule % 32))
  else (ruleOffset p.rule, if ruleStation p.rule = 0 then 1 else c.itemWords p.handle p.rule, none)
/-- Two output rules meet on a station item or on a bit. -/
def Cfg.outsMeet (c : Cfg) (p q : PointRec) : Bool :=
  let (a, n, x) := c.outPlace p
  let (b, m, y) := c.outPlace q
  ruleStation p.rule == ruleStation q.rule && decide (a < b + m) && decide (b < a + n) && (x.isNone || y.isNone || x == y)
def Cfg.allOuts (c : Cfg) : List PointRec := c.points.filter fun p => ruleIsOut p.rule && ruleKind p.rule != 10
/-- Handles of output rules that meet an earlier one. -/
def Cfg.outConflicts (c : Cfg) : List (Nat × Nat) :=
  (c.allOuts.filter fun p => c.allOuts.any fun q => decide (q.handle < p.handle) && c.outsMeet p q).map fun p => (7, p.handle)
/-- Digital channels used by an input and an output point without readback. -/
def Cfg.inOutConflicts (c : Cfg) : List (Nat × Nat) :=
  ((List.range 16).filter fun n => (c.localPoint n true).isSome && (c.localPoint n false).isSome && bits (c.dio.getD n 0) 0 2 != 3).map fun n => (8, n)
/-- Stations that repeat an address or a MAC address. -/
def Cfg.stationConflicts (c : Cfg) : List (Nat × Nat) :=
  ((List.range c.map.stations.length).filterMap fun i =>
    (c.map.stations[i]?).bind fun r =>
      if (c.map.stations.take i).any fun q => q.addr == r.addr || q.mac == r.mac then some (9, r.addr) else none)
def Cfg.conflicts (c : Cfg) : List (Nat × Nat) :=
  c.timeConflicts ++ ((List.range 2).filter fun m => decide (16 < (c.hartGroup m).1) || decide (1 < (c.hartGroup m).2)).map (fun m => (5, m)) ++
    (List.range 2).flatMap c.canConflicts ++ c.outConflicts ++ c.inOutConflicts ++ c.stationConflicts

/-! ## Check 0x09: time (06 R128, R137–R140, Table 6.6) -/

/-- The fields of an enabled or targeted slot (06 Table 6.5). -/
def Cfg.slotOk (c : Cfg) (n : Nat) : Bool :=
  let w := c.slotWord n 0
  let target := bits w 24 8
  let period := c.slotWord n 1
  let width := c.slotWord n 3
  if target = 0 && !bit w 0 then true
  else
    (target == 0 || within 2 4 target) && (target != 3 || decide (c.slotArg n < 4)) && (target != 4 || c.slotArg n == 0) && decide (bits w 14 2 < 2) &&
      bits w 12 2 == 0 && !bit w 1 && decide (bits w 2 10 ≤ 999) && within 1 10000000 period && decide (c.slotWord n 2 < period) &&
      (if target = 4 then decide (1 ≤ width) && decide (width < period) else width == 0)
/-- A list's intervals sum to the period of each slot that names its port, each at least 100 ns. -/
def Cfg.listOk (c : Cfg) (p : Nat) : Bool :=
  let l := c.time.lists.getD p []
  l.isEmpty || (l.all (fun e => decide (100 ≤ e.interval)) &&
    ((c.enabledSlots 3).filter fun n => c.slotArg n == p).all fun n => (l.map fun e => e.interval).sum == 1000 * c.slotWord n 1)
def check09 (c : Cfg) : List CheckEntry :=
  (if within 1 500 c.time.slewPpm then [] else [refuse c 9 stRange 0]) ++
    ((List.range 4).filter fun p =>
      let r := c.time.ports.getD p (0, 0, 0, 0)
      decide (8388607 < r.1.natAbs) || decide (8388607 < r.2.1.natAbs)).map (refuse c 9 stRange) ++
    (slotNumbers.filter fun n => !c.slotOk n).map (refuse c 9 stRange) ++
    ((List.range 4).filter fun p => !c.listOk p).map (refuse c 9 stRange) ++
    c.timeConflicts.map (fun k => refuse c 9 stConflict (conflictSubject k)) ++
    c.badClosures.map fun k => { refuse c 9 stConflict (conflictSubject (4, k.1)) with value := k.2 }

/-! ## Checks 0x0A and 0x0B: timed actions and pair settings (05 R98, R101, R106; 07 R170, R175) -/

def Cfg.stationRec (c : Cfg) (a : Nat) : Option StationRec := c.map.stations.find? fun r => r.addr == a
def StationRec.timed (r : StationRec) : Bool := bit r.flags 0
/-- The timed-capable station of a rule with TIMED_CAP set. -/
def Cfg.timedStation (c : Cfg) (r : Word64) : Option StationRec := if ruleStation r = 0 then none else (c.stationRec (ruleStation r)).filter StationRec.timed
def Cfg.timedPoints (c : Cfg) : List PointRec := c.points.filter fun p => ruleTimed p.rule
def maxOf (xs : List Nat) : Nat := xs.foldl max 0
/-- The class record of a configuration. -/
def Cfg.cls (c : Cfg) (x : Nat) : ClassRec := c.classes.getD x (defaultClass 0 0)
/-- LEAD of a configuration in µs (log 7). -/
def Cfg.leadUs (c : Cfg) : Nat := 100 + Config.leadUs c.version % 99901
/-- 100 µs + max OW_s ≤ 2 × P_x − A_x over the timed-capable stations of the class. -/
def Cfg.reportsInTime (c : Cfg) (x : Nat) : Bool :=
  let ows := (c.timedPoints.filter fun p => ruleClass p.rule == x).filterMap fun p => (c.timedStation p.rule).map StationRec.owPs
  ows.isEmpty || decide (100000000 + maxOf ows + 1000000 * (c.cls x).applyUs ≤ 2000000 * (c.cls x).periodUs)
def check0A (c : Cfg) : List CheckEntry :=
  ((c.timedPoints.filter fun p => (c.timedStation p.rule).isNone).map fun p => refuse c 0x0A stRange p.handle) ++
    ((List.range 4).filter fun x => !c.reportsInTime x).map (refuse c 0x0A stRange) ++
    (if ((c.map.stations.filter StationRec.timed).all fun r => decide (r.rttPs + r.owPs + 1000 * r.leadNs ≤ 1000000 * c.leadUs)) then []
     else [refuse c 0x0A stRange 0])
def Cfg.pairOk (c : Cfg) : Bool :=
  let p := c.pair
  (p.homeSlot == 0 || p.homeSlot == 1 || p.homeSlot == 3) && (p.homeSettle == 0 || within 60 86400 p.homeSettle) && within 1 8760 p.provePeriodH &&
    within 60 86400 p.proveDwellS
def check0B (c : Cfg) : List CheckEntry := if c.pairOk then [] else [refuse c 0x0B stRange 0]
def check0C (c : Cfg) : List CheckEntry := c.conflicts.map fun k => refuse c 0x0C stConflict (conflictSubject k)

/-! ## Check 0x0D: capacities (02 R31, R36; 03 R53; 05 R106; 10 R222, R241; 14 R321; 16 R353) -/

/-- Handles that a change from one configuration to another removes or whose KIND or DIR it changes. -/
def lostHandles (old new : Cfg) : List PointRec :=
  old.points.filter fun p => !(ruleKind (new.rule p.handle) == ruleKind p.rule && ruleIsOut (new.rule p.handle) == ruleIsOut p.rule)
def Cfg.poolBytes (c : Cfg) : Nat :=
  (c.points.map fun p => match ruleKind p.rule with | 8 => 32 | 9 => 2 * (8 + c.capacity p.handle) | _ => 0).sum
def Cfg.stateful (c : Cfg) : Nat := (c.points.filter fun p => decide (2 ≤ (c.filter p.rule).type)).length
/-- Bytes of the runtime data partition left for data (log 43): less three table banks, force table, filter state, outcome ring. -/
def Cfg.dataRoom (c : Cfg) : Nat := 16777216 - 3 * 1572864 - 1048576 - 8 * c.stateful - 16 * 8192
def Cfg.budget (c : Cfg) (x : Nat) : Nat × Nat × Nat := c.pair.budgets.getD x (0, 0, 0)
def Cfg.queueNeed (c : Cfg) : Nat :=
  ((List.range 4).map fun x => (c.budget x).1 * ceilDiv ((c.budget x).2.2 + c.leadUs + 100) (max 1 (c.cls x).periodUs)).sum
def Cfg.loadMa (c : Cfg) : Nat := (c.dio.map fun w => if 2 ≤ bits w 0 2 then bits w 12 10 else 0).sum
def State.check0D (s : State) (c : Cfg) : List CheckEntry :=
  let sown := s.conf
  tooMany 0x0D 0 c.poolBytes 16777216 ++ tooMany 0x0D 0 c.stateful 1048576 ++
    (List.range 4).flatMap (fun x => tooMany 0x0D x ((c.cls x).reads + (c.cls x).writes) 65536) ++ tooMany 0x0D 0 c.queueNeed 65536 ++
    tooMany 0x0D 0 (c.data.length + c.zeroLen) c.dataRoom ++ tooMany 0x0D 0 c.loadMa 5000 ++
    (List.range 2).flatMap (fun n => tooMany 0x0D n (bits ((c.canCfg n).word 2) 23 9) 256) ++
    (if s.cfg.sown.present then tooMany 0x0D 0 (lostHandles sown c).length 524288 ++ tooMany 0x0D 0 (lostHandles c sown).length 524288 else [])

/-! ## Check 0x0E: loads (03 Table 3.5, R45, R66; 07 R157) -/

/-- Σ RTT_s over some transactions of a class, in ps. -/
def Cfg.rttSum (c : Cfg) (ts : List TransRec) : Nat := ((ts.filterMap fun t => c.stationRec t.station).map StationRec.rttPs).sum
/-- M_r,x as num / den in ps. -/
def Cfg.readMakespan (c : Cfg) (x : Nat) : Nat × Nat :=
  let ts := c.transOf x false
  let q := max 1 (c.cls x).quota
  (c.rttSum ts + q * maxOf ((ts.filterMap fun t => c.stationRec t.station).map StationRec.rttPs), q)
/-- M_w,x as num / den in ps. -/
def Cfg.writeMakespan (c : Cfg) (x : Nat) : Nat × Nat :=
  let ts := c.transOf x true
  let q := max 1 (c.cls x).quota
  (c.rttSum ts + q * maxOf ((ts.filterMap fun t => c.stationRec t.station).map fun r => r.owPs + 1000 * r.leadNs), q)
/-- WW_x in µs. -/
def ClassRec.ww (r : ClassRec) : Nat := r.applyUs - r.deadlineUs - r.windowUs
/-- W_x: the class weight per cycle. -/
def Cfg.classWeight (c : Cfg) (x : Nat) : Nat :=
  ((c.points.filter fun p => ruleKind p.rule != 0 && ruleClass p.rule == x).map fun p => c.weight p.handle p.rule).sum
/-- own + Σ over faster classes y of ⌈span / P_y⌉ × f y, with the span in µs. -/
def Cfg.withFaster (c : Cfg) (x span : Nat) (f : Nat → Nat) : Nat :=
  f x + ((List.range x).map fun y => ceilDiv span (max 1 (c.cls y).periodUs) * f y).sum
/-- Wire bytes of a transaction outbound and inbound (Table 3.6). -/
def wireBytes (t : TransRec) : Nat × Nat :=
  let n := 4 * t.count + 4 * ((t.ranges.take t.count).map fun r => r.2).sum
  if t.isWrite then (max 84 (78 + n), 102) else (102, max 84 (70 + n))
/-- B_x,p in one direction (05 R106 for the timed actions). -/
def Cfg.portBytes (c : Cfg) (inbound : Bool) (p x : Nat) : Nat :=
  let through (a : Nat) : Bool := match c.stationRec a with | some r => bit r.ports p | none => false
  (((c.trans.filter fun t => t.cls == x && through t.station).map fun t => if inbound then (wireBytes t).2 else (wireBytes t).1).sum) +
    (if c.map.stations.any fun r => r.timed && bit r.ports p then 260 * (c.budget x).1 else 0)
/-- 0.8 × line rate in bytes per second by PORT_PMD. -/
def Cfg.portLimit (c : Cfg) (p : Nat) : Nat := match c.map.pmd.getD p 0 with | 0 => 0 | 1 => 2500000000 | 2 => 2500000000 | _ => 1000000000
/-- K_x. -/
def Cfg.ckptBytes (c : Cfg) (x : Nat) : Nat :=
  256 + 4 * (c.transOf x false).length + 12 * (c.allOuts.filter fun p => ruleClass p.rule == x).length + 4112 * (c.budget x).2.1 + 32 * (c.budget x).1
/-- The port rows, for the ports through which stations are reached. -/
def Cfg.portRows (c : Cfg) (x : Nat) : List CheckEntry :=
  let v := min (c.cls x).deadlineUs (c.cls x).ww
  ((List.range 4).filter fun p => c.map.stations.any fun r => bit r.ports p).flatMap fun p =>
    [false, true].map fun d => judge 0x0E (b2n d * 2 ^ 16 + x * 256 + p) (c.withFaster x v (c.portBytes d p) * 1000000) (max 1 v) (c.portLimit p)
/-- The rows of one class. -/
def Cfg.loadRows (c : Cfg) (x : Nat) : List CheckEntry :=
  let r := c.cls x
  let span := r.periodUs - r.windowUs
  [judge 0x0E x (c.readMakespan x).1 (1000 * (c.readMakespan x).2) (1000 * r.deadlineUs),
   judge 0x0E x (c.writeMakespan x).1 (1000 * (c.writeMakespan x).2) (1000 * r.ww),
   judge 0x0E x (c.withFaster x r.deadlineUs c.classWeight) 1 (1200 * r.deadlineUs)] ++ c.portRows x ++
  [judge 0x0E x (c.withFaster x r.periodUs c.ckptBytes * 1000000) (max 1 r.periodUs) 4640000000,
   judge 0x0E x (c.withFaster x span c.ckptBytes * 100) 464 (1000 * span)]
/-- L_PE over all classes. -/
def Cfg.averageLoad (c : Cfg) : CheckEntry :=
  let ps := (List.range 4).map fun x => max 1 (c.cls x).periodUs
  let den := ps.foldl (· * ·) 1
  judge 0x0E 0 ((List.range 4).map fun x => c.classWeight x * 1000000 * (den / ps.getD x 1)).sum den 1200000000
def check0E (c : Cfg) : List CheckEntry := (List.range 4).flatMap c.loadRows ++ [c.averageLoad]

/-! ## Check 0x0F: placement (03 R65; 07 R165; 09 R210) -/

/-- The core pair of a task: placement 8 is the normal one. -/
def TaskRec.on (pl : Nat) (t : TaskRec) : Nat := if pl = 8 then t.pair else t.fallback.getD pl 0
def Cfg.pagesOf (c : Cfg) (t : TaskRec) : Nat := match c.pair.taskPages.find? fun p => p.1 == t.task with | some p => p.2 | none => 0
/-- Σ C of the class-x tasks on a pair in ns, with 2 µs × g added for the takeover condition. -/
def Cfg.pairTime (c : Cfg) (pl n : Nat) (takeover : Bool) (x : Nat) : Nat :=
  ((c.tasks.filter fun t => t.on pl == n && t.cls == x).map fun t => t.wcetNs + if takeover then 2000 * c.pagesOf t else 0).sum
/-- The left side of R65. -/
def Cfg.busy (c : Cfg) (pl n : Nat) (takeover : Bool) (x : Nat) : Nat := c.withFaster x (c.cls x).windowUs (c.pairTime pl n takeover)
def placeSubject (pl n x formula : Nat) : Nat := formula * 2 ^ 24 + pl * 2 ^ 16 + x * 2 ^ 8 + n
/-- R65 for one pair and class. -/
def Cfg.fitRow (c : Cfg) (pl n x : Nat) : CheckEntry := judge 0x0F (placeSubject pl n x 0) (c.busy pl n false x) 1 (1000 * (c.cls x).windowUs)
/-- R165 for one pair and class. -/
def Cfg.takeoverRow (c : Cfg) (pl n x : Nat) : CheckEntry :=
  let r := c.cls x
  let j := c.busy pl n true x
  let q := (c.writeMakespan x).2
  if 1000 ≤ r.periodUs then
    judge 0x0F (placeSubject pl n x 1) ((1000 * r.deadlineUs + 2 * j + 50000) * (1000 * q) + (c.writeMakespan x).1) (1000 * q) (1000 * r.applyUs)
  else judge 0x0F (placeSubject pl n x 1) (2 * j + 50000) 1 (1000 * r.periodUs)
/-- Every row of a placement. -/
def Cfg.placeRows (c : Cfg) (pl : Nat) : List CheckEntry :=
  ((List.range 8).filter (· != pl)).flatMap fun n => (List.range 4).flatMap fun x => [c.fitRow pl n x, c.takeoverRow pl n x]
def Cfg.fits (c : Cfg) (pl : Nat) : Bool := (c.placeRows pl).all fun e => e.status == stOk
/-- The mask of usable fallbacks. -/
def Cfg.usable (c : Cfg) : Nat := ((List.range 8).map fun n => if c.fits n then 2 ^ n else 0).sum
/-- The placement that the disabled pairs ask for. -/
def LockSt.wanted (l : LockSt) : Option Nat := match l.disabled with | [] => some 8 | [n] => some n | _ => none
def State.check0F (s : State) (c : Cfg) : List CheckEntry :=
  let run := s.lock.wanted
  (if run.isNone then [refuse c 0x0F stCapacity (s.lock.disabled.getD 1 0)] else []) ++
    ([8, 0, 1, 2, 3, 4, 5, 6, 7].flatMap fun pl => (c.placeRows pl).map fun e => if run = some pl then e else { e with status := stOk }) ++
    [{ id := 0x0F, status := stOk, subject := 0xFFFFFF, value := c.usable, limit := 0xFF }]
/-- The placement of a configuration fits the module's own enabled pairs (10 R242). -/
def State.placed (s : State) (c : Cfg) : Bool := match s.lock.wanted with | some pl => c.fits pl | none => false

/-! ## Checks 0x10 and 0x11: flip window and stations (10 R232, R236) -/

/-- The change set: handles whose rule or declared initial value differs. -/
def changeSet (old new : Cfg) : List Nat :=
  let same (a : PointRec) (c : Cfg) : Bool := c.points.any fun p => p.handle == a.handle && p.rule == a.rule && p.init == a.init
  ((old.points.filter fun p => !same p new).map fun p => p.handle) ++
    (new.points.filter fun p => !(old.points.any fun q => q.handle == p.handle)).map fun p => p.handle
/-- T_flip in ps. -/
def flipWindowPs (n : Nat) : Nat := 2000000 + 625 * n
def windowRows (c : Cfg) (dir n : Nat) : List CheckEntry :=
  (List.range 4).map fun x =>
    judge 0x10 (dir * 2 ^ 16 + x) ((c.readMakespan x).1 + flipWindowPs n * (c.readMakespan x).2) (1000 * (c.readMakespan x).2) (1000 * (c.cls x).deadlineUs)
def State.check10 (s : State) (c : Cfg) : List CheckEntry :=
  if s.cfg.sown.present then
    let n := (changeSet s.conf c).length
    windowRows c 0 n ++ windowRows s.conf 1 n
  else [{ id := 0x10, status := stOk, subject := 0, value := 0, limit := 0 }]
/-- Model ids that the stations answered against the map; one that did not answer is listed as absent. -/
def check11 (models : List (Nat × Nat)) (c : Cfg) : List CheckEntry :=
  c.map.stations.filterMap fun r =>
    match models.find? fun m => m.1 == r.addr with
    | none => some (refuse c 0x11 stOk r.addr)
    | some m => if m.2 = r.model then none else some (refuse c 0x11 stConflict (conflictSubject (10, r.addr)))

/-! ## The report (10 R233) -/

/-- Every check in the order of Table 10.4. -/
def State.allChecks (s : State) (img : List Byte) (models : List (Nat × Nat)) (c : Cfg) : List CheckEntry :=
  s.check01 img c ++ s.check02 img c ++ check03 img c ++ s.check04 c ++ check05 c ++ check06 c ++ check07 c ++ check08 c ++ check09 c ++
    check0A c ++ check0B c ++ check0C c ++ s.check0D c ++ check0E c ++ s.check0F c ++ s.check10 c ++ check11 models c
/-- The twin's part (10 R261). -/
def State.twinChecks (s : State) (c : Cfg) : List CheckEntry := s.check04 c ++ s.check0F c ++ s.check10 c
/-- An entry of 24 bytes with the slot of the module that made it. -/
def checkEntryBytes (slot : Nat) (e : CheckEntry) : List Byte :=
  leBytes 1 e.id ++ leBytes 1 slot ++ leBytes 2 e.status ++ leBytes 4 e.subject ++ leBytes 8 (min (2 ^ 64 - 1) e.value) ++
    leBytes 8 (min (2 ^ 64 - 1) e.limit)
/-- The first failing entry: its check and status. -/
def firstFailing (es : List (List Byte)) : Nat × Nat :=
  match es.find? fun b => field b 2 2 != stOk with | some b => (field b 0 1, field b 2 2) | none => (0, stOk)
/-- Own and twin's entries in the order of the checks. -/
def mergeEntries (own twin : List (List Byte)) : List (List Byte) :=
  (List.range 18).flatMap fun i => (own.filter fun b => field b 0 1 == i) ++ twin.filter fun b => field b 0 1 == i
def reportBytes (version : Nat) (es : List (List Byte)) : List Byte :=
  leBytes 4 version ++ leBytes 2 (min 4096 es.length) ++ leBytes 2 (min 0xFFFF (es.length - 4096)) ++ leBytes 2 (firstFailing es).1 ++
    leBytes 2 (firstFailing es).2 ++ zeroBytes 4 ++ (es.take 4096).flatten

end Sys2Proof.Machine
end

