-- ==== Sys2Proof/Machine/Configs.lean ====
section
/-! DEFINITION. Staging, checking, flipping, reverting and listing configurations; the MB14 exchange; the copy of SYNCING
(10 R229–R245; 11 R261; 07 R158). -/

namespace Sys2Proof.Machine

/-! ## Staging (10 R231) -/

/-- The row of Table 11.5 of `CFG_STAGE`, `CFG_CHECK`, `CFG_FLIP` and `CFG_REVERT`. -/
def cfgCmd (code : Nat) : Cmd := { plainCmd code 3 0 with modes := [2, 5, 6] }
def stageCmd : Cmd := { cfgCmd 0x400 with twin := true, twinModes := [3, 4], size := fun b => decide (9 ≤ b.length) }
/-- No stage or check job runs, and no flip or revert is armed. -/
def State.cfgIdle (s : State) : Bool := s.cfg.job.isNone && s.cfg.armed.isNone
/-- The image that the twin takes: the one of the stage job, or the own seed. -/
def State.forwarded (s : State) : List Byte :=
  match s.cfg.job with | some j => if j.isCheck then s.cfg.seed.image else s.cfg.receiving.getD [] | none => s.cfg.seed.image
/-- The next chunk to the twin, sized to its request buffer (11 R261). -/
def State.sendChunk (job : Nat) (s : State) : State :=
  let off := s.cfg.forward.getD 0
  s.askTwin 0x400 (leBytes 8 off ++ slice s.forwarded off (s.msg.mb14Size - 28)) job
/-- Forwarding begins: the size of the twin's request buffer first. -/
def State.startForward (job : Nat) (s : State) : State := (s.upCfg fun c => { c with forward := some 0 }).askTwin 0 [] job
/-- The stage job starts. On a PRIMARY an image that it would take itself goes to the STANDBY. -/
def State.startStage (mb14 : Bool) (img : List Byte) (id : Nat) (s : State) : State :=
  let twin := s.power.mode == 5 && !mb14 && s.imageOk img && (s.versionRefusal img).isNone
  let s := s.upCfg fun c =>
    { c with receiving := some img, job := some { id := id, isCheck := false, mb14 := mb14, needsTwin := twin, twin := none, twinReport := [],
                                                  models := [], toAsk := [] } }
  if twin then s.startForward id else s
/-- One chunk. -/
def stageChunk (r : Req) (s : State) : State × Option (Nat × List Byte) :=
  let off := field r.payload 0 8
  let got := if off = 0 then [] else s.cfg.receiving.getD []
  let all := got ++ r.payload.drop 8
  let len := field all 16 8
  if off != got.length || (off != 0 && s.cfg.receiving.isNone) then reply stRange [] s
  else if 1280 ≤ all.length && (len < 1280 || 1073741824 < len) then
    reply (if len < 1280 then stRange else stCapacity) [] (s.upCfg fun c => { c with receiving := none })
  else if 256 ≤ all.length && len < all.length then reply stRange [] (s.upCfg fun c => { c with receiving := some got })
  else if 1280 ≤ all.length && len = all.length then withJob 0x400 (State.startStage (r.mb == 14) all) s
  else reply stOk [] (s.upCfg fun c => { c with receiving := some all })
def stageBody (r : Req) : State → State × Option (Nat × List Byte) := guarded [need State.cfgIdle stBusy] (stageChunk r)
/-- The first refusal of a stage job, or OK. -/
def State.stageStatus (s : State) (j : CfgJob) : Nat :=
  let img := s.cfg.receiving.getD []
  if !s.imageOk img then stIntegrity
  else match s.versionRefusal img with | some st => st | none => j.twin.getD stOk
/-- An image takes the seed slot; one of the seed's own version repeats the stage, and nothing else changes (R229). -/
def State.seatSeed (img : List Byte) (s : State) : State :=
  if s.cfg.seed.present && s.cfg.seed.cfg.version == field img 8 4 then s
  else
    (s.upCfg fun c =>
      { c with seed := { Slot.empty with present := true, image := img, cfg := parseCfg img, stagedS := s.tb3s }, highWater := max c.highWater (field img 8 4) }).record
      0x1103 [(4, field img 8 4)]
/-- A stage or check job ends. -/
def State.endCfgJob (status : Nat) (result : List Byte) (s : State) : State :=
  match s.cfg.job with
  | none => s
  | some j =>
    (s.endJob j.id status result).upCfg fun c =>
      { c with job := none, receiving := if j.isCheck then c.receiving else none, forward := none }
def State.endStage (s : State) : State :=
  match s.cfg.job with
  | none => s
  | some j =>
    let st := s.stageStatus j
    (if st = stOk then s.seatSeed (s.cfg.receiving.getD []) else s).endCfgJob st []
def State.stageMayEnd (s : State) : Bool :=
  match s.cfg.job with | some j => !j.isCheck && (!j.needsTwin || j.twin.isSome) | none => false

/-! ## The check (10 R232, R233) -/

def checkCmd : Cmd := { cfgCmd 0x401 with twin := true, twinModes := [3, 4] }
/-- Stations of the seed's map are asked for DIAG page 0; one whose DIAG request is outstanding is asked when it ends. -/
def State.probeAll (s : State) : State :=
  let free (r : StationRec) : Bool := !s.diagBusy r.addr
  let rs := s.cfg.seed.cfg.map.stations
  let s' := (rs.filter free).foldl (fun s r => if s.diagBusy r.addr then s else s.probe r) s
  s'.upCfg fun c => { c with job := c.job.map fun j => { j with toAsk := (rs.filter fun r => !free r).map fun r => r.addr } }
/-- The check job starts. A STANDBY is asked which seed it holds, and then for its part. -/
def State.startCheck (mb14 : Bool) (id : Nat) (s : State) : State :=
  let twin := s.power.mode == 5 && !mb14
  let s := s.upCfg fun c =>
    { c with job := some { id := id, isCheck := true, mb14 := mb14, needsTwin := twin, twin := none, twinReport := [], models := [], toAsk := [] } }
  let s := if twin then s.askTwin 0x404 [] id else s
  if mb14 then s else s.probeAll
def checkBody (r : Req) : State → State × Option (Nat × List Byte) :=
  guarded [need State.cfgIdle stBusy, need (fun s => s.cfg.seed.present) stState] (withJob 0x401 (State.startCheck (r.mb == 14)))
/-- A probe of the check job is outstanding. -/
def State.probing (s : State) : Bool := s.fsp.diags.any fun d => d.page == 0 && d.forReq.isNone && d.forEntry.isNone
def State.checkMayEnd (s : State) : Bool :=
  match s.cfg.job with | some j => j.isCheck && (!j.needsTwin || j.twin.isSome) && j.toAsk.isEmpty && !(s.probing && !j.mb14) | none => false
/-- The twin's entries: after the job head and the report head. -/
def twinEntries (report : List Byte) : List (List Byte) := chunks 24 ((report.length - 32) / 24) (report.drop 32)
/-- Status and report of a check job. -/
def State.checkResult (s : State) (j : CfgJob) : Nat × List Byte :=
  let c := s.cfg.seed.cfg
  let bytes := List.map (checkEntryBytes (b2n s.slotB))
  if j.mb14 then
    let es := bytes (s.twinChecks c)
    ((firstFailing es).2, reportBytes c.version es)
  else
    let own := bytes (s.allChecks s.cfg.seed.image j.models c)
    let es := mergeEntries own (twinEntries j.twinReport)
    let noPart := j.needsTwin && (j.twinReport.isEmpty || field j.twinReport 16 4 != c.version)
    let st := if noPart then (if j.twin.getD stState = stOk then stState else j.twin.getD stState) else (firstFailing es).2
    (st, reportBytes c.version es)
/-- The job ends, and the last check decides whether the seed's check is valid (R234). -/
def State.endCheck (s : State) : State :=
  match s.cfg.job with
  | none => s
  | some j =>
    let (st, report) := s.checkResult j
    let s := if j.mb14 then s
      else s.upCfg fun c => { c with seed := { c.seed with valid := st == stOk, checkStatus := st }, checkedTwin := j.needsTwin }
    s.endCfgJob st report

/-! ## The listing (10 R245; 11 R261) -/

/-- A slot record of Table 10.9. -/
def slotRecord (n st : Nat) (x : Slot) : List Byte :=
  if !x.present then leBytes 1 n ++ zeroBytes 95
  else
    leBytes 1 n ++ leBytes 1 st ++ leBytes 2 x.checkStatus ++ leBytes 4 x.cfg.version ++ padTo 48 x.cfg.digest ++ leBytes 8 x.image.length ++
      leBytes 8 x.stagedS ++ leBytes 8 x.sownAt ++ leBytes 4 x.snapshot.length ++ zeroBytes 12
/-- The record of a seed that is being received. -/
def receivingRecord (b : List Byte) : List Byte :=
  let known := decide (256 ≤ b.length)
  leBytes 1 2 ++ leBytes 1 1 ++ leBytes 2 0xFFFF ++ (if known then slice b 8 4 ++ slice b 40 48 else zeroBytes 52) ++ leBytes 8 b.length ++ zeroBytes 32
def State.listing (s : State) : List Byte :=
  let (kind, defer, cycle) : Nat × Nat × Nat := match s.cfg.armed with
    | some f => (if f.isRevert then 2 else 1, f.deferrals, f.cycle % 2 ^ 32) | none => (0, 0, 0)
  leBytes 4 s.cfg.highWater ++ leBytes 1 kind ++ leBytes 1 defer ++ zeroBytes 2 ++ leBytes 4 cycle ++ zeroBytes 4 ++
    slotRecord 0 4 s.cfg.sown ++ slotRecord 1 2 s.cfg.fallow ++
    (match s.cfg.receiving with | some b => receivingRecord b | none => slotRecord 2 (if s.cfg.seed.valid then 3 else 2) s.cfg.seed)
/-- A snapshot record (R241). -/
def snapshotBytes (l : List (Nat × Word64)) : List Byte := l.flatMap fun e => leBytes 3 e.1 ++ leBytes 1 0 ++ leBytes 8 e.2.toNat ++ leBytes 4 0
def parseSnapshot (b : List Byte) : List (Nat × Word64) :=
  (chunks 16 (b.length / 16) b).map fun e => (field e 0 3, BitVec.ofNat 64 (field e 4 8))
/-- The bytes of a source of MB14's `CFG_LIST`. -/
def State.source (s : State) (n : Nat) : List Byte :=
  match n with | 0 => s.cfg.sown.image | 1 => s.cfg.fallow.image | 2 => s.cfg.seed.image | _ => snapshotBytes s.cfg.fallow.snapshot
def listCmd (r : Req) : Cmd :=
  { plainCmd 0x404 1 0 with twin := true, size := fun b => b.isEmpty || (r.mb == 14 && b.length == 16) }
def listBody (r : Req) : State → State × Option (Nat × List Byte) :=
  let b := r.payload
  let n := field b 4 4
  let off := field b 8 8
  guarded [need (fun _ => b.isEmpty || (decide (field b 0 1 ≤ 3) && zeros b 1 3 && decide (1 ≤ n) && decide (n ≤ 16777216))) stRange,
           need (fun s => b.isEmpty || decide (off + n ≤ (s.source (field b 0 1)).length)) stRange] fun s =>
    reply stOk (if b.isEmpty then s.listing else slice (s.source (field b 0 1)) off n) s

/-! ## What a flip does (10 R238, R241–R243; 05 R115; 06 R140; 15 R336; 16 R367) -/

/-- A handle is kept: a rule of the same KIND and DIR in both configurations. -/
def keptRule (ro rn : Word64) : Bool := ruleKind ro != 0 && ruleKind ro == ruleKind rn && ruleIsOut ro == ruleIsOut rn
def Cfg.keeps (old new : Cfg) (h : Nat) : Bool := keptRule (old.rule h) (new.rule h)
/-- R115: the handle's rule in the new configuration is timed-capable, with the same station and OFFSET. -/
def keepsEntry (old new : Cfg) (h : Nat) : Bool :=
  let rn := new.rule h
  (new.timedStation rn).isSome && ruleTimed rn && ruleStation rn == ruleStation (old.rule h) && ruleOffset rn == ruleOffset (old.rule h)
/-- Every other entry is cancelled, with outcome DISCARDED_CFG. -/
def State.discardEntries (old new : Cfg) (s : State) : State :=
  (s.sched.used.filter fun n => !keepsEntry old new (s.entry n).handle).foldl (fun s n =>
    if (s.entry n).state = 4 then s.upSched fun q => { q with causes := ((s.entry n).id, 7) :: q.causes.filter fun c => c.1 != (s.entry n).id }
    else (s.cancelEntry n 7).1) s
/-- A force or simulation ends at a flip (02 R43). -/
def State.endForce (h : Nat) (s : State) : State :=
  if (s.pts.force h).isNone then s else (s.upPts fun p => { p with forces := p.forces.filter fun f => f.handle != h }).record 0x0302 [(4, h)]
/-- Forget what belongs to a handle that is not kept. -/
def State.forget (h : Nat) (s : State) : State :=
  (s.endForce h).upPts fun p =>
    { p with sent := p.sent.filter fun e => e.1 != h, before := p.before.filter fun e => e.1 != h, filters := p.filters.filter fun f => f.handle != h,
             reseed := p.reseed.filter (· != h) }
/-- A removed handle reads as R19. -/
def State.undeclare (h : Nat) (s : State) : State :=
  (s.setRule h 0#64).upMem fun m => memWriteN m (imageAddr h) 8 0
/-- A zeroed record in the two slots of a newly declared STAMP or BLOCK point. -/
def State.zeroSlots (new : Cfg) (p : PointRec) (s : State) : State :=
  if ruleKind p.rule = 8 || ruleKind p.rule = 9 then
    s.upMem fun m => memStore (zeroBytes (2 * new.slotSize p.handle p.rule)) (poolBase + p.init.toNat) m
  else s
/-- The entry that a revert restores: VALUE and AGE of the snapshot, UNCERTAIN_STALE and HELD (R242). -/
def restoredImg (p : PointRec) (e : Word64) : Img :=
  { newImg p.init with value := if ruleKind p.rule = 8 || ruleKind p.rule = 9 then p.init else (imgOf e).value, quality := 0x40, age := (imgOf e).age }
/-- One handle of a point of the new configuration (Table 10.7). -/
def State.carryPoint (old new : Cfg) (restored : List (Nat × Word64)) (p : PointRec) (s : State) : State :=
  let ro := old.rule p.handle
  if keptRule ro p.rule then
    let same := ruleTransform ro == ruleTransform p.rule && ruleFilter ro == ruleFilter p.rule && ruleClass ro == ruleClass p.rule
    let s := s.setRule p.handle p.rule
    if same then s
    else s.upPts fun q =>
      { q with filters := q.filters.filter fun f => f.handle != p.handle, reseed := p.handle :: q.reseed.filter (· != p.handle) }
  else
    let s := ((s.forget p.handle).declare p).zeroSlots new p
    match restored.find? fun e => e.1 == p.handle with
    | some e => s.setImage p.handle (imgWord (restoredImg p e.2))
    | none => s
/-- Every handle of both configurations. -/
def State.carryAll (old new : Cfg) (restored : List (Nat × Word64)) (s : State) : State :=
  let gone := old.points.filter fun p => ruleKind (new.rule p.handle) == 0
  new.points.foldl (fun s p => s.carryPoint old new restored p) (gone.foldl (fun s p => (s.forget p.handle).undeclare p.handle) s)
/-- The snapshot of a flip: the handles that it removes or whose KIND or DIR it changes, with their entries at tb. -/
def State.snapshotOf (s : State) (old new : Cfg) : List (Nat × Word64) := (lostHandles old new).map fun p => (p.handle, s.image p.handle)
/-- A write of the last cycle under the old version: it matches completions and is issued no more. -/
def oldFlight (old new : Cfg) (waiting : Bool) (f : Flight) : Flight :=
  { f with tag := if waiting then 1024 else f.tag, carried := f.carried.filter fun c => old.keeps new c.1 }
/-- A class goes over to the new grid at tb: its tasks stop, and its first cycle is the one that begins there. -/
def ClassSt.flip (old new : Cfg) (periodNs tb : Nat) (c : ClassSt) : ClassSt :=
  { (ClassSt.stop c) with
    notBefore := tb, cycle := tb / periodNs - 1, rerunTo := none, unsent := c.unsent.filter (old.keeps new), written := true }
/-- The transaction engine at tb (R243), under the new configuration. -/
def State.flipClasses (old new : Cfg) (tb : Nat) (s : State) : State :=
  let olds := s.cyc.cls.flatMap fun c =>
    ((c.held.filter fun f => f.isWrite).map (oldFlight old new false)) ++ c.toWrite.map (oldFlight old new true)
  let s := s.upCyc fun q =>
    { q with cls := mapFrom (fun x c => c.flip old new (1000 * (new.cls x).periodUs) tb) 0 q.cls, oldTags := olds, oldAcks := [true, true, true, true],
             waiting := [], heardAcks := [], shadow := [], journal := [], newShots := [] }
  if s.pair.owner then s
  else s.upCnt fun k => { k with applied := (List.range 4).map fun x => some ((tb / (1000 * (new.cls x).periodUs) + 2 ^ 32 - 1) % 2 ^ 32) }
/-- The settings of a changed analogue channel: OFF for 10 ms (15 R336). -/
def State.flipUa (old : Cfg) (s : State) : State :=
  s.upUa fun u => { u with ch := mapFrom (fun n c =>
    if old.ua.getD n (0, 0) == s.conf.ua.getD n (0, 0) then c
    else { c with quietUntil := s.time.now + 2500000, commanded := uaRaw (s.uaWord n) 0, next := none, loaded := none }) 0 u.ch }
/-- A digital channel whose settings change holds no command of the old ones; one that is no output any more goes low. -/
def State.flipDio (old : Cfg) (s : State) : State :=
  s.upDio fun d => { d with ch := mapFrom (fun n c =>
    if old.dio.getD n 0 == s.conf.dio.getD n 0 then c
    else { c with next := none, loaded := none, commanded := c.commanded && (s.dioMode n == 2 || s.dioMode n == 3) }) 0 d.ch }
/-- A CAN channel at tb (16 R367): a change of bit timing, FD, BRS or TDC stops and restarts it; else the rest changes at the first
bus idle. -/
def CanCh.flip (old new : CanCfg) (h : CanCh) : CanCh :=
  if old.word 0 == new.word 0 && old.word 1 == new.word 1 then { h with newFilters := true }
  else
    { h with integrating := true, fifo0 := [], fifo1 := [], lost0 := false, lost1 := false, rxBufs := [], newFilters := false,
             tx := h.tx.map fun b => if b.status = 1 || b.status = 2 then { b with status := 7, after := none } else b }
def State.flipCan (old : Cfg) (s : State) : State := s.upCan (mapFrom (fun n h => h.flip (old.canCfg n) (s.conf.canCfg n)) 0)
/-- The gate control lists stop, with every gate open (06 R140). -/
def State.stopLists (s : State) : State :=
  s.upTime fun c => { c with ports := c.ports.map fun p => { p with gclRunning := false, gclIndex := 0, gates := 0xFF } }
/-- The slots after a flip or revert. -/
def CfgSt.switch (isRevert : Bool) (tb : Nat) (snap : List (Nat × Word64)) (c : CfgSt) : CfgSt :=
  let kept : Slot := if c.sown.present then { c.sown with snapshot := snap, valid := false } else Slot.empty
  if isRevert then { c with sown := { c.fallow with sownAt := tb, snapshot := [] }, fallow := kept, seed := { c.seed with valid := false } }
  else { c with sown := { c.seed with sownAt := tb, snapshot := [], valid := false }, fallow := kept, seed := Slot.empty }
/-- Roles, values, rules and settings switch at tb. -/
def State.switchTo (isRevert : Bool) (tb : Nat) (s : State) : State :=
  let old := s.conf
  let new := if isRevert then s.cfg.fallow.cfg else s.cfg.seed.cfg
  let restored := if isRevert then s.cfg.fallow.snapshot else []
  let snap := s.snapshotOf old new
  let s := s.upCfg fun c =>
    { (c.switch isRevert tb snap) with
      changed := changeSet old new, flipTb := tb, fallbackOk := new.usable, armed := none, checkedTwin := false }
  ((((((s.carryAll old new restored).flipUa old).flipDio old).flipCan old).stopLists)).installRules
/-- A flip or revert that runs to the store at once: MAINTENANCE (R237). -/
def State.flipNow (isRevert : Bool) (s : State) : State :=
  let old := s.conf.version
  let s := s.switchTo isRevert s.tb0
  s.record (if isRevert then 0x1102 else 0x1101) [(4, old), (4, s.conf.version)]
/-- FLIP_BOUNDARY at tb. -/
def State.flipAt (f : ArmedFlip) (s : State) : State :=
  let old := s.conf
  let new := if f.isRevert then s.cfg.fallow.cfg else s.cfg.seed.cfg
  let done : FlipDone := { sown := s.cfg.sown, fallow := s.cfg.fallow, seed := s.cfg.seed, tb := f.tb, isRevert := f.isRevert, job := f.job }
  let s := if s.pair.owner then s.discardEntries old new else s
  let s := (s.switchTo f.isRevert f.tb).flipClasses old new f.tb
  s.upCfg fun c => { c with commits := c.commits ++ [done], windowOpen := true, heldFrames := [] }

/-! ## Arming (10 R237, R238, R244) -/

/-- The Sheaf state of a twin refuses a flip: a verify or activation job, or a trial. -/
def sheafBusy (st : Nat) : Bool := st == 3 || st == 5 || st == 6
def State.flipFree (s : State) : Bool := s.cfgIdle && !sheafBusy s.sheaf.st && !sheafBusy s.sheaf.twinState
/-- A handover armed for the boundary of a flip moves to the next class-D t0 (07 R166). -/
def State.moveHandover (tb : Nat) (s : State) : State :=
  match s.pair.armed with
  | some h =>
    if h.th = tb && h.kind != 4 then
      (s.upPair fun p => { p with armed := some { h with th := s.nextT0 3 (tb + 1) } }).emit (.swath (.armHandover (s.nextT0 3 (tb + 1))))
    else s
  | none => s
/-- Arm for the first class-D t0 at least 200 ms from now: Swath, BIND with PENDING (Table 10.6). -/
def State.armFlip (isRevert solo : Bool) (deferrals job : Nat) (s : State) : State :=
  let tb := s.nextT0 3 (s.tb0 + 200000000)
  let cycle := tb / s.periodNs 3
  let new := if isRevert then s.cfg.fallow.cfg else s.cfg.seed.cfg
  let s := (s.upCfg fun c =>
    { c with armed := some { isRevert := isRevert, solo := solo, tb := tb, cycle := cycle, deferrals := deferrals, job := job, twinArmed := false,
                             goHeld := false } }).moveHandover tb
  (s.emit (.swath (.flipArming new.version (cycle % 2 ^ 32)))).bindAll true (cycle % 2 ^ 32) new
def acceptFlip (isRevert : Bool) (s : State) : State × Option (Nat × List Byte) :=
  if s.power.mode = 2 then reply stOk [] (s.flipNow isRevert)
  else withJob (if isRevert then 0x403 else 0x402) (fun id s => s.armFlip isRevert (s.power.mode == 6) 0 id) s
def flipBody : State → State × Option (Nat × List Byte) :=
  guarded [need (fun s => s.cfg.seed.present && s.cfg.seed.valid && s.pair.twinMode != 3) stState, need State.flipFree stBusy] (acceptFlip false)
def revertBody : State → State × Option (Nat × List Byte) :=
  guarded [need (fun s => s.cfg.fallow.present && s.pair.twinMode != 3) stState, need State.flipFree stBusy,
           need (fun s => s.placed s.cfg.fallow.cfg) stCapacity] (acceptFlip true)
/-- The flip moves; after the third deferral its job ends with STATE and it is disarmed. -/
def State.deferFlip (f : ArmedFlip) (s : State) : State :=
  if 3 ≤ f.deferrals + 1 then (s.endJob f.job stState []).upCfg fun c => { c with armed := none }
  else s.armFlip f.isRevert f.solo (f.deferrals + 1) f.job
/-- The rows about the STANDBY apply. -/
def State.needsStandby (s : State) (f : ArmedFlip) : Bool := s.power.mode == 5 && !f.solo
/-- The check at tb − 100 ms and at tb − 20 µs, after which FLIP_GO goes out. -/
def State.checkFlip (f : ArmedFlip) (s : State) : State :=
  if !s.needsStandby f then s
  else if !f.twinArmed || !s.twinSynced then s.deferFlip f
  else if s.tb0 + 20000 < f.tb then s
  else if !s.allAcked then s.deferFlip f
  else (s.upCfg fun c => { c with armed := some { f with goHeld := true } }).emit (.swath .flipGo)
/-- The owner, and a STANDBY that holds FLIP_GO, flip at tb. -/
def State.mayFlip (s : State) (f : ArmedFlip) : Bool :=
  decide (f.tb ≤ s.tb0) && ((s.pair.owner && (!s.needsStandby f || f.goHeld)) || (s.power.mode == 4 && f.goHeld))
/-- The completions held since tb are processed in order of arrival (R236). -/
def State.writeChangeSet (s : State) : State :=
  let held := s.cfg.heldFrames
  let s := s.upCfg fun c => { c with windowOpen := false, heldFrames := [] }
  held.foldl (fun s d => match d with
    | .frame f => if (parseFsp f).kind = 4 then s.receive 4 State.writeAck f else s.receive 2 State.readRsp f
    | .channel o st item => s.localCompletion o st item) s
/-- Snapshot and role record stand in the store: the record, and the job ends (Table 10.6). -/
def State.commitFlip (d : FlipDone) (s : State) : State :=
  let new := if d.isRevert then d.fallow.cfg.version else d.seed.cfg.version
  ((s.upCfg fun c => { c with commits := c.commits.drop 1 }).record (if d.isRevert then 0x1102 else 0x1101)
    [(4, if d.sown.present then d.sown.cfg.version else 0), (4, new)]).endJob d.job stOk []

/-! ## MB14 (10 R231, R232; 11 R261) -/

def State.setCfgJob (f : CfgJob → CfgJob) (s : State) : State := s.upCfg fun c => { c with job := c.job.map f }
/-- The job of an MB14 request, where it still runs. -/
def State.cfgJobOf (s : State) (q : Mb14Out) : Option CfgJob := s.cfg.job.filter fun j => j.id == q.job && q.job != 0
def State.stopForward (s : State) : State := s.upCfg fun c => { c with forward := none }
/-- The twin's `IDENTIFY`: the size of its request buffer, then the first chunk. -/
def State.heardIdentify (q : Mb14Out) (m : Mb14Resp) (s : State) : State :=
  if m.status != stOk || s.cfg.forward.isNone then s.stopForward.setCfgJob fun j => if j.id == q.job then { j with twin := some m.status } else j
  else (s.upMsg fun x => { x with mb14Size := field m.payload 28 4 }).sendChunk q.job
/-- The twin's answer to a chunk: the next one, its job, or its refusal. -/
def State.heardStage (q : Mb14Out) (m : Mb14Resp) (s : State) : State :=
  if m.status = stOk then
    (s.upCfg fun c => { c with forward := c.forward.map (· + (s.msg.mb14Size - 28)) }).sendChunk q.job
  else if m.status = stAccepted then (if q.job = 0 then s.stopForward else s.stopForward.askTwin 3 (slice m.payload 0 2 ++ zeroBytes 2) q.job)
  else s.stopForward.setCfgJob fun j => if j.id == q.job then { j with twin := some m.status } else j
/-- The twin's answer to `CFG_CHECK`. -/
def State.heardCheck (q : Mb14Out) (m : Mb14Resp) (s : State) : State :=
  if m.status = stAccepted then s.askTwinFrom q.at_ 3 (slice m.payload 0 2 ++ zeroBytes 2) q.job
  else s.setCfgJob fun j => if j.id == q.job then { j with twin := some m.status } else j
/-- The twin's answer to `JOB_STATUS`, in segments where it is long; a job that still runs is asked again. -/
def State.heardJob (q : Mb14Out) (m : Mb14Resp) (s : State) : State :=
  match s.cfgJobOf q with
  | none => s
  | some j =>
    if m.status = stPartial then
      (s.setCfgJob fun j => { j with twinReport := j.twinReport ++ m.payload.drop 8 }).askTwinFrom q.at_ 3 (m.payload.take 8) q.job
    else
      let all := j.twinReport ++ m.payload
      if m.status != stOk then s.setCfgJob fun j => { j with twin := some m.status, twinReport := [] }
      else if field all 4 1 != 2 then
        (s.setCfgJob fun j => { j with twinReport := [] }).askTwinFrom (if j.isCheck then q.at_ else s.time.now) 3 (slice all 0 2 ++ zeroBytes 2) q.job
      else s.setCfgJob fun j => { j with twin := some (field all 8 2), twinReport := if j.isCheck then all else [] }

/-- Slot n of a listing: STATE, VERSION, DIGEST, LENGTH, SOWN_AT, SNAPSHOT. -/
def listedSlot (b : List Byte) (n : Nat) : Nat × Nat × List Byte × Nat × Nat × Nat :=
  let x := slice b (16 + 96 * n) 96
  (field x 1 1, field x 4 4, slice x 8 48, field x 56 8, field x 72 8, field x 80 4)
/-- A slot holds the listed image. -/
def Slot.isListed (x : Slot) (l : Nat × Nat × List Byte × Nat × Nat × Nat) : Bool := x.present && x.cfg.version == l.2.1 && x.cfg.digest == l.2.2.1
/-- The twin's seed, as a check job hears it: its own part follows only on the seed's VERSION and DIGEST (R232). -/
def State.heardSeed (q : Mb14Out) (b : List Byte) (s : State) : State :=
  let l := listedSlot b 2
  if 2 ≤ l.1 && s.cfg.seed.isListed l then s.askTwinFrom q.at_ 0x401 [] q.job else s.setCfgJob fun j => { j with twin := some stState }
/-- A request for the next block of the first part to fetch, at most 16 MiB. -/
def State.fetchNext (s : State) : State :=
  match s.cfg.fetch with
  | [] => s
  | (src, len, _) :: _ =>
    if src = 9 then s.askTwin 0x404 [] 0
    else
      let off := s.cfg.fetched.length
      s.askTwin 0x404 (leBytes 1 src ++ zeroBytes 3 ++ leBytes 4 (min 16777216 (len - off)) ++ leBytes 8 off) 0
/-- What a listing of the twin's slots asks for (R158, R240): images that differ, and the fallow snapshot. -/
def State.toFetch (s : State) (b : List Byte) : List (Nat × Nat × Nat) :=
  let (l0, l1, l2) := (listedSlot b 0, listedSlot b 1, listedSlot b 2)
  let part (n : Nat) (own : Slot) (l : Nat × Nat × List Byte × Nat × Nat × Nat) (may : Bool) : List (Nat × Nat × Nat) :=
    if may && !own.isListed l then [(n, l.2.2.2.1, l.2.2.2.2.1)] else []
  let fallow := part 1 s.cfg.fallow l1 (l1.1 != 0)
  part 0 s.cfg.sown l0 (l0.1 != 0) ++ fallow ++
    (if l1.1 != 0 && l1.2.2.2.2.2 != 0 && (!fallow.isEmpty || s.cfg.fallow.snapshot.length != l1.2.2.2.2.2) then [(3, 16 * l1.2.2.2.2.2, 0)] else []) ++
    part 2 s.cfg.seed l2 (decide (2 ≤ l2.1))
/-- Slots that the twin holds empty are emptied; a fallow without snapshot records loses its own. -/
def CfgSt.emptied (b : List Byte) (c : CfgSt) : CfgSt :=
  { c with
    sown := if (listedSlot b 0).1 = 0 then Slot.empty else c.sown,
    fallow := if (listedSlot b 1).1 = 0 then Slot.empty else if (listedSlot b 1).2.2.2.2.2 = 0 then { c.fallow with snapshot := [] } else c.fallow,
    seed := if (listedSlot b 2).1 = 0 then Slot.empty else c.seed }
def State.takeListing (b : List Byte) (s : State) : State :=
  let s := s.upCfg (CfgSt.emptied b)
  (s.upCfg fun c => { c with fetch := s.toFetch b, fetched := [] }).fetchNext
/-- A slot that holds a fetched image. -/
def fetchedSlot (img : List Byte) (stagedS sownAt : Nat) : Slot :=
  { Slot.empty with present := true, image := img, cfg := parseCfg img, stagedS := stagedS, sownAt := sownAt }
/-- A part is complete: an image that verifies takes its slot, and the high-water version follows (R229). -/
def State.takePart (src sownAt : Nat) (b : List Byte) (s : State) : State :=
  let seen (c : CfgSt) : CfgSt := { c with highWater := max c.highWater (field b 8 4) }
  if src = 3 then s.upCfg fun c => { c with fallow := { c.fallow with snapshot := parseSnapshot b } }
  else if !s.imageOk b then s
  else if src = 0 then
    let s := s.upCfg fun c => seen { c with sown := fetchedSlot b s.tb3s sownAt }
    (s.upCfg fun c => { c with fallbackOk := s.conf.usable }).freshPoints.installRules
  else if src = 1 then s.upCfg fun c => seen { c with fallow := fetchedSlot b s.tb3s sownAt }
  else s.upCfg fun c => seen { c with seed := fetchedSlot b s.tb3s 0 }
/-- Bytes of the part being fetched. -/
def State.heardPart (m : Mb14Resp) (s : State) : State :=
  match s.cfg.fetch with
  | [] => s
  | (src, len, sownAt) :: rest =>
    if m.status = stPartial then
      (s.upCfg fun c => { c with fetched := c.fetched ++ m.payload.drop 8 }).askTwin 0x404 (m.payload.take 8) 0
    else if m.status != stOk then (s.upCfg fun c => { c with fetch := [(9, 304, 0)], fetched := [] }).fetchNext
    else
      let all := s.cfg.fetched ++ m.payload
      if src = 9 then s.takeListing all
      else if all.length < len then (s.upCfg fun c => { c with fetched := all }).fetchNext
      else ((s.takePart src sownAt all).upCfg fun c => { c with fetch := rest, fetched := [] }).fetchNext
/-- The owner's twin has reached STANDBY: the seed goes to it where it does not hold it (R231). -/
def State.heardStandbySlots (b : List Byte) (s : State) : State :=
  if s.cfg.seed.present && s.cfg.job.isNone && !s.cfg.seed.isListed (listedSlot b 2) then s.startForward 0 else s
def State.heardList (q : Mb14Out) (m : Mb14Resp) (s : State) : State :=
  if q.job != 0 then
    (match s.cfgJobOf q with
     | none => s
     | some _ => if m.status = stOk then s.heardSeed q m.payload else s.setCfgJob fun j => { j with twin := some m.status })
  else if s.power.mode = 3 then s.heardPart m
  else if s.pair.owner && m.status = stOk then s.heardStandbySlots m.payload else s
/-- A response of the twin's steward feeds the job or poll that asked. -/
def State.heardMb14 (m : Mb14Resp) (s : State) : State :=
  match s.msg.mb14.find? fun q => q.id == m.id with
  | none => s
  | some q =>
    let s := s.upMsg fun x => { x with mb14 := x.mb14.filter fun r => r.id != m.id }
    match q.cmd with
    | 0x0000 => s.heardIdentify q m
    | 0x0400 => s.heardStage q m
    | 0x0401 => s.heardCheck q m
    | 0x0003 => s.heardJob q m
    | 0x0404 => s.heardList q m
    | 0x0504 =>
      if m.status = stOk then
        let new := field m.payload 3 1
        (if new = 6 && s.sheaf.twinState != 6 then s.invalidate else s).upSheaf fun h => { h with twinState := new }
      else s
    | _ => s
/-- The limit of an MB14 request in seconds: 120 for a check job (R232), else 10. -/
def State.mb14Limit (s : State) (q : Mb14Out) : Nat := match s.cfgJobOf q with | some j => if j.isCheck then 120 else 10 | none => 10
def State.mb14Expired (s : State) (id : Nat) : Bool :=
  match s.msg.mb14.find? fun q => q.id == id with | some q => decide (q.at_ + secTicks (s.mb14Limit q) ≤ s.time.now) | none => false
/-- No response in time: the job that asked ends with TIMEOUT; a fetch or a forward without a job stops. -/
def State.mb14TimeOut (id : Nat) (s : State) : State :=
  match s.msg.mb14.find? fun q => q.id == id with
  | none => s
  | some q =>
    let s := s.upMsg fun x => { x with mb14 := x.mb14.filter fun r => r.id != id }
    match s.cfgJobOf q with
    | some j =>
      let s := if j.isCheck then s.upCfg fun c => { c with seed := { c.seed with valid := false, checkStatus := stTimeout } } else s
      s.endCfgJob stTimeout []
    | none => if q.cmd = 0x504 then s else s.upCfg fun c => { c with fetch := [], fetched := [], forward := none }

/-! ## The twin's mode, and the copy (08 R179; 10 R231, R234; 07 R158) -/

/-- A twin that reaches STANDBY: one that no check has seen invalidates it, and the owner asks whether it holds the seed. -/
def State.twinReports (m : Nat) (s : State) : State :=
  let new := m == 4 && s.pair.twinMode != 4
  let s := s.hearMode m
  if !new then s
  else
    let s := if s.cfg.checkedTwin then s else s.invalidate
    if s.pair.owner && s.cfg.seed.present && s.cfg.job.isNone then s.askTwin 0x404 [] 0 else s
/-- A part of the copy. The twin's version and digest open it: the listing shows which images differ. -/
def State.copyBlock (b : CopyBlock) (s : State) : State :=
  match b with
  | .memory addr bytes => s.copyMemory addr bytes
  | .tables x => s.takeTables (fun _ => true) x
  | .timeState st0 st1 _ _ => s.upTime fun c => { c with primary := (st0, st1) }
  | .twinConfig _ _ => (s.upCfg fun c => { c with fetch := [(9, 304, 0)], fetched := [] }).fetchNext
  | .done => s.copyOver

/-! ## The meanings -/

def execCfgStage (t : Nat) (r : Req) (s : State) : Host.Outcome State Fault Refusal :=
  happens t s State.awake (State.run stageCmd r (stageBody r))
def execCfgStageJobEnd (t : Nat) (s : State) : Host.Outcome State Fault Refusal := happens t s State.stageMayEnd State.endStage
def execCfgCheck (t : Nat) (r : Req) (s : State) : Host.Outcome State Fault Refusal :=
  happens t s State.awake (State.run checkCmd r (checkBody r))
def execCfgCheckJobEnd (t : Nat) (s : State) : Host.Outcome State Fault Refusal := happens t s State.checkMayEnd State.endCheck
/-- CFG_FLIP (10 R237). -/
def execCfgFlip (t : Nat) (r : Req) (s : State) : Host.Outcome State Fault Refusal :=
  happens t s State.awake (State.run (cfgCmd 0x402) r flipBody)
/-- CFG_REVERT (10 R242). -/
def execCfgRevert (t : Nat) (r : Req) (s : State) : Host.Outcome State Fault Refusal :=
  happens t s State.awake (State.run (cfgCmd 0x403) r revertBody)
def execCfgList (t : Nat) (r : Req) (s : State) : Host.Outcome State Fault Refusal :=
  happens t s State.awake (State.run (listCmd r) r (listBody r))
/-- FLIP_ARM_CHECK (10 R238): from tb − 100 ms on, on the owner, while FLIP_GO has not gone out. -/
def execFlipArmCheck (t : Nat) (s : State) : Host.Outcome State Fault Refusal :=
  happens t s (fun s => s.pair.owner) fun s =>
    match s.cfg.armed with
    | some f => if f.tb ≤ s.tb0 + 100000000 && !f.goHeld then s.checkFlip f else s
    | none => s
/-- FLIP_GO (10 R238). -/
def execFlipGo (t : Nat) (s : State) : Host.Outcome State Fault Refusal :=
  happens t s (fun s => s.power.mode == 4 && s.pair.synced) fun s =>
    s.upCfg fun c => { c with armed := c.armed.map fun f => { f with goHeld := true } }
/-- FLIP_BOUNDARY (10 R238). -/
def execFlipBoundary (t : Nat) (s : State) : Host.Outcome State Fault Refusal :=
  happens t s State.awake fun s =>
    match s.cfg.armed with
    | some f => if s.mayFlip f then s.flipAt f else s
    | none => s
/-- CHANGE_SET_WRITTEN (10 R236). -/
def execChangeSetWritten (t : Nat) (s : State) : Host.Outcome State Fault Refusal :=
  happens t s (fun s => s.cfg.windowOpen && decide (s.cfg.flipTb + psNs (flipWindowPs s.cfg.changed.length) ≤ s.tb0)) State.writeChangeSet
/-- SNAPSHOT_COMMIT (10 R238). -/
def execSnapshotCommit (t : Nat) (s : State) : Host.Outcome State Fault Refusal :=
  happens t s State.awake fun s =>
    match s.cfg.commits with
    | d :: _ => if d.tb + 1000000000 ≤ s.tb0 then s.commitFlip d else s
    | [] => s
/-- FLIP_ARMING (10 R238). -/
def execFlipArming (t version cycle : Nat) (s : State) : Host.Outcome State Fault Refusal :=
  happens t s (fun s => s.power.mode == 4 && s.pair.synced) fun s =>
    let s := s.followFlip version cycle
    if s.cfg.armed.isSome then s.emit (.swath .flipArmed) else s
/-- FLIP_ARMED (10 R238). -/
def execFlipArmed (t : Nat) (s : State) : Host.Outcome State Fault Refusal :=
  happens t s (fun s => s.pair.owner) fun s => s.upCfg fun c => { c with armed := c.armed.map fun f => { f with twinArmed := true } }
def execMb14Response (t : Nat) (m : Mb14Resp) (s : State) : Host.Outcome State Fault Refusal := happens t s State.awake (State.heardMb14 m)
def execMb14Timeout (t id : Nat) (s : State) : Host.Outcome State Fault Refusal := happens t s (fun s => s.awake && s.mb14Expired id) (State.mb14TimeOut id)
def execSyncingCopyBlock (t : Nat) (b : CopyBlock) (s : State) : Host.Outcome State Fault Refusal :=
  happens t s (fun s => s.power.mode == 3) (State.copyBlock b)
def execTwinModeReport (t m : Nat) (s : State) : Host.Outcome State Fault Refusal := happens t s State.awake (State.twinReports m)

end Sys2Proof.Machine
end

