-- ==== Sys2Proof/Machine/Boot.lean ====
section
/-! DEFINITION. The Sheaf commit record, BOOT and the start decision (08 R182–R186; 13 R300, R305, R308, R310). -/

namespace Sys2Proof.Machine

/-! ## The commit record (13 R300) -/

/-- One complete write of the commit record; the next return from SLEEP is then no wake (08 R186). -/
def State.writeCommit (f : SheafSt → SheafSt) (s : State) : State :=
  (s.upSheaf fun h => { f h with seq := h.seq + 1 }).upBoot fun b => { b with recordSinceVerify := true }
/-- The record of a fallback (13 R308): the previous set, and nothing bootable in the other slots. -/
def SheafSt.fallBack (result : Nat) (h : SheafSt) : SheafSt :=
  { h with recTrial := false, active := h.previous, slots := 511 - h.slots % 512, previous := 0, result := result, st := 0,
           fallbacks := inc32 h.fallbacks, versions := h.prevVersions, prevVersions := List.replicate 9 0, proto := h.prevProto,
           min := h.prevMin, prevProto := 0, prevMin := 0, tokenHeld := false, healthPassed := false }
def State.fallback (result : Nat) (s : State) : State :=
  let s := s.writeCommit (SheafSt.fallBack result)
  s.record 0x0A03 [(4, s.sheaf.active), (1, result)]
/-- The trial window has run out (13 R305, R308). -/
def State.windowOver (s : State) : Bool := decide (s.sheaf.trialStart + s.sheaf.windowRec < s.tb3s)
/-- What the boot ROM does with a TRIAL record at each start of the steward (13 R305). -/
def State.trialBoot (s : State) : State :=
  let h := s.sheaf
  if !h.recTrial then s
  else if h.trialBoots = 3 then s.fallback 2
  else if h.trialBoots != 0 && s.windowOver then s.fallback 3
  else s.writeCommit fun h =>
    { h with trialBoots := h.trialBoots + 1, trialStart := if h.trialBoots = 0 then s.tb3s else h.trialStart, st := 6, healthPassed := false,
             healthBroken := false, healthFrom := s.time.now }

/-! ## What a BOOT keeps: the store, the ling domain, contacts and measured values; all else takes its reset value -/

def TimeSt.boot (c : TimeSt) : TimeSt :=
  { TimeSt.reset with
    now := c.now, tb3 := c.tb3, storedTb3 := c.storedTb3, storedDiff := c.storedDiff,
    ports := c.ports.map fun p => { PortTime.reset with factoryRx := p.factoryRx, factoryTx := p.factoryTx } }
/-- The twin's claim stays observed over a restart; after a power-up it has to begin anew. -/
def PairSt.boot (restart : Bool) (p : PairSt) : PairSt :=
  { PairSt.reset with
    slotId := p.slotId, storedTerm := p.storedTerm, term := p.storedTerm, peerPresent := p.peerPresent, twinClaim := restart && p.twinClaim,
    twinClaimAt := p.twinClaimAt }
def PairCnt.boot (k : PairCnt) : PairCnt := { PairCnt.reset with unproven := k.unproven, lastProvedS := k.lastProvedS }
/-- The mode is still the old one. -/
def PowerSt.boot (kind tb3s : Nat) (released : Bool) (p : PowerSt) : PowerSt :=
  { PowerSt.reset with
    mode := p.mode, reason := 0, retireReason := p.retireReason, bootKind := kind, latch := p.latch, released := released, mainGood := p.mainGood,
    auxGood := p.auxGood, ejectOpen := p.ejectOpen, safeN := p.safeN, presentN := p.presentN, mainMv := p.mainMv, auxMv := p.auxMv,
    boardTemp := p.boardTemp, mainPower := p.mainPower, lingMv := p.lingMv, holdupMj := p.holdupMj, fullMj := p.fullMj,
    noUpdate := p.noUpdate, worn := p.worn, insufficient := p.insufficient, below32 := p.below32, powerCycles := p.powerCycles,
    operatingBase := p.operatingBase, operatingFrom := if kind = 2 then p.operatingFrom else tb3s, retires := p.retires,
    holdupTestS := p.holdupTestS }
def BootSt.boot (kind now : Nat) (b : BootSt) : BootSt :=
  { BootSt.reset with
    step := if kind = 2 then 1 else 0, startAt := now, lingKept := b.lingKept, tamperLatched := b.tamperLatched,
    recordSinceVerify := b.recordSinceVerify, watchdogAt := now, watchdogRecord := b.watchdogRecord }
def LockSt.boot (tb3s : Nat) (l : LockSt) : LockSt :=
  { LockSt.reset with
    pairs := l.pairs.map fun c =>
      { c with
        lbistOk := false, halted := false, dbgHalted := false, kindAtFault := 0, selfTests := 0 },
    lbistDue := tb3s + 10800 }
/-- A flip whose role record the store does not hold is undone (10 R240). -/
def CfgSt.boot (c : CfgSt) : CfgSt :=
  let d : Slot × Slot × Slot := match c.commits with | x :: _ => (x.sown, x.fallow, x.seed) | [] => (c.sown, c.fallow, c.seed)
  { CfgSt.reset with sown := d.1, fallow := d.2.1, seed := d.2.2, highWater := c.highWater, fallbackOk := d.1.cfg.usable }
/-- Sessions and jobs are gone, the buffers take their next sizes, and job ids start at 1 (11 R248, R256, R258). -/
def MsgSt.boot (m : MsgSt) : MsgSt :=
  { MsgSt.reset with
    boxes := mapFrom (fun n x => { Mailbox.reset n with reqLog := x.reqNext, rspLog := x.rspNext, reqNext := x.reqNext, rspNext := x.rspNext }) 0 m.boxes,
    mb14Next := m.mb14Next }
/-- A load goes on where it stood; a verified, verifying or activating Sheaf is LOADED again (13 Tables 13.5, 13.9). -/
def SheafSt.boot (h : SheafSt) : SheafSt :=
  { h with
    st := if h.recTrial then h.st else if h.st = 3 || h.st = 4 || h.st = 5 then 2 else if h.st = 6 then 0 else h.st,
    tokenHeld := false, twinState := 0, job := 0, bootFault := 0, twinProto := 0, twinMin := 0, tokenWait := none }
/-- What each front end last applied lasts while it is powered (14 R325). -/
def DioSt.boot (restart : Bool) (d : DioSt) : DioSt :=
  { DioSt.reset with
    fldMv := d.fldMv, fldLost := d.fldLost,
    ch := d.ch.map fun c => { DioCh.reset with lastApplied := restart && c.lastApplied } }
def UaSt.boot (restart : Bool) (u : UaSt) : UaSt :=
  { UaSt.reset with
    afsMv := u.afsMv, afsLost := u.afsLost,
    ch := u.ch.map fun c => { UaCh.reset with lastApplied := if restart then c.lastApplied else none } }
/-- The recorder starts at the limit of the last reservation; records that were not flushed are lost with the power (17 R374). -/
def RecSt.boot (restart : Bool) (l : RecSt) : RecSt :=
  { RecSt.reset with
    ring := if restart then l.ring else l.ring.filter fun r => decide (r.seq ≤ l.flushed),
    nextSeq := l.reserved, flushed := l.flushed, reserved := l.reserved, exhausted := l.exhausted || decide (0xFFFFFFFFFFFF < l.reserved),
    skips := if l.flushed + 1 < l.reserved then l.skips ++ [(l.flushed + 1, l.reserved)] else l.skips }
/-- The panel keeps its image; its ledgers are the stored ones after a loss of power (18 R386, R389). -/
def DispSt.boot (restart : Bool) (d : DispSt) : DispSt :=
  { DispSt.reset with
    panelTemp := d.panelTemp, band := d.band, lastFullBand := d.lastFullBand, frozen := d.frozen,
    updating := if restart then d.updating else 0, lastStart := if restart then d.lastStart else none, retireSkipped := d.retireSkipped,
    retireImage := d.retireImage, shown := d.shown, segments := d.segments, ledgers := if restart then d.ledgers else d.storedLedgers,
    storedLedgers := d.storedLedgers, fullEvery := d.fullEvery, name := d.name, lines := d.lines }
/-- Every part at the start of BOOT. Without power nothing is left in SRAM and DRAM; a restart clears SRAM at its Mower step. -/
def State.bootParts (kind : Nat) (released : Bool) (s : State) : State :=
  let restart := kind == 2
  { s with
    mem := if restart then s.mem else { cells := [], bad := [] },
    time := s.time.boot, pair := s.pair.boot restart, cnt := s.cnt.boot, power := s.power.boot kind s.tb3s released,
    boot := s.boot.boot kind s.time.now, pts := PointSt.reset, cyc := CycleSt.reset, fsp := FspSt.reset, sched := SchedSt.reset,
    lock := s.lock.boot s.tb3s, cfg := s.cfg.boot, msg := s.msg.boot, mower := MowerSt.reset,
    sec := { s.sec with staging := [], windowBase := 0, pendingRec := none, advanceTo := none },
    gate := { GateSt.reset with debugOpens := s.gate.debugOpens }, sheaf := s.sheaf.boot, dio := s.dio.boot restart,
    ua := s.ua.boot restart, can := s.can.map fun _ => CanCh.reset, log := s.log.boot restart, disp := s.disp.boot restart,
    sfp := s.sfp.map fun x => { x with linkUp := false } }
/-- The first record of a BOOT: the last flushed sequence and the kind of BOOT (17 R374). -/
def State.firstRecord (kind : Nat) (s : State) : State :=
  (s.upDisp fun d => { d with bootSeq := s.log.nextSeq }).record 0x0E01 [(8, s.log.flushed), (1, kind)]
/-- BOOT begins: kind 0 cold start, 1 wake, 2 restart. A retire image that was left out is recorded now (08 R192). -/
def State.startBoot (kind reason : Nat) (released : Bool) (s : State) : State :=
  let old := s.power.mode
  let s := ((s.dropClaim.bootParts kind released).firstRecord kind).goMode 1 reason
  if old = 8 && s.disp.retireSkipped then s.record 0x1000 [] else s
/-- A restart (08 R181, R184): the twin learns of it, sessions end, and every record is flushed before BOOT begins. -/
def State.restart (reason : Nat) (released : Bool) (s : State) : State :=
  let s := if s.swathSilent then s else s.emit (.swath .restarting)
  (((s.abandonArmed stState).closeDebug).endAllSessions.flushRecords).startBoot 2 reason released
/-- Power-good is lost in BOOT: it stops, and writes nothing (08 R185). -/
def State.bootStops (s : State) : State :=
  (s.dropClaim.upBoot fun b => { b with stopped := true, waiting := false }).upPower fun p => { p with operatingBase := s.opSeconds, operatingFrom := s.tb3s }
/-- The conditions of R186 for a wake. -/
def State.wakes (s : State) : Bool :=
  s.boot.lingKept && s.boot.tamperLatched.isNone && decide (20000 ≤ s.power.holdupMj) && s.boot.committed && !s.boot.recordSinceVerify
/-- Power comes back to a module in SLEEP. -/
def State.wake (s : State) : State := s.startBoot (if s.wakes then 1 else 0) 0 false

/-! ## The steps of BOOT (08 Tables 8.5, 8.6) -/

def bootStepNo : BootStep → Nat
  | .pllsLocked => 0 | .steward _ _ => 1 | .mower _ => 2 | .store => 3 | .components _ _ => 4 | .lbist _ => 5 | .config _ => 6 | .holdup => 7
/-- The step is done; a wake does not wait for the holdup store. -/
def State.stepDone (s : State) : State :=
  s.upBoot fun b => { b with step := if b.step = 6 && s.power.bootKind = 1 then 8 else b.step + 1 }
/-- The ling domain is read: TB3 goes on from it, or from the last stored value (06 R123). -/
def State.readLing (s : State) : State :=
  if s.boot.lingKept then s.stepDone
  else
    let s := (s.upTime fun c => { c with tb3 := c.storedTb3 + 60 * 65536000000000, tb3Gap := true }).upBoot fun b => { b with lingKept := true }
    ((s.upPower fun p => { p with operatingFrom := s.tb3s }).record 0x0603 []).stepDone
/-- The steward runs: a latched tamper wipes first, the life-cycle state is read, and the fixed gate rules are written. -/
def State.stewardRuns (s : State) : State :=
  let s := match s.boot.tamperLatched with
    | some k => (s.tamperWipe k).upBoot fun b => { b with tamperLatched := none }
    | none => if s.sec.latch = s.sec.lifecycle then s else s.tamperWipe 1
  let s := s.upSec fun c => { c with lifecycle := if c.fuse then 3 else if c.sealedRec then c.lifecycle else 0 }
  let s := s.upSec fun c => { c with latch := c.lifecycle }
  let s := s.installRules
  let s := match s.boot.watchdogRecord with
    | some at_ => (s.record 0x0104 [(8, at_)]).upBoot fun b => { b with watchdogRecord := none }
    | none => s
  (s.upBoot fun b => { b with watchdogAt := s.time.now }).stepDone
/-- The boot ROM reads the commit record and verifies the steward firmware (13 R305, R310). -/
def State.bootRom (ok prevOk : Bool) (s : State) : State :=
  if s.power.bootKind = 1 && !ok then s.upPower fun p => { p with bootKind := 0 }
  else
    let s := s.trialBoot
    if ok then s.stewardRuns
    else if s.sheaf.recTrial then s
    else if prevOk && s.sheaf.previous != 0 then (s.fallback 5).stewardRuns
    else s.upBoot fun b => { b with halted := true }
/-- The records of this BOOT stand in the recorder cache again after SRAM was zeroed. -/
def State.recache (s : State) : State :=
  (s.log.ring.filter fun r => decide (s.disp.bootSeq ≤ r.seq)).foldl (fun s r =>
    s.upMem fun m => memStore (padTo 64 (recordBytes r)) (0x0AA00000 + 64 * (r.seq % 32768)) m) s
/-- Mower's destructive pass zeroes main SRAM, mailbox RAM and the secure partition (12 R274). -/
def State.bootMower (fault : Option (Nat × Nat)) (s : State) : State :=
  let s := (s.upMem fun m => memClear m 0 0x0C2FFFFF).recache
  (match fault with
   | none => s.upMower fun m => { m with bootPassOk := true }
   | some (addr, bit_) =>
     (s.upMower fun m => { m with bootPassOk := false, faultAddr := addr, faultBit := bit_ }).upBoot fun b => { b with mowerOk := false }).stepDone
/-- The components of the active set are loaded, all but one that failed (0: none). -/
def State.loadSet (bad : Nat) (s : State) : State :=
  let s := s.upSheaf fun h => { h with bootFault := bad, healthBroken := h.healthBroken || bad != 0, healthFrom := s.time.now }
  let s := s.upBoot fun b => { b with recordSinceVerify := if s.power.bootKind = 1 || bad != 0 then b.recordSinceVerify else false }
  let s := (s.upDio fun d => { d with linkUp := bad != 5 }).upUa fun u => { u with linkUp := bad != 6 }
  let s := s.upDisp fun d => { d with panelOk := bad != 7 }
  (if bad = 4 then s else s.upSfp (mapFrom (fun p x => SfpSt.insert (s.pmd p) x.id x) 0)).stepDone
/-- Component verification (13 R310): outside a trial a failure falls back, and the store and component steps are repeated. -/
def State.bootComponents (failed : Option Nat) (prevOk : Bool) (s : State) : State :=
  match (if s.power.bootKind = 1 then none else failed) with
  | none => s.loadSet 0
  | some c =>
    if !s.sheaf.recTrial && prevOk && s.sheaf.previous != 0 then (s.fallback 5).upBoot fun b => { b with step := 3 }
    else s.loadSet c
/-- TB3 seconds at the start of this BOOT. -/
def State.bootTb3s (s : State) : Nat := (s.time.tb3 - 262144 * (s.time.now - s.boot.startAt)) / 65536000000000
/-- A disabled pair whose LBIST passed may come back (09 R209). -/
def State.readmits (s : State) (c : CorePair) : Bool :=
  c.reenable || (!c.permanent && c.lastClass == 4 && decide (86400 ≤ (s.bootTb3s + 2 ^ 32 - c.faultS % 2 ^ 32) % 2 ^ 32))
/-- LBIST of one pair at BOOT (09 R209, R211); an enabled pair that fails is disabled as CORE. -/
def State.bootLbist (passed n : Nat) (s : State) : State :=
  let ok := bit passed n
  let back := s.readmits (s.corePair n)
  let s := s.setPair n fun c => { c with lbistOk := ok, lbistAt := if ok then s.tb3s else c.lbistAt, reenable := false }
  let s := s.upLock fun l => { l with lbistRuns := inc32 l.lbistRuns, lbistFails := if ok then l.lbistFails else inc32 l.lbistFails }
  if (s.corePair n).disabled then
    if ok && back then ((s.setPair n fun c => { c with disabled := false, permanent := false }).invalidate).record 0x0703 [(1, n)] else s
  else if ok then s
  else ((s.record 0x0702 [(1, n)]).disablePair n 1).upBoot fun b => { b with lbistOk := setBits b.lbistOk n 1 0 }
/-- LBIST on every pair, and the placement that the enabled ones give (09 R210). -/
def State.bootLbists (passed : Nat) (s : State) : State :=
  let s := ((List.range 8).foldl (fun s n => s.bootLbist passed n) s).proved 0 (decide (passed % 256 = 255))
  (match s.placementFor s.lock.disabled with
   | some p => s.upLock fun l => { l with placement := p }
   | none => s).stepDone
/-- The sown configuration is loaded where it verifies (10 R4): points at their reset values, and its gate rules. -/
def State.bootConfig (verified : Bool) (s : State) : State :=
  let ok := verified && s.cfg.sown.present
  let s := s.upBoot fun b => { b with cfgOk := ok }
  (if ok then s.freshPoints.installRules else s).stepDone
/-- A wake that overran goes on as a cold start, which is recorded (08 R186). -/
def State.overrun (s : State) : State :=
  if s.power.bootKind = 1 && decide (s.boot.startAt + 412500000 < s.time.now) then
    ((s.upPower fun p => { p with bootKind := 0 }).upBoot fun b => { b with step := if b.step = 8 then 7 else b.step }).record 0x1000 []
  else s
def State.bootStep (st : BootStep) (s : State) : State :=
  (match st with
   | .pllsLocked => s.readLing
   | .steward ok prevOk => s.bootRom ok prevOk
   | .mower fault => s.bootMower fault
   | .store => s.stepDone
   | .components failed prevOk => s.bootComponents failed prevOk
   | .lbist passed => s.bootLbists passed
   | .config verified => s.bootConfig verified
   | .holdup => s.stepDone).overrun
/-- A step of BOOT ends in its order. -/
def State.mayStep (s : State) (st : BootStep) : Bool := s.power.mode == 1 && s.awake && !s.boot.retiring && s.boot.step == bootStepNo st

/-! ## The start decision (08 R182, R183; 07 R160) -/

/-- The twin has not decided yet: it reports BOOT, or nothing. -/
def State.twinUndecided (s : State) : Bool := s.pair.twinMode ≤ 1
/-- The module proceeds at once: it is in the home slot, or in slot A without one. -/
def State.preferred (s : State) : Bool := if s.conf.pair.homeSlot < 2 then s.inHomeSlot else !s.slotB
/-- Step 8: this module waits 2 s. -/
def State.mustWait (s : State) : Bool :=
  s.pair.peerPresent && !s.boot.waitDone && (if s.swathSilent then s.slotB else s.twinUndecided && !s.preferred)
/-- The term window opens: the stored term is the reference, and every station is asked for DIAG page 0 (07 R160). -/
def State.openWindow (s : State) : State :=
  let s := (s.upPair fun p => { p with termOpen := true, termRef := p.storedTerm, termBest := p.storedTerm }).upBoot fun b =>
    { b with waiting := false, waitAt := s.time.now }
  s.conf.map.stations.foldl (fun s r => if s.diagBusy r.addr then s else s.probe r) s
/-- SYNCING begins without a copy. -/
def State.beginSync (s : State) : State :=
  (((s.upPair fun p => { p with synced := false, isolated := false, yielded := false, copyDone := false, ckptSeen := 0, termOpen := false }).upBoot fun b =>
    { b with waiting := false }).upCnt fun k => { k with applied := [none, none, none, none], early := [], gapStreaks := [], dueRepairs := [] }).goMode 3 0
/-- Steps 5 to 9. -/
def State.decide5 (s : State) : State :=
  if s.pair.twinClaim then s.beginSync
  else if !s.conf.pair.autoStart && !s.power.released then s.safeHold 8
  else if !s.tb0Valid then s.safeHold 9
  else if s.mustWait then s.upBoot fun b => { b with waiting := true, waitAt := s.time.now }
  else s.openWindow
/-- Entry into MAINTENANCE; BLANK opens debug there (12 R291). The dwell of the health checks begins anew where they did not hold
(13 R306). -/
def State.maintain (reason : Nat) (s : State) : State :=
  let s := if s.power.mode = 4 && !s.pair.synced then s.upSheaf fun h => { h with healthFrom := s.time.now } else s
  let s := s.goMode 2 reason
  if s.sec.lifecycle = 0 then s.openDebug none else s
/-- All steps. -/
def State.startDecision (s : State) : State :=
  if s.sec.lifecycle != 2 then s.maintain 0xC
  else if !s.cfg.sown.present || !s.boot.cfgOk then s.maintain 0xB
  else if s.power.latch then s.maintain 0xF
  else if !s.boot.mowerOk || s.sheaf.bootFault != 0 then s.safeHold 0xD
  else if (s.placementFor s.lock.disabled).isNone then s.safeHold (if s.boot.lbistOk = 255 then 0xE else 0xD)
  else s.decide5
/-- SAFE HOLD with reason 0x0A, or with 0x09 once TB0 is valid: the decision runs again from step 5 (Table 8.2). -/
def State.startAgain (s : State) : State :=
  if s.power.mode = 7 && !s.power.fromOwner && !s.boot.retiring && !s.boot.waiting && !s.pair.termOpen && !s.pair.ownClaim &&
      (s.power.reason = 0xA || (s.power.reason = 9 && s.tb0Valid)) then
    (s.upBoot fun b => { b with waitDone := false }).decide5
  else s
/-- TB0 and TB1 start from the estimate, in state FREE (06 R124). -/
def TimeSt.startBases (c : TimeSt) : TimeSt :=
  let acc := (((c.tb3 : Int) + c.storedDiff) * 2 ^ 32).toNat
  { c with tb0 := { Base.reset with acc := acc }, tb1 := { Base.reset with acc := acc } }
/-- The end of BOOT; step 9 says that it is over. -/
def State.endBoot (s : State) : State :=
  let s := s.overrun
  if s.boot.step != 8 then s
  else
    let s := ((s.upTime TimeSt.startBases).upBoot fun b => { b with step := 9, waitDone := false }).upPower fun p =>
      { p with lastBootMs := min 0xFFFFFFFF ((s.time.now - s.boot.startAt) / 250000) }
    (((s.startDecision).select 0).select 1).startAgain
/-- Every step is done; a wake ends no earlier than 1.35 s after its event (08 R186). -/
def State.mayEndBoot (s : State) : Bool :=
  s.power.mode == 1 && s.awake && !s.boot.retiring && s.boot.step == 8 && (s.power.bootKind != 1 || decide (s.boot.startAt + 337500000 ≤ s.time.now))
/-- The 2 s wait is over: again from step 5. -/
def State.endWait (s : State) : State := (s.upBoot fun b => { b with waiting := false, waitDone := true }).decide5
def State.waitOver (s : State) : Bool := s.awake && !s.boot.retiring && (s.power.mode == 1 || s.power.mode == 7) && s.boot.waiting && decide (s.boot.waitAt + secTicks 2 ≤ s.time.now)
/-- The 100 ms of the term window are over: the claim begins, unless the twin's is present by now (07 R149, R160). -/
def State.endWindow (s : State) : State :=
  let s := s.upPair fun p => { p with termOpen := false }
  let s := s.startClaim 0
  if s.pair.ownClaim then s else s.decide5
def State.windowEnds (s : State) : Bool := s.awake && !s.boot.retiring && (s.power.mode == 1 || s.power.mode == 7) && s.pair.termOpen && decide (s.boot.waitAt + 25000000 ≤ s.time.now)
/-- A claim of the start that a tie withdraws: again from step 5 (08 R183). -/
def State.afterTie (before s : State) : State :=
  if before.pair.ownClaim && before.pair.claimKind = 0 && !s.pair.ownClaim && (s.power.mode = 1 || s.power.mode = 7) then s.decide5 else s

/-- BOOT_STEP_END (08 R184, R186). -/
def execBootStepEnd (t : Nat) (st : BootStep) (s : State) : Host.Outcome State Fault Refusal :=
  happens t s (fun s => s.mayStep st) (State.bootStep st)
/-- BOOT_END (08 R182). -/
def execBootEnd (t : Nat) (s : State) : Host.Outcome State Fault Refusal := happens t s State.mayEndBoot State.endBoot
/-- START_WAIT_EXPIRY (08 R183). -/
def execStartWaitExpiry (t : Nat) (s : State) : Host.Outcome State Fault Refusal := happens t s State.waitOver State.endWait
/-- TERM_WINDOW_END (07 R160). -/
def execTermWindowEnd (t : Nat) (s : State) : Host.Outcome State Fault Refusal := happens t s State.windowEnds State.endWindow

end Sys2Proof.Machine
end

