-- ==== Sys2Proof/Machine/Sheaf.lean ====
section
/-! DEFINITION. Loading, verifying, activating, confirming and abandoning a Sheaf (13 R296–R315). -/

namespace Sys2Proof.Machine

/-! ## The bundle (13 R296–R299) -/

/-- Slot sizes of components 1 to 9 in bytes (Table 13.1). -/
def slotSize (c : Nat) : Nat := 1048576 * [0, 48, 128, 8, 16, 2, 4, 2, 1, 1].getD c 0
def bundleMax : Nat := 220205056
/-- Entry n of the manifest, 96 bytes (Table 13.3). -/
def manEntry (b : List Byte) (n : Nat) : List Byte := slice b (256 + 96 * n) 96
def manEntries (b : List Byte) : List (List Byte) := (List.range 9).map (manEntry b)
def entryId (e : List Byte) : Nat := field e 0 2
def entryVersion (e : List Byte) : Nat := field e 4 4
def entryOffset (e : List Byte) : Nat := field e 16 8
def entrySize (e : List Byte) : Nat := field e 24 8
/-- The version of each component, in the order of their ids. -/
def manVersions (b : List Byte) : List Nat :=
  (List.range 9).map fun n => match (manEntries b).find? fun e => entryId e == n + 1 with | some e => entryVersion e | none => 0
/-- The SHA-384 that R299 states. -/
def manDigest (b : List Byte) : List Byte := Config.sha384 (slice b 0 36 ++ zeroBytes 144 ++ slice b 180 940)
/-- MAGIC, FORMAT, COUNT and MEMBER, then LENGTH (R302). -/
def headerFault (b : List Byte) : Option Nat :=
  if slice b 0 4 != ascii "F9SH" || field b 4 2 != 1 || field b 6 2 != 9 || field b 28 4 != 9 then some stRange
  else if bundleMax < field b 16 8 then some stCapacity else none

/-! ## Verification (13 R303 Table 13.6) -/

/-- Two components share a byte. -/
def overlap (x y : List Byte) : Bool :=
  decide (entryOffset x < entryOffset y + entrySize y) && decide (entryOffset y < entryOffset x + entrySize x)
/-- What check 1 says of one component: its version, its place, its size, its reserved bytes, and the others. -/
def entryOk (len : Nat) (all : List (List Byte)) (e : List Byte) : Bool :=
  entryVersion e != 0 && entryOffset e % 4096 == 0 && decide (4096 ≤ entryOffset e) && decide (entryOffset e + entrySize e ≤ len) &&
    decide (entrySize e ≤ slotSize (entryId e)) && zeros e 2 2 && zeros e 12 4 && zeros e 80 16 &&
    all.all fun x => entryId x == entryId e || !overlap x e
/-- The first failure of a check: the check, the component and the status. -/
def check1 (b : List Byte) : Option (Nat × Nat × Nat) :=
  let es := manEntries b
  if !(List.range 9).all (fun n => es.any fun e => entryId e == n + 1) || field b 8 4 == 0 || !zeros b 180 76 then some (1, 0, stRange)
  else (es.find? fun e => !entryOk (field b 16 8) es e).map fun e => (1, entryId e, stRange)
def SecureSt.sheafKey (c : SecureSt) (i : Nat) : Option (List Byte) := (c.sheafKeys.find? fun e => e.1 == i).map fun e => e.2
def State.check2 (s : State) (b : List Byte) : Option (Nat × Nat × Nat) :=
  match s.sec.sheafKey (field b 32 4) with
  | none => some (2, 0, stIntegrity)
  | some k =>
    if manDigest b == slice b 36 48 && Config.ecdsaOk (slice b 36 48) (slice b 84 96) k then none else some (2, 0, stIntegrity)
def check3 (b : List Byte) : Option (Nat × Nat × Nat) :=
  ((manEntries b).find? fun e => Config.sha384 (slice b (entryOffset e) (entrySize e)) != slice e 32 48).map fun e => (3, entryId e, stIntegrity)
def State.check4 (s : State) (b : List Byte) : Option (Nat × Nat × Nat) :=
  if field b 8 4 == s.sheaf.active || s.sheaf.active < field b 12 4 then some (4, 0, stVersion)
  else ((manEntries b).find? fun e => decide (s.sheaf.versions.getD (entryId e - 1) 0 < field e 8 4)).map fun e => (4, entryId e, stVersion)
def State.check5 (s : State) (b : List Byte) : Option (Nat × Nat × Nat) :=
  ([s.cfg.sown, s.cfg.fallow].flatMap fun x => if x.present then belowMinimum (manVersions b) x.cfg else []).head?.map fun c => (5, c, stVersion)
def State.check6 (s : State) (b : List Byte) : Option (Nat × Nat × Nat) :=
  if s.pair.peerPresent && !compatible (field b 24 2) (field b 26 2) s.sheaf.twinProto s.sheaf.twinMin then some (6, 0, stVersion) else none
/-- All checks in order. -/
def State.verifyFault (s : State) : Option (Nat × Nat × Nat) :=
  let b := s.sheaf.loaded
  (((((check1 b).orElse fun _ => s.check2 b).orElse fun _ => check3 b).orElse fun _ => s.check4 b).orElse fun _ => s.check5 b).orElse fun _ => s.check6 b
/-- The Sheaf being loaded is gone. -/
def SheafSt.idle (h : SheafSt) : SheafSt := { h with st := 0, loaded := [], loadedBytes := 0, total := 0, tokenWait := none, tokenHeld := false }
/-- The 8 bytes of the job result. -/
def verifyResult (s : State) (check comp : Nat) : List Byte :=
  leBytes 1 check ++ leBytes 1 comp ++ leBytes 2 0 ++ leBytes 4 (field s.sheaf.loaded 8 4)
/-- The verify job ends. -/
def State.endVerify (s : State) : State :=
  let id := s.sheaf.job
  let b := s.sheaf.loaded
  match s.verifyFault with
  | some (check, comp, status) => (s.endJob id status (verifyResult s check comp)).upSheaf SheafSt.idle
  | none =>
    (s.endJob id stOk (verifyResult s 0 0)).upSheaf fun h =>
      { h with st := 4, newVersions := manVersions b, newProto := field b 24 2, newMin := field b 26 2 }

/-! ## Commands (13 R302–R304, R312) -/

def sheafCmd (code : Nat) (size : List Byte → Bool) : Cmd := { plainCmd code 3 0 with modes := [2, 4], size := size }
/-- Steps 1 and 2 of R312. -/
def sheafFree : List (State → Option Nat) :=
  [need (fun s => !s.sec.ownerLock) stLocked,
   need (fun s => !(s.sheaf.st == 3 || s.sheaf.st == 5 || s.sheaf.st == 6) && s.cfg.armed.isNone && !s.pair.homeArmed && !s.pair.twinHomeArmed &&
     s.cfg.job.isNone) stBusy]
/-- A chunk lands: the header is checked once it is whole, and the last one ends the load. -/
def State.loadChunk (off : Nat) (data : List Byte) (s : State) : State × Option (Nat × List Byte) :=
  let s := if s.sheaf.st = 0 then
      (s.writeCommit fun h => { h with previous := 0, prevVersions := List.replicate 9 0 }).upSheaf fun h =>
        { h.idle with st := 1 }
    else s
  let all := s.sheaf.loaded ++ data
  let n := off + data.length
  let done (s : State) : State × Option (Nat × List Byte) :=
    let s := s.upSheaf fun h =>
      { h with loaded := all, loadedBytes := n, total := if 1120 ≤ n then field all 16 8 else 0, st := if 1120 ≤ n && n == field all 16 8 then 2 else 1 }
    reply stOk (leBytes 8 n) s
  if n < 1120 then done s
  else match (if off < 1120 then headerFault all else none) with
    | some st => reply st [] (s.upSheaf SheafSt.idle)
    | none => if field all 16 8 < n then reply stRange [] s else done s
/-- `SHEAF_LOAD`: the first chunk in IDLE, the next one in LOADING. -/
def loadBody (r : Req) : State → State × Option (Nat × List Byte) :=
  let off := field r.payload 0 8
  guarded (sheafFree ++
    [need (fun s => (s.sheaf.st == 0 && off == 0) || s.sheaf.st == 1) stState, need (fun s => s.sheaf.st == 0 || off == s.sheaf.loadedBytes) stRange])
    (State.loadChunk off (r.payload.drop 8))
def verifyBody : State → State × Option (Nat × List Byte) :=
  guarded (sheafFree ++ [need (fun s => s.sheaf.st == 2 || s.sheaf.st == 4) stState])
    (withJob 0x501 fun id s => s.upSheaf fun h => { h with st := 3, job := id })
/-- The energy that an activation needs (R304). -/
def State.energyOk (s : State) : Bool := decide (32000 ≤ s.power.holdupMj)
/-- `SHEAF_ACTIVATE`: a module whose twin is absent needs no token (R312). -/
def activateBody : State → State × Option (Nat × List Byte) :=
  guarded (sheafFree ++
    [need (fun s => s.sheaf.twinState != 6 && !(s.pair.peerPresent && s.swathSilent)) stBusy, need (fun s => s.sheaf.st == 4) stState,
     need State.energyOk stLowEnergy])
    (withJob 0x502 fun id s =>
      let s := s.upSheaf fun h => { h with st := 5, job := id, tokenHeld := false, tokenWait := if s.pair.peerPresent then some s.time.now else none }
      if s.pair.peerPresent then s.emit (.swath .tokenRequest) else s)

/-! ## Activation (13 R304 Table 13.7) -/

/-- The activation is refused: VERIFIED again. -/
def State.noActivation (status : Nat) (s : State) : State :=
  (s.endJob s.sheaf.job status []).upSheaf fun h => { h with st := 4, tokenWait := none, tokenHeld := false }
/-- The twin's answer. -/
def State.tokenAnswer (granted : Bool) (s : State) : State :=
  if granted then s.upSheaf fun h => { h with tokenWait := none, tokenHeld := true } else s.noActivation stBusy
/-- The twin asks for the token: not while this module is in TRIAL or ACTIVATING; of two requests within one exchange slot A's
is granted (R312). -/
def State.grantsToken (s : State) : Bool :=
  if s.sheaf.st = 6 then false else if s.sheaf.st = 5 then s.sheaf.tokenWait.isSome && s.slotB else true
/-- The TRIAL record of the verified set. -/
def SheafSt.activated (h : SheafSt) : SheafSt :=
  { h with recTrial := true, trialBoots := 0, active := field h.loaded 8 4, slots := 511 - h.slots % 512, previous := h.active,
           windowRec := h.windowS, versions := h.newVersions, prevVersions := h.versions, proto := h.newProto, min := h.newMin,
           prevProto := h.proto, prevMin := h.min, activations := inc32 h.activations, loaded := [], loadedBytes := 0, total := 0 }
/-- The commit record is written and read back: the job ends, the seed's check is invalid, and the module restarts. -/
def State.activate (s : State) : State :=
  let s := (s.writeCommit SheafSt.activated).invalidate
  ((s.endJob s.sheaf.job stOk []).record 0x0A01 [(4, s.sheaf.active), (4, s.sheaf.previous)]).restart 0 false
/-- The readback ends: an incomplete write leaves the other copy current (R300). -/
def State.recordWritten (readbackOk : Bool) (s : State) : State :=
  if !s.energyOk then s.noActivation stLowEnergy else if readbackOk then s.activate else s

/-! ## Confirmation and fallback (13 R306–R309) -/

/-- The conditions that hold now; those of the past stand in `healthBroken` and `healthFrom`. -/
def State.healthy (s : State) : Bool :=
  s.sheaf.st == 6 && !s.sheaf.healthBroken && healthyMode s.power.mode && (s.power.mode != 4 || s.pair.synced)
def State.dwellOver (s : State) : Bool :=
  s.awake && s.healthy && !s.sheaf.healthPassed && decide (s.sheaf.healthFrom + secTicks s.sheaf.dwellS ≤ s.time.now)
/-- The record with STATE ACTIVE and RESULT 1; the old set stays bootable. -/
def State.confirm (s : State) : State :=
  let s := s.writeCommit fun h => { h with recTrial := false, result := 1, st := 0, tokenHeld := false }
  s.record 0x0A02 [(4, s.sheaf.active)]
def State.passHealth (s : State) : State :=
  let s := s.upSheaf fun h => { h with healthPassed := true }
  if s.sheaf.manual then s else s.confirm
def State.inControl (s : State) : Bool := s.power.mode == 5 || s.power.mode == 6
/-- A fallback outside BOOT, by mode (R308): a restart, a handover and then a restart, or none until the next BOOT. -/
def State.fallbackNow (result : Nat) (s : State) : State :=
  let synced := s.twinSynced
  let s := s.fallback result
  if !s.inControl then s.restart 0 false
  else if !synced then s
  else match s.pair.armed with
    | some h => s.upPair fun p => { p with armed := some { h with kind := 5 } }
    | none => s.armHandover 5 (s.nextT0 3 (s.tb0 + 100000000)) 0
/-- `SHEAF_ABANDON` by state (R309); the fallback follows its response. -/
def abandonBody (s : State) : State × Option (Nat × List Byte) :=
  if s.sheaf.st = 5 then reply stBusy [] s
  else if s.sheaf.st = 6 then reply (if s.inControl && !s.twinSynced then stState else stOk) [] s
  else if s.sheaf.st = 0 then reply stOk [] s
  else reply stOk [] ((if s.sheaf.st = 3 then s.endJob s.sheaf.job stState [] else s).upSheaf SheafSt.idle)
def confirmBody : State → State × Option (Nat × List Byte) :=
  guarded [need (fun s => s.sheaf.st == 6 && s.sheaf.healthPassed) stState] fun s => reply stOk [] s.confirm
def statusBody (s : State) : State × Option (Nat × List Byte) := reply stOk (((List.range 48).map (s.param 0x0A)).flatMap (leBytes 4)) s

/-! ## The meanings -/

def execSheafLoad (t : Nat) (r : Req) (s : State) : Host.Outcome State Fault Refusal :=
  happens t s State.awake (State.run (sheafCmd 0x500 fun b => decide (9 ≤ b.length)) r (loadBody r))
def execSheafVerify (t : Nat) (r : Req) (s : State) : Host.Outcome State Fault Refusal :=
  happens t s State.awake (State.run (sheafCmd 0x501 (sizeIs 0)) r verifyBody)
def execSheafVerifyJobEnd (t : Nat) (s : State) : Host.Outcome State Fault Refusal :=
  happens t s (fun s => s.awake && s.sheaf.st == 3) State.endVerify
def execSheafActivate (t : Nat) (r : Req) (s : State) : Host.Outcome State Fault Refusal :=
  happens t s State.awake (State.run (sheafCmd 0x502 (sizeIs 0)) r activateBody)
def execSheafConfirm (t : Nat) (r : Req) (s : State) : Host.Outcome State Fault Refusal :=
  happens t s State.awake (State.run (plainCmd 0x503 3 0) r confirmBody)
/-- SHEAF_STATUS (R312): words 0x00 to 0x2F of the block. -/
def execSheafStatus (t : Nat) (r : Req) (s : State) : Host.Outcome State Fault Refusal :=
  happens t s State.awake (State.run { plainCmd 0x504 1 0 with twin := true } r statusBody)
def execSheafAbandon (t : Nat) (r : Req) (s : State) : Host.Outcome State Fault Refusal :=
  happens t s State.awake fun s =>
    let trial := s.sheaf.st == 6
    match s.serve (plainCmd 0x505 3 0) r abandonBody with
    | (s, some st) => if trial && st == stOk then s.fallbackNow 4 else s
    | (s, none) => s
/-- TRIAL_TOKEN_REQUEST (R312): of the twin. -/
def execTrialTokenRequest (t : Nat) (s : State) : Host.Outcome State Fault Refusal :=
  happens t s State.awake fun s => s.emit (.swath (.tokenGrant s.grantsToken))
def execTrialTokenGrant (t : Nat) (granted : Bool) (s : State) : Host.Outcome State Fault Refusal :=
  happens t s (fun s => s.awake && s.sheaf.st == 5 && s.sheaf.tokenWait.isSome) (State.tokenAnswer granted)
/-- TRIAL_TOKEN_TIMEOUT (R304): 10 ms without an answer. -/
def execTrialTokenTimeout (t : Nat) (s : State) : Host.Outcome State Fault Refusal :=
  happens t s (fun s => s.awake && s.sheaf.st == 5 &&
    (match s.sheaf.tokenWait with | some a => decide (a + usTicks 10000 ≤ s.time.now) | none => false)) (State.noActivation stBusy)
def execActivationRecordWritten (t : Nat) (readbackOk : Bool) (s : State) : Host.Outcome State Fault Refusal :=
  happens t s (fun s => s.awake && s.sheaf.st == 5 && s.sheaf.tokenWait.isNone) (State.recordWritten readbackOk)
/-- HEALTH_DWELL_PASS (R306, R307). -/
def execHealthDwellPass (t : Nat) (s : State) : Host.Outcome State Fault Refusal := happens t s State.dwellOver State.passHealth
/-- TRIAL_WINDOW_EXPIRY (R308). -/
def execTrialWindowExpiry (t : Nat) (s : State) : Host.Outcome State Fault Refusal :=
  happens t s (fun s => s.awake && s.power.mode != 1 && s.sheaf.st == 6 && s.sheaf.recTrial && s.windowOver) (State.fallbackNow 3)
/-- TWIN_SHEAF_POLL (R312). -/
def execTwinSheafPoll (t : Nat) (s : State) : Host.Outcome State Fault Refusal :=
  happens t s (fun s => s.awake && s.power.mode != 1 && !s.swathSilent) (State.askTwin 0x504 [] 0)

end Sys2Proof.Machine
end

