-- ==== Sys2Proof/Machine/Memory.lean ====
section
/-! DEFINITION. Fabric accesses: gates, the byte-lane rotate, ECC, mailbox ports and gate registers; the debug link; scrubbing, Mower
and memory tests (12 R268–R285, R290–R292; 01 R14). -/

namespace Sys2Proof.Machine

/-! ## Gate decisions (12 R280, R281, R285) -/

def ruleWord (rule : List Nat) (i : Nat) : Nat := rule.getD i 0
def ruleEnabled (rule : List Nat) : Bool := bit (ruleWord rule 3) 7
def ruleSecure (rule : List Nat) : Bool := bit (ruleWord rule 3) 6
def ruleHolds (rule : List Nat) (addr : Nat) : Bool := decide (ruleStart rule ≤ addr) && decide (addr ≤ ruleEnd rule)
def ruleMatches (rule : List Nat) (addr master : Nat) : Bool := ruleEnabled rule && ruleHolds rule addr && bit (ruleWord rule 2) master
/-- The permission bit for a privilege and direction. -/
def rulePermits (rule : List Nat) (priv write : Bool) : Bool := bit (ruleWord rule 3) (2 + 2 * b2n priv + b2n write)
/-- Only the steward presents the secure attribute. -/
def secureAttr (master : Nat) : Bool := master == 8
/-- An address in a secure range: gate 10, or a rule with SECURE. -/
def State.inSecure (s : State) (g addr : Nat) : Bool :=
  g == 10 || s.gate.active.any fun e => e.1 == g && ruleSecure e.2.2 && ruleHolds e.2.2 addr
/-- The first matching rule decides; without one the default map does. A violation names its reason and its rule. -/
def State.gateRefuses (s : State) (g addr master : Nat) (priv write : Bool) : Option (Nat × Nat) :=
  match (List.range (ruleCount g)).find? fun r => ruleMatches (s.gate.rule g r) addr master with
  | some r =>
    let rule := s.gate.rule g r
    if ruleSecure rule && !secureAttr master then some (2, r) else if rulePermits rule priv write then none else some (1, r)
  | none => if !priv then some (0, 0xFF) else if s.inSecure g addr then some (if secureAttr master then 0 else 2, 0xFF) else none
/-- log2 of an access size. -/
def sizeLog (n : Nat) : Nat := if n = 1 then 0 else if n = 2 then 1 else if n = 4 then 2 else 3
/-- The four words of a fault log entry (Table 12.4). -/
def faultEntry (addr master rule reason : Nat) (priv write : Bool) (size epoch no : Nat) : List Nat :=
  [addr % 2 ^ 32,
   master * 2 ^ 24 + addr / 2 ^ 32 % 256 * 2 ^ 16 + rule * 256 + reason * 64 + b2n (secureAttr master) * 32 + b2n priv * 16 + b2n write * 8 + sizeLog size,
   epoch, no % 2 ^ 32]
/-- What follows for a core pair whose access ends in an error: its task's release ends, and the runtime records it (R272). -/
def State.coreException (master : Nat) (s : State) : State := if master < 8 then s.record 0x0400 [(1, master)] else s
/-- A violation is logged, counted and recorded (R285). -/
def State.violation (g addr master rule reason : Nat) (priv write : Bool) (size : Nat) (s : State) : State :=
  let no := s.gate.logged.getD g 0
  let s := s.upGate fun x =>
    { x with violations := setAt x.violations g inc32, logged := setAt x.logged g (· + 1),
             logs := (16 * g + no % 16, faultEntry addr master rule reason priv write size x.epoch no) ::
               x.logs.filter fun e => e.1 != 16 * g + no % 16 }
  (s.recordAtMost (0x090100 + g) 100 0x0901 [(1, g), (8, addr), (1, master)]).coreException master

/-! ## ECC (12 R272) -/

def isDram (addr : Nat) : Bool := decide (0x1000000000 ≤ addr)
def State.corrected (addr : Nat) (s : State) : State :=
  s.upMower fun m => if isDram addr then { m with ceDram := inc32 m.ceDram } else { m with ceSram := inc32 m.ceSram }
/-- An uncorrectable word is counted, latched, recorded, and stays as it is until a full-word write. -/
def State.uncorrectable (w : Nat) (s : State) : State :=
  let s := s.upMower fun m =>
    if isDram w then { m with ueDram := inc32 m.ueDram, lastUe := w } else { m with ueSram := inc32 m.ueSram, lastUe := w }
  (s.upMem fun m => { m with bad := if m.bad.contains w then m.bad else w :: m.bad }).record 0x0801 [(8, w)]
/-- The point engine treats the item as one with status BAD_CONFIG and rewrites the entry whole; what the lost VALUE and AGE were is
free (log 3). -/
def State.badEntry (h : Nat) (s : State) : State :=
  let v := Config.freeWord s.free
  let age := (Config.freeWord (s.free + 1)).toNat % 65536
  s.useFree.useFree.upImg h fun g => Img.bad 0x86 (s.published h) { g with value := v, age := age }
/-- What each master does with an error (Table 12.1). -/
def State.masterActs (master w : Nat) (s : State) : State :=
  if master < 8 then s.coreException master
  else if master = 8 then s.upBoot fun b => { b with hung := true }
  else if master = 9 then (if w < 0x03000000 then s.badEntry (w / 8) else s)
  else if master = 10 || master = 13 then s.fspCount 2
  else if master = 12 then s.upCnt fun k => { k with swathErrors := inc32 k.swathErrors }
  else if master = 11 || master = 17 then s
  else s.upMower fun m => { m with portErrors := inc32 m.portErrors }

/-! ## One word (12 R270, R271, R279; 01 R14) -/

/-- How an access to one word ends. -/
inductive WordEnd
  | done (data : Nat)
  | busError
  | device (addr : Nat)

/-- Bytes o to o + n − 1 of a word. -/
def lanes (w o n : Nat) : Nat := bits w (8 * o) (8 * n)
/-- A word of memory as it reads. -/
def State.memWordAt (s : State) (w : Nat) : Nat := if w < 0x03000000 then (s.image (w / 8)).toNat else memReadN s.mem w 8
/-- The steward's write through port A: word index, byte enables, data. -/
def State.portAWrite (p : Option (Nat × Nat × Nat)) (s : State) : State :=
  match p with
  | none => s
  | some (i, mask, d) =>
    s.upMem fun m => (List.range 8).foldl (fun m k => if bit mask k then memWrite m (0x0C000000 + 8 * (i % 262144) + k) (BitVec.ofNat 8 (d / 2 ^ (8 * k))) else m) m
/-- Both ports write the same word; a byte that both enable differs. -/
def collides (p : Option (Nat × Nat × Nat)) (w o n data : Nat) : Bool :=
  match p with
  | none => false
  | some (i, mask, d) => 0x0C000000 + 8 * i == w && (List.range n).any fun k => bit mask (o + k) && lanes d (o + k) 1 != lanes data k 1
/-- A granted write: port A's bytes first. -/
def State.putBytes (p : Option (Nat × Nat × Nat)) (w o n data : Nat) (s : State) : State :=
  let s := (s.portAWrite p).upMem (memStore (leBytes n data) (w + o))
  let s := if collides p w o n data then
      s.upMower fun m => { m with collisions := inc32 m.collisions, collisionWord := w % 0x200000 / 8 }
    else s
  if queueBase ≤ w && w < queueBase + 0x200000 then s.recountQueue w 8 else s
/-- The memory behind a gate that has granted the access. A read checks the code; a write of fewer than 8 bytes reads first. -/
def State.memAccess (a : Access) (w o n data : Nat) (ecc : Ecc) (s : State) : State × WordEnd :=
  let reads := a.op != .write || n != 8
  if reads && (ecc == .double || s.mem.bad.contains w) then (((s.portAWrite a.portA).uncorrectable w).masterActs a.master w, .busError)
  else
    let s := if reads && ecc == .single then s.corrected w else s
    let old := s.memWordAt w
    match a.op with
    | .read => (s.portAWrite a.portA, .done (lanes old o n))
    | .write => (s.putBytes a.portA w o n data, .done 0)
    | .cas => (if old = a.expected % 2 ^ 64 then s.putBytes a.portA w 0 8 data else s.portAWrite a.portA, .done old)

/-! ### The registers of gate 23 that the spec lays out (11 R249, 12 R284) -/

/-- Two words of the shadow set: gate and rule by their place, as they read. -/
def GateSt.shadowRule (g r : Nat) (x : GateSt) : List Nat :=
  match x.shadow.find? fun e => e.1 == g && e.2.1 == r with | some e => e.2.2 | none => [0, 0, 0, 0]
/-- Change half of a shadow rule. -/
def GateSt.setShadow (g r half v : Nat) (x : GateSt) : GateSt :=
  if ruleCount g ≤ r then x
  else
    let old := x.shadowRule g r
    let new := (List.range 4).map fun i => if i / 2 = half then v / 2 ^ (32 * (i % 2)) % 2 ^ 32 else ruleWord old i
    { x with shadow := (g, r, new) :: x.shadow.filter fun e => !(e.1 == g && e.2.1 == r) }
/-- The place of a word in the peripheral region: a shadow rule, the commit register, a control word pair, or none of these. -/
inductive Periph
  | shadow (g r half : Nat)
  | commit
  | control (mb : Nat)
  | unused
  | other

def periphOf (w : Nat) : Periph :=
  if 0x0DB00000 ≤ w && w ≤ 0x0DB05FFF then .shadow (w % 0x10000 / 0x400) (w % 0x400 / 16) (w % 16 / 8)
  else if w = 0x0DB08000 then .commit
  else if 0x0DBF0100 ≤ w && w ≤ 0x0DBF01FF then (if w % 32 = 0 then .control (w % 0x10000 / 32) else .unused)
  else .other
/-- POST and DONE of a mailbox, as one word. -/
def State.controlWord (s : State) (mb : Nat) : Nat := (s.box mb).post % 2 ^ 32 + (s.box mb).doneLen % 2 ^ 32 * 2 ^ 32
/-- A write of POST, of DONE or of both; only 0 has an effect in DONE. -/
def State.controlWrite (mb o n v : Nat) (s : State) : State :=
  let s := if o < 4 then s.postWrite mb (v % 2 ^ 32) else s
  if 4 < o + n && v / 2 ^ 32 = 0 then s.doneWrite mb else s
/-- A granted access to the peripheral region. -/
def State.periphAccess (a : Access) (w o n data : Nat) (s : State) : State × WordEnd :=
  let old := match periphOf w with
    | .shadow g r h => ruleWord (s.gate.shadowRule g r) (2 * h) + ruleWord (s.gate.shadowRule g r) (2 * h + 1) * 2 ^ 32
    | .commit => (Config.freeWord s.free).toNat
    | .control mb => s.controlWord mb
    | _ => 0
  let write := a.op == .write || (a.op == .cas && old == a.expected % 2 ^ 64)
  let new := setBits old (8 * o) (8 * n) data
  let answer := if a.op == .write then 0 else if a.op == .cas then old else lanes old o n
  match periphOf w with
  | .shadow g r h => (if write then s.upGate (GateSt.setShadow g r h new) else s, .done answer)
  | .commit =>
    if 4 < o + n then (s, .device w)
    else if a.op == .write then (if s.gate.draining then s else s.upGate fun g => g.commit g.shadow, .done 0)
    else (s.useFree, .done answer)
  | .control mb => (if write then s.controlWrite mb o n new else s, .done answer)
  | .unused => (s, .done answer)
  | .other => (s, .device w)

def opCode : AccessOp → Nat | .read => 0 | .write => 1 | .cas => 2
/-- An access to one aligned word: decoder, gate, target. -/
def State.wordAccess (a : Access) (addr n data : Nat) (ecc : Ecc) (s : State) : State × WordEnd :=
  let w := addr / 8 * 8
  match gateOf addr with
  | none => (s.record 0x0103 [(8, addr), (1, a.master), (1, opCode a.op)], .busError)
  | some g =>
    match s.gateRefuses g addr a.master a.priv (a.op != .read) with
    | some (reason, rule) => (s.violation g addr a.master rule reason a.priv (a.op != .read) a.size, .busError)
    | none =>
      if g < 12 then s.memAccess a w (addr % 8) n data ecc
      else if g = 23 then s.periphAccess a w (addr % 8) n data
      else (s, .device addr)
/-- A whole access: one word, or two, the lower first (R271). -/
def State.access (a : Access) (s : State) : State × WordEnd :=
  let n := min a.size (8 - a.addr % 8)
  if a.op == .cas && (a.size != 8 || a.addr % 8 != 0) then (s, .busError)
  else if n = a.size then s.wordAccess a a.addr n (a.data % 2 ^ (8 * n)) a.ecc
  else
    match s.wordAccess a a.addr n (a.data % 2 ^ (8 * n)) a.ecc with
    | (s, .done lo) =>
      (match s.wordAccess { a with portA := none } (a.addr + n) (a.size - n) (a.data / 2 ^ (8 * n) % 2 ^ (8 * (a.size - n))) .clean with
       | (s, .done hi) => (s, .done (lo + hi * 2 ^ (8 * n)))
       | r => r)
    | r => r
/-- The access and its completion. -/
def State.fabric (a : Access) (s : State) : Host.Outcome State Fault Refusal :=
  match s.access a with
  | (s, .done d) => .next (s.emit (.access false d))
  | (s, .busError) => .next (s.emit (.access true 0))
  | (_, .device addr) => .refused (.deviceWindow addr)

/-! ## The debug link (12 R290–R292) -/

/-- An access of the debug port to one 32-bit word. -/
def debugAccess (op : AccessOp) (addr : Nat) (v : Word) : Access :=
  { master := 18, priv := false, op := op, addr := addr % 2 ^ 40, size := 4, data := v.toNat, expected := 0, ecc := .clean, portA := none }
/-- Words one after another, up to the first error; what was read so far. -/
def State.debugWords (op : AccessOp) : List (Nat × Word) → List Word → State → State × WordEnd × List Word
  | [], got, s => (s, .done 0, got)
  | (addr, v) :: ws, got, s =>
    match s.access (debugAccess op addr v) with
    | (s, .done d) => s.debugWords op ws (got ++ [BitVec.ofNat 32 d]) 
    | (s, e) => (s, e, [])
/-- The link hears requests while it is not held in reset. -/
def State.debugLink (s : State) : Bool := s.awake && !s.gate.linkReset
/-- A memory operation and its response: 3 after a bad CRC, 1 after a bus error. -/
def State.debugOp (op : AccessOp) (ws : List (Nat × Word)) (crcOk : Bool) (s : State) : Host.Outcome State Fault Refusal :=
  if !s.debugLink || ws.isEmpty || 256 < ws.length then .next s
  else if !crcOk then .next (s.emit (.debug 3 []))
  else match s.debugWords op ws [] with
    | (s, .done _, got) => .next (s.emit (.debug 0 (if op == .read then got else [])))
    | (s, .busError, _) => .next (s.emit (.debug 1 []))
    | (_, .device addr, _) => .refused (.deviceWindow addr)
/-- Halt or resume a core pair: only while debug is open. -/
def State.debugPair (n : Nat) (halt crcOk : Bool) (s : State) : State :=
  if !crcOk then s.emit (.debug 3 [])
  else if !s.gate.debugOpen then s.emit (.debug 2 [])
  else (s.setPair n fun c => { c with dbgHalted := halt }).emit (.debug 0 [])

/-! ## Scrub and Mower (12 R273, R275–R277) -/

/-- The scrubber reads a word: errors are counted under R272, uncorrectable ones are only logged. -/
def State.scrub (addr : Nat) (ecc : Ecc) (s : State) : State :=
  let w := addr / 8 * 8
  let s := if ecc == .double || s.mem.bad.contains w then s.uncorrectable w else if ecc == .single then s.corrected w else s
  if w = 0x0BFFFFF8 then s.upMower fun m => { m with lastScrubS := s.tb3s % 2 ^ 32 } else s
/-- The words that are scrubbed: main SRAM and DRAM. -/
def scrubbed (addr : Nat) : Bool := decide (addr ≤ 0x0BFFFFFF) || (decide (0x1000000000 ≤ addr) && decide (addr ≤ 0x13FFFFFFFF))
/-- No window of a bank is borrowed within 1 ms of an abandonment in it. -/
def State.bankFree (s : State) (bank : Nat) : Bool :=
  s.mower.windows.all fun e => e.1 != bank || decide (e.2.2.2 + usTicks 1000 ≤ s.time.now)
/-- Drop a window from the list of abandoned ones. -/
def dropWindow (bank window : Nat) (l : List (Nat × Nat × Nat × Nat)) : List (Nat × Nat × Nat × Nat) :=
  l.filter fun e => !(e.1 == bank && e.2.1 == window)
/-- A demand ends the window: counted, and retried 1 ms later; after 16 abandonments it is skipped for the pass. -/
def State.abandonWindow (bank window n : Nat) (s : State) : State :=
  s.upMower fun m =>
    if 16 ≤ n then { m with abandoned := inc32 m.abandoned, skipped := inc32 m.skipped, windows := dropWindow bank window m.windows }
    else { m with abandoned := inc32 m.abandoned, windows := (bank, window, n, s.time.now) :: dropWindow bank window m.windows }
/-- A fault in a transparent pass (R277). -/
def State.mowerFault (addr bit_ : Nat) (s : State) : State :=
  let s := s.upMower fun m => { m with fault := true, faults := inc32 m.faults, faultAddr := addr, faultBit := bit_, passClean := false }
  (s.proved 2 false).record 0x0802 [(8, addr), (1, bit_)]
/-- The end of a full pass: its instant, and MOWER_OK where it was clean. -/
def State.passOver (s : State) : State :=
  let clean := s.mower.passClean
  let s := s.upMower fun m => { m with lastPassS := s.tb3s % 2 ^ 32, passClean := true, windows := [] }
  if clean then s.proved 2 true else s
def State.mow (bank window : Nat) (demanded : Bool) (fault : Option (Nat × Nat)) (s : State) : State :=
  let s := if demanded then s.abandonWindow bank window 1
    else match fault with | some (addr, b) => s.mowerFault addr b | none => s
  if bank = 255 && window = 1535 then s.passOver else s
/-- The abandonments of a window whose retry is due. -/
def State.retryOf (s : State) (bank window : Nat) : Option Nat :=
  (s.mower.windows.find? fun e => e.1 == bank && e.2.1 == window && decide (e.2.2.2 + usTicks 1000 ≤ s.time.now)).map fun e => e.2.2.1
def State.retryWindow (bank window : Nat) (demanded : Bool) (s : State) : State :=
  match s.retryOf bank window with
  | none => s
  | some n => if demanded then s.abandonWindow bank window (n + 1) else s.upMower fun m => { m with windows := dropWindow bank window m.windows }

/-! ## Memory tests (12 R278) -/

/-- `test`: the job, whether it is destructive, and the bank, or none for all SRAM. -/
def memTestBody (r : Req) : State → State × Option (Nat × List Byte) :=
  let kind := field r.payload 0 1
  let one := field r.payload 1 1
  let bank := field r.payload 2 2
  guarded [need (fun _ => decide (kind < 2) && decide (one < 2) && decide (bank < 256)) stRange, reserved r.payload 4 4,
           need (fun s => kind == 0 || s.power.mode == 2) stState, need (fun s => s.mower.test.isNone) stBusy]
    (withJob 0x800 fun id s => s.upMower fun m => { m with test := some (id, kind == 1, if one = 1 then some bank else none) })
/-- The word at an address is among those that a destructive test covers: all main SRAM but steward working memory and the recorder
cache, or one bank of it. -/
def testCovers (bank : Option Nat) (a : Nat) : Bool :=
  decide (a ≤ 0x0BFFFFFF) && (decide (a < 0x09A00000) || decide (0x0ABFFFFF < a)) && (match bank with | some b => bits a 3 8 == b | none => true)
/-- A destructive test leaves the words it tested zero. -/
def Mem.tested (bank : Option Nat) (m : Mem) : Mem :=
  { cells := m.cells.filter fun c => !testCovers bank c.1, bad := m.bad.filter fun w => !testCovers bank w }
/-- The job ends with its 16-byte result: words or windows tested, faults, and the first fault's address and bit. -/
def State.endMemTest (tested faults addr bit_ : Nat) (s : State) : State :=
  match s.mower.test with
  | none => s
  | some (id, destructive, bank) =>
    let s := (s.upMower fun m => { m with test := none }).endJob id stOk (leBytes 4 tested ++ leBytes 4 faults ++ leBytes 4 addr ++ leBytes 1 bit_ ++ zeroBytes 3)
    if destructive then
      let s := s.upMem (Mem.tested bank)
      s.upSched fun q => { q with used := q.used.filter fun n => (s.entry n).state != 0 }
    else
      let s := if faults = 0 then s else (s.mowerFault addr bit_).upMower fun m => { m with faults := add32 m.faults (faults - 1), passClean := s.mower.passClean }
      if bank.isNone then
        let s := s.upMower fun m => { m with lastPassS := s.tb3s % 2 ^ 32 }
        if faults = 0 then s.proved 2 true else s
      else s

/-! ## The meanings -/

/-- FABRIC_ACCESS (12 R270–R272, R281). -/
def execFabricAccess (t : Nat) (a : Access) (s : State) : Host.Outcome State Fault Refusal :=
  if (s.arrive t).awake then (s.arrive t).fabric a else .next (s.arrive t)
/-- DEBUG_READ_WORDS (12 R290). -/
def execDebugReadWords (t addr count : Nat) (crcOk : Bool) (s : State) : Host.Outcome State Fault Refusal :=
  (s.arrive t).debugOp .read ((List.range (min count 257)).map fun i => (addr + 4 * i, 0#32)) crcOk
/-- DEBUG_WRITE_WORDS (12 R290). -/
def execDebugWriteWords (t addr : Nat) (words : List Word) (crcOk : Bool) (s : State) : Host.Outcome State Fault Refusal :=
  (s.arrive t).debugOp .write (mapFrom (fun i p => (addr + 4 * i, p.2)) 0 (words.map fun w => (0, w))) crcOk
def execDebugHaltCorePair (t pair : Nat) (crcOk : Bool) (s : State) : Host.Outcome State Fault Refusal :=
  happens t s (fun s => s.debugLink && decide (pair < 8)) (State.debugPair pair true crcOk)
def execDebugResumeCorePair (t pair : Nat) (crcOk : Bool) (s : State) : Host.Outcome State Fault Refusal :=
  happens t s (fun s => s.debugLink && decide (pair < 8)) (State.debugPair pair false crcOk)
/-- DBG_RST_N (12 R290): resets the link and nothing else. -/
def execDbgRstN (t : Nat) (low : Bool) (s : State) : Host.Outcome State Fault Refusal :=
  happens t s (fun _ => true) fun s => s.upGate fun g => { g with linkReset := low }
/-- SCRUB_VISIT (12 R273). -/
def execScrubVisit (t addr : Nat) (ecc : Ecc) (s : State) : Host.Outcome State Fault Refusal :=
  happens t s (fun s => s.awake && scrubbed addr) (State.scrub addr ecc)
/-- MOWER_WINDOW (12 R275–R277). -/
def execMowerWindow (t bank window : Nat) (demanded : Bool) (fault : Option (Nat × Nat)) (s : State) : Host.Outcome State Fault Refusal :=
  happens t s (fun s => s.awake && s.power.mode != 1 && s.bankFree bank) (State.mow bank window demanded fault)
/-- WINDOW_ABANDONED_RETRY (12 R276). -/
def execWindowAbandonedRetry (t bank window : Nat) (demanded : Bool) (s : State) : Host.Outcome State Fault Refusal :=
  happens t s State.awake (State.retryWindow bank window demanded)
/-- MEM_TEST (12 R278). -/
def execMemTest (t : Nat) (r : Req) (s : State) : Host.Outcome State Fault Refusal :=
  happens t s State.awake (State.run (plainCmd 0x800 3 8) r (memTestBody r))
def execMemTestJobEnd (t tested faults addr bit : Nat) (s : State) : Host.Outcome State Fault Refusal :=
  happens t s State.awake (State.endMemTest tested faults addr bit)

end Sys2Proof.Machine
end

