-- ==== Sys2Proof/Machine/Power.lean ====
section
/-! DEFINITION. Supplies, retire and SLEEP, the contacts, tamper, the clock check and the watchdog (08 R184–R196; 01 R9–R12). -/

namespace Sys2Proof.Machine

/-! ## Retire (08 R191, R192; 18 R388) -/

/-- A start decision in progress stops: no wait, no term window, no claim. -/
def State.cancelStart (s : State) : State :=
  if s.pair.owner then s
  else ((s.upBoot fun b => { b with waiting := false }).upPair fun p => { p with termOpen := false }).dropClaim
/-- The lines of the retire image, and after them the icons (18 R388). Line 1 reads RETIRED with the role. -/
def State.retireLines (reason : Nat) (s : State) : List (List Byte) :=
  let when_ := if s.tb0Valid then fullStamp (s.fine 0) ++ leBytes 4 (unsignedOf 32 s.time.utcOffset) else leBytes 5 s.opSeconds
  (List.range 8).map (fun n =>
    if n = 1 then ascii "RETIRED" ++ leBytes 1 (b2n s.pair.owner) ++ leBytes 1 s.power.mode ++ leBytes 4 s.pair.term
    else if n = 4 then leBytes 1 reason else if n = 7 then when_ else s.renderLine n) ++ [leBytes 2 (s.icons % 2048 + 2048)]
/-- What becomes of the role at r0. -/
def State.layDown (owner synced : Bool) (s : State) : State :=
  if owner && synced then s.giveUp
  else if owner then
    let s := ((s.announce 2).upDio fun d => { d with retireSafe := true }).upUa fun u => { u with retireSafe := true }
    (s.dioToSafe.uaToSafe.emit .safeStates).giveUp
  else
    let s := s.cancelStart
    if (s.power.mode = 3 || s.power.mode = 4) && !s.swathSilent then s.emit (.swath .retiring) else s
/-- r0 of a retire; a second trigger changes nothing. -/
def State.beginRetire (reason : Nat) (s : State) : State :=
  if s.boot.retiring then s
  else
    let owner := s.pair.owner
    let synced := s.twinSynced
    let lines := s.retireLines reason
    let s := s.upPower fun p => { p with retires := inc32 p.retires, retireReason := reason, riding := false }
    let s := s.upBoot fun b =>
      { b with retiring := true, retireAt := s.time.now, retireRole := s.power.mode, retirePending := none, committed := false }
    let s := s.upDisp fun d =>
      { d with frozenLines := lines, retireSkipped := false, retireImage := false, updating := if d.updating = 1 then 2 else d.updating }
    (s.abandonArmed stState).layDown owner synced
/-- Core pairs, plant MACs and DRAM are switched off. -/
def State.switchOff (s : State) : State :=
  ((s.upBoot fun b => { b with coresOff := true }).upMem fun m => memClear m 0x1000000000 0x13FFFFFFFF).upSfp (List.map fun x => { x with linkUp := false })
/-- The commit writes: term, TB3 and TB0 − TB3, counters; then the recorder flush with the retire record. -/
def State.commitWrites (s : State) : State :=
  let s := ((s.upPair fun p => { p with storedTerm := p.term }).saveTb3).upDisp fun d => { d with storedLedgers := d.ledgers }
  ((s.record 0x1001 [(1, s.power.retireReason)]).flushRecords).upBoot fun b => { b with committed := true }
/-- The retire image as a full refresh, or its omission. -/
def State.retireRefresh (mj : Nat) (s : State) : State :=
  let s := s.upPower fun p => { p with holdupMj := mj }
  if 8500 ≤ mj && !s.disp.frozen && s.disp.panelOk then
    let lines := s.disp.frozenLines
    ((s.upDisp fun d =>
      { d with retireImage := true, shown := lines.take 8, segments := field (lines.getD 8 []) 0 2, updating := 1, lastStart := some s.time.now,
               updates := inc32 d.updates, fulls := inc32 d.fulls, partials := 0, fullPending := false, lastFullBand := d.band,
               ledgers := driveIcons s.free 0xFFF d.ledgers }).emit (.waveform 1 0 (fullMs s.disp.band))).useFree
  else s.upDisp fun d => { d with retireSkipped := true }
/-- The retire wakes at once (08 R187): its supply or its ejector is back. -/
def State.wakesAtOnce (s : State) : Bool :=
  s.power.mainGood && (s.power.retireReason == 1 || s.power.retireReason == 5 || (s.power.retireReason == 2 && !s.power.ejectOpen))
/-- The retire ends in SLEEP, and in a wake where its cause has gone. -/
def State.endRetire (s : State) : State :=
  let s := (s.endAllSessions.upPair fun p => { p with owner := false }).goMode 8 0
  let s := if s.boot.committed then s.flushRecords else s
  let s := s.upPower fun p => { p with operatingBase := s.opSeconds, operatingFrom := s.tb3s }
  let s := s.upBoot fun b => { b with retiring := false, lingKept := true, sleepAt := s.tb3s, wakeDue := false }
  if s.wakesAtOnce then s.wake else s

/-! ## Supplies (08 R184–R190) -/

/-- A reading of 24V_MAIN. -/
def PowerSt.readMain (mv : Nat) (p : PowerSt) : PowerSt :=
  { p with mainMv := mv, maxMv := max p.maxMv mv, minMv := if p.mainGood then min p.minMv mv else p.minMv }
/-- Power-good is set (08 R184): counted; it starts BOOT from an unpowered module, and is a wake event in SLEEP. -/
def State.powerUp (mv : Nat) (s : State) : State :=
  let s := s.upPower fun p => { p with mainGood := true, presentN := true, powerCycles := inc32 p.powerCycles }
  let s := s.upPower (PowerSt.readMain mv)
  if s.power.mode = 8 then (if s.boot.lingKept then s.upBoot fun b => { b with wakeDue := true } else s.startBoot 0 0 false)
  else if s.boot.stopped then s.startBoot 0 0 false
  else s
/-- Power-good is lost: BOOT stops, and elsewhere the dip begins (08 R185, R190). -/
def State.losePower (mv : Nat) (s : State) : State :=
  let s := s.upPower fun p => { p with mainGood := false, mainMv := mv }
  if s.power.mode = 1 then s.bootStops
  else if s.power.mode = 8 || s.boot.retiring then s
  else s.upPower fun p => { p with riding := true, dipAt := s.time.now }
/-- The dip ends before the retire (08 R190). -/
def State.endDip (mv : Nat) (s : State) : State :=
  ((s.upPower fun p => { p with riding := false, mainGood := true, rideThroughs := inc32 p.rideThroughs }).upPower (PowerSt.readMain mv)).record 0x1002 []
/-- PRESENT_N breaks (08 R195). -/
def State.unplug (s : State) : State :=
  let s := s.upPower fun p => { p with presentN := false, mainGood := false }
  if s.power.mode = 1 then s.bootStops else if s.power.mode = 8 then s else s.beginRetire 5
/-- Full-energy thresholds (08 R193): flags, with a record for each one newly set. -/
def State.measureHoldup (fullMj nowMj : Nat) (s : State) : State :=
  let old := s.power
  let s := s.upPower fun p =>
    { p with fullMj := fullMj, holdupMj := nowMj, noUpdate := decide (fullMj < 32000), worn := decide (fullMj < 24000),
             insufficient := decide (fullMj < 20000), below32 := decide (nowMj < 32000), holdupTestS := s.tb3s }
  let note (was is : Bool) (type : Nat) (s : State) : State := if is && !was then s.record type [(2, fullMj)] else s
  note old.insufficient s.power.insufficient 0x1004 (note old.worn s.power.worn 0x1004 (note old.noUpdate s.power.noUpdate 0x1000 s))

/-! ## Contacts (08 R194–R196) -/

/-- EJECT_N opens (08 R194; 07 R168). -/
def State.eject (s : State) : State :=
  let s := s.upPower fun p => { p with ejectOpen := true }
  if !s.awake then s
  else if s.pair.owner && s.twinSynced && !s.boot.retiring then
    ((s.dropHandover stState).armHandover 4 (s.nextT0 0 (s.tb0 + 1000000)) 0).upBoot fun b => { b with retirePending := some 2 }
  else s.beginRetire 2
/-- SAFE_N is asserted (08 R196). -/
def State.assertSafe (s : State) : State :=
  let s := s.upPower fun p => { p with safeN := true, safeEvents := inc32 p.safeEvents }
  if !s.awake then s
  else
    let s := s.record 0x1003 []
    if s.driving then s.dioToSafe.uaToSafe.emit .safeStates else s
/-- PEER_PRESENT_N changes (08 R195; 15 R335): current inputs deliver nothing for 10 ms. -/
def State.peerChanges (present : Bool) (s : State) : State :=
  let s := s.upPair fun p => { p with peerPresent := present }
  let s := s.upUa fun u =>
    { u with ch := mapFrom (fun n c => if s.uaMode n = 2 || s.uaMode n = 3 then { c with quietUntil := s.time.now + usTicks 10000 } else c) 0 u.ch }
  if present then s else s.upCfg fun c => { c with checkedTwin := false }

/-! ## Tamper and clocks (01 R11, R12; 08 R188; 12 R287) -/

def tamperCode : Tamper → Nat | .intrusion => 1 | .voltage => 2 | .temperature => 3 | .clock => 4
/-- The die is without power: SLEEP, or a BOOT that a loss of power-good stopped. -/
def State.unpowered (s : State) : Bool := s.power.mode == 8 || s.boot.stopped
/-- A tamper event. It is latched while the die is off; else the partition is wiped, the claim drops and control stops. -/
def State.tampered (k : Nat) (s : State) : State :=
  if s.unpowered then (if s.boot.lingKept then s.upBoot fun b => { b with tamperLatched := some k } else s)
  else
    let s := s.dropClaim.tamperWipe k
    if s.power.mode = 1 || s.boot.retiring then s.stayMode 4
    else if s.power.mode = 2 then
      let s := s.stayMode 4
      if s.sec.lifecycle = 0 then s.openDebug none else s
    else s.cancelStart.safeHold 4
/-- A window of 1,024 ling ticks holds 12,500,000 cycles of CD_STW; two in a row beyond ±2,000 ppm are a clock tamper. -/
def State.clockWindow (cycles : Nat) (s : State) : State :=
  let bad := decide (12525000 < cycles) || decide (cycles < 12475000)
  if !bad then s.upBoot fun b => { b with clockBad := 0 }
  else if s.boot.clockBad + 1 < 2 then s.upBoot fun b => { b with clockBad := b.clockBad + 1 }
  else (s.upBoot fun b => { b with clockBad := 0 }).tampered 4

/-! ## The watchdog (01 R9) -/

/-- The steward runs: past its step of BOOT. -/
def State.stewardUp (s : State) : Bool := s.awake && (s.power.mode != 1 || decide (2 ≤ s.boot.step))
/-- A service; a steward that runs again records the expiry before it. -/
def State.service (s : State) : State :=
  let s := s.upBoot fun b => { b with watchdogAt := s.time.now }
  match s.boot.watchdogRecord with
  | some at_ => (s.record 0x0104 [(8, at_)]).upBoot fun b => { b with watchdogRecord := none }
  | none => s
/-- 50 ms without service: the claim drops, the steward is reset, which is a further start of its boot ROM (13 R305), and the mode
follows Table 8.2. -/
def State.watchdogFires (s : State) : State :=
  let s := s.dropClaim.upBoot fun b => { b with hung := false, watchdogAt := s.time.now, watchdogRecord := some s.tb3ns }
  let s := s.upSheaf fun h => { h with healthBroken := true, healthPassed := false }
  if s.power.mode = 1 then s.startBoot 2 3 s.power.released
  else
    let s := if s.boot.retiring then s else if s.power.mode = 2 then s.stayMode 3 else s.cancelStart.safeHold 3
    let s := s.trialBoot
    s.upSheaf fun h => { h with healthBroken := true, healthPassed := false }

/-! ## The meanings -/

/-- WATCHDOG_SERVICE (01 R9): not by a steward that an uncorrectable read stopped (12 R272). -/
def execWatchdogService (t : Nat) (s : State) : Host.Outcome State Fault Refusal :=
  happens t s (fun s => s.stewardUp && !s.boot.hung) State.service
def execWatchdogExpiry (t : Nat) (s : State) : Host.Outcome State Fault Refusal :=
  happens t s (fun s => s.stewardUp && decide (s.boot.watchdogAt + usTicks 50000 ≤ s.time.now)) State.watchdogFires
/-- PLL_LOSS_OF_LOCK (01 R11). -/
def execPllLossOfLock (t : Nat) (s : State) : Host.Outcome State Fault Refusal :=
  happens t s (fun s => !s.unpowered) (State.tampered 4)
def execClockCheckWindow (t stwCycles : Nat) (s : State) : Host.Outcome State Fault Refusal :=
  happens t s (fun s => !s.unpowered) (State.clockWindow stwCycles)
/-- TAMPER (08 R188). -/
def execTamper (t : Nat) (k : Tamper) (s : State) : Host.Outcome State Fault Refusal :=
  happens t s (fun _ => true) (State.tampered (tamperCode k))
def execPowerGood (t mv : Nat) (s : State) : Host.Outcome State Fault Refusal := happens t s (fun s => !s.power.mainGood) (State.powerUp mv)
def execDip (t mv : Nat) (s : State) : Host.Outcome State Fault Refusal := happens t s (fun s => s.power.mainGood) (State.losePower mv)
/-- RIDE_THROUGH_END (08 R190). -/
def execRideThroughEnd (t mv : Nat) (s : State) : Host.Outcome State Fault Refusal :=
  happens t s (fun s => s.power.riding && !s.boot.retiring) (State.endDip mv)
def execAuxGoodChange (t : Nat) (rising : Bool) (mv : Nat) (s : State) : Host.Outcome State Fault Refusal :=
  happens t s (fun _ => true) fun s => s.upPower fun p => { p with auxGood := rising, auxMv := mv }
/-- OVER_TEMPERATURE (08 R188). -/
def execOverTemperature (t : Nat) (tenths : Int) (s : State) : Host.Outcome State Fault Refusal :=
  happens t s State.awake fun s => (s.upPower fun p => { p with boardTemp := tenths }).beginRetire 4
/-- LING_CELL_LOW (08 R189). -/
def execLingCellLow (t mv : Nat) (s : State) : Host.Outcome State Fault Refusal :=
  happens t s (fun s => !s.power.lingLow) fun s =>
    let s := s.upPower fun p => { p with lingLow := true, lingMv := mv }
    if s.awake then s.record 0x1000 [(2, mv)] else s
/-- LING_CELL_EMPTY (08 R189): without supply. -/
def execLingCellEmpty (t : Nat) (s : State) : Host.Outcome State Fault Refusal :=
  happens t s (fun s => s.unpowered && !s.power.mainGood && !s.power.auxGood) fun s =>
    (s.upBoot fun b => { b with lingKept := false, tamperLatched := none, wakeDue := false }).upSec fun c => { c with latch := c.lifecycle }
def execPresentNBreak (t : Nat) (s : State) : Host.Outcome State Fault Refusal := happens t s (fun s => s.power.presentN) State.unplug
def execEjectNOpen (t : Nat) (s : State) : Host.Outcome State Fault Refusal := happens t s (fun s => !s.power.ejectOpen) State.eject
/-- EJECT_N_CLOSE (08 R187): a wake event in SLEEP while power-good holds. -/
def execEjectNClose (t : Nat) (s : State) : Host.Outcome State Fault Refusal :=
  happens t s (fun s => s.power.ejectOpen) fun s =>
    (s.upPower fun p => { p with ejectOpen := false }).upBoot fun b => { b with wakeDue := b.wakeDue || (s.power.mode == 8 && s.power.mainGood) }
def execSafeNAssert (t : Nat) (s : State) : Host.Outcome State Fault Refusal := happens t s (fun s => !s.power.safeN) State.assertSafe
/-- SAFE_N_RELEASE (08 R196). -/
def execSafeNRelease (t : Nat) (s : State) : Host.Outcome State Fault Refusal :=
  happens t s (fun s => s.power.safeN) fun s => s.upPower fun p => { p with safeN := false }
def execPeerPresentNChange (t : Nat) (present : Bool) (s : State) : Host.Outcome State Fault Refusal :=
  happens t s (fun s => s.pair.peerPresent != present) (State.peerChanges present)
/-- WAKE_EVENT (08 R186, R187). -/
def execWakeEvent (t holdupMj : Nat) (s : State) : Host.Outcome State Fault Refusal :=
  happens t s (fun s => s.power.mode == 8 && s.boot.wakeDue && s.power.mainGood) fun s => (s.upPower fun p => { p with holdupMj := holdupMj }).wake
/-- WAKE_DELAY_EXPIRY (08 R181, R187). -/
def execWakeDelayExpiry (t holdupMj : Nat) (s : State) : Host.Outcome State Fault Refusal :=
  happens t s (fun s => s.power.mode == 8 && s.power.retireReason == 3 && s.power.wakeDelay != 0 && s.power.mainGood &&
    decide (s.boot.sleepAt + s.power.wakeDelay ≤ s.tb3s)) fun s => (s.upPower fun p => { p with holdupMj := holdupMj }).wake
/-- RETIRE_START (08 R190, R191): after a dip, or the handover of an ejection. -/
def execRetireStart (t : Nat) (s : State) : Host.Outcome State Fault Refusal :=
  happens t s (fun s => s.awake && (s.power.riding || s.boot.retirePending.isSome)) fun s => s.beginRetire (s.boot.retirePending.getD 1)
def execRetireSwitchOff (t : Nat) (s : State) : Host.Outcome State Fault Refusal :=
  happens t s (fun s => s.boot.retiring && !s.boot.coresOff && decide (s.boot.retireAt + usTicks 5000 ≤ s.time.now)) State.switchOff
def execRetireCommitWrites (t : Nat) (s : State) : Host.Outcome State Fault Refusal :=
  happens t s (fun s => s.boot.retiring && s.boot.coresOff && !s.boot.committed) State.commitWrites
/-- RETIRE_IMAGE (18 R388; 08 R192): from r0 + 0.5 s. -/
def execRetireImage (t holdupMj : Nat) (s : State) : Host.Outcome State Fault Refusal :=
  happens t s (fun s => s.boot.retiring && !s.disp.retireImage && !s.disp.retireSkipped && decide (s.boot.retireAt + usTicks 500000 ≤ s.time.now))
    (State.retireRefresh holdupMj)
def execRetireEnd (t : Nat) (s : State) : Host.Outcome State Fault Refusal :=
  happens t s (fun s => s.boot.retiring && s.boot.coresOff) State.endRetire
/-- HOLDUP_MEASUREMENT (08 R193): every 24 h of TB3. -/
def execHoldupMeasurement (t fullMj nowMj : Nat) (s : State) : Host.Outcome State Fault Refusal :=
  happens t s (fun s => s.awake && s.power.mainGood && decide (s.power.holdupTestS + 86400 ≤ s.tb3s)) (State.measureHoldup fullMj nowMj)

end Sys2Proof.Machine
end

