-- ==== Sys2Proof/Machine/Start.lean ====
section
/-! DEFINITION. Mode requests, the end of a handover and of a diagnosis, and the events that can let a start decision run again
(08 R181, Table 8.2; 07 R147–R168; 09 R207–R209; 06 R122, R125; 19 R400). -/

namespace Sys2Proof.Machine

/-! ## Mode requests (08 R181 Table 8.4) -/

/-- The role: OWNER for SAFE HOLD in PRIMARY and SOLO. -/
def modeRole (target mode : Nat) : Nat := if target = 7 && (mode == 5 || mode == 6) then 4 else 3
def modeTargets : List Nat := [1, 2, 5, 7, 8]
/-- The modes of Table 8.4. No request moves a module that retires. -/
def State.modeAccepted (target : Nat) (s : State) : Bool :=
  let m := s.power.mode
  !s.boot.retiring && match target with
    | 1 | 2 => m == 2 || m == 3 || m == 4 || m == 7
    | 5 => m == 2 || (m == 7 && s.power.reason == 8) || m == 5 || m == 6
    | 7 => m != 2
    | _ => m == 2 || m == 7
/-- A `CFG_STAGE`, `CFG_CHECK` or Sheaf job runs. -/
def State.jobHolds (s : State) : Bool := s.cfg.job.isSome || s.sheaf.st == 3 || s.sheaf.st == 5
def modeBody (r : Req) : State → State × Option (Nat × List Byte) :=
  let target := field r.payload 0 1
  guarded [need (fun _ => modeTargets.contains target) stRange, reserved r.payload 1 3, need (State.modeAccepted target) stState,
           need (fun s => !(s.jobHolds && (target == 1 || target == 2 || target == 8))) stBusy] (reply stOk [])
/-- MAINTENANCE on request: the latch is set, and the module leaves its part in the pair. -/
def State.enterMaintenance (s : State) : State :=
  let s := s.upPower fun p => { p with latch := true }
  if s.power.mode = 2 then s
  else
    let s := ((s.abandonArmed stState).cancelStart).maintain 1
    s.upPair fun p => { p with synced := false, isolated := false, copyDone := false, yielded := false, homeArmed := false, twinHomeArmed := false }
/-- The start that SAFE HOLD holds is released; a decision in progress goes on. -/
def State.releaseStart (s : State) : State :=
  if s.boot.waiting || s.pair.termOpen || s.pair.ownClaim then s else (s.upPower fun p => { p with released := true }).decide5
/-- The effect of an accepted target, after its response. -/
def State.requestMode (target delay : Nat) (s : State) : State :=
  match target with
  | 1 => s.restart 1 false
  | 2 => s.enterMaintenance
  | 5 =>
    if s.power.mode = 2 then (s.upPower fun p => { p with latch := false }).restart 1 true
    else if s.power.mode = 7 then s.releaseStart else s
  | 7 => if s.power.mode = 7 then s else s.safeHold 1
  | _ => (s.upPower fun p => { p with wakeDelay := delay }).beginRetire 3

/-! ## The end of a handover on the old owner (07 R167, R168, R175; 13 R308) -/

/-- The handover is over: th + P_A has passed, and the twin claims. -/
def State.handoverDone (s : State) : Bool :=
  s.power.mode == 5 && !s.pair.owner && s.pair.twinClaim &&
    (match s.pair.armed with | some h => decide (h.th + s.periodNs 0 ≤ s.tb0) | none => false)
/-- STANDBY without SYNCING: synchronised, its bases following the twin's without a step (06 R133). -/
def State.becomeStandby (s : State) : State :=
  match s.pair.armed with
  | none => s
  | some h =>
    let s := s.endJob h.job stOk []
    let s := s.upPair fun p =>
      { p with armed := none, homeArmed := false, twinHomeArmed := false, synced := true, isolated := false, yielded := false, copyDone := true,
               settleFrom := s.time.now, provingFrom := if h.kind = 2 then some s.tb3s else none }
    let s := s.baseTo 0 7
    let s := (if s.conf.time.domain1 = 0xFF then s else s.baseTo 1 7).goMode 4 0
    if h.kind = 4 then s.beginRetire 2 else if h.kind = 5 then s.restart 0 false else s

/-! ## The end of a diagnosis (09 R207–R209) -/

/-- The first row of Table 9.3 that holds. -/
def faultClass (kind : Nat) (retestOk scanOk lbistOk cacheError : Bool) : Nat :=
  if kind != 1 || !retestOk then 3 else if !scanOk then 2 else if !lbistOk || cacheError then 1 else 4
/-- The pair is classified, recorded and disabled; the module restarts where its placement still fits. -/
def State.diagnosed (n : Nat) (retestOk scanOk lbistOk cacheError : Bool) (s : State) : State :=
  let c := s.corePair n
  let cls := faultClass c.kindAtFault retestOk scanOk lbistOk cacheError
  let again := cls == 4 && c.unknowns.any fun a => decide (s.tb3s ≤ a + 2592000)
  let s := s.upLock fun l => { l with lbistRuns := inc32 l.lbistRuns, lbistFails := if lbistOk then l.lbistFails else inc32 l.lbistFails }
  let s := s.setPair n fun c =>
    { c with kindAtFault := 0, lbistOk := lbistOk, lbistAt := if lbistOk then s.tb3s else c.lbistAt, permanent := c.permanent || again,
             unknowns := if cls = 4 then s.tb3s :: c.unknowns else c.unknowns }
  let s := (s.record 0x0701 [(1, n), (1, c.lastGroup), (1, cls)]).disablePair n cls
  if s.power.mode = 7 && !s.boot.retiring && (s.placementFor s.lock.disabled).isSome then s.restart 2 false else s

/-! ## Links and claims that bear on a start -/

/-- A plant link came or went: the best master selection runs (06 R125). -/
def State.relink (before s : State) : State :=
  if before.sfp.map (fun x => x.linkUp) = s.sfp.map (fun x => x.linkUp) || !s.timeRuns then s else ((s.select 0).select 1).startAgain
def State.changeSfp (port : Nat) (f : SfpSt → SfpSt) (s : State) : State := s.relink (s.upSfp fun l => setAt l port f)

/-! ## The meanings -/

def execModeRequest (t : Nat) (r : Req) (s : State) : Host.Outcome State Fault Refusal :=
  happens t s State.awake fun s =>
    match s.serve (plainCmd 0x101 (modeRole (field r.payload 0 1) s.power.mode) 8) r (modeBody r) with
    | (s, some st) => if st = stOk then s.requestMode (field r.payload 0 1) (field r.payload 4 4) else s
    | (s, none) => s
/-- HANDOVER_STANDBY_ENTRY (07 R167). -/
def execHandoverStandbyEntry (t : Nat) (s : State) : Host.Outcome State Fault Refusal := happens t s State.handoverDone State.becomeStandby
/-- LOCKSTEP_DIAGNOSIS_END (09 R208). -/
def execLockstepDiagnosisEnd (t cp : Nat) (retestOk scanOk lbistOk cacheError : Bool) (s : State) : Host.Outcome State Fault Refusal :=
  happens t s (fun s => s.awake && (s.corePair cp).halted && (s.corePair cp).kindAtFault != 0) (State.diagnosed cp retestOk scanOk lbistOk cacheError)
/-- SYNC (06 R122): a valid TB0 can let a start go on. -/
def execSync (t : Nat) (m : SyncMsg) (s : State) : Host.Outcome State Fault Refusal :=
  happens t s State.timeRuns fun s => (s.hearSync m).startAgain
def execSyncReceiptTimeout (t base : Nat) (s : State) : Host.Outcome State Fault Refusal :=
  happens t s (fun s => s.timeRuns && decide (base < 2)) fun s => (s.syncLost base).startAgain
def execAnnounceReceiptTimeout (t base : Nat) (s : State) : Host.Outcome State Fault Refusal :=
  happens t s (fun s => s.timeRuns && decide (base < 2)) fun s => (s.loseGm base).startAgain
/-- GPTP_ANNOUNCE (06 R125). -/
def execGptpAnnounce (t : Nat) (m : AnnounceMsg) (s : State) : Host.Outcome State Fault Refusal :=
  happens t s State.timeRuns fun s => (s.hearAnnounce m).startAgain
/-- PDELAY_EXCHANGE (06 R125). -/
def execPdelayExchange (t port : Nat) (e : PdelayEvent) (s : State) : Host.Outcome State Fault Refusal :=
  happens t s State.timeRuns fun s => (s.pdelay port e).startAgain
/-- TWIN_CLAIM_BEGIN (07 R147): a tie at the start is decided again from step 5 (08 R183). -/
def execTwinClaimBegin (t : Nat) (malformed : Bool) (s : State) : Host.Outcome State Fault Refusal :=
  happens t s State.awake fun s => State.afterTie s (s.twinClaims malformed)
/-- TWIN_CLAIM_ABSENT (07 R147): the last edge was 15 µs ago. -/
def execTwinClaimAbsent (t : Nat) (malformed : Bool) (s : State) : Host.Outcome State Fault Refusal :=
  happens t s State.awake fun s => ((s.hedgeIn malformed).twinAbsent (s.time.now - usTicks 15)).startAgain
/-- RELEASE_PATTERN (07 R147). -/
def execReleasePattern (t : Nat) (malformed : Bool) (s : State) : Host.Outcome State Fault Refusal :=
  happens t s State.awake fun s => ((s.hedgeIn malformed).released).startAgain
/-- LANE_DOWN (07 R152). -/
def execLaneDown (t lane : Nat) (s : State) : Host.Outcome State Fault Refusal :=
  happens t s (fun s => s.awake && decide (lane < 2)) fun s => (s.laneDown lane).startAgain
/-- YIELD (07 R151): the term it names is the twin's, and the new owner's own counts (R159). -/
def execYield (t _term : Nat) (s : State) : Host.Outcome State Fault Refusal := happens t s State.awake fun s => s.hearYield.startAgain
/-- SWATH_LOOPBACK (07 R172). -/
def execSwathLoopback (t lane : Nat) (passed : Bool) (s : State) : Host.Outcome State Fault Refusal :=
  happens t s (fun s => (s.power.mode == 3 || s.power.mode == 4) && decide (lane < 2)) fun s => (s.loopback lane passed).startAgain
/-- TRANSCEIVER_INSERTION (19 R400). -/
def execTransceiverInsertion (t port : Nat) (id : SfpId) (s : State) : Host.Outcome State Fault Refusal :=
  happens t s (fun s => s.awake && !s.boot.coresOff) fun s => s.changeSfp port (SfpSt.insert (s.pmd port) id)
def execTransceiverMonitor (t port : Nat) (highAlarm : Bool) (s : State) : Host.Outcome State Fault Refusal :=
  happens t s (fun s => s.awake && !s.boot.coresOff) fun s => s.changeSfp port (SfpSt.monitor s.time.now highAlarm)
def execLinkReturn (t port : Nat) (s : State) : Host.Outcome State Fault Refusal :=
  happens t s (fun s => s.awake && !s.boot.coresOff) fun s => s.changeSfp port (SfpSt.return (s.pmd port) s.time.now)

end Sys2Proof.Machine
end

