-- ==== Sys2Proof/Machine/Dispatch.lean ====
section
/-! DEFINITION. One arm per command: its meaning, or its rejection by name. -/

namespace Sys2Proof.Machine

/-- The effect of a command on everything but the queue. -/
def exec (i : Instr) (s : State) : Host.Outcome State Fault Refusal :=
  match i with
  | .identify t r => Sys2Proof.Machine.execIdentify t r s
  | .sessionOpen t r => Sys2Proof.Machine.execSessionOpen t r s
  | .sessionClose t r => Sys2Proof.Machine.execSessionClose t r s
  | .jobStatus t r => Sys2Proof.Machine.execJobStatus t r s
  | .modeGet t r => Sys2Proof.Machine.execModeGet t r s
  | .modeRequest t r => Sys2Proof.Machine.execModeRequest t r s
  | .pairStatus t r => Sys2Proof.Machine.execPairStatus t r s
  | .pairHandover t r => Sys2Proof.Machine.execPairHandover t r s
  | .paramRead t r => Sys2Proof.Machine.execParamRead t r s
  | .paramWrite t r => Sys2Proof.Machine.execParamWrite t r s
  | .pointRead t r => Sys2Proof.Machine.execPointRead t r s
  | .pointForce t r => Sys2Proof.Machine.execPointForce t r s
  | .pointRelease t r => Sys2Proof.Machine.execPointRelease t r s
  | .pointBrowse t r => Sys2Proof.Machine.execPointBrowse t r s
  | .cfgStage t r => Sys2Proof.Machine.execCfgStage t r s
  | .cfgStageJobEnd t => Sys2Proof.Machine.execCfgStageJobEnd t s
  | .cfgCheck t r => Sys2Proof.Machine.execCfgCheck t r s
  | .cfgCheckJobEnd t => Sys2Proof.Machine.execCfgCheckJobEnd t s
  | .cfgFlip t r => Sys2Proof.Machine.execCfgFlip t r s
  | .cfgRevert t r => Sys2Proof.Machine.execCfgRevert t r s
  | .cfgList t r => Sys2Proof.Machine.execCfgList t r s
  | .sheafLoad t r => Sys2Proof.Machine.execSheafLoad t r s
  | .sheafVerify t r => Sys2Proof.Machine.execSheafVerify t r s
  | .sheafVerifyJobEnd t => Sys2Proof.Machine.execSheafVerifyJobEnd t s
  | .sheafActivate t r => Sys2Proof.Machine.execSheafActivate t r s
  | .sheafConfirm t r => Sys2Proof.Machine.execSheafConfirm t r s
  | .sheafStatus t r => Sys2Proof.Machine.execSheafStatus t r s
  | .sheafAbandon t r => Sys2Proof.Machine.execSheafAbandon t r s
  | .timeStatus t r => Sys2Proof.Machine.execTimeStatus t r s
  | .timeStep t r => Sys2Proof.Machine.execTimeStep t r s
  | .recOpen t r => Sys2Proof.Machine.execRecOpen t r s
  | .recRead t r => Sys2Proof.Machine.execRecRead t r s
  | .recClose t r => Sys2Proof.Machine.execRecClose t r s
  | .recMark t r => Sys2Proof.Machine.execRecMark t r s
  | .memTest t r => Sys2Proof.Machine.execMemTest t r s
  | .memTestJobEnd t tested faults addr bit => Sys2Proof.Machine.execMemTestJobEnd t tested faults addr bit s
  | .displayText t r => Sys2Proof.Machine.execDisplayText t r s
  | .displayRefresh t r => Sys2Proof.Machine.execDisplayRefresh t r s
  | .ownerLock t r => Sys2Proof.Machine.execOwnerLock t r s
  | .ownerUnlock t r => Sys2Proof.Machine.execOwnerUnlock t r s
  | .lifecycleAdvance t r => Sys2Proof.Machine.execLifecycleAdvance t r s
  | .lifecycleJobEnd t => Sys2Proof.Machine.execLifecycleJobEnd t s
  | .diagRead t r => Sys2Proof.Machine.execDiagRead t r s
  | .continuation t code r => Sys2Proof.Machine.execContinuation t code r s
  | .post t mb len => Sys2Proof.Machine.execPost t mb len s
  | .doneClear t mb => Sys2Proof.Machine.execDoneClear t mb s
  | .tlsHandshake t verified fingerprint => Sys2Proof.Machine.execTlsHandshake t verified fingerprint s
  | .handshakeTimeout t => Sys2Proof.Machine.execHandshakeTimeout t s
  | .connectionClosed t mb => Sys2Proof.Machine.execConnectionClosed t mb s
  | .sessionIdleTimeout t mb => Sys2Proof.Machine.execSessionIdleTimeout t mb s
  | .cursorExpiry t mb => Sys2Proof.Machine.execCursorExpiry t mb s
  | .jobExpiry t job => Sys2Proof.Machine.execJobExpiry t job s
  | .mb14Timeout t id => Sys2Proof.Machine.execMb14Timeout t id s
  | .pointsClrCounters t h => Sys2Proof.Machine.execPointsClrCounters t h s
  | .cycleClrCounters t h => Sys2Proof.Machine.execCycleClrCounters t h s
  | .schedClrCounters t h => Sys2Proof.Machine.execSchedClrCounters t h s
  | .timeClrCounters t h => Sys2Proof.Machine.execTimeClrCounters t h s
  | .pairClrCounters t h => Sys2Proof.Machine.execPairClrCounters t h s
  | .powerClrCounters t h => Sys2Proof.Machine.execPowerClrCounters t h s
  | .lockClrCounters t h => Sys2Proof.Machine.execLockClrCounters t h s
  | .reenable t h mask => Sys2Proof.Machine.execReenable t h mask s
  | .memClrCounters t h => Sys2Proof.Machine.execMemClrCounters t h s
  | .keyCtrlSetWindowBase t h base => Sys2Proof.Machine.execKeyCtrlSetWindowBase t h base s
  | .keyCtrlCommit t h => Sys2Proof.Machine.execKeyCtrlCommit t h s
  | .keyCtrlDiscardStaging t h => Sys2Proof.Machine.execKeyCtrlDiscardStaging t h s
  | .keyWindow t h first words => Sys2Proof.Machine.execKeyWindow t h first words s
  | .gateClrCounters t h => Sys2Proof.Machine.execGateClrCounters t h s
  | .debugOpen t h => Sys2Proof.Machine.execDebugOpen t h s
  | .debugClose t h => Sys2Proof.Machine.execDebugClose t h s
  | .sheafClrCounters t h => Sys2Proof.Machine.execSheafClrCounters t h s
  | .dioClrCounters t h => Sys2Proof.Machine.execDioClrCounters t h s
  | .uaClrCounters t h => Sys2Proof.Machine.execUaClrCounters t h s
  | .recoverCan t h ch => Sys2Proof.Machine.execRecoverCan t h ch s
  | .canClrCounters t h => Sys2Proof.Machine.execCanClrCounters t h s
  | .recClrCounters t h => Sys2Proof.Machine.execRecClrCounters t h s
  | .dispClrCounters t h => Sys2Proof.Machine.execDispClrCounters t h s
  | .gateCommit t => Sys2Proof.Machine.execGateCommit t s
  | .commitDrainDone t => Sys2Proof.Machine.execCommitDrainDone t s
  | .fabricAccess t a => Sys2Proof.Machine.execFabricAccess t a s
  | .debugReadWords t addr count crcOk => Sys2Proof.Machine.execDebugReadWords t addr count crcOk s
  | .debugWriteWords t addr words crcOk => Sys2Proof.Machine.execDebugWriteWords t addr words crcOk s
  | .debugHaltCorePair t pair crcOk => Sys2Proof.Machine.execDebugHaltCorePair t pair crcOk s
  | .debugResumeCorePair t pair crcOk => Sys2Proof.Machine.execDebugResumeCorePair t pair crcOk s
  | .dbgRstN t low => Sys2Proof.Machine.execDbgRstN t low s
  | .watchdogService t => Sys2Proof.Machine.execWatchdogService t s
  | .watchdogExpiry t => Sys2Proof.Machine.execWatchdogExpiry t s
  | .pllLossOfLock t => Sys2Proof.Machine.execPllLossOfLock t s
  | .clockCheckWindow t stwCycles => Sys2Proof.Machine.execClockCheckWindow t stwCycles s
  | .tamper t k => Sys2Proof.Machine.execTamper t k s
  | .powerGood t mv => Sys2Proof.Machine.execPowerGood t mv s
  | .dip t mv => Sys2Proof.Machine.execDip t mv s
  | .rideThroughEnd t mv => Sys2Proof.Machine.execRideThroughEnd t mv s
  | .auxGoodChange t rising mv => Sys2Proof.Machine.execAuxGoodChange t rising mv s
  | .overTemperature t tenths => Sys2Proof.Machine.execOverTemperature t tenths s
  | .lingCellLow t mv => Sys2Proof.Machine.execLingCellLow t mv s
  | .presentNBreak t => Sys2Proof.Machine.execPresentNBreak t s
  | .ejectNOpen t => Sys2Proof.Machine.execEjectNOpen t s
  | .ejectNClose t => Sys2Proof.Machine.execEjectNClose t s
  | .safeNAssert t => Sys2Proof.Machine.execSafeNAssert t s
  | .safeNRelease t => Sys2Proof.Machine.execSafeNRelease t s
  | .peerPresentNChange t present => Sys2Proof.Machine.execPeerPresentNChange t present s
  | .wakeEvent t holdupMj => Sys2Proof.Machine.execWakeEvent t holdupMj s
  | .wakeDelayExpiry t holdupMj => Sys2Proof.Machine.execWakeDelayExpiry t holdupMj s
  | .bootStepEnd t step => Sys2Proof.Machine.execBootStepEnd t step s
  | .bootEnd t => Sys2Proof.Machine.execBootEnd t s
  | .startWaitExpiry t => Sys2Proof.Machine.execStartWaitExpiry t s
  | .termWindowEnd t => Sys2Proof.Machine.execTermWindowEnd t s
  | .retireStart t => Sys2Proof.Machine.execRetireStart t s
  | .retireSwitchOff t => Sys2Proof.Machine.execRetireSwitchOff t s
  | .retireCommitWrites t => Sys2Proof.Machine.execRetireCommitWrites t s
  | .retireImage t holdupMj => Sys2Proof.Machine.execRetireImage t holdupMj s
  | .retireEnd t => Sys2Proof.Machine.execRetireEnd t s
  | .holdupMeasurement t fullMj nowMj => Sys2Proof.Machine.execHoldupMeasurement t fullMj nowMj s
  | .tb3Save t => Sys2Proof.Machine.execTb3Save t s
  | .twinClaimBegin t malformed => Sys2Proof.Machine.execTwinClaimBegin t malformed s
  | .twinClaimAbsent t malformed => Sys2Proof.Machine.execTwinClaimAbsent t malformed s
  | .releasePattern t malformed => Sys2Proof.Machine.execReleasePattern t malformed s
  | .claimConfirmed t => Sys2Proof.Machine.execClaimConfirmed t s
  | .ownClaimLost t => Sys2Proof.Machine.execOwnClaimLost t s
  | .laneDown t lane => Sys2Proof.Machine.execLaneDown t lane s
  | .laneStartUp t lane proto min slotId => Sys2Proof.Machine.execLaneStartUp t lane proto min slotId s
  | .swathBlockReceived t lane crcOk => Sys2Proof.Machine.execSwathBlockReceived t lane crcOk s
  | .yield t term => Sys2Proof.Machine.execYield t term s
  | .claimReport t seesClaim ownReadback => Sys2Proof.Machine.execClaimReport t seesClaim ownReadback s
  | .yieldClaimStillPresent t => Sys2Proof.Machine.execYieldClaimStillPresent t s
  | .twinReportTimeout t => Sys2Proof.Machine.execTwinReportTimeout t s
  | .timeMarker t m => Sys2Proof.Machine.execTimeMarker t m s
  | .checkpointReceived t c => Sys2Proof.Machine.execCheckpointReceived t c s
  | .checkpointAck t cls seq gaps => Sys2Proof.Machine.execCheckpointAck t cls seq gaps s
  | .ckptLate t cls => Sys2Proof.Machine.execCkptLate t cls s
  | .synchronised t => Sys2Proof.Machine.execSynchronised t s
  | .syncingCopyBlock t b => Sys2Proof.Machine.execSyncingCopyBlock t b s
  | .takeover t => Sys2Proof.Machine.execTakeover t s
  | .isolated t => Sys2Proof.Machine.execIsolated t s
  | .handoverArmCheck t => Sys2Proof.Machine.execHandoverArmCheck t s
  | .handover t => Sys2Proof.Machine.execHandover t s
  | .handoverStandbyEntry t => Sys2Proof.Machine.execHandoverStandbyEntry t s
  | .homeSettleExpiry t => Sys2Proof.Machine.execHomeSettleExpiry t s
  | .provePeriodExpiry t => Sys2Proof.Machine.execProvePeriodExpiry t s
  | .proveDwellExpiry t => Sys2Proof.Machine.execProveDwellExpiry t s
  | .swathLoopback t lane passed => Sys2Proof.Machine.execSwathLoopback t lane passed s
  | .fieldReadback t agrees => Sys2Proof.Machine.execFieldReadback t agrees s
  | .unprovenTick t => Sys2Proof.Machine.execUnprovenTick t s
  | .cycleStart t cls => Sys2Proof.Machine.execCycleStart t cls s
  | .readRetryTimeout t tag => Sys2Proof.Machine.execReadRetryTimeout t tag s
  | .readRsp t f => Sys2Proof.Machine.execReadRsp t f s
  | .localCompletion t offset status item => Sys2Proof.Machine.execLocalCompletion t offset status item s
  | .publication t cls => Sys2Proof.Machine.execPublication t cls s
  | .taskEnd t cls foldDiffers dirtyPages => Sys2Proof.Machine.execTaskEnd t cls foldDiffers dirtyPages s
  | .outputCutoff t cls => Sys2Proof.Machine.execOutputCutoff t cls s
  | .writeRetryTimeout t tag => Sys2Proof.Machine.execWriteRetryTimeout t tag s
  | .writeAck t f => Sys2Proof.Machine.execWriteAck t f s
  | .peer t f => Sys2Proof.Machine.execPeer t f s
  | .foreignFrame t f => Sys2Proof.Machine.execForeignFrame t f s
  | .bindRetryTimeout t station => Sys2Proof.Machine.execBindRetryTimeout t station s
  | .announceBound t f => Sys2Proof.Machine.execAnnounceBound t f s
  | .announceStart t f => Sys2Proof.Machine.execAnnounceStart t f s
  | .diagResponse t f => Sys2Proof.Machine.execDiagResponse t f s
  | .diagTimeout t station => Sys2Proof.Machine.execDiagTimeout t station s
  | .schedPut t cls handle value apply asap => Sys2Proof.Machine.execSchedPut t cls handle value apply asap s
  | .schedCancel t id => Sys2Proof.Machine.execSchedCancel t id s
  | .schedStatus t id => Sys2Proof.Machine.execSchedStatus t id s
  | .schedEvaluation t => Sys2Proof.Machine.execSchedEvaluation t s
  | .schedRetryTimeout t station dispatch => Sys2Proof.Machine.execSchedRetryTimeout t station dispatch s
  | .schedAck t f => Sys2Proof.Machine.execSchedAck t f s
  | .publish t f => Sys2Proof.Machine.execPublish t f s
  | .reportDeadlineExpiry t id => Sys2Proof.Machine.execReportDeadlineExpiry t id s
  | .pointWrite t handle value => Sys2Proof.Machine.execPointWrite t handle value s
  | .pointReadCall t handle => Sys2Proof.Machine.execPointReadCall t handle s
  | .epochRead t ownCls cls handles => Sys2Proof.Machine.execEpochRead t ownCls cls handles s
  | .stampBlockRead t handle => Sys2Proof.Machine.execStampBlockRead t handle s
  | .timeNow t base => Sys2Proof.Machine.execTimeNow t base s
  | .sync t m => Sys2Proof.Machine.execSync t m s
  | .syncReceiptTimeout t base => Sys2Proof.Machine.execSyncReceiptTimeout t base s
  | .announceReceiptTimeout t base => Sys2Proof.Machine.execAnnounceReceiptTimeout t base s
  | .gptpAnnounce t m => Sys2Proof.Machine.execGptpAnnounce t m s
  | .pdelayExchange t port e => Sys2Proof.Machine.execPdelayExchange t port e s
  | .gptpIntervalTimer t kind port domain => Sys2Proof.Machine.execGptpIntervalTimer t kind port domain s
  | .triggerFire t slot => Sys2Proof.Machine.execTriggerFire t slot s
  | .ppsOutPulse t => Sys2Proof.Machine.execPpsOutPulse t s
  | .ppsInEdge t rising => Sys2Proof.Machine.execPpsInEdge t rising s
  | .dio15Edge t rising => Sys2Proof.Machine.execDio15Edge t rising s
  | .gateControlInterval t port => Sys2Proof.Machine.execGateControlInterval t port s
  | .lockstepFault t cp f group => Sys2Proof.Machine.execLockstepFault t cp f group s
  | .comparatorSelfTest t failed => Sys2Proof.Machine.execComparatorSelfTest t failed s
  | .lockstepDiagnosisEnd t cp retestOk scanOk lbistOk cacheError => Sys2Proof.Machine.execLockstepDiagnosisEnd t cp retestOk scanOk lbistOk cacheError s
  | .lbistStart t => Sys2Proof.Machine.execLbistStart t s
  | .lbistComplete t passed => Sys2Proof.Machine.execLbistComplete t passed s
  | .flipArmCheck t => Sys2Proof.Machine.execFlipArmCheck t s
  | .flipGo t => Sys2Proof.Machine.execFlipGo t s
  | .flipBoundary t => Sys2Proof.Machine.execFlipBoundary t s
  | .changeSetWritten t => Sys2Proof.Machine.execChangeSetWritten t s
  | .snapshotCommit t => Sys2Proof.Machine.execSnapshotCommit t s
  | .trialTokenRequest t => Sys2Proof.Machine.execTrialTokenRequest t s
  | .trialTokenTimeout t => Sys2Proof.Machine.execTrialTokenTimeout t s
  | .activationRecordWritten t readbackOk => Sys2Proof.Machine.execActivationRecordWritten t readbackOk s
  | .healthDwellPass t => Sys2Proof.Machine.execHealthDwellPass t s
  | .trialWindowExpiry t => Sys2Proof.Machine.execTrialWindowExpiry t s
  | .twinSheafPoll t => Sys2Proof.Machine.execTwinSheafPoll t s
  | .sequencerUpdate t fe valid => Sys2Proof.Machine.execSequencerUpdate t fe valid s
  | .outputApply t offset status measured => Sys2Proof.Machine.execOutputApply t offset status measured s
  | .silenceTimeout t fe => Sys2Proof.Machine.execSilenceTimeout t fe s
  | .wireBreakDetect t ch broken => Sys2Proof.Machine.execWireBreakDetect t ch broken s
  | .overload t ch cleared => Sys2Proof.Machine.execOverload t ch cleared s
  | .aggregateLimit t ma => Sys2Proof.Machine.execAggregateLimit t ma s
  | .mismatch t ch differ => Sys2Proof.Machine.execMismatch t ch differ s
  | .fldLost t lost mv => Sys2Proof.Machine.execFldLost t lost mv s
  | .conversionComplete t ch value => Sys2Proof.Machine.execConversionComplete t ch value s
  | .excitationWindow t opens readings => Sys2Proof.Machine.execExcitationWindow t opens readings s
  | .twinSenseReport t ch inCircuit milliohm settings => Sys2Proof.Machine.execTwinSenseReport t ch inCircuit milliohm settings s
  | .twinSenseTimeout t => Sys2Proof.Machine.execTwinSenseTimeout t s
  | .uaChannelFault t ch f cleared => Sys2Proof.Machine.execUaChannelFault t ch f cleared s
  | .afsLost t lost mv => Sys2Proof.Machine.execAfsLost t lost mv s
  | .hartPut t ch addr cmd data => Sys2Proof.Machine.execHartPut t ch addr cmd data s
  | .hartGet t id => Sys2Proof.Machine.execHartGet t id s
  | .hartReply t modem e => Sys2Proof.Machine.execHartReply t modem e s
  | .hartPoll t modem => Sys2Proof.Machine.execHartPoll t modem s
  | .canFrameReceived t ch f => Sys2Proof.Machine.execCanFrameReceived t ch f s
  | .canTxRequest t ch buf => Sys2Proof.Machine.execCanTxRequest t ch buf s
  | .canTxEnd t ch buf o => Sys2Proof.Machine.execCanTxEnd t ch buf o s
  | .busOffRecoveryComplete t ch => Sys2Proof.Machine.execBusOffRecoveryComplete t ch s
  | .canFifoRead t ch fifo after max => Sys2Proof.Machine.execCanFifoRead t ch fifo after max s
  | .canFifoConsume t ch fifo stamp => Sys2Proof.Machine.execCanFifoConsume t ch fifo stamp s
  | .canCancel t ch buf => Sys2Proof.Machine.execCanCancel t ch buf s
  | .canRecover t ch => Sys2Proof.Machine.execCanRecover t ch s
  | .referenceMessage t ch => Sys2Proof.Machine.execReferenceMessage t ch s
  | .refLate t ch => Sys2Proof.Machine.execRefLate t ch s
  | .busIntegration t ch => Sys2Proof.Machine.execBusIntegration t ch s
  | .canSettingsApply t ch => Sys2Proof.Machine.execCanSettingsApply t ch s
  | .recordAccept t type payload => Sys2Proof.Machine.execRecordAccept t type payload s
  | .recorderFlush t => Sys2Proof.Machine.execRecorderFlush t s
  | .displayUpdate t => Sys2Proof.Machine.execDisplayUpdate t s
  | .waveformEnd t => Sys2Proof.Machine.execWaveformEnd t s
  | .railDischargeDone t => Sys2Proof.Machine.execRailDischargeDone t s
  | .panelTemperatureRead t tenths => Sys2Proof.Machine.execPanelTemperatureRead t tenths s
  | .ledgerSave t => Sys2Proof.Machine.execLedgerSave t s
  | .scrubVisit t addr ecc => Sys2Proof.Machine.execScrubVisit t addr ecc s
  | .mowerWindow t bank window demanded fault => Sys2Proof.Machine.execMowerWindow t bank window demanded fault s
  | .windowAbandonedRetry t bank window demanded => Sys2Proof.Machine.execWindowAbandonedRetry t bank window demanded s
  | .transceiverInsertion t port id => Sys2Proof.Machine.execTransceiverInsertion t port id s
  | .transceiverMonitor t port highAlarm => Sys2Proof.Machine.execTransceiverMonitor t port highAlarm s
  | .linkReturn t port => Sys2Proof.Machine.execLinkReturn t port s
  | .twinModeReport t mode => Sys2Proof.Machine.execTwinModeReport t mode s
  | .homeReturnRequest t => Sys2Proof.Machine.execHomeReturnRequest t s
  | .flipArming t version cycle => Sys2Proof.Machine.execFlipArming t version cycle s
  | .flipArmed t => Sys2Proof.Machine.execFlipArmed t s
  | .trialTokenGrant t granted => Sys2Proof.Machine.execTrialTokenGrant t granted s
  | .mb14Response t m => Sys2Proof.Machine.execMb14Response t m s
  | .undefinedCommand t code r => Sys2Proof.Machine.execUndefinedCommand t code r s
  | .canBusError t ch code dataPhase recRise => Sys2Proof.Machine.execCanBusError t ch code dataPhase recRise s
  | .lingCellEmpty t => Sys2Proof.Machine.execLingCellEmpty t s
  | .recoveryReset t port source dest => Sys2Proof.Machine.execRecoveryReset t port source dest s
  | .messageIntervalRequest t port domain logSync logPdelay logAnnounce => Sys2Proof.Machine.execMessageIntervalRequest t port domain logSync logPdelay logAnnounce s

end Sys2Proof.Machine
end

