-- ==== Sys2Proof/Machine/Step.lean ====
section
/-! DEFINITION. One step: the command at the front of the queue, or one tick of the clock where none waits. -/

namespace Sys2Proof.Machine

/-- Take the front command and run it with the queue's rest; an empty queue lets one CD_TIME tick pass (06 R122, log 13). -/
def step (s : State) : Host.Outcome State Fault Refusal :=
  match s.pending with
  | [] => .next (s.arrive (s.time.now + 1))
  | c :: cs => exec c { s with pending := cs }

/-- The command that a word spells, put at the front of the queue; no word of this table spells one. -/
def State.withFetchWord (s : State) (nbits w : Nat) : State :=
  match Sys2Proof.decodeTableWord nbits w with
  | some c => { s with pending := c :: s.pending }
  | none => s

end Sys2Proof.Machine
end

