-- ==== Sys2Proof/Safety.lean ====
section
/-! DEFINITION. What the statements speak of: the parts of a state, what a command leaves as it was, and the form of a state that
every step keeps. -/

namespace Sys2Proof.Machine

/-- The parts of a state; `cache` is the recorder cache of memory and `mem` every other byte of it. -/
inductive Part
  | cache | mem | pending | free | out | time | pair | cnt | power | boot | pts | cyc | fsp | sched | lock | cfg | msg | mower | sec | gate | sheaf | dio | ua | can | log | disp | sfp
deriving DecidableEq, Repr

/-- An address of the recorder cache (17 R372). -/
def inCache (a : Nat) : Bool := decide (0x0AA00000 ≤ a) && decide (a ≤ 0x0ABFFFFF)
/-- Memory reads the same, and the same words are unsound, at the addresses that a condition picks. -/
def Mem.sameAt (c : Nat → Bool) (m n : Mem) : Prop :=
  ∀ a, c a = true → memRead n a = memRead m a ∧ (a ∈ n.bad ↔ a ∈ m.bad)
/-- A part is the same in two states. -/
def Part.same (p : Part) (s t : State) : Prop :=
  match p with
  | .cache => Mem.sameAt inCache s.mem t.mem
  | .mem => Mem.sameAt (fun a => !inCache a) s.mem t.mem
  | .pending => t.pending = s.pending
  | .free => t.free = s.free
  | .out => t.out = s.out
  | .time => t.time = s.time
  | .pair => t.pair = s.pair
  | .cnt => t.cnt = s.cnt
  | .power => t.power = s.power
  | .boot => t.boot = s.boot
  | .pts => t.pts = s.pts
  | .cyc => t.cyc = s.cyc
  | .fsp => t.fsp = s.fsp
  | .sched => t.sched = s.sched
  | .lock => t.lock = s.lock
  | .cfg => t.cfg = s.cfg
  | .msg => t.msg = s.msg
  | .mower => t.mower = s.mower
  | .sec => t.sec = s.sec
  | .gate => t.gate = s.gate
  | .sheaf => t.sheaf = s.sheaf
  | .dio => t.dio = s.dio
  | .ua => t.ua = s.ua
  | .can => t.can = s.can
  | .log => t.log = s.log
  | .disp => t.disp = s.disp
  | .sfp => t.sfp = s.sfp
/-- Nothing differs outside some parts. -/
def Frame (ps : List Part) (s t : State) : Prop := ∀ p, p ∉ ps → p.same s t

/-- A command answers a next state; nothing differs outside some parts from the state at its instant; and something holds of that
state and the next. -/
def Does (c : Instr) (t : Nat) (s : State) (ps : List Part) (q : State → State → Prop) : Prop :=
  ∃ v, exec c s = .next v ∧ Frame ps (s.arrive t) v ∧ q (s.arrive t) v
/-- Every row of Table 11.3 lets a request through to its command: it arrives whole, its mailbox is free, and no row refuses it. -/
def State.accepts (c : Cmd) (r : Req) (s : State) : Prop :=
  s.awake = true ∧ s.reaches r = true ∧ s.postBusy r = false ∧ r.mb < 16 ∧ (s.power.mode ≠ 1 → s.postBad r = false) ∧
    (s.take r).refusedEarly c.code r = none ∧ continues r = false ∧ (s.take r).refusedLate c r = none
/-- A request is taken and its command answers with a status and data, of which, with the state before and after the command's own
effect, something holds; outside some parts that effect changes nothing. -/
def Answers (i : Instr) (t : Nat) (s : State) (c : Cmd) (r : Req) (ps : List Part) (q : State → Nat → List Byte → State → Prop) : Prop :=
  ∃ v st data, exec i s = .next (v.respond (hdrOf r) c.code st data) ∧ Frame ps ((s.arrive t).take r) v ∧ q ((s.arrive t).take r) st data v

/-- The commands that can reach the windows of devices whose registers the spec does not lay out. -/
def reachesDevices (c : Instr) : Prop :=
  (∃ t a, c = .fabricAccess t a) ∨ (∃ t a n k, c = .debugReadWords t a n k) ∨ (∃ t a ws k, c = .debugWriteWords t a ws k)
/-- The form of a state that every step keeps: memory canonical; the mode one of Table 8.1; a module owns the pair only in PRIMARY
and SOLO (08 Table 8.1); debug is open only in MAINTENANCE (12 R291). -/
structure State.Wf (s : State) : Prop where
  mem : Memory.wf s.mem = true
  mode : 1 ≤ s.power.mode ∧ s.power.mode ≤ 8
  owner : s.pair.owner = true → s.power.mode = 5 ∨ s.power.mode = 6
  debug : s.gate.debugOpen = true → s.power.mode = 2

end Sys2Proof.Machine
end

