-- ==== Sys2Proof/Certificates/Slice0/Obligations.lean ====
section
/-! DEFINITION. The statements for the provers, chapter by chapter. A statement about an event has the premise under which it happens;
`t` is the instant of the command and `u` in a statement the state at that instant (log 1). -/

set_option Elab.async false
set_option linter.all false

open Sys2Proof Sys2Proof.Machine

/-! ## The block as a whole -/

/-- A step takes the command at the front of the queue and runs it with the queue's rest. -/
def Obligations.StepRunsTheFrontCommand : Prop :=
  ∀ (c : Instr) (cs : List Instr) (s : State), step { s with pending := c :: cs } = exec c { s with pending := cs }

/-- With no command waiting, one CD_TIME tick passes and nothing else (the model's choice, log 13). -/
def Obligations.AnIdleStepIsOneTick : Prop :=
  ∀ s : State, s.pending = [] → step s = .next (s.arrive (s.time.now + 1)) ∧ (s.arrive (s.time.now + 1)).time.now = s.time.now + 1 ∧
    Frame [.time] s (s.arrive (s.time.now + 1))

/-- Every step keeps the form of a state: memory canonical, a legal mode, ownership only in PRIMARY and SOLO, debug only in
MAINTENANCE.
The model's choices within: log 73, 118. -/
def Obligations.StepsKeepTheForm : Prop := ∀ s s' : State, s.Wf → step s = .next s' → s'.Wf

/-- The state after reset has the form that every step keeps, and no command waits.
The model's choices within: log 11. -/
def Obligations.ResetHasTheForm : Prop := State.reset.Wf ∧ State.reset.pending = []

/-- No command adds to the queue, takes from it or reorders it, and the block's clock never goes back.
The model's choices within: log 1. -/
def Obligations.CommandsLeaveTheQueueAndTheClockGoesOn : Prop :=
  (∀ (c : Instr) (s s' : State), exec c s = .next s' → s'.pending = s.pending) ∧
  (∀ s s' : State, step s = .next s' → s.time.now ≤ s'.time.now)

/-- Every command runs to a next state, but for an access to a device window, which is refused by name.
The model's choices within: log 16, 115. -/
def Obligations.OnlyDeviceWindowsAreRefused : Prop :=
  ∀ (c : Instr) (s : State), (∃ s', exec c s = .next s') ∨ (reachesDevices c ∧ ∃ a, exec c s = .refused (.deviceWindow a))

/-- Instants: the clock moves to the command's instant, never back; while the die is on, TB0 and TB1 gain 4 ns × (1 + RATE × 2^-40)
a tick and TB3 4 ns (06 R122, R123).
The model's choices within: log 1, 2. -/
def Obligations.TimeBasesCountTicks : Prop :=
  ∀ (t : Nat) (s : State),
    (t ≤ s.time.now → s.arrive t = s) ∧
    (s.time.now ≤ t → Frame [.time] s (s.arrive t) ∧ (s.arrive t).time.now = t ∧
      (s.power.mode ≠ 8 → s.boot.stopped = false →
        ((s.arrive t).time.tb0.acc : Int) = s.time.tb0.acc + ((t - s.time.now) * (2 ^ 50 + s.time.tb0.rate * 2 ^ 10).toNat : Nat) ∧
        ((s.arrive t).time.tb1.acc : Int) = s.time.tb1.acc + ((t - s.time.now) * (2 ^ 50 + s.time.tb1.rate * 2 ^ 10).toNat : Nat) ∧
        (s.arrive t).time.tb3 = s.time.tb3 + (t - s.time.now) * 262144))

/-! ## Recorder (17) -/

/-- RECORD_ACCEPT: with room, the record takes the next sequence and lies in its cache slot; without room it is counted as dropped;
after the last sequence nothing is accepted. RECORDER_FLUSH stores every accepted record.
The model's choices within: log 48, 49. -/
def Obligations.RecorderAcceptsAndFlushes : Prop :=
  (∀ (t type : Nat) (payload : List Byte) (s : State), Memory.wf s.mem = true → (s.arrive t).log.exhausted = false → (s.arrive t).recRoom = true →
    (s.arrive t).log.droppedUnreported = 0 →
    Does (.recordAccept t type payload) t s [.cache, .log] fun u v => ∃ r : Record,
      v.log.ring.getLast? = some r ∧ r.seq = u.log.nextSeq ∧ r.type = type ∧ r.payload = padTo 32 payload ∧ r.stamp = (if u.tb0Valid then u.tb0 else 0) ∧
      r.opSeconds = u.opSeconds ∧ r.powerCycles = u.power.powerCycles ∧ r.severity = severityOf type ∧
      v.log.nextSeq = u.log.nextSeq + 1 ∧ v.log.unflushed = u.log.unflushed + 1 ∧ v.log.dropped = u.log.dropped ∧
      (∀ i, i < 64 → memRead v.mem (0x0AA00000 + 64 * (r.seq % 32768) + i) = (recordBytes r).getD i 0) ∧
      (∀ a, (a < 0x0AA00000 + 64 * (r.seq % 32768) ∨ 0x0AA00000 + 64 * (r.seq % 32768) + 64 ≤ a) → memRead v.mem a = memRead u.mem a)) ∧
  (∀ (t type : Nat) (payload : List Byte) (s : State), (s.arrive t).log.exhausted = false → (s.arrive t).recRoom = false →
    exec (.recordAccept t type payload) s =
      .next ((s.arrive t).upLog fun l => { l with dropped := inc32 l.dropped, droppedUnreported := l.droppedUnreported + 1 })) ∧
  (∀ (t type : Nat) (payload : List Byte) (s : State), (s.arrive t).log.exhausted = true → exec (.recordAccept t type payload) s = .next (s.arrive t)) ∧
  (∀ (t : Nat) (s : State), (512 ≤ (s.arrive t).log.unflushed ∨
      0 < (s.arrive t).log.unflushed ∧ (s.arrive t).log.oldestUnflushed + 250000000 ≤ (s.arrive t).time.now) →
    exec (.recorderFlush t) s = .next ((s.arrive t).upLog fun l => { l with flushed := l.nextSeq - 1, unflushed := 0 })) ∧
  (∀ (t : Nat) (s : State), (s.arrive t).log.unflushed < 512 →
      ((s.arrive t).log.unflushed = 0 ∨ (s.arrive t).time.now < (s.arrive t).log.oldestUnflushed + 250000000) →
    exec (.recorderFlush t) s = .next (s.arrive t))

/-! ## Front display (18) -/

/-- The rows of R382 and R386 in order: a balancing phase, a pending full refresh, a partial update where something differs, else nothing;
never while frozen, before 1 s has passed, or before the rails are discharged.
The model's choices within: log 17, 18. -/
def Obligations.DisplayUpdatesInOrder : Prop :=
  (∀ (t : Nat) (s : State), (s.arrive t).canUpdate = true →
    Does (.displayUpdate t) t s [.free, .out, .disp] fun u v =>
      (∀ n, u.disp.unbalanced = some n →
        v.disp = { u.disp with updating := 1, lastStart := some u.time.now, updates := inc32 u.disp.updates, balances := inc32 u.disp.balances,
                               ledgers := setAt u.disp.ledgers n balanced } ∧
        v.out = u.out ++ [.waveform 2 n (20 * balanceFrames (u.disp.ledgers.getD n 0))] ∧ v.free = u.free) ∧
      (u.disp.unbalanced = none → u.disp.fullPending = true →
        v.disp.updating = 1 ∧ v.disp.lastStart = some u.time.now ∧ v.disp.fullPending = false ∧ v.disp.partials = 0 ∧
        v.disp.fulls = inc32 u.disp.fulls ∧ v.disp.updates = inc32 u.disp.updates ∧ v.disp.shown = u.render ∧ v.disp.segments = u.icons ∧
        v.disp.lastFullBand = u.disp.band ∧ v.out = u.out ++ [.waveform 1 0 (fullMs u.disp.band)]) ∧
      (u.disp.unbalanced = none → u.disp.fullPending = false → (u.render ≠ u.disp.shown ∨ u.icons ≠ u.disp.segments) →
        v.disp.updating = 1 ∧ v.disp.lastStart = some u.time.now ∧ v.disp.partials = u.disp.partials + 1 ∧
        (v.disp.fullPending = true ↔ u.disp.fullEvery ≤ u.disp.partials + 1) ∧ v.disp.updates = inc32 u.disp.updates ∧ v.disp.shown = u.render ∧
        v.disp.segments = u.icons ∧ v.out = u.out ++ [.waveform 0 0 (partialMs u.disp.band)]) ∧
      (u.disp.unbalanced = none → u.disp.fullPending = false → u.render = u.disp.shown → u.icons = u.disp.segments → v = u)) ∧
  (∀ (t : Nat) (s : State), ((s.arrive t).disp.frozen = true ∨ (s.arrive t).disp.updating ≠ 0 ∨
      ∃ a, (s.arrive t).disp.lastStart = some a ∧ (s.arrive t).time.now < a + 250000000) →
    exec (.displayUpdate t) s = .next (s.arrive t)) ∧
  (∀ (t : Nat) (s : State), (s.arrive t).disp.updating = 1 → exec (.waveformEnd t) s = .next ((s.arrive t).upDisp fun d => { d with updating := 2 })) ∧
  (∀ (t : Nat) (s : State), (s.arrive t).disp.updating = 2 → exec (.railDischargeDone t) s = .next ((s.arrive t).upDisp fun d => { d with updating := 0 })) ∧
  (∀ (t : Nat) (s : State), (s.arrive t).awake = true →
    exec (.ledgerSave t) s = .next ((s.arrive t).upDisp fun d => { d with storedLedgers := d.ledgers }))

/-- PANEL_TEMPERATURE_READ: frozen outside 0.0 to 50.0 °C, until 1.0 °C rising or 49.0 °C falling; the band with 0.5 °C hysteresis; a full
refresh after the freeze ends or a change of two bands. The bands of Table 18.3, in 0.1 °C, and the times of their waveforms in ms.
The model's choices within: log 19. -/
def Obligations.PanelTemperatureSetsFreezeAndBand : Prop :=
  (∀ (t : Nat) (x : Int) (s : State), (s.arrive t).awake = true →
    Does (.panelTemperatureRead t x) t s [.disp] fun u v =>
      v.disp.panelTemp = x ∧
      (u.disp.frozen = false → (v.disp.frozen = true ↔ x < 0 ∨ 500 < x)) ∧
      (u.disp.frozen = true → (v.disp.frozen = false ↔ 10 ≤ x ∧ x ≤ 490)) ∧
      v.disp.freezes = (if v.disp.frozen && !u.disp.frozen then inc32 u.disp.freezes else u.disp.freezes) ∧
      (u.disp.band < bandOf x → v.disp.band = bandOf x) ∧ (bandOf (x + 5) < u.disp.band → bandOf x ≤ u.disp.band → v.disp.band = bandOf (x + 5)) ∧
      (bandOf x ≤ u.disp.band → u.disp.band ≤ bandOf (x + 5) → v.disp.band = u.disp.band) ∧
      (v.disp.fullPending = true ↔ u.disp.fullPending = true ∨ u.disp.frozen = true ∧ v.disp.frozen = false ∨
        u.disp.lastFullBand + 2 ≤ v.disp.band ∨ v.disp.band + 2 ≤ u.disp.lastFullBand) ∧
      v.disp.shown = u.disp.shown ∧ v.disp.updating = u.disp.updating ∧ v.disp.ledgers = u.disp.ledgers) ∧
  (∀ (n : Nat) (lo hi : Int) (full part : Nat),
      (n, lo, hi, full, part) ∈ [(0, (0 : Int), (50 : Int), 3000, 960), (1, 50, 100, 2400, 780), (2, 100, 150, 1920, 620), (3, 150, 200, 1560, 500),
                                 (4, 200, 250, 1260, 420), (5, 250, 300, 1080, 360), (6, 300, 400, 960, 320), (7, 400, 501, 840, 280)] →
      (∀ x, lo ≤ x → x < hi → bandOf x = n) ∧ fullMs n = full ∧ partialMs n = part)


/-! ## CAN (16) -/

/-- The filter of R354: a remote frame is rejected; else the first element that holds decides by its TARGET, and with none the default
target of the identifier space; a rejected frame is counted and stored nowhere. A FIFO of 64 records (R357): a full one that keeps the newest gives up the oldest and marks
the new record, and one that keeps the oldest drops the new frame and marks the next record that it stores; each frame lost is counted. -/
def Obligations.CanFiltersDecideInOrder : Prop :=
  (∀ (c : CanCfg) (f : CanFrame) (i : Nat), i < c.filters.length → filterMatches (c.filters.getD i (0, 0, 0)) f = true →
    (∀ j, j < i → filterMatches (c.filters.getD j (0, 0, 0)) f = false) → c.decide_ f = (i, bits (c.filters.getD i (0, 0, 0)).2.2 24 8)) ∧
  (∀ (c : CanCfg) (f : CanFrame), (∀ j, j < c.filters.length → filterMatches (c.filters.getD j (0, 0, 0)) f = false) →
    c.decide_ f = (0xFFFF, if f.xtd then bits (c.word 2) 19 2 else bits (c.word 2) 21 2)) ∧
  (∀ (e : Nat × Nat × Nat) (f : CanFrame), bits e.2.2 2 2 ≠ (if f.xtd then 2 else 1) → filterMatches e f = false) ∧
  (∀ (e : Nat × Nat × Nat) (f : CanFrame), bits e.2.2 2 2 = (if f.xtd then 2 else 1) → bits e.2.2 0 2 = 0 →
    (filterMatches e f = true ↔ bits e.1 0 29 ≤ f.id ∧ f.id ≤ bits e.2.1 0 29)) ∧
  (∀ (e : Nat × Nat × Nat) (f : CanFrame), bits e.2.2 2 2 = (if f.xtd then 2 else 1) → bits e.2.2 0 2 = 1 →
    (filterMatches e f = true ↔ f.id = bits e.1 0 29 ∨ f.id = bits e.2.1 0 29)) ∧
  (∀ (e : Nat × Nat × Nat) (f : CanFrame), bits e.2.2 2 2 = (if f.xtd then 2 else 1) → bits e.2.2 0 2 = 2 →
    (filterMatches e f = true ↔ f.id &&& bits e.2.1 0 29 = bits e.1 0 29 &&& bits e.2.1 0 29)) ∧
  (∀ (c : CanCfg) (f : CanFrame) (h : CanCh), (f.remote = true ∨ (c.decide_ f).2 = 0) → h.store c f = { h with rejected := inc32 h.rejected }) ∧
  (∀ (keep lost : Bool) (q : List CanRec) (r : CanRec),
      (q.length < 64 → fifoStore keep lost q r = (q ++ [{ r with overrun := lost }], false, 0)) ∧
      (64 ≤ q.length → keep = true → fifoStore keep lost q r = (q.drop 1 ++ [{ r with overrun := true }], false, 1)) ∧
      (64 ≤ q.length → keep = false → fifoStore keep lost q r = (q, true, 1)) ∧
      (q.length ≤ 64 → (fifoStore keep lost q r).1.length ≤ 64))

/-- CAN_FRAME_RECEIVED, CAN_FIFO_READ and CAN_FIFO_CONSUME: a frame is stored by the elements and counted, REC falls by 1 and from above
127 to one of 119 to 127; a read removes nothing; a consumed stamp is kept.
The model's choices within: log 20. -/
def Obligations.CanReceives : Prop :=
  (∀ (t ch : Nat) (f : CanFrame) (s : State), (s.arrive t).awake = true → ((s.arrive t).conf.canCfg ch).enabled = true →
    ((s.arrive t).canCh ch).fc ≠ 2 → ch < 2 → ((s.arrive t).conf.canCfg ch).isRef f = false →
    ∃ e : Nat → Nat, (∀ x, x ≤ 127 → e x = x - 1) ∧ (∀ x, 127 < x → 119 ≤ e x ∧ e x ≤ 127) ∧
      exec (.canFrameReceived t ch f) s = .next ((s.arrive t).setCan ch fun h =>
        { (h.store ((s.arrive t).canInUse ch) f) with rxFrames := inc32 h.rxFrames, rxErr := e h.rxErr, fc := fcState h.tec (e h.rxErr) }).useFree) ∧
  (∀ (t ch : Nat) (f : CanFrame) (s : State), (s.arrive t).awake = true → ((s.arrive t).conf.canCfg ch).enabled = true →
    ((s.arrive t).canCh ch).fc ≠ 2 → ch < 2 → ((s.arrive t).conf.canCfg ch).isRef f = true →
    ∃ u : State, Frame [.free, .can] (s.arrive t) u ∧ (∀ n, n ≠ ch → u.canCh n = (s.arrive t).canCh n) ∧
      ((s.arrive t).pair.owner = false → exec (.canFrameReceived t ch f) s = .next (u.setCan ch fun h => { h with mark := some (u.refMark ch f.sofNs) })) ∧
      ((s.arrive t).pair.owner = true → (∃ a, (u.canCh ch).foreignAt = some a ∧ u.time.now < a + 15000000000) →
        exec (.canFrameReceived t ch f) s = .next (u.setCan ch fun h => { h with foreignRef := inc32 h.foreignRef })) ∧
      ((s.arrive t).pair.owner = true → (∀ a, (u.canCh ch).foreignAt = some a → a + 15000000000 ≤ u.time.now) →
        exec (.canFrameReceived t ch f) s = .next ((u.setCan ch fun h => { h with foreignRef := inc32 h.foreignRef, foreignAt := some u.time.now }).record 0x0D03
          [(1, ch), (4, f.id)]))) ∧
  (∀ (t ch fifo after max : Nat) (s : State), (s.arrive t).awake = true →
    exec (.canFifoRead t ch fifo after max) s = .next ((s.arrive t).emit (if 2 ≤ ch ∨ 2 ≤ fifo ∨ max = 0 ∨ 64 < max then .call stRange []
      else .call stOk (((((if fifo = 0 then ((s.arrive t).canCh ch).fifo0 else ((s.arrive t).canCh ch).fifo1).filter fun r =>
        decide (after < r.f.sofNs)).take max).flatMap CanRec.full).map BitVec.toNat)))) ∧
  (∀ (t ch fifo stamp : Nat) (s : State), (s.arrive t).awake = true →
    exec (.canFifoConsume t ch fifo stamp) s = .next (if 2 ≤ ch ∨ 2 ≤ fifo then (s.arrive t).emit (.call stRange [])
      else ((s.arrive t).setCan ch fun h => if fifo = 0 then { h with consumed0 := stamp } else { h with consumed1 := stamp }).emit (.call stOk [])))

/-- Transmission (R358, R360–R362, R364–R366): CAN_TX_REQUEST, CAN_TX_END, CAN_CANCEL, REFERENCE_MESSAGE, REF_LATE.
The model's choices within: log 21, 44, 45. -/
def Obligations.CanTransmits : Prop :=
  (∀ (t ch buf : Nat) (s : State), (s.arrive t).pair.owner = true → ((s.arrive t).conf.canCfg ch).enabled = true →
    ((s.arrive t).canCh ch).monitoring = false → (s.arrive t).boot.retiring = false →
    (((s.arrive t).conf.canCfg ch).txUse buf = 1 ∨ ((s.arrive t).conf.canCfg ch).txUse buf = 2) →
    Does (.canTxRequest t ch buf) t s [.cache, .mem, .pts, .can] fun u v =>
      (u.conf.canOutput ch buf = none → v = u) ∧
      ∀ p f seq, u.conf.canOutput ch buf = some p → ((u.canCh ch).tx.getD buf TxBuf.reset).status ≠ 1 →
        ((u.canCh ch).tx.getD buf TxBuf.reset).status ≠ 2 → (u.canCh ch).fc ≠ 2 → ch < u.can.length →
        field (memReadBytes u.mem (poolBase + (u.carriedValue p.handle).toNat) (8 + u.conf.capacity p.handle)) 4 4 = seq →
        canFrameOf ((memReadBytes u.mem (poolBase + (u.carriedValue p.handle).toNat) (8 + u.conf.capacity p.handle)).drop 8) = f →
        ((u.conf.canCfg ch).txUse buf = 2 → ((u.canCh ch).tx.getD buf TxBuf.reset).lastSeq = some seq → v = u) ∧
        (((u.conf.canCfg ch).txUse buf = 1 ∨ ((u.canCh ch).tx.getD buf TxBuf.reset).lastSeq ≠ some seq) →
          (16 + dlcBytes f.fdf f.dlc ≤ u.conf.capacity p.handle → (f.fdf = true → bit ((u.conf.canCfg ch).word 1) 0 = true) →
              (f.brs = true → bit ((u.conf.canCfg ch).word 1) 1 = true) →
            v = u.setCan ch (CanCh.request buf { TxBuf.reset with content := some f, lastSeq := some seq, value := u.carriedValue p.handle })) ∧
          ((u.conf.capacity p.handle < 16 + dlcBytes f.fdf f.dlc ∨ f.fdf = true ∧ bit ((u.conf.canCfg ch).word 1) 0 = false ∨
              f.brs = true ∧ bit ((u.conf.canCfg ch).word 1) 1 = false) →
            v = u.overrangeOutput p.handle))) ∧
  (∀ (h : CanCh) (b : Nat) (new : TxBuf), b < h.tx.length →
    (h.fc = 2 → (h.request b new).tx.getD b TxBuf.reset = { new with status := 7 }) ∧
    (h.fc ≠ 2 → (h.tx.getD b TxBuf.reset).status = 2 → (h.request b new).txOverruns = inc32 h.txOverruns ∧
      ((h.request b new).tx.getD b TxBuf.reset).after = new.content ∧ ((h.request b new).tx.getD b TxBuf.reset).status = 2) ∧
    (h.fc ≠ 2 → (h.tx.getD b TxBuf.reset).status = 1 → (h.request b new).txOverruns = inc32 h.txOverruns) ∧
    (h.fc ≠ 2 → (h.tx.getD b TxBuf.reset).status ≠ 1 → (h.tx.getD b TxBuf.reset).status ≠ 2 → (h.request b new).txOverruns = h.txOverruns)) ∧
  (∀ (t ch buf : Nat) (o : CanTxOutcome) (s : State), (s.arrive t).awake = true →
    (((s.arrive t).canCh ch).tx.getD buf TxBuf.reset).status = 2 → ch < (s.arrive t).can.length →
    Does (.canTxEnd t ch buf o) t s [.cache, .mem, .free, .cnt, .can, .log] fun u v =>
      (∀ sof l, o = .success sof l → (v.canCh ch).tec = (u.canCh ch).tec - 1 ∧ (v.canCh ch).ackRun = 0 ∧ (v.canCh ch).alone = false ∧
        (v.canCh ch).txFrames = inc32 (u.canCh ch).txFrames ∧ v.cnt = { u.cnt with unproven := setAt u.cnt.unproven (24 + ch) fun _ => 0 }) ∧
      (o = .lostArbitration → (v.canCh ch).tec = (u.canCh ch).tec ∧ (v.canCh ch).errors = (u.canCh ch).errors ∧ v.cnt = u.cnt) ∧
      (o = .ackError → (v.canCh ch).tec = min 256 ((u.canCh ch).tec + if (u.canCh ch).fc = 1 then 0 else 8) ∧
        (v.canCh ch).ackRun = min 255 ((u.canCh ch).ackRun + 1) ∧ ((v.canCh ch).alone = true ↔ (u.canCh ch).alone = true ∨ 15 ≤ (u.canCh ch).ackRun)) ∧
      (∀ code dp, o = .error code dp → (v.canCh ch).tec = min 256 ((u.canCh ch).tec + 8) ∧ (v.canCh ch).errors = inc32 (u.canCh ch).errors ∧
        (v.canCh ch).lastError = code)) ∧
  (∀ (t ch buf : Nat) (s : State), (s.arrive t).awake = true →
    (ch ≥ 2 ∨ buf ≥ 32 ∨ ((s.arrive t).conf.canCfg ch).txUse buf = 3 ∨
        (((s.arrive t).conf.canCfg ch).tmEnable = true ∧ ((s.arrive t).conf.canCfg ch).tmBuffer = buf) →
      exec (.canCancel t ch buf) s = .next ((s.arrive t).emit (.call stRange []))) ∧
    (ch < 2 → buf < 32 → ((s.arrive t).conf.canCfg ch).txUse buf ≠ 3 →
        ¬ (((s.arrive t).conf.canCfg ch).tmEnable = true ∧ ((s.arrive t).conf.canCfg ch).tmBuffer = buf) →
      ((((s.arrive t).canCh ch).tx.getD buf TxBuf.reset).status = 1 → exec (.canCancel t ch buf) s =
        .next (((s.arrive t).setCan ch fun h => { h with tx := setAt h.tx buf fun x => { x with status := 5 } }).emit (.call stOk []))) ∧
      ((((s.arrive t).canCh ch).tx.getD buf TxBuf.reset).status = 2 → exec (.canCancel t ch buf) s =
        .next (((s.arrive t).setCan ch fun h => { h with cancelLate := inc32 h.cancelLate, tx := setAt h.tx buf fun x => { x with cancelled := true } }).emit
          (.call stTooLate []))) ∧
      ((((s.arrive t).canCh ch).tx.getD buf TxBuf.reset).status ≠ 1 → (((s.arrive t).canCh ch).tx.getD buf TxBuf.reset).status ≠ 2 →
        exec (.canCancel t ch buf) s = .next ((s.arrive t).emit (.call stOk []))))) ∧
  (∀ (t ch : Nat) (s : State), (s.arrive t).pair.owner = true → ((s.arrive t).conf.canCfg ch).enabled = true → ((s.arrive t).conf.canCfg ch).tmEnable = true →
    ((s.arrive t).canCh ch).monitoring = false → (s.arrive t).tb0Valid = true → ((s.arrive t).canCh ch).integrating = false → (s.arrive t).boot.retiring = false →
    ∃ data : List Byte, data.head? = some (BitVec.ofNat 8 ((s.arrive t).tb0 / ((s.arrive t).conf.canCfg ch).basicNs % 64)) ∧
      data.length = (if bit (((s.arrive t).conf.canCfg ch).word 2) 13 then 8 else 1) ∧
      exec (.referenceMessage t ch) s = .next ((s.arrive t).setCan ch (CanCh.request ((s.arrive t).conf.canCfg ch).tmBuffer
        { TxBuf.reset with content := some { sofNs := 0, fdf := false, brs := false, xtd := ((s.arrive t).conf.canCfg ch).tmXtd, remote := false,
                                              id := ((s.arrive t).conf.canCfg ch).tmId, dlc := data.length, esi := false, data := data },
                           isRef := true, refAt := (s.arrive t).tb0 }))) ∧
  (∀ (t ch : Nat) (s : State), (((s.arrive t).canCh ch).tx.getD ((s.arrive t).conf.canCfg ch).tmBuffer TxBuf.reset).isRef = true →
    (((s.arrive t).canCh ch).tx.getD ((s.arrive t).conf.canCfg ch).tmBuffer TxBuf.reset).status = 1 →
    (((s.arrive t).canCh ch).tx.getD ((s.arrive t).conf.canCfg ch).tmBuffer TxBuf.reset).refAt + ((s.arrive t).conf.canCfg ch).basicNs / 2 ≤ (s.arrive t).tb0 →
    exec (.refLate t ch) s = .next ((s.arrive t).setCan ch fun h =>
      { h with refLate := inc32 h.refLate, tx := setAt h.tx ((s.arrive t).conf.canCfg ch).tmBuffer fun x => { x with status := 5 } }))

/-- Fault confinement (R362): error-active, error-passive above 127, bus-off above 255, where every PENDING or ACTIVE buffer ends with
ERROR; CAN_BUS_ERROR, CAN_RECOVER, BUS_OFF_RECOVERY_COMPLETE, BUS_INTEGRATION, CAN_SETTINGS_APPLY.
The model's choices within: log 45, 46. -/
def Obligations.CanConfinesFaults : Prop :=
  (∀ tec rec_ : Nat, (255 < tec → fcState tec rec_ = 2) ∧ (tec ≤ 255 → (127 < tec ∨ 127 < rec_) → fcState tec rec_ = 1) ∧
    (tec ≤ 127 → rec_ ≤ 127 → fcState tec rec_ = 0)) ∧
  (∀ (auto : Bool) (h : CanCh), (h.busOff auto).fc = 2 ∧ (h.busOff auto).busOffs = inc32 h.busOffs ∧ (h.busOff auto).recovering = auto ∧
    (h.busOff auto).tx.length = h.tx.length ∧ ∀ b ∈ (h.busOff auto).tx, b.status ≠ 1 ∧ b.status ≠ 2) ∧
  (∀ (t ch code rise : Nat) (dp : Bool) (s : State), (s.arrive t).awake = true → ((s.arrive t).conf.canCfg ch).enabled = true →
    ((s.arrive t).canCh ch).fc ≠ 2 → ch < 2 → ch < (s.arrive t).can.length → ((s.arrive t).canCh ch).tec ≤ 255 →
    exec (.canBusError t ch code dp rise) s = .next ((s.arrive t).setCan ch fun h =>
      { h with errors := inc32 h.errors, lastError := code % 8, dataPhase := dp, rxErr := min 255 (h.rxErr + rise),
               fc := fcState h.tec (min 255 (h.rxErr + rise)) })) ∧
  (∀ (t ch : Nat) (s : State), (s.arrive t).awake = true →
    (2 ≤ ch → exec (.canRecover t ch) s = .next ((s.arrive t).emit (.call stRange []))) ∧
    (ch < 2 → (s.arrive t).pair.owner = true → ((s.arrive t).canCh ch).fc = 2 →
      exec (.canRecover t ch) s = .next (((s.arrive t).setCan ch fun h => { h with recovering := true }).emit (.call stOk []))) ∧
    (ch < 2 → ((s.arrive t).pair.owner = false ∨ ((s.arrive t).canCh ch).fc ≠ 2) →
      exec (.canRecover t ch) s = .next ((s.arrive t).emit (.call stState [])))) ∧
  (∀ (t ch : Nat) (s : State), ((s.arrive t).canCh ch).fc = 2 → ((s.arrive t).canCh ch).recovering = true →
    exec (.busOffRecoveryComplete t ch) s = .next ((s.arrive t).setCan ch fun h => { h with tec := 0, rxErr := 0, fc := 0, recovering := false })) ∧
  (∀ (t ch : Nat) (s : State), (s.arrive t).awake = true → ((s.arrive t).canCh ch).integrating = true →
    exec (.busIntegration t ch) s = .next ((s.arrive t).setCan ch fun h => ({ h with integrating := false }).select)) ∧
  (∀ (t ch : Nat) (s : State), ((s.arrive t).canCh ch).newFilters = true →
    exec (.canSettingsApply t ch) s = .next ((s.arrive t).setCan ch fun h => { h with newFilters := false }))

/-! ## Plant transceivers (19) -/

/-- TRANSCEIVER_INSERTION, TRANSCEIVER_MONITOR, LINK_RETURN (R400): the link is up only for a transceiver that declares the configured
PMD and power level 1 or 2 and answers; a high alarm takes it down, and it returns 10 s after the alarm clears. -/
def Obligations.TransceiversFollowTheirIdentity : Prop :=
  (∀ (pmd : Nat) (id : SfpId), sfpFits pmd id = true ↔
    id.present = true ∧ pmd ≠ 0 ∧ id.pmdCode = pmd ∧ (id.powerLevel = 1 ∨ id.powerLevel = 2) ∧ id.answers = true) ∧
  (∀ (t port : Nat) (id : SfpId) (s : State), (s.arrive t).awake = true → (s.arrive t).boot.coresOff = false →
    ∃ v : State, exec (.transceiverInsertion t port id) s = .next v ∧ v.sfp = setAt (s.arrive t).sfp port fun _ =>
      { id := id, linkUp := sfpFits ((s.arrive t).conf.map.pmd.getD port 0) id, alarm := false, alarmClearAt := 0 }) ∧
  (∀ (t port : Nat) (high : Bool) (s : State), (s.arrive t).awake = true → (s.arrive t).boot.coresOff = false →
    ∃ v : State, exec (.transceiverMonitor t port high) s = .next v ∧ v.sfp = setAt (s.arrive t).sfp port fun x =>
      if high then { x with alarm := true, linkUp := false } else if x.alarm then { x with alarm := false, alarmClearAt := (s.arrive t).time.now } else x) ∧
  (∀ (t port : Nat) (s : State), (s.arrive t).awake = true → (s.arrive t).boot.coresOff = false →
    ∃ v : State, exec (.linkReturn t port) s = .next v ∧ v.sfp = setAt (s.arrive t).sfp port fun x =>
      if x.linkUp = false ∧ x.alarm = false ∧ x.alarmClearAt + 2500000000 ≤ (s.arrive t).time.now ∧
          sfpFits ((s.arrive t).conf.map.pmd.getD port 0) x.id = true then { x with linkUp := true } else x) ∧
  (∀ (t port : Nat) (high : Bool) (s : State), (s.arrive t).awake = true → (s.arrive t).boot.coresOff = false →
    ((setAt (s.arrive t).sfp port (SfpSt.monitor (s.arrive t).time.now high)).map fun x => x.linkUp) = ((s.arrive t).sfp.map fun x => x.linkUp) →
    exec (.transceiverMonitor t port high) s = .next ((s.arrive t).upSfp fun l => setAt l port (SfpSt.monitor (s.arrive t).time.now high)))

/-! ## Digital channels (14) -/

/-- A valid sequencer update loads what was waiting, ends a silence and brings the link up; an invalid one is counted (R322, R329); a
silence applies each channel's safe state, once, and is counted (R325). At its apply instant a loaded output is commanded, unless a case of
R325 holds, and its point follows the report.
The model's choices within: log 126, 127. -/
def Obligations.LocalOutputsFollowTheSequencer : Prop :=
  (∀ (t : Nat) (s : State), (s.arrive t).awake = true →
    exec (.sequencerUpdate t 0 true) s = .next ((s.arrive t).upDio fun d => { d with silent := false, linkUp := true, ch := d.ch.map fun c =>
      if c.next.isSome then { c with loaded := c.next, next := none } else c }) ∧
    exec (.sequencerUpdate t 1 true) s = .next ((s.arrive t).upUa fun d => { d with silent := false, linkUp := true, ch := d.ch.map fun c =>
      if c.next.isSome then { c with loaded := c.next, next := none } else c }) ∧
    exec (.sequencerUpdate t 0 false) s = .next ((s.arrive t).upDio fun d => { d with linkErrors := inc32 d.linkErrors }) ∧
    exec (.sequencerUpdate t 1 false) s = .next ((s.arrive t).upUa fun d => { d with linkErrors := inc32 d.linkErrors })) ∧
  (∀ (t : Nat) (s : State), (s.arrive t).awake = true →
    ((s.arrive t).dio.silent = false → Does (.silenceTimeout t 0) t s [.dio, .ua] fun u v => v.ua = u.ua ∧
      v.dio.silent = true ∧ v.dio.linkUp = false ∧ v.dio.silences = inc32 u.dio.silences ∧ v.dio.overloads = u.dio.overloads ∧
      ∀ n, n < u.dio.ch.length → v.dioCh n = { u.dioCh n with commanded := match bits (u.dioWord n) 8 2 with
        | 1 => true | 2 => (u.dioCh n).lastApplied | _ => false }) ∧
    ((s.arrive t).ua.silent = false → Does (.silenceTimeout t 1) t s [.dio, .ua] fun u v => v.dio = u.dio ∧
      v.ua.silent = true ∧ v.ua.linkUp = false ∧ v.ua.silences = inc32 u.ua.silences ∧
      ∀ n, n < u.ua.ch.length → v.uaCh n = { u.uaCh n with commanded := uaSafe (u.uaWord n) (u.uaWord1 n) (u.uaCh n) }) ∧
    ((s.arrive t).dio.silent = true → exec (.silenceTimeout t 0) s = .next (s.arrive t))) ∧
  (∀ (t n status : Nat) (m : Raw) (b : Bool) (c : Word) (s : State), (s.arrive t).awake = true → n < 16 → n < (s.arrive t).dio.ch.length →
    ((s.arrive t).dioCh n).loaded = some (b, c) →
    Does (.outputApply t n status m) t s [.cache, .mem, .cnt, .dio] fun u v =>
      (v.dioCh n).loaded = none ∧
      ((u.dio.silent = true ∨ u.power.safeN = true ∨ u.power.mode = 7 ∨ u.dio.retireSafe = true) →
        (v.dioCh n).commanded = (u.dioCh n).commanded ∧ (v.dioCh n).lastApplied = (u.dioCh n).lastApplied) ∧
      (u.dio.silent = false → u.power.safeN = false → u.power.mode ≠ 7 → u.dio.retireSafe = false →
        (v.dioCh n).commanded = b ∧ (v.dioCh n).lastApplied = b) ∧
      (∀ k, k ≠ n → v.dioCh k = u.dioCh k) ∧
      (∀ p, u.conf.localPoint n true = some p → u.dio.fldLost = false → (u.dioCh n).overload = false → status = 0 →
        v.mem = (u.ackOutput p.handle c).mem) ∧
      (∀ p, u.conf.localPoint n true = some p → u.dio.fldLost = true →
        v.mem = (u.upImg p.handle fun g => ({ g with age := ageUp g.age, held := true }).withQuality 0x82).mem) ∧
      (∀ p, u.conf.localPoint n true = some p → u.dio.fldLost = false → (u.dioCh n).overload = true →
        v.mem = (u.upImg p.handle fun g => ({ g with age := ageUp g.age, held := true }).withQuality 0x87).mem) ∧
      (u.conf.localPoint n true = none → v.mem = u.mem) ∧
      (status ≠ 0 ∨ u.pair.owner = false ∨ u.driving = false → v.cnt = u.cnt)) ∧
  (∀ (t n : Nat) (status : Nat) (m : Raw) (s : State), (s.arrive t).awake = true → n < 16 → ((s.arrive t).dioCh n).loaded = none →
    exec (.outputApply t n status m) s = .next (s.arrive t)) ∧
  (∀ (t n status : Nat) (m x : Raw) (c : Word) (s : State), (s.arrive t).awake = true → n < 8 → n < (s.arrive t).ua.ch.length →
    ((s.arrive t).uaCh n).loaded = some (x, c) →
    ((s.arrive t).uaMute n = true → exec (.outputApply t (0x100 + n) status m) s = .next (s.arrive t)) ∧
    ((s.arrive t).uaMute n = false → Does (.outputApply t (0x100 + n) status m) t s [.cache, .mem, .cnt, .ua] fun u v =>
      (v.uaCh n).loaded = none ∧ (v.uaCh n).conv = some m ∧ (∀ k, k ≠ n → v.uaCh k = u.uaCh k) ∧
      ((u.ua.silent = true ∨ u.power.safeN = true ∨ u.power.mode = 7 ∨ u.ua.retireSafe = true ∨ (u.uaCh n).overrange = true) →
        (v.uaCh n).commanded = (u.uaCh n).commanded ∧ (v.uaCh n).lastApplied = (u.uaCh n).lastApplied) ∧
      (u.ua.silent = false → u.power.safeN = false → u.power.mode ≠ 7 → u.ua.retireSafe = false → (u.uaCh n).overrange = false →
        (v.uaCh n).commanded = x ∧ (v.uaCh n).lastApplied = some x)))

/-- Faults of digital channels: a broken wire (R320), overload and the aggregate limiter from the highest channel down (R321), a readback
mismatch (R324), the field supply (R326); each setting is counted, and recorded where the rule says so.
The model's choices within: log 126. -/
def Obligations.DigitalFaultsAreCounted : Prop :=
  (∀ (t n : Nat) (broken : Bool) (s : State), (s.arrive t).awake = true → (s.arrive t).dioMode n = 1 → bit ((s.arrive t).dioWord n) 7 = true →
    (s.arrive t).dio.fldLost = false → n < 16 → n < (s.arrive t).dio.ch.length →
    Does (.wireBreakDetect t n broken) t s [.dio] fun u v => v.dioCh n = { u.dioCh n with wireBreak := broken } ∧
      (∀ k, k ≠ n → v.dioCh k = u.dioCh k) ∧
      v.dio.wireBreaks = (if broken = true ∧ (u.dioCh n).wireBreak = false then inc32 u.dio.wireBreaks else u.dio.wireBreaks)) ∧
  (∀ (t n : Nat) (s : State), (s.arrive t).awake = true → ((s.arrive t).dioMode n = 2 ∨ (s.arrive t).dioMode n = 3) → n < 16 →
    exec (.overload t n true) s = .next ((s.arrive t).setDio n fun c => { c with overload := false }) ∧
    (((s.arrive t).dioCh n).overload = false → n < (s.arrive t).dio.ch.length → Does (.overload t n false) t s [.cache, .dio, .log] fun u v =>
      v.dioCh n = { u.dioCh n with overload := true, provedFrom := none } ∧ v.dio.overloads = inc32 u.dio.overloads ∧
      (∀ k, k ≠ n → v.dioCh k = u.dioCh k))) ∧
  (∀ (t ma : Nat) (s : State), (s.arrive t).awake = true →
    (ma ≤ 5500 → exec (.aggregateLimit t ma) s = .next ((s.arrive t).upDio fun d => { d with outMa := ma, aggLimit := false })) ∧
    (5500 < ma → (s.arrive t).dio.ch.length = 16 → Does (.aggregateLimit t ma) t s [.cache, .dio, .log] fun u v =>
      v.dio.outMa = ma ∧ v.dio.aggLimit = true ∧
      ∀ n, n < 16 → u.dioIsOut n = true → (u.dioCh n).commanded = true → (u.dioCh n).overload = false →
        (∀ k, n < k → k < 16 → ¬ (u.dioIsOut k = true ∧ (u.dioCh k).commanded = true ∧ (u.dioCh k).overload = false)) →
        (v.dioCh n).overload = true ∧ v.dio.overloads = inc32 u.dio.overloads ∧ ∀ k, k ≠ n → v.dioCh k = u.dioCh k)) ∧
  (∀ (t n : Nat) (s : State), (s.arrive t).awake = true → (s.arrive t).dioMode n = 3 → (s.arrive t).stageOn = true →
    ((s.arrive t).dioCh n).overload = false → n < 16 → n < (s.arrive t).dio.ch.length →
    exec (.mismatch t n false) s = .next ((s.arrive t).setDio n fun c => { c with mismatch := false }) ∧
    (((s.arrive t).dioCh n).mismatch = false → Does (.mismatch t n true) t s [.cache, .dio, .log] fun u v =>
      v.dioCh n = { u.dioCh n with mismatch := true, mismatches := min 0xFFFF ((u.dioCh n).mismatches + 1) } ∧
      v.dio.mismatchEvents = inc32 u.dio.mismatchEvents ∧ ∀ k, k ≠ n → v.dioCh k = u.dioCh k)) ∧
  (∀ (t mv : Nat) (lost : Bool) (s : State), (s.arrive t).awake = true → Does (.fldLost t lost mv) t s [.cache, .dio, .log] fun u v =>
    v.dio.fldLost = lost ∧ v.dio.fldMv = mv ∧
    v.dio.fldLosses = (if lost = true ∧ u.dio.fldLost = false then inc32 u.dio.fldLosses else u.dio.fldLosses) ∧
    (∀ n, (v.dioCh n).commanded = (u.dioCh n).commanded) ∧ (u.dio.fldLost = true ∨ lost = false → v.log = u.log))

/-! ## Universal analogue channels (15) -/

/-- CONVERSION_COMPLETE and EXCITATION_WINDOW: the loop current is the voltage over the sense resistors in parallel (R335); a reading sets
the overrange and NE 43 rows of Table 15.3 that follow it; the readings of an excitation window count only in the window.
The model's choices within: log 6, 22, 24. -/
def Obligations.AnalogChannelsConvert : Prop :=
  (∀ (t n : Nat) (x : Raw) (s : State), (s.arrive t).awake = true → (s.arrive t).ua.afsLost = false → n < 8 →
    ((s.arrive t).uaMode n = 2 ∨ (s.arrive t).uaMode n = 3) →
    exec (.conversionComplete t n x) s = .next ((s.arrive t).newReading n ((s.arrive t).loopCurrent n x))) ∧
  (∀ (t n : Nat) (x : Raw) (s : State), (s.arrive t).awake = true → (s.arrive t).ua.afsLost = false → n < 8 →
    ((s.arrive t).uaMode n = 1 ∨ (s.arrive t).uaMode n = 7 ∨ (s.arrive t).uaMode n = 8) →
    exec (.conversionComplete t n x) s = .next ((s.arrive t).newReading n (unitsOfRaw ((s.arrive t).uaWord n) x))) ∧
  (∀ (s : State) (n : Nat) (x : Word), s.pair.peerPresent = false →
    s.loopCurrent n x = f64Mul (f64OfF32 x) (f64Div (f64OfInt 1000000) (f64OfInt (Config.senseMilliohm n (s.multiDrop n) : Nat)))) ∧
  (∀ (s : State) (n : Nat) (x : Word), s.pair.peerPresent = true → s.ua.senseUnknown = true → s.multiDrop n = false →
    s.loopCurrent n x = f64Mul (f64OfF32 x) (f64Add (f64Div (f64OfInt 1000000) (f64OfInt (Config.senseMilliohm n false : Nat)))
      (f64Div (f64OfInt 1000000) (f64OfInt 500000)))) ∧
  (∀ (s : State) (n : Nat) (x : Word), s.pair.peerPresent = true → s.ua.senseUnknown = false → (s.uaCh n).twinIn = true →
    s.loopCurrent n x = f64Mul (f64OfF32 x) (f64Add (f64Div (f64OfInt 1000000) (f64OfInt (Config.senseMilliohm n (s.multiDrop n) : Nat)))
      (f64Div (f64OfInt 1000000) (f64OfInt ((s.uaCh n).twinMilliohm : Nat))))) ∧
  (∀ (n : Nat) (y : Word64) (s : State), n < s.ua.ch.length →
    ((s.newReading n y).uaCh n).conv = rawOfUnits (s.uaWord n) y ∧ ((s.newReading n y).uaCh n).reading = f32OfF64 y ∧
    ((s.newReading n y).uaCh n).overrange = s.beyond n y ∧ ((s.newReading n y).uaCh n).wireBreak = (s.uaCh n).wireBreak ∧
    (bit (s.uaWord n) 17 = false → ((s.newReading n y).uaCh n).alarmLow = false ∧ ((s.newReading n y).uaCh n).alarmHigh = false) ∧
    ∀ k, k ≠ n → (s.newReading n y).uaCh k = s.uaCh k) ∧
  (∀ (t : Nat) (rs : List (Nat × Nat × Nat)) (s : State), (s.arrive t).awake = true → (s.arrive t).ua.afsLost = false →
    ((s.arrive t).tb0Valid = true ∨ (s.arrive t).pair.peerPresent = false) →
    exec (.excitationWindow t true rs) s = .next ((s.arrive t).upUa fun u => { u with excited := true }) ∧
    ((s.arrive t).ua.excited = false → exec (.excitationWindow t false rs) s = .next (s.arrive t)) ∧
    ((s.arrive t).ua.excited = true →
      exec (.excitationWindow t false rs) s = .next ((rs.foldl (fun s r => s.windowReading r) (s.arrive t)).upUa fun u => { u with excited := false }))) ∧
  (∀ (n r1 r2 : Nat) (s : State),
    (s.uaMode n = 4 → s.windowReading (n, r1, r2) = s.newReading n (Config.rtdCelsius (bits (s.uaWord n) 24 4) (r1 - bits (s.uaWord1 n) 0 16))) ∧
    (s.uaMode n = 5 → s.windowReading (n, r1, r2) = s.newReading n (Config.rtdCelsius (bits (s.uaWord n) 24 4) (Config.rtd3Milliohm r1 r2))) ∧
    (s.uaMode n ≠ 4 → s.uaMode n ≠ 5 → s.uaMode n ≠ 6 → s.windowReading (n, r1, r2) = s))

/-- Faults of an analogue channel are set, cleared, counted and recorded (Table 15.3); AFS24 stops the front end and forgets what HOLD would
show (R341); the twin's reports of its resistor and settings (R335, R336).
The model's choices within: log 127. -/
def Obligations.AnalogFaultsAndTheTwin : Prop :=
  (∀ (t n : Nat) (f : UaFault) (cleared : Bool) (s : State), (s.arrive t).awake = true → (s.arrive t).uaMode n ≠ 0 → n < 8 →
    n < (s.arrive t).ua.ch.length → Does (.uaChannelFault t n f cleared) t s [.cache, .ua, .log] fun u v =>
      v.uaCh n = (match f with
        | .miswire => { u.uaCh n with miswire := !cleared } | .wireBreak => { u.uaCh n with wireBreak := !cleared }
        | .compliance => { u.uaCh n with compliance := !cleared } | .alarmLow => { u.uaCh n with alarmLow := !cleared }
        | .alarmHigh => { u.uaCh n with alarmHigh := !cleared } | .overrange => { u.uaCh n with overrange := !cleared }
        | .ne43Range => { u.uaCh n with ne43Range := !cleared }) ∧
      (∀ k, k ≠ n → v.uaCh k = u.uaCh k) ∧
      (f = .miswire → cleared = false → (u.uaCh n).miswire = false → v.ua.miswires = inc32 u.ua.miswires) ∧
      (f = .wireBreak → cleared = false → (u.uaCh n).wireBreak = false → v.ua.wireBreaks = inc32 u.ua.wireBreaks) ∧
      (f = .compliance → cleared = false → (u.uaCh n).compliance = false → v.ua.complianceEvents = inc32 u.ua.complianceEvents) ∧
      (cleared = true → v.log = u.log)) ∧
  (∀ (t mv : Nat) (lost : Bool) (s : State), (s.arrive t).awake = true → Does (.afsLost t lost mv) t s [.cache, .ua, .log] fun u v =>
    v.ua.afsLost = lost ∧ v.ua.afsMv = mv ∧ (lost = true → v.ua.linkUp = false ∧ v.ua.excited = false) ∧
    v.ua.afsLosses = (if lost = true ∧ u.ua.afsLost = false then inc32 u.ua.afsLosses else u.ua.afsLosses) ∧
    (lost = true → ∀ n, n < u.ua.ch.length → (v.uaCh n).lastApplied = none ∧ (v.uaCh n).conv = none ∧ (v.uaCh n).loaded = none) ∧
    (lost = false → v.ua.ch = u.ua.ch) ∧ (u.ua.afsLost = true ∨ lost = false → v.log = u.log)) ∧
  (∀ (t n mo : Nat) (inC : Bool) (w : Word) (s : State), (s.arrive t).awake = true → (s.arrive t).swathSilent = false → n < 8 →
    n < (s.arrive t).ua.ch.length → Does (.twinSenseReport t n inC mo w) t s [.ua] fun u v =>
      (v.uaCh n).twinIn = inC ∧ (v.uaCh n).twinMilliohm = mo ∧ (v.uaCh n).twinAt = some u.time.now ∧ v.ua.senseUnknown = false ∧
      (bits w.toNat 24 8 = bits (u.uaWord n) 24 8 → bits w.toNat 10 6 = bits (u.uaWord n) 10 6 → (v.uaCh n).differs = false) ∧
      (bits w.toNat 24 8 ≠ bits (u.uaWord n) 24 8 ∨ bits w.toNat 10 6 ≠ bits (u.uaWord n) 10 6 →
        (v.uaCh n).differs = true ∧ v.ua.twinDiffers = true) ∧
      (((u.uaCh n).twinIn ≠ inC ∨ (u.uaCh n).twinMilliohm ≠ mo) → (v.uaCh n).quietUntil = u.time.now + 2500000) ∧
      ((u.uaCh n).twinIn = inC → (u.uaCh n).twinMilliohm = mo → (v.uaCh n).quietUntil = (u.uaCh n).quietUntil) ∧
      ∀ k, k ≠ n → v.uaCh k = u.uaCh k) ∧
  (∀ (t : Nat) (s : State), (s.arrive t).awake = true → (s.arrive t).pair.peerPresent = true →
    (∀ c ∈ (s.arrive t).ua.ch, ∀ a, c.twinAt = some a → a + 75000000 ≤ (s.arrive t).time.now) →
    exec (.twinSenseTimeout t) s = .next ((s.arrive t).upUa fun u => { u with senseUnknown := true }))

/-- HART (R344–R346): HART_PUT, HART_GET, HART_REPLY and HART_POLL.
The model's choices within: log 25. -/
def Obligations.HartServesRequestsInOrder : Prop :=
  (∀ (t n addr cmd : Nat) (data : List Byte) (s : State), (s.arrive t).awake = true →
    ((8 ≤ n ∨ 250 < data.length ∨ (((s.arrive t).hartMode n ≠ 1 ∨ addr ≠ 0) ∧
        ((s.arrive t).hartMode n ≠ 2 ∨ addr = 0 ∨ (s.arrive t).hartDevices n < addr))) →
      exec (.hartPut t n addr cmd data) s = .next ((s.arrive t).emit (.call stRange []))) ∧
    (n < 8 → data.length ≤ 250 → ((s.arrive t).hartMode n = 1 ∧ addr = 0 ∨
        (s.arrive t).hartMode n = 2 ∧ 1 ≤ addr ∧ addr ≤ (s.arrive t).hartDevices n) →
      (32 ≤ ((s.arrive t).modem (n / 4)).queue.length → exec (.hartPut t n addr cmd data) s = .next ((s.arrive t).emit (.call stCapacity []))) ∧
      (((s.arrive t).modem (n / 4)).queue.length < 32 → (s.arrive t).ua.modems.length = 2 →
        Does (.hartPut t n addr cmd data) t s [.out, .ua] fun u v =>
          v.ua.nextId = u.ua.nextId + 1 ∧ v.out.getLast? = some (.call stOk [u.ua.nextId]) ∧
          (v.modem (n / 4)).queue = (u.modem (n / 4)).queue ++
            [{ id := u.ua.nextId, ch := n, addr := addr, cmd := cmd, data := data, tries := 0, internal := false }]))) ∧
  (∀ (t id : Nat) (s : State), (s.arrive t).awake = true →
    ((∃ d ∈ (s.arrive t).ua.modems, ∃ q ∈ d.queue, q.id = id ∧ q.internal = false) →
      exec (.hartGet t id) s = .next ((s.arrive t).emit (.call stBusy []))) ∧
    ((∀ d ∈ (s.arrive t).ua.modems, ∀ q ∈ d.queue, q.id = id → q.internal = true) →
      (∀ rc ds data, ((s.arrive t).ua.results.find? fun r => r.1 == id) = some (id, stOk, rc, ds, data) →
        exec (.hartGet t id) s = .next ((s.arrive t).emit (.call stOk (rc :: ds :: data.map BitVec.toNat)))) ∧
      (∀ rc ds data, ((s.arrive t).ua.results.find? fun r => r.1 == id) = some (id, stTimeout, rc, ds, data) →
        exec (.hartGet t id) s = .next ((s.arrive t).emit (.call stTimeout []))) ∧
      (((s.arrive t).ua.results.find? fun r => r.1 == id) = none → exec (.hartGet t id) s = .next ((s.arrive t).emit (.call stUnknown []))))) ∧
  (∀ (t m : Nat) (s : State), (s.arrive t).awake = true → (s.arrive t).ua.afsLost = false → m < 2 →
    exec (.hartReply t m .burst) s = .next ((s.arrive t).upUa fun u => { u with bursts := inc32 u.bursts }) ∧
    ((s.arrive t).ua.modems.length = 2 → ∀ q qs, ((s.arrive t).modem m).queue = q :: qs → q.internal = false →
      (∀ rc ds data, bit ds 6 = false → Does (.hartReply t m (.reply rc ds data)) t s [.out, .ua] fun u v =>
        (v.modem m).queue = qs ∧ v.ua.results = (q.id, stOk, rc, ds, data) :: u.ua.results ∧
        v.ua.hartTransactions = inc32 u.ua.hartTransactions ∧ v.ua.hartFailures = u.ua.hartFailures) ∧
      (q.tries < 2 → Does (.hartReply t m .noReply) t s [.out, .ua] fun u v =>
        (v.modem m).queue = { q with tries := q.tries + 1 } :: qs ∧ v.ua.results = u.ua.results ∧
        v.ua.hartTransactions = u.ua.hartTransactions) ∧
      (2 ≤ q.tries → Does (.hartReply t m .noReply) t s [.out, .ua] fun u v =>
        (v.modem m).queue = qs ∧ v.ua.results = (q.id, stTimeout, 0, 0, []) :: u.ua.results ∧
        v.ua.hartTransactions = inc32 u.ua.hartTransactions ∧ v.ua.hartFailures = inc32 u.ua.hartFailures))) ∧
  (∀ (t m : Nat) (s : State), (s.arrive t).driving = true → (s.arrive t).ua.afsLost = false → m < 2 → (s.arrive t).ua.modems.length = 2 →
    Does (.hartPoll t m) t s [.out, .ua] fun u v =>
      (v.modem m).queue = (u.modem m).queue ++ (u.declaredDevices m).map fun d =>
        { id := 0, ch := d.1, addr := d.2, cmd := 48, data := [], tries := 0, internal := true }) ∧
  (∀ (s : State) (m n a : Nat), (n, a) ∈ s.declaredDevices m ↔ 4 * m ≤ n ∧ n < 4 * m + 4 ∧
    (s.hartMode n = 1 ∧ a = 0 ∨ s.hartMode n = 2 ∧ 1 ≤ a ∧ a ≤ s.hartDevices n))

/-! ## Points and the image (02) -/

/-- An image entry is the aligned 8-byte word at 8 × h, little-endian, with the fields of Table 2.2; a write of it reads back and changes no
other entry, no rule and no other byte; handle positions whose rule has kind 0 read as 0x0000_0000_8600_FFFF (R18–R21). -/
def Obligations.ImageEntriesReadBack : Prop :=
  (∀ (h : Nat) (g : Img) (s : State), Memory.wf s.mem = true → h ≤ 0x5FFFFF → ruleKind (s.ruleOf h) ≠ 0 → g.quality < 256 → g.age < 65536 →
    ((s.setImage h (imgWord g)).img h = g) ∧ (∀ k, k ≠ h → (s.setImage h (imgWord g)).img k = s.img k) ∧
    (∀ k, (s.setImage h (imgWord g)).ruleOf k = s.ruleOf k) ∧
    (∀ a, (a < 8 * h ∨ 8 * h + 8 ≤ a) → memRead (s.setImage h (imgWord g)).mem a = memRead s.mem a) ∧
    (∀ i, i < 8 → memRead (s.setImage h (imgWord g)).mem (8 * h + i) = BitVec.ofNat 8 ((imgWord g).toNat / 256 ^ i)) ∧
    Frame [.cache, .mem] s (s.setImage h (imgWord g))) ∧
  (∀ g : Img, g.quality < 256 → g.age < 65536 → (imgWord g).toNat = g.value.toNat * 2 ^ 32 + g.quality * 2 ^ 24 + b2n g.forced * 2 ^ 23 +
    b2n g.simulated * 2 ^ 22 + b2n g.changed * 2 ^ 21 + b2n g.stamped * 2 ^ 20 + b2n g.held * 2 ^ 19 + b2n g.pend * 2 ^ 18 +
    b2n g.timed * 2 ^ 17 + g.age) ∧
  (∀ (h : Nat) (s : State), ruleKind (s.ruleOf h) = 0 → s.image h = 0x000000008600FFFF#64 ∧ (s.img h).quality = 0x86 ∧ (s.img h).age = 0xFFFF ∧
    (s.img h).value = 0) ∧
  (∀ (h : Nat) (f : Img → Img) (s : State), Memory.wf s.mem = true → h ≤ 0x5FFFFF → ruleKind (s.ruleOf h) ≠ 0 → (f (s.img h)).quality < 256 →
    (f (s.img h)).age < 65536 → (s.upImg h f).img h = f (s.img h))

/-- The rows of Table 2.10 and R22, R38 to R41: QUALITY, VALUE, AGE and HELD of a point after each event; a force, then a simulation, comes
before every other quality, and the values of completions for a forced or simulated input are discarded.
The model's choices within: log 86. -/
def Obligations.QualityFollowsTable210 : Prop :=
  (∀ (g : Img) (v same : Word) (st : Bool), g.forced = false → g.simulated = false →
    g.good v st same = { g with value := v, quality := 0, age := 0, held := false, changed := v != same, stamped := st }) ∧
  (∀ (g : Img) (v same : Word) (st : Bool), (g.forced = true ∨ g.simulated = true) →
    (g.good v st same).value = g.value ∧ (g.good v st same).quality = g.quality ∧ (g.good v st same).age = 0) ∧
  (∀ (g : Img) (q : Nat) (same : Word), (g.bad q same).value = g.value ∧ (g.bad q same).age = min 0xFFFF (g.age + 1) ∧
    (g.forced = false → g.simulated = false → (g.bad q same).quality = q ∧ (g.bad q same).held = true) ∧
    ((g.forced = true ∨ g.simulated = true) → (g.bad q same).quality = g.quality)) ∧
  (∀ (g : Img) (limit : Nat) (same : Word), (g.missing limit same).value = g.value ∧ (g.missing limit same).age = min 0xFFFF (g.age + 1) ∧
    (g.missing limit same).held = true ∧
    (g.forced = false → g.simulated = false → (g.missing limit same).quality = if g.age + 1 ≤ limit then 0x40 else 0x80)) ∧
  (∀ (g : Img) (limit : Nat), (g.missingOut limit).value = g.value ∧ (g.missingOut limit).age = min 0xFFFF (g.age + 1) ∧
    (g.missingOut limit).held = true ∧ (g.missingOut limit).pend = g.pend ∧
    (g.forced = false → g.simulated = false → (g.missingOut limit).quality = if g.age + 1 ≤ limit then 0x40 else 0x80)) ∧
  (∀ (g : Img) (q : Nat), (g.forced = true → (g.withQuality q).quality = 1) ∧ (g.forced = false → g.simulated = true → (g.withQuality q).quality = 2) ∧
    (g.forced = false → g.simulated = false → (g.withQuality q).quality = q)) ∧
  (∀ g : Img, g.release = { g with forced := false, simulated := false, quality := 0x41, held := true }) ∧
  (∀ init : Word, newImg init = { value := init, quality := 0x41, forced := false, simulated := false, changed := false, stamped := false, held := true, pend := false, timed := false, age := 0xFFFF }) ∧
  (∀ q : Nat, statusQuality q = if q = 0 ∨ (0x81 ≤ q ∧ q ≤ 0x85) ∨ q = 0x87 then q else 0x86) ∧
  (∀ (h : Nat) (v : Word) (s : State), Memory.wf s.mem = true → h ≤ 0x5FFFFF → ruleKind (s.ruleOf h) ≠ 0 →
    (v = s.carriedValue h → (s.ackOutput h v).img h =
      ({ s.img h with held := false, pend := false, age := 0 } : Img).withQuality 0) ∧
    (v ≠ s.carriedValue h → (s.ackOutput h v).img h = { s.img h with held := false }))

/-- R26 to R41: what the item of a completion does to its input point: a bad status, an input without transform and filter, and the discard of
the values of a forced input.
The model's choices within: log 5. -/
def Obligations.CompletionsReachTheirPoints : Prop :=
  (∀ (h status : Nat) (r : Word64) (ws : List Word) (s : State), Memory.wf s.mem = true → h ≤ 0x5FFFFF → ruleKind (s.ruleOf h) ≠ 0 → status ≠ 0 →
    (s.img h).forced = false → (s.img h).simulated = false →
    ((s.complete h r status ws).img h).quality = statusQuality status ∧ ((s.complete h r status ws).img h).value = (s.img h).value ∧
    ((s.complete h r status ws).img h).age = min 0xFFFF ((s.img h).age + 1) ∧ ((s.complete h r status ws).img h).held = true) ∧
  (∀ (h : Nat) (r : Word64) (w : Word) (s : State), Memory.wf s.mem = true → h ≤ 0x5FFFFF → ruleKind (s.ruleOf h) ≠ 0 →
    (s.img h).forced = false → (s.img h).simulated = false → (s.conf.filter r).type = 0 →
    (ruleKind r = 1 → ((s.complete h r 0 [w]).img h) = (s.img h).good (BitVec.ofNat 32 (b2n (itemBit r w))) false (s.published h)) ∧
    (ruleKind r = 7 → ((s.complete h r 0 [w]).img h) = (s.img h).good w false (s.published h))) ∧
  (∀ (h : Nat) (r : Word64) (ws : List Word) (s : State), Memory.wf s.mem = true → h ≤ 0x5FFFFF → ruleKind (s.ruleOf h) ≠ 0 →
    ((s.img h).forced = true ∨ (s.img h).simulated = true) →
    ((s.complete h r 0 ws).img h).value = (s.img h).value ∧ ((s.complete h r 0 ws).img h).quality = (s.img h).quality ∧
    ((s.complete h r 0 ws).img h).age = 0) ∧
  (∀ (h status : Nat) (r : Word64) (ws : List Word) (s : State), Frame [.cache, .mem, .pts] s (s.complete h r status ws))

/-! ## Time (06) -/

/-- TIME_NOW answers all 112 bits of one tick; PPS_IN, DIO15, the interval timers, the trigger slots, the gate lists, PPS_OUT and the saving
of TB3 (R121, R123, R125, R137–R142).
The model's choices within: log 92. -/
def Obligations.ClockReadsPulsesAndCaptures : Prop :=
  (∀ (t b : Nat) (s : State), (s.arrive t).awake = true → (s.arrive t).boot.coresOff = false → b < 4 →
    exec (.timeNow t b) s = .next ((s.arrive t).emit (.call stOk [(s.arrive t).fine b / 65536 / 1000000000,
      (s.arrive t).fine b / 65536 % 1000000000, (s.arrive t).fine b % 65536]))) ∧
  (∀ (t p d : Nat) (s : State), (s.arrive t).timeRuns = true → (s.arrive t).linkUp p = true →
    exec (.gptpIntervalTimer t 1 p d) s = .next ((s.arrive t).emit (.gptp 1 p 0 0)) ∧
    (∀ k n, (k = 0 ∨ k = 2) → (s.arrive t).baseOfDomain d = some n → ((s.arrive t).port p).role n = 1 →
      ((s.arrive t).base n).st = 6 → (s.arrive t).mayBeGm n = true →
      exec (.gptpIntervalTimer t k p d) s = .next ((s.arrive t).emit (.gptp k p d (s.arrive t).priority1))) ∧
    (∀ k n, (k = 0 ∨ k = 2) → (s.arrive t).baseOfDomain d = some n → ((s.arrive t).port p).role n ≠ 1 →
      exec (.gptpIntervalTimer t k p d) s = .next (s.arrive t))) ∧
  (∀ s : State, s.power.mode = 4 → s.priority1 = min 255 (s.conf.time.priority1 + 1)) ∧
  (∀ s : State, s.power.mode ≠ 4 → s.priority1 = s.conf.time.priority1) ∧
  (∀ (t p d n : Nat) (a b c : Int) (s : State), (s.arrive t).timeRuns = true → (s.arrive t).baseOfDomain d = some n →
    exec (.messageIntervalRequest t p d a b c) s = .next ((s.arrive t).setPort p fun q =>
      { q with logSync := if -7 ≤ a ∧ a ≤ 0 then a else q.logSync, logPdelay := if -3 ≤ b ∧ b ≤ 3 then b else q.logPdelay })) ∧
  (∀ (t slot : Nat) (s : State), (s.arrive t).triggerOn slot = true →
    (bits (((s.arrive t).trigger slot).getD 0 0) 24 8 = 2 →
      exec (.triggerFire t slot) s = .next ((s.arrive t).emit (.convert (bits (((s.arrive t).trigger slot).getD 0 0) 16 8)))) ∧
    (bits (((s.arrive t).trigger slot).getD 0 0) 24 8 = 3 → ∀ e es, (s.arrive t).gclOf (bits (((s.arrive t).trigger slot).getD 0 0) 16 8) = e :: es →
      exec (.triggerFire t slot) s = .next ((s.arrive t).setPort (bits (((s.arrive t).trigger slot).getD 0 0) 16 8) fun q =>
        { q with gclRunning := true, gclIndex := 0, gates := e.gates })) ∧
    (bits (((s.arrive t).trigger slot).getD 0 0) 24 8 = 4 →
      exec (.triggerFire t slot) s = .next ((s.arrive t).emit (.trigOut (bits (((s.arrive t).trigger slot).getD 3 0) 0 24))))) ∧
  (∀ (t : Nat) (s : State), (s.arrive t).awake = true →
    (2 ≤ ((s.arrive t).base (s.arrive t).conf.time.ppsOutBase).st → exec (.ppsOutPulse t) s = .next ((s.arrive t).emit .ppsOut)) ∧
    (((s.arrive t).base (s.arrive t).conf.time.ppsOutBase).st < 2 → exec (.ppsOutPulse t) s = .next (s.arrive t))) ∧
  (∀ (t : Nat) (rising : Bool) (s : State), (s.arrive t).ppsOn rising = true →
    Does (.ppsInEdge t rising) t s [.time] fun u v =>
      (16 ≤ u.time.fifo.length → v.time.fifo = u.time.fifo ∧ v.time.overflows = inc32 u.time.overflows ∧ v.time.ppsEdges = u.time.ppsEdges) ∧
      (u.time.fifo.length < 16 → v.time.overflows = u.time.overflows ∧ v.time.ppsEdges = inc32 u.time.ppsEdges ∧
        v.time.fifo = u.time.fifo ++ [{ stamp := u.fine (bits u.conf.time.ppsIn 2 2), rising := rising, base := bits u.conf.time.ppsIn 2 2 }]) ∧
      (bits u.conf.time.ppsIn 2 2 = 0 → v.time.ppsOffset = ppsOffset (u.fine 0) ∧ -500000000 ≤ v.time.ppsOffset ∧ v.time.ppsOffset ≤ 499999999) ∧
      (bits u.conf.time.ppsIn 2 2 ≠ 0 → v.time.ppsOffset = u.time.ppsOffset) ∧
      v.time.tb0 = u.time.tb0 ∧ v.time.tb1 = u.time.tb1 ∧ v.time.tb3 = u.time.tb3) ∧
  (∀ (t : Nat) (rising : Bool) (s : State), (s.arrive t).dio15On rising = true →
    Does (.dio15Edge t rising) t s [.time] fun u v =>
      v.time.dio15Edges = inc32 u.time.dio15Edges ∧ v.time.dio15At = some u.time.now ∧ v.time.dio15Rising = rising ∧
      ((∀ a, u.time.dio15At = some a → a + 2500 ≤ u.time.now) → v.time.dio15Last = some u.tb0 ∧ v.time.dio15Lost = u.time.dio15Lost) ∧
      (∀ a, u.time.dio15At = some a → u.time.now < a + 2500 → v.time.dio15Last = u.time.dio15Last ∧ v.time.dio15Lost = u.time.dio15Lost + 1)) ∧
  (∀ (t p : Nat) (s : State), (s.arrive t).awake = true →
    (∀ e, ((s.arrive t).gclOf p)[((s.arrive t).port p).gclIndex + 1]? = some e → ((s.arrive t).port p).gclRunning = true →
      exec (.gateControlInterval t p) s = .next ((s.arrive t).setPort p fun q => { q with gclIndex := q.gclIndex + 1, gates := e.gates })) ∧
    (((s.arrive t).gclOf p)[((s.arrive t).port p).gclIndex + 1]? = none → exec (.gateControlInterval t p) s = .next (s.arrive t))) ∧
  (∀ (t : Nat) (s : State), (s.arrive t).awake = true → (s.arrive t).power.mode ≠ 1 →
    exec (.tb3Save t) s = .next ((s.arrive t).upTime fun c =>
      { c with storedTb3 := c.tb3, storedDiff := ((c.tb0.acc / 2 ^ 32 : Nat) : Int) - c.tb3 }))

/-- R122, R129 and Table 6.4: what a Sync does. Only the slave port's measures; in TWIN the offset steers nothing; a base that was stepped
takes the state of its offset and a RATE within 500 ppm, its value unchanged; one that was not measures, and steps at the eighth Sync that
agrees.
The model's choices within: log 26. -/
def Obligations.SyncsDisciplineABase : Prop :=
  (∀ (t : Nat) (m : SyncMsg) (s : State), (s.arrive t).timeRuns = true →
    ∃ v : State, exec (.sync t m) s = .next v.startAgain ∧ Frame [.cache, .time, .log] (s.arrive t) v ∧
      ((s.arrive t).baseOfDomain m.domain = none → v = (s.arrive t).upTime fun c => { c with discarded := c.discarded + 1 }) ∧
      (∀ n, (s.arrive t).baseOfDomain m.domain = some n → m.port < (s.arrive t).time.ports.length →
        (((s.arrive t).port m.port).role n ≠ 2 → v = (s.arrive t).setPort m.port fun q => { q with oneStep := m.oneStep }) ∧
        (((s.arrive t).port m.port).role n = 2 → ∀ b off, (s.arrive t).base n = b →
          off = (s.arrive t).rxStamp m.port m.rawRx - m.origin - 256 * ((s.arrive t).port m.port).delay →
          (b.st = 7 → v.base n = { b with offset := off, freq := clampTo rateMax m.ratio }) ∧
          (b.st ≠ 7 → b.stepped = true → (v.base n).st = (nextState b.st b.run off).1 ∧ (v.base n).acc = b.acc ∧
            (v.base n).stepped = true ∧ (v.base n).offset = off ∧
            (v.base n).rate = clampTo rateMax (clampTo rateMax m.ratio + slewTerm (s.arrive t).conf.time.slewPpm (nextState b.st b.run off).1 off)) ∧
          (b.st = 1 → b.stepped = false → agree8 ((b.recent ++ [off]).drop (b.recent.length + 1 - 8)) = true →
            (v.base n).st = 2 ∧ (v.base n).stepped = true ∧ ((v.base n).acc = ((b.acc : Int) - off * 2 ^ 32).toNat) ∧
            v.time.steps = inc32 (s.arrive t).time.steps) ∧
          (b.st = 1 → b.stepped = false → agree8 ((b.recent ++ [off]).drop (b.recent.length + 1 - 8)) = false →
            (v.base n).st = 1 ∧ (v.base n).stepped = false ∧ (v.base n).acc = b.acc ∧
            (v.base n).recent = (b.recent ++ [off]).drop (b.recent.length + 1 - 8) ∧ v.time.steps = (s.arrive t).time.steps)))) ∧
  (∀ x : Int, -549755813 ≤ clampTo rateMax x ∧ clampTo rateMax x ≤ 549755813) ∧
  (∀ (st run : Nat) (off : Int), 65536000000 < off.natAbs → (nextState st run off).1 = 4) ∧
  (∀ (run : Nat) (off : Int), off.natAbs ≤ 65536000 → (nextState 2 run off).1 = 2 ∧ (nextState 4 run off).1 = 3 ∧ (nextState 5 run off).1 = 2 ∧
    (15 ≤ run → (nextState 3 run off).1 = 2) ∧ (run < 15 → nextState 3 run off = (3, run + 1))) ∧
  (∀ (run : Nat) (off : Int), 65536000 < off.natAbs → off.natAbs ≤ 65536000000 → (nextState 3 run off).1 = 3 ∧ (nextState 4 run off).1 = 3 ∧
    (nextState 5 run off).1 = 3 ∧ (3 ≤ run → (nextState 2 run off).1 = 3) ∧ (run < 3 → nextState 2 run off = (2, run + 1)))

/-- R125–R126, R133 and Table 6.4: GPTP_ANNOUNCE, ANNOUNCE_RECEIPT_TIMEOUT, SYNC_RECEIPT_TIMEOUT, PDELAY_EXCHANGE and TIME_MARKER.
The model's choices within: log 9, 27, 28, 72. -/
def Obligations.GrandmastersAndTwinTime : Prop :=
  (∀ (t : Nat) (m : AnnounceMsg) (s : State), (s.arrive t).timeRuns = true →
    ((s.arrive t).baseOfDomain m.domain = none →
      exec (.gptpAnnounce t m) s = .next ((s.arrive t).upTime fun c => { c with discarded := c.discarded + 1 }).startAgain) ∧
    (∀ n, (s.arrive t).baseOfDomain m.domain = some n → (s.arrive t).extPorts n = false → n < 2 →
      ∀ u, u = (s.arrive t).setPort m.port (fun q => q.setAnn n (some m)) →
      ∃ v : State, exec (.gptpAnnounce t m) s = .next v.startAgain ∧ Frame [.cache, .time, .log] (s.arrive t) v ∧
        (∀ p a, bestOf (u.candidates n) = some (p, a) → (u.mayBeGm n = false ∨ annKey a ≤ u.ownKey) → (u.base n).st = 0 → (v.base n).st = 1 ∧ (v.base n).foreign = some a) ∧
        (∀ p a, bestOf (u.candidates n) = some (p, a) → u.mayBeGm n = true → u.ownKey < annKey a → (u.base n).st ≠ 7 →
          (v.base n).st = 6 ∧ (v.base n).rate = 0 ∧ (v.base n).acc = (u.base n).acc))) ∧
  (∀ (l : List (Nat × AnnounceMsg)) (e : Nat × AnnounceMsg), bestOf l = some e → e ∈ l ∧ ∀ x ∈ l, annKey e.2 ≤ annKey x.2) ∧
  (∀ (t n : Nat) (s : State), (s.arrive t).timeRuns = true → n < 2 → (s.arrive t).extPorts n = false → (s.arrive t).mayBeGm n = false →
    (∀ q ∈ (s.arrive t).time.ports, q.role n ≠ 2 → q.ann n = none) →
    (∃ v : State, exec (.announceReceiptTimeout t n) s = .next v.startAgain ∧ Frame [.cache, .time, .log] (s.arrive t) v ∧ (v.base n).foreign = none ∧
      (v.base n).acc = ((s.arrive t).base n).acc ∧
      (v.base n).st = if ((s.arrive t).base n).st = 1 then 0 else if ((s.arrive t).base n).st = 6 then 5 else ((s.arrive t).base n).st) ∧
    (∃ v : State, exec (.syncReceiptTimeout t n) s = .next v.startAgain ∧ Frame [.cache, .time, .log] (s.arrive t) v ∧
      (v.base n).acc = ((s.arrive t).base n).acc ∧
      (((s.arrive t).base n).st = 1 → (v.base n).st = 0 ∧ (v.base n).rate = 0) ∧
      (((s.arrive t).base n).st = 2 ∨ ((s.arrive t).base n).st = 3 ∨ ((s.arrive t).base n).st = 4 →
        (v.base n).st = 5 ∧ (v.base n).rate = clampTo rateMax ((s.arrive t).base n).freq))) ∧
  (∀ (t p a b : Nat) (s : State), (s.arrive t).timeRuns = true → (s.arrive t).linkUp p = true →
    exec (.pdelayExchange t p (.requestReceived a b)) s = .next ((s.arrive t).emit (.gptp 3 p 0 0)).startAgain) ∧
  (∀ (t p : Nat) (s : State), (s.arrive t).timeRuns = true →
    exec (.pdelayExchange t p .lost) s = .next ((s.arrive t).setPort p fun q => { q with lost := inc32 q.lost }).startAgain) ∧
  (∀ (t p t1 t2 t3 t4 : Nat) (rate d : Int) (s : State), (s.arrive t).timeRuns = true →
    d = ((s.arrive t).rxStamp p t4 - (s.arrive t).txStamp p t1 +
      (((s.arrive t).rxStamp p t4 - (s.arrive t).txStamp p t1) * rate).tdiv (2 ^ 40) - ((t3 : Int) - t2)).tdiv 512 →
    ∀ ok, (ok = true ↔ 0 ≤ d ∧ d ≤ 256 * (s.arrive t).conf.time.thresholdNs) → ((s.arrive t).port p).asCapable = ok →
    exec (.pdelayExchange t p (.completed t1 t2 t3 t4 rate)) s = .next ((s.arrive t).setPort p fun q =>
      { q with delay := min 0xFFFFFFFF d.toNat, neighborRate := rate, asCapable := ok }).startAgain) ∧
  (∀ (t : Nat) (m : Marker) (s : State), ((s.arrive t).power.mode = 3 ∨ (s.arrive t).power.mode = 4) →
    Does (.timeMarker t m) t s [.cache, .time, .log] fun u v =>
      (v.base 0).st = 7 ∧ (u.conf.time.domain1 ≠ 0xFF → (v.base 1).st = 7) ∧ v.time.twinTimeLost = false ∧
      ((u.base 0).st ≤ 1 → (u.base 0).stepped = false → (v.base 0).acc = (m.tb0 + m.roundTrip / 2) * 2 ^ 32 ∧ (v.base 0).stepped = true) ∧
      (1 < (u.base 0).st ∨ (u.base 0).stepped = true → (v.base 0).acc = (u.base 0).acc) ∧
      -549755813 ≤ (v.base 0).rate ∧ (v.base 0).rate ≤ 549755813)

/-! ## Modes (08) -/

/-- R180 and Table 8.2: a transition sets the mode, and the reason where MAINTENANCE or SAFE HOLD is entered, and only PRIMARY and SOLO keep
ownership; entry into SAFE HOLD gives ownership up with the claim and then YIELD (R151), abandons what is armed, and shows every local output's
safe state.
The model's choices within: log 73. -/
def Obligations.ModeTransitions : Prop :=
  (∀ (new reason : Nat) (s : State),
    (s.goMode new reason).power = { s.power with mode := new, reason := if new = 2 ∨ new = 7 then reason else s.power.reason } ∧
    (s.goMode new reason).pair = { s.pair with owner := s.pair.owner && (new == 5 || new == 6) } ∧
    (1 ≤ new → new ≤ 8 → Frame [.cache, .pair, .power, .gate, .sheaf, .log] s (s.goMode new reason))) ∧
  (∀ (reason : Nat) (s : State),
    (s.safeHold reason).power.mode = 7 ∧ (s.safeHold reason).power.reason = reason ∧ (s.safeHold reason).pair.owner = false ∧
    (s.safeHold reason).pair.ownClaim = false ∧ (s.safeHold reason).pair.synced = false ∧ (s.safeHold reason).pair.armed = none ∧
    (s.safeHold reason).cfg.armed = none ∧ (s.safeHold reason).pair.twinClaim = s.pair.twinClaim ∧ (s.safeHold reason).pair.term = s.pair.term ∧
    (s.safeHold reason).power.fromOwner = (s.pair.owner || (s.power.mode == 7 && s.power.fromOwner)) ∧
    (s.pair.owner = true → s.pair.ownClaim = true → s.swathSilent = false →
      (s.safeHold reason).out = s.out ++ [.hedge 0, .swath (.yield s.pair.term), .safeStates]) ∧
    (∀ n, n < s.dio.ch.length → (s.safeHold reason).dioCh n = { s.dioCh n with commanded := dioSafe (s.dioWord n) (s.dioCh n) }) ∧
    (∀ n, n < s.ua.ch.length → (s.safeHold reason).uaCh n = { s.uaCh n with commanded := uaSafe (s.uaWord n) (s.uaWord1 n) (s.uaCh n) }) ∧
    Frame [.cache, .out, .pair, .power, .cyc, .sched, .cfg, .msg, .gate, .sheaf, .dio, .ua, .can, .log] s (s.safeHold reason)) ∧
  (∀ s : State, s.power.mode ≠ 7 → s.startAgain = s)

/-! ## The pair (07) -/

/-- R147–R151, R162, R169: the claims on the HEDGE pins.
The model's choices within: log 31, 75. -/
def Obligations.ClaimsFollowTheHedge : Prop :=
  (∀ (t : Nat) (s : State), (s.arrive t).pair.owner = true → (s.arrive t).pair.ownClaim = true →
    Does (.ownClaimLost t) t s [.cache, .out, .pair, .power, .cyc, .sched, .cfg, .msg, .gate, .sheaf, .dio, .ua, .can, .log] fun u v =>
      v.power.mode = 7 ∧ v.power.reason = 6 ∧ v.pair.owner = false ∧ v.pair.ownClaim = false ∧
      (u.swathSilent = false → v.out = u.out ++ [.hedge 0, .swath (.yield u.pair.term), .safeStates])) ∧
  (∀ (t : Nat) (s : State), (s.arrive t).awake = true → (s.arrive t).pair.twinClaim = false →
    (((s.arrive t).pair.ownClaim = false ∨ (s.arrive t).pair.confirmed = true ∨ (s.arrive t).pair.ownClaimAt + 500 < (s.arrive t).time.now) →
      exec (.twinClaimBegin t false) s = .next ((s.arrive t).upPair fun p => { p with twinClaim := true, twinClaimAt := (s.arrive t).time.now })) ∧
    ((s.arrive t).pair.ownClaim = true → (s.arrive t).pair.confirmed = false → (s.arrive t).time.now ≤ (s.arrive t).pair.ownClaimAt + 500 →
      ((s.arrive t).slotB = false → ∃ v : State, exec (.twinClaimBegin t false) s = .next v ∧ v.cnt.tieBreaks = inc32 (s.arrive t).cnt.tieBreaks ∧
        v.pair = { (s.arrive t).pair with twinClaim := true, twinClaimAt := (s.arrive t).time.now, tied := true } ∧ v.out = (s.arrive t).out) ∧
      ((s.arrive t).slotB = true → ((s.arrive t).pair.claimKind ≠ 0 ∨ ((s.arrive t).power.mode ≠ 1 ∧ (s.arrive t).power.mode ≠ 7)) →
        ∃ v : State, exec (.twinClaimBegin t false) s = .next v ∧ v.cnt.tieBreaks = inc32 (s.arrive t).cnt.tieBreaks ∧
        v.pair = { (s.arrive t).pair with twinClaim := true, twinClaimAt := (s.arrive t).time.now, ownClaim := false, ownReadback := false, confirmed := false, tied := false } ∧
        v.out = (s.arrive t).out ++ [.hedge 2]) ∧
      ((s.arrive t).slotB = true → (s.arrive t).pair.claimKind = 0 → ((s.arrive t).power.mode = 1 ∨ (s.arrive t).power.mode = 7) →
        ∃ v : State, exec (.twinClaimBegin t false) s = .next v ∧ v.power.mode = 3 ∧ v.pair.ownClaim = false ∧ v.cnt.tieBreaks = inc32 (s.arrive t).cnt.tieBreaks))) ∧
  (∀ (t : Nat) (s : State), (s.arrive t).awake = true → (s.arrive t).pair.twinClaim = true →
    exec (.twinClaimBegin t true) s = .next (((s.arrive t).upPair fun p => { p with malformed := true }).record 0x0205 []) ∧
    (((s.arrive t).power.mode ≠ 3 ∧ ((s.arrive t).power.mode ≠ 4 ∨ (s.arrive t).pair.synced = true) ∨
        (s.arrive t).swathSilent = false ∧ (s.arrive t).pair.yielded = false) →
      exec (.twinClaimAbsent t false) s = .next ((s.arrive t).upPair fun p =>
        { p with twinClaim := false, tied := false, ownClaimAt := if p.tied then (s.arrive t).time.now else p.ownClaimAt,
                 tfAt := if p.yielded then min p.yieldAt ((s.arrive t).time.now - 3750) else (s.arrive t).time.now - 3750 }).startAgain) ∧
    (((s.arrive t).power.mode = 3 ∨ (s.arrive t).power.mode = 4 ∧ (s.arrive t).pair.synced = false) →
      ((s.arrive t).swathSilent = true ∨ (s.arrive t).pair.yielded = true) →
      ∃ v : State, exec (.twinClaimAbsent t false) s = .next v.startAgain ∧ v.power.mode = 7 ∧ v.power.reason = 0xA ∧ v.pair.twinClaim = false) ∧
    ((s.arrive t).power.mode = 4 → (s.arrive t).pair.synced = true → (s.arrive t).pair.yielded = true → (s.arrive t).pair.ownClaim = false →
      (s.arrive t).boot.retiring = false →
      exec (.releasePattern t false) s = .next (((s.arrive t).upPair fun p =>
        { p with twinClaim := false, tied := false, ownClaimAt := (s.arrive t).time.now, tfAt := min p.yieldAt (s.arrive t).time.now, ownClaim := true,
                 confirmed := false, claimKind := 2, ownReadback := true }).emit (.hedge 1)))) ∧
  (∀ (t : Nat) (s : State), (s.arrive t).power.mode = 4 → (s.arrive t).pair.synced = true → (s.arrive t).pair.twinClaim = false →
    (s.arrive t).pair.ownClaim = false → ((s.arrive t).swathSilent = true ∨ (s.arrive t).pair.yielded = true) → (s.arrive t).boot.retiring = false →
    exec (.takeover t) s = .next ((((s.arrive t).upLock fun l => { l with lbistRunning := none }).upPair fun p =>
      { p with ownClaim := true, ownClaimAt := (s.arrive t).time.now, confirmed := false, tied := false, claimKind := 1, ownReadback := true }).emit (.hedge 1))) ∧
  (∀ (t term : Nat) (s : State), (s.arrive t).awake = true →
    ((s.arrive t).power.mode ≠ 3 ∧ ((s.arrive t).power.mode ≠ 4 ∨ (s.arrive t).pair.synced = true) ∨ (s.arrive t).pair.twinClaim = true) →
    exec (.yield t term) s = .next ((s.arrive t).upPair fun p =>
      { p with yielded := true, yieldAt := (s.arrive t).time.now, tfAt := if p.twinClaim then (s.arrive t).time.now else p.tfAt }).startAgain) ∧
  (∀ (t : Nat) (sees readback : Bool) (s : State), (s.arrive t).awake = true →
    ((s.arrive t).swathSilent = true → exec (.claimReport t sees readback) s = .next (s.arrive t)) ∧
    ((s.arrive t).swathSilent = false → (s.arrive t).pair.owner = true → (s.arrive t).pair.confirmed = true →
      (s.arrive t).pair.ownClaimAt + 30000 ≤ (s.arrive t).time.now → exec (.claimReport t false readback) s = .next (s.arrive t).setHedgeFault) ∧
    ((s.arrive t).swathSilent = false → (s.arrive t).power.mode = 4 → (s.arrive t).pair.owner = false → (s.arrive t).pair.twinClaim = false →
      (s.arrive t).pair.yielded = false → exec (.claimReport t sees true) s = .next (s.arrive t).setHedgeFault)) ∧
  (∀ (t : Nat) (s : State), (s.arrive t).awake = true → (s.arrive t).pair.yielded = true → (s.arrive t).pair.twinClaim = true →
    (s.arrive t).pair.yieldAt + 25000 ≤ (s.arrive t).time.now → exec (.yieldClaimStillPresent t) s = .next (s.arrive t).setHedgeFault) ∧
  (∀ s : State, s.setHedgeFault.pair = { s.pair with hedgeFault := true } ∧ Frame [.cache, .pair, .log] s s.setHedgeFault) ∧
  (∀ (t : Nat) (s : State), (s.arrive t).power.mode = 4 → (s.arrive t).pair.synced = true → (s.arrive t).swathSilent = true →
    (s.arrive t).pair.twinClaim = true → (s.arrive t).pair.silentAt + 5000 ≤ (s.arrive t).time.now →
    exec (.isolated t) s = .next (((s.arrive t).upPair fun p => { p with isolated := true, synced := false, homeArmed := false }).record 0x0200 []))

/-- R152, R172, R179 and 13 R311: lanes, blocks, the loopback test and the twin's reports.
The model's choices within: log 74. -/
def Obligations.SwathLinkAndTwin : Prop :=
  (∀ (t lane proto min slotId : Nat) (s : State), (s.arrive t).awake = true → lane < 2 →
    Does (.laneStartUp t lane proto min slotId) t s [.cache, .out, .pair, .cnt, .power, .cyc, .gate, .sheaf, .log] fun u v =>
      v.sheaf.twinProto = proto ∧ v.sheaf.twinMin = min ∧ v.out = u.out ++ [.swath (.laneStart lane u.sheaf.proto u.sheaf.min u.pair.slotId)] ∧
      (bit slotId 0 = bit u.pair.slotId 0 ∨ bits slotId 1 5 ≠ bits u.pair.slotId 1 5 → v.pair.hedgeFault = true) ∧
      (compatible u.sheaf.proto u.sheaf.min proto min = false → v.pair.lane0 = u.pair.lane0 ∧ v.pair.lane1 = u.pair.lane1 ∧ v.power = u.power) ∧
      (compatible u.sheaf.proto u.sheaf.min proto min = true → (if lane = 0 then v.pair.lane0 else v.pair.lane1) = true ∧
        v.power.mode = if u.swathSilent = true ∧ u.power.mode = 4 then 3 else u.power.mode)) ∧
  (∀ a b c d : Nat, compatible a b c d = true ↔ a = c ∨ (a < c ∧ d ≤ a) ∨ (c < a ∧ b ≤ c)) ∧
  (∀ (t lane : Nat) (s : State), (s.arrive t).awake = true →
    exec (.swathBlockReceived t lane true) s = .next (s.arrive t) ∧
    exec (.swathBlockReceived t lane false) s = .next (((s.arrive t).upCnt fun k => { k with swathErrors := inc32 k.swathErrors }).emit (.swath (.retransmit lane)))) ∧
  (∀ (t : Nat) (s : State), (s.arrive t).awake = true →
    ((s.arrive t).pair.lane1 = true → exec (.laneDown t 0) s = .next ((s.arrive t).upPair fun p => { p with lane0 := false }).startAgain) ∧
    ((s.arrive t).pair.lane0 = true → exec (.laneDown t 1) s = .next ((s.arrive t).upPair fun p => { p with lane1 := false }).startAgain) ∧
    ((s.arrive t).pair.lane0 = true → (s.arrive t).pair.lane1 = false → ∃ v : State, exec (.laneDown t 0) s = .next v.startAgain ∧ v.pair.lane0 = false ∧
      v.pair.lane1 = false ∧ v.pair.silentAt = (s.arrive t).time.now ∧
      (((s.arrive t).power.mode = 3 ∨ (s.arrive t).power.mode = 4 ∧ (s.arrive t).pair.synced = false) → (s.arrive t).pair.twinClaim = false →
        v.power.mode = 7 ∧ v.power.reason = 0xA) ∧
      (((s.arrive t).power.mode ≠ 3 ∧ ((s.arrive t).power.mode ≠ 4 ∨ (s.arrive t).pair.synced = true) ∨ (s.arrive t).pair.twinClaim = true) →
        v.power = (s.arrive t).power))) ∧
  (∀ (t lane : Nat) (s : State), ((s.arrive t).power.mode = 3 ∨ (s.arrive t).power.mode = 4) → lane < 2 →
    (∃ v : State, exec (.swathLoopback t lane true) s = .next v ∧ Frame [.pair, .cnt] (s.arrive t) v ∧
      v.pair = { (s.arrive t).pair with loopOk := setBits (s.arrive t).pair.loopOk lane 1 1 } ∧
      v.cnt = { (s.arrive t).cnt with proof := setBits (s.arrive t).cnt.proof 3 1 1 }) ∧
    (∃ v : State, exec (.swathLoopback t lane false) s = .next v.startAgain ∧ (if lane = 0 then v.pair.lane0 else v.pair.lane1) = false ∧
      v.cnt.proof = setBits (s.arrive t).cnt.proof 3 1 0 ∧
      ((s.arrive t).power.mode = 4 → v.cnt.proofFails = inc32 (s.arrive t).cnt.proofFails))) ∧
  (∀ (t : Nat) (s : State), (s.arrive t).awake = true → (s.arrive t).pair.twinReportAt + 25000000 ≤ (s.arrive t).time.now →
    Does (.twinReportTimeout t) t s [.cache, .pair, .power, .cfg, .gate, .sheaf, .log] fun u v =>
      v.pair.twinMode = 0 ∧ v.pair.homeArmed = false ∧ v.cfg.checkedTwin = false ∧ v.pair.owner = u.pair.owner ∧
      v.power.mode = if u.power.mode = 5 ∧ u.pair.owner = true then 6 else u.power.mode)

/-- R166–R168, R170, R171, R175: armed handovers, home return and proving.
The model's choices within: log 33, 34, 75. -/
def Obligations.HandoversRunTheirTimeline : Prop :=
  (∀ (t : Nat) (h : HandoverSt) (s : State), (s.arrive t).pair.owner = true → (s.arrive t).pair.armed = some h →
    ((∀ e ∈ (s.arrive t).cnt.acked, e.2 = 0) → (s.arrive t).twinSynced = true → exec (.handoverArmCheck t) s = .next (s.arrive t)) ∧
    ((∃ e ∈ (s.arrive t).cnt.acked, e.2 ≠ 0) ∨ (s.arrive t).twinSynced = false → h.kind ≠ 0 ∨ h.deferrals < 2 →
      Does (.handoverArmCheck t) t s [.pair, .cnt, .msg] fun u v => v.msg = u.msg ∧ v.cnt = { u.cnt with deferrals := inc32 u.cnt.deferrals } ∧
        v.pair = { u.pair with armed := some { h with th := u.nextT0 (if h.kind = 4 then 0 else 3) (h.th + 1), deferrals := h.deferrals + 1 } }) ∧
    ((∃ e ∈ (s.arrive t).cnt.acked, e.2 ≠ 0) ∨ (s.arrive t).twinSynced = false → h.kind = 0 → 2 ≤ h.deferrals →
      Does (.handoverArmCheck t) t s [.pair, .cnt, .msg] fun u v => v.cnt = { u.cnt with deferrals := inc32 u.cnt.deferrals } ∧
        v.pair = { u.pair with armed := none, homeArmed := false }) ∧
    ((s.arrive t).twinSynced = true → h.th ≤ (s.arrive t).tb0 → Does (.handover t) t s [.out, .pair, .cnt, .cyc, .sched, .can] fun u v =>
      v.pair = { u.pair with owner := false, ownClaim := false, confirmed := false, ownReadback := false, tied := false, ownerSince := u.tb3s } ∧
      v.cnt = { u.cnt with handovers := inc32 u.cnt.handovers } ∧ v.cyc = u.cyc.stop ∧ v.sched = { u.sched with frames := [] } ∧
      v.can = u.can.map CanCh.monitor ∧ v.out = u.out ++ (if u.swathSilent then [] else [.swath (.yield u.pair.term)]) ++ [.hedge 2])) ∧
  (∀ (t : Nat) (h : HandoverSt) (s : State), (s.arrive t).power.mode = 5 → (s.arrive t).pair.owner = false → (s.arrive t).pair.twinClaim = true →
    (s.arrive t).pair.armed = some h → h.th + (s.arrive t).periodNs 0 ≤ (s.arrive t).tb0 → h.kind ≠ 4 → h.kind ≠ 5 →
    ∃ v : State, exec (.handoverStandbyEntry t) s = .next v ∧ v.power.mode = 4 ∧ v.pair.synced = true ∧ v.pair.armed = none ∧ v.pair.owner = false ∧
      (v.base 0).st = 7 ∧ (v.base 0).acc = ((s.arrive t).base 0).acc ∧
      v.pair.provingFrom = if h.kind = 2 then some (s.arrive t).tb3s else none) ∧
  (∀ (t : Nat) (s : State), (s.arrive t).power.mode = 4 → (s.arrive t).pair.synced = true → (s.arrive t).inHomeSlot = true →
    (s.arrive t).conf.pair.homeSettle ≠ 0 → (s.arrive t).pair.settleFrom + 250000000 * (s.arrive t).conf.pair.homeSettle ≤ (s.arrive t).time.now →
    ((s.arrive t).homeDeferred = false → (s.arrive t).pair.twinMode = 5 →
      exec (.homeSettleExpiry t) s = .next (((s.arrive t).upPair fun p => { p with twinHomeArmed := true }).emit (.swath .requestHandover))) ∧
    ((s.arrive t).homeDeferred = true ∨ (s.arrive t).pair.twinMode ≠ 5 →
      exec (.homeSettleExpiry t) s = .next ((s.arrive t).upCnt fun k => { k with deferrals := inc32 k.deferrals }))) ∧
  (∀ (t : Nat) (s : State), (s.arrive t).pair.owner = true →
    ((s.arrive t).homeDeferred = true ∨ (s.arrive t).power.mode ≠ 5 ∨ (s.arrive t).twinSynced = false →
      exec (.homeReturnRequest t) s = .next ((s.arrive t).upCnt fun k => { k with deferrals := inc32 k.deferrals })) ∧
    ((s.arrive t).homeDeferred = false → (s.arrive t).power.mode = 5 → (s.arrive t).twinSynced = true → (s.arrive t).pair.armed = none →
      exec (.homeReturnRequest t) s = .next (((s.arrive t).upPair fun p =>
        { p with armed := some { kind := 1, th := (s.arrive t).nextT0 3 ((s.arrive t).tb0 + 1), deferrals := 0, job := 0 }, homeArmed := true }).emit
          (.swath (.armHandover ((s.arrive t).nextT0 3 ((s.arrive t).tb0 + 1))))) ∧
      ((s.arrive t).conf.pair.proveEnable = true → (s.arrive t).pair.ownerSince + 3600 * (s.arrive t).conf.pair.provePeriodH ≤ (s.arrive t).tb3s →
        exec (.provePeriodExpiry t) s = .next (((s.arrive t).upPair fun p =>
          { p with armed := some { kind := 2, th := (s.arrive t).nextT0 3 ((s.arrive t).tb0 + 1), deferrals := 0, job := 0 }, homeArmed := true }).emit
            (.swath (.armHandover ((s.arrive t).nextT0 3 ((s.arrive t).tb0 + 1))))))) ∧
    ((s.arrive t).pair.armed = none → (s.arrive t).homeDeferred = true → (s.arrive t).conf.pair.proveEnable = true →
      (s.arrive t).pair.ownerSince + 3600 * (s.arrive t).conf.pair.provePeriodH ≤ (s.arrive t).tb3s →
      exec (.provePeriodExpiry t) s = .next ((s.arrive t).upCnt fun k => { k with deferrals := inc32 k.deferrals }))) ∧
  (∀ (t a : Nat) (s : State), (s.arrive t).power.mode = 4 → (s.arrive t).pair.synced = true → (s.arrive t).pair.provingFrom = some a →
    a + (s.arrive t).conf.pair.proveDwellS ≤ (s.arrive t).tb3s →
    exec (.proveDwellExpiry t) s = .next (((s.arrive t).upPair fun p => { p with provingFrom := none, twinHomeArmed := true }).emit (.swath .requestHandover))) ∧
  (∀ s : State, s.homeDeferred = true ↔ s.cfg.armed ≠ none ∨ s.sheaf.st = 6 ∨ s.sheaf.twinState = 6 ∨ s.pair.hedgeFault = true) ∧
  (∀ (x a : Nat) (s : State), 0 < (s.classRec x).periodUs → a ≤ s.nextT0 x a ∧ s.nextT0 x a < a + 1000 * (s.classRec x).periodUs ∧
    1000 * (s.classRec x).periodUs ∣ s.nextT0 x a)

/-- R172–R174: the field readback and the unproven times.
The model's choices within: log 23. -/
def Obligations.TheStandbyIsProved : Prop :=
  (∀ (t : Nat) (s : State), (s.arrive t).power.mode = 4 →
    Does (.fieldReadback t true) t s [.cache, .cnt, .log] (fun u v => v.cnt = { u.cnt with readbackBad := 0, proof := setBits u.cnt.proof 4 1 1 } ∧ v.log = u.log) ∧
    Does (.fieldReadback t false) t s [.cache, .cnt, .log] (fun u v => v.cnt.readbackBad = min 11 (u.cnt.readbackBad + 1) ∧
      v.cnt.proof = setBits u.cnt.proof 4 1 0 ∧ v.cnt.proofFails = if u.cnt.readbackBad = 9 then inc32 u.cnt.proofFails else u.cnt.proofFails)) ∧
  (∀ (t : Nat) (s : State), (s.arrive t).awake = true → Does (.unprovenTick t) t s [.cnt] fun u v =>
    ∀ n, n < u.cnt.unproven.length → v.cnt.unproven.getD n 0 = if u.unprovenRuns n then inc32 (u.cnt.unproven.getD n 0) else 0)

/-! ## Lockstep (09) -/

/-- R206–R212: a lockstep fault halts its pair and latches the vector; self-tests, LBIST and the end of a diagnosis.
The model's choices within: log 29. -/
def Obligations.LockstepFaultsStopControl : Prop :=
  (∀ (t n g : Nat) (f : LockFinding) (s : State), (s.arrive t).awake = true → (s.arrive t).boot.coresOff = false → n < 8 →
    n < (s.arrive t).lock.pairs.length →
    (((s.arrive t).corePair n).halted = true → exec (.lockstepFault t n f g) s = .next (s.arrive t)) ∧
    (((s.arrive t).corePair n).halted = false → ∃ v : State, exec (.lockstepFault t n f g) s = .next v ∧
      v.corePair n = { (s.arrive t).corePair n with halted := true, kindAtFault := findingCode f, lastGroup := if f = .mismatch then g else 0xFE,
                                                    faultS := (s.arrive t).tb3s % 2 ^ 32, faults := inc32 ((s.arrive t).corePair n).faults } ∧
      v.lock.vector = some (n, if f = .mismatch then g else 0xFE, (s.arrive t).time.tb3) ∧
      (f = .mismatch → v.lock.mismatches = inc32 (s.arrive t).lock.mismatches) ∧
      (f = .railDisagreement → v.lock.railDisagreements = inc32 (s.arrive t).lock.railDisagreements) ∧
      (f = .selfTestFailed → v.lock.selftestFails = inc32 (s.arrive t).lock.selftestFails) ∧
      (3 ≤ (s.arrive t).power.mode → (s.arrive t).power.mode ≤ 6 → v.power.mode = 7 ∧ v.power.reason = 2 ∧ v.pair.owner = false ∧ v.pair.ownClaim = false) ∧
      ((s.arrive t).power.mode < 3 ∨ 6 < (s.arrive t).power.mode → v.power = (s.arrive t).power))) ∧
  (∀ (t : Nat) (s : State), (s.arrive t).awake = true → (s.arrive t).boot.coresOff = false →
    ∃ v : State, exec (.comparatorSelfTest t none) s = .next v ∧ v.lock.selftestsRun = add32 (s.arrive t).lock.selftestsRun (8 - (s.arrive t).lock.disabled.length) ∧
      v.cnt.proof = setBits (s.arrive t).cnt.proof 1 1 1 ∧ v.power = (s.arrive t).power ∧
      v.lock.pairs = (s.arrive t).lock.pairs.map fun c => if c.disabled then c else { c with selfTests := c.selfTests + 1 }) ∧
  (∀ (t n : Nat) (s : State), (s.arrive t).awake = true → (s.arrive t).boot.coresOff = false → ((s.arrive t).corePair n).halted = false →
    3 ≤ (s.arrive t).power.mode → (s.arrive t).power.mode ≤ 6 → n < (s.arrive t).lock.pairs.length →
    ∃ v : State, exec (.comparatorSelfTest t (some n)) s = .next v ∧ v.power.mode = 7 ∧ v.power.reason = 2 ∧ (v.corePair n).halted = true ∧
      (v.corePair n).kindAtFault = 3 ∧ v.sheaf.healthBroken = true) ∧
  (∀ (t : Nat) (s : State), ((s.arrive t).power.mode = 2 ∨ (s.arrive t).power.mode = 4) → (s.arrive t).lock.lbistRunning = none →
    (s.arrive t).lock.lbistDue ≤ (s.arrive t).tb3s →
    exec (.lbistStart t) s = .next ((s.arrive t).upLock fun l =>
      { l with lbistRunning := some l.lbistNext, lbistNext := (l.lbistNext + 1) % 8, lbistDue := (s.arrive t).tb3s + 10800 })) ∧
  (∀ (t n : Nat) (s : State), (s.arrive t).lock.lbistRunning = some n → n < (s.arrive t).lock.pairs.length →
    (∃ v : State, exec (.lbistComplete t true) s = .next v ∧ v.lock.lbistRunning = none ∧ v.lock.lbistRuns = inc32 (s.arrive t).lock.lbistRuns ∧
      v.lock.lbistFails = (s.arrive t).lock.lbistFails ∧ (v.corePair n).lbistOk = true ∧ (v.corePair n).lbistAt = (s.arrive t).tb3s ∧ v.power = (s.arrive t).power) ∧
    (∃ v : State, exec (.lbistComplete t false) s = .next v ∧ v.lock.lbistRunning = none ∧ v.lock.lbistFails = inc32 (s.arrive t).lock.lbistFails ∧
      (v.corePair n).disabled = true ∧ (v.corePair n).lastClass = 1 ∧ (v.corePair n).permanent = true ∧ v.cfg.seed.valid = false)) ∧
  (∀ (t n : Nat) (a b c d : Bool) (s : State), (s.arrive t).awake = true → ((s.arrive t).corePair n).halted = true →
    ((s.arrive t).corePair n).kindAtFault ≠ 0 → n < (s.arrive t).lock.pairs.length → (s.arrive t).power.mode ≠ 7 →
    ∃ v : State, exec (.lockstepDiagnosisEnd t n a b c d) s = .next v ∧ (v.corePair n).disabled = true ∧ (v.corePair n).kindAtFault = 0 ∧
      (v.corePair n).lastClass = faultClass ((s.arrive t).corePair n).kindAtFault a b c d ∧
      (faultClass ((s.arrive t).corePair n).kindAtFault a b c d ≠ 4 → (v.corePair n).permanent = true) ∧ v.cfg.seed.valid = false ∧ v.power = (s.arrive t).power) ∧
  (∀ (kind : Nat) (a b c d : Bool), faultClass kind a b c d =
    if kind ≠ 1 ∨ a = false then 3 else if b = false then 2 else if c = false ∨ d = true then 1 else 4)

/-! ## Pastasy (11) -/

/-- R251 Table 11.3, R178, R252, R253, R258: the rows of a request's checks in their order, for every command; a refusal executes nothing.
The model's choices within: log 94. -/
def Obligations.RequestsAreCheckedInOrder : Prop :=
  ∀ (c : Cmd) (r : Req) (body : State → State × Option (Nat × List Byte)) (s : State),
    (s.reaches r = false → s.run c r body = s) ∧
    (s.reaches r = true → s.postBusy r = true → s.run c r body = s.msgCount 12) ∧
    (s.reaches r = true → 16 ≤ r.mb → s.run c r body = ((s.take r).respond (hdrOf r) c.code 0x0101 []).closeConnection 16) ∧
    (s.reaches r = true → s.postBusy r = false → r.mb < 16 →
      (s.power.mode = 1 → s.run c r body = (s.take r).respond (hdrOf r) c.code 0x0104 []) ∧
      (s.power.mode ≠ 1 → s.postBad r = true → s.run c r body = (s.take r).respond (hdrOf r) c.code 0x0102 []) ∧
      (s.power.mode ≠ 1 → s.postBad r = false →
        (r.version ≠ 1 → s.run c r body = (s.take r).respond (hdrOf r) c.code 0x0108 []) ∧
        (r.version = 1 →
          (s.reqRoom r.mb < r.length → s.run c r body =
            if r.mb < 8 then ((s.take r).respond (hdrOf r) c.code 0x0102 []).closeConnection r.mb else (s.take r).respond (hdrOf r) c.code 0x0102 []) ∧
          (r.length ≤ s.reqRoom r.mb →
            (reqCrcOk c.code r = false → s.run c r body = (s.take r).respond (hdrOf r) c.code 0x0109 []) ∧
            (reqCrcOk c.code r = true →
              (bit r.flags 0 = true ∨ bits r.flags 2 6 ≠ 0 ∨ r.status ≠ 0 → s.run c r body = (s.take r).respond (hdrOf r) c.code 0x010B []) ∧
              (bit r.flags 0 = false → bits r.flags 2 6 = 0 → r.status = 0 →
                (r.mb < 8 → (s.box r.mb).busy = true → s.run c r body = (s.take r).respond (hdrOf r) c.code 0x0101 []) ∧
                ((8 ≤ r.mb ∨ (s.box r.mb).busy = false) →
                  (s.sessionOk c.code r = false → s.run c r body = (s.take r).respond (hdrOf r) c.code 0x0105 []) ∧
                  (s.sessionOk c.code r = true →
                    (continues r = true → definedCodes.contains c.code = true → s.run c r body = (s.take r).nextSegment c.code r) ∧
                    (definedCodes.contains c.code = false → s.run c r body = (s.take r).respond (hdrOf r) c.code 0x0103 []) ∧
                    (continues r = false → definedCodes.contains c.code = true →
                      (s.permitted c r.mb = false → s.run c r body = (s.take r).respond (hdrOf r) c.code 0x0105 []) ∧
                      (s.permitted c r.mb = true → s.inModes c r.mb = false → s.run c r body = (s.take r).respond (hdrOf r) c.code 0x0104 []) ∧
                      (s.permitted c r.mb = true → s.inModes c r.mb = true → c.size r.payload = false →
                        s.run c r body = (s.take r).respond (hdrOf r) c.code 0x0102 []) ∧
                      (s.permitted c r.mb = true → s.inModes c r.mb = true → c.size r.payload = true → ∀ (v : State) (st : Nat) (data : List Byte),
                        body (s.take r) = (v, some (st, data)) → s.run c r body = v.respond (hdrOf r) c.code st data))))))))))

/-- R249, R250, R254, R255: a response that fits goes out whole, the buffer of MB8–MB15 and then DONE holding it; a longer one goes out in segments.
The model's choices within: log 3, 95, 96. -/
def Obligations.ResponsesFillTheirBuffers : Prop :=
  (∀ (h : Hdr) (code st : Nat) (data : List Byte) (s : State), data.length ≤ s.rspRoom h.mb → h.mb < s.msg.boxes.length →
    (s.respond h code st data).out = s.out ++ [.response h.mb (messageBytes 1 code h.tag st h.session data)] ∧
    (8 ≤ h.mb → h.mb < 16 → ((s.respond h code st data).box h.mb).doneLen = 20 + data.length) ∧
    ((s.respond h code st data).box h.mb).busy = false) ∧
  (∀ (h : Hdr) (code st : Nat) (data : List Byte) (s : State), s.rspRoom h.mb < data.length → h.mb < s.msg.boxes.length →
    (s.respond h code st data).out = s.out ++ [.response h.mb (messageBytes 1 code h.tag 0x0002 h.session
      (cursorBytes (Config.freeWord s.free).toNat (s.rspRoom h.mb - 8) ++ data.take (s.rspRoom h.mb - 8)))] ∧
    ((s.respond h code st data).box h.mb).held =
      some { code := code, number := (Config.freeWord s.free).toNat, status := st, data := data, off := s.rspRoom h.mb - 8 }) ∧
  (∀ (code : Nat) (r : Req) (x : HeldRsp) (s : State), r.payload.length = 8 → (s.box r.mb).held = some x → r.mb < s.msg.boxes.length →
    (x.code ≠ code ∨ field r.payload 4 4 ≠ x.number ∨ field r.payload 0 4 ≠ x.off → s.nextSegment code r = s.respond (hdrOf r) code 0x010B []) ∧
    (x.code = code → field r.payload 4 4 = x.number → field r.payload 0 4 = x.off →
      ((x.data.drop x.off).length ≤ s.rspRoom r.mb → (s.nextSegment code r).out = s.out ++ [.response r.mb (messageBytes 1 code r.tag x.status r.session (x.data.drop x.off))] ∧
        ((s.nextSegment code r).box r.mb).held = none) ∧
      (s.rspRoom r.mb < (x.data.drop x.off).length → (s.nextSegment code r).out = s.out ++ [.response r.mb (messageBytes 1 code r.tag 0x0002 r.session
          (cursorBytes x.number (x.off + (s.rspRoom r.mb - 8)) ++ (x.data.drop x.off).take (s.rspRoom r.mb - 8)))] ∧
        ((s.nextSegment code r).box r.mb).held = some { x with off := x.off + (s.rspRoom r.mb - 8) }))) ∧
  (∀ (flags code tag st session : Nat) (p : List Byte), messageBytes flags code tag st session p =
    leBytes 1 1 ++ leBytes 1 flags ++ leBytes 2 code ++ leBytes 2 tag ++ leBytes 2 st ++ leBytes 4 p.length ++ leBytes 4 session ++ p ++
      leBytes 4 (crc32c (leBytes 1 1 ++ leBytes 1 flags ++ leBytes 2 code ++ leBytes 2 tag ++ leBytes 2 st ++ leBytes 4 p.length ++ leBytes 4 session ++ p)).toNat) ∧
  (∀ (h : Hdr) (code st : Nat) (data : List Byte) (s : State), Frame [.cache, .mem, .free, .out, .msg, .gate, .log] s (s.respond h code st data)) ∧
  (∀ (t code : Nat) (r : Req) (s : State), (s.arrive t).awake = true →
    exec (.continuation t code r) s = .next ((s.arrive t).run (plainCmd code 0 8) { r with flags := setBits r.flags 1 1 1 } (reply 0x010B [])) ∧
    continues { r with flags := setBits r.flags 1 1 1 } = true ∧
    (definedCodes.contains code = false →
      exec (.undefinedCommand t code r) s = .next ((s.arrive t).run (plainCmd code 0 0) r (reply 0x0103 []))))

/-- R247–R249, R255–R258: sessions, jobs, control words and connections.
The model's choices within: log 3, 97, 98. -/
def Obligations.SessionsAndJobs : Prop :=
  (∀ (t : Nat) (r : Req) (s : State), (s.arrive t).accepts identifyCmd r → Answers (.identify t r) t s identifyCmd r [] fun u st data v =>
    st = 0 ∧ data = u.identity r.mb ∧ v = u) ∧
  (∀ (t : Nat) (r : Req) (s : State), (s.arrive t).accepts modeGetCmd r → Answers (.modeGet t r) t s modeGetCmd r [] fun u st data v =>
    st = 0 ∧ data = leBytes 1 u.power.mode ++ leBytes 1 u.power.reason ++ leBytes 1 u.pair.twinMode ++
      leBytes 1 (b2n u.pair.owner + 2 * b2n u.pair.synced) ++ leBytes 4 u.pair.term ∧ v = u) ∧
  (∀ (t : Nat) (r : Req) (s : State), (s.arrive t).accepts jobStatusCmd r → zeros r.payload 2 2 = true →
    Answers (.jobStatus t r) t s jobStatusCmd r [] fun u st data v => v = u ∧
      (∀ j, u.job (field r.payload 0 2) = some j → st = 0 ∧ data = jobBytes j) ∧ (u.job (field r.payload 0 2) = none → st = 0x0103 ∧ data = [])) ∧
  (∀ (t : Nat) (r : Req) (s : State), (s.arrive t).accepts (plainCmd 1 0 4) r → zeros r.payload 1 3 = true →
    1 ≤ field r.payload 0 1 → field r.payload 0 1 ≤ 4 → r.mb < (s.arrive t).msg.boxes.length →
    (((s.arrive t).box r.mb).granted < field r.payload 0 1 →
      Answers (.sessionOpen t r) t s (plainCmd 1 0 4) r [] fun u st data v => st = 0x0105 ∧ data = [] ∧ v = u) ∧
    (field r.payload 0 1 ≤ ((s.arrive t).box r.mb).granted → ((s.arrive t).box r.mb).sid ≠ 0 →
      Answers (.sessionOpen t r) t s (plainCmd 1 0 4) r [] fun u st data v => st = 0x0104 ∧ data = [] ∧ v = u) ∧
    (field r.payload 0 1 ≤ ((s.arrive t).box r.mb).granted → ((s.arrive t).box r.mb).sid = 0 →
      Answers (.sessionOpen t r) t s (plainCmd 1 0 4) r [.cache, .free, .msg, .log] fun u st data v => st = 0 ∧
        data = leBytes 4 u.newSid ++ leBytes 1 (field r.payload 0 1) ++ zeroBytes 3 ∧ (v.box r.mb).sid = u.newSid ∧
        (v.box r.mb).role = field r.payload 0 1)) ∧
  (∀ (t : Nat) (r : Req) (s : State), (s.arrive t).accepts (plainCmd 2 1 0) r → r.mb < 8 →
    exec (.sessionClose t r) s = .next ((((s.arrive t).take r).respond (hdrOf r) 2 0 []).closeConnection r.mb)) ∧
  (∀ (mb : Nat) (s : State), mb < 8 → mb < s.msg.boxes.length → (s.closeConnection mb).out = s.out ++ [.close mb] ∧
    ((s.closeConnection mb).box mb).sid = 0 ∧ ((s.closeConnection mb).box mb).role = 0 ∧ ((s.closeConnection mb).box mb).connected = false ∧
    ((s.closeConnection mb).box mb).held = none ∧ ((s.closeConnection mb).box mb).window = none) ∧
  (∀ (t mb len : Nat) (s : State), (s.arrive t).awake = true → 8 ≤ mb → mb < 16 →
    (((s.arrive t).box mb).post ≠ 0 ∨ ((s.arrive t).box mb).doneLen ≠ 0 → exec (.post t mb len) s = .next ((s.arrive t).msgCount 12)) ∧
    (((s.arrive t).box mb).post = 0 → ((s.arrive t).box mb).doneLen = 0 →
      (20 ≤ len → len ≤ 2 ^ ((s.arrive t).box mb).reqLog → len = 20 + memReadN (s.arrive t).mem ((s.arrive t).bufAddr (2 * mb) + 8) 4 →
        exec (.post t mb len) s = .next ((s.arrive t).setBox mb fun x => { x with post := len, lastAt := (s.arrive t).time.now })) ∧
      (len < 20 → ∃ v : State, exec (.post t mb len) s = .next (v.respond
          { mb := mb, tag := memReadN (s.arrive t).mem ((s.arrive t).bufAddr (2 * mb) + 4) 2, session := memReadN (s.arrive t).mem ((s.arrive t).bufAddr (2 * mb) + 12) 4 }
          (memReadN (s.arrive t).mem ((s.arrive t).bufAddr (2 * mb) + 2) 2)
          (if (s.arrive t).power.mode = 1 then 0x0104 else 0x0102) []) ∧ Frame [.msg] (s.arrive t) v)) ∧
    (((s.arrive t).box mb).doneLen ≠ 0 → exec (.doneClear t mb) s = .next ((s.arrive t).setBox mb fun x => { x with doneLen := 0, post := 0 }))) ∧
  (∀ (t : Nat) (fp : List Byte) (s : State), (s.arrive t).e0Open = true →
    (∀ verified, verified = false ∨ (s.arrive t).grantedRole fp = none →
      exec (.tlsHandshake t verified fp) s = .next (((s.arrive t).msgCount 9).emit .tlsAlert)) ∧
    (∀ role, (s.arrive t).grantedRole fp = some role →
      (∀ n, n < 8 → ((s.arrive t).box n).connected = false → (∀ k, k < n → ((s.arrive t).box k).connected = true) →
        exec (.tlsHandshake t true fp) s = .next ((s.arrive t).setBox n fun x =>
          { x with connected := true, granted := role, fingerprint := fp, role := 0, sid := 0, busy := false, held := none, lastAt := (s.arrive t).time.now })) ∧
      ((∀ k, k < 8 → ((s.arrive t).box k).connected = true) →
        exec (.tlsHandshake t true fp) s = .next ((s.arrive t).upMsg fun m => { m with extra := m.extra + 1 }))) ∧
    exec (.handshakeTimeout t) s = .next ((s.arrive t).emit (.close 17))) ∧
  (∀ (t mb : Nat) (s : State), (s.arrive t).awake = true → mb < 8 → mb < (s.arrive t).msg.boxes.length →
    (((s.arrive t).box mb).connected = true → ∃ v : State, exec (.connectionClosed t mb) s = .next v ∧ (v.box mb).connected = false ∧ (v.box mb).sid = 0 ∧
      Frame [.cache, .msg, .gate, .log] (s.arrive t) v) ∧
    (((s.arrive t).box mb).sid ≠ 0 → ((s.arrive t).box mb).lastAt + 600 * 250000000 ≤ (s.arrive t).time.now →
      ∃ v : State, exec (.sessionIdleTimeout t mb) s = .next v ∧ (v.box mb).sid = 0 ∧ (v.box mb).role = 0 ∧
        v.msg.counters = setAt (s.arrive t).msg.counters 10 inc32 ∧ Frame [.cache, .msg, .gate, .log] (s.arrive t) v) ∧
    (∀ x, ((s.arrive t).box mb).held = some x → ((s.arrive t).box mb).lastAt + 60 * 250000000 ≤ (s.arrive t).time.now →
      exec (.cursorExpiry t mb) s = .next (((s.arrive t).setBox mb fun x => { x with held := none }).msgCount 7))) ∧
  (∀ (t job : Nat) (s : State), (s.arrive t).awake = true → Does (.jobExpiry t job) t s [.msg] fun u v => ∀ j : Job, j ∈ v.msg.jobs ↔
    j ∈ u.msg.jobs ∧ ¬ (j.id = job ∧ j.done = true ∧ j.endAt + 600 * 250000000 ≤ u.time.now)) ∧
  (∀ (held : List Nat) (n : Nat), (∀ h, h ∈ held → h < 65536) → held.length < 64 → freeJobId held 70 n ≠ 0 ∧ freeJobId held 70 n < 65536 ∧ freeJobId held 70 n ∉ held)

/-- R46, R67, R96, R118, R177, R213, R282 and the block tables: a write of 1 to CLR_COUNTERS by an ENGINEER clears the block's counters and nothing else.
The model's choices within: log 68, 120. -/
def Obligations.CountersAreCleared : Prop :=
  ∀ (t : Nat) (h : Hdr) (s : State), 3 ≤ (s.arrive t).rights h.mb →
    ((s.arrive t).accepts paramWriteCmd (writeReq h 0x02 0x40 [1#32]) →
      Answers (.pairClrCounters t h) t s paramWriteCmd (writeReq h 0x02 0x40 [1#32]) [.cnt] fun u st data v => st = 0 ∧ data = [] ∧ v.cnt =
        { u.cnt with takeovers := 0, handovers := 0, deferrals := 0, missedApply := 0, lastTakeoverNs := 0, ckptLate := 0, hearGaps := 0,
                     repairPoints := 0, swathErrors := 0, tieBreaks := 0, fencedExits := 0, loadPeak := 0, proofFails := 0 }) ∧
    ((s.arrive t).accepts paramWriteCmd (writeReq h 0x03 0x0A [1#32]) →
      Answers (.pointsClrCounters t h) t s paramWriteCmd (writeReq h 0x03 0x0A [1#32]) [.pts] fun u st data v => st = 0 ∧ data = [] ∧ v.pts =
        { u.pts with ratePeak := 0, badHandle := 0, overrange := 0, itemInvalid := 0 }) ∧
    ((s.arrive t).accepts paramWriteCmd (writeReq h 0x04 0x07 [1#32]) →
      Answers (.cycleClrCounters t h) t s paramWriteCmd (writeReq h 0x04 0x07 [1#32]) [.cyc, .fsp] fun u st data v => st = 0 ∧ data = [] ∧
        v.fsp = { u.fsp with counters := List.replicate 18 0 } ∧ v.cyc = { u.cyc with
          lateDrops := 0, oldCfgDrops := 0, dupDrops := 0, unmatched := 0, retries := 0,
          cls := u.cyc.cls.map fun x => { x with loadPeak := 0, deadlinePubs := 0, overruns := 0, taskSkips := 0, unacked := 0, withheld := 0 } }) ∧
    ((s.arrive t).accepts paramWriteCmd (writeReq h 0x05 0x12 [1#32]) →
      Answers (.schedClrCounters t h) t s paramWriteCmd (writeReq h 0x05 0x12 [1#32]) [.sched] fun u st data v => st = 0 ∧ data = [] ∧ v.sched =
        { u.sched with peak := 0, outcomes := List.replicate 10 0, orphansCancelled := 0, fullWaits := 0, tooLate := 0, capacity := 0 }) ∧
    ((s.arrive t).accepts paramWriteCmd (writeReq h 0x06 0xC0 [1#32]) →
      Answers (.timeClrCounters t h) t s paramWriteCmd (writeReq h 0x06 0xC0 [1#32]) [.time] fun u st data v => st = 0 ∧ data = [] ∧ v.time =
        { u.time with divergedEvents := 0, ppsEdges := 0, dio15Edges := 0, overflows := 0, ports := u.time.ports.map fun q => { q with lost := 0 } }) ∧
    ((s.arrive t).accepts paramWriteCmd (writeReq h 0x07 0x30 [1#32]) →
      Answers (.lockClrCounters t h) t s paramWriteCmd (writeReq h 0x07 0x30 [1#32]) [.lock] fun u st data v => st = 0 ∧ data = [] ∧
        v.lock.mismatches = 0 ∧ v.lock.foldMismatches = 0 ∧ v.lock.railDisagreements = 0 ∧ v.lock.selftestsRun = 0 ∧ v.lock.selftestFails = 0 ∧
        v.lock.cacheCorrected = 0 ∧ v.lock.lbistRuns = 0 ∧ v.lock.lbistFails = 0 ∧ v.lock.pairs = u.lock.pairs ∧ v.lock.vector = u.lock.vector) ∧
    ((s.arrive t).accepts paramWriteCmd (writeReq h 0x08 0x22 [1#32]) →
      Answers (.memClrCounters t h) t s paramWriteCmd (writeReq h 0x08 0x22 [1#32]) [.mower] fun u st data v => st = 0 ∧ data = [] ∧ v.mower =
        { u.mower with ceSram := 0, ueSram := 0, ceDram := 0, ueDram := 0, faults := 0, abandoned := 0, skipped := 0, collisions := 0 }) ∧
    ((s.arrive t).accepts paramWriteCmd (writeReq h 0x09 0x40 [1#32]) →
      Answers (.gateClrCounters t h) t s paramWriteCmd (writeReq h 0x09 0x40 [1#32]) [.gate] fun u st data v => st = 0 ∧ data = [] ∧ v.gate =
        { u.gate with violations := List.replicate 24 0 }) ∧
    ((s.arrive t).accepts paramWriteCmd (writeReq h 0x0A 0x30 [1#32]) →
      Answers (.sheafClrCounters t h) t s paramWriteCmd (writeReq h 0x0A 0x30 [1#32]) [] fun u st data v => st = 0 ∧ data = [] ∧ v = u) ∧
    ((s.arrive t).accepts paramWriteCmd (writeReq h 0x0B 0x30 [1#32]) →
      Answers (.dioClrCounters t h) t s paramWriteCmd (writeReq h 0x0B 0x30 [1#32]) [.dio] fun u st data v => st = 0 ∧ data = [] ∧ v.dio =
        { u.dio with fldLosses := 0, silences := 0, overloads := 0, mismatchEvents := 0, wireBreaks := 0, linkErrors := 0,
                     ch := u.dio.ch.map fun c => { c with mismatches := 0 } }) ∧
    ((s.arrive t).accepts paramWriteCmd (writeReq h 0x0C 0x32 [1#32]) →
      Answers (.uaClrCounters t h) t s paramWriteCmd (writeReq h 0x0C 0x32 [1#32]) [.ua] fun u st data v => st = 0 ∧ data = [] ∧ v.ua =
        { u.ua with afsLosses := 0, silences := 0, complianceEvents := 0, miswires := 0, wireBreaks := 0, linkErrors := 0,
                    hartTransactions := 0, hartFailures := 0, bursts := 0, ne43Events := 0 }) ∧
    ((s.arrive t).accepts paramWriteCmd (writeReq h 0x0D 0x90 [1#32]) →
      Answers (.canClrCounters t h) t s paramWriteCmd (writeReq h 0x0D 0x90 [1#32]) [.can] fun u st data v => st = 0 ∧ data = [] ∧ v.can =
        u.can.map fun c => { c with rxFrames := 0, txFrames := 0, errors := 0, busOffs := 0, fifoLost := 0, rejected := 0, refSent := 0,
                                    refLate := 0, cancelLate := 0, txOverruns := 0, foreignRef := 0, tdcFaults := 0 }) ∧
    ((s.arrive t).accepts paramWriteCmd (writeReq h 0x0E 0x0C [1#32]) →
      Answers (.recClrCounters t h) t s paramWriteCmd (writeReq h 0x0E 0x0C [1#32]) [.log] fun u st data v => st = 0 ∧ data = [] ∧ v.log =
        { u.log with dropped := 0, gaps := 0, storeErrors := 0 }) ∧
    ((s.arrive t).accepts paramWriteCmd (writeReq h 0x0F 0x27 [1#32]) →
      Answers (.dispClrCounters t h) t s paramWriteCmd (writeReq h 0x0F 0x27 [1#32]) [.disp] fun u st data v => st = 0 ∧ data = [] ∧ v.disp =
        { u.disp with updates := 0, fulls := 0, balances := 0, freezes := 0 }) ∧
    ((s.arrive t).accepts paramWriteCmd (writeReq h 0x10 0x10 [1#32]) →
      Answers (.powerClrCounters t h) t s paramWriteCmd (writeReq h 0x10 0x10 [1#32]) [.power] fun u st data v => st = 0 ∧ data = [] ∧ v.power =
        { u.power with rideThroughs := 0, safeEvents := 0, maxMv := 0, minMv := 0xFFFF })

/-- R209, R265–R267, R289, R291, R362: reads and writes of parameter words, with the rights, modes and ranges they need.
The model's choices within: log 99. -/
def Obligations.ParametersAreReadAndWritten : Prop :=
  (∀ (t : Nat) (r : Req) (s : State), (s.arrive t).accepts paramReadCmd r →
    (rangeOk (field r.payload 0 2) (field r.payload 2 2) (field r.payload 4 4) = false →
      Answers (.paramRead t r) t s paramReadCmd r [] fun u st data v => st = 0x010B ∧ data = [] ∧ v = u) ∧
    (rangeOk (field r.payload 0 2) (field r.payload 2 2) (field r.payload 4 4) = true →
      Answers (.paramRead t r) t s paramReadCmd r [.msg] fun u st data v => st = 0 ∧ v.msg.boxes = u.msg.boxes ∧ v.msg.jobs = u.msg.jobs ∧
        data = ((List.range (field r.payload 2 2)).map fun i => u.readWord (field r.payload 0 2) (field r.payload 4 4) (field r.payload 4 4 + i)).flatMap (leBytes 4))) ∧
  (∀ (t : Nat) (r : Req) (s : State), (s.arrive t).accepts paramWriteCmd r →
    (rangeOk (field r.payload 0 2) (field r.payload 2 2) (field r.payload 4 4) = false →
      Answers (.paramWrite t r) t s paramWriteCmd r [] fun u st data v => st = 0x010B ∧ data = [] ∧ v = u) ∧
    (rangeOk (field r.payload 0 2) (field r.payload 2 2) (field r.payload 4 4) = true →
      ∀ ws, ws = (List.range (field r.payload 2 2)).map (fun i => (field r.payload 4 4 + i, field r.payload (8 + 4 * i) 4)) →
      (∀ st', ((s.arrive t).take r).writeCheck r.mb (field r.payload 0 2) ws = some st' →
        Answers (.paramWrite t r) t s paramWriteCmd r [] fun u st data v => st = st' ∧ data = [] ∧ v = u) ∧
      (((s.arrive t).take r).writeCheck r.mb (field r.payload 0 2) ws = none →
        ∃ v : State, exec (.paramWrite t r) s = .next (v.respond (hdrOf r) 0x201 0 []) ∧
          v = ws.foldl (fun u e => u.writeWord r.mb (field r.payload 0 2) e.1 e.2) ((s.arrive t).take r)))) ∧
  (∀ b count first : Nat, rangeOk b count first = true ↔ 1 ≤ count ∧ count ≤ 256 ∧ ∃ l, lastWord b = some l ∧ first + count ≤ l + 1) ∧
  (∀ (b first w : Nat) (s : State), first < w ∨ twoWord.contains (b, w - 1) = false → s.readWord b first w = s.param b w) ∧
  (∀ (mb b w v : Nat) (o : Nat → Option Nat) (s : State),
    ((b, w) ∈ clrWords → s.wordCheck mb b w v o = if s.rights mb < 3 then some 0x0105 else if v < 2 then none else some 0x010B) ∧
    ((b, w) ∉ clrWords → b ∉ [1, 7, 8, 9, 10, 13, 15] → s.wordCheck mb b w v o = some 0x0105) ∧
    (w < 0x20 ∨ 0x30 ≤ w → s.wordCheck mb 1 w v o = some 0x0105) ∧
    (0x20 ≤ w → w < 0x30 → s.wordCheck mb 1 w v o = if s.rights mb < 4 then some 0x0105 else if s.power.mode ≠ 2 then some 0x0104
      else if v < 65536 ∧ 8 ≤ v / 256 ∧ v / 256 ≤ 16 ∧ 8 ≤ v % 256 ∧ v % 256 ≤ 16 then none else some 0x010B)) ∧
  (∀ (t : Nat) (r : Req) (s : State), (s.arrive t).accepts { plainCmd 0x102 1 0 with runtime := true, twin := true } r →
    Answers (.pairStatus t r) t s { plainCmd 0x102 1 0 with runtime := true, twin := true } r [] fun u st data v =>
      st = 0 ∧ data = ((List.range 24).map (u.param 2)).flatMap (leBytes 4) ∧ v = u) ∧
  (∀ (t ch : Nat) (h : Hdr) (s : State), ch < 2 → 2 ≤ (s.arrive t).rights h.mb →
    (s.arrive t).accepts paramWriteCmd (writeReq h 0x0D 0x90 [BitVec.ofNat 32 (if ch = 0 then 4 else 8)]) →
    Answers (.recoverCan t h ch) t s paramWriteCmd (writeReq h 0x0D 0x90 [BitVec.ofNat 32 (if ch = 0 then 4 else 8)]) [.can] fun u st data v => st = 0 ∧ data = [] ∧
      v.can = if u.pair.owner = true ∧ (u.canCh ch).fc = 2 then setAt u.can ch (fun x => { x with recovering := true }) else u.can) ∧
  (∀ (t mask : Nat) (h : Hdr) (s : State), 0 < mask → mask < 256 → (s.arrive t).accepts paramWriteCmd (writeReq h 0x07 0x30 [BitVec.ofNat 32 (256 * (mask % 256))]) →
    4 ≤ (s.arrive t).rights h.mb →
    ((s.arrive t).power.mode = 2 → Answers (.reenable t h mask) t s paramWriteCmd (writeReq h 0x07 0x30 [BitVec.ofNat 32 (256 * (mask % 256))]) [.lock] fun u st data v =>
      st = 0 ∧ data = [] ∧ v.lock = { u.lock with pairs := mapFrom (fun n c => { c with reenable := c.reenable || bit mask n }) 0 u.lock.pairs }) ∧
    ((s.arrive t).power.mode ≠ 2 → Answers (.reenable t h mask) t s paramWriteCmd (writeReq h 0x07 0x30 [BitVec.ofNat 32 (256 * (mask % 256))]) [] fun u st data v =>
      st = 0x0104 ∧ data = [] ∧ v = u)) ∧
  (∀ (t : Nat) (h : Hdr) (s : State), 4 ≤ (s.arrive t).rights h.mb → (s.arrive t).power.mode = 2 → ((s.arrive t).sec.lifecycle = 1 ∨ (s.arrive t).sec.lifecycle = 2) →
    ((s.arrive t).accepts paramWriteCmd (writeReq h 0x09 0x40 [2#32]) → (s.arrive t).gate.debugOpen = false →
      Answers (.debugOpen t h) t s paramWriteCmd (writeReq h 0x09 0x40 [2#32]) [.cache, .gate, .log] fun u st data v => st = 0 ∧ data = [] ∧
        v.gate.debugOpen = true ∧ v.gate.debugMb = some h.mb ∧ v.gate.debugOpens = inc32 u.gate.debugOpens ∧ v.gate.epoch = (u.gate.epoch + 1) % 2 ^ 32 ∧
        v.gate.active = u.fixedRules ++ (u.conf.gates.map fun e => (e.gate, e.rule, e.words)) ++ debugRules) ∧
    ((s.arrive t).accepts paramWriteCmd (writeReq h 0x09 0x40 [4#32]) → (s.arrive t).gate.debugOpen = true →
      Answers (.debugClose t h) t s paramWriteCmd (writeReq h 0x09 0x40 [4#32]) [.cache, .gate, .log] fun u st data v => st = 0 ∧ data = [] ∧
        v.gate.debugOpen = false ∧ v.gate.debugMb = none ∧ v.gate.epoch = (u.gate.epoch + 1) % 2 ^ 32 ∧
        v.gate.active = u.gate.active.filter fun r => r.2.1 + 1 != ruleCount r.1))

/-- R289: key content enters in MAINTENANCE, with OWNER or, in BLANK, on MB15.
The model's choices within: log 40. -/
def Obligations.KeyRecordsAreStaged : Prop :=
  ∀ (t : Nat) (h : Hdr) (s : State), (s.arrive t).power.mode = 2 → (s.arrive t).sec.lifecycle ≠ 3 → ((s.arrive t).sec.lifecycle = 0 → h.mb = 15) →
    ((s.arrive t).sec.lifecycle ≠ 0 → 4 ≤ (s.arrive t).rights h.mb) →
    (∀ base, base < 64 → (s.arrive t).accepts paramWriteCmd (writeReq h 0x08 0x20 [BitVec.ofNat 32 (64 + base)]) →
      Answers (.keyCtrlSetWindowBase t h base) t s paramWriteCmd (writeReq h 0x08 0x20 [BitVec.ofNat 32 (64 + base)]) [.sec] fun u st data v =>
        st = 0 ∧ data = [] ∧ v.sec = { u.sec with windowBase := base }) ∧
    (∀ base, 64 ≤ base → (s.arrive t).accepts paramWriteCmd (writeReq h 0x08 0x20 [256#32]) →
      Answers (.keyCtrlSetWindowBase t h base) t s paramWriteCmd (writeReq h 0x08 0x20 [256#32]) [] fun u st data v => st = 0x010B ∧ data = [] ∧ v = u) ∧
    ((s.arrive t).accepts paramWriteCmd (writeReq h 0x08 0x20 [192#32]) →
      Answers (.keyCtrlDiscardStaging t h) t s paramWriteCmd (writeReq h 0x08 0x20 [192#32]) [.sec] fun u st data v =>
        st = 0 ∧ data = [] ∧ v.sec = { u.sec with staging := [] }) ∧
    ((s.arrive t).accepts paramWriteCmd (writeReq h 0x08 0x20 [128#32]) →
      (∀ st', (s.arrive t).keyCommitCheck = some st' →
        Answers (.keyCtrlCommit t h) t s paramWriteCmd (writeReq h 0x08 0x20 [128#32]) [] fun u st data v => st = st' ∧ data = [] ∧ v = u) ∧
      ((s.arrive t).keyCommitCheck = none → (s.arrive t).sec.lifecycle = 0 →
        Answers (.keyCtrlCommit t h) t s paramWriteCmd (writeReq h 0x08 0x20 [128#32]) [.sec] fun u st data v => st = 0 ∧ data = [] ∧
          v.sec = { u.sec with pendingRec := some (keyRecord u.sec) }) ∧
      ((s.arrive t).keyCommitCheck = none → (s.arrive t).sec.lifecycle ≠ 0 → ∀ c, (s.arrive t).sec.applied (keyRecord (s.arrive t).sec) = some c →
        Answers (.keyCtrlCommit t h) t s paramWriteCmd (writeReq h 0x08 0x20 [128#32]) [.cache, .msg, .sec, .gate, .log] fun u st data v => st = 0 ∧ data = [] ∧
          v.sec = { c with sealedRec := true })) ∧
    (∀ (first : Nat) (words : List Word), words ≠ [] → first + words.length ≤ 256 →
      (s.arrive t).accepts paramWriteCmd (writeReq h 0x08 (0x100 + first) words) →
      Answers (.keyWindow t h first words) t s paramWriteCmd (writeReq h 0x08 (0x100 + first) words) [.sec] fun u st data v => st = 0 ∧ data = [] ∧
        v = (words.zipIdx.foldl (fun (x : State) e => x.keyWindow (first + e.2) e.1.toNat) u))

/-- R284, R287, R288, R313: the owner lock, the life cycle, wipes and gate commits.
The model's choices within: log 119, 120. -/
def Obligations.LifeCycleAndGateCommits : Prop :=
  (∀ (t : Nat) (r : Req) (s : State),
    ((s.arrive t).accepts (plainCmd 0x0A00 4 0) r → Answers (.ownerLock t r) t s (plainCmd 0x0A00 4 0) r [.cache, .sec, .log] fun u st data v =>
      st = 0 ∧ data = [] ∧ v.sec = { u.sec with ownerLock := true } ∧ (u.sec.ownerLock = true → v = u)) ∧
    ((s.arrive t).accepts (plainCmd 0x0A01 4 0) r → Answers (.ownerUnlock t r) t s (plainCmd 0x0A01 4 0) r [.cache, .sec, .log] fun u st data v =>
      st = 0 ∧ data = [] ∧ v.sec = { u.sec with ownerLock := false } ∧ (u.sec.ownerLock = false → v = u)) ∧
    ((s.arrive t).accepts (lifecycleCmd r) r → zeros r.payload 1 3 = true → (s.arrive t).sec.advanceTo = none →
      ((s.arrive t).mayAdvance r.mb (field r.payload 0 1) = false →
        Answers (.lifecycleAdvance t r) t s (lifecycleCmd r) r [] fun u st data v => st = 0x0104 ∧ data = [] ∧ v = u) ∧
      ((s.arrive t).mayAdvance r.mb (field r.payload 0 1) = true → (s.arrive t).msg.jobs.length < 64 →
        Answers (.lifecycleAdvance t r) t s (lifecycleCmd r) r [.msg, .sec] fun u st data v =>
          ∃ id, st = 1 ∧ data = leBytes 2 id ++ leBytes 2 0 ∧ v.sec = { u.sec with advanceTo := some (field r.payload 0 1, id) } ∧
            v.msg.jobs = u.msg.jobs ++ [{ id := id, cmd := 0x0A02, done := false, progress := 0, status := 0, result := [], endAt := 0 }]))) ∧
  (∀ (mb target : Nat) (s : State), s.mayAdvance mb target = true ↔
    (target = 1 ∧ s.sec.lifecycle = 0 ∧ mb = 15 ∧ s.sec.pendingRec ≠ none) ∨ (target = 2 ∧ s.sec.lifecycle = 1) ∨
      (target = 3 ∧ (s.sec.lifecycle = 1 ∨ s.sec.lifecycle = 2))) ∧
  (∀ (t id : Nat) (s : State), (s.arrive t).awake = true → (s.arrive t).power.mode = 2 →
    ((s.arrive t).sec.advanceTo = some (2, id) → ∃ v : State, exec (.lifecycleJobEnd t) s = .next v ∧ v.sec =
      { (s.arrive t).sec with advanceTo := none, lifecycle := 2, latch := 2, ownerLock := false, wipes := inc32 (s.arrive t).sec.wipes, wipeReason := 5,
                              wipeS := (s.arrive t).tb3s % 2 ^ 32 } ∧ v.gate.debugOpen = false) ∧
    ((s.arrive t).sec.advanceTo = some (3, id) → ∃ v : State, exec (.lifecycleJobEnd t) s = .next v ∧ v.sec.lifecycle = 3 ∧ v.sec.latch = 3 ∧ v.sec.fuse = true ∧
      v.sec.sealedRec = false ∧ v.sec.serverKey = [] ∧ v.sec.cfgKeys = [] ∧ v.sec.sheafKeys = [] ∧ v.sec.roles = [] ∧ v.sec.anchors = [] ∧
      v.cfg.sown = Slot.empty ∧ v.cfg.fallow = Slot.empty ∧ v.cfg.seed = Slot.empty ∧ v.gate.debugOpen = false)) ∧
  (∀ (reason : Nat) (s : State), (s.wipe reason).sec = { s.sec.wiped with wipes := inc32 s.sec.wipes, wipeReason := reason, wipeS := s.tb3s % 2 ^ 32 } ∧
    (s.wipe reason).gate.debugOpen = false ∧ (∀ a, 0x0C200000 ≤ a → a ≤ 0x0C2FFFFF → memRead (s.wipe reason).mem a = 0#8) ∧
    (∀ n, n < 8 → n < s.msg.boxes.length → ((s.wipe reason).box n).connected = false ∧ ((s.box n).connected = true → ((s.wipe reason).box n).sid = 0)) ∧
    Frame [.cache, .mem, .out, .msg, .sec, .gate, .log] s (s.wipe reason)) ∧
  (∀ (reason : Nat) (s : State), (s.tamperWipe reason).sec.lifecycle = (if s.sec.fuse = true then 3 else 0) ∧ (s.tamperWipe reason).sec.sealedRec = false ∧
    (s.tamperWipe reason).sec.serverKey = [] ∧ (s.tamperWipe reason).sec.cfgKeys = [] ∧ (s.tamperWipe reason).sec.sheafKeys = [] ∧ (s.tamperWipe reason).sec.ownerLock = false) ∧
  (∀ (t : Nat) (s : State),
    ((s.arrive t).awake = true → (s.arrive t).gate.draining = false → exec (.gateCommit t) s = .next ((s.arrive t).upGate fun g =>
      { g with active := g.shadow, epoch := (g.epoch + 1) % 2 ^ 32, commits := inc32 g.commits, draining := true })) ∧
    ((s.arrive t).gate.draining = true → exec (.gateCommit t) s = .next (s.arrive t) ∧
      exec (.commitDrainDone t) s = .next ((s.arrive t).upGate fun g => { g with draining := false })))

/-! ## Supplies, contacts and retires (08, 01) -/

/-- R184, R185, R187, R190, R193–R196: supplies, contacts and wakes.
The model's choices within: log 52, 64, 128. -/
def Obligations.SuppliesAndContacts : Prop :=
  (∀ (t mv : Nat) (s : State), (s.arrive t).power.mainGood = false →
    ((s.arrive t).power.mode ≠ 8 → (s.arrive t).boot.stopped = false →
      Does (.powerGood t mv) t s [.power] fun u v => v.power.mainGood = true ∧ v.power.presentN = true ∧ v.power.powerCycles = inc32 u.power.powerCycles ∧
        v.power.mainMv = mv ∧ v.power.maxMv = max u.power.maxMv mv ∧ v.power.minMv = min u.power.minMv mv ∧ v.power.mode = u.power.mode) ∧
    ((s.arrive t).power.mode = 8 → (s.arrive t).boot.lingKept = true →
      Does (.powerGood t mv) t s [.power, .boot] fun u v => v.power.mainGood = true ∧ v.power.powerCycles = inc32 u.power.powerCycles ∧
        v.boot = { u.boot with wakeDue := true } ∧ v.power.mode = 8) ∧
    ((s.arrive t).power.mode = 8 → (s.arrive t).boot.lingKept = false → ∃ v : State, exec (.powerGood t mv) s = .next v ∧
      v.power.mode = 1 ∧ v.power.bootKind = 0 ∧ v.pair.owner = false ∧ v.power.powerCycles = inc32 (s.arrive t).power.powerCycles)) ∧
  (∀ (t mv : Nat) (s : State), (s.arrive t).power.mainGood = true →
    ((s.arrive t).power.mode ≠ 1 → (s.arrive t).power.mode ≠ 8 → (s.arrive t).boot.retiring = false →
      Does (.dip t mv) t s [.power] fun u v => v.power = { u.power with mainGood := false, mainMv := mv, riding := true, dipAt := u.time.now }) ∧
    ((s.arrive t).power.mode = 1 → Does (.dip t mv) t s [.out, .pair, .power, .boot] fun u v => v.boot.stopped = true ∧ v.boot.waiting = false ∧
      v.pair.ownClaim = false ∧ v.power.mainGood = false ∧ v.power.riding = u.power.riding)) ∧
  (∀ (t mv : Nat) (s : State), (s.arrive t).power.riding = true → (s.arrive t).boot.retiring = false →
    Does (.rideThroughEnd t mv) t s [.cache, .power, .log] fun u v => v.power.riding = false ∧ v.power.mainGood = true ∧ v.power.mainMv = mv ∧
      v.power.rideThroughs = inc32 u.power.rideThroughs ∧ v.power.powerCycles = u.power.powerCycles) ∧
  (∀ (t mv : Nat) (rising : Bool) (s : State),
    exec (.auxGoodChange t rising mv) s = .next ((s.arrive t).upPower fun p => { p with auxGood := rising, auxMv := mv })) ∧
  (∀ (t : Nat) (s : State), (s.arrive t).power.presentN = true → (s.arrive t).boot.retiring = false →
    ((s.arrive t).power.mode ≠ 1 → (s.arrive t).power.mode ≠ 8 → ∃ v : State, exec (.presentNBreak t) s = .next v ∧ v.power.presentN = false ∧
      v.power.mainGood = false ∧ v.power.retireReason = 5 ∧ v.boot.retiring = true ∧ v.pair.owner = false) ∧
    ((s.arrive t).power.mode = 8 → exec (.presentNBreak t) s = .next ((s.arrive t).upPower fun p => { p with presentN := false, mainGood := false })) ∧
    ((s.arrive t).power.mode = 1 → ∃ v : State, exec (.presentNBreak t) s = .next v ∧ v.boot.stopped = true ∧ v.power.presentN = false)) ∧
  (∀ (t : Nat) (s : State), (s.arrive t).power.ejectOpen = false → (s.arrive t).awake = true → (s.arrive t).boot.retiring = false →
    ((s.arrive t).pair.owner = true → (s.arrive t).twinSynced = true → ∃ v : State, exec (.ejectNOpen t) s = .next v ∧ v.power.ejectOpen = true ∧
      v.boot.retirePending = some 2 ∧ v.boot.retiring = false ∧ v.pair.owner = true ∧
      ∃ h, v.pair.armed = some h ∧ h.kind = 4 ∧ h.th = (s.arrive t).nextT0 0 ((s.arrive t).tb0 + 1000000)) ∧
    ((s.arrive t).pair.owner = false ∨ (s.arrive t).twinSynced = false → ∃ v : State, exec (.ejectNOpen t) s = .next v ∧ v.power.ejectOpen = true ∧
      v.boot.retiring = true ∧ v.power.retireReason = 2 ∧ v.pair.owner = false)) ∧
  (∀ (t : Nat) (s : State), (s.arrive t).power.ejectOpen = true →
    Does (.ejectNClose t) t s [.power, .boot] fun u v => v.power = { u.power with ejectOpen := false } ∧
      v.boot = { u.boot with wakeDue := u.boot.wakeDue || (u.power.mode == 8 && u.power.mainGood) }) ∧
  (∀ (t : Nat) (s : State),
    ((s.arrive t).power.safeN = false → Does (.safeNAssert t) t s [.cache, .out, .power, .dio, .ua, .log] fun u v =>
      v.power = { u.power with safeN := true, safeEvents := inc32 u.power.safeEvents } ∧
      (u.awake = true → u.driving = true → v.out = u.out ++ [.safeStates] ∧
        ∀ n, n < u.dio.ch.length → v.dioCh n = { u.dioCh n with commanded := dioSafe (u.dioWord n) (u.dioCh n) })) ∧
    ((s.arrive t).power.safeN = true → exec (.safeNRelease t) s = .next ((s.arrive t).upPower fun p => { p with safeN := false }))) ∧
  (∀ (t : Nat) (present : Bool) (s : State), (s.arrive t).pair.peerPresent ≠ present →
    Does (.peerPresentNChange t present) t s [.pair, .cfg, .ua] fun u v => v.pair = { u.pair with peerPresent := present } ∧
      (present = false → v.cfg.checkedTwin = false) ∧
      ∀ n, n < u.ua.ch.length → (u.uaMode n = 2 ∨ u.uaMode n = 3) → (v.uaCh n).quietUntil = u.time.now + 2500000) ∧
  (∀ (t mj : Nat) (s : State), (s.arrive t).power.mode = 8 → (s.arrive t).power.mainGood = true →
    ((s.arrive t).boot.wakeDue = true ∨ ((s.arrive t).power.retireReason = 3 ∧ (s.arrive t).power.wakeDelay ≠ 0 ∧
        (s.arrive t).boot.sleepAt + (s.arrive t).power.wakeDelay ≤ (s.arrive t).tb3s) →
      ∀ c, c = (if (s.arrive t).boot.wakeDue = true then Instr.wakeEvent t mj else Instr.wakeDelayExpiry t mj) →
      ∃ v : State, exec c s = .next v ∧ v.power.mode = 1 ∧ v.pair.owner = false ∧ v.power.bootKind =
        if (s.arrive t).boot.lingKept = true ∧ (s.arrive t).boot.tamperLatched = none ∧ 20000 ≤ mj ∧ (s.arrive t).boot.committed = true ∧
          (s.arrive t).boot.recordSinceVerify = false then 1 else 0)) ∧
  (∀ (t full now : Nat) (s : State), (s.arrive t).awake = true → (s.arrive t).power.mainGood = true → (s.arrive t).power.holdupTestS + 86400 ≤ (s.arrive t).tb3s →
    Does (.holdupMeasurement t full now) t s [.cache, .power, .log] fun u v => v.power =
      { u.power with fullMj := full, holdupMj := now, noUpdate := decide (full < 32000), worn := decide (full < 24000), insufficient := decide (full < 20000),
                     below32 := decide (now < 32000), holdupTestS := u.tb3s }) ∧
  (∀ (t mv : Nat) (s : State), (s.arrive t).power.lingLow = false →
    Does (.lingCellLow t mv) t s [.cache, .power, .log] fun u v => v.power = { u.power with lingLow := true, lingMv := mv }) ∧
  (∀ (t : Nat) (s : State), (s.arrive t).unpowered = true → (s.arrive t).power.mainGood = false → (s.arrive t).power.auxGood = false →
    exec (.lingCellEmpty t) s = .next (((s.arrive t).upBoot fun b => { b with lingKept := false, tamperLatched := none, wakeDue := false }).upSec fun c =>
      { c with latch := c.lifecycle }))

/-- R188, R191, R192, Table 8.8: a retire from r0 to SLEEP.
The model's choices within: log 62, 65, 66. -/
def Obligations.RetiresRunTheirTimeline : Prop :=
  (∀ (reason : Nat) (s : State), s.boot.retiring = false →
    (s.beginRetire reason).power = { s.power with retires := inc32 s.power.retires, retireReason := reason, riding := false } ∧
    (s.beginRetire reason).boot.retiring = true ∧ (s.beginRetire reason).boot.retireAt = s.time.now ∧ (s.beginRetire reason).boot.retireRole = s.power.mode ∧
    (s.beginRetire reason).boot.committed = false ∧ (s.beginRetire reason).boot.retirePending = none ∧ (s.beginRetire reason).pair.owner = false ∧
    (s.beginRetire reason).pair.ownClaim = false ∧ (s.beginRetire reason).cfg.armed = none ∧ (s.beginRetire reason).disp.frozenLines = s.retireLines reason ∧
    (s.beginRetire reason).disp.retireSkipped = false ∧
    Frame [.out, .pair, .power, .boot, .cyc, .fsp, .sched, .cfg, .msg, .dio, .ua, .can, .disp] s (s.beginRetire reason)) ∧
  (∀ (reason : Nat) (s : State), s.boot.retiring = true → s.beginRetire reason = s) ∧
  (∀ (t : Nat) (s : State), (s.arrive t).awake = true →
    ((s.arrive t).power.riding = true → (s.arrive t).boot.retirePending = none → exec (.retireStart t) s = .next ((s.arrive t).beginRetire 1)) ∧
    (∀ r, (s.arrive t).boot.retirePending = some r → exec (.retireStart t) s = .next ((s.arrive t).beginRetire r)) ∧
    (∀ tenths : Int, exec (.overTemperature t tenths) s = .next (((s.arrive t).upPower fun p => { p with boardTemp := tenths }).beginRetire 4))) ∧
  (∀ (t : Nat) (s : State), (s.arrive t).boot.retiring = true → (s.arrive t).boot.coresOff = false → (s.arrive t).boot.retireAt + 1250000 ≤ (s.arrive t).time.now →
    Does (.retireSwitchOff t) t s [.cache, .mem, .boot, .sfp] fun u v => v.boot = { u.boot with coresOff := true } ∧ (∀ x ∈ v.sfp, x.linkUp = false) ∧
      (∀ a, 0x1000000000 ≤ a → a ≤ 0x13FFFFFFFF → memRead v.mem a = 0#8) ∧ (∀ a, a < 0x1000000000 → memRead v.mem a = memRead u.mem a)) ∧
  (∀ (t : Nat) (s : State), (s.arrive t).boot.retiring = true → (s.arrive t).boot.coresOff = true → (s.arrive t).boot.committed = false →
    Does (.retireCommitWrites t) t s [.cache, .time, .pair, .boot, .log, .disp] fun u v => v.boot = { u.boot with committed := true } ∧
      v.pair = { u.pair with storedTerm := u.pair.term } ∧ v.disp = { u.disp with storedLedgers := u.disp.ledgers } ∧ v.log.unflushed = 0) ∧
  (∀ (t mj : Nat) (s : State), (s.arrive t).boot.retiring = true → (s.arrive t).disp.retireImage = false → (s.arrive t).disp.retireSkipped = false →
    (s.arrive t).boot.retireAt + 125000000 ≤ (s.arrive t).time.now →
    (8500 ≤ mj → (s.arrive t).disp.frozen = false → (s.arrive t).disp.panelOk = true →
      Does (.retireImage t mj) t s [.free, .out, .power, .msg, .disp] fun u v => v.disp.retireImage = true ∧ v.disp.shown = u.disp.frozenLines.take 8 ∧
        v.disp.fulls = inc32 u.disp.fulls ∧ v.power = { u.power with holdupMj := mj } ∧ v.out = u.out ++ [.waveform 1 0 (fullMs u.disp.band)]) ∧
    (mj < 8500 ∨ (s.arrive t).disp.frozen = true ∨ (s.arrive t).disp.panelOk = false →
      Does (.retireImage t mj) t s [.power, .disp] fun u v => v.disp = { u.disp with retireSkipped := true } ∧ v.power = { u.power with holdupMj := mj })) ∧
  (∀ (t : Nat) (s : State), (s.arrive t).boot.retiring = true → (s.arrive t).boot.coresOff = true →
    ((s.arrive t).power.mainGood = false ∨ ((s.arrive t).power.retireReason ≠ 1 ∧ (s.arrive t).power.retireReason ≠ 2 ∧ (s.arrive t).power.retireReason ≠ 5) →
      ∃ v : State, exec (.retireEnd t) s = .next v ∧ v.power.mode = 8 ∧ v.boot.retiring = false ∧ v.boot.lingKept = true ∧ v.boot.sleepAt = (s.arrive t).tb3s ∧
        v.pair.owner = false ∧ v.power.operatingFrom = (s.arrive t).tb3s) ∧
    ((s.arrive t).power.mainGood = true → (s.arrive t).power.retireReason = 1 → ∃ v : State, exec (.retireEnd t) s = .next v ∧ v.power.mode = 1))

/-- R9, R11, R188 Table 8.7, R287: tamper, the clock check and the watchdog.
The model's choices within: log 53, 63, 70. -/
def Obligations.TamperAndWatchdog : Prop :=
  (∀ (t : Nat) (k : Tamper) (s : State),
    ((s.arrive t).unpowered = true → (s.arrive t).boot.lingKept = true →
      exec (.tamper t k) s = .next ((s.arrive t).upBoot fun b => { b with tamperLatched := some (tamperCode k) })) ∧
    ((s.arrive t).unpowered = true → (s.arrive t).boot.lingKept = false → exec (.tamper t k) s = .next (s.arrive t)) ∧
    ((s.arrive t).unpowered = false → ∃ v : State, exec (.tamper t k) s = .next v ∧ v = (s.arrive t).tampered (tamperCode k))) ∧
  (∀ (k : Nat) (s : State), s.unpowered = false →
    (s.tampered k).sec.serverKey = [] ∧ (s.tampered k).sec.cfgKeys = [] ∧ (s.tampered k).sec.sheafKeys = [] ∧ (s.tampered k).sec.sealedRec = false ∧
    (s.tampered k).sec.lifecycle = (if s.sec.fuse = true then 3 else 0) ∧ (s.tampered k).sec.wipeReason = k ∧ (s.tampered k).sec.wipes = inc32 s.sec.wipes ∧
    (s.tampered k).pair.ownClaim = false ∧
    (3 ≤ s.power.mode → s.power.mode ≤ 7 → s.boot.retiring = false → (s.tampered k).power.mode = 7 ∧ (s.tampered k).power.reason = 4 ∧ (s.tampered k).pair.owner = false) ∧
    (s.power.mode = 2 → s.boot.retiring = false → (s.tampered k).power.mode = 2 ∧ (s.sec.fuse = false → (s.tampered k).gate.debugOpen = true)) ∧
    (s.power.mode = 1 ∨ s.boot.retiring = true → (s.tampered k).power = s.power)) ∧
  (∀ (t : Nat) (s : State), (s.arrive t).unpowered = false → exec (.pllLossOfLock t) s = .next ((s.arrive t).tampered 4)) ∧
  (∀ (t cycles : Nat) (s : State), (s.arrive t).unpowered = false →
    (12475000 ≤ cycles → cycles ≤ 12525000 → exec (.clockCheckWindow t cycles) s = .next ((s.arrive t).upBoot fun b => { b with clockBad := 0 })) ∧
    (cycles < 12475000 ∨ 12525000 < cycles →
      ((s.arrive t).boot.clockBad = 0 → exec (.clockCheckWindow t cycles) s = .next ((s.arrive t).upBoot fun b => { b with clockBad := b.clockBad + 1 })) ∧
      (0 < (s.arrive t).boot.clockBad → exec (.clockCheckWindow t cycles) s = .next (((s.arrive t).upBoot fun b => { b with clockBad := 0 }).tampered 4)))) ∧
  (∀ (t : Nat) (s : State), (s.arrive t).stewardUp = true →
    ((s.arrive t).boot.hung = false → (s.arrive t).boot.watchdogRecord = none →
      exec (.watchdogService t) s = .next ((s.arrive t).upBoot fun b => { b with watchdogAt := (s.arrive t).time.now })) ∧
    ((s.arrive t).boot.watchdogAt + 12500000 ≤ (s.arrive t).time.now → ∃ v : State, exec (.watchdogExpiry t) s = .next v ∧
      ((s.arrive t).power.mode = 1 → v.power.mode = 1 ∧ v.power.bootKind = 2) ∧
      ((s.arrive t).power.mode = 2 → v.power.mode = 2) ∧
      (3 ≤ (s.arrive t).power.mode → (s.arrive t).boot.retiring = false → v.power.mode = 7 ∧ v.power.reason = 3 ∧ v.pair.owner = false ∧ v.pair.ownClaim = false) ∧
      ((s.arrive t).power.mode ≠ 1 → v.sheaf.healthBroken = true ∧ v.boot.watchdogRecord = some (s.arrive t).tb3ns)))

/-! ## BOOT and the start (08, 13) -/

/-- R182, R183, R160, Table 8.2: the start decision, the wait of 2 s and the term window.
The model's choices within: log 57, 70. -/
def Obligations.StartDecisionsTakeTheFirstStep : Prop :=
  (∀ s : State,
    (s.sec.lifecycle ≠ 2 → s.startDecision.power.mode = 2 ∧ s.startDecision.power.reason = 0xC) ∧
    (s.sec.lifecycle = 2 →
      (s.cfg.sown.present = false ∨ s.boot.cfgOk = false → s.startDecision.power.mode = 2 ∧ s.startDecision.power.reason = 0xB) ∧
      (s.cfg.sown.present = true → s.boot.cfgOk = true →
        (s.power.latch = true → s.startDecision.power.mode = 2 ∧ s.startDecision.power.reason = 0xF) ∧
        (s.power.latch = false →
          (s.boot.mowerOk = false ∨ s.sheaf.bootFault ≠ 0 → s.startDecision.power.mode = 7 ∧ s.startDecision.power.reason = 0xD) ∧
          (s.boot.mowerOk = true → s.sheaf.bootFault = 0 →
            (s.placementFor s.lock.disabled = none → s.startDecision.power.mode = 7 ∧
              s.startDecision.power.reason = if s.boot.lbistOk = 255 then 0xE else 0xD) ∧
            (s.placementFor s.lock.disabled ≠ none → s.startDecision = s.decide5)))))) ∧
  (∀ s : State,
    (s.pair.twinClaim = true → s.decide5.power.mode = 3 ∧ s.decide5.pair.synced = false ∧ s.decide5.pair.copyDone = false ∧ s.decide5.boot.waiting = false) ∧
    (s.pair.twinClaim = false →
      (s.conf.pair.autoStart = false → s.power.released = false → s.decide5.power.mode = 7 ∧ s.decide5.power.reason = 8) ∧
      (s.conf.pair.autoStart = true ∨ s.power.released = true →
        (s.tb0Valid = false → s.decide5.power.mode = 7 ∧ s.decide5.power.reason = 9) ∧
        (s.tb0Valid = true →
          (s.mustWait = true → s.decide5 = s.upBoot fun b => { b with waiting := true, waitAt := s.time.now }) ∧
          (s.mustWait = false → s.decide5.pair = { s.pair with termOpen := true, termRef := s.pair.storedTerm, termBest := s.pair.storedTerm } ∧
            s.decide5.boot = { s.boot with waiting := false, waitAt := s.time.now } ∧ s.decide5.power = s.power))))) ∧
  (∀ s : State, s.mustWait = true ↔ s.pair.peerPresent = true ∧ s.boot.waitDone = false ∧
    ((s.swathSilent = true ∧ s.slotB = true) ∨ (s.swathSilent = false ∧ s.pair.twinMode ≤ 1 ∧
      ((s.conf.pair.homeSlot < 2 ∧ s.inHomeSlot = false) ∨ (2 ≤ s.conf.pair.homeSlot ∧ s.slotB = true))))) ∧
  (∀ (t : Nat) (s : State), (s.arrive t).mayEndBoot = true → ((s.arrive t).power.bootKind ≠ 1 ∨ (s.arrive t).time.now ≤ (s.arrive t).boot.startAt + 412500000) →
    ∃ u : State, u = (((s.arrive t).upTime TimeSt.startBases).upBoot fun b => { b with step := 9, waitDone := false }).upPower (fun p =>
        { p with lastBootMs := min 0xFFFFFFFF (((s.arrive t).time.now - (s.arrive t).boot.startAt) / 250000) }) ∧
      exec (.bootEnd t) s = .next ((((u.startDecision).select 0).select 1).startAgain) ∧
      (u.startDecision.power.mode ≠ 7 → (((u.startDecision).select 0).select 1).startAgain.power = u.startDecision.power)) ∧
  (∀ (t : Nat) (s : State), (s.arrive t).waitOver = true → exec (.startWaitExpiry t) s =
    .next ((s.arrive t).upBoot fun b => { b with waiting := false, waitDone := true }).decide5) ∧
  (∀ (t : Nat) (s : State), (s.arrive t).windowEnds = true → (s.arrive t).pair.ownClaim = false →
    ((s.arrive t).pair.twinClaim = false → exec (.termWindowEnd t) s = .next (((s.arrive t).upPair fun p =>
      { p with termOpen := false, ownClaim := true, ownClaimAt := (s.arrive t).time.now, confirmed := false, tied := false, claimKind := 0, ownReadback := true }).emit (.hedge 1))) ∧
    ((s.arrive t).pair.twinClaim = true → (s.arrive t).pair.twinClaimAt + 500 < (s.arrive t).time.now →
      ∃ v : State, exec (.termWindowEnd t) s = .next v ∧ v.power.mode = 3 ∧ v.pair.ownClaim = false ∧ v.pair.termOpen = false))

/-- R184, R186, R209–R211, R268, R287, R305, R310: the steps of BOOT.
The model's choices within: log 51, 54, 57, 58, 59, 60. -/
def Obligations.BootStepsRunInOrder : Prop :=
  (∀ (st : BootStep) (s : State), s.mayStep st = true ↔ s.power.mode = 1 ∧ s.awake = true ∧ s.boot.retiring = false ∧ s.boot.step =
    (match st with | .pllsLocked => 0 | .steward _ _ => 1 | .mower _ => 2 | .store => 3 | .components _ _ => 4 | .lbist _ => 5 | .config _ => 6 | .holdup => 7)) ∧
  (∀ (t : Nat) (st : BootStep) (s : State), (s.arrive t).mayStep st = false → exec (.bootStepEnd t st) s = .next (s.arrive t)) ∧
  (∀ (t : Nat) (s : State), (s.arrive t).power.bootKind ≠ 1 →
    ((s.arrive t).mayStep .pllsLocked = true →
      ((s.arrive t).boot.lingKept = true → exec (.bootStepEnd t .pllsLocked) s = .next ((s.arrive t).upBoot fun b => { b with step := 1 })) ∧
      ((s.arrive t).boot.lingKept = false → Does (.bootStepEnd t .pllsLocked) t s [.cache, .time, .power, .boot, .log] fun u v =>
        v.time.tb3 = u.time.storedTb3 + 60 * 65536000000000 ∧ v.time.tb3Gap = true ∧ v.boot.step = 1 ∧ v.boot.lingKept = true)) ∧
    (∀ prevOk, (s.arrive t).mayStep (.steward true prevOk) = true → (s.arrive t).sheaf.recTrial = false → (s.arrive t).boot.tamperLatched = none →
      (s.arrive t).sec.latch = (s.arrive t).sec.lifecycle → Does (.bootStepEnd t (.steward true prevOk)) t s [.cache, .boot, .sec, .gate, .log] fun u v =>
        v.boot.step = 2 ∧ v.boot.watchdogAt = u.time.now ∧ v.boot.watchdogRecord = none ∧
        v.sec.lifecycle = (if u.sec.fuse = true then 3 else if u.sec.sealedRec = true then u.sec.lifecycle else 0) ∧ v.sec.latch = v.sec.lifecycle ∧
        v.gate.active = u.rulesOf) ∧
    (∀ prevOk, (s.arrive t).mayStep (.steward false prevOk) = true → (s.arrive t).sheaf.recTrial = false → (prevOk = false ∨ (s.arrive t).sheaf.previous = 0) →
      exec (.bootStepEnd t (.steward false prevOk)) s = .next ((s.arrive t).upBoot fun b => { b with halted := true })) ∧
    ((s.arrive t).mayStep (.mower none) = true → Does (.bootStepEnd t (.mower none)) t s [.cache, .mem, .boot, .mower] fun u v =>
      v.boot.step = 3 ∧ v.mower = { u.mower with bootPassOk := true } ∧ ∀ a, a ≤ 0x0C2FFFFF → inCache a = false → memRead v.mem a = 0#8) ∧
    (∀ addr n, (s.arrive t).mayStep (.mower (some (addr, n))) = true → Does (.bootStepEnd t (.mower (some (addr, n)))) t s [.cache, .mem, .boot, .mower] fun u v =>
      v.boot = { u.boot with step := 3, mowerOk := false } ∧ v.mower = { u.mower with bootPassOk := false, faultAddr := addr, faultBit := n }) ∧
    ((s.arrive t).mayStep .store = true → exec (.bootStepEnd t .store) s = .next ((s.arrive t).upBoot fun b => { b with step := 4 })) ∧
    (∀ prevOk, (s.arrive t).mayStep (.components none prevOk) = true → Does (.bootStepEnd t (.components none prevOk)) t s [.boot, .sheaf, .dio, .ua, .disp, .sfp]
      fun u v => v.boot = { u.boot with step := 5, recordSinceVerify := false } ∧ v.sheaf.bootFault = 0 ∧ v.dio.linkUp = true ∧ v.ua.linkUp = true ∧ v.disp.panelOk = true) ∧
    (∀ c prevOk, (s.arrive t).mayStep (.components (some c) prevOk) = true →
      ((s.arrive t).sheaf.recTrial = false → prevOk = true → (s.arrive t).sheaf.previous ≠ 0 → Does (.bootStepEnd t (.components (some c) prevOk)) t s
        [.cache, .boot, .sheaf, .log] fun u v => v.boot = { u.boot with step := 3, recordSinceVerify := true } ∧ v.sheaf.active = u.sheaf.previous ∧ v.sheaf.previous = 0 ∧
          v.sheaf.result = 5 ∧ v.sheaf.fallbacks = inc32 u.sheaf.fallbacks) ∧
      ((s.arrive t).sheaf.recTrial = true ∨ prevOk = false ∨ (s.arrive t).sheaf.previous = 0 → Does (.bootStepEnd t (.components (some c) prevOk)) t s
        [.boot, .sheaf, .dio, .ua, .disp, .sfp] fun u v => v.boot.step = 5 ∧ v.sheaf.bootFault = c ∧ v.dio.linkUp = (c != 5) ∧ v.ua.linkUp = (c != 6) ∧ v.disp.panelOk = (c != 7))) ∧
    (∀ passed, (s.arrive t).mayStep (.lbist passed) = true → ∃ v : State, exec (.bootStepEnd t (.lbist passed)) s = .next v ∧ v.boot.step = 6 ∧
      (∀ x : State, x = ((List.range 8).foldl (fun (x : State) n => x.bootLbist passed n) (s.arrive t)).proved 0 (decide (passed % 256 = 255)) →
        v = (match x.placementFor x.lock.disabled with | some p => x.upLock fun l => { l with placement := p } | none => x).stepDone)) ∧
    (∀ ok, (s.arrive t).mayStep (.config ok) = true → ∃ v : State, exec (.bootStepEnd t (.config ok)) s = .next v ∧ v.boot.step = 7 ∧
      v.boot.cfgOk = (ok && (s.arrive t).cfg.sown.present) ∧ (ok = true → (s.arrive t).cfg.sown.present = true → v.gate.active = (s.arrive t).rulesOf)) ∧
    ((s.arrive t).mayStep .holdup = true → exec (.bootStepEnd t .holdup) s = .next ((s.arrive t).upBoot fun b => { b with step := 8 }))) ∧
  (∀ (passed n : Nat) (s : State), n < s.lock.pairs.length →
    ((s.corePair n).disabled = false → bit passed n = false → ((s.bootLbist passed n).corePair n).disabled = true ∧ ((s.bootLbist passed n).corePair n).lastClass = 1 ∧
      ((s.bootLbist passed n).corePair n).permanent = true) ∧
    ((s.corePair n).disabled = false → bit passed n = true → ((s.bootLbist passed n).corePair n).disabled = false ∧ ((s.bootLbist passed n).corePair n).lbistOk = true) ∧
    ((s.corePair n).disabled = true → ((s.bootLbist passed n).corePair n).disabled = !(bit passed n && s.readmits (s.corePair n)))) ∧
  (∀ (kind reason : Nat) (released : Bool) (s : State), (s.startBoot kind reason released).power.mode = 1 ∧ (s.startBoot kind reason released).power.bootKind = kind ∧
    (s.startBoot kind reason released).pair.owner = false ∧ (s.startBoot kind reason released).power.powerCycles = s.power.powerCycles)

/-- R181 Table 8.4: the targets of MODE_REQUEST.
The model's choices within: log 67. -/
def Obligations.ModeRequestsFollowTable84 : Prop :=
  (∀ (target : Nat) (s : State), target ∈ [1, 2, 5, 7, 8] → (s.modeAccepted target = true ↔ s.boot.retiring = false ∧
    ((target = 1 ∨ target = 2) ∧ s.power.mode ∈ [2, 3, 4, 7] ∨ target = 5 ∧ (s.power.mode ∈ [2, 5, 6] ∨ s.power.mode = 7 ∧ s.power.reason = 8) ∨
      target = 7 ∧ s.power.mode ≠ 2 ∨ target = 8 ∧ s.power.mode ∈ [2, 7]))) ∧
  (∀ target mode : Nat, modeRole target mode = if target = 7 ∧ (mode = 5 ∨ mode = 6) then 4 else 3) ∧
  (∀ (t target : Nat) (r : Req) (s : State), target = field r.payload 0 1 → (s.arrive t).accepts (plainCmd 0x101 (modeRole target (s.arrive t).power.mode) 8) r →
    (target ∉ [1, 2, 5, 7, 8] → exec (.modeRequest t r) s = .next (((s.arrive t).take r).respond (hdrOf r) 0x101 0x010B [])) ∧
    (target ∈ [1, 2, 5, 7, 8] → zeros r.payload 1 3 = true →
      ((s.arrive t).modeAccepted target = false → exec (.modeRequest t r) s = .next (((s.arrive t).take r).respond (hdrOf r) 0x101 0x0104 [])) ∧
      ((s.arrive t).modeAccepted target = true → (s.arrive t).jobHolds = true → target ∈ [1, 2, 8] →
        exec (.modeRequest t r) s = .next (((s.arrive t).take r).respond (hdrOf r) 0x101 0x0101 [])) ∧
      ((s.arrive t).modeAccepted target = true → ((s.arrive t).jobHolds = false ∨ target ∉ [1, 2, 8]) →
        exec (.modeRequest t r) s = .next ((((s.arrive t).take r).respond (hdrOf r) 0x101 0 []).requestMode target (field r.payload 4 4))))) ∧
  (∀ (delay : Nat) (s : State),
    ((s.requestMode 1 delay).power.mode = 1 ∧ (s.requestMode 1 delay).power.bootKind = 2 ∧ (s.requestMode 1 delay).power.latch = s.power.latch) ∧
    ((s.requestMode 2 delay).power.mode = 2 ∧ (s.requestMode 2 delay).power.latch = true ∧ (s.power.mode = 2 → s.requestMode 2 delay = s.upPower fun p => { p with latch := true })) ∧
    (s.power.mode = 2 → (s.requestMode 5 delay).power.mode = 1 ∧ (s.requestMode 5 delay).power.bootKind = 2 ∧ (s.requestMode 5 delay).power.latch = false ∧
      (s.requestMode 5 delay).power.released = true) ∧
    (s.power.mode = 5 ∨ s.power.mode = 6 → s.requestMode 5 delay = s) ∧
    (s.power.mode = 7 → s.boot.waiting = false → s.pair.termOpen = false → s.pair.ownClaim = false →
      s.requestMode 5 delay = (s.upPower fun p => { p with released := true }).decide5) ∧
    (s.power.mode = 7 → s.requestMode 7 delay = s) ∧
    (s.power.mode ≠ 7 → (s.requestMode 7 delay).power.mode = 7 ∧ (s.requestMode 7 delay).power.reason = 1 ∧ (s.requestMode 7 delay).pair.owner = false) ∧
    (s.boot.retiring = false → (s.requestMode 8 delay).boot.retiring = true ∧ (s.requestMode 8 delay).power.retireReason = 3 ∧ (s.requestMode 8 delay).power.wakeDelay = delay))

/-! ## Memory, gates and the debug link (12) -/

/-- R280, R281: the first enabled rule whose range holds the address and whose MASTERS holds the master decides; without one, the
default map. R292: with the rules the steward installs, no access without the secure attribute reaches the secure partition. -/
def Obligations.GatesDecideByTheFirstRule : Prop :=
  (∀ (s : State) (g addr master r : Nat) (priv write : Bool), r < ruleCount g →
    (∀ i, i < r → ruleMatches (s.gate.rule g i) addr master = false) → ruleMatches (s.gate.rule g r) addr master = true →
    (s.gateRefuses g addr master priv write = none ↔
      (ruleSecure (s.gate.rule g r) = true → master = 8) ∧ rulePermits (s.gate.rule g r) priv write = true) ∧
    (ruleSecure (s.gate.rule g r) = true → master ≠ 8 → s.gateRefuses g addr master priv write = some (2, r)) ∧
    ((ruleSecure (s.gate.rule g r) = true → master = 8) → rulePermits (s.gate.rule g r) priv write = false →
      s.gateRefuses g addr master priv write = some (1, r))) ∧
  (∀ (s : State) (g addr master : Nat) (priv write : Bool), (∀ i, i < ruleCount g → ruleMatches (s.gate.rule g i) addr master = false) →
    (s.gateRefuses g addr master priv write = none ↔ priv = true ∧ s.inSecure g addr = false)) ∧
  (∀ (s : State) (g addr : Nat), s.inSecure g addr = true ↔ g = 10 ∨ ∃ r rule, (g, r, rule) ∈ s.gate.active ∧ ruleSecure rule = true ∧ ruleHolds rule addr = true) ∧
  (∀ (lo hi masters perm addr master : Nat), lo % 32 = 0 → hi % 32 = 31 → lo ≤ hi → hi < 2 ^ 37 → perm < 32 →
    (ruleMatches (ruleWords lo hi masters perm) addr master = true ↔ lo ≤ addr ∧ addr ≤ hi ∧ masters.testBit master = true)) ∧
  (∀ (s : State) (addr master : Nat) (priv write : Bool), s.gate.active = s.rulesOf → 0x0C200000 ≤ addr → addr ≤ 0x0C2FFFFF → master < 19 →
    master ≠ 8 → s.gateRefuses 10 addr master priv write = some (2, 0))

/-- R14, R270–R272, R281, R285: an access of 1 to 8 bytes within a word, or of two halves; to memory that its gate grants, to no
target, against a gate, and to a word that cannot be corrected.
The model's choices within: log 12, 110, 114, 115. -/
def Obligations.AccessesActOnTheirWords : Prop :=
  (∀ (t : Nat) (a : Access) (s : State), (s.arrive t).awake = false → exec (.fabricAccess t a) s = .next (s.arrive t)) ∧
  (∀ (t : Nat) (a : Access) (s : State), (s.arrive t).awake = true →
    (a.op = .cas → (a.size ≠ 8 ∨ a.addr % 8 ≠ 0) → exec (.fabricAccess t a) s = .next ((s.arrive t).emit (.access true 0))) ∧
    (0 < a.size → a.addr % 8 + a.size ≤ 8 → (a.op = .cas → a.size = 8) →
      (gateOf a.addr = none → exec (.fabricAccess t a) s =
        .next (((s.arrive t).record 0x0103 [(8, a.addr), (1, a.master), (1, opCode a.op)]).emit (.access true 0))) ∧
      (∀ g reason rule, gateOf a.addr = some g → (s.arrive t).gateRefuses g a.addr a.master a.priv (a.op != .read) = some (reason, rule) →
        exec (.fabricAccess t a) s =
          .next (((s.arrive t).violation g a.addr a.master rule reason a.priv (a.op != .read) a.size).emit (.access true 0))) ∧
      (∀ g, gateOf a.addr = some g → g < 12 → (s.arrive t).gateRefuses g a.addr a.master a.priv (a.op != .read) = none → a.portA = none →
        (∀ w, w = a.addr / 8 * 8 →
          ((a.op ≠ .write ∨ a.size ≠ 8) → (a.ecc = .double ∨ w ∈ (s.arrive t).mem.bad) →
            exec (.fabricAccess t a) s = .next ((((s.arrive t).uncorrectable w).masterActs a.master w).emit (.access true 0))) ∧
          (a.op = .read → a.ecc = .clean → w ∉ (s.arrive t).mem.bad → 0x03000000 ≤ w →
            exec (.fabricAccess t a) s = .next ((s.arrive t).emit (.access false (memReadN (s.arrive t).mem a.addr a.size)))) ∧
          (a.op = .read → a.ecc = .single → w ∉ (s.arrive t).mem.bad → 0x03000000 ≤ w →
            exec (.fabricAccess t a) s =
              .next (((s.arrive t).corrected w).emit (.access false (memReadN (s.arrive t).mem a.addr a.size)))) ∧
          (a.op = .write → (a.size = 8 ∨ a.ecc = .clean ∧ w ∉ (s.arrive t).mem.bad) → (w < queueBase ∨ queueBase + 0x200000 ≤ w) →
            Memory.wf s.mem = true →
            ∃ v, exec (.fabricAccess t a) s = .next (v.emit (.access false 0)) ∧ Frame [.cache, .mem] (s.arrive t) v ∧
              (∀ i, i < a.size → memRead v.mem (a.addr + i) = BitVec.ofNat 8 (a.data / 256 ^ i)) ∧
              (∀ b, (b < a.addr ∨ a.addr + a.size ≤ b) → memRead v.mem b = memRead (s.arrive t).mem b) ∧
              (a.size = 8 → w ∉ v.mem.bad)) ∧
          (a.op = .cas → a.ecc = .clean → w ∉ (s.arrive t).mem.bad → a.addr % 8 = 0 → (w < queueBase ∨ queueBase + 0x200000 ≤ w) →
            ((s.arrive t).memWordAt w ≠ a.expected % 2 ^ 64 →
              exec (.fabricAccess t a) s = .next ((s.arrive t).emit (.access false ((s.arrive t).memWordAt w)))) ∧
            ((s.arrive t).memWordAt w = a.expected % 2 ^ 64 → exec (.fabricAccess t a) s =
              .next (((s.arrive t).upMem (memWriteN · w 8 (a.data % 2 ^ 64))).emit (.access false ((s.arrive t).memWordAt w)))))))) ∧
    (a.op ≠ .cas → 8 < a.addr % 8 + a.size → a.size ≤ 8 → ∀ n, n = 8 - a.addr % 8 →
      (∀ u, (s.arrive t).wordAccess a a.addr n (a.data % 2 ^ (8 * n)) a.ecc = (u, .busError) →
        exec (.fabricAccess t a) s = .next (u.emit (.access true 0))) ∧
      (∀ u lo, (s.arrive t).wordAccess a a.addr n (a.data % 2 ^ (8 * n)) a.ecc = (u, .done lo) →
        (∀ v, u.wordAccess { a with portA := none } (a.addr + n) (a.size - n) (a.data / 2 ^ (8 * n) % 2 ^ (8 * (a.size - n))) .clean = (v, .busError) →
          exec (.fabricAccess t a) s = .next (v.emit (.access true 0))) ∧
        (∀ v hi, u.wordAccess { a with portA := none } (a.addr + n) (a.size - n) (a.data / 2 ^ (8 * n) % 2 ^ (8 * (a.size - n))) .clean = (v, .done hi) →
          exec (.fabricAccess t a) s = .next (v.emit (.access false (lo + hi * 2 ^ (8 * n)))))))) ∧
  (∀ (w : Nat) (s : State), (s.uncorrectable w).mower = (if isDram w then { s.mower with ueDram := inc32 s.mower.ueDram, lastUe := w }
      else { s.mower with ueSram := inc32 s.mower.ueSram, lastUe := w }) ∧ (inCache w = false → w ∈ (s.uncorrectable w).mem.bad) ∧ Frame [.cache, .mem, .mower, .log] s (s.uncorrectable w) ∧
    (∀ a, inCache a = false → memRead (s.uncorrectable w).mem a = memRead s.mem a)) ∧
  (∀ (g addr master rule reason : Nat) (priv write : Bool) (size : Nat) (s : State), g < s.gate.violations.length →
    (s.violation g addr master rule reason priv write size).gate.violations.getD g 0 = inc32 (s.gate.violations.getD g 0) ∧
    (s.violation g addr master rule reason priv write size).gate.active = s.gate.active ∧
    (16 * g + s.gate.logged.getD g 0 % 16, faultEntry addr master rule reason priv write size s.gate.epoch (s.gate.logged.getD g 0)) ∈
      (s.violation g addr master rule reason priv write size).gate.logs)

/-- R290, R291: the debug link reads and writes 32-bit words as master 18, user; halting and resuming act only while debug is open; and
`DBG_RST_N` resets the link and nothing else.
The model's choices within: log 117, 118. -/
def Obligations.TheDebugLinkActsAsMaster18 : Prop :=
  (∀ (op : AccessOp) (addr : Nat) (v : Word), debugAccess op addr v = { master := 18, priv := false, op := op, addr := addr % 2 ^ 40, size := 4, data := v.toNat, expected := 0, ecc := .clean, portA := none }) ∧
  (∀ (t addr : Nat) (crcOk : Bool) (s : State), (s.arrive t).debugLink = true →
    (∀ n, 1 ≤ n → n ≤ 256 → ((crcOk = false → exec (.debugReadWords t addr n crcOk) s = .next ((s.arrive t).emit (.debug 3 []))) ∧
      (crcOk = true → ∀ u ds, (∃ d, (s.arrive t).debugWords .read ((List.range n).map fun i => (addr + 4 * i, 0#32)) [] = (u, .done d, ds)) →
        exec (.debugReadWords t addr n crcOk) s = .next (u.emit (.debug 0 ds))) ∧
      (crcOk = true → ∀ u ds, (s.arrive t).debugWords .read ((List.range n).map fun i => (addr + 4 * i, 0#32)) [] = (u, .busError, ds) →
        exec (.debugReadWords t addr n crcOk) s = .next (u.emit (.debug 1 []))))) ∧
    (∀ n, (n = 0 ∨ 256 < n) → exec (.debugReadWords t addr n crcOk) s = .next (s.arrive t)) ∧
    (∀ ws : List Word, ws ≠ [] → ws.length ≤ 256 → ((crcOk = false → exec (.debugWriteWords t addr ws crcOk) s = .next ((s.arrive t).emit (.debug 3 []))) ∧
      (crcOk = true → ∀ u d ds, (s.arrive t).debugWords .write (mapFrom (fun i p => (addr + 4 * i, p.2)) 0 (ws.map fun w => (0, w))) [] = (u, .done d, ds) →
        exec (.debugWriteWords t addr ws crcOk) s = .next (u.emit (.debug 0 []))) ∧
      (crcOk = true → ∀ u ds, (s.arrive t).debugWords .write (mapFrom (fun i p => (addr + 4 * i, p.2)) 0 (ws.map fun w => (0, w))) [] = (u, .busError, ds) →
        exec (.debugWriteWords t addr ws crcOk) s = .next (u.emit (.debug 1 [])))))) ∧
  (∀ (op : AccessOp) (addr : Nat) (x : Word) (ws : List (Nat × Word)) (got : List Word) (s u : State),
    (∀ d, s.access (debugAccess op addr x) = (u, .done d) → s.debugWords op ((addr, x) :: ws) got = u.debugWords op ws (got ++ [BitVec.ofNat 32 d])) ∧
    (s.access (debugAccess op addr x) = (u, .busError) → s.debugWords op ((addr, x) :: ws) got = (u, .busError, [])) ∧
    s.debugWords op [] got = (s, .done 0, got)) ∧
  (∀ (t n : Nat) (crcOk : Bool) (s : State), (s.arrive t).debugLink = true → n < 8 →
    (crcOk = false → exec (.debugHaltCorePair t n crcOk) s = .next ((s.arrive t).emit (.debug 3 [])) ∧
      exec (.debugResumeCorePair t n crcOk) s = .next ((s.arrive t).emit (.debug 3 []))) ∧
    (crcOk = true → (s.arrive t).gate.debugOpen = false → exec (.debugHaltCorePair t n crcOk) s = .next ((s.arrive t).emit (.debug 2 [])) ∧
      exec (.debugResumeCorePair t n crcOk) s = .next ((s.arrive t).emit (.debug 2 []))) ∧
    (crcOk = true → (s.arrive t).gate.debugOpen = true →
      exec (.debugHaltCorePair t n crcOk) s = .next (((s.arrive t).setPair n fun c => { c with dbgHalted := true }).emit (.debug 0 [])) ∧
      exec (.debugResumeCorePair t n crcOk) s = .next (((s.arrive t).setPair n fun c => { c with dbgHalted := false }).emit (.debug 0 [])))) ∧
  (∀ (t : Nat) (low : Bool) (s : State), exec (.dbgRstN t low) s = .next ((s.arrive t).upGate fun g => { g with linkReset := low }))

/-- R273, R275–R278: scrubbing, the transparent pass and its windows, and memory tests.
The model's choices within: log 110, 113. -/
def Obligations.ScrubMowerAndMemoryTests : Prop :=
  (∀ (t addr : Nat) (ecc : Ecc) (s : State), (s.arrive t).awake = true → scrubbed addr = true → addr / 8 * 8 ≠ 0x0BFFFFF8 → ∀ w, w = addr / 8 * 8 →
    (ecc = .clean → w ∉ (s.arrive t).mem.bad → exec (.scrubVisit t addr ecc) s = .next (s.arrive t)) ∧
    (ecc = .single → w ∉ (s.arrive t).mem.bad → exec (.scrubVisit t addr ecc) s = .next ((s.arrive t).corrected w)) ∧
    (ecc = .double ∨ w ∈ (s.arrive t).mem.bad → exec (.scrubVisit t addr ecc) s = .next ((s.arrive t).uncorrectable w))) ∧
  (∀ (t : Nat) (s : State), (s.arrive t).awake = true → 0x0BFFFFF8 ∉ (s.arrive t).mem.bad →
    exec (.scrubVisit t 0x0BFFFFF8 .clean) s = .next ((s.arrive t).upMower fun m => { m with lastScrubS := (s.arrive t).tb3s % 2 ^ 32 })) ∧
  (∀ (t bank window : Nat) (fault : Option (Nat × Nat)) (s : State), (s.arrive t).awake = true → (s.arrive t).power.mode ≠ 1 → (s.arrive t).bankFree bank = true →
    (bank ≠ 255 ∨ window ≠ 1535) →
    Does (.mowerWindow t bank window true fault) t s [.mower] (fun u v => v.mower = { u.mower with abandoned := inc32 u.mower.abandoned, windows := (bank, window, 1, u.time.now) :: dropWindow bank window u.mower.windows }) ∧
    exec (.mowerWindow t bank window false none) s = .next (s.arrive t) ∧
    (∀ addr b, Does (.mowerWindow t bank window false (some (addr, b))) t s [.cache, .cnt, .mower, .log] fun u v =>
      v.mower = { u.mower with fault := true, faults := inc32 u.mower.faults, faultAddr := addr, faultBit := b, passClean := false } ∧
      v.cnt.proof = setBits u.cnt.proof 2 1 0 ∧ v.power.mode = u.power.mode)) ∧
  (∀ (t : Nat) (s : State), (s.arrive t).awake = true → (s.arrive t).power.mode ≠ 1 → (s.arrive t).bankFree 255 = true →
    Does (.mowerWindow t 255 1535 false none) t s [.cache, .cnt, .mower, .log] fun u v =>
      v.mower = { u.mower with lastPassS := u.tb3s % 2 ^ 32, passClean := true, windows := [] } ∧
      v.cnt.proof = (if u.mower.passClean = true then setBits u.cnt.proof 2 1 1 else u.cnt.proof)) ∧
  (∀ (t bank window n : Nat) (demanded : Bool) (s : State), (s.arrive t).awake = true → (s.arrive t).retryOf bank window = some n →
    Does (.windowAbandonedRetry t bank window demanded) t s [.mower] fun u v =>
      (demanded = false → v.mower = { u.mower with windows := dropWindow bank window u.mower.windows }) ∧
      (demanded = true → n < 15 → v.mower = { u.mower with abandoned := inc32 u.mower.abandoned, windows := (bank, window, n + 1, u.time.now) :: dropWindow bank window u.mower.windows }) ∧
      (demanded = true → 15 ≤ n → v.mower = { u.mower with abandoned := inc32 u.mower.abandoned, skipped := inc32 u.mower.skipped, windows := dropWindow bank window u.mower.windows })) ∧
  (∀ (t : Nat) (r : Req) (s : State), (s.arrive t).accepts (plainCmd 0x800 3 8) r → ∀ kind one bank, kind = field r.payload 0 1 → one = field r.payload 1 1 →
    bank = field r.payload 2 2 → Answers (.memTest t r) t s (plainCmd 0x800 3 8) r [.msg, .mower] fun u st data v =>
      ((2 ≤ kind ∨ 2 ≤ one ∨ 256 ≤ bank) → st = stRange ∧ data = [] ∧ v = u) ∧
      (kind < 2 → one < 2 → bank < 256 → zeros r.payload 4 4 = true →
        (kind = 1 → u.power.mode ≠ 2 → st = stState ∧ data = [] ∧ v = u) ∧
        (kind = 0 ∨ u.power.mode = 2 → (u.mower.test ≠ none → st = stBusy ∧ data = [] ∧ v = u) ∧
          (u.mower.test = none → u.msg.jobs.length < 64 → ∃ id, st = stAccepted ∧ data = jobPayload id ∧
            v.mower.test = some (id, kind == 1, if one = 1 then some bank else none) ∧
            v.msg.jobs = u.msg.jobs ++ [{ id := id, cmd := 0x800, done := false, progress := 0, status := 0, result := [], endAt := 0 }])))) ∧
  (∀ (t tested faults addr b id : Nat) (bank : Option Nat) (s : State), (s.arrive t).awake = true →
    ((s.arrive t).mower.test = some (id, true, bank) → Does (.memTestJobEnd t tested faults addr b) t s [.cache, .mem, .sched, .msg, .mower] fun u v =>
      v.mower = { u.mower with test := none } ∧ v.msg = (u.endJob id stOk (leBytes 4 tested ++ leBytes 4 faults ++ leBytes 4 addr ++ leBytes 1 b ++ zeroBytes 3)).msg ∧
      (∀ a, testCovers bank a = true → memRead v.mem a = 0#8) ∧ (∀ a, testCovers bank a = false → memRead v.mem a = memRead u.mem a)) ∧
    ((s.arrive t).mower.test = some (id, false, bank) → faults = 0 → Does (.memTestJobEnd t tested faults addr b) t s [.cache, .cnt, .msg, .mower, .log] fun u v =>
      v.mower.test = none ∧ v.mower.faults = u.mower.faults ∧ v.msg = (u.endJob id stOk (leBytes 4 tested ++ leBytes 4 faults ++ leBytes 4 addr ++ leBytes 1 b ++ zeroBytes 3)).msg) ∧
    ((s.arrive t).mower.test = some (id, false, bank) → 0 < faults → Does (.memTestJobEnd t tested faults addr b) t s [.cache, .cnt, .msg, .mower, .log] fun u v =>
      v.mower.test = none ∧ v.mower.fault = true ∧ v.mower.faultAddr = addr ∧ v.mower.faultBit = b ∧ v.mower.faults = add32 (inc32 u.mower.faults) (faults - 1)))

/-! ## Sheaf (13) -/

/-- R302, R303, R312: the chunks of a load and the header's checks; verification, its job and the order of its checks.
The model's choices within: log 4, 121, 122. -/
def Obligations.SheavesAreLoadedAndVerified : Prop :=
  (∀ b : List Byte,
    (headerFault b = some 0x010B ↔ slice b 0 4 ≠ ascii "F9SH" ∨ field b 4 2 ≠ 1 ∨ field b 6 2 ≠ 9 ∨ field b 28 4 ≠ 9) ∧
    (headerFault b = some 0x0107 ↔ slice b 0 4 = ascii "F9SH" ∧ field b 4 2 = 1 ∧ field b 6 2 = 9 ∧ field b 28 4 = 9 ∧ 220205056 < field b 16 8) ∧
    (∀ st, headerFault b = some st → st = 0x010B ∨ st = 0x0107)) ∧
  (∀ (t : Nat) (r : Req) (s : State) (c : Cmd), c = sheafCmd 0x500 (fun b => decide (9 ≤ b.length)) → (s.arrive t).accepts c r →
    ∀ (off : Nat) (data : List Byte), off = field r.payload 0 8 → data = r.payload.drop 8 → Answers (.sheafLoad t r) t s c r [.boot, .sheaf] fun u st ans v =>
      (u.sec.ownerLock = true → st = 0x010C ∧ ans = [] ∧ v = u) ∧
      (u.sec.ownerLock = false →
        (u.sheaf.st ∈ [3, 5, 6] ∨ u.cfg.armed ≠ none ∨ u.pair.homeArmed = true ∨ u.pair.twinHomeArmed = true ∨ u.cfg.job ≠ none →
          st = 0x0101 ∧ ans = [] ∧ v = u) ∧
        (u.sheaf.st ∉ [3, 5, 6] → u.cfg.armed = none → u.pair.homeArmed = false → u.pair.twinHomeArmed = false → u.cfg.job = none →
          (u.sheaf.st = 2 ∨ u.sheaf.st = 4 ∨ u.sheaf.st = 0 ∧ off ≠ 0 → st = 0x0104 ∧ ans = [] ∧ v = u) ∧
          (u.sheaf.st = 1 → off ≠ u.sheaf.loadedBytes → st = 0x010B ∧ ans = [] ∧ v = u) ∧
          (u.sheaf.st = 0 → off = 0 →
            (data.length < 1120 → st = 0 ∧ ans = leBytes 8 data.length ∧ v.boot = { u.boot with recordSinceVerify := true } ∧ v.sheaf.st = 1 ∧
              v.sheaf.loaded = data ∧ v.sheaf.loadedBytes = data.length ∧ v.sheaf.previous = 0 ∧ v.sheaf.seq = u.sheaf.seq + 1 ∧ v.sheaf.active = u.sheaf.active) ∧
            (1120 ≤ data.length → ∀ e, headerFault data = some e → st = e ∧ ans = [] ∧ v.sheaf.st = 0 ∧ v.sheaf.loadedBytes = 0 ∧ v.sheaf.previous = 0)) ∧
          (u.sheaf.st = 1 → off = u.sheaf.loadedBytes → ∀ (all : List Byte) (n : Nat), all = u.sheaf.loaded ++ data → n = off + data.length →
            (n < 1120 → st = 0 ∧ ans = leBytes 8 n ∧ v = u.upSheaf fun h => { h with loaded := all, loadedBytes := n, total := 0, st := 1 }) ∧
            (1120 ≤ n → off < 1120 → ∀ e, headerFault all = some e → st = e ∧ ans = [] ∧ v = u.upSheaf SheafSt.idle) ∧
            (1120 ≤ n → (off < 1120 → headerFault all = none) →
              (field all 16 8 < n → st = 0x010B ∧ ans = [] ∧ v = u) ∧
              (n < field all 16 8 → st = 0 ∧ ans = leBytes 8 n ∧ v = u.upSheaf fun h => { h with loaded := all, loadedBytes := n, total := field all 16 8, st := 1 }) ∧
              (n = field all 16 8 → st = 0 ∧ ans = leBytes 8 n ∧ v = u.upSheaf fun h => { h with loaded := all, loadedBytes := n, total := n, st := 2 })))))) ∧
  (∀ (t : Nat) (r : Req) (s : State), (s.arrive t).accepts (sheafCmd 0x501 (sizeIs 0)) r → Answers (.sheafVerify t r) t s (sheafCmd 0x501 (sizeIs 0)) r [.msg, .sheaf]
    fun u st ans v => u.sec.ownerLock = false → u.sheaf.st ∉ [3, 5, 6] → u.cfg.armed = none → u.pair.homeArmed = false → u.pair.twinHomeArmed = false → u.cfg.job = none →
      (u.sheaf.st ≠ 2 → u.sheaf.st ≠ 4 → st = 0x0104 ∧ ans = [] ∧ v = u) ∧
      (u.sheaf.st = 2 ∨ u.sheaf.st = 4 → u.msg.jobs.length < 64 → ∃ id, st = 1 ∧ ans = jobPayload id ∧ v.sheaf = { u.sheaf with st := 3, job := id } ∧
        v.msg.jobs = u.msg.jobs ++ [{ id := id, cmd := 0x501, done := false, progress := 0, status := 0, result := [], endAt := 0 }])) ∧
  (∀ (t : Nat) (s : State), (s.arrive t).awake = true → (s.arrive t).sheaf.st = 3 →
    (∀ check comp status, (s.arrive t).verifyFault = some (check, comp, status) → exec (.sheafVerifyJobEnd t) s = .next (((s.arrive t).endJob (s.arrive t).sheaf.job status
      (leBytes 1 check ++ leBytes 1 comp ++ leBytes 2 0 ++ leBytes 4 (field (s.arrive t).sheaf.loaded 8 4))).upSheaf SheafSt.idle)) ∧
    ((s.arrive t).verifyFault = none → ∀ b, b = (s.arrive t).sheaf.loaded → exec (.sheafVerifyJobEnd t) s = .next (((s.arrive t).endJob (s.arrive t).sheaf.job 0
      (leBytes 1 0 ++ leBytes 1 0 ++ leBytes 2 0 ++ leBytes 4 (field b 8 4))).upSheaf fun h => { h with st := 4, newVersions := manVersions b, newProto := field b 24 2, newMin := field b 26 2 }))) ∧
  (∀ (s : State) (b : List Byte), b = s.sheaf.loaded →
    (check1 b ≠ none → s.verifyFault = check1 b) ∧ (check1 b = none → s.check2 b ≠ none → s.verifyFault = s.check2 b) ∧
    (check1 b = none → s.check2 b = none → check3 b ≠ none → s.verifyFault = check3 b) ∧
    (check1 b = none → s.check2 b = none → check3 b = none → s.check4 b ≠ none → s.verifyFault = s.check4 b) ∧
    (check1 b = none → s.check2 b = none → check3 b = none → s.check4 b = none → s.check5 b ≠ none → s.verifyFault = s.check5 b) ∧
    (check1 b = none → s.check2 b = none → check3 b = none → s.check4 b = none → s.check5 b = none → s.verifyFault = s.check6 b) ∧
    (s.check2 b = none ↔ ∃ k, s.sec.sheafKey (field b 32 4) = some k ∧ manDigest b = slice b 36 48 ∧ Config.ecdsaOk (slice b 36 48) (slice b 84 96) k = true) ∧
    (check3 b = none ↔ ∀ e, e ∈ manEntries b → Config.sha384 (slice b (entryOffset e) (entrySize e)) = slice e 32 48) ∧
    (s.check4 b = none ↔ field b 8 4 ≠ s.sheaf.active ∧ field b 12 4 ≤ s.sheaf.active ∧ ∀ e, e ∈ manEntries b → field e 8 4 ≤ s.sheaf.versions.getD (entryId e - 1) 0) ∧
    (s.check6 b = none ↔ (s.pair.peerPresent = true → compatible (field b 24 2) (field b 26 2) s.sheaf.twinProto s.sheaf.twinMin = true)))

/-- R300, R304–R309, R312: the token, the commit record, the trial, confirmation, fallback and abandonment.
The model's choices within: log 56, 76, 77, 123, 124. -/
def Obligations.SheavesAreTriedAndConfirmed : Prop :=
  (∀ (t : Nat) (r : Req) (s : State), (s.arrive t).accepts (sheafCmd 0x502 (sizeIs 0)) r → Answers (.sheafActivate t r) t s (sheafCmd 0x502 (sizeIs 0)) r [.out, .msg, .sheaf]
    fun u st ans v => u.sec.ownerLock = false → u.sheaf.st ∉ [3, 5, 6] → u.cfg.armed = none → u.pair.homeArmed = false → u.pair.twinHomeArmed = false → u.cfg.job = none →
      (u.sheaf.twinState = 6 ∨ u.pair.peerPresent = true ∧ u.swathSilent = true → st = 0x0101 ∧ ans = [] ∧ v = u) ∧
      (u.sheaf.twinState ≠ 6 → (u.pair.peerPresent = true → u.swathSilent = false) →
        (u.sheaf.st ≠ 4 → st = 0x0104 ∧ ans = [] ∧ v = u) ∧
        (u.sheaf.st = 4 → (u.power.holdupMj < 32000 → st = 0x010D ∧ ans = [] ∧ v = u) ∧
          (32000 ≤ u.power.holdupMj → u.msg.jobs.length < 64 → ∃ id, st = 1 ∧ ans = jobPayload id ∧
            v.sheaf = { u.sheaf with st := 5, job := id, tokenHeld := false, tokenWait := if u.pair.peerPresent then some u.time.now else none } ∧
            v.out = (if u.pair.peerPresent = true then u.out ++ [.swath .tokenRequest] else u.out))))) ∧
  (∀ (t : Nat) (s : State), (s.arrive t).awake = true → exec (.trialTokenRequest t) s = .next ((s.arrive t).emit (.swath (.tokenGrant (s.arrive t).grantsToken)))) ∧
  (∀ s : State, s.grantsToken = true ↔ s.sheaf.st ≠ 6 ∧ (s.sheaf.st = 5 → s.sheaf.tokenWait ≠ none ∧ s.slotB = true)) ∧
  (∀ (t : Nat) (s : State) (a : Nat), (s.arrive t).awake = true → (s.arrive t).sheaf.st = 5 → (s.arrive t).sheaf.tokenWait = some a →
    exec (.trialTokenGrant t true) s = .next ((s.arrive t).upSheaf fun h => { h with tokenWait := none, tokenHeld := true }) ∧
    (∀ v, v = ((s.arrive t).endJob (s.arrive t).sheaf.job 0x0101 []).upSheaf (fun h => { h with st := 4, tokenWait := none, tokenHeld := false }) →
      exec (.trialTokenGrant t false) s = .next v ∧ (a + 2500000 ≤ (s.arrive t).time.now → exec (.trialTokenTimeout t) s = .next v))) ∧
  (∀ (t : Nat) (ok : Bool) (s : State), (s.arrive t).awake = true → (s.arrive t).sheaf.st = 5 → (s.arrive t).sheaf.tokenWait = none →
    ((s.arrive t).power.holdupMj < 32000 → exec (.activationRecordWritten t ok) s =
      .next (((s.arrive t).endJob (s.arrive t).sheaf.job 0x010D []).upSheaf fun h => { h with st := 4, tokenWait := none, tokenHeld := false })) ∧
    (32000 ≤ (s.arrive t).power.holdupMj → exec (.activationRecordWritten t false) s = .next (s.arrive t) ∧
      ∀ u, u = s.arrive t → ∃ v, exec (.activationRecordWritten t true) s = .next v ∧ v.power.mode = 1 ∧ v.power.bootKind = 2 ∧ v.sheaf.recTrial = true ∧
        v.sheaf.trialBoots = 0 ∧ v.sheaf.active = field u.sheaf.loaded 8 4 ∧ v.sheaf.previous = u.sheaf.active ∧ v.sheaf.slots = 511 - u.sheaf.slots % 512 ∧
        v.sheaf.windowRec = u.sheaf.windowS ∧ v.sheaf.seq = u.sheaf.seq + 1 ∧ v.sheaf.activations = inc32 u.sheaf.activations ∧ v.boot.recordSinceVerify = true)) ∧
  (∀ s : State, s.sheaf.recTrial = true →
    (s.sheaf.trialBoots = 3 → s.trialBoot.sheaf = ({ s.sheaf.fallBack 2 with seq := s.sheaf.seq + 1 } : SheafSt)) ∧
    (s.sheaf.trialBoots ≠ 3 → s.sheaf.trialBoots ≠ 0 → s.sheaf.trialStart + s.sheaf.windowRec < s.tb3s → s.trialBoot.sheaf = ({ s.sheaf.fallBack 3 with seq := s.sheaf.seq + 1 } : SheafSt)) ∧
    (s.sheaf.trialBoots ≠ 3 → (s.sheaf.trialBoots = 0 ∨ s.tb3s ≤ s.sheaf.trialStart + s.sheaf.windowRec) →
      s.trialBoot.sheaf.trialBoots = s.sheaf.trialBoots + 1 ∧ s.trialBoot.sheaf.st = 6 ∧ s.trialBoot.sheaf.active = s.sheaf.active ∧
      s.trialBoot.sheaf.trialStart = if s.sheaf.trialBoots = 0 then s.tb3s else s.sheaf.trialStart)) ∧
  (∀ (result : Nat) (h : SheafSt), (h.fallBack result).recTrial = false ∧ (h.fallBack result).active = h.previous ∧ (h.fallBack result).previous = 0 ∧
    (h.fallBack result).slots = 511 - h.slots % 512 ∧ (h.fallBack result).result = result ∧ (h.fallBack result).st = 0 ∧ (h.fallBack result).fallbacks = inc32 h.fallbacks) ∧
  (∀ (t : Nat) (s : State), (s.arrive t).dwellOver = true → Does (.healthDwellPass t) t s [.cache, .boot, .sheaf, .log] fun u v =>
    v.sheaf.healthPassed = true ∧
    (u.sheaf.manual = true → v.sheaf = { u.sheaf with healthPassed := true } ∧ v.boot = u.boot) ∧
    (u.sheaf.manual = false → v.sheaf.recTrial = false ∧ v.sheaf.result = 1 ∧ v.sheaf.st = 0 ∧ v.sheaf.seq = u.sheaf.seq + 1 ∧ v.sheaf.previous = u.sheaf.previous ∧
      v.boot.recordSinceVerify = true)) ∧
  (∀ s : State, s.dwellOver = true ↔ s.awake = true ∧ s.sheaf.st = 6 ∧ s.sheaf.healthBroken = false ∧ s.sheaf.healthPassed = false ∧
    (s.power.mode = 2 ∨ s.power.mode = 4 ∧ s.pair.synced = true ∨ s.power.mode = 5 ∨ s.power.mode = 6) ∧ s.sheaf.healthFrom + 250000000 * s.sheaf.dwellS ≤ s.time.now) ∧
  (∀ (t : Nat) (r : Req) (s : State), (s.arrive t).accepts (plainCmd 0x503 3 0) r → Answers (.sheafConfirm t r) t s (plainCmd 0x503 3 0) r [.cache, .boot, .sheaf, .log]
    fun u st ans v => ans = [] ∧ (u.sheaf.st ≠ 6 ∨ u.sheaf.healthPassed = false → st = 0x0104 ∧ v = u) ∧
      (u.sheaf.st = 6 → u.sheaf.healthPassed = true → st = 0 ∧ v.sheaf.recTrial = false ∧ v.sheaf.result = 1 ∧ v.sheaf.st = 0 ∧ v.sheaf.previous = u.sheaf.previous ∧
        v.sheaf.active = u.sheaf.active ∧ v.sheaf.seq = u.sheaf.seq + 1)) ∧
  (∀ (t : Nat) (r : Req) (s : State), (s.arrive t).accepts { plainCmd 0x504 1 0 with twin := true } r → Answers (.sheafStatus t r) t s { plainCmd 0x504 1 0 with twin := true } r []
    fun u st ans v => st = 0 ∧ v = u ∧ ans.length = 192 ∧ ∀ w, w < 48 → field ans (4 * w) 4 = u.param 0x0A w % 2 ^ 32) ∧
  (∀ (t : Nat) (r : Req) (s : State), (s.arrive t).accepts (plainCmd 0x505 3 0) r →
    ((s.arrive t).sheaf.st ≠ 6 → Answers (.sheafAbandon t r) t s (plainCmd 0x505 3 0) r [.msg, .sheaf] fun u st ans v => ans = [] ∧
      (u.sheaf.st = 5 → st = 0x0101 ∧ v = u) ∧ (u.sheaf.st = 0 → st = 0 ∧ v = u) ∧
      (u.sheaf.st = 3 → st = 0 ∧ v = (u.endJob u.sheaf.job 0x0104 []).upSheaf SheafSt.idle) ∧
      (u.sheaf.st = 1 ∨ u.sheaf.st = 2 ∨ u.sheaf.st = 4 → st = 0 ∧ v = u.upSheaf SheafSt.idle)) ∧
    ((s.arrive t).sheaf.st = 6 →
      ((s.arrive t).inControl = true → (s.arrive t).twinSynced = false → exec (.sheafAbandon t r) s = .next (((s.arrive t).take r).respond (hdrOf r) 0x505 0x0104 [])) ∧
      (((s.arrive t).inControl = false ∨ (s.arrive t).twinSynced = true) →
        exec (.sheafAbandon t r) s = .next ((((s.arrive t).take r).respond (hdrOf r) 0x505 0 []).fallbackNow 4)))) ∧
  (∀ (t : Nat) (s : State), (s.arrive t).awake = true → (s.arrive t).power.mode ≠ 1 → (s.arrive t).sheaf.st = 6 → (s.arrive t).sheaf.recTrial = true →
    (s.arrive t).sheaf.trialStart + (s.arrive t).sheaf.windowRec < (s.arrive t).tb3s → exec (.trialWindowExpiry t) s = .next ((s.arrive t).fallbackNow 3)) ∧
  (∀ (result : Nat) (s : State),
    (s.inControl = false → (s.fallbackNow result).power.mode = 1 ∧ (s.fallbackNow result).power.bootKind = 2 ∧ (s.fallbackNow result).sheaf.active = s.sheaf.previous ∧
      (s.fallbackNow result).sheaf.recTrial = false ∧ (s.fallbackNow result).sheaf.result = result) ∧
    (s.inControl = true → s.twinSynced = false → s.fallbackNow result = s.fallback result) ∧
    (s.inControl = true → s.twinSynced = true → (s.fallbackNow result).pair.owner = s.pair.owner ∧ (∃ h, (s.fallbackNow result).pair.armed = some h ∧ h.kind = 5) ∧
      (s.fallbackNow result).sheaf.active = s.sheaf.previous)) ∧
  (∀ (t : Nat) (s : State), (s.arrive t).awake = true → (s.arrive t).power.mode ≠ 1 → (s.arrive t).swathSilent = false → Does (.twinSheafPoll t) t s [.out, .msg]
    fun u v => v.out = u.out ++ [.mb14 u.msg.mb14Next 0x504 []] ∧ v.msg.mb14Next = u.msg.mb14Next + 1 ∧
      v.msg.mb14 = u.msg.mb14 ++ [{ id := u.msg.mb14Next, cmd := 0x504, job := 0, at_ := u.time.now }])

/-! ## Commands on points, time, records, the display and stations (02, 04, 06, 07, 17, 18) -/

/-- R16, R41–R43, R131, Table 11.6: `POINT_READ`, `POINT_BROWSE`, `POINT_FORCE`, `POINT_RELEASE`, `TIME_STATUS` and `TIME_STEP`.
The model's choices within: log 101, 102. -/
def Obligations.PointsAndTimeAreCommanded : Prop :=
  (∀ (t : Nat) (r : Req) (s : State), (s.arrive t).accepts pointReadCmd r → ∀ (n : Nat) (hs : List Nat), n = field r.payload 0 2 →
    hs = (List.range n).map (fun i => field r.payload (4 + 4 * i) 4) → Answers (.pointRead t r) t s pointReadCmd r [] fun u st ans v => v = u ∧
      (1 ≤ n → n ≤ 256 → field r.payload 2 1 < 2 → zeros r.payload 3 1 = true → (∀ h, h ∈ hs → 1 ≤ h ∧ h ≤ 0x5FFFFF) →
        st = 0 ∧ (field r.payload 2 1 = 0 → ans = hs.flatMap fun h => leBytes 8 (u.image h).toNat) ∧
          (field r.payload 2 1 = 1 → ans = hs.flatMap fun h => leBytes 8 (u.image h).toNat ++ u.slotTail h)) ∧
      (¬(1 ≤ n ∧ n ≤ 256 ∧ field r.payload 2 1 < 2 ∧ zeros r.payload 3 1 = true ∧ ∀ h, h ∈ hs → 1 ≤ h ∧ h ≤ 0x5FFFFF) → st = 0x010B ∧ ans = [])) ∧
  (∀ (t : Nat) (r : Req) (s : State), (s.arrive t).accepts (plainCmd 0x303 1 8) r → ∀ (h n flags : Nat), h = field r.payload 0 4 → n = field r.payload 4 2 →
    flags = field r.payload 6 1 → Answers (.pointBrowse t r) t s (plainCmd 0x303 1 8) r [] fun u st ans v => v = u ∧
      (¬((h = 0xFFFFFF ∨ 1 ≤ h ∧ h ≤ 0x5FFFFF) ∧ 1 ≤ n ∧ n ≤ 4096 ∧ flags < 4 ∧ zeros r.payload 7 1 = true) → st = 0x010B ∧ ans = []) ∧
      ((h = 0xFFFFFF ∨ 1 ≤ h ∧ h ≤ 0x5FFFFF) → 1 ≤ n → n ≤ 4096 → flags < 4 → zeros r.payload 7 1 = true → st = 0 ∧
        ∀ all, all = u.browse (if h = 0xFFFFFF then 1 else h) flags → ans = leBytes 2 (all.take n).length ++ leBytes 2 0 ++
          leBytes 4 (match (all.drop n).head? with | some p => p.handle | none => 0) ++ (all.take n).flatMap fun p =>
            leBytes 4 p.handle ++ leBytes 8 (u.ruleOf p.handle).toNat ++ leBytes 8 (u.image p.handle).toNat ++ leBytes 4 0)) ∧
  (∀ (t : Nat) (r : Req) (s : State) (c : Cmd), c = { plainCmd 0x301 3 12 with modes := [5, 6] } → (s.arrive t).accepts c r → ∀ (h mode : Nat) (x : Word),
    h = field r.payload 0 4 → mode = field r.payload 4 1 → x = BitVec.ofNat 32 (field r.payload 8 4) →
    Answers (.pointForce t r) t s c r [.cache, .mem, .out, .pts, .fsp, .sched, .log] fun u st ans v => ans = [] ∧
      (¬(1 ≤ h ∧ h ≤ 0x5FFFFF ∧ u.declared h = true ∧ mode < 2 ∧ zeros r.payload 5 3 = true ∧ ruleKind (u.ruleOf h) ≠ 8 ∧ ruleKind (u.ruleOf h) ≠ 9) →
        st = 0x010B ∧ v = u) ∧
      (1 ≤ h → h ≤ 0x5FFFFF → u.declared h = true → mode < 2 → zeros r.payload 5 3 = true → ruleKind (u.ruleOf h) ≠ 8 → ruleKind (u.ruleOf h) ≠ 9 →
        (u.pts.force h = none → 65536 ≤ u.pts.forces.length → st = 0x0107 ∧ v = u) ∧
        ((u.pts.force h).isSome = true ∨ u.pts.forces.length < 65536 → st = 0 ∧ ∀ w, w = u.cancelHandle h 6 →
          v.pts.forces = { handle := h, mode := mode, value := if mode = 1 ∧ ruleIsOut (w.ruleOf h) = true then w.frozenValue h else x, session := r.session } ::
            w.pts.forces.filter (fun f => f.handle != h) ∧
          (Memory.wf w.mem = true → ruleKind (w.ruleOf h) ≠ 0 →
            v.img h = { w.img h with value := x, forced := mode == 0, simulated := mode == 1, quality := mode + 1 })))) ∧
  (∀ (t : Nat) (r : Req) (s : State) (c : Cmd), c = { plainCmd 0x302 3 4 with modes := [5, 6] } → (s.arrive t).accepts c r → ∀ h, h = field r.payload 0 4 →
    Answers (.pointRelease t r) t s c r [.cache, .mem, .out, .pts, .fsp, .sched, .log] fun u st ans v => ans = [] ∧
      (h ≠ 0xFFFFFF → ¬(1 ≤ h ∧ h ≤ 0x5FFFFF ∧ u.declared h = true) → st = 0x010B ∧ v = u) ∧
      (1 ≤ h → h ≤ 0x5FFFFF → u.declared h = true → st = 0 ∧ v = u.release r.session h) ∧
      (h = 0xFFFFFF → st = 0 ∧ v = (u.pts.forces.map fun f => f.handle).foldl (fun x k => x.release r.session k) u)) ∧
  (∀ (session h : Nat) (s : State), (s.pts.force h = none → s.release session h = s) ∧
    (s.pts.force h ≠ none → (s.release session h).pts.forces = s.pts.forces.filter (fun f => f.handle != h) ∧
      (Memory.wf s.mem = true → h ≤ 0x5FFFFF → ruleKind (s.ruleOf h) ≠ 0 →
        (s.release session h).img h = { s.img h with forced := false, simulated := false, quality := 0x41, held := true }))) ∧
  (∀ (t : Nat) (r : Req) (s : State), (s.arrive t).accepts (plainCmd 0x600 1 0) r → Answers (.timeStatus t r) t s (plainCmd 0x600 1 0) r [.time]
    fun u st ans v => st = 0 ∧ v.time = { u.time with fifo := [] } ∧ ans = fullStamp (u.fine 0) ++ fullStamp (u.fine 1) ++ fullStamp (u.fine 2) ++ fullStamp (u.fine 3) ++
      leBytes 1 u.time.tb0.st ++ leBytes 1 u.time.tb1.st ++ leBytes 1 u.time.fifo.length ++ leBytes 1 0 ++
      u.time.fifo.flatMap fun e => fullStamp e.stamp ++ leBytes 1 (b2n e.rising) ++ leBytes 1 e.base) ∧
  (∀ (t : Nat) (r : Req) (s : State) (c : Cmd), c = { plainCmd 0x601 3 20 with modes := [2] } → (s.arrive t).accepts c r → ∀ (n action : Nat),
    n = field r.payload 0 1 → action = field r.payload 1 1 → Answers (.timeStep t r) t s c r [.cache, .time, .log] fun u st ans v => ans = [] ∧
      (¬(n < 2 ∧ action < 2 ∧ zeros r.payload 2 2 = true ∧ (action = 1 ∨ zeros r.payload 4 14 = true) ∧ field r.payload 6 4 < 1000000000 ∧ zeros r.payload 18 2 = true) →
        st = 0x010B ∧ v = u) ∧
      (n < 2 → action < 2 → zeros r.payload 2 2 = true → (action = 1 ∨ zeros r.payload 4 14 = true) → field r.payload 6 4 < 1000000000 → zeros r.payload 18 2 = true →
        (action = 0 → st = 0 ∧ (v.base n).st = 1 ∧ (v.base n).stepped = false ∧ (v.base n).acc = (u.base n).acc) ∧
        (action = 1 → (u.base n).foreign ≠ none → st = 0x0106 ∧ v = u) ∧
        (action = 1 → (u.base n).foreign = none → st = 0 ∧ (v.base n).acc = fineOfFull (slice r.payload 4 14) * 2 ^ 32 ∧ (v.base n).stepped = true ∧
          v.time.steps = inc32 u.time.steps)))

/-- R82, R166, R377, R380, R382: the recorder's windows and marks, display texts, handovers on request, and station diagnostics.
The model's choices within: log 32, 100. -/
def Obligations.RecordsDisplayAndDiagnosticsAreCommanded : Prop :=
  (∀ (t : Nat) (r : Req) (s : State), (s.arrive t).accepts (plainCmd 0x700 1 8) r → r.mb < s.msg.boxes.length → ∀ (kind seq : Nat), kind = field r.payload 0 1 →
    seq = field r.payload 2 6 → Answers (.recOpen t r) t s (plainCmd 0x700 1 8) r [.msg] fun u st ans v =>
      (3 ≤ kind ∨ zeros r.payload 1 1 = false ∨ kind = 2 ∧ u.newestSeq + 1 < seq → st = 0x010B ∧ ans = [] ∧ v = u) ∧
      (kind < 3 → zeros r.payload 1 1 = true → (kind = 2 → seq ≤ u.newestSeq + 1) → ∀ cur, cur = max (if kind = 0 then u.oldestSeq else if kind = 1 then u.newestSeq else seq) u.oldestSeq →
        st = 0 ∧ ans = leBytes 8 cur ++ leBytes 8 u.oldestSeq ++ leBytes 8 u.newestSeq ∧ (v.box r.mb).window = some cur)) ∧
  (∀ (t : Nat) (r : Req) (s : State), (s.arrive t).accepts (plainCmd 0x701 1 4) r → r.mb < s.msg.boxes.length → ∀ n, n = field r.payload 0 2 →
    Answers (.recRead t r) t s (plainCmd 0x701 1 4) r [.msg, .log] fun u st ans v =>
      (¬(1 ≤ n ∧ n ≤ 1024 ∧ zeros r.payload 2 2 = true) → st = 0x010B ∧ ans = [] ∧ v = u) ∧
      (1 ≤ n → n ≤ 1024 → zeros r.payload 2 2 = true → ((u.box r.mb).window = none → st = 0x0104 ∧ ans = [] ∧ v = u) ∧
        (∀ cur, (u.box r.mb).window = some cur →
          (u.lostRecords cur ≠ 0 → st = 3 ∧ ans = leBytes 2 0 ++ leBytes 2 0 ++ leBytes 4 (sat32 (u.lostRecords cur)) ++ leBytes 8 u.oldestSeq ∧
            (v.box r.mb).window = some u.oldestSeq ∧ v.log = { u.log with gaps := inc32 u.log.gaps }) ∧
          (u.lostRecords cur = 0 → ∀ rs next, rs = (u.log.ring.filter fun x => decide (cur ≤ x.seq)).take n → next = (match rs.getLast? with | some x => x.seq + 1 | none => cur) →
            st = 0 ∧ ans = leBytes 2 rs.length ++ leBytes 2 0 ++ leBytes 4 0 ++ leBytes 8 next ++ rs.flatMap recordBytes ∧ (v.box r.mb).window = some next ∧ v.log = u.log)))) ∧
  (∀ (t : Nat) (r : Req) (s : State), (s.arrive t).accepts (plainCmd 0x702 1 0) r → r.mb < s.msg.boxes.length → Answers (.recClose t r) t s (plainCmd 0x702 1 0) r [.msg]
    fun _ st ans v => st = 0 ∧ ans = [] ∧ (v.box r.mb).window = none) ∧
  (∀ (t : Nat) (r : Req) (s : State), (s.arrive t).accepts recMarkCmd r → Answers (.recMark t r) t s recMarkCmd r [.cache, .log] fun u st ans v =>
      (u.log.exhausted = true → st = 0x0104 ∧ ans = [] ∧ v = u) ∧
      (u.log.exhausted = false → v = u.record_ 0x0E03 (leBytes 4 r.session ++ padTo 28 r.payload) ∧
        (u.recRoom = true → u.log.droppedUnreported = 0 → st = 0 ∧ ans = leBytes 8 u.log.nextSeq) ∧ (u.recRoom = false → st = 0x0107 ∧ ans = []))) ∧
  (∀ (t : Nat) (r : Req) (s : State), (s.arrive t).accepts displayTextCmd r → Answers (.displayText t r) t s displayTextCmd r [.disp] fun u st ans v => ans = [] ∧
      (¬(field r.payload 0 1 < 2 ∧ field r.payload 1 1 ≤ 36 ∧ zeros r.payload 2 2 = true ∧ (r.payload.drop 4).all printable = true) → st = 0x010B ∧ v = u) ∧
      (field r.payload 0 1 < 2 → field r.payload 1 1 ≤ 36 → zeros r.payload 2 2 = true → (r.payload.drop 4).all printable = true →
        st = 0 ∧ v = u.upDisp fun d => { d with lines := setAt d.lines (field r.payload 0 1) fun _ => r.payload.drop 4 })) ∧
  (∀ (t : Nat) (r : Req) (s : State), (s.arrive t).accepts (plainCmd 0x901 2 0) r → Answers (.displayRefresh t r) t s (plainCmd 0x901 2 0) r [.disp] fun u st ans v => ans = [] ∧
      (u.disp.frozen = true → st = 0x0104 ∧ v = u) ∧ (u.disp.frozen = false → st = 0 ∧ v = u.upDisp fun d => { d with fullPending := true })) ∧
  (∀ (t : Nat) (r : Req) (s : State) (c : Cmd), c = { plainCmd 0x103 3 0 with modes := [5] } → (s.arrive t).accepts c r → Answers (.pairHandover t r) t s c r [.out, .pair, .msg]
    fun u st ans v =>
      (u.twinSynced = false ∨ u.sheaf.twinState = 6 ∨ u.pair.hedgeFault = true → st = 0x0104 ∧ ans = [] ∧ v = u) ∧
      (u.twinSynced = true → u.sheaf.twinState ≠ 6 → u.pair.hedgeFault = false →
        (u.pair.armed ≠ none → st = 0x0101 ∧ ans = [] ∧ v = u) ∧
        (u.pair.armed = none → u.msg.jobs.length < 64 → ∀ th, th = u.nextT0 3 (u.tb0 + 100000000) → (∀ f, u.cfg.armed = some f → f.tb ≠ th) →
          ∃ id, st = 1 ∧ ans = jobPayload id ∧ v.pair.armed = some { kind := 0, th := th, deferrals := 0, job := id } ∧ v.out = u.out ++ [.swath (.armHandover th)]) ∧
        (u.pair.armed = none → u.msg.jobs.length < 64 → ∀ f, u.cfg.armed = some f → f.tb = u.nextT0 3 (u.tb0 + 100000000) →
          ∃ id, st = 1 ∧ ans = jobPayload id ∧ v.pair.armed = some { kind := 0, th := u.nextT0 3 (f.tb + 1), deferrals := 0, job := id }))) ∧
  (∀ (t : Nat) (r : Req) (s : State), (s.arrive t).accepts diagReadCmd r → ∀ (src a page : Nat), src = field r.payload 0 1 → a = field r.payload 2 2 → page = field r.payload 4 2 →
    (¬(src < 3 ∧ zeros r.payload 1 1 = true ∧ zeros r.payload 6 2 = true ∧ (src = 1 → 1 ≤ a ∧ a ≤ 0xFFE ∧ page < 256)) →
      exec (.diagRead t r) s = .next (((s.arrive t).take r).respond (hdrOf r) 0xB00 0x010B [])) ∧
    (zeros r.payload 1 1 = true → zeros r.payload 6 2 = true →
      (src = 0 → exec (.diagRead t r) s = .next (((s.arrive t).take r).respond (hdrOf r) 0xB00 0 ((s.arrive t).fsp.counters.flatMap (leBytes 4)))) ∧
      (src = 2 → exec (.diagRead t r) s = .next (((s.arrive t).take r).respond (hdrOf r) 0xB00 0 (((s.arrive t).take r).msg.counters.flatMap (leBytes 4)))) ∧
      (src = 1 → 1 ≤ a → a ≤ 0xFFE → page < 256 →
        ((s.arrive t).diagBusy a = true → exec (.diagRead t r) s = .next (((s.arrive t).take r).respond (hdrOf r) 0xB00 0x0101 [])) ∧
        ((s.arrive t).diagBusy a = false → exec (.diagRead t r) s =
          .next ((((s.arrive t).take r).sendDiag a page (some (hdrOf r)) none).setBox r.mb fun x => { x with busy := true }))))) ∧
  (∀ (a page : Nat) (h : Option Hdr) (e : Option Nat) (s : State), (s.sendDiag a page h e).fsp.diags =
    { station := a, number := s.fsp.diagNo, page := page, forReq := h, forEntry := e } :: s.fsp.diags ∧ (s.sendDiag a page h e).fsp.diagNo = (s.fsp.diagNo + 1) % 1024) ∧
  (∀ (f : Fsp) (s : State),
    (s.fsp.diags.find? (fun d => d.station == f.station && d.number == f.tag) = none → s.diagResponse f = s.upCyc fun c => { c with unmatched := inc32 c.unmatched }) ∧
    (∀ d, s.fsp.diags.find? (fun d => d.station == f.station && d.number == f.tag) = some d →
      (4 ≤ f.payload.length → field f.payload 0 2 = d.page → zeros f.payload 2 2 = true → s.diagResponse f = s.endDiag d (some f.payload)) ∧
      (f.payload.length < 4 ∨ field f.payload 0 2 ≠ d.page ∨ zeros f.payload 2 2 = false → s.diagResponse f = s.fspCount 15))) ∧
  (∀ (t : Nat) (f : RxFrame) (s : State), (s.arrive t).hears f = true → exec (.diagResponse t f) s = .next ((s.arrive t).receive 9 State.diagResponse f)) ∧
  (∀ (t a : Nat) (s : State) (d : DiagSt), (s.arrive t).awake = true → (s.arrive t).fsp.diags.find? (fun d => d.station == a) = some d →
    exec (.diagTimeout t a) s = .next ((s.arrive t).endDiag d none)) ∧
  (∀ (d : DiagSt) (page : Option (List Byte)) (s : State), s.cfg.job = none → d.forEntry = none → ∀ w, w = s.upFsp (fun q => { q with diags := q.diags.filter fun e => e.station != d.station }) →
    (∀ h, d.forReq = some h → w.waitsFor h = true → (page = none → s.endDiag d page = w.respond h 0xB00 0x010A []) ∧
      (∀ b, page = some b → d.page ≠ 0 → s.endDiag d page = w.respond h 0xB00 0 b)) ∧
    (d.forReq = none → page = none → s.endDiag d page = w) ∧
    (∀ b, d.forReq = none → page = some b → d.page = 0 → s.endDiag d page = w.hearTerm (field b 24 4)))

/-! ## Configurations (10; 11 R261; 07 R158) -/

/-- R229, R231–R234, R240, R245, R261: staging, checking and listing a configuration, the twin's part over MB14, and the copy of SYNCING.
The model's choices within: log 41, 42, 103, 104, 105. -/
def Obligations.ConfigurationsAreStagedCheckedAndListed : Prop :=
  (∀ (t : Nat) (r : Req) (s : State), (s.arrive t).accepts stageCmd r → ∀ off, off = field r.payload 0 8 →
    Answers (.cfgStage t r) t s stageCmd r [.out, .cfg, .msg] fun u st ans v =>
      (u.cfgIdle = false → st = 0x0101 ∧ ans = [] ∧ v = u) ∧
      (u.cfgIdle = true → ∀ got all len, got = (if off = 0 then [] else u.cfg.receiving.getD []) → all = got ++ r.payload.drop 8 → len = field all 16 8 →
        (off ≠ got.length ∨ off ≠ 0 ∧ u.cfg.receiving = none → st = 0x010B ∧ ans = [] ∧ v = u) ∧
        (off = got.length → (off ≠ 0 → u.cfg.receiving ≠ none) →
          (1280 ≤ all.length → len < 1280 ∨ 1073741824 < len →
            st = (if len < 1280 then 0x010B else 0x0107) ∧ ans = [] ∧ v = u.upCfg fun c => { c with receiving := none }) ∧
          (256 ≤ all.length → len < all.length → (1280 ≤ all.length → 1280 ≤ len ∧ len ≤ 1073741824) →
            st = 0x010B ∧ ans = [] ∧ v = u.upCfg fun c => { c with receiving := some got }) ∧
          (all.length < 256 ∨ all.length ≤ len → (1280 ≤ all.length → 1280 ≤ len ∧ len ≤ 1073741824 ∧ len ≠ all.length) →
            st = 0 ∧ ans = [] ∧ v = u.upCfg fun c => { c with receiving := some all }) ∧
          (1280 ≤ all.length → len ≤ 1073741824 → len = all.length → u.msg.jobs.length < 64 →
            ∀ tw, tw = (u.power.mode == 5 && r.mb != 14 && u.imageOk all && (u.versionRefusal all).isNone) → ∃ id, st = 1 ∧ ans = jobPayload id ∧
              v.cfg = { u.cfg with receiving := some all, job := some { id := id, isCheck := false, mb14 := r.mb == 14, needsTwin := tw, twin := none, twinReport := [], models := [], toAsk := [] }, forward := if tw then some 0 else u.cfg.forward } ∧
              v.out = u.out ++ if tw then [.mb14 u.msg.mb14Next 0 []] else [])))) ∧
  (∀ (img : List Byte) (s : State) (n : Nat), n = field img 8 4 →
    (n = 0 → s.versionRefusal img = some 0x010B) ∧
    (n ≠ 0 → s.cfg.seed.present = true → s.cfg.seed.cfg.version = n → s.cfg.seed.cfg.digest = slice img 40 48 → s.versionRefusal img = none) ∧
    (n ≠ 0 → ¬(s.cfg.seed.present = true ∧ s.cfg.seed.cfg.version = n ∧ s.cfg.seed.cfg.digest = slice img 40 48) →
      (s.cfg.highWater = 0xFFFFFFFF → s.versionRefusal img = some 0x0107) ∧
      (s.cfg.highWater ≠ 0xFFFFFFFF → (n ≤ s.cfg.highWater → s.versionRefusal img = some 0x0108) ∧ (s.cfg.highWater < n → s.versionRefusal img = none)))) ∧
  (∀ (t : Nat) (j : CfgJob) (s : State), (s.arrive t).cfg.job = some j → j.isCheck = false → (j.needsTwin = true → j.twin ≠ none) →
    Does (.cfgStageJobEnd t) t s [.cache, .cfg, .msg, .log] fun u v => ∀ img, img = u.cfg.receiving.getD [] →
      (∀ st, st = u.stageStatus j → v.msg = (u.endJob j.id st []).msg ∧ v.cfg.job = none ∧ v.cfg.receiving = none ∧ v.cfg.sown = u.cfg.sown ∧ v.cfg.fallow = u.cfg.fallow ∧
        (st ≠ 0 ∨ u.cfg.seed.present = true ∧ u.cfg.seed.cfg.version = field img 8 4 → v.cfg.seed = u.cfg.seed ∧ v.cfg.highWater = u.cfg.highWater) ∧
        (st = 0 → ¬(u.cfg.seed.present = true ∧ u.cfg.seed.cfg.version = field img 8 4) →
          v.cfg.seed = { Slot.empty with present := true, image := img, cfg := parseCfg img, stagedS := u.tb3s } ∧ v.cfg.highWater = max u.cfg.highWater (field img 8 4))) ∧
      (u.imageOk img = false → u.stageStatus j = 0x0109) ∧
      (u.imageOk img = true → (∀ st, u.versionRefusal img = some st → u.stageStatus j = st) ∧ (u.versionRefusal img = none → u.stageStatus j = j.twin.getD 0))) ∧
  (∀ (t : Nat) (r : Req) (s : State), (s.arrive t).accepts checkCmd r → Answers (.cfgCheck t r) t s checkCmd r [.out, .fsp, .cfg, .msg] fun u st ans v =>
      (u.cfgIdle = false → st = 0x0101 ∧ ans = [] ∧ v = u) ∧ (u.cfgIdle = true → u.cfg.seed.present = false → st = 0x0104 ∧ ans = [] ∧ v = u) ∧
      (u.cfgIdle = true → u.cfg.seed.present = true → u.msg.jobs.length < 64 → ∃ id j, st = 1 ∧ ans = jobPayload id ∧ v.cfg.job = some j ∧ v.cfg.seed = u.cfg.seed ∧
        j = { id := id, isCheck := true, mb14 := r.mb == 14, needsTwin := u.power.mode == 5 && r.mb != 14, twin := none, twinReport := [], models := [], toAsk := j.toAsk })) ∧
  (∀ (t : Nat) (j : CfgJob) (s : State), (s.arrive t).cfg.job = some j → (s.arrive t).checkMayEnd = true → Does (.cfgCheckJobEnd t) t s [.cfg, .msg] fun u v =>
      ∀ st report, (st, report) = u.checkResult j → v.msg = (u.endJob j.id st report).msg ∧ v.cfg.job = none ∧
        (j.mb14 = true → v.cfg.seed = u.cfg.seed) ∧ (j.mb14 = false → v.cfg.seed = { u.cfg.seed with valid := st == 0, checkStatus := st } ∧ v.cfg.checkedTwin = j.needsTwin) ∧
        (j.mb14 = false → j.needsTwin = true → j.twinReport = [] ∨ field j.twinReport 16 4 ≠ u.cfg.seed.cfg.version → st ≠ 0) ∧
        (j.mb14 = false → j.needsTwin = false → st = (firstFailing (mergeEntries ((u.allChecks u.cfg.seed.image j.models u.cfg.seed.cfg).map (checkEntryBytes (b2n u.slotB))) (twinEntries j.twinReport))).2)) ∧
  (∀ (version : Nat) (es : List (List Byte)), reportBytes version es = leBytes 4 version ++ leBytes 2 (min 4096 es.length) ++ leBytes 2 (min 0xFFFF (es.length - 4096)) ++
      leBytes 2 (firstFailing es).1 ++ leBytes 2 (firstFailing es).2 ++ zeroBytes 4 ++ (es.take 4096).flatten) ∧
  (∀ (t : Nat) (r : Req) (s : State), (s.arrive t).accepts (listCmd r) r → ∀ (src n off : Nat), src = field r.payload 0 1 → n = field r.payload 4 4 → off = field r.payload 8 8 →
    Answers (.cfgList t r) t s (listCmd r) r [] fun u st ans v => v = u ∧ (r.payload = [] → st = 0 ∧ ans = u.listing) ∧
      (r.payload ≠ [] → src ≤ 3 → zeros r.payload 1 3 = true → 1 ≤ n → n ≤ 16777216 → off + n ≤ (u.source src).length → st = 0 ∧ ans = slice (u.source src) off n) ∧
      (r.payload ≠ [] → ¬(src ≤ 3 ∧ zeros r.payload 1 3 = true ∧ 1 ≤ n ∧ n ≤ 16777216 ∧ off + n ≤ (u.source src).length) → st = 0x010B ∧ ans = [])) ∧
  (∀ s : State, s.listing = leBytes 4 s.cfg.highWater ++
      (match s.cfg.armed with
       | none => zeroBytes 12
       | some f => leBytes 1 (if f.isRevert then 2 else 1) ++ leBytes 1 f.deferrals ++ zeroBytes 2 ++ leBytes 4 (f.cycle % 2 ^ 32) ++ zeroBytes 4) ++
      slotRecord 0 4 s.cfg.sown ++ slotRecord 1 2 s.cfg.fallow ++
      (match s.cfg.receiving with | some b => receivingRecord b | none => slotRecord 2 (if s.cfg.seed.valid then 3 else 2) s.cfg.seed)) ∧
  (∀ (n st : Nat) (x : Slot), (x.present = false → slotRecord n st x = leBytes 1 n ++ zeroBytes 95) ∧ (x.present = true → slotRecord n st x =
      leBytes 1 n ++ leBytes 1 st ++ leBytes 2 x.checkStatus ++ leBytes 4 x.cfg.version ++ padTo 48 x.cfg.digest ++ leBytes 8 x.image.length ++ leBytes 8 x.stagedS ++
        leBytes 8 x.sownAt ++ leBytes 4 x.snapshot.length ++ zeroBytes 12)) ∧
  (∀ (t : Nat) (m : Mb14Resp) (s : State), (s.arrive t).awake = true →
    ((s.arrive t).msg.mb14.find? (fun q => q.id == m.id) = none → exec (.mb14Response t m) s = .next (s.arrive t)) ∧
    (∀ q w, (s.arrive t).msg.mb14.find? (fun q => q.id == m.id) = some q → w = (s.arrive t).upMsg (fun x => { x with mb14 := x.mb14.filter fun r => r.id != m.id }) →
      (q.cmd = 0 → exec (.mb14Response t m) s = .next (w.heardIdentify q m)) ∧ (q.cmd = 0x400 → exec (.mb14Response t m) s = .next (w.heardStage q m)) ∧
      (q.cmd = 0x401 → exec (.mb14Response t m) s = .next (w.heardCheck q m)) ∧ (q.cmd = 3 → exec (.mb14Response t m) s = .next (w.heardJob q m)) ∧
      (q.cmd = 0x404 → exec (.mb14Response t m) s = .next (w.heardList q m)) ∧
      (q.cmd = 0x504 → m.status = 0 → ∃ v, exec (.mb14Response t m) s = .next v ∧ v.sheaf.twinState = field m.payload 3 1))) ∧
  (∀ (q : Mb14Out) (m : Mb14Resp) (j : CfgJob) (s : State), s.cfg.job = some j → j.id = q.job → q.job ≠ 0 →
    (m.status = 0 → s.cfg.forward ≠ none → ∀ v, v = s.heardIdentify q m → v.msg.mb14Size = field m.payload 28 4 ∧ v.cfg = s.cfg) ∧
    (m.status = 0 → ∀ v off, v = s.heardStage q m → s.cfg.forward = some off → v.cfg.forward = some (off + (s.msg.mb14Size - 28)) ∧
      v.out = s.out ++ [.mb14 s.msg.mb14Next 0x400 (leBytes 8 (off + (s.msg.mb14Size - 28)) ++ slice s.forwarded (off + (s.msg.mb14Size - 28)) (s.msg.mb14Size - 28))]) ∧
    (m.status = 1 → (s.heardStage q m).out = s.out ++ [.mb14 s.msg.mb14Next 3 (slice m.payload 0 2 ++ zeroBytes 2)] ∧ (s.heardStage q m).cfg.forward = none ∧
      (s.heardCheck q m).out = s.out ++ [.mb14 s.msg.mb14Next 3 (slice m.payload 0 2 ++ zeroBytes 2)]) ∧
    (2 ≤ m.status → (s.heardStage q m).cfg.job = some { j with twin := some m.status } ∧ (s.heardStage q m).cfg.forward = none ∧ (s.heardCheck q m).cfg.job = some { j with twin := some m.status }) ∧
    (3 ≤ m.status → (s.heardJob q m).cfg.job = some { j with twin := some m.status, twinReport := [] }) ∧
    (m.status = 0 → ∀ all, all = j.twinReport ++ m.payload → field all 4 1 = 2 → (s.heardJob q m).cfg.job = some { j with twin := some (field all 8 2), twinReport := if j.isCheck then all else [] }) ∧
    (m.status = 0 → 2 ≤ (listedSlot m.payload 2).1 → s.cfg.seed.isListed (listedSlot m.payload 2) = true → (s.heardList q m).out = s.out ++ [.mb14 s.msg.mb14Next 0x401 []]) ∧
    (m.status = 0 → (listedSlot m.payload 2).1 < 2 ∨ s.cfg.seed.isListed (listedSlot m.payload 2) = false → (s.heardList q m).cfg.job = some { j with twin := some 0x0104 })) ∧
  (∀ (t id : Nat) (q : Mb14Out) (s : State), (s.arrive t).awake = true → (s.arrive t).msg.mb14.find? (fun q => q.id == id) = some q → ∀ w, w =
      (s.arrive t).upMsg (fun x => { x with mb14 := x.mb14.filter fun r => r.id != id }) →
    (∀ j, (s.arrive t).cfg.job = some j → j.id = q.job → q.job ≠ 0 → q.at_ + secTicks (if j.isCheck then 120 else 10) ≤ (s.arrive t).time.now → Does (.mb14Timeout t id) t s [.cfg, .msg] fun _ v =>
      v.msg = (w.endJob j.id 0x010A []).msg ∧ v.cfg.job = none ∧ (j.isCheck = true → v.cfg.seed.valid = false)) ∧
    (q.job = 0 → q.cmd ≠ 0x504 → q.at_ + secTicks 10 ≤ (s.arrive t).time.now → exec (.mb14Timeout t id) s = .next (w.upCfg fun c => { c with fetch := [], fetched := [], forward := none }))) ∧
  (∀ (t : Nat) (s : State), (s.arrive t).power.mode = 3 →
    (∀ a bs, Does (.syncingCopyBlock t (.memory a bs)) t s [.cache, .mem, .sched] fun u v => v.mem = memStore bs a u.mem ∧ (Memory.wf u.mem = true → ∀ i, i < bs.length → memRead v.mem (a + i) = bs.getD i 0)) ∧
    (∀ a b c d, exec (.syncingCopyBlock t (.timeState a b c d)) s = .next ((s.arrive t).upTime fun x => { x with primary := (a, b) })) ∧
    (∀ a b, Does (.syncingCopyBlock t (.twinConfig a b)) t s [.out, .cfg, .msg] fun u v => v.out = u.out ++ [.mb14 u.msg.mb14Next 0x404 []] ∧ v.cfg.fetch = [(9, 304, 0)]) ∧
    ((s.arrive t).cnt.early = [] → exec (.syncingCopyBlock t .done) s = .next (((s.arrive t).upPair fun p => { p with copyDone := true, ckptSeen := 0 }).upCnt fun k =>
      { k with early := [], applied := [none, none, none, none] }))) ∧
  (∀ (src sownAt : Nat) (b : List Byte) (s : State), (src < 3 → s.imageOk b = false → s.takePart src sownAt b = s) ∧
    (src = 3 → s.takePart src sownAt b = s.upCfg fun c => { c with fallow := { c.fallow with snapshot := parseSnapshot b } }) ∧
    (s.imageOk b = true → src < 3 → (s.takePart src sownAt b).cfg.highWater = max s.cfg.highWater (field b 8 4) ∧
      (src = 0 → (s.takePart src sownAt b).cfg.sown = fetchedSlot b s.tb3s sownAt) ∧ (src = 1 → (s.takePart src sownAt b).cfg.fallow = fetchedSlot b s.tb3s sownAt) ∧
      (src = 2 → (s.takePart src sownAt b).cfg.seed = fetchedSlot b s.tb3s 0))) ∧
  (∀ (t m : Nat) (s : State), (s.arrive t).awake = true → Does (.twinModeReport t m) t s [.cache, .out, .pair, .power, .cfg, .msg, .gate, .sheaf, .log] fun u v => v.pair.twinMode = m ∧
    (u.power.mode = 6 → u.pair.owner = true → m = 3 ∨ m = 4 → v.power.mode = 5) ∧
    (m ≠ 4 ∨ u.pair.twinMode = 4 → u.power.mode ≠ 6 → v.cfg = u.cfg ∧ v.out = u.out) ∧
    (m = 4 → u.pair.twinMode ≠ 4 → u.cfg.checkedTwin = false → v.cfg.seed.valid = false) ∧
    (m = 4 → u.pair.twinMode ≠ 4 → u.power.mode = 5 → u.pair.owner = true → u.cfg.seed.present = true → u.cfg.job = none → v.out = u.out ++ [.mb14 u.msg.mb14Next 0x404 []]))

/-- R166, R229, R234, R236–R243, Tables 10.6–10.8: a flip or revert from its acceptance to its commit, and what it does to slots, values and settings.
The model's choices within: log 91, 106, 107. -/
def Obligations.FlipsFollowTheTimeline : Prop :=
  (∀ (t : Nat) (r : Req) (s : State) (back : Bool) (i : Instr) (x : Slot), i = (if back then .cfgRevert t r else .cfgFlip t r) → (s.arrive t).accepts (cfgCmd (if back then 0x403 else 0x402)) r →
    x = (if back then (s.arrive t).cfg.fallow else (s.arrive t).cfg.seed) →
    Answers i t s (cfgCmd (if back then 0x403 else 0x402)) r [.cache, .mem, .out, .time, .pair, .pts, .fsp, .sched, .cfg, .msg, .gate, .dio, .ua, .can, .log] fun u st ans v =>
      (x.present = false ∨ (back = false ∧ x.valid = false) ∨ u.pair.twinMode = 3 → st = 0x0104 ∧ ans = [] ∧ v = u) ∧
      (x.present = true → (back = false → x.valid = true) → u.pair.twinMode ≠ 3 →
        (u.cfg.job ≠ none ∨ u.cfg.armed ≠ none ∨ u.sheaf.st ∈ [3, 5, 6] ∨ u.sheaf.twinState ∈ [3, 5, 6] → st = 0x0101 ∧ ans = [] ∧ v = u) ∧
        (u.cfg.job = none → u.cfg.armed = none → u.sheaf.st ∉ [3, 5, 6] → u.sheaf.twinState ∉ [3, 5, 6] →
          (back = true → u.placed x.cfg = false → st = 0x0107 ∧ ans = [] ∧ v = u) ∧
          ((back = true → u.placed x.cfg = true) →
            (u.power.mode = 2 → st = 0 ∧ ans = [] ∧ v.cfg = (u.switchTo back u.tb0).cfg) ∧
            (u.power.mode ≠ 2 → u.msg.jobs.length < 64 → ∀ tb, tb = u.nextT0 3 (u.tb0 + 200000000) → ∃ id, st = 1 ∧ ans = jobPayload id ∧
              v.cfg = { u.cfg with armed := some { isRevert := back, solo := u.power.mode == 6, tb := tb, cycle := tb / u.periodNs 3, deferrals := 0, job := id, twinArmed := false, goHeld := false } } ∧
              (∀ h, u.pair.armed = some h → h.th = tb → h.kind ≠ 4 → v.pair.armed = some { h with th := u.nextT0 3 (tb + 1) })))))) ∧
  (∀ (tb : Nat) (s : State), ∀ v, v = s.switchTo false tb → v.cfg.sown = { s.cfg.seed with sownAt := tb, snapshot := [], valid := false } ∧ v.cfg.seed = Slot.empty ∧
    (s.cfg.sown.present = true → v.cfg.fallow = { s.cfg.sown with snapshot := s.snapshotOf s.conf s.cfg.seed.cfg, valid := false }) ∧ (s.cfg.sown.present = false → v.cfg.fallow = Slot.empty) ∧
    v.cfg.highWater = s.cfg.highWater ∧ v.cfg.armed = none ∧ (∀ p, p ∈ v.time.ports → p.gclRunning = false ∧ p.gates = 0xFF)) ∧
  (∀ (tb : Nat) (s : State), ∀ v, v = s.switchTo true tb → v.cfg.sown = { s.cfg.fallow with sownAt := tb, snapshot := [] } ∧ v.cfg.seed = { s.cfg.seed with valid := false } ∧
    (s.cfg.sown.present = true → v.cfg.fallow = { s.cfg.sown with snapshot := s.snapshotOf s.conf s.cfg.fallow.cfg, valid := false }) ∧ (s.cfg.sown.present = false → v.cfg.fallow = Slot.empty) ∧
    v.cfg.highWater = s.cfg.highWater ∧ v.cfg.armed = none ∧ (∀ p, p ∈ v.time.ports → p.gclRunning = false ∧ p.gates = 0xFF)) ∧
  (∀ (old new : Cfg) (s : State) (e : Nat × Word64), e ∈ s.snapshotOf old new ↔ ∃ p, p ∈ old.points ∧ e = (p.handle, s.image p.handle) ∧
    (ruleKind (new.rule p.handle) ≠ ruleKind p.rule ∨ ruleIsOut (new.rule p.handle) ≠ ruleIsOut p.rule)) ∧
  (∀ (old new : Cfg) (restored : List (Nat × Word64)) (p : PointRec) (s v : State), Memory.wf s.mem = true → p.handle ≤ 0x5FFFFF → ruleKind p.rule ≠ 0 →
    v = s.carryPoint old new restored p →
    v.ruleOf p.handle = p.rule ∧
    (keptRule (old.rule p.handle) p.rule = true → memReadN v.mem (imageAddr p.handle) 8 = memReadN s.mem (imageAddr p.handle) 8 ∧ v.pts.forces = s.pts.forces ∧
      (ruleTransform (old.rule p.handle) = ruleTransform p.rule → ruleFilter (old.rule p.handle) = ruleFilter p.rule → ruleClass (old.rule p.handle) = ruleClass p.rule → v.pts = s.pts) ∧
      (ruleTransform (old.rule p.handle) ≠ ruleTransform p.rule ∨ ruleFilter (old.rule p.handle) ≠ ruleFilter p.rule ∨ ruleClass (old.rule p.handle) ≠ ruleClass p.rule →
        p.handle ∈ v.pts.reseed ∧ v.pts.filters = s.pts.filters.filter fun f => f.handle != p.handle)) ∧
    (keptRule (old.rule p.handle) p.rule = false → v.pts.force p.handle = none ∧ (∀ f, f ∈ v.pts.filters → f.handle ≠ p.handle) ∧
      (restored.find? (fun e => e.1 == p.handle) = none → v.img p.handle = newImg p.init) ∧
      (∀ e, restored.find? (fun e => e.1 == p.handle) = some e → v.img p.handle = restoredImg p e.2))) ∧
  (∀ (h : Nat) (s : State), Memory.wf s.mem = true → ((s.forget h).undeclare h).image h = unusedEntry ∧ ((s.forget h).undeclare h).pts.force h = none) ∧
  (∀ (f : ArmedFlip) (s : State),
    (2 ≤ f.deferrals → s.deferFlip f = (s.endJob f.job 0x0104 []).upCfg fun c => { c with armed := none }) ∧
    (f.deferrals < 2 → ∀ tb, tb = s.nextT0 3 (s.tb0 + 200000000) → (s.deferFlip f).cfg =
      { s.cfg with armed := some { f with tb := tb, cycle := tb / s.periodNs 3, deferrals := f.deferrals + 1, twinArmed := false, goHeld := false } })) ∧
  (∀ (t : Nat) (s : State), (s.arrive t).pair.owner = true →
    ((s.arrive t).cfg.armed = none → exec (.flipArmCheck t) s = .next (s.arrive t)) ∧
    (∀ f, (s.arrive t).cfg.armed = some f →
      ((s.arrive t).tb0 + 100000000 < f.tb ∨ f.goHeld = true ∨ f.solo = true ∨ (s.arrive t).power.mode ≠ 5 → exec (.flipArmCheck t) s = .next (s.arrive t)) ∧
      (f.tb ≤ (s.arrive t).tb0 + 100000000 → f.goHeld = false → f.solo = false → (s.arrive t).power.mode = 5 →
        (f.twinArmed = false ∨ (s.arrive t).twinSynced = false → exec (.flipArmCheck t) s = .next ((s.arrive t).deferFlip f)) ∧
        (f.twinArmed = true → (s.arrive t).twinSynced = true →
          ((s.arrive t).tb0 + 20000 < f.tb → exec (.flipArmCheck t) s = .next (s.arrive t)) ∧
          (f.tb ≤ (s.arrive t).tb0 + 20000 → (s.arrive t).allAcked = false → exec (.flipArmCheck t) s = .next ((s.arrive t).deferFlip f)) ∧
          (f.tb ≤ (s.arrive t).tb0 + 20000 → (s.arrive t).allAcked = true → Does (.flipArmCheck t) t s [.out, .cfg] fun u v =>
            v.cfg = { u.cfg with armed := some { f with goHeld := true } } ∧ v.out = u.out ++ [.swath .flipGo]))))) ∧
  (∀ (t : Nat) (s : State), (s.arrive t).power.mode = 4 → (s.arrive t).pair.synced = true → Does (.flipGo t) t s [.cfg] fun u v =>
    v.cfg = { u.cfg with armed := u.cfg.armed.map fun f => { f with goHeld := true } }) ∧
  (∀ (t : Nat) (s : State), (s.arrive t).pair.owner = true → Does (.flipArmed t) t s [.cfg] fun u v => v.cfg = { u.cfg with armed := u.cfg.armed.map fun f => { f with twinArmed := true } }) ∧
  (∀ (t version cycle : Nat) (s : State), (s.arrive t).power.mode = 4 → (s.arrive t).pair.synced = true → Does (.flipArming t version cycle) t s [.out, .cfg] fun u v =>
    (∀ seed, seed = (u.cfg.seed.present && u.cfg.seed.cfg.version == version) → ∀ held, held = (seed || u.cfg.fallow.present && u.cfg.fallow.cfg.version == version) →
      (version = 0 ∨ held = false → v.cfg = { u.cfg with armed := none } ∧ v.out = u.out) ∧
      (version ≠ 0 → held = true → u.cfg.armed = none → ∃ full, u.tb0 / u.periodNs 3 ≤ full ∧ full < u.tb0 / u.periodNs 3 + 2 ^ 32 ∧ full % 2 ^ 32 = cycle % 2 ^ 32 ∧ v.out = u.out ++ [.swath .flipArmed] ∧
        v.cfg = { u.cfg with armed := some { isRevert := !seed, solo := false, tb := full * u.periodNs 3, cycle := full, deferrals := 0, job := 0, twinArmed := false, goHeld := false } }))) ∧
  (∀ (t : Nat) (s : State), (s.arrive t).awake = true →
    ((s.arrive t).cfg.armed = none → exec (.flipBoundary t) s = .next (s.arrive t)) ∧
    (∀ f, (s.arrive t).cfg.armed = some f →
      ((s.arrive t).tb0 < f.tb ∨ ((s.arrive t).pair.owner = false ∧ ((s.arrive t).power.mode ≠ 4 ∨ f.goHeld = false)) → exec (.flipBoundary t) s = .next (s.arrive t)) ∧
      (f.tb ≤ (s.arrive t).tb0 → ((s.arrive t).pair.owner = true ∧ (f.goHeld = true ∨ f.solo = true ∨ (s.arrive t).power.mode ≠ 5)) ∨ ((s.arrive t).power.mode = 4 ∧ f.goHeld = true) →
        Does (.flipBoundary t) t s [.cache, .mem, .out, .time, .cnt, .pts, .cyc, .fsp, .sched, .cfg, .gate, .dio, .ua, .can, .log] fun u v =>
          v.cfg.armed = none ∧ v.cfg.flipTb = f.tb ∧ v.cfg.windowOpen = true ∧ v.cfg.heldFrames = [] ∧ v.cfg.highWater = u.cfg.highWater ∧
          v.cfg.commits = u.cfg.commits ++ [{ sown := u.cfg.sown, fallow := u.cfg.fallow, seed := u.cfg.seed, tb := f.tb, isRevert := f.isRevert, job := f.job }] ∧
          v.cfg.fallow = (if u.cfg.sown.present then { u.cfg.sown with snapshot := v.cfg.fallow.snapshot, valid := false } else Slot.empty) ∧
          (f.isRevert = false → v.cfg.sown = { u.cfg.seed with sownAt := f.tb, snapshot := [], valid := false } ∧ v.cfg.seed = Slot.empty ∧ v.cfg.changed = changeSet u.conf u.cfg.seed.cfg) ∧
          (f.isRevert = true → v.cfg.sown = { u.cfg.fallow with sownAt := f.tb, snapshot := [] } ∧ v.cfg.seed = { u.cfg.seed with valid := false } ∧ v.cfg.changed = changeSet u.conf u.cfg.fallow.cfg) ∧
          (∀ c, c ∈ v.cyc.cls → c.held = [] ∧ c.toIssue = [] ∧ c.toWrite = [] ∧ c.notBefore = f.tb ∧ c.tasks = false)))) ∧
  (∀ (t : Nat) (s : State), (s.arrive t).cfg.windowOpen = true → (s.arrive t).cfg.flipTb + ceilDiv (2000000 + 625 * (s.arrive t).cfg.changed.length) 1000 ≤ (s.arrive t).tb0 →
    ∀ w, w = (s.arrive t).upCfg (fun c => { c with windowOpen := false, heldFrames := [] }) →
      ((s.arrive t).cfg.heldFrames = [] → exec (.changeSetWritten t) s = .next w) ∧
      (∀ f, (s.arrive t).cfg.heldFrames = [.frame f] → (parseFsp f).kind = 4 → exec (.changeSetWritten t) s = .next (w.receive 4 State.writeAck f)) ∧
      (∀ f, (s.arrive t).cfg.heldFrames = [.frame f] → (parseFsp f).kind = 2 → exec (.changeSetWritten t) s = .next (w.receive 2 State.readRsp f)) ∧
      (∀ o st item, (s.arrive t).cfg.heldFrames = [.channel o st item] → exec (.changeSetWritten t) s = .next (w.localCompletion o st item))) ∧
  (∀ (t : Nat) (s : State) (d : FlipDone) (rest : List FlipDone), (s.arrive t).awake = true → (s.arrive t).cfg.commits = d :: rest →
    ((s.arrive t).tb0 < d.tb + 1000000000 → exec (.snapshotCommit t) s = .next (s.arrive t)) ∧
    (d.tb + 1000000000 ≤ (s.arrive t).tb0 → Does (.snapshotCommit t) t s [.cache, .cfg, .msg, .log] fun u v => v.cfg = { u.cfg with commits := rest } ∧ v.msg = (u.endJob d.job 0 []).msg))

/-! ## Cycles, transactions, runtime calls and station frames (03; 02; 04) -/

/-- R48, R52, R54–R60, R62–R64, R236: a cycle from its start over issue, completion and retry to publication, tasks and outputs.
The model's choices within: log 36, 37, 85, 89. -/
def Obligations.CyclesRunThroughTheirInstants : Prop :=
  (∀ (t x : Nat) (s : State), (s.arrive t).mayStart x = true → x < (s.arrive t).cyc.cls.length → (s.arrive t).power.mode ≠ 2 →
    Does (.cycleStart t x) t s [.cache, .mem, .free, .out, .pts, .cyc, .fsp, .lock, .ua, .can] fun u v => ∀ k c, k = u.tb0 / u.periodNs x → c = v.cl x →
      c.cycle = k ∧ c.t0 = k * u.periodNs x ∧ c.done = [] ∧ c.written = false ∧
      (u.pair.owner = true → c.phase = 1 ∧ c.pubWord = (2 * k + 1) % 2 ^ 32) ∧ (u.pair.owner = false → c.phase = 0 ∧ c.pubWord = (u.cl x).pubWord)) ∧
  (∀ (ts : List TransRec) (s : State), (s.issueOrder ts).Perm (List.range ts.length) ∧ (s.issueOrder ts).Pairwise fun i j => ∀ a b, ts[i]? = some a → ts[j]? = some b →
      s.rttPs b.station < s.rttPs a.station ∨ (s.rttPs b.station = s.rttPs a.station ∧ a.station ≤ b.station)) ∧
  (∀ (x tag : Nat) (s : State), s.freeTag x = some tag → s.quotaBase x ≤ tag ∧ tag < s.quotaBase x + (s.classRec x).quota ∧ ∀ f, f ∈ (s.cl x).held → f.tag ≠ tag) ∧
  (∀ (x : Nat) (s : State), (∀ tag, s.quotaBase x ≤ tag → tag < s.quotaBase x + (s.classRec x).quota → ∃ f, f ∈ (s.cl x).held ∧ f.tag = tag) →
    (s.cl x).toIssue ≠ [] ∨ (s.cl x).toWrite ≠ [] → s.pump x = s.setCl x fun c => { c with waitFrom := some (c.waitFrom.getD s.time.now) }) ∧
  (∀ (t : Nat) (f : RxFrame) (s : State), (s.arrive t).hears f = true →
    ((s.arrive t).cfg.windowOpen = true → ∀ v, v = ((s.arrive t).upCfg fun c => { c with heldFrames := c.heldFrames ++ [.frame f] }) → exec (.readRsp t f) s = .next v ∧ exec (.writeAck t f) s = .next v) ∧
    ((s.arrive t).cfg.windowOpen = false → exec (.readRsp t f) s = .next ((s.arrive t).receive 2 State.readRsp f) ∧ exec (.writeAck t f) s = .next ((s.arrive t).receive 4 State.writeAck f))) ∧
  (∀ (f : Fsp) (s : State), (s.versionKnown f = false → s.readRsp f = s.fspCount 7 ∧ s.writeAck f = s.fspCount 7) ∧
    (s.versionKnown f = true → f.term ≠ s.pair.term → s.readRsp f = s.fspCount 8 ∧ s.writeAck f = s.fspCount 8) ∧
    (s.versionKnown f = true → f.term = s.pair.term → s.pair.owner = false → (s.power.mode = 3 ∨ s.power.mode = 4) → s.conf.version = f.cfg → s.readRsp f = s.heardRsp f) ∧
    (s.versionKnown f = true → f.term = s.pair.term → s.pair.owner = true → ∀ late, late = (serialAfter (s.cl f.cls).cycle f.cycle || (f.cycle == (s.cl f.cls).cycle % 2 ^ 32 && (s.cl f.cls).phase != 1)) →
      ∀ hit, hit = (s.cl f.cls).held.find? (fun h => !h.isWrite && h.tag == f.tag && h.station == f.station && h.cycle % 2 ^ 32 == f.cycle && h.version == f.cfg) →
        (hit = none → s.readRsp f = s.dropFrame late f) ∧ (hit ≠ none → late = true → s.readRsp f = s.dropLate) ∧
        (∀ h, hit = some h → late = false → parseRsp h.ranges f.payload = none → s.readRsp f = s.fspCount 15) ∧
        (∀ h d tr, hit = some h → late = false → parseRsp h.ranges f.payload = some d → (s.conf.transOf f.cls false)[h.idx]? = some tr → f.cls < s.cyc.cls.length →
          ((s.readRsp f).cl f.cls).done = (s.cl f.cls).done ++ [(h.idx, if h.retried then 1 else 0)] ∧ (s.readRsp f).cyc.completed = doneKey f :: s.cyc.completed))) ∧
  (∀ (late : Bool) (f : Fsp) (s : State), (late = true → s.dropFrame late f = s.upCyc fun c => { c with lateDrops := inc32 c.lateDrops }) ∧
    (late = false → f.cfg ≠ s.conf.version → s.dropFrame late f = s.upCyc fun c => { c with oldCfgDrops := inc32 c.oldCfgDrops }) ∧
    (late = false → f.cfg = s.conf.version → (doneKey f ∈ s.cyc.completed → s.dropFrame late f = s.upCyc fun c => { c with dupDrops := inc32 c.dupDrops }) ∧
      (doneKey f ∉ s.cyc.completed → s.dropFrame late f = s.upCyc fun c => { c with unmatched := inc32 c.unmatched }))) ∧
  (∀ (t o st : Nat) (item : List Word) (s : State), (s.arrive t).pair.owner = true ∨ (s.arrive t).power.mode = 3 ∨ (s.arrive t).power.mode = 4 →
    ((s.arrive t).cfg.windowOpen = true → exec (.localCompletion t o st item) s = .next ((s.arrive t).upCfg fun c => { c with heldFrames := c.heldFrames ++ [.channel o st item] })) ∧
    ((s.arrive t).cfg.windowOpen = false → exec (.localCompletion t o st item) s = .next ((s.arrive t).localCompletion o st item))) ∧
  (∀ (o st : Nat) (item : List Word) (s : State), (∀ x p, x < 4 → p ∈ s.conf.awaited x → ruleOffset p.rule ≠ o) → o ≠ 15 → s.localCompletion o st item = s) ∧
  (∀ (t tag : Nat) (s : State), (s.arrive t).pair.owner = true →
    ((s.arrive t).flightOn tag false = none → exec (.readRetryTimeout t tag) s = .next (s.arrive t)) ∧ ((s.arrive t).flightOn tag true = none → exec (.writeRetryTimeout t tag) s = .next (s.arrive t)) ∧
    (∀ f, (s.arrive t).flightOn tag false = some f → ∀ rtt, rtt = (s.arrive t).rttPs f.station →
      (f.retried = true ∨ (s.arrive t).time.now < f.issued + psTicks rtt ∨ ((s.arrive t).cl f.cls).toIssue ≠ [] ∧ f.isWrite = false ∨ (s.arrive t).deadline f.cls < (s.arrive t).tb0 + psNs rtt →
        exec (.readRetryTimeout t tag) s = .next (s.arrive t)) ∧
      (f.isWrite = false → f.retried = false → f.issued + psTicks rtt ≤ (s.arrive t).time.now → ((s.arrive t).cl f.cls).toIssue = [] → (s.arrive t).tb0 + psNs rtt ≤ (s.arrive t).deadline f.cls →
        Does (.readRetryTimeout t tag) t s [.out, .cyc, .fsp] fun u v => v.cyc.retries = inc32 u.cyc.retries)) ∧
    (∀ f, (s.arrive t).flightOn tag true = some f → f.isWrite = true → ∀ rtt, rtt = (s.arrive t).rttPs f.station →
      (f.retried = true ∨ (s.arrive t).time.now < f.issued + psTicks rtt ∨ ((s.arrive t).cl f.cls).toWrite ≠ [] ∨ f.apply < (s.arrive t).tb0 + (s.arrive t).leadInNs f.station →
        exec (.writeRetryTimeout t tag) s = .next (s.arrive t)) ∧
      (f.retried = false → f.issued + psTicks rtt ≤ (s.arrive t).time.now → ((s.arrive t).cl f.cls).toWrite = [] → (s.arrive t).tb0 + (s.arrive t).leadInNs f.station ≤ f.apply →
        Does (.writeRetryTimeout t tag) t s [.out, .cyc, .fsp] fun u v => v.cyc.retries = inc32 u.cyc.retries))) ∧
  (∀ (t x : Nat) (s : State), (s.arrive t).mayPublish x = true → ∀ w, w = (((s.arrive t).publishEpoch x).releaseTasks x) →
    ((w.cl x).tasks = true ∨ w.pair.owner = false → exec (.publication t x) s = .next w) ∧ ((w.cl x).tasks = false → w.pair.owner = true → exec (.publication t x) s = .next (w.tw x))) ∧
  (∀ (x : Nat) (s v : State), x < s.cyc.cls.length → v = s.publishEpoch x → (v.cl x).phase = 2 ∧ (v.cl x).pubWord = 2 * (s.cl x).cycle % 2 ^ 32 ∧ (v.cl x).held = [] ∧ (v.cl x).toIssue = [] ∧ (v.cl x).toWrite = [] ∧
    (v.cl x).cycleNo = (s.cl x).cycle % 2 ^ 32 ∧ (v.cl x).missingLast = (s.missingReads x).length ∧ (v.cl x).unacked = add32 (s.cl x).unacked ((s.unackedWrites x).length + s.withheldOf x) ∧
    (v.cl x).deadlinePubs = (if (s.missingReads x).isEmpty then (s.cl x).deadlinePubs else inc32 (s.cl x).deadlinePubs)) ∧
  (∀ (x : Nat) (s v : State), x < s.cyc.cls.length → v = s.releaseTasks x →
    ((s.cl x).tasks = false → (v.cl x).tasks = s.conf.hasTasks x ∧ (v.cl x).skipped = false ∧ (v.cl x).consecSkips = 0) ∧
    ((s.cl x).tasks = true →
      ((s.classRec x).overrun = 0 ∨ (s.cl x).consecSkips + 1 < (s.classRec x).overrun → v.power.mode = s.power.mode ∧ (v.cl x).taskSkips = inc32 (s.cl x).taskSkips ∧ (v.cl x).consecSkips = (s.cl x).consecSkips + 1 ∧ (v.cl x).skipped = true) ∧
      ((s.classRec x).overrun ≠ 0 → (s.classRec x).overrun ≤ (s.cl x).consecSkips + 1 → v.power.mode = 7 ∧ v.power.reason = 7))) ∧
  (∀ (t x : Nat) (d : Option Nat) (pages : List Nat) (s : State), (s.arrive t).pair.owner = true → x < 4 → x < (s.arrive t).cyc.cls.length → ((s.arrive t).cl x).tasks = true →
    ∀ w, w = (s.arrive t).fold.setCl x (fun c => { c with tasks := false, dirty := pages.foldl (fun l a => touch a l) c.dirty }) →
      (∀ cp, d = some cp → exec (.taskEnd t x d pages) s = .next ((s.arrive t).fold.lockFault cp .mismatch 0xFF)) ∧
      (d = none → (((s.arrive t).cl x).phase ≠ 2 ∨ ((s.arrive t).cl x).written = true) → exec (.taskEnd t x d pages) s = .next w) ∧
      (d = none → ((s.arrive t).cl x).phase = 2 → ((s.arrive t).cl x).written = false → exec (.taskEnd t x d pages) s = .next (w.tw x))) ∧
  (∀ (t x : Nat) (s : State), (s.arrive t).mayOverrun x = true → x < (s.arrive t).cyc.cls.length → ((s.arrive t).cl x).rerunTo = none →
    Does (.outputCutoff t x) t s [.cache, .out, .cnt, .cyc, .fsp, .sched, .log] fun u v => (v.cl x).overran = true ∧ (v.cl x).written = true ∧ (v.cl x).overruns = inc32 (u.cl x).overruns ∧
      (v.cl x).tasks = (u.cl x).tasks ∧ (v.cl x).toWrite = (u.cl x).toWrite ∧ (v.cl x).held = (u.cl x).held) ∧
  (∀ (x i : Nat) (tr : TransRec) (s : State) (f : Flight), x < s.cyc.cls.length → f ∈ ((s.buildWrite x i tr).cl x).toWrite → f ∈ (s.cl x).toWrite ∨
    (f.isWrite = true ∧ f.cls = x ∧ f.station = tr.station ∧ f.cycle = (s.cl x).cycle ∧ f.version = s.conf.version ∧ f.apply = s.applyAt x ∧ f.ranges ≠ [] ∧ f.ranges.length ≤ 8)) ∧
  (∀ (f : Fsp) (s : State), s.versionKnown f = true → f.term = s.pair.term → s.pair.owner = true →
    (∀ h, s.ackedFlight f = some h → (parseAck f.payload = none → s.writeAck f = s.fspCount 15) ∧
      (∀ result free w, parseAck f.payload = some (result, free) → w = s.setSchedStation { s.schedStation f.station with free := free } →
        (result = 1 → s.writeAck f = w.fspCount 13) ∧ (result = 2 → s.writeAck f = w.fspCount 17) ∧ (result = 3 → s.writeAck f = w.fspCount 14) ∧
        (result = 0 → (s.writeAck f).cyc.completed = doneKey f :: s.cyc.completed))) ∧
    (s.ackedFlight f = none → s.writeAck f = s.dropFrame (serialAfter (s.cl f.cls).cycle f.cycle && f.cfg == s.conf.version && !s.cyc.completed.contains (doneKey f)) f))

/-- R16, R21, R30, R61, R83, R84, R94, R111, R406: PEER, BOUND and START frames, binds that are repeated, and the runtime's calls on points.
The model's choices within: log 90. -/
def Obligations.RuntimeCallsAndStationFramesAct : Prop :=
  (∀ (t : Nat) (f : RxFrame) (s : State), (s.arrive t).hears f = true → exec (.peer t f) s = .next ((s.arrive t).receive 8 State.peerFrame f) ∧
    exec (.announceBound t f) s = .next ((s.arrive t).receive 10 State.bound f) ∧ exec (.announceStart t f) s = .next ((s.arrive t).receive 10 State.started f)) ∧
  (∀ (f : Fsp) (s : State), (s.peerOf (field f.payload 0 4) = none → s.peerFrame f = s) ∧
    (∀ p, s.peerOf (field f.payload 0 4) = some p →
      (∀ tm, s.pts.peerTerms.find? (fun t => t.1 == p.peer) = some tm → serialGe f.term tm.2 = false → s.peerFrame f = s.fspCount 10) ∧
      ((∀ tm, s.pts.peerTerms.find? (fun t => t.1 == p.peer) = some tm → serialGe f.term tm.2 = true) →
        (parsePeerItems f.payload = none → s.peerFrame f = s.fspCount 15) ∧
        (∀ first items, parsePeerItems f.payload = some (first, items) → 183 < items.length ∨ 65536 < first + items.length → s.peerFrame f = s.fspCount 10) ∧
        (∀ first items v, parsePeerItems f.payload = some (first, items) → items.length ≤ 183 → first + items.length ≤ 65536 → v = s.peerFrame f →
          (∃ g, v = s.upPts g) ∧ v.pts.peerTerms.find? (fun t => t.1 == p.peer) = some (p.peer, f.term) ∧
          (∀ i (hi : i < items.length), v.pts.peers.find? (fun q => q.peer == p.peer && q.item == first + i) = some { peer := p.peer, item := first + i, value := BitVec.ofNat 32 items[i].1, quality := items[i].2, at_ := s.tb0 }))))) ∧
  (∀ (t a : Nat) (s : State), (s.arrive t).pair.owner = true →
    ((s.arrive t).fsp.binds.find? (fun b => b.station == a && b.st == 0) = none → exec (.bindRetryTimeout t a) s = .next (s.arrive t)) ∧
    (∀ b, (s.arrive t).fsp.binds.find? (fun b => b.station == a && b.st == 0) = some b →
      (4 ≤ b.attempts → Does (.bindRetryTimeout t a) t s [.cache, .fsp, .log] fun u v => ∀ c, c ∈ v.fsp.binds → c.station = a → c.st = 2) ∧
      (b.attempts < 4 → Does (.bindRetryTimeout t a) t s [.out, .fsp] fun u v => ∀ r, (u.cfgOf b.version).map.stations.find? (fun r => r.addr == a) = some r →
        v.fsp.binds.find? (fun c => c.station == a) = some { station := a, attempts := b.attempts + 1, st := 0, pending := b.pending, cycle := b.cycle, version := (u.cfgOf b.version).version }))) ∧
  (∀ (f : Fsp) (s : State), (field f.payload 0 1 ≠ 0x11 → s.bound f = s) ∧
    (field f.payload 0 1 = 0x11 → f.payload.length ≠ 8 ∨ zeros f.payload 1 3 = false → s.bound f = s.fspCount 15) ∧
    (field f.payload 0 1 = 0x11 → f.payload.length = 8 → zeros f.payload 1 3 = true → (∃ g, s.bound f = s.upFsp g) ∧
      (s.bound f).fsp.binds = s.fsp.binds.map fun b => if b.station = f.station ∧ b.st = 0 ∧ b.version = field f.payload 4 4 then { b with st := 1 } else b)) ∧
  (∀ (f : Fsp) (s : State), (f.isStart = false → s.started f = s) ∧
    (f.isStart = true → f.payload.length ≠ 16 ∨ zeros f.payload 1 3 = false → s.started f = s.fspCount 15) ∧
    (f.isStart = true → f.payload.length = 16 → zeros f.payload 1 3 = true → ∀ w, w = (s.fspCount 12).hearTerm (field f.payload 8 4) →
      (w.pair.owner = false → s.started f = w) ∧ (w.pair.owner = true → s.started f = w.sendBind f.station false 0 w.conf))) ∧
  (∀ (t h : Nat) (x : Word) (s : State), (s.arrive t).pair.owner = true →
    (h = 0 ∨ 0x600000 ≤ h → Does (.pointWrite t h x) t s [.out, .pts] fun u v => v.out = u.out ++ [.call 0x010B []] ∧ v.pts = { u.pts with badHandle := inc32 u.pts.badHandle }) ∧
    (h ≠ 0 → h < 0x600000 → ∀ r, r = (s.arrive t).ruleOf h →
      (ruleIsOut r = false ∨ ruleTimed r = true ∨ ruleKind r = 0 ∨ ruleKind r = 10 → Does (.pointWrite t h x) t s [.out] fun u v => v.out = u.out ++ [.call 0x0105 []]) ∧
      (ruleIsOut r = true → ruleTimed r = false → ruleKind r ≠ 0 → ruleKind r ≠ 10 → Does (.pointWrite t h x) t s [.cache, .mem, .out] fun u v => v.out = u.out ++ [.call 0 []] ∧
        (Memory.wf u.mem = true → v.img h = { u.img h with value := if (u.img h).forced then (u.img h).value else x, pend := true }) ∧
        (∀ k, k ≠ h → v.image k = u.image k)))) ∧
  (∀ (t h : Nat) (s : State), (s.arrive t).pair.owner = true →
    (h = 0 ∨ 0x600000 ≤ h → Does (.pointReadCall t h) t s [.out, .pts] fun u v => v.out = u.out ++ [.call 0x010B [0x86000000]] ∧ v.pts = { u.pts with badHandle := inc32 u.pts.badHandle }) ∧
    (h ≠ 0 → h < 0x600000 → Does (.pointReadCall t h) t s [.out] fun u v => v.out = u.out ++ [.call 0 [(u.image h).toNat]])) ∧
  (∀ (t h : Nat) (s : State), (s.arrive t).pair.owner = true →
    (h = 0 ∨ 0x600000 ≤ h → Does (.stampBlockRead t h) t s [.out, .pts] fun u v => v.out = u.out ++ [.call 0x010B []] ∧ v.pts = { u.pts with badHandle := inc32 u.pts.badHandle }) ∧
    (h ≠ 0 → h < 0x600000 → ∀ r, r = (s.arrive t).ruleOf h →
      (ruleKind r ≠ 8 → ruleKind r ≠ 9 → Does (.stampBlockRead t h) t s [.out] fun u v => v.out = u.out ++ [.call 0x010B []]) ∧
      (ruleKind r = 8 ∨ ruleKind r = 9 → Does (.stampBlockRead t h) t s [.out] fun u v => v.out = u.out ++ [.call 0 ((u.slotBytes h r).map fun b => b.toNat)]))) ∧
  (∀ (t own x : Nat) (hs : List Nat) (s : State), (s.arrive t).pair.owner = true → x < 4 → ∀ c vals, c = (s.arrive t).cl x → vals = hs.map (fun h => ((s.arrive t).image h).toNat) →
    (c.pubWord % 2 = 0 → ¬(c.tasks = true ∧ c.skipped = true ∧ own = x) → Does (.epochRead t own x hs) t s [.out] fun u v => v.out = u.out ++ [.call 0 vals]) ∧
    (c.pubWord % 2 = 1 → own < x → Does (.epochRead t own x hs) t s [.out] fun u v => v.out = u.out ++ [.call 2 vals]) ∧
    (own = x → c.tasks = true → c.pubWord % 2 = 1 ∨ c.skipped = true → Does (.epochRead t own x hs) t s [.out] fun u v => v.out = u.out ++ [.call 2 vals]) ∧
    (c.pubWord % 2 = 1 → x < own → Does (.epochRead t own x hs) t s [.cyc] fun u v => v.cyc = { u.cyc with waiting := u.cyc.waiting ++ [(x, hs)] }))

/-! ## Takeover, checkpoints and synchronisation (07 R149–R165) -/

/-- R50, R87, R149, R154–R158, R163, R164, R239: a confirmed claim, the checkpoints that a STANDBY applies, and its synchronisation.
The model's choices within: log 31, 78, 80, 81, 82. -/
def Obligations.TakeoverAndCheckpointsKeepThePair : Prop :=
  (∀ s : State, s.mayConfirm = true ↔ s.pair.ownClaim = true ∧ s.pair.confirmed = false ∧ s.pair.tied = false ∧ s.pair.twinClaim = false ∧ s.pair.ownClaimAt + usTicks 2 ≤ s.time.now) ∧
  (∀ (t : Nat) (s : State), ((s.arrive t).mayConfirm = true → Does (.claimConfirmed t) t s [.cache, .mem, .out, .time, .pair, .cnt, .power, .pts, .cyc, .fsp, .sched, .cfg, .msg, .gate, .sheaf, .dio, .ua, .can, .log] fun u v => v = u.control) ∧
    ((s.arrive t).mayConfirm = false → exec (.claimConfirmed t) s = .next (s.arrive t))) ∧
  (∀ (s w : State) (k term : Nat), k = s.pair.claimKind → term = nextTerm (if k = 0 then s.pair.termBest else s.pair.term) → w = s.own →
    w.pair.owner = true ∧ w.pair.confirmed = true ∧ w.pair.synced = false ∧ w.pair.term = term ∧ w.pair.storedTerm = term ∧ w.power.mode = (if k = 0 then 6 else 5) ∧ w.can = s.can.map CanCh.normal ∧
    w.cnt.takeovers = (if k = 1 then inc32 s.cnt.takeovers else s.cnt.takeovers) ∧ (k = 1 → w.cnt.lastTakeoverNs = sat32 (tickNs (s.time.now - s.pair.tfAt))) ∧
    ∃ z : State, z.out = s.out ∧ z.pair.term = term ∧ z.conf = s.conf ∧ w = (z.announce 1).bindAll false 0 s.conf) ∧
  (∀ (s w : State), s.pair.claimKind = 0 → w = s.control → w.pair.owner = true ∧ w.power.mode = 6 ∧ w.sched.used = [] ∧ w.cyc.cls.length = s.cyc.cls.length ∧
    ∀ c, c ∈ w.cyc.cls → c.phase = 0 ∧ c.notBefore = s.tb0 + 100000 ∧ c.toIssue = [] ∧ c.toWrite = [] ∧ c.tasks = false) ∧
  (∀ s : State, s.pair.claimKind ≠ 0 → s.control = ((((List.range 4).foldl (fun z x => z.resume x) ((((if s.pair.claimKind = 1 then s.own.abandonFlip else s.own).takeBases).redispatch).upCyc
    fun c => { c with oldTags := [], oldAcks := [false, false, false, false], completed := [], waiting := [] })).select 0).select 1 |>.pollHart 0 0).pollHart 0 1) ∧
  (∀ (s : State) (f : ArmedFlip), s.cfg.armed = some f → s.abandonFlip.cfg.armed = none ∧ s.abandonFlip.cfg.seed.valid = false ∧ s.abandonFlip.cfg.sown = s.cfg.sown ∧ s.abandonFlip.msg = (s.endJob f.job stState []).msg) ∧
  (∀ (x m a : Nat) (s v : State), x < s.cyc.cls.length → m = s.tb0 / s.periodNs x → v = s.resume x →
    (s.cnt.applied.getD x none = none → (v.cl x).cycle = m ∧ (v.cl x).t0 = m * s.periodNs x ∧ (v.cl x).phase = 0 ∧ (v.cl x).rerunTo = none) ∧
    (s.cnt.applied.getD x none = some a → (m + 2 ^ 32 - a % 2 ^ 32) % 2 ^ 32 = 0 → (v.cl x).cycle = m ∧ (v.cl x).phase = 2 ∧ (v.cl x).written = true) ∧
    (∀ d, s.cnt.applied.getD x none = some a → d = (m + 2 ^ 32 - a % 2 ^ 32) % 2 ^ 32 → d ≠ 0 → d < 2 ^ 31 → ∃ w : State, (w.cl x).rerunTo = some m ∧ w.tb0 = s.tb0 ∧ v = w.rerun x m d (m - d + 1))) ∧
  (∀ (x k : Nat) (last : Bool) (s : State) (c : ClassSt), x < s.cyc.cls.length → c = (s.beginRerun x k last).cl x →
    c.cycle = k ∧ c.t0 = k * s.periodNs x ∧ c.phase = 1 ∧ c.pubWord = (2 * k + 1) % 2 ^ 32 ∧ c.written = false ∧ c.overran = false) ∧
  (∀ (x : Nat) (s : State) (heard inTime : Flight → Bool), x < s.cyc.cls.length → (s.cl x).rerunTo ≠ none → heard = (fun f => s.cyc.heardAcks.contains (x, f.cycle % 2 ^ 32, f.station)) →
    inTime = (fun f => decide (s.tb0 + s.leadInNs f.station ≤ f.apply)) →
    ((s.trimWrites x).cl x).toWrite = (s.cl x).toWrite.filter (fun f => !heard f && inTime f) ∧
    (s.trimWrites x).cnt.missedApply = (if ∃ f, f ∈ (s.cl x).toWrite ∧ heard f = false ∧ inTime f = false then inc32 s.cnt.missedApply else s.cnt.missedApply)) ∧
  (∀ c : Ckpt, ckptComplete c = true ↔ c.trailerSeq = c.seq ∧ c.trailerLen = Ckpt.bytes c ∧ c.crcOk = true) ∧
  (∀ (t : Nat) (c : Ckpt) (s u : State), u = s.arrive t → u.power.mode = 3 ∨ u.power.mode = 4 → c.cls < 4 →
    (ckptComplete c = false → exec (.checkpointReceived t c) s = .next u) ∧
    (ckptComplete c = true → c.cfgVersion ≠ u.conf.version → exec (.checkpointReceived t c) s = .next u.resync) ∧
    (ckptComplete c = true → c.cfgVersion = u.conf.version → u.power.mode = 3 → u.pair.copyDone = false →
      exec (.checkpointReceived t c) s = .next (u.upCnt fun k => { k with early := k.early ++ [c] })) ∧
    (ckptComplete c = true → c.cfgVersion = u.conf.version → u.power.mode = 4 ∨ u.pair.copyDone = true →
      Does (.checkpointReceived t c) t s [.cache, .mem, .out, .time, .pair, .cnt, .power, .pts, .cyc, .sched, .cfg, .gate, .sheaf, .can, .log] fun _ v => v = u.applyCkpt c)) ∧
  (∀ (c : Ckpt) (s v : State) (gaps : List Nat), gaps = (s.replay c.cls c.cycle (2 ^ 64)).gapsOf c → v = s.applyCkpt c →
    v.out = s.out ++ [.swath (.checkpointAck c.cls c.seq gaps)] ∧ v.cnt.hearGaps = add32 s.cnt.hearGaps gaps.length ∧ v.cnt.repairPoints = add32 s.cnt.repairPoints c.repairs.length ∧
    v.cnt.seq = c.seq ∧ v.pair.term = c.term ∧ v.pair.storedTerm = c.term ∧ v.sched.nextId = c.nextId ∧ v.sched.ring = c.tables.ring ∧ v.time.primary = (c.state0, c.state1) ∧
    (s.power.mode ≠ 4 → v.power.mode = s.power.mode ∧ v.cnt.applied = setAt s.cnt.applied c.cls fun _ => some c.cycle) ∧
    (s.power.mode = 4 → (∀ k, k = s.cnt.streaks c.cls gaps → v.power.mode = if 65536 < ((s.replay c.cls c.cycle (2 ^ 64)).readPoints c.cls gaps).length ∨ ∃ g, g ∈ k.gapStreaks ∧ g.1 = c.cls ∧ 3 ≤ g.2.2 then 3 else 4))) ∧
  (∀ (c : Ckpt) (i : Nat) (s : State), i ∈ s.gapsOf c ↔ (∃ b, (i, b) ∈ c.reads ∧ b < 2) ∧ ∀ a, (c.cls, i, a) ∉ s.cyc.shadow) ∧
  (∀ (heard : Bool) (h : Nat) (s : State), (∀ e, s.cyc.newShots.find? (fun e => e.1 == h) = some e → heard = true → s.publishPoint heard h = s.setImage h e.2) ∧
    (heard = false ∨ s.cyc.newShots.find? (fun e => e.1 == h) = none → s.publishPoint heard h = s.missInput h)) ∧
  (∀ s : State, (s.power.mode ≠ 4 → s.resync = s) ∧ (s.power.mode = 4 → s.resync.power.mode = 3 ∧ s.resync.pair.synced = false ∧ s.resync.pair.copyDone = false ∧
    s.resync.cnt.applied = [none, none, none, none] ∧ s.resync.cyc.shadow = [] ∧ s.resync.cyc.journal = [] ∧ s.resync.cfg = s.cfg)) ∧
  (∀ (version cycle : Nat) (s v : State), v = s.followFlip version cycle → (version = 0 ∨ (¬(s.cfg.seed.present = true ∧ s.cfg.seed.cfg.version = version) ∧ ¬(s.cfg.fallow.present = true ∧ s.cfg.fallow.cfg.version = version)) → v.cfg.armed = none) ∧
    (version ≠ 0 → s.cfg.seed.present = true → s.cfg.seed.cfg.version = version → ∃ f, v.cfg.armed = some f ∧ ∀ n, n = s.tb0 / s.periodNs 3 → f.tb = (n + (cycle + 2 ^ 32 - n % 2 ^ 32) % 2 ^ 32) * s.periodNs 3)) ∧
  (∀ (t cls seq : Nat) (gaps : List Nat) (s : State), (s.arrive t).pair.owner = true → Does (.checkpointAck t cls seq gaps) t s [.cnt] fun u v =>
    (∀ h, h ∈ u.readPoints cls gaps → (cls, h) ∈ v.cnt.dueRepairs) ∧ (∀ r, r ∈ v.cnt.dueRepairs → r ∈ u.cnt.dueRepairs ∨ (r.1 = cls ∧ r.2 ∈ u.readPoints cls gaps)) ∧
    v.cnt.acked = u.cnt.acked.map (fun e => if e = (cls, seq + 1) then (cls, 0) else e)) ∧
  (∀ (s : State) (x : Nat), s.ckptIsLate x = true ↔ s.power.mode = 4 ∧ s.pair.synced = true ∧ s.swathSilent = false ∧ x < 4 ∧ s.deadline x ≤ s.tb0 ∧ ∀ a, s.cnt.applied.getD x none = some a → serialGe (a + 1) (s.cl x).cycle = false) ∧
  (∀ (t x : Nat) (s : State), (s.arrive t).ckptIsLate x = true → Does (.ckptLate t x) t s [.cache, .pair, .cnt, .power, .cyc, .gate, .sheaf, .log] fun u v =>
    v.cnt.ckptLate = inc32 u.cnt.ckptLate ∧ v.pair.synced = false ∧ v.power.mode = 3) ∧
  (∀ s : State, s.maySync = true ↔ s.power.mode = 3 ∧ s.pair.copyDone = true ∧ (∀ a, a ∈ s.cnt.applied → a ≠ none) ∧ s.time.twinDiff.natAbs ≤ 2560 ∧ s.pair.loopOk ≠ 0 ∧ s.pair.twinClaim = true ∧ s.time.tb0.st = 7) ∧
  (∀ (t : Nat) (s : State), (s.arrive t).maySync = true → Does (.synchronised t) t s [.cache, .pair, .power, .gate, .sheaf, .log] fun u v =>
    v.power.mode = 4 ∧ v.pair = { u.pair with synced := true, isolated := false, yielded := false, settleFrom := u.time.now, owner := false })

/-! ## Timed actions (05) -/

/-- R98, R102–R105, R107–R112, R114: the schedule queue from a call over dispatch and acknowledgement to its outcome.
The model's choices within: log 7, 84. -/
def Obligations.TimedActionsAreQueuedSentAndSettled : Prop :=
  (∀ e : Entry, e.id < 2 ^ 32 → e.handle < 2 ^ 24 → e.state < 256 → e.term < 2 ^ 32 → e.apply < 2 ^ 64 → e.dispatch < 1024 → e.cls < 4 → e.cycle < 2 ^ 30 →
    (entryBytes e).length = 32 ∧ parseEntry (entryBytes e) = e) ∧
  (∀ (s : State) (h : Nat) (x : Word) (apply : Nat) (asap : Bool) (built : Nat), built = (s.cyc.cls.getD (ruleClass (s.ruleOf h)) ClassSt.reset).heldApply →
    (s.timedPoint h = false → s.putRefusal h x apply asap = some 0x010B) ∧
    (s.timedPoint h = true → s.conf.outRaw (s.ruleOf h) x = none → s.putRefusal h x apply asap = some 0x010B) ∧
    (s.timedPoint h = true → s.conf.outRaw (s.ruleOf h) x ≠ none → (s.tb0 + 3600000000000 < apply → s.putRefusal h x apply asap = some 0x010B) ∧
      (apply ≤ s.tb0 + 3600000000000 → (apply ≤ built → s.putRefusal h x apply asap = some 0x010E) ∧
        (built < apply → (apply < s.tb0 + 1000 * s.leadUs → asap = false → s.putRefusal h x apply asap = some 0x010E) ∧
          (s.tb0 + 1000 * s.leadUs ≤ apply ∨ asap = true → s.putRefusal h x apply asap = if 65536 ≤ s.sched.used.length then some 0x0107 else none))))) ∧
  (∀ (t cls h : Nat) (x : Word) (apply : Nat) (asap : Bool) (s : State), (s.arrive t).pair.owner = true →
    (∀ st, (s.arrive t).putRefusal h x apply asap = some st → Does (.schedPut t cls h x apply asap) t s [.out, .sched] fun u v => v.out = u.out ++ [.call st []] ∧
      v.sched = { u.sched with tooLate := if st = 0x010E then inc32 u.sched.tooLate else u.sched.tooLate, capacity := if st = 0x0107 then inc32 u.sched.capacity else u.sched.capacity }) ∧
    ((s.arrive t).putRefusal h x apply asap = none → (s.arrive t).sched.used.Pairwise (· < ·) → Does (.schedPut t cls h x apply asap) t s [.cache, .mem, .out, .sched] fun u v =>
      ∃ id n, v.out = u.out ++ [.call 0 [id]] ∧ id ≠ 0 ∧ u.findEntry id = none ∧ n ∉ u.sched.used ∧ v.sched.used = insertRising n u.sched.used ∧ v.sched.nextId = (id + 1) % 2 ^ 32 ∧
        v.sched.peak = max u.sched.peak (u.sched.used.length + 1) ∧ v.sched.touched = touch n u.sched.touched ∧
        ∃ w : State, w.mem = memStore (entryBytes { id := id, handle := h, state := 1, value := x, term := 0, apply := apply, retried := false, cancelReq := false, asap := asap, dispatch := 0, cls := cls, cycle := (u.cyc.cls.getD cls ClassSt.reset).cycle }) (entryAddr n) u.mem ∧
          w.sched = v.sched ∧ v.mem = (w.showTimed h).mem)) ∧
  (∀ (n o stamp : Nat) (s v : State) (k : Nat), (o ≠ 5 → k = o) → (o = 5 → k = match s.sched.causes.find? (fun c => c.1 == (s.entry n).id) with | some c => c.2 | none => 5) → v = s.settle n o stamp →
    v.sched.used = s.sched.used.filter (· != n) ∧ v.sched.freed = s.sched.freed ++ [(s.entry n).id] ∧ v.sched.outcomes = setAt s.sched.outcomes k inc32 ∧
    v.sched.ring = (if 8192 ≤ s.sched.ring.length then s.sched.ring.drop 1 else s.sched.ring) ++ [((s.entry n).id, k, stamp)] ∧ v.sched.stations = s.sched.stations ∧ v.sched.frames = s.sched.frames ∧
    (k ≠ 8 → v.out = s.out ∧ v.fsp = s.fsp)) ∧
  (∀ (t id : Nat) (s : State), (s.arrive t).pair.owner = true →
    ((s.arrive t).findEntry id = none → exec (.schedCancel t id) s = .next ((s.arrive t).ret 0x0103 []) ∧
      ((∀ r, r ∈ (s.arrive t).sched.ring → r.1 ≠ id) → exec (.schedStatus t id) s = .next ((s.arrive t).ret 0x0103 [])) ∧
      (∀ r, (s.arrive t).sched.ring.reverse.find? (fun r => r.1 == id) = some r → exec (.schedStatus t id) s = .next ((s.arrive t).ret 0 [r.1, r.2.1, r.2.2]))) ∧
    (∀ n e, (s.arrive t).findEntry id = some n → e = (s.arrive t).entry n → exec (.schedStatus t id) s = .next ((s.arrive t).ret 0 [e.state]) ∧
      (e.state = 1 → Does (.schedCancel t id) t s [.cache, .mem, .out, .fsp, .sched, .log] fun u v => v.out = u.out ++ [.call 0 []] ∧ v.sched.used = u.sched.used.filter (· != n) ∧ v.sched.outcomes = setAt u.sched.outcomes 5 inc32) ∧
      (e.state = 4 → Does (.schedCancel t id) t s [.out, .sched] fun u v => v.out = u.out ++ [.call 0x0101 []] ∧ v.sched.used = u.sched.used ∧ v.sched.frames = u.sched.frames) ∧
      (e.state ≠ 1 → e.state ≠ 4 → (s.arrive t).lastDispatch e < (s.arrive t).tb0 → Does (.schedCancel t id) t s [.out, .sched] fun u v => v.out = u.out ++ [.call 0x010E []] ∧
        v.sched.used = u.sched.used ∧ v.sched.frames = u.sched.frames ∧ v.sched.tooLate = inc32 u.sched.tooLate) ∧
      (e.state ≠ 1 → e.state ≠ 4 → (s.arrive t).tb0 ≤ (s.arrive t).lastDispatch e → Does (.schedCancel t id) t s [.cache, .mem, .out, .fsp, .sched] fun u v => (∃ l, v.out = u.out ++ l ++ [.call 1 []]) ∧
        v.sched.used = u.sched.used ∧ ∃ f, v.sched.frames = u.sched.frames ++ [f] ∧ f.station = u.stationOf e ∧ f.ids = [e.id] ∧ f.cancel = true ∧ f.term = u.pair.term ∧ f.payload = u.schedItem e true false ∧
          ∃ w : State, w.mem = u.mem ∧ v.mem = (w.setEntry n { e with state := 4, cancelReq := true, dispatch := f.number }).mem))) ∧
  (∀ (s : State) (n : Nat), n ∈ s.due ↔ n ∈ s.sched.used ∧ (s.entry n).state = 1 ∧ (s.entry n).apply ≤ s.tb0 + 1000 * s.leadUs) ∧
  (∀ s : State, s.due.Pairwise fun a b => (s.entry a).apply ≤ (s.entry b).apply) ∧
  (∀ (t : Nat) (s : State), (s.arrive t).pair.owner = true → Does (.schedEvaluation t) t s [.cache, .mem, .out, .fsp, .sched, .log] fun u v =>
    ∀ r, r = u.due.foldl State.evalEntry (u, []) → v = r.1.sendAll false r.2) ∧
  (∀ (s : State) (l : List (Nat × Nat)) (n : Nat) (e : Entry) (a going : Nat), e = s.entry n → a = s.stationOf e → going = (l.filter fun p => p.1 == a).length → s.entryBad n = false →
    ((s.img e.handle).forced = true ∨ (s.img e.handle).simulated = true → State.evalEntry (s, l) n = (s.settle n 6 0, l)) ∧
    ((s.img e.handle).forced = false → (s.img e.handle).simulated = false →
      (s.lastDispatch e < s.tb0 → e.asap = false → State.evalEntry (s, l) n = (s.settle n 2 0, l)) ∧
      (s.tb0 ≤ s.lastDispatch e ∨ e.asap = true →
        (256 ≤ s.heldAt a + going ∨ (s.schedStation a).free ≤ s.inflightAt a + going → (State.evalEntry (s, l) n).2 = l ∧ (State.evalEntry (s, l) n).1 = if e.id ∈ s.sched.waited then s else
          s.upSched fun q => { q with waited := e.id :: q.waited, fullWaits := inc32 q.fullWaits }) ∧
        (s.heldAt a + going < 256 → s.inflightAt a + going < (s.schedStation a).free → State.evalEntry (s, l) n = (s, l ++ [(a, n)]))))) ∧
  (∀ (a : Nat) (re : Bool) (k : Nat) (ns : List Nat) (s : State) (f : SchedFrame), f ∈ (s.sendEntries a re k ns).sched.frames → f ∈ s.sched.frames ∨ (f.station = a ∧ f.term = s.pair.term ∧ f.ids.length ≤ 73 ∧ f.cancel = false)) ∧
  (∀ (t a no : Nat) (s u : State), u = s.arrive t → u.pair.owner = true → (u.sched.frames.find? (fun x => x.station == a && x.number == no) = none → exec (.schedRetryTimeout t a no) s = .next u) ∧
    (∀ f rest, u.sched.frames.find? (fun x => x.station == a && x.number == no) = some f → rest = u.sched.frames.filter (fun y => !(y.station == a && y.number == no)) →
      (u.time.now < f.sentAt + psTicks (u.rttPs a) → exec (.schedRetryTimeout t a no) s = .next u) ∧
      (f.sentAt + psTicks (u.rttPs a) ≤ u.time.now → f.retried = true ∨ (∃ l, f.latest = some l ∧ l < u.tb0) → exec (.schedRetryTimeout t a no) s = .next (u.upSched fun q => { q with frames := rest })) ∧
      (f.sentAt + psTicks (u.rttPs a) ≤ u.time.now → f.retried = false → (∀ l, f.latest = some l → u.tb0 ≤ l) → Does (.schedRetryTimeout t a no) t s [.cache, .mem, .out, .fsp, .sched] fun _ v =>
        v.sched.frames = rest ++ [{ f with retried := true, sentAt := u.time.now }] ∧ v.sched.used = u.sched.used))) ∧
  (∀ (t : Nat) (f : RxFrame) (s : State), (s.arrive t).hears f = true → exec (.schedAck t f) s = .next ((s.arrive t).receive 6 State.schedAck f) ∧ exec (.publish t f) s = .next ((s.arrive t).receive 7 State.publishReport f)) ∧
  (∀ (f : Fsp) (s : State), (s.versionKnown f = false → s.schedAck f = s.fspCount 7) ∧
    (s.versionKnown f = true → f.term ≠ s.pair.term → s.schedAck f = s.upCyc fun c => { c with unmatched := inc32 c.unmatched }) ∧
    (s.versionKnown f = true → f.term = s.pair.term → s.pair.owner = true →
      (s.sched.frames.find? (fun x => x.station == f.station && x.number == f.tag && x.term == f.term) = none → s.schedAck f = s.upCyc fun c => { c with unmatched := inc32 c.unmatched }) ∧
      (∀ x, s.sched.frames.find? (fun x => x.station == f.station && x.number == f.tag && x.term == f.term) = some x →
        (parseSchedAck f.payload = none → s.schedAck f = s.fspCount 15) ∧
        (∀ free items, parseSchedAck f.payload = some (free, items) → (items.map (fun i => i.1) ≠ x.ids → s.schedAck f = s.fspCount 15) ∧
          (items.map (fun i => i.1) = x.ids → ∃ w : State, (w.schedStation f.station).free = free ∧ w.sched.frames = s.sched.frames.filter (fun y => !(y.station == x.station && y.number == x.number)) ∧
            w.sched.used = s.sched.used ∧ w.mem = s.mem ∧ s.schedAck f = items.foldl (fun s i => s.ackItem f.station i) w))))) ∧
  (∀ (a id n : Nat) (s : State) (e : Entry), s.findEntry id = some n → e = s.entry n →
    (∀ r, r = 0 ∨ r = 1 → s.ackItem a (id, r) = if e.state = 4 then s else s.setEntry n { e with state := 3 }) ∧ s.ackItem a (id, 2) = s.setEntry n { e with state := 1 } ∧ s.ackItem a (id, 3) = s.settle n 3 0 ∧
    s.ackItem a (id, 4) = s.settle n 5 0 ∧ s.ackItem a (id, 5) = s ∧ s.ackItem a (id, 6) = s.settle n 4 0 ∧ s.ackItem a (id, 7) = s.settle n 4 0) ∧
  (∀ (f : Fsp) (s : State), (parsePublish f.payload = none → s.publishReport f = s.fspCount 15) ∧ ∀ items, parsePublish f.payload = some items → s.publishReport f = items.foldl (fun s i => s.report f.station i) s) ∧
  (∀ (a id outcome stamp : Nat) (s w : State), w = (s.upSched fun q => { q with heard := q.heard.filter fun h => h.1 != id }) →
    (∀ n, s.findEntry id = some n → (outcome = 0 → s.report a (id, outcome, stamp) = (w.upImg (s.entry n).handle fun g => ({ g with value := if g.forced then g.value else (s.entry n).value, age := 0 } : Img).withQuality 0).settle n 0 stamp) ∧
      (outcome ≠ 0 → s.report a (id, outcome, stamp) = w.settle n 1 0)) ∧
    (s.findEntry id = none → (outcome = 0 → s.pair.owner = true → (s.report a (id, outcome, stamp)).sched.outcomes = setAt s.sched.outcomes 9 inc32 ∧ (s.report a (id, outcome, stamp)).sched.used = s.sched.used ∧
      ∀ h, h < 0x600000 → (s.report a (id, outcome, stamp)).image h = s.image h) ∧ (outcome ≠ 0 → s.report a (id, outcome, stamp) = w))) ∧
  (∀ (t id : Nat) (s u : State), u = s.arrive t → u.pair.owner = true → (u.findEntry id = none → exec (.reportDeadlineExpiry t id) s = .next u) ∧
    (∀ n, u.findEntry id = some n → (2 ≤ (u.entry n).state → u.reportDeadline (u.entry n) ≤ u.tb0 → exec (.reportDeadlineExpiry t id) s = .next (u.settle n 8 0)) ∧
      ((u.entry n).state < 2 ∨ u.tb0 < u.reportDeadline (u.entry n) → exec (.reportDeadlineExpiry t id) s = .next u))) ∧
  (∀ (t id n : Nat) (s : State), (s.arrive t).pair.owner = true → (s.arrive t).findEntry id = some n → 2 ≤ ((s.arrive t).entry n).state → (s.arrive t).reportDeadline ((s.arrive t).entry n) ≤ (s.arrive t).tb0 →
    Does (.reportDeadlineExpiry t id) t s [.cache, .mem, .out, .fsp, .sched, .log] fun u v => v.sched.used = u.sched.used.filter (· != n) ∧ v.sched.outcomes = setAt u.sched.outcomes 8 inc32 ∧
      ∀ h, h = (u.entry n).handle → h < 0x600000 → (∀ k, k ≠ h → k < 0x600000 → v.image k = u.image k) ∧ (Memory.wf u.mem = true → (v.img h).value = (u.img h).value ∧ (v.img h).quality = (u.img h).quality))

/-! ## Received frames (04) -/

/-- R68–R73, R86, R89–R91: the ordered checks of a received frame, elimination on rings, FENCED, other EtherTypes, and an idle stream.
The model's choices within: log 35. -/
def Obligations.ReceivedFramesAreCheckedInOrder : Prop :=
  (∀ (x : RxFrame) (s : State) (b : List Byte) (n : Nat) (f : Fsp), b = x.bytes → n = field (slice b 18 24) 16 2 → f = parseFsp x →
    (frameTagged b = false ∨ bits (beNat (slice b 14 2)) 0 12 ≠ s.conf.map.vid → s.checkFrame x = (s.fspCount 0, none)) ∧
    (frameTagged b = true → bits (beNat (slice b 14 2)) 0 12 = s.conf.map.vid →
      (b.length < n + 50 ∨ 1472 < n ∨ (b.length ≠ n + 50 ∧ b.length ≠ 64) → s.checkFrame x = (s.fspCount 1, none)) ∧
      (n ≤ 1472 → b.length = n + 50 ∨ (n + 50 ≤ 64 ∧ b.length = 64) →
        ((crc32c (slice b 18 (24 + n))).toNat ≠ field b (42 + n) 4 → s.checkFrame x = (s.fspCount 2, none)) ∧
        ((crc32c (slice b 18 (24 + n))).toNat = field b (42 + n) 4 →
          (f.version ≠ 1 → s.checkFrame x = (s.fspCount 3, none)) ∧
          (f.version = 1 → f.kind ∉ [2, 4, 6, 7, 8, 9, 10] → s.checkFrame x = (s.fspCount 4, none)) ∧
          (f.version = 1 → f.kind ∈ [2, 4, 6, 7, 8, 9, 10] → f.spare = false → s.checkFrame x = (s.fspCount 5, none)) ∧
          (f.version = 1 → f.kind ∈ [2, 4, 6, 7, 8, 9, 10] → f.spare = true → ((s.eliminate f).2 = false → s.checkFrame x = ((s.eliminate f).1, none)) ∧
            ((s.eliminate f).2 = true → ∀ u, u = (s.eliminate f).1 →
              ((f.kind = 8 ∧ u.peerOf (field f.payload 0 4) = none) ∨ (f.kind ≠ 8 ∧ u.station f.station = none) → s.checkFrame x = (u.unknownStation f, none)) ∧
              ((f.kind = 8 → u.peerOf (field f.payload 0 4) ≠ none) → (f.kind ≠ 8 → u.station f.station ≠ none) →
                (bit f.flags 1 = true → s.checkFrame x = (u.fenced f, none)) ∧ (bit f.flags 1 = false → s.checkFrame x = (u, some f))))))))) ∧
  (∀ (kind : Nat) (k : Fsp → State → State) (x : RxFrame) (s u : State) (f : Fsp), (s.checkFrame x = (u, none) → s.receive kind k x = u) ∧
    (s.checkFrame x = (u, some f) → s.receive kind k x = if f.kind = kind then k f u else u)) ∧
  (∀ (f : Fsp) (s : State), (bit f.flags 2 = false → s.eliminate f = (s, true)) ∧
    (bit f.flags 2 = true → ∀ r, r = recover (s.fsp.streams.find? (StreamSt.is (f.port / 2) f.source f.dest)) (f.port / 2) f.source f.dest f.seq s.time.now →
      (s.eliminate f).2 = r.2 ∧ (s.eliminate f).1.fsp.streams = r.1 :: s.fsp.streams.filter (fun x => !x.is (f.port / 2) f.source f.dest) ∧
      (s.eliminate f).1.fsp.counters = (if r.2 = true then s.fsp.counters else setAt s.fsp.counters 11 inc32))) ∧
  (∀ (ring source dest seq now : Nat) (x : StreamSt), recover none ring source dest seq now = ({ ring := ring, source := source, dest := dest, last := seq, hist := 1, lastAt := now }, true) ∧
    (seq < 65536 → x.last < 65536 →
      (∀ d, 1 ≤ d → d < 32 → seq = (x.last + d) % 65536 → recover (some x) ring source dest seq now = ({ x with last := seq, hist := (x.hist * 2 ^ d + 1) % 2 ^ 32, lastAt := now }, true)) ∧
      (seq = x.last → recover (some x) ring source dest seq now = ({ x with lastAt := now }, false)) ∧
      (∀ d, 1 ≤ d → d < 32 → x.last = (seq + d) % 65536 → recover (some x) ring source dest seq now =
        if bit x.hist d = true then ({ x with lastAt := now }, false) else ({ x with hist := setBits x.hist d 1 1, lastAt := now }, true)) ∧
      (32 ≤ (seq + 65536 - x.last) % 65536 → 32 ≤ (x.last + 65536 - seq) % 65536 → recover (some x) ring source dest seq now = ({ x with lastAt := now }, false)))) ∧
  (∀ (f : Fsp) (s : State), (s.pair.owner = true → serialAfter f.term s.pair.term = true → (s.fenced f).power.mode = 7 ∧ (s.fenced f).power.reason = 5 ∧ (s.fenced f).pair.owner = false ∧ (s.fenced f).cnt.fencedExits = inc32 s.cnt.fencedExits) ∧
    (s.pair.owner = false ∨ serialAfter f.term s.pair.term = false → s.fenced f = (s.fspCount 9).hearTerm f.term)) ∧
  (∀ (t : Nat) (f : RxFrame) (s u : State), u = s.arrive t → u.awake = true → u.boot.coresOff = false → u.linkUp f.port = true → frameType f.bytes ≠ u.conf.map.ethertype → frameType f.bytes ≠ 0x88F7 →
    Does (.foreignFrame t f) t s [.fsp] fun u v => v.fsp = { u.fsp with counters := setAt u.fsp.counters 16 inc32 }) ∧
  (∀ (t port source dest : Nat) (s : State), (s.arrive t).awake = true → Does (.recoveryReset t port source dest) t s [.fsp] fun u v =>
    v.fsp.counters = u.fsp.counters ∧ ∀ x, x ∈ v.fsp.streams ↔ x ∈ u.fsp.streams ∧ (x.ring = port → x.source = source → x.dest = dest → u.time.now < x.lastAt + 2500000))
end

