-- ==== Sys2Proof/Laws/Dispatch.lean ====
section
/-! SUPPORT. The meaning that each command runs. -/

set_option Elab.async false
set_option linter.all false

namespace Sys2Proof.Machine

variable (s : State)

theorem exec_identify (t : Nat) (r : Req) : exec (.identify t r) s = execIdentify t r s := rfl
theorem exec_sessionOpen (t : Nat) (r : Req) : exec (.sessionOpen t r) s = execSessionOpen t r s := rfl
theorem exec_sessionClose (t : Nat) (r : Req) : exec (.sessionClose t r) s = execSessionClose t r s := rfl
theorem exec_jobStatus (t : Nat) (r : Req) : exec (.jobStatus t r) s = execJobStatus t r s := rfl
theorem exec_modeGet (t : Nat) (r : Req) : exec (.modeGet t r) s = execModeGet t r s := rfl
theorem exec_modeRequest (t : Nat) (r : Req) : exec (.modeRequest t r) s = execModeRequest t r s := rfl
theorem exec_pairStatus (t : Nat) (r : Req) : exec (.pairStatus t r) s = execPairStatus t r s := rfl
theorem exec_pairHandover (t : Nat) (r : Req) : exec (.pairHandover t r) s = execPairHandover t r s := rfl
theorem exec_paramRead (t : Nat) (r : Req) : exec (.paramRead t r) s = execParamRead t r s := rfl
theorem exec_paramWrite (t : Nat) (r : Req) : exec (.paramWrite t r) s = execParamWrite t r s := rfl
theorem exec_pointRead (t : Nat) (r : Req) : exec (.pointRead t r) s = execPointRead t r s := rfl
theorem exec_pointForce (t : Nat) (r : Req) : exec (.pointForce t r) s = execPointForce t r s := rfl
theorem exec_pointRelease (t : Nat) (r : Req) : exec (.pointRelease t r) s = execPointRelease t r s := rfl
theorem exec_pointBrowse (t : Nat) (r : Req) : exec (.pointBrowse t r) s = execPointBrowse t r s := rfl
theorem exec_cfgStage (t : Nat) (r : Req) : exec (.cfgStage t r) s = execCfgStage t r s := rfl
theorem exec_cfgStageJobEnd (t : Nat) : exec (.cfgStageJobEnd t) s = execCfgStageJobEnd t s := rfl
theorem exec_cfgCheck (t : Nat) (r : Req) : exec (.cfgCheck t r) s = execCfgCheck t r s := rfl
theorem exec_cfgCheckJobEnd (t : Nat) : exec (.cfgCheckJobEnd t) s = execCfgCheckJobEnd t s := rfl
theorem exec_cfgFlip (t : Nat) (r : Req) : exec (.cfgFlip t r) s = execCfgFlip t r s := rfl
theorem exec_cfgRevert (t : Nat) (r : Req) : exec (.cfgRevert t r) s = execCfgRevert t r s := rfl
theorem exec_cfgList (t : Nat) (r : Req) : exec (.cfgList t r) s = execCfgList t r s := rfl
theorem exec_sheafLoad (t : Nat) (r : Req) : exec (.sheafLoad t r) s = execSheafLoad t r s := rfl
theorem exec_sheafVerify (t : Nat) (r : Req) : exec (.sheafVerify t r) s = execSheafVerify t r s := rfl
theorem exec_sheafVerifyJobEnd (t : Nat) : exec (.sheafVerifyJobEnd t) s = execSheafVerifyJobEnd t s := rfl
theorem exec_sheafActivate (t : Nat) (r : Req) : exec (.sheafActivate t r) s = execSheafActivate t r s := rfl
theorem exec_sheafConfirm (t : Nat) (r : Req) : exec (.sheafConfirm t r) s = execSheafConfirm t r s := rfl
theorem exec_sheafStatus (t : Nat) (r : Req) : exec (.sheafStatus t r) s = execSheafStatus t r s := rfl
theorem exec_sheafAbandon (t : Nat) (r : Req) : exec (.sheafAbandon t r) s = execSheafAbandon t r s := rfl
theorem exec_timeStatus (t : Nat) (r : Req) : exec (.timeStatus t r) s = execTimeStatus t r s := rfl
theorem exec_timeStep (t : Nat) (r : Req) : exec (.timeStep t r) s = execTimeStep t r s := rfl
theorem exec_recOpen (t : Nat) (r : Req) : exec (.recOpen t r) s = execRecOpen t r s := rfl
theorem exec_recRead (t : Nat) (r : Req) : exec (.recRead t r) s = execRecRead t r s := rfl
theorem exec_recClose (t : Nat) (r : Req) : exec (.recClose t r) s = execRecClose t r s := rfl
theorem exec_recMark (t : Nat) (r : Req) : exec (.recMark t r) s = execRecMark t r s := rfl
theorem exec_memTest (t : Nat) (r : Req) : exec (.memTest t r) s = execMemTest t r s := rfl
theorem exec_memTestJobEnd (t : Nat) (tested faults addr bit : Nat) : exec (.memTestJobEnd t tested faults addr bit) s = execMemTestJobEnd t tested faults addr bit s := rfl
theorem exec_displayText (t : Nat) (r : Req) : exec (.displayText t r) s = execDisplayText t r s := rfl
theorem exec_displayRefresh (t : Nat) (r : Req) : exec (.displayRefresh t r) s = execDisplayRefresh t r s := rfl
theorem exec_ownerLock (t : Nat) (r : Req) : exec (.ownerLock t r) s = execOwnerLock t r s := rfl
theorem exec_ownerUnlock (t : Nat) (r : Req) : exec (.ownerUnlock t r) s = execOwnerUnlock t r s := rfl
theorem exec_lifecycleAdvance (t : Nat) (r : Req) : exec (.lifecycleAdvance t r) s = execLifecycleAdvance t r s := rfl
theorem exec_lifecycleJobEnd (t : Nat) : exec (.lifecycleJobEnd t) s = execLifecycleJobEnd t s := rfl
theorem exec_diagRead (t : Nat) (r : Req) : exec (.diagRead t r) s = execDiagRead t r s := rfl
theorem exec_continuation (t : Nat) (code : Nat) (r : Req) : exec (.continuation t code r) s = execContinuation t code r s := rfl
theorem exec_post (t : Nat) (mb len : Nat) : exec (.post t mb len) s = execPost t mb len s := rfl
theorem exec_doneClear (t : Nat) (mb : Nat) : exec (.doneClear t mb) s = execDoneClear t mb s := rfl
theorem exec_tlsHandshake (t : Nat) (verified : Bool) (fingerprint : List Byte) : exec (.tlsHandshake t verified fingerprint) s = execTlsHandshake t verified fingerprint s := rfl
theorem exec_handshakeTimeout (t : Nat) : exec (.handshakeTimeout t) s = execHandshakeTimeout t s := rfl
theorem exec_connectionClosed (t : Nat) (mb : Nat) : exec (.connectionClosed t mb) s = execConnectionClosed t mb s := rfl
theorem exec_sessionIdleTimeout (t : Nat) (mb : Nat) : exec (.sessionIdleTimeout t mb) s = execSessionIdleTimeout t mb s := rfl
theorem exec_cursorExpiry (t : Nat) (mb : Nat) : exec (.cursorExpiry t mb) s = execCursorExpiry t mb s := rfl
theorem exec_jobExpiry (t : Nat) (job : Nat) : exec (.jobExpiry t job) s = execJobExpiry t job s := rfl
theorem exec_mb14Timeout (t : Nat) (id : Nat) : exec (.mb14Timeout t id) s = execMb14Timeout t id s := rfl
theorem exec_pointsClrCounters (t : Nat) (h : Hdr) : exec (.pointsClrCounters t h) s = execPointsClrCounters t h s := rfl
theorem exec_cycleClrCounters (t : Nat) (h : Hdr) : exec (.cycleClrCounters t h) s = execCycleClrCounters t h s := rfl
theorem exec_schedClrCounters (t : Nat) (h : Hdr) : exec (.schedClrCounters t h) s = execSchedClrCounters t h s := rfl
theorem exec_timeClrCounters (t : Nat) (h : Hdr) : exec (.timeClrCounters t h) s = execTimeClrCounters t h s := rfl
theorem exec_pairClrCounters (t : Nat) (h : Hdr) : exec (.pairClrCounters t h) s = execPairClrCounters t h s := rfl
theorem exec_powerClrCounters (t : Nat) (h : Hdr) : exec (.powerClrCounters t h) s = execPowerClrCounters t h s := rfl
theorem exec_lockClrCounters (t : Nat) (h : Hdr) : exec (.lockClrCounters t h) s = execLockClrCounters t h s := rfl
theorem exec_reenable (t : Nat) (h : Hdr) (mask : Nat) : exec (.reenable t h mask) s = execReenable t h mask s := rfl
theorem exec_memClrCounters (t : Nat) (h : Hdr) : exec (.memClrCounters t h) s = execMemClrCounters t h s := rfl
theorem exec_keyCtrlSetWindowBase (t : Nat) (h : Hdr) (base : Nat) : exec (.keyCtrlSetWindowBase t h base) s = execKeyCtrlSetWindowBase t h base s := rfl
theorem exec_keyCtrlCommit (t : Nat) (h : Hdr) : exec (.keyCtrlCommit t h) s = execKeyCtrlCommit t h s := rfl
theorem exec_keyCtrlDiscardStaging (t : Nat) (h : Hdr) : exec (.keyCtrlDiscardStaging t h) s = execKeyCtrlDiscardStaging t h s := rfl
theorem exec_keyWindow (t : Nat) (h : Hdr) (first : Nat) (words : List Word) : exec (.keyWindow t h first words) s = execKeyWindow t h first words s := rfl
theorem exec_gateClrCounters (t : Nat) (h : Hdr) : exec (.gateClrCounters t h) s = execGateClrCounters t h s := rfl
theorem exec_debugOpen (t : Nat) (h : Hdr) : exec (.debugOpen t h) s = execDebugOpen t h s := rfl
theorem exec_debugClose (t : Nat) (h : Hdr) : exec (.debugClose t h) s = execDebugClose t h s := rfl
theorem exec_sheafClrCounters (t : Nat) (h : Hdr) : exec (.sheafClrCounters t h) s = execSheafClrCounters t h s := rfl
theorem exec_dioClrCounters (t : Nat) (h : Hdr) : exec (.dioClrCounters t h) s = execDioClrCounters t h s := rfl
theorem exec_uaClrCounters (t : Nat) (h : Hdr) : exec (.uaClrCounters t h) s = execUaClrCounters t h s := rfl
theorem exec_recoverCan (t : Nat) (h : Hdr) (ch : Nat) : exec (.recoverCan t h ch) s = execRecoverCan t h ch s := rfl
theorem exec_canClrCounters (t : Nat) (h : Hdr) : exec (.canClrCounters t h) s = execCanClrCounters t h s := rfl
theorem exec_recClrCounters (t : Nat) (h : Hdr) : exec (.recClrCounters t h) s = execRecClrCounters t h s := rfl
theorem exec_dispClrCounters (t : Nat) (h : Hdr) : exec (.dispClrCounters t h) s = execDispClrCounters t h s := rfl
theorem exec_gateCommit (t : Nat) : exec (.gateCommit t) s = execGateCommit t s := rfl
theorem exec_commitDrainDone (t : Nat) : exec (.commitDrainDone t) s = execCommitDrainDone t s := rfl
theorem exec_fabricAccess (t : Nat) (a : Access) : exec (.fabricAccess t a) s = execFabricAccess t a s := rfl
theorem exec_debugReadWords (t : Nat) (addr count : Nat) (crcOk : Bool) : exec (.debugReadWords t addr count crcOk) s = execDebugReadWords t addr count crcOk s := rfl
theorem exec_debugWriteWords (t : Nat) (addr : Nat) (words : List Word) (crcOk : Bool) : exec (.debugWriteWords t addr words crcOk) s = execDebugWriteWords t addr words crcOk s := rfl
theorem exec_debugHaltCorePair (t : Nat) (pair : Nat) (crcOk : Bool) : exec (.debugHaltCorePair t pair crcOk) s = execDebugHaltCorePair t pair crcOk s := rfl
theorem exec_debugResumeCorePair (t : Nat) (pair : Nat) (crcOk : Bool) : exec (.debugResumeCorePair t pair crcOk) s = execDebugResumeCorePair t pair crcOk s := rfl
theorem exec_dbgRstN (t : Nat) (low : Bool) : exec (.dbgRstN t low) s = execDbgRstN t low s := rfl
theorem exec_watchdogService (t : Nat) : exec (.watchdogService t) s = execWatchdogService t s := rfl
theorem exec_watchdogExpiry (t : Nat) : exec (.watchdogExpiry t) s = execWatchdogExpiry t s := rfl
theorem exec_pllLossOfLock (t : Nat) : exec (.pllLossOfLock t) s = execPllLossOfLock t s := rfl
theorem exec_clockCheckWindow (t : Nat) (stwCycles : Nat) : exec (.clockCheckWindow t stwCycles) s = execClockCheckWindow t stwCycles s := rfl
theorem exec_tamper (t : Nat) (k : Tamper) : exec (.tamper t k) s = execTamper t k s := rfl
theorem exec_powerGood (t : Nat) (mv : Nat) : exec (.powerGood t mv) s = execPowerGood t mv s := rfl
theorem exec_dip (t : Nat) (mv : Nat) : exec (.dip t mv) s = execDip t mv s := rfl
theorem exec_rideThroughEnd (t : Nat) (mv : Nat) : exec (.rideThroughEnd t mv) s = execRideThroughEnd t mv s := rfl
theorem exec_auxGoodChange (t : Nat) (rising : Bool) (mv : Nat) : exec (.auxGoodChange t rising mv) s = execAuxGoodChange t rising mv s := rfl
theorem exec_overTemperature (t : Nat) (tenths : Int) : exec (.overTemperature t tenths) s = execOverTemperature t tenths s := rfl
theorem exec_lingCellLow (t : Nat) (mv : Nat) : exec (.lingCellLow t mv) s = execLingCellLow t mv s := rfl
theorem exec_presentNBreak (t : Nat) : exec (.presentNBreak t) s = execPresentNBreak t s := rfl
theorem exec_ejectNOpen (t : Nat) : exec (.ejectNOpen t) s = execEjectNOpen t s := rfl
theorem exec_ejectNClose (t : Nat) : exec (.ejectNClose t) s = execEjectNClose t s := rfl
theorem exec_safeNAssert (t : Nat) : exec (.safeNAssert t) s = execSafeNAssert t s := rfl
theorem exec_safeNRelease (t : Nat) : exec (.safeNRelease t) s = execSafeNRelease t s := rfl
theorem exec_peerPresentNChange (t : Nat) (present : Bool) : exec (.peerPresentNChange t present) s = execPeerPresentNChange t present s := rfl
theorem exec_wakeEvent (t : Nat) (holdupMj : Nat) : exec (.wakeEvent t holdupMj) s = execWakeEvent t holdupMj s := rfl
theorem exec_wakeDelayExpiry (t : Nat) (holdupMj : Nat) : exec (.wakeDelayExpiry t holdupMj) s = execWakeDelayExpiry t holdupMj s := rfl
theorem exec_bootStepEnd (t : Nat) (step : BootStep) : exec (.bootStepEnd t step) s = execBootStepEnd t step s := rfl
theorem exec_bootEnd (t : Nat) : exec (.bootEnd t) s = execBootEnd t s := rfl
theorem exec_startWaitExpiry (t : Nat) : exec (.startWaitExpiry t) s = execStartWaitExpiry t s := rfl
theorem exec_termWindowEnd (t : Nat) : exec (.termWindowEnd t) s = execTermWindowEnd t s := rfl
theorem exec_retireStart (t : Nat) : exec (.retireStart t) s = execRetireStart t s := rfl
theorem exec_retireSwitchOff (t : Nat) : exec (.retireSwitchOff t) s = execRetireSwitchOff t s := rfl
theorem exec_retireCommitWrites (t : Nat) : exec (.retireCommitWrites t) s = execRetireCommitWrites t s := rfl
theorem exec_retireImage (t : Nat) (holdupMj : Nat) : exec (.retireImage t holdupMj) s = execRetireImage t holdupMj s := rfl
theorem exec_retireEnd (t : Nat) : exec (.retireEnd t) s = execRetireEnd t s := rfl
theorem exec_holdupMeasurement (t : Nat) (fullMj nowMj : Nat) : exec (.holdupMeasurement t fullMj nowMj) s = execHoldupMeasurement t fullMj nowMj s := rfl
theorem exec_tb3Save (t : Nat) : exec (.tb3Save t) s = execTb3Save t s := rfl
theorem exec_twinClaimBegin (t : Nat) (malformed : Bool) : exec (.twinClaimBegin t malformed) s = execTwinClaimBegin t malformed s := rfl
theorem exec_twinClaimAbsent (t : Nat) (malformed : Bool) : exec (.twinClaimAbsent t malformed) s = execTwinClaimAbsent t malformed s := rfl
theorem exec_releasePattern (t : Nat) (malformed : Bool) : exec (.releasePattern t malformed) s = execReleasePattern t malformed s := rfl
theorem exec_claimConfirmed (t : Nat) : exec (.claimConfirmed t) s = execClaimConfirmed t s := rfl
theorem exec_ownClaimLost (t : Nat) : exec (.ownClaimLost t) s = execOwnClaimLost t s := rfl
theorem exec_laneDown (t : Nat) (lane : Nat) : exec (.laneDown t lane) s = execLaneDown t lane s := rfl
theorem exec_laneStartUp (t : Nat) (lane : Nat) (proto min slotId : Nat) : exec (.laneStartUp t lane proto min slotId) s = execLaneStartUp t lane proto min slotId s := rfl
theorem exec_swathBlockReceived (t : Nat) (lane : Nat) (crcOk : Bool) : exec (.swathBlockReceived t lane crcOk) s = execSwathBlockReceived t lane crcOk s := rfl
theorem exec_yield (t : Nat) (term : Nat) : exec (.yield t term) s = execYield t term s := rfl
theorem exec_claimReport (t : Nat) (seesClaim ownReadback : Bool) : exec (.claimReport t seesClaim ownReadback) s = execClaimReport t seesClaim ownReadback s := rfl
theorem exec_yieldClaimStillPresent (t : Nat) : exec (.yieldClaimStillPresent t) s = execYieldClaimStillPresent t s := rfl
theorem exec_twinReportTimeout (t : Nat) : exec (.twinReportTimeout t) s = execTwinReportTimeout t s := rfl
theorem exec_timeMarker (t : Nat) (m : Marker) : exec (.timeMarker t m) s = execTimeMarker t m s := rfl
theorem exec_checkpointReceived (t : Nat) (c : Ckpt) : exec (.checkpointReceived t c) s = execCheckpointReceived t c s := rfl
theorem exec_checkpointAck (t : Nat) (cls seq : Nat) (gaps : List Nat) : exec (.checkpointAck t cls seq gaps) s = execCheckpointAck t cls seq gaps s := rfl
theorem exec_ckptLate (t : Nat) (cls : Nat) : exec (.ckptLate t cls) s = execCkptLate t cls s := rfl
theorem exec_synchronised (t : Nat) : exec (.synchronised t) s = execSynchronised t s := rfl
theorem exec_syncingCopyBlock (t : Nat) (b : CopyBlock) : exec (.syncingCopyBlock t b) s = execSyncingCopyBlock t b s := rfl
theorem exec_takeover (t : Nat) : exec (.takeover t) s = execTakeover t s := rfl
theorem exec_isolated (t : Nat) : exec (.isolated t) s = execIsolated t s := rfl
theorem exec_handoverArmCheck (t : Nat) : exec (.handoverArmCheck t) s = execHandoverArmCheck t s := rfl
theorem exec_handover (t : Nat) : exec (.handover t) s = execHandover t s := rfl
theorem exec_handoverStandbyEntry (t : Nat) : exec (.handoverStandbyEntry t) s = execHandoverStandbyEntry t s := rfl
theorem exec_homeSettleExpiry (t : Nat) : exec (.homeSettleExpiry t) s = execHomeSettleExpiry t s := rfl
theorem exec_provePeriodExpiry (t : Nat) : exec (.provePeriodExpiry t) s = execProvePeriodExpiry t s := rfl
theorem exec_proveDwellExpiry (t : Nat) : exec (.proveDwellExpiry t) s = execProveDwellExpiry t s := rfl
theorem exec_swathLoopback (t : Nat) (lane : Nat) (passed : Bool) : exec (.swathLoopback t lane passed) s = execSwathLoopback t lane passed s := rfl
theorem exec_fieldReadback (t : Nat) (agrees : Bool) : exec (.fieldReadback t agrees) s = execFieldReadback t agrees s := rfl
theorem exec_unprovenTick (t : Nat) : exec (.unprovenTick t) s = execUnprovenTick t s := rfl
theorem exec_cycleStart (t : Nat) (cls : Nat) : exec (.cycleStart t cls) s = execCycleStart t cls s := rfl
theorem exec_readRetryTimeout (t : Nat) (tag : Nat) : exec (.readRetryTimeout t tag) s = execReadRetryTimeout t tag s := rfl
theorem exec_readRsp (t : Nat) (f : RxFrame) : exec (.readRsp t f) s = execReadRsp t f s := rfl
theorem exec_localCompletion (t : Nat) (offset : Nat) (status : Nat) (item : List Word) : exec (.localCompletion t offset status item) s = execLocalCompletion t offset status item s := rfl
theorem exec_publication (t : Nat) (cls : Nat) : exec (.publication t cls) s = execPublication t cls s := rfl
theorem exec_taskEnd (t : Nat) (cls : Nat) (foldDiffers : Option Nat) (dirtyPages : List Nat) : exec (.taskEnd t cls foldDiffers dirtyPages) s = execTaskEnd t cls foldDiffers dirtyPages s := rfl
theorem exec_outputCutoff (t : Nat) (cls : Nat) : exec (.outputCutoff t cls) s = execOutputCutoff t cls s := rfl
theorem exec_writeRetryTimeout (t : Nat) (tag : Nat) : exec (.writeRetryTimeout t tag) s = execWriteRetryTimeout t tag s := rfl
theorem exec_writeAck (t : Nat) (f : RxFrame) : exec (.writeAck t f) s = execWriteAck t f s := rfl
theorem exec_peer (t : Nat) (f : RxFrame) : exec (.peer t f) s = execPeer t f s := rfl
theorem exec_foreignFrame (t : Nat) (f : RxFrame) : exec (.foreignFrame t f) s = execForeignFrame t f s := rfl
theorem exec_bindRetryTimeout (t : Nat) (station : Nat) : exec (.bindRetryTimeout t station) s = execBindRetryTimeout t station s := rfl
theorem exec_announceBound (t : Nat) (f : RxFrame) : exec (.announceBound t f) s = execAnnounceBound t f s := rfl
theorem exec_announceStart (t : Nat) (f : RxFrame) : exec (.announceStart t f) s = execAnnounceStart t f s := rfl
theorem exec_diagResponse (t : Nat) (f : RxFrame) : exec (.diagResponse t f) s = execDiagResponse t f s := rfl
theorem exec_diagTimeout (t : Nat) (station : Nat) : exec (.diagTimeout t station) s = execDiagTimeout t station s := rfl
theorem exec_schedPut (t : Nat) (cls handle : Nat) (value : Word) (apply : Nat) (asap : Bool) : exec (.schedPut t cls handle value apply asap) s = execSchedPut t cls handle value apply asap s := rfl
theorem exec_schedCancel (t : Nat) (id : Nat) : exec (.schedCancel t id) s = execSchedCancel t id s := rfl
theorem exec_schedStatus (t : Nat) (id : Nat) : exec (.schedStatus t id) s = execSchedStatus t id s := rfl
theorem exec_schedEvaluation (t : Nat) : exec (.schedEvaluation t) s = execSchedEvaluation t s := rfl
theorem exec_schedRetryTimeout (t : Nat) (station dispatch : Nat) : exec (.schedRetryTimeout t station dispatch) s = execSchedRetryTimeout t station dispatch s := rfl
theorem exec_schedAck (t : Nat) (f : RxFrame) : exec (.schedAck t f) s = execSchedAck t f s := rfl
theorem exec_publish (t : Nat) (f : RxFrame) : exec (.publish t f) s = execPublish t f s := rfl
theorem exec_reportDeadlineExpiry (t : Nat) (id : Nat) : exec (.reportDeadlineExpiry t id) s = execReportDeadlineExpiry t id s := rfl
theorem exec_pointWrite (t : Nat) (handle : Nat) (value : Word) : exec (.pointWrite t handle value) s = execPointWrite t handle value s := rfl
theorem exec_pointReadCall (t : Nat) (handle : Nat) : exec (.pointReadCall t handle) s = execPointReadCall t handle s := rfl
theorem exec_epochRead (t : Nat) (ownCls cls : Nat) (handles : List Nat) : exec (.epochRead t ownCls cls handles) s = execEpochRead t ownCls cls handles s := rfl
theorem exec_stampBlockRead (t : Nat) (handle : Nat) : exec (.stampBlockRead t handle) s = execStampBlockRead t handle s := rfl
theorem exec_timeNow (t : Nat) (base : Nat) : exec (.timeNow t base) s = execTimeNow t base s := rfl
theorem exec_sync (t : Nat) (m : SyncMsg) : exec (.sync t m) s = execSync t m s := rfl
theorem exec_syncReceiptTimeout (t : Nat) (base : Nat) : exec (.syncReceiptTimeout t base) s = execSyncReceiptTimeout t base s := rfl
theorem exec_announceReceiptTimeout (t : Nat) (base : Nat) : exec (.announceReceiptTimeout t base) s = execAnnounceReceiptTimeout t base s := rfl
theorem exec_gptpAnnounce (t : Nat) (m : AnnounceMsg) : exec (.gptpAnnounce t m) s = execGptpAnnounce t m s := rfl
theorem exec_pdelayExchange (t : Nat) (port : Nat) (e : PdelayEvent) : exec (.pdelayExchange t port e) s = execPdelayExchange t port e s := rfl
theorem exec_gptpIntervalTimer (t : Nat) (kind port domain : Nat) : exec (.gptpIntervalTimer t kind port domain) s = execGptpIntervalTimer t kind port domain s := rfl
theorem exec_triggerFire (t : Nat) (slot : Nat) : exec (.triggerFire t slot) s = execTriggerFire t slot s := rfl
theorem exec_ppsOutPulse (t : Nat) : exec (.ppsOutPulse t) s = execPpsOutPulse t s := rfl
theorem exec_ppsInEdge (t : Nat) (rising : Bool) : exec (.ppsInEdge t rising) s = execPpsInEdge t rising s := rfl
theorem exec_dio15Edge (t : Nat) (rising : Bool) : exec (.dio15Edge t rising) s = execDio15Edge t rising s := rfl
theorem exec_gateControlInterval (t : Nat) (port : Nat) : exec (.gateControlInterval t port) s = execGateControlInterval t port s := rfl
theorem exec_lockstepFault (t : Nat) (cp : Nat) (f : LockFinding) (group : Nat) : exec (.lockstepFault t cp f group) s = execLockstepFault t cp f group s := rfl
theorem exec_comparatorSelfTest (t : Nat) (failed : Option Nat) : exec (.comparatorSelfTest t failed) s = execComparatorSelfTest t failed s := rfl
theorem exec_lockstepDiagnosisEnd (t : Nat) (cp : Nat) (retestOk scanOk lbistOk cacheError : Bool) : exec (.lockstepDiagnosisEnd t cp retestOk scanOk lbistOk cacheError) s = execLockstepDiagnosisEnd t cp retestOk scanOk lbistOk cacheError s := rfl
theorem exec_lbistStart (t : Nat) : exec (.lbistStart t) s = execLbistStart t s := rfl
theorem exec_lbistComplete (t : Nat) (passed : Bool) : exec (.lbistComplete t passed) s = execLbistComplete t passed s := rfl
theorem exec_flipArmCheck (t : Nat) : exec (.flipArmCheck t) s = execFlipArmCheck t s := rfl
theorem exec_flipGo (t : Nat) : exec (.flipGo t) s = execFlipGo t s := rfl
theorem exec_flipBoundary (t : Nat) : exec (.flipBoundary t) s = execFlipBoundary t s := rfl
theorem exec_changeSetWritten (t : Nat) : exec (.changeSetWritten t) s = execChangeSetWritten t s := rfl
theorem exec_snapshotCommit (t : Nat) : exec (.snapshotCommit t) s = execSnapshotCommit t s := rfl
theorem exec_trialTokenRequest (t : Nat) : exec (.trialTokenRequest t) s = execTrialTokenRequest t s := rfl
theorem exec_trialTokenTimeout (t : Nat) : exec (.trialTokenTimeout t) s = execTrialTokenTimeout t s := rfl
theorem exec_activationRecordWritten (t : Nat) (readbackOk : Bool) : exec (.activationRecordWritten t readbackOk) s = execActivationRecordWritten t readbackOk s := rfl
theorem exec_healthDwellPass (t : Nat) : exec (.healthDwellPass t) s = execHealthDwellPass t s := rfl
theorem exec_trialWindowExpiry (t : Nat) : exec (.trialWindowExpiry t) s = execTrialWindowExpiry t s := rfl
theorem exec_twinSheafPoll (t : Nat) : exec (.twinSheafPoll t) s = execTwinSheafPoll t s := rfl
theorem exec_sequencerUpdate (t : Nat) (fe : Nat) (valid : Bool) : exec (.sequencerUpdate t fe valid) s = execSequencerUpdate t fe valid s := rfl
theorem exec_outputApply (t : Nat) (offset : Nat) (status : Nat) (measured : Raw) : exec (.outputApply t offset status measured) s = execOutputApply t offset status measured s := rfl
theorem exec_silenceTimeout (t : Nat) (fe : Nat) : exec (.silenceTimeout t fe) s = execSilenceTimeout t fe s := rfl
theorem exec_wireBreakDetect (t : Nat) (ch : Nat) (broken : Bool) : exec (.wireBreakDetect t ch broken) s = execWireBreakDetect t ch broken s := rfl
theorem exec_overload (t : Nat) (ch : Nat) (cleared : Bool) : exec (.overload t ch cleared) s = execOverload t ch cleared s := rfl
theorem exec_aggregateLimit (t : Nat) (ma : Nat) : exec (.aggregateLimit t ma) s = execAggregateLimit t ma s := rfl
theorem exec_mismatch (t : Nat) (ch : Nat) (differ : Bool) : exec (.mismatch t ch differ) s = execMismatch t ch differ s := rfl
theorem exec_fldLost (t : Nat) (lost : Bool) (mv : Nat) : exec (.fldLost t lost mv) s = execFldLost t lost mv s := rfl
theorem exec_conversionComplete (t : Nat) (ch : Nat) (value : Raw) : exec (.conversionComplete t ch value) s = execConversionComplete t ch value s := rfl
theorem exec_excitationWindow (t : Nat) (opens : Bool) (readings : List (Nat × Nat × Nat)) : exec (.excitationWindow t opens readings) s = execExcitationWindow t opens readings s := rfl
theorem exec_twinSenseReport (t : Nat) (ch : Nat) (inCircuit : Bool) (milliohm : Nat) (settings : Word) : exec (.twinSenseReport t ch inCircuit milliohm settings) s = execTwinSenseReport t ch inCircuit milliohm settings s := rfl
theorem exec_twinSenseTimeout (t : Nat) : exec (.twinSenseTimeout t) s = execTwinSenseTimeout t s := rfl
theorem exec_uaChannelFault (t : Nat) (ch : Nat) (f : UaFault) (cleared : Bool) : exec (.uaChannelFault t ch f cleared) s = execUaChannelFault t ch f cleared s := rfl
theorem exec_afsLost (t : Nat) (lost : Bool) (mv : Nat) : exec (.afsLost t lost mv) s = execAfsLost t lost mv s := rfl
theorem exec_hartPut (t : Nat) (ch addr cmd : Nat) (data : List Byte) : exec (.hartPut t ch addr cmd data) s = execHartPut t ch addr cmd data s := rfl
theorem exec_hartGet (t : Nat) (id : Nat) : exec (.hartGet t id) s = execHartGet t id s := rfl
theorem exec_hartReply (t : Nat) (modem : Nat) (e : HartEvent) : exec (.hartReply t modem e) s = execHartReply t modem e s := rfl
theorem exec_hartPoll (t : Nat) (modem : Nat) : exec (.hartPoll t modem) s = execHartPoll t modem s := rfl
theorem exec_canFrameReceived (t : Nat) (ch : Nat) (f : CanFrame) : exec (.canFrameReceived t ch f) s = execCanFrameReceived t ch f s := rfl
theorem exec_canTxRequest (t : Nat) (ch buf : Nat) : exec (.canTxRequest t ch buf) s = execCanTxRequest t ch buf s := rfl
theorem exec_canTxEnd (t : Nat) (ch buf : Nat) (o : CanTxOutcome) : exec (.canTxEnd t ch buf o) s = execCanTxEnd t ch buf o s := rfl
theorem exec_busOffRecoveryComplete (t : Nat) (ch : Nat) : exec (.busOffRecoveryComplete t ch) s = execBusOffRecoveryComplete t ch s := rfl
theorem exec_canFifoRead (t : Nat) (ch fifo after max : Nat) : exec (.canFifoRead t ch fifo after max) s = execCanFifoRead t ch fifo after max s := rfl
theorem exec_canFifoConsume (t : Nat) (ch fifo stamp : Nat) : exec (.canFifoConsume t ch fifo stamp) s = execCanFifoConsume t ch fifo stamp s := rfl
theorem exec_canCancel (t : Nat) (ch buf : Nat) : exec (.canCancel t ch buf) s = execCanCancel t ch buf s := rfl
theorem exec_canRecover (t : Nat) (ch : Nat) : exec (.canRecover t ch) s = execCanRecover t ch s := rfl
theorem exec_referenceMessage (t : Nat) (ch : Nat) : exec (.referenceMessage t ch) s = execReferenceMessage t ch s := rfl
theorem exec_refLate (t : Nat) (ch : Nat) : exec (.refLate t ch) s = execRefLate t ch s := rfl
theorem exec_busIntegration (t : Nat) (ch : Nat) : exec (.busIntegration t ch) s = execBusIntegration t ch s := rfl
theorem exec_canSettingsApply (t : Nat) (ch : Nat) : exec (.canSettingsApply t ch) s = execCanSettingsApply t ch s := rfl
theorem exec_recordAccept (t : Nat) (type : Nat) (payload : List Byte) : exec (.recordAccept t type payload) s = execRecordAccept t type payload s := rfl
theorem exec_recorderFlush (t : Nat) : exec (.recorderFlush t) s = execRecorderFlush t s := rfl
theorem exec_displayUpdate (t : Nat) : exec (.displayUpdate t) s = execDisplayUpdate t s := rfl
theorem exec_waveformEnd (t : Nat) : exec (.waveformEnd t) s = execWaveformEnd t s := rfl
theorem exec_railDischargeDone (t : Nat) : exec (.railDischargeDone t) s = execRailDischargeDone t s := rfl
theorem exec_panelTemperatureRead (t : Nat) (tenths : Int) : exec (.panelTemperatureRead t tenths) s = execPanelTemperatureRead t tenths s := rfl
theorem exec_ledgerSave (t : Nat) : exec (.ledgerSave t) s = execLedgerSave t s := rfl
theorem exec_scrubVisit (t : Nat) (addr : Nat) (ecc : Ecc) : exec (.scrubVisit t addr ecc) s = execScrubVisit t addr ecc s := rfl
theorem exec_mowerWindow (t : Nat) (bank window : Nat) (demanded : Bool) (fault : Option (Nat × Nat)) : exec (.mowerWindow t bank window demanded fault) s = execMowerWindow t bank window demanded fault s := rfl
theorem exec_windowAbandonedRetry (t : Nat) (bank window : Nat) (demanded : Bool) : exec (.windowAbandonedRetry t bank window demanded) s = execWindowAbandonedRetry t bank window demanded s := rfl
theorem exec_transceiverInsertion (t : Nat) (port : Nat) (id : SfpId) : exec (.transceiverInsertion t port id) s = execTransceiverInsertion t port id s := rfl
theorem exec_transceiverMonitor (t : Nat) (port : Nat) (highAlarm : Bool) : exec (.transceiverMonitor t port highAlarm) s = execTransceiverMonitor t port highAlarm s := rfl
theorem exec_linkReturn (t : Nat) (port : Nat) : exec (.linkReturn t port) s = execLinkReturn t port s := rfl
theorem exec_twinModeReport (t : Nat) (mode : Nat) : exec (.twinModeReport t mode) s = execTwinModeReport t mode s := rfl
theorem exec_homeReturnRequest (t : Nat) : exec (.homeReturnRequest t) s = execHomeReturnRequest t s := rfl
theorem exec_flipArming (t : Nat) (version cycle : Nat) : exec (.flipArming t version cycle) s = execFlipArming t version cycle s := rfl
theorem exec_flipArmed (t : Nat) : exec (.flipArmed t) s = execFlipArmed t s := rfl
theorem exec_trialTokenGrant (t : Nat) (granted : Bool) : exec (.trialTokenGrant t granted) s = execTrialTokenGrant t granted s := rfl
theorem exec_mb14Response (t : Nat) (m : Mb14Resp) : exec (.mb14Response t m) s = execMb14Response t m s := rfl
theorem exec_undefinedCommand (t : Nat) (code : Nat) (r : Req) : exec (.undefinedCommand t code r) s = execUndefinedCommand t code r s := rfl
theorem exec_canBusError (t : Nat) (ch code : Nat) (dataPhase : Bool) (recRise : Nat) : exec (.canBusError t ch code dataPhase recRise) s = execCanBusError t ch code dataPhase recRise s := rfl
theorem exec_lingCellEmpty (t : Nat) : exec (.lingCellEmpty t) s = execLingCellEmpty t s := rfl
theorem exec_recoveryReset (t : Nat) (port : Nat) (source dest : Nat) : exec (.recoveryReset t port source dest) s = execRecoveryReset t port source dest s := rfl
theorem exec_messageIntervalRequest (t : Nat) (port domain : Nat) (logSync logPdelay logAnnounce : Int) : exec (.messageIntervalRequest t port domain logSync logPdelay logAnnounce) s = execMessageIntervalRequest t port domain logSync logPdelay logAnnounce s := rfl

end Sys2Proof.Machine
end

