-- ==== Sys2Proof/Laws/State.lean ====
section
/-! SUPPORT. What each update of a part of the state does to every part: one lemma per field per update. -/

set_option Elab.async false
set_option linter.all false

namespace Sys2Proof.Machine

@[simp] theorem State.upMem_pending (f : Mem → Mem) (s : State) : (s.upMem f).pending = s.pending := rfl
@[simp] theorem State.upMem_free (f : Mem → Mem) (s : State) : (s.upMem f).free = s.free := rfl
@[simp] theorem State.upMem_out (f : Mem → Mem) (s : State) : (s.upMem f).out = s.out := rfl
@[simp] theorem State.upMem_mem (f : Mem → Mem) (s : State) : (s.upMem f).mem = f s.mem := rfl
@[simp] theorem State.upMem_time (f : Mem → Mem) (s : State) : (s.upMem f).time = s.time := rfl
@[simp] theorem State.upMem_pair (f : Mem → Mem) (s : State) : (s.upMem f).pair = s.pair := rfl
@[simp] theorem State.upMem_cnt (f : Mem → Mem) (s : State) : (s.upMem f).cnt = s.cnt := rfl
@[simp] theorem State.upMem_power (f : Mem → Mem) (s : State) : (s.upMem f).power = s.power := rfl
@[simp] theorem State.upMem_boot (f : Mem → Mem) (s : State) : (s.upMem f).boot = s.boot := rfl
@[simp] theorem State.upMem_pts (f : Mem → Mem) (s : State) : (s.upMem f).pts = s.pts := rfl
@[simp] theorem State.upMem_cyc (f : Mem → Mem) (s : State) : (s.upMem f).cyc = s.cyc := rfl
@[simp] theorem State.upMem_fsp (f : Mem → Mem) (s : State) : (s.upMem f).fsp = s.fsp := rfl
@[simp] theorem State.upMem_sched (f : Mem → Mem) (s : State) : (s.upMem f).sched = s.sched := rfl
@[simp] theorem State.upMem_lock (f : Mem → Mem) (s : State) : (s.upMem f).lock = s.lock := rfl
@[simp] theorem State.upMem_cfg (f : Mem → Mem) (s : State) : (s.upMem f).cfg = s.cfg := rfl
@[simp] theorem State.upMem_msg (f : Mem → Mem) (s : State) : (s.upMem f).msg = s.msg := rfl
@[simp] theorem State.upMem_mower (f : Mem → Mem) (s : State) : (s.upMem f).mower = s.mower := rfl
@[simp] theorem State.upMem_sec (f : Mem → Mem) (s : State) : (s.upMem f).sec = s.sec := rfl
@[simp] theorem State.upMem_gate (f : Mem → Mem) (s : State) : (s.upMem f).gate = s.gate := rfl
@[simp] theorem State.upMem_sheaf (f : Mem → Mem) (s : State) : (s.upMem f).sheaf = s.sheaf := rfl
@[simp] theorem State.upMem_dio (f : Mem → Mem) (s : State) : (s.upMem f).dio = s.dio := rfl
@[simp] theorem State.upMem_ua (f : Mem → Mem) (s : State) : (s.upMem f).ua = s.ua := rfl
@[simp] theorem State.upMem_can (f : Mem → Mem) (s : State) : (s.upMem f).can = s.can := rfl
@[simp] theorem State.upMem_log (f : Mem → Mem) (s : State) : (s.upMem f).log = s.log := rfl
@[simp] theorem State.upMem_disp (f : Mem → Mem) (s : State) : (s.upMem f).disp = s.disp := rfl
@[simp] theorem State.upMem_sfp (f : Mem → Mem) (s : State) : (s.upMem f).sfp = s.sfp := rfl
@[simp] theorem State.upTime_pending (f : TimeSt → TimeSt) (s : State) : (s.upTime f).pending = s.pending := rfl
@[simp] theorem State.upTime_free (f : TimeSt → TimeSt) (s : State) : (s.upTime f).free = s.free := rfl
@[simp] theorem State.upTime_out (f : TimeSt → TimeSt) (s : State) : (s.upTime f).out = s.out := rfl
@[simp] theorem State.upTime_mem (f : TimeSt → TimeSt) (s : State) : (s.upTime f).mem = s.mem := rfl
@[simp] theorem State.upTime_time (f : TimeSt → TimeSt) (s : State) : (s.upTime f).time = f s.time := rfl
@[simp] theorem State.upTime_pair (f : TimeSt → TimeSt) (s : State) : (s.upTime f).pair = s.pair := rfl
@[simp] theorem State.upTime_cnt (f : TimeSt → TimeSt) (s : State) : (s.upTime f).cnt = s.cnt := rfl
@[simp] theorem State.upTime_power (f : TimeSt → TimeSt) (s : State) : (s.upTime f).power = s.power := rfl
@[simp] theorem State.upTime_boot (f : TimeSt → TimeSt) (s : State) : (s.upTime f).boot = s.boot := rfl
@[simp] theorem State.upTime_pts (f : TimeSt → TimeSt) (s : State) : (s.upTime f).pts = s.pts := rfl
@[simp] theorem State.upTime_cyc (f : TimeSt → TimeSt) (s : State) : (s.upTime f).cyc = s.cyc := rfl
@[simp] theorem State.upTime_fsp (f : TimeSt → TimeSt) (s : State) : (s.upTime f).fsp = s.fsp := rfl
@[simp] theorem State.upTime_sched (f : TimeSt → TimeSt) (s : State) : (s.upTime f).sched = s.sched := rfl
@[simp] theorem State.upTime_lock (f : TimeSt → TimeSt) (s : State) : (s.upTime f).lock = s.lock := rfl
@[simp] theorem State.upTime_cfg (f : TimeSt → TimeSt) (s : State) : (s.upTime f).cfg = s.cfg := rfl
@[simp] theorem State.upTime_msg (f : TimeSt → TimeSt) (s : State) : (s.upTime f).msg = s.msg := rfl
@[simp] theorem State.upTime_mower (f : TimeSt → TimeSt) (s : State) : (s.upTime f).mower = s.mower := rfl
@[simp] theorem State.upTime_sec (f : TimeSt → TimeSt) (s : State) : (s.upTime f).sec = s.sec := rfl
@[simp] theorem State.upTime_gate (f : TimeSt → TimeSt) (s : State) : (s.upTime f).gate = s.gate := rfl
@[simp] theorem State.upTime_sheaf (f : TimeSt → TimeSt) (s : State) : (s.upTime f).sheaf = s.sheaf := rfl
@[simp] theorem State.upTime_dio (f : TimeSt → TimeSt) (s : State) : (s.upTime f).dio = s.dio := rfl
@[simp] theorem State.upTime_ua (f : TimeSt → TimeSt) (s : State) : (s.upTime f).ua = s.ua := rfl
@[simp] theorem State.upTime_can (f : TimeSt → TimeSt) (s : State) : (s.upTime f).can = s.can := rfl
@[simp] theorem State.upTime_log (f : TimeSt → TimeSt) (s : State) : (s.upTime f).log = s.log := rfl
@[simp] theorem State.upTime_disp (f : TimeSt → TimeSt) (s : State) : (s.upTime f).disp = s.disp := rfl
@[simp] theorem State.upTime_sfp (f : TimeSt → TimeSt) (s : State) : (s.upTime f).sfp = s.sfp := rfl
@[simp] theorem State.upPair_pending (f : PairSt → PairSt) (s : State) : (s.upPair f).pending = s.pending := rfl
@[simp] theorem State.upPair_free (f : PairSt → PairSt) (s : State) : (s.upPair f).free = s.free := rfl
@[simp] theorem State.upPair_out (f : PairSt → PairSt) (s : State) : (s.upPair f).out = s.out := rfl
@[simp] theorem State.upPair_mem (f : PairSt → PairSt) (s : State) : (s.upPair f).mem = s.mem := rfl
@[simp] theorem State.upPair_time (f : PairSt → PairSt) (s : State) : (s.upPair f).time = s.time := rfl
@[simp] theorem State.upPair_pair (f : PairSt → PairSt) (s : State) : (s.upPair f).pair = f s.pair := rfl
@[simp] theorem State.upPair_cnt (f : PairSt → PairSt) (s : State) : (s.upPair f).cnt = s.cnt := rfl
@[simp] theorem State.upPair_power (f : PairSt → PairSt) (s : State) : (s.upPair f).power = s.power := rfl
@[simp] theorem State.upPair_boot (f : PairSt → PairSt) (s : State) : (s.upPair f).boot = s.boot := rfl
@[simp] theorem State.upPair_pts (f : PairSt → PairSt) (s : State) : (s.upPair f).pts = s.pts := rfl
@[simp] theorem State.upPair_cyc (f : PairSt → PairSt) (s : State) : (s.upPair f).cyc = s.cyc := rfl
@[simp] theorem State.upPair_fsp (f : PairSt → PairSt) (s : State) : (s.upPair f).fsp = s.fsp := rfl
@[simp] theorem State.upPair_sched (f : PairSt → PairSt) (s : State) : (s.upPair f).sched = s.sched := rfl
@[simp] theorem State.upPair_lock (f : PairSt → PairSt) (s : State) : (s.upPair f).lock = s.lock := rfl
@[simp] theorem State.upPair_cfg (f : PairSt → PairSt) (s : State) : (s.upPair f).cfg = s.cfg := rfl
@[simp] theorem State.upPair_msg (f : PairSt → PairSt) (s : State) : (s.upPair f).msg = s.msg := rfl
@[simp] theorem State.upPair_mower (f : PairSt → PairSt) (s : State) : (s.upPair f).mower = s.mower := rfl
@[simp] theorem State.upPair_sec (f : PairSt → PairSt) (s : State) : (s.upPair f).sec = s.sec := rfl
@[simp] theorem State.upPair_gate (f : PairSt → PairSt) (s : State) : (s.upPair f).gate = s.gate := rfl
@[simp] theorem State.upPair_sheaf (f : PairSt → PairSt) (s : State) : (s.upPair f).sheaf = s.sheaf := rfl
@[simp] theorem State.upPair_dio (f : PairSt → PairSt) (s : State) : (s.upPair f).dio = s.dio := rfl
@[simp] theorem State.upPair_ua (f : PairSt → PairSt) (s : State) : (s.upPair f).ua = s.ua := rfl
@[simp] theorem State.upPair_can (f : PairSt → PairSt) (s : State) : (s.upPair f).can = s.can := rfl
@[simp] theorem State.upPair_log (f : PairSt → PairSt) (s : State) : (s.upPair f).log = s.log := rfl
@[simp] theorem State.upPair_disp (f : PairSt → PairSt) (s : State) : (s.upPair f).disp = s.disp := rfl
@[simp] theorem State.upPair_sfp (f : PairSt → PairSt) (s : State) : (s.upPair f).sfp = s.sfp := rfl
@[simp] theorem State.upCnt_pending (f : PairCnt → PairCnt) (s : State) : (s.upCnt f).pending = s.pending := rfl
@[simp] theorem State.upCnt_free (f : PairCnt → PairCnt) (s : State) : (s.upCnt f).free = s.free := rfl
@[simp] theorem State.upCnt_out (f : PairCnt → PairCnt) (s : State) : (s.upCnt f).out = s.out := rfl
@[simp] theorem State.upCnt_mem (f : PairCnt → PairCnt) (s : State) : (s.upCnt f).mem = s.mem := rfl
@[simp] theorem State.upCnt_time (f : PairCnt → PairCnt) (s : State) : (s.upCnt f).time = s.time := rfl
@[simp] theorem State.upCnt_pair (f : PairCnt → PairCnt) (s : State) : (s.upCnt f).pair = s.pair := rfl
@[simp] theorem State.upCnt_cnt (f : PairCnt → PairCnt) (s : State) : (s.upCnt f).cnt = f s.cnt := rfl
@[simp] theorem State.upCnt_power (f : PairCnt → PairCnt) (s : State) : (s.upCnt f).power = s.power := rfl
@[simp] theorem State.upCnt_boot (f : PairCnt → PairCnt) (s : State) : (s.upCnt f).boot = s.boot := rfl
@[simp] theorem State.upCnt_pts (f : PairCnt → PairCnt) (s : State) : (s.upCnt f).pts = s.pts := rfl
@[simp] theorem State.upCnt_cyc (f : PairCnt → PairCnt) (s : State) : (s.upCnt f).cyc = s.cyc := rfl
@[simp] theorem State.upCnt_fsp (f : PairCnt → PairCnt) (s : State) : (s.upCnt f).fsp = s.fsp := rfl
@[simp] theorem State.upCnt_sched (f : PairCnt → PairCnt) (s : State) : (s.upCnt f).sched = s.sched := rfl
@[simp] theorem State.upCnt_lock (f : PairCnt → PairCnt) (s : State) : (s.upCnt f).lock = s.lock := rfl
@[simp] theorem State.upCnt_cfg (f : PairCnt → PairCnt) (s : State) : (s.upCnt f).cfg = s.cfg := rfl
@[simp] theorem State.upCnt_msg (f : PairCnt → PairCnt) (s : State) : (s.upCnt f).msg = s.msg := rfl
@[simp] theorem State.upCnt_mower (f : PairCnt → PairCnt) (s : State) : (s.upCnt f).mower = s.mower := rfl
@[simp] theorem State.upCnt_sec (f : PairCnt → PairCnt) (s : State) : (s.upCnt f).sec = s.sec := rfl
@[simp] theorem State.upCnt_gate (f : PairCnt → PairCnt) (s : State) : (s.upCnt f).gate = s.gate := rfl
@[simp] theorem State.upCnt_sheaf (f : PairCnt → PairCnt) (s : State) : (s.upCnt f).sheaf = s.sheaf := rfl
@[simp] theorem State.upCnt_dio (f : PairCnt → PairCnt) (s : State) : (s.upCnt f).dio = s.dio := rfl
@[simp] theorem State.upCnt_ua (f : PairCnt → PairCnt) (s : State) : (s.upCnt f).ua = s.ua := rfl
@[simp] theorem State.upCnt_can (f : PairCnt → PairCnt) (s : State) : (s.upCnt f).can = s.can := rfl
@[simp] theorem State.upCnt_log (f : PairCnt → PairCnt) (s : State) : (s.upCnt f).log = s.log := rfl
@[simp] theorem State.upCnt_disp (f : PairCnt → PairCnt) (s : State) : (s.upCnt f).disp = s.disp := rfl
@[simp] theorem State.upCnt_sfp (f : PairCnt → PairCnt) (s : State) : (s.upCnt f).sfp = s.sfp := rfl
@[simp] theorem State.upPower_pending (f : PowerSt → PowerSt) (s : State) : (s.upPower f).pending = s.pending := rfl
@[simp] theorem State.upPower_free (f : PowerSt → PowerSt) (s : State) : (s.upPower f).free = s.free := rfl
@[simp] theorem State.upPower_out (f : PowerSt → PowerSt) (s : State) : (s.upPower f).out = s.out := rfl
@[simp] theorem State.upPower_mem (f : PowerSt → PowerSt) (s : State) : (s.upPower f).mem = s.mem := rfl
@[simp] theorem State.upPower_time (f : PowerSt → PowerSt) (s : State) : (s.upPower f).time = s.time := rfl
@[simp] theorem State.upPower_pair (f : PowerSt → PowerSt) (s : State) : (s.upPower f).pair = s.pair := rfl
@[simp] theorem State.upPower_cnt (f : PowerSt → PowerSt) (s : State) : (s.upPower f).cnt = s.cnt := rfl
@[simp] theorem State.upPower_power (f : PowerSt → PowerSt) (s : State) : (s.upPower f).power = f s.power := rfl
@[simp] theorem State.upPower_boot (f : PowerSt → PowerSt) (s : State) : (s.upPower f).boot = s.boot := rfl
@[simp] theorem State.upPower_pts (f : PowerSt → PowerSt) (s : State) : (s.upPower f).pts = s.pts := rfl
@[simp] theorem State.upPower_cyc (f : PowerSt → PowerSt) (s : State) : (s.upPower f).cyc = s.cyc := rfl
@[simp] theorem State.upPower_fsp (f : PowerSt → PowerSt) (s : State) : (s.upPower f).fsp = s.fsp := rfl
@[simp] theorem State.upPower_sched (f : PowerSt → PowerSt) (s : State) : (s.upPower f).sched = s.sched := rfl
@[simp] theorem State.upPower_lock (f : PowerSt → PowerSt) (s : State) : (s.upPower f).lock = s.lock := rfl
@[simp] theorem State.upPower_cfg (f : PowerSt → PowerSt) (s : State) : (s.upPower f).cfg = s.cfg := rfl
@[simp] theorem State.upPower_msg (f : PowerSt → PowerSt) (s : State) : (s.upPower f).msg = s.msg := rfl
@[simp] theorem State.upPower_mower (f : PowerSt → PowerSt) (s : State) : (s.upPower f).mower = s.mower := rfl
@[simp] theorem State.upPower_sec (f : PowerSt → PowerSt) (s : State) : (s.upPower f).sec = s.sec := rfl
@[simp] theorem State.upPower_gate (f : PowerSt → PowerSt) (s : State) : (s.upPower f).gate = s.gate := rfl
@[simp] theorem State.upPower_sheaf (f : PowerSt → PowerSt) (s : State) : (s.upPower f).sheaf = s.sheaf := rfl
@[simp] theorem State.upPower_dio (f : PowerSt → PowerSt) (s : State) : (s.upPower f).dio = s.dio := rfl
@[simp] theorem State.upPower_ua (f : PowerSt → PowerSt) (s : State) : (s.upPower f).ua = s.ua := rfl
@[simp] theorem State.upPower_can (f : PowerSt → PowerSt) (s : State) : (s.upPower f).can = s.can := rfl
@[simp] theorem State.upPower_log (f : PowerSt → PowerSt) (s : State) : (s.upPower f).log = s.log := rfl
@[simp] theorem State.upPower_disp (f : PowerSt → PowerSt) (s : State) : (s.upPower f).disp = s.disp := rfl
@[simp] theorem State.upPower_sfp (f : PowerSt → PowerSt) (s : State) : (s.upPower f).sfp = s.sfp := rfl
@[simp] theorem State.upBoot_pending (f : BootSt → BootSt) (s : State) : (s.upBoot f).pending = s.pending := rfl
@[simp] theorem State.upBoot_free (f : BootSt → BootSt) (s : State) : (s.upBoot f).free = s.free := rfl
@[simp] theorem State.upBoot_out (f : BootSt → BootSt) (s : State) : (s.upBoot f).out = s.out := rfl
@[simp] theorem State.upBoot_mem (f : BootSt → BootSt) (s : State) : (s.upBoot f).mem = s.mem := rfl
@[simp] theorem State.upBoot_time (f : BootSt → BootSt) (s : State) : (s.upBoot f).time = s.time := rfl
@[simp] theorem State.upBoot_pair (f : BootSt → BootSt) (s : State) : (s.upBoot f).pair = s.pair := rfl
@[simp] theorem State.upBoot_cnt (f : BootSt → BootSt) (s : State) : (s.upBoot f).cnt = s.cnt := rfl
@[simp] theorem State.upBoot_power (f : BootSt → BootSt) (s : State) : (s.upBoot f).power = s.power := rfl
@[simp] theorem State.upBoot_boot (f : BootSt → BootSt) (s : State) : (s.upBoot f).boot = f s.boot := rfl
@[simp] theorem State.upBoot_pts (f : BootSt → BootSt) (s : State) : (s.upBoot f).pts = s.pts := rfl
@[simp] theorem State.upBoot_cyc (f : BootSt → BootSt) (s : State) : (s.upBoot f).cyc = s.cyc := rfl
@[simp] theorem State.upBoot_fsp (f : BootSt → BootSt) (s : State) : (s.upBoot f).fsp = s.fsp := rfl
@[simp] theorem State.upBoot_sched (f : BootSt → BootSt) (s : State) : (s.upBoot f).sched = s.sched := rfl
@[simp] theorem State.upBoot_lock (f : BootSt → BootSt) (s : State) : (s.upBoot f).lock = s.lock := rfl
@[simp] theorem State.upBoot_cfg (f : BootSt → BootSt) (s : State) : (s.upBoot f).cfg = s.cfg := rfl
@[simp] theorem State.upBoot_msg (f : BootSt → BootSt) (s : State) : (s.upBoot f).msg = s.msg := rfl
@[simp] theorem State.upBoot_mower (f : BootSt → BootSt) (s : State) : (s.upBoot f).mower = s.mower := rfl
@[simp] theorem State.upBoot_sec (f : BootSt → BootSt) (s : State) : (s.upBoot f).sec = s.sec := rfl
@[simp] theorem State.upBoot_gate (f : BootSt → BootSt) (s : State) : (s.upBoot f).gate = s.gate := rfl
@[simp] theorem State.upBoot_sheaf (f : BootSt → BootSt) (s : State) : (s.upBoot f).sheaf = s.sheaf := rfl
@[simp] theorem State.upBoot_dio (f : BootSt → BootSt) (s : State) : (s.upBoot f).dio = s.dio := rfl
@[simp] theorem State.upBoot_ua (f : BootSt → BootSt) (s : State) : (s.upBoot f).ua = s.ua := rfl
@[simp] theorem State.upBoot_can (f : BootSt → BootSt) (s : State) : (s.upBoot f).can = s.can := rfl
@[simp] theorem State.upBoot_log (f : BootSt → BootSt) (s : State) : (s.upBoot f).log = s.log := rfl
@[simp] theorem State.upBoot_disp (f : BootSt → BootSt) (s : State) : (s.upBoot f).disp = s.disp := rfl
@[simp] theorem State.upBoot_sfp (f : BootSt → BootSt) (s : State) : (s.upBoot f).sfp = s.sfp := rfl
@[simp] theorem State.upPts_pending (f : PointSt → PointSt) (s : State) : (s.upPts f).pending = s.pending := rfl
@[simp] theorem State.upPts_free (f : PointSt → PointSt) (s : State) : (s.upPts f).free = s.free := rfl
@[simp] theorem State.upPts_out (f : PointSt → PointSt) (s : State) : (s.upPts f).out = s.out := rfl
@[simp] theorem State.upPts_mem (f : PointSt → PointSt) (s : State) : (s.upPts f).mem = s.mem := rfl
@[simp] theorem State.upPts_time (f : PointSt → PointSt) (s : State) : (s.upPts f).time = s.time := rfl
@[simp] theorem State.upPts_pair (f : PointSt → PointSt) (s : State) : (s.upPts f).pair = s.pair := rfl
@[simp] theorem State.upPts_cnt (f : PointSt → PointSt) (s : State) : (s.upPts f).cnt = s.cnt := rfl
@[simp] theorem State.upPts_power (f : PointSt → PointSt) (s : State) : (s.upPts f).power = s.power := rfl
@[simp] theorem State.upPts_boot (f : PointSt → PointSt) (s : State) : (s.upPts f).boot = s.boot := rfl
@[simp] theorem State.upPts_pts (f : PointSt → PointSt) (s : State) : (s.upPts f).pts = f s.pts := rfl
@[simp] theorem State.upPts_cyc (f : PointSt → PointSt) (s : State) : (s.upPts f).cyc = s.cyc := rfl
@[simp] theorem State.upPts_fsp (f : PointSt → PointSt) (s : State) : (s.upPts f).fsp = s.fsp := rfl
@[simp] theorem State.upPts_sched (f : PointSt → PointSt) (s : State) : (s.upPts f).sched = s.sched := rfl
@[simp] theorem State.upPts_lock (f : PointSt → PointSt) (s : State) : (s.upPts f).lock = s.lock := rfl
@[simp] theorem State.upPts_cfg (f : PointSt → PointSt) (s : State) : (s.upPts f).cfg = s.cfg := rfl
@[simp] theorem State.upPts_msg (f : PointSt → PointSt) (s : State) : (s.upPts f).msg = s.msg := rfl
@[simp] theorem State.upPts_mower (f : PointSt → PointSt) (s : State) : (s.upPts f).mower = s.mower := rfl
@[simp] theorem State.upPts_sec (f : PointSt → PointSt) (s : State) : (s.upPts f).sec = s.sec := rfl
@[simp] theorem State.upPts_gate (f : PointSt → PointSt) (s : State) : (s.upPts f).gate = s.gate := rfl
@[simp] theorem State.upPts_sheaf (f : PointSt → PointSt) (s : State) : (s.upPts f).sheaf = s.sheaf := rfl
@[simp] theorem State.upPts_dio (f : PointSt → PointSt) (s : State) : (s.upPts f).dio = s.dio := rfl
@[simp] theorem State.upPts_ua (f : PointSt → PointSt) (s : State) : (s.upPts f).ua = s.ua := rfl
@[simp] theorem State.upPts_can (f : PointSt → PointSt) (s : State) : (s.upPts f).can = s.can := rfl
@[simp] theorem State.upPts_log (f : PointSt → PointSt) (s : State) : (s.upPts f).log = s.log := rfl
@[simp] theorem State.upPts_disp (f : PointSt → PointSt) (s : State) : (s.upPts f).disp = s.disp := rfl
@[simp] theorem State.upPts_sfp (f : PointSt → PointSt) (s : State) : (s.upPts f).sfp = s.sfp := rfl
@[simp] theorem State.upCyc_pending (f : CycleSt → CycleSt) (s : State) : (s.upCyc f).pending = s.pending := rfl
@[simp] theorem State.upCyc_free (f : CycleSt → CycleSt) (s : State) : (s.upCyc f).free = s.free := rfl
@[simp] theorem State.upCyc_out (f : CycleSt → CycleSt) (s : State) : (s.upCyc f).out = s.out := rfl
@[simp] theorem State.upCyc_mem (f : CycleSt → CycleSt) (s : State) : (s.upCyc f).mem = s.mem := rfl
@[simp] theorem State.upCyc_time (f : CycleSt → CycleSt) (s : State) : (s.upCyc f).time = s.time := rfl
@[simp] theorem State.upCyc_pair (f : CycleSt → CycleSt) (s : State) : (s.upCyc f).pair = s.pair := rfl
@[simp] theorem State.upCyc_cnt (f : CycleSt → CycleSt) (s : State) : (s.upCyc f).cnt = s.cnt := rfl
@[simp] theorem State.upCyc_power (f : CycleSt → CycleSt) (s : State) : (s.upCyc f).power = s.power := rfl
@[simp] theorem State.upCyc_boot (f : CycleSt → CycleSt) (s : State) : (s.upCyc f).boot = s.boot := rfl
@[simp] theorem State.upCyc_pts (f : CycleSt → CycleSt) (s : State) : (s.upCyc f).pts = s.pts := rfl
@[simp] theorem State.upCyc_cyc (f : CycleSt → CycleSt) (s : State) : (s.upCyc f).cyc = f s.cyc := rfl
@[simp] theorem State.upCyc_fsp (f : CycleSt → CycleSt) (s : State) : (s.upCyc f).fsp = s.fsp := rfl
@[simp] theorem State.upCyc_sched (f : CycleSt → CycleSt) (s : State) : (s.upCyc f).sched = s.sched := rfl
@[simp] theorem State.upCyc_lock (f : CycleSt → CycleSt) (s : State) : (s.upCyc f).lock = s.lock := rfl
@[simp] theorem State.upCyc_cfg (f : CycleSt → CycleSt) (s : State) : (s.upCyc f).cfg = s.cfg := rfl
@[simp] theorem State.upCyc_msg (f : CycleSt → CycleSt) (s : State) : (s.upCyc f).msg = s.msg := rfl
@[simp] theorem State.upCyc_mower (f : CycleSt → CycleSt) (s : State) : (s.upCyc f).mower = s.mower := rfl
@[simp] theorem State.upCyc_sec (f : CycleSt → CycleSt) (s : State) : (s.upCyc f).sec = s.sec := rfl
@[simp] theorem State.upCyc_gate (f : CycleSt → CycleSt) (s : State) : (s.upCyc f).gate = s.gate := rfl
@[simp] theorem State.upCyc_sheaf (f : CycleSt → CycleSt) (s : State) : (s.upCyc f).sheaf = s.sheaf := rfl
@[simp] theorem State.upCyc_dio (f : CycleSt → CycleSt) (s : State) : (s.upCyc f).dio = s.dio := rfl
@[simp] theorem State.upCyc_ua (f : CycleSt → CycleSt) (s : State) : (s.upCyc f).ua = s.ua := rfl
@[simp] theorem State.upCyc_can (f : CycleSt → CycleSt) (s : State) : (s.upCyc f).can = s.can := rfl
@[simp] theorem State.upCyc_log (f : CycleSt → CycleSt) (s : State) : (s.upCyc f).log = s.log := rfl
@[simp] theorem State.upCyc_disp (f : CycleSt → CycleSt) (s : State) : (s.upCyc f).disp = s.disp := rfl
@[simp] theorem State.upCyc_sfp (f : CycleSt → CycleSt) (s : State) : (s.upCyc f).sfp = s.sfp := rfl
@[simp] theorem State.upFsp_pending (f : FspSt → FspSt) (s : State) : (s.upFsp f).pending = s.pending := rfl
@[simp] theorem State.upFsp_free (f : FspSt → FspSt) (s : State) : (s.upFsp f).free = s.free := rfl
@[simp] theorem State.upFsp_out (f : FspSt → FspSt) (s : State) : (s.upFsp f).out = s.out := rfl
@[simp] theorem State.upFsp_mem (f : FspSt → FspSt) (s : State) : (s.upFsp f).mem = s.mem := rfl
@[simp] theorem State.upFsp_time (f : FspSt → FspSt) (s : State) : (s.upFsp f).time = s.time := rfl
@[simp] theorem State.upFsp_pair (f : FspSt → FspSt) (s : State) : (s.upFsp f).pair = s.pair := rfl
@[simp] theorem State.upFsp_cnt (f : FspSt → FspSt) (s : State) : (s.upFsp f).cnt = s.cnt := rfl
@[simp] theorem State.upFsp_power (f : FspSt → FspSt) (s : State) : (s.upFsp f).power = s.power := rfl
@[simp] theorem State.upFsp_boot (f : FspSt → FspSt) (s : State) : (s.upFsp f).boot = s.boot := rfl
@[simp] theorem State.upFsp_pts (f : FspSt → FspSt) (s : State) : (s.upFsp f).pts = s.pts := rfl
@[simp] theorem State.upFsp_cyc (f : FspSt → FspSt) (s : State) : (s.upFsp f).cyc = s.cyc := rfl
@[simp] theorem State.upFsp_fsp (f : FspSt → FspSt) (s : State) : (s.upFsp f).fsp = f s.fsp := rfl
@[simp] theorem State.upFsp_sched (f : FspSt → FspSt) (s : State) : (s.upFsp f).sched = s.sched := rfl
@[simp] theorem State.upFsp_lock (f : FspSt → FspSt) (s : State) : (s.upFsp f).lock = s.lock := rfl
@[simp] theorem State.upFsp_cfg (f : FspSt → FspSt) (s : State) : (s.upFsp f).cfg = s.cfg := rfl
@[simp] theorem State.upFsp_msg (f : FspSt → FspSt) (s : State) : (s.upFsp f).msg = s.msg := rfl
@[simp] theorem State.upFsp_mower (f : FspSt → FspSt) (s : State) : (s.upFsp f).mower = s.mower := rfl
@[simp] theorem State.upFsp_sec (f : FspSt → FspSt) (s : State) : (s.upFsp f).sec = s.sec := rfl
@[simp] theorem State.upFsp_gate (f : FspSt → FspSt) (s : State) : (s.upFsp f).gate = s.gate := rfl
@[simp] theorem State.upFsp_sheaf (f : FspSt → FspSt) (s : State) : (s.upFsp f).sheaf = s.sheaf := rfl
@[simp] theorem State.upFsp_dio (f : FspSt → FspSt) (s : State) : (s.upFsp f).dio = s.dio := rfl
@[simp] theorem State.upFsp_ua (f : FspSt → FspSt) (s : State) : (s.upFsp f).ua = s.ua := rfl
@[simp] theorem State.upFsp_can (f : FspSt → FspSt) (s : State) : (s.upFsp f).can = s.can := rfl
@[simp] theorem State.upFsp_log (f : FspSt → FspSt) (s : State) : (s.upFsp f).log = s.log := rfl
@[simp] theorem State.upFsp_disp (f : FspSt → FspSt) (s : State) : (s.upFsp f).disp = s.disp := rfl
@[simp] theorem State.upFsp_sfp (f : FspSt → FspSt) (s : State) : (s.upFsp f).sfp = s.sfp := rfl
@[simp] theorem State.upSched_pending (f : SchedSt → SchedSt) (s : State) : (s.upSched f).pending = s.pending := rfl
@[simp] theorem State.upSched_free (f : SchedSt → SchedSt) (s : State) : (s.upSched f).free = s.free := rfl
@[simp] theorem State.upSched_out (f : SchedSt → SchedSt) (s : State) : (s.upSched f).out = s.out := rfl
@[simp] theorem State.upSched_mem (f : SchedSt → SchedSt) (s : State) : (s.upSched f).mem = s.mem := rfl
@[simp] theorem State.upSched_time (f : SchedSt → SchedSt) (s : State) : (s.upSched f).time = s.time := rfl
@[simp] theorem State.upSched_pair (f : SchedSt → SchedSt) (s : State) : (s.upSched f).pair = s.pair := rfl
@[simp] theorem State.upSched_cnt (f : SchedSt → SchedSt) (s : State) : (s.upSched f).cnt = s.cnt := rfl
@[simp] theorem State.upSched_power (f : SchedSt → SchedSt) (s : State) : (s.upSched f).power = s.power := rfl
@[simp] theorem State.upSched_boot (f : SchedSt → SchedSt) (s : State) : (s.upSched f).boot = s.boot := rfl
@[simp] theorem State.upSched_pts (f : SchedSt → SchedSt) (s : State) : (s.upSched f).pts = s.pts := rfl
@[simp] theorem State.upSched_cyc (f : SchedSt → SchedSt) (s : State) : (s.upSched f).cyc = s.cyc := rfl
@[simp] theorem State.upSched_fsp (f : SchedSt → SchedSt) (s : State) : (s.upSched f).fsp = s.fsp := rfl
@[simp] theorem State.upSched_sched (f : SchedSt → SchedSt) (s : State) : (s.upSched f).sched = f s.sched := rfl
@[simp] theorem State.upSched_lock (f : SchedSt → SchedSt) (s : State) : (s.upSched f).lock = s.lock := rfl
@[simp] theorem State.upSched_cfg (f : SchedSt → SchedSt) (s : State) : (s.upSched f).cfg = s.cfg := rfl
@[simp] theorem State.upSched_msg (f : SchedSt → SchedSt) (s : State) : (s.upSched f).msg = s.msg := rfl
@[simp] theorem State.upSched_mower (f : SchedSt → SchedSt) (s : State) : (s.upSched f).mower = s.mower := rfl
@[simp] theorem State.upSched_sec (f : SchedSt → SchedSt) (s : State) : (s.upSched f).sec = s.sec := rfl
@[simp] theorem State.upSched_gate (f : SchedSt → SchedSt) (s : State) : (s.upSched f).gate = s.gate := rfl
@[simp] theorem State.upSched_sheaf (f : SchedSt → SchedSt) (s : State) : (s.upSched f).sheaf = s.sheaf := rfl
@[simp] theorem State.upSched_dio (f : SchedSt → SchedSt) (s : State) : (s.upSched f).dio = s.dio := rfl
@[simp] theorem State.upSched_ua (f : SchedSt → SchedSt) (s : State) : (s.upSched f).ua = s.ua := rfl
@[simp] theorem State.upSched_can (f : SchedSt → SchedSt) (s : State) : (s.upSched f).can = s.can := rfl
@[simp] theorem State.upSched_log (f : SchedSt → SchedSt) (s : State) : (s.upSched f).log = s.log := rfl
@[simp] theorem State.upSched_disp (f : SchedSt → SchedSt) (s : State) : (s.upSched f).disp = s.disp := rfl
@[simp] theorem State.upSched_sfp (f : SchedSt → SchedSt) (s : State) : (s.upSched f).sfp = s.sfp := rfl
@[simp] theorem State.upLock_pending (f : LockSt → LockSt) (s : State) : (s.upLock f).pending = s.pending := rfl
@[simp] theorem State.upLock_free (f : LockSt → LockSt) (s : State) : (s.upLock f).free = s.free := rfl
@[simp] theorem State.upLock_out (f : LockSt → LockSt) (s : State) : (s.upLock f).out = s.out := rfl
@[simp] theorem State.upLock_mem (f : LockSt → LockSt) (s : State) : (s.upLock f).mem = s.mem := rfl
@[simp] theorem State.upLock_time (f : LockSt → LockSt) (s : State) : (s.upLock f).time = s.time := rfl
@[simp] theorem State.upLock_pair (f : LockSt → LockSt) (s : State) : (s.upLock f).pair = s.pair := rfl
@[simp] theorem State.upLock_cnt (f : LockSt → LockSt) (s : State) : (s.upLock f).cnt = s.cnt := rfl
@[simp] theorem State.upLock_power (f : LockSt → LockSt) (s : State) : (s.upLock f).power = s.power := rfl
@[simp] theorem State.upLock_boot (f : LockSt → LockSt) (s : State) : (s.upLock f).boot = s.boot := rfl
@[simp] theorem State.upLock_pts (f : LockSt → LockSt) (s : State) : (s.upLock f).pts = s.pts := rfl
@[simp] theorem State.upLock_cyc (f : LockSt → LockSt) (s : State) : (s.upLock f).cyc = s.cyc := rfl
@[simp] theorem State.upLock_fsp (f : LockSt → LockSt) (s : State) : (s.upLock f).fsp = s.fsp := rfl
@[simp] theorem State.upLock_sched (f : LockSt → LockSt) (s : State) : (s.upLock f).sched = s.sched := rfl
@[simp] theorem State.upLock_lock (f : LockSt → LockSt) (s : State) : (s.upLock f).lock = f s.lock := rfl
@[simp] theorem State.upLock_cfg (f : LockSt → LockSt) (s : State) : (s.upLock f).cfg = s.cfg := rfl
@[simp] theorem State.upLock_msg (f : LockSt → LockSt) (s : State) : (s.upLock f).msg = s.msg := rfl
@[simp] theorem State.upLock_mower (f : LockSt → LockSt) (s : State) : (s.upLock f).mower = s.mower := rfl
@[simp] theorem State.upLock_sec (f : LockSt → LockSt) (s : State) : (s.upLock f).sec = s.sec := rfl
@[simp] theorem State.upLock_gate (f : LockSt → LockSt) (s : State) : (s.upLock f).gate = s.gate := rfl
@[simp] theorem State.upLock_sheaf (f : LockSt → LockSt) (s : State) : (s.upLock f).sheaf = s.sheaf := rfl
@[simp] theorem State.upLock_dio (f : LockSt → LockSt) (s : State) : (s.upLock f).dio = s.dio := rfl
@[simp] theorem State.upLock_ua (f : LockSt → LockSt) (s : State) : (s.upLock f).ua = s.ua := rfl
@[simp] theorem State.upLock_can (f : LockSt → LockSt) (s : State) : (s.upLock f).can = s.can := rfl
@[simp] theorem State.upLock_log (f : LockSt → LockSt) (s : State) : (s.upLock f).log = s.log := rfl
@[simp] theorem State.upLock_disp (f : LockSt → LockSt) (s : State) : (s.upLock f).disp = s.disp := rfl
@[simp] theorem State.upLock_sfp (f : LockSt → LockSt) (s : State) : (s.upLock f).sfp = s.sfp := rfl
@[simp] theorem State.upCfg_pending (f : CfgSt → CfgSt) (s : State) : (s.upCfg f).pending = s.pending := rfl
@[simp] theorem State.upCfg_free (f : CfgSt → CfgSt) (s : State) : (s.upCfg f).free = s.free := rfl
@[simp] theorem State.upCfg_out (f : CfgSt → CfgSt) (s : State) : (s.upCfg f).out = s.out := rfl
@[simp] theorem State.upCfg_mem (f : CfgSt → CfgSt) (s : State) : (s.upCfg f).mem = s.mem := rfl
@[simp] theorem State.upCfg_time (f : CfgSt → CfgSt) (s : State) : (s.upCfg f).time = s.time := rfl
@[simp] theorem State.upCfg_pair (f : CfgSt → CfgSt) (s : State) : (s.upCfg f).pair = s.pair := rfl
@[simp] theorem State.upCfg_cnt (f : CfgSt → CfgSt) (s : State) : (s.upCfg f).cnt = s.cnt := rfl
@[simp] theorem State.upCfg_power (f : CfgSt → CfgSt) (s : State) : (s.upCfg f).power = s.power := rfl
@[simp] theorem State.upCfg_boot (f : CfgSt → CfgSt) (s : State) : (s.upCfg f).boot = s.boot := rfl
@[simp] theorem State.upCfg_pts (f : CfgSt → CfgSt) (s : State) : (s.upCfg f).pts = s.pts := rfl
@[simp] theorem State.upCfg_cyc (f : CfgSt → CfgSt) (s : State) : (s.upCfg f).cyc = s.cyc := rfl
@[simp] theorem State.upCfg_fsp (f : CfgSt → CfgSt) (s : State) : (s.upCfg f).fsp = s.fsp := rfl
@[simp] theorem State.upCfg_sched (f : CfgSt → CfgSt) (s : State) : (s.upCfg f).sched = s.sched := rfl
@[simp] theorem State.upCfg_lock (f : CfgSt → CfgSt) (s : State) : (s.upCfg f).lock = s.lock := rfl
@[simp] theorem State.upCfg_cfg (f : CfgSt → CfgSt) (s : State) : (s.upCfg f).cfg = f s.cfg := rfl
@[simp] theorem State.upCfg_msg (f : CfgSt → CfgSt) (s : State) : (s.upCfg f).msg = s.msg := rfl
@[simp] theorem State.upCfg_mower (f : CfgSt → CfgSt) (s : State) : (s.upCfg f).mower = s.mower := rfl
@[simp] theorem State.upCfg_sec (f : CfgSt → CfgSt) (s : State) : (s.upCfg f).sec = s.sec := rfl
@[simp] theorem State.upCfg_gate (f : CfgSt → CfgSt) (s : State) : (s.upCfg f).gate = s.gate := rfl
@[simp] theorem State.upCfg_sheaf (f : CfgSt → CfgSt) (s : State) : (s.upCfg f).sheaf = s.sheaf := rfl
@[simp] theorem State.upCfg_dio (f : CfgSt → CfgSt) (s : State) : (s.upCfg f).dio = s.dio := rfl
@[simp] theorem State.upCfg_ua (f : CfgSt → CfgSt) (s : State) : (s.upCfg f).ua = s.ua := rfl
@[simp] theorem State.upCfg_can (f : CfgSt → CfgSt) (s : State) : (s.upCfg f).can = s.can := rfl
@[simp] theorem State.upCfg_log (f : CfgSt → CfgSt) (s : State) : (s.upCfg f).log = s.log := rfl
@[simp] theorem State.upCfg_disp (f : CfgSt → CfgSt) (s : State) : (s.upCfg f).disp = s.disp := rfl
@[simp] theorem State.upCfg_sfp (f : CfgSt → CfgSt) (s : State) : (s.upCfg f).sfp = s.sfp := rfl
@[simp] theorem State.upMsg_pending (f : MsgSt → MsgSt) (s : State) : (s.upMsg f).pending = s.pending := rfl
@[simp] theorem State.upMsg_free (f : MsgSt → MsgSt) (s : State) : (s.upMsg f).free = s.free := rfl
@[simp] theorem State.upMsg_out (f : MsgSt → MsgSt) (s : State) : (s.upMsg f).out = s.out := rfl
@[simp] theorem State.upMsg_mem (f : MsgSt → MsgSt) (s : State) : (s.upMsg f).mem = s.mem := rfl
@[simp] theorem State.upMsg_time (f : MsgSt → MsgSt) (s : State) : (s.upMsg f).time = s.time := rfl
@[simp] theorem State.upMsg_pair (f : MsgSt → MsgSt) (s : State) : (s.upMsg f).pair = s.pair := rfl
@[simp] theorem State.upMsg_cnt (f : MsgSt → MsgSt) (s : State) : (s.upMsg f).cnt = s.cnt := rfl
@[simp] theorem State.upMsg_power (f : MsgSt → MsgSt) (s : State) : (s.upMsg f).power = s.power := rfl
@[simp] theorem State.upMsg_boot (f : MsgSt → MsgSt) (s : State) : (s.upMsg f).boot = s.boot := rfl
@[simp] theorem State.upMsg_pts (f : MsgSt → MsgSt) (s : State) : (s.upMsg f).pts = s.pts := rfl
@[simp] theorem State.upMsg_cyc (f : MsgSt → MsgSt) (s : State) : (s.upMsg f).cyc = s.cyc := rfl
@[simp] theorem State.upMsg_fsp (f : MsgSt → MsgSt) (s : State) : (s.upMsg f).fsp = s.fsp := rfl
@[simp] theorem State.upMsg_sched (f : MsgSt → MsgSt) (s : State) : (s.upMsg f).sched = s.sched := rfl
@[simp] theorem State.upMsg_lock (f : MsgSt → MsgSt) (s : State) : (s.upMsg f).lock = s.lock := rfl
@[simp] theorem State.upMsg_cfg (f : MsgSt → MsgSt) (s : State) : (s.upMsg f).cfg = s.cfg := rfl
@[simp] theorem State.upMsg_msg (f : MsgSt → MsgSt) (s : State) : (s.upMsg f).msg = f s.msg := rfl
@[simp] theorem State.upMsg_mower (f : MsgSt → MsgSt) (s : State) : (s.upMsg f).mower = s.mower := rfl
@[simp] theorem State.upMsg_sec (f : MsgSt → MsgSt) (s : State) : (s.upMsg f).sec = s.sec := rfl
@[simp] theorem State.upMsg_gate (f : MsgSt → MsgSt) (s : State) : (s.upMsg f).gate = s.gate := rfl
@[simp] theorem State.upMsg_sheaf (f : MsgSt → MsgSt) (s : State) : (s.upMsg f).sheaf = s.sheaf := rfl
@[simp] theorem State.upMsg_dio (f : MsgSt → MsgSt) (s : State) : (s.upMsg f).dio = s.dio := rfl
@[simp] theorem State.upMsg_ua (f : MsgSt → MsgSt) (s : State) : (s.upMsg f).ua = s.ua := rfl
@[simp] theorem State.upMsg_can (f : MsgSt → MsgSt) (s : State) : (s.upMsg f).can = s.can := rfl
@[simp] theorem State.upMsg_log (f : MsgSt → MsgSt) (s : State) : (s.upMsg f).log = s.log := rfl
@[simp] theorem State.upMsg_disp (f : MsgSt → MsgSt) (s : State) : (s.upMsg f).disp = s.disp := rfl
@[simp] theorem State.upMsg_sfp (f : MsgSt → MsgSt) (s : State) : (s.upMsg f).sfp = s.sfp := rfl
@[simp] theorem State.upMower_pending (f : MowerSt → MowerSt) (s : State) : (s.upMower f).pending = s.pending := rfl
@[simp] theorem State.upMower_free (f : MowerSt → MowerSt) (s : State) : (s.upMower f).free = s.free := rfl
@[simp] theorem State.upMower_out (f : MowerSt → MowerSt) (s : State) : (s.upMower f).out = s.out := rfl
@[simp] theorem State.upMower_mem (f : MowerSt → MowerSt) (s : State) : (s.upMower f).mem = s.mem := rfl
@[simp] theorem State.upMower_time (f : MowerSt → MowerSt) (s : State) : (s.upMower f).time = s.time := rfl
@[simp] theorem State.upMower_pair (f : MowerSt → MowerSt) (s : State) : (s.upMower f).pair = s.pair := rfl
@[simp] theorem State.upMower_cnt (f : MowerSt → MowerSt) (s : State) : (s.upMower f).cnt = s.cnt := rfl
@[simp] theorem State.upMower_power (f : MowerSt → MowerSt) (s : State) : (s.upMower f).power = s.power := rfl
@[simp] theorem State.upMower_boot (f : MowerSt → MowerSt) (s : State) : (s.upMower f).boot = s.boot := rfl
@[simp] theorem State.upMower_pts (f : MowerSt → MowerSt) (s : State) : (s.upMower f).pts = s.pts := rfl
@[simp] theorem State.upMower_cyc (f : MowerSt → MowerSt) (s : State) : (s.upMower f).cyc = s.cyc := rfl
@[simp] theorem State.upMower_fsp (f : MowerSt → MowerSt) (s : State) : (s.upMower f).fsp = s.fsp := rfl
@[simp] theorem State.upMower_sched (f : MowerSt → MowerSt) (s : State) : (s.upMower f).sched = s.sched := rfl
@[simp] theorem State.upMower_lock (f : MowerSt → MowerSt) (s : State) : (s.upMower f).lock = s.lock := rfl
@[simp] theorem State.upMower_cfg (f : MowerSt → MowerSt) (s : State) : (s.upMower f).cfg = s.cfg := rfl
@[simp] theorem State.upMower_msg (f : MowerSt → MowerSt) (s : State) : (s.upMower f).msg = s.msg := rfl
@[simp] theorem State.upMower_mower (f : MowerSt → MowerSt) (s : State) : (s.upMower f).mower = f s.mower := rfl
@[simp] theorem State.upMower_sec (f : MowerSt → MowerSt) (s : State) : (s.upMower f).sec = s.sec := rfl
@[simp] theorem State.upMower_gate (f : MowerSt → MowerSt) (s : State) : (s.upMower f).gate = s.gate := rfl
@[simp] theorem State.upMower_sheaf (f : MowerSt → MowerSt) (s : State) : (s.upMower f).sheaf = s.sheaf := rfl
@[simp] theorem State.upMower_dio (f : MowerSt → MowerSt) (s : State) : (s.upMower f).dio = s.dio := rfl
@[simp] theorem State.upMower_ua (f : MowerSt → MowerSt) (s : State) : (s.upMower f).ua = s.ua := rfl
@[simp] theorem State.upMower_can (f : MowerSt → MowerSt) (s : State) : (s.upMower f).can = s.can := rfl
@[simp] theorem State.upMower_log (f : MowerSt → MowerSt) (s : State) : (s.upMower f).log = s.log := rfl
@[simp] theorem State.upMower_disp (f : MowerSt → MowerSt) (s : State) : (s.upMower f).disp = s.disp := rfl
@[simp] theorem State.upMower_sfp (f : MowerSt → MowerSt) (s : State) : (s.upMower f).sfp = s.sfp := rfl
@[simp] theorem State.upSec_pending (f : SecureSt → SecureSt) (s : State) : (s.upSec f).pending = s.pending := rfl
@[simp] theorem State.upSec_free (f : SecureSt → SecureSt) (s : State) : (s.upSec f).free = s.free := rfl
@[simp] theorem State.upSec_out (f : SecureSt → SecureSt) (s : State) : (s.upSec f).out = s.out := rfl
@[simp] theorem State.upSec_mem (f : SecureSt → SecureSt) (s : State) : (s.upSec f).mem = s.mem := rfl
@[simp] theorem State.upSec_time (f : SecureSt → SecureSt) (s : State) : (s.upSec f).time = s.time := rfl
@[simp] theorem State.upSec_pair (f : SecureSt → SecureSt) (s : State) : (s.upSec f).pair = s.pair := rfl
@[simp] theorem State.upSec_cnt (f : SecureSt → SecureSt) (s : State) : (s.upSec f).cnt = s.cnt := rfl
@[simp] theorem State.upSec_power (f : SecureSt → SecureSt) (s : State) : (s.upSec f).power = s.power := rfl
@[simp] theorem State.upSec_boot (f : SecureSt → SecureSt) (s : State) : (s.upSec f).boot = s.boot := rfl
@[simp] theorem State.upSec_pts (f : SecureSt → SecureSt) (s : State) : (s.upSec f).pts = s.pts := rfl
@[simp] theorem State.upSec_cyc (f : SecureSt → SecureSt) (s : State) : (s.upSec f).cyc = s.cyc := rfl
@[simp] theorem State.upSec_fsp (f : SecureSt → SecureSt) (s : State) : (s.upSec f).fsp = s.fsp := rfl
@[simp] theorem State.upSec_sched (f : SecureSt → SecureSt) (s : State) : (s.upSec f).sched = s.sched := rfl
@[simp] theorem State.upSec_lock (f : SecureSt → SecureSt) (s : State) : (s.upSec f).lock = s.lock := rfl
@[simp] theorem State.upSec_cfg (f : SecureSt → SecureSt) (s : State) : (s.upSec f).cfg = s.cfg := rfl
@[simp] theorem State.upSec_msg (f : SecureSt → SecureSt) (s : State) : (s.upSec f).msg = s.msg := rfl
@[simp] theorem State.upSec_mower (f : SecureSt → SecureSt) (s : State) : (s.upSec f).mower = s.mower := rfl
@[simp] theorem State.upSec_sec (f : SecureSt → SecureSt) (s : State) : (s.upSec f).sec = f s.sec := rfl
@[simp] theorem State.upSec_gate (f : SecureSt → SecureSt) (s : State) : (s.upSec f).gate = s.gate := rfl
@[simp] theorem State.upSec_sheaf (f : SecureSt → SecureSt) (s : State) : (s.upSec f).sheaf = s.sheaf := rfl
@[simp] theorem State.upSec_dio (f : SecureSt → SecureSt) (s : State) : (s.upSec f).dio = s.dio := rfl
@[simp] theorem State.upSec_ua (f : SecureSt → SecureSt) (s : State) : (s.upSec f).ua = s.ua := rfl
@[simp] theorem State.upSec_can (f : SecureSt → SecureSt) (s : State) : (s.upSec f).can = s.can := rfl
@[simp] theorem State.upSec_log (f : SecureSt → SecureSt) (s : State) : (s.upSec f).log = s.log := rfl
@[simp] theorem State.upSec_disp (f : SecureSt → SecureSt) (s : State) : (s.upSec f).disp = s.disp := rfl
@[simp] theorem State.upSec_sfp (f : SecureSt → SecureSt) (s : State) : (s.upSec f).sfp = s.sfp := rfl
@[simp] theorem State.upGate_pending (f : GateSt → GateSt) (s : State) : (s.upGate f).pending = s.pending := rfl
@[simp] theorem State.upGate_free (f : GateSt → GateSt) (s : State) : (s.upGate f).free = s.free := rfl
@[simp] theorem State.upGate_out (f : GateSt → GateSt) (s : State) : (s.upGate f).out = s.out := rfl
@[simp] theorem State.upGate_mem (f : GateSt → GateSt) (s : State) : (s.upGate f).mem = s.mem := rfl
@[simp] theorem State.upGate_time (f : GateSt → GateSt) (s : State) : (s.upGate f).time = s.time := rfl
@[simp] theorem State.upGate_pair (f : GateSt → GateSt) (s : State) : (s.upGate f).pair = s.pair := rfl
@[simp] theorem State.upGate_cnt (f : GateSt → GateSt) (s : State) : (s.upGate f).cnt = s.cnt := rfl
@[simp] theorem State.upGate_power (f : GateSt → GateSt) (s : State) : (s.upGate f).power = s.power := rfl
@[simp] theorem State.upGate_boot (f : GateSt → GateSt) (s : State) : (s.upGate f).boot = s.boot := rfl
@[simp] theorem State.upGate_pts (f : GateSt → GateSt) (s : State) : (s.upGate f).pts = s.pts := rfl
@[simp] theorem State.upGate_cyc (f : GateSt → GateSt) (s : State) : (s.upGate f).cyc = s.cyc := rfl
@[simp] theorem State.upGate_fsp (f : GateSt → GateSt) (s : State) : (s.upGate f).fsp = s.fsp := rfl
@[simp] theorem State.upGate_sched (f : GateSt → GateSt) (s : State) : (s.upGate f).sched = s.sched := rfl
@[simp] theorem State.upGate_lock (f : GateSt → GateSt) (s : State) : (s.upGate f).lock = s.lock := rfl
@[simp] theorem State.upGate_cfg (f : GateSt → GateSt) (s : State) : (s.upGate f).cfg = s.cfg := rfl
@[simp] theorem State.upGate_msg (f : GateSt → GateSt) (s : State) : (s.upGate f).msg = s.msg := rfl
@[simp] theorem State.upGate_mower (f : GateSt → GateSt) (s : State) : (s.upGate f).mower = s.mower := rfl
@[simp] theorem State.upGate_sec (f : GateSt → GateSt) (s : State) : (s.upGate f).sec = s.sec := rfl
@[simp] theorem State.upGate_gate (f : GateSt → GateSt) (s : State) : (s.upGate f).gate = f s.gate := rfl
@[simp] theorem State.upGate_sheaf (f : GateSt → GateSt) (s : State) : (s.upGate f).sheaf = s.sheaf := rfl
@[simp] theorem State.upGate_dio (f : GateSt → GateSt) (s : State) : (s.upGate f).dio = s.dio := rfl
@[simp] theorem State.upGate_ua (f : GateSt → GateSt) (s : State) : (s.upGate f).ua = s.ua := rfl
@[simp] theorem State.upGate_can (f : GateSt → GateSt) (s : State) : (s.upGate f).can = s.can := rfl
@[simp] theorem State.upGate_log (f : GateSt → GateSt) (s : State) : (s.upGate f).log = s.log := rfl
@[simp] theorem State.upGate_disp (f : GateSt → GateSt) (s : State) : (s.upGate f).disp = s.disp := rfl
@[simp] theorem State.upGate_sfp (f : GateSt → GateSt) (s : State) : (s.upGate f).sfp = s.sfp := rfl
@[simp] theorem State.upSheaf_pending (f : SheafSt → SheafSt) (s : State) : (s.upSheaf f).pending = s.pending := rfl
@[simp] theorem State.upSheaf_free (f : SheafSt → SheafSt) (s : State) : (s.upSheaf f).free = s.free := rfl
@[simp] theorem State.upSheaf_out (f : SheafSt → SheafSt) (s : State) : (s.upSheaf f).out = s.out := rfl
@[simp] theorem State.upSheaf_mem (f : SheafSt → SheafSt) (s : State) : (s.upSheaf f).mem = s.mem := rfl
@[simp] theorem State.upSheaf_time (f : SheafSt → SheafSt) (s : State) : (s.upSheaf f).time = s.time := rfl
@[simp] theorem State.upSheaf_pair (f : SheafSt → SheafSt) (s : State) : (s.upSheaf f).pair = s.pair := rfl
@[simp] theorem State.upSheaf_cnt (f : SheafSt → SheafSt) (s : State) : (s.upSheaf f).cnt = s.cnt := rfl
@[simp] theorem State.upSheaf_power (f : SheafSt → SheafSt) (s : State) : (s.upSheaf f).power = s.power := rfl
@[simp] theorem State.upSheaf_boot (f : SheafSt → SheafSt) (s : State) : (s.upSheaf f).boot = s.boot := rfl
@[simp] theorem State.upSheaf_pts (f : SheafSt → SheafSt) (s : State) : (s.upSheaf f).pts = s.pts := rfl
@[simp] theorem State.upSheaf_cyc (f : SheafSt → SheafSt) (s : State) : (s.upSheaf f).cyc = s.cyc := rfl
@[simp] theorem State.upSheaf_fsp (f : SheafSt → SheafSt) (s : State) : (s.upSheaf f).fsp = s.fsp := rfl
@[simp] theorem State.upSheaf_sched (f : SheafSt → SheafSt) (s : State) : (s.upSheaf f).sched = s.sched := rfl
@[simp] theorem State.upSheaf_lock (f : SheafSt → SheafSt) (s : State) : (s.upSheaf f).lock = s.lock := rfl
@[simp] theorem State.upSheaf_cfg (f : SheafSt → SheafSt) (s : State) : (s.upSheaf f).cfg = s.cfg := rfl
@[simp] theorem State.upSheaf_msg (f : SheafSt → SheafSt) (s : State) : (s.upSheaf f).msg = s.msg := rfl
@[simp] theorem State.upSheaf_mower (f : SheafSt → SheafSt) (s : State) : (s.upSheaf f).mower = s.mower := rfl
@[simp] theorem State.upSheaf_sec (f : SheafSt → SheafSt) (s : State) : (s.upSheaf f).sec = s.sec := rfl
@[simp] theorem State.upSheaf_gate (f : SheafSt → SheafSt) (s : State) : (s.upSheaf f).gate = s.gate := rfl
@[simp] theorem State.upSheaf_sheaf (f : SheafSt → SheafSt) (s : State) : (s.upSheaf f).sheaf = f s.sheaf := rfl
@[simp] theorem State.upSheaf_dio (f : SheafSt → SheafSt) (s : State) : (s.upSheaf f).dio = s.dio := rfl
@[simp] theorem State.upSheaf_ua (f : SheafSt → SheafSt) (s : State) : (s.upSheaf f).ua = s.ua := rfl
@[simp] theorem State.upSheaf_can (f : SheafSt → SheafSt) (s : State) : (s.upSheaf f).can = s.can := rfl
@[simp] theorem State.upSheaf_log (f : SheafSt → SheafSt) (s : State) : (s.upSheaf f).log = s.log := rfl
@[simp] theorem State.upSheaf_disp (f : SheafSt → SheafSt) (s : State) : (s.upSheaf f).disp = s.disp := rfl
@[simp] theorem State.upSheaf_sfp (f : SheafSt → SheafSt) (s : State) : (s.upSheaf f).sfp = s.sfp := rfl
@[simp] theorem State.upDio_pending (f : DioSt → DioSt) (s : State) : (s.upDio f).pending = s.pending := rfl
@[simp] theorem State.upDio_free (f : DioSt → DioSt) (s : State) : (s.upDio f).free = s.free := rfl
@[simp] theorem State.upDio_out (f : DioSt → DioSt) (s : State) : (s.upDio f).out = s.out := rfl
@[simp] theorem State.upDio_mem (f : DioSt → DioSt) (s : State) : (s.upDio f).mem = s.mem := rfl
@[simp] theorem State.upDio_time (f : DioSt → DioSt) (s : State) : (s.upDio f).time = s.time := rfl
@[simp] theorem State.upDio_pair (f : DioSt → DioSt) (s : State) : (s.upDio f).pair = s.pair := rfl
@[simp] theorem State.upDio_cnt (f : DioSt → DioSt) (s : State) : (s.upDio f).cnt = s.cnt := rfl
@[simp] theorem State.upDio_power (f : DioSt → DioSt) (s : State) : (s.upDio f).power = s.power := rfl
@[simp] theorem State.upDio_boot (f : DioSt → DioSt) (s : State) : (s.upDio f).boot = s.boot := rfl
@[simp] theorem State.upDio_pts (f : DioSt → DioSt) (s : State) : (s.upDio f).pts = s.pts := rfl
@[simp] theorem State.upDio_cyc (f : DioSt → DioSt) (s : State) : (s.upDio f).cyc = s.cyc := rfl
@[simp] theorem State.upDio_fsp (f : DioSt → DioSt) (s : State) : (s.upDio f).fsp = s.fsp := rfl
@[simp] theorem State.upDio_sched (f : DioSt → DioSt) (s : State) : (s.upDio f).sched = s.sched := rfl
@[simp] theorem State.upDio_lock (f : DioSt → DioSt) (s : State) : (s.upDio f).lock = s.lock := rfl
@[simp] theorem State.upDio_cfg (f : DioSt → DioSt) (s : State) : (s.upDio f).cfg = s.cfg := rfl
@[simp] theorem State.upDio_msg (f : DioSt → DioSt) (s : State) : (s.upDio f).msg = s.msg := rfl
@[simp] theorem State.upDio_mower (f : DioSt → DioSt) (s : State) : (s.upDio f).mower = s.mower := rfl
@[simp] theorem State.upDio_sec (f : DioSt → DioSt) (s : State) : (s.upDio f).sec = s.sec := rfl
@[simp] theorem State.upDio_gate (f : DioSt → DioSt) (s : State) : (s.upDio f).gate = s.gate := rfl
@[simp] theorem State.upDio_sheaf (f : DioSt → DioSt) (s : State) : (s.upDio f).sheaf = s.sheaf := rfl
@[simp] theorem State.upDio_dio (f : DioSt → DioSt) (s : State) : (s.upDio f).dio = f s.dio := rfl
@[simp] theorem State.upDio_ua (f : DioSt → DioSt) (s : State) : (s.upDio f).ua = s.ua := rfl
@[simp] theorem State.upDio_can (f : DioSt → DioSt) (s : State) : (s.upDio f).can = s.can := rfl
@[simp] theorem State.upDio_log (f : DioSt → DioSt) (s : State) : (s.upDio f).log = s.log := rfl
@[simp] theorem State.upDio_disp (f : DioSt → DioSt) (s : State) : (s.upDio f).disp = s.disp := rfl
@[simp] theorem State.upDio_sfp (f : DioSt → DioSt) (s : State) : (s.upDio f).sfp = s.sfp := rfl
@[simp] theorem State.upUa_pending (f : UaSt → UaSt) (s : State) : (s.upUa f).pending = s.pending := rfl
@[simp] theorem State.upUa_free (f : UaSt → UaSt) (s : State) : (s.upUa f).free = s.free := rfl
@[simp] theorem State.upUa_out (f : UaSt → UaSt) (s : State) : (s.upUa f).out = s.out := rfl
@[simp] theorem State.upUa_mem (f : UaSt → UaSt) (s : State) : (s.upUa f).mem = s.mem := rfl
@[simp] theorem State.upUa_time (f : UaSt → UaSt) (s : State) : (s.upUa f).time = s.time := rfl
@[simp] theorem State.upUa_pair (f : UaSt → UaSt) (s : State) : (s.upUa f).pair = s.pair := rfl
@[simp] theorem State.upUa_cnt (f : UaSt → UaSt) (s : State) : (s.upUa f).cnt = s.cnt := rfl
@[simp] theorem State.upUa_power (f : UaSt → UaSt) (s : State) : (s.upUa f).power = s.power := rfl
@[simp] theorem State.upUa_boot (f : UaSt → UaSt) (s : State) : (s.upUa f).boot = s.boot := rfl
@[simp] theorem State.upUa_pts (f : UaSt → UaSt) (s : State) : (s.upUa f).pts = s.pts := rfl
@[simp] theorem State.upUa_cyc (f : UaSt → UaSt) (s : State) : (s.upUa f).cyc = s.cyc := rfl
@[simp] theorem State.upUa_fsp (f : UaSt → UaSt) (s : State) : (s.upUa f).fsp = s.fsp := rfl
@[simp] theorem State.upUa_sched (f : UaSt → UaSt) (s : State) : (s.upUa f).sched = s.sched := rfl
@[simp] theorem State.upUa_lock (f : UaSt → UaSt) (s : State) : (s.upUa f).lock = s.lock := rfl
@[simp] theorem State.upUa_cfg (f : UaSt → UaSt) (s : State) : (s.upUa f).cfg = s.cfg := rfl
@[simp] theorem State.upUa_msg (f : UaSt → UaSt) (s : State) : (s.upUa f).msg = s.msg := rfl
@[simp] theorem State.upUa_mower (f : UaSt → UaSt) (s : State) : (s.upUa f).mower = s.mower := rfl
@[simp] theorem State.upUa_sec (f : UaSt → UaSt) (s : State) : (s.upUa f).sec = s.sec := rfl
@[simp] theorem State.upUa_gate (f : UaSt → UaSt) (s : State) : (s.upUa f).gate = s.gate := rfl
@[simp] theorem State.upUa_sheaf (f : UaSt → UaSt) (s : State) : (s.upUa f).sheaf = s.sheaf := rfl
@[simp] theorem State.upUa_dio (f : UaSt → UaSt) (s : State) : (s.upUa f).dio = s.dio := rfl
@[simp] theorem State.upUa_ua (f : UaSt → UaSt) (s : State) : (s.upUa f).ua = f s.ua := rfl
@[simp] theorem State.upUa_can (f : UaSt → UaSt) (s : State) : (s.upUa f).can = s.can := rfl
@[simp] theorem State.upUa_log (f : UaSt → UaSt) (s : State) : (s.upUa f).log = s.log := rfl
@[simp] theorem State.upUa_disp (f : UaSt → UaSt) (s : State) : (s.upUa f).disp = s.disp := rfl
@[simp] theorem State.upUa_sfp (f : UaSt → UaSt) (s : State) : (s.upUa f).sfp = s.sfp := rfl
@[simp] theorem State.upCan_pending (f : List CanCh → List CanCh) (s : State) : (s.upCan f).pending = s.pending := rfl
@[simp] theorem State.upCan_free (f : List CanCh → List CanCh) (s : State) : (s.upCan f).free = s.free := rfl
@[simp] theorem State.upCan_out (f : List CanCh → List CanCh) (s : State) : (s.upCan f).out = s.out := rfl
@[simp] theorem State.upCan_mem (f : List CanCh → List CanCh) (s : State) : (s.upCan f).mem = s.mem := rfl
@[simp] theorem State.upCan_time (f : List CanCh → List CanCh) (s : State) : (s.upCan f).time = s.time := rfl
@[simp] theorem State.upCan_pair (f : List CanCh → List CanCh) (s : State) : (s.upCan f).pair = s.pair := rfl
@[simp] theorem State.upCan_cnt (f : List CanCh → List CanCh) (s : State) : (s.upCan f).cnt = s.cnt := rfl
@[simp] theorem State.upCan_power (f : List CanCh → List CanCh) (s : State) : (s.upCan f).power = s.power := rfl
@[simp] theorem State.upCan_boot (f : List CanCh → List CanCh) (s : State) : (s.upCan f).boot = s.boot := rfl
@[simp] theorem State.upCan_pts (f : List CanCh → List CanCh) (s : State) : (s.upCan f).pts = s.pts := rfl
@[simp] theorem State.upCan_cyc (f : List CanCh → List CanCh) (s : State) : (s.upCan f).cyc = s.cyc := rfl
@[simp] theorem State.upCan_fsp (f : List CanCh → List CanCh) (s : State) : (s.upCan f).fsp = s.fsp := rfl
@[simp] theorem State.upCan_sched (f : List CanCh → List CanCh) (s : State) : (s.upCan f).sched = s.sched := rfl
@[simp] theorem State.upCan_lock (f : List CanCh → List CanCh) (s : State) : (s.upCan f).lock = s.lock := rfl
@[simp] theorem State.upCan_cfg (f : List CanCh → List CanCh) (s : State) : (s.upCan f).cfg = s.cfg := rfl
@[simp] theorem State.upCan_msg (f : List CanCh → List CanCh) (s : State) : (s.upCan f).msg = s.msg := rfl
@[simp] theorem State.upCan_mower (f : List CanCh → List CanCh) (s : State) : (s.upCan f).mower = s.mower := rfl
@[simp] theorem State.upCan_sec (f : List CanCh → List CanCh) (s : State) : (s.upCan f).sec = s.sec := rfl
@[simp] theorem State.upCan_gate (f : List CanCh → List CanCh) (s : State) : (s.upCan f).gate = s.gate := rfl
@[simp] theorem State.upCan_sheaf (f : List CanCh → List CanCh) (s : State) : (s.upCan f).sheaf = s.sheaf := rfl
@[simp] theorem State.upCan_dio (f : List CanCh → List CanCh) (s : State) : (s.upCan f).dio = s.dio := rfl
@[simp] theorem State.upCan_ua (f : List CanCh → List CanCh) (s : State) : (s.upCan f).ua = s.ua := rfl
@[simp] theorem State.upCan_can (f : List CanCh → List CanCh) (s : State) : (s.upCan f).can = f s.can := rfl
@[simp] theorem State.upCan_log (f : List CanCh → List CanCh) (s : State) : (s.upCan f).log = s.log := rfl
@[simp] theorem State.upCan_disp (f : List CanCh → List CanCh) (s : State) : (s.upCan f).disp = s.disp := rfl
@[simp] theorem State.upCan_sfp (f : List CanCh → List CanCh) (s : State) : (s.upCan f).sfp = s.sfp := rfl
@[simp] theorem State.upLog_pending (f : RecSt → RecSt) (s : State) : (s.upLog f).pending = s.pending := rfl
@[simp] theorem State.upLog_free (f : RecSt → RecSt) (s : State) : (s.upLog f).free = s.free := rfl
@[simp] theorem State.upLog_out (f : RecSt → RecSt) (s : State) : (s.upLog f).out = s.out := rfl
@[simp] theorem State.upLog_mem (f : RecSt → RecSt) (s : State) : (s.upLog f).mem = s.mem := rfl
@[simp] theorem State.upLog_time (f : RecSt → RecSt) (s : State) : (s.upLog f).time = s.time := rfl
@[simp] theorem State.upLog_pair (f : RecSt → RecSt) (s : State) : (s.upLog f).pair = s.pair := rfl
@[simp] theorem State.upLog_cnt (f : RecSt → RecSt) (s : State) : (s.upLog f).cnt = s.cnt := rfl
@[simp] theorem State.upLog_power (f : RecSt → RecSt) (s : State) : (s.upLog f).power = s.power := rfl
@[simp] theorem State.upLog_boot (f : RecSt → RecSt) (s : State) : (s.upLog f).boot = s.boot := rfl
@[simp] theorem State.upLog_pts (f : RecSt → RecSt) (s : State) : (s.upLog f).pts = s.pts := rfl
@[simp] theorem State.upLog_cyc (f : RecSt → RecSt) (s : State) : (s.upLog f).cyc = s.cyc := rfl
@[simp] theorem State.upLog_fsp (f : RecSt → RecSt) (s : State) : (s.upLog f).fsp = s.fsp := rfl
@[simp] theorem State.upLog_sched (f : RecSt → RecSt) (s : State) : (s.upLog f).sched = s.sched := rfl
@[simp] theorem State.upLog_lock (f : RecSt → RecSt) (s : State) : (s.upLog f).lock = s.lock := rfl
@[simp] theorem State.upLog_cfg (f : RecSt → RecSt) (s : State) : (s.upLog f).cfg = s.cfg := rfl
@[simp] theorem State.upLog_msg (f : RecSt → RecSt) (s : State) : (s.upLog f).msg = s.msg := rfl
@[simp] theorem State.upLog_mower (f : RecSt → RecSt) (s : State) : (s.upLog f).mower = s.mower := rfl
@[simp] theorem State.upLog_sec (f : RecSt → RecSt) (s : State) : (s.upLog f).sec = s.sec := rfl
@[simp] theorem State.upLog_gate (f : RecSt → RecSt) (s : State) : (s.upLog f).gate = s.gate := rfl
@[simp] theorem State.upLog_sheaf (f : RecSt → RecSt) (s : State) : (s.upLog f).sheaf = s.sheaf := rfl
@[simp] theorem State.upLog_dio (f : RecSt → RecSt) (s : State) : (s.upLog f).dio = s.dio := rfl
@[simp] theorem State.upLog_ua (f : RecSt → RecSt) (s : State) : (s.upLog f).ua = s.ua := rfl
@[simp] theorem State.upLog_can (f : RecSt → RecSt) (s : State) : (s.upLog f).can = s.can := rfl
@[simp] theorem State.upLog_log (f : RecSt → RecSt) (s : State) : (s.upLog f).log = f s.log := rfl
@[simp] theorem State.upLog_disp (f : RecSt → RecSt) (s : State) : (s.upLog f).disp = s.disp := rfl
@[simp] theorem State.upLog_sfp (f : RecSt → RecSt) (s : State) : (s.upLog f).sfp = s.sfp := rfl
@[simp] theorem State.upDisp_pending (f : DispSt → DispSt) (s : State) : (s.upDisp f).pending = s.pending := rfl
@[simp] theorem State.upDisp_free (f : DispSt → DispSt) (s : State) : (s.upDisp f).free = s.free := rfl
@[simp] theorem State.upDisp_out (f : DispSt → DispSt) (s : State) : (s.upDisp f).out = s.out := rfl
@[simp] theorem State.upDisp_mem (f : DispSt → DispSt) (s : State) : (s.upDisp f).mem = s.mem := rfl
@[simp] theorem State.upDisp_time (f : DispSt → DispSt) (s : State) : (s.upDisp f).time = s.time := rfl
@[simp] theorem State.upDisp_pair (f : DispSt → DispSt) (s : State) : (s.upDisp f).pair = s.pair := rfl
@[simp] theorem State.upDisp_cnt (f : DispSt → DispSt) (s : State) : (s.upDisp f).cnt = s.cnt := rfl
@[simp] theorem State.upDisp_power (f : DispSt → DispSt) (s : State) : (s.upDisp f).power = s.power := rfl
@[simp] theorem State.upDisp_boot (f : DispSt → DispSt) (s : State) : (s.upDisp f).boot = s.boot := rfl
@[simp] theorem State.upDisp_pts (f : DispSt → DispSt) (s : State) : (s.upDisp f).pts = s.pts := rfl
@[simp] theorem State.upDisp_cyc (f : DispSt → DispSt) (s : State) : (s.upDisp f).cyc = s.cyc := rfl
@[simp] theorem State.upDisp_fsp (f : DispSt → DispSt) (s : State) : (s.upDisp f).fsp = s.fsp := rfl
@[simp] theorem State.upDisp_sched (f : DispSt → DispSt) (s : State) : (s.upDisp f).sched = s.sched := rfl
@[simp] theorem State.upDisp_lock (f : DispSt → DispSt) (s : State) : (s.upDisp f).lock = s.lock := rfl
@[simp] theorem State.upDisp_cfg (f : DispSt → DispSt) (s : State) : (s.upDisp f).cfg = s.cfg := rfl
@[simp] theorem State.upDisp_msg (f : DispSt → DispSt) (s : State) : (s.upDisp f).msg = s.msg := rfl
@[simp] theorem State.upDisp_mower (f : DispSt → DispSt) (s : State) : (s.upDisp f).mower = s.mower := rfl
@[simp] theorem State.upDisp_sec (f : DispSt → DispSt) (s : State) : (s.upDisp f).sec = s.sec := rfl
@[simp] theorem State.upDisp_gate (f : DispSt → DispSt) (s : State) : (s.upDisp f).gate = s.gate := rfl
@[simp] theorem State.upDisp_sheaf (f : DispSt → DispSt) (s : State) : (s.upDisp f).sheaf = s.sheaf := rfl
@[simp] theorem State.upDisp_dio (f : DispSt → DispSt) (s : State) : (s.upDisp f).dio = s.dio := rfl
@[simp] theorem State.upDisp_ua (f : DispSt → DispSt) (s : State) : (s.upDisp f).ua = s.ua := rfl
@[simp] theorem State.upDisp_can (f : DispSt → DispSt) (s : State) : (s.upDisp f).can = s.can := rfl
@[simp] theorem State.upDisp_log (f : DispSt → DispSt) (s : State) : (s.upDisp f).log = s.log := rfl
@[simp] theorem State.upDisp_disp (f : DispSt → DispSt) (s : State) : (s.upDisp f).disp = f s.disp := rfl
@[simp] theorem State.upDisp_sfp (f : DispSt → DispSt) (s : State) : (s.upDisp f).sfp = s.sfp := rfl
@[simp] theorem State.upSfp_pending (f : List SfpSt → List SfpSt) (s : State) : (s.upSfp f).pending = s.pending := rfl
@[simp] theorem State.upSfp_free (f : List SfpSt → List SfpSt) (s : State) : (s.upSfp f).free = s.free := rfl
@[simp] theorem State.upSfp_out (f : List SfpSt → List SfpSt) (s : State) : (s.upSfp f).out = s.out := rfl
@[simp] theorem State.upSfp_mem (f : List SfpSt → List SfpSt) (s : State) : (s.upSfp f).mem = s.mem := rfl
@[simp] theorem State.upSfp_time (f : List SfpSt → List SfpSt) (s : State) : (s.upSfp f).time = s.time := rfl
@[simp] theorem State.upSfp_pair (f : List SfpSt → List SfpSt) (s : State) : (s.upSfp f).pair = s.pair := rfl
@[simp] theorem State.upSfp_cnt (f : List SfpSt → List SfpSt) (s : State) : (s.upSfp f).cnt = s.cnt := rfl
@[simp] theorem State.upSfp_power (f : List SfpSt → List SfpSt) (s : State) : (s.upSfp f).power = s.power := rfl
@[simp] theorem State.upSfp_boot (f : List SfpSt → List SfpSt) (s : State) : (s.upSfp f).boot = s.boot := rfl
@[simp] theorem State.upSfp_pts (f : List SfpSt → List SfpSt) (s : State) : (s.upSfp f).pts = s.pts := rfl
@[simp] theorem State.upSfp_cyc (f : List SfpSt → List SfpSt) (s : State) : (s.upSfp f).cyc = s.cyc := rfl
@[simp] theorem State.upSfp_fsp (f : List SfpSt → List SfpSt) (s : State) : (s.upSfp f).fsp = s.fsp := rfl
@[simp] theorem State.upSfp_sched (f : List SfpSt → List SfpSt) (s : State) : (s.upSfp f).sched = s.sched := rfl
@[simp] theorem State.upSfp_lock (f : List SfpSt → List SfpSt) (s : State) : (s.upSfp f).lock = s.lock := rfl
@[simp] theorem State.upSfp_cfg (f : List SfpSt → List SfpSt) (s : State) : (s.upSfp f).cfg = s.cfg := rfl
@[simp] theorem State.upSfp_msg (f : List SfpSt → List SfpSt) (s : State) : (s.upSfp f).msg = s.msg := rfl
@[simp] theorem State.upSfp_mower (f : List SfpSt → List SfpSt) (s : State) : (s.upSfp f).mower = s.mower := rfl
@[simp] theorem State.upSfp_sec (f : List SfpSt → List SfpSt) (s : State) : (s.upSfp f).sec = s.sec := rfl
@[simp] theorem State.upSfp_gate (f : List SfpSt → List SfpSt) (s : State) : (s.upSfp f).gate = s.gate := rfl
@[simp] theorem State.upSfp_sheaf (f : List SfpSt → List SfpSt) (s : State) : (s.upSfp f).sheaf = s.sheaf := rfl
@[simp] theorem State.upSfp_dio (f : List SfpSt → List SfpSt) (s : State) : (s.upSfp f).dio = s.dio := rfl
@[simp] theorem State.upSfp_ua (f : List SfpSt → List SfpSt) (s : State) : (s.upSfp f).ua = s.ua := rfl
@[simp] theorem State.upSfp_can (f : List SfpSt → List SfpSt) (s : State) : (s.upSfp f).can = s.can := rfl
@[simp] theorem State.upSfp_log (f : List SfpSt → List SfpSt) (s : State) : (s.upSfp f).log = s.log := rfl
@[simp] theorem State.upSfp_disp (f : List SfpSt → List SfpSt) (s : State) : (s.upSfp f).disp = s.disp := rfl
@[simp] theorem State.upSfp_sfp (f : List SfpSt → List SfpSt) (s : State) : (s.upSfp f).sfp = f s.sfp := rfl
@[simp] theorem State.emit_pending (e : Emission) (s : State) : (s.emit e).pending = s.pending := rfl
@[simp] theorem State.emit_free (e : Emission) (s : State) : (s.emit e).free = s.free := rfl
@[simp] theorem State.emit_out (e : Emission) (s : State) : (s.emit e).out = s.out ++ [e] := rfl
@[simp] theorem State.emit_mem (e : Emission) (s : State) : (s.emit e).mem = s.mem := rfl
@[simp] theorem State.emit_time (e : Emission) (s : State) : (s.emit e).time = s.time := rfl
@[simp] theorem State.emit_pair (e : Emission) (s : State) : (s.emit e).pair = s.pair := rfl
@[simp] theorem State.emit_cnt (e : Emission) (s : State) : (s.emit e).cnt = s.cnt := rfl
@[simp] theorem State.emit_power (e : Emission) (s : State) : (s.emit e).power = s.power := rfl
@[simp] theorem State.emit_boot (e : Emission) (s : State) : (s.emit e).boot = s.boot := rfl
@[simp] theorem State.emit_pts (e : Emission) (s : State) : (s.emit e).pts = s.pts := rfl
@[simp] theorem State.emit_cyc (e : Emission) (s : State) : (s.emit e).cyc = s.cyc := rfl
@[simp] theorem State.emit_fsp (e : Emission) (s : State) : (s.emit e).fsp = s.fsp := rfl
@[simp] theorem State.emit_sched (e : Emission) (s : State) : (s.emit e).sched = s.sched := rfl
@[simp] theorem State.emit_lock (e : Emission) (s : State) : (s.emit e).lock = s.lock := rfl
@[simp] theorem State.emit_cfg (e : Emission) (s : State) : (s.emit e).cfg = s.cfg := rfl
@[simp] theorem State.emit_msg (e : Emission) (s : State) : (s.emit e).msg = s.msg := rfl
@[simp] theorem State.emit_mower (e : Emission) (s : State) : (s.emit e).mower = s.mower := rfl
@[simp] theorem State.emit_sec (e : Emission) (s : State) : (s.emit e).sec = s.sec := rfl
@[simp] theorem State.emit_gate (e : Emission) (s : State) : (s.emit e).gate = s.gate := rfl
@[simp] theorem State.emit_sheaf (e : Emission) (s : State) : (s.emit e).sheaf = s.sheaf := rfl
@[simp] theorem State.emit_dio (e : Emission) (s : State) : (s.emit e).dio = s.dio := rfl
@[simp] theorem State.emit_ua (e : Emission) (s : State) : (s.emit e).ua = s.ua := rfl
@[simp] theorem State.emit_can (e : Emission) (s : State) : (s.emit e).can = s.can := rfl
@[simp] theorem State.emit_log (e : Emission) (s : State) : (s.emit e).log = s.log := rfl
@[simp] theorem State.emit_disp (e : Emission) (s : State) : (s.emit e).disp = s.disp := rfl
@[simp] theorem State.emit_sfp (e : Emission) (s : State) : (s.emit e).sfp = s.sfp := rfl
@[simp] theorem State.emits_pending (es : List Emission) (s : State) : (s.emits es).pending = s.pending := rfl
@[simp] theorem State.emits_free (es : List Emission) (s : State) : (s.emits es).free = s.free := rfl
@[simp] theorem State.emits_out (es : List Emission) (s : State) : (s.emits es).out = s.out ++ es := rfl
@[simp] theorem State.emits_mem (es : List Emission) (s : State) : (s.emits es).mem = s.mem := rfl
@[simp] theorem State.emits_time (es : List Emission) (s : State) : (s.emits es).time = s.time := rfl
@[simp] theorem State.emits_pair (es : List Emission) (s : State) : (s.emits es).pair = s.pair := rfl
@[simp] theorem State.emits_cnt (es : List Emission) (s : State) : (s.emits es).cnt = s.cnt := rfl
@[simp] theorem State.emits_power (es : List Emission) (s : State) : (s.emits es).power = s.power := rfl
@[simp] theorem State.emits_boot (es : List Emission) (s : State) : (s.emits es).boot = s.boot := rfl
@[simp] theorem State.emits_pts (es : List Emission) (s : State) : (s.emits es).pts = s.pts := rfl
@[simp] theorem State.emits_cyc (es : List Emission) (s : State) : (s.emits es).cyc = s.cyc := rfl
@[simp] theorem State.emits_fsp (es : List Emission) (s : State) : (s.emits es).fsp = s.fsp := rfl
@[simp] theorem State.emits_sched (es : List Emission) (s : State) : (s.emits es).sched = s.sched := rfl
@[simp] theorem State.emits_lock (es : List Emission) (s : State) : (s.emits es).lock = s.lock := rfl
@[simp] theorem State.emits_cfg (es : List Emission) (s : State) : (s.emits es).cfg = s.cfg := rfl
@[simp] theorem State.emits_msg (es : List Emission) (s : State) : (s.emits es).msg = s.msg := rfl
@[simp] theorem State.emits_mower (es : List Emission) (s : State) : (s.emits es).mower = s.mower := rfl
@[simp] theorem State.emits_sec (es : List Emission) (s : State) : (s.emits es).sec = s.sec := rfl
@[simp] theorem State.emits_gate (es : List Emission) (s : State) : (s.emits es).gate = s.gate := rfl
@[simp] theorem State.emits_sheaf (es : List Emission) (s : State) : (s.emits es).sheaf = s.sheaf := rfl
@[simp] theorem State.emits_dio (es : List Emission) (s : State) : (s.emits es).dio = s.dio := rfl
@[simp] theorem State.emits_ua (es : List Emission) (s : State) : (s.emits es).ua = s.ua := rfl
@[simp] theorem State.emits_can (es : List Emission) (s : State) : (s.emits es).can = s.can := rfl
@[simp] theorem State.emits_log (es : List Emission) (s : State) : (s.emits es).log = s.log := rfl
@[simp] theorem State.emits_disp (es : List Emission) (s : State) : (s.emits es).disp = s.disp := rfl
@[simp] theorem State.emits_sfp (es : List Emission) (s : State) : (s.emits es).sfp = s.sfp := rfl
@[simp] theorem State.useFree_pending (s : State) : s.useFree.pending = s.pending := rfl
@[simp] theorem State.useFree_free (s : State) : s.useFree.free = s.free + 1 := rfl
@[simp] theorem State.useFree_out (s : State) : s.useFree.out = s.out := rfl
@[simp] theorem State.useFree_mem (s : State) : s.useFree.mem = s.mem := rfl
@[simp] theorem State.useFree_time (s : State) : s.useFree.time = s.time := rfl
@[simp] theorem State.useFree_pair (s : State) : s.useFree.pair = s.pair := rfl
@[simp] theorem State.useFree_cnt (s : State) : s.useFree.cnt = s.cnt := rfl
@[simp] theorem State.useFree_power (s : State) : s.useFree.power = s.power := rfl
@[simp] theorem State.useFree_boot (s : State) : s.useFree.boot = s.boot := rfl
@[simp] theorem State.useFree_pts (s : State) : s.useFree.pts = s.pts := rfl
@[simp] theorem State.useFree_cyc (s : State) : s.useFree.cyc = s.cyc := rfl
@[simp] theorem State.useFree_fsp (s : State) : s.useFree.fsp = s.fsp := rfl
@[simp] theorem State.useFree_sched (s : State) : s.useFree.sched = s.sched := rfl
@[simp] theorem State.useFree_lock (s : State) : s.useFree.lock = s.lock := rfl
@[simp] theorem State.useFree_cfg (s : State) : s.useFree.cfg = s.cfg := rfl
@[simp] theorem State.useFree_msg (s : State) : s.useFree.msg = s.msg := rfl
@[simp] theorem State.useFree_mower (s : State) : s.useFree.mower = s.mower := rfl
@[simp] theorem State.useFree_sec (s : State) : s.useFree.sec = s.sec := rfl
@[simp] theorem State.useFree_gate (s : State) : s.useFree.gate = s.gate := rfl
@[simp] theorem State.useFree_sheaf (s : State) : s.useFree.sheaf = s.sheaf := rfl
@[simp] theorem State.useFree_dio (s : State) : s.useFree.dio = s.dio := rfl
@[simp] theorem State.useFree_ua (s : State) : s.useFree.ua = s.ua := rfl
@[simp] theorem State.useFree_can (s : State) : s.useFree.can = s.can := rfl
@[simp] theorem State.useFree_log (s : State) : s.useFree.log = s.log := rfl
@[simp] theorem State.useFree_disp (s : State) : s.useFree.disp = s.disp := rfl
@[simp] theorem State.useFree_sfp (s : State) : s.useFree.sfp = s.sfp := rfl

end Sys2Proof.Machine
end

