-- ==== Sys2Proof/Laws/Frame.lean ====
section
/-! SUPPORT. What an operation leaves as it was and what it keeps: composition, and one lemma per update of a part. -/

set_option Elab.async false
set_option linter.all false

namespace Sys2Proof.Machine

/-- An operation changes at most some parts, keeps the form of a state, and does not move the clock. -/
structure Keeps (ps : List Part) (s t : State) : Prop where
  frame : Frame ps s t
  wf : s.Wf → t.Wf
  now : t.time.now = s.time.now

def Part.sub (qs ps : List Part) : Bool := qs.all fun q => ps.contains q

theorem Part.sub_mem {qs ps : List Part} (h : Part.sub qs ps = true) {p : Part} (hp : p ∈ qs) : p ∈ ps := by
  simp only [Part.sub, List.all_eq_true, List.contains_eq_mem, decide_eq_true_eq] at h
  exact h p hp
theorem Part.sub_trans {ps qs rs : List Part} (h : Part.sub ps qs = true) (k : Part.sub qs rs = true) : Part.sub ps rs = true := by
  simp only [Part.sub, List.all_eq_true, List.contains_eq_mem, decide_eq_true_eq] at *
  exact fun x hx => k x (h x hx)
theorem Part.same_refl (p : Part) (s : State) : p.same s s := by
  cases p <;> first | rfl | exact fun _ _ => ⟨rfl, Iff.rfl⟩
theorem Part.same_trans {p : Part} {s t u : State} (h : p.same s t) (k : p.same t u) : p.same s u := by
  cases p <;> simp only [Part.same] at *
  case cache => exact fun a c => ⟨(k a c).1.trans (h a c).1, (k a c).2.trans (h a c).2⟩
  case mem => exact fun a c => ⟨(k a c).1.trans (h a c).1, (k a c).2.trans (h a c).2⟩
  all_goals exact k.trans h
theorem Keeps.refl {ps : List Part} (s : State) : Keeps ps s s := ⟨fun p _ => p.same_refl s, id, rfl⟩
/-- One more operation, which changes no further part. -/
theorem Keeps.step {ps qs : List Part} {s t u : State} (h : Keeps ps s t) (k : Keeps qs t u) (hq : Part.sub qs ps = true) : Keeps ps s u :=
  ⟨fun p hp => Part.same_trans (h.frame p hp) (k.frame p fun hm => hp (Part.sub_mem hq hm)), fun w => k.wf (h.wf w), k.now.trans h.now⟩
/-- The same, from the last operation back. -/
theorem Keeps.chain {ps qs : List Part} {s t u : State} (k : Keeps qs t u) (h : Keeps ps s t) (hq : Part.sub qs ps = true := by decide) : Keeps ps s u :=
  h.step k hq
theorem Keeps.mono {ps qs : List Part} {s t : State} (k : Keeps qs s t) (hq : Part.sub qs ps = true) : Keeps ps s t := (Keeps.refl s).step k hq
theorem Keeps.ite {ps : List Part} {s t u : State} {c : Prop} [Decidable c] (h : Keeps ps s t) (k : Keeps ps s u) :
    Keeps ps s (if c then t else u) := by split <;> assumption
theorem Keeps.foldl {α : Type} {ps : List Part} {s t : State} {f : State → α → State} (h : Keeps ps s t) (k : ∀ u x, Keeps ps u (f u x)) (l : List α) :
    Keeps ps s (l.foldl f t) := by
  induction l generalizing t with
  | nil => exact h
  | cons x l ih => exact ih (h.step (k t x) (by simp [Part.sub]))

theorem Keeps.iteFst {α : Type} {ps : List Part} {s : State} {p q : State × α} {c : Prop} [Decidable c] (h : Keeps ps s p.1) (k : Keeps ps s q.1) :
    Keeps ps s (if c then p else q).1 := by split <;> assumption
theorem Keeps.foldlFst {α β : Type} {ps : List Part} {s : State} {p : State × β} {f : State × β → α → State × β} (h : Keeps ps s p.1)
    (k : ∀ u x, Keeps ps u.1 (f u x).1) (l : List α) : Keeps ps s (l.foldl f p).1 := by
  induction l generalizing p with
  | nil => exact h
  | cons x l ih => exact ih (h.step (k p x) (by simp [Part.sub]))

theorem emit_keeps (e : Emission) (s : State) : Keeps [.out] s (s.emit e) :=
  ⟨fun p hp => by cases p <;> first | rfl | exact fun _ _ => ⟨rfl, Iff.rfl⟩ | exact absurd (by simp) hp, fun w => ⟨w.1, w.2, w.3, w.4⟩, rfl⟩
theorem emits_keeps (e : List Emission) (s : State) : Keeps [.out] s (s.emits e) :=
  ⟨fun p hp => by cases p <;> first | rfl | exact fun _ _ => ⟨rfl, Iff.rfl⟩ | exact absurd (by simp) hp, fun w => ⟨w.1, w.2, w.3, w.4⟩, rfl⟩
theorem useFree_keeps (s : State) : Keeps [.free] s s.useFree :=
  ⟨fun p hp => by cases p <;> first | rfl | exact fun _ _ => ⟨rfl, Iff.rfl⟩ | exact absurd (by simp) hp, fun w => ⟨w.1, w.2, w.3, w.4⟩, rfl⟩
theorem upTime_keeps (f : TimeSt → TimeSt) (s : State) (hf : (f s.time).now = s.time.now) : Keeps [.time] s (s.upTime f) :=
  ⟨fun p hp => by cases p <;> first | rfl | exact fun _ _ => ⟨rfl, Iff.rfl⟩ | exact absurd (by simp) hp, fun w => ⟨w.1, w.2, w.3, w.4⟩, hf⟩
theorem upPair_keeps (f : PairSt → PairSt) (s : State) (hf : (f s.pair).owner = true → s.pair.owner = true) : Keeps [.pair] s (s.upPair f) :=
  ⟨fun p hp => by cases p <;> first | rfl | exact fun _ _ => ⟨rfl, Iff.rfl⟩ | exact absurd (by simp) hp, fun w => ⟨w.1, w.2, fun o => w.3 (hf o), w.4⟩, rfl⟩
theorem upCnt_keeps (f : PairCnt → PairCnt) (s : State) : Keeps [.cnt] s (s.upCnt f) :=
  ⟨fun p hp => by cases p <;> first | rfl | exact fun _ _ => ⟨rfl, Iff.rfl⟩ | exact absurd (by simp) hp, fun w => ⟨w.1, w.2, w.3, w.4⟩, rfl⟩
theorem upPower_keeps (f : PowerSt → PowerSt) (s : State) (hf : (f s.power).mode = s.power.mode) : Keeps [.power] s (s.upPower f) :=
  ⟨fun p hp => by cases p <;> first | rfl | exact fun _ _ => ⟨rfl, Iff.rfl⟩ | exact absurd (by simp) hp, fun w => ⟨w.1, by simpa [hf] using w.2, by simpa [hf] using w.3, by simpa [hf] using w.4⟩, rfl⟩
theorem upBoot_keeps (f : BootSt → BootSt) (s : State) : Keeps [.boot] s (s.upBoot f) :=
  ⟨fun p hp => by cases p <;> first | rfl | exact fun _ _ => ⟨rfl, Iff.rfl⟩ | exact absurd (by simp) hp, fun w => ⟨w.1, w.2, w.3, w.4⟩, rfl⟩
theorem upPts_keeps (f : PointSt → PointSt) (s : State) : Keeps [.pts] s (s.upPts f) :=
  ⟨fun p hp => by cases p <;> first | rfl | exact fun _ _ => ⟨rfl, Iff.rfl⟩ | exact absurd (by simp) hp, fun w => ⟨w.1, w.2, w.3, w.4⟩, rfl⟩
theorem upCyc_keeps (f : CycleSt → CycleSt) (s : State) : Keeps [.cyc] s (s.upCyc f) :=
  ⟨fun p hp => by cases p <;> first | rfl | exact fun _ _ => ⟨rfl, Iff.rfl⟩ | exact absurd (by simp) hp, fun w => ⟨w.1, w.2, w.3, w.4⟩, rfl⟩
theorem upFsp_keeps (f : FspSt → FspSt) (s : State) : Keeps [.fsp] s (s.upFsp f) :=
  ⟨fun p hp => by cases p <;> first | rfl | exact fun _ _ => ⟨rfl, Iff.rfl⟩ | exact absurd (by simp) hp, fun w => ⟨w.1, w.2, w.3, w.4⟩, rfl⟩
theorem upSched_keeps (f : SchedSt → SchedSt) (s : State) : Keeps [.sched] s (s.upSched f) :=
  ⟨fun p hp => by cases p <;> first | rfl | exact fun _ _ => ⟨rfl, Iff.rfl⟩ | exact absurd (by simp) hp, fun w => ⟨w.1, w.2, w.3, w.4⟩, rfl⟩
theorem upLock_keeps (f : LockSt → LockSt) (s : State) : Keeps [.lock] s (s.upLock f) :=
  ⟨fun p hp => by cases p <;> first | rfl | exact fun _ _ => ⟨rfl, Iff.rfl⟩ | exact absurd (by simp) hp, fun w => ⟨w.1, w.2, w.3, w.4⟩, rfl⟩
theorem upCfg_keeps (f : CfgSt → CfgSt) (s : State) : Keeps [.cfg] s (s.upCfg f) :=
  ⟨fun p hp => by cases p <;> first | rfl | exact fun _ _ => ⟨rfl, Iff.rfl⟩ | exact absurd (by simp) hp, fun w => ⟨w.1, w.2, w.3, w.4⟩, rfl⟩
theorem upMsg_keeps (f : MsgSt → MsgSt) (s : State) : Keeps [.msg] s (s.upMsg f) :=
  ⟨fun p hp => by cases p <;> first | rfl | exact fun _ _ => ⟨rfl, Iff.rfl⟩ | exact absurd (by simp) hp, fun w => ⟨w.1, w.2, w.3, w.4⟩, rfl⟩
theorem upMower_keeps (f : MowerSt → MowerSt) (s : State) : Keeps [.mower] s (s.upMower f) :=
  ⟨fun p hp => by cases p <;> first | rfl | exact fun _ _ => ⟨rfl, Iff.rfl⟩ | exact absurd (by simp) hp, fun w => ⟨w.1, w.2, w.3, w.4⟩, rfl⟩
theorem upSec_keeps (f : SecureSt → SecureSt) (s : State) : Keeps [.sec] s (s.upSec f) :=
  ⟨fun p hp => by cases p <;> first | rfl | exact fun _ _ => ⟨rfl, Iff.rfl⟩ | exact absurd (by simp) hp, fun w => ⟨w.1, w.2, w.3, w.4⟩, rfl⟩
theorem upGate_keeps (f : GateSt → GateSt) (s : State) (hf : (f s.gate).debugOpen = true → s.gate.debugOpen = true) : Keeps [.gate] s (s.upGate f) :=
  ⟨fun p hp => by cases p <;> first | rfl | exact fun _ _ => ⟨rfl, Iff.rfl⟩ | exact absurd (by simp) hp, fun w => ⟨w.1, w.2, w.3, fun o => w.4 (hf o)⟩, rfl⟩
theorem upSheaf_keeps (f : SheafSt → SheafSt) (s : State) : Keeps [.sheaf] s (s.upSheaf f) :=
  ⟨fun p hp => by cases p <;> first | rfl | exact fun _ _ => ⟨rfl, Iff.rfl⟩ | exact absurd (by simp) hp, fun w => ⟨w.1, w.2, w.3, w.4⟩, rfl⟩
theorem upDio_keeps (f : DioSt → DioSt) (s : State) : Keeps [.dio] s (s.upDio f) :=
  ⟨fun p hp => by cases p <;> first | rfl | exact fun _ _ => ⟨rfl, Iff.rfl⟩ | exact absurd (by simp) hp, fun w => ⟨w.1, w.2, w.3, w.4⟩, rfl⟩
theorem upUa_keeps (f : UaSt → UaSt) (s : State) : Keeps [.ua] s (s.upUa f) :=
  ⟨fun p hp => by cases p <;> first | rfl | exact fun _ _ => ⟨rfl, Iff.rfl⟩ | exact absurd (by simp) hp, fun w => ⟨w.1, w.2, w.3, w.4⟩, rfl⟩
theorem upCan_keeps (f : List CanCh → List CanCh) (s : State) : Keeps [.can] s (s.upCan f) :=
  ⟨fun p hp => by cases p <;> first | rfl | exact fun _ _ => ⟨rfl, Iff.rfl⟩ | exact absurd (by simp) hp, fun w => ⟨w.1, w.2, w.3, w.4⟩, rfl⟩
theorem upLog_keeps (f : RecSt → RecSt) (s : State) : Keeps [.log] s (s.upLog f) :=
  ⟨fun p hp => by cases p <;> first | rfl | exact fun _ _ => ⟨rfl, Iff.rfl⟩ | exact absurd (by simp) hp, fun w => ⟨w.1, w.2, w.3, w.4⟩, rfl⟩
theorem upDisp_keeps (f : DispSt → DispSt) (s : State) : Keeps [.disp] s (s.upDisp f) :=
  ⟨fun p hp => by cases p <;> first | rfl | exact fun _ _ => ⟨rfl, Iff.rfl⟩ | exact absurd (by simp) hp, fun w => ⟨w.1, w.2, w.3, w.4⟩, rfl⟩
theorem upSfp_keeps (f : List SfpSt → List SfpSt) (s : State) : Keeps [.sfp] s (s.upSfp f) :=
  ⟨fun p hp => by cases p <;> first | rfl | exact fun _ _ => ⟨rfl, Iff.rfl⟩ | exact absurd (by simp) hp, fun w => ⟨w.1, w.2, w.3, w.4⟩, rfl⟩

end Sys2Proof.Machine
end

