-- ==== Sys2Proof/Laws/Happens.lean ====
section
/-! SUPPORT. An event answers a next state: with its effect where its premise holds, else with the clock moved alone. -/

set_option Elab.async false
set_option linter.all false

namespace Sys2Proof.Machine

theorem happens_of {t : Nat} {s : State} {p : State → Bool} {f : State → State} (h : p (s.arrive t) = true) : happens t s p f = .next (f (s.arrive t)) := by
  simp [happens, h]
theorem happens_not {t : Nat} {s : State} {p : State → Bool} {f : State → State} (h : p (s.arrive t) = false) : happens t s p f = .next (s.arrive t) := by
  simp [happens, h]
/-- What the effect keeps where its premise holds, the event keeps. -/
theorem happens_keeps {ps : List Part} {t : Nat} {s s' : State} {p : State → Bool} {f : State → State} (k : ∀ u, p u = true → Keeps ps u (f u))
    (h : happens t s p f = .next s') : Keeps ps (s.arrive t) s' := by
  unfold happens at h
  split at h
  · rename_i c
    cases h
    exact k _ c
  · cases h
    exact Keeps.refl _

/-- The clock never goes back. -/
theorem arrive_now (t : Nat) (s : State) : (s.arrive t).time.now = max s.time.now t := by
  unfold State.arrive advanceTime State.upTime
  dsimp only
  split
  · omega
  · split <;> (dsimp only; omega)
/-- Only the clock moves before an event. -/
theorem arrive_frame (t : Nat) (s : State) : Frame [.time] s (s.arrive t) := fun p hp => by
  cases p <;> first | rfl | exact fun _ _ => ⟨rfl, Iff.rfl⟩ | exact absurd (by simp) hp
theorem arrive_wf (t : Nat) {s : State} (w : s.Wf) : (s.arrive t).Wf := ⟨w.1, w.2, w.3, w.4⟩

end Sys2Proof.Machine
end

