-- ==== Sys2Proof/Laws/Memory.lean ====
section
/-! SUPPORT. Memory: reads after writes, and that every operation keeps the canonical form. -/

set_option Elab.async false
set_option linter.all false

namespace Sys2Proof.Machine

theorem cellsFrom_mono {cs : List Host.Cell} {lo hi : Nat} (h : cellsFrom hi cs = true) (hl : lo ≤ hi) : cellsFrom lo cs = true := by
  cases cs with
  | nil => rfl
  | cons c cs =>
    obtain ⟨a, v⟩ := c
    simp only [cellsFrom, Bool.and_eq_true, decide_eq_true_eq] at h ⊢
    exact ⟨⟨by omega, h.1.2⟩, h.2⟩
theorem cellsWrite_from (cs : List Host.Cell) (a : Nat) (v : Byte) : ∀ lo, cellsFrom lo cs = true → lo ≤ a → cellsFrom lo (cellsWrite cs a v) = true := by
  induction cs with
  | nil =>
    intro lo _ hl
    simp only [cellsWrite]
    split
    · rfl
    · simp [cellsFrom, *]
  | cons c cs ih =>
    obtain ⟨b, w⟩ := c
    intro lo h hl
    simp only [cellsFrom, Bool.and_eq_true, decide_eq_true_eq] at h
    simp only [cellsWrite]
    split
    · split
      · simp [cellsFrom, h]
      · simp only [cellsFrom, Bool.and_eq_true, decide_eq_true_eq]
        exact ⟨⟨hl, by assumption⟩, ⟨by omega, h.1.2⟩, h.2⟩
    · split
      · split
        · exact cellsFrom_mono h.2 (by omega)
        · subst b
          simp only [cellsFrom, Bool.and_eq_true, decide_eq_true_eq]
          exact ⟨⟨hl, by assumption⟩, h.2⟩
      · simp only [cellsFrom, Bool.and_eq_true, decide_eq_true_eq]
        exact ⟨h.1, ih (b + 1) h.2 (by omega)⟩
theorem cellsRead_write_ne (cs : List Host.Cell) (a b : Nat) (v : Byte) (h : b ≠ a) : cellsRead (cellsWrite cs a v) b = cellsRead cs b := by
  induction cs with
  | nil => simp only [cellsWrite]; split <;> simp [cellsRead, h]
  | cons c cs ih =>
    obtain ⟨d, w⟩ := c
    simp only [cellsWrite]
    split
    · split <;> simp [cellsRead, h]
    · split
      · subst d; split <;> simp [cellsRead, h]
      · simp [cellsRead, ih]
/-- A byte below the bound of a canonical list is not listed. -/
theorem cellsRead_below (cs : List Host.Cell) : ∀ lo a, cellsFrom lo cs = true → a < lo → cellsRead cs a = 0#8 := by
  induction cs with
  | nil => intros; rfl
  | cons c cs ih =>
    obtain ⟨b, w⟩ := c
    intro lo a h hl
    simp only [cellsFrom, Bool.and_eq_true, decide_eq_true_eq] at h
    have : a ≠ b := by omega
    simp only [cellsRead, this, if_false]
    exact ih (b + 1) a h.2 (by omega)
theorem cellsRead_write_self (cs : List Host.Cell) (a : Nat) (v : Byte) : ∀ lo, cellsFrom lo cs = true → cellsRead (cellsWrite cs a v) a = v := by
  induction cs with
  | nil => intro lo _; simp only [cellsWrite]; split <;> simp_all [cellsRead]
  | cons c cs ih =>
    obtain ⟨b, w⟩ := c
    intro lo h
    simp only [cellsFrom, Bool.and_eq_true, decide_eq_true_eq] at h
    simp only [cellsWrite]
    split
    · split
      · have : a ≠ b := by omega
        simp only [cellsRead, this, if_false]
        rw [cellsRead_below cs (b + 1) a h.2 (by omega)]; simp_all
      · simp [cellsRead]
    · split
      · subst b
        split
        · rw [cellsRead_below cs (a + 1) a h.2 (by omega)]; simp_all
        · simp [cellsRead]
      · rename_i h1 h2
        simp only [cellsRead, h2, if_false]
        exact ih (b + 1) h.2
theorem cellsFrom_filter (f : Nat → Bool) (cs : List Host.Cell) : ∀ lo, cellsFrom lo cs = true → cellsFrom lo (cs.filter fun c => f c.1) = true := by
  induction cs with
  | nil => intros; rfl
  | cons c cs ih =>
    obtain ⟨b, w⟩ := c
    intro lo h
    simp only [cellsFrom, Bool.and_eq_true, decide_eq_true_eq] at h
    simp only [List.filter_cons]
    split
    · simp only [cellsFrom, Bool.and_eq_true, decide_eq_true_eq]; exact ⟨h.1, ih (b + 1) h.2⟩
    · exact cellsFrom_mono (ih (b + 1) h.2) (by omega)
theorem cellsRead_filter (f : Nat → Bool) (cs : List Host.Cell) (a : Nat) (h : f a = true) :
    cellsRead (cs.filter fun c => f c.1) a = cellsRead cs a := by
  induction cs with
  | nil => rfl
  | cons c cs ih =>
    obtain ⟨b, w⟩ := c
    simp only [List.filter_cons]
    by_cases hb : a = b
    · subst hb; simp [h, cellsRead]
    · split <;> simp [cellsRead, hb, ih]

/-! ## Writes keep the canonical form -/

theorem memWrite_wf {m : Mem} (a : Nat) (v : Byte) (h : Memory.wf m = true) : Memory.wf (memWrite m a v) = true :=
  cellsWrite_from _ _ _ 0 h (Nat.zero_le a)
theorem memWriteBytes_wf (bs : List Byte) : ∀ (a : Nat) {m : Mem}, Memory.wf m = true → Memory.wf (memWriteBytes bs a m) = true := by
  induction bs with
  | nil => intro a m h; exact h
  | cons b bs ih => intro a m h; exact ih (a + 1) (memWrite_wf a b h)
theorem memStore_wf (bs : List Byte) (a : Nat) {m : Mem} (h : Memory.wf m = true) : Memory.wf (memStore bs a m) = true := memWriteBytes_wf bs a h
theorem memWriteN_wf (a n v : Nat) {m : Mem} (h : Memory.wf m = true) : Memory.wf (memWriteN m a n v) = true := memStore_wf _ _ h
theorem memClear_wf (lo hi : Nat) {m : Mem} (h : Memory.wf m = true) : Memory.wf (memClear m lo hi) = true :=
  cellsFrom_filter (fun a => decide (a < lo) || decide (hi < a)) m.cells 0 h

/-! ## A read after a write -/

theorem memRead_write_self {m : Mem} (a : Nat) (v : Byte) (h : Memory.wf m = true) : memRead (memWrite m a v) a = v := cellsRead_write_self _ a v 0 h
theorem memRead_write_ne (m : Mem) (a b : Nat) (v : Byte) (h : b ≠ a) : memRead (memWrite m a v) b = memRead m b := cellsRead_write_ne _ a b v h
/-- Writing bytes leaves every other byte alone. -/
theorem memRead_writeBytes_out (bs : List Byte) : ∀ (a b : Nat) (m : Mem), b < a ∨ a + bs.length ≤ b → memRead (memWriteBytes bs a m) b = memRead m b := by
  induction bs with
  | nil => intros; rfl
  | cons x bs ih =>
    intro a b m h
    simp only [List.length_cons] at h
    show memRead (memWriteBytes bs (a + 1) (memWrite m a x)) b = _
    rw [ih (a + 1) b _ (by omega), memRead_write_ne m a b x (by omega)]
/-- Bytes that are written read back. -/
theorem memRead_writeBytes_in (bs : List Byte) : ∀ (a i : Nat) (m : Mem), Memory.wf m = true → (h : i < bs.length) → memRead (memWriteBytes bs a m) (a + i) = bs[i] := by
  induction bs with
  | nil => intro a i m _ h; simp at h
  | cons x bs ih =>
    intro a i m w h
    show memRead (memWriteBytes bs (a + 1) (memWrite m a x)) (a + i) = _
    cases i with
    | zero => rw [memRead_writeBytes_out bs (a + 1) (a + 0) _ (by omega)]; exact memRead_write_self a x w
    | succ i => rw [show a + (i + 1) = a + 1 + i by omega, ih (a + 1) i _ (memWrite_wf a x w) (by simpa using h)]; rfl
theorem memRead_store_out (bs : List Byte) (a b : Nat) (m : Mem) (h : b < a ∨ a + bs.length ≤ b) : memRead (memStore bs a m) b = memRead m b :=
  memRead_writeBytes_out bs a b m h
theorem memRead_clear_out (lo hi : Nat) (m : Mem) (a : Nat) (h : a < lo ∨ hi < a) : memRead (memClear m lo hi) a = memRead m a :=
  cellsRead_filter (fun a => decide (a < lo) || decide (hi < a)) m.cells a (by simpa using h)

/-! ## Updates of memory -/

theorem upMem_keeps (f : Mem → Mem) (s : State) (hf : Memory.wf s.mem = true → Memory.wf (f s.mem) = true) : Keeps [.mem, .cache] s (s.upMem f) :=
  ⟨fun p hp => by cases p <;> first | rfl | exact absurd (by simp) hp, fun w => ⟨hf w.1, w.2, w.3, w.4⟩, rfl⟩
theorem leBytes_length (n x : Nat) : (leBytes n x).length = n := by
  induction n generalizing x with
  | zero => rfl
  | succ n ih => simp [leBytes, ih]
theorem zeroBytes_length (n : Nat) : (zeroBytes n).length = n := by simp [zeroBytes]
theorem padTo_length (n : Nat) (bs : List Byte) : (padTo n bs).length = n := by simp [padTo, zeroBytes_length]; omega
theorem setImage_keeps (h : Nat) (e : Word64) (s : State) : Keeps [.mem, .cache] s (s.setImage h e) := upMem_keeps _ _ fun w => memWriteN_wf _ _ _ w
theorem setRule_keeps (h : Nat) (e : Word64) (s : State) : Keeps [.mem, .cache] s (s.setRule h e) := upMem_keeps _ _ fun w => memWriteN_wf _ _ _ w
theorem memWriteBytes_bad (bs : List Byte) : ∀ (c : Nat) (m : Mem), (memWriteBytes bs c m).bad = m.bad := by
  induction bs with
  | nil => intros; rfl
  | cons x bs ih => intro c m; exact ih (c + 1) _
/-- A write within the recorder cache leaves all other memory. -/
theorem cacheWrite_outside (bs : List Byte) (a : Nat) (m : Mem) (h : 0x0AA00000 ≤ a ∧ a + bs.length ≤ 0x0AC00000) :
    Mem.sameAt (fun a => !inCache a) m (memStore bs a m) := by
  intro b hb
  simp only [inCache, Bool.not_eq_true', Bool.and_eq_false_iff, decide_eq_false_iff_not] at hb
  refine ⟨memRead_store_out bs a b m (by omega), ?_⟩
  simp only [memStore, List.mem_filter, memWriteBytes_bad]
  exact ⟨fun h => h.1, fun h => ⟨h, by simp; omega⟩⟩
/-- A write within the recorder cache. -/
theorem cacheWrite_keeps (bs : List Byte) (a : Nat) (s : State) (h : 0x0AA00000 ≤ a ∧ a + bs.length ≤ 0x0AC00000) :
    Keeps [.cache] s (s.upMem fun m => memStore bs a m) := by
  refine ⟨fun p hp => ?_, fun w => ⟨memStore_wf _ _ w.1, w.2, w.3, w.4⟩, rfl⟩
  cases p
  case cache => exact absurd (by simp) hp
  case mem => exact cacheWrite_outside bs a s.mem h
  all_goals rfl

end Sys2Proof.Machine
end

