-- ==== Sys2Proof/Laws/KeepOps.lean ====
section
/-! SUPPORT. What the operations of Ops.lean may change; each keeps the form of a state and the instant. -/

set_option Elab.async false
set_option linter.all false

namespace Sys2Proof.Machine

theorem setBase_keeps (n : Nat) (f : Base → Base) (s : State) : Keeps [.time] s (State.setBase n f s) :=
  upTime_keeps _ _ (by split <;> rfl)

theorem recordBytes_length (r : Record) (h : r.payload.length = 32) : (recordBytes r).length = 64 := by
  simp [recordBytes, leBytes_length, h]

theorem putRecord_keeps (type : Nat) (payload : List Byte) (s : State) : Keeps [.cache, .log] s (State.putRecord type payload s) := by
  unfold State.putRecord
  refine Keeps.step ?_ (upLog_keeps _ _) (by decide)
  refine (cacheWrite_keeps _ _ s ?_).mono (by decide)
  rw [recordBytes_length _ (padTo_length _ _)]
  omega

theorem dropRecord_keeps (s : State) : Keeps [.log] s (State.dropRecord s) := by
  unfold State.dropRecord
  repeat' first
    | with_reducible exact Keeps.refl _
    | with_reducible apply Keeps.chain (upLog_keeps _ _)

theorem reportDrops_keeps (s : State) : Keeps [.cache, .log] s (State.reportDrops s) := by
  unfold State.reportDrops
  repeat' first
    | with_reducible exact Keeps.refl _
    | with_reducible apply Keeps.ite
    | with_reducible apply Keeps.chain (upLog_keeps _ _)
    | with_reducible apply Keeps.chain (putRecord_keeps ..)

theorem record__keeps (type : Nat) (payload : List Byte) (s : State) : Keeps [.cache, .log] s (State.record_ type payload s) := by
  unfold State.record_
  repeat' first
    | with_reducible exact Keeps.refl _
    | with_reducible apply Keeps.ite
    | with_reducible apply Keeps.chain (dropRecord_keeps ..)
    | with_reducible apply Keeps.chain (putRecord_keeps ..)
    | with_reducible apply Keeps.chain (reportDrops_keeps ..)

theorem record_keeps (type : Nat) (qs : List (Nat × Nat)) (s : State) : Keeps [.cache, .log] s (State.record type qs s) := by
  unfold State.record
  repeat' first
    | with_reducible exact Keeps.refl _
    | with_reducible apply Keeps.chain (record__keeps ..)

theorem recordAtMost_keeps (key max type : Nat) (qs : List (Nat × Nat)) (s : State) : Keeps [.cache, .log] s (State.recordAtMost key max type qs s) := by
  unfold State.recordAtMost
  repeat' first
    | with_reducible exact Keeps.refl _
    | with_reducible apply Keeps.ite
    | with_reducible apply Keeps.chain (upLog_keeps _ _)
    | with_reducible apply Keeps.chain (record_keeps ..)
    | split
    | dsimp only

theorem dropClaim_keeps (s : State) : Keeps [.out, .pair] s (State.dropClaim s) := by
  unfold State.dropClaim
  repeat' first
    | with_reducible exact Keeps.refl _
    | with_reducible apply Keeps.ite
    | with_reducible apply Keeps.chain (emit_keeps _ _)
    | with_reducible apply Keeps.chain (upPair_keeps _ _ (by first | exact id | exact fun h => by cases h | (dsimp only; split <;> exact id) | (unfold setLane; split <;> exact id)))

theorem sendYield_keeps (s : State) : Keeps [.out] s (State.sendYield s) := by
  unfold State.sendYield
  repeat' first
    | with_reducible exact Keeps.refl _
    | with_reducible apply Keeps.ite
    | with_reducible apply Keeps.chain (emit_keeps _ _)

theorem notOwner_keeps (s : State) : Keeps [.pair, .cyc, .sched, .can] s (State.notOwner s) := by
  unfold State.notOwner
  repeat' first
    | with_reducible exact Keeps.refl _
    | with_reducible apply Keeps.chain (upCan_keeps _ _)
    | with_reducible apply Keeps.chain (upCyc_keeps _ _)
    | with_reducible apply Keeps.chain (upPair_keeps _ _ (by first | exact id | exact fun h => by cases h | (dsimp only; split <;> exact id) | (unfold setLane; split <;> exact id)))
    | with_reducible apply Keeps.chain (upSched_keeps _ _)

theorem giveUp_keeps (s : State) : Keeps [.out, .pair, .cyc, .sched, .can] s (State.giveUp s) := by
  unfold State.giveUp
  repeat' first
    | with_reducible exact Keeps.refl _
    | with_reducible apply Keeps.ite
    | with_reducible apply Keeps.chain (dropClaim_keeps ..)
    | with_reducible apply Keeps.chain (notOwner_keeps ..)
    | with_reducible apply Keeps.chain (sendYield_keeps ..)

theorem closeDebug_keeps (s : State) : Keeps [.cache, .gate, .log] s (State.closeDebug s) := by
  unfold State.closeDebug
  split
  · refine Keeps.step ?_ (record_keeps ..) (by decide)
    exact (upGate_keeps _ _ (fun h => by cases h)).mono (by decide)
  · exact Keeps.refl _

theorem closeDebug_closes (s : State) : (State.closeDebug s).gate.debugOpen = false := by
  unfold State.closeDebug
  split
  · rw [(record_keeps ..).frame .gate (by decide)]; rfl
  · exact Bool.eq_false_iff.mpr ‹_›

theorem goMode_keeps (new reason : Nat) (s : State) (hn : 1 ≤ new ∧ new ≤ 8 := by decide) : Keeps [.cache, .pair, .power, .gate, .sheaf, .log] s (State.goMode new reason s) := by
  unfold State.goMode
  dsimp only
  apply Keeps.chain (record_keeps ..)
  generalize h1 : (if (s.power.mode == 2 && new != 2) = true then s.closeDebug else s) = s1
  have k1 : Keeps [.cache, .pair, .power, .gate, .sheaf, .log] s s1 := by
    rw [← h1]; exact Keeps.ite ((closeDebug_keeps s).mono (by decide)) (Keeps.refl s)
  have d1 : s.Wf → s1.gate.debugOpen = true → new = 2 := by
    intro w h
    by_cases hm : new = 2
    · exact hm
    · exfalso
      rw [← h1] at h
      split at h
      · rw [closeDebug_closes] at h; cases h
      · have := w.debug h
        simp_all
  generalize h2 : (if (healthyMode s.power.mode || !healthyMode new) = true then s1
    else s1.upSheaf fun h => { h with healthFrom := s1.time.now }) = s2
  have k2 : Keeps [.cache, .pair, .power, .gate, .sheaf, .log] s s2 := by
    rw [← h2]; exact Keeps.ite k1 (k1.step (upSheaf_keeps _ _) (by decide))
  have d2 : s2.gate = s1.gate := by rw [← h2]; split <;> rfl
  have k3 := k2.step (upPair_keeps (fun p => { p with owner := p.owner && (new == 5 || new == 6) }) s2 (fun h => by simp_all)) (by decide)
  refine ⟨fun p hp => ?_, fun w => ?_, k3.now⟩
  · have := k3.frame p hp
    cases p <;> first | exact this | exact absurd (by simp) hp
  · have w2 := k3.wf w
    exact ⟨w2.mem, hn, fun h => by simpa using (Bool.and_eq_true_iff.mp h).2, fun h => d1 w (by rw [← d2]; exact h)⟩
theorem record_power (type : Nat) (qs : List (Nat × Nat)) (s : State) : (s.record type qs).power = s.power := (record_keeps type qs s).frame .power (by decide)
/-- The mode after a transition (08 R180). -/
theorem goMode_mode (new reason : Nat) (s : State) : (State.goMode new reason s).power.mode = new := by
  unfold State.goMode
  dsimp only
  rw [record_power]
  rfl

theorem stayMode_keeps (reason : Nat) (s : State) : Keeps [.cache, .log] s (State.stayMode reason s) := by
  unfold State.stayMode
  repeat' first
    | with_reducible exact Keeps.refl _
    | with_reducible apply Keeps.chain (record_keeps ..)

theorem dioToSafe_keeps (s : State) : Keeps [.dio] s (State.dioToSafe s) := by
  unfold State.dioToSafe
  repeat' first
    | with_reducible exact Keeps.refl _
    | with_reducible apply Keeps.chain (upDio_keeps _ _)

theorem uaToSafe_keeps (s : State) : Keeps [.ua] s (State.uaToSafe s) := by
  unfold State.uaToSafe
  repeat' first
    | with_reducible exact Keeps.refl _
    | with_reducible apply Keeps.chain (upUa_keeps _ _)

theorem endJob_keeps (id status : Nat) (result : List Byte) (s : State) : Keeps [.msg] s (State.endJob id status result s) := by
  unfold State.endJob
  repeat' first
    | with_reducible exact Keeps.refl _
    | with_reducible apply Keeps.ite
    | with_reducible apply Keeps.chain (upMsg_keeps _ _)

theorem abandonArmed_keeps (status : Nat) (s : State) : Keeps [.pair, .cfg, .msg] s (State.abandonArmed status s) := by
  unfold State.abandonArmed
  repeat' first
    | with_reducible exact Keeps.refl _
    | with_reducible apply Keeps.chain (upCfg_keeps _ _)
    | with_reducible apply Keeps.chain (upPair_keeps _ _ (by first | exact id | exact fun h => by cases h | (dsimp only; split <;> exact id) | (unfold setLane; split <;> exact id)))
    | with_reducible apply Keeps.chain (endJob_keeps ..)
    | split
    | dsimp only

theorem safeHold_keeps (reason : Nat) (s : State) : Keeps [.cache, .out, .pair, .power, .cyc, .sched, .cfg, .msg, .gate, .sheaf, .dio, .ua, .can, .log] s (State.safeHold reason s) := by
  unfold State.safeHold
  repeat' first
    | with_reducible exact Keeps.refl _
    | with_reducible apply Keeps.ite
    | with_reducible apply Keeps.chain (emit_keeps _ _)
    | with_reducible apply Keeps.chain (upPair_keeps _ _ (by first | exact id | exact fun h => by cases h | (dsimp only; split <;> exact id) | (unfold setLane; split <;> exact id)))
    | with_reducible apply Keeps.chain (upPower_keeps _ _ (by first | rfl | (dsimp only; split <;> rfl) | (dsimp only; repeat' first | rfl | split)))
    | with_reducible apply Keeps.chain (upSheaf_keeps _ _)
    | with_reducible apply Keeps.chain (abandonArmed_keeps ..)
    | with_reducible apply Keeps.chain (dioToSafe_keeps ..)
    | with_reducible apply Keeps.chain (giveUp_keeps ..)
    | with_reducible apply Keeps.chain (goMode_keeps _ _ _)
    | with_reducible apply Keeps.chain (uaToSafe_keeps ..)
    | dsimp only

theorem sendPair_keeps (ring : Nat) (mask : Nat) (f : OutFrame) (s : State) : Keeps [.out, .fsp] s (State.sendPair ring mask f s) := by
  unfold State.sendPair
  repeat' first
    | with_reducible exact Keeps.refl _
    | with_reducible apply Keeps.ite
    | with_reducible apply Keeps.chain (emits_keeps _ _)
    | with_reducible apply Keeps.chain (upFsp_keeps _ _)
    | split
    | dsimp only

theorem sendFrame_keeps (mask : Nat) (f : OutFrame) (s : State) : Keeps [.out, .fsp] s (State.sendFrame mask f s) := by
  unfold State.sendFrame
  repeat' first
    | with_reducible exact Keeps.refl _
    | with_reducible apply Keeps.chain (sendPair_keeps ..)

theorem toStation_keeps (a : Nat) (f : OutFrame) (s : State) : Keeps [.out, .fsp] s (State.toStation a f s) := by
  unfold State.toStation
  repeat' first
    | with_reducible exact Keeps.refl _
    | with_reducible apply Keeps.chain (sendFrame_keeps ..)
    | split

theorem announce_keeps (reason : Nat) (s : State) : Keeps [.out, .fsp] s (State.announce reason s) := by
  unfold State.announce
  repeat' first
    | with_reducible exact Keeps.refl _
    | with_reducible apply Keeps.chain (sendFrame_keeps ..)

theorem sendBind_keeps (a : Nat) (pending : Bool) (cycle : Nat) (c : Cfg) (s : State) : Keeps [.out, .fsp] s (State.sendBind a pending cycle c s) := by
  unfold State.sendBind
  repeat' first
    | with_reducible exact Keeps.refl _
    | with_reducible apply Keeps.chain (upFsp_keeps _ _)
    | with_reducible apply Keeps.chain (sendFrame_keeps ..)
    | split

theorem bindAll_keeps (pending : Bool) (cycle : Nat) (c : Cfg) (s : State) : Keeps [.out, .fsp] s (State.bindAll pending cycle c s) := by
  unfold State.bindAll
  repeat' first
    | with_reducible exact Keeps.refl _
    | (with_reducible refine Keeps.foldl ?_ (fun _ _ => ?_) _)
    | with_reducible apply Keeps.chain (sendBind_keeps ..)
    | dsimp only

end Sys2Proof.Machine
end

