-- ==== Sys2Proof/Laws/KeepFlags.lean ====
section
/-! SUPPORT. What the operations of Flags.lean may change; each keeps the form of a state and the instant. -/

set_option Elab.async false
set_option linter.all false

namespace Sys2Proof.Machine

theorem upImg_keeps (h : Nat) (f : Img → Img) (s : State) : Keeps [.cache, .mem] s (State.upImg h f s) := by
  unfold State.upImg
  repeat' first
    | with_reducible exact Keeps.refl _
    | with_reducible apply Keeps.chain (setImage_keeps ..)

end Sys2Proof.Machine
end

