-- ==== Sys2Proof/Laws/KeepOperands.lean ====
section
/-! SUPPORT. What the operations of Operands.lean may change; each keeps the form of a state and the instant. -/

set_option Elab.async false
set_option linter.all false

namespace Sys2Proof.Machine

theorem writeSlot_keeps (h : Nat) (r : Word64) (data : List Byte) (s : State) : Keeps [.cache, .mem] s (State.writeSlot h r data s).1 := by
  unfold State.writeSlot
  repeat' first
    | with_reducible exact Keeps.refl _
    | with_reducible apply Keeps.ite
    | with_reducible apply Keeps.iteFst
    | with_reducible apply Keeps.chain (upMem_keeps _ _ (fun w => by first | exact memWriteN_wf _ _ _ w | exact memStore_wf _ _ w | exact memClear_wf _ _ w | (apply memStore_wf; assumption) ))
    | split
    | dsimp only

theorem clearBefore_keeps (h : Nat) (s : State) : Keeps [.pts] s (State.clearBefore h s) := by
  unfold State.clearBefore
  repeat' first
    | with_reducible exact Keeps.refl _
    | with_reducible apply Keeps.chain (upPts_keeps _ _)

theorem completeSlot_keeps (h : Nat) (r : Word64) (data : List Byte) (s : State) : Keeps [.cache, .mem, .pts] s (State.completeSlot h r data s) := by
  unfold State.completeSlot
  repeat' first
    | with_reducible exact Keeps.refl _
    | with_reducible apply Keeps.ite
    | with_reducible apply Keeps.chain (clearBefore_keeps ..)
    | with_reducible apply Keeps.chain (upImg_keeps ..)
    | with_reducible apply Keeps.chain (writeSlot_keeps ..)
    | dsimp only

theorem complete_keeps (h : Nat) (r : Word64) (status : Nat) (words : List Word) (s : State) : Keeps [.cache, .mem, .pts] s (State.complete h r status words s) := by
  unfold State.complete
  repeat' first
    | with_reducible exact Keeps.refl _
    | with_reducible apply Keeps.ite
    | with_reducible apply Keeps.chain (upPts_keeps _ _)
    | with_reducible apply Keeps.chain (clearBefore_keeps ..)
    | with_reducible apply Keeps.chain (completeSlot_keeps ..)
    | with_reducible apply Keeps.chain (upImg_keeps ..)
    | split
    | dsimp only

theorem ackOutput_keeps (h : Nat) (carried : Word) (s : State) : Keeps [.cache, .mem] s (State.ackOutput h carried s) := by
  unfold State.ackOutput
  repeat' first
    | with_reducible exact Keeps.refl _
    | with_reducible apply Keeps.ite
    | with_reducible apply Keeps.chain (upImg_keeps ..)

theorem failOutput_keeps (h : Nat) (r : Word64) (s : State) : Keeps [.cache, .mem] s (State.failOutput h r s) := by
  unfold State.failOutput
  repeat' first
    | with_reducible exact Keeps.refl _
    | with_reducible apply Keeps.chain (upImg_keeps ..)

theorem overrangeOutput_keeps (h : Nat) (s : State) : Keeps [.cache, .mem, .pts] s (State.overrangeOutput h s) := by
  unfold State.overrangeOutput
  repeat' first
    | with_reducible exact Keeps.refl _
    | with_reducible apply Keeps.chain (upPts_keeps _ _)
    | with_reducible apply Keeps.chain (upImg_keeps ..)

end Sys2Proof.Machine
end

