-- ==== Sys2Proof/Laws/KeepCan.lean ====
section
/-! SUPPORT. What the operations of Can.lean may change; each keeps the form of a state and the instant. -/

set_option Elab.async false
set_option linter.all false

namespace Sys2Proof.Machine

theorem setCan_keeps (n : Nat) (f : CanCh → CanCh) (s : State) : Keeps [.can] s (State.setCan n f s) := by
  unfold State.setCan
  repeat' first
    | with_reducible exact Keeps.refl _
    | with_reducible apply Keeps.chain (upCan_keeps _ _)

theorem hearRef_keeps (n : Nat) (f : CanFrame) (s : State) : Keeps [.cache, .can, .log] s (State.hearRef n f s) := by
  unfold State.hearRef
  repeat' first
    | with_reducible exact Keeps.refl _
    | with_reducible apply Keeps.ite
    | with_reducible apply Keeps.chain (record_keeps ..)
    | with_reducible apply Keeps.chain (setCan_keeps ..)
    | split
    | dsimp only

theorem receiveCan_keeps (n : Nat) (f : CanFrame) (s : State) : Keeps [.cache, .free, .can, .log] s (State.receiveCan n f s) := by
  unfold State.receiveCan
  repeat' first
    | with_reducible exact Keeps.refl _
    | with_reducible apply Keeps.chain (useFree_keeps _)
    | with_reducible apply Keeps.chain (hearRef_keeps ..)
    | with_reducible apply Keeps.chain (setCan_keeps ..)
    | dsimp only

theorem confine_keeps (n : Nat) (s : State) : Keeps [.cache, .can, .log] s (State.confine n s) := by
  unfold State.confine
  repeat' first
    | with_reducible exact Keeps.refl _
    | with_reducible apply Keeps.ite
    | with_reducible apply Keeps.chain (record_keeps ..)
    | with_reducible apply Keeps.chain (setCan_keeps ..)
    | dsimp only

theorem canFail_keeps (n b : Nat) (s : State) : Keeps [.cache, .mem] s (State.canFail n b s) := by
  unfold State.canFail
  repeat' first
    | with_reducible exact Keeps.refl _
    | with_reducible apply Keeps.chain (failOutput_keeps ..)
    | split

theorem requestCan_keeps (n b : Nat) (s : State) : Keeps [.cache, .mem, .pts, .can] s (State.requestCan n b s) := by
  unfold State.requestCan
  repeat' first
    | with_reducible exact Keeps.refl _
    | with_reducible apply Keeps.ite
    | with_reducible apply Keeps.chain (canFail_keeps ..)
    | with_reducible apply Keeps.chain (failOutput_keeps ..)
    | with_reducible apply Keeps.chain (overrangeOutput_keeps ..)
    | with_reducible apply Keeps.chain (setCan_keeps ..)
    | split
    | dsimp only

theorem followTx_keeps (n b : Nat) (o : CanTxOutcome) (buf : TxBuf) (s : State) : Keeps [.cache, .mem, .cnt, .can] s (State.followTx n b o buf s) := by
  unfold State.followTx
  repeat' first
    | with_reducible exact Keeps.refl _
    | with_reducible apply Keeps.ite
    | with_reducible apply Keeps.chain (upCnt_keeps _ _)
    | with_reducible apply Keeps.chain (ackOutput_keeps ..)
    | with_reducible apply Keeps.chain (canFail_keeps ..)
    | with_reducible apply Keeps.chain (setCan_keeps ..)
    | split
    | dsimp only

theorem endCan_keeps (n b : Nat) (o : CanTxOutcome) (s : State) : Keeps [.cache, .mem, .free, .cnt, .can, .log] s (State.endCan n b o s) := by
  unfold State.endCan
  repeat' first
    | with_reducible exact Keeps.refl _
    | with_reducible apply Keeps.ite
    | with_reducible apply Keeps.chain (useFree_keeps _)
    | with_reducible apply Keeps.chain (confine_keeps ..)
    | with_reducible apply Keeps.chain (followTx_keeps ..)
    | with_reducible apply Keeps.chain (record_keeps ..)
    | with_reducible apply Keeps.chain (setCan_keeps ..)
    | dsimp only

theorem requestRef_keeps (n : Nat) (s : State) : Keeps [.can] s (State.requestRef n s) := by
  unfold State.requestRef
  repeat' first
    | with_reducible exact Keeps.refl _
    | with_reducible apply Keeps.chain (setCan_keeps ..)
    | dsimp only

theorem recoverCan_keeps (n : Nat) (s : State) : Keeps [.can] s (State.recoverCan n s).1 := by
  unfold State.recoverCan
  repeat' first
    | with_reducible exact Keeps.refl _
    | with_reducible apply Keeps.ite
    | with_reducible apply Keeps.iteFst
    | with_reducible apply Keeps.chain (setCan_keeps ..)
    | split
    | dsimp only

theorem ret_keeps (status : Nat) (vs : List Nat) (s : State) : Keeps [.out] s (State.ret status vs s) := by
  unfold State.ret
  repeat' first
    | with_reducible exact Keeps.refl _
    | with_reducible apply Keeps.chain (emit_keeps _ _)

theorem cancelCan_keeps (n b : Nat) (s : State) : Keeps [.out, .can] s (State.cancelCan n b s) := by
  unfold State.cancelCan
  repeat' first
    | with_reducible exact Keeps.refl _
    | with_reducible apply Keeps.ite
    | with_reducible apply Keeps.chain (ret_keeps ..)
    | with_reducible apply Keeps.chain (setCan_keeps ..)
    | dsimp only

theorem readFifo_keeps (n fifo after max : Nat) (s : State) : Keeps [.out] s (State.readFifo n fifo after max s) := by
  unfold State.readFifo
  repeat' first
    | with_reducible exact Keeps.refl _
    | with_reducible apply Keeps.ite
    | with_reducible apply Keeps.chain (ret_keeps ..)
    | dsimp only

theorem consumeFifo_keeps (n fifo stamp : Nat) (s : State) : Keeps [.out, .can] s (State.consumeFifo n fifo stamp s) := by
  unfold State.consumeFifo
  repeat' first
    | with_reducible exact Keeps.refl _
    | with_reducible apply Keeps.ite
    | with_reducible apply Keeps.chain (ret_keeps ..)
    | with_reducible apply Keeps.chain (setCan_keeps ..)

end Sys2Proof.Machine
end

