-- ==== Sys2Proof/Laws/KeepDigital.lean ====
section
/-! SUPPORT. What the operations of Digital.lean may change; each keeps the form of a state and the instant. -/

set_option Elab.async false
set_option linter.all false

namespace Sys2Proof.Machine

theorem setDio_keeps (n : Nat) (f : DioCh → DioCh) (s : State) : Keeps [.dio] s (State.setDio n f s) := by
  unfold State.setDio
  repeat' first
    | with_reducible exact Keeps.refl _
    | with_reducible apply Keeps.chain (upDio_keeps _ _)

theorem setUa_keeps (n : Nat) (f : UaCh → UaCh) (s : State) : Keeps [.ua] s (State.setUa n f s) := by
  unfold State.setUa
  repeat' first
    | with_reducible exact Keeps.refl _
    | with_reducible apply Keeps.chain (upUa_keeps _ _)

theorem loadOutput_keeps (apply : Nat) (p : PointRec) (s : State) : Keeps [.cache, .mem, .out, .pts, .dio, .ua] s (State.loadOutput apply p s) := by
  unfold State.loadOutput
  repeat' first
    | with_reducible exact Keeps.refl _
    | with_reducible apply Keeps.ite
    | with_reducible apply Keeps.chain (emit_keeps _ _)
    | with_reducible apply Keeps.chain (overrangeOutput_keeps ..)
    | with_reducible apply Keeps.chain (setDio_keeps ..)
    | with_reducible apply Keeps.chain (setUa_keeps ..)
    | split
    | dsimp only

theorem sequencerUpdate_keeps (fe : Nat) (valid : Bool) (s : State) : Keeps [.dio, .ua] s (State.sequencerUpdate fe valid s) := by
  unfold State.sequencerUpdate
  repeat' first
    | with_reducible exact Keeps.refl _
    | with_reducible apply Keeps.ite
    | with_reducible apply Keeps.chain (upDio_keeps _ _)
    | with_reducible apply Keeps.chain (upUa_keeps _ _)

theorem silenceTrip_keeps (fe : Nat) (s : State) : Keeps [.dio, .ua] s (State.silenceTrip fe s) := by
  unfold State.silenceTrip
  repeat' first
    | with_reducible exact Keeps.refl _
    | with_reducible apply Keeps.ite
    | with_reducible apply Keeps.chain (upDio_keeps _ _)
    | with_reducible apply Keeps.chain (upUa_keeps _ _)
    | with_reducible apply Keeps.chain (dioToSafe_keeps ..)
    | with_reducible apply Keeps.chain (uaToSafe_keeps ..)

theorem reportOutput_keeps (off : Nat) (status : Nat) (carried : Word) (s : State) : Keeps [.cache, .mem] s (State.reportOutput off status carried s) := by
  unfold State.reportOutput
  repeat' first
    | with_reducible exact Keeps.refl _
    | with_reducible apply Keeps.ite
    | with_reducible apply Keeps.chain (ackOutput_keeps ..)
    | with_reducible apply Keeps.chain (upImg_keeps ..)
    | split

theorem proveDio_keeps (n : Nat) (status : Nat) (measured : Raw) (s : State) : Keeps [.cnt, .dio] s (State.proveDio n status measured s) := by
  unfold State.proveDio
  repeat' first
    | with_reducible exact Keeps.refl _
    | with_reducible apply Keeps.ite
    | with_reducible apply Keeps.chain (upCnt_keeps _ _)
    | with_reducible apply Keeps.chain (setDio_keeps ..)
    | split
    | dsimp only

theorem proveUa_keeps (n : Nat) (status : Nat) (measured : Raw) (s : State) : Keeps [.cnt] s (State.proveUa n status measured s) := by
  unfold State.proveUa
  repeat' first
    | with_reducible exact Keeps.refl _
    | with_reducible apply Keeps.ite
    | with_reducible apply Keeps.chain (upCnt_keeps _ _)
    | dsimp only

theorem applyDio_keeps (n status : Nat) (measured : Raw) (s : State) : Keeps [.cache, .mem, .cnt, .dio] s (State.applyDio n status measured s) := by
  unfold State.applyDio
  repeat' first
    | with_reducible exact Keeps.refl _
    | with_reducible apply Keeps.ite
    | with_reducible apply Keeps.chain (proveDio_keeps ..)
    | with_reducible apply Keeps.chain (reportOutput_keeps ..)
    | with_reducible apply Keeps.chain (setDio_keeps ..)
    | split
    | dsimp only

theorem applyUa_keeps (n status : Nat) (measured : Raw) (s : State) : Keeps [.cache, .mem, .cnt, .ua] s (State.applyUa n status measured s) := by
  unfold State.applyUa
  repeat' first
    | with_reducible exact Keeps.refl _
    | with_reducible apply Keeps.ite
    | with_reducible apply Keeps.chain (proveUa_keeps ..)
    | with_reducible apply Keeps.chain (reportOutput_keeps ..)
    | with_reducible apply Keeps.chain (setUa_keeps ..)
    | split
    | dsimp only

theorem aggregate_keeps (ma : Nat) (s : State) : Keeps [.cache, .dio, .log] s (State.aggregate ma s) := by
  unfold State.aggregate
  repeat' first
    | with_reducible exact Keeps.refl _
    | with_reducible apply Keeps.ite
    | with_reducible apply Keeps.chain (upDio_keeps _ _)
    | with_reducible apply Keeps.chain (record_keeps ..)
    | with_reducible apply Keeps.chain (setDio_keeps ..)
    | split
    | dsimp only

theorem overload_keeps (n : Nat) (cleared : Bool) (s : State) : Keeps [.cache, .dio, .log] s (State.overload n cleared s) := by
  unfold State.overload
  repeat' first
    | with_reducible exact Keeps.refl _
    | with_reducible apply Keeps.ite
    | with_reducible apply Keeps.chain (upDio_keeps _ _)
    | with_reducible apply Keeps.chain (record_keeps ..)
    | with_reducible apply Keeps.chain (setDio_keeps ..)

theorem setMismatch_keeps (n : Nat) (differ : Bool) (s : State) : Keeps [.cache, .dio, .log] s (State.setMismatch n differ s) := by
  unfold State.setMismatch
  repeat' first
    | with_reducible exact Keeps.refl _
    | with_reducible apply Keeps.ite
    | with_reducible apply Keeps.chain (upDio_keeps _ _)
    | with_reducible apply Keeps.chain (recordAtMost_keeps ..)
    | with_reducible apply Keeps.chain (setDio_keeps ..)
    | split

theorem setFld_keeps (lost : Bool) (mv : Nat) (s : State) : Keeps [.cache, .dio, .log] s (State.setFld lost mv s) := by
  unfold State.setFld
  repeat' first
    | with_reducible exact Keeps.refl _
    | with_reducible apply Keeps.ite
    | with_reducible apply Keeps.chain (upDio_keeps _ _)
    | with_reducible apply Keeps.chain (record_keeps ..)
    | dsimp only

theorem setWireBreak_keeps (n : Nat) (broken : Bool) (s : State) : Keeps [.dio] s (State.setWireBreak n broken s) := by
  unfold State.setWireBreak
  repeat' first
    | with_reducible exact Keeps.refl _
    | with_reducible apply Keeps.ite
    | with_reducible apply Keeps.chain (upDio_keeps _ _)
    | with_reducible apply Keeps.chain (setDio_keeps ..)
    | dsimp only

end Sys2Proof.Machine
end

