-- ==== Sys2Proof/Laws/KeepAnalog.lean ====
section
/-! SUPPORT. What the operations of Analog.lean may change; each keeps the form of a state and the instant. -/

set_option Elab.async false
set_option linter.all false

namespace Sys2Proof.Machine

theorem newReading_keeps (n : Nat) (y : Word64) (s : State) : Keeps [.cache, .ua, .log] s (State.newReading n y s) := by
  unfold State.newReading
  repeat' first
    | with_reducible exact Keeps.refl _
    | with_reducible apply Keeps.ite
    | with_reducible apply Keeps.chain (upUa_keeps _ _)
    | with_reducible apply Keeps.chain (record_keeps ..)
    | with_reducible apply Keeps.chain (setUa_keeps ..)
    | dsimp only

theorem convert_keeps (n : Nat) (value : Raw) (s : State) : Keeps [.cache, .ua, .log] s (State.convert n value s) := by
  unfold State.convert
  repeat' first
    | with_reducible exact Keeps.refl _
    | with_reducible apply Keeps.ite
    | with_reducible apply Keeps.chain (newReading_keeps ..)

theorem windowReading_keeps (r : Nat × Nat × Nat) (s : State) : Keeps [.cache, .ua, .log] s (State.windowReading r s) := by
  unfold State.windowReading
  repeat' first
    | with_reducible exact Keeps.refl _
    | with_reducible apply Keeps.ite
    | with_reducible apply Keeps.chain (newReading_keeps ..)
    | with_reducible apply Keeps.chain (setUa_keeps ..)
    | split
    | dsimp only

theorem excite_keeps (opens : Bool) (readings : List (Nat × Nat × Nat)) (s : State) : Keeps [.cache, .ua, .log] s (State.excite opens readings s) := by
  unfold State.excite
  repeat' first
    | with_reducible exact Keeps.refl _
    | with_reducible apply Keeps.ite
    | (with_reducible refine Keeps.foldl ?_ (fun _ _ => ?_) _)
    | with_reducible apply Keeps.chain (upUa_keeps _ _)
    | with_reducible apply Keeps.chain (windowReading_keeps ..)
    | dsimp only

theorem latchUa_keeps (x : Nat) (s : State) : Keeps [.ua] s (State.latchUa x s) := by
  unfold State.latchUa
  repeat' first
    | with_reducible exact Keeps.refl _
    | (with_reducible refine Keeps.foldl ?_ (fun _ _ => ?_) _)
    | with_reducible apply Keeps.chain (setUa_keeps ..)
    | dsimp only

theorem uaFault_keeps (n : Nat) (f : UaFault) (cleared : Bool) (s : State) : Keeps [.cache, .ua, .log] s (State.uaFault n f cleared s) := by
  unfold State.uaFault
  repeat' first
    | with_reducible exact Keeps.refl _
    | with_reducible apply Keeps.ite
    | with_reducible apply Keeps.chain (upUa_keeps _ _)
    | with_reducible apply Keeps.chain (record_keeps ..)
    | with_reducible apply Keeps.chain (setUa_keeps ..)
    | split
    | dsimp only

theorem twinSense_keeps (n : Nat) (inCircuit : Bool) (milliohm : Nat) (settings : Word) (s : State) : Keeps [.ua] s (State.twinSense n inCircuit milliohm settings s) := by
  unfold State.twinSense
  repeat' first
    | with_reducible exact Keeps.refl _
    | with_reducible apply Keeps.ite
    | with_reducible apply Keeps.chain (upUa_keeps _ _)
    | with_reducible apply Keeps.chain (setUa_keeps ..)
    | dsimp only

theorem setAfs_keeps (lost : Bool) (mv : Nat) (s : State) : Keeps [.cache, .ua, .log] s (State.setAfs lost mv s) := by
  unfold State.setAfs
  repeat' first
    | with_reducible exact Keeps.refl _
    | with_reducible apply Keeps.ite
    | with_reducible apply Keeps.chain (upUa_keeps _ _)
    | with_reducible apply Keeps.chain (record_keeps ..)
    | dsimp only

theorem setModem_keeps (m : Nat) (f : Modem → Modem) (s : State) : Keeps [.ua] s (State.setModem m f s) := by
  unfold State.setModem
  repeat' first
    | with_reducible exact Keeps.refl _
    | with_reducible apply Keeps.chain (upUa_keeps _ _)

theorem serveHart_keeps (m : Nat) (s : State) : Keeps [.out, .ua] s (State.serveHart m s) := by
  unfold State.serveHart
  repeat' first
    | with_reducible exact Keeps.refl _
    | with_reducible apply Keeps.ite
    | with_reducible apply Keeps.chain (emit_keeps _ _)
    | with_reducible apply Keeps.chain (setModem_keeps ..)
    | split
    | dsimp only

theorem queueHart_keeps (q : HartReq) (s : State) : Keeps [.out, .ua] s (State.queueHart q s) := by
  unfold State.queueHart
  repeat' first
    | with_reducible exact Keeps.refl _
    | with_reducible apply Keeps.ite
    | with_reducible apply Keeps.chain (serveHart_keeps ..)
    | with_reducible apply Keeps.chain (setModem_keeps ..)
    | dsimp only

theorem pollHart_keeps (cmd m : Nat) (s : State) : Keeps [.out, .ua] s (State.pollHart cmd m s) := by
  unfold State.pollHart
  repeat' first
    | with_reducible exact Keeps.refl _
    | (with_reducible refine Keeps.foldl ?_ (fun _ _ => ?_) _)
    | with_reducible apply Keeps.chain (queueHart_keeps ..)
    | dsimp only

theorem hartPut_keeps (n addr cmd : Nat) (data : List Byte) (s : State) : Keeps [.out, .ua] s (State.hartPut n addr cmd data s) := by
  unfold State.hartPut
  repeat' first
    | with_reducible exact Keeps.refl _
    | with_reducible apply Keeps.ite
    | with_reducible apply Keeps.chain (upUa_keeps _ _)
    | with_reducible apply Keeps.chain (queueHart_keeps ..)
    | with_reducible apply Keeps.chain (ret_keeps ..)
    | dsimp only

theorem hartGet_keeps (id : Nat) (s : State) : Keeps [.out] s (State.hartGet id s) := by
  unfold State.hartGet
  repeat' first
    | with_reducible exact Keeps.refl _
    | with_reducible apply Keeps.ite
    | with_reducible apply Keeps.chain (ret_keeps ..)
    | split

theorem endHart_keeps (m status rc ds : Nat) (data : List Byte) (s : State) : Keeps [.out, .ua] s (State.endHart m status rc ds data s) := by
  unfold State.endHart
  repeat' first
    | with_reducible exact Keeps.refl _
    | with_reducible apply Keeps.ite
    | with_reducible apply Keeps.chain (upUa_keeps _ _)
    | with_reducible apply Keeps.chain (queueHart_keeps ..)
    | with_reducible apply Keeps.chain (serveHart_keeps ..)
    | with_reducible apply Keeps.chain (setModem_keeps ..)
    | split
    | dsimp only

theorem hartEvent_keeps (m : Nat) (e : HartEvent) (s : State) : Keeps [.out, .ua] s (State.hartEvent m e s) := by
  unfold State.hartEvent
  repeat' first
    | with_reducible exact Keeps.refl _
    | with_reducible apply Keeps.ite
    | with_reducible apply Keeps.chain (upUa_keeps _ _)
    | with_reducible apply Keeps.chain (endHart_keeps ..)
    | with_reducible apply Keeps.chain (serveHart_keeps ..)
    | with_reducible apply Keeps.chain (setModem_keeps ..)
    | split

end Sys2Proof.Machine
end

