-- ==== Sys2Proof/Laws/ExecAnalog.lean ====
section
/-! SUPPORT. What the commands of Analog.lean may change. -/

set_option Elab.async false
set_option linter.all false

namespace Sys2Proof.Machine

theorem execConversionComplete_keeps (t ch : Nat) (value : Raw) (s : State) {s' : State} (h : execConversionComplete t ch value s = .next s') : Keeps [.cache, .ua, .log] (s.arrive t) s' := by
  unfold execConversionComplete at h
  refine happens_keeps (fun u _ => ?_) h
  repeat' first
    | with_reducible exact Keeps.refl _
    | with_reducible apply Keeps.ite
    | (with_reducible refine Keeps.foldl ?_ (fun _ _ => ?_) _)
    | with_reducible apply Keeps.iteFst
    | with_reducible apply Keeps.chain (convert_keeps ..)
    | split
    | dsimp only

theorem execExcitationWindow_keeps (t : Nat) (opens : Bool) (readings : List (Nat × Nat × Nat)) (s : State) {s' : State} (h : execExcitationWindow t opens readings s = .next s') : Keeps [.cache, .ua, .log] (s.arrive t) s' := by
  unfold execExcitationWindow at h
  refine happens_keeps (fun u _ => ?_) h
  repeat' first
    | with_reducible exact Keeps.refl _
    | with_reducible apply Keeps.ite
    | (with_reducible refine Keeps.foldl ?_ (fun _ _ => ?_) _)
    | with_reducible apply Keeps.iteFst
    | with_reducible apply Keeps.chain (excite_keeps ..)
    | split
    | dsimp only

theorem execTwinSenseReport_keeps (t ch : Nat) (inCircuit : Bool) (milliohm : Nat) (settings : Word) (s : State) {s' : State} (h : execTwinSenseReport t ch inCircuit milliohm settings s = .next s') : Keeps [.ua] (s.arrive t) s' := by
  unfold execTwinSenseReport at h
  refine happens_keeps (fun u _ => ?_) h
  repeat' first
    | with_reducible exact Keeps.refl _
    | with_reducible apply Keeps.ite
    | (with_reducible refine Keeps.foldl ?_ (fun _ _ => ?_) _)
    | with_reducible apply Keeps.iteFst
    | with_reducible apply Keeps.chain (twinSense_keeps ..)
    | split
    | dsimp only

theorem execTwinSenseTimeout_keeps (t : Nat) (s : State) {s' : State} (h : execTwinSenseTimeout t s = .next s') : Keeps [.ua] (s.arrive t) s' := by
  unfold execTwinSenseTimeout at h
  refine happens_keeps (fun u _ => ?_) h
  repeat' first
    | with_reducible exact Keeps.refl _
    | with_reducible apply Keeps.ite
    | (with_reducible refine Keeps.foldl ?_ (fun _ _ => ?_) _)
    | with_reducible apply Keeps.iteFst
    | with_reducible apply Keeps.chain (upUa_keeps _ _)
    | split
    | dsimp only

theorem execUaChannelFault_keeps (t ch : Nat) (f : UaFault) (cleared : Bool) (s : State) {s' : State} (h : execUaChannelFault t ch f cleared s = .next s') : Keeps [.cache, .ua, .log] (s.arrive t) s' := by
  unfold execUaChannelFault at h
  refine happens_keeps (fun u _ => ?_) h
  repeat' first
    | with_reducible exact Keeps.refl _
    | with_reducible apply Keeps.ite
    | (with_reducible refine Keeps.foldl ?_ (fun _ _ => ?_) _)
    | with_reducible apply Keeps.iteFst
    | with_reducible apply Keeps.chain (uaFault_keeps ..)
    | split
    | dsimp only

theorem execAfsLost_keeps (t : Nat) (lost : Bool) (mv : Nat) (s : State) {s' : State} (h : execAfsLost t lost mv s = .next s') : Keeps [.cache, .ua, .log] (s.arrive t) s' := by
  unfold execAfsLost at h
  refine happens_keeps (fun u _ => ?_) h
  repeat' first
    | with_reducible exact Keeps.refl _
    | with_reducible apply Keeps.ite
    | (with_reducible refine Keeps.foldl ?_ (fun _ _ => ?_) _)
    | with_reducible apply Keeps.iteFst
    | with_reducible apply Keeps.chain (setAfs_keeps ..)
    | split
    | dsimp only

theorem execHartPut_keeps (t ch addr cmd : Nat) (data : List Byte) (s : State) {s' : State} (h : execHartPut t ch addr cmd data s = .next s') : Keeps [.out, .ua] (s.arrive t) s' := by
  unfold execHartPut at h
  refine happens_keeps (fun u _ => ?_) h
  repeat' first
    | with_reducible exact Keeps.refl _
    | with_reducible apply Keeps.ite
    | (with_reducible refine Keeps.foldl ?_ (fun _ _ => ?_) _)
    | with_reducible apply Keeps.iteFst
    | with_reducible apply Keeps.chain (hartPut_keeps ..)
    | split
    | dsimp only

theorem execHartGet_keeps (t id : Nat) (s : State) {s' : State} (h : execHartGet t id s = .next s') : Keeps [.out] (s.arrive t) s' := by
  unfold execHartGet at h
  refine happens_keeps (fun u _ => ?_) h
  repeat' first
    | with_reducible exact Keeps.refl _
    | with_reducible apply Keeps.ite
    | (with_reducible refine Keeps.foldl ?_ (fun _ _ => ?_) _)
    | with_reducible apply Keeps.iteFst
    | with_reducible apply Keeps.chain (hartGet_keeps ..)
    | split
    | dsimp only

theorem execHartReply_keeps (t modem : Nat) (e : HartEvent) (s : State) {s' : State} (h : execHartReply t modem e s = .next s') : Keeps [.out, .ua] (s.arrive t) s' := by
  unfold execHartReply at h
  refine happens_keeps (fun u _ => ?_) h
  repeat' first
    | with_reducible exact Keeps.refl _
    | with_reducible apply Keeps.ite
    | (with_reducible refine Keeps.foldl ?_ (fun _ _ => ?_) _)
    | with_reducible apply Keeps.iteFst
    | with_reducible apply Keeps.chain (hartEvent_keeps ..)
    | split
    | dsimp only

theorem execHartPoll_keeps (t modem : Nat) (s : State) {s' : State} (h : execHartPoll t modem s = .next s') : Keeps [.out, .ua] (s.arrive t) s' := by
  unfold execHartPoll at h
  refine happens_keeps (fun u _ => ?_) h
  repeat' first
    | with_reducible exact Keeps.refl _
    | with_reducible apply Keeps.ite
    | (with_reducible refine Keeps.foldl ?_ (fun _ _ => ?_) _)
    | with_reducible apply Keeps.iteFst
    | with_reducible apply Keeps.chain (pollHart_keeps ..)
    | split
    | dsimp only

end Sys2Proof.Machine
end

