-- ==== Sys2Proof/Laws/KeepClock.lean ====
section
/-! SUPPORT. What the operations of Clock.lean may change; each keeps the form of a state and the instant. -/

set_option Elab.async false
set_option linter.all false

namespace Sys2Proof.Machine

theorem baseTo_keeps (n st : Nat) (s : State) : Keeps [.cache, .time, .log] s (State.baseTo n st s) := by
  unfold State.baseTo
  repeat' first
    | with_reducible exact Keeps.refl _
    | with_reducible apply Keeps.ite
    | with_reducible apply Keeps.chain (upTime_keeps _ _ (by first | rfl | (dsimp only; split <;> rfl) | (dsimp only; repeat' first | rfl | split)))
    | with_reducible apply Keeps.chain (record_keeps ..)
    | with_reducible apply Keeps.chain (setBase_keeps ..)
    | dsimp only

theorem stepBase_keeps (n : Nat) (acc : Nat) (s : State) : Keeps [.cache, .time, .log] s (State.stepBase n acc s) := by
  unfold State.stepBase
  repeat' first
    | with_reducible exact Keeps.refl _
    | with_reducible apply Keeps.chain (upTime_keeps _ _ (by first | rfl | (dsimp only; split <;> rfl) | (dsimp only; repeat' first | rfl | split)))
    | with_reducible apply Keeps.chain (record__keeps ..)
    | with_reducible apply Keeps.chain (setBase_keeps ..)
    | dsimp only

theorem setRate_keeps (n : Nat) (r : Int) (s : State) : Keeps [.time] s (State.setRate n r s) := by
  unfold State.setRate
  repeat' first
    | with_reducible exact Keeps.refl _
    | with_reducible apply Keeps.chain (setBase_keeps ..)

theorem setPort_keeps (p : Nat) (f : PortTime → PortTime) (s : State) : Keeps [.time] s (State.setPort p f s) := by
  unfold State.setPort
  repeat' first
    | with_reducible exact Keeps.refl _
    | with_reducible apply Keeps.chain (upTime_keeps _ _ (by first | rfl | (dsimp only; split <;> rfl) | (dsimp only; repeat' first | rfl | split)))

theorem fixedRoles_keeps (n : Nat) (s : State) : Keeps [.time] s (State.fixedRoles n s) := by
  unfold State.fixedRoles
  repeat' first
    | with_reducible exact Keeps.refl _
    | with_reducible apply Keeps.ite
    | with_reducible apply Keeps.chain (upTime_keeps _ _ (by first | rfl | (dsimp only; split <;> rfl) | (dsimp only; repeat' first | rfl | split)))

theorem roles_keeps (n : Nat) (best : Option (Nat × AnnounceMsg)) (s : State) : Keeps [.time] s (State.roles n best s) := by
  unfold State.roles
  repeat' first
    | with_reducible exact Keeps.refl _
    | with_reducible apply Keeps.ite
    | with_reducible apply Keeps.chain (upTime_keeps _ _ (by first | rfl | (dsimp only; split <;> rfl) | (dsimp only; repeat' first | rfl | split)))
    | split
    | dsimp only

theorem becomeGm_keeps (n : Nat) (s : State) : Keeps [.cache, .time, .log] s (State.becomeGm n s) := by
  unfold State.becomeGm
  repeat' first
    | with_reducible exact Keeps.refl _
    | with_reducible apply Keeps.ite
    | with_reducible apply Keeps.chain (baseTo_keeps ..)
    | with_reducible apply Keeps.chain (setBase_keeps ..)

theorem noGm_keeps (n : Nat) (s : State) : Keeps [.cache, .time, .log] s (State.noGm n s) := by
  unfold State.noGm
  repeat' first
    | with_reducible exact Keeps.refl _
    | with_reducible apply Keeps.ite
    | with_reducible apply Keeps.chain (baseTo_keeps ..)
    | with_reducible apply Keeps.chain (setBase_keeps ..)
    | dsimp only

theorem takeGm_keeps (n : Nat) (a : AnnounceMsg) (s : State) : Keeps [.cache, .time, .log] s (State.takeGm n a s) := by
  unfold State.takeGm
  repeat' first
    | with_reducible exact Keeps.refl _
    | with_reducible apply Keeps.ite
    | with_reducible apply Keeps.chain (upTime_keeps _ _ (by first | rfl | (dsimp only; split <;> rfl) | (dsimp only; repeat' first | rfl | split)))
    | with_reducible apply Keeps.chain (baseTo_keeps ..)
    | with_reducible apply Keeps.chain (setBase_keeps ..)
    | split
    | dsimp only

theorem select_keeps (n : Nat) (s : State) : Keeps [.cache, .time, .log] s (State.select n s) := by
  unfold State.select
  repeat' first
    | with_reducible exact Keeps.refl _
    | with_reducible apply Keeps.ite
    | with_reducible apply Keeps.chain (becomeGm_keeps ..)
    | with_reducible apply Keeps.chain (fixedRoles_keeps ..)
    | with_reducible apply Keeps.chain (noGm_keeps ..)
    | with_reducible apply Keeps.chain (roles_keeps ..)
    | with_reducible apply Keeps.chain (takeGm_keeps ..)
    | split
    | dsimp only

theorem hearAnnounce_keeps (m : AnnounceMsg) (s : State) : Keeps [.cache, .time, .log] s (State.hearAnnounce m s) := by
  unfold State.hearAnnounce
  repeat' first
    | with_reducible exact Keeps.refl _
    | with_reducible apply Keeps.chain (upTime_keeps _ _ (by first | rfl | (dsimp only; split <;> rfl) | (dsimp only; repeat' first | rfl | split)))
    | with_reducible apply Keeps.chain (select_keeps ..)
    | with_reducible apply Keeps.chain (setPort_keeps ..)
    | split

theorem loseGm_keeps (n : Nat) (s : State) : Keeps [.cache, .time, .log] s (State.loseGm n s) := by
  unfold State.loseGm
  repeat' first
    | with_reducible exact Keeps.refl _
    | with_reducible apply Keeps.ite
    | with_reducible apply Keeps.chain (upTime_keeps _ _ (by first | rfl | (dsimp only; split <;> rfl) | (dsimp only; repeat' first | rfl | split)))
    | with_reducible apply Keeps.chain (select_keeps ..)

theorem syncLost_keeps (n : Nat) (s : State) : Keeps [.cache, .time, .log] s (State.syncLost n s) := by
  unfold State.syncLost
  repeat' first
    | with_reducible exact Keeps.refl _
    | with_reducible apply Keeps.ite
    | with_reducible apply Keeps.chain (baseTo_keeps ..)
    | with_reducible apply Keeps.chain (loseGm_keeps ..)
    | with_reducible apply Keeps.chain (setBase_keeps ..)
    | with_reducible apply Keeps.chain (setRate_keeps ..)
    | dsimp only

theorem acquire_keeps (n : Nat) (offset : Int) (s : State) : Keeps [.cache, .time, .log] s (State.acquire n offset s) := by
  unfold State.acquire
  repeat' first
    | with_reducible exact Keeps.refl _
    | with_reducible apply Keeps.ite
    | with_reducible apply Keeps.chain (baseTo_keeps ..)
    | with_reducible apply Keeps.chain (setBase_keeps ..)
    | with_reducible apply Keeps.chain (setRate_keeps ..)
    | with_reducible apply Keeps.chain (stepBase_keeps ..)
    | dsimp only

theorem discipline_keeps (n : Nat) (offset : Int) (s : State) : Keeps [.cache, .time, .log] s (State.discipline n offset s) := by
  unfold State.discipline
  repeat' first
    | with_reducible exact Keeps.refl _
    | with_reducible apply Keeps.chain (baseTo_keeps ..)
    | with_reducible apply Keeps.chain (setBase_keeps ..)
    | with_reducible apply Keeps.chain (setRate_keeps ..)
    | split
    | dsimp only

theorem hearSync_keeps (m : SyncMsg) (s : State) : Keeps [.cache, .time, .log] s (State.hearSync m s) := by
  unfold State.hearSync
  repeat' first
    | with_reducible exact Keeps.refl _
    | with_reducible apply Keeps.ite
    | with_reducible apply Keeps.chain (upTime_keeps _ _ (by first | rfl | (dsimp only; split <;> rfl) | (dsimp only; repeat' first | rfl | split)))
    | with_reducible apply Keeps.chain (acquire_keeps ..)
    | with_reducible apply Keeps.chain (discipline_keeps ..)
    | with_reducible apply Keeps.chain (setBase_keeps ..)
    | with_reducible apply Keeps.chain (setPort_keeps ..)
    | split
    | dsimp only

theorem pdelay_keeps (p : Nat) (e : PdelayEvent) (s : State) : Keeps [.cache, .out, .time, .log] s (State.pdelay p e s) := by
  unfold State.pdelay
  repeat' first
    | with_reducible exact Keeps.refl _
    | with_reducible apply Keeps.ite
    | with_reducible apply Keeps.chain (emit_keeps _ _)
    | with_reducible apply Keeps.chain (select_keeps ..)
    | with_reducible apply Keeps.chain (setPort_keeps ..)
    | split
    | dsimp only

theorem sendInterval_keeps (kind p domain : Nat) (s : State) : Keeps [.out] s (State.sendInterval kind p domain s) := by
  unfold State.sendInterval
  repeat' first
    | with_reducible exact Keeps.refl _
    | with_reducible apply Keeps.ite
    | with_reducible apply Keeps.chain (emit_keeps _ _)
    | split

theorem setIntervals_keeps (p : Nat) (logSync logPdelay : Int) (s : State) : Keeps [.time] s (State.setIntervals p logSync logPdelay s) := by
  unfold State.setIntervals
  repeat' first
    | with_reducible exact Keeps.refl _
    | with_reducible apply Keeps.ite
    | with_reducible apply Keeps.chain (setPort_keeps ..)

theorem fireTrigger_keeps (slot : Nat) (s : State) : Keeps [.out, .time] s (State.fireTrigger slot s) := by
  unfold State.fireTrigger
  repeat' first
    | with_reducible exact Keeps.refl _
    | with_reducible apply Keeps.chain (emit_keeps _ _)
    | with_reducible apply Keeps.chain (setPort_keeps ..)
    | split
    | dsimp only

theorem nextGate_keeps (p : Nat) (s : State) : Keeps [.time] s (State.nextGate p s) := by
  unfold State.nextGate
  repeat' first
    | with_reducible exact Keeps.refl _
    | with_reducible apply Keeps.ite
    | with_reducible apply Keeps.chain (setPort_keeps ..)
    | split

theorem ppsEdge_keeps (rising : Bool) (s : State) : Keeps [.time] s (State.ppsEdge rising s) := by
  unfold State.ppsEdge
  repeat' first
    | with_reducible exact Keeps.refl _
    | with_reducible apply Keeps.ite
    | with_reducible apply Keeps.chain (upTime_keeps _ _ (by first | rfl | (dsimp only; split <;> rfl) | (dsimp only; repeat' first | rfl | split)))
    | dsimp only

theorem dio15Edge_keeps (rising : Bool) (s : State) : Keeps [.time] s (State.dio15Edge rising s) := by
  unfold State.dio15Edge
  repeat' first
    | with_reducible exact Keeps.refl _
    | with_reducible apply Keeps.ite
    | with_reducible apply Keeps.chain (upTime_keeps _ _ (by first | rfl | (dsimp only; split <;> rfl) | (dsimp only; repeat' first | rfl | split)))
    | split
    | dsimp only

theorem saveTb3_keeps (s : State) : Keeps [.time] s (State.saveTb3 s) := by
  unfold State.saveTb3
  repeat' first
    | with_reducible exact Keeps.refl _
    | with_reducible apply Keeps.chain (upTime_keeps _ _ (by first | rfl | (dsimp only; split <;> rfl) | (dsimp only; repeat' first | rfl | split)))

theorem followTwin_keeps (n twin : Nat) (rate : Int) (s : State) : Keeps [.cache, .time, .log] s (State.followTwin n twin rate s) := by
  unfold State.followTwin
  repeat' first
    | with_reducible exact Keeps.refl _
    | with_reducible apply Keeps.ite
    | with_reducible apply Keeps.chain (baseTo_keeps ..)
    | with_reducible apply Keeps.chain (setRate_keeps ..)
    | with_reducible apply Keeps.chain (stepBase_keeps ..)
    | dsimp only

theorem hearMarker_keeps (m : Marker) (s : State) : Keeps [.cache, .time, .log] s (State.hearMarker m s) := by
  unfold State.hearMarker
  repeat' first
    | with_reducible exact Keeps.refl _
    | with_reducible apply Keeps.ite
    | with_reducible apply Keeps.chain (upTime_keeps _ _ (by first | rfl | (dsimp only; split <;> rfl) | (dsimp only; repeat' first | rfl | split)))
    | with_reducible apply Keeps.chain (followTwin_keeps ..)
    | with_reducible apply Keeps.chain (record_keeps ..)
    | dsimp only

theorem loseMarkers_keeps (s : State) : Keeps [.cache, .time, .log] s (State.loseMarkers s) := by
  unfold State.loseMarkers
  repeat' first
    | with_reducible exact Keeps.refl _
    | with_reducible apply Keeps.ite
    | with_reducible apply Keeps.chain (upTime_keeps _ _ (by first | rfl | (dsimp only; split <;> rfl) | (dsimp only; repeat' first | rfl | split)))
    | with_reducible apply Keeps.chain (baseTo_keeps ..)
    | with_reducible apply Keeps.chain (record_keeps ..)
    | dsimp only

theorem timeNow_keeps (base : Nat) (s : State) : Keeps [.out] s (State.timeNow base s) := by
  unfold State.timeNow
  repeat' first
    | with_reducible exact Keeps.refl _
    | with_reducible apply Keeps.chain (ret_keeps ..)
    | dsimp only

end Sys2Proof.Machine
end

