-- ==== Sys2Proof/Laws/KeepPair.lean ====
section
/-! SUPPORT. What the operations of Pair.lean may change; each keeps the form of a state and the instant. -/

set_option Elab.async false
set_option linter.all false

namespace Sys2Proof.Machine

theorem countDeferral_keeps (s : State) : Keeps [.cnt] s (State.countDeferral s) := by
  unfold State.countDeferral
  repeat' first
    | with_reducible exact Keeps.refl _
    | with_reducible apply Keeps.chain (upCnt_keeps _ _)

theorem setHedgeFault_keeps (s : State) : Keeps [.cache, .pair, .log] s (State.setHedgeFault s) := by
  unfold State.setHedgeFault
  repeat' first
    | with_reducible exact Keeps.refl _
    | with_reducible apply Keeps.ite
    | with_reducible apply Keeps.chain (upPair_keeps _ _ (by first | exact id | exact fun h => by cases h | (dsimp only; split <;> exact id) | (unfold setLane; split <;> exact id)))
    | with_reducible apply Keeps.chain (record_keeps ..)

theorem tieBreak_keeps (s : State) : Keeps [.cache, .out, .pair, .cnt, .log] s (State.tieBreak s) := by
  unfold State.tieBreak
  repeat' first
    | with_reducible exact Keeps.refl _
    | with_reducible apply Keeps.ite
    | with_reducible apply Keeps.chain (emit_keeps _ _)
    | with_reducible apply Keeps.chain (upCnt_keeps _ _)
    | with_reducible apply Keeps.chain (upPair_keeps _ _ (by first | exact id | exact fun h => by cases h | (dsimp only; split <;> exact id) | (unfold setLane; split <;> exact id)))
    | with_reducible apply Keeps.chain (record_keeps ..)
    | dsimp only

theorem startClaim_keeps (kind : Nat) (s : State) : Keeps [.cache, .out, .pair, .cnt, .log] s (State.startClaim kind s) := by
  unfold State.startClaim
  repeat' first
    | with_reducible exact Keeps.refl _
    | with_reducible apply Keeps.ite
    | with_reducible apply Keeps.chain (emit_keeps _ _)
    | with_reducible apply Keeps.chain (upPair_keeps _ _ (by first | exact id | exact fun h => by cases h | (dsimp only; split <;> exact id) | (unfold setLane; split <;> exact id)))
    | with_reducible apply Keeps.chain (tieBreak_keeps ..)
    | dsimp only

theorem hedgeIn_keeps (malformed : Bool) (s : State) : Keeps [.cache, .pair, .log] s (State.hedgeIn malformed s) := by
  unfold State.hedgeIn
  repeat' first
    | with_reducible exact Keeps.refl _
    | with_reducible apply Keeps.ite
    | with_reducible apply Keeps.chain (upPair_keeps _ _ (by first | exact id | exact fun h => by cases h | (dsimp only; split <;> exact id) | (unfold setLane; split <;> exact id)))
    | with_reducible apply Keeps.chain (record_keeps ..)

theorem twinClaims_keeps (malformed : Bool) (s : State) : Keeps [.cache, .out, .pair, .cnt, .log] s (State.twinClaims malformed s) := by
  unfold State.twinClaims
  repeat' first
    | with_reducible exact Keeps.refl _
    | with_reducible apply Keeps.ite
    | with_reducible apply Keeps.chain (upPair_keeps _ _ (by first | exact id | exact fun h => by cases h | (dsimp only; split <;> exact id) | (unfold setLane; split <;> exact id)))
    | with_reducible apply Keeps.chain (hedgeIn_keeps ..)
    | with_reducible apply Keeps.chain (tieBreak_keeps ..)
    | dsimp only

theorem twinFailed_keeps (s : State) : Keeps [.cache, .out, .pair, .power, .cyc, .sched, .cfg, .msg, .gate, .sheaf, .dio, .ua, .can, .log] s (State.twinFailed s) := by
  unfold State.twinFailed
  repeat' first
    | with_reducible exact Keeps.refl _
    | with_reducible apply Keeps.ite
    | with_reducible apply Keeps.chain (safeHold_keeps ..)

theorem twinAbsent_keeps (tf : Nat) (s : State) : Keeps [.cache, .out, .pair, .power, .cyc, .sched, .cfg, .msg, .gate, .sheaf, .dio, .ua, .can, .log] s (State.twinAbsent tf s) := by
  unfold State.twinAbsent
  repeat' first
    | with_reducible exact Keeps.refl _
    | with_reducible apply Keeps.ite
    | with_reducible apply Keeps.chain (upPair_keeps _ _ (by first | exact id | exact fun h => by cases h | (dsimp only; split <;> exact id) | (unfold setLane; split <;> exact id)))
    | with_reducible apply Keeps.chain (twinFailed_keeps ..)

theorem released_keeps (s : State) : Keeps [.cache, .out, .pair, .cnt, .power, .cyc, .sched, .cfg, .msg, .gate, .sheaf, .dio, .ua, .can, .log] s (State.released s) := by
  unfold State.released
  repeat' first
    | with_reducible exact Keeps.refl _
    | with_reducible apply Keeps.ite
    | with_reducible apply Keeps.chain (startClaim_keeps ..)
    | with_reducible apply Keeps.chain (twinAbsent_keeps ..)
    | dsimp only

theorem loseOwnClaim_keeps (s : State) : Keeps [.cache, .out, .pair, .power, .cyc, .sched, .cfg, .msg, .gate, .sheaf, .dio, .ua, .can, .log] s (State.loseOwnClaim s) := by
  unfold State.loseOwnClaim
  repeat' first
    | with_reducible exact Keeps.refl _
    | with_reducible apply Keeps.chain (upPair_keeps _ _ (by first | exact id | exact fun h => by cases h | (dsimp only; split <;> exact id) | (unfold setLane; split <;> exact id)))
    | with_reducible apply Keeps.chain (record_keeps ..)
    | with_reducible apply Keeps.chain (safeHold_keeps ..)

theorem resync_keeps (s : State) : Keeps [.cache, .pair, .cnt, .power, .cyc, .gate, .sheaf, .log] s (State.resync s) := by
  unfold State.resync
  repeat' first
    | with_reducible exact Keeps.refl _
    | with_reducible apply Keeps.ite
    | with_reducible apply Keeps.chain (upCnt_keeps _ _)
    | with_reducible apply Keeps.chain (upCyc_keeps _ _)
    | with_reducible apply Keeps.chain (upPair_keeps _ _ (by first | exact id | exact fun h => by cases h | (dsimp only; split <;> exact id) | (unfold setLane; split <;> exact id)))
    | with_reducible apply Keeps.chain (goMode_keeps _ _ _)
    | dsimp only

theorem laneDown_keeps (l : Nat) (s : State) : Keeps [.cache, .out, .time, .pair, .power, .cyc, .sched, .cfg, .msg, .gate, .sheaf, .dio, .ua, .can, .log] s (State.laneDown l s) := by
  unfold State.laneDown
  repeat' first
    | with_reducible exact Keeps.refl _
    | with_reducible apply Keeps.ite
    | with_reducible apply Keeps.chain (upPair_keeps _ _ (by first | exact id | exact fun h => by cases h | (dsimp only; split <;> exact id) | (unfold setLane; split <;> exact id)))
    | with_reducible apply Keeps.chain (loseMarkers_keeps ..)
    | with_reducible apply Keeps.chain (twinFailed_keeps ..)
    | dsimp only

theorem startLane_keeps (l proto min slotId : Nat) (s : State) : Keeps [.cache, .out, .pair, .cnt, .power, .cyc, .gate, .sheaf, .log] s (State.startLane l proto min slotId s) := by
  unfold State.startLane
  repeat' first
    | with_reducible exact Keeps.refl _
    | with_reducible apply Keeps.ite
    | with_reducible apply Keeps.chain (emit_keeps _ _)
    | with_reducible apply Keeps.chain (upPair_keeps _ _ (by first | exact id | exact fun h => by cases h | (dsimp only; split <;> exact id) | (unfold setLane; split <;> exact id)))
    | with_reducible apply Keeps.chain (upSheaf_keeps _ _)
    | with_reducible apply Keeps.chain (record_keeps ..)
    | with_reducible apply Keeps.chain (resync_keeps ..)
    | with_reducible apply Keeps.chain (setHedgeFault_keeps ..)
    | dsimp only

theorem swathBlock_keeps (l : Nat) (crcOk : Bool) (s : State) : Keeps [.out, .cnt] s (State.swathBlock l crcOk s) := by
  unfold State.swathBlock
  repeat' first
    | with_reducible exact Keeps.refl _
    | with_reducible apply Keeps.ite
    | with_reducible apply Keeps.chain (emit_keeps _ _)
    | with_reducible apply Keeps.chain (upCnt_keeps _ _)

theorem hearYield_keeps (s : State) : Keeps [.cache, .out, .pair, .power, .cyc, .sched, .cfg, .msg, .gate, .sheaf, .dio, .ua, .can, .log] s (State.hearYield s) := by
  unfold State.hearYield
  repeat' first
    | with_reducible exact Keeps.refl _
    | with_reducible apply Keeps.ite
    | with_reducible apply Keeps.chain (upPair_keeps _ _ (by first | exact id | exact fun h => by cases h | (dsimp only; split <;> exact id) | (unfold setLane; split <;> exact id)))
    | with_reducible apply Keeps.chain (twinFailed_keeps ..)

theorem claimReport_keeps (sees readback : Bool) (s : State) : Keeps [.cache, .pair, .log] s (State.claimReport sees readback s) := by
  unfold State.claimReport
  repeat' first
    | with_reducible exact Keeps.refl _
    | with_reducible apply Keeps.ite
    | with_reducible apply Keeps.chain (setHedgeFault_keeps ..)
    | dsimp only

theorem isolate_keeps (s : State) : Keeps [.cache, .pair, .log] s (State.isolate s) := by
  unfold State.isolate
  repeat' first
    | with_reducible exact Keeps.refl _
    | with_reducible apply Keeps.chain (upPair_keeps _ _ (by first | exact id | exact fun h => by cases h | (dsimp only; split <;> exact id) | (unfold setLane; split <;> exact id)))
    | with_reducible apply Keeps.chain (record_keeps ..)

theorem hearMode_keeps (m : Nat) (s : State) : Keeps [.cache, .pair, .power, .gate, .sheaf, .log] s (State.hearMode m s) := by
  unfold State.hearMode
  repeat' first
    | with_reducible exact Keeps.refl _
    | with_reducible apply Keeps.ite
    | with_reducible apply Keeps.chain (upPair_keeps _ _ (by first | exact id | exact fun h => by cases h | (dsimp only; split <;> exact id) | (unfold setLane; split <;> exact id)))
    | with_reducible apply Keeps.chain (goMode_keeps _ _ _)
    | dsimp only

theorem twinSilent_keeps (s : State) : Keeps [.cache, .pair, .power, .cfg, .gate, .sheaf, .log] s (State.twinSilent s) := by
  unfold State.twinSilent
  repeat' first
    | with_reducible exact Keeps.refl _
    | with_reducible apply Keeps.ite
    | with_reducible apply Keeps.chain (upCfg_keeps _ _)
    | with_reducible apply Keeps.chain (upPair_keeps _ _ (by first | exact id | exact fun h => by cases h | (dsimp only; split <;> exact id) | (unfold setLane; split <;> exact id)))
    | with_reducible apply Keeps.chain (goMode_keeps _ _ _)
    | dsimp only

theorem armHandover_keeps (kind th job : Nat) (s : State) : Keeps [.out, .pair] s (State.armHandover kind th job s) := by
  unfold State.armHandover
  repeat' first
    | with_reducible exact Keeps.refl _
    | with_reducible apply Keeps.chain (emit_keeps _ _)
    | with_reducible apply Keeps.chain (upPair_keeps _ _ (by first | exact id | exact fun h => by cases h | (dsimp only; split <;> exact id) | (unfold setLane; split <;> exact id)))

theorem dropHandover_keeps (status : Nat) (s : State) : Keeps [.pair, .msg] s (State.dropHandover status s) := by
  unfold State.dropHandover
  repeat' first
    | with_reducible exact Keeps.refl _
    | with_reducible apply Keeps.chain (upPair_keeps _ _ (by first | exact id | exact fun h => by cases h | (dsimp only; split <;> exact id) | (unfold setLane; split <;> exact id)))
    | with_reducible apply Keeps.chain (endJob_keeps ..)
    | split

theorem deferHandover_keeps (s : State) : Keeps [.pair, .cnt, .msg] s (State.deferHandover s) := by
  unfold State.deferHandover
  repeat' first
    | with_reducible exact Keeps.refl _
    | with_reducible apply Keeps.ite
    | with_reducible apply Keeps.chain (upPair_keeps _ _ (by first | exact id | exact fun h => by cases h | (dsimp only; split <;> exact id) | (unfold setLane; split <;> exact id)))
    | with_reducible apply Keeps.chain (countDeferral_keeps ..)
    | with_reducible apply Keeps.chain (dropHandover_keeps ..)
    | split
    | dsimp only

theorem checkHandover_keeps (s : State) : Keeps [.pair, .cnt, .msg] s (State.checkHandover s) := by
  unfold State.checkHandover
  repeat' first
    | with_reducible exact Keeps.refl _
    | with_reducible apply Keeps.ite
    | with_reducible apply Keeps.chain (deferHandover_keeps ..)

theorem handOver_keeps (s : State) : Keeps [.out, .pair, .cnt, .cyc, .sched, .can] s (State.handOver s) := by
  unfold State.handOver
  repeat' first
    | with_reducible exact Keeps.refl _
    | with_reducible apply Keeps.chain (emit_keeps _ _)
    | with_reducible apply Keeps.chain (upCnt_keeps _ _)
    | with_reducible apply Keeps.chain (upPair_keeps _ _ (by first | exact id | exact fun h => by cases h | (dsimp only; split <;> exact id) | (unfold setLane; split <;> exact id)))
    | with_reducible apply Keeps.chain (notOwner_keeps ..)
    | with_reducible apply Keeps.chain (sendYield_keeps ..)
    | dsimp only

theorem homeHandover_keeps (kind : Nat) (s : State) : Keeps [.out, .pair, .cnt] s (State.homeHandover kind s) := by
  unfold State.homeHandover
  repeat' first
    | with_reducible exact Keeps.refl _
    | with_reducible apply Keeps.ite
    | with_reducible apply Keeps.chain (armHandover_keeps ..)
    | with_reducible apply Keeps.chain (countDeferral_keeps ..)

theorem requestHome_keeps (s : State) : Keeps [.out, .pair, .cnt] s (State.requestHome s) := by
  unfold State.requestHome
  repeat' first
    | with_reducible exact Keeps.refl _
    | with_reducible apply Keeps.ite
    | with_reducible apply Keeps.chain (emit_keeps _ _)
    | with_reducible apply Keeps.chain (upPair_keeps _ _ (by first | exact id | exact fun h => by cases h | (dsimp only; split <;> exact id) | (unfold setLane; split <;> exact id)))
    | with_reducible apply Keeps.chain (countDeferral_keeps ..)

theorem proved_keeps (n : Nat) (ok : Bool) (s : State) : Keeps [.cache, .cnt, .log] s (State.proved n ok s) := by
  unfold State.proved
  repeat' first
    | with_reducible exact Keeps.refl _
    | with_reducible apply Keeps.ite
    | with_reducible apply Keeps.chain (upCnt_keeps _ _)
    | with_reducible apply Keeps.chain (record_keeps ..)
    | dsimp only

theorem loopback_keeps (l : Nat) (passed : Bool) (s : State) : Keeps [.cache, .out, .time, .pair, .cnt, .power, .cyc, .sched, .cfg, .msg, .gate, .sheaf, .dio, .ua, .can, .log] s (State.loopback l passed s) := by
  unfold State.loopback
  repeat' first
    | with_reducible exact Keeps.refl _
    | with_reducible apply Keeps.ite
    | with_reducible apply Keeps.chain (upPair_keeps _ _ (by first | exact id | exact fun h => by cases h | (dsimp only; split <;> exact id) | (unfold setLane; split <;> exact id)))
    | with_reducible apply Keeps.chain (laneDown_keeps ..)
    | with_reducible apply Keeps.chain (proved_keeps ..)
    | with_reducible apply Keeps.chain (resync_keeps ..)
    | dsimp only

theorem readback_keeps (agrees : Bool) (s : State) : Keeps [.cache, .cnt, .log] s (State.readback agrees s) := by
  unfold State.readback
  repeat' first
    | with_reducible exact Keeps.refl _
    | with_reducible apply Keeps.ite
    | with_reducible apply Keeps.chain (upCnt_keeps _ _)
    | with_reducible apply Keeps.chain (record_keeps ..)
    | dsimp only

theorem unprovenTick_keeps (s : State) : Keeps [.cnt] s (State.unprovenTick s) := by
  unfold State.unprovenTick
  repeat' first
    | with_reducible exact Keeps.refl _
    | with_reducible apply Keeps.ite
    | with_reducible apply Keeps.chain (upCnt_keeps _ _)

theorem hearTerm_keeps (v : Nat) (s : State) : Keeps [.cache, .pair, .log] s (State.hearTerm v s) := by
  unfold State.hearTerm
  repeat' first
    | with_reducible exact Keeps.refl _
    | with_reducible apply Keeps.ite
    | with_reducible apply Keeps.chain (upPair_keeps _ _ (by first | exact id | exact fun h => by cases h | (dsimp only; split <;> exact id) | (unfold setLane; split <;> exact id)))
    | with_reducible apply Keeps.chain (record_keeps ..)

end Sys2Proof.Machine
end

