-- ==== Sys2Proof/Laws/KeepFrames.lean ====
section
/-! SUPPORT. What the operations of Frames.lean may change; each keeps the form of a state and the instant. -/

set_option Elab.async false
set_option linter.all false

namespace Sys2Proof.Machine

theorem fspCount_keeps (i : Nat) (s : State) : Keeps [.fsp] s (State.fspCount i s) := by
  unfold State.fspCount
  repeat' first
    | with_reducible exact Keeps.refl _
    | with_reducible apply Keeps.chain (upFsp_keeps _ _)

theorem eliminate_keeps (f : Fsp) (s : State) : Keeps [.fsp] s (State.eliminate f s).1 := by
  unfold State.eliminate
  repeat' first
    | with_reducible exact Keeps.refl _
    | with_reducible apply Keeps.ite
    | with_reducible apply Keeps.iteFst
    | with_reducible apply Keeps.chain (upFsp_keeps _ _)
    | with_reducible apply Keeps.chain (fspCount_keeps ..)
    | split
    | dsimp only

theorem unknownStation_keeps (f : Fsp) (s : State) : Keeps [.cache, .fsp, .log] s (State.unknownStation f s) := by
  unfold State.unknownStation
  repeat' first
    | with_reducible exact Keeps.refl _
    | with_reducible apply Keeps.ite
    | with_reducible apply Keeps.chain (upFsp_keeps _ _)
    | with_reducible apply Keeps.chain (fspCount_keeps ..)
    | with_reducible apply Keeps.chain (record_keeps ..)
    | dsimp only

theorem fenced_keeps (f : Fsp) (s : State) : Keeps [.cache, .out, .pair, .cnt, .power, .cyc, .fsp, .sched, .cfg, .msg, .gate, .sheaf, .dio, .ua, .can, .log] s (State.fenced f s) := by
  unfold State.fenced
  repeat' first
    | with_reducible exact Keeps.refl _
    | with_reducible apply Keeps.ite
    | with_reducible apply Keeps.chain (upCnt_keeps _ _)
    | with_reducible apply Keeps.chain (fspCount_keeps ..)
    | with_reducible apply Keeps.chain (hearTerm_keeps ..)
    | with_reducible apply Keeps.chain (record_keeps ..)
    | with_reducible apply Keeps.chain (safeHold_keeps ..)
    | dsimp only

theorem checkFrame_keeps (x : RxFrame) (s : State) : Keeps [.cache, .out, .pair, .cnt, .power, .cyc, .fsp, .sched, .cfg, .msg, .gate, .sheaf, .dio, .ua, .can, .log] s (State.checkFrame x s).1 := by
  unfold State.checkFrame
  repeat' first
    | with_reducible exact Keeps.refl _
    | with_reducible apply Keeps.ite
    | with_reducible apply Keeps.iteFst
    | with_reducible apply Keeps.chain (eliminate_keeps ..)
    | with_reducible apply Keeps.chain (fenced_keeps ..)
    | with_reducible apply Keeps.chain (fspCount_keeps ..)
    | with_reducible apply Keeps.chain (unknownStation_keeps ..)
    | split
    | dsimp only

theorem receive_keeps (kind : Nat) (k : Fsp → State → State) (x : RxFrame) (s : State) {ps : List Part} (h : ∀ f u, Keeps ps u (k f u))
    (hp : Part.sub [.cache, .out, .pair, .cnt, .power, .cyc, .fsp, .sched, .cfg, .msg, .gate, .sheaf, .dio, .ua, .can, .log] ps = true) : Keeps ps s (State.receive kind k x s) := by
  have c := checkFrame_keeps x s
  unfold State.receive
  split <;> rename_i e <;> rw [e] at c
  · apply Keeps.ite
    · exact ((Keeps.refl s).step c hp).step (h _ _) (by simp [Part.sub])
    · exact (Keeps.refl s).step c hp
  · exact (Keeps.refl s).step c hp

end Sys2Proof.Machine
end

