-- ==== Sys2Proof/Laws/KeepMessages.lean ====
section
/-! SUPPORT. What the operations of Messages.lean may change; each keeps the form of a state and the instant. -/

set_option Elab.async false
set_option linter.all false

namespace Sys2Proof.Machine

theorem setBox_keeps (n : Nat) (f : Mailbox → Mailbox) (s : State) : Keeps [.msg] s (State.setBox n f s) := by
  unfold State.setBox
  repeat' first
    | with_reducible exact Keeps.refl _
    | with_reducible apply Keeps.chain (upMsg_keeps _ _)

theorem msgCount_keeps (i : Nat) (s : State) : Keeps [.msg] s (State.msgCount i s) := by
  unfold State.msgCount
  repeat' first
    | with_reducible exact Keeps.refl _
    | with_reducible apply Keeps.chain (upMsg_keeps _ _)

theorem countRefusal_keeps (status : Nat) (s : State) : Keeps [.msg] s (State.countRefusal status s) := by
  unfold State.countRefusal
  repeat' first
    | with_reducible exact Keeps.refl _
    | with_reducible apply Keeps.chain (msgCount_keeps ..)
    | split

theorem putResponse_keeps (h : Hdr) (code status : Nat) (data : List Byte) (s : State) : Keeps [.cache, .mem, .out, .msg] s (State.putResponse h code status data s) := by
  unfold State.putResponse
  repeat' first
    | with_reducible exact Keeps.refl _
    | with_reducible apply Keeps.ite
    | with_reducible apply Keeps.chain (emit_keeps _ _)
    | with_reducible apply Keeps.chain (upMem_keeps _ _ (fun w => by first | exact memWriteN_wf _ _ _ w | exact memStore_wf _ _ w | exact memClear_wf _ _ w | (apply memStore_wf; assumption) ))
    | with_reducible apply Keeps.chain (setBox_keeps ..)
    | dsimp only

theorem respond_keeps (h : Hdr) (code status : Nat) (data : List Byte) (s : State) : Keeps [.cache, .mem, .free, .out, .msg] s (State.respond h code status data s) := by
  unfold State.respond
  repeat' first
    | with_reducible exact Keeps.refl _
    | with_reducible apply Keeps.ite
    | with_reducible apply Keeps.chain (useFree_keeps _)
    | with_reducible apply Keeps.chain (countRefusal_keeps ..)
    | with_reducible apply Keeps.chain (msgCount_keeps ..)
    | with_reducible apply Keeps.chain (putResponse_keeps ..)
    | with_reducible apply Keeps.chain (setBox_keeps ..)
    | dsimp only

theorem nextSegment_keeps (code : Nat) (r : Req) (s : State) : Keeps [.cache, .mem, .free, .out, .msg] s (State.nextSegment code r s) := by
  unfold State.nextSegment
  repeat' first
    | with_reducible exact Keeps.refl _
    | with_reducible apply Keeps.ite
    | with_reducible apply Keeps.chain (msgCount_keeps ..)
    | with_reducible apply Keeps.chain (putResponse_keeps ..)
    | with_reducible apply Keeps.chain (respond_keeps ..)
    | with_reducible apply Keeps.chain (setBox_keeps ..)
    | split
    | dsimp only

theorem endSession_keeps (mb : Nat) (s : State) : Keeps [.cache, .msg, .gate, .log] s (State.endSession mb s) := by
  unfold State.endSession
  repeat' first
    | with_reducible exact Keeps.refl _
    | with_reducible apply Keeps.ite
    | with_reducible apply Keeps.chain (closeDebug_keeps ..)
    | with_reducible apply Keeps.chain (record_keeps ..)
    | with_reducible apply Keeps.chain (setBox_keeps ..)
    | dsimp only

theorem dropConnection_keeps (mb : Nat) (s : State) : Keeps [.cache, .msg, .gate, .log] s (State.dropConnection mb s) := by
  unfold State.dropConnection
  repeat' first
    | with_reducible exact Keeps.refl _
    | with_reducible apply Keeps.ite
    | with_reducible apply Keeps.chain (upMsg_keeps _ _)
    | with_reducible apply Keeps.chain (endSession_keeps ..)
    | with_reducible apply Keeps.chain (setBox_keeps ..)

theorem closeConnection_keeps (mb : Nat) (s : State) : Keeps [.cache, .out, .msg, .gate, .log] s (State.closeConnection mb s) := by
  unfold State.closeConnection
  repeat' first
    | with_reducible exact Keeps.refl _
    | with_reducible apply Keeps.chain (emit_keeps _ _)
    | with_reducible apply Keeps.chain (dropConnection_keeps ..)

theorem take_keeps (r : Req) (s : State) : Keeps [.msg] s (State.take r s) := by
  unfold State.take
  repeat' first
    | with_reducible exact Keeps.refl _
    | with_reducible apply Keeps.ite
    | with_reducible apply Keeps.chain (msgCount_keeps ..)
    | with_reducible apply Keeps.chain (setBox_keeps ..)

/-- A request keeps what its body keeps, and answers it. -/
theorem serve_keeps (c : Cmd) (r : Req) (body : State → State × Option (Nat × List Byte)) (s : State) {ps : List Part}
    (h : ∀ u, Keeps ps u (body u).1) (hp : Part.sub [.cache, .mem, .free, .out, .msg, .gate, .log] ps = true) : Keeps ps s (State.serve c r body s).1 := by
  have e (c : Nat) (d : Nat) (l : List Byte) (u : State) : Keeps ps u (u.respond (hdrOf r) c d l) := (respond_keeps ..).mono (Part.sub_trans (by decide) hp)
  have g : Keeps ps s (State.take r s) := (take_keeps ..).mono (Part.sub_trans (by decide) hp)
  have z (m : Nat) (u : State) : Keeps ps u (u.closeConnection m) := (closeConnection_keeps ..).mono (Part.sub_trans (by decide) hp)
  have n (m : Nat) (u : State) : Keeps ps u (u.nextSegment m r) := (nextSegment_keeps ..).mono (Part.sub_trans (by decide) hp)
  have b (u : State) : Keeps ps u (u.setBox r.mb fun x => { x with busy := true }) := (setBox_keeps ..).mono (Part.sub_trans (by decide) hp)
  have add {t u : State} (k : Keeps ps s t) (l : Keeps ps t u) : Keeps ps s u := k.step l (by simp [Part.sub])
  unfold State.serve
  dsimp only
  generalize State.take r s = s1 at g ⊢
  apply Keeps.iteFst (Keeps.refl s)
  apply Keeps.iteFst ((msgCount_keeps ..).mono (Part.sub_trans (by decide) hp))
  apply Keeps.iteFst (add (add g (e ..)) (z ..))
  refine Keeps.iteFst ?_ ?_
  · exact add g (e c.code stLength [] s1)
  split
  · exact Keeps.ite (add (add g (e ..)) (z ..)) (add g (e ..))
  · refine Keeps.iteFst ?_ ?_
    · exact add g (n c.code s1)
    split
    · dsimp only; exact add g (e ..)
    · have k := h s1
      split <;> rename_i q <;> rw [q] at k
      · dsimp only; exact add (add g k) (e ..)
      · dsimp only; exact add (add g k) (b _)

theorem run_keeps (c : Cmd) (r : Req) (body : State → State × Option (Nat × List Byte)) (s : State) {ps : List Part}
    (h : ∀ u, Keeps ps u (body u).1) (hp : Part.sub [.cache, .mem, .free, .out, .msg, .gate, .log] ps = true) : Keeps ps s (State.run c r body s) :=
  serve_keeps c r body s h hp

theorem reply_keeps {ps : List Part} {status : Nat} {data : List Byte} {s t : State} (h : Keeps ps s t) : Keeps ps s (reply status data t).1 := h

theorem guarded_keeps {ps : List Part} (checks : List (State → Option Nat)) (body : State → State × Option (Nat × List Byte)) (s : State)
    (h : Keeps ps s (body s).1) : Keeps ps s (guarded checks body s).1 := by
  unfold guarded
  split
  · exact Keeps.refl s
  · exact h

theorem startJob_keeps (code : Nat) (s : State) : Keeps [.msg] s (State.startJob code s).1 := by
  unfold State.startJob
  repeat' first
    | with_reducible exact Keeps.refl _
    | with_reducible apply Keeps.ite
    | with_reducible apply Keeps.iteFst
    | with_reducible apply Keeps.chain (upMsg_keeps _ _)
    | with_reducible apply Keeps.chain (msgCount_keeps ..)
    | split
    | dsimp only

theorem withJob_keeps {ps : List Part} (code : Nat) (k : Nat → State → State) (s : State) (h : ∀ n u, Keeps ps u (k n u)) (hp : Part.sub [.msg] ps = true) :
    Keeps ps s (withJob code k s).1 := by
  unfold withJob
  split
  · exact Keeps.refl s
  · exact (((Keeps.refl s).step (startJob_keeps code s) hp).step (h _ _) (by simp [Part.sub]))

theorem setProgress_keeps (id p : Nat) (s : State) : Keeps [.msg] s (State.setProgress id p s) := by
  unfold State.setProgress
  repeat' first
    | with_reducible exact Keeps.refl _
    | with_reducible apply Keeps.ite
    | with_reducible apply Keeps.chain (upMsg_keeps _ _)

theorem askTwinFrom_keeps (from_ cmd : Nat) (payload : List Byte) (job : Nat) (s : State) : Keeps [.out, .msg] s (State.askTwinFrom from_ cmd payload job s) := by
  unfold State.askTwinFrom
  repeat' first
    | with_reducible exact Keeps.refl _
    | with_reducible apply Keeps.chain (emit_keeps _ _)
    | with_reducible apply Keeps.chain (upMsg_keeps _ _)
    | dsimp only

theorem askTwin_keeps (cmd : Nat) (payload : List Byte) (job : Nat) (s : State) : Keeps [.out, .msg] s (State.askTwin cmd payload job s) := by
  unfold State.askTwin
  repeat' first
    | with_reducible exact Keeps.refl _
    | with_reducible apply Keeps.chain (askTwinFrom_keeps ..)

theorem openSession_keeps (r : Req) (s : State) : Keeps [.cache, .free, .msg, .log] s (openSession r s).1 := by
  unfold openSession
  repeat' first
    | with_reducible exact Keeps.refl _
    | with_reducible apply Keeps.ite
    | with_reducible apply Keeps.iteFst
    | with_reducible apply Keeps.chain (useFree_keeps _)
    | with_reducible apply Keeps.chain (msgCount_keeps ..)
    | with_reducible apply Keeps.chain (record_keeps ..)
    | with_reducible apply Keeps.chain (setBox_keeps ..)
    | with_reducible refine guarded_keeps _ _ _ ?_
    | with_reducible refine reply_keeps ?_
    | split
    | dsimp only

theorem jobStatus_keeps (r : Req) (s : State) : Keeps [] s (jobStatus r s).1 := by
  unfold jobStatus
  repeat' first
    | with_reducible exact Keeps.refl _
    | with_reducible apply Keeps.iteFst
    | with_reducible refine guarded_keeps _ _ _ ?_
    | with_reducible refine reply_keeps ?_
    | split
    | dsimp only

theorem postWrite_keeps (mb len : Nat) (s : State) : Keeps [.cache, .mem, .free, .out, .msg] s (State.postWrite mb len s) := by
  unfold State.postWrite
  repeat' first
    | with_reducible exact Keeps.refl _
    | with_reducible apply Keeps.ite
    | with_reducible apply Keeps.chain (msgCount_keeps ..)
    | with_reducible apply Keeps.chain (respond_keeps ..)
    | with_reducible apply Keeps.chain (setBox_keeps ..)
    | dsimp only

theorem doneWrite_keeps (mb : Nat) (s : State) : Keeps [.msg] s (State.doneWrite mb s) := by
  unfold State.doneWrite
  repeat' first
    | with_reducible exact Keeps.refl _
    | with_reducible apply Keeps.ite
    | with_reducible apply Keeps.chain (setBox_keeps ..)

theorem handshake_keeps (verified : Bool) (fingerprint : List Byte) (s : State) : Keeps [.out, .msg] s (State.handshake verified fingerprint s) := by
  unfold State.handshake
  repeat' first
    | with_reducible exact Keeps.refl _
    | with_reducible apply Keeps.ite
    | with_reducible apply Keeps.chain (emit_keeps _ _)
    | with_reducible apply Keeps.chain (upMsg_keeps _ _)
    | with_reducible apply Keeps.chain (msgCount_keeps ..)
    | with_reducible apply Keeps.chain (setBox_keeps ..)
    | split

end Sys2Proof.Machine
end

