-- ==== Sys2Proof/Laws/KeepSched.lean ====
section
/-! SUPPORT. What the operations of Sched.lean may change; each keeps the form of a state and the instant. -/

set_option Elab.async false
set_option linter.all false

namespace Sys2Proof.Machine

theorem setEntry_keeps (n : Nat) (e : Entry) (s : State) : Keeps [.cache, .mem, .sched] s (State.setEntry n e s) := by
  unfold State.setEntry
  repeat' first
    | with_reducible exact Keeps.refl _
    | with_reducible apply Keeps.chain (upMem_keeps _ _ (fun w => by first | exact memWriteN_wf _ _ _ w | exact memStore_wf _ _ w | exact memClear_wf _ _ w | (apply memStore_wf; assumption) ))
    | with_reducible apply Keeps.chain (upSched_keeps _ _)

theorem showTimed_keeps (h : Nat) (s : State) : Keeps [.cache, .mem] s (State.showTimed h s) := by
  unfold State.showTimed
  repeat' first
    | with_reducible exact Keeps.refl _
    | with_reducible apply Keeps.chain (upImg_keeps ..)

theorem setSchedStation_keeps (x : SchedStation) (s : State) : Keeps [.sched] s (State.setSchedStation x s) := by
  unfold State.setSchedStation
  repeat' first
    | with_reducible exact Keeps.refl _
    | with_reducible apply Keeps.chain (upSched_keeps _ _)

theorem outcome_keeps (id o stamp : Nat) (s : State) : Keeps [.sched] s (State.outcome id o stamp s) := by
  unfold State.outcome
  repeat' first
    | with_reducible exact Keeps.refl _
    | with_reducible apply Keeps.ite
    | with_reducible apply Keeps.chain (upSched_keeps _ _)

theorem recordOutcome_keeps (o : Nat) (qs : List (Nat × Nat)) (s : State) : Keeps [.cache, .log] s (State.recordOutcome o qs s) := by
  unfold State.recordOutcome
  repeat' first
    | with_reducible exact Keeps.refl _
    | with_reducible apply Keeps.ite
    | with_reducible apply Keeps.chain (recordAtMost_keeps ..)

theorem freeEntry_keeps (n : Nat) (s : State) : Keeps [.cache, .mem, .sched] s (State.freeEntry n s) := by
  unfold State.freeEntry
  repeat' first
    | with_reducible exact Keeps.refl _
    | with_reducible apply Keeps.chain (upMem_keeps _ _ (fun w => by first | exact memWriteN_wf _ _ _ w | exact memStore_wf _ _ w | exact memClear_wf _ _ w | (apply memStore_wf; assumption) ))
    | with_reducible apply Keeps.chain (upSched_keeps _ _)
    | with_reducible apply Keeps.chain (showTimed_keeps ..)
    | dsimp only

theorem sendDiag_keeps (a page : Nat) (forReq : Option Hdr) (forEntry : Option Nat) (s : State) : Keeps [.out, .fsp] s (State.sendDiag a page forReq forEntry s) := by
  unfold State.sendDiag
  repeat' first
    | with_reducible exact Keeps.refl _
    | with_reducible apply Keeps.chain (upFsp_keeps _ _)
    | with_reducible apply Keeps.chain (toStation_keeps ..)
    | dsimp only

theorem settle_keeps (n o stamp : Nat) (s : State) : Keeps [.cache, .mem, .out, .fsp, .sched, .log] s (State.settle n o stamp s) := by
  unfold State.settle
  repeat' first
    | with_reducible exact Keeps.refl _
    | with_reducible apply Keeps.ite
    | with_reducible apply Keeps.chain (freeEntry_keeps ..)
    | with_reducible apply Keeps.chain (outcome_keeps ..)
    | with_reducible apply Keeps.chain (recordOutcome_keeps ..)
    | with_reducible apply Keeps.chain (sendDiag_keeps ..)
    | split
    | dsimp only

theorem sendSched_keeps (a : Nat) (ids : List Nat) (cancel : Bool) (payload : List Byte) (latest : Option Nat) (s : State) : Keeps [.out, .fsp, .sched] s (State.sendSched a ids cancel payload latest s) := by
  unfold State.sendSched
  repeat' first
    | with_reducible exact Keeps.refl _
    | with_reducible apply Keeps.chain (upSched_keeps _ _)
    | with_reducible apply Keeps.chain (setSchedStation_keeps ..)
    | with_reducible apply Keeps.chain (toStation_keeps ..)
    | dsimp only

theorem sendEntries_keeps (a : Nat) (re : Bool) (fuel : Nat) (ns : List Nat) (s : State) : Keeps [.cache, .mem, .out, .fsp, .sched] s (State.sendEntries a re fuel ns s) := by
  induction fuel generalizing ns s with
  | zero => exact Keeps.refl s
  | succ fuel ih =>
    unfold State.sendEntries
    dsimp only
    apply Keeps.ite
    · exact Keeps.refl s
    · refine Keeps.chain (ih _ _) (Keeps.chain (sendSched_keeps ..) ?_) (by decide)
      exact Keeps.foldl (Keeps.refl s) (fun _ _ => (setEntry_keeps ..).mono (by decide)) _

theorem evalEntry_keeps (acc : State × List (Nat × Nat)) (n : Nat) : Keeps [.cache, .mem, .out, .fsp, .sched, .log] acc.1 (State.evalEntry acc n).1 := by
  unfold State.evalEntry
  repeat' first
    | with_reducible exact Keeps.refl _
    | with_reducible apply Keeps.ite
    | with_reducible apply Keeps.iteFst
    | with_reducible apply Keeps.chain (settle_keeps ..)
    | with_reducible apply Keeps.chain (upSched_keeps _ _)
    | dsimp only

theorem sendAll_keeps (re : Bool) (going : List (Nat × Nat)) (s : State) : Keeps [.cache, .mem, .out, .fsp, .sched] s (State.sendAll re going s) := by
  unfold State.sendAll
  repeat' first
    | with_reducible exact Keeps.refl _
    | (with_reducible refine Keeps.foldl ?_ (fun _ _ => ?_) _)
    | with_reducible apply Keeps.chain (sendEntries_keeps ..)
    | dsimp only

theorem evaluate_keeps (s : State) : Keeps [.cache, .mem, .out, .fsp, .sched, .log] s (State.evaluate s) := by
  unfold State.evaluate
  dsimp only
  apply Keeps.chain (sendAll_keeps ..)
  exact Keeps.foldlFst (Keeps.refl s) (fun u x => evalEntry_keeps u x) _

theorem schedPut_keeps (cls h : Nat) (value : Word) (apply : Nat) (asap : Bool) (s : State) : Keeps [.cache, .mem, .out, .sched] s (State.schedPut cls h value apply asap s) := by
  unfold State.schedPut
  repeat' first
    | with_reducible exact Keeps.refl _
    | with_reducible apply Keeps.ite
    | with_reducible apply Keeps.chain (upSched_keeps _ _)
    | with_reducible apply Keeps.chain (ret_keeps ..)
    | with_reducible apply Keeps.chain (setEntry_keeps ..)
    | with_reducible apply Keeps.chain (showTimed_keeps ..)
    | split
    | dsimp only

theorem cancelEntry_keeps (n cause : Nat) (s : State) : Keeps [.cache, .mem, .out, .fsp, .sched, .log] s (State.cancelEntry n cause s).1 := by
  unfold State.cancelEntry
  repeat' first
    | with_reducible exact Keeps.refl _
    | with_reducible apply Keeps.ite
    | with_reducible apply Keeps.iteFst
    | with_reducible apply Keeps.chain (upSched_keeps _ _)
    | with_reducible apply Keeps.chain (sendSched_keeps ..)
    | with_reducible apply Keeps.chain (setEntry_keeps ..)
    | with_reducible apply Keeps.chain (settle_keeps ..)
    | split
    | dsimp only

theorem schedCancel_keeps (id : Nat) (s : State) : Keeps [.cache, .mem, .out, .fsp, .sched, .log] s (State.schedCancel id s) := by
  unfold State.schedCancel
  repeat' first
    | with_reducible exact Keeps.refl _
    | with_reducible apply Keeps.ite
    | with_reducible apply Keeps.chain (upSched_keeps _ _)
    | with_reducible apply Keeps.chain (cancelEntry_keeps ..)
    | with_reducible apply Keeps.chain (ret_keeps ..)
    | split
    | dsimp only

theorem schedStatus_keeps (id : Nat) (s : State) : Keeps [.out] s (State.schedStatus id s) := by
  unfold State.schedStatus
  repeat' first
    | with_reducible exact Keeps.refl _
    | with_reducible apply Keeps.chain (ret_keeps ..)
    | split

theorem cancelHandle_keeps (h cause : Nat) (s : State) : Keeps [.cache, .mem, .out, .fsp, .sched, .log] s (State.cancelHandle h cause s) := by
  unfold State.cancelHandle
  repeat' first
    | with_reducible exact Keeps.refl _
    | with_reducible apply Keeps.ite
    | (with_reducible refine Keeps.foldl ?_ (fun _ _ => ?_) _)
    | with_reducible apply Keeps.chain (cancelEntry_keeps ..)
    | dsimp only

theorem ackItem_keeps (a : Nat) (it : Nat × Nat) (s : State) : Keeps [.cache, .mem, .out, .fsp, .sched, .log] s (State.ackItem a it s) := by
  unfold State.ackItem
  repeat' first
    | with_reducible exact Keeps.refl _
    | with_reducible apply Keeps.ite
    | with_reducible apply Keeps.chain (upSched_keeps _ _)
    | with_reducible apply Keeps.chain (setEntry_keeps ..)
    | with_reducible apply Keeps.chain (settle_keeps ..)
    | split
    | dsimp only

theorem schedAck_keeps (f : Fsp) (s : State) : Keeps [.cache, .mem, .out, .cyc, .fsp, .sched, .log] s (State.schedAck f s) := by
  unfold State.schedAck
  repeat' first
    | with_reducible exact Keeps.refl _
    | with_reducible apply Keeps.ite
    | (with_reducible refine Keeps.foldl ?_ (fun _ _ => ?_) _)
    | with_reducible apply Keeps.chain (upCyc_keeps _ _)
    | with_reducible apply Keeps.chain (upSched_keeps _ _)
    | with_reducible apply Keeps.chain (ackItem_keeps ..)
    | with_reducible apply Keeps.chain (fspCount_keeps ..)
    | with_reducible apply Keeps.chain (setSchedStation_keeps ..)
    | split
    | dsimp only

theorem report_keeps (a : Nat) (it : Nat × Nat × Nat) (s : State) : Keeps [.cache, .mem, .out, .fsp, .sched, .log] s (State.report a it s) := by
  unfold State.report
  repeat' first
    | with_reducible exact Keeps.refl _
    | with_reducible apply Keeps.ite
    | with_reducible apply Keeps.chain (upSched_keeps _ _)
    | with_reducible apply Keeps.chain (outcome_keeps ..)
    | with_reducible apply Keeps.chain (recordOutcome_keeps ..)
    | with_reducible apply Keeps.chain (settle_keeps ..)
    | with_reducible apply Keeps.chain (upImg_keeps ..)
    | split
    | dsimp only

theorem publishReport_keeps (f : Fsp) (s : State) : Keeps [.cache, .mem, .out, .fsp, .sched, .log] s (State.publishReport f s) := by
  unfold State.publishReport
  repeat' first
    | with_reducible exact Keeps.refl _
    | (with_reducible refine Keeps.foldl ?_ (fun _ _ => ?_) _)
    | with_reducible apply Keeps.chain (fspCount_keeps ..)
    | with_reducible apply Keeps.chain (report_keeps ..)
    | split
    | dsimp only

theorem retrySched_keeps (a no : Nat) (s : State) : Keeps [.cache, .mem, .out, .fsp, .sched] s (State.retrySched a no s) := by
  unfold State.retrySched
  repeat' first
    | with_reducible exact Keeps.refl _
    | with_reducible apply Keeps.ite
    | (with_reducible refine Keeps.foldl ?_ (fun _ _ => ?_) _)
    | with_reducible apply Keeps.chain (upSched_keeps _ _)
    | with_reducible apply Keeps.chain (setEntry_keeps ..)
    | with_reducible apply Keeps.chain (toStation_keeps ..)
    | split
    | dsimp only

theorem redispatch_keeps (s : State) : Keeps [.cache, .mem, .out, .fsp, .sched] s (State.redispatch s) := by
  unfold State.redispatch
  repeat' first
    | with_reducible exact Keeps.refl _
    | with_reducible apply Keeps.chain (sendAll_keeps ..)
    | dsimp only

theorem cancelOrphans_keeps (s : State) : Keeps [.out, .fsp, .sched] s (State.cancelOrphans s) := by
  unfold State.cancelOrphans
  repeat' first
    | with_reducible exact Keeps.refl _
    | (with_reducible refine Keeps.foldl ?_ (fun _ _ => ?_) _)
    | with_reducible apply Keeps.chain (sendSched_keeps ..)
    | dsimp only

theorem takeEntry_keeps (b : List Byte) (s : State) : Keeps [.cache, .mem, .sched] s (State.takeEntry b s) := by
  unfold State.takeEntry
  repeat' first
    | with_reducible exact Keeps.refl _
    | with_reducible apply Keeps.ite
    | with_reducible apply Keeps.chain (upMem_keeps _ _ (fun w => by first | exact memWriteN_wf _ _ _ w | exact memStore_wf _ _ w | exact memClear_wf _ _ w | (apply memStore_wf; assumption) ))
    | with_reducible apply Keeps.chain (upSched_keeps _ _)
    | with_reducible apply Keeps.chain (setEntry_keeps ..)
    | with_reducible apply Keeps.chain (showTimed_keeps ..)
    | split
    | dsimp only

end Sys2Proof.Machine
end

