-- ==== Sys2Proof/Laws/KeepCommands.lean ====
section
/-! SUPPORT. What the operations of Commands.lean may change; each keeps the form of a state and the instant. -/

set_option Elab.async false
set_option linter.all false

namespace Sys2Proof.Machine

theorem pointRead_keeps (r : Req) (s : State) : Keeps [] s (pointRead r s).1 := by
  unfold pointRead
  repeat' first
    | with_reducible exact Keeps.refl _
    | with_reducible apply Keeps.ite
    | with_reducible apply Keeps.iteFst
    | with_reducible refine guarded_keeps _ _ _ ?_
    | with_reducible refine reply_keeps ?_
    | split
    | dsimp only

theorem keepBefore_keeps (h : Nat) (s : State) : Keeps [.pts] s (State.keepBefore h s) := by
  unfold State.keepBefore
  repeat' first
    | with_reducible exact Keeps.refl _
    | with_reducible apply Keeps.ite
    | with_reducible apply Keeps.chain (upPts_keeps _ _)

theorem force_keeps (h mode : Nat) (v : Word) (session : Nat) (s : State) : Keeps [.cache, .mem, .out, .pts, .fsp, .sched, .log] s (State.force h mode v session s) := by
  unfold State.force
  repeat' first
    | with_reducible exact Keeps.refl _
    | with_reducible apply Keeps.ite
    | with_reducible apply Keeps.chain (upPts_keeps _ _)
    | with_reducible apply Keeps.chain (cancelHandle_keeps ..)
    | with_reducible apply Keeps.chain (keepBefore_keeps ..)
    | with_reducible apply Keeps.chain (record_keeps ..)
    | with_reducible apply Keeps.chain (upImg_keeps ..)
    | dsimp only

theorem pointForce_keeps (r : Req) (s : State) : Keeps [.cache, .mem, .out, .pts, .fsp, .sched, .log] s (pointForce r s).1 := by
  unfold pointForce
  repeat' first
    | with_reducible exact Keeps.refl _
    | with_reducible apply Keeps.iteFst
    | with_reducible apply Keeps.chain (force_keeps ..)
    | with_reducible refine guarded_keeps _ _ _ ?_
    | with_reducible refine reply_keeps ?_
    | split
    | dsimp only

theorem release_keeps (session h : Nat) (s : State) : Keeps [.cache, .mem, .out, .pts, .fsp, .sched, .log] s (State.release session h s) := by
  unfold State.release
  repeat' first
    | with_reducible exact Keeps.refl _
    | with_reducible apply Keeps.ite
    | with_reducible apply Keeps.chain (upPts_keeps _ _)
    | with_reducible apply Keeps.chain (force_keeps ..)
    | with_reducible apply Keeps.chain (record_keeps ..)
    | with_reducible apply Keeps.chain (upImg_keeps ..)
    | dsimp only

theorem pointRelease_keeps (r : Req) (s : State) : Keeps [.cache, .mem, .out, .pts, .fsp, .sched, .log] s (pointRelease r s).1 := by
  unfold pointRelease
  repeat' first
    | with_reducible exact Keeps.refl _
    | with_reducible apply Keeps.ite
    | (with_reducible refine Keeps.foldl ?_ (fun _ _ => ?_) _)
    | with_reducible apply Keeps.iteFst
    | with_reducible apply Keeps.chain (release_keeps ..)
    | with_reducible refine guarded_keeps _ _ _ ?_
    | with_reducible refine reply_keeps ?_
    | split
    | dsimp only

theorem pointBrowse_keeps (r : Req) (s : State) : Keeps [.msg] s (pointBrowse r s).1 := by
  unfold pointBrowse
  repeat' first
    | with_reducible exact Keeps.refl _
    | with_reducible apply Keeps.ite
    | with_reducible apply Keeps.iteFst
    | with_reducible apply Keeps.chain (take_keeps ..)
    | with_reducible refine guarded_keeps _ _ _ ?_
    | with_reducible refine reply_keeps ?_
    | split
    | dsimp only

theorem timeStatus_keeps (s : State) : Keeps [.time] s (timeStatus s).1 := by
  unfold timeStatus
  repeat' first
    | with_reducible exact Keeps.refl _
    | with_reducible apply Keeps.iteFst
    | with_reducible apply Keeps.chain (upTime_keeps _ _ (by first | rfl | (dsimp only; split <;> rfl) | (dsimp only; repeat' first | rfl | split)))
    | with_reducible refine reply_keeps ?_
    | split
    | dsimp only

theorem reacquire_keeps (n : Nat) (s : State) : Keeps [.cache, .time, .log] s (State.reacquire n s) := by
  unfold State.reacquire
  repeat' first
    | with_reducible exact Keeps.refl _
    | with_reducible apply Keeps.chain (baseTo_keeps ..)
    | with_reducible apply Keeps.chain (setBase_keeps ..)

theorem timeStep_keeps (r : Req) (s : State) : Keeps [.cache, .time, .log] s (timeStep r s).1 := by
  unfold timeStep
  repeat' first
    | with_reducible exact Keeps.refl _
    | with_reducible apply Keeps.ite
    | with_reducible apply Keeps.iteFst
    | with_reducible apply Keeps.chain (reacquire_keeps ..)
    | with_reducible apply Keeps.chain (stepBase_keeps ..)
    | with_reducible refine guarded_keeps _ _ _ ?_
    | with_reducible refine reply_keeps ?_
    | split
    | dsimp only

theorem recOpen_keeps (r : Req) (s : State) : Keeps [.msg] s (recOpen r s).1 := by
  unfold recOpen
  repeat' first
    | with_reducible exact Keeps.refl _
    | with_reducible apply Keeps.ite
    | with_reducible apply Keeps.iteFst
    | with_reducible apply Keeps.chain (setBox_keeps ..)
    | with_reducible refine guarded_keeps _ _ _ ?_
    | with_reducible refine reply_keeps ?_
    | split
    | dsimp only

theorem recRead_keeps (r : Req) (s : State) : Keeps [.msg, .log] s (recRead r s).1 := by
  unfold recRead
  repeat' first
    | with_reducible exact Keeps.refl _
    | with_reducible apply Keeps.ite
    | with_reducible apply Keeps.iteFst
    | with_reducible apply Keeps.chain (upLog_keeps _ _)
    | with_reducible apply Keeps.chain (setBox_keeps ..)
    | with_reducible apply Keeps.chain (take_keeps ..)
    | with_reducible refine guarded_keeps _ _ _ ?_
    | with_reducible refine reply_keeps ?_
    | split
    | dsimp only

theorem recClose_keeps (r : Req) (s : State) : Keeps [.msg] s (recClose r s).1 := by
  unfold recClose
  repeat' first
    | with_reducible exact Keeps.refl _
    | with_reducible apply Keeps.iteFst
    | with_reducible apply Keeps.chain (setBox_keeps ..)
    | with_reducible refine reply_keeps ?_
    | split
    | dsimp only

theorem recMark_keeps (r : Req) (s : State) : Keeps [.cache, .log] s (recMark r s).1 := by
  unfold recMark
  repeat' first
    | with_reducible exact Keeps.refl _
    | with_reducible apply Keeps.ite
    | with_reducible apply Keeps.iteFst
    | with_reducible apply Keeps.chain (record__keeps ..)
    | with_reducible apply Keeps.chain (reportDrops_keeps ..)
    | with_reducible refine reply_keeps ?_
    | split
    | dsimp only

theorem displayText_keeps (r : Req) (s : State) : Keeps [.disp] s (displayText r s).1 := by
  unfold displayText
  repeat' first
    | with_reducible exact Keeps.refl _
    | with_reducible apply Keeps.iteFst
    | with_reducible apply Keeps.chain (upDisp_keeps _ _)
    | with_reducible refine guarded_keeps _ _ _ ?_
    | with_reducible refine reply_keeps ?_
    | split
    | dsimp only

theorem displayRefresh_keeps  (s : State) : Keeps [.disp] s (displayRefresh s).1 := by
  unfold displayRefresh
  repeat' first
    | with_reducible exact Keeps.refl _
    | with_reducible apply Keeps.iteFst
    | with_reducible apply Keeps.chain (upDisp_keeps _ _)
    | with_reducible refine guarded_keeps _ _ _ ?_
    | with_reducible refine reply_keeps ?_
    | split
    | dsimp only

theorem pairHandover_keeps  (s : State) : Keeps [.out, .pair, .msg] s (pairHandover s).1 := by
  unfold pairHandover
  repeat' first
    | with_reducible exact Keeps.refl _
    | with_reducible apply Keeps.ite
    | with_reducible apply Keeps.iteFst
    | with_reducible apply Keeps.chain (armHandover_keeps ..)
    | with_reducible refine guarded_keeps _ _ _ ?_
    | with_reducible refine withJob_keeps _ _ _ (fun _ _ => ?_) (by decide)
    | split
    | dsimp only

theorem diagRead_keeps (r : Req) (s : State) : Keeps [.out, .fsp] s (diagRead r s).1 := by
  unfold diagRead
  repeat' first
    | with_reducible exact Keeps.refl _
    | with_reducible apply Keeps.ite
    | with_reducible apply Keeps.iteFst
    | with_reducible apply Keeps.chain (sendDiag_keeps ..)
    | with_reducible refine guarded_keeps _ _ _ ?_
    | with_reducible refine reply_keeps ?_
    | split
    | dsimp only

theorem probe_keeps (r : StationRec) (s : State) : Keeps [.out, .fsp] s (State.probe r s) := by
  unfold State.probe
  repeat' first
    | with_reducible exact Keeps.refl _
    | with_reducible apply Keeps.chain (upFsp_keeps _ _)
    | with_reducible apply Keeps.chain (sendFrame_keeps ..)
    | dsimp only

theorem probeEnds_keeps (d : DiagSt) (page : Option (List Byte)) (s : State) : Keeps [.out, .fsp, .cfg] s (State.probeEnds d page s) := by
  unfold State.probeEnds
  repeat' first
    | with_reducible exact Keeps.refl _
    | with_reducible apply Keeps.ite
    | with_reducible apply Keeps.chain (upCfg_keeps _ _)
    | with_reducible apply Keeps.chain (probe_keeps ..)
    | split
    | dsimp only

theorem endDiag_keeps (d : DiagSt) (page : Option (List Byte)) (s : State) : Keeps [.cache, .mem, .free, .out, .pair, .fsp, .cfg, .msg, .log] s (State.endDiag d page s) := by
  unfold State.endDiag
  repeat' first
    | with_reducible exact Keeps.refl _
    | with_reducible apply Keeps.ite
    | with_reducible apply Keeps.chain (upFsp_keeps _ _)
    | with_reducible apply Keeps.chain (hearTerm_keeps ..)
    | with_reducible apply Keeps.chain (probeEnds_keeps ..)
    | with_reducible apply Keeps.chain (recordOutcome_keeps ..)
    | with_reducible apply Keeps.chain (respond_keeps ..)
    | split
    | dsimp only

theorem diagResponse_keeps (f : Fsp) (s : State) : Keeps [.cache, .mem, .free, .out, .pair, .cyc, .fsp, .cfg, .msg, .log] s (State.diagResponse f s) := by
  unfold State.diagResponse
  repeat' first
    | with_reducible exact Keeps.refl _
    | with_reducible apply Keeps.ite
    | with_reducible apply Keeps.chain (upCyc_keeps _ _)
    | with_reducible apply Keeps.chain (endDiag_keeps ..)
    | with_reducible apply Keeps.chain (fspCount_keeps ..)
    | split

end Sys2Proof.Machine
end

