-- ==== Sys2Proof/Laws/KeepLock.lean ====
section
/-! SUPPORT. What the operations of Lock.lean may change; each keeps the form of a state and the instant. -/

set_option Elab.async false
set_option linter.all false

namespace Sys2Proof.Machine

theorem setPair_keeps (n : Nat) (f : CorePair → CorePair) (s : State) : Keeps [.lock] s (State.setPair n f s) := by
  unfold State.setPair
  repeat' first
    | with_reducible exact Keeps.refl _
    | with_reducible apply Keeps.chain (upLock_keeps _ _)

theorem invalidate_keeps (s : State) : Keeps [.cfg] s (State.invalidate s) := by
  unfold State.invalidate
  repeat' first
    | with_reducible exact Keeps.refl _
    | with_reducible apply Keeps.chain (upCfg_keeps _ _)

theorem lockFault_keeps (n : Nat) (f : LockFinding) (group : Nat) (s : State) : Keeps [.cache, .out, .pair, .power, .cyc, .sched, .lock, .cfg, .msg, .gate, .sheaf, .dio, .ua, .can, .log] s (State.lockFault n f group s) := by
  unfold State.lockFault
  repeat' first
    | with_reducible exact Keeps.refl _
    | with_reducible apply Keeps.ite
    | with_reducible apply Keeps.chain (upLock_keeps _ _)
    | with_reducible apply Keeps.chain (safeHold_keeps ..)
    | with_reducible apply Keeps.chain (setPair_keeps ..)
    | with_reducible apply Keeps.chain (stayMode_keeps ..)
    | split
    | dsimp only

theorem fold_keeps (s : State) : Keeps [.free, .lock] s (State.fold s) := by
  unfold State.fold
  repeat' first
    | with_reducible exact Keeps.refl _
    | with_reducible apply Keeps.chain (upLock_keeps _ _)
    | with_reducible apply Keeps.chain (useFree_keeps _)

theorem selfTest_keeps (failed : Option Nat) (s : State) : Keeps [.cache, .out, .pair, .cnt, .power, .cyc, .sched, .lock, .cfg, .msg, .gate, .sheaf, .dio, .ua, .can, .log] s (State.selfTest failed s) := by
  unfold State.selfTest
  repeat' first
    | with_reducible exact Keeps.refl _
    | with_reducible apply Keeps.ite
    | with_reducible apply Keeps.chain (upLock_keeps _ _)
    | with_reducible apply Keeps.chain (upSheaf_keeps _ _)
    | with_reducible apply Keeps.chain (lockFault_keeps ..)
    | with_reducible apply Keeps.chain (proved_keeps ..)
    | split
    | dsimp only

theorem startLbist_keeps (s : State) : Keeps [.lock] s (State.startLbist s) := by
  unfold State.startLbist
  repeat' first
    | with_reducible exact Keeps.refl _
    | with_reducible apply Keeps.chain (upLock_keeps _ _)

theorem disablePair_keeps (n cls : Nat) (s : State) : Keeps [.lock, .cfg] s (State.disablePair n cls s) := by
  unfold State.disablePair
  repeat' first
    | with_reducible exact Keeps.refl _
    | with_reducible apply Keeps.chain (invalidate_keeps ..)
    | with_reducible apply Keeps.chain (setPair_keeps ..)

theorem endLbist_keeps (n : Nat) (passed : Bool) (s : State) : Keeps [.cache, .out, .pair, .cnt, .power, .cyc, .sched, .lock, .cfg, .msg, .gate, .sheaf, .dio, .ua, .can, .log] s (State.endLbist n passed s) := by
  unfold State.endLbist
  repeat' first
    | with_reducible exact Keeps.refl _
    | with_reducible apply Keeps.ite
    | with_reducible apply Keeps.chain (upLock_keeps _ _)
    | with_reducible apply Keeps.chain (disablePair_keeps ..)
    | with_reducible apply Keeps.chain (proved_keeps ..)
    | with_reducible apply Keeps.chain (record_keeps ..)
    | with_reducible apply Keeps.chain (safeHold_keeps ..)
    | with_reducible apply Keeps.chain (setPair_keeps ..)
    | with_reducible apply Keeps.chain (stayMode_keeps ..)
    | split
    | dsimp only

end Sys2Proof.Machine
end

