-- ==== Sys2Proof/Laws/KeepRecorder.lean ====
section
/-! SUPPORT. What the operations of Recorder.lean may change; each keeps the form of a state and the instant. -/

set_option Elab.async false
set_option linter.all false

namespace Sys2Proof.Machine

theorem flushRecords_keeps (s : State) : Keeps [.log] s (State.flushRecords s) := by
  unfold State.flushRecords
  repeat' first
    | with_reducible exact Keeps.refl _
    | with_reducible apply Keeps.chain (upLog_keeps _ _)

end Sys2Proof.Machine
end

