-- ==== Sys2Proof/Laws/KeepSecure.lean ====
section
/-! SUPPORT. What the operations of Secure.lean may change; each keeps the form of a state and the instant. -/

set_option Elab.async false
set_option linter.all false

namespace Sys2Proof.Machine

theorem installRules_keeps (s : State) : Keeps [.gate] s (State.installRules s) := upGate_keeps _ _ id

theorem openDebug_keeps (mb : Option Nat) (s : State) : Keeps [.cache, .gate, .log] s (State.openDebug mb s) := by
  unfold State.openDebug
  split
  · exact Keeps.refl _
  · dsimp only
    apply Keeps.chain (record_keeps ..)
    apply Keeps.chain (installRules_keeps ..)
    exact ⟨fun p hp => by cases p <;> first | rfl | exact fun _ _ => ⟨rfl, Iff.rfl⟩ | exact absurd (by simp) hp,
      fun w => ⟨w.1, w.2, w.3, fun _ => by simp_all⟩, rfl⟩

theorem endRevoked_keeps (s : State) : Keeps [.cache, .msg, .gate, .log] s (State.endRevoked s) := by
  unfold State.endRevoked
  repeat' first
    | with_reducible exact Keeps.refl _
    | with_reducible apply Keeps.ite
    | (with_reducible refine Keeps.foldl ?_ (fun _ _ => ?_) _)
    | with_reducible apply Keeps.chain (endSession_keeps ..)
    | with_reducible apply Keeps.chain (setBox_keeps ..)
    | dsimp only

theorem keyCommit_keeps (s : State) : Keeps [.cache, .msg, .sec, .gate, .log] s (State.keyCommit s) := by
  unfold State.keyCommit
  repeat' first
    | with_reducible exact Keeps.refl _
    | with_reducible apply Keeps.ite
    | with_reducible apply Keeps.chain (upSec_keeps _ _)
    | with_reducible apply Keeps.chain (endRevoked_keeps ..)
    | with_reducible apply Keeps.chain (record_keeps ..)
    | split
    | dsimp only

theorem keyWindow_keeps (n : Nat) (v : Nat) (s : State) : Keeps [.sec] s (State.keyWindow n v s) := by
  unfold State.keyWindow
  repeat' first
    | with_reducible exact Keeps.refl _
    | (with_reducible refine Keeps.foldl ?_ (fun _ _ => ?_) _)
    | with_reducible apply Keeps.chain (upSec_keeps _ _)
    | dsimp only

theorem keyCtrl_keeps (v : Nat) (s : State) : Keeps [.cache, .msg, .sec, .gate, .log] s (State.keyCtrl v s) := by
  unfold State.keyCtrl
  repeat' first
    | with_reducible exact Keeps.refl _
    | with_reducible apply Keeps.chain (upSec_keeps _ _)
    | with_reducible apply Keeps.chain (keyCommit_keeps ..)
    | split

theorem endAllSessions_keeps (s : State) : Keeps [.cache, .out, .msg, .gate, .log] s (State.endAllSessions s) := by
  unfold State.endAllSessions
  repeat' first
    | with_reducible exact Keeps.refl _
    | with_reducible apply Keeps.ite
    | (with_reducible refine Keeps.foldl ?_ (fun _ _ => ?_) _)
    | with_reducible apply Keeps.chain (upMsg_keeps _ _)
    | with_reducible apply Keeps.chain (closeConnection_keeps ..)
    | dsimp only

theorem wipe_keeps (reason : Nat) (s : State) : Keeps [.cache, .mem, .out, .msg, .sec, .gate, .log] s (State.wipe reason s) := by
  unfold State.wipe
  repeat' first
    | with_reducible exact Keeps.refl _
    | with_reducible apply Keeps.chain (upMem_keeps _ _ (fun w => by first | exact memWriteN_wf _ _ _ w | exact memStore_wf _ _ w | exact memClear_wf _ _ w | (apply memStore_wf; assumption) ))
    | with_reducible apply Keeps.chain (upSec_keeps _ _)
    | with_reducible apply Keeps.chain (closeDebug_keeps ..)
    | with_reducible apply Keeps.chain (endAllSessions_keeps ..)
    | dsimp only

theorem tamperWipe_keeps (reason : Nat) (s : State) : Keeps [.cache, .mem, .out, .msg, .sec, .gate, .log] s (State.tamperWipe reason s) := by
  unfold State.tamperWipe
  repeat' first
    | with_reducible exact Keeps.refl _
    | with_reducible apply Keeps.ite
    | with_reducible apply Keeps.chain (upSec_keeps _ _)
    | with_reducible apply Keeps.chain (record_keeps ..)
    | with_reducible apply Keeps.chain (wipe_keeps ..)
    | dsimp only

theorem eraseStore_keeps (s : State) : Keeps [.cfg, .log] s (State.eraseStore s) := by
  unfold State.eraseStore
  repeat' first
    | with_reducible exact Keeps.refl _
    | with_reducible apply Keeps.chain (upCfg_keeps _ _)
    | with_reducible apply Keeps.chain (upLog_keeps _ _)

theorem advance_keeps (target : Nat) (s : State) : Keeps [.cache, .mem, .out, .cfg, .msg, .sec, .gate, .log] s (State.advance target s) := by
  unfold State.advance
  repeat' first
    | with_reducible exact Keeps.refl _
    | with_reducible apply Keeps.chain (upSec_keeps _ _)
    | with_reducible apply Keeps.chain (eraseStore_keeps ..)
    | with_reducible apply Keeps.chain (record_keeps ..)
    | with_reducible apply Keeps.chain (wipe_keeps ..)
    | split
    | dsimp only

theorem lifecycleBody_keeps (r : Req) (s : State) : Keeps [.msg, .sec] s (lifecycleBody r s).1 := by
  unfold lifecycleBody
  repeat' first
    | with_reducible exact Keeps.refl _
    | with_reducible apply Keeps.iteFst
    | with_reducible apply Keeps.chain (upSec_keeps _ _)
    | with_reducible refine guarded_keeps _ _ _ ?_
    | with_reducible refine withJob_keeps _ _ _ (fun _ _ => ?_) (by decide)
    | split
    | dsimp only

theorem lockBody_keeps (lock : Bool) (r : Req) (s : State) : Keeps [.cache, .sec, .log] s (lockBody lock r s).1 := by
  unfold lockBody
  repeat' first
    | with_reducible exact Keeps.refl _
    | with_reducible apply Keeps.ite
    | with_reducible apply Keeps.iteFst
    | with_reducible apply Keeps.chain (upSec_keeps _ _)
    | with_reducible apply Keeps.chain (record_keeps ..)
    | with_reducible refine reply_keeps ?_
    | split
    | dsimp only

end Sys2Proof.Machine
end

