-- ==== Sys2Proof/Laws/KeepCycles.lean ====
section
/-! SUPPORT. What the operations of Cycles.lean may change; each keeps the form of a state and the instant. -/

set_option Elab.async false
set_option linter.all false

namespace Sys2Proof.Machine

theorem setCl_keeps (x : Nat) (f : ClassSt → ClassSt) (s : State) : Keeps [.cyc] s (State.setCl x f s) := by
  unfold State.setCl
  repeat' first
    | with_reducible exact Keeps.refl _
    | with_reducible apply Keeps.chain (upCyc_keeps _ _)

theorem countApps_keeps (n : Nat) (s : State) : Keeps [.pts] s (State.countApps n s) := by
  unfold State.countApps
  repeat' first
    | with_reducible exact Keeps.refl _
    | with_reducible apply Keeps.chain (upPts_keeps _ _)

theorem issueRead_keeps (x idx tag : Nat) (s : State) : Keeps [.out, .cyc, .fsp] s (State.issueRead x idx tag s) := by
  unfold State.issueRead
  repeat' first
    | with_reducible exact Keeps.refl _
    | with_reducible apply Keeps.chain (setCl_keeps ..)
    | with_reducible apply Keeps.chain (toStation_keeps ..)
    | split
    | dsimp only

theorem sendWrite_keeps (f : Flight) (retry : Bool) (s : State) : Keeps [.out, .fsp] s (State.sendWrite f retry s) := by
  unfold State.sendWrite
  repeat' first
    | with_reducible exact Keeps.refl _
    | with_reducible apply Keeps.chain (toStation_keeps ..)

theorem issueWrite_keeps (x tag : Nat) (f : Flight) (s : State) : Keeps [.out, .cyc, .fsp] s (State.issueWrite x tag f s) := by
  unfold State.issueWrite
  repeat' first
    | with_reducible exact Keeps.refl _
    | with_reducible apply Keeps.chain (sendWrite_keeps ..)
    | with_reducible apply Keeps.chain (setCl_keeps ..)
    | dsimp only

theorem issue_keeps (x fuel : Nat) (s : State) : Keeps [.out, .cyc, .fsp] s (State.issue x fuel s) := by
  induction fuel generalizing s with
  | zero => exact Keeps.refl s
  | succ fuel ih =>
    unfold State.issue
    dsimp only
    repeat' first
      | with_reducible exact Keeps.refl _
      | with_reducible apply Keeps.ite
      | with_reducible apply Keeps.chain (ih _)
      | with_reducible apply Keeps.chain (setCl_keeps ..)
      | with_reducible apply Keeps.chain (issueRead_keeps ..)
      | with_reducible apply Keeps.chain (issueWrite_keeps ..)
      | split

theorem pump_keeps (x : Nat) (s : State) : Keeps [.out, .cyc, .fsp] s (State.pump x s) := by
  unfold State.pump
  repeat' first
    | with_reducible exact Keeps.refl _
    | with_reducible apply Keeps.chain (issue_keeps ..)

theorem takePeer_keeps (h : Nat) (quality : Nat) (v : Word) (s : State) : Keeps [.cache, .mem, .pts] s (State.takePeer h quality v s) := by
  unfold State.takePeer
  repeat' first
    | with_reducible exact Keeps.refl _
    | with_reducible apply Keeps.ite
    | with_reducible apply Keeps.chain (clearBefore_keeps ..)
    | with_reducible apply Keeps.chain (upImg_keeps ..)
    | dsimp only

theorem completeItem_keeps (it : Nat × Nat × List Word) (s : State) : Keeps [.cache, .mem, .pts] s (State.completeItem it s) := by
  unfold State.completeItem
  repeat' first
    | with_reducible exact Keeps.refl _
    | with_reducible apply Keeps.ite
    | with_reducible apply Keeps.chain (complete_keeps ..)
    | with_reducible apply Keeps.chain (completeSlot_keeps ..)
    | with_reducible apply Keeps.chain (takePeer_keeps ..)
    | split
    | dsimp only

theorem latchCan_keeps (x : Nat) (s : State) : Keeps [.can] s (State.latchCan x s) := by
  unfold State.latchCan
  repeat' first
    | with_reducible exact Keeps.refl _
    | (with_reducible refine Keeps.foldl ?_ (fun _ _ => ?_) _)
    | with_reducible apply Keeps.chain (setCan_keeps ..)
    | dsimp only

theorem shot_keeps (it : Nat × Nat × List Word) (s : State) : Keeps [.cache, .mem, .pts, .cyc] s (State.shot it s) := by
  unfold State.shot
  repeat' first
    | with_reducible exact Keeps.refl _
    | with_reducible apply Keeps.chain (upCyc_keeps _ _)
    | with_reducible apply Keeps.chain (upMem_keeps _ _ (fun w => by first | exact memWriteN_wf _ _ _ w | exact memStore_wf _ _ w | exact memClear_wf _ _ w | (apply memStore_wf; assumption) ))
    | with_reducible apply Keeps.chain (completeItem_keeps ..)
    | with_reducible apply Keeps.chain (setImage_keeps ..)
    | dsimp only

theorem shadowIn_keeps (e : Heard) (s : State) : Keeps [.cache, .mem, .pts, .cyc] s (State.shadowIn e s) := by
  unfold State.shadowIn
  repeat' first
    | with_reducible exact Keeps.refl _
    | (with_reducible refine Keeps.foldl ?_ (fun _ _ => ?_) _)
    | with_reducible apply Keeps.chain (upCyc_keeps _ _)
    | with_reducible apply Keeps.chain (countApps_keeps ..)
    | with_reducible apply Keeps.chain (shot_keeps ..)
    | split
    | dsimp only

theorem hear_keeps (e : Heard) (s : State) : Keeps [.cache, .mem, .pts, .cyc] s (State.hear e s) := by
  unfold State.hear
  repeat' first
    | with_reducible exact Keeps.refl _
    | with_reducible apply Keeps.ite
    | with_reducible apply Keeps.chain (upCyc_keeps _ _)
    | with_reducible apply Keeps.chain (shadowIn_keeps ..)
    | split

theorem replay_keeps (x cycle by_ : Nat) (s : State) : Keeps [.cache, .mem, .pts, .cyc] s (State.replay x cycle by_ s) := by
  unfold State.replay
  repeat' first
    | with_reducible exact Keeps.refl _
    | (with_reducible refine Keeps.foldl ?_ (fun _ _ => ?_) _)
    | with_reducible apply Keeps.chain (upCyc_keeps _ _)
    | with_reducible apply Keeps.chain (shadowIn_keeps ..)
    | dsimp only

theorem deliver_keeps (x : Nat) (items : List (Nat × Nat × List Word)) (s : State) : Keeps [.cache, .mem, .pts, .cyc] s (State.deliver x items s) := by
  unfold State.deliver
  repeat' first
    | with_reducible exact Keeps.refl _
    | with_reducible apply Keeps.ite
    | (with_reducible refine Keeps.foldl ?_ (fun _ _ => ?_) _)
    | with_reducible apply Keeps.chain (completeItem_keeps ..)
    | with_reducible apply Keeps.chain (countApps_keeps ..)
    | with_reducible apply Keeps.chain (hear_keeps ..)
    | with_reducible apply Keeps.chain (setCl_keeps ..)
    | dsimp only

theorem latchLocal_keeps (x prev : Nat) (s : State) : Keeps [.cache, .mem, .pts, .cyc, .ua, .can] s (State.latchLocal x prev s) := by
  unfold State.latchLocal
  repeat' first
    | with_reducible exact Keeps.refl _
    | with_reducible apply Keeps.ite
    | with_reducible apply Keeps.chain (upCan_keeps _ _)
    | with_reducible apply Keeps.chain (deliver_keeps ..)
    | with_reducible apply Keeps.chain (latchCan_keeps ..)
    | with_reducible apply Keeps.chain (latchUa_keeps ..)
    | dsimp only

theorem startCycle_keeps (x : Nat) (s : State) : Keeps [.cache, .mem, .free, .out, .pts, .cyc, .fsp, .lock, .ua, .can] s (State.startCycle x s) := by
  unfold State.startCycle
  repeat' first
    | with_reducible exact Keeps.refl _
    | with_reducible apply Keeps.ite
    | with_reducible apply Keeps.chain (fold_keeps ..)
    | with_reducible apply Keeps.chain (latchLocal_keeps ..)
    | with_reducible apply Keeps.chain (pump_keeps ..)
    | with_reducible apply Keeps.chain (setCl_keeps ..)
    | dsimp only

theorem dropLate_keeps (s : State) : Keeps [.cyc] s (State.dropLate s) := by
  unfold State.dropLate
  repeat' first
    | with_reducible exact Keeps.refl _
    | with_reducible apply Keeps.chain (upCyc_keeps _ _)

theorem dropUnmatched_keeps (s : State) : Keeps [.cyc] s (State.dropUnmatched s) := by
  unfold State.dropUnmatched
  repeat' first
    | with_reducible exact Keeps.refl _
    | with_reducible apply Keeps.chain (upCyc_keeps _ _)
    | split

theorem dropFrame_keeps (late : Bool) (f : Fsp) (s : State) : Keeps [.cyc] s (State.dropFrame late f s) := by
  unfold State.dropFrame
  repeat' first
    | with_reducible exact Keeps.refl _
    | with_reducible apply Keeps.ite
    | with_reducible apply Keeps.chain (upCyc_keeps _ _)
    | with_reducible apply Keeps.chain (dropLate_keeps ..)
    | with_reducible apply Keeps.chain (dropUnmatched_keeps ..)
    | split

theorem checkTerm_keeps (f : Fsp) (k : State → State) (s : State) {ps : List Part} (h : ∀ u, Keeps ps u (k u)) (hp : Part.sub [.fsp] ps = true) :
    Keeps ps s (State.checkTerm f k s) := by
  unfold State.checkTerm
  exact Keeps.ite ((fspCount_keeps ..).mono (Part.sub_trans (by decide) hp)) (Keeps.ite ((fspCount_keeps ..).mono (Part.sub_trans (by decide) hp)) (h s))

theorem countStatuses_keeps (ds : List (Nat × Nat × Nat)) (s : State) : Keeps [.pts] s (State.countStatuses ds s) := by
  unfold State.countStatuses
  repeat' first
    | with_reducible exact Keeps.refl _
    | with_reducible apply Keeps.chain (upPts_keeps _ _)
    | dsimp only

theorem ownRsp_keeps (f : Fsp) (s : State) : Keeps [.cache, .mem, .out, .pts, .cyc, .fsp] s (State.ownRsp f s) := by
  unfold State.ownRsp
  repeat' first
    | with_reducible exact Keeps.refl _
    | with_reducible apply Keeps.ite
    | (with_reducible refine Keeps.foldl ?_ (fun _ _ => ?_) _)
    | with_reducible apply Keeps.chain (upCyc_keeps _ _)
    | with_reducible apply Keeps.chain (completeItem_keeps ..)
    | with_reducible apply Keeps.chain (countApps_keeps ..)
    | with_reducible apply Keeps.chain (countStatuses_keeps ..)
    | with_reducible apply Keeps.chain (dropFrame_keeps ..)
    | with_reducible apply Keeps.chain (dropLate_keeps ..)
    | with_reducible apply Keeps.chain (fspCount_keeps ..)
    | with_reducible apply Keeps.chain (pump_keeps ..)
    | with_reducible apply Keeps.chain (setCl_keeps ..)
    | split
    | dsimp only

theorem heardRsp_keeps (f : Fsp) (s : State) : Keeps [.cache, .mem, .pts, .cyc] s (State.heardRsp f s) := by
  unfold State.heardRsp
  repeat' first
    | with_reducible exact Keeps.refl _
    | with_reducible apply Keeps.ite
    | with_reducible apply Keeps.chain (countStatuses_keeps ..)
    | with_reducible apply Keeps.chain (dropUnmatched_keeps ..)
    | with_reducible apply Keeps.chain (hear_keeps ..)
    | split
    | dsimp only

theorem readRsp_keeps (f : Fsp) (s : State) : Keeps [.cache, .mem, .out, .pts, .cyc, .fsp] s (State.readRsp f s) := by
  unfold State.readRsp
  repeat' first
    | with_reducible exact Keeps.refl _
    | with_reducible apply Keeps.ite
    | with_reducible refine checkTerm_keeps _ _ _ (fun _ => ?_) (by decide)
    | with_reducible apply Keeps.chain (dropUnmatched_keeps ..)
    | with_reducible apply Keeps.chain (heardRsp_keeps ..)
    | with_reducible apply Keeps.chain (ownRsp_keeps ..)
    | split

theorem localCompletion_keeps (offset status : Nat) (item : List Word) (s : State) : Keeps [.cache, .mem, .time, .pts, .cyc] s (State.localCompletion offset status item s) := by
  unfold State.localCompletion
  repeat' first
    | with_reducible exact Keeps.refl _
    | with_reducible apply Keeps.ite
    | (with_reducible refine Keeps.foldl ?_ (fun _ _ => ?_) _)
    | with_reducible apply Keeps.chain (upTime_keeps _ _ (by first | rfl | (dsimp only; split <;> rfl) | (dsimp only; repeat' first | rfl | split)))
    | with_reducible apply Keeps.chain (deliver_keeps ..)
    | split
    | dsimp only

theorem markRetry_keeps (f : Flight) (s : State) : Keeps [.cyc] s (State.markRetry f s) := by
  unfold State.markRetry
  repeat' first
    | with_reducible exact Keeps.refl _
    | with_reducible apply Keeps.ite
    | with_reducible apply Keeps.chain (upCyc_keeps _ _)
    | with_reducible apply Keeps.chain (setCl_keeps ..)

theorem retryRead_keeps (tag : Nat) (s : State) : Keeps [.out, .cyc, .fsp] s (State.retryRead tag s) := by
  unfold State.retryRead
  repeat' first
    | with_reducible exact Keeps.refl _
    | with_reducible apply Keeps.ite
    | with_reducible apply Keeps.chain (markRetry_keeps ..)
    | with_reducible apply Keeps.chain (toStation_keeps ..)
    | split

theorem retryWrite_keeps (tag : Nat) (s : State) : Keeps [.out, .cyc, .fsp] s (State.retryWrite tag s) := by
  unfold State.retryWrite
  repeat' first
    | with_reducible exact Keeps.refl _
    | with_reducible apply Keeps.ite
    | with_reducible apply Keeps.chain (markRetry_keeps ..)
    | with_reducible apply Keeps.chain (sendWrite_keeps ..)
    | split

theorem missInput_keeps (h : Nat) (s : State) : Keeps [.cache, .mem, .pts] s (State.missInput h s) := by
  unfold State.missInput
  repeat' first
    | with_reducible exact Keeps.refl _
    | with_reducible apply Keeps.chain (clearBefore_keeps ..)
    | with_reducible apply Keeps.chain (upImg_keeps ..)
    | dsimp only

theorem seePeers_keeps (x : Nat) (s : State) : Keeps [.pts] s (State.seePeers x s) := by
  unfold State.seePeers
  repeat' first
    | with_reducible exact Keeps.refl _
    | (with_reducible refine Keeps.foldl ?_ (fun _ _ => ?_) _)
    | with_reducible apply Keeps.chain (upPts_keeps _ _)
    | dsimp only

theorem answerReads_keeps (x : Nat) (s : State) : Keeps [.out, .cyc] s (State.answerReads x s) := by
  unfold State.answerReads
  repeat' first
    | with_reducible exact Keeps.refl _
    | (with_reducible refine Keeps.foldl ?_ (fun _ _ => ?_) _)
    | with_reducible apply Keeps.chain (upCyc_keeps _ _)
    | with_reducible apply Keeps.chain (ret_keeps ..)
    | dsimp only

theorem publishEpoch_keeps (x : Nat) (s : State) : Keeps [.cache, .mem, .out, .pts, .cyc] s (State.publishEpoch x s) := by
  unfold State.publishEpoch
  repeat' first
    | with_reducible exact Keeps.refl _
    | with_reducible apply Keeps.ite
    | (with_reducible refine Keeps.foldl ?_ (fun _ _ => ?_) _)
    | with_reducible apply Keeps.chain (upCyc_keeps _ _)
    | with_reducible apply Keeps.chain (answerReads_keeps ..)
    | with_reducible apply Keeps.chain (countApps_keeps ..)
    | with_reducible apply Keeps.chain (failOutput_keeps ..)
    | with_reducible apply Keeps.chain (missInput_keeps ..)
    | with_reducible apply Keeps.chain (seePeers_keeps ..)
    | with_reducible apply Keeps.chain (setCl_keeps ..)
    | dsimp only

theorem skipTasks_keeps (x : Nat) (s : State) : Keeps [.cache, .out, .pair, .power, .cyc, .sched, .cfg, .msg, .gate, .sheaf, .dio, .ua, .can, .log] s (State.skipTasks x s) := by
  unfold State.skipTasks
  repeat' first
    | with_reducible exact Keeps.refl _
    | with_reducible apply Keeps.ite
    | with_reducible apply Keeps.chain (record_keeps ..)
    | with_reducible apply Keeps.chain (safeHold_keeps ..)
    | with_reducible apply Keeps.chain (setCl_keeps ..)
    | dsimp only

theorem releaseTasks_keeps (x : Nat) (s : State) : Keeps [.cache, .out, .pair, .power, .cyc, .sched, .cfg, .msg, .gate, .sheaf, .dio, .ua, .can, .log] s (State.releaseTasks x s) := by
  unfold State.releaseTasks
  repeat' first
    | with_reducible exact Keeps.refl _
    | with_reducible apply Keeps.ite
    | with_reducible apply Keeps.chain (setCl_keeps ..)
    | with_reducible apply Keeps.chain (skipTasks_keeps ..)

theorem sentValue_keeps (h : Nat) (v : Word) (s : State) : Keeps [.cache, .mem, .pts] s (State.sentValue h v s) := by
  unfold State.sentValue
  repeat' first
    | with_reducible exact Keeps.refl _
    | with_reducible apply Keeps.chain (upPts_keeps _ _)
    | with_reducible apply Keeps.chain (upImg_keeps ..)
    | split
    | dsimp only

theorem buildWrite_keeps (x idx : Nat) (t : TransRec) (s : State) : Keeps [.cache, .mem, .pts, .cyc] s (State.buildWrite x idx t s) := by
  unfold State.buildWrite
  repeat' first
    | with_reducible exact Keeps.refl _
    | with_reducible apply Keeps.ite
    | (with_reducible refine Keeps.foldl ?_ (fun _ _ => ?_) _)
    | with_reducible apply Keeps.chain (countApps_keeps ..)
    | with_reducible apply Keeps.chain (overrangeOutput_keeps ..)
    | with_reducible apply Keeps.chain (sentValue_keeps ..)
    | with_reducible apply Keeps.chain (setCl_keeps ..)
    | dsimp only

theorem buildWrites_keeps (x : Nat) (s : State) : Keeps [.cache, .mem, .pts, .cyc] s (State.buildWrites x s) := by
  unfold State.buildWrites
  repeat' first
    | with_reducible exact Keeps.refl _
    | (with_reducible refine Keeps.foldl ?_ (fun _ _ => ?_) _)
    | with_reducible apply Keeps.chain (buildWrite_keeps ..)
    | split
    | dsimp only

theorem loadLocals_keeps (x : Nat) (s : State) : Keeps [.cache, .mem, .out, .pts, .dio, .ua] s (State.loadLocals x s) := by
  unfold State.loadLocals
  repeat' first
    | with_reducible exact Keeps.refl _
    | with_reducible apply Keeps.ite
    | (with_reducible refine Keeps.foldl ?_ (fun _ _ => ?_) _)
    | with_reducible apply Keeps.chain (loadOutput_keeps ..)
    | with_reducible apply Keeps.chain (sentValue_keeps ..)
    | dsimp only

theorem sendPeers_keeps (x : Nat) (s : State) : Keeps [.out, .fsp] s (State.sendPeers x s) := by
  unfold State.sendPeers
  repeat' first
    | with_reducible exact Keeps.refl _
    | (with_reducible refine Keeps.foldl ?_ (fun _ _ => ?_) _)
    | with_reducible apply Keeps.chain (sendFrame_keeps ..)
    | dsimp only

theorem ship_keeps (x : Nat) (s : State) : Keeps [.out, .cnt, .cyc, .sched] s (State.ship x s) := by
  unfold State.ship
  repeat' first
    | with_reducible exact Keeps.refl _
    | with_reducible apply Keeps.ite
    | with_reducible apply Keeps.chain (emit_keeps _ _)
    | with_reducible apply Keeps.chain (upCnt_keeps _ _)
    | with_reducible apply Keeps.chain (upSched_keeps _ _)
    | with_reducible apply Keeps.chain (setCl_keeps ..)
    | dsimp only

theorem trimWrites_keeps (x : Nat) (s : State) : Keeps [.cache, .mem, .cnt, .cyc] s (State.trimWrites x s) := by
  unfold State.trimWrites
  repeat' first
    | with_reducible exact Keeps.refl _
    | with_reducible apply Keeps.ite
    | (with_reducible refine Keeps.foldl ?_ (fun _ _ => ?_) _)
    | with_reducible apply Keeps.chain (upCnt_keeps _ _)
    | with_reducible apply Keeps.chain (ackOutput_keeps ..)
    | with_reducible apply Keeps.chain (failOutput_keeps ..)
    | with_reducible apply Keeps.chain (setCl_keeps ..)
    | dsimp only

theorem writeOut_keeps (x : Nat) (s : State) : Keeps [.cache, .mem, .out, .cnt, .pts, .cyc, .fsp, .sched, .dio, .ua] s (State.writeOut x s) := by
  unfold State.writeOut
  repeat' first
    | with_reducible exact Keeps.refl _
    | with_reducible apply Keeps.ite
    | with_reducible apply Keeps.chain (buildWrites_keeps ..)
    | with_reducible apply Keeps.chain (cancelOrphans_keeps ..)
    | with_reducible apply Keeps.chain (loadLocals_keeps ..)
    | with_reducible apply Keeps.chain (pump_keeps ..)
    | with_reducible apply Keeps.chain (sendPeers_keeps ..)
    | with_reducible apply Keeps.chain (setCl_keeps ..)
    | with_reducible apply Keeps.chain (ship_keeps ..)
    | with_reducible apply Keeps.chain (trimWrites_keeps ..)
    | dsimp only

theorem beginRerun_keeps (x k : Nat) (last : Bool) (s : State) : Keeps [.cache, .mem, .out, .pts, .cyc, .fsp] s (State.beginRerun x k last s) := by
  unfold State.beginRerun
  repeat' first
    | with_reducible exact Keeps.refl _
    | with_reducible apply Keeps.ite
    | (with_reducible refine Keeps.foldl ?_ (fun _ _ => ?_) _)
    | with_reducible apply Keeps.chain (upCyc_keeps _ _)
    | with_reducible apply Keeps.chain (pump_keeps ..)
    | with_reducible apply Keeps.chain (replay_keeps ..)
    | with_reducible apply Keeps.chain (setCl_keeps ..)
    | with_reducible apply Keeps.chain (setImage_keeps ..)
    | dsimp only

theorem rerun_keeps (x last fuel k : Nat) (s : State) : Keeps [.cache, .mem, .out, .pair, .cnt, .power, .pts, .cyc, .fsp, .sched, .cfg, .msg, .gate, .sheaf, .dio, .ua, .can, .log] s (State.rerun x last fuel k s) := by
  induction fuel generalizing k s with
  | zero => exact (setCl_keeps ..).mono (by decide)
  | succ fuel ih =>
    unfold State.rerun
    dsimp only
    have a := (beginRerun_keeps x k (k == last) s).mono (ps := [.cache, .mem, .out, .pair, .cnt, .power, .pts, .cyc, .fsp, .sched, .cfg, .msg, .gate, .sheaf, .dio, .ua, .can, .log]) (by decide)
    generalize State.beginRerun x k (k == last) s = s1 at a ⊢
    apply Keeps.ite a
    have b := (a.step (publishEpoch_keeps x s1) (by decide)).step (releaseTasks_keeps x _) (by decide)
    generalize State.releaseTasks x (State.publishEpoch x s1) = s2 at b ⊢
    apply Keeps.ite b
    have c := b.step (writeOut_keeps x s2) (by decide)
    apply Keeps.ite
    · exact c.step (ih ..) (by decide)
    · exact c.step (setCl_keeps ..) (by decide)

theorem afterWrite_keeps (x : Nat) (s : State) : Keeps [.cache, .mem, .out, .pair, .cnt, .power, .pts, .cyc, .fsp, .sched, .cfg, .msg, .gate, .sheaf, .dio, .ua, .can, .log] s (State.afterWrite x s) := by
  unfold State.afterWrite
  repeat' first
    | with_reducible exact Keeps.refl _
    | with_reducible apply Keeps.ite
    | with_reducible apply Keeps.chain (rerun_keeps ..)
    | with_reducible apply Keeps.chain (setCl_keeps ..)
    | split
    | dsimp only

theorem tw_keeps (x : Nat) (s : State) : Keeps [.cache, .mem, .out, .pair, .cnt, .power, .pts, .cyc, .fsp, .sched, .cfg, .msg, .gate, .sheaf, .dio, .ua, .can, .log] s (State.tw x s) := by
  unfold State.tw
  repeat' first
    | with_reducible exact Keeps.refl _
    | with_reducible apply Keeps.chain (afterWrite_keeps ..)
    | with_reducible apply Keeps.chain (writeOut_keeps ..)

theorem publish_keeps (x : Nat) (s : State) : Keeps [.cache, .mem, .out, .pair, .cnt, .power, .pts, .cyc, .fsp, .sched, .cfg, .msg, .gate, .sheaf, .dio, .ua, .can, .log] s (State.publish x s) := by
  unfold State.publish
  repeat' first
    | with_reducible exact Keeps.refl _
    | with_reducible apply Keeps.ite
    | with_reducible apply Keeps.chain (publishEpoch_keeps ..)
    | with_reducible apply Keeps.chain (releaseTasks_keeps ..)
    | with_reducible apply Keeps.chain (tw_keeps ..)
    | dsimp only

theorem endTask_keeps (x : Nat) (foldDiffers : Option Nat) (pages : List Nat) (s : State) : Keeps [.cache, .mem, .free, .out, .pair, .cnt, .power, .pts, .cyc, .fsp, .sched, .lock, .cfg, .msg, .gate, .sheaf, .dio, .ua, .can, .log] s (State.endTask x foldDiffers pages s) := by
  unfold State.endTask
  repeat' first
    | with_reducible exact Keeps.refl _
    | with_reducible apply Keeps.ite
    | (with_reducible refine Keeps.foldl ?_ (fun _ _ => ?_) _)
    | with_reducible apply Keeps.chain (fold_keeps ..)
    | with_reducible apply Keeps.chain (lockFault_keeps ..)
    | with_reducible apply Keeps.chain (setCl_keeps ..)
    | with_reducible apply Keeps.chain (tw_keeps ..)
    | split
    | dsimp only

theorem overrunAt_keeps (x : Nat) (s : State) : Keeps [.cache, .mem, .out, .pair, .cnt, .power, .pts, .cyc, .fsp, .sched, .cfg, .msg, .gate, .sheaf, .dio, .ua, .can, .log] s (State.overrunAt x s) := by
  unfold State.overrunAt
  repeat' first
    | with_reducible exact Keeps.refl _
    | with_reducible apply Keeps.chain (afterWrite_keeps ..)
    | with_reducible apply Keeps.chain (record_keeps ..)
    | with_reducible apply Keeps.chain (sendPeers_keeps ..)
    | with_reducible apply Keeps.chain (setCl_keeps ..)
    | with_reducible apply Keeps.chain (ship_keeps ..)
    | dsimp only

theorem ackResult_keeps (f : Fsp) (h : Flight) (result : Nat) (s : State) : Keeps [.cache, .mem, .out, .cyc, .fsp] s (State.ackResult f h result s) := by
  unfold State.ackResult
  repeat' first
    | with_reducible exact Keeps.refl _
    | (with_reducible refine Keeps.foldl ?_ (fun _ _ => ?_) _)
    | with_reducible apply Keeps.chain (upCyc_keeps _ _)
    | with_reducible apply Keeps.chain (ackOutput_keeps ..)
    | with_reducible apply Keeps.chain (fspCount_keeps ..)
    | with_reducible apply Keeps.chain (pump_keeps ..)
    | with_reducible apply Keeps.chain (setCl_keeps ..)
    | split
    | dsimp only

theorem writeAck_keeps (f : Fsp) (s : State) : Keeps [.cache, .mem, .out, .cyc, .fsp, .sched] s (State.writeAck f s) := by
  unfold State.writeAck
  repeat' first
    | with_reducible exact Keeps.refl _
    | with_reducible apply Keeps.ite
    | with_reducible apply Keeps.chain (upCyc_keeps _ _)
    | with_reducible apply Keeps.chain (ackResult_keeps ..)
    | with_reducible refine checkTerm_keeps _ _ _ (fun _ => ?_) (by decide)
    | with_reducible apply Keeps.chain (dropFrame_keeps ..)
    | with_reducible apply Keeps.chain (dropUnmatched_keeps ..)
    | with_reducible apply Keeps.chain (fspCount_keeps ..)
    | with_reducible apply Keeps.chain (setSchedStation_keeps ..)
    | split
    | dsimp only

theorem peerFrame_keeps (f : Fsp) (s : State) : Keeps [.pts, .fsp] s (State.peerFrame f s) := by
  unfold State.peerFrame
  repeat' first
    | with_reducible exact Keeps.refl _
    | with_reducible apply Keeps.ite
    | with_reducible apply Keeps.chain (upPts_keeps _ _)
    | with_reducible apply Keeps.chain (fspCount_keeps ..)
    | split
    | dsimp only

theorem retryBind_keeps (a : Nat) (s : State) : Keeps [.cache, .out, .fsp, .log] s (State.retryBind a s) := by
  unfold State.retryBind
  repeat' first
    | with_reducible exact Keeps.refl _
    | with_reducible apply Keeps.ite
    | with_reducible apply Keeps.chain (upFsp_keeps _ _)
    | with_reducible apply Keeps.chain (record_keeps ..)
    | with_reducible apply Keeps.chain (sendBind_keeps ..)
    | split

theorem bound_keeps (f : Fsp) (s : State) : Keeps [.fsp] s (State.bound f s) := by
  unfold State.bound
  repeat' first
    | with_reducible exact Keeps.refl _
    | with_reducible apply Keeps.ite
    | with_reducible apply Keeps.chain (upFsp_keeps _ _)
    | with_reducible apply Keeps.chain (fspCount_keeps ..)

theorem started_keeps (f : Fsp) (s : State) : Keeps [.cache, .out, .pair, .fsp, .log] s (State.started f s) := by
  unfold State.started
  repeat' first
    | with_reducible exact Keeps.refl _
    | with_reducible apply Keeps.ite
    | with_reducible apply Keeps.chain (fspCount_keeps ..)
    | with_reducible apply Keeps.chain (hearTerm_keeps ..)
    | with_reducible apply Keeps.chain (sendBind_keeps ..)
    | dsimp only

theorem countBad_keeps (s : State) : Keeps [.pts] s (State.countBad s) := by
  unfold State.countBad
  repeat' first
    | with_reducible exact Keeps.refl _
    | with_reducible apply Keeps.chain (upPts_keeps _ _)

theorem pointWrite_keeps (h : Nat) (v : Word) (s : State) : Keeps [.cache, .mem, .out, .pts] s (State.pointWrite h v s) := by
  unfold State.pointWrite
  repeat' first
    | with_reducible exact Keeps.refl _
    | with_reducible apply Keeps.ite
    | with_reducible apply Keeps.chain (countBad_keeps ..)
    | with_reducible apply Keeps.chain (ret_keeps ..)
    | with_reducible apply Keeps.chain (upImg_keeps ..)
    | dsimp only

theorem pointReadCall_keeps (h : Nat) (s : State) : Keeps [.out, .pts] s (State.pointReadCall h s) := by
  unfold State.pointReadCall
  repeat' first
    | with_reducible exact Keeps.refl _
    | with_reducible apply Keeps.ite
    | with_reducible apply Keeps.chain (countBad_keeps ..)
    | with_reducible apply Keeps.chain (ret_keeps ..)

theorem slotRead_keeps (h : Nat) (s : State) : Keeps [.out, .pts] s (State.slotRead h s) := by
  unfold State.slotRead
  repeat' first
    | with_reducible exact Keeps.refl _
    | with_reducible apply Keeps.ite
    | with_reducible apply Keeps.chain (countBad_keeps ..)
    | with_reducible apply Keeps.chain (ret_keeps ..)
    | dsimp only

theorem epochRead_keeps (own x : Nat) (hs : List Nat) (s : State) : Keeps [.out, .cyc] s (State.epochRead own x hs s) := by
  unfold State.epochRead
  repeat' first
    | with_reducible exact Keeps.refl _
    | with_reducible apply Keeps.ite
    | with_reducible apply Keeps.chain (upCyc_keeps _ _)
    | with_reducible apply Keeps.chain (ret_keeps ..)
    | dsimp only

theorem heldBack_keeps (d : HeldDone) (k : State → State) (s : State) {ps : List Part} (h : ∀ u, Keeps ps u (k u)) (hp : Part.sub [.cfg] ps = true) :
    Keeps ps s (State.heldBack d k s) := by
  unfold State.heldBack
  exact Keeps.ite ((upCfg_keeps ..).mono hp) (h s)

end Sys2Proof.Machine
end

