-- ==== Sys2Proof/Laws/KeepTakeover.lean ====
section
/-! SUPPORT. What the operations of Takeover.lean may change; each keeps the form of a state and the instant. -/

set_option Elab.async false
set_option linter.all false

namespace Sys2Proof.Machine

theorem declare_keeps (p : PointRec) (s : State) : Keeps [.cache, .mem] s (State.declare p s) := by
  unfold State.declare
  repeat' first
    | with_reducible exact Keeps.refl _
    | with_reducible apply Keeps.chain (upMem_keeps _ _ (fun w => by first | exact memWriteN_wf _ _ _ w | exact memStore_wf _ _ w | exact memClear_wf _ _ w | (apply memStore_wf; assumption) ))
    | with_reducible apply Keeps.chain (setRule_keeps ..)

theorem freshPoints_keeps (s : State) : Keeps [.cache, .mem, .pts] s (State.freshPoints s) := by
  unfold State.freshPoints
  dsimp only
  refine Keeps.foldl ?_ (fun _ _ => (declare_keeps ..).mono (by decide)) _
  apply Keeps.chain (upPts_keeps ..)
  exact (upMem_keeps _ _ fun w => memClear_wf _ _ (memClear_wf _ _ (memClear_wf _ _ (memClear_wf _ _ w)))).mono (by decide)

theorem publishPoint_keeps (heard : Bool) (h : Nat) (s : State) : Keeps [.cache, .mem, .pts] s (State.publishPoint heard h s) := by
  unfold State.publishPoint
  repeat' first
    | with_reducible exact Keeps.refl _
    | with_reducible apply Keeps.ite
    | with_reducible apply Keeps.chain (missInput_keeps ..)
    | with_reducible apply Keeps.chain (setImage_keeps ..)
    | split

theorem publishClass_keeps (c : Ckpt) (s : State) : Keeps [.cache, .mem, .pts] s (State.publishClass c s) := by
  unfold State.publishClass
  repeat' first
    | with_reducible exact Keeps.refl _
    | (with_reducible refine Keeps.foldl ?_ (fun _ _ => ?_) _)
    | with_reducible apply Keeps.chain (publishPoint_keeps ..)
    | dsimp only

theorem takeTables_keeps (mine : Nat → Bool) (x : Tables) (s : State) : Keeps [.pts, .sched, .can] s (State.takeTables mine x s) := by
  unfold State.takeTables
  repeat' first
    | with_reducible exact Keeps.refl _
    | with_reducible apply Keeps.chain (upCan_keeps _ _)
    | with_reducible apply Keeps.chain (upPts_keeps _ _)
    | with_reducible apply Keeps.chain (upSched_keeps _ _)
    | dsimp only

theorem followFlip_keeps (version cycle : Nat) (s : State) : Keeps [.cfg] s (State.followFlip version cycle s) := by
  unfold State.followFlip
  repeat' first
    | with_reducible exact Keeps.refl _
    | with_reducible apply Keeps.ite
    | with_reducible apply Keeps.chain (upCfg_keeps _ _)
    | split
    | dsimp only

theorem memStores_wf (l : List (Nat × List Byte)) : ∀ (m : Mem), Memory.wf m = true → Memory.wf (l.foldl (fun m p => memStore p.2 p.1 m) m) = true := by
  induction l with
  | nil => exact fun _ w => w
  | cons p l ih => exact fun m w => ih _ (memStore_wf _ _ w)
theorem applyCkpt_keeps (c : Ckpt) (s : State) : Keeps [.cache, .mem, .out, .time, .pair, .cnt, .power, .pts, .cyc, .sched, .cfg, .gate, .sheaf, .can, .log] s (State.applyCkpt c s) := by
  unfold State.applyCkpt
  have fin (t : State) (b : Bool) (h : Keeps [.cache, .mem, .out, .time, .pair, .cnt, .power, .pts, .cyc, .sched, .cfg, .gate, .sheaf, .can, .log] s t) : Keeps [.cache, .mem, .out, .time, .pair, .cnt, .power, .pts, .cyc, .sched, .cfg, .gate, .sheaf, .can, .log] s (if b = true then t.resync else t) :=
    Keeps.ite (h.step (resync_keeps t) (by decide)) h
  extract_lets a
  apply fin
  repeat' first
    | with_reducible exact Keeps.refl _
    | (with_reducible refine Keeps.foldl ?_ (fun _ _ => ?_) _)
    | with_reducible apply Keeps.chain (emit_keeps _ _)
    | with_reducible apply Keeps.chain (upCnt_keeps _ _)
    | with_reducible apply Keeps.chain (upCyc_keeps _ _)
    | with_reducible apply Keeps.chain (upPts_keeps _ _)
    | with_reducible apply Keeps.chain (upSched_keeps _ _)
    | with_reducible apply Keeps.chain (upTime_keeps _ _ rfl)
    | with_reducible apply Keeps.chain (upPair_keeps _ _ id)
    | with_reducible apply Keeps.chain (followFlip_keeps ..)
    | with_reducible apply Keeps.chain (replay_keeps ..)
    | with_reducible apply Keeps.chain (takeTables_keeps ..)
    | with_reducible apply Keeps.chain (publishClass_keeps ..)
    | with_reducible apply Keeps.chain (takeEntry_keeps ..)
    | with_reducible apply Keeps.chain (setImage_keeps ..)
    | with_reducible apply Keeps.chain (upMem_keeps _ _ (memStores_wf _ _))
    | dsimp only

theorem hearCkpt_keeps (c : Ckpt) (s : State) : Keeps [.cache, .mem, .out, .time, .pair, .cnt, .power, .pts, .cyc, .sched, .cfg, .gate, .sheaf, .can, .log] s (State.hearCkpt c s) := by
  unfold State.hearCkpt
  repeat' first
    | with_reducible exact Keeps.refl _
    | with_reducible apply Keeps.ite
    | with_reducible apply Keeps.chain (upCnt_keeps _ _)
    | with_reducible apply Keeps.chain (applyCkpt_keeps ..)
    | with_reducible apply Keeps.chain (resync_keeps ..)

theorem hearAck_keeps (cls seq : Nat) (gaps : List Nat) (s : State) : Keeps [.cnt] s (State.hearAck cls seq gaps s) := by
  unfold State.hearAck
  repeat' first
    | with_reducible exact Keeps.refl _
    | with_reducible apply Keeps.ite
    | with_reducible apply Keeps.chain (upCnt_keeps _ _)
    | dsimp only

theorem ckptLate_keeps (s : State) : Keeps [.cache, .pair, .cnt, .power, .cyc, .gate, .sheaf, .log] s (State.ckptLate s) := by
  unfold State.ckptLate
  repeat' first
    | with_reducible exact Keeps.refl _
    | with_reducible apply Keeps.chain (upCnt_keeps _ _)
    | with_reducible apply Keeps.chain (resync_keeps ..)

theorem recountQueue_keeps (addr len : Nat) (s : State) : Keeps [.sched] s (State.recountQueue addr len s) := by
  unfold State.recountQueue
  repeat' first
    | with_reducible exact Keeps.refl _
    | with_reducible apply Keeps.ite
    | (with_reducible refine Keeps.foldl ?_ (fun _ _ => ?_) _)
    | with_reducible apply Keeps.chain (upSched_keeps _ _)
    | dsimp only

theorem copyMemory_keeps (addr : Nat) (bytes : List Byte) (s : State) : Keeps [.cache, .mem, .sched] s (State.copyMemory addr bytes s) := by
  unfold State.copyMemory
  repeat' first
    | with_reducible exact Keeps.refl _
    | with_reducible apply Keeps.chain (upMem_keeps _ _ (fun w => by first | exact memWriteN_wf _ _ _ w | exact memStore_wf _ _ w | exact memClear_wf _ _ w | (apply memStore_wf; assumption) ))
    | with_reducible apply Keeps.chain (recountQueue_keeps ..)

theorem copyOver_keeps (s : State) : Keeps [.cache, .mem, .out, .time, .pair, .cnt, .power, .pts, .cyc, .sched, .cfg, .gate, .sheaf, .can, .log] s (State.copyOver s) := by
  unfold State.copyOver
  repeat' first
    | with_reducible exact Keeps.refl _
    | (with_reducible refine Keeps.foldl ?_ (fun _ _ => ?_) _)
    | with_reducible apply Keeps.chain (upCnt_keeps _ _)
    | with_reducible apply Keeps.chain (upPair_keeps _ _ (by first | exact id | exact fun h => by cases h | (dsimp only; split <;> exact id) | (unfold setLane; split <;> exact id)))
    | with_reducible apply Keeps.chain (applyCkpt_keeps ..)
    | dsimp only

theorem synchronise_keeps (s : State) : Keeps [.cache, .pair, .power, .gate, .sheaf, .log] s (State.synchronise s) := by
  unfold State.synchronise
  repeat' first
    | with_reducible exact Keeps.refl _
    | with_reducible apply Keeps.chain (upPair_keeps _ _ (by first | exact id | exact fun h => by cases h | (dsimp only; split <;> exact id) | (unfold setLane; split <;> exact id)))
    | with_reducible apply Keeps.chain (goMode_keeps _ _ _)

theorem settleHeard_keeps (x k : Nat) (s : State) : Keeps [.cache, .mem, .cyc] s (State.settleHeard x k s) := by
  unfold State.settleHeard
  repeat' first
    | with_reducible exact Keeps.refl _
    | with_reducible apply Keeps.ite
    | (with_reducible refine Keeps.foldl ?_ (fun _ _ => ?_) _)
    | with_reducible apply Keeps.chain (ackOutput_keeps ..)
    | with_reducible apply Keeps.chain (setCl_keeps ..)
    | dsimp only

theorem resume_keeps (x : Nat) (s : State) : Keeps [.cache, .mem, .out, .pair, .cnt, .power, .pts, .cyc, .fsp, .sched, .cfg, .msg, .gate, .sheaf, .dio, .ua, .can, .log] s (State.resume x s) := by
  unfold State.resume
  repeat' first
    | with_reducible exact Keeps.refl _
    | with_reducible apply Keeps.ite
    | with_reducible apply Keeps.chain (rerun_keeps ..)
    | with_reducible apply Keeps.chain (setCl_keeps ..)
    | with_reducible apply Keeps.chain (settleHeard_keeps ..)
    | split
    | dsimp only

theorem startFresh_keeps (s : State) : Keeps [.cache, .mem, .pts, .cyc, .sched] s (State.startFresh s) := by
  unfold State.startFresh
  repeat' first
    | with_reducible exact Keeps.refl _
    | with_reducible apply Keeps.chain (upCyc_keeps _ _)
    | with_reducible apply Keeps.chain (upMem_keeps _ _ (fun w => by first | exact memWriteN_wf _ _ _ w | exact memStore_wf _ _ w | exact memClear_wf _ _ w | (apply memStore_wf; assumption) ))
    | with_reducible apply Keeps.chain (upSched_keeps _ _)
    | with_reducible apply Keeps.chain (freshPoints_keeps ..)

theorem takeBases_keeps (s : State) : Keeps [.cache, .time, .log] s (State.takeBases s) := by
  unfold State.takeBases
  repeat' first
    | with_reducible exact Keeps.refl _
    | with_reducible apply Keeps.ite
    | with_reducible apply Keeps.chain (upTime_keeps _ _ (by first | rfl | (dsimp only; split <;> rfl) | (dsimp only; repeat' first | rfl | split)))
    | with_reducible apply Keeps.chain (baseTo_keeps ..)
    | dsimp only

theorem abandonFlip_keeps (s : State) : Keeps [.cfg, .msg] s (State.abandonFlip s) := by
  unfold State.abandonFlip
  repeat' first
    | with_reducible exact Keeps.refl _
    | with_reducible apply Keeps.chain (upCfg_keeps _ _)
    | with_reducible apply Keeps.chain (endJob_keeps ..)
    | with_reducible apply Keeps.chain (invalidate_keeps ..)
    | split

theorem takeOwner_keeps (s : State) (h : s.power.mode = 5 ∨ s.power.mode = 6) : Keeps [.pair] s (s.upPair fun p => { p with owner := true }) :=
  ⟨fun p hp => by cases p <;> first | rfl | exact fun _ _ => ⟨rfl, Iff.rfl⟩ | exact absurd (by simp) hp, fun w => ⟨w.1, w.2, fun _ => h, w.4⟩, rfl⟩
theorem own_keeps (s : State) : Keeps [.cache, .out, .pair, .cnt, .power, .fsp, .gate, .sheaf, .can, .log] s (State.own s) := by
  unfold State.own
  dsimp only
  apply Keeps.chain (bindAll_keeps ..)
  apply Keeps.chain (announce_keeps ..)
  refine Keeps.chain (takeOwner_keeps _ ?_) ?_
  · rw [goMode_mode]; split <;> simp
  · refine Keeps.chain (goMode_keeps _ _ _ (by split <;> decide)) ?_
    repeat' first
      | with_reducible exact Keeps.refl _
      | with_reducible apply Keeps.ite
      | with_reducible apply Keeps.chain (record_keeps ..)
      | with_reducible apply Keeps.chain (upCan_keeps _ _)
      | with_reducible apply Keeps.chain (upCnt_keeps _ _)
      | with_reducible apply Keeps.chain (upPair_keeps _ _ id)

theorem control_keeps (s : State) : Keeps [.cache, .mem, .out, .time, .pair, .cnt, .power, .pts, .cyc, .fsp, .sched, .cfg, .msg, .gate, .sheaf, .dio, .ua, .can, .log] s (State.control s) := by
  unfold State.control
  repeat' first
    | with_reducible exact Keeps.refl _
    | with_reducible apply Keeps.ite
    | (with_reducible refine Keeps.foldl ?_ (fun _ _ => ?_) _)
    | with_reducible apply Keeps.chain (upCyc_keeps _ _)
    | with_reducible apply Keeps.chain (abandonFlip_keeps ..)
    | with_reducible apply Keeps.chain (own_keeps ..)
    | with_reducible apply Keeps.chain (pollHart_keeps ..)
    | with_reducible apply Keeps.chain (redispatch_keeps ..)
    | with_reducible apply Keeps.chain (resume_keeps ..)
    | with_reducible apply Keeps.chain (select_keeps ..)
    | with_reducible apply Keeps.chain (startFresh_keeps ..)
    | with_reducible apply Keeps.chain (takeBases_keeps ..)
    | dsimp only

end Sys2Proof.Machine
end

