-- ==== Sys2Proof/Laws/KeepBoot.lean ====
section
/-! SUPPORT. What the operations of Boot.lean may change; each keeps the form of a state and the instant. -/

set_option Elab.async false
set_option linter.all false

namespace Sys2Proof.Machine

theorem writeCommit_keeps (f : SheafSt → SheafSt) (s : State) : Keeps [.boot, .sheaf] s (State.writeCommit f s) := by
  unfold State.writeCommit
  repeat' first
    | with_reducible exact Keeps.refl _
    | with_reducible apply Keeps.chain (upBoot_keeps _ _)
    | with_reducible apply Keeps.chain (upSheaf_keeps _ _)

theorem fallback_keeps (result : Nat) (s : State) : Keeps [.cache, .boot, .sheaf, .log] s (State.fallback result s) := by
  unfold State.fallback
  repeat' first
    | with_reducible exact Keeps.refl _
    | with_reducible apply Keeps.chain (record_keeps ..)
    | with_reducible apply Keeps.chain (writeCommit_keeps ..)
    | dsimp only

theorem trialBoot_keeps (s : State) : Keeps [.cache, .boot, .sheaf, .log] s (State.trialBoot s) := by
  unfold State.trialBoot
  repeat' first
    | with_reducible exact Keeps.refl _
    | with_reducible apply Keeps.ite
    | with_reducible apply Keeps.chain (fallback_keeps ..)
    | with_reducible apply Keeps.chain (writeCommit_keeps ..)
    | dsimp only

theorem bootParts_keeps (kind : Nat) (released : Bool) (s : State) : Keeps [.cache, .mem, .time, .pair, .cnt, .power, .boot, .pts, .cyc, .fsp, .sched, .lock, .cfg, .msg, .mower, .sec, .gate, .sheaf, .dio, .ua, .can, .log, .disp, .sfp] s (State.bootParts kind released s) :=
  ⟨fun p hp => by cases p <;> first | rfl | exact absurd (by simp) hp,
   fun w => ⟨by show Memory.wf (if (kind == 2) = true then s.mem else { cells := [], bad := [] }) = true
                split
                · exact w.1
                · rfl, w.2, fun h => (Bool.false_ne_true h).elim, fun h => (Bool.false_ne_true h).elim⟩, rfl⟩

theorem firstRecord_keeps (kind : Nat) (s : State) : Keeps [.cache, .log, .disp] s (State.firstRecord kind s) := by
  unfold State.firstRecord
  repeat' first
    | with_reducible exact Keeps.refl _
    | with_reducible apply Keeps.chain (upDisp_keeps _ _)
    | with_reducible apply Keeps.chain (record_keeps ..)

theorem startBoot_keeps (kind reason : Nat) (released : Bool) (s : State) : Keeps [.cache, .mem, .out, .time, .pair, .cnt, .power, .boot, .pts, .cyc, .fsp, .sched, .lock, .cfg, .msg, .mower, .sec, .gate, .sheaf, .dio, .ua, .can, .log, .disp, .sfp] s (State.startBoot kind reason released s) := by
  unfold State.startBoot
  repeat' first
    | with_reducible exact Keeps.refl _
    | with_reducible apply Keeps.ite
    | with_reducible apply Keeps.chain (bootParts_keeps ..)
    | with_reducible apply Keeps.chain (dropClaim_keeps ..)
    | with_reducible apply Keeps.chain (firstRecord_keeps ..)
    | with_reducible apply Keeps.chain (goMode_keeps _ _ _)
    | with_reducible apply Keeps.chain (record_keeps ..)
    | dsimp only

theorem restart_keeps (reason : Nat) (released : Bool) (s : State) : Keeps [.cache, .mem, .out, .time, .pair, .cnt, .power, .boot, .pts, .cyc, .fsp, .sched, .lock, .cfg, .msg, .mower, .sec, .gate, .sheaf, .dio, .ua, .can, .log, .disp, .sfp] s (State.restart reason released s) := by
  unfold State.restart
  repeat' first
    | with_reducible exact Keeps.refl _
    | with_reducible apply Keeps.ite
    | with_reducible apply Keeps.chain (emit_keeps _ _)
    | with_reducible apply Keeps.chain (abandonArmed_keeps ..)
    | with_reducible apply Keeps.chain (closeDebug_keeps ..)
    | with_reducible apply Keeps.chain (endAllSessions_keeps ..)
    | with_reducible apply Keeps.chain (flushRecords_keeps ..)
    | with_reducible apply Keeps.chain (startBoot_keeps ..)
    | dsimp only

theorem bootStops_keeps (s : State) : Keeps [.out, .pair, .power, .boot] s (State.bootStops s) := by
  unfold State.bootStops
  repeat' first
    | with_reducible exact Keeps.refl _
    | with_reducible apply Keeps.chain (upBoot_keeps _ _)
    | with_reducible apply Keeps.chain (upPower_keeps _ _ (by first | rfl | (dsimp only; split <;> rfl) | (dsimp only; repeat' first | rfl | split)))
    | with_reducible apply Keeps.chain (dropClaim_keeps ..)

theorem wake_keeps (s : State) : Keeps [.cache, .mem, .out, .time, .pair, .cnt, .power, .boot, .pts, .cyc, .fsp, .sched, .lock, .cfg, .msg, .mower, .sec, .gate, .sheaf, .dio, .ua, .can, .log, .disp, .sfp] s (State.wake s) := by
  unfold State.wake
  repeat' first
    | with_reducible exact Keeps.refl _
    | with_reducible apply Keeps.ite
    | with_reducible apply Keeps.chain (startBoot_keeps ..)

theorem stepDone_keeps (s : State) : Keeps [.boot] s (State.stepDone s) := by
  unfold State.stepDone
  repeat' first
    | with_reducible exact Keeps.refl _
    | with_reducible apply Keeps.ite
    | with_reducible apply Keeps.chain (upBoot_keeps _ _)

theorem readLing_keeps (s : State) : Keeps [.cache, .time, .power, .boot, .log] s (State.readLing s) := by
  unfold State.readLing
  repeat' first
    | with_reducible exact Keeps.refl _
    | with_reducible apply Keeps.ite
    | with_reducible apply Keeps.chain (upBoot_keeps _ _)
    | with_reducible apply Keeps.chain (upPower_keeps _ _ (by first | rfl | (dsimp only; split <;> rfl) | (dsimp only; repeat' first | rfl | split)))
    | with_reducible apply Keeps.chain (upTime_keeps _ _ (by first | rfl | (dsimp only; split <;> rfl) | (dsimp only; repeat' first | rfl | split)))
    | with_reducible apply Keeps.chain (record_keeps ..)
    | with_reducible apply Keeps.chain (stepDone_keeps ..)
    | dsimp only

theorem stewardRuns_keeps (s : State) : Keeps [.cache, .mem, .out, .boot, .msg, .sec, .gate, .log] s (State.stewardRuns s) := by
  unfold State.stewardRuns
  repeat' first
    | with_reducible exact Keeps.refl _
    | with_reducible apply Keeps.ite
    | with_reducible apply Keeps.chain (upBoot_keeps _ _)
    | with_reducible apply Keeps.chain (upSec_keeps _ _)
    | with_reducible apply Keeps.chain (installRules_keeps ..)
    | with_reducible apply Keeps.chain (record_keeps ..)
    | with_reducible apply Keeps.chain (stepDone_keeps ..)
    | with_reducible apply Keeps.chain (tamperWipe_keeps ..)
    | split
    | dsimp only

theorem bootRom_keeps (ok prevOk : Bool) (s : State) : Keeps [.cache, .mem, .out, .power, .boot, .msg, .sec, .gate, .sheaf, .log] s (State.bootRom ok prevOk s) := by
  unfold State.bootRom
  repeat' first
    | with_reducible exact Keeps.refl _
    | with_reducible apply Keeps.ite
    | with_reducible apply Keeps.chain (upBoot_keeps _ _)
    | with_reducible apply Keeps.chain (upPower_keeps _ _ (by first | rfl | (dsimp only; split <;> rfl) | (dsimp only; repeat' first | rfl | split)))
    | with_reducible apply Keeps.chain (fallback_keeps ..)
    | with_reducible apply Keeps.chain (stewardRuns_keeps ..)
    | with_reducible apply Keeps.chain (trialBoot_keeps ..)
    | dsimp only

theorem recache_keeps (s : State) : Keeps [.cache, .mem] s (State.recache s) := by
  unfold State.recache
  repeat' first
    | with_reducible exact Keeps.refl _
    | (with_reducible refine Keeps.foldl ?_ (fun _ _ => ?_) _)
    | with_reducible apply Keeps.chain (upMem_keeps _ _ (fun w => by first | exact memWriteN_wf _ _ _ w | exact memStore_wf _ _ w | exact memClear_wf _ _ w | (apply memStore_wf; assumption) ))
    | dsimp only

theorem bootMower_keeps (fault : Option (Nat × Nat)) (s : State) : Keeps [.cache, .mem, .boot, .mower] s (State.bootMower fault s) := by
  unfold State.bootMower
  repeat' first
    | with_reducible exact Keeps.refl _
    | with_reducible apply Keeps.chain (upBoot_keeps _ _)
    | with_reducible apply Keeps.chain (upMem_keeps _ _ (fun w => by first | exact memWriteN_wf _ _ _ w | exact memStore_wf _ _ w | exact memClear_wf _ _ w | (apply memStore_wf; assumption) ))
    | with_reducible apply Keeps.chain (upMower_keeps _ _)
    | with_reducible apply Keeps.chain (recache_keeps ..)
    | with_reducible apply Keeps.chain (stepDone_keeps ..)
    | split
    | dsimp only

theorem loadSet_keeps (bad : Nat) (s : State) : Keeps [.boot, .sheaf, .dio, .ua, .disp, .sfp] s (State.loadSet bad s) := by
  unfold State.loadSet
  repeat' first
    | with_reducible exact Keeps.refl _
    | with_reducible apply Keeps.ite
    | with_reducible apply Keeps.chain (upBoot_keeps _ _)
    | with_reducible apply Keeps.chain (upDio_keeps _ _)
    | with_reducible apply Keeps.chain (upDisp_keeps _ _)
    | with_reducible apply Keeps.chain (upSfp_keeps _ _)
    | with_reducible apply Keeps.chain (upSheaf_keeps _ _)
    | with_reducible apply Keeps.chain (upUa_keeps _ _)
    | with_reducible apply Keeps.chain (stepDone_keeps ..)
    | dsimp only

theorem bootComponents_keeps (failed : Option Nat) (prevOk : Bool) (s : State) : Keeps [.cache, .boot, .sheaf, .dio, .ua, .log, .disp, .sfp] s (State.bootComponents failed prevOk s) := by
  unfold State.bootComponents
  repeat' first
    | with_reducible exact Keeps.refl _
    | with_reducible apply Keeps.ite
    | with_reducible apply Keeps.chain (upBoot_keeps _ _)
    | with_reducible apply Keeps.chain (fallback_keeps ..)
    | with_reducible apply Keeps.chain (loadSet_keeps ..)
    | split

theorem bootLbist_keeps (passed n : Nat) (s : State) : Keeps [.cache, .boot, .lock, .cfg, .log] s (State.bootLbist passed n s) := by
  unfold State.bootLbist
  repeat' first
    | with_reducible exact Keeps.refl _
    | with_reducible apply Keeps.ite
    | with_reducible apply Keeps.chain (upBoot_keeps _ _)
    | with_reducible apply Keeps.chain (upLock_keeps _ _)
    | with_reducible apply Keeps.chain (disablePair_keeps ..)
    | with_reducible apply Keeps.chain (invalidate_keeps ..)
    | with_reducible apply Keeps.chain (record_keeps ..)
    | with_reducible apply Keeps.chain (setPair_keeps ..)
    | dsimp only

theorem bootLbists_keeps (passed : Nat) (s : State) : Keeps [.cache, .cnt, .boot, .lock, .cfg, .log] s (State.bootLbists passed s) := by
  unfold State.bootLbists
  repeat' first
    | with_reducible exact Keeps.refl _
    | (with_reducible refine Keeps.foldl ?_ (fun _ _ => ?_) _)
    | with_reducible apply Keeps.chain (upLock_keeps _ _)
    | with_reducible apply Keeps.chain (bootLbist_keeps ..)
    | with_reducible apply Keeps.chain (proved_keeps ..)
    | with_reducible apply Keeps.chain (stepDone_keeps ..)
    | split
    | dsimp only

theorem bootConfig_keeps (verified : Bool) (s : State) : Keeps [.cache, .mem, .boot, .pts, .gate] s (State.bootConfig verified s) := by
  unfold State.bootConfig
  repeat' first
    | with_reducible exact Keeps.refl _
    | with_reducible apply Keeps.ite
    | with_reducible apply Keeps.chain (upBoot_keeps _ _)
    | with_reducible apply Keeps.chain (freshPoints_keeps ..)
    | with_reducible apply Keeps.chain (installRules_keeps ..)
    | with_reducible apply Keeps.chain (stepDone_keeps ..)
    | dsimp only

theorem overrun_keeps (s : State) : Keeps [.cache, .power, .boot, .log] s (State.overrun s) := by
  unfold State.overrun
  repeat' first
    | with_reducible exact Keeps.refl _
    | with_reducible apply Keeps.ite
    | with_reducible apply Keeps.chain (upBoot_keeps _ _)
    | with_reducible apply Keeps.chain (upPower_keeps _ _ (by first | rfl | (dsimp only; split <;> rfl) | (dsimp only; repeat' first | rfl | split)))
    | with_reducible apply Keeps.chain (record_keeps ..)

theorem bootStep_keeps (st : BootStep) (s : State) : Keeps [.cache, .mem, .out, .time, .cnt, .power, .boot, .pts, .lock, .cfg, .msg, .mower, .sec, .gate, .sheaf, .dio, .ua, .log, .disp, .sfp] s (State.bootStep st s) := by
  unfold State.bootStep
  repeat' first
    | with_reducible exact Keeps.refl _
    | with_reducible apply Keeps.chain (bootComponents_keeps ..)
    | with_reducible apply Keeps.chain (bootConfig_keeps ..)
    | with_reducible apply Keeps.chain (bootLbists_keeps ..)
    | with_reducible apply Keeps.chain (bootMower_keeps ..)
    | with_reducible apply Keeps.chain (bootRom_keeps ..)
    | with_reducible apply Keeps.chain (overrun_keeps ..)
    | with_reducible apply Keeps.chain (readLing_keeps ..)
    | with_reducible apply Keeps.chain (stepDone_keeps ..)
    | split

theorem openWindow_keeps (s : State) : Keeps [.out, .pair, .boot, .fsp] s (State.openWindow s) := by
  unfold State.openWindow
  repeat' first
    | with_reducible exact Keeps.refl _
    | with_reducible apply Keeps.ite
    | (with_reducible refine Keeps.foldl ?_ (fun _ _ => ?_) _)
    | with_reducible apply Keeps.chain (upBoot_keeps _ _)
    | with_reducible apply Keeps.chain (upPair_keeps _ _ (by first | exact id | exact fun h => by cases h | (dsimp only; split <;> exact id) | (unfold setLane; split <;> exact id)))
    | with_reducible apply Keeps.chain (probe_keeps ..)
    | dsimp only

theorem beginSync_keeps (s : State) : Keeps [.cache, .pair, .cnt, .power, .boot, .gate, .sheaf, .log] s (State.beginSync s) := by
  unfold State.beginSync
  repeat' first
    | with_reducible exact Keeps.refl _
    | with_reducible apply Keeps.chain (upBoot_keeps _ _)
    | with_reducible apply Keeps.chain (upCnt_keeps _ _)
    | with_reducible apply Keeps.chain (upPair_keeps _ _ (by first | exact id | exact fun h => by cases h | (dsimp only; split <;> exact id) | (unfold setLane; split <;> exact id)))
    | with_reducible apply Keeps.chain (goMode_keeps _ _ _)

theorem decide5_keeps (s : State) : Keeps [.cache, .out, .pair, .cnt, .power, .boot, .cyc, .fsp, .sched, .cfg, .msg, .gate, .sheaf, .dio, .ua, .can, .log] s (State.decide5 s) := by
  unfold State.decide5
  repeat' first
    | with_reducible exact Keeps.refl _
    | with_reducible apply Keeps.ite
    | with_reducible apply Keeps.chain (upBoot_keeps _ _)
    | with_reducible apply Keeps.chain (beginSync_keeps ..)
    | with_reducible apply Keeps.chain (openWindow_keeps ..)
    | with_reducible apply Keeps.chain (safeHold_keeps ..)

theorem maintain_keeps (reason : Nat) (s : State) : Keeps [.cache, .pair, .power, .gate, .sheaf, .log] s (State.maintain reason s) := by
  unfold State.maintain
  repeat' first
    | with_reducible exact Keeps.refl _
    | with_reducible apply Keeps.ite
    | with_reducible apply Keeps.chain (upSheaf_keeps _ _)
    | with_reducible apply Keeps.chain (goMode_keeps _ _ _)
    | with_reducible apply Keeps.chain (openDebug_keeps ..)
    | dsimp only

theorem startDecision_keeps (s : State) : Keeps [.cache, .out, .pair, .cnt, .power, .boot, .cyc, .fsp, .sched, .cfg, .msg, .gate, .sheaf, .dio, .ua, .can, .log] s (State.startDecision s) := by
  unfold State.startDecision
  repeat' first
    | with_reducible exact Keeps.refl _
    | with_reducible apply Keeps.ite
    | with_reducible apply Keeps.chain (decide5_keeps ..)
    | with_reducible apply Keeps.chain (maintain_keeps ..)
    | with_reducible apply Keeps.chain (safeHold_keeps ..)

theorem startAgain_keeps (s : State) : Keeps [.cache, .out, .pair, .cnt, .power, .boot, .cyc, .fsp, .sched, .cfg, .msg, .gate, .sheaf, .dio, .ua, .can, .log] s (State.startAgain s) := by
  unfold State.startAgain
  repeat' first
    | with_reducible exact Keeps.refl _
    | with_reducible apply Keeps.ite
    | with_reducible apply Keeps.chain (upBoot_keeps _ _)
    | with_reducible apply Keeps.chain (decide5_keeps ..)

theorem endBoot_keeps (s : State) : Keeps [.cache, .out, .time, .pair, .cnt, .power, .boot, .cyc, .fsp, .sched, .cfg, .msg, .gate, .sheaf, .dio, .ua, .can, .log] s (State.endBoot s) := by
  unfold State.endBoot
  dsimp only
  apply Keeps.ite
  · exact (overrun_keeps s).mono (by decide)
  · apply Keeps.chain (startAgain_keeps ..)
    apply Keeps.chain (select_keeps ..)
    apply Keeps.chain (select_keeps ..)
    apply Keeps.chain (startDecision_keeps ..)
    apply Keeps.chain (upPower_keeps _ _ rfl)
    apply Keeps.chain (upBoot_keeps _ _)
    apply Keeps.chain (upTime_keeps TimeSt.startBases _ rfl)
    exact (overrun_keeps s).mono (by decide)

theorem endWait_keeps (s : State) : Keeps [.cache, .out, .pair, .cnt, .power, .boot, .cyc, .fsp, .sched, .cfg, .msg, .gate, .sheaf, .dio, .ua, .can, .log] s (State.endWait s) := by
  unfold State.endWait
  repeat' first
    | with_reducible exact Keeps.refl _
    | with_reducible apply Keeps.chain (upBoot_keeps _ _)
    | with_reducible apply Keeps.chain (decide5_keeps ..)

theorem endWindow_keeps (s : State) : Keeps [.cache, .out, .pair, .cnt, .power, .boot, .cyc, .fsp, .sched, .cfg, .msg, .gate, .sheaf, .dio, .ua, .can, .log] s (State.endWindow s) := by
  unfold State.endWindow
  repeat' first
    | with_reducible exact Keeps.refl _
    | with_reducible apply Keeps.ite
    | with_reducible apply Keeps.chain (upPair_keeps _ _ (by first | exact id | exact fun h => by cases h | (dsimp only; split <;> exact id) | (unfold setLane; split <;> exact id)))
    | with_reducible apply Keeps.chain (decide5_keeps ..)
    | with_reducible apply Keeps.chain (startClaim_keeps ..)
    | dsimp only

theorem afterTie_keeps (before s : State) : Keeps [.cache, .out, .pair, .cnt, .power, .boot, .cyc, .fsp, .sched, .cfg, .msg, .gate, .sheaf, .dio, .ua, .can, .log] s (State.afterTie before s) := by
  unfold State.afterTie
  repeat' first
    | with_reducible exact Keeps.refl _
    | with_reducible apply Keeps.ite
    | with_reducible apply Keeps.chain (decide5_keeps ..)

end Sys2Proof.Machine
end

