-- ==== Sys2Proof/Laws/ExecBoot.lean ====
section
/-! SUPPORT. What the commands of Boot.lean may change. -/

set_option Elab.async false
set_option linter.all false

namespace Sys2Proof.Machine

theorem execBootStepEnd_keeps (t : Nat) (st : BootStep) (s : State) {s' : State} (h : execBootStepEnd t st s = .next s') : Keeps [.cache, .mem, .out, .time, .cnt, .power, .boot, .pts, .lock, .cfg, .msg, .mower, .sec, .gate, .sheaf, .dio, .ua, .log, .disp, .sfp] (s.arrive t) s' := by
  unfold execBootStepEnd at h
  refine happens_keeps (fun u _ => ?_) h
  repeat' first
    | with_reducible exact Keeps.refl _
    | with_reducible apply Keeps.ite
    | (with_reducible refine Keeps.foldl ?_ (fun _ _ => ?_) _)
    | with_reducible apply Keeps.iteFst
    | with_reducible apply Keeps.chain (bootStep_keeps ..)
    | split
    | dsimp only

theorem execBootEnd_keeps (t : Nat) (s : State) {s' : State} (h : execBootEnd t s = .next s') : Keeps [.cache, .out, .time, .pair, .cnt, .power, .boot, .cyc, .fsp, .sched, .cfg, .msg, .gate, .sheaf, .dio, .ua, .can, .log] (s.arrive t) s' := by
  unfold execBootEnd at h
  refine happens_keeps (fun u _ => ?_) h
  repeat' first
    | with_reducible exact Keeps.refl _
    | with_reducible apply Keeps.ite
    | (with_reducible refine Keeps.foldl ?_ (fun _ _ => ?_) _)
    | with_reducible apply Keeps.iteFst
    | with_reducible apply Keeps.chain (endBoot_keeps ..)
    | split
    | dsimp only

theorem execStartWaitExpiry_keeps (t : Nat) (s : State) {s' : State} (h : execStartWaitExpiry t s = .next s') : Keeps [.cache, .out, .pair, .cnt, .power, .boot, .cyc, .fsp, .sched, .cfg, .msg, .gate, .sheaf, .dio, .ua, .can, .log] (s.arrive t) s' := by
  unfold execStartWaitExpiry at h
  refine happens_keeps (fun u _ => ?_) h
  repeat' first
    | with_reducible exact Keeps.refl _
    | with_reducible apply Keeps.ite
    | (with_reducible refine Keeps.foldl ?_ (fun _ _ => ?_) _)
    | with_reducible apply Keeps.iteFst
    | with_reducible apply Keeps.chain (endWait_keeps ..)
    | split
    | dsimp only

theorem execTermWindowEnd_keeps (t : Nat) (s : State) {s' : State} (h : execTermWindowEnd t s = .next s') : Keeps [.cache, .out, .pair, .cnt, .power, .boot, .cyc, .fsp, .sched, .cfg, .msg, .gate, .sheaf, .dio, .ua, .can, .log] (s.arrive t) s' := by
  unfold execTermWindowEnd at h
  refine happens_keeps (fun u _ => ?_) h
  repeat' first
    | with_reducible exact Keeps.refl _
    | with_reducible apply Keeps.ite
    | (with_reducible refine Keeps.foldl ?_ (fun _ _ => ?_) _)
    | with_reducible apply Keeps.iteFst
    | with_reducible apply Keeps.chain (endWindow_keeps ..)
    | split
    | dsimp only

end Sys2Proof.Machine
end

