-- ==== Sys2Proof/Laws/ExecCan.lean ====
section
/-! SUPPORT. What the commands of Can.lean may change. -/

set_option Elab.async false
set_option linter.all false

namespace Sys2Proof.Machine

theorem execCanFrameReceived_keeps (t ch : Nat) (f : CanFrame) (s : State) {s' : State} (h : execCanFrameReceived t ch f s = .next s') : Keeps [.cache, .free, .can, .log] (s.arrive t) s' := by
  unfold execCanFrameReceived at h
  refine happens_keeps (fun u _ => ?_) h
  repeat' first
    | with_reducible exact Keeps.refl _
    | with_reducible apply Keeps.ite
    | (with_reducible refine Keeps.foldl ?_ (fun _ _ => ?_) _)
    | with_reducible apply Keeps.iteFst
    | with_reducible apply Keeps.chain (receiveCan_keeps ..)
    | split
    | dsimp only

theorem execCanTxRequest_keeps (t ch buf : Nat) (s : State) {s' : State} (h : execCanTxRequest t ch buf s = .next s') : Keeps [.cache, .mem, .pts, .can] (s.arrive t) s' := by
  unfold execCanTxRequest at h
  refine happens_keeps (fun u _ => ?_) h
  repeat' first
    | with_reducible exact Keeps.refl _
    | with_reducible apply Keeps.ite
    | (with_reducible refine Keeps.foldl ?_ (fun _ _ => ?_) _)
    | with_reducible apply Keeps.iteFst
    | with_reducible apply Keeps.chain (requestCan_keeps ..)
    | split
    | dsimp only

theorem execCanTxEnd_keeps (t ch buf : Nat) (o : CanTxOutcome) (s : State) {s' : State} (h : execCanTxEnd t ch buf o s = .next s') : Keeps [.cache, .mem, .free, .cnt, .can, .log] (s.arrive t) s' := by
  unfold execCanTxEnd at h
  refine happens_keeps (fun u _ => ?_) h
  repeat' first
    | with_reducible exact Keeps.refl _
    | with_reducible apply Keeps.ite
    | (with_reducible refine Keeps.foldl ?_ (fun _ _ => ?_) _)
    | with_reducible apply Keeps.iteFst
    | with_reducible apply Keeps.chain (endCan_keeps ..)
    | split
    | dsimp only

theorem execBusOffRecoveryComplete_keeps (t ch : Nat) (s : State) {s' : State} (h : execBusOffRecoveryComplete t ch s = .next s') : Keeps [.can] (s.arrive t) s' := by
  unfold execBusOffRecoveryComplete at h
  refine happens_keeps (fun u _ => ?_) h
  repeat' first
    | with_reducible exact Keeps.refl _
    | with_reducible apply Keeps.ite
    | (with_reducible refine Keeps.foldl ?_ (fun _ _ => ?_) _)
    | with_reducible apply Keeps.iteFst
    | with_reducible apply Keeps.chain (setCan_keeps ..)
    | split
    | dsimp only

theorem execCanFifoRead_keeps (t ch fifo after max : Nat) (s : State) {s' : State} (h : execCanFifoRead t ch fifo after max s = .next s') : Keeps [.out] (s.arrive t) s' := by
  unfold execCanFifoRead at h
  refine happens_keeps (fun u _ => ?_) h
  repeat' first
    | with_reducible exact Keeps.refl _
    | with_reducible apply Keeps.ite
    | (with_reducible refine Keeps.foldl ?_ (fun _ _ => ?_) _)
    | with_reducible apply Keeps.iteFst
    | with_reducible apply Keeps.chain (readFifo_keeps ..)
    | split
    | dsimp only

theorem execCanFifoConsume_keeps (t ch fifo stamp : Nat) (s : State) {s' : State} (h : execCanFifoConsume t ch fifo stamp s = .next s') : Keeps [.out, .can] (s.arrive t) s' := by
  unfold execCanFifoConsume at h
  refine happens_keeps (fun u _ => ?_) h
  repeat' first
    | with_reducible exact Keeps.refl _
    | with_reducible apply Keeps.ite
    | (with_reducible refine Keeps.foldl ?_ (fun _ _ => ?_) _)
    | with_reducible apply Keeps.iteFst
    | with_reducible apply Keeps.chain (consumeFifo_keeps ..)
    | split
    | dsimp only

theorem execCanCancel_keeps (t ch buf : Nat) (s : State) {s' : State} (h : execCanCancel t ch buf s = .next s') : Keeps [.out, .can] (s.arrive t) s' := by
  unfold execCanCancel at h
  refine happens_keeps (fun u _ => ?_) h
  repeat' first
    | with_reducible exact Keeps.refl _
    | with_reducible apply Keeps.ite
    | (with_reducible refine Keeps.foldl ?_ (fun _ _ => ?_) _)
    | with_reducible apply Keeps.iteFst
    | with_reducible apply Keeps.chain (cancelCan_keeps ..)
    | split
    | dsimp only

theorem execCanRecover_keeps (t ch : Nat) (s : State) {s' : State} (h : execCanRecover t ch s = .next s') : Keeps [.out, .can] (s.arrive t) s' := by
  unfold execCanRecover at h
  refine happens_keeps (fun u _ => ?_) h
  repeat' first
    | with_reducible exact Keeps.refl _
    | with_reducible apply Keeps.ite
    | (with_reducible refine Keeps.foldl ?_ (fun _ _ => ?_) _)
    | with_reducible apply Keeps.iteFst
    | with_reducible apply Keeps.chain (recoverCan_keeps ..)
    | with_reducible apply Keeps.chain (ret_keeps ..)
    | split
    | dsimp only

theorem execReferenceMessage_keeps (t ch : Nat) (s : State) {s' : State} (h : execReferenceMessage t ch s = .next s') : Keeps [.can] (s.arrive t) s' := by
  unfold execReferenceMessage at h
  refine happens_keeps (fun u _ => ?_) h
  repeat' first
    | with_reducible exact Keeps.refl _
    | with_reducible apply Keeps.ite
    | (with_reducible refine Keeps.foldl ?_ (fun _ _ => ?_) _)
    | with_reducible apply Keeps.iteFst
    | with_reducible apply Keeps.chain (requestRef_keeps ..)
    | split
    | dsimp only

theorem execRefLate_keeps (t ch : Nat) (s : State) {s' : State} (h : execRefLate t ch s = .next s') : Keeps [.can] (s.arrive t) s' := by
  unfold execRefLate at h
  refine happens_keeps (fun u _ => ?_) h
  repeat' first
    | with_reducible exact Keeps.refl _
    | with_reducible apply Keeps.ite
    | (with_reducible refine Keeps.foldl ?_ (fun _ _ => ?_) _)
    | with_reducible apply Keeps.iteFst
    | with_reducible apply Keeps.chain (setCan_keeps ..)
    | split
    | dsimp only

theorem execBusIntegration_keeps (t ch : Nat) (s : State) {s' : State} (h : execBusIntegration t ch s = .next s') : Keeps [.can] (s.arrive t) s' := by
  unfold execBusIntegration at h
  refine happens_keeps (fun u _ => ?_) h
  repeat' first
    | with_reducible exact Keeps.refl _
    | with_reducible apply Keeps.ite
    | (with_reducible refine Keeps.foldl ?_ (fun _ _ => ?_) _)
    | with_reducible apply Keeps.iteFst
    | with_reducible apply Keeps.chain (setCan_keeps ..)
    | split
    | dsimp only

theorem execCanSettingsApply_keeps (t ch : Nat) (s : State) {s' : State} (h : execCanSettingsApply t ch s = .next s') : Keeps [.can] (s.arrive t) s' := by
  unfold execCanSettingsApply at h
  refine happens_keeps (fun u _ => ?_) h
  repeat' first
    | with_reducible exact Keeps.refl _
    | with_reducible apply Keeps.ite
    | (with_reducible refine Keeps.foldl ?_ (fun _ _ => ?_) _)
    | with_reducible apply Keeps.iteFst
    | with_reducible apply Keeps.chain (setCan_keeps ..)
    | split
    | dsimp only

theorem execCanBusError_keeps (t ch code : Nat) (dataPhase : Bool) (recRise : Nat) (s : State) {s' : State} (h : execCanBusError t ch code dataPhase recRise s = .next s') : Keeps [.cache, .can, .log] (s.arrive t) s' := by
  unfold execCanBusError at h
  refine happens_keeps (fun u _ => ?_) h
  repeat' first
    | with_reducible exact Keeps.refl _
    | with_reducible apply Keeps.ite
    | (with_reducible refine Keeps.foldl ?_ (fun _ _ => ?_) _)
    | with_reducible apply Keeps.iteFst
    | with_reducible apply Keeps.chain (confine_keeps ..)
    | with_reducible apply Keeps.chain (setCan_keeps ..)
    | split
    | dsimp only

end Sys2Proof.Machine
end

