-- ==== Sys2Proof/Laws/ExecClock.lean ====
section
/-! SUPPORT. What the commands of Clock.lean may change. -/

set_option Elab.async false
set_option linter.all false

namespace Sys2Proof.Machine

theorem execTimeNow_keeps (t base : Nat) (s : State) {s' : State} (h : execTimeNow t base s = .next s') : Keeps [.out] (s.arrive t) s' := by
  unfold execTimeNow at h
  refine happens_keeps (fun u _ => ?_) h
  repeat' first
    | with_reducible exact Keeps.refl _
    | with_reducible apply Keeps.ite
    | (with_reducible refine Keeps.foldl ?_ (fun _ _ => ?_) _)
    | with_reducible apply Keeps.iteFst
    | with_reducible apply Keeps.chain (timeNow_keeps ..)
    | split
    | dsimp only

theorem execGptpIntervalTimer_keeps (t kind port domain : Nat) (s : State) {s' : State} (h : execGptpIntervalTimer t kind port domain s = .next s') : Keeps [.out] (s.arrive t) s' := by
  unfold execGptpIntervalTimer at h
  refine happens_keeps (fun u _ => ?_) h
  repeat' first
    | with_reducible exact Keeps.refl _
    | with_reducible apply Keeps.ite
    | (with_reducible refine Keeps.foldl ?_ (fun _ _ => ?_) _)
    | with_reducible apply Keeps.iteFst
    | with_reducible apply Keeps.chain (sendInterval_keeps ..)
    | split
    | dsimp only

theorem execMessageIntervalRequest_keeps (t port domain : Nat) (logSync logPdelay _logAnnounce : Int) (s : State) {s' : State} (h : execMessageIntervalRequest t port domain logSync logPdelay _logAnnounce s = .next s') : Keeps [.time] (s.arrive t) s' := by
  unfold execMessageIntervalRequest at h
  refine happens_keeps (fun u _ => ?_) h
  repeat' first
    | with_reducible exact Keeps.refl _
    | with_reducible apply Keeps.ite
    | (with_reducible refine Keeps.foldl ?_ (fun _ _ => ?_) _)
    | with_reducible apply Keeps.iteFst
    | with_reducible apply Keeps.chain (setIntervals_keeps ..)
    | split
    | dsimp only

theorem execTriggerFire_keeps (t slot : Nat) (s : State) {s' : State} (h : execTriggerFire t slot s = .next s') : Keeps [.out, .time] (s.arrive t) s' := by
  unfold execTriggerFire at h
  refine happens_keeps (fun u _ => ?_) h
  repeat' first
    | with_reducible exact Keeps.refl _
    | with_reducible apply Keeps.ite
    | (with_reducible refine Keeps.foldl ?_ (fun _ _ => ?_) _)
    | with_reducible apply Keeps.iteFst
    | with_reducible apply Keeps.chain (fireTrigger_keeps ..)
    | split
    | dsimp only

theorem execPpsOutPulse_keeps (t : Nat) (s : State) {s' : State} (h : execPpsOutPulse t s = .next s') : Keeps [.out] (s.arrive t) s' := by
  unfold execPpsOutPulse at h
  refine happens_keeps (fun u _ => ?_) h
  repeat' first
    | with_reducible exact Keeps.refl _
    | with_reducible apply Keeps.ite
    | (with_reducible refine Keeps.foldl ?_ (fun _ _ => ?_) _)
    | with_reducible apply Keeps.iteFst
    | with_reducible apply Keeps.chain (emit_keeps _ _)
    | split
    | dsimp only

theorem execPpsInEdge_keeps (t : Nat) (rising : Bool) (s : State) {s' : State} (h : execPpsInEdge t rising s = .next s') : Keeps [.time] (s.arrive t) s' := by
  unfold execPpsInEdge at h
  refine happens_keeps (fun u _ => ?_) h
  repeat' first
    | with_reducible exact Keeps.refl _
    | with_reducible apply Keeps.ite
    | (with_reducible refine Keeps.foldl ?_ (fun _ _ => ?_) _)
    | with_reducible apply Keeps.iteFst
    | with_reducible apply Keeps.chain (ppsEdge_keeps ..)
    | split
    | dsimp only

theorem execDio15Edge_keeps (t : Nat) (rising : Bool) (s : State) {s' : State} (h : execDio15Edge t rising s = .next s') : Keeps [.time] (s.arrive t) s' := by
  unfold execDio15Edge at h
  refine happens_keeps (fun u _ => ?_) h
  repeat' first
    | with_reducible exact Keeps.refl _
    | with_reducible apply Keeps.ite
    | (with_reducible refine Keeps.foldl ?_ (fun _ _ => ?_) _)
    | with_reducible apply Keeps.iteFst
    | with_reducible apply Keeps.chain (dio15Edge_keeps ..)
    | split
    | dsimp only

theorem execGateControlInterval_keeps (t port : Nat) (s : State) {s' : State} (h : execGateControlInterval t port s = .next s') : Keeps [.time] (s.arrive t) s' := by
  unfold execGateControlInterval at h
  refine happens_keeps (fun u _ => ?_) h
  repeat' first
    | with_reducible exact Keeps.refl _
    | with_reducible apply Keeps.ite
    | (with_reducible refine Keeps.foldl ?_ (fun _ _ => ?_) _)
    | with_reducible apply Keeps.iteFst
    | with_reducible apply Keeps.chain (nextGate_keeps ..)
    | split
    | dsimp only

theorem execTb3Save_keeps (t : Nat) (s : State) {s' : State} (h : execTb3Save t s = .next s') : Keeps [.time] (s.arrive t) s' := by
  unfold execTb3Save at h
  refine happens_keeps (fun u _ => ?_) h
  repeat' first
    | with_reducible exact Keeps.refl _
    | with_reducible apply Keeps.ite
    | (with_reducible refine Keeps.foldl ?_ (fun _ _ => ?_) _)
    | with_reducible apply Keeps.iteFst
    | with_reducible apply Keeps.chain (saveTb3_keeps ..)
    | split
    | dsimp only

theorem execTimeMarker_keeps (t : Nat) (m : Marker) (s : State) {s' : State} (h : execTimeMarker t m s = .next s') : Keeps [.cache, .time, .log] (s.arrive t) s' := by
  unfold execTimeMarker at h
  refine happens_keeps (fun u _ => ?_) h
  repeat' first
    | with_reducible exact Keeps.refl _
    | with_reducible apply Keeps.ite
    | (with_reducible refine Keeps.foldl ?_ (fun _ _ => ?_) _)
    | with_reducible apply Keeps.iteFst
    | with_reducible apply Keeps.chain (hearMarker_keeps ..)
    | split
    | dsimp only

end Sys2Proof.Machine
end

