-- ==== Sys2Proof/Laws/ExecCommands.lean ====
section
/-! SUPPORT. What the commands of Commands.lean may change. -/

set_option Elab.async false
set_option linter.all false

namespace Sys2Proof.Machine

theorem execPointRead_keeps (t : Nat) (r : Req) (s : State) {s' : State} (h : execPointRead t r s = .next s') : Keeps [.cache, .mem, .free, .out, .msg, .gate, .log] (s.arrive t) s' := by
  unfold execPointRead at h
  refine happens_keeps (fun u _ => ?_) h
  repeat' first
    | with_reducible exact Keeps.refl _
    | with_reducible apply Keeps.ite
    | (with_reducible refine Keeps.foldl ?_ (fun _ _ => ?_) _)
    | with_reducible apply Keeps.iteFst
    | with_reducible refine run_keeps _ _ _ _ (fun _ => ?_) (by decide)
    | with_reducible apply Keeps.chain (pointRead_keeps ..)
    | split
    | dsimp only

theorem execPointForce_keeps (t : Nat) (r : Req) (s : State) {s' : State} (h : execPointForce t r s = .next s') : Keeps [.cache, .mem, .free, .out, .pts, .fsp, .sched, .msg, .gate, .log] (s.arrive t) s' := by
  unfold execPointForce at h
  refine happens_keeps (fun u _ => ?_) h
  repeat' first
    | with_reducible exact Keeps.refl _
    | with_reducible apply Keeps.ite
    | (with_reducible refine Keeps.foldl ?_ (fun _ _ => ?_) _)
    | with_reducible apply Keeps.iteFst
    | with_reducible refine run_keeps _ _ _ _ (fun _ => ?_) (by decide)
    | with_reducible apply Keeps.chain (pointForce_keeps ..)
    | split
    | dsimp only

theorem execPointRelease_keeps (t : Nat) (r : Req) (s : State) {s' : State} (h : execPointRelease t r s = .next s') : Keeps [.cache, .mem, .free, .out, .pts, .fsp, .sched, .msg, .gate, .log] (s.arrive t) s' := by
  unfold execPointRelease at h
  refine happens_keeps (fun u _ => ?_) h
  repeat' first
    | with_reducible exact Keeps.refl _
    | with_reducible apply Keeps.ite
    | (with_reducible refine Keeps.foldl ?_ (fun _ _ => ?_) _)
    | with_reducible apply Keeps.iteFst
    | with_reducible refine run_keeps _ _ _ _ (fun _ => ?_) (by decide)
    | with_reducible apply Keeps.chain (pointRelease_keeps ..)
    | split
    | dsimp only

theorem execPointBrowse_keeps (t : Nat) (r : Req) (s : State) {s' : State} (h : execPointBrowse t r s = .next s') : Keeps [.cache, .mem, .free, .out, .msg, .gate, .log] (s.arrive t) s' := by
  unfold execPointBrowse at h
  refine happens_keeps (fun u _ => ?_) h
  repeat' first
    | with_reducible exact Keeps.refl _
    | with_reducible apply Keeps.ite
    | (with_reducible refine Keeps.foldl ?_ (fun _ _ => ?_) _)
    | with_reducible apply Keeps.iteFst
    | with_reducible refine run_keeps _ _ _ _ (fun _ => ?_) (by decide)
    | with_reducible apply Keeps.chain (pointBrowse_keeps ..)
    | split
    | dsimp only

theorem execTimeStatus_keeps (t : Nat) (r : Req) (s : State) {s' : State} (h : execTimeStatus t r s = .next s') : Keeps [.cache, .mem, .free, .out, .time, .msg, .gate, .log] (s.arrive t) s' := by
  unfold execTimeStatus at h
  refine happens_keeps (fun u _ => ?_) h
  repeat' first
    | with_reducible exact Keeps.refl _
    | with_reducible apply Keeps.ite
    | (with_reducible refine Keeps.foldl ?_ (fun _ _ => ?_) _)
    | with_reducible apply Keeps.iteFst
    | with_reducible refine run_keeps _ _ _ _ (fun _ => ?_) (by decide)
    | with_reducible apply Keeps.chain (timeStatus_keeps ..)
    | split
    | dsimp only

theorem execTimeStep_keeps (t : Nat) (r : Req) (s : State) {s' : State} (h : execTimeStep t r s = .next s') : Keeps [.cache, .mem, .free, .out, .time, .msg, .gate, .log] (s.arrive t) s' := by
  unfold execTimeStep at h
  refine happens_keeps (fun u _ => ?_) h
  repeat' first
    | with_reducible exact Keeps.refl _
    | with_reducible apply Keeps.ite
    | (with_reducible refine Keeps.foldl ?_ (fun _ _ => ?_) _)
    | with_reducible apply Keeps.iteFst
    | with_reducible refine run_keeps _ _ _ _ (fun _ => ?_) (by decide)
    | with_reducible apply Keeps.chain (timeStep_keeps ..)
    | split
    | dsimp only

theorem execRecOpen_keeps (t : Nat) (r : Req) (s : State) {s' : State} (h : execRecOpen t r s = .next s') : Keeps [.cache, .mem, .free, .out, .msg, .gate, .log] (s.arrive t) s' := by
  unfold execRecOpen at h
  refine happens_keeps (fun u _ => ?_) h
  repeat' first
    | with_reducible exact Keeps.refl _
    | with_reducible apply Keeps.ite
    | (with_reducible refine Keeps.foldl ?_ (fun _ _ => ?_) _)
    | with_reducible apply Keeps.iteFst
    | with_reducible refine run_keeps _ _ _ _ (fun _ => ?_) (by decide)
    | with_reducible apply Keeps.chain (recOpen_keeps ..)
    | split
    | dsimp only

theorem execRecRead_keeps (t : Nat) (r : Req) (s : State) {s' : State} (h : execRecRead t r s = .next s') : Keeps [.cache, .mem, .free, .out, .msg, .gate, .log] (s.arrive t) s' := by
  unfold execRecRead at h
  refine happens_keeps (fun u _ => ?_) h
  repeat' first
    | with_reducible exact Keeps.refl _
    | with_reducible apply Keeps.ite
    | (with_reducible refine Keeps.foldl ?_ (fun _ _ => ?_) _)
    | with_reducible apply Keeps.iteFst
    | with_reducible refine run_keeps _ _ _ _ (fun _ => ?_) (by decide)
    | with_reducible apply Keeps.chain (recRead_keeps ..)
    | split
    | dsimp only

theorem execRecClose_keeps (t : Nat) (r : Req) (s : State) {s' : State} (h : execRecClose t r s = .next s') : Keeps [.cache, .mem, .free, .out, .msg, .gate, .log] (s.arrive t) s' := by
  unfold execRecClose at h
  refine happens_keeps (fun u _ => ?_) h
  repeat' first
    | with_reducible exact Keeps.refl _
    | with_reducible apply Keeps.ite
    | (with_reducible refine Keeps.foldl ?_ (fun _ _ => ?_) _)
    | with_reducible apply Keeps.iteFst
    | with_reducible refine run_keeps _ _ _ _ (fun _ => ?_) (by decide)
    | with_reducible apply Keeps.chain (recClose_keeps ..)
    | split
    | dsimp only

theorem execRecMark_keeps (t : Nat) (r : Req) (s : State) {s' : State} (h : execRecMark t r s = .next s') : Keeps [.cache, .mem, .free, .out, .msg, .gate, .log] (s.arrive t) s' := by
  unfold execRecMark at h
  refine happens_keeps (fun u _ => ?_) h
  repeat' first
    | with_reducible exact Keeps.refl _
    | with_reducible apply Keeps.ite
    | (with_reducible refine Keeps.foldl ?_ (fun _ _ => ?_) _)
    | with_reducible apply Keeps.iteFst
    | with_reducible refine run_keeps _ _ _ _ (fun _ => ?_) (by decide)
    | with_reducible apply Keeps.chain (recMark_keeps ..)
    | split
    | dsimp only

theorem execDisplayText_keeps (t : Nat) (r : Req) (s : State) {s' : State} (h : execDisplayText t r s = .next s') : Keeps [.cache, .mem, .free, .out, .msg, .gate, .log, .disp] (s.arrive t) s' := by
  unfold execDisplayText at h
  refine happens_keeps (fun u _ => ?_) h
  repeat' first
    | with_reducible exact Keeps.refl _
    | with_reducible apply Keeps.ite
    | (with_reducible refine Keeps.foldl ?_ (fun _ _ => ?_) _)
    | with_reducible apply Keeps.iteFst
    | with_reducible refine run_keeps _ _ _ _ (fun _ => ?_) (by decide)
    | with_reducible apply Keeps.chain (displayText_keeps ..)
    | split
    | dsimp only

theorem execDisplayRefresh_keeps (t : Nat) (r : Req) (s : State) {s' : State} (h : execDisplayRefresh t r s = .next s') : Keeps [.cache, .mem, .free, .out, .msg, .gate, .log, .disp] (s.arrive t) s' := by
  unfold execDisplayRefresh at h
  refine happens_keeps (fun u _ => ?_) h
  repeat' first
    | with_reducible exact Keeps.refl _
    | with_reducible apply Keeps.ite
    | (with_reducible refine Keeps.foldl ?_ (fun _ _ => ?_) _)
    | with_reducible apply Keeps.iteFst
    | with_reducible refine run_keeps _ _ _ _ (fun _ => ?_) (by decide)
    | with_reducible apply Keeps.chain (displayRefresh_keeps ..)
    | split
    | dsimp only

theorem execPairHandover_keeps (t : Nat) (r : Req) (s : State) {s' : State} (h : execPairHandover t r s = .next s') : Keeps [.cache, .mem, .free, .out, .pair, .msg, .gate, .log] (s.arrive t) s' := by
  unfold execPairHandover at h
  refine happens_keeps (fun u _ => ?_) h
  repeat' first
    | with_reducible exact Keeps.refl _
    | with_reducible apply Keeps.ite
    | (with_reducible refine Keeps.foldl ?_ (fun _ _ => ?_) _)
    | with_reducible apply Keeps.iteFst
    | with_reducible refine run_keeps _ _ _ _ (fun _ => ?_) (by decide)
    | with_reducible apply Keeps.chain (pairHandover_keeps ..)
    | split
    | dsimp only

theorem execDiagRead_keeps (t : Nat) (r : Req) (s : State) {s' : State} (h : execDiagRead t r s = .next s') : Keeps [.cache, .mem, .free, .out, .fsp, .msg, .gate, .log] (s.arrive t) s' := by
  unfold execDiagRead at h
  refine happens_keeps (fun u _ => ?_) h
  repeat' first
    | with_reducible exact Keeps.refl _
    | with_reducible apply Keeps.ite
    | (with_reducible refine Keeps.foldl ?_ (fun _ _ => ?_) _)
    | with_reducible apply Keeps.iteFst
    | with_reducible refine run_keeps _ _ _ _ (fun _ => ?_) (by decide)
    | with_reducible apply Keeps.chain (diagRead_keeps ..)
    | split
    | dsimp only

theorem execDiagResponse_keeps (t : Nat) (f : RxFrame) (s : State) {s' : State} (h : execDiagResponse t f s = .next s') : Keeps [.cache, .mem, .free, .out, .pair, .cnt, .power, .cyc, .fsp, .sched, .cfg, .msg, .gate, .sheaf, .dio, .ua, .can, .log] (s.arrive t) s' := by
  unfold execDiagResponse at h
  refine happens_keeps (fun u _ => ?_) h
  repeat' first
    | with_reducible exact Keeps.refl _
    | with_reducible apply Keeps.ite
    | (with_reducible refine Keeps.foldl ?_ (fun _ _ => ?_) _)
    | with_reducible apply Keeps.iteFst
    | with_reducible apply Keeps.chain (diagResponse_keeps ..)
    | with_reducible refine receive_keeps _ _ _ _ (fun _ _ => ?_) (by decide)
    | split
    | dsimp only

theorem execDiagTimeout_keeps (t station : Nat) (s : State) {s' : State} (h : execDiagTimeout t station s = .next s') : Keeps [.cache, .mem, .free, .out, .pair, .fsp, .cfg, .msg, .log] (s.arrive t) s' := by
  unfold execDiagTimeout at h
  refine happens_keeps (fun u _ => ?_) h
  repeat' first
    | with_reducible exact Keeps.refl _
    | with_reducible apply Keeps.ite
    | (with_reducible refine Keeps.foldl ?_ (fun _ _ => ?_) _)
    | with_reducible apply Keeps.iteFst
    | with_reducible apply Keeps.chain (endDiag_keeps ..)
    | split
    | dsimp only

end Sys2Proof.Machine
end

