-- ==== Sys2Proof/Laws/KeepConfigs.lean ====
section
/-! SUPPORT. What the operations of Configs.lean may change; each keeps the form of a state and the instant. -/

set_option Elab.async false
set_option linter.all false

namespace Sys2Proof.Machine

theorem sendChunk_keeps (job : Nat) (s : State) : Keeps [.out, .msg] s (State.sendChunk job s) := by
  unfold State.sendChunk
  repeat' first
    | with_reducible exact Keeps.refl _
    | with_reducible apply Keeps.chain (askTwin_keeps ..)
    | dsimp only

theorem startForward_keeps (job : Nat) (s : State) : Keeps [.out, .cfg, .msg] s (State.startForward job s) := by
  unfold State.startForward
  repeat' first
    | with_reducible exact Keeps.refl _
    | with_reducible apply Keeps.chain (upCfg_keeps _ _)
    | with_reducible apply Keeps.chain (askTwin_keeps ..)

theorem startStage_keeps (mb14 : Bool) (img : List Byte) (id : Nat) (s : State) : Keeps [.out, .cfg, .msg] s (State.startStage mb14 img id s) := by
  unfold State.startStage
  repeat' first
    | with_reducible exact Keeps.refl _
    | with_reducible apply Keeps.ite
    | with_reducible apply Keeps.chain (upCfg_keeps _ _)
    | with_reducible apply Keeps.chain (startForward_keeps ..)
    | dsimp only

theorem stageChunk_keeps (r : Req) (s : State) : Keeps [.out, .cfg, .msg] s (stageChunk r s).1 := by
  unfold stageChunk
  repeat' first
    | with_reducible exact Keeps.refl _
    | with_reducible apply Keeps.ite
    | with_reducible apply Keeps.iteFst
    | with_reducible apply Keeps.chain (upCfg_keeps _ _)
    | with_reducible apply Keeps.chain (startStage_keeps ..)
    | with_reducible refine reply_keeps ?_
    | with_reducible refine withJob_keeps _ _ _ (fun _ _ => ?_) (by decide)
    | split
    | dsimp only

theorem stageBody_keeps (r : Req) (s : State) : Keeps [.out, .cfg, .msg] s (stageBody r s).1 := by
  unfold stageBody
  repeat' first
    | with_reducible exact Keeps.refl _
    | with_reducible apply Keeps.iteFst
    | with_reducible refine guarded_keeps _ _ _ ?_
    | with_reducible apply Keeps.chain (stageChunk_keeps ..)
    | split
    | dsimp only

theorem seatSeed_keeps (img : List Byte) (s : State) : Keeps [.cache, .cfg, .log] s (State.seatSeed img s) := by
  unfold State.seatSeed
  repeat' first
    | with_reducible exact Keeps.refl _
    | with_reducible apply Keeps.ite
    | with_reducible apply Keeps.chain (upCfg_keeps _ _)
    | with_reducible apply Keeps.chain (record_keeps ..)

theorem endCfgJob_keeps (status : Nat) (result : List Byte) (s : State) : Keeps [.cfg, .msg] s (State.endCfgJob status result s) := by
  unfold State.endCfgJob
  repeat' first
    | with_reducible exact Keeps.refl _
    | with_reducible apply Keeps.ite
    | with_reducible apply Keeps.chain (upCfg_keeps _ _)
    | with_reducible apply Keeps.chain (endJob_keeps ..)
    | split

theorem endStage_keeps (s : State) : Keeps [.cache, .cfg, .msg, .log] s (State.endStage s) := by
  unfold State.endStage
  repeat' first
    | with_reducible exact Keeps.refl _
    | with_reducible apply Keeps.ite
    | with_reducible apply Keeps.chain (endCfgJob_keeps ..)
    | with_reducible apply Keeps.chain (seatSeed_keeps ..)
    | split
    | dsimp only

theorem probeAll_keeps (s : State) : Keeps [.out, .fsp, .cfg] s (State.probeAll s) := by
  unfold State.probeAll
  repeat' first
    | with_reducible exact Keeps.refl _
    | with_reducible apply Keeps.ite
    | (with_reducible refine Keeps.foldl ?_ (fun _ _ => ?_) _)
    | with_reducible apply Keeps.chain (upCfg_keeps _ _)
    | with_reducible apply Keeps.chain (probe_keeps ..)
    | dsimp only

theorem startCheck_keeps (mb14 : Bool) (id : Nat) (s : State) : Keeps [.out, .fsp, .cfg, .msg] s (State.startCheck mb14 id s) := by
  unfold State.startCheck
  repeat' first
    | with_reducible exact Keeps.refl _
    | with_reducible apply Keeps.ite
    | with_reducible apply Keeps.chain (upCfg_keeps _ _)
    | with_reducible apply Keeps.chain (askTwin_keeps ..)
    | with_reducible apply Keeps.chain (probeAll_keeps ..)
    | dsimp only

theorem checkBody_keeps (r : Req) (s : State) : Keeps [.out, .fsp, .cfg, .msg] s (checkBody r s).1 := by
  unfold checkBody
  repeat' first
    | with_reducible exact Keeps.refl _
    | with_reducible apply Keeps.iteFst
    | with_reducible apply Keeps.chain (startCheck_keeps ..)
    | with_reducible refine guarded_keeps _ _ _ ?_
    | with_reducible refine withJob_keeps _ _ _ (fun _ _ => ?_) (by decide)
    | split
    | dsimp only

theorem endCheck_keeps (s : State) : Keeps [.cfg, .msg] s (State.endCheck s) := by
  unfold State.endCheck
  repeat' first
    | with_reducible exact Keeps.refl _
    | with_reducible apply Keeps.ite
    | with_reducible apply Keeps.chain (upCfg_keeps _ _)
    | with_reducible apply Keeps.chain (endCfgJob_keeps ..)
    | split
    | dsimp only

theorem listBody_keeps (r : Req) (s : State) : Keeps [] s (listBody r s).1 := by
  unfold listBody
  repeat' first
    | with_reducible exact Keeps.refl _
    | with_reducible apply Keeps.ite
    | with_reducible apply Keeps.iteFst
    | with_reducible refine guarded_keeps _ _ _ ?_
    | with_reducible refine reply_keeps ?_
    | split
    | dsimp only

theorem discardEntries_keeps (old new : Cfg) (s : State) : Keeps [.cache, .mem, .out, .fsp, .sched, .log] s (State.discardEntries old new s) := by
  unfold State.discardEntries
  repeat' first
    | with_reducible exact Keeps.refl _
    | with_reducible apply Keeps.ite
    | (with_reducible refine Keeps.foldl ?_ (fun _ _ => ?_) _)
    | with_reducible apply Keeps.chain (upSched_keeps _ _)
    | with_reducible apply Keeps.chain (cancelEntry_keeps ..)
    | dsimp only

theorem endForce_keeps (h : Nat) (s : State) : Keeps [.cache, .mem, .out, .pts, .fsp, .sched, .log] s (State.endForce h s) := by
  unfold State.endForce
  repeat' first
    | with_reducible exact Keeps.refl _
    | with_reducible apply Keeps.ite
    | with_reducible apply Keeps.chain (upPts_keeps _ _)
    | with_reducible apply Keeps.chain (force_keeps ..)
    | with_reducible apply Keeps.chain (record_keeps ..)

theorem forget_keeps (h : Nat) (s : State) : Keeps [.cache, .mem, .out, .pts, .fsp, .sched, .log] s (State.forget h s) := by
  unfold State.forget
  repeat' first
    | with_reducible exact Keeps.refl _
    | with_reducible apply Keeps.chain (upPts_keeps _ _)
    | with_reducible apply Keeps.chain (endForce_keeps ..)

theorem undeclare_keeps (h : Nat) (s : State) : Keeps [.cache, .mem] s (State.undeclare h s) := by
  unfold State.undeclare
  repeat' first
    | with_reducible exact Keeps.refl _
    | with_reducible apply Keeps.chain (upMem_keeps _ _ (fun w => by first | exact memWriteN_wf _ _ _ w | exact memStore_wf _ _ w | exact memClear_wf _ _ w | (apply memStore_wf; assumption) ))
    | with_reducible apply Keeps.chain (setRule_keeps ..)

theorem zeroSlots_keeps (new : Cfg) (p : PointRec) (s : State) : Keeps [.cache, .mem] s (State.zeroSlots new p s) := by
  unfold State.zeroSlots
  repeat' first
    | with_reducible exact Keeps.refl _
    | with_reducible apply Keeps.ite
    | with_reducible apply Keeps.chain (upMem_keeps _ _ (fun w => by first | exact memWriteN_wf _ _ _ w | exact memStore_wf _ _ w | exact memClear_wf _ _ w | (apply memStore_wf; assumption) ))

theorem carryPoint_keeps (old new : Cfg) (restored : List (Nat × Word64)) (p : PointRec) (s : State) : Keeps [.cache, .mem, .out, .pts, .fsp, .sched, .log] s (State.carryPoint old new restored p s) := by
  unfold State.carryPoint
  repeat' first
    | with_reducible exact Keeps.refl _
    | with_reducible apply Keeps.ite
    | with_reducible apply Keeps.chain (upPts_keeps _ _)
    | with_reducible apply Keeps.chain (declare_keeps ..)
    | with_reducible apply Keeps.chain (forget_keeps ..)
    | with_reducible apply Keeps.chain (setImage_keeps ..)
    | with_reducible apply Keeps.chain (setRule_keeps ..)
    | with_reducible apply Keeps.chain (zeroSlots_keeps ..)
    | split
    | dsimp only

theorem carryAll_keeps (old new : Cfg) (restored : List (Nat × Word64)) (s : State) : Keeps [.cache, .mem, .out, .pts, .fsp, .sched, .log] s (State.carryAll old new restored s) := by
  unfold State.carryAll
  repeat' first
    | with_reducible exact Keeps.refl _
    | (with_reducible refine Keeps.foldl ?_ (fun _ _ => ?_) _)
    | with_reducible apply Keeps.chain (carryPoint_keeps ..)
    | with_reducible apply Keeps.chain (forget_keeps ..)
    | with_reducible apply Keeps.chain (undeclare_keeps ..)
    | dsimp only

theorem flipClasses_keeps (old new : Cfg) (tb : Nat) (s : State) : Keeps [.cnt, .cyc] s (State.flipClasses old new tb s) := by
  unfold State.flipClasses
  repeat' first
    | with_reducible exact Keeps.refl _
    | with_reducible apply Keeps.ite
    | with_reducible apply Keeps.chain (upCnt_keeps _ _)
    | with_reducible apply Keeps.chain (upCyc_keeps _ _)
    | dsimp only

theorem flipUa_keeps (old : Cfg) (s : State) : Keeps [.ua] s (State.flipUa old s) := by
  unfold State.flipUa
  repeat' first
    | with_reducible exact Keeps.refl _
    | with_reducible apply Keeps.ite
    | with_reducible apply Keeps.chain (upUa_keeps _ _)

theorem flipDio_keeps (old : Cfg) (s : State) : Keeps [.dio] s (State.flipDio old s) := by
  unfold State.flipDio
  repeat' first
    | with_reducible exact Keeps.refl _
    | with_reducible apply Keeps.ite
    | with_reducible apply Keeps.chain (upDio_keeps _ _)

theorem flipCan_keeps (old : Cfg) (s : State) : Keeps [.can] s (State.flipCan old s) := by
  unfold State.flipCan
  repeat' first
    | with_reducible exact Keeps.refl _
    | with_reducible apply Keeps.chain (upCan_keeps _ _)

theorem stopLists_keeps (s : State) : Keeps [.time] s (State.stopLists s) := by
  unfold State.stopLists
  repeat' first
    | with_reducible exact Keeps.refl _
    | with_reducible apply Keeps.chain (upTime_keeps _ _ (by first | rfl | (dsimp only; split <;> rfl) | (dsimp only; repeat' first | rfl | split)))

theorem switchTo_keeps (isRevert : Bool) (tb : Nat) (s : State) : Keeps [.cache, .mem, .out, .time, .pts, .fsp, .sched, .cfg, .gate, .dio, .ua, .can, .log] s (State.switchTo isRevert tb s) := by
  unfold State.switchTo
  repeat' first
    | with_reducible exact Keeps.refl _
    | with_reducible apply Keeps.ite
    | with_reducible apply Keeps.chain (upCfg_keeps _ _)
    | with_reducible apply Keeps.chain (carryAll_keeps ..)
    | with_reducible apply Keeps.chain (flipCan_keeps ..)
    | with_reducible apply Keeps.chain (flipDio_keeps ..)
    | with_reducible apply Keeps.chain (flipUa_keeps ..)
    | with_reducible apply Keeps.chain (installRules_keeps ..)
    | with_reducible apply Keeps.chain (stopLists_keeps ..)
    | dsimp only

theorem flipNow_keeps (isRevert : Bool) (s : State) : Keeps [.cache, .mem, .out, .time, .pts, .fsp, .sched, .cfg, .gate, .dio, .ua, .can, .log] s (State.flipNow isRevert s) := by
  unfold State.flipNow
  repeat' first
    | with_reducible exact Keeps.refl _
    | with_reducible apply Keeps.ite
    | with_reducible apply Keeps.chain (record_keeps ..)
    | with_reducible apply Keeps.chain (switchTo_keeps ..)
    | dsimp only

theorem flipAt_keeps (f : ArmedFlip) (s : State) : Keeps [.cache, .mem, .out, .time, .cnt, .pts, .cyc, .fsp, .sched, .cfg, .gate, .dio, .ua, .can, .log] s (State.flipAt f s) := by
  unfold State.flipAt
  repeat' first
    | with_reducible exact Keeps.refl _
    | with_reducible apply Keeps.ite
    | with_reducible apply Keeps.chain (upCfg_keeps _ _)
    | with_reducible apply Keeps.chain (discardEntries_keeps ..)
    | with_reducible apply Keeps.chain (flipClasses_keeps ..)
    | with_reducible apply Keeps.chain (switchTo_keeps ..)
    | dsimp only

theorem moveHandover_keeps (tb : Nat) (s : State) : Keeps [.out, .pair] s (State.moveHandover tb s) := by
  unfold State.moveHandover
  repeat' first
    | with_reducible exact Keeps.refl _
    | with_reducible apply Keeps.ite
    | with_reducible apply Keeps.chain (emit_keeps _ _)
    | with_reducible apply Keeps.chain (upPair_keeps _ _ (by first | exact id | exact fun h => by cases h | (dsimp only; split <;> exact id) | (unfold setLane; split <;> exact id)))
    | with_reducible apply Keeps.chain (armHandover_keeps ..)
    | split

theorem armFlip_keeps (isRevert solo : Bool) (deferrals job : Nat) (s : State) : Keeps [.out, .pair, .fsp, .cfg] s (State.armFlip isRevert solo deferrals job s) := by
  unfold State.armFlip
  repeat' first
    | with_reducible exact Keeps.refl _
    | with_reducible apply Keeps.ite
    | with_reducible apply Keeps.chain (emit_keeps _ _)
    | with_reducible apply Keeps.chain (upCfg_keeps _ _)
    | with_reducible apply Keeps.chain (bindAll_keeps ..)
    | with_reducible apply Keeps.chain (moveHandover_keeps ..)
    | dsimp only

theorem acceptFlip_keeps (isRevert : Bool) (s : State) : Keeps [.cache, .mem, .out, .time, .pair, .pts, .fsp, .sched, .cfg, .msg, .gate, .dio, .ua, .can, .log] s (acceptFlip isRevert s).1 := by
  unfold acceptFlip
  repeat' first
    | with_reducible exact Keeps.refl _
    | with_reducible apply Keeps.ite
    | with_reducible apply Keeps.iteFst
    | with_reducible apply Keeps.chain (armFlip_keeps ..)
    | with_reducible apply Keeps.chain (flipNow_keeps ..)
    | with_reducible refine reply_keeps ?_
    | with_reducible refine withJob_keeps _ _ _ (fun _ _ => ?_) (by decide)
    | split
    | dsimp only

theorem flipBody_keeps  (s : State) : Keeps [.cache, .mem, .out, .time, .pair, .pts, .fsp, .sched, .cfg, .msg, .gate, .dio, .ua, .can, .log] s (flipBody s).1 := by
  unfold flipBody
  repeat' first
    | with_reducible exact Keeps.refl _
    | with_reducible apply Keeps.iteFst
    | with_reducible apply Keeps.chain (acceptFlip_keeps ..)
    | with_reducible refine guarded_keeps _ _ _ ?_
    | split
    | dsimp only

theorem revertBody_keeps  (s : State) : Keeps [.cache, .mem, .out, .time, .pair, .pts, .fsp, .sched, .cfg, .msg, .gate, .dio, .ua, .can, .log] s (revertBody s).1 := by
  unfold revertBody
  repeat' first
    | with_reducible exact Keeps.refl _
    | with_reducible apply Keeps.iteFst
    | with_reducible apply Keeps.chain (acceptFlip_keeps ..)
    | with_reducible refine guarded_keeps _ _ _ ?_
    | split
    | dsimp only

theorem deferFlip_keeps (f : ArmedFlip) (s : State) : Keeps [.out, .pair, .fsp, .cfg, .msg] s (State.deferFlip f s) := by
  unfold State.deferFlip
  repeat' first
    | with_reducible exact Keeps.refl _
    | with_reducible apply Keeps.ite
    | with_reducible apply Keeps.chain (upCfg_keeps _ _)
    | with_reducible apply Keeps.chain (armFlip_keeps ..)
    | with_reducible apply Keeps.chain (endJob_keeps ..)

theorem checkFlip_keeps (f : ArmedFlip) (s : State) : Keeps [.out, .pair, .fsp, .cfg, .msg] s (State.checkFlip f s) := by
  unfold State.checkFlip
  repeat' first
    | with_reducible exact Keeps.refl _
    | with_reducible apply Keeps.ite
    | with_reducible apply Keeps.chain (emit_keeps _ _)
    | with_reducible apply Keeps.chain (upCfg_keeps _ _)
    | with_reducible apply Keeps.chain (deferFlip_keeps ..)

theorem writeChangeSet_keeps (s : State) : Keeps [.cache, .mem, .out, .time, .pair, .cnt, .power, .pts, .cyc, .fsp, .sched, .cfg, .msg, .gate, .sheaf, .dio, .ua, .can, .log] s (State.writeChangeSet s) := by
  unfold State.writeChangeSet
  repeat' first
    | with_reducible exact Keeps.refl _
    | with_reducible apply Keeps.ite
    | (with_reducible refine Keeps.foldl ?_ (fun _ _ => ?_) _)
    | with_reducible apply Keeps.chain (upCfg_keeps _ _)
    | with_reducible apply Keeps.chain (localCompletion_keeps ..)
    | with_reducible apply Keeps.chain (readRsp_keeps ..)
    | with_reducible refine receive_keeps _ _ _ _ (fun _ _ => ?_) (by decide)
    | with_reducible apply Keeps.chain (writeAck_keeps ..)
    | split
    | dsimp only

theorem commitFlip_keeps (d : FlipDone) (s : State) : Keeps [.cache, .cfg, .msg, .log] s (State.commitFlip d s) := by
  unfold State.commitFlip
  repeat' first
    | with_reducible exact Keeps.refl _
    | with_reducible apply Keeps.ite
    | with_reducible apply Keeps.chain (upCfg_keeps _ _)
    | with_reducible apply Keeps.chain (endJob_keeps ..)
    | with_reducible apply Keeps.chain (record_keeps ..)
    | dsimp only

theorem setCfgJob_keeps (f : CfgJob → CfgJob) (s : State) : Keeps [.cfg] s (State.setCfgJob f s) := by
  unfold State.setCfgJob
  repeat' first
    | with_reducible exact Keeps.refl _
    | with_reducible apply Keeps.chain (upCfg_keeps _ _)

theorem stopForward_keeps (s : State) : Keeps [.cfg] s (State.stopForward s) := by
  unfold State.stopForward
  repeat' first
    | with_reducible exact Keeps.refl _
    | with_reducible apply Keeps.chain (upCfg_keeps _ _)

theorem heardIdentify_keeps (q : Mb14Out) (m : Mb14Resp) (s : State) : Keeps [.out, .cfg, .msg] s (State.heardIdentify q m s) := by
  unfold State.heardIdentify
  repeat' first
    | with_reducible exact Keeps.refl _
    | with_reducible apply Keeps.ite
    | with_reducible apply Keeps.chain (upMsg_keeps _ _)
    | with_reducible apply Keeps.chain (sendChunk_keeps ..)
    | with_reducible apply Keeps.chain (setCfgJob_keeps ..)
    | with_reducible apply Keeps.chain (stopForward_keeps ..)

theorem heardStage_keeps (q : Mb14Out) (m : Mb14Resp) (s : State) : Keeps [.out, .cfg, .msg] s (State.heardStage q m s) := by
  unfold State.heardStage
  repeat' first
    | with_reducible exact Keeps.refl _
    | with_reducible apply Keeps.ite
    | with_reducible apply Keeps.chain (upCfg_keeps _ _)
    | with_reducible apply Keeps.chain (askTwin_keeps ..)
    | with_reducible apply Keeps.chain (sendChunk_keeps ..)
    | with_reducible apply Keeps.chain (setCfgJob_keeps ..)
    | with_reducible apply Keeps.chain (stopForward_keeps ..)

theorem heardCheck_keeps (q : Mb14Out) (m : Mb14Resp) (s : State) : Keeps [.out, .cfg, .msg] s (State.heardCheck q m s) := by
  unfold State.heardCheck
  repeat' first
    | with_reducible exact Keeps.refl _
    | with_reducible apply Keeps.ite
    | with_reducible apply Keeps.chain (askTwinFrom_keeps ..)
    | with_reducible apply Keeps.chain (setCfgJob_keeps ..)

theorem heardJob_keeps (q : Mb14Out) (m : Mb14Resp) (s : State) : Keeps [.out, .cfg, .msg] s (State.heardJob q m s) := by
  unfold State.heardJob
  repeat' first
    | with_reducible exact Keeps.refl _
    | with_reducible apply Keeps.ite
    | with_reducible apply Keeps.chain (askTwinFrom_keeps ..)
    | with_reducible apply Keeps.chain (setCfgJob_keeps ..)
    | with_reducible apply Keeps.chain (take_keeps ..)
    | split
    | dsimp only

theorem heardSeed_keeps (q : Mb14Out) (b : List Byte) (s : State) : Keeps [.out, .cfg, .msg] s (State.heardSeed q b s) := by
  unfold State.heardSeed
  repeat' first
    | with_reducible exact Keeps.refl _
    | with_reducible apply Keeps.ite
    | with_reducible apply Keeps.chain (askTwinFrom_keeps ..)
    | with_reducible apply Keeps.chain (setCfgJob_keeps ..)
    | dsimp only

theorem fetchNext_keeps (s : State) : Keeps [.out, .msg] s (State.fetchNext s) := by
  unfold State.fetchNext
  repeat' first
    | with_reducible exact Keeps.refl _
    | with_reducible apply Keeps.ite
    | with_reducible apply Keeps.chain (askTwin_keeps ..)
    | split
    | dsimp only

theorem takeListing_keeps (b : List Byte) (s : State) : Keeps [.out, .cfg, .msg] s (State.takeListing b s) := by
  unfold State.takeListing
  repeat' first
    | with_reducible exact Keeps.refl _
    | with_reducible apply Keeps.chain (upCfg_keeps _ _)
    | with_reducible apply Keeps.chain (fetchNext_keeps ..)
    | dsimp only

theorem takePart_keeps (src sownAt : Nat) (b : List Byte) (s : State) : Keeps [.cache, .mem, .pts, .cfg, .gate] s (State.takePart src sownAt b s) := by
  unfold State.takePart
  repeat' first
    | with_reducible exact Keeps.refl _
    | with_reducible apply Keeps.ite
    | with_reducible apply Keeps.chain (upCfg_keeps _ _)
    | with_reducible apply Keeps.chain (freshPoints_keeps ..)
    | with_reducible apply Keeps.chain (installRules_keeps ..)
    | dsimp only

theorem heardPart_keeps (m : Mb14Resp) (s : State) : Keeps [.cache, .mem, .out, .pts, .cfg, .msg, .gate] s (State.heardPart m s) := by
  unfold State.heardPart
  repeat' first
    | with_reducible exact Keeps.refl _
    | with_reducible apply Keeps.ite
    | with_reducible apply Keeps.chain (upCfg_keeps _ _)
    | with_reducible apply Keeps.chain (askTwin_keeps ..)
    | with_reducible apply Keeps.chain (fetchNext_keeps ..)
    | with_reducible apply Keeps.chain (take_keeps ..)
    | with_reducible apply Keeps.chain (takeListing_keeps ..)
    | with_reducible apply Keeps.chain (takePart_keeps ..)
    | split
    | dsimp only

theorem heardStandbySlots_keeps (b : List Byte) (s : State) : Keeps [.out, .cfg, .msg] s (State.heardStandbySlots b s) := by
  unfold State.heardStandbySlots
  repeat' first
    | with_reducible exact Keeps.refl _
    | with_reducible apply Keeps.ite
    | with_reducible apply Keeps.chain (startForward_keeps ..)

theorem heardList_keeps (q : Mb14Out) (m : Mb14Resp) (s : State) : Keeps [.cache, .mem, .out, .pts, .cfg, .msg, .gate] s (State.heardList q m s) := by
  unfold State.heardList
  repeat' first
    | with_reducible exact Keeps.refl _
    | with_reducible apply Keeps.ite
    | with_reducible apply Keeps.chain (heardPart_keeps ..)
    | with_reducible apply Keeps.chain (heardSeed_keeps ..)
    | with_reducible apply Keeps.chain (heardStandbySlots_keeps ..)
    | with_reducible apply Keeps.chain (setCfgJob_keeps ..)
    | split

theorem heardMb14_keeps (m : Mb14Resp) (s : State) : Keeps [.cache, .mem, .out, .pts, .cfg, .msg, .gate, .sheaf] s (State.heardMb14 m s) := by
  unfold State.heardMb14
  repeat' first
    | with_reducible exact Keeps.refl _
    | with_reducible apply Keeps.ite
    | with_reducible apply Keeps.chain (upMsg_keeps _ _)
    | with_reducible apply Keeps.chain (upSheaf_keeps _ _)
    | with_reducible apply Keeps.chain (heardCheck_keeps ..)
    | with_reducible apply Keeps.chain (heardIdentify_keeps ..)
    | with_reducible apply Keeps.chain (heardJob_keeps ..)
    | with_reducible apply Keeps.chain (heardList_keeps ..)
    | with_reducible apply Keeps.chain (heardStage_keeps ..)
    | with_reducible apply Keeps.chain (invalidate_keeps ..)
    | split
    | dsimp only

theorem mb14TimeOut_keeps (id : Nat) (s : State) : Keeps [.cfg, .msg] s (State.mb14TimeOut id s) := by
  unfold State.mb14TimeOut
  repeat' first
    | with_reducible exact Keeps.refl _
    | with_reducible apply Keeps.ite
    | with_reducible apply Keeps.chain (upCfg_keeps _ _)
    | with_reducible apply Keeps.chain (upMsg_keeps _ _)
    | with_reducible apply Keeps.chain (endCfgJob_keeps ..)
    | split
    | dsimp only

theorem twinReports_keeps (m : Nat) (s : State) : Keeps [.cache, .out, .pair, .power, .cfg, .msg, .gate, .sheaf, .log] s (State.twinReports m s) := by
  unfold State.twinReports
  repeat' first
    | with_reducible exact Keeps.refl _
    | with_reducible apply Keeps.ite
    | with_reducible apply Keeps.chain (askTwin_keeps ..)
    | with_reducible apply Keeps.chain (hearMode_keeps ..)
    | with_reducible apply Keeps.chain (invalidate_keeps ..)
    | dsimp only

theorem copyBlock_keeps (b : CopyBlock) (s : State) : Keeps [.cache, .mem, .out, .time, .pair, .cnt, .power, .pts, .cyc, .sched, .cfg, .msg, .gate, .sheaf, .can, .log] s (State.copyBlock b s) := by
  unfold State.copyBlock
  repeat' first
    | with_reducible exact Keeps.refl _
    | with_reducible apply Keeps.chain (upCfg_keeps _ _)
    | with_reducible apply Keeps.chain (upTime_keeps _ _ (by first | rfl | (dsimp only; split <;> rfl) | (dsimp only; repeat' first | rfl | split)))
    | with_reducible apply Keeps.chain (copyMemory_keeps ..)
    | with_reducible apply Keeps.chain (copyOver_keeps ..)
    | with_reducible apply Keeps.chain (fetchNext_keeps ..)
    | with_reducible apply Keeps.chain (takeTables_keeps ..)
    | split

end Sys2Proof.Machine
end

