-- ==== Sys2Proof/Laws/ExecConfigs.lean ====
section
/-! SUPPORT. What the commands of Configs.lean may change. -/

set_option Elab.async false
set_option linter.all false

namespace Sys2Proof.Machine

theorem execCfgStage_keeps (t : Nat) (r : Req) (s : State) {s' : State} (h : execCfgStage t r s = .next s') : Keeps [.cache, .mem, .free, .out, .cfg, .msg, .gate, .log] (s.arrive t) s' := by
  unfold execCfgStage at h
  refine happens_keeps (fun u _ => ?_) h
  repeat' first
    | with_reducible exact Keeps.refl _
    | with_reducible apply Keeps.ite
    | (with_reducible refine Keeps.foldl ?_ (fun _ _ => ?_) _)
    | with_reducible apply Keeps.iteFst
    | with_reducible refine run_keeps _ _ _ _ (fun _ => ?_) (by decide)
    | with_reducible apply Keeps.chain (stageBody_keeps ..)
    | split
    | dsimp only

theorem execCfgStageJobEnd_keeps (t : Nat) (s : State) {s' : State} (h : execCfgStageJobEnd t s = .next s') : Keeps [.cache, .cfg, .msg, .log] (s.arrive t) s' := by
  unfold execCfgStageJobEnd at h
  refine happens_keeps (fun u _ => ?_) h
  repeat' first
    | with_reducible exact Keeps.refl _
    | with_reducible apply Keeps.ite
    | (with_reducible refine Keeps.foldl ?_ (fun _ _ => ?_) _)
    | with_reducible apply Keeps.iteFst
    | with_reducible apply Keeps.chain (endStage_keeps ..)
    | split
    | dsimp only

theorem execCfgCheck_keeps (t : Nat) (r : Req) (s : State) {s' : State} (h : execCfgCheck t r s = .next s') : Keeps [.cache, .mem, .free, .out, .fsp, .cfg, .msg, .gate, .log] (s.arrive t) s' := by
  unfold execCfgCheck at h
  refine happens_keeps (fun u _ => ?_) h
  repeat' first
    | with_reducible exact Keeps.refl _
    | with_reducible apply Keeps.ite
    | (with_reducible refine Keeps.foldl ?_ (fun _ _ => ?_) _)
    | with_reducible apply Keeps.iteFst
    | with_reducible refine run_keeps _ _ _ _ (fun _ => ?_) (by decide)
    | with_reducible apply Keeps.chain (checkBody_keeps ..)
    | split
    | dsimp only

theorem execCfgCheckJobEnd_keeps (t : Nat) (s : State) {s' : State} (h : execCfgCheckJobEnd t s = .next s') : Keeps [.cfg, .msg] (s.arrive t) s' := by
  unfold execCfgCheckJobEnd at h
  refine happens_keeps (fun u _ => ?_) h
  repeat' first
    | with_reducible exact Keeps.refl _
    | with_reducible apply Keeps.ite
    | (with_reducible refine Keeps.foldl ?_ (fun _ _ => ?_) _)
    | with_reducible apply Keeps.iteFst
    | with_reducible apply Keeps.chain (endCheck_keeps ..)
    | split
    | dsimp only

theorem execCfgFlip_keeps (t : Nat) (r : Req) (s : State) {s' : State} (h : execCfgFlip t r s = .next s') : Keeps [.cache, .mem, .free, .out, .time, .pair, .pts, .fsp, .sched, .cfg, .msg, .gate, .dio, .ua, .can, .log] (s.arrive t) s' := by
  unfold execCfgFlip at h
  refine happens_keeps (fun u _ => ?_) h
  repeat' first
    | with_reducible exact Keeps.refl _
    | with_reducible apply Keeps.ite
    | (with_reducible refine Keeps.foldl ?_ (fun _ _ => ?_) _)
    | with_reducible apply Keeps.iteFst
    | with_reducible refine run_keeps _ _ _ _ (fun _ => ?_) (by decide)
    | with_reducible apply Keeps.chain (flipBody_keeps ..)
    | split
    | dsimp only

theorem execCfgRevert_keeps (t : Nat) (r : Req) (s : State) {s' : State} (h : execCfgRevert t r s = .next s') : Keeps [.cache, .mem, .free, .out, .time, .pair, .pts, .fsp, .sched, .cfg, .msg, .gate, .dio, .ua, .can, .log] (s.arrive t) s' := by
  unfold execCfgRevert at h
  refine happens_keeps (fun u _ => ?_) h
  repeat' first
    | with_reducible exact Keeps.refl _
    | with_reducible apply Keeps.ite
    | (with_reducible refine Keeps.foldl ?_ (fun _ _ => ?_) _)
    | with_reducible apply Keeps.iteFst
    | with_reducible refine run_keeps _ _ _ _ (fun _ => ?_) (by decide)
    | with_reducible apply Keeps.chain (revertBody_keeps ..)
    | split
    | dsimp only

theorem execCfgList_keeps (t : Nat) (r : Req) (s : State) {s' : State} (h : execCfgList t r s = .next s') : Keeps [.cache, .mem, .free, .out, .msg, .gate, .log] (s.arrive t) s' := by
  unfold execCfgList at h
  refine happens_keeps (fun u _ => ?_) h
  repeat' first
    | with_reducible exact Keeps.refl _
    | with_reducible apply Keeps.ite
    | (with_reducible refine Keeps.foldl ?_ (fun _ _ => ?_) _)
    | with_reducible apply Keeps.iteFst
    | with_reducible refine run_keeps _ _ _ _ (fun _ => ?_) (by decide)
    | with_reducible apply Keeps.chain (listBody_keeps ..)
    | split
    | dsimp only

theorem execFlipArmCheck_keeps (t : Nat) (s : State) {s' : State} (h : execFlipArmCheck t s = .next s') : Keeps [.out, .pair, .fsp, .cfg, .msg] (s.arrive t) s' := by
  unfold execFlipArmCheck at h
  refine happens_keeps (fun u _ => ?_) h
  repeat' first
    | with_reducible exact Keeps.refl _
    | with_reducible apply Keeps.ite
    | (with_reducible refine Keeps.foldl ?_ (fun _ _ => ?_) _)
    | with_reducible apply Keeps.iteFst
    | with_reducible apply Keeps.chain (checkFlip_keeps ..)
    | split
    | dsimp only

theorem execFlipGo_keeps (t : Nat) (s : State) {s' : State} (h : execFlipGo t s = .next s') : Keeps [.cfg] (s.arrive t) s' := by
  unfold execFlipGo at h
  refine happens_keeps (fun u _ => ?_) h
  repeat' first
    | with_reducible exact Keeps.refl _
    | with_reducible apply Keeps.ite
    | (with_reducible refine Keeps.foldl ?_ (fun _ _ => ?_) _)
    | with_reducible apply Keeps.iteFst
    | with_reducible apply Keeps.chain (upCfg_keeps _ _)
    | split
    | dsimp only

theorem execFlipBoundary_keeps (t : Nat) (s : State) {s' : State} (h : execFlipBoundary t s = .next s') : Keeps [.cache, .mem, .out, .time, .cnt, .pts, .cyc, .fsp, .sched, .cfg, .gate, .dio, .ua, .can, .log] (s.arrive t) s' := by
  unfold execFlipBoundary at h
  refine happens_keeps (fun u _ => ?_) h
  repeat' first
    | with_reducible exact Keeps.refl _
    | with_reducible apply Keeps.ite
    | (with_reducible refine Keeps.foldl ?_ (fun _ _ => ?_) _)
    | with_reducible apply Keeps.iteFst
    | with_reducible apply Keeps.chain (flipAt_keeps ..)
    | split
    | dsimp only

theorem execChangeSetWritten_keeps (t : Nat) (s : State) {s' : State} (h : execChangeSetWritten t s = .next s') : Keeps [.cache, .mem, .out, .time, .pair, .cnt, .power, .pts, .cyc, .fsp, .sched, .cfg, .msg, .gate, .sheaf, .dio, .ua, .can, .log] (s.arrive t) s' := by
  unfold execChangeSetWritten at h
  refine happens_keeps (fun u _ => ?_) h
  repeat' first
    | with_reducible exact Keeps.refl _
    | with_reducible apply Keeps.ite
    | (with_reducible refine Keeps.foldl ?_ (fun _ _ => ?_) _)
    | with_reducible apply Keeps.iteFst
    | with_reducible apply Keeps.chain (writeChangeSet_keeps ..)
    | split
    | dsimp only

theorem execSnapshotCommit_keeps (t : Nat) (s : State) {s' : State} (h : execSnapshotCommit t s = .next s') : Keeps [.cache, .cfg, .msg, .log] (s.arrive t) s' := by
  unfold execSnapshotCommit at h
  refine happens_keeps (fun u _ => ?_) h
  repeat' first
    | with_reducible exact Keeps.refl _
    | with_reducible apply Keeps.ite
    | (with_reducible refine Keeps.foldl ?_ (fun _ _ => ?_) _)
    | with_reducible apply Keeps.iteFst
    | with_reducible apply Keeps.chain (commitFlip_keeps ..)
    | split
    | dsimp only

theorem execFlipArming_keeps (t version cycle : Nat) (s : State) {s' : State} (h : execFlipArming t version cycle s = .next s') : Keeps [.out, .cfg] (s.arrive t) s' := by
  unfold execFlipArming at h
  refine happens_keeps (fun u _ => ?_) h
  repeat' first
    | with_reducible exact Keeps.refl _
    | with_reducible apply Keeps.ite
    | (with_reducible refine Keeps.foldl ?_ (fun _ _ => ?_) _)
    | with_reducible apply Keeps.iteFst
    | with_reducible apply Keeps.chain (emit_keeps _ _)
    | with_reducible apply Keeps.chain (followFlip_keeps ..)
    | split
    | dsimp only

theorem execFlipArmed_keeps (t : Nat) (s : State) {s' : State} (h : execFlipArmed t s = .next s') : Keeps [.cfg] (s.arrive t) s' := by
  unfold execFlipArmed at h
  refine happens_keeps (fun u _ => ?_) h
  repeat' first
    | with_reducible exact Keeps.refl _
    | with_reducible apply Keeps.ite
    | (with_reducible refine Keeps.foldl ?_ (fun _ _ => ?_) _)
    | with_reducible apply Keeps.iteFst
    | with_reducible apply Keeps.chain (upCfg_keeps _ _)
    | split
    | dsimp only

theorem execMb14Response_keeps (t : Nat) (m : Mb14Resp) (s : State) {s' : State} (h : execMb14Response t m s = .next s') : Keeps [.cache, .mem, .out, .pts, .cfg, .msg, .gate, .sheaf] (s.arrive t) s' := by
  unfold execMb14Response at h
  refine happens_keeps (fun u _ => ?_) h
  repeat' first
    | with_reducible exact Keeps.refl _
    | with_reducible apply Keeps.ite
    | (with_reducible refine Keeps.foldl ?_ (fun _ _ => ?_) _)
    | with_reducible apply Keeps.iteFst
    | with_reducible apply Keeps.chain (heardMb14_keeps ..)
    | split
    | dsimp only

theorem execMb14Timeout_keeps (t id : Nat) (s : State) {s' : State} (h : execMb14Timeout t id s = .next s') : Keeps [.cfg, .msg] (s.arrive t) s' := by
  unfold execMb14Timeout at h
  refine happens_keeps (fun u _ => ?_) h
  repeat' first
    | with_reducible exact Keeps.refl _
    | with_reducible apply Keeps.ite
    | (with_reducible refine Keeps.foldl ?_ (fun _ _ => ?_) _)
    | with_reducible apply Keeps.iteFst
    | with_reducible apply Keeps.chain (mb14TimeOut_keeps ..)
    | split
    | dsimp only

theorem execSyncingCopyBlock_keeps (t : Nat) (b : CopyBlock) (s : State) {s' : State} (h : execSyncingCopyBlock t b s = .next s') : Keeps [.cache, .mem, .out, .time, .pair, .cnt, .power, .pts, .cyc, .sched, .cfg, .msg, .gate, .sheaf, .can, .log] (s.arrive t) s' := by
  unfold execSyncingCopyBlock at h
  refine happens_keeps (fun u _ => ?_) h
  repeat' first
    | with_reducible exact Keeps.refl _
    | with_reducible apply Keeps.ite
    | (with_reducible refine Keeps.foldl ?_ (fun _ _ => ?_) _)
    | with_reducible apply Keeps.iteFst
    | with_reducible apply Keeps.chain (copyBlock_keeps ..)
    | split
    | dsimp only

theorem execTwinModeReport_keeps (t m : Nat) (s : State) {s' : State} (h : execTwinModeReport t m s = .next s') : Keeps [.cache, .out, .pair, .power, .cfg, .msg, .gate, .sheaf, .log] (s.arrive t) s' := by
  unfold execTwinModeReport at h
  refine happens_keeps (fun u _ => ?_) h
  repeat' first
    | with_reducible exact Keeps.refl _
    | with_reducible apply Keeps.ite
    | (with_reducible refine Keeps.foldl ?_ (fun _ _ => ?_) _)
    | with_reducible apply Keeps.iteFst
    | with_reducible apply Keeps.chain (twinReports_keeps ..)
    | split
    | dsimp only

end Sys2Proof.Machine
end

