-- ==== Sys2Proof/Laws/ExecCycles.lean ====
section
/-! SUPPORT. What the commands of Cycles.lean may change. -/

set_option Elab.async false
set_option linter.all false

namespace Sys2Proof.Machine

theorem execCycleStart_keeps (t cls : Nat) (s : State) {s' : State} (h : execCycleStart t cls s = .next s') : Keeps [.cache, .mem, .free, .out, .pts, .cyc, .fsp, .lock, .ua, .can] (s.arrive t) s' := by
  unfold execCycleStart at h
  refine happens_keeps (fun u _ => ?_) h
  repeat' first
    | with_reducible exact Keeps.refl _
    | with_reducible apply Keeps.ite
    | (with_reducible refine Keeps.foldl ?_ (fun _ _ => ?_) _)
    | with_reducible apply Keeps.iteFst
    | with_reducible apply Keeps.chain (startCycle_keeps ..)
    | split
    | dsimp only

theorem execReadRetryTimeout_keeps (t tag : Nat) (s : State) {s' : State} (h : execReadRetryTimeout t tag s = .next s') : Keeps [.out, .cyc, .fsp] (s.arrive t) s' := by
  unfold execReadRetryTimeout at h
  refine happens_keeps (fun u _ => ?_) h
  repeat' first
    | with_reducible exact Keeps.refl _
    | with_reducible apply Keeps.ite
    | (with_reducible refine Keeps.foldl ?_ (fun _ _ => ?_) _)
    | with_reducible apply Keeps.iteFst
    | with_reducible apply Keeps.chain (retryRead_keeps ..)
    | split
    | dsimp only

theorem execReadRsp_keeps (t : Nat) (f : RxFrame) (s : State) {s' : State} (h : execReadRsp t f s = .next s') : Keeps [.cache, .mem, .out, .pair, .cnt, .power, .pts, .cyc, .fsp, .sched, .cfg, .msg, .gate, .sheaf, .dio, .ua, .can, .log] (s.arrive t) s' := by
  unfold execReadRsp at h
  refine happens_keeps (fun u _ => ?_) h
  repeat' first
    | with_reducible exact Keeps.refl _
    | with_reducible apply Keeps.ite
    | (with_reducible refine Keeps.foldl ?_ (fun _ _ => ?_) _)
    | with_reducible apply Keeps.iteFst
    | with_reducible refine heldBack_keeps _ _ _ (fun _ => ?_) (by decide)
    | with_reducible apply Keeps.chain (readRsp_keeps ..)
    | with_reducible refine receive_keeps _ _ _ _ (fun _ _ => ?_) (by decide)
    | split
    | dsimp only

theorem execLocalCompletion_keeps (t offset status : Nat) (item : List Word) (s : State) {s' : State} (h : execLocalCompletion t offset status item s = .next s') : Keeps [.cache, .mem, .time, .pts, .cyc, .cfg] (s.arrive t) s' := by
  unfold execLocalCompletion at h
  refine happens_keeps (fun u _ => ?_) h
  repeat' first
    | with_reducible exact Keeps.refl _
    | with_reducible apply Keeps.ite
    | (with_reducible refine Keeps.foldl ?_ (fun _ _ => ?_) _)
    | with_reducible apply Keeps.iteFst
    | with_reducible refine heldBack_keeps _ _ _ (fun _ => ?_) (by decide)
    | with_reducible apply Keeps.chain (localCompletion_keeps ..)
    | split
    | dsimp only

theorem execPublication_keeps (t cls : Nat) (s : State) {s' : State} (h : execPublication t cls s = .next s') : Keeps [.cache, .mem, .out, .pair, .cnt, .power, .pts, .cyc, .fsp, .sched, .cfg, .msg, .gate, .sheaf, .dio, .ua, .can, .log] (s.arrive t) s' := by
  unfold execPublication at h
  refine happens_keeps (fun u _ => ?_) h
  repeat' first
    | with_reducible exact Keeps.refl _
    | with_reducible apply Keeps.ite
    | (with_reducible refine Keeps.foldl ?_ (fun _ _ => ?_) _)
    | with_reducible apply Keeps.iteFst
    | with_reducible apply Keeps.chain (publish_keeps ..)
    | split
    | dsimp only

theorem execTaskEnd_keeps (t cls : Nat) (foldDiffers : Option Nat) (dirtyPages : List Nat) (s : State) {s' : State} (h : execTaskEnd t cls foldDiffers dirtyPages s = .next s') : Keeps [.cache, .mem, .free, .out, .pair, .cnt, .power, .pts, .cyc, .fsp, .sched, .lock, .cfg, .msg, .gate, .sheaf, .dio, .ua, .can, .log] (s.arrive t) s' := by
  unfold execTaskEnd at h
  refine happens_keeps (fun u _ => ?_) h
  repeat' first
    | with_reducible exact Keeps.refl _
    | with_reducible apply Keeps.ite
    | (with_reducible refine Keeps.foldl ?_ (fun _ _ => ?_) _)
    | with_reducible apply Keeps.iteFst
    | with_reducible apply Keeps.chain (endTask_keeps ..)
    | split
    | dsimp only

theorem execOutputCutoff_keeps (t cls : Nat) (s : State) {s' : State} (h : execOutputCutoff t cls s = .next s') : Keeps [.cache, .mem, .out, .pair, .cnt, .power, .pts, .cyc, .fsp, .sched, .cfg, .msg, .gate, .sheaf, .dio, .ua, .can, .log] (s.arrive t) s' := by
  unfold execOutputCutoff at h
  refine happens_keeps (fun u _ => ?_) h
  repeat' first
    | with_reducible exact Keeps.refl _
    | with_reducible apply Keeps.ite
    | (with_reducible refine Keeps.foldl ?_ (fun _ _ => ?_) _)
    | with_reducible apply Keeps.iteFst
    | with_reducible apply Keeps.chain (overrunAt_keeps ..)
    | split
    | dsimp only

theorem execWriteRetryTimeout_keeps (t tag : Nat) (s : State) {s' : State} (h : execWriteRetryTimeout t tag s = .next s') : Keeps [.out, .cyc, .fsp] (s.arrive t) s' := by
  unfold execWriteRetryTimeout at h
  refine happens_keeps (fun u _ => ?_) h
  repeat' first
    | with_reducible exact Keeps.refl _
    | with_reducible apply Keeps.ite
    | (with_reducible refine Keeps.foldl ?_ (fun _ _ => ?_) _)
    | with_reducible apply Keeps.iteFst
    | with_reducible apply Keeps.chain (retryWrite_keeps ..)
    | split
    | dsimp only

theorem execWriteAck_keeps (t : Nat) (f : RxFrame) (s : State) {s' : State} (h : execWriteAck t f s = .next s') : Keeps [.cache, .mem, .out, .pair, .cnt, .power, .cyc, .fsp, .sched, .cfg, .msg, .gate, .sheaf, .dio, .ua, .can, .log] (s.arrive t) s' := by
  unfold execWriteAck at h
  refine happens_keeps (fun u _ => ?_) h
  repeat' first
    | with_reducible exact Keeps.refl _
    | with_reducible apply Keeps.ite
    | (with_reducible refine Keeps.foldl ?_ (fun _ _ => ?_) _)
    | with_reducible apply Keeps.iteFst
    | with_reducible refine heldBack_keeps _ _ _ (fun _ => ?_) (by decide)
    | with_reducible refine receive_keeps _ _ _ _ (fun _ _ => ?_) (by decide)
    | with_reducible apply Keeps.chain (writeAck_keeps ..)
    | split
    | dsimp only

theorem execPeer_keeps (t : Nat) (f : RxFrame) (s : State) {s' : State} (h : execPeer t f s = .next s') : Keeps [.cache, .out, .pair, .cnt, .power, .pts, .cyc, .fsp, .sched, .cfg, .msg, .gate, .sheaf, .dio, .ua, .can, .log] (s.arrive t) s' := by
  unfold execPeer at h
  refine happens_keeps (fun u _ => ?_) h
  repeat' first
    | with_reducible exact Keeps.refl _
    | with_reducible apply Keeps.ite
    | (with_reducible refine Keeps.foldl ?_ (fun _ _ => ?_) _)
    | with_reducible apply Keeps.iteFst
    | with_reducible apply Keeps.chain (peerFrame_keeps ..)
    | with_reducible refine receive_keeps _ _ _ _ (fun _ _ => ?_) (by decide)
    | split
    | dsimp only

theorem execBindRetryTimeout_keeps (t station : Nat) (s : State) {s' : State} (h : execBindRetryTimeout t station s = .next s') : Keeps [.cache, .out, .fsp, .log] (s.arrive t) s' := by
  unfold execBindRetryTimeout at h
  refine happens_keeps (fun u _ => ?_) h
  repeat' first
    | with_reducible exact Keeps.refl _
    | with_reducible apply Keeps.ite
    | (with_reducible refine Keeps.foldl ?_ (fun _ _ => ?_) _)
    | with_reducible apply Keeps.iteFst
    | with_reducible apply Keeps.chain (retryBind_keeps ..)
    | split
    | dsimp only

theorem execAnnounceBound_keeps (t : Nat) (f : RxFrame) (s : State) {s' : State} (h : execAnnounceBound t f s = .next s') : Keeps [.cache, .out, .pair, .cnt, .power, .cyc, .fsp, .sched, .cfg, .msg, .gate, .sheaf, .dio, .ua, .can, .log] (s.arrive t) s' := by
  unfold execAnnounceBound at h
  refine happens_keeps (fun u _ => ?_) h
  repeat' first
    | with_reducible exact Keeps.refl _
    | with_reducible apply Keeps.ite
    | (with_reducible refine Keeps.foldl ?_ (fun _ _ => ?_) _)
    | with_reducible apply Keeps.iteFst
    | with_reducible apply Keeps.chain (bound_keeps ..)
    | with_reducible refine receive_keeps _ _ _ _ (fun _ _ => ?_) (by decide)
    | split
    | dsimp only

theorem execAnnounceStart_keeps (t : Nat) (f : RxFrame) (s : State) {s' : State} (h : execAnnounceStart t f s = .next s') : Keeps [.cache, .out, .pair, .cnt, .power, .cyc, .fsp, .sched, .cfg, .msg, .gate, .sheaf, .dio, .ua, .can, .log] (s.arrive t) s' := by
  unfold execAnnounceStart at h
  refine happens_keeps (fun u _ => ?_) h
  repeat' first
    | with_reducible exact Keeps.refl _
    | with_reducible apply Keeps.ite
    | (with_reducible refine Keeps.foldl ?_ (fun _ _ => ?_) _)
    | with_reducible apply Keeps.iteFst
    | with_reducible refine receive_keeps _ _ _ _ (fun _ _ => ?_) (by decide)
    | with_reducible apply Keeps.chain (started_keeps ..)
    | split
    | dsimp only

theorem execPointWrite_keeps (t handle : Nat) (value : Word) (s : State) {s' : State} (h : execPointWrite t handle value s = .next s') : Keeps [.cache, .mem, .out, .pts] (s.arrive t) s' := by
  unfold execPointWrite at h
  refine happens_keeps (fun u _ => ?_) h
  repeat' first
    | with_reducible exact Keeps.refl _
    | with_reducible apply Keeps.ite
    | (with_reducible refine Keeps.foldl ?_ (fun _ _ => ?_) _)
    | with_reducible apply Keeps.iteFst
    | with_reducible apply Keeps.chain (pointWrite_keeps ..)
    | split
    | dsimp only

theorem execPointReadCall_keeps (t handle : Nat) (s : State) {s' : State} (h : execPointReadCall t handle s = .next s') : Keeps [.out, .pts] (s.arrive t) s' := by
  unfold execPointReadCall at h
  refine happens_keeps (fun u _ => ?_) h
  repeat' first
    | with_reducible exact Keeps.refl _
    | with_reducible apply Keeps.ite
    | (with_reducible refine Keeps.foldl ?_ (fun _ _ => ?_) _)
    | with_reducible apply Keeps.iteFst
    | with_reducible apply Keeps.chain (pointReadCall_keeps ..)
    | split
    | dsimp only

theorem execStampBlockRead_keeps (t handle : Nat) (s : State) {s' : State} (h : execStampBlockRead t handle s = .next s') : Keeps [.out, .pts] (s.arrive t) s' := by
  unfold execStampBlockRead at h
  refine happens_keeps (fun u _ => ?_) h
  repeat' first
    | with_reducible exact Keeps.refl _
    | with_reducible apply Keeps.ite
    | (with_reducible refine Keeps.foldl ?_ (fun _ _ => ?_) _)
    | with_reducible apply Keeps.iteFst
    | with_reducible apply Keeps.chain (slotRead_keeps ..)
    | split
    | dsimp only

theorem execEpochRead_keeps (t ownCls cls : Nat) (handles : List Nat) (s : State) {s' : State} (h : execEpochRead t ownCls cls handles s = .next s') : Keeps [.out, .cyc] (s.arrive t) s' := by
  unfold execEpochRead at h
  refine happens_keeps (fun u _ => ?_) h
  repeat' first
    | with_reducible exact Keeps.refl _
    | with_reducible apply Keeps.ite
    | (with_reducible refine Keeps.foldl ?_ (fun _ _ => ?_) _)
    | with_reducible apply Keeps.iteFst
    | with_reducible apply Keeps.chain (epochRead_keeps ..)
    | split
    | dsimp only

end Sys2Proof.Machine
end

