-- ==== Sys2Proof/Laws/ExecDigital.lean ====
section
/-! SUPPORT. What the commands of Digital.lean may change. -/

set_option Elab.async false
set_option linter.all false

namespace Sys2Proof.Machine

theorem execSequencerUpdate_keeps (t fe : Nat) (valid : Bool) (s : State) {s' : State} (h : execSequencerUpdate t fe valid s = .next s') : Keeps [.dio, .ua] (s.arrive t) s' := by
  unfold execSequencerUpdate at h
  refine happens_keeps (fun u _ => ?_) h
  repeat' first
    | with_reducible exact Keeps.refl _
    | with_reducible apply Keeps.ite
    | (with_reducible refine Keeps.foldl ?_ (fun _ _ => ?_) _)
    | with_reducible apply Keeps.iteFst
    | with_reducible apply Keeps.chain (sequencerUpdate_keeps ..)
    | split
    | dsimp only

theorem execOutputApply_keeps (t offset status : Nat) (measured : Raw) (s : State) {s' : State} (h : execOutputApply t offset status measured s = .next s') : Keeps [.cache, .mem, .cnt, .dio, .ua] (s.arrive t) s' := by
  unfold execOutputApply at h
  refine happens_keeps (fun u _ => ?_) h
  repeat' first
    | with_reducible exact Keeps.refl _
    | with_reducible apply Keeps.ite
    | (with_reducible refine Keeps.foldl ?_ (fun _ _ => ?_) _)
    | with_reducible apply Keeps.iteFst
    | with_reducible apply Keeps.chain (applyDio_keeps ..)
    | with_reducible apply Keeps.chain (applyUa_keeps ..)
    | split
    | dsimp only

theorem execSilenceTimeout_keeps (t fe : Nat) (s : State) {s' : State} (h : execSilenceTimeout t fe s = .next s') : Keeps [.dio, .ua] (s.arrive t) s' := by
  unfold execSilenceTimeout at h
  refine happens_keeps (fun u _ => ?_) h
  repeat' first
    | with_reducible exact Keeps.refl _
    | with_reducible apply Keeps.ite
    | (with_reducible refine Keeps.foldl ?_ (fun _ _ => ?_) _)
    | with_reducible apply Keeps.iteFst
    | with_reducible apply Keeps.chain (silenceTrip_keeps ..)
    | split
    | dsimp only

theorem execWireBreakDetect_keeps (t ch : Nat) (broken : Bool) (s : State) {s' : State} (h : execWireBreakDetect t ch broken s = .next s') : Keeps [.dio] (s.arrive t) s' := by
  unfold execWireBreakDetect at h
  refine happens_keeps (fun u _ => ?_) h
  repeat' first
    | with_reducible exact Keeps.refl _
    | with_reducible apply Keeps.ite
    | (with_reducible refine Keeps.foldl ?_ (fun _ _ => ?_) _)
    | with_reducible apply Keeps.iteFst
    | with_reducible apply Keeps.chain (setWireBreak_keeps ..)
    | split
    | dsimp only

theorem execOverload_keeps (t ch : Nat) (cleared : Bool) (s : State) {s' : State} (h : execOverload t ch cleared s = .next s') : Keeps [.cache, .dio, .log] (s.arrive t) s' := by
  unfold execOverload at h
  refine happens_keeps (fun u _ => ?_) h
  repeat' first
    | with_reducible exact Keeps.refl _
    | with_reducible apply Keeps.ite
    | (with_reducible refine Keeps.foldl ?_ (fun _ _ => ?_) _)
    | with_reducible apply Keeps.iteFst
    | with_reducible apply Keeps.chain (overload_keeps ..)
    | split
    | dsimp only

theorem execAggregateLimit_keeps (t ma : Nat) (s : State) {s' : State} (h : execAggregateLimit t ma s = .next s') : Keeps [.cache, .dio, .log] (s.arrive t) s' := by
  unfold execAggregateLimit at h
  refine happens_keeps (fun u _ => ?_) h
  repeat' first
    | with_reducible exact Keeps.refl _
    | with_reducible apply Keeps.ite
    | (with_reducible refine Keeps.foldl ?_ (fun _ _ => ?_) _)
    | with_reducible apply Keeps.iteFst
    | with_reducible apply Keeps.chain (aggregate_keeps ..)
    | split
    | dsimp only

theorem execMismatch_keeps (t ch : Nat) (differ : Bool) (s : State) {s' : State} (h : execMismatch t ch differ s = .next s') : Keeps [.cache, .dio, .log] (s.arrive t) s' := by
  unfold execMismatch at h
  refine happens_keeps (fun u _ => ?_) h
  repeat' first
    | with_reducible exact Keeps.refl _
    | with_reducible apply Keeps.ite
    | (with_reducible refine Keeps.foldl ?_ (fun _ _ => ?_) _)
    | with_reducible apply Keeps.iteFst
    | with_reducible apply Keeps.chain (overload_keeps ..)
    | with_reducible apply Keeps.chain (setMismatch_keeps ..)
    | split
    | dsimp only

theorem execFldLost_keeps (t : Nat) (lost : Bool) (mv : Nat) (s : State) {s' : State} (h : execFldLost t lost mv s = .next s') : Keeps [.cache, .dio, .log] (s.arrive t) s' := by
  unfold execFldLost at h
  refine happens_keeps (fun u _ => ?_) h
  repeat' first
    | with_reducible exact Keeps.refl _
    | with_reducible apply Keeps.ite
    | (with_reducible refine Keeps.foldl ?_ (fun _ _ => ?_) _)
    | with_reducible apply Keeps.iteFst
    | with_reducible apply Keeps.chain (setFld_keeps ..)
    | split
    | dsimp only

end Sys2Proof.Machine
end

