-- ==== Sys2Proof/Laws/KeepDisplay.lean ====
section
/-! SUPPORT. What the operations of Display.lean may change; each keeps the form of a state and the instant. -/

set_option Elab.async false
set_option linter.all false

namespace Sys2Proof.Machine

theorem fullRefresh_keeps (lines : List (List Byte)) (s : State) : Keeps [.free, .out, .disp] s (State.fullRefresh lines s) := by
  unfold State.fullRefresh
  repeat' first
    | with_reducible exact Keeps.refl _
    | with_reducible apply Keeps.chain (emit_keeps _ _)
    | with_reducible apply Keeps.chain (upDisp_keeps _ _)
    | with_reducible apply Keeps.chain (useFree_keeps _)

theorem partialUpdate_keeps (lines : List (List Byte)) (s : State) : Keeps [.free, .out, .disp] s (State.partialUpdate lines s) := by
  unfold State.partialUpdate
  repeat' first
    | with_reducible exact Keeps.refl _
    | with_reducible apply Keeps.ite
    | with_reducible apply Keeps.chain (emit_keeps _ _)
    | with_reducible apply Keeps.chain (upDisp_keeps _ _)
    | with_reducible apply Keeps.chain (useFree_keeps _)

theorem balance_keeps (n : Nat) (s : State) : Keeps [.out, .disp] s (State.balance n s) := by
  unfold State.balance
  repeat' first
    | with_reducible exact Keeps.refl _
    | with_reducible apply Keeps.chain (emit_keeps _ _)
    | with_reducible apply Keeps.chain (upDisp_keeps _ _)
    | dsimp only

theorem updateDisplay_keeps (s : State) : Keeps [.free, .out, .disp] s (State.updateDisplay s) := by
  unfold State.updateDisplay
  repeat' first
    | with_reducible exact Keeps.refl _
    | with_reducible apply Keeps.ite
    | with_reducible apply Keeps.chain (balance_keeps ..)
    | with_reducible apply Keeps.chain (fullRefresh_keeps ..)
    | with_reducible apply Keeps.chain (partialUpdate_keeps ..)
    | split

end Sys2Proof.Machine
end

