-- ==== Sys2Proof/Laws/ExecDisplay.lean ====
section
/-! SUPPORT. What the commands of Display.lean may change. -/

set_option Elab.async false
set_option linter.all false

namespace Sys2Proof.Machine

theorem execDisplayUpdate_keeps (t : Nat) (s : State) {s' : State} (h : execDisplayUpdate t s = .next s') : Keeps [.free, .out, .disp] (s.arrive t) s' := by
  unfold execDisplayUpdate at h
  refine happens_keeps (fun u _ => ?_) h
  repeat' first
    | with_reducible exact Keeps.refl _
    | with_reducible apply Keeps.ite
    | (with_reducible refine Keeps.foldl ?_ (fun _ _ => ?_) _)
    | with_reducible apply Keeps.iteFst
    | with_reducible apply Keeps.chain (updateDisplay_keeps ..)
    | split
    | dsimp only

theorem execWaveformEnd_keeps (t : Nat) (s : State) {s' : State} (h : execWaveformEnd t s = .next s') : Keeps [.disp] (s.arrive t) s' := by
  unfold execWaveformEnd at h
  refine happens_keeps (fun u _ => ?_) h
  repeat' first
    | with_reducible exact Keeps.refl _
    | with_reducible apply Keeps.ite
    | (with_reducible refine Keeps.foldl ?_ (fun _ _ => ?_) _)
    | with_reducible apply Keeps.iteFst
    | with_reducible apply Keeps.chain (upDisp_keeps _ _)
    | split
    | dsimp only

theorem execRailDischargeDone_keeps (t : Nat) (s : State) {s' : State} (h : execRailDischargeDone t s = .next s') : Keeps [.disp] (s.arrive t) s' := by
  unfold execRailDischargeDone at h
  refine happens_keeps (fun u _ => ?_) h
  repeat' first
    | with_reducible exact Keeps.refl _
    | with_reducible apply Keeps.ite
    | (with_reducible refine Keeps.foldl ?_ (fun _ _ => ?_) _)
    | with_reducible apply Keeps.iteFst
    | with_reducible apply Keeps.chain (upDisp_keeps _ _)
    | split
    | dsimp only

theorem execPanelTemperatureRead_keeps (t : Nat) (tenths : Int) (s : State) {s' : State} (h : execPanelTemperatureRead t tenths s = .next s') : Keeps [.disp] (s.arrive t) s' := by
  unfold execPanelTemperatureRead at h
  refine happens_keeps (fun u _ => ?_) h
  repeat' first
    | with_reducible exact Keeps.refl _
    | with_reducible apply Keeps.ite
    | (with_reducible refine Keeps.foldl ?_ (fun _ _ => ?_) _)
    | with_reducible apply Keeps.iteFst
    | with_reducible apply Keeps.chain (upDisp_keeps _ _)
    | split
    | dsimp only

theorem execLedgerSave_keeps (t : Nat) (s : State) {s' : State} (h : execLedgerSave t s = .next s') : Keeps [.disp] (s.arrive t) s' := by
  unfold execLedgerSave at h
  refine happens_keeps (fun u _ => ?_) h
  repeat' first
    | with_reducible exact Keeps.refl _
    | with_reducible apply Keeps.ite
    | (with_reducible refine Keeps.foldl ?_ (fun _ _ => ?_) _)
    | with_reducible apply Keeps.iteFst
    | with_reducible apply Keeps.chain (upDisp_keeps _ _)
    | split
    | dsimp only

end Sys2Proof.Machine
end

