-- ==== Sys2Proof/Laws/ExecFrames.lean ====
section
/-! SUPPORT. What the commands of Frames.lean may change. -/

set_option Elab.async false
set_option linter.all false

namespace Sys2Proof.Machine

theorem execForeignFrame_keeps (t : Nat) (f : RxFrame) (s : State) {s' : State} (h : execForeignFrame t f s = .next s') : Keeps [.fsp] (s.arrive t) s' := by
  unfold execForeignFrame at h
  refine happens_keeps (fun u _ => ?_) h
  repeat' first
    | with_reducible exact Keeps.refl _
    | with_reducible apply Keeps.ite
    | (with_reducible refine Keeps.foldl ?_ (fun _ _ => ?_) _)
    | with_reducible apply Keeps.iteFst
    | with_reducible apply Keeps.chain (fspCount_keeps ..)
    | split
    | dsimp only

theorem execRecoveryReset_keeps (t port source dest : Nat) (s : State) {s' : State} (h : execRecoveryReset t port source dest s = .next s') : Keeps [.fsp] (s.arrive t) s' := by
  unfold execRecoveryReset at h
  refine happens_keeps (fun u _ => ?_) h
  repeat' first
    | with_reducible exact Keeps.refl _
    | with_reducible apply Keeps.ite
    | (with_reducible refine Keeps.foldl ?_ (fun _ _ => ?_) _)
    | with_reducible apply Keeps.iteFst
    | with_reducible apply Keeps.chain (upFsp_keeps _ _)
    | split
    | dsimp only

end Sys2Proof.Machine
end

