-- ==== Sys2Proof/Laws/ExecLock.lean ====
section
/-! SUPPORT. What the commands of Lock.lean may change. -/

set_option Elab.async false
set_option linter.all false

namespace Sys2Proof.Machine

theorem execLockstepFault_keeps (t cp : Nat) (f : LockFinding) (group : Nat) (s : State) {s' : State} (h : execLockstepFault t cp f group s = .next s') : Keeps [.cache, .out, .pair, .power, .cyc, .sched, .lock, .cfg, .msg, .gate, .sheaf, .dio, .ua, .can, .log] (s.arrive t) s' := by
  unfold execLockstepFault at h
  refine happens_keeps (fun u _ => ?_) h
  repeat' first
    | with_reducible exact Keeps.refl _
    | with_reducible apply Keeps.ite
    | (with_reducible refine Keeps.foldl ?_ (fun _ _ => ?_) _)
    | with_reducible apply Keeps.iteFst
    | with_reducible apply Keeps.chain (lockFault_keeps ..)
    | split
    | dsimp only

theorem execComparatorSelfTest_keeps (t : Nat) (failed : Option Nat) (s : State) {s' : State} (h : execComparatorSelfTest t failed s = .next s') : Keeps [.cache, .out, .pair, .cnt, .power, .cyc, .sched, .lock, .cfg, .msg, .gate, .sheaf, .dio, .ua, .can, .log] (s.arrive t) s' := by
  unfold execComparatorSelfTest at h
  refine happens_keeps (fun u _ => ?_) h
  repeat' first
    | with_reducible exact Keeps.refl _
    | with_reducible apply Keeps.ite
    | (with_reducible refine Keeps.foldl ?_ (fun _ _ => ?_) _)
    | with_reducible apply Keeps.iteFst
    | with_reducible apply Keeps.chain (selfTest_keeps ..)
    | split
    | dsimp only

theorem execLbistStart_keeps (t : Nat) (s : State) {s' : State} (h : execLbistStart t s = .next s') : Keeps [.lock] (s.arrive t) s' := by
  unfold execLbistStart at h
  refine happens_keeps (fun u _ => ?_) h
  repeat' first
    | with_reducible exact Keeps.refl _
    | with_reducible apply Keeps.ite
    | (with_reducible refine Keeps.foldl ?_ (fun _ _ => ?_) _)
    | with_reducible apply Keeps.iteFst
    | with_reducible apply Keeps.chain (startLbist_keeps ..)
    | split
    | dsimp only

theorem execLbistComplete_keeps (t : Nat) (passed : Bool) (s : State) {s' : State} (h : execLbistComplete t passed s = .next s') : Keeps [.cache, .out, .pair, .cnt, .power, .cyc, .sched, .lock, .cfg, .msg, .gate, .sheaf, .dio, .ua, .can, .log] (s.arrive t) s' := by
  unfold execLbistComplete at h
  refine happens_keeps (fun u _ => ?_) h
  repeat' first
    | with_reducible exact Keeps.refl _
    | with_reducible apply Keeps.ite
    | (with_reducible refine Keeps.foldl ?_ (fun _ _ => ?_) _)
    | with_reducible apply Keeps.iteFst
    | with_reducible apply Keeps.chain (endLbist_keeps ..)
    | split
    | dsimp only

end Sys2Proof.Machine
end

