-- ==== Sys2Proof/Laws/KeepMemory.lean ====
section
/-! SUPPORT. What the operations of Memory.lean may change; each keeps the form of a state and the instant. -/

set_option Elab.async false
set_option linter.all false

namespace Sys2Proof.Machine

theorem coreException_keeps (master : Nat) (s : State) : Keeps [.cache, .log] s (State.coreException master s) := by
  unfold State.coreException
  repeat' first
    | with_reducible exact Keeps.refl _
    | with_reducible apply Keeps.ite
    | with_reducible apply Keeps.chain (record_keeps ..)

theorem violation_keeps (g addr master rule reason : Nat) (priv write : Bool) (size : Nat) (s : State) : Keeps [.cache, .gate, .log] s (State.violation g addr master rule reason priv write size s) := by
  unfold State.violation
  repeat' first
    | with_reducible exact Keeps.refl _
    | with_reducible apply Keeps.chain (upGate_keeps _ _ (by first | exact id | exact fun h => by cases h | (dsimp only; split <;> exact id) | (unfold setLane; split <;> exact id)))
    | with_reducible apply Keeps.chain (coreException_keeps ..)
    | with_reducible apply Keeps.chain (recordAtMost_keeps ..)
    | dsimp only

theorem corrected_keeps (addr : Nat) (s : State) : Keeps [.mower] s (State.corrected addr s) := by
  unfold State.corrected
  repeat' first
    | with_reducible exact Keeps.refl _
    | with_reducible apply Keeps.ite
    | with_reducible apply Keeps.chain (upMower_keeps _ _)

theorem uncorrectable_keeps (w : Nat) (s : State) : Keeps [.cache, .mem, .mower, .log] s (State.uncorrectable w s) := by
  unfold State.uncorrectable
  dsimp only
  apply Keeps.chain (record_keeps ..)
  apply Keeps.chain (upMem_keeps _ _ fun h => h)
  exact (upMower_keeps _ _).mono (by decide)

theorem badEntry_keeps (h : Nat) (s : State) : Keeps [.cache, .mem, .free] s (State.badEntry h s) := by
  unfold State.badEntry
  repeat' first
    | with_reducible exact Keeps.refl _
    | with_reducible apply Keeps.chain (useFree_keeps _)
    | with_reducible apply Keeps.chain (upImg_keeps ..)
    | dsimp only

theorem masterActs_keeps (master w : Nat) (s : State) : Keeps [.cache, .mem, .free, .cnt, .boot, .fsp, .mower, .log] s (State.masterActs master w s) := by
  unfold State.masterActs
  repeat' first
    | with_reducible exact Keeps.refl _
    | with_reducible apply Keeps.ite
    | with_reducible apply Keeps.chain (upBoot_keeps _ _)
    | with_reducible apply Keeps.chain (upCnt_keeps _ _)
    | with_reducible apply Keeps.chain (upMower_keeps _ _)
    | with_reducible apply Keeps.chain (badEntry_keeps ..)
    | with_reducible apply Keeps.chain (coreException_keeps ..)
    | with_reducible apply Keeps.chain (fspCount_keeps ..)

theorem laneWrites_wf (mask : Nat) (at_ : Nat → Nat) (v : Nat → Byte) (l : List Nat) : ∀ (m : Mem), Memory.wf m = true →
    Memory.wf (l.foldl (fun m k => if bit mask k then memWrite m (at_ k) (v k) else m) m) = true := by
  induction l with
  | nil => exact fun _ w => w
  | cons k l ih =>
    intro m w
    refine ih _ ?_
    dsimp only
    split
    · exact memWrite_wf _ _ w
    · exact w
theorem portAWrite_keeps (p : Option (Nat × Nat × Nat)) (s : State) : Keeps [.cache, .mem] s (State.portAWrite p s) := by
  unfold State.portAWrite
  split
  · exact Keeps.refl s
  · refine (upMem_keeps _ _ ?_).mono (by decide)
    intro w
    exact laneWrites_wf _ _ _ _ _ w

theorem putBytes_keeps (p : Option (Nat × Nat × Nat)) (w o n data : Nat) (s : State) : Keeps [.cache, .mem, .sched, .mower] s (State.putBytes p w o n data s) := by
  unfold State.putBytes
  repeat' first
    | with_reducible exact Keeps.refl _
    | with_reducible apply Keeps.ite
    | with_reducible apply Keeps.chain (upMem_keeps _ _ (fun w => by first | exact memWriteN_wf _ _ _ w | exact memStore_wf _ _ w | exact memClear_wf _ _ w | (apply memStore_wf; assumption) ))
    | with_reducible apply Keeps.chain (upMower_keeps _ _)
    | with_reducible apply Keeps.chain (portAWrite_keeps ..)
    | with_reducible apply Keeps.chain (recountQueue_keeps ..)
    | dsimp only

theorem memAccess_keeps (a : Access) (w o n data : Nat) (ecc : Ecc) (s : State) : Keeps [.cache, .mem, .free, .cnt, .boot, .fsp, .sched, .mower, .log] s (State.memAccess a w o n data ecc s).1 := by
  unfold State.memAccess
  repeat' first
    | with_reducible exact Keeps.refl _
    | with_reducible apply Keeps.ite
    | with_reducible apply Keeps.iteFst
    | with_reducible apply Keeps.chain (corrected_keeps ..)
    | with_reducible apply Keeps.chain (masterActs_keeps ..)
    | with_reducible apply Keeps.chain (portAWrite_keeps ..)
    | with_reducible apply Keeps.chain (putBytes_keeps ..)
    | with_reducible apply Keeps.chain (uncorrectable_keeps ..)
    | split
    | dsimp only

theorem controlWrite_keeps (mb o n v : Nat) (s : State) : Keeps [.cache, .mem, .free, .out, .msg] s (State.controlWrite mb o n v s) := by
  unfold State.controlWrite
  repeat' first
    | with_reducible exact Keeps.refl _
    | with_reducible apply Keeps.ite
    | with_reducible apply Keeps.chain (doneWrite_keeps ..)
    | with_reducible apply Keeps.chain (postWrite_keeps ..)
    | dsimp only

theorem periphAccess_keeps (a : Access) (w o n data : Nat) (s : State) : Keeps [.cache, .mem, .free, .out, .msg, .gate] s (State.periphAccess a w o n data s).1 := by
  have sh (g r h v : Nat) (x : GateSt) : (GateSt.setShadow g r h v x).debugOpen = true → x.debugOpen = true := by
    unfold GateSt.setShadow; split <;> exact id
  unfold State.periphAccess
  extract_lets old write new answer
  clear_value old write new answer
  split
  · exact Keeps.ite ((upGate_keeps _ _ fun k => sh _ _ _ _ _ k).mono (by decide)) (Keeps.refl _)
  · refine Keeps.iteFst (Keeps.refl _) (Keeps.iteFst ?_ ((useFree_keeps _).mono (by decide)))
    exact Keeps.ite (Keeps.refl _) ((upGate_keeps _ _ id).mono (by decide))
  · exact Keeps.ite ((controlWrite_keeps ..).mono (by decide)) (Keeps.refl _)
  · exact Keeps.refl _
  · exact Keeps.refl _

theorem wordAccess_keeps (a : Access) (addr n data : Nat) (ecc : Ecc) (s : State) : Keeps [.cache, .mem, .free, .out, .cnt, .boot, .fsp, .sched, .msg, .mower, .gate, .log] s (State.wordAccess a addr n data ecc s).1 := by
  unfold State.wordAccess
  repeat' first
    | with_reducible exact Keeps.refl _
    | with_reducible apply Keeps.ite
    | with_reducible apply Keeps.iteFst
    | with_reducible apply Keeps.chain (memAccess_keeps ..)
    | with_reducible apply Keeps.chain (periphAccess_keeps ..)
    | with_reducible apply Keeps.chain (record_keeps ..)
    | with_reducible apply Keeps.chain (violation_keeps ..)
    | split
    | dsimp only

theorem access_keeps (a : Access) (s : State) : Keeps [.cache, .mem, .free, .out, .cnt, .boot, .fsp, .sched, .msg, .mower, .gate, .log] s (State.access a s).1 := by
  unfold State.access
  dsimp only
  apply Keeps.iteFst (Keeps.refl s)
  apply Keeps.iteFst (wordAccess_keeps ..)
  have k := wordAccess_keeps a a.addr (min a.size (8 - a.addr % 8)) (a.data % 2 ^ (8 * min a.size (8 - a.addr % 8))) a.ecc s
  split
  · rename_i e
    rw [e] at k
    have k2 := fun u => wordAccess_keeps { a with portA := none } (a.addr + min a.size (8 - a.addr % 8)) (a.size - min a.size (8 - a.addr % 8))
      (a.data / 2 ^ (8 * min a.size (8 - a.addr % 8)) % 2 ^ (8 * (a.size - min a.size (8 - a.addr % 8)))) .clean u
    split
    · rename_i e2
      have := k2 _ |> Eq.mp (congrArg (fun r => Keeps [.cache, .mem, .free, .out, .cnt, .boot, .fsp, .sched, .msg, .mower, .gate, .log] _ r.1) e2)
      exact k.step this (by decide)
    · exact k.step (k2 _) (by decide)
  · exact k

theorem debugWords_keeps (op : AccessOp) (ws : List (Nat × Word)) (got : List Word) (s : State) : Keeps [.cache, .mem, .free, .out, .cnt, .boot, .fsp, .sched, .msg, .mower, .gate, .log] s (State.debugWords op ws got s).1 := by
  induction ws generalizing got s with
  | nil => exact Keeps.refl s
  | cons w ws ih =>
    obtain ⟨addr, v⟩ := w
    unfold State.debugWords
    have k := access_keeps (debugAccess op addr v) s
    split <;> rename_i e <;> rw [e] at k
    · exact (k.mono (by decide)).step (ih ..) (by decide)
    · exact k.mono (by decide)

theorem debugPair_keeps (n : Nat) (halt crcOk : Bool) (s : State) : Keeps [.out, .lock] s (State.debugPair n halt crcOk s) := by
  unfold State.debugPair
  repeat' first
    | with_reducible exact Keeps.refl _
    | with_reducible apply Keeps.ite
    | with_reducible apply Keeps.chain (emit_keeps _ _)
    | with_reducible apply Keeps.chain (setPair_keeps ..)

theorem scrub_keeps (addr : Nat) (ecc : Ecc) (s : State) : Keeps [.cache, .mem, .mower, .log] s (State.scrub addr ecc s) := by
  unfold State.scrub
  repeat' first
    | with_reducible exact Keeps.refl _
    | with_reducible apply Keeps.ite
    | with_reducible apply Keeps.chain (upMower_keeps _ _)
    | with_reducible apply Keeps.chain (corrected_keeps ..)
    | with_reducible apply Keeps.chain (uncorrectable_keeps ..)
    | dsimp only

theorem abandonWindow_keeps (bank window n : Nat) (s : State) : Keeps [.mower] s (State.abandonWindow bank window n s) := by
  unfold State.abandonWindow
  repeat' first
    | with_reducible exact Keeps.refl _
    | with_reducible apply Keeps.ite
    | with_reducible apply Keeps.chain (upMower_keeps _ _)

theorem mowerFault_keeps (addr bit_ : Nat) (s : State) : Keeps [.cache, .cnt, .mower, .log] s (State.mowerFault addr bit_ s) := by
  unfold State.mowerFault
  repeat' first
    | with_reducible exact Keeps.refl _
    | with_reducible apply Keeps.chain (upMower_keeps _ _)
    | with_reducible apply Keeps.chain (proved_keeps ..)
    | with_reducible apply Keeps.chain (record_keeps ..)
    | dsimp only

theorem passOver_keeps (s : State) : Keeps [.cache, .cnt, .mower, .log] s (State.passOver s) := by
  unfold State.passOver
  repeat' first
    | with_reducible exact Keeps.refl _
    | with_reducible apply Keeps.ite
    | with_reducible apply Keeps.chain (upMower_keeps _ _)
    | with_reducible apply Keeps.chain (proved_keeps ..)
    | dsimp only

theorem mow_keeps (bank window : Nat) (demanded : Bool) (fault : Option (Nat × Nat)) (s : State) : Keeps [.cache, .cnt, .mower, .log] s (State.mow bank window demanded fault s) := by
  unfold State.mow
  repeat' first
    | with_reducible exact Keeps.refl _
    | with_reducible apply Keeps.ite
    | with_reducible apply Keeps.chain (abandonWindow_keeps ..)
    | with_reducible apply Keeps.chain (mowerFault_keeps ..)
    | with_reducible apply Keeps.chain (passOver_keeps ..)
    | split
    | dsimp only

theorem retryWindow_keeps (bank window : Nat) (demanded : Bool) (s : State) : Keeps [.mower] s (State.retryWindow bank window demanded s) := by
  unfold State.retryWindow
  repeat' first
    | with_reducible exact Keeps.refl _
    | with_reducible apply Keeps.ite
    | with_reducible apply Keeps.chain (upMower_keeps _ _)
    | with_reducible apply Keeps.chain (abandonWindow_keeps ..)
    | split

theorem memTestBody_keeps (r : Req) (s : State) : Keeps [.msg, .mower] s (memTestBody r s).1 := by
  unfold memTestBody
  repeat' first
    | with_reducible exact Keeps.refl _
    | with_reducible apply Keeps.ite
    | with_reducible apply Keeps.iteFst
    | with_reducible apply Keeps.chain (upMower_keeps _ _)
    | with_reducible refine guarded_keeps _ _ _ ?_
    | with_reducible refine withJob_keeps _ _ _ (fun _ _ => ?_) (by decide)
    | split
    | dsimp only

theorem tested_wf (bank : Option Nat) {m : Mem} (h : Memory.wf m = true) : Memory.wf (Mem.tested bank m) = true :=
  cellsFrom_filter (fun a => !testCovers bank a) m.cells 0 h
theorem endMemTest_keeps (tested faults addr bit_ : Nat) (s : State) : Keeps [.cache, .mem, .cnt, .sched, .msg, .mower, .log] s (State.endMemTest tested faults addr bit_ s) := by
  unfold State.endMemTest
  repeat' first
    | with_reducible exact Keeps.refl _
    | with_reducible apply Keeps.ite
    | with_reducible apply Keeps.chain (upMem_keeps _ _ (tested_wf _))
    | with_reducible apply Keeps.chain (upMower_keeps _ _)
    | with_reducible apply Keeps.chain (upSched_keeps _ _)
    | with_reducible apply Keeps.chain (mowerFault_keeps ..)
    | with_reducible apply Keeps.chain (proved_keeps ..)
    | with_reducible apply Keeps.chain (endJob_keeps ..)
    | split
    | dsimp only

end Sys2Proof.Machine
end

