-- ==== Sys2Proof/Laws/ExecMemory.lean ====
section
/-! SUPPORT. What the commands of Memory.lean may change. -/

set_option Elab.async false
set_option linter.all false

namespace Sys2Proof.Machine

theorem debugOp_keeps (op : AccessOp) (ws : List (Nat × Word)) (crcOk : Bool) (s : State) {s' : State} (h : State.debugOp op ws crcOk s = .next s') :
    Keeps [.cache, .mem, .free, .out, .time, .cnt, .boot, .fsp, .sched, .msg, .mower, .gate, .log] s s' := by
  unfold State.debugOp at h
  have k := debugWords_keeps op ws [] s
  split at h
  · cases h; exact Keeps.refl _
  · split at h
    · cases h; exact (emit_keeps _ _).mono (by decide)
    · split at h <;> rename_i e <;> rw [e] at k <;> cases h
      · exact (k.mono (by decide)).step (emit_keeps _ _) (by decide)
      · exact (k.mono (by decide)).step (emit_keeps _ _) (by decide)

theorem execFabricAccess_keeps (t : Nat) (a : Access) (s : State) {s' : State} (h : execFabricAccess t a s = .next s') : Keeps [.cache, .mem, .free, .out, .time, .cnt, .boot, .fsp, .sched, .msg, .mower, .gate, .log] (s.arrive t) s' := by
  unfold execFabricAccess State.fabric at h
  split at h
  · have k := access_keeps a (s.arrive t)
    split at h <;> rename_i e <;> rw [e] at k <;> cases h
    · exact (k.mono (by decide)).step (emit_keeps _ _) (by decide)
    · exact (k.mono (by decide)).step (emit_keeps _ _) (by decide)
  · cases h; exact Keeps.refl _

theorem execDebugReadWords_keeps (t addr count : Nat) (crcOk : Bool) (s : State) {s' : State} (h : execDebugReadWords t addr count crcOk s = .next s') : Keeps [.cache, .mem, .free, .out, .time, .cnt, .boot, .fsp, .sched, .msg, .mower, .gate, .log] (s.arrive t) s' := by
  exact debugOp_keeps _ _ _ _ h

theorem execDebugWriteWords_keeps (t addr : Nat) (words : List Word) (crcOk : Bool) (s : State) {s' : State} (h : execDebugWriteWords t addr words crcOk s = .next s') : Keeps [.cache, .mem, .free, .out, .time, .cnt, .boot, .fsp, .sched, .msg, .mower, .gate, .log] (s.arrive t) s' := by
  exact debugOp_keeps _ _ _ _ h

theorem execDebugHaltCorePair_keeps (t pair : Nat) (crcOk : Bool) (s : State) {s' : State} (h : execDebugHaltCorePair t pair crcOk s = .next s') : Keeps [.out, .lock] (s.arrive t) s' := by
  unfold execDebugHaltCorePair at h
  refine happens_keeps (fun u _ => ?_) h
  repeat' first
    | with_reducible exact Keeps.refl _
    | with_reducible apply Keeps.ite
    | (with_reducible refine Keeps.foldl ?_ (fun _ _ => ?_) _)
    | with_reducible apply Keeps.iteFst
    | with_reducible apply Keeps.chain (debugPair_keeps ..)
    | split
    | dsimp only

theorem execDebugResumeCorePair_keeps (t pair : Nat) (crcOk : Bool) (s : State) {s' : State} (h : execDebugResumeCorePair t pair crcOk s = .next s') : Keeps [.out, .lock] (s.arrive t) s' := by
  unfold execDebugResumeCorePair at h
  refine happens_keeps (fun u _ => ?_) h
  repeat' first
    | with_reducible exact Keeps.refl _
    | with_reducible apply Keeps.ite
    | (with_reducible refine Keeps.foldl ?_ (fun _ _ => ?_) _)
    | with_reducible apply Keeps.iteFst
    | with_reducible apply Keeps.chain (debugPair_keeps ..)
    | split
    | dsimp only

theorem execDbgRstN_keeps (t : Nat) (low : Bool) (s : State) {s' : State} (h : execDbgRstN t low s = .next s') : Keeps [.gate] (s.arrive t) s' := by
  unfold execDbgRstN at h
  refine happens_keeps (fun u _ => ?_) h
  repeat' first
    | with_reducible exact Keeps.refl _
    | with_reducible apply Keeps.ite
    | (with_reducible refine Keeps.foldl ?_ (fun _ _ => ?_) _)
    | with_reducible apply Keeps.iteFst
    | with_reducible apply Keeps.chain (upGate_keeps _ _ (by first | exact id | exact fun h => by cases h | (dsimp only; split <;> exact id) | (unfold setLane; split <;> exact id)))
    | split
    | dsimp only

theorem execScrubVisit_keeps (t addr : Nat) (ecc : Ecc) (s : State) {s' : State} (h : execScrubVisit t addr ecc s = .next s') : Keeps [.cache, .mem, .mower, .log] (s.arrive t) s' := by
  unfold execScrubVisit at h
  refine happens_keeps (fun u _ => ?_) h
  repeat' first
    | with_reducible exact Keeps.refl _
    | with_reducible apply Keeps.ite
    | (with_reducible refine Keeps.foldl ?_ (fun _ _ => ?_) _)
    | with_reducible apply Keeps.iteFst
    | with_reducible apply Keeps.chain (scrub_keeps ..)
    | split
    | dsimp only

theorem execMowerWindow_keeps (t bank window : Nat) (demanded : Bool) (fault : Option (Nat × Nat)) (s : State) {s' : State} (h : execMowerWindow t bank window demanded fault s = .next s') : Keeps [.cache, .cnt, .mower, .log] (s.arrive t) s' := by
  unfold execMowerWindow at h
  refine happens_keeps (fun u _ => ?_) h
  repeat' first
    | with_reducible exact Keeps.refl _
    | with_reducible apply Keeps.ite
    | (with_reducible refine Keeps.foldl ?_ (fun _ _ => ?_) _)
    | with_reducible apply Keeps.iteFst
    | with_reducible apply Keeps.chain (mow_keeps ..)
    | split
    | dsimp only

theorem execWindowAbandonedRetry_keeps (t bank window : Nat) (demanded : Bool) (s : State) {s' : State} (h : execWindowAbandonedRetry t bank window demanded s = .next s') : Keeps [.mower] (s.arrive t) s' := by
  unfold execWindowAbandonedRetry at h
  refine happens_keeps (fun u _ => ?_) h
  repeat' first
    | with_reducible exact Keeps.refl _
    | with_reducible apply Keeps.ite
    | (with_reducible refine Keeps.foldl ?_ (fun _ _ => ?_) _)
    | with_reducible apply Keeps.iteFst
    | with_reducible apply Keeps.chain (retryWindow_keeps ..)
    | split
    | dsimp only

theorem execMemTest_keeps (t : Nat) (r : Req) (s : State) {s' : State} (h : execMemTest t r s = .next s') : Keeps [.cache, .mem, .free, .out, .msg, .mower, .gate, .log] (s.arrive t) s' := by
  unfold execMemTest at h
  refine happens_keeps (fun u _ => ?_) h
  repeat' first
    | with_reducible exact Keeps.refl _
    | with_reducible apply Keeps.ite
    | (with_reducible refine Keeps.foldl ?_ (fun _ _ => ?_) _)
    | with_reducible apply Keeps.iteFst
    | with_reducible refine run_keeps _ _ _ _ (fun _ => ?_) (by decide)
    | with_reducible apply Keeps.chain (memTestBody_keeps ..)
    | split
    | dsimp only

theorem execMemTestJobEnd_keeps (t tested faults addr bit : Nat) (s : State) {s' : State} (h : execMemTestJobEnd t tested faults addr bit s = .next s') : Keeps [.cache, .mem, .cnt, .sched, .msg, .mower, .log] (s.arrive t) s' := by
  unfold execMemTestJobEnd at h
  refine happens_keeps (fun u _ => ?_) h
  repeat' first
    | with_reducible exact Keeps.refl _
    | with_reducible apply Keeps.ite
    | (with_reducible refine Keeps.foldl ?_ (fun _ _ => ?_) _)
    | with_reducible apply Keeps.iteFst
    | with_reducible apply Keeps.chain (endMemTest_keeps ..)
    | split
    | dsimp only

end Sys2Proof.Machine
end

