-- ==== Sys2Proof/Laws/ExecMessages.lean ====
section
/-! SUPPORT. What the commands of Messages.lean may change. -/

set_option Elab.async false
set_option linter.all false

namespace Sys2Proof.Machine

theorem execIdentify_keeps (t : Nat) (r : Req) (s : State) {s' : State} (h : execIdentify t r s = .next s') : Keeps [.cache, .mem, .free, .out, .msg, .gate, .log] (s.arrive t) s' := by
  unfold execIdentify at h
  refine happens_keeps (fun u _ => ?_) h
  repeat' first
    | with_reducible exact Keeps.refl _
    | with_reducible apply Keeps.ite
    | (with_reducible refine Keeps.foldl ?_ (fun _ _ => ?_) _)
    | with_reducible apply Keeps.iteFst
    | with_reducible refine run_keeps _ _ _ _ (fun _ => ?_) (by decide)
    | with_reducible refine reply_keeps ?_
    | split
    | dsimp only

theorem execSessionOpen_keeps (t : Nat) (r : Req) (s : State) {s' : State} (h : execSessionOpen t r s = .next s') : Keeps [.cache, .mem, .free, .out, .msg, .gate, .log] (s.arrive t) s' := by
  unfold execSessionOpen at h
  refine happens_keeps (fun u _ => ?_) h
  repeat' first
    | with_reducible exact Keeps.refl _
    | with_reducible apply Keeps.ite
    | (with_reducible refine Keeps.foldl ?_ (fun _ _ => ?_) _)
    | with_reducible apply Keeps.iteFst
    | with_reducible refine run_keeps _ _ _ _ (fun _ => ?_) (by decide)
    | with_reducible apply Keeps.chain (openSession_keeps ..)
    | split
    | dsimp only

theorem execSessionClose_keeps (t : Nat) (r : Req) (s : State) {s' : State} (h : execSessionClose t r s = .next s') : Keeps [.cache, .mem, .free, .out, .msg, .gate, .log] (s.arrive t) s' := by
  unfold execSessionClose at h
  refine happens_keeps (fun u _ => ?_) h
  have k := serve_keeps (plainCmd 2 1 0) r (reply stOk []) u (ps := [.cache, .mem, .free, .out, .msg, .gate, .log]) (fun v => Keeps.refl v) (by decide)
  split <;> rename_i e <;> rw [e] at k
  · exact Keeps.ite (k.step (closeConnection_keeps ..) (by decide)) k
  · exact k

theorem execJobStatus_keeps (t : Nat) (r : Req) (s : State) {s' : State} (h : execJobStatus t r s = .next s') : Keeps [.cache, .mem, .free, .out, .msg, .gate, .log] (s.arrive t) s' := by
  unfold execJobStatus at h
  refine happens_keeps (fun u _ => ?_) h
  repeat' first
    | with_reducible exact Keeps.refl _
    | with_reducible apply Keeps.ite
    | (with_reducible refine Keeps.foldl ?_ (fun _ _ => ?_) _)
    | with_reducible apply Keeps.iteFst
    | with_reducible refine run_keeps _ _ _ _ (fun _ => ?_) (by decide)
    | with_reducible apply Keeps.chain (jobStatus_keeps ..)
    | split
    | dsimp only

theorem execModeGet_keeps (t : Nat) (r : Req) (s : State) {s' : State} (h : execModeGet t r s = .next s') : Keeps [.cache, .mem, .free, .out, .msg, .gate, .log] (s.arrive t) s' := by
  unfold execModeGet at h
  refine happens_keeps (fun u _ => ?_) h
  repeat' first
    | with_reducible exact Keeps.refl _
    | with_reducible apply Keeps.ite
    | (with_reducible refine Keeps.foldl ?_ (fun _ _ => ?_) _)
    | with_reducible apply Keeps.iteFst
    | with_reducible refine run_keeps _ _ _ _ (fun _ => ?_) (by decide)
    | with_reducible refine reply_keeps ?_
    | split
    | dsimp only

theorem execContinuation_keeps (t code : Nat) (r : Req) (s : State) {s' : State} (h : execContinuation t code r s = .next s') : Keeps [.cache, .mem, .free, .out, .msg, .gate, .log] (s.arrive t) s' := by
  unfold execContinuation at h
  refine happens_keeps (fun u _ => ?_) h
  repeat' first
    | with_reducible exact Keeps.refl _
    | with_reducible apply Keeps.ite
    | (with_reducible refine Keeps.foldl ?_ (fun _ _ => ?_) _)
    | with_reducible apply Keeps.iteFst
    | with_reducible refine run_keeps _ _ _ _ (fun _ => ?_) (by decide)
    | with_reducible refine reply_keeps ?_
    | split
    | dsimp only

theorem execUndefinedCommand_keeps (t code : Nat) (r : Req) (s : State) {s' : State} (h : execUndefinedCommand t code r s = .next s') : Keeps [.cache, .mem, .free, .out, .msg, .gate, .log] (s.arrive t) s' := by
  unfold execUndefinedCommand at h
  refine happens_keeps (fun u _ => ?_) h
  repeat' first
    | with_reducible exact Keeps.refl _
    | with_reducible apply Keeps.ite
    | (with_reducible refine Keeps.foldl ?_ (fun _ _ => ?_) _)
    | with_reducible apply Keeps.iteFst
    | with_reducible refine run_keeps _ _ _ _ (fun _ => ?_) (by decide)
    | with_reducible refine reply_keeps ?_
    | split
    | dsimp only

theorem execPost_keeps (t mb len : Nat) (s : State) {s' : State} (h : execPost t mb len s = .next s') : Keeps [.cache, .mem, .free, .out, .msg] (s.arrive t) s' := by
  unfold execPost at h
  refine happens_keeps (fun u _ => ?_) h
  repeat' first
    | with_reducible exact Keeps.refl _
    | with_reducible apply Keeps.ite
    | (with_reducible refine Keeps.foldl ?_ (fun _ _ => ?_) _)
    | with_reducible apply Keeps.iteFst
    | with_reducible apply Keeps.chain (postWrite_keeps ..)
    | split
    | dsimp only

theorem execDoneClear_keeps (t mb : Nat) (s : State) {s' : State} (h : execDoneClear t mb s = .next s') : Keeps [.msg] (s.arrive t) s' := by
  unfold execDoneClear at h
  refine happens_keeps (fun u _ => ?_) h
  repeat' first
    | with_reducible exact Keeps.refl _
    | with_reducible apply Keeps.ite
    | (with_reducible refine Keeps.foldl ?_ (fun _ _ => ?_) _)
    | with_reducible apply Keeps.iteFst
    | with_reducible apply Keeps.chain (doneWrite_keeps ..)
    | split
    | dsimp only

theorem execTlsHandshake_keeps (t : Nat) (verified : Bool) (fingerprint : List Byte) (s : State) {s' : State} (h : execTlsHandshake t verified fingerprint s = .next s') : Keeps [.out, .msg] (s.arrive t) s' := by
  unfold execTlsHandshake at h
  refine happens_keeps (fun u _ => ?_) h
  repeat' first
    | with_reducible exact Keeps.refl _
    | with_reducible apply Keeps.ite
    | (with_reducible refine Keeps.foldl ?_ (fun _ _ => ?_) _)
    | with_reducible apply Keeps.iteFst
    | with_reducible apply Keeps.chain (handshake_keeps ..)
    | split
    | dsimp only

theorem execHandshakeTimeout_keeps (t : Nat) (s : State) {s' : State} (h : execHandshakeTimeout t s = .next s') : Keeps [.out] (s.arrive t) s' := by
  unfold execHandshakeTimeout at h
  refine happens_keeps (fun u _ => ?_) h
  repeat' first
    | with_reducible exact Keeps.refl _
    | with_reducible apply Keeps.ite
    | (with_reducible refine Keeps.foldl ?_ (fun _ _ => ?_) _)
    | with_reducible apply Keeps.iteFst
    | with_reducible apply Keeps.chain (emit_keeps _ _)
    | split
    | dsimp only

theorem execConnectionClosed_keeps (t mb : Nat) (s : State) {s' : State} (h : execConnectionClosed t mb s = .next s') : Keeps [.cache, .msg, .gate, .log] (s.arrive t) s' := by
  unfold execConnectionClosed at h
  refine happens_keeps (fun u _ => ?_) h
  repeat' first
    | with_reducible exact Keeps.refl _
    | with_reducible apply Keeps.ite
    | (with_reducible refine Keeps.foldl ?_ (fun _ _ => ?_) _)
    | with_reducible apply Keeps.iteFst
    | with_reducible apply Keeps.chain (dropConnection_keeps ..)
    | split
    | dsimp only

theorem execSessionIdleTimeout_keeps (t mb : Nat) (s : State) {s' : State} (h : execSessionIdleTimeout t mb s = .next s') : Keeps [.cache, .msg, .gate, .log] (s.arrive t) s' := by
  unfold execSessionIdleTimeout at h
  refine happens_keeps (fun u _ => ?_) h
  repeat' first
    | with_reducible exact Keeps.refl _
    | with_reducible apply Keeps.ite
    | (with_reducible refine Keeps.foldl ?_ (fun _ _ => ?_) _)
    | with_reducible apply Keeps.iteFst
    | with_reducible apply Keeps.chain (endSession_keeps ..)
    | with_reducible apply Keeps.chain (msgCount_keeps ..)
    | split
    | dsimp only

theorem execCursorExpiry_keeps (t mb : Nat) (s : State) {s' : State} (h : execCursorExpiry t mb s = .next s') : Keeps [.msg] (s.arrive t) s' := by
  unfold execCursorExpiry at h
  refine happens_keeps (fun u _ => ?_) h
  repeat' first
    | with_reducible exact Keeps.refl _
    | with_reducible apply Keeps.ite
    | (with_reducible refine Keeps.foldl ?_ (fun _ _ => ?_) _)
    | with_reducible apply Keeps.iteFst
    | with_reducible apply Keeps.chain (msgCount_keeps ..)
    | with_reducible apply Keeps.chain (setBox_keeps ..)
    | split
    | dsimp only

theorem execJobExpiry_keeps (t job : Nat) (s : State) {s' : State} (h : execJobExpiry t job s = .next s') : Keeps [.msg] (s.arrive t) s' := by
  unfold execJobExpiry at h
  refine happens_keeps (fun u _ => ?_) h
  repeat' first
    | with_reducible exact Keeps.refl _
    | with_reducible apply Keeps.ite
    | (with_reducible refine Keeps.foldl ?_ (fun _ _ => ?_) _)
    | with_reducible apply Keeps.iteFst
    | with_reducible apply Keeps.chain (upMsg_keeps _ _)
    | split
    | dsimp only

end Sys2Proof.Machine
end

