-- ==== Sys2Proof/Laws/ExecPair.lean ====
section
/-! SUPPORT. What the commands of Pair.lean may change. -/

set_option Elab.async false
set_option linter.all false

namespace Sys2Proof.Machine

theorem execOwnClaimLost_keeps (t : Nat) (s : State) {s' : State} (h : execOwnClaimLost t s = .next s') : Keeps [.cache, .out, .pair, .power, .cyc, .sched, .cfg, .msg, .gate, .sheaf, .dio, .ua, .can, .log] (s.arrive t) s' := by
  unfold execOwnClaimLost at h
  refine happens_keeps (fun u _ => ?_) h
  repeat' first
    | with_reducible exact Keeps.refl _
    | with_reducible apply Keeps.ite
    | (with_reducible refine Keeps.foldl ?_ (fun _ _ => ?_) _)
    | with_reducible apply Keeps.iteFst
    | with_reducible apply Keeps.chain (loseOwnClaim_keeps ..)
    | split
    | dsimp only

theorem execLaneStartUp_keeps (t lane proto min slotId : Nat) (s : State) {s' : State} (h : execLaneStartUp t lane proto min slotId s = .next s') : Keeps [.cache, .out, .pair, .cnt, .power, .cyc, .gate, .sheaf, .log] (s.arrive t) s' := by
  unfold execLaneStartUp at h
  refine happens_keeps (fun u _ => ?_) h
  repeat' first
    | with_reducible exact Keeps.refl _
    | with_reducible apply Keeps.ite
    | (with_reducible refine Keeps.foldl ?_ (fun _ _ => ?_) _)
    | with_reducible apply Keeps.iteFst
    | with_reducible apply Keeps.chain (startLane_keeps ..)
    | split
    | dsimp only

theorem execSwathBlockReceived_keeps (t lane : Nat) (crcOk : Bool) (s : State) {s' : State} (h : execSwathBlockReceived t lane crcOk s = .next s') : Keeps [.out, .cnt] (s.arrive t) s' := by
  unfold execSwathBlockReceived at h
  refine happens_keeps (fun u _ => ?_) h
  repeat' first
    | with_reducible exact Keeps.refl _
    | with_reducible apply Keeps.ite
    | (with_reducible refine Keeps.foldl ?_ (fun _ _ => ?_) _)
    | with_reducible apply Keeps.iteFst
    | with_reducible apply Keeps.chain (swathBlock_keeps ..)
    | split
    | dsimp only

theorem execClaimReport_keeps (t : Nat) (seesClaim ownReadback : Bool) (s : State) {s' : State} (h : execClaimReport t seesClaim ownReadback s = .next s') : Keeps [.cache, .pair, .log] (s.arrive t) s' := by
  unfold execClaimReport at h
  refine happens_keeps (fun u _ => ?_) h
  repeat' first
    | with_reducible exact Keeps.refl _
    | with_reducible apply Keeps.ite
    | (with_reducible refine Keeps.foldl ?_ (fun _ _ => ?_) _)
    | with_reducible apply Keeps.iteFst
    | with_reducible apply Keeps.chain (claimReport_keeps ..)
    | split
    | dsimp only

theorem execYieldClaimStillPresent_keeps (t : Nat) (s : State) {s' : State} (h : execYieldClaimStillPresent t s = .next s') : Keeps [.cache, .pair, .log] (s.arrive t) s' := by
  unfold execYieldClaimStillPresent at h
  refine happens_keeps (fun u _ => ?_) h
  repeat' first
    | with_reducible exact Keeps.refl _
    | with_reducible apply Keeps.ite
    | (with_reducible refine Keeps.foldl ?_ (fun _ _ => ?_) _)
    | with_reducible apply Keeps.iteFst
    | with_reducible apply Keeps.chain (setHedgeFault_keeps ..)
    | split
    | dsimp only

theorem execTwinReportTimeout_keeps (t : Nat) (s : State) {s' : State} (h : execTwinReportTimeout t s = .next s') : Keeps [.cache, .pair, .power, .cfg, .gate, .sheaf, .log] (s.arrive t) s' := by
  unfold execTwinReportTimeout at h
  refine happens_keeps (fun u _ => ?_) h
  repeat' first
    | with_reducible exact Keeps.refl _
    | with_reducible apply Keeps.ite
    | (with_reducible refine Keeps.foldl ?_ (fun _ _ => ?_) _)
    | with_reducible apply Keeps.iteFst
    | with_reducible apply Keeps.chain (twinSilent_keeps ..)
    | split
    | dsimp only

theorem execIsolated_keeps (t : Nat) (s : State) {s' : State} (h : execIsolated t s = .next s') : Keeps [.cache, .pair, .log] (s.arrive t) s' := by
  unfold execIsolated at h
  refine happens_keeps (fun u _ => ?_) h
  repeat' first
    | with_reducible exact Keeps.refl _
    | with_reducible apply Keeps.ite
    | (with_reducible refine Keeps.foldl ?_ (fun _ _ => ?_) _)
    | with_reducible apply Keeps.iteFst
    | with_reducible apply Keeps.chain (isolate_keeps ..)
    | split
    | dsimp only

theorem execTakeover_keeps (t : Nat) (s : State) {s' : State} (h : execTakeover t s = .next s') : Keeps [.cache, .out, .pair, .cnt, .lock, .log] (s.arrive t) s' := by
  unfold execTakeover at h
  refine happens_keeps (fun u _ => ?_) h
  repeat' first
    | with_reducible exact Keeps.refl _
    | with_reducible apply Keeps.ite
    | (with_reducible refine Keeps.foldl ?_ (fun _ _ => ?_) _)
    | with_reducible apply Keeps.iteFst
    | with_reducible apply Keeps.chain (upLock_keeps _ _)
    | with_reducible apply Keeps.chain (startClaim_keeps ..)
    | split
    | dsimp only

theorem execHandoverArmCheck_keeps (t : Nat) (s : State) {s' : State} (h : execHandoverArmCheck t s = .next s') : Keeps [.pair, .cnt, .msg] (s.arrive t) s' := by
  unfold execHandoverArmCheck at h
  refine happens_keeps (fun u _ => ?_) h
  repeat' first
    | with_reducible exact Keeps.refl _
    | with_reducible apply Keeps.ite
    | (with_reducible refine Keeps.foldl ?_ (fun _ _ => ?_) _)
    | with_reducible apply Keeps.iteFst
    | with_reducible apply Keeps.chain (checkHandover_keeps ..)
    | split
    | dsimp only

theorem execHandover_keeps (t : Nat) (s : State) {s' : State} (h : execHandover t s = .next s') : Keeps [.out, .pair, .cnt, .cyc, .sched, .can] (s.arrive t) s' := by
  unfold execHandover at h
  refine happens_keeps (fun u _ => ?_) h
  repeat' first
    | with_reducible exact Keeps.refl _
    | with_reducible apply Keeps.ite
    | (with_reducible refine Keeps.foldl ?_ (fun _ _ => ?_) _)
    | with_reducible apply Keeps.iteFst
    | with_reducible apply Keeps.chain (handOver_keeps ..)
    | split
    | dsimp only

theorem execHomeSettleExpiry_keeps (t : Nat) (s : State) {s' : State} (h : execHomeSettleExpiry t s = .next s') : Keeps [.out, .pair, .cnt] (s.arrive t) s' := by
  unfold execHomeSettleExpiry at h
  refine happens_keeps (fun u _ => ?_) h
  repeat' first
    | with_reducible exact Keeps.refl _
    | with_reducible apply Keeps.ite
    | (with_reducible refine Keeps.foldl ?_ (fun _ _ => ?_) _)
    | with_reducible apply Keeps.iteFst
    | with_reducible apply Keeps.chain (requestHome_keeps ..)
    | split
    | dsimp only

theorem execHomeReturnRequest_keeps (t : Nat) (s : State) {s' : State} (h : execHomeReturnRequest t s = .next s') : Keeps [.out, .pair, .cnt] (s.arrive t) s' := by
  unfold execHomeReturnRequest at h
  refine happens_keeps (fun u _ => ?_) h
  repeat' first
    | with_reducible exact Keeps.refl _
    | with_reducible apply Keeps.ite
    | (with_reducible refine Keeps.foldl ?_ (fun _ _ => ?_) _)
    | with_reducible apply Keeps.iteFst
    | with_reducible apply Keeps.chain (homeHandover_keeps ..)
    | split
    | dsimp only

theorem execProvePeriodExpiry_keeps (t : Nat) (s : State) {s' : State} (h : execProvePeriodExpiry t s = .next s') : Keeps [.out, .pair, .cnt] (s.arrive t) s' := by
  unfold execProvePeriodExpiry at h
  refine happens_keeps (fun u _ => ?_) h
  repeat' first
    | with_reducible exact Keeps.refl _
    | with_reducible apply Keeps.ite
    | (with_reducible refine Keeps.foldl ?_ (fun _ _ => ?_) _)
    | with_reducible apply Keeps.iteFst
    | with_reducible apply Keeps.chain (homeHandover_keeps ..)
    | split
    | dsimp only

theorem execProveDwellExpiry_keeps (t : Nat) (s : State) {s' : State} (h : execProveDwellExpiry t s = .next s') : Keeps [.out, .pair] (s.arrive t) s' := by
  unfold execProveDwellExpiry at h
  refine happens_keeps (fun u _ => ?_) h
  repeat' first
    | with_reducible exact Keeps.refl _
    | with_reducible apply Keeps.ite
    | (with_reducible refine Keeps.foldl ?_ (fun _ _ => ?_) _)
    | with_reducible apply Keeps.iteFst
    | with_reducible apply Keeps.chain (emit_keeps _ _)
    | with_reducible apply Keeps.chain (upPair_keeps _ _ (by first | exact id | exact fun h => by cases h | (dsimp only; split <;> exact id) | (unfold setLane; split <;> exact id)))
    | split
    | dsimp only

theorem execFieldReadback_keeps (t : Nat) (agrees : Bool) (s : State) {s' : State} (h : execFieldReadback t agrees s = .next s') : Keeps [.cache, .cnt, .log] (s.arrive t) s' := by
  unfold execFieldReadback at h
  refine happens_keeps (fun u _ => ?_) h
  repeat' first
    | with_reducible exact Keeps.refl _
    | with_reducible apply Keeps.ite
    | (with_reducible refine Keeps.foldl ?_ (fun _ _ => ?_) _)
    | with_reducible apply Keeps.iteFst
    | with_reducible apply Keeps.chain (readback_keeps ..)
    | split
    | dsimp only

theorem execUnprovenTick_keeps (t : Nat) (s : State) {s' : State} (h : execUnprovenTick t s = .next s') : Keeps [.cnt] (s.arrive t) s' := by
  unfold execUnprovenTick at h
  refine happens_keeps (fun u _ => ?_) h
  repeat' first
    | with_reducible exact Keeps.refl _
    | with_reducible apply Keeps.ite
    | (with_reducible refine Keeps.foldl ?_ (fun _ _ => ?_) _)
    | with_reducible apply Keeps.iteFst
    | with_reducible apply Keeps.chain (unprovenTick_keeps ..)
    | split
    | dsimp only

end Sys2Proof.Machine
end

