-- ==== Sys2Proof/Laws/KeepParams.lean ====
section
/-! SUPPORT. What the operations of Params.lean may change; each keeps the form of a state and the instant. -/

set_option Elab.async false
set_option linter.all false

namespace Sys2Proof.Machine

theorem latchWords_keeps (b first count : Nat) (s : State) : Keeps [.msg] s (State.latchWords b first count s) := by
  unfold State.latchWords
  repeat' first
    | with_reducible exact Keeps.refl _
    | with_reducible apply Keeps.chain (upMsg_keeps _ _)
    | dsimp only

theorem clearPair_keeps (s : State) : Keeps [.cnt] s (State.clearPair s) := by
  unfold State.clearPair
  repeat' first
    | with_reducible exact Keeps.refl _
    | with_reducible apply Keeps.chain (upCnt_keeps _ _)

theorem clearPoints_keeps (s : State) : Keeps [.pts] s (State.clearPoints s) := by
  unfold State.clearPoints
  repeat' first
    | with_reducible exact Keeps.refl _
    | with_reducible apply Keeps.chain (upPts_keeps _ _)

theorem clearCycle_keeps (s : State) : Keeps [.cyc, .fsp] s (State.clearCycle s) := by
  unfold State.clearCycle
  repeat' first
    | with_reducible exact Keeps.refl _
    | with_reducible apply Keeps.chain (upCyc_keeps _ _)
    | with_reducible apply Keeps.chain (upFsp_keeps _ _)
    | split

theorem clearSched_keeps (s : State) : Keeps [.sched] s (State.clearSched s) := by
  unfold State.clearSched
  repeat' first
    | with_reducible exact Keeps.refl _
    | with_reducible apply Keeps.chain (upSched_keeps _ _)

theorem clearTime_keeps (s : State) : Keeps [.time] s (State.clearTime s) := by
  unfold State.clearTime
  repeat' first
    | with_reducible exact Keeps.refl _
    | with_reducible apply Keeps.chain (upTime_keeps _ _ (by first | rfl | (dsimp only; split <;> rfl) | (dsimp only; repeat' first | rfl | split)))

theorem clearLock_keeps (s : State) : Keeps [.lock] s (State.clearLock s) := by
  unfold State.clearLock
  repeat' first
    | with_reducible exact Keeps.refl _
    | with_reducible apply Keeps.chain (upLock_keeps _ _)
    | split

theorem clearMem_keeps (s : State) : Keeps [.mower] s (State.clearMem s) := by
  unfold State.clearMem
  repeat' first
    | with_reducible exact Keeps.refl _
    | with_reducible apply Keeps.chain (upMower_keeps _ _)

theorem clearGate_keeps (s : State) : Keeps [.gate] s (State.clearGate s) := by
  unfold State.clearGate
  repeat' first
    | with_reducible exact Keeps.refl _
    | with_reducible apply Keeps.chain (upGate_keeps _ _ (by first | exact id | exact fun h => by cases h | (dsimp only; split <;> exact id) | (unfold setLane; split <;> exact id)))

theorem clearDio_keeps (s : State) : Keeps [.dio] s (State.clearDio s) := by
  unfold State.clearDio
  repeat' first
    | with_reducible exact Keeps.refl _
    | with_reducible apply Keeps.chain (upDio_keeps _ _)
    | split

theorem clearUa_keeps (s : State) : Keeps [.ua] s (State.clearUa s) := by
  unfold State.clearUa
  repeat' first
    | with_reducible exact Keeps.refl _
    | with_reducible apply Keeps.chain (upUa_keeps _ _)

theorem clearCan_keeps (s : State) : Keeps [.can] s (State.clearCan s) := by
  unfold State.clearCan
  repeat' first
    | with_reducible exact Keeps.refl _
    | with_reducible apply Keeps.chain (upCan_keeps _ _)

theorem clearRec_keeps (s : State) : Keeps [.log] s (State.clearRec s) := by
  unfold State.clearRec
  repeat' first
    | with_reducible exact Keeps.refl _
    | with_reducible apply Keeps.chain (upLog_keeps _ _)

theorem clearDisp_keeps (s : State) : Keeps [.disp] s (State.clearDisp s) := by
  unfold State.clearDisp
  repeat' first
    | with_reducible exact Keeps.refl _
    | with_reducible apply Keeps.chain (upDisp_keeps _ _)

theorem clearPower_keeps (s : State) : Keeps [.power] s (State.clearPower s) := by
  unfold State.clearPower
  repeat' first
    | with_reducible exact Keeps.refl _
    | with_reducible apply Keeps.chain (upPower_keeps _ _ (by first | rfl | (dsimp only; split <;> rfl) | (dsimp only; repeat' first | rfl | split)))

theorem clearBlock_keeps (b : Nat) (s : State) : Keeps [.time, .cnt, .power, .pts, .cyc, .fsp, .sched, .lock, .mower, .gate, .dio, .ua, .can, .log, .disp] s (State.clearBlock b s) := by
  unfold State.clearBlock
  repeat' first
    | with_reducible exact Keeps.refl _
    | with_reducible apply Keeps.chain (clearCan_keeps ..)
    | with_reducible apply Keeps.chain (clearCycle_keeps ..)
    | with_reducible apply Keeps.chain (clearDio_keeps ..)
    | with_reducible apply Keeps.chain (clearDisp_keeps ..)
    | with_reducible apply Keeps.chain (clearGate_keeps ..)
    | with_reducible apply Keeps.chain (clearLock_keeps ..)
    | with_reducible apply Keeps.chain (clearMem_keeps ..)
    | with_reducible apply Keeps.chain (clearPair_keeps ..)
    | with_reducible apply Keeps.chain (clearPoints_keeps ..)
    | with_reducible apply Keeps.chain (clearPower_keeps ..)
    | with_reducible apply Keeps.chain (clearRec_keeps ..)
    | with_reducible apply Keeps.chain (clearSched_keeps ..)
    | with_reducible apply Keeps.chain (clearTime_keeps ..)
    | with_reducible apply Keeps.chain (clearUa_keeps ..)
    | split

theorem markReenable_keeps (mask : Nat) (s : State) : Keeps [.lock] s (State.markReenable mask s) := by
  unfold State.markReenable
  repeat' first
    | with_reducible exact Keeps.refl _
    | with_reducible apply Keeps.chain (upLock_keeps _ _)

theorem debugWrite_keeps (mb v : Nat) (s : State) : Keeps [.cache, .gate, .log] s (State.debugWrite mb v s) := by
  unfold State.debugWrite
  repeat' first
    | with_reducible exact Keeps.refl _
    | with_reducible apply Keeps.ite
    | with_reducible apply Keeps.chain (closeDebug_keeps ..)
    | with_reducible apply Keeps.chain (openDebug_keeps ..)

theorem writeWord_keeps (mb b w v : Nat) (s : State) : Keeps [.cache, .time, .cnt, .power, .pts, .cyc, .fsp, .sched, .lock, .msg, .mower, .sec, .gate, .sheaf, .dio, .ua, .can, .log, .disp] s (State.writeWord mb b w v s) := by
  unfold State.writeWord
  repeat' first
    | with_reducible exact Keeps.refl _
    | with_reducible apply Keeps.ite
    | with_reducible apply Keeps.chain (upDisp_keeps _ _)
    | with_reducible apply Keeps.chain (upSheaf_keeps _ _)
    | with_reducible apply Keeps.chain (clearBlock_keeps ..)
    | with_reducible apply Keeps.chain (clearCan_keeps ..)
    | with_reducible apply Keeps.chain (clearDisp_keeps ..)
    | with_reducible apply Keeps.chain (clearGate_keeps ..)
    | with_reducible apply Keeps.chain (clearLock_keeps ..)
    | with_reducible apply Keeps.chain (clearMem_keeps ..)
    | with_reducible apply Keeps.chain (debugWrite_keeps ..)
    | with_reducible apply Keeps.chain (keyCtrl_keeps ..)
    | with_reducible apply Keeps.chain (keyWindow_keeps ..)
    | with_reducible apply Keeps.chain (markReenable_keeps ..)
    | with_reducible apply Keeps.chain (recoverCan_keeps ..)
    | with_reducible apply Keeps.chain (setBox_keeps ..)
    | with_reducible apply Keeps.chain (take_keeps ..)
    | split
    | dsimp only

theorem paramRead_keeps (r : Req) (s : State) : Keeps [.msg] s (paramRead r s).1 := by
  unfold paramRead
  repeat' first
    | with_reducible exact Keeps.refl _
    | with_reducible apply Keeps.iteFst
    | with_reducible apply Keeps.chain (latchWords_keeps ..)
    | with_reducible refine guarded_keeps _ _ _ ?_
    | with_reducible refine reply_keeps ?_
    | split
    | dsimp only

theorem paramWrite_keeps (r : Req) (s : State) : Keeps [.cache, .time, .cnt, .power, .pts, .cyc, .fsp, .sched, .lock, .msg, .mower, .sec, .gate, .sheaf, .dio, .ua, .can, .log, .disp] s (paramWrite r s).1 := by
  unfold paramWrite
  repeat' first
    | with_reducible exact Keeps.refl _
    | (with_reducible refine Keeps.foldl ?_ (fun _ _ => ?_) _)
    | with_reducible apply Keeps.iteFst
    | with_reducible apply Keeps.chain (writeWord_keeps ..)
    | with_reducible refine guarded_keeps _ _ _ ?_
    | with_reducible refine reply_keeps ?_
    | split
    | dsimp only

end Sys2Proof.Machine
end

