-- ==== Sys2Proof/Laws/ExecParams.lean ====
section
/-! SUPPORT. What the commands of Params.lean may change. -/

set_option Elab.async false
set_option linter.all false

namespace Sys2Proof.Machine

theorem writeParams_keeps (t : Nat) (r : Req) (s : State) {s' : State} (h : writeParams t r s = .next s') : Keeps [.cache, .mem, .free, .out, .time, .cnt, .power, .pts, .cyc, .fsp, .sched, .lock, .msg, .mower, .sec, .gate, .sheaf, .dio, .ua, .can, .log, .disp] (s.arrive t) s' := by
  unfold writeParams at h
  refine happens_keeps (fun u _ => ?_) h
  exact run_keeps _ _ _ _ (fun v => (paramWrite_keeps ..).mono (by decide)) (by decide)

theorem execParamRead_keeps (t : Nat) (r : Req) (s : State) {s' : State} (h : execParamRead t r s = .next s') : Keeps [.cache, .mem, .free, .out, .msg, .gate, .log] (s.arrive t) s' := by
  unfold execParamRead at h
  refine happens_keeps (fun u _ => ?_) h
  repeat' first
    | with_reducible exact Keeps.refl _
    | with_reducible apply Keeps.ite
    | (with_reducible refine Keeps.foldl ?_ (fun _ _ => ?_) _)
    | with_reducible apply Keeps.iteFst
    | with_reducible refine run_keeps _ _ _ _ (fun _ => ?_) (by decide)
    | with_reducible apply Keeps.chain (paramRead_keeps ..)
    | split
    | dsimp only

theorem execParamWrite_keeps (t : Nat) (r : Req) (s : State) {s' : State} (h : execParamWrite t r s = .next s') : Keeps [.cache, .mem, .free, .out, .time, .cnt, .power, .pts, .cyc, .fsp, .sched, .lock, .msg, .mower, .sec, .gate, .sheaf, .dio, .ua, .can, .log, .disp] (s.arrive t) s' := by
  exact (writeParams_keeps _ _ _ h).mono (by decide)

theorem execPairStatus_keeps (t : Nat) (r : Req) (s : State) {s' : State} (h : execPairStatus t r s = .next s') : Keeps [.cache, .mem, .free, .out, .msg, .gate, .log] (s.arrive t) s' := by
  unfold execPairStatus at h
  refine happens_keeps (fun u _ => ?_) h
  repeat' first
    | with_reducible exact Keeps.refl _
    | with_reducible apply Keeps.ite
    | (with_reducible refine Keeps.foldl ?_ (fun _ _ => ?_) _)
    | with_reducible apply Keeps.iteFst
    | with_reducible refine run_keeps _ _ _ _ (fun _ => ?_) (by decide)
    | with_reducible refine reply_keeps ?_
    | split
    | dsimp only

theorem execPointsClrCounters_keeps (t : Nat) (h : Hdr) (s : State) {s' : State} (h : execPointsClrCounters t h s = .next s') : Keeps [.cache, .mem, .free, .out, .time, .cnt, .power, .pts, .cyc, .fsp, .sched, .lock, .msg, .mower, .sec, .gate, .sheaf, .dio, .ua, .can, .log, .disp] (s.arrive t) s' := by
  exact (writeParams_keeps _ _ _ h).mono (by decide)

theorem execCycleClrCounters_keeps (t : Nat) (h : Hdr) (s : State) {s' : State} (h : execCycleClrCounters t h s = .next s') : Keeps [.cache, .mem, .free, .out, .time, .cnt, .power, .pts, .cyc, .fsp, .sched, .lock, .msg, .mower, .sec, .gate, .sheaf, .dio, .ua, .can, .log, .disp] (s.arrive t) s' := by
  exact (writeParams_keeps _ _ _ h).mono (by decide)

theorem execSchedClrCounters_keeps (t : Nat) (h : Hdr) (s : State) {s' : State} (h : execSchedClrCounters t h s = .next s') : Keeps [.cache, .mem, .free, .out, .time, .cnt, .power, .pts, .cyc, .fsp, .sched, .lock, .msg, .mower, .sec, .gate, .sheaf, .dio, .ua, .can, .log, .disp] (s.arrive t) s' := by
  exact (writeParams_keeps _ _ _ h).mono (by decide)

theorem execTimeClrCounters_keeps (t : Nat) (h : Hdr) (s : State) {s' : State} (h : execTimeClrCounters t h s = .next s') : Keeps [.cache, .mem, .free, .out, .time, .cnt, .power, .pts, .cyc, .fsp, .sched, .lock, .msg, .mower, .sec, .gate, .sheaf, .dio, .ua, .can, .log, .disp] (s.arrive t) s' := by
  exact (writeParams_keeps _ _ _ h).mono (by decide)

theorem execPairClrCounters_keeps (t : Nat) (h : Hdr) (s : State) {s' : State} (h : execPairClrCounters t h s = .next s') : Keeps [.cache, .mem, .free, .out, .time, .cnt, .power, .pts, .cyc, .fsp, .sched, .lock, .msg, .mower, .sec, .gate, .sheaf, .dio, .ua, .can, .log, .disp] (s.arrive t) s' := by
  exact (writeParams_keeps _ _ _ h).mono (by decide)

theorem execPowerClrCounters_keeps (t : Nat) (h : Hdr) (s : State) {s' : State} (h : execPowerClrCounters t h s = .next s') : Keeps [.cache, .mem, .free, .out, .time, .cnt, .power, .pts, .cyc, .fsp, .sched, .lock, .msg, .mower, .sec, .gate, .sheaf, .dio, .ua, .can, .log, .disp] (s.arrive t) s' := by
  exact (writeParams_keeps _ _ _ h).mono (by decide)

theorem execLockClrCounters_keeps (t : Nat) (h : Hdr) (s : State) {s' : State} (h : execLockClrCounters t h s = .next s') : Keeps [.cache, .mem, .free, .out, .time, .cnt, .power, .pts, .cyc, .fsp, .sched, .lock, .msg, .mower, .sec, .gate, .sheaf, .dio, .ua, .can, .log, .disp] (s.arrive t) s' := by
  exact (writeParams_keeps _ _ _ h).mono (by decide)

theorem execReenable_keeps (t : Nat) (h : Hdr) (mask : Nat) (s : State) {s' : State} (h : execReenable t h mask s = .next s') : Keeps [.cache, .mem, .free, .out, .time, .cnt, .power, .pts, .cyc, .fsp, .sched, .lock, .msg, .mower, .sec, .gate, .sheaf, .dio, .ua, .can, .log, .disp] (s.arrive t) s' := by
  exact (writeParams_keeps _ _ _ h).mono (by decide)

theorem execMemClrCounters_keeps (t : Nat) (h : Hdr) (s : State) {s' : State} (h : execMemClrCounters t h s = .next s') : Keeps [.cache, .mem, .free, .out, .time, .cnt, .power, .pts, .cyc, .fsp, .sched, .lock, .msg, .mower, .sec, .gate, .sheaf, .dio, .ua, .can, .log, .disp] (s.arrive t) s' := by
  exact (writeParams_keeps _ _ _ h).mono (by decide)

theorem execKeyCtrlSetWindowBase_keeps (t : Nat) (h : Hdr) (base : Nat) (s : State) {s' : State} (h : execKeyCtrlSetWindowBase t h base s = .next s') : Keeps [.cache, .mem, .free, .out, .time, .cnt, .power, .pts, .cyc, .fsp, .sched, .lock, .msg, .mower, .sec, .gate, .sheaf, .dio, .ua, .can, .log, .disp] (s.arrive t) s' := by
  exact (writeParams_keeps _ _ _ h).mono (by decide)

theorem execKeyCtrlCommit_keeps (t : Nat) (h : Hdr) (s : State) {s' : State} (h : execKeyCtrlCommit t h s = .next s') : Keeps [.cache, .mem, .free, .out, .time, .cnt, .power, .pts, .cyc, .fsp, .sched, .lock, .msg, .mower, .sec, .gate, .sheaf, .dio, .ua, .can, .log, .disp] (s.arrive t) s' := by
  exact (writeParams_keeps _ _ _ h).mono (by decide)

theorem execKeyCtrlDiscardStaging_keeps (t : Nat) (h : Hdr) (s : State) {s' : State} (h : execKeyCtrlDiscardStaging t h s = .next s') : Keeps [.cache, .mem, .free, .out, .time, .cnt, .power, .pts, .cyc, .fsp, .sched, .lock, .msg, .mower, .sec, .gate, .sheaf, .dio, .ua, .can, .log, .disp] (s.arrive t) s' := by
  exact (writeParams_keeps _ _ _ h).mono (by decide)

theorem execKeyWindow_keeps (t : Nat) (h : Hdr) (first : Nat) (words : List Word) (s : State) {s' : State} (h : execKeyWindow t h first words s = .next s') : Keeps [.cache, .mem, .free, .out, .time, .cnt, .power, .pts, .cyc, .fsp, .sched, .lock, .msg, .mower, .sec, .gate, .sheaf, .dio, .ua, .can, .log, .disp] (s.arrive t) s' := by
  exact (writeParams_keeps _ _ _ h).mono (by decide)

theorem execGateClrCounters_keeps (t : Nat) (h : Hdr) (s : State) {s' : State} (h : execGateClrCounters t h s = .next s') : Keeps [.cache, .mem, .free, .out, .time, .cnt, .power, .pts, .cyc, .fsp, .sched, .lock, .msg, .mower, .sec, .gate, .sheaf, .dio, .ua, .can, .log, .disp] (s.arrive t) s' := by
  exact (writeParams_keeps _ _ _ h).mono (by decide)

theorem execDebugOpen_keeps (t : Nat) (h : Hdr) (s : State) {s' : State} (h : execDebugOpen t h s = .next s') : Keeps [.cache, .mem, .free, .out, .time, .cnt, .power, .pts, .cyc, .fsp, .sched, .lock, .msg, .mower, .sec, .gate, .sheaf, .dio, .ua, .can, .log, .disp] (s.arrive t) s' := by
  exact (writeParams_keeps _ _ _ h).mono (by decide)

theorem execDebugClose_keeps (t : Nat) (h : Hdr) (s : State) {s' : State} (h : execDebugClose t h s = .next s') : Keeps [.cache, .mem, .free, .out, .time, .cnt, .power, .pts, .cyc, .fsp, .sched, .lock, .msg, .mower, .sec, .gate, .sheaf, .dio, .ua, .can, .log, .disp] (s.arrive t) s' := by
  exact (writeParams_keeps _ _ _ h).mono (by decide)

theorem execSheafClrCounters_keeps (t : Nat) (h : Hdr) (s : State) {s' : State} (h : execSheafClrCounters t h s = .next s') : Keeps [.cache, .mem, .free, .out, .time, .cnt, .power, .pts, .cyc, .fsp, .sched, .lock, .msg, .mower, .sec, .gate, .sheaf, .dio, .ua, .can, .log, .disp] (s.arrive t) s' := by
  exact (writeParams_keeps _ _ _ h).mono (by decide)

theorem execDioClrCounters_keeps (t : Nat) (h : Hdr) (s : State) {s' : State} (h : execDioClrCounters t h s = .next s') : Keeps [.cache, .mem, .free, .out, .time, .cnt, .power, .pts, .cyc, .fsp, .sched, .lock, .msg, .mower, .sec, .gate, .sheaf, .dio, .ua, .can, .log, .disp] (s.arrive t) s' := by
  exact (writeParams_keeps _ _ _ h).mono (by decide)

theorem execUaClrCounters_keeps (t : Nat) (h : Hdr) (s : State) {s' : State} (h : execUaClrCounters t h s = .next s') : Keeps [.cache, .mem, .free, .out, .time, .cnt, .power, .pts, .cyc, .fsp, .sched, .lock, .msg, .mower, .sec, .gate, .sheaf, .dio, .ua, .can, .log, .disp] (s.arrive t) s' := by
  exact (writeParams_keeps _ _ _ h).mono (by decide)

theorem execRecoverCan_keeps (t : Nat) (h : Hdr) (ch : Nat) (s : State) {s' : State} (h : execRecoverCan t h ch s = .next s') : Keeps [.cache, .mem, .free, .out, .time, .cnt, .power, .pts, .cyc, .fsp, .sched, .lock, .msg, .mower, .sec, .gate, .sheaf, .dio, .ua, .can, .log, .disp] (s.arrive t) s' := by
  exact (writeParams_keeps _ _ _ h).mono (by decide)

theorem execCanClrCounters_keeps (t : Nat) (h : Hdr) (s : State) {s' : State} (h : execCanClrCounters t h s = .next s') : Keeps [.cache, .mem, .free, .out, .time, .cnt, .power, .pts, .cyc, .fsp, .sched, .lock, .msg, .mower, .sec, .gate, .sheaf, .dio, .ua, .can, .log, .disp] (s.arrive t) s' := by
  exact (writeParams_keeps _ _ _ h).mono (by decide)

theorem execRecClrCounters_keeps (t : Nat) (h : Hdr) (s : State) {s' : State} (h : execRecClrCounters t h s = .next s') : Keeps [.cache, .mem, .free, .out, .time, .cnt, .power, .pts, .cyc, .fsp, .sched, .lock, .msg, .mower, .sec, .gate, .sheaf, .dio, .ua, .can, .log, .disp] (s.arrive t) s' := by
  exact (writeParams_keeps _ _ _ h).mono (by decide)

theorem execDispClrCounters_keeps (t : Nat) (h : Hdr) (s : State) {s' : State} (h : execDispClrCounters t h s = .next s') : Keeps [.cache, .mem, .free, .out, .time, .cnt, .power, .pts, .cyc, .fsp, .sched, .lock, .msg, .mower, .sec, .gate, .sheaf, .dio, .ua, .can, .log, .disp] (s.arrive t) s' := by
  exact (writeParams_keeps _ _ _ h).mono (by decide)

end Sys2Proof.Machine
end

