-- ==== Sys2Proof/Laws/KeepPower.lean ====
section
/-! SUPPORT. What the operations of Power.lean may change; each keeps the form of a state and the instant. -/

set_option Elab.async false
set_option linter.all false

namespace Sys2Proof.Machine

theorem cancelStart_keeps (s : State) : Keeps [.out, .pair, .boot] s (State.cancelStart s) := by
  unfold State.cancelStart
  repeat' first
    | with_reducible exact Keeps.refl _
    | with_reducible apply Keeps.ite
    | with_reducible apply Keeps.chain (upBoot_keeps _ _)
    | with_reducible apply Keeps.chain (upPair_keeps _ _ (by first | exact id | exact fun h => by cases h | (dsimp only; split <;> exact id) | (unfold setLane; split <;> exact id)))
    | with_reducible apply Keeps.chain (dropClaim_keeps ..)

theorem layDown_keeps (owner synced : Bool) (s : State) : Keeps [.out, .pair, .boot, .cyc, .fsp, .sched, .dio, .ua, .can] s (State.layDown owner synced s) := by
  unfold State.layDown
  repeat' first
    | with_reducible exact Keeps.refl _
    | with_reducible apply Keeps.ite
    | with_reducible apply Keeps.chain (emit_keeps _ _)
    | with_reducible apply Keeps.chain (upDio_keeps _ _)
    | with_reducible apply Keeps.chain (upUa_keeps _ _)
    | with_reducible apply Keeps.chain (announce_keeps ..)
    | with_reducible apply Keeps.chain (cancelStart_keeps ..)
    | with_reducible apply Keeps.chain (dioToSafe_keeps ..)
    | with_reducible apply Keeps.chain (giveUp_keeps ..)
    | with_reducible apply Keeps.chain (uaToSafe_keeps ..)
    | dsimp only

theorem beginRetire_keeps (reason : Nat) (s : State) : Keeps [.out, .pair, .power, .boot, .cyc, .fsp, .sched, .cfg, .msg, .dio, .ua, .can, .disp] s (State.beginRetire reason s) := by
  unfold State.beginRetire
  repeat' first
    | with_reducible exact Keeps.refl _
    | with_reducible apply Keeps.ite
    | with_reducible apply Keeps.chain (upBoot_keeps _ _)
    | with_reducible apply Keeps.chain (upDisp_keeps _ _)
    | with_reducible apply Keeps.chain (upPower_keeps _ _ (by first | rfl | (dsimp only; split <;> rfl) | (dsimp only; repeat' first | rfl | split)))
    | with_reducible apply Keeps.chain (abandonArmed_keeps ..)
    | with_reducible apply Keeps.chain (layDown_keeps ..)
    | dsimp only

theorem switchOff_keeps (s : State) : Keeps [.cache, .mem, .boot, .sfp] s (State.switchOff s) := by
  unfold State.switchOff
  repeat' first
    | with_reducible exact Keeps.refl _
    | with_reducible apply Keeps.chain (upBoot_keeps _ _)
    | with_reducible apply Keeps.chain (upMem_keeps _ _ (fun w => by first | exact memWriteN_wf _ _ _ w | exact memStore_wf _ _ w | exact memClear_wf _ _ w | (apply memStore_wf; assumption) ))
    | with_reducible apply Keeps.chain (upSfp_keeps _ _)

theorem commitWrites_keeps (s : State) : Keeps [.cache, .time, .pair, .boot, .log, .disp] s (State.commitWrites s) := by
  unfold State.commitWrites
  repeat' first
    | with_reducible exact Keeps.refl _
    | with_reducible apply Keeps.chain (upBoot_keeps _ _)
    | with_reducible apply Keeps.chain (upDisp_keeps _ _)
    | with_reducible apply Keeps.chain (upPair_keeps _ _ (by first | exact id | exact fun h => by cases h | (dsimp only; split <;> exact id) | (unfold setLane; split <;> exact id)))
    | with_reducible apply Keeps.chain (flushRecords_keeps ..)
    | with_reducible apply Keeps.chain (record_keeps ..)
    | with_reducible apply Keeps.chain (saveTb3_keeps ..)
    | dsimp only

theorem retireRefresh_keeps (mj : Nat) (s : State) : Keeps [.free, .out, .power, .msg, .disp] s (State.retireRefresh mj s) := by
  unfold State.retireRefresh
  repeat' first
    | with_reducible exact Keeps.refl _
    | with_reducible apply Keeps.ite
    | with_reducible apply Keeps.chain (emit_keeps _ _)
    | with_reducible apply Keeps.chain (upDisp_keeps _ _)
    | with_reducible apply Keeps.chain (upPower_keeps _ _ (by first | rfl | (dsimp only; split <;> rfl) | (dsimp only; repeat' first | rfl | split)))
    | with_reducible apply Keeps.chain (useFree_keeps _)
    | with_reducible apply Keeps.chain (take_keeps ..)
    | dsimp only

theorem endRetire_keeps (s : State) : Keeps [.cache, .mem, .out, .time, .pair, .cnt, .power, .boot, .pts, .cyc, .fsp, .sched, .lock, .cfg, .msg, .mower, .sec, .gate, .sheaf, .dio, .ua, .can, .log, .disp, .sfp] s (State.endRetire s) := by
  unfold State.endRetire
  repeat' first
    | with_reducible exact Keeps.refl _
    | with_reducible apply Keeps.ite
    | with_reducible apply Keeps.chain (upBoot_keeps _ _)
    | with_reducible apply Keeps.chain (upPair_keeps _ _ (by first | exact id | exact fun h => by cases h | (dsimp only; split <;> exact id) | (unfold setLane; split <;> exact id)))
    | with_reducible apply Keeps.chain (upPower_keeps _ _ (by first | rfl | (dsimp only; split <;> rfl) | (dsimp only; repeat' first | rfl | split)))
    | with_reducible apply Keeps.chain (endAllSessions_keeps ..)
    | with_reducible apply Keeps.chain (flushRecords_keeps ..)
    | with_reducible apply Keeps.chain (goMode_keeps _ _ _)
    | with_reducible apply Keeps.chain (wake_keeps ..)
    | dsimp only

theorem powerUp_keeps (mv : Nat) (s : State) : Keeps [.cache, .mem, .out, .time, .pair, .cnt, .power, .boot, .pts, .cyc, .fsp, .sched, .lock, .cfg, .msg, .mower, .sec, .gate, .sheaf, .dio, .ua, .can, .log, .disp, .sfp] s (State.powerUp mv s) := by
  unfold State.powerUp
  repeat' first
    | with_reducible exact Keeps.refl _
    | with_reducible apply Keeps.ite
    | with_reducible apply Keeps.chain (upPower_keeps (PowerSt.readMain mv) _ rfl)
    | with_reducible apply Keeps.chain (upPower_keeps _ _ rfl)
    | with_reducible apply Keeps.chain (upBoot_keeps _ _)
    | with_reducible apply Keeps.chain (startBoot_keeps ..)
    | dsimp only

theorem losePower_keeps (mv : Nat) (s : State) : Keeps [.out, .pair, .power, .boot] s (State.losePower mv s) := by
  unfold State.losePower
  repeat' first
    | with_reducible exact Keeps.refl _
    | with_reducible apply Keeps.ite
    | with_reducible apply Keeps.chain (upPower_keeps _ _ (by first | rfl | (dsimp only; split <;> rfl) | (dsimp only; repeat' first | rfl | split)))
    | with_reducible apply Keeps.chain (bootStops_keeps ..)
    | dsimp only

theorem endDip_keeps (mv : Nat) (s : State) : Keeps [.cache, .power, .log] s (State.endDip mv s) := by
  unfold State.endDip
  apply Keeps.chain (record_keeps ..)
  apply Keeps.chain (upPower_keeps (PowerSt.readMain mv) _ rfl)
  exact (upPower_keeps _ _ rfl).mono (by decide)

theorem unplug_keeps (s : State) : Keeps [.out, .pair, .power, .boot, .cyc, .fsp, .sched, .cfg, .msg, .dio, .ua, .can, .disp] s (State.unplug s) := by
  unfold State.unplug
  repeat' first
    | with_reducible exact Keeps.refl _
    | with_reducible apply Keeps.ite
    | with_reducible apply Keeps.chain (upPower_keeps _ _ (by first | rfl | (dsimp only; split <;> rfl) | (dsimp only; repeat' first | rfl | split)))
    | with_reducible apply Keeps.chain (beginRetire_keeps ..)
    | with_reducible apply Keeps.chain (bootStops_keeps ..)
    | dsimp only

theorem measureHoldup_keeps (fullMj nowMj : Nat) (s : State) : Keeps [.cache, .power, .log] s (State.measureHoldup fullMj nowMj s) := by
  unfold State.measureHoldup
  repeat' first
    | with_reducible exact Keeps.refl _
    | with_reducible apply Keeps.ite
    | with_reducible apply Keeps.chain (upPower_keeps _ _ (by first | rfl | (dsimp only; split <;> rfl) | (dsimp only; repeat' first | rfl | split)))
    | with_reducible apply Keeps.chain (record_keeps ..)
    | dsimp only

theorem eject_keeps (s : State) : Keeps [.out, .pair, .power, .boot, .cyc, .fsp, .sched, .cfg, .msg, .dio, .ua, .can, .disp] s (State.eject s) := by
  unfold State.eject
  repeat' first
    | with_reducible exact Keeps.refl _
    | with_reducible apply Keeps.ite
    | with_reducible apply Keeps.chain (upBoot_keeps _ _)
    | with_reducible apply Keeps.chain (upPower_keeps _ _ (by first | rfl | (dsimp only; split <;> rfl) | (dsimp only; repeat' first | rfl | split)))
    | with_reducible apply Keeps.chain (armHandover_keeps ..)
    | with_reducible apply Keeps.chain (beginRetire_keeps ..)
    | with_reducible apply Keeps.chain (dropHandover_keeps ..)
    | dsimp only

theorem assertSafe_keeps (s : State) : Keeps [.cache, .out, .power, .dio, .ua, .log] s (State.assertSafe s) := by
  unfold State.assertSafe
  repeat' first
    | with_reducible exact Keeps.refl _
    | with_reducible apply Keeps.ite
    | with_reducible apply Keeps.chain (emit_keeps _ _)
    | with_reducible apply Keeps.chain (upPower_keeps _ _ (by first | rfl | (dsimp only; split <;> rfl) | (dsimp only; repeat' first | rfl | split)))
    | with_reducible apply Keeps.chain (dioToSafe_keeps ..)
    | with_reducible apply Keeps.chain (record_keeps ..)
    | with_reducible apply Keeps.chain (uaToSafe_keeps ..)
    | dsimp only

theorem peerChanges_keeps (present : Bool) (s : State) : Keeps [.pair, .cfg, .ua] s (State.peerChanges present s) := by
  unfold State.peerChanges
  repeat' first
    | with_reducible exact Keeps.refl _
    | with_reducible apply Keeps.ite
    | with_reducible apply Keeps.chain (upCfg_keeps _ _)
    | with_reducible apply Keeps.chain (upPair_keeps _ _ (by first | exact id | exact fun h => by cases h | (dsimp only; split <;> exact id) | (unfold setLane; split <;> exact id)))
    | with_reducible apply Keeps.chain (upUa_keeps _ _)
    | dsimp only

theorem tampered_keeps (k : Nat) (s : State) : Keeps [.cache, .mem, .out, .pair, .power, .boot, .cyc, .sched, .cfg, .msg, .sec, .gate, .sheaf, .dio, .ua, .can, .log] s (State.tampered k s) := by
  unfold State.tampered
  repeat' first
    | with_reducible exact Keeps.refl _
    | with_reducible apply Keeps.ite
    | with_reducible apply Keeps.chain (upBoot_keeps _ _)
    | with_reducible apply Keeps.chain (cancelStart_keeps ..)
    | with_reducible apply Keeps.chain (dropClaim_keeps ..)
    | with_reducible apply Keeps.chain (openDebug_keeps ..)
    | with_reducible apply Keeps.chain (safeHold_keeps ..)
    | with_reducible apply Keeps.chain (stayMode_keeps ..)
    | with_reducible apply Keeps.chain (tamperWipe_keeps ..)
    | dsimp only

theorem clockWindow_keeps (cycles : Nat) (s : State) : Keeps [.cache, .mem, .out, .pair, .power, .boot, .cyc, .sched, .cfg, .msg, .sec, .gate, .sheaf, .dio, .ua, .can, .log] s (State.clockWindow cycles s) := by
  unfold State.clockWindow
  repeat' first
    | with_reducible exact Keeps.refl _
    | with_reducible apply Keeps.ite
    | with_reducible apply Keeps.chain (upBoot_keeps _ _)
    | with_reducible apply Keeps.chain (tampered_keeps ..)
    | dsimp only

theorem service_keeps (s : State) : Keeps [.cache, .boot, .log] s (State.service s) := by
  unfold State.service
  repeat' first
    | with_reducible exact Keeps.refl _
    | with_reducible apply Keeps.chain (upBoot_keeps _ _)
    | with_reducible apply Keeps.chain (record_keeps ..)
    | split
    | dsimp only

theorem watchdogFires_keeps (s : State) : Keeps [.cache, .mem, .out, .time, .pair, .cnt, .power, .boot, .pts, .cyc, .fsp, .sched, .lock, .cfg, .msg, .mower, .sec, .gate, .sheaf, .dio, .ua, .can, .log, .disp, .sfp] s (State.watchdogFires s) := by
  unfold State.watchdogFires
  repeat' first
    | with_reducible exact Keeps.refl _
    | with_reducible apply Keeps.ite
    | with_reducible apply Keeps.chain (upBoot_keeps _ _)
    | with_reducible apply Keeps.chain (upSheaf_keeps _ _)
    | with_reducible apply Keeps.chain (cancelStart_keeps ..)
    | with_reducible apply Keeps.chain (dropClaim_keeps ..)
    | with_reducible apply Keeps.chain (safeHold_keeps ..)
    | with_reducible apply Keeps.chain (startBoot_keeps ..)
    | with_reducible apply Keeps.chain (stayMode_keeps ..)
    | with_reducible apply Keeps.chain (trialBoot_keeps ..)
    | dsimp only

end Sys2Proof.Machine
end

