-- ==== Sys2Proof/Laws/ExecPower.lean ====
section
/-! SUPPORT. What the commands of Power.lean may change. -/

set_option Elab.async false
set_option linter.all false

namespace Sys2Proof.Machine

theorem execWatchdogService_keeps (t : Nat) (s : State) {s' : State} (h : execWatchdogService t s = .next s') : Keeps [.cache, .boot, .log] (s.arrive t) s' := by
  unfold execWatchdogService at h
  refine happens_keeps (fun u _ => ?_) h
  repeat' first
    | with_reducible exact Keeps.refl _
    | with_reducible apply Keeps.ite
    | (with_reducible refine Keeps.foldl ?_ (fun _ _ => ?_) _)
    | with_reducible apply Keeps.iteFst
    | with_reducible apply Keeps.chain (service_keeps ..)
    | split
    | dsimp only

theorem execWatchdogExpiry_keeps (t : Nat) (s : State) {s' : State} (h : execWatchdogExpiry t s = .next s') : Keeps [.cache, .mem, .out, .time, .pair, .cnt, .power, .boot, .pts, .cyc, .fsp, .sched, .lock, .cfg, .msg, .mower, .sec, .gate, .sheaf, .dio, .ua, .can, .log, .disp, .sfp] (s.arrive t) s' := by
  unfold execWatchdogExpiry at h
  refine happens_keeps (fun u _ => ?_) h
  repeat' first
    | with_reducible exact Keeps.refl _
    | with_reducible apply Keeps.ite
    | (with_reducible refine Keeps.foldl ?_ (fun _ _ => ?_) _)
    | with_reducible apply Keeps.iteFst
    | with_reducible apply Keeps.chain (watchdogFires_keeps ..)
    | split
    | dsimp only

theorem execPllLossOfLock_keeps (t : Nat) (s : State) {s' : State} (h : execPllLossOfLock t s = .next s') : Keeps [.cache, .mem, .out, .pair, .power, .boot, .cyc, .sched, .cfg, .msg, .sec, .gate, .sheaf, .dio, .ua, .can, .log] (s.arrive t) s' := by
  unfold execPllLossOfLock at h
  refine happens_keeps (fun u _ => ?_) h
  repeat' first
    | with_reducible exact Keeps.refl _
    | with_reducible apply Keeps.ite
    | (with_reducible refine Keeps.foldl ?_ (fun _ _ => ?_) _)
    | with_reducible apply Keeps.iteFst
    | with_reducible apply Keeps.chain (tampered_keeps ..)
    | split
    | dsimp only

theorem execClockCheckWindow_keeps (t stwCycles : Nat) (s : State) {s' : State} (h : execClockCheckWindow t stwCycles s = .next s') : Keeps [.cache, .mem, .out, .pair, .power, .boot, .cyc, .sched, .cfg, .msg, .sec, .gate, .sheaf, .dio, .ua, .can, .log] (s.arrive t) s' := by
  unfold execClockCheckWindow at h
  refine happens_keeps (fun u _ => ?_) h
  repeat' first
    | with_reducible exact Keeps.refl _
    | with_reducible apply Keeps.ite
    | (with_reducible refine Keeps.foldl ?_ (fun _ _ => ?_) _)
    | with_reducible apply Keeps.iteFst
    | with_reducible apply Keeps.chain (clockWindow_keeps ..)
    | split
    | dsimp only

theorem execTamper_keeps (t : Nat) (k : Tamper) (s : State) {s' : State} (h : execTamper t k s = .next s') : Keeps [.cache, .mem, .out, .pair, .power, .boot, .cyc, .sched, .cfg, .msg, .sec, .gate, .sheaf, .dio, .ua, .can, .log] (s.arrive t) s' := by
  unfold execTamper at h
  refine happens_keeps (fun u _ => ?_) h
  repeat' first
    | with_reducible exact Keeps.refl _
    | with_reducible apply Keeps.ite
    | (with_reducible refine Keeps.foldl ?_ (fun _ _ => ?_) _)
    | with_reducible apply Keeps.iteFst
    | with_reducible apply Keeps.chain (tampered_keeps ..)
    | split
    | dsimp only

theorem execPowerGood_keeps (t mv : Nat) (s : State) {s' : State} (h : execPowerGood t mv s = .next s') : Keeps [.cache, .mem, .out, .time, .pair, .cnt, .power, .boot, .pts, .cyc, .fsp, .sched, .lock, .cfg, .msg, .mower, .sec, .gate, .sheaf, .dio, .ua, .can, .log, .disp, .sfp] (s.arrive t) s' := by
  unfold execPowerGood at h
  refine happens_keeps (fun u _ => ?_) h
  repeat' first
    | with_reducible exact Keeps.refl _
    | with_reducible apply Keeps.ite
    | (with_reducible refine Keeps.foldl ?_ (fun _ _ => ?_) _)
    | with_reducible apply Keeps.iteFst
    | with_reducible apply Keeps.chain (powerUp_keeps ..)
    | split
    | dsimp only

theorem execDip_keeps (t mv : Nat) (s : State) {s' : State} (h : execDip t mv s = .next s') : Keeps [.out, .pair, .power, .boot] (s.arrive t) s' := by
  unfold execDip at h
  refine happens_keeps (fun u _ => ?_) h
  repeat' first
    | with_reducible exact Keeps.refl _
    | with_reducible apply Keeps.ite
    | (with_reducible refine Keeps.foldl ?_ (fun _ _ => ?_) _)
    | with_reducible apply Keeps.iteFst
    | with_reducible apply Keeps.chain (losePower_keeps ..)
    | split
    | dsimp only

theorem execRideThroughEnd_keeps (t mv : Nat) (s : State) {s' : State} (h : execRideThroughEnd t mv s = .next s') : Keeps [.cache, .power, .log] (s.arrive t) s' := by
  unfold execRideThroughEnd at h
  refine happens_keeps (fun u _ => ?_) h
  repeat' first
    | with_reducible exact Keeps.refl _
    | with_reducible apply Keeps.ite
    | (with_reducible refine Keeps.foldl ?_ (fun _ _ => ?_) _)
    | with_reducible apply Keeps.iteFst
    | with_reducible apply Keeps.chain (endDip_keeps ..)
    | split
    | dsimp only

theorem execAuxGoodChange_keeps (t : Nat) (rising : Bool) (mv : Nat) (s : State) {s' : State} (h : execAuxGoodChange t rising mv s = .next s') : Keeps [.power] (s.arrive t) s' := by
  unfold execAuxGoodChange at h
  refine happens_keeps (fun u _ => ?_) h
  repeat' first
    | with_reducible exact Keeps.refl _
    | with_reducible apply Keeps.ite
    | (with_reducible refine Keeps.foldl ?_ (fun _ _ => ?_) _)
    | with_reducible apply Keeps.iteFst
    | with_reducible apply Keeps.chain (upPower_keeps _ _ (by first | rfl | (dsimp only; split <;> rfl) | (dsimp only; repeat' first | rfl | split)))
    | split
    | dsimp only

theorem execOverTemperature_keeps (t : Nat) (tenths : Int) (s : State) {s' : State} (h : execOverTemperature t tenths s = .next s') : Keeps [.out, .pair, .power, .boot, .cyc, .fsp, .sched, .cfg, .msg, .dio, .ua, .can, .disp] (s.arrive t) s' := by
  unfold execOverTemperature at h
  refine happens_keeps (fun u _ => ?_) h
  repeat' first
    | with_reducible exact Keeps.refl _
    | with_reducible apply Keeps.ite
    | (with_reducible refine Keeps.foldl ?_ (fun _ _ => ?_) _)
    | with_reducible apply Keeps.iteFst
    | with_reducible apply Keeps.chain (upPower_keeps _ _ (by first | rfl | (dsimp only; split <;> rfl) | (dsimp only; repeat' first | rfl | split)))
    | with_reducible apply Keeps.chain (beginRetire_keeps ..)
    | split
    | dsimp only

theorem execLingCellLow_keeps (t mv : Nat) (s : State) {s' : State} (h : execLingCellLow t mv s = .next s') : Keeps [.cache, .power, .log] (s.arrive t) s' := by
  unfold execLingCellLow at h
  refine happens_keeps (fun u _ => ?_) h
  repeat' first
    | with_reducible exact Keeps.refl _
    | with_reducible apply Keeps.ite
    | (with_reducible refine Keeps.foldl ?_ (fun _ _ => ?_) _)
    | with_reducible apply Keeps.iteFst
    | with_reducible apply Keeps.chain (upPower_keeps _ _ (by first | rfl | (dsimp only; split <;> rfl) | (dsimp only; repeat' first | rfl | split)))
    | with_reducible apply Keeps.chain (record_keeps ..)
    | split
    | dsimp only

theorem execLingCellEmpty_keeps (t : Nat) (s : State) {s' : State} (h : execLingCellEmpty t s = .next s') : Keeps [.boot, .sec] (s.arrive t) s' := by
  unfold execLingCellEmpty at h
  refine happens_keeps (fun u _ => ?_) h
  repeat' first
    | with_reducible exact Keeps.refl _
    | with_reducible apply Keeps.ite
    | (with_reducible refine Keeps.foldl ?_ (fun _ _ => ?_) _)
    | with_reducible apply Keeps.iteFst
    | with_reducible apply Keeps.chain (upBoot_keeps _ _)
    | with_reducible apply Keeps.chain (upSec_keeps _ _)
    | split
    | dsimp only

theorem execPresentNBreak_keeps (t : Nat) (s : State) {s' : State} (h : execPresentNBreak t s = .next s') : Keeps [.out, .pair, .power, .boot, .cyc, .fsp, .sched, .cfg, .msg, .dio, .ua, .can, .disp] (s.arrive t) s' := by
  unfold execPresentNBreak at h
  refine happens_keeps (fun u _ => ?_) h
  repeat' first
    | with_reducible exact Keeps.refl _
    | with_reducible apply Keeps.ite
    | (with_reducible refine Keeps.foldl ?_ (fun _ _ => ?_) _)
    | with_reducible apply Keeps.iteFst
    | with_reducible apply Keeps.chain (unplug_keeps ..)
    | split
    | dsimp only

theorem execEjectNOpen_keeps (t : Nat) (s : State) {s' : State} (h : execEjectNOpen t s = .next s') : Keeps [.out, .pair, .power, .boot, .cyc, .fsp, .sched, .cfg, .msg, .dio, .ua, .can, .disp] (s.arrive t) s' := by
  unfold execEjectNOpen at h
  refine happens_keeps (fun u _ => ?_) h
  repeat' first
    | with_reducible exact Keeps.refl _
    | with_reducible apply Keeps.ite
    | (with_reducible refine Keeps.foldl ?_ (fun _ _ => ?_) _)
    | with_reducible apply Keeps.iteFst
    | with_reducible apply Keeps.chain (eject_keeps ..)
    | split
    | dsimp only

theorem execEjectNClose_keeps (t : Nat) (s : State) {s' : State} (h : execEjectNClose t s = .next s') : Keeps [.power, .boot] (s.arrive t) s' := by
  unfold execEjectNClose at h
  refine happens_keeps (fun u _ => ?_) h
  repeat' first
    | with_reducible exact Keeps.refl _
    | with_reducible apply Keeps.ite
    | (with_reducible refine Keeps.foldl ?_ (fun _ _ => ?_) _)
    | with_reducible apply Keeps.iteFst
    | with_reducible apply Keeps.chain (upBoot_keeps _ _)
    | with_reducible apply Keeps.chain (upPower_keeps _ _ (by first | rfl | (dsimp only; split <;> rfl) | (dsimp only; repeat' first | rfl | split)))
    | split
    | dsimp only

theorem execSafeNAssert_keeps (t : Nat) (s : State) {s' : State} (h : execSafeNAssert t s = .next s') : Keeps [.cache, .out, .power, .dio, .ua, .log] (s.arrive t) s' := by
  unfold execSafeNAssert at h
  refine happens_keeps (fun u _ => ?_) h
  repeat' first
    | with_reducible exact Keeps.refl _
    | with_reducible apply Keeps.ite
    | (with_reducible refine Keeps.foldl ?_ (fun _ _ => ?_) _)
    | with_reducible apply Keeps.iteFst
    | with_reducible apply Keeps.chain (assertSafe_keeps ..)
    | split
    | dsimp only

theorem execSafeNRelease_keeps (t : Nat) (s : State) {s' : State} (h : execSafeNRelease t s = .next s') : Keeps [.power] (s.arrive t) s' := by
  unfold execSafeNRelease at h
  refine happens_keeps (fun u _ => ?_) h
  repeat' first
    | with_reducible exact Keeps.refl _
    | with_reducible apply Keeps.ite
    | (with_reducible refine Keeps.foldl ?_ (fun _ _ => ?_) _)
    | with_reducible apply Keeps.iteFst
    | with_reducible apply Keeps.chain (upPower_keeps _ _ (by first | rfl | (dsimp only; split <;> rfl) | (dsimp only; repeat' first | rfl | split)))
    | split
    | dsimp only

theorem execPeerPresentNChange_keeps (t : Nat) (present : Bool) (s : State) {s' : State} (h : execPeerPresentNChange t present s = .next s') : Keeps [.pair, .cfg, .ua] (s.arrive t) s' := by
  unfold execPeerPresentNChange at h
  refine happens_keeps (fun u _ => ?_) h
  repeat' first
    | with_reducible exact Keeps.refl _
    | with_reducible apply Keeps.ite
    | (with_reducible refine Keeps.foldl ?_ (fun _ _ => ?_) _)
    | with_reducible apply Keeps.iteFst
    | with_reducible apply Keeps.chain (peerChanges_keeps ..)
    | split
    | dsimp only

theorem execWakeEvent_keeps (t holdupMj : Nat) (s : State) {s' : State} (h : execWakeEvent t holdupMj s = .next s') : Keeps [.cache, .mem, .out, .time, .pair, .cnt, .power, .boot, .pts, .cyc, .fsp, .sched, .lock, .cfg, .msg, .mower, .sec, .gate, .sheaf, .dio, .ua, .can, .log, .disp, .sfp] (s.arrive t) s' := by
  unfold execWakeEvent at h
  refine happens_keeps (fun u _ => ?_) h
  repeat' first
    | with_reducible exact Keeps.refl _
    | with_reducible apply Keeps.ite
    | (with_reducible refine Keeps.foldl ?_ (fun _ _ => ?_) _)
    | with_reducible apply Keeps.iteFst
    | with_reducible apply Keeps.chain (upPower_keeps _ _ (by first | rfl | (dsimp only; split <;> rfl) | (dsimp only; repeat' first | rfl | split)))
    | with_reducible apply Keeps.chain (wake_keeps ..)
    | split
    | dsimp only

theorem execWakeDelayExpiry_keeps (t holdupMj : Nat) (s : State) {s' : State} (h : execWakeDelayExpiry t holdupMj s = .next s') : Keeps [.cache, .mem, .out, .time, .pair, .cnt, .power, .boot, .pts, .cyc, .fsp, .sched, .lock, .cfg, .msg, .mower, .sec, .gate, .sheaf, .dio, .ua, .can, .log, .disp, .sfp] (s.arrive t) s' := by
  unfold execWakeDelayExpiry at h
  refine happens_keeps (fun u _ => ?_) h
  repeat' first
    | with_reducible exact Keeps.refl _
    | with_reducible apply Keeps.ite
    | (with_reducible refine Keeps.foldl ?_ (fun _ _ => ?_) _)
    | with_reducible apply Keeps.iteFst
    | with_reducible apply Keeps.chain (upPower_keeps _ _ (by first | rfl | (dsimp only; split <;> rfl) | (dsimp only; repeat' first | rfl | split)))
    | with_reducible apply Keeps.chain (wake_keeps ..)
    | split
    | dsimp only

theorem execRetireStart_keeps (t : Nat) (s : State) {s' : State} (h : execRetireStart t s = .next s') : Keeps [.out, .pair, .power, .boot, .cyc, .fsp, .sched, .cfg, .msg, .dio, .ua, .can, .disp] (s.arrive t) s' := by
  unfold execRetireStart at h
  refine happens_keeps (fun u _ => ?_) h
  repeat' first
    | with_reducible exact Keeps.refl _
    | with_reducible apply Keeps.ite
    | (with_reducible refine Keeps.foldl ?_ (fun _ _ => ?_) _)
    | with_reducible apply Keeps.iteFst
    | with_reducible apply Keeps.chain (beginRetire_keeps ..)
    | split
    | dsimp only

theorem execRetireSwitchOff_keeps (t : Nat) (s : State) {s' : State} (h : execRetireSwitchOff t s = .next s') : Keeps [.cache, .mem, .boot, .sfp] (s.arrive t) s' := by
  unfold execRetireSwitchOff at h
  refine happens_keeps (fun u _ => ?_) h
  repeat' first
    | with_reducible exact Keeps.refl _
    | with_reducible apply Keeps.ite
    | (with_reducible refine Keeps.foldl ?_ (fun _ _ => ?_) _)
    | with_reducible apply Keeps.iteFst
    | with_reducible apply Keeps.chain (switchOff_keeps ..)
    | split
    | dsimp only

theorem execRetireCommitWrites_keeps (t : Nat) (s : State) {s' : State} (h : execRetireCommitWrites t s = .next s') : Keeps [.cache, .time, .pair, .boot, .log, .disp] (s.arrive t) s' := by
  unfold execRetireCommitWrites at h
  refine happens_keeps (fun u _ => ?_) h
  repeat' first
    | with_reducible exact Keeps.refl _
    | with_reducible apply Keeps.ite
    | (with_reducible refine Keeps.foldl ?_ (fun _ _ => ?_) _)
    | with_reducible apply Keeps.iteFst
    | with_reducible apply Keeps.chain (commitWrites_keeps ..)
    | split
    | dsimp only

theorem execRetireImage_keeps (t holdupMj : Nat) (s : State) {s' : State} (h : execRetireImage t holdupMj s = .next s') : Keeps [.free, .out, .power, .msg, .disp] (s.arrive t) s' := by
  unfold execRetireImage at h
  refine happens_keeps (fun u _ => ?_) h
  repeat' first
    | with_reducible exact Keeps.refl _
    | with_reducible apply Keeps.ite
    | (with_reducible refine Keeps.foldl ?_ (fun _ _ => ?_) _)
    | with_reducible apply Keeps.iteFst
    | with_reducible apply Keeps.chain (retireRefresh_keeps ..)
    | split
    | dsimp only

theorem execRetireEnd_keeps (t : Nat) (s : State) {s' : State} (h : execRetireEnd t s = .next s') : Keeps [.cache, .mem, .out, .time, .pair, .cnt, .power, .boot, .pts, .cyc, .fsp, .sched, .lock, .cfg, .msg, .mower, .sec, .gate, .sheaf, .dio, .ua, .can, .log, .disp, .sfp] (s.arrive t) s' := by
  unfold execRetireEnd at h
  refine happens_keeps (fun u _ => ?_) h
  repeat' first
    | with_reducible exact Keeps.refl _
    | with_reducible apply Keeps.ite
    | (with_reducible refine Keeps.foldl ?_ (fun _ _ => ?_) _)
    | with_reducible apply Keeps.iteFst
    | with_reducible apply Keeps.chain (endRetire_keeps ..)
    | split
    | dsimp only

theorem execHoldupMeasurement_keeps (t fullMj nowMj : Nat) (s : State) {s' : State} (h : execHoldupMeasurement t fullMj nowMj s = .next s') : Keeps [.cache, .power, .log] (s.arrive t) s' := by
  unfold execHoldupMeasurement at h
  refine happens_keeps (fun u _ => ?_) h
  repeat' first
    | with_reducible exact Keeps.refl _
    | with_reducible apply Keeps.ite
    | (with_reducible refine Keeps.foldl ?_ (fun _ _ => ?_) _)
    | with_reducible apply Keeps.iteFst
    | with_reducible apply Keeps.chain (measureHoldup_keeps ..)
    | split
    | dsimp only

end Sys2Proof.Machine
end

