-- ==== Sys2Proof/Laws/ExecRecorder.lean ====
section
/-! SUPPORT. What the commands of Recorder.lean may change. -/

set_option Elab.async false
set_option linter.all false

namespace Sys2Proof.Machine

theorem execRecordAccept_keeps (t type : Nat) (payload : List Byte) (s : State) {s' : State} (h : execRecordAccept t type payload s = .next s') : Keeps [.cache, .time, .log] (s.arrive t) s' := by
  cases h
  exact (record__keeps ..).mono (by decide)

theorem execRecorderFlush_keeps (t : Nat) (s : State) {s' : State} (h : execRecorderFlush t s = .next s') : Keeps [.log] (s.arrive t) s' := by
  unfold execRecorderFlush at h
  refine happens_keeps (fun u _ => ?_) h
  repeat' first
    | with_reducible exact Keeps.refl _
    | with_reducible apply Keeps.ite
    | (with_reducible refine Keeps.foldl ?_ (fun _ _ => ?_) _)
    | with_reducible apply Keeps.iteFst
    | with_reducible apply Keeps.chain (flushRecords_keeps ..)
    | split
    | dsimp only

end Sys2Proof.Machine
end

