-- ==== Sys2Proof/Laws/ExecSched.lean ====
section
/-! SUPPORT. What the commands of Sched.lean may change. -/

set_option Elab.async false
set_option linter.all false

namespace Sys2Proof.Machine

theorem execSchedPut_keeps (t cls handle : Nat) (value : Word) (apply : Nat) (asap : Bool) (s : State) {s' : State} (h : execSchedPut t cls handle value apply asap s = .next s') : Keeps [.cache, .mem, .out, .sched] (s.arrive t) s' := by
  unfold execSchedPut at h
  refine happens_keeps (fun u _ => ?_) h
  repeat' first
    | with_reducible exact Keeps.refl _
    | with_reducible apply Keeps.ite
    | (with_reducible refine Keeps.foldl ?_ (fun _ _ => ?_) _)
    | with_reducible apply Keeps.iteFst
    | with_reducible apply Keeps.chain (schedPut_keeps ..)
    | split
    | dsimp only

theorem execSchedCancel_keeps (t id : Nat) (s : State) {s' : State} (h : execSchedCancel t id s = .next s') : Keeps [.cache, .mem, .out, .fsp, .sched, .log] (s.arrive t) s' := by
  unfold execSchedCancel at h
  refine happens_keeps (fun u _ => ?_) h
  repeat' first
    | with_reducible exact Keeps.refl _
    | with_reducible apply Keeps.ite
    | (with_reducible refine Keeps.foldl ?_ (fun _ _ => ?_) _)
    | with_reducible apply Keeps.iteFst
    | with_reducible apply Keeps.chain (schedCancel_keeps ..)
    | split
    | dsimp only

theorem execSchedStatus_keeps (t id : Nat) (s : State) {s' : State} (h : execSchedStatus t id s = .next s') : Keeps [.out] (s.arrive t) s' := by
  unfold execSchedStatus at h
  refine happens_keeps (fun u _ => ?_) h
  repeat' first
    | with_reducible exact Keeps.refl _
    | with_reducible apply Keeps.ite
    | (with_reducible refine Keeps.foldl ?_ (fun _ _ => ?_) _)
    | with_reducible apply Keeps.iteFst
    | with_reducible apply Keeps.chain (schedStatus_keeps ..)
    | split
    | dsimp only

theorem execSchedEvaluation_keeps (t : Nat) (s : State) {s' : State} (h : execSchedEvaluation t s = .next s') : Keeps [.cache, .mem, .out, .fsp, .sched, .log] (s.arrive t) s' := by
  unfold execSchedEvaluation at h
  refine happens_keeps (fun u _ => ?_) h
  repeat' first
    | with_reducible exact Keeps.refl _
    | with_reducible apply Keeps.ite
    | (with_reducible refine Keeps.foldl ?_ (fun _ _ => ?_) _)
    | with_reducible apply Keeps.iteFst
    | with_reducible apply Keeps.chain (evaluate_keeps ..)
    | split
    | dsimp only

theorem execSchedRetryTimeout_keeps (t station dispatch : Nat) (s : State) {s' : State} (h : execSchedRetryTimeout t station dispatch s = .next s') : Keeps [.cache, .mem, .out, .fsp, .sched] (s.arrive t) s' := by
  unfold execSchedRetryTimeout at h
  refine happens_keeps (fun u _ => ?_) h
  repeat' first
    | with_reducible exact Keeps.refl _
    | with_reducible apply Keeps.ite
    | (with_reducible refine Keeps.foldl ?_ (fun _ _ => ?_) _)
    | with_reducible apply Keeps.iteFst
    | with_reducible apply Keeps.chain (retrySched_keeps ..)
    | split
    | dsimp only

theorem execSchedAck_keeps (t : Nat) (f : RxFrame) (s : State) {s' : State} (h : execSchedAck t f s = .next s') : Keeps [.cache, .mem, .out, .pair, .cnt, .power, .cyc, .fsp, .sched, .cfg, .msg, .gate, .sheaf, .dio, .ua, .can, .log] (s.arrive t) s' := by
  unfold execSchedAck at h
  refine happens_keeps (fun u _ => ?_) h
  repeat' first
    | with_reducible exact Keeps.refl _
    | with_reducible apply Keeps.ite
    | (with_reducible refine Keeps.foldl ?_ (fun _ _ => ?_) _)
    | with_reducible apply Keeps.iteFst
    | with_reducible refine receive_keeps _ _ _ _ (fun _ _ => ?_) (by decide)
    | with_reducible apply Keeps.chain (schedAck_keeps ..)
    | split
    | dsimp only

theorem execPublish_keeps (t : Nat) (f : RxFrame) (s : State) {s' : State} (h : execPublish t f s = .next s') : Keeps [.cache, .mem, .out, .pair, .cnt, .power, .cyc, .fsp, .sched, .cfg, .msg, .gate, .sheaf, .dio, .ua, .can, .log] (s.arrive t) s' := by
  unfold execPublish at h
  refine happens_keeps (fun u _ => ?_) h
  repeat' first
    | with_reducible exact Keeps.refl _
    | with_reducible apply Keeps.ite
    | (with_reducible refine Keeps.foldl ?_ (fun _ _ => ?_) _)
    | with_reducible apply Keeps.iteFst
    | with_reducible apply Keeps.chain (publishReport_keeps ..)
    | with_reducible refine receive_keeps _ _ _ _ (fun _ _ => ?_) (by decide)
    | split
    | dsimp only

theorem execReportDeadlineExpiry_keeps (t id : Nat) (s : State) {s' : State} (h : execReportDeadlineExpiry t id s = .next s') : Keeps [.cache, .mem, .out, .fsp, .sched, .log] (s.arrive t) s' := by
  unfold execReportDeadlineExpiry at h
  refine happens_keeps (fun u _ => ?_) h
  repeat' first
    | with_reducible exact Keeps.refl _
    | with_reducible apply Keeps.ite
    | (with_reducible refine Keeps.foldl ?_ (fun _ _ => ?_) _)
    | with_reducible apply Keeps.iteFst
    | with_reducible apply Keeps.chain (settle_keeps ..)
    | split
    | dsimp only

end Sys2Proof.Machine
end

