-- ==== Sys2Proof/Laws/ExecSecure.lean ====
section
/-! SUPPORT. What the commands of Secure.lean may change. -/

set_option Elab.async false
set_option linter.all false

namespace Sys2Proof.Machine

theorem execOwnerLock_keeps (t : Nat) (r : Req) (s : State) {s' : State} (h : execOwnerLock t r s = .next s') : Keeps [.cache, .mem, .free, .out, .msg, .sec, .gate, .log] (s.arrive t) s' := by
  unfold execOwnerLock at h
  refine happens_keeps (fun u _ => ?_) h
  repeat' first
    | with_reducible exact Keeps.refl _
    | with_reducible apply Keeps.ite
    | (with_reducible refine Keeps.foldl ?_ (fun _ _ => ?_) _)
    | with_reducible apply Keeps.iteFst
    | with_reducible refine run_keeps _ _ _ _ (fun _ => ?_) (by decide)
    | with_reducible apply Keeps.chain (lockBody_keeps ..)
    | split
    | dsimp only

theorem execOwnerUnlock_keeps (t : Nat) (r : Req) (s : State) {s' : State} (h : execOwnerUnlock t r s = .next s') : Keeps [.cache, .mem, .free, .out, .msg, .sec, .gate, .log] (s.arrive t) s' := by
  unfold execOwnerUnlock at h
  refine happens_keeps (fun u _ => ?_) h
  repeat' first
    | with_reducible exact Keeps.refl _
    | with_reducible apply Keeps.ite
    | (with_reducible refine Keeps.foldl ?_ (fun _ _ => ?_) _)
    | with_reducible apply Keeps.iteFst
    | with_reducible refine run_keeps _ _ _ _ (fun _ => ?_) (by decide)
    | with_reducible apply Keeps.chain (lockBody_keeps ..)
    | split
    | dsimp only

theorem execLifecycleAdvance_keeps (t : Nat) (r : Req) (s : State) {s' : State} (h : execLifecycleAdvance t r s = .next s') : Keeps [.cache, .mem, .free, .out, .msg, .sec, .gate, .log] (s.arrive t) s' := by
  unfold execLifecycleAdvance at h
  refine happens_keeps (fun u _ => ?_) h
  repeat' first
    | with_reducible exact Keeps.refl _
    | with_reducible apply Keeps.ite
    | (with_reducible refine Keeps.foldl ?_ (fun _ _ => ?_) _)
    | with_reducible apply Keeps.iteFst
    | with_reducible refine run_keeps _ _ _ _ (fun _ => ?_) (by decide)
    | with_reducible apply Keeps.chain (lifecycleBody_keeps ..)
    | split
    | dsimp only

theorem execLifecycleJobEnd_keeps (t : Nat) (s : State) {s' : State} (h : execLifecycleJobEnd t s = .next s') : Keeps [.cache, .mem, .out, .cfg, .msg, .sec, .gate, .log] (s.arrive t) s' := by
  unfold execLifecycleJobEnd at h
  refine happens_keeps (fun u _ => ?_) h
  repeat' first
    | with_reducible exact Keeps.refl _
    | with_reducible apply Keeps.ite
    | (with_reducible refine Keeps.foldl ?_ (fun _ _ => ?_) _)
    | with_reducible apply Keeps.iteFst
    | with_reducible apply Keeps.chain (upSec_keeps _ _)
    | with_reducible apply Keeps.chain (advance_keeps ..)
    | with_reducible apply Keeps.chain (endJob_keeps ..)
    | split
    | dsimp only

theorem execGateCommit_keeps (t : Nat) (s : State) {s' : State} (h : execGateCommit t s = .next s') : Keeps [.gate] (s.arrive t) s' := by
  unfold execGateCommit at h
  exact happens_keeps (fun u _ => upGate_keeps _ _ id) h

theorem execCommitDrainDone_keeps (t : Nat) (s : State) {s' : State} (h : execCommitDrainDone t s = .next s') : Keeps [.gate] (s.arrive t) s' := by
  unfold execCommitDrainDone at h
  refine happens_keeps (fun u _ => ?_) h
  repeat' first
    | with_reducible exact Keeps.refl _
    | with_reducible apply Keeps.ite
    | (with_reducible refine Keeps.foldl ?_ (fun _ _ => ?_) _)
    | with_reducible apply Keeps.iteFst
    | with_reducible apply Keeps.chain (upGate_keeps _ _ (by first | exact id | exact fun h => by cases h | (dsimp only; split <;> exact id) | (unfold setLane; split <;> exact id)))
    | split
    | dsimp only

end Sys2Proof.Machine
end

