-- ==== Sys2Proof/Laws/KeepSheaf.lean ====
section
/-! SUPPORT. What the operations of Sheaf.lean may change; each keeps the form of a state and the instant. -/

set_option Elab.async false
set_option linter.all false

namespace Sys2Proof.Machine

theorem endVerify_keeps (s : State) : Keeps [.msg, .sheaf] s (State.endVerify s) := by
  unfold State.endVerify
  repeat' first
    | with_reducible exact Keeps.refl _
    | with_reducible apply Keeps.chain (upSheaf_keeps _ _)
    | with_reducible apply Keeps.chain (endJob_keeps ..)
    | split
    | dsimp only

theorem loadChunk_keeps (off : Nat) (data : List Byte) (s : State) : Keeps [.boot, .sheaf] s (State.loadChunk off data s).1 := by
  unfold State.loadChunk
  repeat' first
    | with_reducible exact Keeps.refl _
    | with_reducible apply Keeps.ite
    | with_reducible apply Keeps.iteFst
    | with_reducible apply Keeps.chain (upSheaf_keeps _ _)
    | with_reducible apply Keeps.chain (writeCommit_keeps ..)
    | with_reducible refine reply_keeps ?_
    | split
    | dsimp only

theorem loadBody_keeps (r : Req) (s : State) : Keeps [.boot, .sheaf] s (loadBody r s).1 := by
  unfold loadBody
  repeat' first
    | with_reducible exact Keeps.refl _
    | with_reducible apply Keeps.iteFst
    | with_reducible apply Keeps.chain (loadChunk_keeps ..)
    | with_reducible refine guarded_keeps _ _ _ ?_
    | split
    | dsimp only

theorem verifyBody_keeps  (s : State) : Keeps [.msg, .sheaf] s (verifyBody s).1 := by
  unfold verifyBody
  repeat' first
    | with_reducible exact Keeps.refl _
    | with_reducible apply Keeps.iteFst
    | with_reducible apply Keeps.chain (upSheaf_keeps _ _)
    | with_reducible refine guarded_keeps _ _ _ ?_
    | with_reducible refine withJob_keeps _ _ _ (fun _ _ => ?_) (by decide)
    | split
    | dsimp only

theorem activateBody_keeps  (s : State) : Keeps [.out, .msg, .sheaf] s (activateBody s).1 := by
  unfold activateBody
  repeat' first
    | with_reducible exact Keeps.refl _
    | with_reducible apply Keeps.ite
    | with_reducible apply Keeps.iteFst
    | with_reducible apply Keeps.chain (emit_keeps _ _)
    | with_reducible apply Keeps.chain (upSheaf_keeps _ _)
    | with_reducible refine guarded_keeps _ _ _ ?_
    | with_reducible refine withJob_keeps _ _ _ (fun _ _ => ?_) (by decide)
    | split
    | dsimp only

theorem noActivation_keeps (status : Nat) (s : State) : Keeps [.msg, .sheaf] s (State.noActivation status s) := by
  unfold State.noActivation
  repeat' first
    | with_reducible exact Keeps.refl _
    | with_reducible apply Keeps.chain (upSheaf_keeps _ _)
    | with_reducible apply Keeps.chain (endJob_keeps ..)

theorem tokenAnswer_keeps (granted : Bool) (s : State) : Keeps [.msg, .sheaf] s (State.tokenAnswer granted s) := by
  unfold State.tokenAnswer
  repeat' first
    | with_reducible exact Keeps.refl _
    | with_reducible apply Keeps.ite
    | with_reducible apply Keeps.chain (upSheaf_keeps _ _)
    | with_reducible apply Keeps.chain (noActivation_keeps ..)

theorem activate_keeps (s : State) : Keeps [.cache, .mem, .out, .time, .pair, .cnt, .power, .boot, .pts, .cyc, .fsp, .sched, .lock, .cfg, .msg, .mower, .sec, .gate, .sheaf, .dio, .ua, .can, .log, .disp, .sfp] s (State.activate s) := by
  unfold State.activate
  repeat' first
    | with_reducible exact Keeps.refl _
    | with_reducible apply Keeps.chain (endJob_keeps ..)
    | with_reducible apply Keeps.chain (invalidate_keeps ..)
    | with_reducible apply Keeps.chain (record_keeps ..)
    | with_reducible apply Keeps.chain (restart_keeps ..)
    | with_reducible apply Keeps.chain (writeCommit_keeps ..)
    | dsimp only

theorem recordWritten_keeps (readbackOk : Bool) (s : State) : Keeps [.cache, .mem, .out, .time, .pair, .cnt, .power, .boot, .pts, .cyc, .fsp, .sched, .lock, .cfg, .msg, .mower, .sec, .gate, .sheaf, .dio, .ua, .can, .log, .disp, .sfp] s (State.recordWritten readbackOk s) := by
  unfold State.recordWritten
  repeat' first
    | with_reducible exact Keeps.refl _
    | with_reducible apply Keeps.ite
    | with_reducible apply Keeps.chain (activate_keeps ..)
    | with_reducible apply Keeps.chain (noActivation_keeps ..)

theorem confirm_keeps (s : State) : Keeps [.cache, .boot, .sheaf, .log] s (State.confirm s) := by
  unfold State.confirm
  repeat' first
    | with_reducible exact Keeps.refl _
    | with_reducible apply Keeps.chain (record_keeps ..)
    | with_reducible apply Keeps.chain (writeCommit_keeps ..)
    | dsimp only

theorem passHealth_keeps (s : State) : Keeps [.cache, .boot, .sheaf, .log] s (State.passHealth s) := by
  unfold State.passHealth
  repeat' first
    | with_reducible exact Keeps.refl _
    | with_reducible apply Keeps.ite
    | with_reducible apply Keeps.chain (upSheaf_keeps _ _)
    | with_reducible apply Keeps.chain (confirm_keeps ..)
    | dsimp only

theorem fallbackNow_keeps (result : Nat) (s : State) : Keeps [.cache, .mem, .out, .time, .pair, .cnt, .power, .boot, .pts, .cyc, .fsp, .sched, .lock, .cfg, .msg, .mower, .sec, .gate, .sheaf, .dio, .ua, .can, .log, .disp, .sfp] s (State.fallbackNow result s) := by
  unfold State.fallbackNow
  repeat' first
    | with_reducible exact Keeps.refl _
    | with_reducible apply Keeps.ite
    | with_reducible apply Keeps.chain (upPair_keeps _ _ (by first | exact id | exact fun h => by cases h | (dsimp only; split <;> exact id) | (unfold setLane; split <;> exact id)))
    | with_reducible apply Keeps.chain (armHandover_keeps ..)
    | with_reducible apply Keeps.chain (fallback_keeps ..)
    | with_reducible apply Keeps.chain (restart_keeps ..)
    | split
    | dsimp only

theorem abandonBody_keeps (s : State) : Keeps [.msg, .sheaf] s (abandonBody s).1 := by
  unfold abandonBody
  repeat' first
    | with_reducible exact Keeps.refl _
    | with_reducible apply Keeps.ite
    | with_reducible apply Keeps.iteFst
    | with_reducible apply Keeps.chain (upSheaf_keeps _ _)
    | with_reducible apply Keeps.chain (endJob_keeps ..)
    | with_reducible refine reply_keeps ?_
    | split
    | dsimp only

theorem confirmBody_keeps  (s : State) : Keeps [.cache, .boot, .sheaf, .log] s (confirmBody s).1 := by
  unfold confirmBody
  repeat' first
    | with_reducible exact Keeps.refl _
    | with_reducible apply Keeps.iteFst
    | with_reducible apply Keeps.chain (confirm_keeps ..)
    | with_reducible refine guarded_keeps _ _ _ ?_
    | with_reducible refine reply_keeps ?_
    | split
    | dsimp only

theorem statusBody_keeps (s : State) : Keeps [] s (statusBody s).1 := by
  unfold statusBody
  repeat' first
    | with_reducible exact Keeps.refl _
    | with_reducible apply Keeps.iteFst
    | with_reducible refine reply_keeps ?_
    | split
    | dsimp only

end Sys2Proof.Machine
end

