-- ==== Sys2Proof/Laws/ExecSheaf.lean ====
section
/-! SUPPORT. What the commands of Sheaf.lean may change. -/

set_option Elab.async false
set_option linter.all false

namespace Sys2Proof.Machine

theorem execSheafLoad_keeps (t : Nat) (r : Req) (s : State) {s' : State} (h : execSheafLoad t r s = .next s') : Keeps [.cache, .mem, .free, .out, .boot, .msg, .gate, .sheaf, .log] (s.arrive t) s' := by
  unfold execSheafLoad at h
  refine happens_keeps (fun u _ => ?_) h
  repeat' first
    | with_reducible exact Keeps.refl _
    | with_reducible apply Keeps.ite
    | (with_reducible refine Keeps.foldl ?_ (fun _ _ => ?_) _)
    | with_reducible apply Keeps.iteFst
    | with_reducible refine run_keeps _ _ _ _ (fun _ => ?_) (by decide)
    | with_reducible apply Keeps.chain (loadBody_keeps ..)
    | split
    | dsimp only

theorem execSheafVerify_keeps (t : Nat) (r : Req) (s : State) {s' : State} (h : execSheafVerify t r s = .next s') : Keeps [.cache, .mem, .free, .out, .msg, .gate, .sheaf, .log] (s.arrive t) s' := by
  unfold execSheafVerify at h
  refine happens_keeps (fun u _ => ?_) h
  repeat' first
    | with_reducible exact Keeps.refl _
    | with_reducible apply Keeps.ite
    | (with_reducible refine Keeps.foldl ?_ (fun _ _ => ?_) _)
    | with_reducible apply Keeps.iteFst
    | with_reducible refine run_keeps _ _ _ _ (fun _ => ?_) (by decide)
    | with_reducible apply Keeps.chain (verifyBody_keeps ..)
    | split
    | dsimp only

theorem execSheafVerifyJobEnd_keeps (t : Nat) (s : State) {s' : State} (h : execSheafVerifyJobEnd t s = .next s') : Keeps [.msg, .sheaf] (s.arrive t) s' := by
  unfold execSheafVerifyJobEnd at h
  refine happens_keeps (fun u _ => ?_) h
  repeat' first
    | with_reducible exact Keeps.refl _
    | with_reducible apply Keeps.ite
    | (with_reducible refine Keeps.foldl ?_ (fun _ _ => ?_) _)
    | with_reducible apply Keeps.iteFst
    | with_reducible apply Keeps.chain (endVerify_keeps ..)
    | split
    | dsimp only

theorem execSheafActivate_keeps (t : Nat) (r : Req) (s : State) {s' : State} (h : execSheafActivate t r s = .next s') : Keeps [.cache, .mem, .free, .out, .msg, .gate, .sheaf, .log] (s.arrive t) s' := by
  unfold execSheafActivate at h
  refine happens_keeps (fun u _ => ?_) h
  repeat' first
    | with_reducible exact Keeps.refl _
    | with_reducible apply Keeps.ite
    | (with_reducible refine Keeps.foldl ?_ (fun _ _ => ?_) _)
    | with_reducible apply Keeps.iteFst
    | with_reducible refine run_keeps _ _ _ _ (fun _ => ?_) (by decide)
    | with_reducible apply Keeps.chain (activateBody_keeps ..)
    | split
    | dsimp only

theorem execSheafConfirm_keeps (t : Nat) (r : Req) (s : State) {s' : State} (h : execSheafConfirm t r s = .next s') : Keeps [.cache, .mem, .free, .out, .boot, .msg, .gate, .sheaf, .log] (s.arrive t) s' := by
  unfold execSheafConfirm at h
  refine happens_keeps (fun u _ => ?_) h
  repeat' first
    | with_reducible exact Keeps.refl _
    | with_reducible apply Keeps.ite
    | (with_reducible refine Keeps.foldl ?_ (fun _ _ => ?_) _)
    | with_reducible apply Keeps.iteFst
    | with_reducible refine run_keeps _ _ _ _ (fun _ => ?_) (by decide)
    | with_reducible apply Keeps.chain (confirmBody_keeps ..)
    | split
    | dsimp only

theorem execSheafStatus_keeps (t : Nat) (r : Req) (s : State) {s' : State} (h : execSheafStatus t r s = .next s') : Keeps [.cache, .mem, .free, .out, .msg, .gate, .log] (s.arrive t) s' := by
  unfold execSheafStatus at h
  refine happens_keeps (fun u _ => ?_) h
  repeat' first
    | with_reducible exact Keeps.refl _
    | with_reducible apply Keeps.ite
    | (with_reducible refine Keeps.foldl ?_ (fun _ _ => ?_) _)
    | with_reducible apply Keeps.iteFst
    | with_reducible refine run_keeps _ _ _ _ (fun _ => ?_) (by decide)
    | with_reducible apply Keeps.chain (statusBody_keeps ..)
    | split
    | dsimp only

theorem execSheafAbandon_keeps (t : Nat) (r : Req) (s : State) {s' : State} (h : execSheafAbandon t r s = .next s') : Keeps [.cache, .mem, .free, .out, .time, .pair, .cnt, .power, .boot, .pts, .cyc, .fsp, .sched, .lock, .cfg, .msg, .mower, .sec, .gate, .sheaf, .dio, .ua, .can, .log, .disp, .sfp] (s.arrive t) s' := by
  unfold execSheafAbandon at h
  refine happens_keeps (fun u _ => ?_) h
  dsimp only
  have k := serve_keeps (plainCmd 0x505 3 0) r abandonBody u (ps := [.cache, .mem, .free, .out, .time, .pair, .cnt, .power, .boot, .pts, .cyc, .fsp, .sched, .lock, .cfg, .msg, .mower, .sec, .gate, .sheaf, .dio, .ua, .can, .log, .disp, .sfp]) (fun v => (abandonBody_keeps v).mono (by decide)) (by decide)
  split <;> rename_i e <;> rw [e] at k
  · exact Keeps.ite (k.step (fallbackNow_keeps ..) (by decide)) k
  · exact k

theorem execTrialTokenRequest_keeps (t : Nat) (s : State) {s' : State} (h : execTrialTokenRequest t s = .next s') : Keeps [.out] (s.arrive t) s' := by
  unfold execTrialTokenRequest at h
  refine happens_keeps (fun u _ => ?_) h
  repeat' first
    | with_reducible exact Keeps.refl _
    | with_reducible apply Keeps.ite
    | (with_reducible refine Keeps.foldl ?_ (fun _ _ => ?_) _)
    | with_reducible apply Keeps.iteFst
    | with_reducible apply Keeps.chain (emit_keeps _ _)
    | split
    | dsimp only

theorem execTrialTokenGrant_keeps (t : Nat) (granted : Bool) (s : State) {s' : State} (h : execTrialTokenGrant t granted s = .next s') : Keeps [.msg, .sheaf] (s.arrive t) s' := by
  unfold execTrialTokenGrant at h
  refine happens_keeps (fun u _ => ?_) h
  repeat' first
    | with_reducible exact Keeps.refl _
    | with_reducible apply Keeps.ite
    | (with_reducible refine Keeps.foldl ?_ (fun _ _ => ?_) _)
    | with_reducible apply Keeps.iteFst
    | with_reducible apply Keeps.chain (tokenAnswer_keeps ..)
    | split
    | dsimp only

theorem execTrialTokenTimeout_keeps (t : Nat) (s : State) {s' : State} (h : execTrialTokenTimeout t s = .next s') : Keeps [.msg, .sheaf] (s.arrive t) s' := by
  unfold execTrialTokenTimeout at h
  refine happens_keeps (fun u _ => ?_) h
  repeat' first
    | with_reducible exact Keeps.refl _
    | with_reducible apply Keeps.ite
    | (with_reducible refine Keeps.foldl ?_ (fun _ _ => ?_) _)
    | with_reducible apply Keeps.iteFst
    | with_reducible apply Keeps.chain (noActivation_keeps ..)
    | split
    | dsimp only

theorem execActivationRecordWritten_keeps (t : Nat) (readbackOk : Bool) (s : State) {s' : State} (h : execActivationRecordWritten t readbackOk s = .next s') : Keeps [.cache, .mem, .out, .time, .pair, .cnt, .power, .boot, .pts, .cyc, .fsp, .sched, .lock, .cfg, .msg, .mower, .sec, .gate, .sheaf, .dio, .ua, .can, .log, .disp, .sfp] (s.arrive t) s' := by
  unfold execActivationRecordWritten at h
  refine happens_keeps (fun u _ => ?_) h
  repeat' first
    | with_reducible exact Keeps.refl _
    | with_reducible apply Keeps.ite
    | (with_reducible refine Keeps.foldl ?_ (fun _ _ => ?_) _)
    | with_reducible apply Keeps.iteFst
    | with_reducible apply Keeps.chain (recordWritten_keeps ..)
    | split
    | dsimp only

theorem execHealthDwellPass_keeps (t : Nat) (s : State) {s' : State} (h : execHealthDwellPass t s = .next s') : Keeps [.cache, .boot, .sheaf, .log] (s.arrive t) s' := by
  unfold execHealthDwellPass at h
  refine happens_keeps (fun u _ => ?_) h
  repeat' first
    | with_reducible exact Keeps.refl _
    | with_reducible apply Keeps.ite
    | (with_reducible refine Keeps.foldl ?_ (fun _ _ => ?_) _)
    | with_reducible apply Keeps.iteFst
    | with_reducible apply Keeps.chain (passHealth_keeps ..)
    | split
    | dsimp only

theorem execTrialWindowExpiry_keeps (t : Nat) (s : State) {s' : State} (h : execTrialWindowExpiry t s = .next s') : Keeps [.cache, .mem, .out, .time, .pair, .cnt, .power, .boot, .pts, .cyc, .fsp, .sched, .lock, .cfg, .msg, .mower, .sec, .gate, .sheaf, .dio, .ua, .can, .log, .disp, .sfp] (s.arrive t) s' := by
  unfold execTrialWindowExpiry at h
  refine happens_keeps (fun u _ => ?_) h
  repeat' first
    | with_reducible exact Keeps.refl _
    | with_reducible apply Keeps.ite
    | (with_reducible refine Keeps.foldl ?_ (fun _ _ => ?_) _)
    | with_reducible apply Keeps.iteFst
    | with_reducible apply Keeps.chain (fallbackNow_keeps ..)
    | split
    | dsimp only

theorem execTwinSheafPoll_keeps (t : Nat) (s : State) {s' : State} (h : execTwinSheafPoll t s = .next s') : Keeps [.out, .msg] (s.arrive t) s' := by
  unfold execTwinSheafPoll at h
  refine happens_keeps (fun u _ => ?_) h
  repeat' first
    | with_reducible exact Keeps.refl _
    | with_reducible apply Keeps.ite
    | (with_reducible refine Keeps.foldl ?_ (fun _ _ => ?_) _)
    | with_reducible apply Keeps.iteFst
    | with_reducible apply Keeps.chain (askTwin_keeps ..)
    | split
    | dsimp only

end Sys2Proof.Machine
end

