-- ==== Sys2Proof/Laws/KeepStart.lean ====
section
/-! SUPPORT. What the operations of Start.lean may change; each keeps the form of a state and the instant. -/

set_option Elab.async false
set_option linter.all false

namespace Sys2Proof.Machine

theorem modeBody_keeps (r : Req) (s : State) : Keeps [] s (modeBody r s).1 := by
  unfold modeBody
  repeat' first
    | with_reducible exact Keeps.refl _
    | with_reducible apply Keeps.iteFst
    | with_reducible refine guarded_keeps _ _ _ ?_
    | with_reducible refine reply_keeps ?_
    | split
    | dsimp only

theorem enterMaintenance_keeps (s : State) : Keeps [.cache, .out, .pair, .power, .boot, .cfg, .msg, .gate, .sheaf, .log] s (State.enterMaintenance s) := by
  unfold State.enterMaintenance
  repeat' first
    | with_reducible exact Keeps.refl _
    | with_reducible apply Keeps.ite
    | with_reducible apply Keeps.chain (upPair_keeps _ _ (by first | exact id | exact fun h => by cases h | (dsimp only; split <;> exact id) | (unfold setLane; split <;> exact id)))
    | with_reducible apply Keeps.chain (upPower_keeps _ _ (by first | rfl | (dsimp only; split <;> rfl) | (dsimp only; repeat' first | rfl | split)))
    | with_reducible apply Keeps.chain (abandonArmed_keeps ..)
    | with_reducible apply Keeps.chain (cancelStart_keeps ..)
    | with_reducible apply Keeps.chain (maintain_keeps ..)
    | dsimp only

theorem releaseStart_keeps (s : State) : Keeps [.cache, .out, .pair, .cnt, .power, .boot, .cyc, .fsp, .sched, .cfg, .msg, .gate, .sheaf, .dio, .ua, .can, .log] s (State.releaseStart s) := by
  unfold State.releaseStart
  repeat' first
    | with_reducible exact Keeps.refl _
    | with_reducible apply Keeps.ite
    | with_reducible apply Keeps.chain (upPower_keeps _ _ (by first | rfl | (dsimp only; split <;> rfl) | (dsimp only; repeat' first | rfl | split)))
    | with_reducible apply Keeps.chain (decide5_keeps ..)

theorem requestMode_keeps (target delay : Nat) (s : State) : Keeps [.cache, .mem, .out, .time, .pair, .cnt, .power, .boot, .pts, .cyc, .fsp, .sched, .lock, .cfg, .msg, .mower, .sec, .gate, .sheaf, .dio, .ua, .can, .log, .disp, .sfp] s (State.requestMode target delay s) := by
  unfold State.requestMode
  repeat' first
    | with_reducible exact Keeps.refl _
    | with_reducible apply Keeps.ite
    | with_reducible apply Keeps.chain (upPower_keeps _ _ (by first | rfl | (dsimp only; split <;> rfl) | (dsimp only; repeat' first | rfl | split)))
    | with_reducible apply Keeps.chain (beginRetire_keeps ..)
    | with_reducible apply Keeps.chain (enterMaintenance_keeps ..)
    | with_reducible apply Keeps.chain (releaseStart_keeps ..)
    | with_reducible apply Keeps.chain (restart_keeps ..)
    | with_reducible apply Keeps.chain (safeHold_keeps ..)
    | split

theorem becomeStandby_keeps (s : State) : Keeps [.cache, .mem, .out, .time, .pair, .cnt, .power, .boot, .pts, .cyc, .fsp, .sched, .lock, .cfg, .msg, .mower, .sec, .gate, .sheaf, .dio, .ua, .can, .log, .disp, .sfp] s (State.becomeStandby s) := by
  unfold State.becomeStandby
  repeat' first
    | with_reducible exact Keeps.refl _
    | with_reducible apply Keeps.ite
    | with_reducible apply Keeps.chain (upPair_keeps _ _ (by first | exact id | exact fun h => by cases h | (dsimp only; split <;> exact id) | (unfold setLane; split <;> exact id)))
    | with_reducible apply Keeps.chain (baseTo_keeps ..)
    | with_reducible apply Keeps.chain (beginRetire_keeps ..)
    | with_reducible apply Keeps.chain (endJob_keeps ..)
    | with_reducible apply Keeps.chain (goMode_keeps _ _ _)
    | with_reducible apply Keeps.chain (restart_keeps ..)
    | split
    | dsimp only

theorem diagnosed_keeps (n : Nat) (retestOk scanOk lbistOk cacheError : Bool) (s : State) : Keeps [.cache, .mem, .out, .time, .pair, .cnt, .power, .boot, .pts, .cyc, .fsp, .sched, .lock, .cfg, .msg, .mower, .sec, .gate, .sheaf, .dio, .ua, .can, .log, .disp, .sfp] s (State.diagnosed n retestOk scanOk lbistOk cacheError s) := by
  unfold State.diagnosed
  repeat' first
    | with_reducible exact Keeps.refl _
    | with_reducible apply Keeps.ite
    | with_reducible apply Keeps.chain (upLock_keeps _ _)
    | with_reducible apply Keeps.chain (disablePair_keeps ..)
    | with_reducible apply Keeps.chain (record_keeps ..)
    | with_reducible apply Keeps.chain (restart_keeps ..)
    | with_reducible apply Keeps.chain (setPair_keeps ..)
    | dsimp only

theorem relink_keeps (before s : State) : Keeps [.cache, .out, .time, .pair, .cnt, .power, .boot, .cyc, .fsp, .sched, .cfg, .msg, .gate, .sheaf, .dio, .ua, .can, .log] s (State.relink before s) := by
  unfold State.relink
  repeat' first
    | with_reducible exact Keeps.refl _
    | with_reducible apply Keeps.ite
    | with_reducible apply Keeps.chain (select_keeps ..)
    | with_reducible apply Keeps.chain (startAgain_keeps ..)

theorem changeSfp_keeps (port : Nat) (f : SfpSt → SfpSt) (s : State) : Keeps [.cache, .out, .time, .pair, .cnt, .power, .boot, .cyc, .fsp, .sched, .cfg, .msg, .gate, .sheaf, .dio, .ua, .can, .log, .sfp] s (State.changeSfp port f s) := by
  unfold State.changeSfp
  repeat' first
    | with_reducible exact Keeps.refl _
    | with_reducible apply Keeps.chain (upSfp_keeps _ _)
    | with_reducible apply Keeps.chain (relink_keeps ..)

end Sys2Proof.Machine
end

