-- ==== Sys2Proof/Laws/ExecStart.lean ====
section
/-! SUPPORT. What the commands of Start.lean may change. -/

set_option Elab.async false
set_option linter.all false

namespace Sys2Proof.Machine

theorem execModeRequest_keeps (t : Nat) (r : Req) (s : State) {s' : State} (h : execModeRequest t r s = .next s') : Keeps [.cache, .mem, .free, .out, .time, .pair, .cnt, .power, .boot, .pts, .cyc, .fsp, .sched, .lock, .cfg, .msg, .mower, .sec, .gate, .sheaf, .dio, .ua, .can, .log, .disp, .sfp] (s.arrive t) s' := by
  unfold execModeRequest at h
  refine happens_keeps (fun u _ => ?_) h
  have k := serve_keeps (plainCmd 0x101 (modeRole (field r.payload 0 1) u.power.mode) 8) r (modeBody r) u (ps := [.cache, .mem, .free, .out, .time, .pair, .cnt, .power, .boot, .pts, .cyc, .fsp, .sched, .lock, .cfg, .msg, .mower, .sec, .gate, .sheaf, .dio, .ua, .can, .log, .disp, .sfp]) (fun v => (modeBody_keeps r v).mono (by decide)) (by decide)
  split <;> rename_i e <;> rw [e] at k
  · exact Keeps.ite (k.step (requestMode_keeps ..) (by decide)) k
  · exact k

theorem execHandoverStandbyEntry_keeps (t : Nat) (s : State) {s' : State} (h : execHandoverStandbyEntry t s = .next s') : Keeps [.cache, .mem, .out, .time, .pair, .cnt, .power, .boot, .pts, .cyc, .fsp, .sched, .lock, .cfg, .msg, .mower, .sec, .gate, .sheaf, .dio, .ua, .can, .log, .disp, .sfp] (s.arrive t) s' := by
  unfold execHandoverStandbyEntry at h
  refine happens_keeps (fun u _ => ?_) h
  repeat' first
    | with_reducible exact Keeps.refl _
    | with_reducible apply Keeps.ite
    | (with_reducible refine Keeps.foldl ?_ (fun _ _ => ?_) _)
    | with_reducible apply Keeps.iteFst
    | with_reducible apply Keeps.chain (becomeStandby_keeps ..)
    | split
    | dsimp only

theorem execLockstepDiagnosisEnd_keeps (t cp : Nat) (retestOk scanOk lbistOk cacheError : Bool) (s : State) {s' : State} (h : execLockstepDiagnosisEnd t cp retestOk scanOk lbistOk cacheError s = .next s') : Keeps [.cache, .mem, .out, .time, .pair, .cnt, .power, .boot, .pts, .cyc, .fsp, .sched, .lock, .cfg, .msg, .mower, .sec, .gate, .sheaf, .dio, .ua, .can, .log, .disp, .sfp] (s.arrive t) s' := by
  unfold execLockstepDiagnosisEnd at h
  refine happens_keeps (fun u _ => ?_) h
  repeat' first
    | with_reducible exact Keeps.refl _
    | with_reducible apply Keeps.ite
    | (with_reducible refine Keeps.foldl ?_ (fun _ _ => ?_) _)
    | with_reducible apply Keeps.iteFst
    | with_reducible apply Keeps.chain (diagnosed_keeps ..)
    | split
    | dsimp only

theorem execSync_keeps (t : Nat) (m : SyncMsg) (s : State) {s' : State} (h : execSync t m s = .next s') : Keeps [.cache, .out, .time, .pair, .cnt, .power, .boot, .cyc, .fsp, .sched, .cfg, .msg, .gate, .sheaf, .dio, .ua, .can, .log] (s.arrive t) s' := by
  unfold execSync at h
  refine happens_keeps (fun u _ => ?_) h
  repeat' first
    | with_reducible exact Keeps.refl _
    | with_reducible apply Keeps.ite
    | (with_reducible refine Keeps.foldl ?_ (fun _ _ => ?_) _)
    | with_reducible apply Keeps.iteFst
    | with_reducible apply Keeps.chain (hearSync_keeps ..)
    | with_reducible apply Keeps.chain (startAgain_keeps ..)
    | split
    | dsimp only

theorem execSyncReceiptTimeout_keeps (t base : Nat) (s : State) {s' : State} (h : execSyncReceiptTimeout t base s = .next s') : Keeps [.cache, .out, .time, .pair, .cnt, .power, .boot, .cyc, .fsp, .sched, .cfg, .msg, .gate, .sheaf, .dio, .ua, .can, .log] (s.arrive t) s' := by
  unfold execSyncReceiptTimeout at h
  refine happens_keeps (fun u _ => ?_) h
  repeat' first
    | with_reducible exact Keeps.refl _
    | with_reducible apply Keeps.ite
    | (with_reducible refine Keeps.foldl ?_ (fun _ _ => ?_) _)
    | with_reducible apply Keeps.iteFst
    | with_reducible apply Keeps.chain (startAgain_keeps ..)
    | with_reducible apply Keeps.chain (syncLost_keeps ..)
    | split
    | dsimp only

theorem execAnnounceReceiptTimeout_keeps (t base : Nat) (s : State) {s' : State} (h : execAnnounceReceiptTimeout t base s = .next s') : Keeps [.cache, .out, .time, .pair, .cnt, .power, .boot, .cyc, .fsp, .sched, .cfg, .msg, .gate, .sheaf, .dio, .ua, .can, .log] (s.arrive t) s' := by
  unfold execAnnounceReceiptTimeout at h
  refine happens_keeps (fun u _ => ?_) h
  repeat' first
    | with_reducible exact Keeps.refl _
    | with_reducible apply Keeps.ite
    | (with_reducible refine Keeps.foldl ?_ (fun _ _ => ?_) _)
    | with_reducible apply Keeps.iteFst
    | with_reducible apply Keeps.chain (loseGm_keeps ..)
    | with_reducible apply Keeps.chain (startAgain_keeps ..)
    | split
    | dsimp only

theorem execGptpAnnounce_keeps (t : Nat) (m : AnnounceMsg) (s : State) {s' : State} (h : execGptpAnnounce t m s = .next s') : Keeps [.cache, .out, .time, .pair, .cnt, .power, .boot, .cyc, .fsp, .sched, .cfg, .msg, .gate, .sheaf, .dio, .ua, .can, .log] (s.arrive t) s' := by
  unfold execGptpAnnounce at h
  refine happens_keeps (fun u _ => ?_) h
  repeat' first
    | with_reducible exact Keeps.refl _
    | with_reducible apply Keeps.ite
    | (with_reducible refine Keeps.foldl ?_ (fun _ _ => ?_) _)
    | with_reducible apply Keeps.iteFst
    | with_reducible apply Keeps.chain (hearAnnounce_keeps ..)
    | with_reducible apply Keeps.chain (startAgain_keeps ..)
    | split
    | dsimp only

theorem execPdelayExchange_keeps (t port : Nat) (e : PdelayEvent) (s : State) {s' : State} (h : execPdelayExchange t port e s = .next s') : Keeps [.cache, .out, .time, .pair, .cnt, .power, .boot, .cyc, .fsp, .sched, .cfg, .msg, .gate, .sheaf, .dio, .ua, .can, .log] (s.arrive t) s' := by
  unfold execPdelayExchange at h
  refine happens_keeps (fun u _ => ?_) h
  repeat' first
    | with_reducible exact Keeps.refl _
    | with_reducible apply Keeps.ite
    | (with_reducible refine Keeps.foldl ?_ (fun _ _ => ?_) _)
    | with_reducible apply Keeps.iteFst
    | with_reducible apply Keeps.chain (pdelay_keeps ..)
    | with_reducible apply Keeps.chain (startAgain_keeps ..)
    | split
    | dsimp only

theorem execTwinClaimBegin_keeps (t : Nat) (malformed : Bool) (s : State) {s' : State} (h : execTwinClaimBegin t malformed s = .next s') : Keeps [.cache, .out, .pair, .cnt, .power, .boot, .cyc, .fsp, .sched, .cfg, .msg, .gate, .sheaf, .dio, .ua, .can, .log] (s.arrive t) s' := by
  unfold execTwinClaimBegin at h
  refine happens_keeps (fun u _ => ?_) h
  repeat' first
    | with_reducible exact Keeps.refl _
    | with_reducible apply Keeps.ite
    | (with_reducible refine Keeps.foldl ?_ (fun _ _ => ?_) _)
    | with_reducible apply Keeps.iteFst
    | with_reducible apply Keeps.chain (afterTie_keeps ..)
    | with_reducible apply Keeps.chain (twinClaims_keeps ..)
    | split
    | dsimp only

theorem execTwinClaimAbsent_keeps (t : Nat) (malformed : Bool) (s : State) {s' : State} (h : execTwinClaimAbsent t malformed s = .next s') : Keeps [.cache, .out, .pair, .cnt, .power, .boot, .cyc, .fsp, .sched, .cfg, .msg, .gate, .sheaf, .dio, .ua, .can, .log] (s.arrive t) s' := by
  unfold execTwinClaimAbsent at h
  refine happens_keeps (fun u _ => ?_) h
  repeat' first
    | with_reducible exact Keeps.refl _
    | with_reducible apply Keeps.ite
    | (with_reducible refine Keeps.foldl ?_ (fun _ _ => ?_) _)
    | with_reducible apply Keeps.iteFst
    | with_reducible apply Keeps.chain (hedgeIn_keeps ..)
    | with_reducible apply Keeps.chain (startAgain_keeps ..)
    | with_reducible apply Keeps.chain (twinAbsent_keeps ..)
    | split
    | dsimp only

theorem execReleasePattern_keeps (t : Nat) (malformed : Bool) (s : State) {s' : State} (h : execReleasePattern t malformed s = .next s') : Keeps [.cache, .out, .pair, .cnt, .power, .boot, .cyc, .fsp, .sched, .cfg, .msg, .gate, .sheaf, .dio, .ua, .can, .log] (s.arrive t) s' := by
  unfold execReleasePattern at h
  refine happens_keeps (fun u _ => ?_) h
  repeat' first
    | with_reducible exact Keeps.refl _
    | with_reducible apply Keeps.ite
    | (with_reducible refine Keeps.foldl ?_ (fun _ _ => ?_) _)
    | with_reducible apply Keeps.iteFst
    | with_reducible apply Keeps.chain (hedgeIn_keeps ..)
    | with_reducible apply Keeps.chain (released_keeps ..)
    | with_reducible apply Keeps.chain (startAgain_keeps ..)
    | split
    | dsimp only

theorem execLaneDown_keeps (t lane : Nat) (s : State) {s' : State} (h : execLaneDown t lane s = .next s') : Keeps [.cache, .out, .time, .pair, .cnt, .power, .boot, .cyc, .fsp, .sched, .cfg, .msg, .gate, .sheaf, .dio, .ua, .can, .log] (s.arrive t) s' := by
  unfold execLaneDown at h
  refine happens_keeps (fun u _ => ?_) h
  repeat' first
    | with_reducible exact Keeps.refl _
    | with_reducible apply Keeps.ite
    | (with_reducible refine Keeps.foldl ?_ (fun _ _ => ?_) _)
    | with_reducible apply Keeps.iteFst
    | with_reducible apply Keeps.chain (laneDown_keeps ..)
    | with_reducible apply Keeps.chain (startAgain_keeps ..)
    | split
    | dsimp only

theorem execYield_keeps (t _term : Nat) (s : State) {s' : State} (h : execYield t _term s = .next s') : Keeps [.cache, .out, .pair, .cnt, .power, .boot, .cyc, .fsp, .sched, .cfg, .msg, .gate, .sheaf, .dio, .ua, .can, .log] (s.arrive t) s' := by
  unfold execYield at h
  refine happens_keeps (fun u _ => ?_) h
  repeat' first
    | with_reducible exact Keeps.refl _
    | with_reducible apply Keeps.ite
    | (with_reducible refine Keeps.foldl ?_ (fun _ _ => ?_) _)
    | with_reducible apply Keeps.iteFst
    | with_reducible apply Keeps.chain (hearYield_keeps ..)
    | with_reducible apply Keeps.chain (startAgain_keeps ..)
    | split
    | dsimp only

theorem execSwathLoopback_keeps (t lane : Nat) (passed : Bool) (s : State) {s' : State} (h : execSwathLoopback t lane passed s = .next s') : Keeps [.cache, .out, .time, .pair, .cnt, .power, .boot, .cyc, .fsp, .sched, .cfg, .msg, .gate, .sheaf, .dio, .ua, .can, .log] (s.arrive t) s' := by
  unfold execSwathLoopback at h
  refine happens_keeps (fun u _ => ?_) h
  repeat' first
    | with_reducible exact Keeps.refl _
    | with_reducible apply Keeps.ite
    | (with_reducible refine Keeps.foldl ?_ (fun _ _ => ?_) _)
    | with_reducible apply Keeps.iteFst
    | with_reducible apply Keeps.chain (loopback_keeps ..)
    | with_reducible apply Keeps.chain (startAgain_keeps ..)
    | split
    | dsimp only

theorem execTransceiverInsertion_keeps (t port : Nat) (id : SfpId) (s : State) {s' : State} (h : execTransceiverInsertion t port id s = .next s') : Keeps [.cache, .out, .time, .pair, .cnt, .power, .boot, .cyc, .fsp, .sched, .cfg, .msg, .gate, .sheaf, .dio, .ua, .can, .log, .sfp] (s.arrive t) s' := by
  unfold execTransceiverInsertion at h
  refine happens_keeps (fun u _ => ?_) h
  repeat' first
    | with_reducible exact Keeps.refl _
    | with_reducible apply Keeps.ite
    | (with_reducible refine Keeps.foldl ?_ (fun _ _ => ?_) _)
    | with_reducible apply Keeps.iteFst
    | with_reducible apply Keeps.chain (changeSfp_keeps ..)
    | split
    | dsimp only

theorem execTransceiverMonitor_keeps (t port : Nat) (highAlarm : Bool) (s : State) {s' : State} (h : execTransceiverMonitor t port highAlarm s = .next s') : Keeps [.cache, .out, .time, .pair, .cnt, .power, .boot, .cyc, .fsp, .sched, .cfg, .msg, .gate, .sheaf, .dio, .ua, .can, .log, .sfp] (s.arrive t) s' := by
  unfold execTransceiverMonitor at h
  refine happens_keeps (fun u _ => ?_) h
  repeat' first
    | with_reducible exact Keeps.refl _
    | with_reducible apply Keeps.ite
    | (with_reducible refine Keeps.foldl ?_ (fun _ _ => ?_) _)
    | with_reducible apply Keeps.iteFst
    | with_reducible apply Keeps.chain (changeSfp_keeps ..)
    | split
    | dsimp only

theorem execLinkReturn_keeps (t port : Nat) (s : State) {s' : State} (h : execLinkReturn t port s = .next s') : Keeps [.cache, .out, .time, .pair, .cnt, .power, .boot, .cyc, .fsp, .sched, .cfg, .msg, .gate, .sheaf, .dio, .ua, .can, .log, .sfp] (s.arrive t) s' := by
  unfold execLinkReturn at h
  refine happens_keeps (fun u _ => ?_) h
  repeat' first
    | with_reducible exact Keeps.refl _
    | with_reducible apply Keeps.ite
    | (with_reducible refine Keeps.foldl ?_ (fun _ _ => ?_) _)
    | with_reducible apply Keeps.iteFst
    | with_reducible apply Keeps.chain (changeSfp_keeps ..)
    | split
    | dsimp only

end Sys2Proof.Machine
end

