-- ==== Sys2Proof/Laws/ExecTakeover.lean ====
section
/-! SUPPORT. What the commands of Takeover.lean may change. -/

set_option Elab.async false
set_option linter.all false

namespace Sys2Proof.Machine

theorem execClaimConfirmed_keeps (t : Nat) (s : State) {s' : State} (h : execClaimConfirmed t s = .next s') : Keeps [.cache, .mem, .out, .time, .pair, .cnt, .power, .pts, .cyc, .fsp, .sched, .cfg, .msg, .gate, .sheaf, .dio, .ua, .can, .log] (s.arrive t) s' := by
  unfold execClaimConfirmed at h
  refine happens_keeps (fun u _ => ?_) h
  repeat' first
    | with_reducible exact Keeps.refl _
    | with_reducible apply Keeps.ite
    | (with_reducible refine Keeps.foldl ?_ (fun _ _ => ?_) _)
    | with_reducible apply Keeps.iteFst
    | with_reducible apply Keeps.chain (control_keeps ..)
    | split
    | dsimp only

theorem execCheckpointReceived_keeps (t : Nat) (c : Ckpt) (s : State) {s' : State} (h : execCheckpointReceived t c s = .next s') : Keeps [.cache, .mem, .out, .time, .pair, .cnt, .power, .pts, .cyc, .sched, .cfg, .gate, .sheaf, .can, .log] (s.arrive t) s' := by
  unfold execCheckpointReceived at h
  refine happens_keeps (fun u _ => ?_) h
  repeat' first
    | with_reducible exact Keeps.refl _
    | with_reducible apply Keeps.ite
    | (with_reducible refine Keeps.foldl ?_ (fun _ _ => ?_) _)
    | with_reducible apply Keeps.iteFst
    | with_reducible apply Keeps.chain (hearCkpt_keeps ..)
    | split
    | dsimp only

theorem execCheckpointAck_keeps (t cls seq : Nat) (gaps : List Nat) (s : State) {s' : State} (h : execCheckpointAck t cls seq gaps s = .next s') : Keeps [.cnt] (s.arrive t) s' := by
  unfold execCheckpointAck at h
  refine happens_keeps (fun u _ => ?_) h
  repeat' first
    | with_reducible exact Keeps.refl _
    | with_reducible apply Keeps.ite
    | (with_reducible refine Keeps.foldl ?_ (fun _ _ => ?_) _)
    | with_reducible apply Keeps.iteFst
    | with_reducible apply Keeps.chain (hearAck_keeps ..)
    | split
    | dsimp only

theorem execCkptLate_keeps (t cls : Nat) (s : State) {s' : State} (h : execCkptLate t cls s = .next s') : Keeps [.cache, .pair, .cnt, .power, .cyc, .gate, .sheaf, .log] (s.arrive t) s' := by
  unfold execCkptLate at h
  refine happens_keeps (fun u _ => ?_) h
  repeat' first
    | with_reducible exact Keeps.refl _
    | with_reducible apply Keeps.ite
    | (with_reducible refine Keeps.foldl ?_ (fun _ _ => ?_) _)
    | with_reducible apply Keeps.iteFst
    | with_reducible apply Keeps.chain (ckptLate_keeps ..)
    | split
    | dsimp only

theorem execSynchronised_keeps (t : Nat) (s : State) {s' : State} (h : execSynchronised t s = .next s') : Keeps [.cache, .pair, .power, .gate, .sheaf, .log] (s.arrive t) s' := by
  unfold execSynchronised at h
  refine happens_keeps (fun u _ => ?_) h
  repeat' first
    | with_reducible exact Keeps.refl _
    | with_reducible apply Keeps.ite
    | (with_reducible refine Keeps.foldl ?_ (fun _ _ => ?_) _)
    | with_reducible apply Keeps.iteFst
    | with_reducible apply Keeps.chain (synchronise_keeps ..)
    | split
    | dsimp only

end Sys2Proof.Machine
end

