-- ==== Sys2Proof/Laws/Image.lean ====
section
/-! SUPPORT. Image entries and rules: fields and words, and what a write of one leaves of the others. -/

set_option Elab.async false
set_option linter.all false

namespace Sys2Proof.Machine

theorem leNat_leBytes (n : Nat) : ∀ x, leNat (leBytes n x) = x % 256 ^ n := by
  induction n with
  | zero => intro x; simp [leBytes, leNat, Nat.mod_one]
  | succ n ih =>
    intro x
    have e : x % 256 ^ (n + 1) = x % 256 + 256 * (x / 256 % 256 ^ n) := by rw [show 256 ^ (n + 1) = 256 * 256 ^ n by ring, Nat.mod_mul]
    rw [leBytes, leNat, ih, BitVec.toNat_ofNat, e]
theorem memReadN_writeN_self (m : Mem) (a n x : Nat) (h : Memory.wf m = true) : memReadN (memWriteN m a n x) a n = x % 256 ^ n := by
  rw [← leNat_leBytes]
  unfold memReadN
  congr 1
  apply List.ext_getElem
  · simp [memReadBytes, leBytes_length]
  · intro i h1 h2
    simp only [memReadBytes, List.getElem_map, List.getElem_range]
    exact memRead_writeBytes_in _ a i m h h2
theorem memReadN_writeN_ne (m : Mem) (a b n k x : Nat) (h : b + k ≤ a ∨ a + n ≤ b) : memReadN (memWriteN m a n x) b k = memReadN m b k := by
  unfold memReadN memReadBytes
  congr 1
  apply List.map_congr_left
  intro i hi
  simp only [List.mem_range] at hi
  exact memRead_store_out _ _ _ _ (by rw [leBytes_length]; omega)
/-- The fields of an entry, as its word holds them. -/
theorem imgOf_imgWord (g : Img) (hq : g.quality < 256) (ha : g.age < 65536) : imgOf (imgWord g) = g := by
  have hv := g.value.isLt
  have b (x : Bool) : b2n x ≤ 1 := by cases x <;> simp [b2n]
  have hb1 := b g.forced; have hb2 := b g.simulated; have hb3 := b g.changed; have hb4 := b g.stamped
  have hb5 := b g.held; have hb6 := b g.pend; have hb7 := b g.timed
  have inv (x : Bool) : (b2n x % 2 = 1) = (x = true) := by cases x <;> simp [b2n]
  have n1 : (imgWord g).toNat = g.value.toNat * 2 ^ 32 + g.quality * 2 ^ 24 + b2n g.forced * 2 ^ 23 + b2n g.simulated * 2 ^ 22 +
      b2n g.changed * 2 ^ 21 + b2n g.stamped * 2 ^ 20 + b2n g.held * 2 ^ 19 + b2n g.pend * 2 ^ 18 + b2n g.timed * 2 ^ 17 + g.age := by
    unfold imgWord
    rw [BitVec.toNat_ofNat, Nat.mod_eq_of_lt hq, Nat.mod_eq_of_lt ha]
    apply Nat.mod_eq_of_lt; omega
  have one (k : Nat) (x : Bool) (h : (imgWord g).toNat / 2 ^ k % 2 = b2n x) : bit (imgWord g).toNat k = x := by
    unfold bit
    rw [Nat.testBit_eq_decide_div_mod_eq, h]
    cases x <;> simp [b2n]
  unfold imgOf
  rw [one 23 g.forced (by omega), one 22 g.simulated (by omega), one 21 g.changed (by omega), one 20 g.stamped (by omega),
    one 19 g.held (by omega), one 18 g.pend (by omega), one 17 g.timed (by omega)]
  have e1 : bits (imgWord g).toNat 32 32 = g.value.toNat := by unfold bits; omega
  have e2 : bits (imgWord g).toNat 24 8 = g.quality := by unfold bits; omega
  have e3 : bits (imgWord g).toNat 0 16 = g.age := by unfold bits; omega
  rw [e1, e2, e3, BitVec.ofNat_toNat]
  simp
/-- A write of an entry changes no rule. -/
theorem ruleOf_setImage (h k : Nat) (e : Word64) (s : State) (hh : h < 0x600000) : (s.setImage h e).ruleOf k = s.ruleOf k := by
  unfold State.ruleOf State.setImage State.upMem
  dsimp only
  rw [memReadN_writeN_ne]
  unfold ruleAddr imageAddr; omega
/-- An entry written reads so afterwards, unless its rule has kind 0. -/
theorem image_setImage_self (h : Nat) (e : Word64) (s : State) (w : Memory.wf s.mem = true) (hh : h < 0x600000)
    (hk : (s.ruleOf h).toNat / 2 ^ 60 ≠ 0) : (s.setImage h e).image h = e := by
  unfold State.image
  rw [ruleOf_setImage _ _ _ _ hh, if_neg hk]
  unfold State.setImage State.upMem
  dsimp only
  rw [memReadN_writeN_self _ _ _ _ w]
  have := e.isLt
  rw [Nat.mod_eq_of_lt (by omega), BitVec.ofNat_toNat]; simp
/-- Every other entry reads as before. -/
theorem image_setImage_ne (h k : Nat) (e : Word64) (s : State) (hh : h < 0x600000) (hk : k ≠ h) : (s.setImage h e).image k = s.image k := by
  unfold State.image
  rw [ruleOf_setImage _ _ _ _ hh]
  unfold State.setImage State.upMem
  dsimp only
  rw [memReadN_writeN_ne]
  unfold imageAddr; omega

end Sys2Proof.Machine
end

