-- ==== Sys2Proof/Laws/Lists.lean ====
section
/-! SUPPORT. Replacing one element of a list. -/

set_option Elab.async false
set_option linter.all false

namespace Sys2Proof.Machine

@[simp] theorem setAt_length {α : Type} (f : α → α) (l : List α) : ∀ n, (setAt l n f).length = l.length := by
  induction l with
  | nil => intro n; rfl
  | cons x l ih => intro n; cases n <;> simp [setAt, ih]
theorem getD_setAt_self {α : Type} (f : α → α) (d : α) (l : List α) : ∀ n, n < l.length → (setAt l n f).getD n d = f (l.getD n d) := by
  induction l with
  | nil => intro n h; simp at h
  | cons x l ih =>
    intro n h
    cases n with
    | zero => rfl
    | succ n => exact ih n (by simpa using h)
theorem getD_setAt_ne {α : Type} (f : α → α) (d : α) (l : List α) : ∀ n m, n ≠ m → (setAt l n f).getD m d = l.getD m d := by
  induction l with
  | nil => intro n m _; rfl
  | cons x l ih =>
    intro n m h
    cases n <;> cases m <;> first | rfl | exact absurd rfl h | exact ih _ _ (by omega)
theorem setAt_setAt {α : Type} (f g : α → α) (l : List α) : ∀ n, setAt (setAt l n f) n g = setAt l n (fun x => g (f x)) := by
  induction l with
  | nil => intro n; rfl
  | cons x l ih => intro n; cases n <;> simp [setAt, ih]

end Sys2Proof.Machine
end

