-- ==== Sys2Proof/Laws/OpShared.lean ====
section
/-! SUPPORT. What shared operations do: modes, SAFE HOLD, answers, fields written by parameters, wipes, retires and points. -/

set_option Elab.async false
set_option linter.all false

set_option linter.all false

namespace Sys2Proof.Machine

theorem does_exec {c : Instr} {t : Nat} {s : State} {ps : List Part} {q : State → State → Prop}
    (k : ∀ s', exec c s = .next s' → Keeps ps (s.arrive t) s') (h : ∃ v : State, exec c s = .next v ∧ q (s.arrive t) v) : Does c t s ps q := by
  obtain ⟨v, h, hq⟩ := h
  exact ⟨v, h, (k _ h).frame, hq⟩
theorem mapFrom_getD {α : Type} (f : Nat → α → α) (d : α) (l : List α) : ∀ b n, n < l.length → (mapFrom f b l).getD n d = f (b + n) (l.getD n d) := by
  induction l with
  | nil => intro b n h; simp at h
  | cons x l ih =>
    intro b n h
    cases n with
    | zero => rfl
    | succ n => show (mapFrom f (b+1) l).getD n d = _; rw [ih (b+1) n (by simpa using h)]; congr 1; omega
theorem rec_f (ty : Nat) (qs) (s : State) (p : Part) (hp : p ∉ [.cache, .log, .mem]) : p.same s (s.record ty qs) := (record_keeps ty qs s).frame p (by revert hp; cases p <;> decide)
theorem goMode_power (new reason : Nat) (s : State) : (s.goMode new reason).power = { s.power with mode := new, reason := if new = 2 ∨ new = 7 then reason else s.power.reason } := by
  unfold State.goMode; dsimp only
  rw [show ∀ (w : State) a b, (w.record a b).power = w.power from fun w a b => (record_keeps _ _ _).frame .power (by decide)]
  have c : ∀ b : Bool, (if b = true then s.closeDebug else s).power = s.power := fun b => by
    split
    · exact (closeDebug_keeps _).frame .power (by decide)
    · rfl
  unfold State.upPower State.upPair; dsimp only
  rw [show ∀ (b : Bool) (w : State) f, (if b = true then w else w.upSheaf f).power = w.power from fun b w f => by split <;> rfl]
  rw [c]; simp
theorem goMode_pair (new reason : Nat) (s : State) : (s.goMode new reason).pair = { s.pair with owner := s.pair.owner && (new == 5 || new == 6) } := by
  unfold State.goMode; dsimp only
  rw [show ∀ (w : State) a b, (w.record a b).pair = w.pair from fun w a b => (record_keeps _ _ _).frame .pair (by decide)]
  have c : ∀ b : Bool, (if b = true then s.closeDebug else s).pair = s.pair := fun b => by
    split
    · exact (closeDebug_keeps _).frame .pair (by decide)
    · rfl
  unfold State.upPower State.upPair; dsimp only
  rw [show ∀ (b : Bool) (w : State) f, (if b = true then w else w.upSheaf f).pair = w.pair from fun b w f => by split <;> rfl]
  rw [c]
theorem safeHold_f (reason : Nat) (s : State) :
    (s.safeHold reason).power.mode = 7 ∧ (s.safeHold reason).power.reason = reason ∧ (s.safeHold reason).pair.owner = false ∧
    (s.safeHold reason).pair.ownClaim = false ∧ (s.safeHold reason).pair.synced = false ∧ (s.safeHold reason).pair.armed = none ∧
    (s.safeHold reason).cfg.armed = none ∧ (s.safeHold reason).pair.twinClaim = s.pair.twinClaim ∧ (s.safeHold reason).pair.term = s.pair.term ∧
    (s.safeHold reason).power.fromOwner = (s.pair.owner || (s.power.mode == 7 && s.power.fromOwner)) ∧
    (s.pair.owner = true → s.pair.ownClaim = true → s.swathSilent = false →
      (s.safeHold reason).out = s.out ++ [.hedge 0, .swath (.yield s.pair.term), .safeStates]) ∧
    (∀ n, n < s.dio.ch.length → (s.safeHold reason).dioCh n = { s.dioCh n with commanded := dioSafe (s.dioWord n) (s.dioCh n) }) ∧
    (∀ n, n < s.ua.ch.length → (s.safeHold reason).uaCh n = { s.uaCh n with commanded := uaSafe (s.uaWord n) (s.uaWord1 n) (s.uaCh n) }) ∧
    Frame [.cache, .out, .pair, .power, .cyc, .sched, .cfg, .msg, .gate, .sheaf, .dio, .ua, .can, .log] s (s.safeHold reason) ∧ (s.safeHold reason).pair.lane0 = s.pair.lane0 ∧ (s.safeHold reason).pair.lane1 = s.pair.lane1 ∧ (s.safeHold reason).pair.silentAt = s.pair.silentAt := by
  have fr := (safeHold_keeps reason s).frame
  unfold State.safeHold
  dsimp only
  -- abandonArmed
  generalize hA : s.abandonArmed stState = a
  have kA := hA ▸ (abandonArmed_keeps stState s).frame
  have aP : a.pair = s.pair ∨ a.pair = { s.pair with armed := none, homeArmed := false } := by
    rw [← hA]; unfold State.abandonArmed
    cases hp : s.pair.armed <;> cases hc : s.cfg.armed <;> simp only [hp]
    all_goals simp only [State.upPair, State.upCfg, State.endJob, State.upMsg, hc, true_or, or_true]
  have aC : a.cfg.armed = none := by
    rw [← hA]; unfold State.abandonArmed
    cases hp : s.pair.armed <;> cases hc : s.cfg.armed <;> simp only [hp]
    all_goals simp only [State.upPair, State.upCfg, State.endJob, State.upMsg, hc]
  have aPow : a.power = s.power := kA .power (by decide)
  have aOut : a.out = s.out := kA .out (by decide)
  have aDio : a.dio = s.dio := kA .dio (by decide)
  have aUa : a.ua = s.ua := kA .ua (by decide)
  have aF : a.pair.owner = s.pair.owner ∧ a.pair.ownClaim = s.pair.ownClaim ∧ a.pair.twinClaim = s.pair.twinClaim ∧ a.pair.term = s.pair.term ∧ a.pair.lane0 = s.pair.lane0 ∧ a.pair.lane1 = s.pair.lane1 ∧ a.pair.silentAt = s.pair.silentAt := by
    rcases aP with h | h <;> rw [h] <;> exact ⟨rfl, rfl, rfl, rfl, rfl, rfl, rfl⟩
  generalize hB : a.giveUp = b
  have drop : ∀ w : State, w.dropClaim.pair.ownClaim = false ∧ w.dropClaim.pair.owner = w.pair.owner ∧ w.dropClaim.pair.twinClaim = w.pair.twinClaim ∧ w.dropClaim.pair.term = w.pair.term ∧ w.dropClaim.pair.lane0 = w.pair.lane0 ∧ w.dropClaim.pair.lane1 = w.pair.lane1 ∧ w.dropClaim.pair.silentAt = w.pair.silentAt ∧ (w.pair.ownClaim = true → w.dropClaim.out = w.out ++ [.hedge 0]) := by
    intro w; unfold State.dropClaim
    split
    · exact ⟨rfl, rfl, rfl, rfl, rfl, rfl, rfl, fun _ => rfl⟩
    · rename_i h; refine ⟨by simpa using h, rfl, rfl, rfl, rfl, rfl, rfl, fun k => absurd k h⟩
  have yld : ∀ w : State, w.sendYield.pair = w.pair ∧ (w.swathSilent = false → w.sendYield.out = w.out ++ [.swath (.yield w.pair.term)]) := by
    intro w; unfold State.sendYield
    split
    · rename_i h; exact ⟨rfl, fun k => by rw [h] at k; cases k⟩
    · exact ⟨rfl, fun _ => rfl⟩
  have bP : b.pair.owner = false ∧ b.pair.ownClaim = false ∧ b.pair.twinClaim = s.pair.twinClaim ∧ b.pair.term = s.pair.term ∧ b.pair.lane0 = s.pair.lane0 ∧ b.pair.lane1 = s.pair.lane1 ∧ b.pair.silentAt = s.pair.silentAt ∧
      (s.pair.owner = true → s.pair.ownClaim = true → s.swathSilent = false → b.out = s.out ++ [.hedge 0, .swath (.yield s.pair.term)]) := by
    rw [← hB]; unfold State.giveUp
    split
    · rename_i ho
      have d := drop a.notOwner
      rw [(yld _).1]
      have n : a.notOwner.pair = { a.pair with owner := false } := rfl
      rw [n] at d
      refine ⟨d.2.1, d.1, d.2.2.1.trans aF.2.2.1, d.2.2.2.1.trans aF.2.2.2.1, d.2.2.2.2.1.trans aF.2.2.2.2.1, d.2.2.2.2.2.1.trans aF.2.2.2.2.2.1, d.2.2.2.2.2.2.1.trans aF.2.2.2.2.2.2, fun h1 h2 h3 => ?_⟩
      have hs : a.notOwner.dropClaim.swathSilent = false := by
        unfold State.swathSilent at h3 ⊢; rw [d.2.2.2.2.1, d.2.2.2.2.2.1]; simp only; rw [aF.2.2.2.2.1, aF.2.2.2.2.2.1]; exact h3
      rw [(yld _).2 hs, d.2.2.2.2.2.2.2 (by show a.pair.ownClaim = true; rw [aF.2.1]; exact h2), d.2.2.2.1]
      show (a.out ++ _) ++ [.swath (.yield a.pair.term)] = _
      rw [aOut, aF.2.2.2.1]; simp
    · rename_i ho
      have d := drop a
      refine ⟨d.2.1.trans (by simpa using ho), d.1, d.2.2.1.trans aF.2.2.1, d.2.2.2.1.trans aF.2.2.2.1, d.2.2.2.2.1.trans aF.2.2.2.2.1, d.2.2.2.2.2.1.trans aF.2.2.2.2.2.1, d.2.2.2.2.2.2.1.trans aF.2.2.2.2.2.2, fun h1 => ?_⟩
      rw [aF.1] at ho; exact absurd h1 ho
  have kB := hB ▸ (giveUp_keeps a).frame
  have bPow : b.power = s.power := (kB .power (by decide)).trans aPow
  have bDio : b.dio = s.dio := (kB .dio (by decide)).trans aDio
  have bUa : b.ua = s.ua := (kB .ua (by decide)).trans aUa
  have bC : b.cfg.armed = none := by rw [show b.cfg = a.cfg from kB .cfg (by decide)]; exact aC
  have bConf : b.conf = s.conf := by
    have h1 : b.cfg = a.cfg := kB .cfg (by decide)
    have h2 : a.cfg.sown = s.cfg.sown := by
      rw [← hA]; unfold State.abandonArmed
      cases hp : s.pair.armed <;> cases hc : s.cfg.armed <;> simp only [hp]
      all_goals simp only [State.upPair, State.upCfg, State.endJob, State.upMsg, hc]
    unfold State.conf; rw [h1, h2]
  generalize hC : (b.upPair fun p => { p with synced := false, isolated := false, homeArmed := false, armed := none }).upPower (fun p => { p with fromOwner := s.pair.owner || (p.mode == 7 && p.fromOwner) }) = c
  have cP : c.pair = { b.pair with synced := false, isolated := false, homeArmed := false, armed := none } := hC ▸ rfl
  have cPow : c.power = { s.power with fromOwner := s.pair.owner || (s.power.mode == 7 && s.power.fromOwner) } := by rw [← hC]; unfold State.upPower State.upPair; dsimp only; rw [bPow]
  have cO : c.out = b.out := hC ▸ rfl
  have cDio : c.dio = s.dio := by rw [← bDio]; exact hC ▸ rfl
  have cUa : c.ua = s.ua := by rw [← bUa]; exact hC ▸ rfl
  have cC : c.cfg = b.cfg := hC ▸ rfl
  have cConf : c.conf = s.conf := by rw [← bConf]; unfold State.conf; rw [cC]
  generalize hD : (if (reason == 2 || reason == 3 || reason == 4 || reason == 13) = true then c.upSheaf fun h => { h with healthBroken := true, healthPassed := false } else c) = d
  have dE : d.pair = c.pair ∧ d.power = c.power ∧ d.out = c.out ∧ d.dio = c.dio ∧ d.ua = c.ua ∧ d.cfg = c.cfg := by
    rw [← hD]; split <;> exact ⟨rfl, rfl, rfl, rfl, rfl, rfl⟩
  have gp := goMode_power 7 reason d
  have gq := goMode_pair 7 reason d
  have gf := (goMode_keeps 7 reason d).frame
  have gO : (d.goMode 7 reason).out = d.out := gf .out (by decide)
  have gDio : (d.goMode 7 reason).dio = d.dio := gf .dio (by decide)
  have gUa : (d.goMode 7 reason).ua = d.ua := gf .ua (by decide)
  have gC : (d.goMode 7 reason).cfg = d.cfg := gf .cfg (by decide)
  have gConf : (d.goMode 7 reason).conf = s.conf := by rw [← cConf]; unfold State.conf; rw [gC, dE.2.2.2.2.2]
  generalize hE : d.goMode 7 reason = e at *
  have eP : e.pair = { c.pair with owner := c.pair.owner && (7 == 5 || 7 == 6) } := by rw [gq, dE.1]
  refine ⟨?_, ?_, ?_, ?_, ?_, ?_, ?_, ?_, ?_, ?_, ?_, ?_, ?_, ?_, ?_, ?_, ?_⟩
  · show e.power.mode = 7; rw [gp]
  · show e.power.reason = reason; rw [gp]; rfl
  · show e.pair.owner = false; rw [eP, cP]; simp
  · show e.pair.ownClaim = false; rw [eP, cP]; exact bP.2.1
  · show e.pair.synced = false; rw [eP, cP]
  · show e.pair.armed = none; rw [eP, cP]
  · show e.cfg.armed = none; rw [gC, dE.2.2.2.2.2, cC]; exact bC
  · show e.pair.twinClaim = _; rw [eP, cP]; exact bP.2.2.1
  · show e.pair.term = _; rw [eP, cP]; exact bP.2.2.2.1
  · show e.power.fromOwner = _; rw [gp, dE.2.1, cPow]
  · intro h1 h2 h3
    show e.out ++ [_] = _
    rw [gO, dE.2.2.1, cO, bP.2.2.2.2.2.2.2 h1 h2 h3]; simp
  · intro n hn
    show (mapFrom _ 0 e.dio.ch).getD n DioCh.reset = _
    rw [gDio, dE.2.2.2.1, cDio, mapFrom_getD _ _ _ _ _ hn, Nat.zero_add]
    unfold State.dioWord; rw [gConf]; rfl
  · intro n hn
    show (mapFrom _ 0 e.ua.ch).getD n UaCh.reset = _
    rw [gUa, dE.2.2.2.2.1, cUa, mapFrom_getD _ _ _ _ _ hn, Nat.zero_add]
    have : e.dioToSafe.conf = s.conf := gConf
    unfold State.uaWord State.uaWord1; rw [this]; rfl
  · have := fr; unfold State.safeHold at this; dsimp only at this; rw [hA] at this; rw [hB] at this; rw [hC] at this; rw [hD] at this; rw [hE] at this; exact this
  · show e.pair.lane0 = _; rw [eP, cP]; exact bP.2.2.2.2.1
  · show e.pair.lane1 = _; rw [eP, cP]; exact bP.2.2.2.2.2.1
  · show e.pair.silentAt = _; rw [eP, cP]; exact bP.2.2.2.2.2.2.1
theorem take_f (r : Req) (s : State) : (s.take r).power = s.power ∧ (s.take r).gate = s.gate ∧ (s.take r).sec = s.sec ∧ (s.take r).time = s.time := ⟨rfl, rfl, rfl, rfl⟩
theorem box_setAt (l : List Mailbox) (n m : Nat) (f : Mailbox → Mailbox) : (setAt l n f).getD m (Mailbox.reset m) = if n = m ∧ n < l.length then f (l.getD m (Mailbox.reset m)) else l.getD m (Mailbox.reset m) := by
  by_cases h : n = m
  · subst h
    by_cases k : n < l.length
    · rw [getD_setAt_self _ _ _ _ k, if_pos ⟨rfl, k⟩]
    · rw [if_neg (fun h => k h.2), List.getD_eq_default _ _ (by rw [setAt_length]; omega), List.getD_eq_default _ _ (by omega)]
  · rw [getD_setAt_ne _ _ _ _ _ h, if_neg (fun k => h k.1)]
theorem setBox_box (n m : Nat) (f : Mailbox → Mailbox) (s : State) : (s.setBox n f).box m = if n = m ∧ n < s.msg.boxes.length then f (s.box m) else s.box m := box_setAt _ _ _ _
theorem take_box (r : Req) (s : State) (m : Nat) : ((s.take r).box m).connected = (s.box m).connected ∧ ((s.take r).box m).granted = (s.box m).granted ∧
    ((s.take r).box m).role = (s.box m).role ∧ ((s.take r).box m).sid = (s.box m).sid ∧ ((s.take r).box m).busy = (s.box m).busy ∧
    ((s.take r).box m).reqLog = (s.box m).reqLog ∧ ((s.take r).box m).rspLog = (s.box m).rspLog ∧ ((s.take r).box m).doneLen = (s.box m).doneLen := by
  have : (s.take r).box m = (s.setBox r.mb fun x => { x with lastAt := s.time.now, held := if continues r then x.held else none, post := if 8 ≤ r.mb && x.post == 0 then 20 + r.payload.length else x.post }).box m := rfl
  rw [this, setBox_box]; split <;> exact ⟨rfl, rfl, rfl, rfl, rfl, rfl, rfl, rfl⟩
theorem take_rights (r : Req) (s : State) (m : Nat) : (s.take r).rights m = s.rights m := by
  unfold State.rights; rw [(take_box r s m).2.2.1]; rfl
theorem take_permitted (c : Cmd) (r : Req) (s : State) (m : Nat) : (s.take r).permitted c m = s.permitted c m := by
  unfold State.permitted; rw [take_rights]; rfl
theorem take_sessionOk (code : Nat) (r q : Req) (s : State) : (s.take r).sessionOk code q = s.sessionOk code q := by
  unfold State.sessionOk; rw [(take_box r s q.mb).2.2.2.1]
theorem take_inModes (c : Cmd) (r : Req) (s : State) (m : Nat) : (s.take r).inModes c m = s.inModes c m := rfl
theorem serve_ok {c : Cmd} {r : Req} {body : State → State × Option (Nat × List Byte)} {s v : State} {st : Nat} {data : List Byte}
    (h : s.accepts c r) (hb : body (s.take r) = (v, some (st, data))) : s.serve c r body = (v.respond (hdrOf r) c.code st data, some st) := by
  obtain ⟨_, h2, h3, h4, h5, h6, h7, h8⟩ := h
  unfold State.serve
  rw [h2, h3]; simp only [Bool.not_true, Bool.false_eq_true, if_false]
  rw [if_neg (by omega)]
  have : ((s.take r).power.mode != 1 && (s.take r).postBad r) = false := by
    show (s.power.mode != 1 && (s.take r).postBad r) = false
    by_cases k : s.power.mode = 1
    · simp [k]
    · have := h5 k
      have e : (s.take r).postBad r = s.postBad r := by unfold State.postBad State.reqRoom; rw [(take_box r s r.mb).2.2.2.2.2.1]
      rw [e, this]; simp
  rw [this, h6, h7, h8, hb]; simp
theorem run_ok {c : Cmd} {r : Req} {body : State → State × Option (Nat × List Byte)} {s v : State} {st : Nat} {data : List Byte}
    (h : s.accepts c r) (hb : body (s.take r) = (v, some (st, data))) : s.run c r body = v.respond (hdrOf r) c.code st data := by
  unfold State.run; rw [serve_ok h hb]
theorem answers_run {i : Instr} {t : Nat} {s : State} {c : Cmd} {r : Req} {body : State → State × Option (Nat × List Byte)} {ps : List Part}
    {q : State → Nat → List Byte → State → Prop} (he : exec i s = happens t s State.awake (State.run c r body)) (h : (s.arrive t).accepts c r)
    (hb : ∃ v st data, body ((s.arrive t).take r) = (v, some (st, data)) ∧ Frame ps ((s.arrive t).take r) v ∧ q ((s.arrive t).take r) st data v) :
    Answers i t s c r ps q := by
  obtain ⟨v, st, data, hb, hf, hq⟩ := hb
  exact ⟨v, st, data, by rw [he, happens_of h.1, run_ok h hb], hf, hq⟩
theorem Frame.rfl_ {ps : List Part} {s : State} : Frame ps s s := (Keeps.refl s (ps := ps)).frame
theorem guarded_ok {checks : List (State → Option Nat)} {body : State → State × Option (Nat × List Byte)} {s : State} (h : ∀ f ∈ checks, f s = none) : guarded checks body s = body s := by
  unfold guarded; rw [List.findSome?_eq_none_iff.2 h]
theorem guarded_first {f : State → Option Nat} {checks : List (State → Option Nat)} {body : State → State × Option (Nat × List Byte)} {s : State} {st : Nat} (h : f s = some st) : guarded (f :: checks) body s = (s, some (st, [])) := by
  unfold guarded; simp [List.findSome?_cons, h]
theorem guarded_pass {f : State → Option Nat} {checks : List (State → Option Nat)} {body : State → State × Option (Nat × List Byte)} {s : State} (h : f s = none) : guarded (f :: checks) body s = guarded checks body s := by
  unfold guarded; simp [List.findSome?_cons, h]
theorem guarded_nil {body : State → State × Option (Nat × List Byte)} {s : State} : guarded [] body s = body s := rfl
theorem need_ok {ok : State → Bool} {st : Nat} {s : State} (h : ok s = true) : need ok st s = none := by unfold need; rw [h]; rfl
theorem need_no {ok : State → Bool} {st : Nat} {s : State} (h : ok s = false) : need ok st s = some st := by unfold need; rw [h]; rfl
theorem res_ok {b : List Byte} {o n : Nat} {s : State} (h : zeros b o n = true) : reserved b o n s = none := need_ok h
theorem withJob_ok (code : Nat) (k : Nat → State → State) (u : State) (h : u.msg.jobs.length < 64) :
    ∃ id, withJob code k u = (k id (u.upMsg fun m => { m with nextJob := (id + 1) % 65536, jobs := m.jobs ++ [{ id := id, cmd := code, done := false, progress := 0, status := 0, result := [], endAt := 0 }] }), some (stAccepted, jobPayload id)) ∧
      (u.upMsg fun m => { m with nextJob := (id + 1) % 65536, jobs := m.jobs ++ [{ id := id, cmd := code, done := false, progress := 0, status := 0, result := [], endAt := 0 }] }).msg.jobs = u.msg.jobs ++ [{ id := id, cmd := code, done := false, progress := 0, status := 0, result := [], endAt := 0 }] := by
  refine ⟨freeJobId (u.msg.jobs.map fun j => j.id) 70 u.msg.nextJob, ?_, rfl⟩
  unfold withJob; rw [if_neg (by unfold State.jobRoom; simp [h])]
  unfold State.startJob; dsimp only; rw [if_pos h]; rfl
theorem answers_body {i : Instr} {t : Nat} {s : State} {c : Cmd} {r : Req} {body : State → State × Option (Nat × List Byte)} {ps : List Part}
    {q : State → Nat → List Byte → State → Prop} (he : exec i s = happens t s State.awake (State.run c r body)) (h : (s.arrive t).accepts c r)
    (hs : ∃ v st data, body ((s.arrive t).take r) = (v, some (st, data))) (k : ∀ u, Keeps ps u (body u).1)
    (hq : ∀ u v st data, u = (s.arrive t).take r → body u = (v, some (st, data)) → q u st data v) : Answers i t s c r ps q := by
  obtain ⟨v, st, data, hb⟩ := hs
  have f := (k ((s.arrive t).take r)).frame
  rw [hb] at f
  exact answers_run he h ⟨v, st, data, hb, f, hq _ _ _ _ rfl hb⟩
theorem guarded_some {checks : List (State → Option Nat)} {body : State → State × Option (Nat × List Byte)} {s : State} (h : ∃ v st data, body s = (v, some (st, data))) :
    ∃ v st data, guarded checks body s = (v, some (st, data)) := by
  unfold guarded; split
  · exact ⟨_, _, _, rfl⟩
  · exact h
theorem withJob_some (code : Nat) (k : Nat → State → State) (u : State) : ∃ v st data, withJob code k u = (v, some (st, data)) := by
  unfold withJob; split
  · exact ⟨_, _, _, rfl⟩
  · exact ⟨_, _, _, rfl⟩
theorem reply_some (st : Nat) (data : List Byte) (u : State) : ∃ v st' d, reply st data u = (v, some (st', d)) := ⟨_, _, _, rfl⟩
theorem pair_inj {α β γ : Type} {a a' : α} {b b' : β} {c c' : γ} (h : (a, some (b, c)) = (a', some (b', c'))) : a = a' ∧ b = b' ∧ c = c' := by
  simp only [Prod.mk.injEq, Option.some.injEq] at h; exact h
theorem guarded_bad {checks : List (State → Option Nat)} {body : State → State × Option (Nat × List Byte)} {s : State} {st : Nat} (h1 : ∀ f ∈ checks, f s = none ∨ f s = some st) (h2 : ∃ f ∈ checks, f s ≠ none) :
    guarded checks body s = (s, some (st, [])) := by
  induction checks with
  | nil => obtain ⟨f, hf, _⟩ := h2; simp at hf
  | cons g l ih =>
    rcases h1 g (by simp) with hg | hg
    · rw [guarded_pass hg]
      apply ih (fun f hf => h1 f (by simp [hf]))
      obtain ⟨f, hf, hn⟩ := h2
      rcases List.mem_cons.1 hf with e | e
      · rw [e] at hn; exact absurd hg hn
      · exact ⟨f, e, hn⟩
    · exact guarded_first hg
theorem need_or (ok : State → Bool) (st : Nat) (s : State) : need ok st s = none ∨ need ok st s = some st := by unfold need; split <;> simp
theorem need_ne {ok : State → Bool} {st : Nat} {s : State} (h : ok s = false) : need ok st s ≠ none := by rw [need_no h]; simp
theorem answers_all {i : Instr} {t : Nat} {s : State} {c : Cmd} {r : Req} {body : State → State × Option (Nat × List Byte)} {ps : List Part}
    {q : State → Nat → List Byte → State → Prop} (he : exec i s = happens t s State.awake (State.run c r body)) (h : (s.arrive t).accepts c r)
    (hs : ∀ u, ∃ v st data, body u = (v, some (st, data))) (k : ∀ u, Keeps ps u (body u).1)
    (hq : ∀ u v st data, u = (s.arrive t).take r → body u = (v, some (st, data)) → q u st data v) : Answers i t s c r ps q :=
  answers_body he h (hs _) k hq
theorem need_iff (ok : State → Bool) (st : Nat) (s : State) : need ok st s = none ↔ ok s = true := by unfold need; split <;> simp_all
theorem reserved_iff (b : List Byte) (o n : Nat) (s : State) : reserved b o n s = none ↔ zeros b o n = true := need_iff _ _ _
theorem reserved_or (b : List Byte) (o n : Nat) (s : State) : reserved b o n s = none ∨ reserved b o n s = some stRange := need_or _ _ _
theorem guarded_cases {checks : List (State → Option Nat)} {body : State → State × Option (Nat × List Byte)} {s : State} (st : Nat) (h1 : ∀ f ∈ checks, f s = none ∨ f s = some st) :
    ((∀ f ∈ checks, f s = none) ∧ guarded checks body s = body s) ∨ (¬(∀ f ∈ checks, f s = none) ∧ guarded checks body s = (s, some (st, []))) := by
  by_cases c : ∀ f ∈ checks, f s = none
  · exact .inl ⟨c, guarded_ok c⟩
  · refine .inr ⟨c, guarded_bad h1 ?_⟩
    push Not at c; exact c
theorem guarded_append {a b : List (State → Option Nat)} {body : State → State × Option (Nat × List Byte)} {s : State} (h : ∀ f ∈ a, f s = none) :
    guarded (a ++ b) body s = guarded b body s := by
  induction a with
  | nil => rfl
  | cons f l ih => rw [List.cons_append, guarded_pass (h f (by simp))]; exact ih fun g hg => h g (by simp [hg])
theorem cases_e {checks : List (State → Option Nat)} {body : State → State × Option (Nat × List Byte)} {s : State} {X : State × Option (Nat × List Byte)} (e : guarded checks body s = X) (st : Nat) (h1 : ∀ f ∈ checks, f s = none ∨ f s = some st) :
    ((∀ f ∈ checks, f s = none) ∧ body s = X) ∨ (¬(∀ f ∈ checks, f s = none) ∧ (s, some (st, [])) = X) := by
  rcases guarded_cases (body := body) st h1 with ⟨c, g⟩ | ⟨c, g⟩
  · exact .inl ⟨c, g ▸ e⟩
  · exact .inr ⟨c, g ▸ e⟩
theorem all_or_nil {s : State} {st : Nat} : ∀ f ∈ ([] : List (State → Option Nat)), f s = none ∨ f s = some st := by simp
theorem all_or_cons {s : State} {st : Nat} {g : State → Option Nat} {l : List (State → Option Nat)} (h : g s = none ∨ g s = some st) (k : ∀ f ∈ l, f s = none ∨ f s = some st) : ∀ f ∈ g :: l, f s = none ∨ f s = some st := by
  intro f hf; rcases List.mem_cons.1 hf with e | e
  · rw [e]; exact h
  · exact k f e
theorem slice_app (x y : List Byte) (n : Nat) : slice (x ++ y) 0 x.length = x := by unfold slice; simp
theorem slice_skip (x y : List Byte) (o n : Nat) : slice (x ++ y) (x.length + o) n = slice y o n := by unfold slice; rw [List.drop_append, List.drop_eq_nil_of_le (by omega)]; simp
theorem field_app (x y : List Byte) (n : Nat) (h : x.length = n) : field (x ++ y) 0 n = leNat x := by subst h; unfold field; rw [slice_app _ _ 0]
theorem field_skip (x y : List Byte) (o n m : Nat) (h : x.length = m) : field (x ++ y) (m + o) n = field y o n := by subst h; unfold field; rw [slice_skip]
theorem pw_field (h : Hdr) (b w v : Nat) (hb : b < 65536) (hw : w < 2 ^ 32) (hv : v < 2 ^ 32) :
    field (writeReq h b w [BitVec.ofNat 32 v]).payload 0 2 = b ∧ field (writeReq h b w [BitVec.ofNat 32 v]).payload 2 2 = 1 ∧
    field (writeReq h b w [BitVec.ofNat 32 v]).payload 4 4 = w ∧ field (writeReq h b w [BitVec.ofNat 32 v]).payload 8 4 = v := by
  have e : (writeReq h b w [BitVec.ofNat 32 v]).payload = leBytes 2 b ++ (leBytes 2 1 ++ (leBytes 4 w ++ (leBytes 4 v ++ []))) := by
    unfold writeReq hdrReq wordBytes; simp only [List.flatMap_cons, List.flatMap_nil, List.length_cons, List.length_nil, BitVec.toNat_ofNat, Nat.mod_eq_of_lt hv, List.append_assoc]
  rw [e]
  refine ⟨?_, ?_, ?_, ?_⟩
  · rw [field_app _ _ _ (leBytes_length ..), leNat_leBytes]; omega
  · rw [show (2 : Nat) = 2 + 0 from rfl, field_skip _ _ _ _ _ (leBytes_length ..), field_app _ _ _ (leBytes_length ..), leNat_leBytes]; rfl
  · rw [show (4 : Nat) = 2 + 2 from rfl, field_skip _ _ _ _ _ (leBytes_length ..), show (2 : Nat) = 2 + 0 from rfl, field_skip _ _ _ _ _ (leBytes_length ..), field_app _ _ _ (leBytes_length ..), leNat_leBytes]; omega
  · rw [show (8 : Nat) = 2 + 6 from rfl, field_skip _ _ _ _ _ (leBytes_length ..), show (6 : Nat) = 2 + 4 from rfl, field_skip _ _ _ _ _ (leBytes_length ..), show (4 : Nat) = 4 + 0 from rfl, field_skip _ _ _ _ _ (leBytes_length ..), field_app _ _ _ (leBytes_length ..), leNat_leBytes]; omega
theorem pw_one (h : Hdr) (b w v : Nat) (u : State) (hb : b < 65536) (hw : w < 2 ^ 32) (hv : v < 2 ^ 32) (hr : rangeOk b 1 w = true)
    (hc : ∀ o, u.wordCheck h.mb b w v o = none) : paramWrite (writeReq h b w [BitVec.ofNat 32 v]) u = (u.writeWord h.mb b w v, some (stOk, [])) := by
  obtain ⟨f1, f2, f3, f4⟩ := pw_field h b w v hb hw hv
  unfold paramWrite
  rw [f1, f2, f3]
  have : (List.range 1).map (fun i => (w + i, field (writeReq h b w [BitVec.ofNat 32 v]).payload (8 + 4 * i) 4)) = [(w, v)] := by
    simp [f4]
  rw [this, guarded_pass (need_ok hr), guarded_pass]
  · rfl
  · unfold State.writeCheck; simp only [List.findSome?_cons, List.findSome?_nil]
    rw [show (writeReq h b w [BitVec.ofNat 32 v]).mb = h.mb from rfl, hc]
theorem wf_ans {i : Instr} {t : Nat} {h : Hdr} {b w v : Nat} {s : State} {ps : List Part} {q : State → Nat → List Byte → State → Prop}
    (he : exec i s = writeField t h b w v s) (ha : (s.arrive t).accepts paramWriteCmd (writeReq h b w [BitVec.ofNat 32 v]))
    (hb : b < 65536) (hw : w < 2 ^ 32) (hv : v < 2 ^ 32) (hr : rangeOk b 1 w = true)
    (hc : ∀ o, ((s.arrive t).take (writeReq h b w [BitVec.ofNat 32 v])).wordCheck h.mb b w v o = none)
    (hf : Frame ps ((s.arrive t).take (writeReq h b w [BitVec.ofNat 32 v])) (((s.arrive t).take (writeReq h b w [BitVec.ofNat 32 v])).writeWord h.mb b w v))
    (hq : q ((s.arrive t).take (writeReq h b w [BitVec.ofNat 32 v])) 0 [] (((s.arrive t).take (writeReq h b w [BitVec.ofNat 32 v])).writeWord h.mb b w v)) :
    Answers i t s paramWriteCmd (writeReq h b w [BitVec.ofNat 32 v]) ps q :=
  answers_run he ha ⟨_, _, _, pw_one h b w v _ hb hw hv hr hc, hf, hq⟩
theorem clr_check (s : State) (h : Hdr) (r : Req) (b w : Nat) (hc : clrWords.contains (b, w) = true) (h3 : 3 ≤ s.rights h.mb) : ∀ o, (s.take r).wordCheck h.mb b w 1 o = none := by
  intro o
  unfold State.wordCheck; rw [if_pos hc]
  unfold clrCheck roleCheck firstOf; rw [take_rights, if_neg (by omega)]; rfl
theorem mapFrom_id {α : Type} (f : Nat → α → α) (l : List α) : ∀ b, (∀ n x, f n x = x) → mapFrom f b l = l := by
  induction l with
  | nil => intro b h; rfl
  | cons x l ih => intro b h; show f b x :: mapFrom f (b+1) l = _; rw [h, ih _ h]
theorem pw_no (h : Hdr) (b w v : Nat) (u : State) {st : Nat} (hb : b < 65536) (hw : w < 2 ^ 32) (hv : v < 2 ^ 32) (hr : rangeOk b 1 w = true)
    (hc : ∀ o, u.wordCheck h.mb b w v o = some st) : paramWrite (writeReq h b w [BitVec.ofNat 32 v]) u = (u, some (st, [])) := by
  obtain ⟨f1, f2, f3, f4⟩ := pw_field h b w v hb hw hv
  unfold paramWrite
  rw [f1, f2, f3]
  have : (List.range 1).map (fun i => (w + i, field (writeReq h b w [BitVec.ofNat 32 v]).payload (8 + 4 * i) 4)) = [(w, v)] := by
    simp [f4]
  rw [this, guarded_pass (need_ok hr), guarded_first]
  unfold State.writeCheck; simp only [List.findSome?_cons, List.findSome?_nil]
  rw [show (writeReq h b w [BitVec.ofNat 32 v]).mb = h.mb from rfl, hc]
theorem wb_field (ws : List Word) : ∀ i, (hi : i < ws.length) → field (wordBytes ws) (4 * i) 4 = (ws[i]).toNat := by
  induction ws with
  | nil => intro i hi; simp at hi
  | cons w ws ih =>
    intro i hi
    have e : wordBytes (w :: ws) = leBytes 4 w.toNat ++ wordBytes ws := rfl
    rw [e]
    cases i with
    | zero => rw [Nat.mul_zero, field_app _ _ _ (leBytes_length ..), leNat_leBytes]; exact Nat.mod_eq_of_lt w.isLt
    | succ i => rw [show 4 * (i + 1) = 4 + 4 * i by omega, field_skip _ _ _ _ _ (leBytes_length ..), ih i (by simpa using hi)]; rfl
theorem pw_many (h : Hdr) (b w : Nat) (ws : List Word) (hb : b < 65536) (hw : w < 2 ^ 32) (hv : ws.length < 65536) :
    field (writeReq h b w ws).payload 0 2 = b ∧ field (writeReq h b w ws).payload 2 2 = ws.length ∧
    field (writeReq h b w ws).payload 4 4 = w ∧ ∀ i, (hi : i < ws.length) → field (writeReq h b w ws).payload (8 + 4 * i) 4 = (ws[i]).toNat := by
  have e : (writeReq h b w ws).payload = leBytes 2 b ++ (leBytes 2 ws.length ++ (leBytes 4 w ++ wordBytes ws)) := by
    unfold writeReq hdrReq; simp only [List.append_assoc]
  rw [e]
  refine ⟨?_, ?_, ?_, ?_⟩
  · rw [field_app _ _ _ (leBytes_length ..), leNat_leBytes]; omega
  · rw [show (2 : Nat) = 2 + 0 from rfl, field_skip _ _ _ _ _ (leBytes_length ..), field_app _ _ _ (leBytes_length ..), leNat_leBytes]; omega
  · rw [show (4 : Nat) = 2 + 2 from rfl, field_skip _ _ _ _ _ (leBytes_length ..), show (2 : Nat) = 2 + 0 from rfl, field_skip _ _ _ _ _ (leBytes_length ..), field_app _ _ _ (leBytes_length ..), leNat_leBytes]; omega
  · intro i hi
    rw [show 8 + 4 * i = 2 + (6 + 4 * i) by omega, field_skip _ _ _ _ _ (leBytes_length ..), show 6 + 4 * i = 2 + (4 + 4 * i) by omega, field_skip _ _ _ _ _ (leBytes_length ..), field_skip _ _ _ _ _ (leBytes_length ..)]
    exact wb_field ws i hi
theorem close_boxes (n : Nat) (s : State) (hn : n < 8) : ∃ f : Mailbox → Mailbox, (s.closeConnection n).msg.boxes = setAt s.msg.boxes n f ∧ (∀ x, (f x).connected = false) ∧ ∀ x, (f x).sid = 0 := by
  have e : (s.endSession n).msg = (s.setBox n fun x => { x with sid := 0, role := 0, held := none, window := none }).msg := by
    unfold State.endSession; dsimp only
    split
    · rfl
    · have r : ∀ w : State, (w.record 0x0102 [(4, (s.box n).sid)]).msg = w.msg := fun w => (record_keeps _ _ _).frame .msg (by decide)
      split
      · rw [show ∀ w : State, w.closeDebug.msg = w.msg from fun w => (closeDebug_keeps _).frame .msg (by decide)]; exact r _
      · exact r _
  refine ⟨fun x => { x with sid := 0, role := 0, held := none, window := none, connected := false, granted := 0, fingerprint := [], busy := false }, ?_, fun _ => rfl, fun _ => rfl⟩
  unfold State.closeConnection State.dropConnection; rw [if_neg (by omega)]
  show setAt (s.endSession n).msg.boxes n _ = _
  rw [e]
  show setAt (setAt s.msg.boxes n _) n _ = _
  rw [setAt_setAt]
theorem closeAll (L : List Nat) : ∀ (s : State), (∀ n ∈ L, n < 8) → ∀ n, n < s.msg.boxes.length → ∀ r, r = L.foldl (fun (s : State) n => if (s.box n).connected then s.closeConnection n else s) s →
    r.msg.boxes.length = s.msg.boxes.length ∧ (n ∉ L → r.box n = s.box n) ∧ ((s.box n).connected = false → r.box n = s.box n) ∧
      (n ∈ L → (s.box n).connected = true → (r.box n).connected = false ∧ (r.box n).sid = 0) := by
  induction L with
  | nil => intro s _ n hn r hr; subst hr; exact ⟨rfl, fun _ => rfl, fun _ => rfl, fun h => by simp at h⟩
  | cons k L ih =>
    intro s hL n hn r hr
    have hk : k < 8 := hL k (by simp)
    generalize hs' : (if (s.box k).connected = true then s.closeConnection k else s) = s'
    have hlen : s'.msg.boxes.length = s.msg.boxes.length := by
      rw [← hs']; split
      · obtain ⟨f, h1, _⟩ := close_boxes k s hk; rw [h1]; simp
      · rfl
    have hb : (n ≠ k → s'.box n = s.box n) ∧ ((s.box n).connected = false → s'.box n = s.box n) ∧ (n = k → (s.box n).connected = true → (s'.box n).connected = false ∧ (s'.box n).sid = 0) := by
      rw [← hs']; split
      · rename_i hc
        obtain ⟨f, h1, h2, h3⟩ := close_boxes k s hk
        have : (s.closeConnection k).box n = if k = n ∧ k < s.msg.boxes.length then f (s.box n) else s.box n := by
          unfold State.box; rw [h1]; exact box_setAt _ _ _ _
        rw [this]
        refine ⟨fun h => by rw [if_neg (fun hh => h hh.1.symm)], fun h => ?_, fun h _ => ?_⟩
        · rw [if_neg]; rintro ⟨rfl, _⟩; rw [h] at hc; cases hc
        · subst h; rw [if_pos ⟨rfl, hn⟩]; exact ⟨h2 _, h3 _⟩
      · rename_i hc
        exact ⟨fun _ => rfl, fun _ => rfl, fun h hh => by subst h; exact absurd hh hc⟩
    simp only [List.foldl_cons] at hr
    rw [hs'] at hr
    obtain ⟨h1, h2, h3, h4⟩ := ih s' (fun x hx => hL x (by simp [hx])) n (by omega) r hr
    refine ⟨by omega, fun h => ?_, fun h => ?_, fun h hc => ?_⟩
    · simp at h; rw [h2 h.2, hb.1 h.1]
    · have := hb.2.1 h
      rw [h3 (by rw [this]; exact h), this]
    · by_cases hnk : n = k
      · obtain ⟨a, b⟩ := hb.2.2 hnk hc
        rw [h3 a]; exact ⟨a, b⟩
      · have hm : n ∈ L := by simp [hnk] at h; exact h
        exact h4 hm (by rw [hb.1 hnk]; exact hc)
theorem closeDebug_sec (x : State) : x.closeDebug.sec = x.sec := (closeDebug_keeps _).frame .sec (by decide)
theorem box_of {a b : State} (h : a.msg.boxes = b.msg.boxes) (n : Nat) : a.box n = b.box n := by unfold State.box; rw [h]
theorem memRead_clear_in (m : Mem) (lo hi a : Nat) (h1 : lo ≤ a) (h2 : a ≤ hi) : memRead (memClear m lo hi) a = 0#8 := by
  unfold memRead memClear; dsimp only
  induction m.cells with
  | nil => rfl
  | cons c cs ih =>
    simp only [List.filter_cons]
    split
    · rename_i hc
      simp at hc
      unfold cellsRead; rw [if_neg (by omega)]; exact ih
    · exact ih
theorem wipe_f (reason : Nat) (s : State) : (s.wipe reason).sec = { s.sec.wiped with wipes := inc32 s.sec.wipes, wipeReason := reason, wipeS := s.tb3s % 2 ^ 32 } ∧
    (s.wipe reason).gate.debugOpen = false ∧ (∀ a, 0x0C200000 ≤ a → a ≤ 0x0C2FFFFF → memRead (s.wipe reason).mem a = 0#8) ∧
    (∀ n, n < 8 → n < s.msg.boxes.length → ((s.wipe reason).box n).connected = false ∧ ((s.box n).connected = true → ((s.wipe reason).box n).sid = 0)) := by
  unfold State.wipe; dsimp only
  generalize hw : (s.upSec fun c => { c.wiped with wipes := inc32 c.wipes, wipeReason := reason, wipeS := s.tb3s % 2 ^ 32 }).upMem (fun m => memClear m 0x0C200000 0x0C2FFFFF) = w
  have ws : w.sec = { s.sec.wiped with wipes := inc32 s.sec.wipes, wipeReason := reason, wipeS := s.tb3s % 2 ^ 32 } := by rw [← hw]; rfl
  have wb : w.msg = s.msg := by rw [← hw]; rfl
  have wm : w.mem = memClear s.mem 0x0C200000 0x0C2FFFFF := by rw [← hw]; rfl
  have ea := (endAllSessions_keeps w).frame
  refine ⟨?_, closeDebug_closes _, fun a h1 h2 => ?_, fun n h1 h2 => ?_⟩
  · rw [closeDebug_sec]; rw [← ws]; exact ea .sec (by decide)
  · have m1 : Part.mem.same w.endAllSessions w.endAllSessions.closeDebug := (closeDebug_keeps _).frame .mem (by decide)
    have m2 : Part.mem.same w w.endAllSessions := ea .mem (by decide)
    have c : (!inCache a) = true := by unfold inCache; simp; omega
    rw [(m1 a c).1, (m2 a c).1, wm]
    exact memRead_clear_in s.mem _ _ a h1 h2
  · have cb : w.endAllSessions.closeDebug.msg = w.endAllSessions.msg := (closeDebug_keeps _).frame .msg (by decide)
    rw [box_of (congrArg MsgSt.boxes cb)]
    have e : ∃ z, z = (List.range 8).foldl (fun (s : State) n => if (s.box n).connected then s.closeConnection n else s) w ∧ w.endAllSessions = z.upMsg fun m => { m with extra := 0 } := ⟨_, rfl, by unfold State.endAllSessions; rfl⟩
    obtain ⟨z, hz, ez⟩ := e
    obtain ⟨k1, k2, k3, k4⟩ := closeAll (List.range 8) w (by simp) n (by rw [wb]; exact h2) z hz
    have bn : w.box n = s.box n := box_of (congrArg MsgSt.boxes wb) n
    have bz : (z.upMsg fun m => { m with extra := 0 }).box n = z.box n := rfl
    rw [ez, bz]
    cases hc : (s.box n).connected
    · rw [k3 (by rw [bn]; exact hc), bn]; exact ⟨hc, fun h => by cases h⟩
    · have := k4 (by simpa using h1) (by rw [bn]; exact hc)
      exact ⟨this.1, fun _ => this.2⟩
theorem rec_sec (ty qs) (s : State) : (s.record ty qs).sec = s.sec := (record_keeps _ _ _).frame .sec (by decide)
theorem rec_gate (ty qs) (s : State) : (s.record ty qs).gate = s.gate := (record_keeps _ _ _).frame .gate (by decide)
theorem rec_cfg (ty qs) (s : State) : (s.record ty qs).cfg = s.cfg := (record_keeps _ _ _).frame .cfg (by decide)
theorem dropClaim_f (w : State) : w.dropClaim.pair.ownClaim = false ∧ w.dropClaim.pair.owner = w.pair.owner ∧ w.dropClaim.power = w.power ∧ w.dropClaim.boot = w.boot ∧ w.dropClaim.time = w.time ∧ w.dropClaim.sec = w.sec ∧ w.dropClaim.sheaf = w.sheaf ∧ w.dropClaim.disp = w.disp ∧ w.dropClaim.cfg = w.cfg := by
  unfold State.dropClaim
  split
  · exact ⟨rfl, rfl, rfl, rfl, rfl, rfl, rfl, rfl, rfl⟩
  · rename_i h; exact ⟨by simpa using h, rfl, rfl, rfl, rfl, rfl, rfl, rfl, rfl⟩
theorem giveUp_f (w : State) : w.giveUp.pair.owner = false ∧ w.giveUp.pair.ownClaim = false := by
  unfold State.giveUp
  split
  · have y : ∀ x : State, x.sendYield.pair = x.pair := fun x => by unfold State.sendYield; split <;> rfl
    rw [y]; have d := dropClaim_f w.notOwner
    exact ⟨d.2.1.trans rfl, d.1⟩
  · rename_i h; have d := dropClaim_f w
    exact ⟨d.2.1.trans (by simpa using h), d.1⟩
theorem cancelStart_f (w : State) (h : w.pair.owner = false) : w.cancelStart.pair.owner = false ∧ w.cancelStart.pair.ownClaim = false ∧ w.cancelStart.boot = { w.boot with waiting := false } := by
  unfold State.cancelStart; rw [if_neg (by simp [h])]
  have d := dropClaim_f ((w.upBoot fun b => { b with waiting := false }).upPair fun p => { p with termOpen := false })
  exact ⟨d.2.1.trans h, d.1, d.2.2.2.1⟩
theorem layDown_f (o y : Bool) (w : State) (h : o = w.pair.owner) : (w.layDown o y).pair.owner = false ∧ (w.layDown o y).pair.ownClaim = false ∧
    (w.layDown o y).boot.retiring = w.boot.retiring ∧ (w.layDown o y).boot.retireAt = w.boot.retireAt ∧ (w.layDown o y).boot.retireRole = w.boot.retireRole ∧
    (w.layDown o y).boot.committed = w.boot.committed ∧ (w.layDown o y).boot.retirePending = w.boot.retirePending := by
  unfold State.layDown
  split
  · have g := giveUp_f w
    have b : w.giveUp.boot = w.boot := (giveUp_keeps _).frame .boot (by decide)
    rw [b]; exact ⟨g.1, g.2, rfl, rfl, rfl, rfl, rfl⟩
  · split
    · have ab : (w.announce 2).boot = w.boot := (announce_keeps _ _).frame .boot (by decide)
      generalize w.announce 2 = a at *
      dsimp only
      generalize hx : (((a.upDio fun d => { d with retireSafe := true }).upUa fun u => { u with retireSafe := true }).dioToSafe.uaToSafe.emit .safeStates) = x
      have xb : x.boot = w.boot := by rw [← ab, ← hx]; rfl
      have g := giveUp_f x
      have b : x.giveUp.boot = x.boot := (giveUp_keeps _).frame .boot (by decide)
      rw [b, xb]; exact ⟨g.1, g.2, rfl, rfl, rfl, rfl, rfl⟩
    · rename_i h1 h2
      have ho : w.pair.owner = false := by rw [← h]; simpa using h2
      have c := cancelStart_f w ho
      dsimp only
      split
      · refine ⟨c.1, c.2.1, ?_⟩
        show w.cancelStart.boot.retiring = _ ∧ w.cancelStart.boot.retireAt = _ ∧ w.cancelStart.boot.retireRole = _ ∧ w.cancelStart.boot.committed = _ ∧ w.cancelStart.boot.retirePending = _
        rw [c.2.2]; exact ⟨rfl, rfl, rfl, rfl, rfl⟩
      · refine ⟨c.1, c.2.1, ?_⟩
        rw [c.2.2]; exact ⟨rfl, rfl, rfl, rfl, rfl⟩
theorem abandon_f (st : Nat) (s : State) : (s.abandonArmed st).cfg.armed = none ∧ (s.abandonArmed st).pair.owner = s.pair.owner := by
  unfold State.abandonArmed
  cases hp : s.pair.armed <;> cases hc : s.cfg.armed <;> simp only
  all_goals simp only [State.upPair, State.upCfg, State.endJob, State.upMsg, hc]
  all_goals exact ⟨trivial, trivial⟩
theorem beginRetire_f (reason : Nat) (s : State) (h : s.boot.retiring = false) :
    (s.beginRetire reason).power = { s.power with retires := inc32 s.power.retires, retireReason := reason, riding := false } ∧
    (s.beginRetire reason).boot.retiring = true ∧ (s.beginRetire reason).boot.retireAt = s.time.now ∧ (s.beginRetire reason).boot.retireRole = s.power.mode ∧
    (s.beginRetire reason).boot.committed = false ∧ (s.beginRetire reason).boot.retirePending = none ∧ (s.beginRetire reason).pair.owner = false ∧
    (s.beginRetire reason).pair.ownClaim = false ∧ (s.beginRetire reason).cfg.armed = none ∧ (s.beginRetire reason).disp.frozenLines = s.retireLines reason ∧
    (s.beginRetire reason).disp.retireSkipped = false := by
  unfold State.beginRetire; rw [if_neg (by simp [h])]; dsimp only
  generalize s.retireLines reason = L
  generalize hw : ((s.upPower fun p => { p with retires := inc32 p.retires, retireReason := reason, riding := false }).upBoot fun b => { b with retiring := true, retireAt := (s.upPower fun p => { p with retires := inc32 p.retires, retireReason := reason, riding := false }).time.now, retireRole := (s.upPower fun p => { p with retires := inc32 p.retires, retireReason := reason, riding := false }).power.mode, retirePending := none, committed := false }).upDisp (fun d => { d with frozenLines := L, retireSkipped := false, retireImage := false, updating := if d.updating = 1 then 2 else d.updating }) = w
  have wm : w.power = { s.power with retires := inc32 s.power.retires, retireReason := reason, riding := false } := hw ▸ rfl
  have wb : w.boot.retiring = true ∧ w.boot.retireAt = s.time.now ∧ w.boot.retireRole = s.power.mode ∧ w.boot.committed = false ∧ w.boot.retirePending = none := by rw [← hw]; exact ⟨rfl, rfl, rfl, rfl, rfl⟩
  have wo : w.pair.owner = s.pair.owner := by rw [← hw]; rfl
  have wd : w.disp.frozenLines = L ∧ w.disp.retireSkipped = false := by rw [← hw]; exact ⟨rfl, rfl⟩
  have a := abandon_f stState w
  have ab : (w.abandonArmed stState).boot = w.boot := (abandonArmed_keeps _ _).frame .boot (by decide)
  have am : (w.abandonArmed stState).power = w.power := (abandonArmed_keeps _ _).frame .power (by decide)
  have ad : (w.abandonArmed stState).disp = w.disp := (abandonArmed_keeps _ _).frame .disp (by decide)
  generalize w.abandonArmed stState = x at *
  have l := layDown_f s.pair.owner s.twinSynced x (by rw [a.2, wo])
  have lk := (layDown_keeps s.pair.owner s.twinSynced x).frame
  have lm : (x.layDown s.pair.owner s.twinSynced).power = x.power := lk .power (by decide)
  have lc : (x.layDown s.pair.owner s.twinSynced).cfg = x.cfg := lk .cfg (by decide)
  have ld : (x.layDown s.pair.owner s.twinSynced).disp = x.disp := lk .disp (by decide)
  rw [lm, lc, ld, l.1, l.2.1, l.2.2.1, l.2.2.2.1, l.2.2.2.2.1, l.2.2.2.2.2.1, l.2.2.2.2.2.2, ab, am, ad, a.1, wm, wb.1, wb.2.1, wb.2.2.1, wb.2.2.2.1, wb.2.2.2.2, wd.1, wd.2]
  exact ⟨rfl, rfl, rfl, rfl, rfl, rfl, rfl, rfl, rfl, rfl, rfl⟩
theorem startBoot_f (kind reason : Nat) (rel : Bool) (s : State) : (s.startBoot kind reason rel).power.mode = 1 ∧ (s.startBoot kind reason rel).power.bootKind = kind ∧ (s.startBoot kind reason rel).pair.owner = false ∧
    (s.startBoot kind reason rel).power.powerCycles = s.power.powerCycles ∧ (s.startBoot kind reason rel).boot.watchdogRecord = s.boot.watchdogRecord := by
  unfold State.startBoot; dsimp only
  generalize hd : s.dropClaim = d
  have dm : d.power = s.power := by rw [← hd]; exact (dropClaim_f s).2.2.1
  have db : d.boot = s.boot := by rw [← hd]; exact (dropClaim_f s).2.2.2.1
  generalize hp : d.bootParts kind rel = p
  have pm : p.power.bootKind = kind ∧ p.power.powerCycles = d.power.powerCycles ∧ p.boot.watchdogRecord = d.boot.watchdogRecord ∧ p.pair.owner = false := by rw [← hp]; exact ⟨rfl, rfl, rfl, rfl⟩
  have fm : (p.firstRecord kind).power = p.power := (firstRecord_keeps _ _).frame .power (by decide)
  have fb : (p.firstRecord kind).boot = p.boot := (firstRecord_keeps _ _).frame .boot (by decide)
  have fp : (p.firstRecord kind).pair = p.pair := (firstRecord_keeps _ _).frame .pair (by decide)
  generalize p.firstRecord kind = f at *
  have gm := goMode_power 1 reason f
  have gp := goMode_pair 1 reason f
  have gb : (f.goMode 1 reason).boot = f.boot := (goMode_keeps 1 reason f (by decide)).frame .boot (by decide)
  generalize f.goMode 1 reason = g at *
  have e : ∀ z : State, z.power = g.power → z.pair = g.pair → z.boot = g.boot → z.power.mode = 1 ∧ z.power.bootKind = kind ∧ z.pair.owner = false ∧ z.power.powerCycles = s.power.powerCycles ∧ z.boot.watchdogRecord = s.boot.watchdogRecord := by
    intro z h1 h2 h3; rw [h1, h2, h3, gm, gp, gb, fm, fb, fp, pm.2.2.1, db, pm.2.2.2]
    refine ⟨rfl, pm.1, by simp, ?_, rfl⟩
    show p.power.powerCycles = _; rw [pm.2.1, dm]
  split
  · exact e _ (rec_f _ _ _ .power (by decide)) (rec_f _ _ _ .pair (by decide)) (rec_f _ _ _ .boot (by decide))
  · exact e _ rfl rfl rfl
theorem ex_of {P : State → Prop} {c : Instr} {s v : State} (e : exec c s = .next v) (h : P v) : ∃ v : State, exec c s = .next v ∧ P v := ⟨v, e, h⟩
theorem bootStops_f (s : State) : s.bootStops.boot.stopped = true ∧ s.bootStops.boot.waiting = false ∧ s.bootStops.pair.ownClaim = false ∧ s.bootStops.power = { s.power with operatingBase := s.opSeconds, operatingFrom := s.tb3s } := by
  unfold State.bootStops
  have d := dropClaim_f s
  refine ⟨rfl, rfl, d.1, ?_⟩
  generalize s.dropClaim = x at *
  have e1 : x.opSeconds = s.opSeconds := by unfold State.opSeconds State.tb3s; rw [d.2.2.1, d.2.2.2.2.1]
  have e2 : x.tb3s = s.tb3s := by unfold State.tb3s; rw [d.2.2.2.2.1]
  rw [← e1, ← e2, ← d.2.2.1]; rfl
theorem wakes_eq (mj : Nat) (u : State) : (u.upPower fun p => { p with holdupMj := mj }).wakes = true ↔ (u.boot.lingKept = true ∧ u.boot.tamperLatched = none ∧ 20000 ≤ mj ∧ u.boot.committed = true ∧ u.boot.recordSinceVerify = false) := by
  unfold State.wakes State.upPower; simp; tauto
theorem tamperWipe_f (k : Nat) (s : State) : (s.tamperWipe k).sec.serverKey = [] ∧ (s.tamperWipe k).sec.cfgKeys = [] ∧ (s.tamperWipe k).sec.sheafKeys = [] ∧ (s.tamperWipe k).sec.sealedRec = false ∧
    (s.tamperWipe k).sec.lifecycle = (if s.sec.fuse = true then 3 else 0) ∧ (s.tamperWipe k).sec.wipeReason = k ∧ (s.tamperWipe k).sec.wipes = inc32 s.sec.wipes ∧ (s.tamperWipe k).gate.debugOpen = false ∧
    (s.tamperWipe k).power = s.power ∧ (s.tamperWipe k).pair = s.pair ∧ (s.tamperWipe k).boot = s.boot := by
  obtain ⟨a, b, c, d⟩ := wipe_f k s
  have w := (wipe_keeps k s).frame
  have w1 : (s.wipe k).power = s.power := w .power (by decide)
  have w2 : (s.wipe k).pair = s.pair := w .pair (by decide)
  have w3 : (s.wipe k).boot = s.boot := w .boot (by decide)
  unfold State.tamperWipe
  generalize s.wipe k = y at *
  dsimp only
  rw [rec_sec, rec_gate, show ∀ x : State, ∀ q, (x.record 0x0803 q).power = x.power from fun x q => rec_f _ _ _ .power (by decide),
    show ∀ x : State, ∀ q, (x.record 0x0803 q).pair = x.pair from fun x q => rec_f _ _ _ .pair (by decide), show ∀ x : State, ∀ q, (x.record 0x0803 q).boot = x.boot from fun x q => rec_f _ _ _ .boot (by decide)]
  unfold State.upSec; dsimp only
  rw [a]; exact ⟨rfl, rfl, rfl, rfl, rfl, rfl, rfl, b, w1, w2, w3⟩
theorem trialBoot_f (x : State) : x.trialBoot.power = x.power ∧ x.trialBoot.pair = x.pair ∧ x.trialBoot.boot.watchdogRecord = x.boot.watchdogRecord := by
  refine ⟨(trialBoot_keeps _).frame .power (by decide), (trialBoot_keeps _).frame .pair (by decide), ?_⟩
  unfold State.trialBoot State.fallback; dsimp only
  have e : ∀ (y : State) q, (y.record 0x0A03 q).boot = y.boot := fun y q => rec_f _ _ _ .boot (by decide)
  split
  · rfl
  · split
    · rw [e]; rfl
    · split
      · rw [e]; rfl
      · rfl
theorem kind_div (r : Word64) : ruleKind r = r.toNat / 2 ^ 60 := by
  unfold ruleKind bits; have := r.isLt; omega
theorem img_self (h : Nat) (g : Img) (s : State) (w : Memory.wf s.mem = true) (hh : h ≤ 0x5FFFFF) (hk : ruleKind (s.ruleOf h) ≠ 0) (a : g.quality < 256) (b : g.age < 65536) :
    (s.setImage h (imgWord g)).img h = g := by
  unfold State.img; rw [image_setImage_self _ _ _ w (by omega) (by rw [← kind_div]; exact hk)]; exact imgOf_imgWord g a b
theorem img_bounds (s : State) (h : Nat) : (s.img h).quality < 256 ∧ (s.img h).age < 65536 := by
  unfold State.img imgOf bits; dsimp only; omega
theorem upImg_self (h : Nat) (f : Img → Img) (s : State) (w : Memory.wf s.mem = true) (hh : h ≤ 0x5FFFFF) (hk : ruleKind (s.ruleOf h) ≠ 0) (a : (f (s.img h)).quality < 256) (b : (f (s.img h)).age < 65536) :
    (s.upImg h f).img h = f (s.img h) := img_self _ _ _ w hh hk a b

end Sys2Proof.Machine
end

