-- ==== Sys2Proof/Laws/OpBlock.lean ====
section
/-! SUPPORT. What the operations of one chapter do: the whole block. -/

set_option Elab.async false
set_option linter.all false

set_option linter.all false

namespace Sys2Proof.Machine

def most : List Part := [.cache, .mem, .free, .out, .time, .pair, .cnt, .power, .boot, .pts, .cyc, .fsp, .sched, .lock, .cfg, .msg, .mower, .sec, .gate, .sheaf, .dio, .ua, .can, .log, .disp, .sfp]
theorem exec_keeps (i : Instr) (s s' : State) (h : exec i s = .next s') : ∃ t, Keeps most (s.arrive t) s' := by
  cases i
  case identify => exact ⟨_, Keeps.mono (execIdentify_keeps _ _ _ h) (by decide)⟩
  case sessionOpen => exact ⟨_, Keeps.mono (execSessionOpen_keeps _ _ _ h) (by decide)⟩
  case sessionClose => exact ⟨_, Keeps.mono (execSessionClose_keeps _ _ _ h) (by decide)⟩
  case jobStatus => exact ⟨_, Keeps.mono (execJobStatus_keeps _ _ _ h) (by decide)⟩
  case modeGet => exact ⟨_, Keeps.mono (execModeGet_keeps _ _ _ h) (by decide)⟩
  case modeRequest => exact ⟨_, Keeps.mono (execModeRequest_keeps _ _ _ h) (by decide)⟩
  case pairStatus => exact ⟨_, Keeps.mono (execPairStatus_keeps _ _ _ h) (by decide)⟩
  case pairHandover => exact ⟨_, Keeps.mono (execPairHandover_keeps _ _ _ h) (by decide)⟩
  case paramRead => exact ⟨_, Keeps.mono (execParamRead_keeps _ _ _ h) (by decide)⟩
  case paramWrite => exact ⟨_, Keeps.mono (execParamWrite_keeps _ _ _ h) (by decide)⟩
  case pointRead => exact ⟨_, Keeps.mono (execPointRead_keeps _ _ _ h) (by decide)⟩
  case pointForce => exact ⟨_, Keeps.mono (execPointForce_keeps _ _ _ h) (by decide)⟩
  case pointRelease => exact ⟨_, Keeps.mono (execPointRelease_keeps _ _ _ h) (by decide)⟩
  case pointBrowse => exact ⟨_, Keeps.mono (execPointBrowse_keeps _ _ _ h) (by decide)⟩
  case cfgStage => exact ⟨_, Keeps.mono (execCfgStage_keeps _ _ _ h) (by decide)⟩
  case cfgStageJobEnd => exact ⟨_, Keeps.mono (execCfgStageJobEnd_keeps _ _ h) (by decide)⟩
  case cfgCheck => exact ⟨_, Keeps.mono (execCfgCheck_keeps _ _ _ h) (by decide)⟩
  case cfgCheckJobEnd => exact ⟨_, Keeps.mono (execCfgCheckJobEnd_keeps _ _ h) (by decide)⟩
  case cfgFlip => exact ⟨_, Keeps.mono (execCfgFlip_keeps _ _ _ h) (by decide)⟩
  case cfgRevert => exact ⟨_, Keeps.mono (execCfgRevert_keeps _ _ _ h) (by decide)⟩
  case cfgList => exact ⟨_, Keeps.mono (execCfgList_keeps _ _ _ h) (by decide)⟩
  case sheafLoad => exact ⟨_, Keeps.mono (execSheafLoad_keeps _ _ _ h) (by decide)⟩
  case sheafVerify => exact ⟨_, Keeps.mono (execSheafVerify_keeps _ _ _ h) (by decide)⟩
  case sheafVerifyJobEnd => exact ⟨_, Keeps.mono (execSheafVerifyJobEnd_keeps _ _ h) (by decide)⟩
  case sheafActivate => exact ⟨_, Keeps.mono (execSheafActivate_keeps _ _ _ h) (by decide)⟩
  case sheafConfirm => exact ⟨_, Keeps.mono (execSheafConfirm_keeps _ _ _ h) (by decide)⟩
  case sheafStatus => exact ⟨_, Keeps.mono (execSheafStatus_keeps _ _ _ h) (by decide)⟩
  case sheafAbandon => exact ⟨_, Keeps.mono (execSheafAbandon_keeps _ _ _ h) (by decide)⟩
  case timeStatus => exact ⟨_, Keeps.mono (execTimeStatus_keeps _ _ _ h) (by decide)⟩
  case timeStep => exact ⟨_, Keeps.mono (execTimeStep_keeps _ _ _ h) (by decide)⟩
  case recOpen => exact ⟨_, Keeps.mono (execRecOpen_keeps _ _ _ h) (by decide)⟩
  case recRead => exact ⟨_, Keeps.mono (execRecRead_keeps _ _ _ h) (by decide)⟩
  case recClose => exact ⟨_, Keeps.mono (execRecClose_keeps _ _ _ h) (by decide)⟩
  case recMark => exact ⟨_, Keeps.mono (execRecMark_keeps _ _ _ h) (by decide)⟩
  case memTest => exact ⟨_, Keeps.mono (execMemTest_keeps _ _ _ h) (by decide)⟩
  case memTestJobEnd => exact ⟨_, Keeps.mono (execMemTestJobEnd_keeps _ _ _ _ _ _ h) (by decide)⟩
  case displayText => exact ⟨_, Keeps.mono (execDisplayText_keeps _ _ _ h) (by decide)⟩
  case displayRefresh => exact ⟨_, Keeps.mono (execDisplayRefresh_keeps _ _ _ h) (by decide)⟩
  case ownerLock => exact ⟨_, Keeps.mono (execOwnerLock_keeps _ _ _ h) (by decide)⟩
  case ownerUnlock => exact ⟨_, Keeps.mono (execOwnerUnlock_keeps _ _ _ h) (by decide)⟩
  case lifecycleAdvance => exact ⟨_, Keeps.mono (execLifecycleAdvance_keeps _ _ _ h) (by decide)⟩
  case lifecycleJobEnd => exact ⟨_, Keeps.mono (execLifecycleJobEnd_keeps _ _ h) (by decide)⟩
  case diagRead => exact ⟨_, Keeps.mono (execDiagRead_keeps _ _ _ h) (by decide)⟩
  case continuation => exact ⟨_, Keeps.mono (execContinuation_keeps _ _ _ _ h) (by decide)⟩
  case post => exact ⟨_, Keeps.mono (execPost_keeps _ _ _ _ h) (by decide)⟩
  case doneClear => exact ⟨_, Keeps.mono (execDoneClear_keeps _ _ _ h) (by decide)⟩
  case tlsHandshake => exact ⟨_, Keeps.mono (execTlsHandshake_keeps _ _ _ _ h) (by decide)⟩
  case handshakeTimeout => exact ⟨_, Keeps.mono (execHandshakeTimeout_keeps _ _ h) (by decide)⟩
  case connectionClosed => exact ⟨_, Keeps.mono (execConnectionClosed_keeps _ _ _ h) (by decide)⟩
  case sessionIdleTimeout => exact ⟨_, Keeps.mono (execSessionIdleTimeout_keeps _ _ _ h) (by decide)⟩
  case cursorExpiry => exact ⟨_, Keeps.mono (execCursorExpiry_keeps _ _ _ h) (by decide)⟩
  case jobExpiry => exact ⟨_, Keeps.mono (execJobExpiry_keeps _ _ _ h) (by decide)⟩
  case mb14Timeout => exact ⟨_, Keeps.mono (execMb14Timeout_keeps _ _ _ h) (by decide)⟩
  case pointsClrCounters => exact ⟨_, Keeps.mono (execPointsClrCounters_keeps _ _ _ h) (by decide)⟩
  case cycleClrCounters => exact ⟨_, Keeps.mono (execCycleClrCounters_keeps _ _ _ h) (by decide)⟩
  case schedClrCounters => exact ⟨_, Keeps.mono (execSchedClrCounters_keeps _ _ _ h) (by decide)⟩
  case timeClrCounters => exact ⟨_, Keeps.mono (execTimeClrCounters_keeps _ _ _ h) (by decide)⟩
  case pairClrCounters => exact ⟨_, Keeps.mono (execPairClrCounters_keeps _ _ _ h) (by decide)⟩
  case powerClrCounters => exact ⟨_, Keeps.mono (execPowerClrCounters_keeps _ _ _ h) (by decide)⟩
  case lockClrCounters => exact ⟨_, Keeps.mono (execLockClrCounters_keeps _ _ _ h) (by decide)⟩
  case reenable => exact ⟨_, Keeps.mono (execReenable_keeps _ _ _ _ h) (by decide)⟩
  case memClrCounters => exact ⟨_, Keeps.mono (execMemClrCounters_keeps _ _ _ h) (by decide)⟩
  case keyCtrlSetWindowBase => exact ⟨_, Keeps.mono (execKeyCtrlSetWindowBase_keeps _ _ _ _ h) (by decide)⟩
  case keyCtrlCommit => exact ⟨_, Keeps.mono (execKeyCtrlCommit_keeps _ _ _ h) (by decide)⟩
  case keyCtrlDiscardStaging => exact ⟨_, Keeps.mono (execKeyCtrlDiscardStaging_keeps _ _ _ h) (by decide)⟩
  case keyWindow => exact ⟨_, Keeps.mono (execKeyWindow_keeps _ _ _ _ _ h) (by decide)⟩
  case gateClrCounters => exact ⟨_, Keeps.mono (execGateClrCounters_keeps _ _ _ h) (by decide)⟩
  case debugOpen => exact ⟨_, Keeps.mono (execDebugOpen_keeps _ _ _ h) (by decide)⟩
  case debugClose => exact ⟨_, Keeps.mono (execDebugClose_keeps _ _ _ h) (by decide)⟩
  case sheafClrCounters => exact ⟨_, Keeps.mono (execSheafClrCounters_keeps _ _ _ h) (by decide)⟩
  case dioClrCounters => exact ⟨_, Keeps.mono (execDioClrCounters_keeps _ _ _ h) (by decide)⟩
  case uaClrCounters => exact ⟨_, Keeps.mono (execUaClrCounters_keeps _ _ _ h) (by decide)⟩
  case recoverCan => exact ⟨_, Keeps.mono (execRecoverCan_keeps _ _ _ _ h) (by decide)⟩
  case canClrCounters => exact ⟨_, Keeps.mono (execCanClrCounters_keeps _ _ _ h) (by decide)⟩
  case recClrCounters => exact ⟨_, Keeps.mono (execRecClrCounters_keeps _ _ _ h) (by decide)⟩
  case dispClrCounters => exact ⟨_, Keeps.mono (execDispClrCounters_keeps _ _ _ h) (by decide)⟩
  case gateCommit => exact ⟨_, Keeps.mono (execGateCommit_keeps _ _ h) (by decide)⟩
  case commitDrainDone => exact ⟨_, Keeps.mono (execCommitDrainDone_keeps _ _ h) (by decide)⟩
  case fabricAccess => exact ⟨_, Keeps.mono (execFabricAccess_keeps _ _ _ h) (by decide)⟩
  case debugReadWords => exact ⟨_, Keeps.mono (execDebugReadWords_keeps _ _ _ _ _ h) (by decide)⟩
  case debugWriteWords => exact ⟨_, Keeps.mono (execDebugWriteWords_keeps _ _ _ _ _ h) (by decide)⟩
  case debugHaltCorePair => exact ⟨_, Keeps.mono (execDebugHaltCorePair_keeps _ _ _ _ h) (by decide)⟩
  case debugResumeCorePair => exact ⟨_, Keeps.mono (execDebugResumeCorePair_keeps _ _ _ _ h) (by decide)⟩
  case dbgRstN => exact ⟨_, Keeps.mono (execDbgRstN_keeps _ _ _ h) (by decide)⟩
  case watchdogService => exact ⟨_, Keeps.mono (execWatchdogService_keeps _ _ h) (by decide)⟩
  case watchdogExpiry => exact ⟨_, Keeps.mono (execWatchdogExpiry_keeps _ _ h) (by decide)⟩
  case pllLossOfLock => exact ⟨_, Keeps.mono (execPllLossOfLock_keeps _ _ h) (by decide)⟩
  case clockCheckWindow => exact ⟨_, Keeps.mono (execClockCheckWindow_keeps _ _ _ h) (by decide)⟩
  case tamper => exact ⟨_, Keeps.mono (execTamper_keeps _ _ _ h) (by decide)⟩
  case powerGood => exact ⟨_, Keeps.mono (execPowerGood_keeps _ _ _ h) (by decide)⟩
  case dip => exact ⟨_, Keeps.mono (execDip_keeps _ _ _ h) (by decide)⟩
  case rideThroughEnd => exact ⟨_, Keeps.mono (execRideThroughEnd_keeps _ _ _ h) (by decide)⟩
  case auxGoodChange => exact ⟨_, Keeps.mono (execAuxGoodChange_keeps _ _ _ _ h) (by decide)⟩
  case overTemperature => exact ⟨_, Keeps.mono (execOverTemperature_keeps _ _ _ h) (by decide)⟩
  case lingCellLow => exact ⟨_, Keeps.mono (execLingCellLow_keeps _ _ _ h) (by decide)⟩
  case presentNBreak => exact ⟨_, Keeps.mono (execPresentNBreak_keeps _ _ h) (by decide)⟩
  case ejectNOpen => exact ⟨_, Keeps.mono (execEjectNOpen_keeps _ _ h) (by decide)⟩
  case ejectNClose => exact ⟨_, Keeps.mono (execEjectNClose_keeps _ _ h) (by decide)⟩
  case safeNAssert => exact ⟨_, Keeps.mono (execSafeNAssert_keeps _ _ h) (by decide)⟩
  case safeNRelease => exact ⟨_, Keeps.mono (execSafeNRelease_keeps _ _ h) (by decide)⟩
  case peerPresentNChange => exact ⟨_, Keeps.mono (execPeerPresentNChange_keeps _ _ _ h) (by decide)⟩
  case wakeEvent => exact ⟨_, Keeps.mono (execWakeEvent_keeps _ _ _ h) (by decide)⟩
  case wakeDelayExpiry => exact ⟨_, Keeps.mono (execWakeDelayExpiry_keeps _ _ _ h) (by decide)⟩
  case bootStepEnd => exact ⟨_, Keeps.mono (execBootStepEnd_keeps _ _ _ h) (by decide)⟩
  case bootEnd => exact ⟨_, Keeps.mono (execBootEnd_keeps _ _ h) (by decide)⟩
  case startWaitExpiry => exact ⟨_, Keeps.mono (execStartWaitExpiry_keeps _ _ h) (by decide)⟩
  case termWindowEnd => exact ⟨_, Keeps.mono (execTermWindowEnd_keeps _ _ h) (by decide)⟩
  case retireStart => exact ⟨_, Keeps.mono (execRetireStart_keeps _ _ h) (by decide)⟩
  case retireSwitchOff => exact ⟨_, Keeps.mono (execRetireSwitchOff_keeps _ _ h) (by decide)⟩
  case retireCommitWrites => exact ⟨_, Keeps.mono (execRetireCommitWrites_keeps _ _ h) (by decide)⟩
  case retireImage => exact ⟨_, Keeps.mono (execRetireImage_keeps _ _ _ h) (by decide)⟩
  case retireEnd => exact ⟨_, Keeps.mono (execRetireEnd_keeps _ _ h) (by decide)⟩
  case holdupMeasurement => exact ⟨_, Keeps.mono (execHoldupMeasurement_keeps _ _ _ _ h) (by decide)⟩
  case tb3Save => exact ⟨_, Keeps.mono (execTb3Save_keeps _ _ h) (by decide)⟩
  case twinClaimBegin => exact ⟨_, Keeps.mono (execTwinClaimBegin_keeps _ _ _ h) (by decide)⟩
  case twinClaimAbsent => exact ⟨_, Keeps.mono (execTwinClaimAbsent_keeps _ _ _ h) (by decide)⟩
  case releasePattern => exact ⟨_, Keeps.mono (execReleasePattern_keeps _ _ _ h) (by decide)⟩
  case claimConfirmed => exact ⟨_, Keeps.mono (execClaimConfirmed_keeps _ _ h) (by decide)⟩
  case ownClaimLost => exact ⟨_, Keeps.mono (execOwnClaimLost_keeps _ _ h) (by decide)⟩
  case laneDown => exact ⟨_, Keeps.mono (execLaneDown_keeps _ _ _ h) (by decide)⟩
  case laneStartUp => exact ⟨_, Keeps.mono (execLaneStartUp_keeps _ _ _ _ _ _ h) (by decide)⟩
  case swathBlockReceived => exact ⟨_, Keeps.mono (execSwathBlockReceived_keeps _ _ _ _ h) (by decide)⟩
  case yield t n => exact ⟨_, Keeps.mono (execYield_keeps t n _ h) (by decide)⟩
  case claimReport => exact ⟨_, Keeps.mono (execClaimReport_keeps _ _ _ _ h) (by decide)⟩
  case yieldClaimStillPresent => exact ⟨_, Keeps.mono (execYieldClaimStillPresent_keeps _ _ h) (by decide)⟩
  case twinReportTimeout => exact ⟨_, Keeps.mono (execTwinReportTimeout_keeps _ _ h) (by decide)⟩
  case timeMarker => exact ⟨_, Keeps.mono (execTimeMarker_keeps _ _ _ h) (by decide)⟩
  case checkpointReceived => exact ⟨_, Keeps.mono (execCheckpointReceived_keeps _ _ _ h) (by decide)⟩
  case checkpointAck => exact ⟨_, Keeps.mono (execCheckpointAck_keeps _ _ _ _ _ h) (by decide)⟩
  case ckptLate => exact ⟨_, Keeps.mono (execCkptLate_keeps _ _ _ h) (by decide)⟩
  case synchronised => exact ⟨_, Keeps.mono (execSynchronised_keeps _ _ h) (by decide)⟩
  case syncingCopyBlock => exact ⟨_, Keeps.mono (execSyncingCopyBlock_keeps _ _ _ h) (by decide)⟩
  case takeover => exact ⟨_, Keeps.mono (execTakeover_keeps _ _ h) (by decide)⟩
  case isolated => exact ⟨_, Keeps.mono (execIsolated_keeps _ _ h) (by decide)⟩
  case handoverArmCheck => exact ⟨_, Keeps.mono (execHandoverArmCheck_keeps _ _ h) (by decide)⟩
  case handover => exact ⟨_, Keeps.mono (execHandover_keeps _ _ h) (by decide)⟩
  case handoverStandbyEntry => exact ⟨_, Keeps.mono (execHandoverStandbyEntry_keeps _ _ h) (by decide)⟩
  case homeSettleExpiry => exact ⟨_, Keeps.mono (execHomeSettleExpiry_keeps _ _ h) (by decide)⟩
  case provePeriodExpiry => exact ⟨_, Keeps.mono (execProvePeriodExpiry_keeps _ _ h) (by decide)⟩
  case proveDwellExpiry => exact ⟨_, Keeps.mono (execProveDwellExpiry_keeps _ _ h) (by decide)⟩
  case swathLoopback => exact ⟨_, Keeps.mono (execSwathLoopback_keeps _ _ _ _ h) (by decide)⟩
  case fieldReadback => exact ⟨_, Keeps.mono (execFieldReadback_keeps _ _ _ h) (by decide)⟩
  case unprovenTick => exact ⟨_, Keeps.mono (execUnprovenTick_keeps _ _ h) (by decide)⟩
  case cycleStart => exact ⟨_, Keeps.mono (execCycleStart_keeps _ _ _ h) (by decide)⟩
  case readRetryTimeout => exact ⟨_, Keeps.mono (execReadRetryTimeout_keeps _ _ _ h) (by decide)⟩
  case readRsp => exact ⟨_, Keeps.mono (execReadRsp_keeps _ _ _ h) (by decide)⟩
  case localCompletion => exact ⟨_, Keeps.mono (execLocalCompletion_keeps _ _ _ _ _ h) (by decide)⟩
  case publication => exact ⟨_, Keeps.mono (execPublication_keeps _ _ _ h) (by decide)⟩
  case taskEnd => exact ⟨_, Keeps.mono (execTaskEnd_keeps _ _ _ _ _ h) (by decide)⟩
  case outputCutoff => exact ⟨_, Keeps.mono (execOutputCutoff_keeps _ _ _ h) (by decide)⟩
  case writeRetryTimeout => exact ⟨_, Keeps.mono (execWriteRetryTimeout_keeps _ _ _ h) (by decide)⟩
  case writeAck => exact ⟨_, Keeps.mono (execWriteAck_keeps _ _ _ h) (by decide)⟩
  case peer => exact ⟨_, Keeps.mono (execPeer_keeps _ _ _ h) (by decide)⟩
  case foreignFrame => exact ⟨_, Keeps.mono (execForeignFrame_keeps _ _ _ h) (by decide)⟩
  case bindRetryTimeout => exact ⟨_, Keeps.mono (execBindRetryTimeout_keeps _ _ _ h) (by decide)⟩
  case announceBound => exact ⟨_, Keeps.mono (execAnnounceBound_keeps _ _ _ h) (by decide)⟩
  case announceStart => exact ⟨_, Keeps.mono (execAnnounceStart_keeps _ _ _ h) (by decide)⟩
  case diagResponse => exact ⟨_, Keeps.mono (execDiagResponse_keeps _ _ _ h) (by decide)⟩
  case diagTimeout => exact ⟨_, Keeps.mono (execDiagTimeout_keeps _ _ _ h) (by decide)⟩
  case schedPut => exact ⟨_, Keeps.mono (execSchedPut_keeps _ _ _ _ _ _ _ h) (by decide)⟩
  case schedCancel => exact ⟨_, Keeps.mono (execSchedCancel_keeps _ _ _ h) (by decide)⟩
  case schedStatus => exact ⟨_, Keeps.mono (execSchedStatus_keeps _ _ _ h) (by decide)⟩
  case schedEvaluation => exact ⟨_, Keeps.mono (execSchedEvaluation_keeps _ _ h) (by decide)⟩
  case schedRetryTimeout => exact ⟨_, Keeps.mono (execSchedRetryTimeout_keeps _ _ _ _ h) (by decide)⟩
  case schedAck => exact ⟨_, Keeps.mono (execSchedAck_keeps _ _ _ h) (by decide)⟩
  case publish => exact ⟨_, Keeps.mono (execPublish_keeps _ _ _ h) (by decide)⟩
  case reportDeadlineExpiry => exact ⟨_, Keeps.mono (execReportDeadlineExpiry_keeps _ _ _ h) (by decide)⟩
  case pointWrite => exact ⟨_, Keeps.mono (execPointWrite_keeps _ _ _ _ h) (by decide)⟩
  case pointReadCall => exact ⟨_, Keeps.mono (execPointReadCall_keeps _ _ _ h) (by decide)⟩
  case epochRead => exact ⟨_, Keeps.mono (execEpochRead_keeps _ _ _ _ _ h) (by decide)⟩
  case stampBlockRead => exact ⟨_, Keeps.mono (execStampBlockRead_keeps _ _ _ h) (by decide)⟩
  case timeNow => exact ⟨_, Keeps.mono (execTimeNow_keeps _ _ _ h) (by decide)⟩
  case sync => exact ⟨_, Keeps.mono (execSync_keeps _ _ _ h) (by decide)⟩
  case syncReceiptTimeout => exact ⟨_, Keeps.mono (execSyncReceiptTimeout_keeps _ _ _ h) (by decide)⟩
  case announceReceiptTimeout => exact ⟨_, Keeps.mono (execAnnounceReceiptTimeout_keeps _ _ _ h) (by decide)⟩
  case gptpAnnounce => exact ⟨_, Keeps.mono (execGptpAnnounce_keeps _ _ _ h) (by decide)⟩
  case pdelayExchange => exact ⟨_, Keeps.mono (execPdelayExchange_keeps _ _ _ _ h) (by decide)⟩
  case gptpIntervalTimer => exact ⟨_, Keeps.mono (execGptpIntervalTimer_keeps _ _ _ _ _ h) (by decide)⟩
  case triggerFire => exact ⟨_, Keeps.mono (execTriggerFire_keeps _ _ _ h) (by decide)⟩
  case ppsOutPulse => exact ⟨_, Keeps.mono (execPpsOutPulse_keeps _ _ h) (by decide)⟩
  case ppsInEdge => exact ⟨_, Keeps.mono (execPpsInEdge_keeps _ _ _ h) (by decide)⟩
  case dio15Edge => exact ⟨_, Keeps.mono (execDio15Edge_keeps _ _ _ h) (by decide)⟩
  case gateControlInterval => exact ⟨_, Keeps.mono (execGateControlInterval_keeps _ _ _ h) (by decide)⟩
  case lockstepFault => exact ⟨_, Keeps.mono (execLockstepFault_keeps _ _ _ _ _ h) (by decide)⟩
  case comparatorSelfTest => exact ⟨_, Keeps.mono (execComparatorSelfTest_keeps _ _ _ h) (by decide)⟩
  case lockstepDiagnosisEnd => exact ⟨_, Keeps.mono (execLockstepDiagnosisEnd_keeps _ _ _ _ _ _ _ h) (by decide)⟩
  case lbistStart => exact ⟨_, Keeps.mono (execLbistStart_keeps _ _ h) (by decide)⟩
  case lbistComplete => exact ⟨_, Keeps.mono (execLbistComplete_keeps _ _ _ h) (by decide)⟩
  case flipArmCheck => exact ⟨_, Keeps.mono (execFlipArmCheck_keeps _ _ h) (by decide)⟩
  case flipGo => exact ⟨_, Keeps.mono (execFlipGo_keeps _ _ h) (by decide)⟩
  case flipBoundary => exact ⟨_, Keeps.mono (execFlipBoundary_keeps _ _ h) (by decide)⟩
  case changeSetWritten => exact ⟨_, Keeps.mono (execChangeSetWritten_keeps _ _ h) (by decide)⟩
  case snapshotCommit => exact ⟨_, Keeps.mono (execSnapshotCommit_keeps _ _ h) (by decide)⟩
  case trialTokenRequest => exact ⟨_, Keeps.mono (execTrialTokenRequest_keeps _ _ h) (by decide)⟩
  case trialTokenTimeout => exact ⟨_, Keeps.mono (execTrialTokenTimeout_keeps _ _ h) (by decide)⟩
  case activationRecordWritten => exact ⟨_, Keeps.mono (execActivationRecordWritten_keeps _ _ _ h) (by decide)⟩
  case healthDwellPass => exact ⟨_, Keeps.mono (execHealthDwellPass_keeps _ _ h) (by decide)⟩
  case trialWindowExpiry => exact ⟨_, Keeps.mono (execTrialWindowExpiry_keeps _ _ h) (by decide)⟩
  case twinSheafPoll => exact ⟨_, Keeps.mono (execTwinSheafPoll_keeps _ _ h) (by decide)⟩
  case sequencerUpdate => exact ⟨_, Keeps.mono (execSequencerUpdate_keeps _ _ _ _ h) (by decide)⟩
  case outputApply => exact ⟨_, Keeps.mono (execOutputApply_keeps _ _ _ _ _ h) (by decide)⟩
  case silenceTimeout => exact ⟨_, Keeps.mono (execSilenceTimeout_keeps _ _ _ h) (by decide)⟩
  case wireBreakDetect => exact ⟨_, Keeps.mono (execWireBreakDetect_keeps _ _ _ _ h) (by decide)⟩
  case overload => exact ⟨_, Keeps.mono (execOverload_keeps _ _ _ _ h) (by decide)⟩
  case aggregateLimit => exact ⟨_, Keeps.mono (execAggregateLimit_keeps _ _ _ h) (by decide)⟩
  case mismatch => exact ⟨_, Keeps.mono (execMismatch_keeps _ _ _ _ h) (by decide)⟩
  case fldLost => exact ⟨_, Keeps.mono (execFldLost_keeps _ _ _ _ h) (by decide)⟩
  case conversionComplete => exact ⟨_, Keeps.mono (execConversionComplete_keeps _ _ _ _ h) (by decide)⟩
  case excitationWindow => exact ⟨_, Keeps.mono (execExcitationWindow_keeps _ _ _ _ h) (by decide)⟩
  case twinSenseReport => exact ⟨_, Keeps.mono (execTwinSenseReport_keeps _ _ _ _ _ _ h) (by decide)⟩
  case twinSenseTimeout => exact ⟨_, Keeps.mono (execTwinSenseTimeout_keeps _ _ h) (by decide)⟩
  case uaChannelFault => exact ⟨_, Keeps.mono (execUaChannelFault_keeps _ _ _ _ _ h) (by decide)⟩
  case afsLost => exact ⟨_, Keeps.mono (execAfsLost_keeps _ _ _ _ h) (by decide)⟩
  case hartPut => exact ⟨_, Keeps.mono (execHartPut_keeps _ _ _ _ _ _ h) (by decide)⟩
  case hartGet => exact ⟨_, Keeps.mono (execHartGet_keeps _ _ _ h) (by decide)⟩
  case hartReply => exact ⟨_, Keeps.mono (execHartReply_keeps _ _ _ _ h) (by decide)⟩
  case hartPoll => exact ⟨_, Keeps.mono (execHartPoll_keeps _ _ _ h) (by decide)⟩
  case canFrameReceived => exact ⟨_, Keeps.mono (execCanFrameReceived_keeps _ _ _ _ h) (by decide)⟩
  case canTxRequest => exact ⟨_, Keeps.mono (execCanTxRequest_keeps _ _ _ _ h) (by decide)⟩
  case canTxEnd => exact ⟨_, Keeps.mono (execCanTxEnd_keeps _ _ _ _ _ h) (by decide)⟩
  case busOffRecoveryComplete => exact ⟨_, Keeps.mono (execBusOffRecoveryComplete_keeps _ _ _ h) (by decide)⟩
  case canFifoRead => exact ⟨_, Keeps.mono (execCanFifoRead_keeps _ _ _ _ _ _ h) (by decide)⟩
  case canFifoConsume => exact ⟨_, Keeps.mono (execCanFifoConsume_keeps _ _ _ _ _ h) (by decide)⟩
  case canCancel => exact ⟨_, Keeps.mono (execCanCancel_keeps _ _ _ _ h) (by decide)⟩
  case canRecover => exact ⟨_, Keeps.mono (execCanRecover_keeps _ _ _ h) (by decide)⟩
  case referenceMessage => exact ⟨_, Keeps.mono (execReferenceMessage_keeps _ _ _ h) (by decide)⟩
  case refLate => exact ⟨_, Keeps.mono (execRefLate_keeps _ _ _ h) (by decide)⟩
  case busIntegration => exact ⟨_, Keeps.mono (execBusIntegration_keeps _ _ _ h) (by decide)⟩
  case canSettingsApply => exact ⟨_, Keeps.mono (execCanSettingsApply_keeps _ _ _ h) (by decide)⟩
  case recordAccept => exact ⟨_, Keeps.mono (execRecordAccept_keeps _ _ _ _ h) (by decide)⟩
  case recorderFlush => exact ⟨_, Keeps.mono (execRecorderFlush_keeps _ _ h) (by decide)⟩
  case displayUpdate => exact ⟨_, Keeps.mono (execDisplayUpdate_keeps _ _ h) (by decide)⟩
  case waveformEnd => exact ⟨_, Keeps.mono (execWaveformEnd_keeps _ _ h) (by decide)⟩
  case railDischargeDone => exact ⟨_, Keeps.mono (execRailDischargeDone_keeps _ _ h) (by decide)⟩
  case panelTemperatureRead => exact ⟨_, Keeps.mono (execPanelTemperatureRead_keeps _ _ _ h) (by decide)⟩
  case ledgerSave => exact ⟨_, Keeps.mono (execLedgerSave_keeps _ _ h) (by decide)⟩
  case scrubVisit => exact ⟨_, Keeps.mono (execScrubVisit_keeps _ _ _ _ h) (by decide)⟩
  case mowerWindow => exact ⟨_, Keeps.mono (execMowerWindow_keeps _ _ _ _ _ _ h) (by decide)⟩
  case windowAbandonedRetry => exact ⟨_, Keeps.mono (execWindowAbandonedRetry_keeps _ _ _ _ _ h) (by decide)⟩
  case transceiverInsertion => exact ⟨_, Keeps.mono (execTransceiverInsertion_keeps _ _ _ _ h) (by decide)⟩
  case transceiverMonitor => exact ⟨_, Keeps.mono (execTransceiverMonitor_keeps _ _ _ _ h) (by decide)⟩
  case linkReturn => exact ⟨_, Keeps.mono (execLinkReturn_keeps _ _ _ h) (by decide)⟩
  case twinModeReport => exact ⟨_, Keeps.mono (execTwinModeReport_keeps _ _ _ h) (by decide)⟩
  case homeReturnRequest => exact ⟨_, Keeps.mono (execHomeReturnRequest_keeps _ _ h) (by decide)⟩
  case flipArming => exact ⟨_, Keeps.mono (execFlipArming_keeps _ _ _ _ h) (by decide)⟩
  case flipArmed => exact ⟨_, Keeps.mono (execFlipArmed_keeps _ _ h) (by decide)⟩
  case trialTokenGrant => exact ⟨_, Keeps.mono (execTrialTokenGrant_keeps _ _ _ h) (by decide)⟩
  case mb14Response => exact ⟨_, Keeps.mono (execMb14Response_keeps _ _ _ h) (by decide)⟩
  case undefinedCommand => exact ⟨_, Keeps.mono (execUndefinedCommand_keeps _ _ _ _ h) (by decide)⟩
  case canBusError => exact ⟨_, Keeps.mono (execCanBusError_keeps _ _ _ _ _ _ h) (by decide)⟩
  case lingCellEmpty => exact ⟨_, Keeps.mono (execLingCellEmpty_keeps _ _ h) (by decide)⟩
  case recoveryReset => exact ⟨_, Keeps.mono (execRecoveryReset_keeps _ _ _ _ _ h) (by decide)⟩
  case messageIntervalRequest a b c d e f => exact ⟨_, Keeps.mono (execMessageIntervalRequest_keeps a b c d e f _ h) (by decide)⟩
theorem happens_next (t s p f) : ∃ s', happens t s p f = .next s' := ⟨_, rfl⟩

end Sys2Proof.Machine
end

