-- ==== Sys2Proof/Laws/OpCanBus.lean ====
section
/-! SUPPORT. What the operations of one chapter do: can. -/

set_option Elab.async false
set_option linter.all false

set_option linter.all false

namespace Sys2Proof.Machine

theorem canCh_self (u : State) (ch : Nat) (f : CanCh → CanCh) (h : ch < u.can.length) : (u.setCan ch f).canCh ch = f (u.canCh ch) := getD_setAt_self _ _ _ _ h
theorem select_fields (h : CanCh) : h.select.tec = h.tec ∧ h.select.errors = h.errors ∧ h.select.ackRun = h.ackRun ∧ h.select.alone = h.alone ∧ h.select.txFrames = h.txFrames ∧ h.select.lastError = h.lastError ∧ h.select.fc = h.fc ∧ h.select.txOverruns = h.txOverruns := by
  unfold CanCh.select; split <;> [skip; split] <;> exact ⟨rfl, rfl, rfl, rfl, rfl, rfl, rfl, rfl⟩
def SameCh (a b : CanCh) : Prop := a.tec = b.tec ∧ a.errors = b.errors ∧ a.ackRun = b.ackRun ∧ a.alone = b.alone ∧ a.txFrames = b.txFrames ∧ a.lastError = b.lastError
theorem SameCh.trans {a b c : CanCh} (h : SameCh a b) (k : SameCh b c) : SameCh a c :=
  ⟨h.1.trans k.1, h.2.1.trans k.2.1, h.2.2.1.trans k.2.2.1, h.2.2.2.1.trans k.2.2.2.1, h.2.2.2.2.1.trans k.2.2.2.2.1, h.2.2.2.2.2.trans k.2.2.2.2.2⟩
theorem SameCh.of_eq {a b : CanCh} (h : a = b) : SameCh a b := h ▸ ⟨rfl, rfl, rfl, rfl, rfl, rfl⟩
theorem sameCh_select (h : CanCh) : SameCh h.select h := ⟨(select_fields h).1, (select_fields h).2.1, (select_fields h).2.2.1, (select_fields h).2.2.2.1, (select_fields h).2.2.2.2.1, (select_fields h).2.2.2.2.2.1⟩

end Sys2Proof.Machine
end

