-- ==== Sys2Proof/Laws/OpChannels.lean ====
section
/-! SUPPORT. What the operations of one chapter do: channels. -/

set_option Elab.async false
set_option linter.all false

set_option linter.all false

namespace Sys2Proof.Machine

theorem dioCh_self (u : State) (n : Nat) (f : DioCh → DioCh) (h : n < u.dio.ch.length) : (u.setDio n f).dioCh n = f (u.dioCh n) := getD_setAt_self _ _ _ _ h
theorem dioCh_ne (u : State) (n k : Nat) (f : DioCh → DioCh) (h : k ≠ n) : (u.setDio n f).dioCh k = u.dioCh k := getD_setAt_ne _ _ _ _ _ (Ne.symm h)
theorem uaCh_self (u : State) (n : Nat) (f : UaCh → UaCh) (h : n < u.ua.ch.length) : (u.setUa n f).uaCh n = f (u.uaCh n) := getD_setAt_self _ _ _ _ h
theorem uaCh_ne (u : State) (n k : Nat) (f : UaCh → UaCh) (h : k ≠ n) : (u.setUa n f).uaCh k = u.uaCh k := getD_setAt_ne _ _ _ _ _ (Ne.symm h)
theorem record_f (ty : Nat) (qs) (u : State) : (u.record ty qs).dio = u.dio ∧ (u.record ty qs).ua = u.ua := ⟨(record_keeps _ _ _).frame .dio (by decide), (record_keeps _ _ _).frame .ua (by decide)⟩
theorem newReading_ua (n : Nat) (y : Word64) (s : State) (h : n < s.ua.ch.length) : ∃ f : UaCh → UaCh, (s.newReading n y).ua.ch = setAt s.ua.ch n f ∧
    (f (s.uaCh n)).conv = rawOfUnits (s.uaWord n) y ∧ (f (s.uaCh n)).reading = f32OfF64 y ∧ (f (s.uaCh n)).overrange = s.beyond n y ∧ (f (s.uaCh n)).wireBreak = (s.uaCh n).wireBreak ∧
    (bit (s.uaWord n) 17 = false → (f (s.uaCh n)).alarmLow = false ∧ (f (s.uaCh n)).alarmHigh = false) := by
  unfold State.newReading
  dsimp only
  have rr : ∀ (w : State) a b, (w.record a b).ua.ch = w.ua.ch := fun w a b => by rw [(record_f _ _ _).2]
  split
  · refine ⟨_, by rw [rr]; rfl, rfl, rfl, rfl, rfl, fun h => by simp [h]⟩
  · exact ⟨_, rfl, rfl, rfl, rfl, rfl, fun h => by simp [h]⟩
theorem mem_setAt {α : Type} (f : α → α) (d : α) (l : List α) : ∀ n, n < l.length → f (l.getD n d) ∈ setAt l n f := by
  induction l with
  | nil => intro n h; simp at h
  | cons x l ih =>
    intro n h
    cases n with
    | zero => exact List.mem_cons_self
    | succ n => exact List.mem_cons_of_mem _ (ih n (by simpa using h))
theorem modem_self (u : State) (n : Nat) (f : Modem → Modem) (h : n < u.ua.modems.length) : (u.setModem n f).modem n = f (u.modem n) := getD_setAt_self _ _ _ _ h
theorem serveHart_f (m : Nat) (u : State) (h : m < u.ua.modems.length) : ((u.serveHart m).modem m).queue = (u.modem m).queue ∧ (u.serveHart m).ua.modems.length = u.ua.modems.length ∧
    (u.serveHart m).ua.results = u.ua.results ∧ (u.serveHart m).ua.hartTransactions = u.ua.hartTransactions ∧ (u.serveHart m).ua.hartFailures = u.ua.hartFailures ∧ (u.serveHart m).ua.nextId = u.ua.nextId := by
  unfold State.serveHart
  split
  · dsimp only
    have e := modem_self u m (fun d => { d with attached := some (HartReq.ch ‹_›) }) h
    split
    · have e' := congrArg Modem.queue e
      exact ⟨e', setAt_length .., rfl, rfl, rfl, rfl⟩
    · have e' := congrArg Modem.queue e
      exact ⟨e', setAt_length .., rfl, rfl, rfl, rfl⟩
  · exact ⟨rfl, rfl, rfl, rfl, rfl, rfl⟩
theorem queueHart_f (q : HartReq) (u : State) (h : q.ch / 4 < u.ua.modems.length) : ((u.queueHart q).modem (q.ch / 4)).queue = (u.modem (q.ch / 4)).queue ++ [q] ∧
    (u.queueHart q).ua.modems.length = u.ua.modems.length ∧ (u.queueHart q).ua.nextId = u.ua.nextId := by
  unfold State.queueHart
  dsimp only
  have e := modem_self u (q.ch / 4) (fun d => { d with queue := d.queue ++ [q] }) h
  split
  · have k := serveHart_f (q.ch / 4) (u.setModem (q.ch / 4) fun d => { d with queue := d.queue ++ [q] }) (by show _ < (setAt _ _ _).length; rw [setAt_length]; exact h)
    refine ⟨k.1.trans (congrArg Modem.queue e), k.2.1.trans (setAt_length ..), k.2.2.2.2.2⟩
  · exact ⟨congrArg Modem.queue e, setAt_length .., rfl⟩
theorem declared_mem (s : State) (m n a : Nat) : (n, a) ∈ s.declaredDevices m ↔ 4 * m ≤ n ∧ n < 4 * m + 4 ∧
    (s.hartMode n = 1 ∧ a = 0 ∨ s.hartMode n = 2 ∧ 1 ≤ a ∧ a ≤ s.hartDevices n) := by
  unfold State.declaredDevices
  simp only [List.mem_flatMap, List.mem_map]
  constructor
  · rintro ⟨k, ⟨x, hx, rfl⟩, h⟩
    simp only [List.mem_cons, List.not_mem_nil, or_false] at hx
    split at h
    · rename_i e; simp only [List.mem_cons, List.not_mem_nil, or_false, Prod.mk.injEq] at h
      obtain ⟨rfl, rfl⟩ := h
      exact ⟨by omega, by omega, .inl ⟨e, rfl⟩⟩
    · split at h
      · rename_i e
        simp only [List.mem_map, List.mem_range, Prod.mk.injEq] at h
        obtain ⟨y, hy, rfl, rfl⟩ := h
        exact ⟨by omega, by omega, .inr ⟨e, by omega, by omega⟩⟩
      · simp at h
  · rintro ⟨h1, h2, h3⟩
    refine ⟨n, ⟨n - 4 * m, ?_, by omega⟩, ?_⟩
    · have : n - 4 * m < 4 := by omega
      simp only [List.mem_cons, List.not_mem_nil, or_false]; omega
    · rcases h3 with ⟨e, rfl⟩ | ⟨e, a1, a2⟩
      · simp [e]
      · simp only [e, show ¬ (2:Nat) = 1 by decide, if_false, if_true, List.mem_map, List.mem_range, Prod.mk.injEq, true_and]
        exact ⟨a - 1, by omega, by omega⟩

end Sys2Proof.Machine
end

