-- ==== Sys2Proof/Laws/OpBases.lean ====
section
/-! SUPPORT. What the operations of one chapter do: clocks. -/

set_option Elab.async false
set_option linter.all false

set_option linter.all false

namespace Sys2Proof.Machine

theorem base_self (n : Nat) (f : Base → Base) (s : State) : (s.setBase n f).base n = f (s.base n) := by
  unfold State.setBase State.base State.upTime; dsimp only; split <;> rfl
theorem base_ne (n k : Nat) (f : Base → Base) (s : State) (h : (n = 0) ≠ (k = 0)) : (s.setBase n f).base k = s.base k := by
  unfold State.setBase State.base State.upTime; dsimp only
  by_cases a : n = 0 <;> by_cases b : k = 0 <;> simp_all
theorem base_time {a b : State} (h : a.time = b.time) (n : Nat) : a.base n = b.base n := by unfold State.base; rw [h]
theorem rec_time (ty : Nat) (qs) (s : State) : (s.record ty qs).time = s.time := (record_keeps _ _ _).frame .time (by decide)
theorem rec_time' (ty : Nat) (qs) (s : State) : (s.record_ ty qs).time = s.time := (record__keeps _ _ _).frame .time (by decide)
theorem baseTo_self (n st : Nat) (s : State) : (s.baseTo n st).base n = if (s.base n).st = st then s.base n else { s.base n with st := st, run := 0, recent := [] } := by
  unfold State.baseTo; dsimp only
  split
  · rfl
  · have : ∀ w : State, ((((w.setBase n fun b => { b with st := st, run := 0, recent := [] }).record 0x0601 [(1, (s.base n).st), (1, st)])).base n) = { w.base n with st := st, run := 0, recent := [] } := by
      intro w; rw [base_time (rec_time _ _ _)]; exact base_self ..
    split
    · rw [base_time (rec_time _ _ _)]
      refine Eq.trans ?_ (this s); unfold State.base State.upTime; dsimp only
    · exact this s
theorem baseTo_f (n st : Nat) (s : State) : ((s.baseTo n st).base n).st = st ∧ ((s.baseTo n st).base n).acc = (s.base n).acc ∧ ((s.baseTo n st).base n).stepped = (s.base n).stepped ∧
    ((s.baseTo n st).base n).freq = (s.base n).freq ∧ ((s.baseTo n st).base n).offset = (s.base n).offset ∧ ((s.baseTo n st).base n).rate = (s.base n).rate ∧ ((s.baseTo n st).base n).foreign = (s.base n).foreign := by
  rw [baseTo_self]; split
  · rename_i h; exact ⟨h, rfl, rfl, rfl, rfl, rfl, rfl⟩
  · exact ⟨rfl, rfl, rfl, rfl, rfl, rfl, rfl⟩
theorem baseTo_steps (n st : Nat) (s : State) : (s.baseTo n st).time.steps = s.time.steps := by
  unfold State.baseTo; dsimp only
  have a : ∀ f, (s.setBase n f).time.steps = s.time.steps := fun f => by unfold State.setBase State.upTime; dsimp only; split <;> rfl
  split
  · rfl
  · split
    · rw [rec_time]; show ((s.setBase n _).record _ _).time.steps = _; rw [rec_time]; exact a _
    · rw [rec_time]; exact a _
theorem baseTo_conf (n st : Nat) (s : State) : (s.baseTo n st).conf = s.conf := congrArg (fun c : CfgSt => c.sown.cfg) ((baseTo_keeps n st s).frame .cfg (by decide))
theorem conf_of {s t : State} (h : t.cfg = s.cfg) : t.conf = s.conf := congrArg (fun c : CfgSt => c.sown.cfg) h
theorem stepBase_self (n acc : Nat) (s : State) : (s.stepBase n acc).base n = { s.base n with acc := acc, stepped := true } := by
  unfold State.stepBase; dsimp only
  rw [base_time (rec_time' _ _ _)]
  refine Eq.trans ?_ (base_self n (fun b => { b with acc := acc, stepped := true }) s); unfold State.base State.upTime; dsimp only
theorem stepBase_steps (n acc : Nat) (s : State) : (s.stepBase n acc).time.steps = inc32 s.time.steps := by
  unfold State.stepBase; dsimp only
  rw [rec_time']
  show inc32 (s.setBase n _).time.steps = _
  unfold State.setBase State.upTime; dsimp only; split <;> rfl
theorem setRate_self (n : Nat) (r : Int) (s : State) : (s.setRate n r).base n = { s.base n with rate := clampTo rateMax r } := base_self ..
theorem port_set (p : Nat) (f : PortTime → PortTime) (s : State) (h : p < s.time.ports.length) : (s.setPort p f).port p = f (s.port p) := getD_setAt_self _ _ _ _ h
theorem clamp_rate (x : Int) : -549755813 ≤ clampTo rateMax x ∧ clampTo rateMax x ≤ 549755813 := by unfold clampTo rateMax; omega
theorem disc_f (n : Nat) (off : Int) (s : State) : (((s.discipline n off).base n).st = (nextState (s.base n).st (s.base n).run off).1) ∧ ((s.discipline n off).base n).acc = (s.base n).acc ∧
    ((s.discipline n off).base n).stepped = (s.base n).stepped ∧ ((s.discipline n off).base n).offset = (s.base n).offset ∧
    ((s.discipline n off).base n).rate = clampTo rateMax ((s.base n).freq + slewTerm s.conf.time.slewPpm (nextState (s.base n).st (s.base n).run off).1 off) := by
  unfold State.discipline; dsimp only
  rw [setRate_self, base_self]
  have k := baseTo_f n (nextState (s.base n).st (s.base n).run off).1 s
  refine ⟨k.1, k.2.1, k.2.2.1, k.2.2.2.2.1, ?_⟩
  have : ((s.baseTo n (nextState (s.base n).st (s.base n).run off).1).setBase n fun b => { b with run := (nextState (s.base n).st (s.base n).run off).2 }).conf = s.conf := by
    rw [← baseTo_conf n (nextState (s.base n).st (s.base n).run off).1 s]
    exact conf_of (by unfold State.setBase State.upTime; dsimp only)
  rw [this]
theorem bestOf_min (l : List (Nat × AnnounceMsg)) : ∀ e, bestOf l = some e → e ∈ l ∧ ∀ x ∈ l, annKey e.2 ≤ annKey x.2 := by
  induction l with
  | nil => intro e h; simp [bestOf] at h
  | cons x l ih =>
    obtain ⟨p, a⟩ := x
    intro e h
    unfold bestOf at h
    cases hb : bestOf l with
    | none =>
      rw [hb] at h; dsimp only at h; cases h
      have : l = [] := by
        cases l with
        | nil => rfl
        | cons y l => exfalso; obtain ⟨q, b⟩ := y; unfold bestOf at hb; revert hb; split <;> [split; skip] <;> simp
      subst this; simp
    | some f =>
      obtain ⟨q, b⟩ := f
      rw [hb] at h; dsimp only at h
      have k := ih _ hb
      split at h
      · cases h
        rename_i hbet
        refine ⟨List.mem_cons_of_mem _ k.1, ?_⟩
        intro y hy
        rcases List.mem_cons.mp hy with rfl | hy
        · unfold annBetter at hbet; simp at hbet; dsimp only; omega
        · exact k.2 y hy
      · cases h
        rename_i hbet
        refine ⟨List.mem_cons_self, ?_⟩
        intro y hy
        rcases List.mem_cons.mp hy with rfl | hy
        · exact Nat.le_refl _
        · have := k.2 y hy
          have : annKey a ≤ annKey b := by
            unfold annBetter at hbet; simp at hbet; omega
          dsimp only at *; omega
theorem up_base (f : TimeSt → TimeSt) (s : State) (h : (f s.time).tb0 = s.time.tb0 ∧ (f s.time).tb1 = s.time.tb1) (n : Nat) : (s.upTime f).base n = s.base n := by
  unfold State.base State.upTime; dsimp only; rw [h.1, h.2]
theorem becomeGm_f (n : Nat) (s : State) (h : (s.base n).st ≠ 7) : ((s.becomeGm n).base n).st = 6 ∧ ((s.becomeGm n).base n).rate = 0 ∧ ((s.becomeGm n).base n).acc = (s.base n).acc := by
  unfold State.becomeGm; rw [if_neg h]
  have k := baseTo_f n 6 (s.setBase n fun b => { b with rate := 0, freq := 0, stepped := true, foreign := none })
  rw [base_self] at k
  exact ⟨k.1, k.2.2.2.2.2.1, k.2.1⟩
theorem takeGm_f (n : Nat) (a : AnnounceMsg) (s : State) (h : (s.base n).st = 0) : ((s.takeGm n a).base n).st = 1 ∧ ((s.takeGm n a).base n).foreign = some a := by
  unfold State.takeGm; dsimp only
  generalize hw : (if n = 0 then (s.setBase n fun b => { b with foreign := some a }).upTime fun c => { c with utcOffset := a.utcOffset } else s.setBase n fun b => { b with foreign := some a }) = w
  have wb : w.base n = { s.base n with foreign := some a } := by
    rw [← hw]; split
    · rw [up_base _ _ ⟨rfl, rfl⟩]; exact base_self ..
    · exact base_self ..
  rw [if_pos (by rw [wb]; exact h)]
  have k := baseTo_f n 1 w
  rw [wb] at k
  exact ⟨k.1, k.2.2.2.2.2.2⟩
theorem noGm_f (n : Nat) (s : State) : ((s.noGm n).base n).foreign = none ∧ ((s.noGm n).base n).acc = (s.base n).acc ∧
    ((s.noGm n).base n).st = (if (s.base n).st = 1 then 0 else if (s.base n).st = 6 then 5 else (s.base n).st) ∧
    ((s.base n).st = 1 → ((s.noGm n).base n).rate = 0) ∧ ((s.base n).st ≠ 1 → ((s.noGm n).base n).freq = (s.base n).freq) := by
  unfold State.noGm; dsimp only
  rw [base_self]; dsimp only
  split
  · rename_i h1
    have k := baseTo_f n 0 ((s.setBase n fun b => { b with foreign := none }).setBase n fun b => { b with rate := 0, freq := 0 })
    rw [base_self, base_self] at k
    exact ⟨k.2.2.2.2.2.2, k.2.1, k.1, fun _ => k.2.2.2.2.2.1, fun h => absurd h1 h⟩
  · rename_i h1
    split
    · have k := baseTo_f n 5 (s.setBase n fun b => { b with foreign := none })
      rw [base_self] at k
      exact ⟨k.2.2.2.2.2.2, k.2.1, k.1, fun h => absurd h h1, fun _ => k.2.2.2.1⟩
    · rw [base_self]; exact ⟨rfl, rfl, rfl, fun h => absurd h h1, fun _ => rfl⟩
theorem roles_base (n : Nat) (b) (s : State) (k : Nat) : (s.roles n b).base k = s.base k := up_base _ _ ⟨rfl, rfl⟩ k
theorem setPort_base (p : Nat) (f) (s : State) (k : Nat) : (s.setPort p f).base k = s.base k := up_base _ _ ⟨rfl, rfl⟩ k
theorem loseGm_f (n : Nat) (s : State) (h1 : s.extPorts n = false) (h2 : s.mayBeGm n = false) (h3 : ∀ q ∈ s.time.ports, q.role n ≠ 2 → q.ann n = none) :
    ∃ w : State, s.loseGm n = w.noGm n ∧ w.base n = s.base n := by
  unfold State.loseGm
  generalize hw : (s.upTime fun c => { c with ports := c.ports.map fun q => if q.role n = 2 then q.setAnn n none else q }) = w
  have wb : ∀ k, w.base k = s.base k := fun k => hw ▸ up_base _ _ ⟨rfl, rfl⟩ k
  have w1 : w.extPorts n = false := hw ▸ h1
  have w2 : w.mayBeGm n = false := hw ▸ h2
  have wp : ∀ p, (w.port p).ann n = none := by
    intro p
    rw [← hw]; unfold State.port State.upTime; dsimp only
    rw [List.getD_eq_getElem?_getD, List.getElem?_map]
    cases hq : s.time.ports[p]? with
    | none => simp only [Option.map_none, Option.getD_none]; unfold PortTime.ann; split <;> rfl
    | some q =>
      simp only [Option.map_some, Option.getD_some]
      split
      · unfold PortTime.ann PortTime.setAnn; split <;> rfl
      · rename_i hr; exact h3 q (List.mem_of_getElem? hq) hr
  have wc : w.candidates n = [] := by
    unfold State.candidates
    rw [List.filterMap_eq_nil_iff]
    intro p _
    rw [wp]; simp
  unfold State.select
  rw [w1, wc]; simp only [Bool.false_eq_true, if_false, bestOf, w2]
  exact ⟨_, rfl, by rw [roles_base, wb]⟩

end Sys2Proof.Machine
end

