-- ==== Sys2Proof/Laws/OpClaims.lean ====
section
/-! SUPPORT. What the operations of one chapter do: claims. -/

set_option Elab.async false
set_option linter.all false

set_option linter.all false

namespace Sys2Proof.Machine

theorem startAgain_id (s : State) (h : s.power.mode ≠ 7) : s.startAgain = s := by
  unfold State.startAgain; simp [h]
theorem tf_no (w : State) (h : w.power.mode ≠ 3 ∧ (w.power.mode ≠ 4 ∨ w.pair.synced = true) ∨ w.pair.twinClaim = true ∨ (w.swathSilent = false ∧ w.pair.yielded = false)) : w.twinFailed = w := by
  unfold State.twinFailed; rw [if_neg]
  simp only [Bool.and_eq_true, Bool.or_eq_true, beq_iff_eq, Bool.not_eq_true']
  rintro ⟨⟨a, b⟩, c⟩
  rcases h with ⟨h1, h2⟩ | h | ⟨h1, h2⟩
  · rcases a with a | ⟨a1, a2⟩
    · exact h1 a
    · rcases h2 with h2 | h2
      · exact h2 a1
      · rw [h2] at a2; cases a2
  · rw [h] at b; cases b
  · rw [h1, h2] at c; rcases c with c | c <;> cases c
theorem tf_yes (w : State) (h : w.power.mode = 3 ∨ w.power.mode = 4 ∧ w.pair.synced = false) (k : w.pair.twinClaim = false) (l : w.swathSilent = true ∨ w.pair.yielded = true) : w.twinFailed = w.safeHold 0xA := by
  unfold State.twinFailed; rw [if_pos]
  simp only [Bool.and_eq_true, Bool.or_eq_true, beq_iff_eq, Bool.not_eq_true']
  exact ⟨⟨h, k⟩, l⟩
theorem beginSync_f (s : State) : s.beginSync.power.mode = 3 ∧ s.beginSync.pair.ownClaim = s.pair.ownClaim ∧ s.beginSync.cnt.tieBreaks = s.cnt.tieBreaks := by
  unfold State.beginSync
  refine ⟨by rw [goMode_power], by rw [goMode_pair]; rfl, ?_⟩
  rw [show ∀ w : State, (w.goMode 3 0).cnt = w.cnt from fun w => (goMode_keeps 3 0 w).frame .cnt (by decide)]; rfl
theorem afterTie_id (b s : State) (h : b.pair.ownClaim = false ∨ b.pair.claimKind ≠ 0 ∨ s.pair.ownClaim = true ∨ (s.power.mode ≠ 1 ∧ s.power.mode ≠ 7)) : State.afterTie b s = s := by
  unfold State.afterTie
  rcases h with h | h | h | ⟨h, k⟩
  · simp [h]
  · simp [h]
  · simp [h]
  · simp [h, k]
theorem afterTie_go (b s : State) (h1 : b.pair.ownClaim = true) (h2 : b.pair.claimKind = 0) (h3 : s.pair.ownClaim = false) (h4 : s.power.mode = 1 ∨ s.power.mode = 7) : State.afterTie b s = s.decide5 := by
  unfold State.afterTie; rcases h4 with h4 | h4 <;> simp [h1, h2, h3, h4]

end Sys2Proof.Machine
end

