-- ==== Sys2Proof/Laws/OpTwins.lean ====
section
/-! SUPPORT. What the operations of one chapter do: twins. -/

set_option Elab.async false
set_option linter.all false

set_option linter.all false

namespace Sys2Proof.Machine

theorem setHedgeFault_keep (w : State) : w.setHedgeFault.pair.hedgeFault = true ∧ w.setHedgeFault.out = w.out ∧ w.setHedgeFault.sheaf = w.sheaf ∧ w.setHedgeFault.power = w.power ∧ w.setHedgeFault.pair.lane0 = w.pair.lane0 ∧ w.setHedgeFault.pair.lane1 = w.pair.lane1 ∧ w.setHedgeFault.pair.slotId = w.pair.slotId := by
  unfold State.setHedgeFault
  split
  · rename_i h; exact ⟨h, rfl, rfl, rfl, rfl, rfl, rfl⟩
  · have p : ∀ x : State, (x.record 0x0205 []).pair = x.pair := fun x => (record_keeps _ _ _).frame .pair (by decide)
    have o : ∀ x : State, (x.record 0x0205 []).out = x.out := fun x => (record_keeps _ _ _).frame .out (by decide)
    have q : ∀ x : State, (x.record 0x0205 []).power = x.power := fun x => (record_keeps _ _ _).frame .power (by decide)
    have h : ∀ x : State, (x.record 0x0205 []).sheaf = x.sheaf := fun x => (record_keeps _ _ _).frame .sheaf (by decide)
    rw [p, o, q, h]; exact ⟨rfl, rfl, rfl, rfl, rfl, rfl, rfl⟩
theorem resync_no (w : State) (h : w.power.mode ≠ 4) : w.resync = w := by
  unfold State.resync; simp [h]
theorem resync_yes (w : State) (h : w.power.mode = 4) : w.resync.power.mode = 3 ∧ w.resync.pair.lane0 = w.pair.lane0 ∧ w.resync.pair.lane1 = w.pair.lane1 ∧ w.resync.out = w.out ∧ w.resync.sheaf.twinProto = w.sheaf.twinProto ∧ w.resync.sheaf.twinMin = w.sheaf.twinMin ∧ w.resync.pair.hedgeFault = w.pair.hedgeFault := by
  unfold State.resync; simp only [h, bne_self_eq_false, Bool.false_eq_true, if_false]
  rw [goMode_power, goMode_pair, (goMode_keeps 3 0 _).frame .out (by decide)]
  refine ⟨rfl, rfl, rfl, rfl, ?_, ?_, rfl⟩
  · unfold State.goMode; dsimp only
    rw [show ∀ (x : State) a b, (x.record a b).sheaf = x.sheaf from fun x a b => (record_keeps _ _ _).frame .sheaf (by decide)]
    simp only [State.upPower, State.upPair, State.upCyc, State.upCnt, h, healthyMode]; simp
  · unfold State.goMode; dsimp only
    rw [show ∀ (x : State) a b, (x.record a b).sheaf = x.sheaf from fun x a b => (record_keeps _ _ _).frame .sheaf (by decide)]
    simp only [State.upPower, State.upPair, State.upCyc, State.upCnt, h, healthyMode]; simp
theorem setLane_f (l : Nat) (b : Bool) (p : PairSt) : (if l = 0 then (setLane l b p).lane0 else (setLane l b p).lane1) = b := by
  unfold setLane; split <;> rfl
theorem laneDown_f (l : Nat) (w : State) : (if l = 0 then (w.laneDown l).pair.lane0 else (w.laneDown l).pair.lane1) = false ∧ (w.laneDown l).cnt = w.cnt := by
  have k := setLane_f l false w.pair
  by_cases hs : ((w.upPair (setLane l false)).swathSilent && !w.swathSilent) = true
  · have e : w.laneDown l = (((w.upPair (setLane l false)).upPair (fun p => { p with silentAt := (w.upPair (setLane l false)).time.now, twinHomeArmed := false })).loseMarkers).twinFailed := by
      unfold State.laneDown; dsimp only; rw [if_pos hs]
    rw [e]
    generalize hx : ((w.upPair (setLane l false)).upPair (fun p => { p with silentAt := (w.upPair (setLane l false)).time.now, twinHomeArmed := false })).loseMarkers = x
    have xp : x.pair = { setLane l false w.pair with silentAt := w.time.now, twinHomeArmed := false } := by rw [← hx]; exact (loseMarkers_keeps _).frame .pair (by decide)
    have xc : x.cnt = w.cnt := by rw [← hx]; exact (loseMarkers_keeps _).frame .cnt (by decide)
    have tc : x.twinFailed.cnt = w.cnt := by rw [← xc]; exact (twinFailed_keeps _).frame .cnt (by decide)
    refine ⟨?_, tc⟩
    by_cases hc : ((x.power.mode == 3 || (x.power.mode == 4 && !x.pair.synced)) && !x.pair.twinClaim && (x.swathSilent || x.pair.yielded)) = true
    · have : x.twinFailed = x.safeHold 0xA := by unfold State.twinFailed; rw [if_pos hc]
      have s := safeHold_f 0xA x
      rw [this, s.2.2.2.2.2.2.2.2.2.2.2.2.2.2.1, s.2.2.2.2.2.2.2.2.2.2.2.2.2.2.2.1, xp]; exact k
    · have : x.twinFailed = x := by unfold State.twinFailed; rw [if_neg hc]
      rw [this, xp]; exact k
  · have e : w.laneDown l = w.upPair (setLane l false) := by unfold State.laneDown; dsimp only; rw [if_neg hs]
    rw [e]; exact ⟨k, rfl⟩
theorem resync_g (w : State) : w.resync.pair.lane0 = w.pair.lane0 ∧ w.resync.pair.lane1 = w.pair.lane1 ∧ ({ w.resync.cnt with applied := w.cnt.applied, gapStreaks := w.cnt.gapStreaks, dueRepairs := w.cnt.dueRepairs } : PairCnt) = w.cnt := by
  by_cases h : w.power.mode = 4
  · have r := resync_yes w h
    refine ⟨r.2.1, r.2.2.1, ?_⟩
    unfold State.resync; simp only [h, bne_self_eq_false, Bool.false_eq_true, if_false]
    rw [show ∀ x : State, (x.goMode 3 0).cnt = x.cnt from fun x => (goMode_keeps 3 0 x (by decide)).frame .cnt (by decide)]; rfl
  · rw [resync_no w h]; exact ⟨rfl, rfl, rfl⟩
theorem baseTo0 (s : State) : ((s.baseTo 0 7).base 0).st = 7 ∧ ((s.baseTo 0 7).base 0).acc = (s.base 0).acc := by
  unfold State.baseTo; dsimp only
  split
  · rename_i h; exact ⟨h, rfl⟩
  · simp only [show (7 : Nat) ≠ 4 by decide, if_false]
    rw [base_time (rec_f _ _ _ .time (by decide))]; exact ⟨rfl, rfl⟩
theorem baseTo10 (s : State) : (s.baseTo 1 7).base 0 = s.base 0 := by
  unfold State.baseTo; dsimp only
  split
  · rfl
  · simp only [show (7 : Nat) ≠ 4 by decide, if_false]
    rw [base_time (rec_f _ _ _ .time (by decide))]; rfl
theorem baseTo_f_twins (n st : Nat) (s : State) : (s.baseTo n st).pair = s.pair ∧ (s.baseTo n st).power = s.power ∧ (s.baseTo n st).boot = s.boot := by
  refine ⟨?_, ?_, ?_⟩
  · exact (baseTo_keeps n st s).frame .pair (by decide)
  · exact (baseTo_keeps n st s).frame .power (by decide)
  · exact (baseTo_keeps n st s).frame .boot (by decide)
theorem nextT0_f (x a : Nat) (s : State) (h : 0 < (s.classRec x).periodUs) : a ≤ s.nextT0 x a ∧ s.nextT0 x a < a + 1000 * (s.classRec x).periodUs ∧ 1000 * (s.classRec x).periodUs ∣ s.nextT0 x a := by
  unfold State.nextT0 ceilDiv; dsimp only
  generalize hp : 1000 * (s.classRec x).periodUs = p
  have hp0 : 0 < p := by omega
  have h1 := Nat.div_add_mod (a + p - 1) p
  have h2 := Nat.mod_lt (a + p - 1) hp0
  have h3 : p * ((a + p - 1) / p) = (a + p - 1) / p * p := Nat.mul_comm _ _
  refine ⟨by omega, by omega, Dvd.intro_left _ rfl⟩

end Sys2Proof.Machine
end

