-- ==== Sys2Proof/Laws/OpLockstep.lean ====
section
/-! SUPPORT. What the operations of one chapter do: lockstep. -/

set_option Elab.async false
set_option linter.all false

set_option linter.all false

namespace Sys2Proof.Machine

theorem cp_self (n : Nat) (f : CorePair → CorePair) (s : State) (h : n < s.lock.pairs.length) : (s.setPair n f).corePair n = f (s.corePair n) := by
  unfold State.corePair State.setPair State.upLock; dsimp only
  exact getD_setAt_self _ _ _ _ h
theorem cp_len (n : Nat) (f : CorePair → CorePair) (s : State) : (s.setPair n f).lock.pairs.length = s.lock.pairs.length := by
  unfold State.setPair State.upLock; dsimp only; simp
theorem safeHold_lock (r : Nat) (s : State) : (s.safeHold r).lock = s.lock := (safeHold_f r s).2.2.2.2.2.2.2.2.2.2.2.2.2.1 .lock (by decide)
theorem safeHold_cnt (r : Nat) (s : State) : (s.safeHold r).cnt = s.cnt := (safeHold_f r s).2.2.2.2.2.2.2.2.2.2.2.2.2.1 .cnt (by decide)
theorem safeHold_broken (w : State) : (w.safeHold 2).sheaf.healthBroken = true := by
  unfold State.safeHold; dsimp only
  generalize (((w.abandonArmed stState).giveUp).upPair fun p => { p with synced := false, isolated := false, homeArmed := false, armed := none }).upPower (fun p => { p with fromOwner := w.pair.owner || (p.mode == 7 && p.fromOwner) }) = x
  rw [if_pos (by decide)]
  show ((x.upSheaf fun h => { h with healthBroken := true, healthPassed := false }).goMode 7 2).sheaf.healthBroken = true
  unfold State.goMode; dsimp only
  rw [show ∀ (y : State) a b, (y.record a b).sheaf = y.sheaf from fun y a b => rec_f _ _ _ .sheaf (by decide)]
  have c : ∀ (b : Bool) (z : State), (if b = true then z.closeDebug else z).sheaf = z.sheaf := fun b z => by
    split
    · exact (closeDebug_keeps _).frame .sheaf (by decide)
    · rfl
  rw [if_pos (by simp [healthyMode])]
  show (if _ = true then State.closeDebug _ else _).sheaf.healthBroken = true
  rw [c]; rfl
theorem abandon_seed (st : Nat) (s : State) : (s.abandonArmed st).cfg.seed = s.cfg.seed := by
  unfold State.abandonArmed
  cases hp : s.pair.armed <;> cases hc : s.cfg.armed <;> simp only
  all_goals simp only [State.upPair, State.upCfg, State.endJob, State.upMsg, hc]
theorem safeHold_seed (r : Nat) (s : State) : (s.safeHold r).cfg.seed.valid = s.cfg.seed.valid := by
  unfold State.safeHold; dsimp only
  generalize hx : ((s.abandonArmed stState).giveUp) = x
  have xc : x.cfg = (s.abandonArmed stState).cfg := by rw [← hx]; exact (giveUp_keeps _).frame .cfg (by decide)
  generalize hy : (x.upPair fun p => { p with synced := false, isolated := false, homeArmed := false, armed := none }).upPower (fun p => { p with fromOwner := s.pair.owner || (p.mode == 7 && p.fromOwner) }) = y
  have yc : y.cfg = x.cfg := by rw [← hy]; rfl
  generalize hz : (if (r == 2 || r == 3 || r == 4 || r == 0xD) = true then y.upSheaf fun h => { h with healthBroken := true, healthPassed := false } else y) = z
  have zc : z.cfg = y.cfg := by rw [← hz]; split <;> rfl
  have gc : (z.goMode 7 r).cfg = z.cfg := (goMode_keeps 7 r _ (by decide)).frame .cfg (by decide)
  generalize hg : z.goMode 7 r = g at *
  show g.cfg.seed.valid = _
  rw [gc, zc, yc, xc, abandon_seed]
theorem stayMode_f (r : Nat) (s : State) (p : Part) (hp : p ∉ [.cache, .log, .mem]) : p.same s (s.stayMode r) := rec_f _ _ _ p hp
theorem proved_f (n : Nat) (ok : Bool) (s : State) : (s.proved n ok).lock = s.lock ∧ (s.proved n ok).power = s.power ∧ (s.proved n ok).cnt.proof = setBits s.cnt.proof n 1 (b2n ok) ∧ (s.proved n ok).cfg = s.cfg ∧ (s.proved n ok).sheaf = s.sheaf := by
  unfold State.proved; dsimp only
  split
  · have e := fun p hp => rec_f 0x0207 [(1, n)] ((s.upCnt fun k => { k with proof := setBits k.proof n 1 (b2n ok) }).upCnt fun k => { k with proofFails := inc32 k.proofFails }) p hp
    have e1 := e .lock (by decide)
    have e2 := e .power (by decide)
    have e3 := e .cnt (by decide)
    have e4 := e .cfg (by decide)
    have e5 := e .sheaf (by decide)
    exact ⟨e1, e2, congrArg PairCnt.proof e3, e4, e5⟩
  · exact ⟨rfl, rfl, rfl, rfl, rfl⟩
theorem lockFault_f (n g : Nat) (f : LockFinding) (u : State) (hl : n < u.lock.pairs.length) (hh : (u.corePair n).halted = false) :
    (u.lockFault n f g).corePair n = { u.corePair n with halted := true, kindAtFault := findingCode f, lastGroup := if f = .mismatch then g else 0xFE, faultS := u.tb3s % 2 ^ 32, faults := inc32 (u.corePair n).faults } ∧
      (u.lockFault n f g).lock.vector = some (n, if f = .mismatch then g else 0xFE, u.time.tb3) ∧
      (f = .mismatch → (u.lockFault n f g).lock.mismatches = inc32 u.lock.mismatches) ∧
      (f = .railDisagreement → (u.lockFault n f g).lock.railDisagreements = inc32 u.lock.railDisagreements) ∧
      (f = .selfTestFailed → (u.lockFault n f g).lock.selftestFails = inc32 u.lock.selftestFails) ∧
      (3 ≤ u.power.mode → u.power.mode ≤ 6 → (u.lockFault n f g).power.mode = 7 ∧ (u.lockFault n f g).power.reason = 2 ∧ (u.lockFault n f g).pair.owner = false ∧ (u.lockFault n f g).pair.ownClaim = false) ∧
      (u.power.mode < 3 ∨ 6 < u.power.mode → (u.lockFault n f g).power = u.power) ∧ (u.sheaf.healthBroken = true → (u.lockFault n f g).sheaf.healthBroken = true ∨ ¬ (3 ≤ u.power.mode ∧ u.power.mode ≤ 6)) := by
  unfold State.lockFault; rw [hh]; simp only [Bool.false_eq_true, if_false]
  generalize hw : ((u.setPair n fun c => { c with halted := true, kindAtFault := findingCode f, lastGroup := if f = .mismatch then g else 0xFE, faultS := u.tb3s % 2 ^ 32, faults := inc32 c.faults }).upLock fun l =>
      { l with vector := some (n, if f = .mismatch then g else 0xFE, u.time.tb3), mismatches := if f = .mismatch then inc32 l.mismatches else l.mismatches,
               foldMismatches := if (f = .mismatch && (if f = .mismatch then g else 0xFE) == 0xFF) = true then inc32 l.foldMismatches else l.foldMismatches,
               railDisagreements := if f = .railDisagreement then inc32 l.railDisagreements else l.railDisagreements,
               selftestFails := if f = .selfTestFailed then inc32 l.selftestFails else l.selftestFails }) = w
  have wm : w.power = u.power := hw ▸ rfl
  have wc : w.corePair n = { u.corePair n with halted := true, kindAtFault := findingCode f, lastGroup := if f = .mismatch then g else 0xFE, faultS := u.tb3s % 2 ^ 32, faults := inc32 (u.corePair n).faults } := by
    rw [← hw]; exact cp_self n (fun c => { c with halted := true, kindAtFault := findingCode f, lastGroup := if f = .mismatch then g else 0xFE, faultS := u.tb3s % 2 ^ 32, faults := inc32 c.faults }) u hl
  have w1 : w.lock.vector = some (n, if f = .mismatch then g else 0xFE, u.time.tb3) := hw ▸ rfl
  have w2 : f = .mismatch → w.lock.mismatches = inc32 u.lock.mismatches := by intro e; rw [← hw, e]; rfl
  have w3 : f = .railDisagreement → w.lock.railDisagreements = inc32 u.lock.railDisagreements := by intro e; rw [← hw, e]; rfl
  have w4 : f = .selfTestFailed → w.lock.selftestFails = inc32 u.lock.selftestFails := by intro e; rw [← hw, e]; rfl
  have wcp : ∀ v : State, v.lock = w.lock → v.corePair n = w.corePair n := by intro v h; unfold State.corePair; rw [h]
  rw [wm]
  split
  · rename_i h2
    have hk : (w.stayMode 2).lock = w.lock := stayMode_f 2 w .lock (by decide)
    have hp : (w.stayMode 2).power = w.power := stayMode_f 2 w .power (by decide)
    rw [wcp _ hk, hk, hp, wm]
    exact ⟨wc, w1, w2, w3, w4, fun h => by omega, fun _ => rfl, fun _ => .inr (by omega)⟩
  · rename_i h2
    split
    · rename_i h3
      simp only [Bool.and_eq_true, decide_eq_true_eq] at h3
      have k := safeHold_f 2 w
      rw [wcp _ (safeHold_lock 2 w), safeHold_lock]
      refine ⟨wc, w1, w2, w3, w4, fun _ _ => ⟨k.1, k.2.1, k.2.2.1, k.2.2.2.1⟩, fun h => by omega, fun _ => .inl ?_⟩
      exact safeHold_broken w
    · rename_i h3
      simp only [Bool.and_eq_true, decide_eq_true_eq] at h3
      exact ⟨wc, w1, w2, w3, w4, fun a b => absurd ⟨a, b⟩ h3, fun _ => wm, fun _ => .inr (fun h => h3 h)⟩

end Sys2Proof.Machine
end

