-- ==== Sys2Proof/Laws/OpRequests.lean ====
section
/-! SUPPORT. What the operations of one chapter do: requests. -/

set_option Elab.async false
set_option linter.all false

set_option linter.all false

namespace Sys2Proof.Machine

theorem early_take (code : Nat) (r : Req) (s : State) : (s.take r).refusedEarly code r = s.refusedEarly code r := by
  unfold State.refusedEarly State.reqRoom; rw [(take_box r s r.mb).2.2.2.2.2.1, (take_box r s r.mb).2.2.2.2.1, take_sessionOk]; rfl
theorem late_take (c : Cmd) (r : Req) (s : State) : (s.take r).refusedLate c r = s.refusedLate c r := by
  unfold State.refusedLate; rw [take_permitted, take_inModes]
theorem serve_ladder (c : Cmd) (r : Req) (body : State → State × Option (Nat × List Byte)) (s : State) (h1 : s.reaches r = true) (h2 : s.postBusy r = false) (h3 : r.mb < 16)
    (h4 : s.power.mode ≠ 1 → s.postBad r = false) :
    s.run c r body = match s.refusedEarly c.code r with
      | some st => if r.mb < 8 && st == stLength then ((s.take r).respond (hdrOf r) c.code st []).closeConnection r.mb else (s.take r).respond (hdrOf r) c.code st []
      | none => if continues r && definedCodes.contains c.code then (s.take r).nextSegment c.code r
        else match s.refusedLate c r with
          | some st => (s.take r).respond (hdrOf r) c.code st []
          | none => match body (s.take r) with
            | (v, some (st, data)) => v.respond (hdrOf r) c.code st data
            | (v, none) => v.setBox r.mb fun x => { x with busy := true } := by
  unfold State.run State.serve
  rw [h1, h2]; simp only [Bool.not_true, Bool.false_eq_true, if_false]
  rw [if_neg (by omega)]
  have : ((s.take r).power.mode != 1 && (s.take r).postBad r) = false := by
    show (s.power.mode != 1 && (s.take r).postBad r) = false
    by_cases k : s.power.mode = 1
    · simp [k]
    · have := h4 k
      have e : (s.take r).postBad r = s.postBad r := by unfold State.postBad State.reqRoom; rw [(take_box r s r.mb).2.2.2.2.2.1]
      rw [e, this]; simp
  rw [this]; simp only [Bool.false_eq_true, if_false]
  rw [early_take, late_take]
  cases s.refusedEarly c.code r with
  | some st => rfl
  | none =>
    dsimp only
    by_cases hc : (continues r && definedCodes.contains c.code) = true
    · rw [if_pos hc, if_pos hc]
    · rw [if_neg hc, if_neg hc]
      cases s.refusedLate c r with
      | some st => rfl
      | none =>
        dsimp only
        rcases body (s.take r) with ⟨v, _ | ⟨st, data⟩⟩ <;> rfl
theorem count_box (st : Nat) (s : State) : (s.countRefusal st).msg.boxes = s.msg.boxes ∧ (s.countRefusal st).out = s.out ∧ (s.countRefusal st).free = s.free := by
  unfold State.countRefusal; split <;> exact ⟨rfl, rfl, rfl⟩
theorem put_f (h : Hdr) (code st : Nat) (data : List Byte) (s : State) (hb : h.mb < s.msg.boxes.length) :
    (s.putResponse h code st data).out = s.out ++ [.response h.mb (messageBytes 1 code h.tag st h.session data)] ∧
    (8 ≤ h.mb → h.mb < 16 → ((s.putResponse h code st data).box h.mb).doneLen = 20 + data.length) ∧
    ((s.putResponse h code st data).box h.mb).busy = false ∧ ((s.putResponse h code st data).box h.mb).held = (s.box h.mb).held := by
  unfold State.putResponse; dsimp only
  have b1 : ∀ e, ((s.setBox h.mb fun x => { x with busy := false }).emit e).box h.mb = { s.box h.mb with busy := false } := by
    intro e
    have : ((s.setBox h.mb fun x => { x with busy := false }).emit e).box h.mb = (s.setBox h.mb fun x => { x with busy := false }).box h.mb := rfl
    rw [this, setBox_box, if_pos ⟨rfl, hb⟩]
  split
  · rename_i c; rw [b1]
    refine ⟨rfl, fun a b => ?_, rfl, rfl⟩
    simp at c; omega
  · rename_i c
    have ml : (messageBytes 1 code h.tag st h.session data).length = 20 + data.length := by
      unfold messageBytes headerBytes; simp [leBytes_length]; omega
    have b2 : ∀ (e : Emission) (m : Mem → Mem), ((((s.setBox h.mb fun x => { x with busy := false }).emit e).upMem m).setBox h.mb fun x => { x with doneLen := (messageBytes 1 code h.tag st h.session data).length }).box h.mb
        = { s.box h.mb with busy := false, doneLen := (messageBytes 1 code h.tag st h.session data).length } := by
      intro e m
      rw [setBox_box, if_pos ⟨rfl, by show h.mb < (setAt s.msg.boxes _ _).length; simpa using hb⟩]
      have : (((s.setBox h.mb fun x => { x with busy := false }).emit e).upMem m).box h.mb = (s.setBox h.mb fun x => { x with busy := false }).box h.mb := rfl
      rw [this, setBox_box, if_pos ⟨rfl, hb⟩]
    rw [b2, ml]
    exact ⟨rfl, fun _ _ => rfl, rfl, rfl⟩
theorem bit_setBits1 (x : Nat) : bit (setBits x 1 1 1) 1 = true := by
  unfold bit setBits bits
  rw [Nat.testBit_eq_decide_div_mod_eq]
  simp only [decide_eq_true_eq]
  have h := Nat.div_add_mod x 2
  have := Nat.mod_lt (x / 2) (show 0 < 2 by decide)
  omega
theorem endSession_f (mb : Nat) (s : State) (hb : mb < s.msg.boxes.length) : ((s.endSession mb).box mb).sid = 0 ∧ ((s.endSession mb).box mb).role = 0 ∧ ((s.endSession mb).box mb).held = none ∧
    ((s.endSession mb).box mb).window = none ∧ (s.endSession mb).out = s.out ∧ (s.endSession mb).msg.boxes.length = s.msg.boxes.length ∧ (s.endSession mb).msg.counters = s.msg.counters := by
  have e : (s.endSession mb).msg = (s.setBox mb fun x => { x with sid := 0, role := 0, held := none, window := none }).msg := by
    unfold State.endSession; dsimp only
    split
    · rfl
    · have r : ∀ w : State, (w.record 0x0102 [(4, (s.box mb).sid)]).msg = w.msg := fun w => (record_keeps _ _ _).frame .msg (by decide)
      split
      · rw [show ∀ w : State, w.closeDebug.msg = w.msg from fun w => (closeDebug_keeps _).frame .msg (by decide)]; exact r _
      · exact r _
  have eo : (s.endSession mb).out = s.out := (endSession_keeps _ _).frame .out (by decide)
  have eb : (s.endSession mb).box mb = { s.box mb with sid := 0, role := 0, held := none, window := none } := by
    rw [box_of (congrArg MsgSt.boxes e), setBox_box, if_pos ⟨rfl, hb⟩]
  rw [eb, eo, e]
  exact ⟨rfl, rfl, rfl, rfl, rfl, by show (setAt _ _ _).length = _; simp, rfl⟩
theorem dropConnection_f (mb : Nat) (s : State) (hb : mb < s.msg.boxes.length) (hm : mb < 8) : ((s.dropConnection mb).box mb).sid = 0 ∧ ((s.dropConnection mb).box mb).role = 0 ∧
    ((s.dropConnection mb).box mb).connected = false ∧ ((s.dropConnection mb).box mb).held = none ∧ ((s.dropConnection mb).box mb).window = none ∧ (s.dropConnection mb).out = s.out := by
  obtain ⟨a, b, c, d, e, f, g⟩ := endSession_f mb s hb
  unfold State.dropConnection; rw [if_neg (by omega), setBox_box, if_pos ⟨rfl, by rw [f]; exact hb⟩]
  exact ⟨a, b, rfl, c, d, e⟩
theorem read16 (m : Mem) (a o n : Nat) (h : o + n ≤ 16) : field (memReadBytes m a 16) o n = memReadN m (a + o) n := by
  unfold field memReadN; congr 1
  unfold slice memReadBytes
  refine List.ext_getElem ?_ ?_
  · simp; omega
  · intro i h1 h2; simp [Nat.add_assoc]
theorem freeJobId_or (held : List Nat) : ∀ n id, (freeJobId held n id ≠ 0 ∧ freeJobId held n id < 65536 ∧ freeJobId held n id ∉ held) ∨ ∀ k, k < n → (id + k) % 65536 = 0 ∨ (id + k) % 65536 ∈ held := by
  intro n
  induction n with
  | zero => intro id; right; intro k hk; omega
  | succ n ih =>
    intro id
    unfold freeJobId
    split
    · rename_i c
      rcases ih (id + 1) with h | h
      · exact .inl h
      · right; intro k hk
        cases k with
        | zero =>
          simp at c; rcases c with c | c
          · exact .inl c
          · exact .inr c
        | succ k =>
          have := h k (by omega)
          rw [show id + (k + 1) = id + 1 + k by omega]; exact this
    · rename_i c
      left; simp at c
      exact ⟨c.1, Nat.mod_lt _ (by decide), c.2⟩

end Sys2Proof.Machine
end

