-- ==== Sys2Proof/Laws/OpKeys.lean ====
section
/-! SUPPORT. What the operations of one chapter do: secure partition. -/

set_option Elab.async false
set_option linter.all false

set_option linter.all false

namespace Sys2Proof.Machine

theorem firstOf_cons (x : Option Nat) (l : List (Option Nat)) : firstOf (x :: l) = match x with | some v => some v | none => firstOf l := by
  unfold firstOf; simp only [List.findSome?_cons]; cases x <;> rfl
theorem firstOf_nil : firstOf [] = none := rfl
theorem key_pass (u : State) (mb : Nat) (hm : u.power.mode = 2) (h3 : u.sec.lifecycle ≠ 3) (h0 : u.sec.lifecycle = 0 → mb = 15) (h4 : u.sec.lifecycle ≠ 0 → 4 ≤ u.rights mb) : keyCheck u mb = none := by
  unfold keyCheck; rw [if_neg h3]
  unfold modeCheck roleCheck; simp only [firstOf_cons, firstOf_nil]
  by_cases a : u.sec.lifecycle = 0
  · rw [if_pos a, if_pos (h0 a), if_pos hm]
  · rw [if_neg a, if_neg (by have := h4 a; omega), if_pos hm]
theorem kw_check (u : State) (mb v : Nat) (o) (hk : keyCheck u mb = none) : u.wordCheck mb 8 0x20 v o = firstOf [none, rangeCheck (v < 256), if bits v 6 2 = 2 then u.keyCommitCheck else none] := by
  show firstOf [keyCheck u mb, rangeCheck (v < 256), if bits v 6 2 = 2 then u.keyCommitCheck else none] = _
  rw [hk]
theorem kcc (a b : State) (h1 : a.sec = b.sec) (h2 : a.cfg = b.cfg) : a.keyCommitCheck = b.keyCommitCheck := by
  unfold State.keyCommitCheck; rw [h1, h2]
theorem kwin_sec (n v : Nat) (u : State) : ∃ f, u.keyWindow n v = u.upSec f := ⟨_, rfl⟩
theorem kfold (mb first : Nat) (ws : List (Nat × Nat)) : ∀ (u : State), (∀ e ∈ ws, 0x100 ≤ e.1) → ws.foldl (fun s e => s.writeWord mb 8 e.1 e.2) u = ws.foldl (fun s e => s.keyWindow (e.1 - 0x100) e.2) u := by
  induction ws with
  | nil => intro u h; rfl
  | cons e ws ih =>
    intro u h
    have h0 := h e (by simp)
    have : u.writeWord mb 8 e.1 e.2 = u.keyWindow (e.1 - 0x100) e.2 := by
      show (if e.1 = 0x20 then u.keyCtrl e.2 else if e.1 = 0x22 then (if bit e.2 0 then u.clearMem else u) else u.keyWindow (e.1 - 0x100) e.2) = _
      rw [if_neg (by omega), if_neg (by omega)]
    simp only [List.foldl_cons, this]
    exact ih _ (fun x hx => h x (by simp [hx]))
theorem advance2 (w : State) : (w.advance 2).sec = { w.sec with lifecycle := 2, latch := 2, ownerLock := false, wipes := inc32 w.sec.wipes, wipeReason := 5, wipeS := w.tb3s % 2 ^ 32 } ∧ (w.advance 2).gate.debugOpen = false := by
  obtain ⟨a, b, _⟩ := wipe_f 5 w
  unfold State.advance
  generalize w.wipe 5 = y at *
  simp only
  rw [rec_sec, rec_gate]
  refine ⟨?_, b⟩
  unfold State.upSec; dsimp only; rw [a]; rfl
theorem advance3 (w : State) : (w.advance 3).sec.lifecycle = 3 ∧ (w.advance 3).sec.latch = 3 ∧ (w.advance 3).sec.fuse = true ∧ (w.advance 3).sec.sealedRec = false ∧ (w.advance 3).sec.serverKey = [] ∧ (w.advance 3).sec.cfgKeys = [] ∧
    (w.advance 3).sec.sheafKeys = [] ∧ (w.advance 3).sec.roles = [] ∧ (w.advance 3).sec.anchors = [] ∧
    (w.advance 3).cfg.sown = Slot.empty ∧ (w.advance 3).cfg.fallow = Slot.empty ∧ (w.advance 3).cfg.seed = Slot.empty ∧ (w.advance 3).gate.debugOpen = false := by
  obtain ⟨a, b, _⟩ := wipe_f 5 w
  unfold State.advance
  generalize w.wipe 5 = y at *
  simp only
  rw [rec_sec, rec_gate, rec_cfg]
  unfold State.eraseStore State.upSec State.upCfg State.upLog; dsimp only
  rw [a]; exact ⟨rfl, rfl, rfl, rfl, rfl, rfl, rfl, rfl, rfl, rfl, rfl, rfl, b⟩

end Sys2Proof.Machine
end

