-- ==== Sys2Proof/Laws/OpSupply.lean ====
section
/-! SUPPORT. What the operations of one chapter do: power. -/

set_option Elab.async false
set_option linter.all false

set_option linter.all false

namespace Sys2Proof.Machine

theorem memRead_cleared_out (m : Mem) (lo hi a : Nat) (h : a < lo ∨ hi < a) : memRead (memClear m lo hi) a = memRead m a := by
  unfold memRead memClear; dsimp only
  exact cellsRead_filter (fun x => decide (x < lo) || decide (hi < x)) m.cells a (by rcases h with h | h <;> simp [h])
theorem tampered_f (k : Nat) (s : State) (h : s.unpowered = false) :
    (s.tampered k).sec = (s.dropClaim.tamperWipe k).sec ∧ (s.tampered k).pair.ownClaim = false ∧
    (3 ≤ s.power.mode → s.power.mode ≤ 7 → s.boot.retiring = false → (s.tampered k).power.mode = 7 ∧ (s.tampered k).power.reason = 4 ∧ (s.tampered k).pair.owner = false) ∧
    (s.power.mode = 2 → s.boot.retiring = false → (s.tampered k).power.mode = 2 ∧ (s.sec.fuse = false → (s.tampered k).gate.debugOpen = true)) ∧
    (s.power.mode = 1 ∨ s.boot.retiring = true → (s.tampered k).power = s.power) := by
  have d := dropClaim_f s
  have w := tamperWipe_f k s.dropClaim
  unfold State.tampered; rw [if_neg (by simp [h])]
  generalize s.dropClaim.tamperWipe k = x at *
  have xm : x.power = s.power := w.2.2.2.2.2.2.2.2.1.trans d.2.2.1
  have xp : x.pair.ownClaim = false := by rw [w.2.2.2.2.2.2.2.2.2.1]; exact d.1
  have xb : x.boot = s.boot := w.2.2.2.2.2.2.2.2.2.2.trans d.2.2.2.1
  have xl : x.sec.lifecycle = if s.sec.fuse = true then 3 else 0 := by rw [w.2.2.2.2.1, d.2.2.2.2.2.1]
  have xg := w.2.2.2.2.2.2.2.1
  dsimp only; rw [xm, xb]
  have st : ∀ p, p ∉ [Part.cache, .log, .mem] → p.same x (x.stayMode 4) := fun p hp => rec_f _ _ _ p hp
  by_cases c : s.power.mode = 1 ∨ s.boot.retiring = true
  · rw [if_pos (by simpa using c)]
    have e1 : (x.stayMode 4).sec = x.sec := st .sec (by decide)
    have e2 : (x.stayMode 4).pair = x.pair := st .pair (by decide)
    have e3 : (x.stayMode 4).power = x.power := st .power (by decide)
    rw [e1, e2, e3]
    refine ⟨rfl, xp, fun a b r => ?_, fun a r => ?_, fun _ => xm⟩
    · rcases c with c | c; omega; rw [c] at r; cases r
    · rcases c with c | c; omega; rw [c] at r; cases r
  · rw [if_neg (by simpa using c)]
    by_cases c2 : s.power.mode = 2
    · rw [if_pos c2]
      have e1 : (x.stayMode 4).sec = x.sec := st .sec (by decide)
      have e2 : (x.stayMode 4).pair = x.pair := st .pair (by decide)
      have e3 : (x.stayMode 4).power = x.power := st .power (by decide)
      have e4 : (x.stayMode 4).gate = x.gate := st .gate (by decide)
      generalize x.stayMode 4 = y at *
      rw [e1]
      split
      · rename_i hz
        have o := (openDebug_keeps none y).frame
        have o1 : (y.openDebug none).sec = y.sec := o .sec (by decide)
        have o2 : (y.openDebug none).pair = y.pair := o .pair (by decide)
        have o3 : (y.openDebug none).power = y.power := o .power (by decide)
        rw [o1, o2, o3, e1, e2, e3, xm]
        refine ⟨rfl, xp, fun a b r => by omega, fun a r => ⟨c2, fun _ => ?_⟩, fun h => absurd h c⟩
        unfold State.openDebug; rw [if_neg (by rw [e4, xg, e3, xm, c2]; decide)]; dsimp only
        rw [rec_gate]; rfl
      · rename_i hz
        rw [e1, e2, e3, xm]
        refine ⟨rfl, xp, fun a b r => by omega, fun a r => ⟨c2, fun hf => ?_⟩, fun h => absurd h c⟩
        exact absurd (by rw [xl, hf]; rfl) hz
    · rw [if_neg c2]
      have cs : x.cancelStart.sec = x.sec := (cancelStart_keeps _).frame .sec (by decide)
      have k := safeHold_f 4 x.cancelStart
      have ks : (x.cancelStart.safeHold 4).sec = x.cancelStart.sec := k.2.2.2.2.2.2.2.2.2.2.2.2.2.1 .sec (by decide)
      rw [ks, cs]
      exact ⟨rfl, k.2.2.2.1, fun _ _ _ => ⟨k.1, k.2.1, k.2.2.1⟩, fun h => absurd h c2, fun h => absurd h c⟩

end Sys2Proof.Machine
end

