-- ==== Sys2Proof/Laws/OpStarts.lean ====
section
/-! SUPPORT. What the operations of one chapter do: boot. -/

set_option Elab.async false
set_option linter.all false

set_option linter.all false

namespace Sys2Proof.Machine

theorem maintain_f (reason : Nat) (s : State) : (s.maintain reason).power = { s.power with mode := 2, reason := reason } := by
  unfold State.maintain; dsimp only
  generalize hx : (if (decide (s.power.mode = 4) && !s.pair.synced) = true then s.upSheaf fun h => { h with healthFrom := s.time.now } else s) = x
  have xp : x.power = s.power := by rw [← hx]; split <;> rfl
  have g := goMode_power 2 reason x
  split
  · rw [show ∀ y : State, (y.openDebug none).power = y.power from fun y => (openDebug_keeps _ _).frame .power (by decide), g, xp]; simp
  · rw [g, xp]; simp
theorem maintain_owner (reason : Nat) (s : State) : (s.maintain reason).pair = { s.pair with owner := false } := by
  unfold State.maintain; dsimp only
  generalize hx : (if (decide (s.power.mode = 4) && !s.pair.synced) = true then s.upSheaf fun h => { h with healthFrom := s.time.now } else s) = x
  have xp : x.pair = s.pair := by rw [← hx]; split <;> rfl
  have g := goMode_pair 2 reason x
  split
  · rw [show ∀ y : State, (y.openDebug none).pair = y.pair from fun y => (openDebug_keeps _ _).frame .pair (by decide), g, xp]; simp
  · rw [g, xp]; simp
theorem beginSync_f_starts (s : State) : s.beginSync.power.mode = 3 ∧ s.beginSync.pair.synced = false ∧ s.beginSync.pair.copyDone = false ∧ s.beginSync.boot.waiting = false ∧
    s.beginSync.pair.termOpen = false ∧ s.beginSync.pair.ownClaim = s.pair.ownClaim := by
  unfold State.beginSync
  generalize hw : (((s.upPair fun p => { p with synced := false, isolated := false, yielded := false, copyDone := false, ckptSeen := 0, termOpen := false }).upBoot fun b =>
    { b with waiting := false }).upCnt fun k => { k with applied := [none, none, none, none], early := [], gapStreaks := [], dueRepairs := [] }) = w
  have wp : w.pair.synced = false ∧ w.pair.copyDone = false ∧ w.pair.termOpen = false ∧ w.pair.ownClaim = s.pair.ownClaim ∧ w.boot.waiting = false := by rw [← hw]; exact ⟨rfl, rfl, rfl, rfl, rfl⟩
  have gp := goMode_power 3 0 w
  have gq := goMode_pair 3 0 w
  have gb : (w.goMode 3 0).boot = w.boot := (goMode_keeps 3 0 w (by decide)).frame .boot (by decide)
  rw [gp, gq, gb]; exact ⟨rfl, wp.1, wp.2.1, wp.2.2.2.2, wp.2.2.1, wp.2.2.2.1⟩
theorem openWindow_f (s : State) : s.openWindow.pair = { s.pair with termOpen := true, termRef := s.pair.storedTerm, termBest := s.pair.storedTerm } ∧
    s.openWindow.boot = { s.boot with waiting := false, waitAt := s.time.now } ∧ s.openWindow.power = s.power := by
  unfold State.openWindow; dsimp only
  have k : ∀ (L : List StationRec) (x : State), Keeps [.out, .fsp] x (L.foldl (fun s r => if s.diagBusy r.addr then s else s.probe r) x) := by
    intro L x
    refine Keeps.foldl ?_ (fun _ _ => ?_) _
    · exact Keeps.refl _
    · split
      · exact Keeps.refl _
      · exact probe_keeps _ _
  exact ⟨(k _ _).frame .pair (by decide), (k _ _).frame .boot (by decide), (k _ _).frame .power (by decide)⟩
theorem overrun_no (s : State) (h : s.power.bootKind ≠ 1) : s.overrun = s := by unfold State.overrun; rw [if_neg (by simp [h])]
theorem stepDone_f (s : State) (h : s.power.bootKind ≠ 1) : s.stepDone = s.upBoot fun b => { b with step := b.step + 1 } := by
  unfold State.stepDone; simp [h]
theorem stepDone_no (s : State) (h : s.boot.step ≠ 6) : s.stepDone = s.upBoot fun b => { b with step := b.step + 1 } := by
  unfold State.stepDone State.upBoot; simp [h]
theorem mayStep_f {s : State} {st : BootStep} (h : s.mayStep st = true) : s.boot.step = bootStepNo st := by
  unfold State.mayStep at h; simp at h; exact h.2
theorem recache_zero (s : State) (a : Nat) (h : inCache a = false) (z : memRead s.mem a = 0#8) : memRead s.recache.mem a = 0#8 := by
  unfold State.recache
  have k : ∀ (L : List Record) (x : State), memRead x.mem a = 0#8 → memRead (L.foldl (fun (s : State) r =>
    s.upMem fun m => memStore (padTo 64 (recordBytes r)) (0x0AA00000 + 64 * (r.seq % 32768)) m) x).mem a = 0#8 := by
    intro L
    induction L with
    | nil => intro x h; exact h
    | cons r L ih =>
      intro x z; rw [List.foldl_cons]; apply ih
      show memRead (memStore _ _ x.mem) a = 0#8
      rw [memRead_store_out]
      · exact z
      · rw [padTo_length]; unfold inCache at h; simp at h
        have := Nat.mod_lt r.seq (show 0 < 32768 by decide); omega
  exact k _ _ z
theorem setPair_get (n : Nat) (f : CorePair → CorePair) (s : State) (h : n < s.lock.pairs.length) : (s.setPair n f).corePair n = f (s.corePair n) := by
  unfold State.corePair State.setPair State.upLock; exact getD_setAt_self _ _ _ _ h
theorem overrun_up (f : BootSt → BootSt) (s : State) (h : s.power.bootKind ≠ 1) : (s.upBoot f).overrun = s.upBoot f := overrun_no _ h
theorem step_ev {t : Nat} {st : BootStep} {s w : State} (h : (s.arrive t).mayStep st = true)
    (hw : (s.arrive t).bootStep st = w) : exec (.bootStepEnd t st) s = .next w := by
  rw [exec_bootStepEnd]; unfold execBootStepEnd; rw [happens_of h, hw]
theorem stewardCalm (u : State) (b : u.boot.tamperLatched = none) (c : u.sec.latch = u.sec.lifecycle) (h1 : u.boot.step = 1) :
    Keeps [.cache, .boot, .sec, .gate, .log] u u.stewardRuns ∧ u.stewardRuns.boot.step = 2 ∧ u.stewardRuns.boot.watchdogAt = u.time.now ∧ u.stewardRuns.boot.watchdogRecord = none ∧
        u.stewardRuns.sec.lifecycle = (if u.sec.fuse = true then 3 else if u.sec.sealedRec = true then u.sec.lifecycle else 0) ∧ u.stewardRuns.sec.latch = u.stewardRuns.sec.lifecycle ∧
        u.stewardRuns.gate.active = u.rulesOf := by
  unfold State.stewardRuns; dsimp only; rw [b]; dsimp only; rw [if_pos c]
  refine ⟨?_, ?_⟩
  · repeat' first
    | with_reducible exact Keeps.refl _
    | with_reducible apply Keeps.ite
    | with_reducible apply Keeps.chain (upBoot_keeps _ _)
    | with_reducible apply Keeps.chain (upSec_keeps _ _)
    | with_reducible apply Keeps.chain (installRules_keeps ..)
    | with_reducible apply Keeps.chain (record_keeps ..)
    | with_reducible apply Keeps.chain (stepDone_keeps ..)
    | split
    | dsimp only
  generalize hL : (if u.sec.fuse = true then 3 else if u.sec.sealedRec = true then u.sec.lifecycle else 0) = L
  generalize hy : ((u.upSec fun x => { x with lifecycle := if x.fuse then 3 else if x.sealedRec then x.lifecycle else 0 }).upSec fun x => { x with latch := x.lifecycle }).installRules = y
  have y0 : y.sec.lifecycle = L ∧ y.sec.latch = L ∧ y.boot = u.boot ∧ y.gate.active = u.rulesOf ∧ y.time = u.time := by
    rw [← hy, ← hL]; exact ⟨rfl, rfl, rfl, rfl, rfl⟩
  clear hy
  have fin : ∀ z : State, z.sec = y.sec → z.boot.step = 1 → z.boot.watchdogRecord = none → z.gate = y.gate → z.time = y.time → ∀ w : State, w = (z.upBoot fun b => { b with watchdogAt := z.time.now }).stepDone →
      w.boot.step = 2 ∧ w.boot.watchdogAt = u.time.now ∧ w.boot.watchdogRecord = none ∧ w.sec.lifecycle = L ∧ w.sec.latch = w.sec.lifecycle ∧ w.gate.active = u.rulesOf := by
    intro z z1 z2 z3 z4 z5 w hw
    rw [hw, stepDone_no _ (by show z.boot.step ≠ 6; omega)]
    show z.boot.step + 1 = 2 ∧ z.time.now = u.time.now ∧ z.boot.watchdogRecord = none ∧ z.sec.lifecycle = L ∧ z.sec.latch = z.sec.lifecycle ∧ z.gate.active = u.rulesOf
    rw [z1, z2, z3, z4, z5, y0.1, y0.2.1, y0.2.2.2.1, y0.2.2.2.2]; exact ⟨rfl, rfl, rfl, rfl, rfl, rfl⟩
  cases hw : y.boot.watchdogRecord with
  | none => exact fin y rfl (by rw [y0.2.2.1, h1]) hw rfl rfl _ rfl
  | some at_ =>
    refine fin ((y.record 0x0104 [(8, at_)]).upBoot fun b => { b with watchdogRecord := none }) ?_ ?_ rfl ?_ ?_ _ rfl
    · exact rec_f _ _ _ .sec (by decide)
    · show (y.record 0x0104 [(8, at_)]).boot.step = 1
      rw [show (y.record 0x0104 [(8, at_)]).boot = y.boot from rec_f _ _ _ .boot (by decide), y0.2.2.1, h1]
    · exact rec_f _ _ _ .gate (by decide)
    · exact rec_f _ _ _ .time (by decide)
theorem setMore (u : State) (bad : Nat) : ∃ sf : SheafSt, u.loadSet bad = (let s := ((((u.upSheaf fun _ => sf).upBoot fun b => { b with recordSinceVerify := if u.power.bootKind = 1 || bad != 0 then b.recordSinceVerify else false }).upDio fun d => { d with linkUp := bad != 5 }).upUa fun x => { x with linkUp := bad != 6 }).upDisp fun d => { d with panelOk := bad != 7 }
    (if bad = 4 then s else s.upSfp (mapFrom (fun p x => SfpSt.insert (s.pmd p) x.id x) 0)).stepDone) ∧ sf.bootFault = bad := by
  refine ⟨{ u.sheaf with bootFault := bad, healthBroken := u.sheaf.healthBroken || bad != 0, healthFrom := u.time.now }, ?_, rfl⟩
  unfold State.loadSet; rfl
theorem loadSet_f (u : State) (bad : Nat) (hk : u.power.bootKind ≠ 1) (h4 : u.boot.step = 4) :
    (u.loadSet bad).boot = { u.boot with step := 5, recordSinceVerify := if bad != 0 then u.boot.recordSinceVerify else false } ∧ (u.loadSet bad).sheaf.bootFault = bad ∧
    (u.loadSet bad).dio.linkUp = (bad != 5) ∧ (u.loadSet bad).ua.linkUp = (bad != 6) ∧ (u.loadSet bad).disp.panelOk = (bad != 7) := by
  obtain ⟨sf, e, hs⟩ := setMore u bad
  rw [e]; dsimp only
  generalize hy : ((((u.upSheaf fun _ => sf).upBoot fun b => { b with recordSinceVerify := if u.power.bootKind = 1 || bad != 0 then b.recordSinceVerify else false }).upDio fun d => { d with linkUp := bad != 5 }).upUa fun x => { x with linkUp := bad != 6 }).upDisp (fun d => { d with panelOk := bad != 7 }) = y
  have y0 : y.boot = { u.boot with recordSinceVerify := if bad != 0 then u.boot.recordSinceVerify else false } ∧ y.sheaf = sf ∧ y.dio.linkUp = (bad != 5) ∧ y.ua.linkUp = (bad != 6) ∧ y.disp.panelOk = (bad != 7) := by
    rw [← hy]; refine ⟨?_, rfl, rfl, rfl, rfl⟩
    show ({ u.boot with recordSinceVerify := if u.power.bootKind = 1 || bad != 0 then u.boot.recordSinceVerify else false } : BootSt) = _
    simp [hk]
  have key : ∀ z : State, z.boot = y.boot → z.sheaf = y.sheaf → z.dio = y.dio → z.ua = y.ua → z.disp = y.disp → (z.stepDone).boot = { u.boot with step := 5, recordSinceVerify := if bad != 0 then u.boot.recordSinceVerify else false } ∧ z.stepDone.sheaf.bootFault = bad ∧
    z.stepDone.dio.linkUp = (bad != 5) ∧ z.stepDone.ua.linkUp = (bad != 6) ∧ z.stepDone.disp.panelOk = (bad != 7) := by
    intro z z1 z2 z3 z4 z5
    rw [stepDone_no _ (by rw [z1, y0.1]; show u.boot.step ≠ 6; omega)]
    refine ⟨?_, ?_, ?_, ?_, ?_⟩
    · show ({ z.boot with step := z.boot.step + 1 } : BootSt) = _
      rw [z1, y0.1, h4]
    · show z.sheaf.bootFault = _; rw [z2, y0.2.1, hs]
    · show z.dio.linkUp = _; rw [z3, y0.2.2.1]
    · show z.ua.linkUp = _; rw [z4, y0.2.2.2.1]
    · show z.disp.panelOk = _; rw [z5, y0.2.2.2.2]
  split
  · exact key y rfl rfl rfl rfl rfl
  · exact key _ rfl rfl rfl rfl rfl
theorem foldLbist (passed : Nat) (L : List Nat) (x : State) : Keeps [.cache, .boot, .lock, .cfg, .log] x (L.foldl (fun (x : State) n => x.bootLbist passed n) x) ∧
    (L.foldl (fun (x : State) n => x.bootLbist passed n) x).boot.step = x.boot.step := by
  have one : ∀ (n : Nat) (x : State), (x.bootLbist passed n).boot.step = x.boot.step := by
    intro n x
    unfold State.bootLbist; dsimp only
    generalize hy : ((x.setPair n _).upLock _ : State) = y
    have yb : y.boot = x.boot := hy ▸ rfl
    split
    · split
      · rw [show ∀ (w : State) a b, (w.record a b).boot = w.boot from fun w a b => rec_f _ _ _ .boot (by decide)]; rw [← yb]; rfl
      · rw [yb]
    · split
      · rw [yb]
      · show (State.record _ _ y).boot.step = _
        rw [show ∀ (w : State) a b, (w.record a b).boot = w.boot from fun w a b => rec_f _ _ _ .boot (by decide), yb]
  induction L generalizing x with
  | nil => exact ⟨Keeps.refl _, rfl⟩
  | cons n L ih =>
    rw [List.foldl_cons]
    have h := ih (x.bootLbist passed n)
    exact ⟨Keeps.chain h.1 (bootLbist_keeps passed n x), by rw [h.2, one]⟩
theorem up_bk (x : State) (o : Nat) : (x.upPower fun p => { p with operatingFrom := o }).power.bootKind = x.power.bootKind := rfl
theorem startBoot_latch (kind reason : Nat) (rel : Bool) (s : State) : (s.startBoot kind reason rel).power.latch = s.power.latch ∧ (s.startBoot kind reason rel).power.released = rel := by
  unfold State.startBoot; dsimp only
  generalize hd : s.dropClaim = d
  have dm : d.power = s.power := by rw [← hd]; exact (dropClaim_f s).2.2.1
  generalize hp : d.bootParts kind rel = p
  have pm : p.power.latch = d.power.latch ∧ p.power.released = rel := by rw [← hp]; exact ⟨rfl, rfl⟩
  have fm : (p.firstRecord kind).power = p.power := (firstRecord_keeps _ _).frame .power (by decide)
  generalize p.firstRecord kind = f at *
  have gm := goMode_power 1 reason f
  generalize f.goMode 1 reason = g at *
  have e : ∀ z : State, z.power = g.power → z.power.latch = s.power.latch ∧ z.power.released = rel := by
    intro z h1; rw [h1, gm, fm]
    show p.power.latch = _ ∧ p.power.released = _; rw [pm.1, dm]; exact ⟨rfl, pm.2⟩
  split
  · exact e _ (rec_f _ _ _ .power (by decide))
  · exact e _ rfl
theorem restart_power (reason : Nat) (rel : Bool) (s : State) : (s.restart reason rel).power.mode = 1 ∧ (s.restart reason rel).power.bootKind = 2 ∧
    (s.restart reason rel).power.latch = s.power.latch ∧ (s.restart reason rel).power.released = rel := by
  unfold State.restart; dsimp only
  generalize hx : (if s.swathSilent = true then s else s.emit (.swath .restarting)) = x
  have x0 : x.power = s.power := by rw [← hx]; split <;> rfl
  generalize hy : ((x.abandonArmed stState).closeDebug).endAllSessions.flushRecords = y
  have y0 : y.power = x.power := by
    rw [← hy]
    exact (upLog_keeps _ _ |>.frame .power (by decide)).trans (((endAllSessions_keeps _).frame .power (by decide)).trans (((closeDebug_keeps _).frame .power (by decide)).trans ((abandonArmed_keeps _ _).frame .power (by decide))))
  have b := startBoot_f 2 reason rel y
  have l := startBoot_latch 2 reason rel y
  exact ⟨b.1, b.2.1, by rw [l.1, y0, x0], l.2⟩
theorem rm5 (d : Nat) (s : State) : s.requestMode 5 d = if s.power.mode = 2 then (s.upPower fun p => { p with latch := false }).restart 1 true
    else if s.power.mode = 7 then s.releaseStart else s := by unfold State.requestMode; rfl
theorem rm7 (d : Nat) (s : State) : s.requestMode 7 d = if s.power.mode = 7 then s else s.safeHold 1 := by unfold State.requestMode; rfl

end Sys2Proof.Machine
end

