-- ==== Sys2Proof/Laws/OpAccess.lean ====
section
/-! SUPPORT. What the operations of one chapter do: accesses. -/

set_option Elab.async false
set_option linter.all false

set_option linter.all false

namespace Sys2Proof.Machine

theorem find_first {p : Nat → Bool} {n r : Nat} (h : r < n) (hl : ∀ i, i < r → p i = false) (hp : p r = true) : (List.range n).find? p = some r := by
  rw [List.find?_range_eq_some]; exact ⟨hp, List.mem_range.2 h, fun j hj => by rw [hl j hj]; rfl⟩
theorem find_none {p : Nat → Bool} {n : Nat} (h : ∀ i, i < n → p i = false) : (List.range n).find? p = none := by
  rw [List.find?_eq_none]; intro i hi; rw [h i (List.mem_range.1 hi)]; decide
theorem rule_words (lo hi masters perm addr master : Nat) (h1 : lo % 32 = 0) (h2 : hi % 32 = 31) (h4 : hi < 2 ^ 37) (h3 : lo ≤ hi) (h5 : perm < 32) :
    ruleMatches (ruleWords lo hi masters perm) addr master = true ↔ lo ≤ addr ∧ addr ≤ hi ∧ masters.testBit master = true := by
  have e3 : hi / 2 ^ 37 * 2 ^ 11 + lo / 2 ^ 37 * 2 ^ 8 + 0x80 + 4 * perm = 128 + 4 * perm := by
    rw [Nat.div_eq_of_lt h4, Nat.div_eq_of_lt (by omega)]; omega
  unfold ruleWords; rw [e3]
  have a : ruleStart [lo / 32 % 2 ^ 32, hi / 32 % 2 ^ 32, masters, 128 + 4 * perm] = lo := by
    unfold ruleStart bits; simp only [List.getD_cons_zero, List.getD_cons_succ]; omega
  have b : ruleEnd [lo / 32 % 2 ^ 32, hi / 32 % 2 ^ 32, masters, 128 + 4 * perm] = hi := by
    unfold ruleEnd bits; simp only [List.getD_cons_zero, List.getD_cons_succ]; omega
  have c : ruleEnabled [lo / 32 % 2 ^ 32, hi / 32 % 2 ^ 32, masters, 128 + 4 * perm] = true := by
    unfold ruleEnabled bit ruleWord; simp only [List.getD_cons_zero, List.getD_cons_succ]
    rw [Nat.testBit_eq_decide_div_mod_eq]; simp; omega
  unfold ruleMatches ruleHolds; rw [a, b, c]; unfold bit ruleWord; simp [and_assoc]
theorem leNat_drop (k : Nat) : ∀ l : List Byte, leNat l / 256 ^ k = leNat (l.drop k) := by
  induction k with
  | zero => intro l; simp
  | succ k ih =>
    intro l
    cases l with
    | nil => simp [leNat]
    | cons b l =>
      rw [List.drop_succ_cons, ← ih, leNat, show 256 ^ (k + 1) = 256 * 256 ^ k by ring, ← Nat.div_div_eq_div_mul]
      congr 1; have := b.isLt; omega
theorem leNat_take (k : Nat) : ∀ l : List Byte, leNat l % 256 ^ k = leNat (l.take k) := by
  induction k with
  | zero => intro l; simp [leNat, Nat.mod_one]
  | succ k ih =>
    intro l
    cases l with
    | nil => simp [leNat]
    | cons b l =>
      rw [List.take_succ_cons, leNat, leNat, ← ih, show 256 ^ (k + 1) = 256 * 256 ^ k by ring, Nat.mod_mul]
      have := b.isLt
      rw [show (b.toNat + 256 * leNat l) % 256 = b.toNat by omega, show (b.toNat + 256 * leNat l) / 256 = leNat l by omega]
theorem lanes_mem (m : Mem) (w o n : Nat) (h : o + n ≤ 8) : lanes (memReadN m w 8) o n = memReadN m (w + o) n := by
  unfold lanes bits
  rw [show 2 ^ (8 * o) = 256 ^ o by rw [pow_mul]; rfl, show 2 ^ (8 * n) = 256 ^ n by rw [pow_mul]; rfl]
  unfold memReadN
  rw [leNat_drop, leNat_take]
  congr 1
  apply List.ext_getElem
  · simp [memReadBytes]; omega
  · intro i h1 h2
    simp [memReadBytes]
    congr 1; omega
theorem leBytes_getElem (n : Nat) : ∀ (x i : Nat) (h : i < (leBytes n x).length), (leBytes n x)[i] = BitVec.ofNat 8 (x / 256 ^ i) := by
  induction n with
  | zero => intro x i h; simp [leBytes] at h
  | succ n ih =>
    intro x i h
    cases i with
    | zero => simp [leBytes]
    | succ i => simp only [leBytes, List.getElem_cons_succ]; rw [ih, Nat.div_div_eq_div_mul, ← Nat.pow_succ']
theorem mapFrom_len {α : Type} (f : Nat → α → α) (l : List α) : ∀ b, (mapFrom f b l).length = l.length := by
  induction l with
  | nil => intro b; rfl
  | cons x l ih => intro b; simp [mapFrom, ih]
theorem memRead_filter_out (f : Nat → Bool) (m n : Mem) (a : Nat) (h : n.cells = m.cells.filter fun c => !f c.1) :
    (f a = true → memRead n a = 0#8) ∧ (f a = false → memRead n a = memRead m a) := by
  unfold memRead; rw [h]
  refine ⟨fun ha => ?_, fun ha => ?_⟩
  · generalize m.cells = cs
    induction cs with
    | nil => rfl
    | cons c cs ih =>
      obtain ⟨b, w⟩ := c
      rw [List.filter_cons]; split
      · rename_i k
        have : a ≠ b := by intro e; subst e; simp [ha] at k
        simp [cellsRead, this]; exact ih
      · exact ih
  · exact cellsRead_filter (fun a => !f a) _ _ (by simp [ha])
theorem withJob_any (code : Nat) (k : Nat → State → State) (ps : List Part) (u : State) (hk : ∀ id x, Keeps ps x (k id x)) (hm : Part.sub [.msg] ps = true) :
    ∃ v st data, withJob code k u = (v, some (st, data)) ∧ Frame ps u v := by
  unfold withJob
  split
  · exact ⟨_, _, _, rfl, Frame.rfl_⟩
  · exact ⟨_, _, _, rfl, (Keeps.chain (hk _ _) ((startJob_keeps code u).mono hm) (by unfold Part.sub; simp)).frame⟩

end Sys2Proof.Machine
end

