-- ==== Sys2Proof/Laws/OpSheaves.lean ====
section
/-! SUPPORT. What the operations of one chapter do: sheaves. -/

set_option Elab.async false
set_option linter.all false

set_option linter.all false

namespace Sys2Proof.Machine

theorem sheafFree_ok {checks : List (State → Option Nat)} {body : State → State × Option (Nat × List Byte)} {u : State} (h0 : u.sec.ownerLock = false) (h1 : u.sheaf.st ∉ [3, 5, 6]) (h2 : u.cfg.armed = none)
    (h3 : u.pair.homeArmed = false) (h4 : u.pair.twinHomeArmed = false) (h5 : u.cfg.job = none) : guarded (sheafFree ++ checks) body u = guarded checks body u := by
  unfold sheafFree
  rw [List.cons_append, guarded_pass (need_ok (by simp [h0])), List.cons_append, guarded_pass (need_ok _), List.nil_append]
  simp at h1; simp [h1, h2, h3, h4, h5]
theorem sheafFree_locked {checks : List (State → Option Nat)} {body : State → State × Option (Nat × List Byte)} {u : State} (h0 : u.sec.ownerLock = true) : guarded (sheafFree ++ checks) body u = (u, some (0x010C, [])) := by
  unfold sheafFree
  rw [List.cons_append, guarded_first (st := stLocked) (need_no (by simp [h0]))]; rfl
theorem sheafFree_busy {checks : List (State → Option Nat)} {body : State → State × Option (Nat × List Byte)} {u : State} (h0 : u.sec.ownerLock = false)
    (h : u.sheaf.st ∈ [3, 5, 6] ∨ u.cfg.armed ≠ none ∨ u.pair.homeArmed = true ∨ u.pair.twinHomeArmed = true ∨ u.cfg.job ≠ none) : guarded (sheafFree ++ checks) body u = (u, some (0x0101, [])) := by
  unfold sheafFree
  rw [List.cons_append, guarded_pass (need_ok (by simp [h0])), List.cons_append, guarded_first (st := stBusy) (need_no _)]
  · rfl
  rcases h with h | h | h | h | h
  · simp at h; rcases h with h | h | h <;> simp [h]
  · cases ha : u.cfg.armed with
    | none => exact absurd ha h
    | some x => simp
  · simp [h]
  · simp [h]
  · cases ha : u.cfg.job with
    | none => exact absurd ha h
    | some x => simp
theorem sheafFree_cases (u : State) : u.sec.ownerLock = true ∨ (u.sec.ownerLock = false ∧ (u.sheaf.st ∈ [3, 5, 6] ∨ u.cfg.armed ≠ none ∨ u.pair.homeArmed = true ∨ u.pair.twinHomeArmed = true ∨ u.cfg.job ≠ none)) ∨
    (u.sec.ownerLock = false ∧ u.sheaf.st ∉ [3, 5, 6] ∧ u.cfg.armed = none ∧ u.pair.homeArmed = false ∧ u.pair.twinHomeArmed = false ∧ u.cfg.job = none) := by
  cases u.sec.ownerLock <;> simp
  by_cases a : u.sheaf.st ∈ [3, 5, 6] ∨ u.cfg.armed ≠ none ∨ u.pair.homeArmed = true ∨ u.pair.twinHomeArmed = true ∨ u.cfg.job ≠ none
  · left; simpa using a
  · right; simp at a; tauto
theorem loadChunk_load (off : Nat) (data : List Byte) (u : State) (h : u.sheaf.st ≠ 0) : ∀ (all : List Byte) (n : Nat), all = u.sheaf.loaded ++ data → n = off + data.length →
      (n < 1120 → u.loadChunk off data = (u.upSheaf fun h => { h with loaded := all, loadedBytes := n, total := 0, st := 1 }, some (0, leBytes 8 n))) ∧
      (1120 ≤ n → off < 1120 → ∀ e, headerFault all = some e → u.loadChunk off data = (u.upSheaf SheafSt.idle, some (e, []))) ∧
      (1120 ≤ n → (off < 1120 → headerFault all = none) →
        (field all 16 8 < n → u.loadChunk off data = (u, some (0x010B, []))) ∧
        (n < field all 16 8 → u.loadChunk off data = (u.upSheaf fun h => { h with loaded := all, loadedBytes := n, total := field all 16 8, st := 1 }, some (0, leBytes 8 n))) ∧
        (n = field all 16 8 → u.loadChunk off data = (u.upSheaf fun h => { h with loaded := all, loadedBytes := n, total := n, st := 2 }, some (0, leBytes 8 n)))) := by
  intro all n ha hn
  unfold State.loadChunk; simp only [h, if_false]; rw [← ha, ← hn]
  refine ⟨fun c => ?_, fun c d e he => ?_, fun c d => ⟨fun f => ?_, fun f => ?_, fun f => ?_⟩⟩
  · rw [if_pos c]
    simp only [show ¬ 1120 ≤ n by omega, if_false, decide_false, Bool.false_and, Bool.false_eq_true]; rfl
  · rw [if_neg (by omega), if_pos d, he]; rfl
  all_goals
    rw [if_neg (by omega)]
    have : (if off < 1120 then headerFault all else none) = none := by
      by_cases o : off < 1120
      · rw [if_pos o, d o]
      · rw [if_neg o]
    rw [this]
  · dsimp only; rw [if_pos f]; rfl
  · dsimp only; rw [if_neg (by omega)]
    simp only [c, if_true, decide_true, Bool.true_and, show (n == field all 16 8) = false by simp; omega, Bool.false_eq_true, if_false]; rfl
  · dsimp only; rw [if_neg (by omega)]
    simp only [c, if_true, decide_true, Bool.true_and, ← f, beq_self_eq_true]; rfl
theorem loadChunk_first (off : Nat) (data : List Byte) (u : State) (h : u.sheaf.st = 0) : u.loadChunk off data =
    State.loadChunk off data ((u.writeCommit fun h => { h with previous := 0, prevVersions := List.replicate 9 0 }).upSheaf fun h => { h.idle with st := 1 }) := by
  conv_lhs => unfold State.loadChunk
  conv_rhs => unfold State.loadChunk
  rw [if_pos h]
  rw [if_neg (show ¬ ((u.writeCommit fun h => { h with previous := 0, prevVersions := List.replicate 9 0 }).upSheaf fun h => { h.idle with st := 1 }).sheaf.st = 0 by show ¬ (1:Nat) = 0; decide)]
theorem loadChunk_keeps' (off : Nat) (data : List Byte) (u : State) : Frame [.boot, .sheaf] u (u.loadChunk off data).1 := by
  exact (loadChunk_keeps off data u).frame
theorem loadChunk_some (off : Nat) (data : List Byte) (u : State) : ∃ v st ans, u.loadChunk off data = (v, some (st, ans)) := by
  unfold State.loadChunk reply; dsimp only
  repeat' split
  all_goals exact ⟨_, _, _, rfl⟩
theorem goMode1_sheaf (reason : Nat) (s : State) : (s.goMode 1 reason).sheaf = s.sheaf := by
  unfold State.goMode; dsimp only
  rw [show ∀ (w : State) a b, (w.record a b).sheaf = w.sheaf from fun w a b => (record_keeps _ _ _).frame .sheaf (by decide)]
  have c : ∀ b : Bool, (if b = true then s.closeDebug else s).sheaf = s.sheaf := fun b => by
    split
    · exact (closeDebug_keeps _).frame .sheaf (by decide)
    · rfl
  unfold State.upPower State.upPair; dsimp only
  rw [if_pos (by simp [healthyMode])]; exact c _
theorem restart_sheaf (reason : Nat) (rel : Bool) (s : State) : (s.restart reason rel).sheaf = s.sheaf.boot ∧ (s.restart reason rel).boot.recordSinceVerify = s.boot.recordSinceVerify ∧
    (s.restart reason rel).power.mode = 1 ∧ (s.restart reason rel).power.bootKind = 2 := by
  unfold State.restart; dsimp only
  generalize hx : (if s.swathSilent = true then s else s.emit (.swath .restarting)) = x
  have x0 : x.sheaf = s.sheaf ∧ x.boot = s.boot := by rw [← hx]; split <;> exact ⟨rfl, rfl⟩
  generalize hy : ((x.abandonArmed stState).closeDebug).endAllSessions.flushRecords = y
  have y0 : y.sheaf = x.sheaf ∧ y.boot = x.boot := by
    rw [← hy]
    exact ⟨(upLog_keeps _ _ |>.frame .sheaf (by decide)).trans (((endAllSessions_keeps _).frame .sheaf (by decide)).trans (((closeDebug_keeps _).frame .sheaf (by decide)).trans ((abandonArmed_keeps _ _).frame .sheaf (by decide)))),
      (upLog_keeps _ _ |>.frame .boot (by decide)).trans (((endAllSessions_keeps _).frame .boot (by decide)).trans (((closeDebug_keeps _).frame .boot (by decide)).trans ((abandonArmed_keeps _ _).frame .boot (by decide))))⟩
  have sb := startBoot_f 2 reason rel y
  refine ⟨?_, ?_, sb.1, sb.2.1⟩
  all_goals
    unfold State.startBoot; dsimp only
    generalize hd : y.dropClaim = d
    have dm : d.sheaf = y.sheaf ∧ d.boot = y.boot := by rw [← hd]; exact ⟨(dropClaim_f y).2.2.2.2.2.2.1, (dropClaim_f y).2.2.2.1⟩
    generalize hp : d.bootParts 2 rel = p
    have pm : p.sheaf = d.sheaf.boot ∧ p.boot.recordSinceVerify = d.boot.recordSinceVerify := by rw [← hp]; exact ⟨rfl, rfl⟩
    have fm : (p.firstRecord 2).sheaf = p.sheaf := (firstRecord_keeps _ _).frame .sheaf (by decide)
    have fb : (p.firstRecord 2).boot = p.boot := (firstRecord_keeps _ _).frame .boot (by decide)
    generalize p.firstRecord 2 = f at *
    have gm := goMode1_sheaf reason f
    have gb : (f.goMode 1 reason).boot = f.boot := (goMode_keeps 1 reason f (by decide)).frame .boot (by decide)
    generalize f.goMode 1 reason = g at *
  · have e : ∀ z : State, z.sheaf = g.sheaf → z.sheaf = s.sheaf.boot := by
      intro z h1; rw [h1, gm, fm, pm.1, dm.1, y0.1, x0.1]
    split
    · exact e _ (rec_f _ _ _ .sheaf (by decide))
    · exact e _ rfl
  · have e : ∀ z : State, z.boot = g.boot → z.boot.recordSinceVerify = s.boot.recordSinceVerify := by
      intro z h1; rw [h1, gb, fb, pm.2, dm.2, y0.2, x0.2]
    split
    · exact e _ (rec_f _ _ _ .boot (by decide))
    · exact e _ rfl
theorem fallback_sheaf (result : Nat) (s : State) : (s.fallback result).sheaf = ({ s.sheaf.fallBack result with seq := s.sheaf.seq + 1 } : SheafSt) := by
  unfold State.fallback; dsimp only
  rw [show ∀ (w : State) b, (w.record 0x0A03 b).sheaf = w.sheaf from fun w b => rec_f _ _ _ .sheaf (by decide)]; rfl
theorem confirm_sheaf (s : State) : s.confirm.sheaf = { s.sheaf with recTrial := false, result := 1, st := 0, tokenHeld := false, seq := s.sheaf.seq + 1 } ∧ s.confirm.boot.recordSinceVerify = true := by
  unfold State.confirm; dsimp only
  rw [show ∀ (w : State) b, (w.record 0x0A02 b).sheaf = w.sheaf from fun w b => rec_f _ _ _ .sheaf (by decide), show ∀ (w : State) b, (w.record 0x0A02 b).boot = w.boot from fun w b => rec_f _ _ _ .boot (by decide)]
  exact ⟨rfl, rfl⟩
theorem flat_fields (f : Nat → Nat) (n : Nat) : ∀ a, ((List.range' a n).flatMap fun w => leBytes 4 (f w)).length = 4 * n ∧
    ∀ w, w < n → field ((List.range' a n).flatMap fun w => leBytes 4 (f w)) (4 * w) 4 = f (a + w) % 2 ^ 32 := by
  induction n with
  | zero => intro a; exact ⟨rfl, fun w h => absurd h (Nat.not_lt_zero _)⟩
  | succ n ih =>
    intro a
    rw [List.range'_succ, List.flatMap_cons]
    refine ⟨by rw [List.length_append, leBytes_length, (ih (a + 1)).1]; omega, fun w h => ?_⟩
    cases w with
    | zero =>
      unfold field slice; rw [Nat.mul_zero, List.drop_zero, List.take_append_of_le_length (by rw [leBytes_length]), List.take_of_length_le (by rw [leBytes_length]), leNat_leBytes]; rfl
    | succ w =>
      have := (ih (a + 1)).2 w (by omega)
      unfold field slice at *
      rw [show 4 * (w + 1) = (leBytes 4 (f a)).length + 4 * w by rw [leBytes_length]; omega, List.drop_append, List.drop_of_length_le (by omega), List.nil_append, Nat.add_sub_cancel_left, this]
      congr 2; omega

end Sys2Proof.Machine
end

