-- ==== Sys2Proof/Laws/OpRecords.lean ====
section
/-! SUPPORT. What the operations of one chapter do: records. -/

set_option Elab.async false
set_option linter.all false

set_option linter.all false

namespace Sys2Proof.Machine

theorem rec_imgOf (z : State) (ty : Nat) (q) (h : Nat) (hh : h ≤ 0x5FFFFF) : (z.record ty q).img h = z.img h ∧ (z.record ty q).ruleOf h = z.ruleOf h := by
  have k := (record_keeps ty q z).frame .mem (by decide)
  have rd : ∀ a n, a + n ≤ 0x06000000 → memReadN (z.record ty q).mem a n = memReadN z.mem a n := by
    intro a n ha
    unfold memReadN memReadBytes; congr 1
    apply List.map_congr_left; intro i hi
    rw [List.mem_range] at hi
    exact (k (a + i) (by simp [inCache]; omega)).1
  have rr : (z.record ty q).ruleOf h = z.ruleOf h := by
    unfold State.ruleOf; rw [rd _ _ (by unfold ruleAddr; omega)]
  refine ⟨?_, rr⟩
  unfold State.img State.image; rw [rr, rd _ _ (by unfold imageAddr; omega)]
theorem release_img (s : State) (h sess : Nat) (hf : s.pts.force h ≠ none) (w : Memory.wf s.mem = true) (hh : h ≤ 0x5FFFFF) (hk : ruleKind (s.ruleOf h) ≠ 0) :
    (s.release sess h).img h = { s.img h with forced := false, simulated := false, quality := 0x41, held := true } := by
  unfold State.release
  rw [if_neg (by cases e : s.pts.force h with | none => exact absurd e hf | some x => simp)]
  dsimp only
  rw [(rec_imgOf _ _ _ _ hh).1]
  refine (upImg_self h Img.release (s.upPts fun p => { p with forces := p.forces.filter fun f => f.handle != h }) w hh hk ?_ ?_).trans rfl
  · show (65 : Nat) < 256; decide
  · exact (img_bounds s h).2
theorem pointBrowse_keeps' (r : Req) (s : State) : Keeps [] s (pointBrowse r s).1 := by
  unfold pointBrowse guarded
  split
  · exact Keeps.refl _
  · exact Keeps.refl _
theorem guarded_bad_append {a b : List (State → Option Nat)} {body : State → State × Option (Nat × List Byte)} {s : State} {st : Nat} (h1 : ∀ f ∈ a, f s = none ∨ f s = some st)
    (h2 : ∃ f, f ∈ a ∧ f s ≠ none) : guarded (a ++ b) body s = (s, some (st, [])) := by
  induction a with
  | nil => obtain ⟨f, hf, _⟩ := h2; simp at hf
  | cons g l ih =>
    rcases h1 g (by simp) with hg | hg
    · rw [List.cons_append, guarded_pass hg]
      apply ih (fun f hf => h1 f (by simp [hf]))
      obtain ⟨f, hf, hn⟩ := h2
      rcases List.mem_cons.1 hf with e | e
      · rw [e] at hn; exact absurd hg hn
      · exact ⟨f, e, hn⟩
    · exact guarded_first hg
theorem rec_time_records (z : State) (ty q) : (z.record ty q).time = z.time := rec_f _ _ _ .time (by decide)
theorem rec__time (z : State) (ty q) : (z.record_ ty q).time = z.time := (record__keeps ty q z).frame .time (by decide)
theorem base_time_records {s v : State} (h : v.time = s.time) (n : Nat) : v.base n = s.base n := by unfold State.base; rw [h]
theorem setBase_base (n : Nat) (f : Base → Base) (s : State) : (s.setBase n f).base n = f (s.base n) := by
  unfold State.base State.setBase; by_cases h : n = 0
  · simp [h, State.upTime]
  · simp [h, State.upTime]
theorem reacquire_base (n : Nat) (s : State) : ((s.reacquire n).base n).st = 1 ∧ ((s.reacquire n).base n).stepped = false ∧ ((s.reacquire n).base n).acc = (s.base n).acc := by
  unfold State.reacquire
  generalize hz : s.setBase n (fun b => { b with stepped := false, run := 0, recent := [] }) = z
  have zb : z.base n = { s.base n with stepped := false, run := 0, recent := [] } := by rw [← hz, setBase_base]
  unfold State.baseTo; dsimp only
  by_cases h : (z.base n).st = 1
  · rw [if_pos h]; refine ⟨h, ?_, ?_⟩ <;> rw [zb]
  · rw [if_neg h, if_neg (by decide), base_time_records (rec_time_records _ _ _), setBase_base]
    refine ⟨rfl, ?_, ?_⟩ <;> dsimp only <;> rw [zb]
theorem stepBase_base (n acc : Nat) (s : State) : ((s.stepBase n acc).base n).acc = acc ∧ ((s.stepBase n acc).base n).stepped = true ∧ (s.stepBase n acc).time.steps = inc32 s.time.steps := by
  unfold State.stepBase; dsimp only
  refine ⟨?_, ?_, ?_⟩
  · rw [base_time_records (rec__time _ _ _)]
    rw [show ∀ (z : State), (z.upTime fun c => { c with steps := inc32 c.steps }).base n = z.base n from fun _ => rfl, setBase_base]
  · rw [base_time_records (rec__time _ _ _)]
    rw [show ∀ (z : State), (z.upTime fun c => { c with steps := inc32 c.steps }).base n = z.base n from fun _ => rfl, setBase_base]
  · rw [rec__time]; unfold State.setBase; by_cases h : n = 0 <;> simp [h, State.upTime]
theorem take_len (r : Req) (s : State) : (s.take r).msg.boxes.length = s.msg.boxes.length := by
  show (setAt s.msg.boxes _ _).length = _; rw [setAt_length]
theorem arr_len (t : Nat) (r : Req) (s : State) : ((s.arrive t).take r).msg.boxes.length = s.msg.boxes.length := take_len _ _
theorem run_none {c : Cmd} {r : Req} {body : State → State × Option (Nat × List Byte)} {s v : State}
    (h : s.accepts c r) (hb : body (s.take r) = (v, none)) : s.run c r body = v.setBox r.mb fun x => { x with busy := true } := by
  obtain ⟨_, h2, h3, h4, h5, h6, h7, h8⟩ := h
  unfold State.run State.serve
  rw [h2, h3]; simp only [Bool.not_true, Bool.false_eq_true, if_false]
  rw [if_neg (by omega)]
  have : ((s.take r).power.mode != 1 && (s.take r).postBad r) = false := by
    show (s.power.mode != 1 && (s.take r).postBad r) = false
    by_cases k : s.power.mode = 1
    · simp [k]
    · have := h5 k
      have e : (s.take r).postBad r = s.postBad r := by unfold State.postBad State.reqRoom; rw [(take_box r s r.mb).2.2.2.2.2.1]
      rw [e, this]; simp
  rw [this, h6, h7, h8, hb]; simp
theorem newest_put (ty : Nat) (p : List Byte) (s : State) : (s.putRecord ty p).newestSeq = s.log.nextSeq := by
  unfold State.newestSeq State.putRecord; simp [State.upLog, State.upMem]
theorem hand_thing (u w : State) (id th : Nat) (hw : w.tb0 = u.tb0 ∧ w.cfg = u.cfg ∧ w.out = u.out) (h2 : ∀ y, w.nextT0 3 y = u.nextT0 3 y) : (w.armHandover 0 th id).pair.armed = some { kind := 0, th := th, deferrals := 0, job := id } ∧
    (w.armHandover 0 th id).out = u.out ++ [.swath (.armHandover th)] := by
  unfold State.armHandover State.emit State.upPair; simp [hw.2.2]
theorem probeEnds_none (d : DiagSt) (page) (s : State) (h : s.cfg.job = none) : s.probeEnds d page = s := by
  unfold State.probeEnds; rw [h]

end Sys2Proof.Machine
end

