-- ==== Sys2Proof/Laws/OpStaging.lean ====
section
/-! SUPPORT. What the operations of one chapter do: configurations. -/

set_option Elab.async false
set_option linter.all false

set_option linter.all false

namespace Sys2Proof.Machine

theorem bne14 (n : Nat) : (!(n == 14)) = (n != 14) := rfl
theorem askTwinFrom_f (a cmd : Nat) (pl : List Byte) (job : Nat) (s : State) : (s.askTwinFrom a cmd pl job).cfg = s.cfg ∧ (s.askTwinFrom a cmd pl job).out = s.out ++ [.mb14 s.msg.mb14Next cmd pl] := ⟨rfl, rfl⟩
theorem listing_eq (s : State) : s.listing = leBytes 4 s.cfg.highWater ++
      (match s.cfg.armed with
       | none => zeroBytes 12
       | some f => leBytes 1 (if f.isRevert then 2 else 1) ++ leBytes 1 f.deferrals ++ zeroBytes 2 ++ leBytes 4 (f.cycle % 2 ^ 32) ++ zeroBytes 4) ++
      slotRecord 0 4 s.cfg.sown ++ slotRecord 1 2 s.cfg.fallow ++
      (match s.cfg.receiving with | some b => receivingRecord b | none => slotRecord 2 (if s.cfg.seed.valid then 3 else 2) s.cfg.seed) := by
  unfold State.listing
  cases s.cfg.receiving <;> cases e : s.cfg.armed with
  | none => dsimp only; rw [show zeroBytes 12 = leBytes 1 0 ++ leBytes 1 0 ++ zeroBytes 2 ++ leBytes 4 0 ++ zeroBytes 4 from by decide]; simp only [List.append_assoc]
  | some f => dsimp only; simp only [List.append_assoc]
theorem probeAll_job (s : State) (j : CfgJob) (h : s.cfg.job = some j) : ∃ l, (s.probeAll).cfg = { s.cfg with job := some { j with toAsk := l } } := by
  unfold State.probeAll; dsimp only
  have fold : ∀ (rs : List StationRec) (z : State), (rs.foldl (fun s r => if s.diagBusy r.addr then s else s.probe r) z).cfg = z.cfg := by
    intro rs; induction rs with
    | nil => intro z; rfl
    | cons r l ih => intro z; rw [List.foldl_cons, ih]; split
                     · rfl
                     · exact (probe_keeps r z).frame .cfg (by decide)
  refine ⟨((s.cfg.seed.cfg.map.stations.filter fun r => !!s.diagBusy r.addr).map fun r => r.addr), ?_⟩
  generalize hz : ((s.cfg.seed.cfg.map.stations.filter fun r => !s.diagBusy r.addr).foldl (fun s r => if s.diagBusy r.addr then s else s.probe r) s) = z
  have zc : z.cfg = s.cfg := by rw [← hz]; exact fold _ _
  show ({ z.cfg with job := Option.map _ z.cfg.job } : CfgSt) = _
  rw [zc, h]; rfl
theorem job_of (s : State) (j : CfgJob) (q : Mb14Out) (h : s.cfg.job = some j) (h1 : j.id = q.job) (h2 : q.job ≠ 0) : s.cfgJobOf q = some j := by
  unfold State.cfgJobOf; rw [h]; simp [Option.filter, h1, h2]
theorem foldl_mem {α : Type} (f : State → α → State) (hf : ∀ z n, (f z n).mem = z.mem) (l : List α) : ∀ z, (l.foldl f z).mem = z.mem := by
  induction l with
  | nil => intro z; rfl
  | cons n l ih => intro z; rw [List.foldl_cons, ih, hf]
theorem recount_mem (a n : Nat) (z : State) : (z.recountQueue a n).mem = z.mem := by
  unfold State.recountQueue
  refine foldl_mem _ ?_ _ _
  intro z n; rfl
theorem copy_mem (a : Nat) (bs : List Byte) (s : State) : (s.copyMemory a bs).mem = memStore bs a s.mem := by
  unfold State.copyMemory; rw [recount_mem]; rfl
theorem does_keeps {c : Instr} {t : Nat} {s v : State} {ps : List Part} {q : State → State → Prop} (e : exec c s = .next v) (k : Keeps ps (s.arrive t) v) (h : q (s.arrive t) v) : Does c t s ps q :=
  ⟨v, e, k.frame, h⟩
theorem goMode_checked (s : State) : (s.goMode 5 0).cfg.checkedTwin = s.cfg.checkedTwin := by
  rw [show ∀ z : State, (z.goMode 5 0).cfg = z.cfg from fun z => (goMode_keeps 5 0 z).frame .cfg (by decide)]
theorem record_wf (z : State) (ty q) (w : Memory.wf z.mem = true) : Memory.wf (z.record ty q).mem = true := by
  have pr : ∀ (ty : Nat) (b : List Byte) (z : State), Memory.wf z.mem = true → Memory.wf (z.putRecord ty b).mem = true := fun ty b z w => by
    obtain ⟨bs, a, e⟩ : ∃ bs a, (z.putRecord ty b).mem = memStore bs a z.mem := ⟨_, _, rfl⟩
    rw [e]; exact memStore_wf _ _ w
  have rd : Memory.wf z.reportDrops.mem = true := by unfold State.reportDrops; split; exact w; rw [show ∀ (y : State) f, (y.upLog f).mem = y.mem from fun _ _ => rfl]; exact pr _ _ _ w
  have dr : ∀ z : State, Memory.wf z.mem = true → Memory.wf z.dropRecord.mem = true := by
    intro z w; unfold State.dropRecord; rw [show ∀ (y : State) f, (y.upLog f).mem = y.mem from fun _ _ => rfl]; exact w
  unfold State.record State.record_
  split
  · exact w
  · split
    · exact dr _ w
    · split
      · exact pr _ _ _ rd
      · exact dr _ rd
theorem record_rd (z : State) (ty q) (a : Nat) (h : a + 8 ≤ 0x06000000) : memReadN (z.record ty q).mem a 8 = memReadN z.mem a 8 := by
  have k := (record_keeps ty q z).frame .mem (by decide)
  unfold memReadN memReadBytes; congr 1
  apply List.map_congr_left; intro i hi
  rw [List.mem_range] at hi
  exact (k (a + i) (by simp [inCache]; omega)).1
theorem forget_f (h : Nat) (s : State) (w : Memory.wf s.mem = true) : Memory.wf (s.forget h).mem = true ∧ (∀ a, a + 8 ≤ 0x06000000 → memReadN (s.forget h).mem a 8 = memReadN s.mem a 8) ∧
    (s.forget h).pts.force h = none ∧ (∀ f, f ∈ (s.forget h).pts.filters → f.handle ≠ h) := by
  have ef : Memory.wf (s.endForce h).mem = true ∧ (∀ a, a + 8 ≤ 0x06000000 → memReadN (s.endForce h).mem a 8 = memReadN s.mem a 8) ∧ (s.endForce h).pts.force h = none := by
    unfold State.endForce; split
    · rename_i c; exact ⟨w, fun _ _ => rfl, by simpa using c⟩
    · refine ⟨record_wf _ _ _ w, fun a ha => record_rd _ _ _ a ha, ?_⟩
      unfold PointSt.force; rw [show ∀ (z : State) q, (z.record 0x0302 q).pts = z.pts from fun z q => rec_f _ _ _ .pts (by decide)]
      show List.find? _ (List.filter _ _) = none
      rw [List.find?_eq_none]; intro x hx; rw [List.mem_filter] at hx; simpa using hx.2
  refine ⟨ef.1, ef.2.1, ef.2.2, fun f hf => ?_⟩
  have : f ∈ ((s.endForce h).pts.filters.filter fun f => f.handle != h) := hf
  rw [List.mem_filter] at this; simpa using this.2
theorem ruleOf_setRule (h : Nat) (r : Word64) (s : State) (w : Memory.wf s.mem = true) : (s.setRule h r).ruleOf h = r := by
  unfold State.ruleOf
  show BitVec.ofNat 64 (memReadN (memWriteN s.mem (ruleAddr h) 8 r.toNat) (ruleAddr h) 8) = r
  rw [memReadN_writeN_self _ _ _ _ w, Nat.mod_eq_of_lt (by have := r.isLt; omega)]; simp
theorem img_setRule (h : Nat) (r : Word64) (s : State) (k : Nat) (hk : k ≤ 0x5FFFFF) : memReadN (s.setRule h r).mem (imageAddr k) 8 = memReadN s.mem (imageAddr k) 8 :=
  memReadN_writeN_ne _ _ _ _ _ _ (by unfold ruleAddr imageAddr; omega)
theorem zeroSlots_f (new : Cfg) (p : PointRec) (s : State) (w : Memory.wf s.mem = true) : Memory.wf (s.zeroSlots new p).mem = true ∧ (∀ a, a + 8 ≤ 0x06000000 → memReadN (s.zeroSlots new p).mem a 8 = memReadN s.mem a 8) ∧
    (s.zeroSlots new p).pts = s.pts := by
  unfold State.zeroSlots; split
  · refine ⟨memStore_wf _ _ w, fun a ha => ?_, rfl⟩
    unfold memReadN memReadBytes; congr 1
    apply List.map_congr_left; intro i hi
    rw [List.mem_range] at hi
    exact memRead_store_out _ _ _ _ (by unfold poolBase; omega)
  · exact ⟨w, fun _ _ => rfl, rfl⟩
theorem rule_rd {s v : State} (h : ∀ a, a + 8 ≤ 0x06000000 → memReadN v.mem a 8 = memReadN s.mem a 8) (k : Nat) (hk : k ≤ 0x5FFFFF) : v.ruleOf k = s.ruleOf k ∧ v.img k = s.img k := by
  have r : v.ruleOf k = s.ruleOf k := by unfold State.ruleOf; rw [h _ (by unfold ruleAddr; omega)]
  refine ⟨r, ?_⟩
  unfold State.img State.image; rw [r, h _ (by unfold imageAddr; omega)]
theorem carry_new (old new : Cfg) (p : PointRec) (s : State) (w : Memory.wf s.mem = true) (hh : p.handle ≤ 0x5FFFFF) (hk : ruleKind p.rule ≠ 0) :
    ∀ v, v = ((s.forget p.handle).declare p).zeroSlots new p → Memory.wf v.mem = true ∧ v.ruleOf p.handle = p.rule ∧ v.img p.handle = newImg p.init ∧ v.pts = (s.forget p.handle).pts := by
  intro v hv
  obtain ⟨f1, _, _, _⟩ := forget_f p.handle s w
  generalize s.forget p.handle = f at *
  have d : f.declare p = (f.setRule p.handle p.rule).setImage p.handle (imgWord (newImg p.init)) := rfl
  have wr : Memory.wf (f.setRule p.handle p.rule).mem = true := memWriteN_wf _ _ _ f1
  have dw : Memory.wf (f.declare p).mem = true := memWriteN_wf _ _ _ wr
  have rr := ruleOf_setRule p.handle p.rule f f1
  have di : (f.declare p).img p.handle = newImg p.init := by
    rw [d]; exact img_self _ _ _ wr hh (by rw [rr]; exact hk) (by show (0x41 : Nat) < 256; decide) (by show (0xFFFF : Nat) < 65536; decide)
  have dr : (f.declare p).ruleOf p.handle = p.rule := by rw [d, ruleOf_setImage _ _ _ _ (by omega), rr]
  obtain ⟨z1, z2, z3⟩ := zeroSlots_f new p (f.declare p) dw
  obtain ⟨y1, y2⟩ := rule_rd z2 p.handle hh
  rw [hv]; exact ⟨z1, y1.trans dr, y2.trans di, z3⟩
theorem switch_cfg (back : Bool) (tb : Nat) (s : State) : (s.switchTo back tb).cfg = { (s.cfg.switch back tb (s.snapshotOf s.conf (if back then s.cfg.fallow.cfg else s.cfg.seed.cfg))) with changed := changeSet s.conf (if back then s.cfg.fallow.cfg else s.cfg.seed.cfg), flipTb := tb, fallbackOk := (if back then s.cfg.fallow.cfg else s.cfg.seed.cfg).usable, armed := none, checkedTwin := false } ∧
    ∀ p, p ∈ (s.switchTo back tb).time.ports → p.gclRunning = false ∧ p.gates = 0xFF := by
  unfold State.switchTo; dsimp only
  generalize hz : s.upCfg _ = z
  have zc : z.cfg = { (s.cfg.switch back tb (s.snapshotOf s.conf (if back then s.cfg.fallow.cfg else s.cfg.seed.cfg))) with changed := changeSet s.conf (if back then s.cfg.fallow.cfg else s.cfg.seed.cfg), flipTb := tb, fallbackOk := (if back then s.cfg.fallow.cfg else s.cfg.seed.cfg).usable, armed := none, checkedTwin := false } := by rw [← hz]; rfl
  refine ⟨?_, fun p hp => ?_⟩
  · rw [show ∀ y : State, y.installRules.cfg = y.cfg from fun y => (installRules_keeps y).frame .cfg (by decide), show ∀ y : State, y.stopLists.cfg = y.cfg from fun y => rfl,
      show ∀ o (y : State), (y.flipCan o).cfg = y.cfg from fun o y => (flipCan_keeps o y).frame .cfg (by decide), show ∀ o (y : State), (y.flipDio o).cfg = y.cfg from fun o y => (flipDio_keeps o y).frame .cfg (by decide),
      show ∀ o (y : State), (y.flipUa o).cfg = y.cfg from fun o y => (flipUa_keeps o y).frame .cfg (by decide), show ∀ o n r (y : State), (y.carryAll o n r).cfg = y.cfg from fun o n r y => (carryAll_keeps o n r y).frame .cfg (by decide), zc]
  · rw [show ∀ y : State, y.installRules.time = y.time from fun y => (installRules_keeps y).frame .time (by decide)] at hp
    generalize ((((z.carryAll _ _ _).flipUa _).flipDio _).flipCan _) = y at hp
    have : p ∈ y.time.ports.map (fun p => { p with gclRunning := false, gclIndex := 0, gates := 0xFF }) := hp
    obtain ⟨q, _, hq⟩ := List.mem_map.1 this
    rw [← hq]; exact ⟨rfl, rfl⟩
theorem mapFrom_mem {α : Type} (f : Nat → α → α) (l : List α) : ∀ i y, y ∈ mapFrom f i l → ∃ n x, y = f n x := by
  induction l with
  | nil => intro i y hy; cases hy
  | cons a l ih => intro i y hy; rcases List.mem_cons.1 hy with e | e
                   · exact ⟨_, _, e⟩
                   · exact ih _ _ e
theorem arm_cfg (back solo : Bool) (d job : Nat) (s : State) : (s.armFlip back solo d job).cfg = { s.cfg with armed := some { isRevert := back, solo := solo, tb := s.nextT0 3 (s.tb0 + 200000000), cycle := s.nextT0 3 (s.tb0 + 200000000) / s.periodNs 3, deferrals := d, job := job, twinArmed := false, goHeld := false } } ∧
    (∀ h, s.pair.armed = some h → h.th = s.nextT0 3 (s.tb0 + 200000000) → h.kind ≠ 4 → (s.armFlip back solo d job).pair.armed = some { h with th := s.nextT0 3 (s.nextT0 3 (s.tb0 + 200000000) + 1) }) := by
  unfold State.armFlip; dsimp only
  generalize hz : s.upCfg _ = z
  have zc : z.cfg = { s.cfg with armed := some { isRevert := back, solo := solo, tb := s.nextT0 3 (s.tb0 + 200000000), cycle := s.nextT0 3 (s.tb0 + 200000000) / s.periodNs 3, deferrals := d, job := job, twinArmed := false, goHeld := false } } := by rw [← hz]; rfl
  have zp : z.pair = s.pair := by rw [← hz]; rfl
  have zt : ∀ x y, z.nextT0 x y = s.nextT0 x y := by intro x y; rw [← hz]; rfl
  refine ⟨?_, fun h hh h1 h2 => ?_⟩
  · rw [show ∀ p c n (y : State), (y.bindAll p c n).cfg = y.cfg from fun p c n y => (bindAll_keeps p c n y).frame .cfg (by decide)]
    show (z.moveHandover _).cfg = _
    rw [show ∀ t (y : State), (y.moveHandover t).cfg = y.cfg from fun t y => (moveHandover_keeps t y).frame .cfg (by decide), zc]
  · rw [show ∀ p c n (y : State), (y.bindAll p c n).pair = y.pair from fun p c n y => (bindAll_keeps p c n y).frame .pair (by decide)]
    show (z.moveHandover _).pair.armed = _
    unfold State.moveHandover; rw [zp, hh]; dsimp only; rw [if_pos (by simp [h1, h2]), zt]; rfl
theorem accept_f (back : Bool) (u : State) : (u.power.mode = 2 → acceptFlip back u = (u.flipNow back, some (0, []))) ∧
    (u.power.mode ≠ 2 → u.msg.jobs.length < 64 → ∃ (id : Nat) (w : State), w.cfg = u.cfg ∧ w.pair = u.pair ∧ (∀ x y, w.nextT0 x y = u.nextT0 x y) ∧ w.tb0 = u.tb0 ∧ (∀ x, w.periodNs x = u.periodNs x) ∧ w.power = u.power ∧
      acceptFlip back u = (w.armFlip back (u.power.mode == 6) 0 id, some (1, jobPayload id))) := by
  refine ⟨fun a => by unfold acceptFlip; rw [if_pos a]; rfl, fun a b => ?_⟩
  unfold acceptFlip; rw [if_neg a]
  obtain ⟨id, e1, _⟩ := withJob_ok (if back = true then 0x403 else 0x402) (fun id s => s.armFlip back (s.power.mode == 6) 0 id) u b
  refine ⟨id, (u.upMsg fun m => { m with nextJob := (id + 1) % 65536, jobs := m.jobs ++ [{ id := id, cmd := (if back = true then 0x403 else 0x402), done := false, progress := 0, status := 0, result := [], endAt := 0 }] }), rfl, rfl, fun _ _ => rfl, rfl, fun _ => rfl, rfl, ?_⟩
  rw [e1]; rfl
theorem flipNow_cfg (back : Bool) (u : State) : (u.flipNow back).cfg = (u.switchTo back u.tb0).cfg := by
  unfold State.flipNow; dsimp only; exact rec_f _ _ _ .cfg (by decide)
theorem accept_all (back : Bool) (u v : State) (st : Nat) (ans : List Byte) (e : acceptFlip back u = (v, some (st, ans))) : (u.power.mode = 2 → st = 0 ∧ ans = [] ∧ v.cfg = (u.switchTo back u.tb0).cfg) ∧
            (u.power.mode ≠ 2 → u.msg.jobs.length < 64 → ∀ tb, tb = u.nextT0 3 (u.tb0 + 200000000) → ∃ id, st = 1 ∧ ans = jobPayload id ∧
              v.cfg = { u.cfg with armed := some { isRevert := back, solo := u.power.mode == 6, tb := tb, cycle := tb / u.periodNs 3, deferrals := 0, job := id, twinArmed := false, goHeld := false } } ∧
              (∀ h, u.pair.armed = some h → h.th = tb → h.kind ≠ 4 → v.pair.armed = some { h with th := u.nextT0 3 (tb + 1) })) := by
  refine ⟨fun a => ?_, fun a b tb ht => ?_⟩
  · rw [(accept_f back u).1 a] at e; obtain ⟨x, y, z⟩ := pair_inj e
    exact ⟨y.symm, z.symm, by rw [← x]; exact flipNow_cfg back u⟩
  · obtain ⟨id, w, w1, w2, w3, w4, w5, w6, e1⟩ := (accept_f back u).2 a b
    rw [e1] at e; obtain ⟨x, y, z⟩ := pair_inj e
    obtain ⟨a1, a2⟩ := arm_cfg back (u.power.mode == 6) 0 id w
    rw [w3, w4, w5, w1, x, ← ht] at a1
    refine ⟨id, y.symm, z.symm, a1, fun h h1 h2 h3 => ?_⟩
    have := a2 h (by rw [w2]; exact h1) (by rw [w3, w4, ← ht]; exact h2) h3
    rw [x, w4, w3, w3, ← ht] at this; exact this
theorem accept_some (back : Bool) (u : State) : ∃ v st d, acceptFlip back u = (v, some (st, d)) := by
  unfold acceptFlip; split; exact ⟨_, _, _, rfl⟩; exact withJob_some _ _ _
theorem sheafBusy_iff (n : Nat) : sheafBusy n = true ↔ n ∈ [3, 5, 6] := by unfold sheafBusy; simp [or_assoc]
theorem flipFree_iff (u : State) : u.flipFree = true ↔ u.cfg.job = none ∧ u.cfg.armed = none ∧ u.sheaf.st ∉ [3, 5, 6] ∧ u.sheaf.twinState ∉ [3, 5, 6] := by
  unfold State.flipFree State.cfgIdle; rw [← sheafBusy_iff, ← sheafBusy_iff]; simp [and_assoc]
theorem und_read (m : Mem) (h : Nat) (w : Memory.wf m = true) : memReadN (memWriteN (memWriteN m (ruleAddr h) 8 0) (imageAddr h) 8 0) (ruleAddr h) 8 = 0 := by
  rw [memReadN_writeN_ne _ _ _ _ _ _ (by unfold ruleAddr imageAddr; omega), memReadN_writeN_self _ _ _ _ w]; omega
theorem und_mem (h : Nat) (f : State) : (f.undeclare h).mem = memWriteN (memWriteN f.mem (ruleAddr h) 8 0) (imageAddr h) 8 0 := by
  unfold State.undeclare State.setRule; rw [State.upMem_mem, State.upMem_mem]; rfl
theorem und_image (h : Nat) (f : State) (w : Memory.wf f.mem = true) : (f.undeclare h).image h = unusedEntry := by
  have : (f.undeclare h).ruleOf h = 0#64 := by unfold State.ruleOf; rw [und_mem, und_read _ _ w]
  unfold State.image; rw [this]; rfl
theorem flipClasses_cls (old new : Cfg) (tb : Nat) (w : State) : ∀ c, c ∈ (w.flipClasses old new tb).cyc.cls → c.held = [] ∧ c.toIssue = [] ∧ c.toWrite = [] ∧ c.notBefore = tb ∧ c.tasks = false := by
  intro c hc
  have e : (w.flipClasses old new tb).cyc.cls = mapFrom (fun x c => c.flip old new (1000 * (new.cls x).periodUs) tb) 0 w.cyc.cls := by
    unfold State.flipClasses; dsimp only; split <;> rfl
  rw [e] at hc
  obtain ⟨n, x, hx⟩ := mapFrom_mem _ _ 0 c hc
  rw [hx]; exact ⟨rfl, rfl, rfl, rfl, rfl⟩

end Sys2Proof.Machine
end

