-- ==== Sys2Proof/Laws/OpRuns.lean ====
section
/-! SUPPORT. What the operations of one chapter do: cycles. -/

set_option Elab.async false
set_option linter.all false

set_option linter.all false

namespace Sys2Proof.Machine

theorem setCl_cl (x y : Nat) (f : ClassSt → ClassSt) (s : State) : (s.setCl x f).cl y = if x = y ∧ x < s.cyc.cls.length then f (s.cl y) else s.cl y := by
  show (setAt s.cyc.cls x f).getD y ClassSt.reset = _
  by_cases h : x = y
  · subst h
    by_cases k : x < s.cyc.cls.length
    · rw [getD_setAt_self _ _ _ _ k, if_pos ⟨rfl, k⟩]; rfl
    · rw [if_neg (fun h => k h.2), List.getD_eq_default _ _ (by rw [setAt_length]; omega)]
      show _ = s.cyc.cls.getD x ClassSt.reset
      rw [List.getD_eq_default _ _ (by omega)]
  · rw [getD_setAt_ne _ _ _ _ _ h, if_neg (fun k => h k.1)]; rfl
theorem setCl_len (x : Nat) (f : ClassSt → ClassSt) (s : State) : (s.setCl x f).cyc.cls.length = s.cyc.cls.length := setAt_length _ _ _
theorem cl_of {s v : State} (h : v.cyc.cls = s.cyc.cls) (x : Nat) : v.cl x = s.cl x := by unfold State.cl; rw [h]
/-- What issuing leaves of a class. -/
def coreOf (c : ClassSt) : ClassSt := { c with toIssue := [], toWrite := [], held := [], waitFrom := none, tagWait := 0 }
theorem core_setCl (x y : Nat) (f : ClassSt → ClassSt) (s : State) (h : ∀ c, coreOf (f c) = coreOf c) : coreOf ((s.setCl x f).cl y) = coreOf (s.cl y) := by
  rw [setCl_cl]; split
  · exact h _
  · rfl
theorem toStation_cyc (a : Nat) (f : OutFrame) (s : State) : (s.toStation a f).cyc = s.cyc := (toStation_keeps a f s).frame .cyc (by decide)
theorem sendWrite_cyc (f : Flight) (r : Bool) (s : State) : (s.sendWrite f r).cyc = s.cyc := (sendWrite_keeps f r s).frame .cyc (by decide)
theorem issueRead_core (x i tag y : Nat) (s : State) : coreOf ((s.issueRead x i tag).cl y) = coreOf (s.cl y) ∧ (s.issueRead x i tag).cyc = { s.cyc with cls := (s.issueRead x i tag).cyc.cls } := by
  unfold State.issueRead; split
  · exact ⟨rfl, rfl⟩
  · dsimp only; refine ⟨?_, ?_⟩
    · refine (congrArg coreOf (cl_of (congrArg CycleSt.cls (toStation_cyc _ _ _)) y)).trans (core_setCl _ _ _ _ ?_); intro c; rfl
    · rw [toStation_cyc]; rfl
theorem issueWrite_core (x tag y : Nat) (f : Flight) (s : State) : coreOf ((s.issueWrite x tag f).cl y) = coreOf (s.cl y) ∧ (s.issueWrite x tag f).cyc = { s.cyc with cls := (s.issueWrite x tag f).cyc.cls } := by
  unfold State.issueWrite; dsimp only; refine ⟨?_, ?_⟩
  · refine (congrArg coreOf (cl_of (congrArg CycleSt.cls (sendWrite_cyc _ _ _)) y)).trans (core_setCl _ _ _ _ ?_); intro c; rfl
  · rw [sendWrite_cyc]; rfl
theorem issue_core (x y : Nat) : ∀ (n : Nat) (s : State), coreOf ((s.issue x n).cl y) = coreOf (s.cl y) ∧ (s.issue x n).cyc = { s.cyc with cls := (s.issue x n).cyc.cls } := by
  intro n; induction n with
  | zero => intro s; exact ⟨rfl, rfl⟩
  | succ n ih =>
    intro s
    have ew : ∀ (w : State), coreOf ((w.setCl x (ClassSt.endWait s.time.now)).cl y) = coreOf (w.cl y) := by
      intro w; apply core_setCl; intro c; unfold ClassSt.endWait; split <;> rfl
    unfold State.issue; dsimp only
    split
    · exact ⟨rfl, rfl⟩
    · split
      · exact ⟨core_setCl _ _ _ _ fun c => rfl, rfl⟩
      · split
        · obtain ⟨a, b⟩ := ih (((s.setCl x (ClassSt.endWait s.time.now)).setCl x fun c => { c with toIssue := _ }).issueRead x _ _)
          refine ⟨a.trans ?_, b.trans ?_⟩
          · refine (issueRead_core _ _ _ _ _).1.trans ((core_setCl x y _ _ ?_).trans (ew s)); intro c; rfl
          · rw [(issueRead_core _ _ _ y _).2]; rfl
        · obtain ⟨a, b⟩ := ih (((s.setCl x (ClassSt.endWait s.time.now)).setCl x fun c => { c with toWrite := _ }).issueWrite x _ _)
          refine ⟨a.trans ?_, b.trans ?_⟩
          · refine (issueWrite_core _ _ _ _ _).1.trans ((core_setCl x y _ _ ?_).trans (ew s)); intro c; rfl
          · rw [(issueWrite_core _ _ y _ _).2]; rfl
        · exact ⟨ew s, rfl⟩
theorem pump_core (x y : Nat) (s : State) : coreOf ((s.pump x).cl y) = coreOf (s.cl y) ∧ (s.pump x).cyc = { s.cyc with cls := (s.pump x).cyc.cls } := issue_core _ _ _ _
theorem foldl_cyc {α β : Type} (g : State → β) (f : State → α → State) (hf : ∀ z a, g (f z a) = g z) (l : List α) : ∀ z, g (l.foldl f z) = g z := by
  induction l with
  | nil => intro z; rfl
  | cons a l ih => intro z; rw [List.foldl_cons, ih, hf]
theorem item_cyc (i : Nat × Nat × List Word) (s : State) : (s.completeItem i).cyc = s.cyc := (completeItem_keeps i s).frame .cyc (by decide)
theorem apps_cyc (n : Nat) (s : State) : (s.countApps n).cyc = s.cyc := rfl
theorem shot_cls (i : Nat × Nat × List Word) (s : State) : (s.shot i).cyc.cls = s.cyc.cls := by
  unfold State.shot; dsimp only
  show (s.completeItem i).cyc.cls = _; rw [item_cyc]
theorem shadowIn_cls (e : Heard) (s : State) : (s.shadowIn e).cyc.cls = s.cyc.cls := by
  unfold State.shadowIn; dsimp only
  have k : (e.items.foldl (fun s i => s.shot i) (s.countApps (s.itemWeight e.items))).cyc.cls = s.cyc.cls :=
    (foldl_cyc (fun z => z.cyc.cls) (fun s i => s.shot i) (fun z a => shot_cls a z) _ _).trans rfl
  split
  · exact k
  · exact k
theorem hear_cls (e : Heard) (s : State) : (s.hear e).cyc.cls = s.cyc.cls := by
  unfold State.hear; repeat' first | exact shadowIn_cls _ _ | rfl | split
theorem deliver_core (x y : Nat) (items : List (Nat × Nat × List Word)) (s : State) : ∃ l : ClassSt → List Nat, (s.deliver x items).cyc.cls = setAt s.cyc.cls x (fun c => { c with localDone := l c }) := by
  refine ⟨fun c => c.localDone ++ items.map fun i => i.1, ?_⟩
  unfold State.deliver; dsimp only
  split
  · exact (congrArg CycleSt.cls ((foldl_cyc (fun z => z.cyc) (fun s i => s.completeItem i) (fun z a => item_cyc a z) _ _).trans (apps_cyc _ _))).trans rfl
  · split
    · rfl
    · exact (hear_cls _ _).trans rfl
theorem latchLocal_core (x prev : Nat) (s : State) : ∃ l : ClassSt → List Nat, (s.latchLocal x prev).cyc.cls = setAt s.cyc.cls x (fun c => { c with localDone := l c }) := by
  unfold State.latchLocal; dsimp only
  generalize hz : (if x = 0 then _ else _) = z
  have zc : z.cyc = s.cyc := by
    have a : ((s.latchUa x).latchCan x).cyc = s.cyc := ((latchCan_keeps _ _).frame .cyc (by decide)).trans ((latchUa_keeps _ _).frame .cyc (by decide))
    rw [← hz]; split
    · exact a
    · exact a
  obtain ⟨l, h⟩ := deliver_core x 0 (s.t0Items x prev) z
  exact ⟨l, by rw [h, zc]⟩
theorem insertBy_perm {α : Type} (b : α → α → Bool) (a : α) (l : List α) : (insertBy b a l).Perm (a :: l) := by
  induction l with
  | nil => exact List.Perm.refl _
  | cons c l ih =>
    unfold insertBy; split
    · exact (List.Perm.cons c ih).trans (List.Perm.swap a c l)
    · exact List.Perm.refl _
theorem sortBy_perm {α : Type} (b : α → α → Bool) (l : List α) : (sortBy b l).Perm l := by
  induction l with
  | nil => exact List.Perm.refl _
  | cons a l ih => exact (insertBy_perm b a _).trans (List.Perm.cons a ih)
theorem sortBy_pairwise {α : Type} (b : α → α → Bool) (ht : ∀ x y z, b y x = false → b z y = false → b z x = false) (ha : ∀ x y, b x y = true → b y x = false) (l : List α) :
    (sortBy b l).Pairwise fun x y => b y x = false := by
  induction l with
  | nil => exact List.Pairwise.nil
  | cons a l ih =>
    show (insertBy b a (sortBy b l)).Pairwise _
    generalize sortBy b l = m at *
    induction m with
    | nil => exact List.pairwise_singleton _ _
    | cons c m ihm =>
      rw [List.pairwise_cons] at ih
      unfold insertBy; split
      · rename_i h
        rw [List.pairwise_cons]; refine ⟨fun d hd => ?_, ihm ih.2⟩
        rcases List.mem_cons.1 ((insertBy_perm b a m).mem_iff.1 hd) with e | e
        · rw [e]; exact ha _ _ h
        · exact ih.1 d e
      · rename_i h
        rw [List.pairwise_cons]; refine ⟨fun d hd => ?_, List.pairwise_cons.2 ih⟩
        rcases List.mem_cons.1 hd with e | e
        · rw [e]; simpa using h
        · exact ht a c d (by simpa using h) (ih.1 d e)
theorem seePeers_cyc (x : Nat) (s : State) : (s.seePeers x).cyc = s.cyc := (seePeers_keeps x s).frame .cyc (by decide)
theorem answerReads_cls (x : Nat) (s : State) : (s.answerReads x).cyc.cls = s.cyc.cls := by
  unfold State.answerReads; dsimp only
  exact (foldl_cyc (fun z => z.cyc.cls) (fun (s : State) (w : Nat × List Nat) => s.ret stOk (w.2.map fun h => (s.image h).toNat)) (fun z a => rfl) _ _).trans rfl
theorem miss_cyc (h : Nat) (s : State) : (s.missInput h).cyc = s.cyc := (missInput_keeps h s).frame .cyc (by decide)
theorem fail_cyc (h : Nat) (r) (s : State) : (s.failOutput h r).cyc = s.cyc := (failOutput_keeps h r s).frame .cyc (by decide)
theorem over_cyc (h : Nat) (s : State) : (s.overrangeOutput h).cyc = s.cyc := (overrangeOutput_keeps h s).frame .cyc (by decide)
theorem sent_cyc (h : Nat) (w : Word) (s : State) : (s.sentValue h w).cyc = s.cyc := (sentValue_keeps h w s).frame .cyc (by decide)
theorem ack_cyc (h : Nat) (w : Word) (s : State) : (s.ackOutput h w).cyc = s.cyc := (ackOutput_keeps h w s).frame .cyc (by decide)
theorem skip_f (x : Nat) (s : State) (hx : x < s.cyc.cls.length) (qs : List (Nat × Nat)) : ∀ w, w = (s.setCl x fun c => { c with taskSkips := inc32 c.taskSkips, consecSkips := c.consecSkips + 1, skipped := true }).record 0x0401 qs →
    w.cl x = { s.cl x with taskSkips := inc32 (s.cl x).taskSkips, consecSkips := (s.cl x).consecSkips + 1, skipped := true } ∧ w.power = s.power ∧ w.cfg = s.cfg := by
  intro w hw
  have c : ∀ (z : State) q, (z.record 0x0401 q).cyc = z.cyc := fun z q => rec_f _ _ _ .cyc (by decide)
  have p : ∀ (z : State) q, (z.record 0x0401 q).power = z.power := fun z q => rec_f _ _ _ .power (by decide)
  have g : ∀ (z : State) q, (z.record 0x0401 q).cfg = z.cfg := fun z q => rec_f _ _ _ .cfg (by decide)
  refine ⟨?_, ?_, ?_⟩
  · rw [hw, cl_of (congrArg CycleSt.cls (c _ _)), setCl_cl, if_pos ⟨rfl, hx⟩]
  · rw [hw, p]; rfl
  · rw [hw, g]; rfl
theorem ship_core (x y : Nat) (s : State) : ∃ d, (s.ship x).cl y = { s.cl y with dirty := d } := by
  unfold State.ship; split
  · exact ⟨_, rfl⟩
  · dsimp only
    generalize hz : s.upCnt _ = z
    have zc : z.cyc = s.cyc := by rw [← hz]; rfl
    show ∃ d, (z.setCl x fun c => { c with dirty := [] }).cl y = _
    rw [setCl_cl, cl_of (congrArg CycleSt.cls zc)]; split
    · exact ⟨[], rfl⟩
    · exact ⟨(s.cl y).dirty, rfl⟩
theorem find_mapFrom (p first : Nat) (at_ : Nat) : ∀ (items : List (Nat × Nat)) (k : Nat) (rest : List PeerItem) (i : Nat) (hi : i < items.length),
    (mapFrom (fun n (q : PeerItem) => { q with item := n }) k (items.map fun i => ({ peer := p, item := 0, value := BitVec.ofNat 32 i.1, quality := i.2, at_ := at_ } : PeerItem)) ++ rest).find? (fun q => q.peer == p && q.item == k + i) =
      some { peer := p, item := k + i, value := BitVec.ofNat 32 items[i].1, quality := items[i].2, at_ := at_ } := by
  intro items; induction items with
  | nil => intro k rest i hi; exact absurd hi (by simp)
  | cons a l ih =>
    intro k rest i hi
    cases i with
    | zero => simp [mapFrom, List.find?_cons]
    | succ i =>
      have := ih (k + 1) rest i (by simpa using hi)
      rw [show k + 1 + i = k + (i + 1) from by omega] at this
      simp only [List.map_cons, mapFrom, List.cons_append]
      rw [List.find?_cons]; simp only [beq_self_eq_true, Bool.true_and]
      rw [show (k == k + (i + 1)) = false from by simp]
      simpa using this

end Sys2Proof.Machine
end

