-- ==== Sys2Proof/Laws/OpStandby.lean ====
section
/-! SUPPORT. What the operations of one chapter do: takeover. -/

set_option Elab.async false
set_option linter.all false

set_option linter.all false

namespace Sys2Proof.Machine

theorem Part.same.trans' {p : Part} {s t u : State} (h : p.same s t) (k : p.same t u) : p.same s u := Part.same_trans h k
theorem own_f (s : State) : ∀ k term, k = s.pair.claimKind → term = nextTerm (if k = 0 then s.pair.termBest else s.pair.term) → 
    (s.own).pair.owner = true ∧ s.own.pair.confirmed = true ∧ s.own.pair.synced = false ∧ s.own.pair.term = term ∧ s.own.pair.storedTerm = term ∧ s.own.power.mode = (if k = 0 then 6 else 5) ∧ s.own.can = s.can.map CanCh.normal ∧
    s.own.cnt.takeovers = (if k = 1 then inc32 s.cnt.takeovers else s.cnt.takeovers) ∧ (k = 1 → s.own.cnt.lastTakeoverNs = sat32 (tickNs (s.time.now - s.pair.tfAt))) ∧
    ∃ z : State, z.out = s.out ∧ z.pair.term = term ∧ z.conf = s.conf ∧ s.own = (z.announce 1).bindAll false 0 s.conf := by
  intro k term hk ht
  unfold State.own; dsimp only
  generalize hA : State.upPair _ s = a
  have aP : a.pair.term = term ∧ a.pair.storedTerm = term ∧ a.pair.confirmed = true ∧ a.pair.synced = false ∧ a.pair.claimKind = k := by subst hA; subst hk; subst ht; exact ⟨rfl, rfl, rfl, rfl, rfl⟩
  have aR : a.out = s.out ∧ a.can = s.can ∧ a.cnt = s.cnt ∧ a.conf = s.conf := by subst hA; exact ⟨rfl, rfl, rfl, rfl⟩
  generalize hB : State.upCnt _ a = b
  have bP : b.pair = a.pair := by subst hB; rfl
  have bR : b.out = a.out ∧ b.can = a.can ∧ b.conf = a.conf := by subst hB; exact ⟨rfl, rfl, rfl⟩
  have bC : b.cnt.takeovers = (if k = 1 then inc32 s.cnt.takeovers else s.cnt.takeovers) ∧ (k = 1 → b.cnt.lastTakeoverNs = sat32 (tickNs (s.time.now - s.pair.tfAt))) := by
    subst hB; subst hk; rw [← aR.2.2.1]
    refine ⟨by subst hA; rfl, fun h => ?_⟩
    show (if s.pair.claimKind = 1 then _ else _) = _
    rw [if_pos h]; subst hA; rfl
  generalize hC : b.upCan (List.map CanCh.normal) = c
  have cP : c.pair = b.pair ∧ c.cnt = b.cnt ∧ c.out = b.out ∧ c.conf = b.conf ∧ c.can = b.can.map CanCh.normal := by subst hC; exact ⟨rfl, rfl, rfl, rfl, rfl⟩
  generalize hD : (if s.pair.claimKind = 1 then c.record 0x0202 [] else if s.pair.claimKind = 2 then c.record 0x0203 [] else c) = d
  have fD : Frame [.cache, .log] c d := by
    rw [← hD]; repeat' split
    · exact (record_keeps ..).frame
    · exact (record_keeps ..).frame
    · exact fun p _ => p.same_refl c
  have dP : d.pair = c.pair := fD .pair (by decide)
  have dO : d.out = c.out := fD .out (by decide)
  have dN : d.cnt = c.cnt := fD .cnt (by decide)
  have dA : d.can = c.can := fD .can (by decide)
  have dF : d.cfg = c.cfg := fD .cfg (by decide)
  have hm : ∃ m, (if s.pair.claimKind = 0 then 6 else 5) = m ∧ (m = 5 ∨ m = 6) := by split <;> exact ⟨_, rfl, by simp⟩
  obtain ⟨m, em, hm⟩ := hm
  rw [← hk] at em ⊢
  rw [em]
  generalize hE : d.goMode m 0 = e
  have fE := hE ▸ (goMode_keeps m 0 d (by omega)).frame
  have eP : e.pair = { d.pair with owner := d.pair.owner && (m == 5 || m == 6) } := by rw [← hE]; exact goMode_pair ..
  have eM : e.power.mode = m := by rw [← hE, goMode_power]
  have eO : e.out = d.out := fE .out (by decide)
  have eN : e.cnt = d.cnt := fE .cnt (by decide)
  have eA : e.can = d.can := fE .can (by decide)
  have eF : e.cfg = d.cfg := fE .cfg (by decide)
  generalize hZ : e.upPair (fun p => { p with owner := true }) = z
  have zP : z.pair = { e.pair with owner := true } := by subst hZ; rfl
  have zR : z.power = e.power ∧ z.out = e.out ∧ z.cnt = e.cnt ∧ z.can = e.can ∧ z.cfg = e.cfg := by subst hZ; exact ⟨rfl, rfl, rfl, rfl, rfl⟩
  have cc : c.cfg = s.cfg := by subst hC; subst hB; subst hA; rfl
  have zc : z.cfg = s.cfg := zR.2.2.2.2.trans (eF.trans (dF.trans cc))
  have zconf : z.conf = s.conf := by unfold State.conf; rw [zc]
  have h1 := (announce_keeps 1 z).frame
  have h2 := (bindAll_keeps false 0 z.conf (z.announce 1)).frame
  have g : ∀ p, p ≠ Part.out → p ≠ Part.fsp → p.same z ((z.announce 1).bindAll false 0 z.conf) := fun p x y =>
    Part.same_trans (h1 p (by simp [x, y])) (h2 p (by simp [x, y]))
  have wP := g .pair (by decide) (by decide); simp only [Part.same] at wP
  have wM := g .power (by decide) (by decide); simp only [Part.same] at wM
  have wN := g .cnt (by decide) (by decide); simp only [Part.same] at wN
  have wA := g .can (by decide) (by decide); simp only [Part.same] at wA
  have zT : z.pair.term = term ∧ z.pair.storedTerm = term ∧ z.pair.confirmed = true ∧ z.pair.synced = false ∧ z.pair.owner = true := by
    rw [zP, eP, dP, cP.1, bP]; exact ⟨aP.1, aP.2.1, aP.2.2.1, aP.2.2.2.1, rfl⟩
  have zCn : z.cnt = b.cnt := by rw [zR.2.2.1, eN, dN, cP.2.1]
  refine ⟨?_, ?_, ?_, ?_, ?_, ?_, ?_, ?_, ?_, z, ?_, zT.1, zconf, ?_⟩
  · rw [wP]; exact zT.2.2.2.2
  · rw [wP]; exact zT.2.2.1
  · rw [wP]; exact zT.2.2.2.1
  · rw [wP]; exact zT.1
  · rw [wP]; exact zT.2.1
  · rw [wM, zR.1]; exact eM
  · rw [wA, zR.2.2.2.1, eA, dA, cP.2.2.2.2, bR.2.1, aR.2.1]
  · rw [wN, zCn]; exact bC.1
  · rw [wN, zCn]; exact bC.2
  · rw [zR.2.1, eO, dO, cP.2.2.1, bR.1, aR.1]
  · rw [zconf]
theorem resync_f (s : State) : (s.power.mode ≠ 4 → s.resync = s) ∧ (s.power.mode = 4 → s.resync.power.mode = 3 ∧ s.resync.pair.synced = false ∧ s.resync.pair.copyDone = false ∧
    s.resync.cnt.applied = [none, none, none, none] ∧ s.resync.cyc.shadow = [] ∧ s.resync.cyc.journal = [] ∧ s.resync.cfg = s.cfg ∧ s.resync.out = s.out ∧ s.resync.pair.term = s.pair.term ∧ s.resync.pair.storedTerm = s.pair.storedTerm ∧
    s.resync.cnt.hearGaps = s.cnt.hearGaps ∧ s.resync.cnt.repairPoints = s.cnt.repairPoints ∧ s.resync.cnt.seq = s.cnt.seq ∧ s.resync.cnt.ckptLate = s.cnt.ckptLate) := by
  constructor
  · intro h; unfold State.resync; rw [if_pos (by simpa using h)]
  · intro h; unfold State.resync; rw [if_neg (by simp [h])]; dsimp only
    generalize hA : State.upCyc _ _ = a
    have f := (goMode_keeps 3 0 a).frame
    have aP : a.pair.synced = false ∧ a.pair.copyDone = false ∧ a.pair.term = s.pair.term ∧ a.pair.storedTerm = s.pair.storedTerm := by subst hA; exact ⟨rfl, rfl, rfl, rfl⟩
    have aR : a.cnt.applied = [none, none, none, none] ∧ a.cyc.shadow = [] ∧ a.cyc.journal = [] ∧ a.cfg = s.cfg ∧ a.out = s.out := by subst hA; exact ⟨rfl, rfl, rfl, rfl, rfl⟩
    have aN : a.cnt.hearGaps = s.cnt.hearGaps ∧ a.cnt.repairPoints = s.cnt.repairPoints ∧ a.cnt.seq = s.cnt.seq ∧ a.cnt.ckptLate = s.cnt.ckptLate := by subst hA; exact ⟨rfl, rfl, rfl, rfl⟩
    have n : (a.goMode 3 0).cnt = a.cnt := f .cnt (by decide)
    have y : (a.goMode 3 0).cyc = a.cyc := f .cyc (by decide)
    rw [goMode_power, goMode_pair, n, y, show (a.goMode 3 0).cfg = a.cfg from f .cfg (by decide), show (a.goMode 3 0).out = a.out from f .out (by decide)]
    exact ⟨rfl, aP.1, aP.2.1, aR.1, aR.2.1, aR.2.2.1, aR.2.2.2.1, aR.2.2.2.2, aP.2.2.1, aP.2.2.2, aN⟩
theorem apply_f (c : Ckpt) (s v : State) (gaps : List Nat) (hg : gaps = (s.replay c.cls c.cycle (2 ^ 64)).gapsOf c) (hv : v = s.applyCkpt c) :
    v.out = s.out ++ [.swath (.checkpointAck c.cls c.seq gaps)] ∧ v.cnt.hearGaps = add32 s.cnt.hearGaps gaps.length ∧ v.cnt.repairPoints = add32 s.cnt.repairPoints c.repairs.length ∧
    v.cnt.seq = c.seq ∧ v.pair.term = c.term ∧ v.pair.storedTerm = c.term ∧ v.sched.nextId = c.nextId ∧ v.sched.ring = c.tables.ring ∧ v.time.primary = (c.state0, c.state1) ∧
    (s.power.mode ≠ 4 → v.power.mode = s.power.mode ∧ v.cnt.applied = setAt s.cnt.applied c.cls fun _ => some c.cycle) ∧
    (s.power.mode = 4 → (∀ k, k = s.cnt.streaks c.cls gaps → v.power.mode = if 65536 < ((s.replay c.cls c.cycle (2 ^ 64)).readPoints c.cls gaps).length ∨ ∃ g, g ∈ k.gapStreaks ∧ g.1 = c.cls ∧ 3 ≤ g.2.2 then 3 else 4)) := by
  unfold State.applyCkpt at hv; dsimp only at hv
  generalize hA : s.replay c.cls c.cycle (2 ^ 64) = a at *
  have fA := hA ▸ (replay_keeps c.cls c.cycle (2 ^ 64) s).frame
  rw [← hg] at hv
  generalize hO : c.outputs.foldl _ a = o at hv
  have fO : Keeps [.cache, .mem, .pts] a o := by
    rw [← hO]; exact Keeps.foldl (Keeps.refl _) (fun u x => (upPts_keeps _ _).chain ((setImage_keeps _ _ _).mono (by decide))) _
  generalize hE : c.entries.foldl _ o = e at hv
  have fE : Keeps [.cache, .mem, .sched] o e := by
    rw [← hE]; exact Keeps.foldl (Keeps.refl _) (fun u x => (takeEntry_keeps _ _).mono (by decide)) _
  generalize hP : e.publishClass c = p at hv
  have fP := hP ▸ (publishClass_keeps c e).frame
  generalize hR : c.repairs.foldl _ p = r at hv
  have fR : Keeps [.cache, .mem] p r := by
    rw [← hR]; exact Keeps.foldl (Keeps.refl _) (fun u x => (setImage_keeps _ _ _).mono (by decide)) _
  generalize hM : r.upMem _ = m at hv
  have fM : Frame [.cache, .mem] r m := by subst hM; (intro p hp; cases p <;> first | rfl | exact (fun a _ => ⟨rfl, Iff.rfl⟩) | exact absurd (by decide) hp)
  generalize hT : m.takeTables _ c.tables = tt at hv
  have fT := hT ▸ (takeTables_keeps _ c.tables m).frame
  have tr : tt.sched.ring = c.tables.ring := by subst hT; rfl
  generalize hY : State.upCyc _ tt = y at hv
  have fY : Frame [.cyc] tt y := by subst hY; (intro p hp; cases p <;> first | rfl | exact (fun a _ => ⟨rfl, Iff.rfl⟩) | exact absurd (by decide) hp)
  generalize hN : State.upCnt _ y = n at hv
  have fN : Frame [.cnt] y n := by subst hN; (intro p hp; cases p <;> first | rfl | exact (fun a _ => ⟨rfl, Iff.rfl⟩) | exact absurd (by decide) hp)
  have nC : n.cnt.hearGaps = add32 y.cnt.hearGaps gaps.length ∧ n.cnt.repairPoints = add32 y.cnt.repairPoints c.repairs.length ∧ n.cnt.seq = c.seq ∧ n.cnt.applied = setAt y.cnt.applied c.cls (fun _ => some c.cycle) ∧
      n.cnt.gapStreaks = (y.cnt.streaks c.cls gaps).gapStreaks := by subst hN; exact ⟨rfl, rfl, rfl, rfl, rfl⟩
  generalize hQ : State.upPair _ n = q at hv
  have fQ : Frame [.pair] n q := by subst hQ; (intro p hp; cases p <;> first | rfl | exact (fun a _ => ⟨rfl, Iff.rfl⟩) | exact absurd (by decide) hp)
  have qP : q.pair.term = c.term ∧ q.pair.storedTerm = c.term := by subst hQ; exact ⟨rfl, rfl⟩
  generalize hW : State.upTime _ _ = w at hv
  have fW : Frame [.sched, .time] q w := by subst hW; (intro p hp; cases p <;> first | rfl | exact (fun a _ => ⟨rfl, Iff.rfl⟩) | exact absurd (by decide) hp)
  have wS : w.sched.nextId = c.nextId ∧ w.sched.ring = q.sched.ring ∧ w.time.primary = (c.state0, c.state1) := by subst hW; exact ⟨rfl, rfl, rfl⟩
  generalize hX : w.replay c.cls (c.cycle + 1) (2 ^ 64) = x at hv
  have fX := hX ▸ (replay_keeps c.cls (c.cycle + 1) (2 ^ 64) w).frame
  generalize hF : x.followFlip c.armedVersion c.armedCycle = ff at hv
  have fF := hF ▸ (followFlip_keeps c.armedVersion c.armedCycle x).frame
  have cs (z : Part) (h : z ∉ [.cache, .mem, .time, .pair, .cnt, .pts, .cyc, .sched, .cfg, .can]) : z.same s ff :=
    ((((((((((((fA z (by revert h; cases z <;> decide)).trans' (fO.frame z (by revert h; cases z <;> decide))).trans' (fE.frame z (by revert h; cases z <;> decide))).trans' (fP z (by revert h; cases z <;> decide))).trans'
      (fR.frame z (by revert h; cases z <;> decide))).trans' (fM z (by revert h; cases z <;> decide))).trans' (fT z (by revert h; cases z <;> decide))).trans' (fY z (by revert h; cases z <;> decide))).trans'
      (fN z (by revert h; cases z <;> decide))).trans' (fQ z (by revert h; cases z <;> decide))).trans' (fW z (by revert h; cases z <;> decide))).trans' (fX z (by revert h; cases z <;> decide))).trans' (fF z (by revert h; cases z <;> decide))
  have yc : y.cnt = s.cnt := ((((((((fA .cnt (by decide)).trans' (fO.frame .cnt (by decide))).trans' (fE.frame .cnt (by decide))).trans' (fP .cnt (by decide))).trans' (fR.frame .cnt (by decide))).trans' (fM .cnt (by decide))).trans' (fT .cnt (by decide))).trans' (fY .cnt (by decide)))
  have fcnt : ff.cnt = n.cnt := ((((fQ .cnt (by decide)).trans' (fW .cnt (by decide))).trans' (fX .cnt (by decide))).trans' (fF .cnt (by decide)))
  have fpair : ff.pair = q.pair := (((fW .pair (by decide)).trans' (fX .pair (by decide))).trans' (fF .pair (by decide)))
  have fsch : ff.sched = w.sched := ((fX .sched (by decide)).trans' (fF .sched (by decide)))
  have ftim : ff.time = w.time := ((fX .time (by decide)).trans' (fF .time (by decide)))
  have qr : q.sched.ring = c.tables.ring := by
    have : q.sched = tt.sched := (((fY .sched (by decide)).trans' (fN .sched (by decide))).trans' (fQ .sched (by decide)))
    rw [this, tr]
  have fout : ff.out = s.out := cs .out (by decide)
  have fpow : ff.power = s.power := cs .power (by decide)
  generalize hG : ff.emit (.swath (.checkpointAck c.cls c.seq gaps)) = g at hv
  have g1 : g.out = ff.out ++ [.swath (.checkpointAck c.cls c.seq gaps)] ∧ g.cnt = ff.cnt ∧ g.pair = ff.pair ∧ g.sched = ff.sched ∧ g.time = ff.time ∧ g.power = ff.power := by subst hG; exact ⟨rfl, rfl, rfl, rfl, rfl, rfl⟩
  have base : g.out = s.out ++ [.swath (.checkpointAck c.cls c.seq gaps)] ∧ g.cnt.hearGaps = add32 s.cnt.hearGaps gaps.length ∧ g.cnt.repairPoints = add32 s.cnt.repairPoints c.repairs.length ∧
    g.cnt.seq = c.seq ∧ g.pair.term = c.term ∧ g.pair.storedTerm = c.term ∧ g.sched.nextId = c.nextId ∧ g.sched.ring = c.tables.ring ∧ g.time.primary = (c.state0, c.state1) := by
    rw [g1.1, g1.2.1, g1.2.2.1, g1.2.2.2.1, g1.2.2.2.2.1, fout, fcnt, fpair, fsch, ftim, wS.2.1, qr]
    exact ⟨rfl, by rw [nC.1, yc], by rw [nC.2.1, yc], nC.2.2.1, qP.1, qP.2, wS.1, rfl, wS.2.2⟩
  have gap : (o.gapsOf c = o.gapsOf c) := rfl
  by_cases h4 : s.power.mode = 4
  · have g4 : g.power.mode = 4 := by rw [g1.2.2.2.2.2, fpow]; exact h4
    obtain ⟨r1, r2, r3, r4, r5, r6, r7, r8, r9, r10, r11, r12, r13, _⟩ := (resync_f g).2 g4
    have rf := (resync_keeps g).frame
    have rs : g.resync.sched = g.sched := rf .sched (by decide)
    have rt : g.resync.time = g.time := rf .time (by decide)
    refine ⟨?_, ?_, ?_, ?_, ?_, ?_, ?_, ?_, ?_, fun h => absurd h4 h, fun _ k hk => ?_⟩
    all_goals rw [hv]; split
    all_goals try first | exact base.1 | exact base.2.1 | exact base.2.2.1 | exact base.2.2.2.1 | exact base.2.2.2.2.1 | exact base.2.2.2.2.2.1 | exact base.2.2.2.2.2.2.1 | exact base.2.2.2.2.2.2.2.1 | exact base.2.2.2.2.2.2.2.2
    · rw [r8]; exact base.1
    · rw [r11]; exact base.2.1
    · rw [r12]; exact base.2.2.1
    · rw [r13]; exact base.2.2.2.1
    · rw [r9]; exact base.2.2.2.2.1
    · rw [r10]; exact base.2.2.2.2.2.1
    · rw [rs]; exact base.2.2.2.2.2.2.1
    · rw [rs]; exact base.2.2.2.2.2.2.2.1
    · rw [rt]; exact base.2.2.2.2.2.2.2.2
    · rename_i h
      rw [if_pos, r1]
      simp only [Bool.or_eq_true, decide_eq_true_eq, List.any_eq_true, Bool.and_eq_true, beq_iff_eq] at h
      rw [hk, ← yc, ← nC.2.2.2.2, ← fcnt, ← g1.2.1]; exact h
    · rename_i h
      rw [if_neg, g4]
      simp only [Bool.or_eq_true, decide_eq_true_eq, List.any_eq_true, Bool.and_eq_true, beq_iff_eq] at h
      rw [hk, ← yc, ← nC.2.2.2.2, ← fcnt, ← g1.2.1]; exact h
  · have g4 : g.power.mode ≠ 4 := by rw [g1.2.2.2.2.2, fpow]; exact h4
    have e : v = g := by rw [hv]; split; exact (resync_f g).1 g4; rfl
    rw [e]
    refine ⟨base.1, base.2.1, base.2.2.1, base.2.2.2.1, base.2.2.2.2.1, base.2.2.2.2.2.1, base.2.2.2.2.2.2.1, base.2.2.2.2.2.2.2.1, base.2.2.2.2.2.2.2.2, fun _ => ⟨?_, ?_⟩, fun h => absurd h h4⟩
    · rw [g1.2.2.2.2.2, fpow]
    · rw [g1.2.1, fcnt, nC.2.2.2.1, yc]
theorem mayC (s : State) : s.mayConfirm = true ↔ s.pair.ownClaim = true ∧ s.pair.confirmed = false ∧ s.pair.tied = false ∧ s.pair.twinClaim = false ∧ s.pair.ownClaimAt + usTicks 2 ≤ s.time.now := by
  unfold State.mayConfirm; simp only [Bool.and_eq_true, Bool.not_eq_true', decide_eq_true_eq, and_assoc]
theorem control0 (s w : State) (h : s.pair.claimKind = 0) (hw : w = s.control) : w.pair.owner = true ∧ w.power.mode = 6 ∧ w.sched.used = [] ∧ w.cyc.cls.length = s.cyc.cls.length ∧
    ∀ c, c ∈ w.cyc.cls → c.phase = 0 ∧ c.notBefore = s.tb0 + 100000 ∧ c.toIssue = [] ∧ c.toWrite = [] ∧ c.tasks = false := by
  unfold State.control at hw; dsimp only at hw; rw [if_pos h] at hw
  obtain ⟨o1, _, _, _, _, o6, _⟩ := own_f s _ _ rfl rfl
  rw [h, if_pos rfl] at o6
  have of := (own_keeps s).frame
  have oc : s.own.cyc = s.cyc := of .cyc (by decide)
  have ot : s.own.time = s.time := of .time (by decide)
  generalize hb : s.own.startFresh = b at hw
  have bf := hb ▸ (startFresh_keeps s.own).frame
  have bp : b.pair = s.own.pair := bf .pair (by decide)
  have bw : b.power = s.own.power := bf .power (by decide)
  have bu : b.sched.used = [] := by rw [← hb]; rfl
  have bc : b.cyc.cls = s.own.cyc.cls.map (ClassSt.fresh (s.own.tb0 + 100000)) := by
    rw [← hb]; unfold State.startFresh
    generalize hF : s.own.freshPoints = f
    have ff := hF ▸ (freshPoints_keeps s.own).frame
    have fc : f.cyc = s.own.cyc := ff .cyc (by decide)
    have ft : f.time = s.own.time := ff .time (by decide)
    generalize hM : f.upMem _ = mm
    have mc : mm.cyc = f.cyc := by rw [← hM]; rfl
    have mt : mm.time = f.time := by rw [← hM]; rfl
    show mm.cyc.cls.map (ClassSt.fresh (s.own.tb0 + 100000)) = _
    rw [mc, fc]
  have k : Keeps [.cache, .time, .log, .out, .ua] b w := by
    rw [hw]
    exact (pollHart_keeps ..).chain ((pollHart_keeps ..).chain ((select_keeps ..).chain ((select_keeps ..).mono (by decide))))
  have kp : w.pair = b.pair := k.frame .pair (by decide)
  have kw : w.power = b.power := k.frame .power (by decide)
  have ks : w.sched = b.sched := k.frame .sched (by decide)
  have ky : w.cyc = b.cyc := k.frame .cyc (by decide)
  refine ⟨by rw [kp, bp, o1], by rw [kw, bw, o6], by rw [ks, bu], by rw [ky, bc, oc, List.length_map], fun c hc => ?_⟩
  rw [ky, bc] at hc
  obtain ⟨d, _, rfl⟩ := List.mem_map.mp hc
  exact ⟨rfl, by show compactOf s.own.time.tb0.acc + 100000 = compactOf s.time.tb0.acc + 100000; rw [ot], rfl, rfl, rfl⟩
theorem settle_f (x k : Nat) (s : State) : ∃ u : ClassSt → List Nat, (s.settleHeard x k).cyc = { s.cyc with cls := setAt s.cyc.cls x fun c => { c with unsent := u c } } := by
  unfold State.settleHeard
  generalize s.conf.transOf x true = l
  suffices H : ∀ (l : List TransRec) (z : State), (∃ u : ClassSt → List Nat, z.cyc = { s.cyc with cls := setAt s.cyc.cls x fun c => { c with unsent := u c } }) →
      ∃ u : ClassSt → List Nat, (l.foldl (fun s t => let hs := (s.conf.itemsOf t).map fun p => p.handle
        if s.cyc.heardAcks.contains (x, k % 2 ^ 32, t.station) then hs.foldl (fun s h => s.ackOutput h (s.carriedValue h)) s
        else s.setCl x fun c => { c with unsent := c.unsent ++ hs }) z).cyc = { s.cyc with cls := setAt s.cyc.cls x fun c => { c with unsent := u c } } by
    refine H l s ⟨fun c => c.unsent, ?_⟩
    have : ∀ (l : List ClassSt) n, setAt l n (fun c => { c with unsent := c.unsent }) = l := by
      intro l; induction l with
      | nil => intro n; rfl
      | cons a l ih => intro n; cases n with
        | zero => rfl
        | succ n => show a :: setAt l n _ = _; rw [ih]
    rw [this]
  intro l; induction l with
  | nil => intro z h; exact h
  | cons t l ih =>
    intro z ⟨u, hu⟩
    rw [List.foldl_cons]; apply ih; dsimp only
    split
    · refine ⟨u, ?_⟩
      rw [← hu]
      exact (Keeps.foldl (Keeps.refl z) (fun w h => ackOutput_keeps h _ w) _ : Keeps [.cache, .mem] _ _).frame .cyc (by decide)
    · refine ⟨fun c => u c ++ (z.conf.itemsOf t).map fun p => p.handle, ?_⟩
      show ({ z.cyc with cls := setAt z.cyc.cls x (fun c => { c with unsent := c.unsent ++ (z.conf.itemsOf t).map fun p => p.handle }) } : CycleSt) = _
      rw [hu]; dsimp only; congr 1
      generalize s.cyc.cls = q
      have : ∀ (q : List ClassSt) n, setAt (setAt q n fun c => { c with unsent := u c }) n (fun c => { c with unsent := c.unsent ++ (z.conf.itemsOf t).map fun p => p.handle }) = setAt q n (fun c => { c with unsent := u c ++ (z.conf.itemsOf t).map fun p => p.handle }) := by
        intro q; induction q with
        | nil => intro n; rfl
        | cons a q ih => intro n; cases n with
          | zero => rfl
          | succ n => show a :: setAt _ n _ = a :: _; rw [ih]
      exact this q x
theorem resume_f (x m a : Nat) (s v : State) (hx : x < s.cyc.cls.length) (hm : m = s.tb0 / s.periodNs x) (hv : v = s.resume x) :
    (s.cnt.applied.getD x none = none → (v.cl x).cycle = m ∧ (v.cl x).t0 = m * s.periodNs x ∧ (v.cl x).phase = 0 ∧ (v.cl x).rerunTo = none) ∧
    (s.cnt.applied.getD x none = some a → (m + 2 ^ 32 - a % 2 ^ 32) % 2 ^ 32 = 0 → (v.cl x).cycle = m ∧ (v.cl x).phase = 2 ∧ (v.cl x).written = true) ∧
    (∀ d, s.cnt.applied.getD x none = some a → d = (m + 2 ^ 32 - a % 2 ^ 32) % 2 ^ 32 → d ≠ 0 → d < 2 ^ 31 → ∃ w : State, (w.cl x).rerunTo = some m ∧ w.tb0 = s.tb0 ∧ v = w.rerun x m d (m - d + 1)) := by
  unfold State.resume at hv; dsimp only at hv
  rw [← hm] at hv
  generalize hZ : s.setCl x (fun c => { (ClassSt.stop c) with unsent := [], dirty := [], consecSkips := 0, rerunTo := none, cycle := m, t0 := m * s.periodNs x }) = z at hv
  have zc : z.cl x = { (ClassSt.stop (s.cl x)) with unsent := [], dirty := [], consecSkips := 0, rerunTo := none, cycle := m, t0 := m * s.periodNs x } := by
    rw [← hZ, setCl_cl, if_pos ⟨rfl, hx⟩]
  have zl : x < z.cyc.cls.length := by rw [← hZ, setCl_len]; exact hx
  have zt : z.tb0 = s.tb0 := by rw [← hZ]; rfl
  have zn : z.cnt = s.cnt := by rw [← hZ]; rfl
  rw [zn] at hv
  refine ⟨fun h => ?_, fun h h0 => ?_, fun d h hd h0 h1 => ?_⟩
  · rw [h] at hv; dsimp only at hv; rw [hv, zc]; exact ⟨rfl, rfl, rfl, rfl⟩
  all_goals
    rw [h] at hv; dsimp only at hv
    obtain ⟨u, hu⟩ := settle_f x a z
    generalize hW : z.settleHeard x a = w at hv hu
    have wl : x < w.cyc.cls.length := by rw [hu]; show x < (setAt _ _ _).length; rw [setAt_length]; exact zl
    have wc : w.cl x = { z.cl x with unsent := u (z.cl x) } := by
      unfold State.cl; rw [hu]; exact getD_setAt_self _ _ _ _ zl
    have wt : w.time = z.time := hW ▸ (settleHeard_keeps x a z).frame .time (by decide)
  · rw [h0, if_pos (by simp)] at hv
    rw [hv, setCl_cl, if_pos ⟨rfl, wl⟩]; dsimp only; rw [wc, zc]; exact ⟨rfl, rfl, rfl⟩
  · rw [← hd, if_neg (by simp [h0]; omega)] at hv
    refine ⟨_, ?_, ?_, hv⟩
    · rw [setCl_cl, if_pos ⟨rfl, wl⟩]
    · rw [← zt]; show compactOf w.time.tb0.acc = compactOf z.time.tb0.acc; rw [wt]
theorem foldl_cls {α β : Type} (g : State → β) (f : State → α → State) (hf : ∀ z a, g (f z a) = g z) (l : List α) : ∀ z, g (l.foldl f z) = g z := by
  induction l with
  | nil => intro z; rfl
  | cons a l ih => intro z; rw [List.foldl_cons, ih, hf]
theorem shot_cls_standby (i : Nat × Nat × List Word) (s : State) : (s.shot i).cyc.cls = s.cyc.cls := by
  unfold State.shot; dsimp only
  show (s.completeItem i).cyc.cls = _; rw [show (s.completeItem i).cyc = s.cyc from (completeItem_keeps i s).frame .cyc (by decide)]
theorem shadowIn_cls_standby (e : Heard) (s : State) : (s.shadowIn e).cyc.cls = s.cyc.cls := by
  unfold State.shadowIn; dsimp only
  have k : (e.items.foldl (fun s i => s.shot i) (s.countApps (s.itemWeight e.items))).cyc.cls = s.cyc.cls :=
    (foldl_cls (fun z => z.cyc.cls) (fun s i => s.shot i) (fun z a => shot_cls_standby a z) _ _).trans rfl
  split
  · exact k
  · exact k
theorem replay_cls (x c b : Nat) (s : State) : (s.replay x c b).cyc.cls = s.cyc.cls := by
  unfold State.replay; dsimp only
  exact (foldl_cls (fun z => z.cyc.cls) (fun s e => s.shadowIn e) (fun z a => shadowIn_cls_standby a z) _ _).trans rfl
theorem begin_f (x k : Nat) (last : Bool) (s : State) (c : ClassSt) (hx : x < s.cyc.cls.length) (hc : c = (s.beginRerun x k last).cl x) :
    c.cycle = k ∧ c.t0 = k * s.periodNs x ∧ c.phase = 1 ∧ c.pubWord = (2 * k + 1) % 2 ^ 32 ∧ c.written = false ∧ c.overran = false := by
  unfold State.beginRerun at hc; dsimp only at hc
  generalize hA : s.replay x k _ = a at hc
  have al : a.cyc.cls = s.cyc.cls := by rw [← hA]; exact replay_cls ..
  generalize hB : List.foldl _ a _ = b at hc
  have bl : b.cyc = a.cyc := by
    rw [← hB]; exact (Keeps.foldl (Keeps.refl a) (fun u p => setImage_keeps _ _ _) _ : Keeps [.mem, .cache] _ _).frame .cyc (by decide)
  generalize hD : b.upCyc _ = d at hc
  have dl : d.cyc.cls = s.cyc.cls := by rw [← al, ← bl, ← hD]; rfl
  generalize hE : d.setCl x _ = e at hc
  have h := (pump_core x x e).1
  rw [← hc, ← hE, setCl_cl, if_pos ⟨rfl, by rw [dl]; exact hx⟩] at h
  have g {β : Type} (f : ClassSt → β) (hf : ∀ z, f (coreOf z) = f z) := (hf c).symm.trans ((congrArg f h).trans (hf _))
  exact ⟨g ClassSt.cycle fun _ => rfl, g ClassSt.t0 fun _ => rfl, g ClassSt.phase fun _ => rfl, g ClassSt.pubWord fun _ => rfl, g ClassSt.written fun _ => rfl, g ClassSt.overran fun _ => rfl⟩
theorem trim_f (x : Nat) (s : State) (heard inTime : Flight → Bool) (hx : x < s.cyc.cls.length) (hr : (s.cl x).rerunTo ≠ none) (hh : heard = (fun f => s.cyc.heardAcks.contains (x, f.cycle % 2 ^ 32, f.station)))
    (hi : inTime = (fun f => decide (s.tb0 + s.leadInNs f.station ≤ f.apply))) :
    ((s.trimWrites x).cl x).toWrite = (s.cl x).toWrite.filter (fun f => !heard f && inTime f) ∧
    (s.trimWrites x).cnt.missedApply = (if ∃ f, f ∈ (s.cl x).toWrite ∧ heard f = false ∧ inTime f = false then inc32 s.cnt.missedApply else s.cnt.missedApply) := by
  unfold State.trimWrites
  rw [if_neg (by cases h : (s.cl x).rerunTo <;> simp_all)]
  have hh' : ∀ f : Flight, s.cyc.heardAcks.contains (x, f.cycle % 2 ^ 32, f.station) = heard f := by subst hh; intro f; rfl
  have hi' : ∀ f : Flight, decide (s.tb0 + s.leadInNs f.station ≤ f.apply) = inTime f := by subst hi; intro f; rfl
  simp only [hh', hi']
  clear hh hi hh' hi'
  generalize hA : List.foldl _ s ((s.cl x).toWrite.filter _) = a
  have fa : Keeps [.cache, .mem] s a := by
    rw [← hA]; exact Keeps.foldl (Keeps.refl _) (fun u f => Keeps.foldl (Keeps.refl _) (fun w p => ackOutput_keeps _ _ _) _) _
  generalize hB : List.foldl _ a (List.filter _ (List.filter _ (s.cl x).toWrite)) = b
  have fb : Keeps [.cache, .mem] a b := by
    rw [← hB]; exact Keeps.foldl (Keeps.refl _) (fun u f => Keeps.foldl (Keeps.refl _) (fun w p => failOutput_keeps _ _ _) _) _
  have bc : b.cyc = s.cyc := (fb.frame .cyc (by decide)).trans (fa.frame .cyc (by decide))
  have bn : b.cnt = s.cnt := (fb.frame .cnt (by decide)).trans (fa.frame .cnt (by decide))
  constructor
  · rw [setCl_cl, if_pos ⟨rfl, by split <;> (show x < b.cyc.cls.length) <;> rw [bc] <;> exact hx⟩]
    simp only [List.filter_filter]
    apply List.filter_congr; intro f _; exact Bool.and_comm _ _
  · rw [show ∀ (z : State) f, (z.setCl x f).cnt = z.cnt from fun _ _ => rfl]
    by_cases h : ∃ f, f ∈ (s.cl x).toWrite ∧ heard f = false ∧ inTime f = false
    · rw [if_pos h, if_neg, ← bn]; rfl
      obtain ⟨f, h1, h2, h3⟩ := h
      intro k
      have := List.all_eq_true.mp k f (List.mem_filter.mpr ⟨h1, by simp [h2]⟩)
      rw [h3] at this; cases this
    · rw [if_neg h, if_pos, bn]
      rw [List.all_eq_true]; intro f hf
      obtain ⟨h1, h2⟩ := List.mem_filter.mp hf
      cases h3 : inTime f
      · exact absurd ⟨f, h1, by simpa using h2, h3⟩ h
      · rfl
theorem follow_f (version cycle : Nat) (s v : State) (hv : v = s.followFlip version cycle) : (version = 0 ∨ (¬(s.cfg.seed.present = true ∧ s.cfg.seed.cfg.version = version) ∧ ¬(s.cfg.fallow.present = true ∧ s.cfg.fallow.cfg.version = version)) → v.cfg.armed = none) ∧
    (version ≠ 0 → s.cfg.seed.present = true → s.cfg.seed.cfg.version = version → ∃ f, v.cfg.armed = some f ∧ ∀ n, n = s.tb0 / s.periodNs 3 → f.tb = (n + (cycle + 2 ^ 32 - n % 2 ^ 32) % 2 ^ 32) * s.periodNs 3) := by
  unfold State.followFlip at hv; dsimp only at hv
  constructor
  · intro h
    rw [if_pos (by
      rcases h with h | ⟨h1, h2⟩
      · simp [h]
      · simp only [Bool.or_eq_true, decide_eq_true_eq, Bool.not_eq_true', Bool.or_eq_false_iff]
        exact .inr ⟨by rw [← Bool.not_eq_true, Bool.and_eq_true, beq_iff_eq]; exact h1, by rw [← Bool.not_eq_true, Bool.and_eq_true, beq_iff_eq]; exact h2⟩)] at hv
    rw [hv]; rfl
  · intro h0 h1 h2
    rw [if_neg (by simp [h0, h1, h2])] at hv
    generalize hF : (s.tb0 / s.periodNs 3 + (cycle + 2 ^ 32 - s.tb0 / s.periodNs 3 % 2 ^ 32) % 2 ^ 32) = full at hv
    cases ha : s.cfg.armed with
    | none =>
      rw [ha] at hv; dsimp only at hv; rw [if_neg (by simp)] at hv
      rw [hv]; exact ⟨_, rfl, fun n hn => by rw [hn, hF]⟩
    | some f =>
      rw [ha] at hv; dsimp only at hv
      split at hv
      · rename_i h; rw [hv]; exact ⟨f, ha, fun n hn => by rw [hn, hF]; simpa using h⟩
      · rw [hv]; exact ⟨_, rfl, fun n hn => by rw [hn, hF]⟩

end Sys2Proof.Machine
end

