-- ==== Sys2Proof/Laws/OpTimed.lean ====
section
/-! SUPPORT. What the operations of one chapter do: timed actions. -/

set_option Elab.async false
set_option linter.all false

set_option linter.all false

namespace Sys2Proof.Machine

theorem slice_append (a b : List Byte) (o n : Nat) (h : a.length = o) : slice (a ++ b) o n = b.take n := by
  unfold slice; rw [List.drop_left' h]
theorem leBytes_len (n x : Nat) : (leBytes n x).length = n := leBytes_length n x
theorem take_le (n x : Nat) (b : List Byte) : (leBytes n x ++ b).take n = leBytes n x := List.take_left' (leBytes_length n x)
theorem entry_trip (e : Entry) (h1 : e.id < 2 ^ 32) (h2 : e.handle < 2 ^ 24) (h3 : e.state < 256) (h4 : e.term < 2 ^ 32) (h5 : e.apply < 2 ^ 64) (h6 : e.dispatch < 1024) (h7 : e.cls < 4) (h8 : e.cycle < 2 ^ 30) :
    (entryBytes e).length = 32 ∧ parseEntry (entryBytes e) = e := by
  have hv := e.value.isLt
  have len : (entryBytes e).length = 32 := by unfold entryBytes; simp only [List.length_append, leBytes_len]
  refine ⟨len, ?_⟩
  have two (x : Nat) (b : List Byte) : (leBytes 2 x ++ b).take 1 = leBytes 1 x := rfl
  have f1 : field (entryBytes e) 0 4 = e.id % 256 ^ 4 := by
    rw [← leNat_leBytes]; unfold field entryBytes; congr 1
  have f2 : field (entryBytes e) 4 3 = e.handle % 256 ^ 3 := by
    rw [← leNat_leBytes]; unfold field entryBytes; congr 1
  have f3 : field (entryBytes e) 7 1 = e.state % 256 ^ 1 := by
    rw [← leNat_leBytes]; unfold field entryBytes; congr 1
  have f4 : field (entryBytes e) 8 4 = e.value.toNat % 256 ^ 4 := by
    rw [← leNat_leBytes]; unfold field entryBytes; congr 1
  have f5 : field (entryBytes e) 12 4 = e.term % 256 ^ 4 := by
    rw [← leNat_leBytes]; unfold field entryBytes; congr 1
  have f6 : field (entryBytes e) 16 8 = e.apply % 256 ^ 8 := by
    rw [← leNat_leBytes]; unfold field entryBytes; congr 1
  have f7 : field (entryBytes e) 24 1 = (b2n e.retried * 4 + b2n e.cancelReq * 2 + b2n e.asap) % 256 ^ 1 := by
    rw [← leNat_leBytes]; unfold field entryBytes; congr 1
  have f8 : field (entryBytes e) 26 2 = (e.dispatch % 1024) % 256 ^ 2 := by
    rw [← leNat_leBytes]; unfold field entryBytes; congr 1
  have f9 : field (entryBytes e) 28 4 = (e.cls % 4 * 2 ^ 30 + e.cycle % 2 ^ 30) % 256 ^ 4 := by
    rw [← leNat_leBytes]; unfold field entryBytes; congr 1
  unfold parseEntry
  rw [f1, f2, f3, f4, f5, f6, f7, f8, f9]
  clear f1 f2 f3 f4 f5 f6 f7 f8 f9 len two
  obtain ⟨id, handle, state, value, term, apply, retried, cancelReq, asap, dispatch, cls, cycle⟩ := e
  dsimp only at *
  congr 1
  · exact Nat.mod_eq_of_lt h1
  · exact Nat.mod_eq_of_lt h2
  · exact Nat.mod_eq_of_lt h3
  · rw [Nat.mod_eq_of_lt (show value.toNat < 256 ^ 4 from hv)]; simp
  · exact Nat.mod_eq_of_lt h4
  · exact Nat.mod_eq_of_lt h5
  · cases retried <;> cases cancelReq <;> cases asap <;> rfl
  · cases retried <;> cases cancelReq <;> cases asap <;> rfl
  · cases retried <;> cases cancelReq <;> cases asap <;> rfl
  · unfold bits; omega
  · unfold bits; omega
  · unfold bits; omega
theorem put_f_timed (s : State) (h : Nat) (x : Word) (apply : Nat) (asap : Bool) (built : Nat) (hb : built = (s.cyc.cls.getD (ruleClass (s.ruleOf h)) ClassSt.reset).heldApply) :
    (s.timedPoint h = false → s.putRefusal h x apply asap = some 0x010B) ∧
    (s.timedPoint h = true → s.conf.outRaw (s.ruleOf h) x = none → s.putRefusal h x apply asap = some 0x010B) ∧
    (s.timedPoint h = true → s.conf.outRaw (s.ruleOf h) x ≠ none → (s.tb0 + 3600000000000 < apply → s.putRefusal h x apply asap = some 0x010B) ∧
      (apply ≤ s.tb0 + 3600000000000 → (apply ≤ built → s.putRefusal h x apply asap = some 0x010E) ∧
        (built < apply → (apply < s.tb0 + 1000 * s.leadUs → asap = false → s.putRefusal h x apply asap = some 0x010E) ∧
          (s.tb0 + 1000 * s.leadUs ≤ apply ∨ asap = true → s.putRefusal h x apply asap = if 65536 ≤ s.sched.used.length then some 0x0107 else none)))) := by
  unfold State.putRefusal
  rw [← hb]
  refine ⟨fun a => ?_, fun a c => ?_, fun a c => ⟨fun d => ?_, fun d => ⟨fun e => ?_, fun e => ⟨fun f g => ?_, fun f => ?_⟩⟩⟩⟩
  · rw [if_pos (by rw [a]; rfl)]; rfl
  · rw [if_neg (by rw [a]; simp), if_pos (by rw [c]; rfl)]; rfl
  all_goals rw [if_neg (by rw [a]; simp), if_neg (by rw [Option.isNone_iff_eq_none]; exact c)]
  · rw [if_pos d]; rfl
  all_goals rw [if_neg (by omega)]
  · rw [if_pos e]; rfl
  all_goals rw [if_neg (by omega)]
  · rw [if_pos (by simp [f, g])]; rfl
  · rw [if_neg (by rcases f with f | f <;> simp [f])]; rfl
theorem firstFree_out : ∀ (l : List Nat) (b : Nat), l.Pairwise (· < ·) → firstFree b l ∉ l ∧ ((∀ m, m ∈ l → b ≤ m) → b ≤ firstFree b l) := by
  intro l; induction l with
  | nil => intro b _; exact ⟨by simp, fun _ => Nat.le_refl b⟩
  | cons m ms ih =>
    intro b h
    obtain ⟨h1, h2⟩ := List.pairwise_cons.mp h
    obtain ⟨i, j⟩ := ih (m + 1) h2
    have j := j fun x hx => h1 x hx
    unfold firstFree; split
    · rename_i k
      refine ⟨fun hm => ?_, fun _ => Nat.le_refl b⟩
      rcases List.mem_cons.mp hm with e | e
      · omega
      · have := h1 _ e; omega
    · refine ⟨fun hm => ?_, fun h => ?_⟩
      · rcases List.mem_cons.mp hm with e | e
        · omega
        · exact i e
      · have := h m (by simp); omega
/-- Ids that may not be handed out. -/
def heldId (s : State) (id : Nat) : Prop := id = 0 ∨ s.findEntry id ≠ none
theorem field_lt (b : List Byte) (o n : Nat) : field b o n < 256 ^ n := by
  unfold field slice
  have : ∀ (l : List Byte), leNat l < 256 ^ l.length := by
    intro l; induction l with
    | nil => simp [leNat]
    | cons a l ih => have := a.isLt; rw [leNat, List.length_cons, pow_succ]; omega
  exact Nat.lt_of_lt_of_le (this _) (Nat.pow_le_pow_right (by omega) (by simp))
theorem alloc_first (s : State) : ∀ fuel id, (∃ j, j < fuel ∧ ¬ heldId s (if j = 0 then id else (id + j) % 2 ^ 32)) → ¬ heldId s (s.allocId fuel id) := by
  intro fuel; induction fuel with
  | zero => rintro id ⟨j, h, _⟩; omega
  | succ n ih =>
    rintro id ⟨j, hj, h⟩
    unfold State.allocId
    split
    · rename_i k
      have k' : heldId s id := by
        simp only [Bool.or_eq_true, decide_eq_true_eq] at k
        exact k.imp (fun h => h) fun h => Option.isSome_iff_ne_none.mp h
      cases j with
      | zero => exact absurd k' h
      | succ j =>
        refine ih _ ⟨j, by omega, ?_⟩
        rw [if_neg (by omega)] at h
        split
        · rename_i z; subst z; simpa using h
        · rw [show ((id + 1) % 2 ^ 32 + j) % 2 ^ 32 = (id + (j + 1)) % 2 ^ 32 by omega]; exact h
    · rename_i k
      intro hh; apply k
      simp only [Bool.or_eq_true, decide_eq_true_eq]
      exact hh.imp (fun h => h) fun h => Option.isSome_iff_ne_none.mpr h
theorem alloc_free (s : State) (id : Nat) (hl : s.sched.used.length < 65536) : ¬ heldId s (s.allocId (s.sched.used.length + 2) id) := by
  apply alloc_first
  by_contra hc'
  have hc : ∀ j, j < s.sched.used.length + 2 → heldId s (if j = 0 then id else (id + j) % 2 ^ 32) := fun j hj => by_contra fun h => hc' ⟨j, hj, h⟩
  have h0 := hc 0 (by omega); rw [if_pos rfl] at h0
  have id_of : ∀ i, heldId s i → i = 0 ∨ i ∈ (s.sched.used.map fun n => (s.entry n).id) := by
    intro i hi
    rcases hi with hi | hi
    · exact .inl hi
    · right
      cases hf : s.findEntry i with
      | none => exact absurd hf hi
      | some n =>
        unfold State.findEntry at hf
        have m := List.mem_of_find?_eq_some hf
        have e := List.find?_some hf
        exact List.mem_map.mpr ⟨n, m, by simpa using e⟩
  have hlt : id < 2 ^ 32 := by
    rcases id_of _ h0 with h | h
    · omega
    · obtain ⟨n, _, rfl⟩ := List.mem_map.mp h
      exact field_lt _ 0 4
  let T : Finset Nat := insert 0 (s.sched.used.map fun n => (s.entry n).id).toFinset
  have hT : T.card ≤ s.sched.used.length + 1 := by
    refine (Finset.card_insert_le _ _).trans ?_
    have := List.toFinset_card_le (s.sched.used.map fun n => (s.entry n).id)
    rw [List.length_map] at this; omega
  have hm : ∀ j ∈ Finset.range (s.sched.used.length + 2), (id + j) % 2 ^ 32 ∈ T := by
    intro j hj
    have hj := Finset.mem_range.mp hj
    have a := hc j hj
    have : (if j = 0 then id else (id + j) % 2 ^ 32) = (id + j) % 2 ^ 32 := by
      split
      · rename_i z; subst z; omega
      · rfl
    rw [this] at a
    rcases id_of _ a with h | h
    · rw [h]; exact Finset.mem_insert_self _ _
    · exact Finset.mem_insert_of_mem (List.mem_toFinset.mpr h)
  have := Finset.card_le_card_of_injOn (fun j => (id + j) % 2 ^ 32) hm (by
    intro a ha b hb hab
    have ha := Finset.mem_range.mp (Finset.mem_coe.mp ha); have hb := Finset.mem_range.mp (Finset.mem_coe.mp hb)
    dsimp only at hab; omega)
  rw [Finset.card_range] at this; omega
theorem rec_like (h : Nat) (s t : State) (hh : h < 0x600000) (k : Mem.sameAt (fun a => !inCache a) s.mem t.mem) : t.image h = s.image h ∧ t.img h = s.img h := by
  have rd : ∀ a, a < 0x06000000 → memReadN t.mem a 8 = memReadN s.mem a 8 ∨ True := fun _ _ => .inr trivial
  have r : ∀ b n, b + n ≤ 0x06000000 → memReadN t.mem b n = memReadN s.mem b n := by
    intro b n hb; unfold memReadN memReadBytes; congr 1; apply List.map_congr_left
    intro i hi
    simp only [List.mem_range] at hi
    exact (k _ (by unfold inCache; simp; omega)).1
  have e : t.image h = s.image h := by
    unfold State.image State.ruleOf; rw [r (ruleAddr h) 8 (by unfold ruleAddr; omega), r (imageAddr h) 8 (by unfold imageAddr; omega)]
  exact ⟨e, by unfold State.img; rw [e]⟩
theorem queue_like (h n : Nat) (bs : List Byte) (s t : State) (hh : h < 0x600000) (k : t.mem = memStore bs (entryAddr n) s.mem) : t.image h = s.image h ∧ t.img h = s.img h := by
  have r : ∀ b n, b + n ≤ 0x06000000 → memReadN t.mem b n = memReadN s.mem b n := by
    intro b n hb; unfold memReadN memReadBytes; congr 1; apply List.map_congr_left
    intro i hi
    simp only [List.mem_range] at hi
    rw [k]; exact memRead_store_out _ _ _ _ (by unfold entryAddr queueBase; omega)
  have e : t.image h = s.image h := by
    unfold State.image State.ruleOf; rw [r (ruleAddr h) 8 (by unfold ruleAddr; omega), r (imageAddr h) 8 (by unfold imageAddr; omega)]
  exact ⟨e, by unfold State.img; rw [e]⟩
/-- What a settled entry leaves. -/
theorem settle_f_timed (n o stamp : Nat) (s v : State) (k : Nat) (h1 : o ≠ 5 → k = o) (h2 : o = 5 → k = match s.sched.causes.find? (fun c => c.1 == (s.entry n).id) with | some c => c.2 | none => 5) (hv : v = s.settle n o stamp) :
    v.sched.used = s.sched.used.filter (· != n) ∧ v.sched.freed = s.sched.freed ++ [(s.entry n).id] ∧ v.sched.outcomes = setAt s.sched.outcomes k inc32 ∧
    v.sched.ring = (if 8192 ≤ s.sched.ring.length then s.sched.ring.drop 1 else s.sched.ring) ++ [((s.entry n).id, k, stamp)] ∧ v.sched.stations = s.sched.stations ∧ v.sched.frames = s.sched.frames ∧
    (k ≠ 8 → v.out = s.out ∧ v.fsp = s.fsp) ∧ v.sched.tooLate = s.sched.tooLate ∧
    (∀ h, h = (s.entry n).handle → h < 0x600000 → (∀ k, k ≠ h → k < 0x600000 → v.image k = s.image k) ∧ (Memory.wf s.mem = true → (v.img h).value = (s.img h).value ∧ (v.img h).quality = (s.img h).quality)) := by
  unfold State.settle at hv; dsimp only at hv
  generalize hK : (if o = 5 then _ else o) = k' at hv
  have hk : k' = k := by
    rw [← hK]; split
    · rename_i h; exact (h2 h).symm
    · rename_i h; exact (h1 h).symm
  subst hk
  generalize hF : s.freeEntry n = f at hv
  have fs : f.sched.used = s.sched.used.filter (· != n) ∧ f.sched.freed = s.sched.freed ++ [(s.entry n).id] ∧ f.sched.outcomes = s.sched.outcomes ∧ f.sched.ring = s.sched.ring ∧ f.sched.stations = s.sched.stations ∧ f.sched.frames = s.sched.frames ∧ f.sched.tooLate = s.sched.tooLate := by
    rw [← hF]; unfold State.freeEntry; dsimp only
    generalize hQ : State.upSched _ _ = q
    rw [show (State.showTimed (s.entry n).handle q).sched = q.sched from (showTimed_keeps _ q).frame .sched (by decide), ← hQ]
    exact ⟨rfl, rfl, rfl, rfl, rfl, rfl, rfl⟩
  have ff := hF ▸ (freeEntry_keeps n s).frame
  generalize hG : f.outcome (s.entry n).id k' stamp = g at hv
  have gs : g.sched = { f.sched with outcomes := setAt f.sched.outcomes k' inc32, ring := (if 8192 ≤ f.sched.ring.length then f.sched.ring.drop 1 else f.sched.ring) ++ [((s.entry n).id, k', stamp)] } := by rw [← hG]; rfl
  have gf := hG ▸ (outcome_keeps (s.entry n).id k' stamp f).frame
  have kv : v.sched = g.sched ∧ (k' ≠ 8 → v.out = g.out ∧ v.fsp = g.fsp) ∧ Mem.sameAt (fun a => !inCache a) g.mem v.mem := by
    rw [hv]; split
    · rename_i c
      simp only [Bool.and_eq_true, decide_eq_true_eq] at c
      have := (sendDiag_keeps (s.stationOf (s.entry n)) 1 none (some (s.entry n).id) g).frame
      exact ⟨this .sched (by decide), fun h => absurd c.1 h, this .mem (by decide)⟩
    · have := (recordOutcome_keeps k' [(4, (s.entry n).id), (1, k'), (8, stamp)] g).frame
      exact ⟨this .sched (by decide), fun _ => ⟨this .out (by decide), this .fsp (by decide)⟩, this .mem (by decide)⟩
  rw [kv.1, gs]
  refine ⟨fs.1, fs.2.1, ?_, ?_, fs.2.2.2.2.1, fs.2.2.2.2.2.1, fun h => ⟨?_, ?_⟩, fs.2.2.2.2.2.2, ?_⟩
  · dsimp only; rw [fs.2.2.1]
  · dsimp only; rw [fs.2.2.2.1]
  · rw [(kv.2.1 h).1]; exact (gf .out (by decide)).trans (ff .out (by decide))
  · rw [(kv.2.1 h).2]; exact (gf .fsp (by decide)).trans (ff .fsp (by decide))
  · intro h hh hl
    have gm : g.mem = f.mem := by rw [← hG]; rfl
    have vi : ∀ j, j < 0x600000 → v.image j = f.image j ∧ v.img j = f.img j := by
      intro j hj
      have a := rec_like j g v hj kv.2.2
      have b : g.image j = f.image j := by unfold State.image State.ruleOf; rw [gm]
      exact ⟨a.1.trans b, a.2.trans (by unfold State.img; rw [b])⟩
    unfold State.freeEntry at hF; dsimp only at hF; rw [← hh] at hF
    generalize hQ : State.upSched _ _ = q at hF
    have qm : q.mem = memStore (zeroBytes 32) (entryAddr n) s.mem := by rw [← hQ]; rfl
    have qi : ∀ j, j < 0x600000 → q.image j = s.image j ∧ q.img j = s.img j := fun j hj => queue_like j n _ s q hj qm
    refine ⟨fun j hj jl => ?_, fun w => ?_⟩
    · rw [(vi j jl).1, ← hF]; unfold State.showTimed State.upImg
      rw [image_setImage_ne h j _ q hl hj, (qi j jl).1]
    · rw [(vi h hl).2, ← (qi h hl).2, ← hF]
      unfold State.showTimed
      by_cases hk : ruleKind (q.ruleOf h) = 0
      · have e : ∀ z : State, z.ruleOf h = q.ruleOf h → z.image h = unusedEntry := by
          intro z hz; unfold State.image; rw [hz]
          rw [kind_div] at hk
          exact if_pos hk
        have e2 : (q.upImg h fun g => { g with timed := q.timedNow h }).image h = q.image h := by
          rw [e q rfl]; exact e _ (ruleOf_setImage h h _ q hl)
        have e3 : (q.upImg h fun g => { g with timed := q.timedNow h }).img h = q.img h := by unfold State.img; rw [e2]
        rw [e3]; exact ⟨rfl, rfl⟩
      · rw [upImg_self h _ q (by rw [qm]; exact memStore_wf _ _ w) (by omega) hk (img_bounds q h).1 (img_bounds q h).2]
        exact ⟨rfl, rfl⟩
theorem insertDue_perm (s : State) (n : Nat) : ∀ l, (s.insertDue n l).Perm (n :: l) := by
  intro l; induction l with
  | nil => exact List.Perm.refl _
  | cons m ms ih =>
    unfold State.insertDue; split
    · exact List.Perm.refl _
    · exact (ih.cons m).trans (List.Perm.swap n m ms)
theorem due_perm (s : State) (l : List Nat) : ∀ z, (l.foldl (fun l n => s.insertDue n l) z).Perm (l ++ z) := by
  induction l with
  | nil => intro z; exact List.Perm.refl _
  | cons a l ih =>
    intro z; rw [List.foldl_cons]
    refine (ih _).trans ?_
    refine ((insertDue_perm s a z).append_left l).trans ?_
    exact (List.perm_middle (l₁ := l))
theorem insertDue_sorted (s : State) (n : Nat) : ∀ l, l.Pairwise (fun a b => (s.entry a).apply ≤ (s.entry b).apply) → (s.insertDue n l).Pairwise (fun a b => (s.entry a).apply ≤ (s.entry b).apply) := by
  intro l; induction l with
  | nil => intro _; exact List.pairwise_singleton _ _
  | cons m ms ih =>
    intro h
    obtain ⟨h1, h2⟩ := List.pairwise_cons.mp h
    unfold State.insertDue; split
    · rename_i c
      have hle : (s.entry n).apply ≤ (s.entry m).apply := by
        unfold Entry.before at c; simp only [Bool.or_eq_true, Bool.and_eq_true, decide_eq_true_eq, beq_iff_eq] at c
        rcases c with c | c
        · omega
        · omega
      refine List.pairwise_cons.mpr ⟨fun x hx => ?_, h⟩
      rcases List.mem_cons.mp hx with e | e
      · rw [e]; exact hle
      · exact hle.trans (h1 x e)
    · rename_i c
      refine List.pairwise_cons.mpr ⟨fun x hx => ?_, ih h2⟩
      rcases List.mem_cons.mp ((insertDue_perm s n ms).mem_iff.mp hx) with e | e
      · rw [e]
        unfold Entry.before at c; simp only [Bool.or_eq_true, Bool.and_eq_true, decide_eq_true_eq, beq_iff_eq, not_or] at c
        omega
      · exact h1 x e
theorem due_sorted (s : State) (l : List Nat) : ∀ z, z.Pairwise (fun a b => (s.entry a).apply ≤ (s.entry b).apply) → (l.foldl (fun l n => s.insertDue n l) z).Pairwise (fun a b => (s.entry a).apply ≤ (s.entry b).apply) := by
  induction l with
  | nil => intro z h; exact h
  | cons a l ih => intro z h; rw [List.foldl_cons]; exact ih _ (insertDue_sorted s a z h)
theorem sendSched_f (a : Nat) (ids : List Nat) (c : Bool) (p : List Byte) (l : Option Nat) (s v : State) (hv : v = s.sendSched a ids c p l) :
    (∃ f : SchedFrame, v.sched.frames = s.sched.frames ++ [f] ∧ f.station = a ∧ f.ids = ids ∧ f.cancel = c ∧ f.term = s.pair.term ∧ f.payload = p ∧ f.number = (s.schedStation a).nextNo) ∧ v.sched.used = s.sched.used ∧ v.mem = s.mem ∧ v.pair = s.pair := by
  unfold State.sendSched at hv; dsimp only at hv
  generalize hZ : State.upSched _ _ = z at hv
  have k := hv ▸ (toStation_keeps a _ z).frame
  have vs : v.sched = z.sched := k .sched (by decide)
  have vp : v.pair = z.pair := k .pair (by decide)
  have vm : v.mem = z.mem := by
    rw [hv]; unfold State.toStation; split
    · unfold State.sendFrame State.sendPair; dsimp only; repeat' first | rfl | split
    · rfl
  rw [vs, vp, vm, ← hZ]
  exact ⟨⟨_, rfl, rfl, rfl, rfl, rfl, rfl, rfl⟩, rfl, rfl, rfl⟩
theorem fold_setEntry (g : State → Nat → Entry) (l : List Nat) : ∀ z : State, Keeps [.cache, .mem, .sched] z (l.foldl (fun s n => s.setEntry n (g s n)) z) ∧ (l.foldl (fun s n => s.setEntry n (g s n)) z).sched.frames = z.sched.frames ∧ (l.foldl (fun s n => s.setEntry n (g s n)) z).sched.used = z.sched.used := by
  induction l with
  | nil => intro z; exact ⟨Keeps.refl _, rfl, rfl⟩
  | cons a l ih => intro z; rw [List.foldl_cons]; exact ⟨(ih _).1.chain (setEntry_keeps _ _ _), (ih _).2⟩
theorem sendEntries_f (a : Nat) (re : Bool) : ∀ (k : Nat) (ns : List Nat) (s : State) (f : SchedFrame), f ∈ (s.sendEntries a re k ns).sched.frames → f ∈ s.sched.frames ∨ (f.station = a ∧ f.term = s.pair.term ∧ f.ids.length ≤ 73 ∧ f.cancel = false) := by
  intro k; induction k with
  | zero => intro ns s f h; exact .inl h
  | succ k ih =>
    intro ns s f h
    unfold State.sendEntries at h
    split at h
    · exact .inl h
    · dsimp only at h
      generalize hZ : List.foldl _ s (List.take 73 ns) = z at h
      obtain ⟨zk, zf, zu⟩ := fold_setEntry (fun s' n => { s'.entry n with state := 2, term := s'.pair.term, dispatch := (s.schedStation a).nextNo, retried := false }) (ns.take 73) s
      rw [hZ] at zk zf zu
      generalize hW : z.sendSched a _ false _ _ = w at h
      obtain ⟨⟨g, g1, g2, g3, g4, g5, g6, g7⟩, wu, wm, wp⟩ := sendSched_f _ _ _ _ _ _ _ hW.symm
      have zp : z.pair = s.pair := zk.frame .pair (by decide)
      rcases ih _ _ _ h with h | h
      · rw [g1, zf] at h
        rcases List.mem_append.mp h with h | h
        · exact .inl h
        · rw [List.mem_singleton] at h; subst h
          refine .inr ⟨g2, by rw [g5, zp], ?_, g4⟩
          rw [g3, List.length_map, List.length_map, List.length_take]; omega
      · rw [wp, zp] at h; exact .inr h
theorem ret_out (st : Nat) (vs : List Nat) (s : State) : (s.ret st vs).out = s.out ++ [.call st vs] := rfl
theorem sendPair_out (r m : Nat) (f : OutFrame) (s : State) : ∃ l, (s.sendPair r m f).out = s.out ++ l := by
  unfold State.sendPair; dsimp only
  split
  · exact ⟨[], (List.append_nil _).symm⟩
  · split
    · exact ⟨_, rfl⟩
    · exact ⟨_, rfl⟩
theorem sendSched_out (a : Nat) (ids : List Nat) (c : Bool) (p : List Byte) (l : Option Nat) (s : State) : ∃ q, (s.sendSched a ids c p l).out = s.out ++ q := by
  unfold State.sendSched; dsimp only
  generalize hZ : State.upSched _ _ = z
  have zo : z.out = s.out := by rw [← hZ]; rfl
  rw [← zo]; unfold State.toStation; split
  · unfold State.sendFrame
    obtain ⟨q1, h1⟩ := sendPair_out 0 _ _ z
    obtain ⟨q2, h2⟩ := sendPair_out 1 _ _ _
    exact ⟨q1 ++ q2, by rw [h2, h1, List.append_assoc]⟩
  · exact ⟨[], (List.append_nil _).symm⟩
theorem cancel_f :
  (∀ (t id : Nat) (s : State), (s.arrive t).pair.owner = true →
    ((s.arrive t).findEntry id = none → exec (.schedCancel t id) s = .next ((s.arrive t).ret 0x0103 []) ∧
      ((∀ r, r ∈ (s.arrive t).sched.ring → r.1 ≠ id) → exec (.schedStatus t id) s = .next ((s.arrive t).ret 0x0103 [])) ∧
      (∀ r, (s.arrive t).sched.ring.reverse.find? (fun r => r.1 == id) = some r → exec (.schedStatus t id) s = .next ((s.arrive t).ret 0 [r.1, r.2.1, r.2.2]))) ∧
    (∀ n e, (s.arrive t).findEntry id = some n → e = (s.arrive t).entry n → exec (.schedStatus t id) s = .next ((s.arrive t).ret 0 [e.state]) ∧
      (e.state = 1 → Does (.schedCancel t id) t s [.cache, .mem, .out, .fsp, .sched, .log] fun u v => v.out = u.out ++ [.call 0 []] ∧ v.sched.used = u.sched.used.filter (· != n) ∧ v.sched.outcomes = setAt u.sched.outcomes 5 inc32) ∧
      (e.state = 4 → Does (.schedCancel t id) t s [.out, .sched] fun u v => v.out = u.out ++ [.call 0x0101 []] ∧ v.sched.used = u.sched.used ∧ v.sched.frames = u.sched.frames) ∧
      (e.state ≠ 1 → e.state ≠ 4 → (s.arrive t).lastDispatch e < (s.arrive t).tb0 → Does (.schedCancel t id) t s [.out, .sched] fun u v => v.out = u.out ++ [.call 0x010E []] ∧
        v.sched.used = u.sched.used ∧ v.sched.frames = u.sched.frames ∧ v.sched.tooLate = inc32 u.sched.tooLate) ∧
      (e.state ≠ 1 → e.state ≠ 4 → (s.arrive t).tb0 ≤ (s.arrive t).lastDispatch e → Does (.schedCancel t id) t s [.cache, .mem, .out, .fsp, .sched] fun u v => (∃ l, v.out = u.out ++ l ++ [.call 1 []]) ∧
        v.sched.used = u.sched.used ∧ ∃ f, v.sched.frames = u.sched.frames ++ [f] ∧ f.station = u.stationOf e ∧ f.ids = [e.id] ∧ f.cancel = true ∧ f.term = u.pair.term ∧ f.payload = u.schedItem e true false ∧
          ∃ w : State, w.mem = u.mem ∧ v.mem = (w.setEntry n { e with state := 4, cancelReq := true, dispatch := f.number }).mem))) := by
  intro t id s ho
  have ec : exec (.schedCancel t id) s = .next ((s.arrive t).schedCancel id) := by (rw [exec_schedCancel]; unfold execSchedCancel; rw [happens_of (by exact ho)])
  have es : exec (.schedStatus t id) s = .next ((s.arrive t).schedStatus id) := by (rw [exec_schedStatus]; unfold execSchedStatus; rw [happens_of (by exact ho)])
  have kc := (execSchedCancel_keeps t id s (by rw [← exec_schedCancel]; exact ec))
  unfold Does
  generalize s.arrive t = u at *
  refine ⟨fun hn => ⟨?_, fun hr => ?_, fun r hr => ?_⟩, fun n e hf he => ⟨?_, fun h1 => ?_, fun h4 => ?_, fun h1 h4 hl => ?_, fun h1 h4 hl => ?_⟩⟩
  · rw [ec]; unfold State.schedCancel; rw [hn]; rfl
  · rw [es]; unfold State.schedStatus; rw [hn]; dsimp only
    rw [List.find?_eq_none.mpr (fun r h => by simpa using hr r (List.mem_reverse.mp h))]; rfl
  · rw [es]; unfold State.schedStatus; rw [hn]; dsimp only; rw [hr]; rfl
  · rw [es]; unfold State.schedStatus; rw [hf, he]; rfl
  all_goals
    unfold State.schedCancel at ec kc; rw [hf] at ec kc; dsimp only at ec kc
    unfold State.cancelEntry at ec kc; dsimp only at ec kc
    rw [← he] at ec kc
  · rw [if_pos h1] at ec kc; dsimp only at ec kc; rw [if_neg (by decide)] at ec kc
    refine ⟨_, ec, kc.frame, ?_⟩
    obtain ⟨a, b, c, d, f, g, g', g'', i⟩ := settle_f_timed n 5 0 (u.upSched fun q => { q with causes := (e.id, 5) :: q.causes.filter fun c => c.1 != e.id }) _ 5 (fun h => absurd rfl h) (fun _ => by
      rw [show (u.upSched fun q => { q with causes := (e.id, 5) :: q.causes.filter fun c => c.1 != e.id }).entry n = e from he.symm]
      show 5 = match List.find? _ ((e.id, 5) :: u.sched.causes.filter _) with | some c => c.2 | none => 5
      rw [List.find?_cons_of_pos (by simp)]) rfl
    refine ⟨?_, a, c⟩
    rw [ret_out, (g' (by decide)).1]; rfl
  · rw [if_neg (by rw [h4]; decide), if_pos h4] at ec; dsimp only at ec; rw [if_neg (by decide)] at ec
    exact ⟨_, ec, ((emit_keeps _ _).chain ((upSched_keeps _ _).mono (by decide)) (by decide) : Keeps [.out, .sched] _ _).frame, rfl, rfl, rfl⟩
  · rw [if_neg h1, if_neg h4] at ec
    rw [show ∀ (z : State) f, (z.upSched f).lastDispatch e = z.lastDispatch e from fun _ _ => rfl, show ∀ (z : State) f, (z.upSched f).tb0 = z.tb0 from fun _ _ => rfl, if_pos hl] at ec
    dsimp only at ec; rw [if_pos rfl] at ec
    exact ⟨_, ec, ((emit_keeps _ _).chain ((upSched_keeps _ _).chain ((upSched_keeps _ _).chain ((upSched_keeps _ _).mono (by decide)))) (by decide) : Keeps [.out, .sched] _ _).frame, rfl, rfl, rfl, rfl⟩
  · rw [if_neg h1, if_neg h4] at ec
    rw [show ∀ (z : State) f, (z.upSched f).lastDispatch e = z.lastDispatch e from fun _ _ => rfl, show ∀ (z : State) f, (z.upSched f).tb0 = z.tb0 from fun _ _ => rfl, if_neg (by omega)] at ec
    dsimp only at ec; rw [if_neg (by decide)] at ec
    generalize hW : u.upSched _ = w at ec
    have ws : w.sched.used = u.sched.used ∧ w.sched.frames = u.sched.frames ∧ w.sched.stations = u.sched.stations ∧ w.mem = u.mem ∧ w.pair = u.pair ∧ w.out = u.out ∧ w.stationOf e = u.stationOf e ∧ w.schedItem e true false = u.schedItem e true false := by
      rw [← hW]; exact ⟨rfl, rfl, rfl, rfl, rfl, rfl, rfl, rfl⟩
    have wk : Keeps [.sched] u w := by rw [← hW]; exact upSched_keeps _ _
    generalize hno : (w.schedStation (w.stationOf e)).nextNo = no at ec
    generalize hY : w.setEntry n _ = y at ec
    have yk : Keeps [.cache, .mem, .sched] w y := by rw [← hY]; exact setEntry_keeps _ _ _
    have ys : y.sched.used = w.sched.used ∧ y.sched.frames = w.sched.frames ∧ y.sched.stations = w.sched.stations := by rw [← hY]; exact ⟨rfl, rfl, rfl⟩
    generalize hV : y.sendSched _ _ _ _ _ = v at ec
    have vk : Keeps [.out, .fsp, .sched] y v := by rw [← hV]; exact sendSched_keeps ..
    obtain ⟨⟨g, g1, g2, g3, g4, g5, g6, g7⟩, vu, vm, vp⟩ := sendSched_f _ _ _ _ _ _ _ hV.symm
    have yp : y.pair = w.pair := yk.frame .pair (by decide)
    have yo : y.out = w.out := yk.frame .out (by decide)
    have vo : ∃ l, v.out = y.out ++ l := by rw [← hV]; exact sendSched_out ..
    refine ⟨_, ec, ((emit_keeps _ _).chain (vk.chain (yk.chain (wk.mono (by decide)) (by decide)) (by decide)) (by decide) : Keeps [.cache, .mem, .out, .fsp, .sched] u _).frame, ?_, ?_, g, ?_, ?_, g3, g4, ?_, ?_, w, ws.2.2.2.1, ?_⟩
    · obtain ⟨l, hl⟩ := vo
      exact ⟨l, by rw [ret_out, hl, yo, ws.2.2.2.2.2.1]; rfl⟩
    · show v.sched.used = _; rw [vu, ys.1, ws.1]
    · show v.sched.frames = _; rw [g1, ys.2.1, ws.2.1]
    · rw [g2, ws.2.2.2.2.2.2.1]
    · rw [g5, yp, ws.2.2.2.2.1]
    · rw [g6, ws.2.2.2.2.2.2.2]
    · have : g.number = no := by rw [g7, ← hno]; unfold State.schedStation; rw [ys.2.2]
      rw [this, hY]; exact vm
theorem retry_fold (l : List Nat) : ∀ (w : State), (l.foldl (fun s id => match s.findEntry id with | some n => s.setEntry n { s.entry n with retried := true } | none => s) w).sched.used = w.sched.used ∧
    (l.foldl (fun s id => match s.findEntry id with | some n => s.setEntry n { s.entry n with retried := true } | none => s) w).time = w.time := by
  induction l with
  | nil => intro w; exact ⟨rfl, rfl⟩
  | cons i l ih =>
    intro w; rw [List.foldl_cons]
    obtain ⟨a, b⟩ := ih (match w.findEntry i with | some n => w.setEntry n { w.entry n with retried := true } | none => w)
    refine ⟨a.trans ?_, b.trans ?_⟩
    · cases w.findEntry i with
      | none => rfl
      | some n => rfl
    · cases w.findEntry i with
      | none => rfl
      | some n => exact (setEntry_keeps n _ w).frame .time (by decide)

end Sys2Proof.Machine
end

