-- ==== Sys2Proof/Laws/OpReceived.lean ====
section
/-! SUPPORT. What the operations of one chapter do: frames. -/

set_option Elab.async false
set_option linter.all false

set_option linter.all false

namespace Sys2Proof.Machine

theorem kind_in (k : Nat) : kindOk k = true ↔ k ∈ [2, 4, 6, 7, 8, 9, 10] := by
  unfold kindOk; simp [or_assoc]
theorem best_owner (z : State) (x : PairSt → Nat) : (z.upPair fun p => { p with termBest := x p }).pair.owner = z.pair.owner ∧ (z.upPair fun p => { p with termBest := x p }).pair.term = z.pair.term := ⟨rfl, rfl⟩
theorem hear_same (v : Nat) (z : State) : (z.hearTerm v).pair.owner = z.pair.owner ∧ (z.hearTerm v).pair.term = z.pair.term ∧ (z.hearTerm v).cnt = z.cnt := by
  have r : (z.record 0x0208 [(4, v)]).pair = z.pair := (record_keeps _ _ z).frame .pair (by decide)
  refine ⟨?_, ?_, (hearTerm_keeps v z).frame .cnt (by decide)⟩ <;> unfold State.hearTerm <;> split
  · rfl
  · split
    · rfl
    · split
      · exact (best_owner z fun p => if serialAfter v p.termBest then v else p.termBest).1
      · rw [r]
  · rfl
  · split
    · rfl
    · split
      · exact (best_owner z fun p => if serialAfter v p.termBest then v else p.termBest).2
      · rw [r]
theorem fencedExits_up (z : State) : (z.upCnt fun k => { k with fencedExits := inc32 k.fencedExits }).cnt.fencedExits = inc32 z.cnt.fencedExits := rfl
theorem fenced_f (z w : State) (n : Nat) (hw : w.cnt.fencedExits = n) : ((w.record 0x0206 []).safeHold 5).power.mode = 7 ∧ ((w.record 0x0206 []).safeHold 5).power.reason = 5 ∧ ((w.record 0x0206 []).safeHold 5).pair.owner = false ∧ ((w.record 0x0206 []).safeHold 5).cnt.fencedExits = n := by
  obtain ⟨a1, a2, a3, _⟩ := safeHold_f 5 (w.record 0x0206 [])
  refine ⟨a1, a2, a3, ?_⟩
  have k1 : ((w.record 0x0206 []).safeHold 5).cnt = (w.record 0x0206 []).cnt := (safeHold_keeps 5 _).frame .cnt (by decide)
  have k2 : (w.record 0x0206 []).cnt = w.cnt := (record_keeps _ _ w).frame .cnt (by decide)
  rw [k1, k2, hw]

end Sys2Proof.Machine
end

