-- ==== Sys2Proof/Tests/Slice0.lean ====
section
/-! SUPPORT. The model's own tests: well-formed and ill-formed commands, the queue, worked examples of the spec; then, for every
obligation with hypotheses, states and operands that meet them, clause by clause. -/

namespace Sys2Proof.Tests
open Sys2Proof Sys2Proof.Machine

set_option maxRecDepth 100000
set_option Elab.async false
set_option linter.all false

/-! Small terms for the witnesses. -/
def wReq : Req := { mb := 0, version := 1, flags := 0, tag := 7, status := 0, length := 0, session := 0, payload := [], crc := 0#32 }
def wHdr : Hdr := { mb := 0, tag := 7, session := 0 }
def wFsp : Fsp :=
  { port := 0, dest := 0, source := 0, version := 1, kind := 2, station := 1, tag := 0, cls := 0, term := 0, cfg := 0, cycle := 0, flags := 0, seq := 0,
    spare := true, payload := [] }
def wFrame : RxFrame := { port := 0, bytes := [] }
def wOut : Mb14Out := { id := 1, cmd := 0x400, job := 1, at_ := 0 }
def wRsp : Mb14Resp := { id := 1, status := 0, payload := [] }
def wImg : Img :=
  { value := 0#32, quality := 0, forced := false, simulated := false, changed := false, stamped := false, held := false, pend := false, timed := false, age := 0 }
def wEntry : Entry :=
  { id := 1, handle := 1, state := 1, value := 0#32, term := 0, apply := 0, retried := false, cancelReq := false, asap := false, dispatch := 0, cls := 0,
    cycle := 0 }
def wJob : CfgJob := { id := 1, isCheck := false, mb14 := false, needsTwin := false, twin := none, twinReport := [], models := [], toAsk := [] }
def wFlight : Flight :=
  { idx := 0, cls := 0, tag := 0, station := 1, isWrite := false, cycle := 0, version := 0, issued := 0, retried := false, apply := 0, ranges := [], carried := [],
    words := [] }
def wAccess : Access := { master := 0, priv := true, op := .read, addr := 0x03000000, size := 8, data := 0, expected := 0, ecc := .clean, portA := none }
def wFlip : ArmedFlip := { isRevert := false, solo := false, tb := 0, cycle := 0, deferrals := 0, job := 1, twinArmed := false, goHeld := false }
def wPoint : PointRec := { handle := 1, rule := 0x1000000000000000#64, init := 0#32, spare := true }
def wCanF : CanFrame := { sofNs := 0, fdf := false, brs := false, xtd := false, remote := false, id := 0x100, dlc := 1, esi := false, data := [5#8] }
def wRec : CanRec := { f := wCanF, element := 0, overrun := false }
def wDiag : DiagSt := { station := 1, number := 0, page := 0, forReq := none, forEntry := none }
def wSched : SchedFrame :=
  { station := 1, number := 0, term := 0, ids := [], cancel := false, retried := false, payload := [], sentAt := 0, latest := none }
def wHeld : HeldRsp := { code := 1, number := 1, status := 0, data := [], off := 0 }
def wPeer : PeerRec := { peer := 1, pairId := 1, group := zeroBytes 6, spare := true }
def wHand : HandoverSt := { kind := 0, th := 0, deferrals := 0, job := 1 }
def wStream : StreamSt := { ring := 0, source := 1, dest := 1, last := 0, hist := 0, lastAt := 0 }
def wTrans : TransRec := { cls := 0, station := 1, isWrite := false, count := 1, ranges := [(0, 1)], spare := true }
def wHart : HartReq := { id := 1, ch := 0, addr := 0, cmd := 0, data := [], tries := 0, internal := false }
def wGcl : GclEntry := { gates := 255, interval := 1000, spare := true }
def wDone : FlipDone := { sown := Slot.empty, fallow := Slot.empty, seed := Slot.empty, tb := 0, isRevert := false, job := 1 }
def wAnn : AnnounceMsg :=
  { domain := 0, port := 0, priority1 := 1, clockClass := 6, clockAccuracy := 0x21, variance := 0, priority2 := 1, gmId := 1, stepsRemoved := 0, source := 1,
    utcOffset := 37 }
def wBind : BindSt := { station := 1, attempts := 1, st := 0, pending := false, cycle := 0, version := 0 }
def wMark : Marker := { tb0 := 0, tb1 := 0, roundTrip := 0, rate0 := 0, rate1 := 0 }
def wTables : Tables := { forces := [], filters := [], ring := [], consumed := [] }
def wStation : StationRec :=
  { addr := 1, flags := 0, ports := 0, mac := zeroBytes 6, hops := 1, model := 1, delayPs := 0, turnNs := 0, leadNs := 0, holdUs := [0, 0, 0, 0], spare := true }
def wCkpt : Ckpt :=
  { seq := 0, cls := 0, cycle := 0, term := 0, cfgVersion := 0, nextId := 1, state0 := 2, state1 := 2, rate0 := 0, rate1 := 0, tb0 := 0, tb1 := 0,
    armedVersion := 0, armedCycle := 0, reads := [], outputs := [], pages := [], entries := [], repairs := [], tables := wTables, trailerSeq := 0,
    trailerLen := 0, crcOk := true }
/-- A session of an OWNER on MB0 of a module in MAINTENANCE. -/
def wUser : State :=
  ((State.reset.upPower fun p => { p with mode := 2 }).upSec fun p => { p with lifecycle := 2 }).setBox 0 fun b =>
    { b with connected := true, granted := 4, role := 4, sid := 9 }
def wH : Hdr := { mb := 0, tag := 7, session := 9 }
/-- An FSP frame on the wire: VLAN 100, a 24-byte header, its payload, its CRC and the frame check. -/
def wWire (head payload : List Byte) : List Byte :=
  zeroBytes 12 ++ [0x81#8, 0#8, 0#8, 100#8, 0x88#8, 0xB5#8] ++ head ++ payload ++ leBytes 4 (crc32c (head ++ payload)).toNat ++ zeroBytes 4
/-- A header: version and kind, station and class words, term, configuration, cycle, length, flags, sequence. -/
def wHead (vk w term cfg cycle n flags spare : Nat) : List Byte :=
  leBytes 1 vk ++ leBytes 3 w ++ leBytes 4 term ++ leBytes 4 cfg ++ leBytes 4 cycle ++ leBytes 2 n ++ leBytes 2 flags ++ leBytes 2 0 ++ leBytes 2 spare
def wRx (vk w flags spare : Nat) (payload : List Byte) : RxFrame := { port := 0, bytes := wWire (wHead vk w 0 0 0 payload.length flags spare) payload }
/-- A request of the OWNER's session. -/
def wCmd (code : Nat) (payload : List Byte) : Req := hdrReq wH code payload
/-- A module with the rule of one point. -/
def wPt (h : Nat) (rule : Word64) : State := State.reset.setRule h rule
/-- An owner with one timed output point on station 1, and one entry of the schedule queue. -/
def wRule : Word64 := 0x1001000030000000#64
def wOwn : State :=
  (State.reset.setRule 1 wRule).upPair fun p => { p with owner := true }
def wQ (e : Entry) : State := (wOwn.setEntry 0 e).upSched fun q => { q with used := [0] }

/-- A bundle header and manifest that pass check 1 of Table 13.6, with key slot 0 and every digest zero. -/
def wMan : List Byte :=
  ascii "F9SH" ++ leBytes 2 1 ++ leBytes 2 9 ++ leBytes 4 2 ++ leBytes 4 0 ++ leBytes 8 45056 ++ zeroBytes 4 ++ leBytes 4 9 ++ zeroBytes 224 ++
    (List.range 9).flatMap fun n => leBytes 2 (n + 1) ++ zeroBytes 2 ++ leBytes 4 2 ++ zeroBytes 8 ++ leBytes 8 (4096 * (n + 1)) ++ leBytes 8 1 ++ zeroBytes 64
/-- A module that verifies that bundle. -/
def wSheaf : State :=
  (State.reset.upSheaf fun h => { h with st := 3, loaded := wMan }).upSec fun c => { c with sheafKeys := [(0, [])] }
theorem wMan_check2 (hd : Config.sha384 (slice wMan 0 36 ++ zeroBytes 144 ++ slice wMan 180 940) = zeroBytes 48)
    (hs : Config.ecdsaOk (zeroBytes 48) (zeroBytes 96) [] = true) : wSheaf.check2 wMan = none := by
  have hk : wSheaf.sec.sheafKey (field wMan 32 4) = some [] := by decide +kernel
  have h1 : slice wMan 36 48 = zeroBytes 48 := by decide +kernel
  have h2 : slice wMan 84 96 = zeroBytes 96 := by decide +kernel
  unfold State.check2 manDigest
  rw [hk, h1, h2, hd]
  simp [hs]
theorem wMan_slices : ∀ e ∈ manEntries wMan, slice wMan (entryOffset e) (entrySize e) = [] ∧ slice e 32 48 = zeroBytes 48 := by decide +kernel
theorem wMan_check3 (h0 : Config.sha384 [] = zeroBytes 48) : check3 wMan = none := by
  unfold check3
  rw [Option.map_eq_none_iff, List.find?_eq_none]
  intro e he
  rw [(wMan_slices e he).1, (wMan_slices e he).2, h0]
  decide
theorem wMan_check3_bad (h0 : Config.sha384 [] ≠ zeroBytes 48) : check3 wMan ≠ none := by
  intro h
  obtain ⟨e, he⟩ : ∃ e, (manEntries wMan)[0]? = some e := ⟨_, rfl⟩
  have hm : e ∈ manEntries wMan := List.mem_of_getElem? he
  have hf := List.find?_eq_none.1 (Option.map_eq_none_iff.1 h) e hm
  rw [(wMan_slices e hm).1, (wMan_slices e hm).2] at hf
  simp only [bne_iff_ne, ne_eq, not_not] at hf
  exact h0 hf
theorem wMan_verifies (hd : Config.sha384 (slice wMan 0 36 ++ zeroBytes 144 ++ slice wMan 180 940) = zeroBytes 48)
    (hs : Config.ecdsaOk (zeroBytes 48) (zeroBytes 96) [] = true) (h0 : Config.sha384 [] = zeroBytes 48) : wSheaf.verifyFault = none := by
  have h1 : check1 wMan = none := by decide +kernel
  have h4 : wSheaf.check4 wMan = none := by decide +kernel
  have h5 : wSheaf.check5 wMan = none := by decide +kernel
  have h6 : wSheaf.check6 wMan = none := by decide +kernel
  show (((((check1 wMan).orElse fun _ => wSheaf.check2 wMan).orElse fun _ => check3 wMan).orElse fun _ => wSheaf.check4 wMan).orElse
    fun _ => wSheaf.check5 wMan).orElse (fun _ => wSheaf.check6 wMan) = none
  rw [h1, wMan_check2 hd hs, wMan_check3 h0, h4, h5, h6]
  rfl
/-- A module whose partition is complete, and a record with no items staged. -/
def wKeys (l : Nat) (b : State) : State :=
  b.upSec fun c => { c with lifecycle := l, serverKey := [1#8], chain := [2#8], anchors := [(0, [])], roles := [(0, [], 4)], cfgKeys := [(0, [])],
                            sheafKeys := [(0, [])], staging := [(0, 0x46#8), (1, 0x39#8), (2, 0x4B#8), (3, 0x52#8), (8, 16#8)] }
def isDone (e : WordEnd) (d : Nat) : Bool := match e with | .done x => x == d | _ => false
def isBus (e : WordEnd) : Bool := match e with | .busError => true | _ => false
theorem isDone_eq {e : WordEnd} {d : Nat} (h : isDone e d = true) : e = .done d := by
  cases e <;> simp_all [isDone]
theorem isBus_eq {e : WordEnd} (h : isBus e = true) : e = .busError := by
  cases e <;> simp_all [isBus]
theorem some_getD {α : Type} {o : Option α} {d : α} (h : o.isSome = true) : o = some (o.getD d) := by
  cases o <;> simp_all
/-- A BLANK module in MAINTENANCE with debug open (12 R291). -/
def wDebug : State := (State.reset.upPower fun p => { p with mode := 2 }).openDebug none
theorem wKeys_ok (s : State) (c : SecureSt) (hc : s.sec.applied (keyRecord s.sec) = some c) (hk : c.complete = true)
    (h1 : (crc32c ((keyRecord s.sec).drop 16)).toNat = field (keyRecord s.sec) 12 4)
    (h2 : ([s.cfg.sown, s.cfg.fallow, s.cfg.seed].any fun x => x.present && s.sec.hasCfgKey x.cfg.keyIndex && !c.hasCfgKey x.cfg.keyIndex) = false) :
    s.keyCommitCheck = none := by
  unfold State.keyCommitCheck
  simp only [hc, hk, h1, h2, bne_self_eq_false, Bool.not_true, Bool.false_eq_true, if_false]
theorem wKeys_complete (c : SecureSt) (hk : Config.keyMatches c.serverKey c.chain = true)
    (h2 : (!c.serverKey.isEmpty && !c.chain.isEmpty && (!c.anchors.isEmpty && (c.roles.any (fun e => e.2.2 == 4) && (!c.cfgKeys.isEmpty &&
      !c.sheafKeys.isEmpty)))) = true) : c.complete = true := by
  unfold SecureSt.complete
  simpa only [hk, Bool.and_true, Bool.and_assoc] using h2
theorem wImage_ok (s : State) (b : List Byte) (k : Nat × List Byte) (h : (s.sec.cfgKeys.find? fun k => k.1 == field b 36 4) = some k)
    (hd : imageDigest b = slice b 40 48) (hs : Config.ecdsaOk (slice b 40 48) (slice b 88 96) k.2 = true) : s.imageOk b = true := by
  unfold State.imageOk
  rw [h]
  simp only [hd, hs, beq_self_eq_true, Bool.and_true]

def wSync : SyncMsg := { domain := 0, port := 0, origin := 0, rawRx := 0, ratio := 0, oneStep := true }

/-! ## Well-formed commands: each check refuses a term that breaks it -/

theorem test_wf_accepts : (Instr.identify 0 wReq).wf = true ∧ (Instr.sync 0 wSync).wf = true ∧ (Instr.twinModeReport 0 8).wf = true := by decide
theorem test_wf_refuses_mailbox : (Instr.identify 0 { wReq with mb := 17 }).wf = false := by decide
theorem test_wf_refuses_request_fields : ({ wReq with version := 256 } : Req).wf = false ∧ ({ wReq with flags := 256 } : Req).wf = false ∧
    ({ wReq with tag := 65536 } : Req).wf = false ∧ ({ wReq with status := 65536 } : Req).wf = false ∧
    ({ wReq with length := 2 ^ 32 } : Req).wf = false ∧ ({ wReq with session := 2 ^ 32 } : Req).wf = false := by decide
theorem test_wf_refuses_header : ({ wHdr with mb := 16 } : Hdr).wf = false ∧ ({ wHdr with tag := 65536 } : Hdr).wf = false ∧
    ({ wHdr with session := 2 ^ 32 } : Hdr).wf = false := by decide
theorem test_wf_refuses_code : (Instr.continuation 0 65536 wReq).wf = false := by decide
theorem test_wf_refuses_port : ({ wFrame with port := 4 } : RxFrame).wf = false ∧ (Instr.readRsp 0 { wFrame with port := 4 }).wf = false := by decide
theorem test_wf_refuses_access : ({ wAccess with master := 19 } : Access).wf = false ∧ ({ wAccess with addr := 2 ^ 40 } : Access).wf = false ∧
    ({ wAccess with size := 3 } : Access).wf = false := by decide
theorem test_wf_refuses_can_frame : ({ wCanF with id := 2 ^ 29 } : CanFrame).wf = false ∧ ({ wCanF with dlc := 16 } : CanFrame).wf = false ∧
    ({ wCanF with data := zeroBytes 65 } : CanFrame).wf = false := by decide +kernel
theorem test_wf_refuses_numbers : (Instr.reenable 0 wHdr 256).wf = false ∧ (Instr.keyWindow 0 wHdr 256 [0#32]).wf = false ∧
    (Instr.recoverCan 0 wHdr 2).wf = false ∧ (Instr.post 0 16 0).wf = false ∧ (Instr.laneDown 0 2).wf = false ∧
    (Instr.cycleStart 0 4).wf = false ∧ (Instr.sync 0 { wSync with port := 4 }).wf = false ∧ (Instr.triggerFire 0 32).wf = false ∧
    (Instr.twinModeReport 0 9).wf = false ∧ (Instr.recordAccept 0 0 (zeroBytes 33)).wf = false := by decide

/-! ## The words of the opcode table, the queue and the idle step -/

theorem test_no_word_spells_a_command : decodeTableWord 32 0 = none ∧ (State.reset.withFetchWord 8 5).pending = [] := by decide +kernel
theorem test_idle_step_counts_one_tick : ∃ s, step State.reset = .next s ∧ s.time.now = 1 ∧ s.pending = [] :=
  ⟨State.reset.arrive 1, rfl, by decide +kernel⟩
theorem test_step_takes_the_front : ∃ s, step { State.reset with pending := [.takeover 5, .takeover 6] } = .next s ∧ s.pending = [.takeover 6] ∧
    s.time.now = 5 := ⟨_, rfl, by decide +kernel⟩

/-! ## Worked examples of the spec -/

/-- 00 R7, the example under it: term 1 is after 0xFFFF_FFFE; half the range apart, neither is after the other. -/
theorem test_terms_compare : serialAfter 1 0xFFFFFFFE = true ∧ serialAfter 0x7FFFFFFE 0xFFFFFFFE = false ∧
    serialAfter 0xFFFFFFFE 0x7FFFFFFE = false := by decide
/-- 02 R34, the SQRT example: a raw 12,000 gives 900.0 and a raw 6,150, below the cut-off, gives 0.0. -/
def wSqrt : Transform :=
  { type := 3, flags := 1, rawKind := 3, count := 0, index := 0, spare := true,
    p := [0x40B7700000000000#64, 0x40DD4C0000000000#64, 0#64, 0x409C200000000000#64, 0x3F847AE147AE147B#64, 0x40B5180000000000#64,
          0x40DE780000000000#64] }
theorem test_sqrt_transform : wSqrt.apply noCfg 0x40C7700000000000#64 = some 0x408C200000000000#64 ∧
    wSqrt.apply noCfg 0x40B8060000000000#64 = some 0#64 := by decide +kernel
/-- The same example: 852.4385287749643 rounds to 0x4455_1C11, and the image entry is 0x4455_1C11_0020_0000. -/
theorem test_image_entry : f32OfF64 0x408AA3821B5FD69D#64 = 0x44551C11#32 ∧
    imgWord { wImg with value := 0x44551C11#32, changed := true } = 0x44551C1100200000#64 := by decide +kernel
/-- 04 Table 4.3, the example of station 0x1F4: the header bytes, the descriptor and what each field reads. -/
def wExampleHeader : List Byte :=
  [0x12#8, 0x9C#8, 0x42#8, 0x1F#8, 0x42#8, 0x00#8, 0x00#8, 0x00#8, 0x13#8, 0x04#8, 0x00#8, 0x00#8, 0x8C#8, 0xC2#8, 0x78#8, 0x01#8,
   0x10#8, 0x00#8, 0x04#8, 0x00#8, 0x2C#8, 0x03#8, 0x00#8, 0x00#8]
def wExample : Fsp := parseFsp { port := 0, bytes := wWire wExampleHeader (leBytes 4 0x100 ++ zeroBytes 12) }
theorem test_fsp_example : wExample.kind = 2 ∧ wExample.station = 0x1F4 ∧ wExample.tag = 0x0A7 ∧ wExample.cls = 0 ∧ wExample.term = 0x42 ∧
    wExample.cfg = 0x413 ∧ wExample.cycle = 24691340 ∧ bit wExample.flags 2 = true ∧ wExample.seq = 812 ∧
    parseRsp [(0, 3)] wExample.payload = some ([(0, 3, 0)], zeroBytes 12) := by decide +kernel
/-- The module writes the same header for such a frame. -/
theorem test_fsp_header_bytes :
    slice (fspBytes { kind := 2, station := 0x1F4, tag := 0x0A7, cls := 0, cycle := 24691340, pending := false, retry := false, pcp := 0, dest := [],
                      payload := zeroBytes 16 } 0x42 0x413 false true 812) 0 24 = wExampleHeader := by decide +kernel
/-- 05 R107, the example of diverter 417: a round trip of 44.2 µs and one way of 17.6 µs. -/
theorem test_station_times :
    StationRec.rttPs { wStation with delayPs := 1200000, hops := 12, turnNs := 10000 } = 44200000 ∧
    StationRec.owPs { wStation with delayPs := 1200000, hops := 12, turnNs := 10000 } = 17600000 := by decide
/-- 11 R255, the example of JOB_STATUS: the first response header, and where the cursor stands in its payload. -/
theorem test_response_header :
    slice (messageBytes 1 0x003 0x0A21 stPartial 0x5C317E02 (cursorBytes 0x91B4 228 ++ zeroBytes 228)) 0 24 =
      [0x01#8, 0x01#8, 0x03#8, 0x00#8, 0x21#8, 0x0A#8, 0x02#8, 0x00#8, 0xEC#8, 0x00#8, 0x00#8, 0x00#8, 0x02#8, 0x7E#8, 0x31#8, 0x5C#8,
       0xE4#8, 0x00#8, 0x00#8, 0x00#8, 0xB4#8, 0x91#8, 0x00#8, 0x00#8] := by decide +kernel
/-- 12 R281 and R285, the example of gate 0: rule 2 refuses the privileged write of CP5, and word 1 of the log entry is 0x0500_025B. -/
theorem test_gate_example :
    ((State.reset.upGate fun g => { g with active := [(0, 2, [0x40000, 0x7FFFF, 0xF0, 0x94])] }).gateRefuses 0 0x00800F28 5 true true = some (1, 2)) ∧
    (faultEntry 0x00800F28 5 2 1 true true 8 0 0).getD 1 0 = 0x0500025B := by decide +kernel
/-- CRC-32C (04 R72) of "123456789" is 0xE306_9283, the check value published with that polynomial. -/
theorem test_crc32c : crc32c (ascii "123456789") = 0xE3069283#32 := by decide +kernel

/-! ## Small steps -/

/-- 08 Table 8.1: reset leaves the module in BOOT, where a request is answered with STATE (R178). -/
theorem test_boot_answers_state : State.reset.power.mode = 1 ∧ (wUser.upPower fun p => { p with mode := 1 }).refusedEarly 0 (wCmd 0 []) = some stState := by
  decide +kernel
/-- 11 Table 11.3 row 8: a VIEWER may not flip a configuration. -/
theorem test_viewer_is_refused : (wUser.setBox 0 fun b => { b with role := 1 }).refusedLate (plainCmd 0x402 3 4) (wCmd 0x402 (zeroBytes 4)) =
    some stDenied := by decide +kernel
/-- 01 Table 1.3: an access outside every gate's range is a bus error. -/
theorem test_unmapped_is_a_bus_error : isBus (State.access { wAccess with addr := 0xFFFFFFFFF8 } State.reset).2 = true := by decide +kernel
/-- 12 R268: a word of SRAM reads back what was written. -/
theorem test_memory_reads_back : isDone (State.access wAccess (State.access { wAccess with op := .write, data := 0x123456789 } State.reset).1).2 0x123456789 =
    true := by decide +kernel
/-- Log 115: a window whose registers the spec does not lay out stops under its own name. -/
theorem test_device_window : (match (State.access { wAccess with addr := 0x0D000000 } State.reset).2 with | .device a => a | _ => 0) = 0x0D000000 := by
  decide +kernel

/-! ## Witnesses: the hypotheses of each obligation hold together

Each theorem named after an obligation gives, for every set of hypotheses under which that obligation concludes something, values
that meet all of them. Where a hypothesis asks what an opaque function of Config answers (a digest, a signature, a key match), the
theorem takes that answer as a premise: nothing in Lean can evaluate it. -/

/-- Hypotheses of `Obligations.AccessesActOnTheirWords` that hold together. -/
theorem witness_AccessesActOnTheirWords :
    (∃ (t : Nat) (s : State), (s.arrive t).awake = false) ∧
    (∃ (t : Nat) (a : Access) (s : State), (s.arrive t).awake = true ∧
    a.op = AccessOp.cas ∧
    (a.size ≠ 8 ∨ a.addr % 8 ≠ 0)) ∧
    (∃ (t : Nat) (a : Access) (s : State), (s.arrive t).awake = true ∧
    0 < a.size ∧
    a.addr % 8 + a.size ≤ 8 ∧
    (a.op = AccessOp.cas → a.size = 8) ∧
    gateOf a.addr = none) ∧
    (∃ (t : Nat) (a : Access) (s : State) (g : Nat) (reason : Nat) (rule : Nat), (s.arrive t).awake = true ∧
    0 < a.size ∧
    a.addr % 8 + a.size ≤ 8 ∧
    (a.op = AccessOp.cas → a.size = 8) ∧
    gateOf a.addr = some g ∧
    (s.arrive t).gateRefuses g a.addr a.master a.priv (a.op != AccessOp.read) = some (reason, rule)) ∧
    (∃ (t : Nat) (a : Access) (s : State) (g : Nat) (w : Nat), (s.arrive t).awake = true ∧
    0 < a.size ∧
    a.addr % 8 + a.size ≤ 8 ∧
    (a.op = AccessOp.cas → a.size = 8) ∧
    gateOf a.addr = some g ∧
    g < 12 ∧
    (s.arrive t).gateRefuses g a.addr a.master a.priv (a.op != AccessOp.read) = none ∧
    a.portA = none ∧
    w = a.addr / 8 * 8 ∧
    (a.op ≠ AccessOp.write ∨ a.size ≠ 8) ∧
    (a.ecc = Ecc.double ∨ w ∈ (s.arrive t).mem.bad)) ∧
    (∃ (t : Nat) (a : Access) (s : State) (g : Nat) (w : Nat), (s.arrive t).awake = true ∧
    0 < a.size ∧
    a.addr % 8 + a.size ≤ 8 ∧
    (a.op = AccessOp.cas → a.size = 8) ∧
    gateOf a.addr = some g ∧
    g < 12 ∧
    (s.arrive t).gateRefuses g a.addr a.master a.priv (a.op != AccessOp.read) = none ∧
    a.portA = none ∧
    w = a.addr / 8 * 8 ∧
    a.op = AccessOp.read ∧
    a.ecc = Ecc.clean ∧
    w ∉ (s.arrive t).mem.bad ∧
    50331648 ≤ w) ∧
    (∃ (t : Nat) (a : Access) (s : State) (g : Nat) (w : Nat), (s.arrive t).awake = true ∧
    0 < a.size ∧
    a.addr % 8 + a.size ≤ 8 ∧
    (a.op = AccessOp.cas → a.size = 8) ∧
    gateOf a.addr = some g ∧
    g < 12 ∧
    (s.arrive t).gateRefuses g a.addr a.master a.priv (a.op != AccessOp.read) = none ∧
    a.portA = none ∧
    w = a.addr / 8 * 8 ∧
    a.op = AccessOp.read ∧
    a.ecc = Ecc.single ∧
    w ∉ (s.arrive t).mem.bad ∧
    50331648 ≤ w) ∧
    (∃ (t : Nat) (a : Access) (s : State) (g : Nat) (w : Nat), (s.arrive t).awake = true ∧
    0 < a.size ∧
    a.addr % 8 + a.size ≤ 8 ∧
    (a.op = AccessOp.cas → a.size = 8) ∧
    gateOf a.addr = some g ∧
    g < 12 ∧
    (s.arrive t).gateRefuses g a.addr a.master a.priv (a.op != AccessOp.read) = none ∧
    a.portA = none ∧
    w = a.addr / 8 * 8 ∧
    a.op = AccessOp.write ∧
    (a.size = 8 ∨ a.ecc = Ecc.clean ∧ w ∉ (s.arrive t).mem.bad) ∧
    (w < queueBase ∨ queueBase + 2097152 ≤ w) ∧
    Memory.wf s.mem = true) ∧
    (∃ (t : Nat) (a : Access) (s : State) (g : Nat) (w : Nat), (s.arrive t).awake = true ∧
    0 < a.size ∧
    a.addr % 8 + a.size ≤ 8 ∧
    (a.op = AccessOp.cas → a.size = 8) ∧
    gateOf a.addr = some g ∧
    g < 12 ∧
    (s.arrive t).gateRefuses g a.addr a.master a.priv (a.op != AccessOp.read) = none ∧
    a.portA = none ∧
    w = a.addr / 8 * 8 ∧
    a.op = AccessOp.cas ∧
    a.ecc = Ecc.clean ∧
    w ∉ (s.arrive t).mem.bad ∧
    a.addr % 8 = 0 ∧
    (w < queueBase ∨ queueBase + 2097152 ≤ w) ∧
    (s.arrive t).memWordAt w ≠ a.expected % 2 ^ 64) ∧
    (∃ (t : Nat) (a : Access) (s : State) (g : Nat) (w : Nat), (s.arrive t).awake = true ∧
    0 < a.size ∧
    a.addr % 8 + a.size ≤ 8 ∧
    (a.op = AccessOp.cas → a.size = 8) ∧
    gateOf a.addr = some g ∧
    g < 12 ∧
    (s.arrive t).gateRefuses g a.addr a.master a.priv (a.op != AccessOp.read) = none ∧
    a.portA = none ∧
    w = a.addr / 8 * 8 ∧
    a.op = AccessOp.cas ∧
    a.ecc = Ecc.clean ∧
    w ∉ (s.arrive t).mem.bad ∧
    a.addr % 8 = 0 ∧
    (w < queueBase ∨ queueBase + 2097152 ≤ w) ∧
    (s.arrive t).memWordAt w = a.expected % 2 ^ 64) ∧
    (∃ (t : Nat) (a : Access) (s : State) (n : Nat), (s.arrive t).awake = true ∧
    a.op ≠ AccessOp.cas ∧
    8 < a.addr % 8 + a.size ∧
    a.size ≤ 8 ∧
    n = 8 - a.addr % 8 ∧
    (State.wordAccess a a.addr n (a.data % 2 ^ (8 * n)) a.ecc (s.arrive t)).2 = .busError) ∧
    (∃ (t : Nat) (a : Access) (s : State) (n : Nat) (lo : Nat), (s.arrive t).awake = true ∧
    a.op ≠ AccessOp.cas ∧
    8 < a.addr % 8 + a.size ∧
    a.size ≤ 8 ∧
    n = 8 - a.addr % 8 ∧
    (State.wordAccess a a.addr n (a.data % 2 ^ (8 * n)) a.ecc (s.arrive t)).2 = .done lo ∧
    (State.wordAccess { a with portA := none } (a.addr + n) (a.size - n) (a.data / 2 ^ (8 * n) % 2 ^ (8 * (a.size - n))) a.ecc (s.arrive t)).2 = .busError) ∧
    (∃ (t : Nat) (a : Access) (s : State) (n : Nat) (u : State) (lo : Nat) (v : State) (hi : Nat), (s.arrive t).awake = true ∧
    a.op ≠ AccessOp.cas ∧
    8 < a.addr % 8 + a.size ∧
    a.size ≤ 8 ∧
    n = 8 - a.addr % 8 ∧
    State.wordAccess a a.addr n (a.data % 2 ^ (8 * n)) a.ecc (s.arrive t) = (u, WordEnd.done lo) ∧
    State.wordAccess { master := a.master, priv := a.priv, op := a.op, addr := a.addr, size := a.size, data := a.data, expected := a.expected, ecc := a.ecc, portA := none } (a.addr + n) (a.size - n) (a.data / 2 ^ (8 * n) % 2 ^ (8 * (a.size - n))) Ecc.clean u = (v, WordEnd.done hi)) ∧
    (∃ (w : Nat), inCache w = false) ∧
    (∃ (a : Nat), inCache a = false) ∧
    (∃ (g : Nat) (s : State), g < s.gate.violations.length) :=
  ⟨⟨0, State.reset.upBoot fun p => { p with stopped := true }, by decide +kernel⟩,
    ⟨0, { wAccess with op := .cas, size := 4 }, State.reset, by decide +kernel⟩,
    ⟨0, { wAccess with addr := 0xFFFFFFFFF8 }, State.reset, by decide +kernel⟩,
    ⟨0, { wAccess with addr := 0x0C200000 }, State.reset, 10, 2, 255, by decide +kernel⟩,
    ⟨0, { wAccess with ecc := .double }, State.reset, 1, 0x03000000, by decide +kernel⟩,
    ⟨0, wAccess, State.reset, 1, 0x03000000, by decide +kernel⟩,
    ⟨0, { wAccess with ecc := .single }, State.reset, 1, 0x03000000, by decide +kernel⟩,
    ⟨0, { wAccess with op := .write, data := 5 }, State.reset, 1, 0x03000000, by decide +kernel⟩,
    ⟨0, { wAccess with op := .cas, expected := 1 }, State.reset, 1, 0x03000000, by decide +kernel⟩,
    ⟨0, { wAccess with op := .cas, expected := 0, data := 1 }, State.reset, 1, 0x03000000, by decide +kernel⟩,
    ⟨0, { wAccess with addr := 0x0C2FFFFC, size := 8 }, State.reset, 4, by decide +kernel, by decide +kernel, by decide +kernel, by decide +kernel,
      by decide +kernel, rfl⟩,
    ⟨0, { wAccess with addr := 0x0C1FFFFC, size := 8 }, State.reset, 4, 0, by decide +kernel, by decide +kernel, by decide +kernel, by decide +kernel,
      by decide +kernel, rfl, rfl⟩,
    ⟨0, { wAccess with addr := 0x03000004, size := 8 }, State.reset, 4, State.reset, 0, State.reset, 0, by decide +kernel, by decide +kernel,
      by decide +kernel, by decide +kernel, by decide +kernel, rfl, rfl⟩,
    ⟨0, by decide +kernel⟩,
    ⟨0, by decide +kernel⟩,
    ⟨0, State.reset, by decide +kernel⟩⟩
/-- Hypotheses of `Obligations.AnIdleStepIsOneTick` that hold together. -/
theorem witness_AnIdleStepIsOneTick :
    ∃ (s : State), s.pending = [] :=
  ⟨State.reset, by decide +kernel⟩
/-- Hypotheses of `Obligations.AnalogChannelsConvert` that hold together. -/
theorem witness_AnalogChannelsConvert :
    (∃ (t : Nat) (n : Nat) (s : State), (s.arrive t).awake = true ∧
    (s.arrive t).ua.afsLost = false ∧
    n < 8 ∧
    ((s.arrive t).uaMode n = 2 ∨ (s.arrive t).uaMode n = 3)) ∧
    (∃ (t : Nat) (n : Nat) (s : State), (s.arrive t).awake = true ∧
    (s.arrive t).ua.afsLost = false ∧
    n < 8 ∧
    ((s.arrive t).uaMode n = 1 ∨ (s.arrive t).uaMode n = 7 ∨ (s.arrive t).uaMode n = 8)) ∧
    (∃ (s : State), s.pair.peerPresent = false) ∧
    (∃ (s : State) (n : Nat), s.pair.peerPresent = true ∧
    s.ua.senseUnknown = true ∧
    s.multiDrop n = false) ∧
    (∃ (s : State) (n : Nat), s.pair.peerPresent = true ∧
    s.ua.senseUnknown = false ∧
    (s.uaCh n).twinIn = true) ∧
    (∃ (n : Nat) (s : State), n < s.ua.ch.length ∧
    bit (s.uaWord n) 17 = false) ∧
    (∃ (n : Nat) (s : State) (k : Nat), n < s.ua.ch.length ∧
    k ≠ n) ∧
    (∃ (t : Nat) (s : State), (s.arrive t).awake = true ∧
    (s.arrive t).ua.afsLost = false ∧
    ((s.arrive t).tb0Valid = true ∨ (s.arrive t).pair.peerPresent = false) ∧
    (s.arrive t).ua.excited = false) ∧
    (∃ (t : Nat) (s : State), (s.arrive t).awake = true ∧
    (s.arrive t).ua.afsLost = false ∧
    ((s.arrive t).tb0Valid = true ∨ (s.arrive t).pair.peerPresent = false) ∧
    (s.arrive t).ua.excited = true) ∧
    (∃ (n : Nat) (s : State), s.uaMode n = 4) ∧
    (∃ (n : Nat) (s : State), s.uaMode n = 5) ∧
    (∃ (n : Nat) (s : State), s.uaMode n ≠ 4 ∧
    s.uaMode n ≠ 5 ∧
    s.uaMode n ≠ 6) :=
  ⟨⟨0, 0,
     (State.reset.upUa fun p => { p with afsLost := false }).upCfg fun p => { p with sown := { p.sown with present := true, cfg := { p.sown.cfg with ua := List.replicate 8 (2 * 2 ^ 28, 0) } } },
     by decide +kernel⟩,
    ⟨0, 0,
      (State.reset.upUa fun p => { p with afsLost := false }).upCfg fun p => { p with sown := { p.sown with present := true, cfg := { p.sown.cfg with ua := List.replicate 8 (7 * 2 ^ 28, 0) } } },
      by decide +kernel⟩,
    ⟨State.reset.upPair fun p => { p with peerPresent := false }, by decide +kernel⟩,
    ⟨(State.reset.upPair fun p => { p with peerPresent := true }).upUa fun p => { p with senseUnknown := true }, 0, by decide +kernel⟩,
    ⟨(State.reset.upPair fun p => { p with peerPresent := true }).upUa fun p => { p with senseUnknown := false, ch := (setAt p.ch 0 fun e1 => { e1 with twinIn := true }) },
      0, by decide +kernel⟩,
    ⟨0, State.reset, by decide +kernel⟩,
    ⟨0, State.reset, 1, by decide +kernel⟩,
    ⟨0, (State.reset.upUa fun p => { p with afsLost := false, excited := false }).upTime fun p => { p with tb0 := { p.tb0 with st := 2 } },
      by decide +kernel⟩,
    ⟨0, (State.reset.upUa fun p => { p with afsLost := false, excited := true }).upTime fun p => { p with tb0 := { p.tb0 with st := 2 } },
      by decide +kernel⟩,
    ⟨0,
      State.reset.upCfg fun p => { p with sown := { p.sown with present := true, cfg := { p.sown.cfg with ua := List.replicate 8 (4 * 2 ^ 28, 0) } } },
      by decide +kernel⟩,
    ⟨0,
      State.reset.upCfg fun p => { p with sown := { p.sown with present := true, cfg := { p.sown.cfg with ua := List.replicate 8 (5 * 2 ^ 28, 0) } } },
      by decide +kernel⟩,
    ⟨0, State.reset, by decide +kernel⟩⟩
/-- Hypotheses of `Obligations.AnalogFaultsAndTheTwin` that hold together. -/
theorem witness_AnalogFaultsAndTheTwin :
    (∃ (t : Nat) (n : Nat) (s : State), (s.arrive t).awake = true ∧
    (s.arrive t).uaMode n ≠ 0 ∧
    n < 8 ∧
    n < (s.arrive t).ua.ch.length) ∧
    (∃ (t : Nat) (n : Nat) (s : State), (s.arrive t).awake = true ∧
    (s.arrive t).swathSilent = false ∧
    n < 8 ∧
    n < (s.arrive t).ua.ch.length) ∧
    (∃ (t : Nat) (s : State), (s.arrive t).awake = true ∧
    (s.arrive t).pair.peerPresent = true ∧
    (∀ c ∈ (s.arrive t).ua.ch, ∀ (a : ℕ), c.twinAt = some a → a + 75000000 ≤ (s.arrive t).time.now)) :=
  ⟨⟨0, 0,
     State.reset.upCfg fun p => { p with sown := { p.sown with present := true, cfg := { p.sown.cfg with ua := List.replicate 8 (1 * 2 ^ 28, 0) } } },
     by decide +kernel⟩,
    ⟨0, 0, State.reset.upPair fun p => { p with lane0 := true }, by decide +kernel⟩,
    ⟨0, State.reset.upPair fun p => { p with peerPresent := true }, by decide +kernel⟩⟩
/-- Hypotheses of `Obligations.BootStepsRunInOrder` that hold together. -/
theorem witness_BootStepsRunInOrder :
    (∃ (t : Nat) (st : BootStep) (s : State), (s.arrive t).mayStep st = false) ∧
    (∃ (t : Nat) (s : State), (s.arrive t).power.bootKind ≠ 1 ∧
    (s.arrive t).mayStep BootStep.pllsLocked = true ∧
    (s.arrive t).boot.lingKept = true) ∧
    (∃ (t : Nat) (s : State), (s.arrive t).power.bootKind ≠ 1 ∧
    (s.arrive t).mayStep BootStep.pllsLocked = true ∧
    (s.arrive t).boot.lingKept = false) ∧
    (∃ (t : Nat) (s : State) (prevOk : Bool), (s.arrive t).power.bootKind ≠ 1 ∧
    (s.arrive t).mayStep (BootStep.steward true prevOk) = true ∧
    (s.arrive t).sheaf.recTrial = false ∧
    (s.arrive t).boot.tamperLatched = none ∧
    (s.arrive t).sec.latch = (s.arrive t).sec.lifecycle) ∧
    (∃ (t : Nat) (s : State) (prevOk : Bool), (s.arrive t).power.bootKind ≠ 1 ∧
    (s.arrive t).mayStep (BootStep.steward false prevOk) = true ∧
    (s.arrive t).sheaf.recTrial = false ∧
    (prevOk = false ∨ (s.arrive t).sheaf.previous = 0)) ∧
    (∃ (t : Nat) (s : State), (s.arrive t).power.bootKind ≠ 1 ∧
    (s.arrive t).mayStep (BootStep.mower none) = true) ∧
    (∃ (t : Nat) (s : State) (addr : Nat) (n : Nat), (s.arrive t).power.bootKind ≠ 1 ∧
    (s.arrive t).mayStep (BootStep.mower (some (addr, n))) = true) ∧
    (∃ (t : Nat) (s : State), (s.arrive t).power.bootKind ≠ 1 ∧
    (s.arrive t).mayStep BootStep.store = true) ∧
    (∃ (t : Nat) (s : State) (prevOk : Bool), (s.arrive t).power.bootKind ≠ 1 ∧
    (s.arrive t).mayStep (BootStep.components none prevOk) = true) ∧
    (∃ (t : Nat) (s : State) (c : Nat) (prevOk : Bool), (s.arrive t).power.bootKind ≠ 1 ∧
    (s.arrive t).mayStep (BootStep.components (some c) prevOk) = true ∧
    (s.arrive t).sheaf.recTrial = false ∧
    prevOk = true ∧
    (s.arrive t).sheaf.previous ≠ 0) ∧
    (∃ (t : Nat) (s : State) (c : Nat) (prevOk : Bool), (s.arrive t).power.bootKind ≠ 1 ∧
    (s.arrive t).mayStep (BootStep.components (some c) prevOk) = true ∧
    ((s.arrive t).sheaf.recTrial = true ∨ prevOk = false ∨ (s.arrive t).sheaf.previous = 0)) ∧
    (∃ (t : Nat) (s : State) (passed : Nat), (s.arrive t).power.bootKind ≠ 1 ∧
    (s.arrive t).mayStep (BootStep.lbist passed) = true) ∧
    (∃ (t : Nat) (s : State) (ok : Bool), (s.arrive t).power.bootKind ≠ 1 ∧
    (s.arrive t).mayStep (BootStep.config ok) = true) ∧
    (∃ (t : Nat) (s : State), (s.arrive t).power.bootKind ≠ 1 ∧
    (s.arrive t).mayStep BootStep.holdup = true) ∧
    (∃ (passed : Nat) (n : Nat) (s : State), n < s.lock.pairs.length ∧
    (s.corePair n).disabled = false ∧
    bit passed n = false) ∧
    (∃ (passed : Nat) (n : Nat) (s : State), n < s.lock.pairs.length ∧
    (s.corePair n).disabled = false ∧
    bit passed n = true) ∧
    (∃ (n : Nat) (s : State), n < s.lock.pairs.length ∧
    (s.corePair n).disabled = true) :=
  ⟨⟨0, .store, State.reset, by decide +kernel⟩,
    ⟨0, (State.reset.upPower fun p => { p with bootKind := 0 }).upBoot fun p => { p with lingKept := true }, by decide +kernel⟩,
    ⟨0, (State.reset.upPower fun p => { p with bootKind := 0 }).upBoot fun p => { p with lingKept := false }, by decide +kernel⟩,
    ⟨0,
      (((State.reset.upPower fun p => { p with bootKind := 0 }).upSheaf fun p => { p with recTrial := false }).upBoot fun p => { p with tamperLatched := none, step := 1 }).upSec fun p => { p with latch := 0 },
      true, by decide +kernel⟩,
    ⟨0, ((State.reset.upPower fun p => { p with bootKind := 0 }).upSheaf fun p => { p with recTrial := false }).upBoot fun p => { p with step := 1 },
      false, by decide +kernel⟩,
    ⟨0, (State.reset.upPower fun p => { p with bootKind := 0 }).upBoot fun p => { p with step := 2 }, by decide +kernel⟩,
    ⟨0, (State.reset.upPower fun p => { p with bootKind := 0 }).upBoot fun p => { p with step := 2 }, 0, 0, by decide +kernel⟩,
    ⟨0, (State.reset.upPower fun p => { p with bootKind := 0 }).upBoot fun p => { p with step := 3 }, by decide +kernel⟩,
    ⟨0, (State.reset.upPower fun p => { p with bootKind := 0 }).upBoot fun p => { p with step := 4 }, true, by decide +kernel⟩,
    ⟨0,
      ((State.reset.upPower fun p => { p with bootKind := 0 }).upSheaf fun p => { p with recTrial := false, previous := 1 }).upBoot fun p => { p with step := 4 },
      0, true, by decide +kernel⟩,
    ⟨0, ((State.reset.upPower fun p => { p with bootKind := 0 }).upSheaf fun p => { p with recTrial := true }).upBoot fun p => { p with step := 4 },
      0, false, by decide +kernel⟩,
    ⟨0, (State.reset.upPower fun p => { p with bootKind := 0 }).upBoot fun p => { p with step := 5 }, 0, by decide +kernel⟩,
    ⟨0, (State.reset.upPower fun p => { p with bootKind := 0 }).upBoot fun p => { p with step := 6 }, true, by decide +kernel⟩,
    ⟨0, (State.reset.upPower fun p => { p with bootKind := 0 }).upBoot fun p => { p with step := 7 }, by decide +kernel⟩,
    ⟨0, 0, State.reset.upLock fun p => { p with pairs := (setAt p.pairs 0 fun e1 => { e1 with disabled := false }) }, by decide +kernel⟩,
    ⟨1, 0, State.reset.upLock fun p => { p with pairs := (setAt p.pairs 0 fun e1 => { e1 with disabled := false }) }, by decide +kernel⟩,
    ⟨0, State.reset.upLock fun p => { p with pairs := (setAt p.pairs 0 fun e1 => { e1 with disabled := true }) }, by decide +kernel⟩⟩
/-- Hypotheses of `Obligations.CanConfinesFaults` that hold together. -/
theorem witness_CanConfinesFaults :
    (∃ (tec : Nat), 255 < tec) ∧
    (∃ (tec : Nat) (rec_ : Nat), tec ≤ 255 ∧
    (127 < tec ∨ 127 < rec_)) ∧
    (∃ (tec : Nat) (rec_ : Nat), tec ≤ 127 ∧
    rec_ ≤ 127) ∧
    (∃ (auto : Bool) (h : CanCh) (b : TxBuf), b ∈ (CanCh.busOff auto h).tx) ∧
    (∃ (t : Nat) (ch : Nat) (s : State), (s.arrive t).awake = true ∧
    ((s.arrive t).conf.canCfg ch).enabled = true ∧
    ((s.arrive t).canCh ch).fc ≠ 2 ∧
    ch < 2 ∧
    ch < (s.arrive t).can.length ∧
    ((s.arrive t).canCh ch).tec ≤ 255) ∧
    (∃ (t : Nat) (ch : Nat) (s : State), (s.arrive t).awake = true ∧
    2 ≤ ch) ∧
    (∃ (t : Nat) (ch : Nat) (s : State), (s.arrive t).awake = true ∧
    ch < 2 ∧
    (s.arrive t).pair.owner = true ∧
    ((s.arrive t).canCh ch).fc = 2) ∧
    (∃ (t : Nat) (ch : Nat) (s : State), (s.arrive t).awake = true ∧
    ch < 2 ∧
    ((s.arrive t).pair.owner = false ∨ ((s.arrive t).canCh ch).fc ≠ 2)) ∧
    (∃ (t : Nat) (ch : Nat) (s : State), ((s.arrive t).canCh ch).fc = 2 ∧
    ((s.arrive t).canCh ch).recovering = true) ∧
    (∃ (t : Nat) (ch : Nat) (s : State), (s.arrive t).awake = true ∧
    ((s.arrive t).canCh ch).integrating = true) ∧
    (∃ (t : Nat) (ch : Nat) (s : State), ((s.arrive t).canCh ch).newFilters = true) :=
  ⟨⟨256, by decide +kernel⟩,
    ⟨128, 0, by decide +kernel⟩,
    ⟨0, 0, by decide +kernel⟩,
    ⟨true, CanCh.reset, TxBuf.reset, by decide +kernel⟩,
    ⟨0, 0,
      State.reset.upCfg fun p => { p with sown := { p.sown with present := true, cfg := { p.sown.cfg with can := List.replicate 2 { words := [0, 0, 1, 0, 0], tx := List.replicate 32 0, filters := [] } } } },
      by decide +kernel⟩,
    ⟨0, 2, State.reset, by decide +kernel⟩,
    ⟨0, 0, (State.reset.upPair fun p => { p with owner := true }).upCan fun p => (setAt p 0 fun e0 => { e0 with fc := 2 }), by decide +kernel⟩,
    ⟨0, 0, State.reset.upPair fun p => { p with owner := false }, by decide +kernel⟩,
    ⟨0, 0, State.reset.upCan fun p => (setAt p 0 fun e0 => { e0 with fc := 2, recovering := true }), by decide +kernel⟩,
    ⟨0, 0, State.reset.upCan fun p => (setAt p 0 fun e0 => { e0 with integrating := true }), by decide +kernel⟩,
    ⟨0, 0, State.reset.upCan fun p => (setAt p 0 fun e0 => { e0 with newFilters := true }), by decide +kernel⟩⟩
/-- Hypotheses of `Obligations.CanFiltersDecideInOrder` that hold together. -/
theorem witness_CanFiltersDecideInOrder :
    (∃ (c : CanCfg) (f : CanFrame) (i : Nat), i < c.filters.length ∧
    filterMatches (c.filters.getD i (0, 0, 0)) f = true ∧
    (∀ j < i, filterMatches (c.filters.getD j (0, 0, 0)) f = false)) ∧
    (∃ (c : CanCfg) (f : CanFrame), (∀ j < c.filters.length, filterMatches (c.filters.getD j (0, 0, 0)) f = false)) ∧
    (∃ (e : Nat × Nat × Nat) (f : CanFrame), bits e.2.2 2 2 ≠ (if f.xtd = true then 2 else 1)) ∧
    (∃ (e : Nat × Nat × Nat) (f : CanFrame), bits e.2.2 2 2 = (if f.xtd = true then 2 else 1) ∧
    bits e.2.2 0 2 = 0) ∧
    (∃ (e : Nat × Nat × Nat) (f : CanFrame), bits e.2.2 2 2 = (if f.xtd = true then 2 else 1) ∧
    bits e.2.2 0 2 = 1) ∧
    (∃ (e : Nat × Nat × Nat) (f : CanFrame), bits e.2.2 2 2 = (if f.xtd = true then 2 else 1) ∧
    bits e.2.2 0 2 = 2) ∧
    (∃ (c : CanCfg) (f : CanFrame), (f.remote = true ∨ (c.decide_ f).2 = 0)) ∧
    (∃ (q : List CanRec), q.length < 64) ∧
    (∃ (q : List CanRec), 64 ≤ q.length) ∧
    (∃ (q : List CanRec), 64 ≤ q.length) ∧
    (∃ (q : List CanRec), q.length ≤ 64) :=
  ⟨⟨{ words := [], tx := [], filters := [(0x100, 0x1FF, 4)] }, wCanF, 0, by decide +kernel⟩,
    ⟨(noCfg.canCfg 0), wCanF, by decide +kernel⟩,
    ⟨(0, 0, 8), wCanF, by decide +kernel⟩,
    ⟨(0x100, 0x1FF, 4), wCanF, by decide +kernel⟩,
    ⟨(0x100, 0x1FF, 5), wCanF, by decide +kernel⟩,
    ⟨(0x100, 0x1FF, 6), wCanF, by decide +kernel⟩,
    ⟨(noCfg.canCfg 0), wCanF, by decide +kernel⟩,
    ⟨[], by decide +kernel⟩,
    ⟨List.replicate 64 wRec, by decide +kernel⟩,
    ⟨List.replicate 64 wRec, by decide +kernel⟩,
    ⟨[], by decide +kernel⟩⟩
/-- Hypotheses of `Obligations.CanReceives` that hold together. -/
theorem witness_CanReceives :
    (∃ (t : Nat) (ch : Nat) (f : CanFrame) (s : State), (s.arrive t).awake = true ∧
    ((s.arrive t).conf.canCfg ch).enabled = true ∧
    ((s.arrive t).canCh ch).fc ≠ 2 ∧
    ch < 2 ∧
    ((s.arrive t).conf.canCfg ch).isRef f = false) ∧
    (∃ (t : Nat) (ch : Nat) (f : CanFrame) (s : State), (s.arrive t).awake = true ∧
    ((s.arrive t).conf.canCfg ch).enabled = true ∧
    ((s.arrive t).canCh ch).fc ≠ 2 ∧
    ch < 2 ∧
    ((s.arrive t).conf.canCfg ch).isRef f = true) :=
  ⟨⟨0, 0, wCanF,
     State.reset.upCfg fun p => { p with sown := { p.sown with present := true, cfg := { p.sown.cfg with can := List.replicate 2 { words := [0, 0, 1, 0, 0], tx := List.replicate 32 0, filters := [] } } } },
     by decide +kernel⟩,
    ⟨0, 0, wCanF,
      State.reset.upCfg fun p => { p with sown := { p.sown with present := true, cfg := { p.sown.cfg with can := List.replicate 2 { words := [0, 0, 1 + 2 ^ 14, 0x100, 0], tx := List.replicate 32 0, filters := [] } } } },
      by decide +kernel⟩⟩
/-- Hypotheses of `Obligations.CanTransmits` that hold together. -/
theorem witness_CanTransmits :
    (∃ (t : Nat) (ch : Nat) (buf : Nat) (s : State), (s.arrive t).pair.owner = true ∧
    ((s.arrive t).conf.canCfg ch).enabled = true ∧
    ((s.arrive t).canCh ch).monitoring = false ∧
    (s.arrive t).boot.retiring = false ∧
    (((s.arrive t).conf.canCfg ch).txUse buf = 1 ∨ ((s.arrive t).conf.canCfg ch).txUse buf = 2)) ∧
    (∃ (h : CanCh) (b : Nat), b < h.tx.length ∧
    h.fc = 2) ∧
    (∃ (h : CanCh) (b : Nat), b < h.tx.length ∧
    h.fc ≠ 2 ∧
    (h.tx.getD b TxBuf.reset).status = 2) ∧
    (∃ (h : CanCh) (b : Nat), b < h.tx.length ∧
    h.fc ≠ 2 ∧
    (h.tx.getD b TxBuf.reset).status = 1) ∧
    (∃ (h : CanCh) (b : Nat), b < h.tx.length ∧
    h.fc ≠ 2 ∧
    (h.tx.getD b TxBuf.reset).status ≠ 1 ∧
    (h.tx.getD b TxBuf.reset).status ≠ 2) ∧
    (∃ (t : Nat) (ch : Nat) (buf : Nat) (s : State), (s.arrive t).awake = true ∧
    (((s.arrive t).canCh ch).tx.getD buf TxBuf.reset).status = 2 ∧
    ch < (s.arrive t).can.length) ∧
    (∃ (t : Nat) (ch : Nat) (buf : Nat) (s : State), (s.arrive t).awake = true ∧
    (ch ≥ 2 ∨ buf ≥ 32 ∨ ((s.arrive t).conf.canCfg ch).txUse buf = 3 ∨ ((s.arrive t).conf.canCfg ch).tmEnable = true ∧ ((s.arrive t).conf.canCfg ch).tmBuffer = buf)) ∧
    (∃ (t : Nat) (ch : Nat) (buf : Nat) (s : State), (s.arrive t).awake = true ∧
    ch < 2 ∧
    buf < 32 ∧
    ((s.arrive t).conf.canCfg ch).txUse buf ≠ 3 ∧
    (¬(((s.arrive t).conf.canCfg ch).tmEnable = true ∧ ((s.arrive t).conf.canCfg ch).tmBuffer = buf)) ∧
    (((s.arrive t).canCh ch).tx.getD buf TxBuf.reset).status = 1) ∧
    (∃ (t : Nat) (ch : Nat) (buf : Nat) (s : State), (s.arrive t).awake = true ∧
    ch < 2 ∧
    buf < 32 ∧
    ((s.arrive t).conf.canCfg ch).txUse buf ≠ 3 ∧
    (¬(((s.arrive t).conf.canCfg ch).tmEnable = true ∧ ((s.arrive t).conf.canCfg ch).tmBuffer = buf)) ∧
    (((s.arrive t).canCh ch).tx.getD buf TxBuf.reset).status = 2) ∧
    (∃ (t : Nat) (ch : Nat) (buf : Nat) (s : State), (s.arrive t).awake = true ∧
    ch < 2 ∧
    buf < 32 ∧
    ((s.arrive t).conf.canCfg ch).txUse buf ≠ 3 ∧
    (¬(((s.arrive t).conf.canCfg ch).tmEnable = true ∧ ((s.arrive t).conf.canCfg ch).tmBuffer = buf)) ∧
    (((s.arrive t).canCh ch).tx.getD buf TxBuf.reset).status ≠ 1 ∧
    (((s.arrive t).canCh ch).tx.getD buf TxBuf.reset).status ≠ 2) ∧
    (∃ (t : Nat) (ch : Nat) (s : State), (s.arrive t).pair.owner = true ∧
    ((s.arrive t).conf.canCfg ch).enabled = true ∧
    ((s.arrive t).conf.canCfg ch).tmEnable = true ∧
    ((s.arrive t).canCh ch).monitoring = false ∧
    (s.arrive t).tb0Valid = true ∧
    ((s.arrive t).canCh ch).integrating = false ∧
    (s.arrive t).boot.retiring = false) ∧
    (∃ (t : Nat) (ch : Nat) (s : State), (((s.arrive t).canCh ch).tx.getD ((s.arrive t).conf.canCfg ch).tmBuffer TxBuf.reset).isRef = true ∧
    (((s.arrive t).canCh ch).tx.getD ((s.arrive t).conf.canCfg ch).tmBuffer TxBuf.reset).status = 1 ∧
    (((s.arrive t).canCh ch).tx.getD ((s.arrive t).conf.canCfg ch).tmBuffer TxBuf.reset).refAt + ((s.arrive t).conf.canCfg ch).basicNs / 2 ≤ (s.arrive t).tb0) :=
  ⟨⟨0, 0, 0,
     (((State.reset.upPair fun p => { p with owner := true }).upBoot fun p => { p with retiring := false }).upCfg fun p => { p with sown := { p.sown with present := true, cfg := { p.sown.cfg with can := List.replicate 2 { words := [0, 0, 1, 0, 0], tx := List.replicate 32 16, filters := [] } } } }).upCan fun p => (setAt p 0 fun e0 => { e0 with monitoring := false }),
     by decide +kernel⟩,
    ⟨{ CanCh.reset with fc := 2 }, 0, by decide +kernel⟩,
    ⟨{ CanCh.reset with tx := setAt CanCh.reset.tx 0 fun b => { b with status := 2 } }, 0, by decide +kernel⟩,
    ⟨{ CanCh.reset with tx := setAt CanCh.reset.tx 0 fun b => { b with status := 1 } }, 0, by decide +kernel⟩,
    ⟨CanCh.reset, 0, by decide +kernel⟩,
    ⟨0, 0, 0, State.reset.upCan fun p => (setAt p 0 fun e0 => { e0 with tx := (setAt e0.tx 0 fun e2 => { e2 with status := 2 }) }),
      by decide +kernel⟩,
    ⟨0, 2, 0, State.reset, by decide +kernel⟩,
    ⟨0, 0, 0, State.reset.upCan fun p => (setAt p 0 fun e0 => { e0 with tx := (setAt e0.tx 0 fun e2 => { e2 with status := 1 }) }),
      by decide +kernel⟩,
    ⟨0, 0, 0, State.reset.upCan fun p => (setAt p 0 fun e0 => { e0 with tx := (setAt e0.tx 0 fun e2 => { e2 with status := 2 }) }),
      by decide +kernel⟩,
    ⟨0, 0, 0, State.reset, by decide +kernel⟩,
    ⟨0, 0,
      ((((State.reset.upPair fun p => { p with owner := true }).upBoot fun p => { p with retiring := false }).upTime fun p => { p with tb0 := { p.tb0 with st := 2 } }).upCfg fun p => { p with sown := { p.sown with present := true, cfg := { p.sown.cfg with can := List.replicate 2 { words := [0, 0, 1 + 2 ^ 14, 0x100, 0], tx := List.replicate 32 0, filters := [] } } } }).upCan fun p => (setAt p 0 fun e0 => { e0 with monitoring := false }),
      by decide +kernel⟩,
    ⟨0, 0, State.reset.upCan fun p => (setAt p 0 fun e0 => { e0 with tx := (setAt e0.tx 0 fun e2 => { e2 with isRef := true, status := 1 }) }),
      by decide +kernel⟩⟩
/-- Hypotheses of `Obligations.ClaimsFollowTheHedge` that hold together. -/
theorem witness_ClaimsFollowTheHedge :
    (∃ (t : Nat) (s : State), (s.arrive t).pair.owner = true ∧
    (s.arrive t).pair.ownClaim = true) ∧
    (∃ (t : Nat) (s : State), (s.arrive t).awake = true ∧
    (s.arrive t).pair.twinClaim = false ∧
    ((s.arrive t).pair.ownClaim = false ∨ (s.arrive t).pair.confirmed = true ∨ (s.arrive t).pair.ownClaimAt + 500 < (s.arrive t).time.now)) ∧
    (∃ (t : Nat) (s : State), (s.arrive t).awake = true ∧
    (s.arrive t).pair.twinClaim = false ∧
    (s.arrive t).pair.ownClaim = true ∧
    (s.arrive t).pair.confirmed = false ∧
    (s.arrive t).time.now ≤ (s.arrive t).pair.ownClaimAt + 500 ∧
    (s.arrive t).slotB = false) ∧
    (∃ (t : Nat) (s : State), (s.arrive t).awake = true ∧
    (s.arrive t).pair.twinClaim = false ∧
    (s.arrive t).pair.ownClaim = true ∧
    (s.arrive t).pair.confirmed = false ∧
    (s.arrive t).time.now ≤ (s.arrive t).pair.ownClaimAt + 500 ∧
    (s.arrive t).slotB = true ∧
    ((s.arrive t).pair.claimKind ≠ 0 ∨ (s.arrive t).power.mode ≠ 1 ∧ (s.arrive t).power.mode ≠ 7)) ∧
    (∃ (t : Nat) (s : State), (s.arrive t).awake = true ∧
    (s.arrive t).pair.twinClaim = false ∧
    (s.arrive t).pair.ownClaim = true ∧
    (s.arrive t).pair.confirmed = false ∧
    (s.arrive t).time.now ≤ (s.arrive t).pair.ownClaimAt + 500 ∧
    (s.arrive t).slotB = true ∧
    (s.arrive t).pair.claimKind = 0 ∧
    ((s.arrive t).power.mode = 1 ∨ (s.arrive t).power.mode = 7)) ∧
    (∃ (t : Nat) (s : State), (s.arrive t).awake = true ∧
    (s.arrive t).pair.twinClaim = true ∧
    ((s.arrive t).power.mode ≠ 3 ∧ ((s.arrive t).power.mode ≠ 4 ∨ (s.arrive t).pair.synced = true) ∨ (s.arrive t).swathSilent = false ∧ (s.arrive t).pair.yielded = false)) ∧
    (∃ (t : Nat) (s : State), (s.arrive t).awake = true ∧
    (s.arrive t).pair.twinClaim = true ∧
    ((s.arrive t).power.mode = 3 ∨ (s.arrive t).power.mode = 4 ∧ (s.arrive t).pair.synced = false) ∧
    ((s.arrive t).swathSilent = true ∨ (s.arrive t).pair.yielded = true)) ∧
    (∃ (t : Nat) (s : State), (s.arrive t).awake = true ∧
    (s.arrive t).pair.twinClaim = true ∧
    (s.arrive t).power.mode = 4 ∧
    (s.arrive t).pair.synced = true ∧
    (s.arrive t).pair.yielded = true ∧
    (s.arrive t).pair.ownClaim = false ∧
    (s.arrive t).boot.retiring = false) ∧
    (∃ (t : Nat) (s : State), (s.arrive t).power.mode = 4 ∧
    (s.arrive t).pair.synced = true ∧
    (s.arrive t).pair.twinClaim = false ∧
    (s.arrive t).pair.ownClaim = false ∧
    ((s.arrive t).swathSilent = true ∨ (s.arrive t).pair.yielded = true) ∧
    (s.arrive t).boot.retiring = false) ∧
    (∃ (t : Nat) (s : State), (s.arrive t).awake = true ∧
    ((s.arrive t).power.mode ≠ 3 ∧ ((s.arrive t).power.mode ≠ 4 ∨ (s.arrive t).pair.synced = true) ∨ (s.arrive t).pair.twinClaim = true)) ∧
    (∃ (t : Nat) (s : State), (s.arrive t).awake = true ∧
    (s.arrive t).swathSilent = true) ∧
    (∃ (t : Nat) (s : State), (s.arrive t).awake = true ∧
    (s.arrive t).swathSilent = false ∧
    (s.arrive t).pair.owner = true ∧
    (s.arrive t).pair.confirmed = true ∧
    (s.arrive t).pair.ownClaimAt + 30000 ≤ (s.arrive t).time.now) ∧
    (∃ (t : Nat) (s : State), (s.arrive t).awake = true ∧
    (s.arrive t).swathSilent = false ∧
    (s.arrive t).power.mode = 4 ∧
    (s.arrive t).pair.owner = false ∧
    (s.arrive t).pair.twinClaim = false ∧
    (s.arrive t).pair.yielded = false) ∧
    (∃ (t : Nat) (s : State), (s.arrive t).awake = true ∧
    (s.arrive t).pair.yielded = true ∧
    (s.arrive t).pair.twinClaim = true ∧
    (s.arrive t).pair.yieldAt + 25000 ≤ (s.arrive t).time.now) ∧
    (∃ (t : Nat) (s : State), (s.arrive t).power.mode = 4 ∧
    (s.arrive t).pair.synced = true ∧
    (s.arrive t).swathSilent = true ∧
    (s.arrive t).pair.twinClaim = true ∧
    (s.arrive t).pair.silentAt + 5000 ≤ (s.arrive t).time.now) :=
  ⟨⟨0, State.reset.upPair fun p => { p with owner := true, ownClaim := true }, by decide +kernel⟩,
    ⟨0, State.reset.upPair fun p => { p with twinClaim := false, ownClaim := false }, by decide +kernel⟩,
    ⟨0, State.reset.upPair fun p => { p with twinClaim := false, ownClaim := true, confirmed := false }, by decide +kernel⟩,
    ⟨0, State.reset.upPair fun p => { p with twinClaim := false, ownClaim := true, confirmed := false, claimKind := 1, slotId := 1 },
      by decide +kernel⟩,
    ⟨0,
      (State.reset.upPair fun p => { p with twinClaim := false, ownClaim := true, confirmed := false, claimKind := 0, slotId := 1 }).upPower fun p => { p with mode := 1 },
      by decide +kernel⟩,
    ⟨0, (State.reset.upPair fun p => { p with twinClaim := true }).upPower fun p => { p with mode := 0 }, by decide +kernel⟩,
    ⟨0, (State.reset.upPair fun p => { p with twinClaim := true }).upPower fun p => { p with mode := 3 }, by decide +kernel⟩,
    ⟨0,
      ((State.reset.upPair fun p => { p with twinClaim := true, synced := true, yielded := true, ownClaim := false }).upPower fun p => { p with mode := 4 }).upBoot fun p => { p with retiring := false },
      by decide +kernel⟩,
    ⟨0,
      ((State.reset.upPower fun p => { p with mode := 4 }).upPair fun p => { p with synced := true, twinClaim := false, ownClaim := false }).upBoot fun p => { p with retiring := false },
      by decide +kernel⟩,
    ⟨0, State.reset.upPower fun p => { p with mode := 0 }, by decide +kernel⟩,
    ⟨0, State.reset, by decide +kernel⟩,
    ⟨0, (State.reset.upPair fun p => { p with owner := true, confirmed := true, lane0 := true }).upTime fun p => { p with now := 0 + 30000 },
      by decide +kernel⟩,
    ⟨0,
      (State.reset.upPower fun p => { p with mode := 4 }).upPair fun p => { p with owner := false, twinClaim := false, yielded := false, lane0 := true },
      by decide +kernel⟩,
    ⟨0, (State.reset.upPair fun p => { p with yielded := true, twinClaim := true }).upTime fun p => { p with now := 0 + 25000 }, by decide +kernel⟩,
    ⟨0,
      ((State.reset.upPower fun p => { p with mode := 4 }).upPair fun p => { p with synced := true, twinClaim := true }).upTime fun p => { p with now := 0 + 5000 },
      by decide +kernel⟩⟩
/-- Hypotheses of `Obligations.ClockReadsPulsesAndCaptures` that hold together. -/
theorem witness_ClockReadsPulsesAndCaptures :
    (∃ (t : Nat) (b : Nat) (s : State), (s.arrive t).awake = true ∧
    (s.arrive t).boot.coresOff = false ∧
    b < 4) ∧
    (∃ (t : Nat) (p : Nat) (d : Nat) (s : State) (n : Nat), (s.arrive t).timeRuns = true ∧
    (s.arrive t).linkUp p = true ∧
    (s.arrive t).baseOfDomain d = some n ∧
    PortTime.role n ((s.arrive t).port p) = 1 ∧
    ((s.arrive t).base n).st = 6 ∧
    (s.arrive t).mayBeGm n = true) ∧
    (∃ (t : Nat) (p : Nat) (d : Nat) (s : State) (n : Nat), (s.arrive t).timeRuns = true ∧
    (s.arrive t).linkUp p = true ∧
    (s.arrive t).baseOfDomain d = some n ∧
    PortTime.role n ((s.arrive t).port p) ≠ 1) ∧
    (∃ (s : State), s.power.mode = 4) ∧
    (∃ (s : State), s.power.mode ≠ 4) ∧
    (∃ (t : Nat) (slot : Nat) (s : State), (s.arrive t).triggerOn slot = true ∧
    bits (((s.arrive t).trigger slot).getD 0 0) 24 8 = 2) ∧
    (∃ (t : Nat) (slot : Nat) (s : State) (e : GclEntry) (es : List GclEntry), (s.arrive t).triggerOn slot = true ∧
    bits (((s.arrive t).trigger slot).getD 0 0) 24 8 = 3 ∧
    (s.arrive t).gclOf (bits (((s.arrive t).trigger slot).getD 0 0) 16 8) = e :: es) ∧
    (∃ (t : Nat) (slot : Nat) (s : State), (s.arrive t).triggerOn slot = true ∧
    bits (((s.arrive t).trigger slot).getD 0 0) 24 8 = 4) ∧
    (∃ (t : Nat) (s : State), (s.arrive t).awake = true ∧
    2 ≤ ((s.arrive t).base (s.arrive t).conf.time.ppsOutBase).st) ∧
    (∃ (t : Nat) (s : State), (s.arrive t).awake = true ∧
    ((s.arrive t).base (s.arrive t).conf.time.ppsOutBase).st < 2) ∧
    (∃ (t : Nat) (rising : Bool) (s : State), (s.arrive t).ppsOn rising = true) ∧
    (∃ (t : Nat) (rising : Bool) (s : State), (s.arrive t).dio15On rising = true) ∧
    (∃ (t : Nat) (p : Nat) (s : State) (e : GclEntry), (s.arrive t).awake = true ∧
    ((s.arrive t).gclOf p)[((s.arrive t).port p).gclIndex + 1]? = some e ∧
    ((s.arrive t).port p).gclRunning = true) ∧
    (∃ (t : Nat) (p : Nat) (s : State), (s.arrive t).awake = true ∧
    ((s.arrive t).gclOf p)[((s.arrive t).port p).gclIndex + 1]? = none) ∧
    (∃ (t : Nat) (s : State), (s.arrive t).awake = true ∧
    (s.arrive t).power.mode ≠ 1) :=
  ⟨⟨0, 0, State.reset.upBoot fun p => { p with coresOff := false }, by decide +kernel⟩,
    ⟨0, 0, 0,
      (((State.reset.upPower fun p => { p with mode := 6 }).upSfp fun p => (setAt p 0 fun e0 => { e0 with linkUp := true })).upTime fun p => { p with ports := (setAt p.ports 0 fun e1 => { e1 with role0 := 1 }), tb0 := { p.tb0 with st := 6 } }).upCfg fun p => { p with sown := { p.sown with present := true, cfg := { p.sown.cfg with time := { p.sown.cfg.time with gmCapable := 1 } } } },
      0, by decide +kernel⟩,
    ⟨0, 0, 0, (State.reset.upPower fun p => { p with mode := 6 }).upSfp fun p => (setAt p 0 fun e0 => { e0 with linkUp := true }), 0,
      by decide +kernel⟩,
    ⟨State.reset.upPower fun p => { p with mode := 4 }, by decide +kernel⟩,
    ⟨State.reset.upPower fun p => { p with mode := 0 }, by decide +kernel⟩,
    ⟨0, 4,
      (State.reset.upCfg fun p => { p with sown := { p.sown with present := true, cfg := { p.sown.cfg with time := { p.sown.cfg.time with triggers := List.replicate 28 [2 * 2 ^ 24 + 1, 0, 0, 0] } } } }).upTime fun p => { p with tb0 := { p.tb0 with st := 2 } },
      by decide +kernel⟩,
    ⟨0, 4,
      (State.reset.upCfg fun p => { p with sown := { p.sown with present := true, cfg := { p.sown.cfg with time := { p.sown.cfg.time with triggers := List.replicate 28 [3 * 2 ^ 24 + 1, 0, 0, 0], lists := [[wGcl], [], [], []] } } } }).upTime fun p => { p with tb0 := { p.tb0 with st := 2 } },
      wGcl, [], by decide +kernel⟩,
    ⟨0, 4,
      (State.reset.upCfg fun p => { p with sown := { p.sown with present := true, cfg := { p.sown.cfg with time := { p.sown.cfg.time with triggers := List.replicate 28 [4 * 2 ^ 24 + 1, 0, 0, 0] } } } }).upTime fun p => { p with tb0 := { p.tb0 with st := 2 } },
      by decide +kernel⟩,
    ⟨0, State.reset.upTime fun p => { p with tb0 := { p.tb0 with st := 2 } }, by decide +kernel⟩,
    ⟨0, State.reset, by decide +kernel⟩,
    ⟨0, true,
      State.reset.upCfg fun p => { p with sown := { p.sown with present := true, cfg := { p.sown.cfg with time := { p.sown.cfg.time with ppsIn := 1 } } } },
      by decide +kernel⟩,
    ⟨0, true,
      State.reset.upCfg fun p => { p with sown := { p.sown with present := true, cfg := { p.sown.cfg with dio := setAt (List.replicate 16 0) 15 fun _ => 1 + 2 ^ 10 } } },
      by decide +kernel⟩,
    ⟨0, 0,
      (State.reset.upTime fun p => { p with ports := (setAt p.ports 0 fun e1 => { e1 with gclRunning := true }) }).upCfg fun p => { p with sown := { p.sown with present := true, cfg := { p.sown.cfg with time := { p.sown.cfg.time with lists := [[wGcl, wGcl], [], [], []] } } } },
      wGcl, by decide +kernel⟩,
    ⟨0, 0, State.reset, by decide +kernel⟩,
    ⟨0, State.reset.upPower fun p => { p with mode := 0 }, by decide +kernel⟩⟩
/-- Hypotheses of `Obligations.CommandsLeaveTheQueueAndTheClockGoesOn` that hold together. -/
theorem witness_CommandsLeaveTheQueueAndTheClockGoesOn :
    (∃ (c : Instr) (s : State) (s' : State), exec c s = Host.Outcome.next s') ∧
    (∃ (s : State) (s' : State), step s = Host.Outcome.next s') :=
  ⟨⟨.takeover 5, State.reset, State.reset.arrive 5, rfl⟩,
    ⟨State.reset, State.reset.arrive 1, rfl⟩⟩
/-- Hypotheses of `Obligations.CompletionsReachTheirPoints` that hold together. -/
theorem witness_CompletionsReachTheirPoints :
    (∃ (h : Nat) (status : Nat) (s : State), Memory.wf s.mem = true ∧
    h ≤ 6291455 ∧
    ruleKind (s.ruleOf h) ≠ 0 ∧
    status ≠ 0 ∧
    (s.img h).forced = false ∧
    (s.img h).simulated = false) ∧
    (∃ (h : Nat) (r : Word64) (s : State), Memory.wf s.mem = true ∧
    h ≤ 6291455 ∧
    ruleKind (s.ruleOf h) ≠ 0 ∧
    (s.img h).forced = false ∧
    (s.img h).simulated = false ∧
    (s.conf.filter r).type = 0 ∧
    ruleKind r = 1) ∧
    (∃ (h : Nat) (r : Word64) (s : State), Memory.wf s.mem = true ∧
    h ≤ 6291455 ∧
    ruleKind (s.ruleOf h) ≠ 0 ∧
    (s.img h).forced = false ∧
    (s.img h).simulated = false ∧
    (s.conf.filter r).type = 0 ∧
    ruleKind r = 7) ∧
    (∃ (h : Nat) (s : State), Memory.wf s.mem = true ∧
    h ≤ 6291455 ∧
    ruleKind (s.ruleOf h) ≠ 0 ∧
    ((s.img h).forced = true ∨ (s.img h).simulated = true)) :=
  ⟨⟨1, 1, wPt 1 0x1000000000000000#64, by decide +kernel⟩,
    ⟨0x5FFFFF, 0x1000000000000000#64, wPt 0x5FFFFF 0x1000000000000000#64, by decide +kernel⟩,
    ⟨1, 0x7000000000000000#64, wPt 1 0x7000000000000000#64, by decide +kernel⟩,
    ⟨1, (wPt 1 0x1000000000000000#64).upImg 1 fun g => { g with forced := true }, by decide +kernel⟩⟩
/-- Hypotheses of `Obligations.ConfigurationsAreStagedCheckedAndListed` that hold together. -/
theorem witness_ConfigurationsAreStagedCheckedAndListed :
    (∃ (t : Nat) (r : Req) (s : State), State.accepts stageCmd r (s.arrive t)) ∧
    (∃ (img : List Byte) (n : Nat), n = field img 8 4 ∧
    n = 0) ∧
    (∃ (img : List Byte) (s : State) (n : Nat), n = field img 8 4 ∧
    n ≠ 0 ∧
    s.cfg.seed.present = true ∧
    s.cfg.seed.cfg.version = n ∧
    s.cfg.seed.cfg.digest = slice img 40 48) ∧
    (∃ (img : List Byte) (s : State) (n : Nat), n = field img 8 4 ∧
    n ≠ 0 ∧
    (¬(s.cfg.seed.present = true ∧ s.cfg.seed.cfg.version = n ∧ s.cfg.seed.cfg.digest = slice img 40 48)) ∧
    s.cfg.highWater = 4294967295) ∧
    (∃ (img : List Byte) (s : State) (n : Nat), n = field img 8 4 ∧
    n ≠ 0 ∧
    (¬(s.cfg.seed.present = true ∧ s.cfg.seed.cfg.version = n ∧ s.cfg.seed.cfg.digest = slice img 40 48)) ∧
    s.cfg.highWater ≠ 4294967295 ∧
    n ≤ s.cfg.highWater) ∧
    (∃ (img : List Byte) (s : State) (n : Nat), n = field img 8 4 ∧
    n ≠ 0 ∧
    (¬(s.cfg.seed.present = true ∧ s.cfg.seed.cfg.version = n ∧ s.cfg.seed.cfg.digest = slice img 40 48)) ∧
    s.cfg.highWater ≠ 4294967295 ∧
    s.cfg.highWater < n) ∧
    (∃ (t : Nat) (j : CfgJob) (s : State), (s.arrive t).cfg.job = some j ∧
    j.isCheck = false ∧
    (j.needsTwin = true → j.twin ≠ none)) ∧
    (∃ (t : Nat) (r : Req) (s : State), State.accepts checkCmd r (s.arrive t)) ∧
    (∃ (t : Nat) (j : CfgJob) (s : State), (s.arrive t).cfg.job = some j ∧
    (s.arrive t).checkMayEnd = true) ∧
    (∃ (t : Nat) (r : Req) (s : State), State.accepts (listCmd r) r (s.arrive t)) ∧
    (∃ (x : Slot), x.present = false) ∧
    (∃ (x : Slot), x.present = true) ∧
    (∃ (t : Nat) (m : Mb14Resp) (s : State), (s.arrive t).awake = true ∧
    List.find? (fun q => q.id == m.id) (s.arrive t).msg.mb14 = none) ∧
    (∃ (t : Nat) (m : Mb14Resp) (s : State) (q : Mb14Out), (s.arrive t).awake = true ∧
    List.find? (fun q => q.id == m.id) (s.arrive t).msg.mb14 = some q ∧
    q.cmd = 0) ∧
    (∃ (t : Nat) (m : Mb14Resp) (s : State) (q : Mb14Out), (s.arrive t).awake = true ∧
    List.find? (fun q => q.id == m.id) (s.arrive t).msg.mb14 = some q ∧
    q.cmd = 1024) ∧
    (∃ (t : Nat) (m : Mb14Resp) (s : State) (q : Mb14Out), (s.arrive t).awake = true ∧
    List.find? (fun q => q.id == m.id) (s.arrive t).msg.mb14 = some q ∧
    q.cmd = 1025) ∧
    (∃ (t : Nat) (m : Mb14Resp) (s : State) (q : Mb14Out), (s.arrive t).awake = true ∧
    List.find? (fun q => q.id == m.id) (s.arrive t).msg.mb14 = some q ∧
    q.cmd = 3) ∧
    (∃ (t : Nat) (m : Mb14Resp) (s : State) (q : Mb14Out), (s.arrive t).awake = true ∧
    List.find? (fun q => q.id == m.id) (s.arrive t).msg.mb14 = some q ∧
    q.cmd = 1028) ∧
    (∃ (t : Nat) (m : Mb14Resp) (s : State) (q : Mb14Out), (s.arrive t).awake = true ∧
    List.find? (fun q => q.id == m.id) (s.arrive t).msg.mb14 = some q ∧
    q.cmd = 1284 ∧
    m.status = 0) ∧
    (∃ (q : Mb14Out) (m : Mb14Resp) (j : CfgJob) (s : State), s.cfg.job = some j ∧
    j.id = q.job ∧
    q.job ≠ 0 ∧
    m.status = 0 ∧
    s.cfg.forward ≠ none) ∧
    (∃ (q : Mb14Out) (m : Mb14Resp) (j : CfgJob) (s : State) (off : Nat), s.cfg.job = some j ∧
    j.id = q.job ∧
    q.job ≠ 0 ∧
    m.status = 0 ∧
    s.cfg.forward = some off) ∧
    (∃ (q : Mb14Out) (m : Mb14Resp) (j : CfgJob) (s : State), s.cfg.job = some j ∧
    j.id = q.job ∧
    q.job ≠ 0 ∧
    m.status = 1) ∧
    (∃ (q : Mb14Out) (m : Mb14Resp) (j : CfgJob) (s : State), s.cfg.job = some j ∧
    j.id = q.job ∧
    q.job ≠ 0 ∧
    2 ≤ m.status) ∧
    (∃ (q : Mb14Out) (m : Mb14Resp) (j : CfgJob) (s : State), s.cfg.job = some j ∧
    j.id = q.job ∧
    q.job ≠ 0 ∧
    3 ≤ m.status) ∧
    (∃ (q : Mb14Out) (m : Mb14Resp) (j : CfgJob) (s : State) (all : List Byte), s.cfg.job = some j ∧
    j.id = q.job ∧
    q.job ≠ 0 ∧
    m.status = 0 ∧
    all = j.twinReport ++ m.payload ∧
    field all 4 1 = 2) ∧
    (∃ (q : Mb14Out) (m : Mb14Resp) (j : CfgJob) (s : State), s.cfg.job = some j ∧
    j.id = q.job ∧
    q.job ≠ 0 ∧
    m.status = 0 ∧
    2 ≤ (listedSlot m.payload 2).1 ∧
    s.cfg.seed.isListed (listedSlot m.payload 2) = true) ∧
    (∃ (q : Mb14Out) (m : Mb14Resp) (j : CfgJob) (s : State), s.cfg.job = some j ∧
    j.id = q.job ∧
    q.job ≠ 0 ∧
    m.status = 0 ∧
    ((listedSlot m.payload 2).1 < 2 ∨ s.cfg.seed.isListed (listedSlot m.payload 2) = false)) ∧
    (∃ (t : Nat) (id : Nat) (q : Mb14Out) (s : State) (j : CfgJob), (s.arrive t).awake = true ∧
    List.find? (fun q => q.id == id) (s.arrive t).msg.mb14 = some q ∧
    (s.arrive t).cfg.job = some j ∧
    j.id = q.job ∧
    q.job ≠ 0 ∧
    q.at_ + secTicks (if j.isCheck = true then 120 else 10) ≤ (s.arrive t).time.now) ∧
    (∃ (t : Nat) (id : Nat) (q : Mb14Out) (s : State), (s.arrive t).awake = true ∧
    List.find? (fun q => q.id == id) (s.arrive t).msg.mb14 = some q ∧
    q.job = 0 ∧
    q.cmd ≠ 1284 ∧
    q.at_ + secTicks 10 ≤ (s.arrive t).time.now) ∧
    (∃ (t : Nat) (s : State), (s.arrive t).power.mode = 3 ∧
    (s.arrive t).cnt.early = []) ∧
    (∃ (src : Nat) (b : List Byte) (s : State), src < 3 ∧
    s.imageOk b = false) :=
  ⟨⟨0, wCmd 0x400 (zeroBytes 9), wUser, by unfold State.accepts; decide +kernel⟩,
    ⟨[], (field [] 8 4), by decide +kernel⟩,
    ⟨zeroBytes 8 ++ [1#8] ++ zeroBytes 80,
      State.reset.upCfg fun p => { p with seed := { p.seed with present := true, cfg := { p.seed.cfg with version := 1, digest := zeroBytes 48 } } },
      1, by decide +kernel⟩,
    ⟨zeroBytes 8 ++ [1#8] ++ zeroBytes 80, State.reset.upCfg fun c => { c with highWater := 0xFFFFFFFF }, 1, by decide +kernel⟩,
    ⟨zeroBytes 8 ++ [1#8] ++ zeroBytes 80, State.reset.upCfg fun c => { c with highWater := 1 }, 1, by decide +kernel⟩,
    ⟨zeroBytes 8 ++ [1#8] ++ zeroBytes 80, State.reset.upCfg fun c => { c with highWater := 0 }, 1, by decide +kernel⟩,
    ⟨0, { wJob with isCheck := false }, State.reset.upCfg fun p => { p with job := some { wJob with isCheck := false } }, by decide +kernel⟩,
    ⟨0, wCmd 0x401 [], wUser, by unfold State.accepts; decide +kernel⟩,
    ⟨0, { wJob with isCheck := true }, State.reset.upCfg fun p => { p with job := some { wJob with isCheck := true } }, by decide +kernel⟩,
    ⟨0, wCmd 0x404 [], wUser, by unfold State.accepts; decide +kernel⟩,
    ⟨{ Slot.empty with present := false }, by decide +kernel⟩,
    ⟨{ Slot.empty with present := true }, by decide +kernel⟩,
    ⟨0, wRsp, State.reset, by decide +kernel⟩,
    ⟨0, wRsp, State.reset.upMsg fun p => { p with mb14 := [{ wOut with cmd := 0 }] }, { wOut with cmd := 0 }, by decide +kernel⟩,
    ⟨0, wRsp, State.reset.upMsg fun p => { p with mb14 := [{ wOut with cmd := 1024 }] }, { wOut with cmd := 1024 }, by decide +kernel⟩,
    ⟨0, wRsp, State.reset.upMsg fun p => { p with mb14 := [{ wOut with cmd := 1025 }] }, { wOut with cmd := 1025 }, by decide +kernel⟩,
    ⟨0, wRsp, State.reset.upMsg fun p => { p with mb14 := [{ wOut with cmd := 3 }] }, { wOut with cmd := 3 }, by decide +kernel⟩,
    ⟨0, wRsp, State.reset.upMsg fun p => { p with mb14 := [{ wOut with cmd := 1028 }] }, { wOut with cmd := 1028 }, by decide +kernel⟩,
    ⟨0, { wRsp with status := 0 }, State.reset.upMsg fun p => { p with mb14 := [{ wOut with cmd := 1284 }] }, { wOut with cmd := 1284 },
      by decide +kernel⟩,
    ⟨wOut, { wRsp with status := 0 }, wJob, State.reset.upCfg fun p => { p with job := some wJob, forward := some 0 }, by decide +kernel⟩,
    ⟨wOut, { wRsp with status := 0 }, wJob, State.reset.upCfg fun p => { p with job := some wJob, forward := some 0 }, 0, by decide +kernel⟩,
    ⟨wOut, { wRsp with status := 1 }, wJob, State.reset.upCfg fun p => { p with job := some wJob }, by decide +kernel⟩,
    ⟨wOut, { wRsp with status := 2 }, wJob, State.reset.upCfg fun p => { p with job := some wJob }, by decide +kernel⟩,
    ⟨wOut, { wRsp with status := 3 }, wJob, State.reset.upCfg fun p => { p with job := some wJob }, by decide +kernel⟩,
    ⟨wOut, { wRsp with payload := zeroBytes 4 ++ [2#8] }, wJob, State.reset.upCfg fun p => { p with job := some wJob }, zeroBytes 4 ++ [2#8],
      by decide +kernel⟩,
    ⟨wOut, { wRsp with payload := zeroBytes 209 ++ [2#8] ++ zeroBytes 86 }, wJob,
      State.reset.upCfg fun p => { p with job := some wJob, seed := { p.seed with present := true, cfg := { p.seed.cfg with digest := zeroBytes 48 } } },
      by decide +kernel⟩,
    ⟨wOut, { wRsp with status := 0 }, wJob, State.reset.upCfg fun p => { p with job := some wJob }, by decide +kernel⟩,
    ⟨0, 1, wOut,
      ((State.reset.upCfg fun p => { p with job := some wJob }).upMsg fun p => { p with mb14 := [wOut] }).upTime fun p => { p with now := 2500000000 },
      wJob, by decide +kernel⟩,
    ⟨0, 1, { wOut with job := 0 },
      (State.reset.upMsg fun p => { p with mb14 := [{ wOut with job := 0 }] }).upTime fun p => { p with now := 2500000000 }, by decide +kernel⟩,
    ⟨0, (State.reset.upPower fun p => { p with mode := 3 }).upCnt fun p => { p with early := [] }, by decide +kernel⟩,
    ⟨0, [], State.reset, by decide +kernel⟩⟩
/-- Hypotheses of `Obligations.ConfigurationsAreStagedCheckedAndListed` that hold together, where the opaque functions of Config answer so. -/
theorem witness_ConfigurationsAreStagedCheckedAndListed_given1 (hd : Config.sha384 (zeroBytes 40 ++ zeroBytes 144) = zeroBytes 48) (hs : Config.ecdsaOk (zeroBytes 48) (zeroBytes 96) [] = true) :
    (∃ (src : Nat) (b : List Byte) (s : State), s.imageOk b = true ∧
    src < 3 ∧
    src = 0) ∧
    (∃ (src : Nat) (b : List Byte) (s : State), s.imageOk b = true ∧
    src < 3 ∧
    src = 1) ∧
    (∃ (src : Nat) (b : List Byte) (s : State), s.imageOk b = true ∧
    src < 3 ∧
    src = 2) :=
  ⟨⟨0, zeroBytes 184, State.reset.upSec fun p => { p with cfgKeys := [(0, [])] },
     wImage_ok _ _ (0, []) (by decide +kernel) ((congrArg Config.sha384 (by decide +kernel)).trans (hd.trans (by decide +kernel))) hs,
     by decide +kernel⟩,
    ⟨1, zeroBytes 184, State.reset.upSec fun p => { p with cfgKeys := [(0, [])] },
      wImage_ok _ _ (0, []) (by decide +kernel) ((congrArg Config.sha384 (by decide +kernel)).trans (hd.trans (by decide +kernel))) hs,
      by decide +kernel⟩,
    ⟨2, zeroBytes 184, State.reset.upSec fun p => { p with cfgKeys := [(0, [])] },
      wImage_ok _ _ (0, []) (by decide +kernel) ((congrArg Config.sha384 (by decide +kernel)).trans (hd.trans (by decide +kernel))) hs,
      by decide +kernel⟩⟩
/-- Hypotheses of `Obligations.CountersAreCleared` that hold together. -/
theorem witness_CountersAreCleared :
    (∃ (t : Nat) (h : Hdr) (s : State), 3 ≤ (s.arrive t).rights h.mb ∧
    State.accepts paramWriteCmd (writeReq h 2 64 [1#32]) (s.arrive t)) ∧
    (∃ (t : Nat) (h : Hdr) (s : State), 3 ≤ (s.arrive t).rights h.mb ∧
    State.accepts paramWriteCmd (writeReq h 3 10 [1#32]) (s.arrive t)) ∧
    (∃ (t : Nat) (h : Hdr) (s : State), 3 ≤ (s.arrive t).rights h.mb ∧
    State.accepts paramWriteCmd (writeReq h 4 7 [1#32]) (s.arrive t)) ∧
    (∃ (t : Nat) (h : Hdr) (s : State), 3 ≤ (s.arrive t).rights h.mb ∧
    State.accepts paramWriteCmd (writeReq h 5 18 [1#32]) (s.arrive t)) ∧
    (∃ (t : Nat) (h : Hdr) (s : State), 3 ≤ (s.arrive t).rights h.mb ∧
    State.accepts paramWriteCmd (writeReq h 6 192 [1#32]) (s.arrive t)) ∧
    (∃ (t : Nat) (h : Hdr) (s : State), 3 ≤ (s.arrive t).rights h.mb ∧
    State.accepts paramWriteCmd (writeReq h 7 48 [1#32]) (s.arrive t)) ∧
    (∃ (t : Nat) (h : Hdr) (s : State), 3 ≤ (s.arrive t).rights h.mb ∧
    State.accepts paramWriteCmd (writeReq h 8 34 [1#32]) (s.arrive t)) ∧
    (∃ (t : Nat) (h : Hdr) (s : State), 3 ≤ (s.arrive t).rights h.mb ∧
    State.accepts paramWriteCmd (writeReq h 9 64 [1#32]) (s.arrive t)) ∧
    (∃ (t : Nat) (h : Hdr) (s : State), 3 ≤ (s.arrive t).rights h.mb ∧
    State.accepts paramWriteCmd (writeReq h 10 48 [1#32]) (s.arrive t)) ∧
    (∃ (t : Nat) (h : Hdr) (s : State), 3 ≤ (s.arrive t).rights h.mb ∧
    State.accepts paramWriteCmd (writeReq h 11 48 [1#32]) (s.arrive t)) ∧
    (∃ (t : Nat) (h : Hdr) (s : State), 3 ≤ (s.arrive t).rights h.mb ∧
    State.accepts paramWriteCmd (writeReq h 12 50 [1#32]) (s.arrive t)) ∧
    (∃ (t : Nat) (h : Hdr) (s : State), 3 ≤ (s.arrive t).rights h.mb ∧
    State.accepts paramWriteCmd (writeReq h 13 144 [1#32]) (s.arrive t)) ∧
    (∃ (t : Nat) (h : Hdr) (s : State), 3 ≤ (s.arrive t).rights h.mb ∧
    State.accepts paramWriteCmd (writeReq h 14 12 [1#32]) (s.arrive t)) ∧
    (∃ (t : Nat) (h : Hdr) (s : State), 3 ≤ (s.arrive t).rights h.mb ∧
    State.accepts paramWriteCmd (writeReq h 15 39 [1#32]) (s.arrive t)) ∧
    (∃ (t : Nat) (h : Hdr) (s : State), 3 ≤ (s.arrive t).rights h.mb ∧
    State.accepts paramWriteCmd (writeReq h 16 16 [1#32]) (s.arrive t)) :=
  ⟨⟨0, wH, wUser, by unfold State.accepts; decide +kernel⟩,
    ⟨0, wH, wUser, by unfold State.accepts; decide +kernel⟩,
    ⟨0, wH, wUser, by unfold State.accepts; decide +kernel⟩,
    ⟨0, wH, wUser, by unfold State.accepts; decide +kernel⟩,
    ⟨0, wH, wUser, by unfold State.accepts; decide +kernel⟩,
    ⟨0, wH, wUser, by unfold State.accepts; decide +kernel⟩,
    ⟨0, wH, wUser, by unfold State.accepts; decide +kernel⟩,
    ⟨0, wH, wUser, by unfold State.accepts; decide +kernel⟩,
    ⟨0, wH, wUser, by unfold State.accepts; decide +kernel⟩,
    ⟨0, wH, wUser, by unfold State.accepts; decide +kernel⟩,
    ⟨0, wH, wUser, by unfold State.accepts; decide +kernel⟩,
    ⟨0, wH, wUser, by unfold State.accepts; decide +kernel⟩,
    ⟨0, wH, wUser, by unfold State.accepts; decide +kernel⟩,
    ⟨0, wH, wUser, by unfold State.accepts; decide +kernel⟩,
    ⟨0, wH, wUser, by unfold State.accepts; decide +kernel⟩⟩
/-- Hypotheses of `Obligations.CyclesRunThroughTheirInstants` that hold together. -/
theorem witness_CyclesRunThroughTheirInstants :
    (∃ (t : Nat) (x : Nat) (s : State), (s.arrive t).mayStart x = true ∧
    x < (s.arrive t).cyc.cls.length ∧
    (s.arrive t).power.mode ≠ 2) ∧
    (∃ (x : Nat) (tag : Nat) (s : State) (f : Flight), s.freeTag x = some tag ∧
    f ∈ (s.cl x).held) ∧
    (∃ (x : Nat) (s : State), (∀ (tag : ℕ), s.quotaBase x ≤ tag → tag < s.quotaBase x + (s.classRec x).quota → ∃ f ∈ (s.cl x).held, f.tag = tag) ∧
    ((s.cl x).toIssue ≠ [] ∨ (s.cl x).toWrite ≠ [])) ∧
    (∃ (t : Nat) (f : RxFrame) (s : State), State.hears f (s.arrive t) = true ∧
    (s.arrive t).cfg.windowOpen = true) ∧
    (∃ (t : Nat) (f : RxFrame) (s : State), State.hears f (s.arrive t) = true ∧
    (s.arrive t).cfg.windowOpen = false) ∧
    (∃ (f : Fsp) (s : State), State.versionKnown f s = false) ∧
    (∃ (f : Fsp) (s : State), State.versionKnown f s = true ∧
    f.term ≠ s.pair.term) ∧
    (∃ (f : Fsp) (s : State), State.versionKnown f s = true ∧
    f.term = s.pair.term ∧
    s.pair.owner = false ∧
    (s.power.mode = 3 ∨ s.power.mode = 4) ∧
    s.conf.version = f.cfg) ∧
    (∃ (f : Fsp) (s : State), State.versionKnown f s = true ∧
    f.term = s.pair.term ∧
    s.pair.owner = true ∧
    (List.find? (fun h => !h.isWrite && h.tag == f.tag && h.station == f.station && h.cycle % 2 ^ 32 == f.cycle && h.version == f.cfg) (s.cl f.cls).held) = none) ∧
    (∃ (f : Fsp) (s : State), State.versionKnown f s = true ∧
    f.term = s.pair.term ∧
    s.pair.owner = true ∧
    (List.find? (fun h => !h.isWrite && h.tag == f.tag && h.station == f.station && h.cycle % 2 ^ 32 == f.cycle && h.version == f.cfg) (s.cl f.cls).held) ≠ none ∧
    ((serialAfter (s.cl f.cls).cycle f.cycle || f.cycle == (s.cl f.cls).cycle % 2 ^ 32 && (s.cl f.cls).phase != 1)) = true) ∧
    (∃ (f : Fsp) (s : State) (h : Flight), State.versionKnown f s = true ∧
    f.term = s.pair.term ∧
    s.pair.owner = true ∧
    (List.find? (fun h => !h.isWrite && h.tag == f.tag && h.station == f.station && h.cycle % 2 ^ 32 == f.cycle && h.version == f.cfg) (s.cl f.cls).held) = some h ∧
    ((serialAfter (s.cl f.cls).cycle f.cycle || f.cycle == (s.cl f.cls).cycle % 2 ^ 32 && (s.cl f.cls).phase != 1)) = false ∧
    parseRsp h.ranges f.payload = none) ∧
    (∃ (f : Fsp) (s : State) (h : Flight) (d : List (Nat × Nat × Nat) × List Byte) (tr : TransRec), State.versionKnown f s = true ∧
    f.term = s.pair.term ∧
    s.pair.owner = true ∧
    (List.find? (fun h => !h.isWrite && h.tag == f.tag && h.station == f.station && h.cycle % 2 ^ 32 == f.cycle && h.version == f.cfg) (s.cl f.cls).held) = some h ∧
    ((serialAfter (s.cl f.cls).cycle f.cycle || f.cycle == (s.cl f.cls).cycle % 2 ^ 32 && (s.cl f.cls).phase != 1)) = false ∧
    parseRsp h.ranges f.payload = some d ∧
    (s.conf.transOf f.cls false)[h.idx]? = some tr ∧
    f.cls < s.cyc.cls.length) ∧
    (∃ (f : Fsp) (s : State), f.cfg ≠ s.conf.version) ∧
    (∃ (f : Fsp) (s : State), f.cfg = s.conf.version ∧
    doneKey f ∈ s.cyc.completed) ∧
    (∃ (f : Fsp) (s : State), f.cfg = s.conf.version ∧
    doneKey f ∉ s.cyc.completed) ∧
    (∃ (t : Nat) (s : State), ((s.arrive t).pair.owner = true ∨ (s.arrive t).power.mode = 3 ∨ (s.arrive t).power.mode = 4) ∧
    (s.arrive t).cfg.windowOpen = true) ∧
    (∃ (t : Nat) (s : State), ((s.arrive t).pair.owner = true ∨ (s.arrive t).power.mode = 3 ∨ (s.arrive t).power.mode = 4) ∧
    (s.arrive t).cfg.windowOpen = false) ∧
    (∃ (o : Nat) (s : State), (∀ (x : ℕ) (p : PointRec), x < 4 → p ∈ s.conf.awaited x → ruleOffset p.rule ≠ o) ∧
    o ≠ 15) ∧
    (∃ (t : Nat) (tag : Nat) (s : State), (s.arrive t).pair.owner = true ∧
    (s.arrive t).flightOn tag false = none) ∧
    (∃ (t : Nat) (tag : Nat) (s : State), (s.arrive t).pair.owner = true ∧
    (s.arrive t).flightOn tag true = none) ∧
    (∃ (t : Nat) (tag : Nat) (s : State) (f : Flight), (s.arrive t).pair.owner = true ∧
    (s.arrive t).flightOn tag false = some f ∧
    (f.retried = true ∨ (s.arrive t).time.now < f.issued + psTicks ((s.arrive t).rttPs f.station) ∨ ((s.arrive t).cl f.cls).toIssue ≠ [] ∧ f.isWrite = false ∨ (s.arrive t).deadline f.cls < (s.arrive t).tb0 + psNs ((s.arrive t).rttPs f.station))) ∧
    (∃ (t : Nat) (tag : Nat) (s : State) (f : Flight), (s.arrive t).pair.owner = true ∧
    (s.arrive t).flightOn tag false = some f ∧
    f.isWrite = false ∧
    f.retried = false ∧
    f.issued + psTicks ((s.arrive t).rttPs f.station) ≤ (s.arrive t).time.now ∧
    ((s.arrive t).cl f.cls).toIssue = [] ∧
    (s.arrive t).tb0 + psNs ((s.arrive t).rttPs f.station) ≤ (s.arrive t).deadline f.cls) ∧
    (∃ (t : Nat) (tag : Nat) (s : State) (f : Flight), (s.arrive t).pair.owner = true ∧
    (s.arrive t).flightOn tag true = some f ∧
    f.isWrite = true ∧
    (f.retried = true ∨ (s.arrive t).time.now < f.issued + psTicks ((s.arrive t).rttPs f.station) ∨ ((s.arrive t).cl f.cls).toWrite ≠ [] ∨ f.apply < (s.arrive t).tb0 + (s.arrive t).leadInNs f.station)) ∧
    (∃ (t : Nat) (tag : Nat) (s : State) (f : Flight), (s.arrive t).pair.owner = true ∧
    (s.arrive t).flightOn tag true = some f ∧
    f.isWrite = true ∧
    f.retried = false ∧
    f.issued + psTicks ((s.arrive t).rttPs f.station) ≤ (s.arrive t).time.now ∧
    ((s.arrive t).cl f.cls).toWrite = [] ∧
    (s.arrive t).tb0 + (s.arrive t).leadInNs f.station ≤ f.apply) ∧
    (∃ (t : Nat) (x : Nat) (s : State), (s.arrive t).mayPublish x = true ∧
    (((State.releaseTasks x (State.publishEpoch x (s.arrive t))).cl x).tasks = true ∨ (State.releaseTasks x (State.publishEpoch x (s.arrive t))).pair.owner = false)) ∧
    (∃ (t : Nat) (x : Nat) (s : State), (s.arrive t).mayPublish x = true ∧
    ((State.releaseTasks x (State.publishEpoch x (s.arrive t))).cl x).tasks = false ∧
    (State.releaseTasks x (State.publishEpoch x (s.arrive t))).pair.owner = true) ∧
    (∃ (x : Nat) (s : State), x < s.cyc.cls.length) ∧
    (∃ (x : Nat) (s : State), x < s.cyc.cls.length ∧
    (s.cl x).tasks = false) ∧
    (∃ (x : Nat) (s : State), x < s.cyc.cls.length ∧
    (s.cl x).tasks = true ∧
    ((s.classRec x).overrun = 0 ∨ (s.cl x).consecSkips + 1 < (s.classRec x).overrun)) ∧
    (∃ (x : Nat) (s : State), x < s.cyc.cls.length ∧
    (s.cl x).tasks = true ∧
    (s.classRec x).overrun ≠ 0 ∧
    (s.classRec x).overrun ≤ (s.cl x).consecSkips + 1) ∧
    (∃ (t : Nat) (x : Nat) (s : State), (s.arrive t).pair.owner = true ∧
    x < 4 ∧
    x < (s.arrive t).cyc.cls.length ∧
    ((s.arrive t).cl x).tasks = true) ∧
    (∃ (t : Nat) (x : Nat) (s : State), (s.arrive t).pair.owner = true ∧
    x < 4 ∧
    x < (s.arrive t).cyc.cls.length ∧
    ((s.arrive t).cl x).tasks = true ∧
    (((s.arrive t).cl x).phase ≠ 2 ∨ ((s.arrive t).cl x).written = true)) ∧
    (∃ (t : Nat) (x : Nat) (s : State), (s.arrive t).pair.owner = true ∧
    x < 4 ∧
    x < (s.arrive t).cyc.cls.length ∧
    ((s.arrive t).cl x).tasks = true ∧
    ((s.arrive t).cl x).phase = 2 ∧
    ((s.arrive t).cl x).written = false) ∧
    (∃ (t : Nat) (x : Nat) (s : State), (s.arrive t).mayOverrun x = true ∧
    x < (s.arrive t).cyc.cls.length ∧
    ((s.arrive t).cl x).rerunTo = none) ∧
    (∃ (x : Nat) (i : Nat) (tr : TransRec) (s : State), x < s.cyc.cls.length ∧
    ((State.buildWrite x i tr s).cl x).toWrite ≠ []) ∧
    (∃ (f : Fsp) (s : State) (h : Flight), State.versionKnown f s = true ∧
    f.term = s.pair.term ∧
    s.pair.owner = true ∧
    s.ackedFlight f = some h ∧
    parseAck f.payload = none) ∧
    (∃ (f : Fsp) (s : State) (h : Flight) (result : Nat) (free : Nat), State.versionKnown f s = true ∧
    f.term = s.pair.term ∧
    s.pair.owner = true ∧
    s.ackedFlight f = some h ∧
    parseAck f.payload = some (result, free) ∧
    result = 1) ∧
    (∃ (f : Fsp) (s : State) (h : Flight) (result : Nat) (free : Nat), State.versionKnown f s = true ∧
    f.term = s.pair.term ∧
    s.pair.owner = true ∧
    s.ackedFlight f = some h ∧
    parseAck f.payload = some (result, free) ∧
    result = 2) ∧
    (∃ (f : Fsp) (s : State) (h : Flight) (result : Nat) (free : Nat), State.versionKnown f s = true ∧
    f.term = s.pair.term ∧
    s.pair.owner = true ∧
    s.ackedFlight f = some h ∧
    parseAck f.payload = some (result, free) ∧
    result = 3) ∧
    (∃ (f : Fsp) (s : State) (h : Flight) (result : Nat) (free : Nat), State.versionKnown f s = true ∧
    f.term = s.pair.term ∧
    s.pair.owner = true ∧
    s.ackedFlight f = some h ∧
    parseAck f.payload = some (result, free) ∧
    result = 0) ∧
    (∃ (f : Fsp) (s : State), State.versionKnown f s = true ∧
    f.term = s.pair.term ∧
    s.pair.owner = true ∧
    s.ackedFlight f = none) :=
  ⟨⟨0, 0,
     ((State.reset.upPower fun p => { p with mode := 4 }).upTime fun p => { p with tb0 := { p.tb0 with st := 2 } }).upCyc fun p => { p with cls := (setAt p.cls 0 fun e1 => { e1 with cycle := 5 }) },
     by decide +kernel⟩,
    ⟨0, 1, State.reset.upCyc fun p => { p with cls := (setAt p.cls 0 fun e1 => { e1 with held := [wFlight] }) }, wFlight, by decide +kernel⟩,
    ⟨0,
      (State.reset.upCyc fun p => { p with cls := (setAt p.cls 0 fun e1 => { e1 with held := (List.range 8).map fun n => { wFlight with tag := n }, toIssue := [0] }) }).upCfg fun p => { p with sown := { p.sown with present := true, cfg := { p.sown.cfg with classes := [defaultClass 1000 8] } } },
      fun tag _ h => by have h8 : tag < 8 := h; interval_cases tag <;> decide +kernel, by decide +kernel⟩,
    ⟨0, wRx 0x12 0x1000 0 0 [],
      (State.reset.upCfg fun p => { p with windowOpen := true }).upSfp fun p => (setAt p 0 fun e0 => { e0 with linkUp := true }), by decide +kernel⟩,
    ⟨0, wRx 0x12 0x1000 0 0 [],
      (State.reset.upCfg fun p => { p with windowOpen := false }).upSfp fun p => (setAt p 0 fun e0 => { e0 with linkUp := true }), by decide +kernel⟩,
    ⟨{ wFsp with cfg := 1 }, State.reset, by decide +kernel⟩,
    ⟨{ wFsp with term := 1 }, State.reset, by decide +kernel⟩,
    ⟨wFsp,
      ((State.reset.upPair fun p => { p with owner := false }).upPower fun p => { p with mode := 3 }).upCfg fun p => { p with sown := { p.sown with present := true, cfg := { p.sown.cfg with version := wFsp.cfg } } },
      by decide +kernel⟩,
    ⟨wFsp, State.reset.upPair fun p => { p with owner := true }, by decide +kernel⟩,
    ⟨wFsp,
      (State.reset.upPair fun p => { p with owner := true }).upCyc fun p => { p with cls := (setAt p.cls 0 fun e1 => { e1 with held := [wFlight] }) },
      by decide +kernel⟩,
    ⟨wFsp,
      (State.reset.upPair fun p => { p with owner := true }).upCyc fun p => { p with cls := (setAt p.cls 0 fun e1 => { e1 with phase := 1, held := [wFlight] }) },
      wFlight, by decide +kernel⟩,
    ⟨{ wFsp with payload := zeroBytes 8 },
      ((State.reset.upPair fun p => { p with owner := true }).upCyc fun p => { p with cls := (setAt p.cls 0 fun e1 => { e1 with phase := 1, held := [{ wFlight with ranges := [(0, 1)] }] }) }).upCfg fun p => { p with sown := { p.sown with present := true, cfg := { p.sown.cfg with trans := [wTrans] } } },
      { wFlight with ranges := [(0, 1)] }, ([(0, 1, 0)], zeroBytes 4), wTrans, by decide +kernel⟩,
    ⟨{ wFsp with cfg := 1 }, State.reset, by decide +kernel⟩,
    ⟨wFsp, State.reset.upCyc fun p => { p with completed := [(1024, 2, 0)] }, by decide +kernel⟩,
    ⟨wFsp, State.reset, by decide +kernel⟩,
    ⟨0, (State.reset.upPair fun p => { p with owner := true }).upCfg fun p => { p with windowOpen := true }, by decide +kernel⟩,
    ⟨0, (State.reset.upPair fun p => { p with owner := true }).upCfg fun p => { p with windowOpen := false }, by decide +kernel⟩,
    ⟨0, State.reset, fun x p hx hp => absurd ((show ∀ x, x < 4 → State.reset.conf.awaited x = [] by decide +kernel) x hx ▸ hp) List.not_mem_nil,
      by decide +kernel⟩,
    ⟨0, 0, State.reset.upPair fun p => { p with owner := true }, by decide +kernel⟩,
    ⟨0, 0, State.reset.upPair fun p => { p with owner := true }, by decide +kernel⟩,
    ⟨0, 0,
      (State.reset.upPair fun p => { p with owner := true }).upCyc fun p => { p with cls := (setAt p.cls 0 fun e1 => { e1 with held := [{ wFlight with retried := true }] }) },
      { wFlight with retried := true }, by decide +kernel⟩,
    ⟨0, 0,
      (State.reset.upPair fun p => { p with owner := true }).upCyc fun p => { p with cls := (setAt p.cls 0 fun e1 => { e1 with held := [{ wFlight with retried := false }] }) },
      { wFlight with retried := false }, by decide +kernel⟩,
    ⟨0, 0,
      (State.reset.upPair fun p => { p with owner := true }).upCyc fun p => { p with cls := (setAt p.cls 0 fun e1 => { e1 with held := [{ wFlight with isWrite := true, retried := true }] }) },
      { wFlight with isWrite := true, retried := true }, by decide +kernel⟩,
    ⟨0, 0,
      (State.reset.upPair fun p => { p with owner := true }).upCyc fun p => { p with cls := (setAt p.cls 0 fun e1 => { e1 with held := [{ wFlight with isWrite := true, retried := false }] }) },
      { wFlight with isWrite := true, retried := false }, by decide +kernel⟩,
    ⟨0, 0,
      (((State.reset.upPair fun p => { p with owner := true }).upCyc fun p => { p with cls := (setAt p.cls 0 fun e1 => { e1 with phase := 1 }) }).upTime fun p => { p with tb0 := { p.tb0 with acc := 1000000 * 2 ^ 48 } }).upCfg fun p => { p with sown := { p.sown with present := true, cfg := { p.sown.cfg with tasks := [{ task := 1, cls := 0, prio := 0, pair := 0, fallback := [], wcetNs := 1, entry := 0, spare := true }] } } },
      by decide +kernel⟩,
    ⟨0, 0,
      ((State.reset.upPair fun p => { p with owner := true }).upCyc fun p => { p with cls := (setAt p.cls 0 fun e1 => { e1 with phase := 1 }) }).upTime fun p => { p with tb0 := { p.tb0 with acc := 1000000 * 2 ^ 48 } },
      by decide +kernel⟩,
    ⟨0, State.reset, by decide +kernel⟩,
    ⟨0, State.reset.upCyc fun p => { p with cls := (setAt p.cls 0 fun e1 => { e1 with tasks := false }) }, by decide +kernel⟩,
    ⟨0, State.reset.upCyc fun p => { p with cls := (setAt p.cls 0 fun e1 => { e1 with tasks := true }) }, by decide +kernel⟩,
    ⟨0,
      (State.reset.upCyc fun p => { p with cls := (setAt p.cls 0 fun e1 => { e1 with tasks := true }) }).upCfg fun p => { p with sown := { p.sown with present := true, cfg := { p.sown.cfg with classes := [{ defaultClass 1000 8 with overrun := 1 }] } } },
      by decide +kernel⟩,
    ⟨0, 0,
      (State.reset.upPair fun p => { p with owner := true }).upCyc fun p => { p with cls := (setAt p.cls 0 fun e1 => { e1 with tasks := true }) },
      by decide +kernel⟩,
    ⟨0, 0,
      (State.reset.upPair fun p => { p with owner := true }).upCyc fun p => { p with cls := (setAt p.cls 0 fun e1 => { e1 with tasks := true, phase := 0 }) },
      by decide +kernel⟩,
    ⟨0, 0,
      (State.reset.upPair fun p => { p with owner := true }).upCyc fun p => { p with cls := (setAt p.cls 0 fun e1 => { e1 with tasks := true, phase := 2, written := false }) },
      by decide +kernel⟩,
    ⟨0, 0,
      ((State.reset.upCyc fun p => { p with cls := (setAt p.cls 0 fun e1 => { e1 with rerunTo := none, phase := 2, tasks := true }) }).upPair fun p => { p with owner := true }).upTime fun p => { p with tb0 := { p.tb0 with acc := 10 ^ 9 * 2 ^ 48 } },
      by decide +kernel⟩,
    ⟨0, 0, { wTrans with isWrite := true },
      (wPt 1 0x1001000020000000#64).upCfg fun p => { p with sown := { p.sown with present := true, cfg := { p.sown.cfg with points := [{ wPoint with rule := 0x1001000020000000#64 }] } } },
      by decide +kernel⟩,
    ⟨wFsp,
      (State.reset.upPair fun p => { p with owner := true }).upCyc fun p => { p with cls := (setAt p.cls 0 fun e1 => { e1 with held := [{ wFlight with isWrite := true }] }) },
      { wFlight with isWrite := true }, by decide +kernel⟩,
    ⟨{ wFsp with payload := zeroBytes 10 ++ [1#8] ++ zeroBytes 21 },
      (State.reset.upPair fun p => { p with owner := true }).upCyc fun p => { p with cls := (setAt p.cls 0 fun e1 => { e1 with held := [{ wFlight with isWrite := true }] }) },
      { wFlight with isWrite := true }, 1, 0, by decide +kernel⟩,
    ⟨{ wFsp with payload := zeroBytes 10 ++ [2#8] ++ zeroBytes 21 },
      (State.reset.upPair fun p => { p with owner := true }).upCyc fun p => { p with cls := (setAt p.cls 0 fun e1 => { e1 with held := [{ wFlight with isWrite := true }] }) },
      { wFlight with isWrite := true }, 2, 0, by decide +kernel⟩,
    ⟨{ wFsp with payload := zeroBytes 10 ++ [3#8] ++ zeroBytes 21 },
      (State.reset.upPair fun p => { p with owner := true }).upCyc fun p => { p with cls := (setAt p.cls 0 fun e1 => { e1 with held := [{ wFlight with isWrite := true }] }) },
      { wFlight with isWrite := true }, 3, 0, by decide +kernel⟩,
    ⟨{ wFsp with payload := zeroBytes 10 ++ [0#8] ++ zeroBytes 21 },
      (State.reset.upPair fun p => { p with owner := true }).upCyc fun p => { p with cls := (setAt p.cls 0 fun e1 => { e1 with held := [{ wFlight with isWrite := true }] }) },
      { wFlight with isWrite := true }, 0, 0, by decide +kernel⟩,
    ⟨wFsp, State.reset.upPair fun p => { p with owner := true }, by decide +kernel⟩⟩
/-- Hypotheses of `Obligations.DigitalFaultsAreCounted` that hold together. -/
theorem witness_DigitalFaultsAreCounted :
    (∃ (t : Nat) (n : Nat) (s : State), (s.arrive t).awake = true ∧
    (s.arrive t).dioMode n = 1 ∧
    bit ((s.arrive t).dioWord n) 7 = true ∧
    (s.arrive t).dio.fldLost = false ∧
    n < 16 ∧
    n < (s.arrive t).dio.ch.length) ∧
    (∃ (t : Nat) (n : Nat) (s : State), (s.arrive t).awake = true ∧
    ((s.arrive t).dioMode n = 2 ∨ (s.arrive t).dioMode n = 3) ∧
    n < 16 ∧
    ((s.arrive t).dioCh n).overload = false ∧
    n < (s.arrive t).dio.ch.length) ∧
    (∃ (t : Nat) (ma : Nat) (s : State), (s.arrive t).awake = true ∧
    ma ≤ 5500) ∧
    (∃ (t : Nat) (ma : Nat) (s : State), (s.arrive t).awake = true ∧
    5500 < ma ∧
    (s.arrive t).dio.ch.length = 16) ∧
    (∃ (t : Nat) (n : Nat) (s : State), (s.arrive t).awake = true ∧
    (s.arrive t).dioMode n = 3 ∧
    (s.arrive t).stageOn = true ∧
    ((s.arrive t).dioCh n).overload = false ∧
    n < 16 ∧
    n < (s.arrive t).dio.ch.length ∧
    ((s.arrive t).dioCh n).mismatch = false) :=
  ⟨⟨0, 0,
     (State.reset.upDio fun p => { p with fldLost := false }).upCfg fun p => { p with sown := { p.sown with present := true, cfg := { p.sown.cfg with dio := List.replicate 16 (1 + 2 ^ 7) } } },
     by decide +kernel⟩,
    ⟨0, 0,
      (State.reset.upDio fun p => { p with ch := (setAt p.ch 0 fun e1 => { e1 with overload := false }) }).upCfg fun p => { p with sown := { p.sown with present := true, cfg := { p.sown.cfg with dio := List.replicate 16 2 } } },
      by decide +kernel⟩,
    ⟨0, 0, State.reset, by decide +kernel⟩,
    ⟨0, 5501, State.reset, by decide +kernel⟩,
    ⟨0, 0,
      ((State.reset.upDio fun p => { p with ch := (setAt p.ch 0 fun e1 => { e1 with overload := false, mismatch := false }) }).upPair fun p => { p with ownClaim := true, ownReadback := true, confirmed := true }).upCfg fun p => { p with sown := { p.sown with present := true, cfg := { p.sown.cfg with dio := List.replicate 16 3 } } },
      by decide +kernel⟩⟩
/-- Hypotheses of `Obligations.DisplayUpdatesInOrder` that hold together. -/
theorem witness_DisplayUpdatesInOrder :
    (∃ (t : Nat) (s : State), (s.arrive t).canUpdate = true) ∧
    (∃ (t : Nat) (s : State), ((s.arrive t).disp.frozen = true ∨ (s.arrive t).disp.updating ≠ 0 ∨ ∃ a, (s.arrive t).disp.lastStart = some a ∧ (s.arrive t).time.now < a + 250000000)) ∧
    (∃ (t : Nat) (s : State), (s.arrive t).disp.updating = 1) ∧
    (∃ (t : Nat) (s : State), (s.arrive t).disp.updating = 2) ∧
    (∃ (t : Nat) (s : State), (s.arrive t).awake = true) :=
  ⟨⟨0, State.reset.upDisp fun p => { p with panelOk := true }, by decide +kernel⟩,
    ⟨0, State.reset.upDisp fun d => { d with frozen := true }, Or.inl (by decide +kernel)⟩,
    ⟨0, State.reset.upDisp fun p => { p with updating := 1 }, by decide +kernel⟩,
    ⟨0, State.reset.upDisp fun p => { p with updating := 2 }, by decide +kernel⟩,
    ⟨0, State.reset, by decide +kernel⟩⟩
/-- Hypotheses of `Obligations.FlipsFollowTheTimeline` that hold together. -/
theorem witness_FlipsFollowTheTimeline :
    (∃ (t : Nat) (r : Req) (s : State) (back : Bool), State.accepts (cfgCmd (if back = true then 1027 else 1026)) r (s.arrive t)) ∧
    (∃ (s : State), s.cfg.sown.present = true) ∧
    (∃ (s : State), s.cfg.sown.present = false) ∧
    (∃ (tb : Nat) (s : State) (p : PortTime), p ∈ (State.switchTo false tb s).time.ports) ∧
    (∃ (s : State), s.cfg.sown.present = true) ∧
    (∃ (s : State), s.cfg.sown.present = false) ∧
    (∃ (tb : Nat) (s : State) (p : PortTime), p ∈ (State.switchTo true tb s).time.ports) ∧
    (∃ (old : Cfg) (p : PointRec) (s : State), Memory.wf s.mem = true ∧
    p.handle ≤ 6291455 ∧
    ruleKind p.rule ≠ 0 ∧
    keptRule (old.rule p.handle) p.rule = true ∧
    ruleTransform (old.rule p.handle) = ruleTransform p.rule ∧
    ruleFilter (old.rule p.handle) = ruleFilter p.rule ∧
    ruleClass (old.rule p.handle) = ruleClass p.rule) ∧
    (∃ (old : Cfg) (p : PointRec) (s : State), Memory.wf s.mem = true ∧
    p.handle ≤ 6291455 ∧
    ruleKind p.rule ≠ 0 ∧
    keptRule (old.rule p.handle) p.rule = true ∧
    (ruleTransform (old.rule p.handle) ≠ ruleTransform p.rule ∨ ruleFilter (old.rule p.handle) ≠ ruleFilter p.rule ∨ ruleClass (old.rule p.handle) ≠ ruleClass p.rule)) ∧
    (∃ (old : Cfg) (new : Cfg) (restored : List (Nat × Word64)) (p : PointRec) (s : State) (f : FiltSt), Memory.wf s.mem = true ∧
    p.handle ≤ 6291455 ∧
    ruleKind p.rule ≠ 0 ∧
    keptRule (old.rule p.handle) p.rule = false ∧
    f ∈ (State.carryPoint old new restored p s).pts.filters) ∧
    (∃ (old : Cfg) (restored : List (Nat × Word64)) (p : PointRec) (s : State), Memory.wf s.mem = true ∧
    p.handle ≤ 6291455 ∧
    ruleKind p.rule ≠ 0 ∧
    keptRule (old.rule p.handle) p.rule = false ∧
    List.find? (fun e => e.1 == p.handle) restored = none) ∧
    (∃ (old : Cfg) (restored : List (Nat × Word64)) (p : PointRec) (s : State) (e : Nat × Word64), Memory.wf s.mem = true ∧
    p.handle ≤ 6291455 ∧
    ruleKind p.rule ≠ 0 ∧
    keptRule (old.rule p.handle) p.rule = false ∧
    List.find? (fun e => e.1 == p.handle) restored = some e) ∧
    (∃ (f : ArmedFlip), 2 ≤ f.deferrals) ∧
    (∃ (f : ArmedFlip), f.deferrals < 2) ∧
    (∃ (t : Nat) (s : State), (s.arrive t).pair.owner = true ∧
    (s.arrive t).cfg.armed = none) ∧
    (∃ (t : Nat) (s : State) (f : ArmedFlip), (s.arrive t).pair.owner = true ∧
    (s.arrive t).cfg.armed = some f ∧
    ((s.arrive t).tb0 + 100000000 < f.tb ∨ f.goHeld = true ∨ f.solo = true ∨ (s.arrive t).power.mode ≠ 5)) ∧
    (∃ (t : Nat) (s : State) (f : ArmedFlip), (s.arrive t).pair.owner = true ∧
    (s.arrive t).cfg.armed = some f ∧
    f.tb ≤ (s.arrive t).tb0 + 100000000 ∧
    f.goHeld = false ∧
    f.solo = false ∧
    (s.arrive t).power.mode = 5 ∧
    (f.twinArmed = false ∨ (s.arrive t).twinSynced = false)) ∧
    (∃ (t : Nat) (s : State) (f : ArmedFlip), (s.arrive t).pair.owner = true ∧
    (s.arrive t).cfg.armed = some f ∧
    f.tb ≤ (s.arrive t).tb0 + 100000000 ∧
    f.goHeld = false ∧
    f.solo = false ∧
    (s.arrive t).power.mode = 5 ∧
    f.twinArmed = true ∧
    (s.arrive t).twinSynced = true ∧
    (s.arrive t).tb0 + 20000 < f.tb) ∧
    (∃ (t : Nat) (s : State) (f : ArmedFlip), (s.arrive t).pair.owner = true ∧
    (s.arrive t).cfg.armed = some f ∧
    f.tb ≤ (s.arrive t).tb0 + 100000000 ∧
    f.goHeld = false ∧
    f.solo = false ∧
    (s.arrive t).power.mode = 5 ∧
    f.twinArmed = true ∧
    (s.arrive t).twinSynced = true ∧
    f.tb ≤ (s.arrive t).tb0 + 20000 ∧
    (s.arrive t).allAcked = false) ∧
    (∃ (t : Nat) (s : State) (f : ArmedFlip), (s.arrive t).pair.owner = true ∧
    (s.arrive t).cfg.armed = some f ∧
    f.tb ≤ (s.arrive t).tb0 + 100000000 ∧
    f.goHeld = false ∧
    f.solo = false ∧
    (s.arrive t).power.mode = 5 ∧
    f.twinArmed = true ∧
    (s.arrive t).twinSynced = true ∧
    f.tb ≤ (s.arrive t).tb0 + 20000 ∧
    (s.arrive t).allAcked = true) ∧
    (∃ (t : Nat) (s : State), (s.arrive t).power.mode = 4 ∧
    (s.arrive t).pair.synced = true) ∧
    (∃ (t : Nat) (s : State), (s.arrive t).awake = true ∧
    (s.arrive t).cfg.armed = none) ∧
    (∃ (t : Nat) (s : State) (f : ArmedFlip), (s.arrive t).awake = true ∧
    (s.arrive t).cfg.armed = some f ∧
    ((s.arrive t).tb0 < f.tb ∨ (s.arrive t).pair.owner = false ∧ ((s.arrive t).power.mode ≠ 4 ∨ f.goHeld = false))) ∧
    (∃ (t : Nat) (s : State) (f : ArmedFlip), (s.arrive t).awake = true ∧
    (s.arrive t).cfg.armed = some f ∧
    f.tb ≤ (s.arrive t).tb0 ∧
    ((s.arrive t).pair.owner = true ∧ (f.goHeld = true ∨ f.solo = true ∨ (s.arrive t).power.mode ≠ 5) ∨ (s.arrive t).power.mode = 4 ∧ f.goHeld = true)) ∧
    (∃ (t : Nat) (s : State), (s.arrive t).cfg.windowOpen = true ∧
    (s.arrive t).cfg.flipTb + ceilDiv (2000000 + 625 * (s.arrive t).cfg.changed.length) 1000 ≤ (s.arrive t).tb0 ∧
    (s.arrive t).cfg.heldFrames = []) ∧
    (∃ (t : Nat) (s : State) (f : RxFrame), (s.arrive t).cfg.windowOpen = true ∧
    (s.arrive t).cfg.flipTb + ceilDiv (2000000 + 625 * (s.arrive t).cfg.changed.length) 1000 ≤ (s.arrive t).tb0 ∧
    (s.arrive t).cfg.heldFrames = [HeldDone.frame f] ∧
    (parseFsp f).kind = 4) ∧
    (∃ (t : Nat) (s : State) (f : RxFrame), (s.arrive t).cfg.windowOpen = true ∧
    (s.arrive t).cfg.flipTb + ceilDiv (2000000 + 625 * (s.arrive t).cfg.changed.length) 1000 ≤ (s.arrive t).tb0 ∧
    (s.arrive t).cfg.heldFrames = [HeldDone.frame f] ∧
    (parseFsp f).kind = 2) ∧
    (∃ (t : Nat) (s : State) (o : Nat) (st : Nat) (item : List Word), (s.arrive t).cfg.windowOpen = true ∧
    (s.arrive t).cfg.flipTb + ceilDiv (2000000 + 625 * (s.arrive t).cfg.changed.length) 1000 ≤ (s.arrive t).tb0 ∧
    (s.arrive t).cfg.heldFrames = [HeldDone.channel o st item]) ∧
    (∃ (t : Nat) (s : State) (d : FlipDone) (rest : List FlipDone), (s.arrive t).awake = true ∧
    (s.arrive t).cfg.commits = d :: rest ∧
    (s.arrive t).tb0 < d.tb + 1000000000) ∧
    (∃ (t : Nat) (s : State) (d : FlipDone) (rest : List FlipDone), (s.arrive t).awake = true ∧
    (s.arrive t).cfg.commits = d :: rest ∧
    d.tb + 1000000000 ≤ (s.arrive t).tb0) :=
  ⟨⟨0, wCmd 0x402 [], wUser, false, by unfold State.accepts; decide +kernel⟩,
    ⟨State.reset.upCfg fun p => { p with sown := { p.sown with present := true } }, by decide +kernel⟩,
    ⟨State.reset.upCfg fun p => { p with sown := { p.sown with present := false } }, by decide +kernel⟩,
    ⟨0, State.reset, PortTime.reset, by decide +kernel⟩,
    ⟨State.reset.upCfg fun p => { p with sown := { p.sown with present := true } }, by decide +kernel⟩,
    ⟨State.reset.upCfg fun p => { p with sown := { p.sown with present := false } }, by decide +kernel⟩,
    ⟨0, State.reset, PortTime.reset, by decide +kernel⟩,
    ⟨{ noCfg with points := [wPoint] }, wPoint, State.reset, by decide +kernel⟩,
    ⟨{ noCfg with points := [wPoint] }, { wPoint with rule := 0x1000000040000000#64 }, State.reset, by decide +kernel⟩,
    ⟨noCfg, noCfg, [], wPoint, State.reset.upPts fun p => { p with filters := [{ handle := 2, s := 0#64, count := 0 }] },
      { handle := 2, s := 0#64, count := 0 }, by decide +kernel⟩,
    ⟨noCfg, [], wPoint, State.reset, by decide +kernel⟩,
    ⟨noCfg, [(1, 5#64)], wPoint, State.reset, (1, 5#64), by decide +kernel⟩,
    ⟨{ wFlip with deferrals := 2 }, by decide +kernel⟩,
    ⟨wFlip, by decide +kernel⟩,
    ⟨0, (State.reset.upPair fun p => { p with owner := true }).upCfg fun p => { p with armed := none }, by decide +kernel⟩,
    ⟨0, (State.reset.upPair fun p => { p with owner := true }).upCfg fun p => { p with armed := some wFlip }, wFlip, by decide +kernel⟩,
    ⟨0,
      ((State.reset.upPair fun p => { p with owner := true }).upCfg fun p => { p with armed := some { wFlip with goHeld := false, solo := false } }).upPower fun p => { p with mode := 5 },
      { wFlip with goHeld := false, solo := false }, by decide +kernel⟩,
    ⟨0,
      ((State.reset.upPair fun p => { p with owner := true, twinMode := 4, lane0 := true }).upCfg fun p => { p with armed := some { wFlip with twinArmed := true, tb := 20001 } }).upPower fun p => { p with mode := 5 },
      { wFlip with twinArmed := true, tb := 20001 }, by decide +kernel⟩,
    ⟨0,
      (((State.reset.upPair fun p => { p with owner := true, twinMode := 4, lane0 := true }).upCfg fun p => { p with armed := some { wFlip with twinArmed := true, tb := 20000 } }).upPower fun p => { p with mode := 5 }).upCnt fun p => { p with acked := [(0, 1)] },
      { wFlip with twinArmed := true, tb := 20000 }, by decide +kernel⟩,
    ⟨0,
      ((State.reset.upPair fun p => { p with owner := true, twinMode := 4, lane0 := true }).upCfg fun p => { p with armed := some { wFlip with goHeld := false, solo := false, twinArmed := true } }).upPower fun p => { p with mode := 5 },
      { wFlip with goHeld := false, solo := false, twinArmed := true }, by decide +kernel⟩,
    ⟨0, (State.reset.upPower fun p => { p with mode := 4 }).upPair fun p => { p with synced := true }, by decide +kernel⟩,
    ⟨0, State.reset.upCfg fun p => { p with armed := none }, by decide +kernel⟩,
    ⟨0, State.reset.upCfg fun p => { p with armed := some wFlip }, wFlip, by decide +kernel⟩,
    ⟨0, (State.reset.upCfg fun p => { p with armed := some wFlip }).upPair fun p => { p with owner := true }, wFlip, by decide +kernel⟩,
    ⟨0,
      (State.reset.upCfg fun p => { p with windowOpen := true, heldFrames := [] }).upTime fun p => { p with tb0 := { p.tb0 with acc := 2000 * 2 ^ 48 } },
      by decide +kernel⟩,
    ⟨0,
      (State.reset.upCfg fun p => { p with windowOpen := true, heldFrames := [.frame (wRx 20 0x1000 0 0 [])] }).upTime fun p => { p with tb0 := { p.tb0 with acc := 2000 * 2 ^ 48 } },
      wRx 20 0x1000 0 0 [], by decide +kernel⟩,
    ⟨0,
      (State.reset.upCfg fun p => { p with windowOpen := true, heldFrames := [.frame (wRx 18 0x1000 0 0 [])] }).upTime fun p => { p with tb0 := { p.tb0 with acc := 2000 * 2 ^ 48 } },
      wRx 18 0x1000 0 0 [], by decide +kernel⟩,
    ⟨0,
      (State.reset.upCfg fun p => { p with windowOpen := true, heldFrames := [.channel 0 0 []] }).upTime fun p => { p with tb0 := { p.tb0 with acc := 2000 * 2 ^ 48 } },
      0, 0, [], by decide +kernel⟩,
    ⟨0, State.reset.upCfg fun p => { p with commits := wDone :: [] }, wDone, [], by decide +kernel⟩,
    ⟨0, (State.reset.upCfg fun p => { p with commits := [wDone] }).upTime fun p => { p with tb0 := { p.tb0 with acc := 10 ^ 9 * 2 ^ 48 } }, wDone, [],
      by decide +kernel⟩⟩
/-- Hypotheses of `Obligations.GatesDecideByTheFirstRule` that hold together. -/
theorem witness_GatesDecideByTheFirstRule :
    (∃ (s : State) (g : Nat) (addr : Nat) (master : Nat) (r : Nat), r < ruleCount g ∧
    (∀ i < r, ruleMatches (GateSt.rule g i s.gate) addr master = false) ∧
    ruleMatches (GateSt.rule g r s.gate) addr master = true ∧
    ruleSecure (GateSt.rule g r s.gate) = true ∧
    master ≠ 8) ∧
    (∃ (s : State) (g : Nat) (addr : Nat) (master : Nat) (r : Nat) (priv : Bool) (write : Bool), r < ruleCount g ∧
    (∀ i < r, ruleMatches (GateSt.rule g i s.gate) addr master = false) ∧
    ruleMatches (GateSt.rule g r s.gate) addr master = true ∧
    (ruleSecure (GateSt.rule g r s.gate) = true → master = 8) ∧
    rulePermits (GateSt.rule g r s.gate) priv write = false) ∧
    (∃ (s : State) (g : Nat) (addr : Nat) (master : Nat), (∀ i < ruleCount g, ruleMatches (GateSt.rule g i s.gate) addr master = false)) ∧
    (∃ (lo : Nat) (hi : Nat) (perm : Nat), lo % 32 = 0 ∧
    hi % 32 = 31 ∧
    lo ≤ hi ∧
    hi < 2 ^ 37 ∧
    perm < 32) ∧
    (∃ (s : State) (addr : Nat) (master : Nat), s.gate.active = s.rulesOf ∧
    203423744 ≤ addr ∧
    addr ≤ 204472319 ∧
    master < 19 ∧
    master ≠ 8) :=
  ⟨⟨State.reset.upGate fun p => { p with active := [(0, 0, [0, 0, 1, 0xC0])] }, 0, 0, 0, 0, by decide +kernel⟩,
    ⟨State.reset.upGate fun p => { p with active := [(0, 0, [0, 0, 1, 0x80])] }, 0, 0, 0, 0, true, true, by decide +kernel⟩,
    ⟨State.reset, 0, 0, 0, by decide +kernel⟩,
    ⟨0, 31, 0, by decide +kernel⟩,
    ⟨State.reset.upGate fun g => { g with active := State.reset.rulesOf }, 203423744, 0, by decide +kernel⟩⟩
/-- Hypotheses of `Obligations.GrandmastersAndTwinTime` that hold together. -/
theorem witness_GrandmastersAndTwinTime :
    (∃ (t : Nat) (m : AnnounceMsg) (s : State), (s.arrive t).timeRuns = true ∧
    (s.arrive t).baseOfDomain m.domain = none) ∧
    (∃ (t : Nat) (m : AnnounceMsg) (s : State) (n : Nat), (s.arrive t).timeRuns = true ∧
    (s.arrive t).baseOfDomain m.domain = some n ∧
    (s.arrive t).extPorts n = false ∧
    n < 2) ∧
    (∃ (l : List (Nat × AnnounceMsg)) (e : Nat × AnnounceMsg) (x : Nat × AnnounceMsg), bestOf l = some e ∧
    x ∈ l) ∧
    (∃ (t : Nat) (n : Nat) (s : State), (s.arrive t).timeRuns = true ∧
    n < 2 ∧
    (s.arrive t).extPorts n = false ∧
    (s.arrive t).mayBeGm n = false ∧
    (∀ q ∈ (s.arrive t).time.ports, PortTime.role n q ≠ 2 → PortTime.ann n q = none)) ∧
    (∃ (t : Nat) (p : Nat) (s : State), (s.arrive t).timeRuns = true ∧
    (s.arrive t).linkUp p = true) ∧
    (∃ (t : Nat) (p : Nat) (t1 : Nat) (t2 : Nat) (t3 : Nat) (t4 : Nat) (rate : Int) (s : State) (ok : Bool), (s.arrive t).timeRuns = true ∧
    (ok = true ↔ 0 ≤ (((s.arrive t).rxStamp p ↑t4 - (s.arrive t).txStamp p ↑t1 + (((s.arrive t).rxStamp p ↑t4 - (s.arrive t).txStamp p ↑t1) * rate).tdiv (2 ^ 40) - (↑t3 - ↑t2)).tdiv 512) ∧ (((s.arrive t).rxStamp p ↑t4 - (s.arrive t).txStamp p ↑t1 + (((s.arrive t).rxStamp p ↑t4 - (s.arrive t).txStamp p ↑t1) * rate).tdiv (2 ^ 40) - (↑t3 - ↑t2)).tdiv 512) ≤ 256 * ↑(s.arrive t).conf.time.thresholdNs) ∧
    ((s.arrive t).port p).asCapable = ok) ∧
    (∃ (t : Nat) (s : State), ((s.arrive t).power.mode = 3 ∨ (s.arrive t).power.mode = 4)) :=
  ⟨⟨0, { wAnn with domain := 5 }, State.reset.upPower fun p => { p with mode := 6 }, by decide +kernel⟩,
    ⟨0, wAnn, State.reset.upPower fun p => { p with mode := 6 }, 0, by decide +kernel⟩,
    ⟨[(0, wAnn)], (0, wAnn), (0, wAnn), by decide +kernel⟩,
    ⟨0, 0, State.reset.upPower fun p => { p with mode := 6 }, by decide +kernel⟩,
    ⟨0, 0, (State.reset.upPower fun p => { p with mode := 6 }).upSfp fun p => (setAt p 0 fun e0 => { e0 with linkUp := true }), by decide +kernel⟩,
    ⟨0, 0, 0, 0, 0, 0, 0,
      (State.reset.upTime fun p => { p with ports := (setAt p.ports 0 fun e1 => { e1 with asCapable := true }) }).upPower fun p => { p with mode := 6 },
      true, by decide +kernel, by decide +kernel, by
      decide +kernel⟩,
    ⟨0, State.reset.upPower fun p => { p with mode := 3 }, by decide +kernel⟩⟩
/-- Hypotheses of `Obligations.HandoversRunTheirTimeline` that hold together. -/
theorem witness_HandoversRunTheirTimeline :
    (∃ (t : Nat) (h : HandoverSt) (s : State), (s.arrive t).pair.owner = true ∧
    (s.arrive t).pair.armed = some h ∧
    (∀ e ∈ (s.arrive t).cnt.acked, e.2 = 0) ∧
    (s.arrive t).twinSynced = true) ∧
    (∃ (t : Nat) (h : HandoverSt) (s : State), (s.arrive t).pair.owner = true ∧
    (s.arrive t).pair.armed = some h ∧
    ((∃ e ∈ (s.arrive t).cnt.acked, e.2 ≠ 0) ∨ (s.arrive t).twinSynced = false) ∧
    (h.kind ≠ 0 ∨ h.deferrals < 2)) ∧
    (∃ (t : Nat) (h : HandoverSt) (s : State), (s.arrive t).pair.owner = true ∧
    (s.arrive t).pair.armed = some h ∧
    ((∃ e ∈ (s.arrive t).cnt.acked, e.2 ≠ 0) ∨ (s.arrive t).twinSynced = false) ∧
    h.kind = 0 ∧
    2 ≤ h.deferrals) ∧
    (∃ (t : Nat) (h : HandoverSt) (s : State), (s.arrive t).pair.owner = true ∧
    (s.arrive t).pair.armed = some h ∧
    (s.arrive t).twinSynced = true ∧
    h.th ≤ (s.arrive t).tb0) ∧
    (∃ (t : Nat) (h : HandoverSt) (s : State), (s.arrive t).power.mode = 5 ∧
    (s.arrive t).pair.owner = false ∧
    (s.arrive t).pair.twinClaim = true ∧
    (s.arrive t).pair.armed = some h ∧
    h.th + (s.arrive t).periodNs 0 ≤ (s.arrive t).tb0 ∧
    h.kind ≠ 4 ∧
    h.kind ≠ 5) ∧
    (∃ (t : Nat) (s : State), (s.arrive t).power.mode = 4 ∧
    (s.arrive t).pair.synced = true ∧
    (s.arrive t).inHomeSlot = true ∧
    (s.arrive t).conf.pair.homeSettle ≠ 0 ∧
    (s.arrive t).pair.settleFrom + 250000000 * (s.arrive t).conf.pair.homeSettle ≤ (s.arrive t).time.now ∧
    (s.arrive t).homeDeferred = false ∧
    (s.arrive t).pair.twinMode = 5) ∧
    (∃ (t : Nat) (s : State), (s.arrive t).power.mode = 4 ∧
    (s.arrive t).pair.synced = true ∧
    (s.arrive t).inHomeSlot = true ∧
    (s.arrive t).conf.pair.homeSettle ≠ 0 ∧
    (s.arrive t).pair.settleFrom + 250000000 * (s.arrive t).conf.pair.homeSettle ≤ (s.arrive t).time.now ∧
    ((s.arrive t).homeDeferred = true ∨ (s.arrive t).pair.twinMode ≠ 5)) ∧
    (∃ (t : Nat) (s : State), (s.arrive t).pair.owner = true ∧
    ((s.arrive t).homeDeferred = true ∨ (s.arrive t).power.mode ≠ 5 ∨ (s.arrive t).twinSynced = false)) ∧
    (∃ (t : Nat) (s : State), (s.arrive t).pair.owner = true ∧
    (s.arrive t).homeDeferred = false ∧
    (s.arrive t).power.mode = 5 ∧
    (s.arrive t).twinSynced = true ∧
    (s.arrive t).pair.armed = none ∧
    (s.arrive t).conf.pair.proveEnable = true ∧
    (s.arrive t).pair.ownerSince + 3600 * (s.arrive t).conf.pair.provePeriodH ≤ (s.arrive t).tb3s) ∧
    (∃ (t : Nat) (s : State), (s.arrive t).pair.owner = true ∧
    (s.arrive t).pair.armed = none ∧
    (s.arrive t).homeDeferred = true ∧
    (s.arrive t).conf.pair.proveEnable = true ∧
    (s.arrive t).pair.ownerSince + 3600 * (s.arrive t).conf.pair.provePeriodH ≤ (s.arrive t).tb3s) ∧
    (∃ (t : Nat) (a : Nat) (s : State), (s.arrive t).power.mode = 4 ∧
    (s.arrive t).pair.synced = true ∧
    (s.arrive t).pair.provingFrom = some a ∧
    a + (s.arrive t).conf.pair.proveDwellS ≤ (s.arrive t).tb3s) ∧
    (∃ (x : Nat) (s : State), 0 < (s.classRec x).periodUs) :=
  ⟨⟨0, wHand, State.reset.upPair fun p => { p with owner := true, armed := some wHand, twinMode := 4, lane0 := true }, by decide +kernel⟩,
    ⟨0, wHand, State.reset.upPair fun p => { p with owner := true, armed := some wHand }, by decide +kernel⟩,
    ⟨0, { wHand with deferrals := 2 }, State.reset.upPair fun p => { p with owner := true, armed := some { wHand with deferrals := 2 } },
      by decide +kernel⟩,
    ⟨0, wHand, State.reset.upPair fun p => { p with owner := true, armed := some wHand, twinMode := 4, lane0 := true }, by decide +kernel⟩,
    ⟨0, wHand,
      ((State.reset.upPower fun p => { p with mode := 5 }).upPair fun p => { p with owner := false, twinClaim := true, armed := some wHand }).upTime fun p => { p with tb0 := { p.tb0 with acc := 10 ^ 6 * 2 ^ 48 } },
      by decide +kernel⟩,
    ⟨0,
      (((State.reset.upPower fun p => { p with mode := 4 }).upPair fun p => { p with synced := true, twinMode := 5 }).upCfg fun p => { p with sown := { p.sown with present := true, cfg := { p.sown.cfg with pair := { p.sown.cfg.pair with homeSettle := 900, homeSlot := 0 } } } }).upTime fun p => { p with now := 225000000000 },
      by decide +kernel⟩,
    ⟨0,
      (((State.reset.upPower fun p => { p with mode := 4 }).upPair fun p => { p with synced := true, hedgeFault := true }).upCfg fun p => { p with sown := { p.sown with present := true, cfg := { p.sown.cfg with pair := { p.sown.cfg.pair with homeSettle := 900, homeSlot := 0 } } } }).upTime fun p => { p with now := 225000000000 },
      by decide +kernel⟩,
    ⟨0, State.reset.upPair fun p => { p with owner := true, hedgeFault := true }, by decide +kernel⟩,
    ⟨0,
      (((State.reset.upPair fun p => { p with owner := true, armed := none, twinMode := 4, lane0 := true }).upPower fun p => { p with mode := 5 }).upCfg fun p => { p with sown := { p.sown with present := true, cfg := { p.sown.cfg with pair := { p.sown.cfg.pair with proveEnable := true } } } }).upTime fun p => { p with tb3 := 604800 * 65536000000000 },
      by decide +kernel⟩,
    ⟨0,
      ((State.reset.upPair fun p => { p with owner := true, armed := none, hedgeFault := true }).upCfg fun p => { p with sown := { p.sown with present := true, cfg := { p.sown.cfg with pair := { p.sown.cfg.pair with proveEnable := true } } } }).upTime fun p => { p with tb3 := 604800 * 65536000000000 },
      by decide +kernel⟩,
    ⟨0, 0,
      ((State.reset.upPower fun p => { p with mode := 4 }).upPair fun p => { p with synced := true, provingFrom := some 0 }).upTime fun p => { p with tb3 := 600 * 65536000000000 },
      by decide +kernel⟩,
    ⟨0, State.reset, by decide +kernel⟩⟩
/-- Hypotheses of `Obligations.HartServesRequestsInOrder` that hold together. -/
theorem witness_HartServesRequestsInOrder :
    (∃ (t : Nat) (n : Nat) (addr : Nat) (data : List Byte) (s : State), (s.arrive t).awake = true ∧
    (8 ≤ n ∨ 250 < data.length ∨ ((s.arrive t).hartMode n ≠ 1 ∨ addr ≠ 0) ∧ ((s.arrive t).hartMode n ≠ 2 ∨ addr = 0 ∨ (s.arrive t).hartDevices n < addr))) ∧
    (∃ (t : Nat) (n : Nat) (addr : Nat) (data : List Byte) (s : State), (s.arrive t).awake = true ∧
    n < 8 ∧
    data.length ≤ 250 ∧
    ((s.arrive t).hartMode n = 1 ∧ addr = 0 ∨ (s.arrive t).hartMode n = 2 ∧ 1 ≤ addr ∧ addr ≤ (s.arrive t).hartDevices n) ∧
    32 ≤ ((s.arrive t).modem (n / 4)).queue.length) ∧
    (∃ (t : Nat) (n : Nat) (addr : Nat) (data : List Byte) (s : State), (s.arrive t).awake = true ∧
    n < 8 ∧
    data.length ≤ 250 ∧
    ((s.arrive t).hartMode n = 1 ∧ addr = 0 ∨ (s.arrive t).hartMode n = 2 ∧ 1 ≤ addr ∧ addr ≤ (s.arrive t).hartDevices n) ∧
    ((s.arrive t).modem (n / 4)).queue.length < 32 ∧
    (s.arrive t).ua.modems.length = 2) ∧
    (∃ (t : Nat) (id : Nat) (s : State), (s.arrive t).awake = true ∧
    (∃ d ∈ (s.arrive t).ua.modems, ∃ q ∈ d.queue, q.id = id ∧ q.internal = false)) ∧
    (∃ (t : Nat) (id : Nat) (s : State) (rc : Nat) (ds : Nat) (data : List Byte), (s.arrive t).awake = true ∧
    (∀ d ∈ (s.arrive t).ua.modems, ∀ q ∈ d.queue, q.id = id → q.internal = true) ∧
    List.find? (fun r => r.1 == id) (s.arrive t).ua.results = some (id, stOk, rc, ds, data)) ∧
    (∃ (t : Nat) (id : Nat) (s : State) (rc : Nat) (ds : Nat) (data : List Byte), (s.arrive t).awake = true ∧
    (∀ d ∈ (s.arrive t).ua.modems, ∀ q ∈ d.queue, q.id = id → q.internal = true) ∧
    List.find? (fun r => r.1 == id) (s.arrive t).ua.results = some (id, stTimeout, rc, ds, data)) ∧
    (∃ (t : Nat) (id : Nat) (s : State), (s.arrive t).awake = true ∧
    (∀ d ∈ (s.arrive t).ua.modems, ∀ q ∈ d.queue, q.id = id → q.internal = true) ∧
    List.find? (fun r => r.1 == id) (s.arrive t).ua.results = none) ∧
    (∃ (t : Nat) (m : Nat) (s : State) (q : HartReq) (qs : List HartReq) (ds : Nat), (s.arrive t).awake = true ∧
    (s.arrive t).ua.afsLost = false ∧
    m < 2 ∧
    (s.arrive t).ua.modems.length = 2 ∧
    ((s.arrive t).modem m).queue = q :: qs ∧
    q.internal = false ∧
    bit ds 6 = false) ∧
    (∃ (t : Nat) (m : Nat) (s : State) (q : HartReq) (qs : List HartReq), (s.arrive t).awake = true ∧
    (s.arrive t).ua.afsLost = false ∧
    m < 2 ∧
    (s.arrive t).ua.modems.length = 2 ∧
    ((s.arrive t).modem m).queue = q :: qs ∧
    q.internal = false ∧
    q.tries < 2) ∧
    (∃ (t : Nat) (m : Nat) (s : State) (q : HartReq) (qs : List HartReq), (s.arrive t).awake = true ∧
    (s.arrive t).ua.afsLost = false ∧
    m < 2 ∧
    (s.arrive t).ua.modems.length = 2 ∧
    ((s.arrive t).modem m).queue = q :: qs ∧
    q.internal = false ∧
    2 ≤ q.tries) ∧
    (∃ (t : Nat) (m : Nat) (s : State), (s.arrive t).driving = true ∧
    (s.arrive t).ua.afsLost = false ∧
    m < 2 ∧
    (s.arrive t).ua.modems.length = 2) :=
  ⟨⟨0, 0, 0, [], State.reset, by decide +kernel⟩,
    ⟨0, 0, 0, [],
      (State.reset.upCfg fun p => { p with sown := { p.sown with present := true, cfg := { p.sown.cfg with ua := List.replicate 8 (2 ^ 29 + 2 ^ 14, 0) } } }).upUa fun p => { p with modems := List.replicate 2 { Modem.reset with queue := List.replicate 32 wHart } },
      by decide +kernel⟩,
    ⟨0, 0, 0, [],
      State.reset.upCfg fun p => { p with sown := { p.sown with present := true, cfg := { p.sown.cfg with ua := List.replicate 8 (2 ^ 29 + 2 ^ 14, 0) } } },
      by decide +kernel⟩,
    ⟨0, 1, State.reset.upUa fun p => { p with modems := [{ Modem.reset with queue := [wHart] }, Modem.reset] }, by decide +kernel⟩,
    ⟨0, 1, State.reset.upUa fun p => { p with results := [(1, stOk, 0, 0, [])] }, 0, 0, [], by decide +kernel⟩,
    ⟨0, 1, State.reset.upUa fun p => { p with results := [(1, stTimeout, 0, 0, [])] }, 0, 0, [], by decide +kernel⟩,
    ⟨0, 0, State.reset, by decide +kernel⟩,
    ⟨0, 0,
      State.reset.upUa fun p => { p with afsLost := false, modems := (setAt p.modems 0 fun e1 => { e1 with queue := { wHart with internal := false } :: [] }) },
      { wHart with internal := false }, [], 0, by decide +kernel⟩,
    ⟨0, 0,
      State.reset.upUa fun p => { p with afsLost := false, modems := (setAt p.modems 0 fun e1 => { e1 with queue := { wHart with internal := false } :: [] }) },
      { wHart with internal := false }, [], by decide +kernel⟩,
    ⟨0, 0, State.reset.upUa fun p => { p with afsLost := false, modems := [{ Modem.reset with queue := [{ wHart with tries := 2 }] }, Modem.reset] },
      { wHart with tries := 2 }, [], by decide +kernel⟩,
    ⟨0, 0,
      (State.reset.upUa fun p => { p with afsLost := false }).upPair fun p => { p with ownClaim := true, ownReadback := true, confirmed := true },
      by decide +kernel⟩⟩
/-- Hypotheses of `Obligations.ImageEntriesReadBack` that hold together. -/
theorem witness_ImageEntriesReadBack :
    (∃ (h : Nat) (g : Img) (s : State) (k : Nat), Memory.wf s.mem = true ∧
    h ≤ 6291455 ∧
    ruleKind (s.ruleOf h) ≠ 0 ∧
    g.quality < 256 ∧
    g.age < 65536 ∧
    k ≠ h) ∧
    (∃ (h : Nat) (g : Img) (s : State) (a : Nat), Memory.wf s.mem = true ∧
    h ≤ 6291455 ∧
    ruleKind (s.ruleOf h) ≠ 0 ∧
    g.quality < 256 ∧
    g.age < 65536 ∧
    (a < 8 * h ∨ 8 * h + 8 ≤ a)) ∧
    (∃ (h : Nat) (g : Img) (s : State) (i : Nat), Memory.wf s.mem = true ∧
    h ≤ 6291455 ∧
    ruleKind (s.ruleOf h) ≠ 0 ∧
    g.quality < 256 ∧
    g.age < 65536 ∧
    i < 8) ∧
    (∃ (h : Nat) (s : State), ruleKind (s.ruleOf h) = 0) ∧
    (∃ (h : Nat) (f : Img → Img) (s : State), Memory.wf s.mem = true ∧
    h ≤ 6291455 ∧
    ruleKind (s.ruleOf h) ≠ 0 ∧
    (f (s.img h)).quality < 256 ∧
    (f (s.img h)).age < 65536) :=
  ⟨⟨0x5FFFFF, wImg, wPt 0x5FFFFF 0x1000000000000000#64, 0x5FFFFE, by decide +kernel⟩,
    ⟨0x5FFFFF, wImg, wPt 0x5FFFFF 0x1000000000000000#64, 8 * 0x5FFFFF - 1, by decide +kernel⟩,
    ⟨0x5FFFFF, wImg, wPt 0x5FFFFF 0x1000000000000000#64, 7, by decide +kernel⟩,
    ⟨0, State.reset, by decide +kernel⟩,
    ⟨0x5FFFFF, fun g => g, wPt 0x5FFFFF 0x1000000000000000#64, by decide +kernel⟩⟩
/-- Hypotheses of `Obligations.KeyRecordsAreStaged` that hold together. -/
theorem witness_KeyRecordsAreStaged :
    (∃ (t : Nat) (h : Hdr) (s : State) (base : Nat), (s.arrive t).power.mode = 2 ∧
    (s.arrive t).sec.lifecycle ≠ 3 ∧
    ((s.arrive t).sec.lifecycle = 0 → h.mb = 15) ∧
    ((s.arrive t).sec.lifecycle ≠ 0 → 4 ≤ (s.arrive t).rights h.mb) ∧
    base < 64 ∧
    State.accepts paramWriteCmd (writeReq h 8 32 [BitVec.ofNat 32 (64 + base)]) (s.arrive t)) ∧
    (∃ (t : Nat) (h : Hdr) (s : State) (base : Nat), (s.arrive t).power.mode = 2 ∧
    (s.arrive t).sec.lifecycle ≠ 3 ∧
    ((s.arrive t).sec.lifecycle = 0 → h.mb = 15) ∧
    ((s.arrive t).sec.lifecycle ≠ 0 → 4 ≤ (s.arrive t).rights h.mb) ∧
    64 ≤ base ∧
    State.accepts paramWriteCmd (writeReq h 8 32 [256#32]) (s.arrive t)) ∧
    (∃ (t : Nat) (h : Hdr) (s : State), (s.arrive t).power.mode = 2 ∧
    (s.arrive t).sec.lifecycle ≠ 3 ∧
    ((s.arrive t).sec.lifecycle = 0 → h.mb = 15) ∧
    ((s.arrive t).sec.lifecycle ≠ 0 → 4 ≤ (s.arrive t).rights h.mb) ∧
    State.accepts paramWriteCmd (writeReq h 8 32 [192#32]) (s.arrive t)) ∧
    (∃ (t : Nat) (h : Hdr) (s : State) (st' : Nat), (s.arrive t).power.mode = 2 ∧
    (s.arrive t).sec.lifecycle ≠ 3 ∧
    ((s.arrive t).sec.lifecycle = 0 → h.mb = 15) ∧
    ((s.arrive t).sec.lifecycle ≠ 0 → 4 ≤ (s.arrive t).rights h.mb) ∧
    State.accepts paramWriteCmd (writeReq h 8 32 [128#32]) (s.arrive t) ∧
    (s.arrive t).keyCommitCheck = some st') ∧
    (∃ (t : Nat) (h : Hdr) (s : State) (first : Nat) (words : List Word), (s.arrive t).power.mode = 2 ∧
    (s.arrive t).sec.lifecycle ≠ 3 ∧
    ((s.arrive t).sec.lifecycle = 0 → h.mb = 15) ∧
    ((s.arrive t).sec.lifecycle ≠ 0 → 4 ≤ (s.arrive t).rights h.mb) ∧
    words ≠ [] ∧
    first + words.length ≤ 256 ∧
    State.accepts paramWriteCmd (writeReq h 8 (256 + first) words) (s.arrive t)) :=
  ⟨⟨0, wH, wUser.upSec fun p => { p with lifecycle := 2 }, 0, by unfold State.accepts; decide +kernel⟩,
    ⟨0, wH, wUser.upSec fun p => { p with lifecycle := 2 }, 64, by unfold State.accepts; decide +kernel⟩,
    ⟨0, wH, wUser.upSec fun p => { p with lifecycle := 2 }, by unfold State.accepts; decide +kernel⟩,
    ⟨0, wH, wUser.upSec fun p => { p with lifecycle := 2 }, stRange, by unfold State.accepts; decide +kernel⟩,
    ⟨0, wH, wUser.upSec fun p => { p with lifecycle := 2 }, 0, [0#32], by unfold State.accepts; decide +kernel⟩⟩
/-- Hypotheses of `Obligations.KeyRecordsAreStaged` that hold together, where the opaque functions of Config answer so. -/
theorem witness_KeyRecordsAreStaged_given1 (hk : Config.keyMatches [1#8] [2#8] = true) :
    (∃ (t : Nat) (h : Hdr) (s : State), (s.arrive t).power.mode = 2 ∧
    (s.arrive t).sec.lifecycle ≠ 3 ∧
    ((s.arrive t).sec.lifecycle = 0 → h.mb = 15) ∧
    ((s.arrive t).sec.lifecycle ≠ 0 → 4 ≤ (s.arrive t).rights h.mb) ∧
    State.accepts paramWriteCmd (writeReq h 8 32 [128#32]) (s.arrive t) ∧
    (s.arrive t).keyCommitCheck = none ∧
    (s.arrive t).sec.lifecycle = 0) ∧
    (∃ (t : Nat) (h : Hdr) (s : State) (c : SecureSt), (s.arrive t).power.mode = 2 ∧
    (s.arrive t).sec.lifecycle ≠ 3 ∧
    ((s.arrive t).sec.lifecycle = 0 → h.mb = 15) ∧
    ((s.arrive t).sec.lifecycle ≠ 0 → 4 ≤ (s.arrive t).rights h.mb) ∧
    State.accepts paramWriteCmd (writeReq h 8 32 [128#32]) (s.arrive t) ∧
    (s.arrive t).keyCommitCheck = none ∧
    (s.arrive t).sec.lifecycle ≠ 0 ∧
    SecureSt.applied (keyRecord (s.arrive t).sec) (s.arrive t).sec = some c) :=
  ⟨⟨0, { wH with mb := 15, session := 0 },
     wKeys 0 ((wUser.upGate fun g => { g with debugOpen := true }).setBox 15 fun b => { b with connected := true, granted := 4, role := 4, sid := 9 }),
     by decide +kernel, by decide +kernel, by decide +kernel, by decide +kernel, by unfold State.accepts; decide +kernel,
     wKeys_ok _ ((wKeys 0 ((wUser.upGate fun g => { g with debugOpen := true }).setBox 15 fun b => { b with connected := true, granted := 4, role := 4, sid := 9 })).sec) (by decide +kernel) (wKeys_complete _ hk (by decide +kernel)) (by decide +kernel) (by decide +kernel),
     by decide +kernel⟩,
    ⟨0, wH, wKeys 1 wUser, (wKeys 1 wUser).sec, by decide +kernel, by decide +kernel, by decide +kernel, by decide +kernel,
      by unfold State.accepts; decide +kernel,
      wKeys_ok _ ((wKeys 1 wUser).sec) (by decide +kernel) (wKeys_complete _ hk (by decide +kernel)) (by decide +kernel) (by decide +kernel),
      by decide +kernel⟩⟩
/-- Hypotheses of `Obligations.LifeCycleAndGateCommits` that hold together. -/
theorem witness_LifeCycleAndGateCommits :
    (∃ (t : Nat) (r : Req) (s : State), State.accepts (plainCmd 2560 4 0) r (s.arrive t)) ∧
    (∃ (t : Nat) (r : Req) (s : State), State.accepts (plainCmd 2561 4 0) r (s.arrive t)) ∧
    (∃ (t : Nat) (r : Req) (s : State), State.accepts (lifecycleCmd r) r (s.arrive t) ∧
    zeros r.payload 1 3 = true ∧
    (s.arrive t).sec.advanceTo = none ∧
    (s.arrive t).mayAdvance r.mb (field r.payload 0 1) = false) ∧
    (∃ (t : Nat) (r : Req) (s : State), State.accepts (lifecycleCmd r) r (s.arrive t) ∧
    zeros r.payload 1 3 = true ∧
    (s.arrive t).sec.advanceTo = none ∧
    (s.arrive t).mayAdvance r.mb (field r.payload 0 1) = true ∧
    (s.arrive t).msg.jobs.length < 64) ∧
    (∃ (t : Nat) (id : Nat) (s : State), (s.arrive t).awake = true ∧
    (s.arrive t).power.mode = 2 ∧
    (s.arrive t).sec.advanceTo = some (2, id)) ∧
    (∃ (t : Nat) (id : Nat) (s : State), (s.arrive t).awake = true ∧
    (s.arrive t).power.mode = 2 ∧
    (s.arrive t).sec.advanceTo = some (3, id)) ∧
    (∃ (a : Nat), 203423744 ≤ a ∧
    a ≤ 204472319) ∧
    (∃ (s : State) (n : Nat), n < 8 ∧
    n < s.msg.boxes.length ∧
    (s.box n).connected = true) ∧
    (∃ (t : Nat) (s : State), (s.arrive t).awake = true ∧
    (s.arrive t).gate.draining = false) ∧
    (∃ (t : Nat) (s : State), (s.arrive t).gate.draining = true) :=
  ⟨⟨0, (hdrReq wH 2560 (zeroBytes 0)), wUser, by unfold State.accepts; decide +kernel⟩,
    ⟨0, (hdrReq wH 2561 (zeroBytes 0)), wUser, by unfold State.accepts; decide +kernel⟩,
    ⟨0, wCmd 0x0A02 [0#8, 0#8, 0#8, 0#8], wUser.upSec fun p => { p with advanceTo := none }, by unfold State.accepts; decide +kernel⟩,
    ⟨0, wCmd 0x0A02 [3#8, 0#8, 0#8, 0#8], wUser.upSec fun p => { p with advanceTo := none }, by unfold State.accepts; decide +kernel⟩,
    ⟨0, 0, (State.reset.upPower fun p => { p with mode := 2 }).upSec fun p => { p with advanceTo := some (2, 0) }, by decide +kernel⟩,
    ⟨0, 0, (State.reset.upPower fun p => { p with mode := 2 }).upSec fun p => { p with advanceTo := some (3, 0) }, by decide +kernel⟩,
    ⟨203423744, by decide +kernel⟩,
    ⟨State.reset.upMsg fun p => { p with boxes := (setAt p.boxes 0 fun e1 => { e1 with connected := true }) }, 0, by decide +kernel⟩,
    ⟨0, State.reset.upGate fun p => { p with draining := false }, by decide +kernel⟩,
    ⟨0, State.reset.upGate fun p => { p with draining := true }, by decide +kernel⟩⟩
/-- Hypotheses of `Obligations.LocalOutputsFollowTheSequencer` that hold together. -/
theorem witness_LocalOutputsFollowTheSequencer :
    (∃ (t : Nat) (s : State), (s.arrive t).awake = true ∧
    (s.arrive t).dio.silent = false) ∧
    (∃ (t : Nat) (s : State), (s.arrive t).awake = true ∧
    (s.arrive t).ua.silent = false) ∧
    (∃ (t : Nat) (s : State), (s.arrive t).awake = true ∧
    (s.arrive t).dio.silent = true) ∧
    (∃ (t : Nat) (n : Nat) (b : Bool) (c : Word) (s : State), (s.arrive t).awake = true ∧
    n < 16 ∧
    n < (s.arrive t).dio.ch.length ∧
    ((s.arrive t).dioCh n).loaded = some (b, c)) ∧
    (∃ (t : Nat) (n : Nat) (s : State), (s.arrive t).awake = true ∧
    n < 16 ∧
    ((s.arrive t).dioCh n).loaded = none) ∧
    (∃ (t : Nat) (n : Nat) (x : Raw) (c : Word) (s : State), (s.arrive t).awake = true ∧
    n < 8 ∧
    n < (s.arrive t).ua.ch.length ∧
    ((s.arrive t).uaCh n).loaded = some (x, c) ∧
    (s.arrive t).uaMute n = true) ∧
    (∃ (t : Nat) (n : Nat) (x : Raw) (c : Word) (s : State), (s.arrive t).awake = true ∧
    n < 8 ∧
    n < (s.arrive t).ua.ch.length ∧
    ((s.arrive t).uaCh n).loaded = some (x, c) ∧
    (s.arrive t).uaMute n = false) :=
  ⟨⟨0, State.reset.upDio fun p => { p with silent := false }, by decide +kernel⟩,
    ⟨0, State.reset.upUa fun p => { p with silent := false }, by decide +kernel⟩,
    ⟨0, State.reset.upDio fun p => { p with silent := true }, by decide +kernel⟩,
    ⟨0, 0, true, 0#32, State.reset.upDio fun p => { p with ch := (setAt p.ch 0 fun e1 => { e1 with loaded := some (true, 0#32) }) },
      by decide +kernel⟩,
    ⟨0, 0, State.reset.upDio fun p => { p with ch := (setAt p.ch 0 fun e1 => { e1 with loaded := none }) }, by decide +kernel⟩,
    ⟨0, 0, 0#32, 0#32, State.reset.upUa fun p => { p with ch := (setAt p.ch 0 fun e1 => { e1 with loaded := some (0#32, 0#32), quietUntil := 1 }) },
      by decide +kernel⟩,
    ⟨0, 0, 0#32, 0#32, State.reset.upUa fun p => { p with ch := (setAt p.ch 0 fun e1 => { e1 with loaded := some (0#32, 0#32) }) },
      by decide +kernel⟩⟩
/-- Hypotheses of `Obligations.LockstepFaultsStopControl` that hold together. -/
theorem witness_LockstepFaultsStopControl :
    (∃ (t : Nat) (n : Nat) (s : State), (s.arrive t).awake = true ∧
    (s.arrive t).boot.coresOff = false ∧
    n < 8 ∧
    n < (s.arrive t).lock.pairs.length ∧
    ((s.arrive t).corePair n).halted = true) ∧
    (∃ (t : Nat) (n : Nat) (s : State), (s.arrive t).awake = true ∧
    (s.arrive t).boot.coresOff = false ∧
    n < 8 ∧
    n < (s.arrive t).lock.pairs.length ∧
    ((s.arrive t).corePair n).halted = false) ∧
    (∃ (t : Nat) (n : Nat) (s : State), (s.arrive t).awake = true ∧
    (s.arrive t).boot.coresOff = false ∧
    ((s.arrive t).corePair n).halted = false ∧
    3 ≤ (s.arrive t).power.mode ∧
    (s.arrive t).power.mode ≤ 6 ∧
    n < (s.arrive t).lock.pairs.length) ∧
    (∃ (t : Nat) (s : State), ((s.arrive t).power.mode = 2 ∨ (s.arrive t).power.mode = 4) ∧
    (s.arrive t).lock.lbistRunning = none ∧
    (s.arrive t).lock.lbistDue ≤ (s.arrive t).tb3s) ∧
    (∃ (t : Nat) (n : Nat) (s : State), (s.arrive t).lock.lbistRunning = some n ∧
    n < (s.arrive t).lock.pairs.length) ∧
    (∃ (t : Nat) (n : Nat) (s : State), (s.arrive t).awake = true ∧
    ((s.arrive t).corePair n).halted = true ∧
    ((s.arrive t).corePair n).kindAtFault ≠ 0 ∧
    n < (s.arrive t).lock.pairs.length ∧
    (s.arrive t).power.mode ≠ 7) :=
  ⟨⟨0, 0,
     (State.reset.upBoot fun p => { p with coresOff := false }).upLock fun p => { p with pairs := (setAt p.pairs 0 fun e1 => { e1 with halted := true }) },
     by decide +kernel⟩,
    ⟨0, 0,
      (State.reset.upBoot fun p => { p with coresOff := false }).upLock fun p => { p with pairs := (setAt p.pairs 0 fun e1 => { e1 with halted := false }) },
      by decide +kernel⟩,
    ⟨0, 0,
      ((State.reset.upBoot fun p => { p with coresOff := false }).upLock fun p => { p with pairs := (setAt p.pairs 0 fun e1 => { e1 with halted := false }) }).upPower fun p => { p with mode := 3 },
      by decide +kernel⟩,
    ⟨0, (State.reset.upPower fun p => { p with mode := 2 }).upLock fun p => { p with lbistRunning := none }, by decide +kernel⟩,
    ⟨0, 0, State.reset.upLock fun p => { p with lbistRunning := some 0 }, by decide +kernel⟩,
    ⟨0, 0,
      (State.reset.upLock fun p => { p with pairs := (setAt p.pairs 0 fun e1 => { e1 with halted := true, kindAtFault := 1 }) }).upPower fun p => { p with mode := 0 },
      by decide +kernel⟩⟩
/-- Hypotheses of `Obligations.ModeRequestsFollowTable84` that hold together. -/
theorem witness_ModeRequestsFollowTable84 :
    (∃ (t : Nat) (target : Nat) (r : Req) (s : State), target = field r.payload 0 1 ∧
    State.accepts (plainCmd 257 (modeRole target (s.arrive t).power.mode) 8) r (s.arrive t) ∧
    target ∉ [1, 2, 5, 7, 8]) ∧
    (∃ (t : Nat) (target : Nat) (r : Req) (s : State), target = field r.payload 0 1 ∧
    State.accepts (plainCmd 257 (modeRole target (s.arrive t).power.mode) 8) r (s.arrive t) ∧
    target ∈ [1, 2, 5, 7, 8] ∧
    zeros r.payload 1 3 = true ∧
    State.modeAccepted target (s.arrive t) = false) ∧
    (∃ (t : Nat) (target : Nat) (r : Req) (s : State), target = field r.payload 0 1 ∧
    State.accepts (plainCmd 257 (modeRole target (s.arrive t).power.mode) 8) r (s.arrive t) ∧
    target ∈ [1, 2, 5, 7, 8] ∧
    zeros r.payload 1 3 = true ∧
    State.modeAccepted target (s.arrive t) = true ∧
    (s.arrive t).jobHolds = true ∧
    target ∈ [1, 2, 8]) ∧
    (∃ (t : Nat) (target : Nat) (r : Req) (s : State), target = field r.payload 0 1 ∧
    State.accepts (plainCmd 257 (modeRole target (s.arrive t).power.mode) 8) r (s.arrive t) ∧
    target ∈ [1, 2, 5, 7, 8] ∧
    zeros r.payload 1 3 = true ∧
    State.modeAccepted target (s.arrive t) = true ∧
    ((s.arrive t).jobHolds = false ∨ target ∉ [1, 2, 8])) ∧
    (∃ (s : State), s.power.mode = 2) ∧
    (∃ (s : State), (s.power.mode = 5 ∨ s.power.mode = 6)) ∧
    (∃ (s : State), s.power.mode = 7 ∧
    s.boot.waiting = false ∧
    s.pair.termOpen = false ∧
    s.pair.ownClaim = false) ∧
    (∃ (s : State), s.power.mode ≠ 7) ∧
    (∃ (s : State), s.boot.retiring = false) :=
  ⟨⟨0, 3, wCmd 257 (3#8 :: zeroBytes 7), (wUser), by unfold State.accepts; decide +kernel⟩,
    ⟨0, 7, wCmd 257 (7#8 :: zeroBytes 7), (wUser), by unfold State.accepts; decide +kernel⟩,
    ⟨0, 1, wCmd 257 (1#8 :: zeroBytes 7), (wUser.upSheaf fun h => { h with st := 3 }), by unfold State.accepts; decide +kernel⟩,
    ⟨0, 1, wCmd 257 (1#8 :: zeroBytes 7), (wUser), by unfold State.accepts; decide +kernel⟩,
    ⟨State.reset.upPower fun p => { p with mode := 2 }, by decide +kernel⟩,
    ⟨State.reset.upPower fun p => { p with mode := 5 }, by decide +kernel⟩,
    ⟨((State.reset.upPower fun p => { p with mode := 7 }).upBoot fun p => { p with waiting := false }).upPair fun p => { p with termOpen := false, ownClaim := false },
      by decide +kernel⟩,
    ⟨State.reset.upPower fun p => { p with mode := 0 }, by decide +kernel⟩,
    ⟨State.reset.upBoot fun p => { p with retiring := false }, by decide +kernel⟩⟩
/-- Hypotheses of `Obligations.ModeTransitions` that hold together. -/
theorem witness_ModeTransitions :
    (∃ (new : Nat), 1 ≤ new ∧
    new ≤ 8) ∧
    (∃ (s : State), s.pair.owner = true ∧
    s.pair.ownClaim = true ∧
    s.swathSilent = false) ∧
    (∃ (s : State) (n : Nat), n < s.dio.ch.length) ∧
    (∃ (s : State) (n : Nat), n < s.ua.ch.length) ∧
    (∃ (s : State), s.power.mode ≠ 7) :=
  ⟨⟨1, by decide +kernel⟩,
    ⟨State.reset.upPair fun p => { p with owner := true, ownClaim := true, lane0 := true }, by decide +kernel⟩,
    ⟨State.reset, 0, by decide +kernel⟩,
    ⟨State.reset, 0, by decide +kernel⟩,
    ⟨State.reset.upPower fun p => { p with mode := 0 }, by decide +kernel⟩⟩
/-- Hypotheses of `Obligations.PanelTemperatureSetsFreezeAndBand` that hold together. -/
theorem witness_PanelTemperatureSetsFreezeAndBand :
    (∃ (t : Nat) (s : State), (s.arrive t).awake = true) ∧
    (∃ (n : Nat) (lo : Int) (hi : Int) (full : Nat) (part : Nat) (x : Int), (n, lo, hi, full, part) ∈ [(0, 0, 50, 3000, 960), (1, 50, 100, 2400, 780), (2, 100, 150, 1920, 620), (3, 150, 200, 1560, 500), (4, 200, 250, 1260, 420), (5, 250, 300, 1080, 360), (6, 300, 400, 960, 320), (7, 400, 501, 840, 280)] ∧
    lo ≤ x ∧
    x < hi) :=
  ⟨⟨0, State.reset, by decide +kernel⟩,
    ⟨7, 400, 501, 840, 280, 500, by decide +kernel⟩⟩
/-- Hypotheses of `Obligations.ParametersAreReadAndWritten` that hold together. -/
theorem witness_ParametersAreReadAndWritten :
    (∃ (t : Nat) (r : Req) (s : State), State.accepts paramReadCmd r (s.arrive t) ∧
    rangeOk (field r.payload 0 2) (field r.payload 2 2) (field r.payload 4 4) = false) ∧
    (∃ (t : Nat) (r : Req) (s : State), State.accepts paramReadCmd r (s.arrive t) ∧
    rangeOk (field r.payload 0 2) (field r.payload 2 2) (field r.payload 4 4) = true) ∧
    (∃ (t : Nat) (r : Req) (s : State), State.accepts paramWriteCmd r (s.arrive t) ∧
    rangeOk (field r.payload 0 2) (field r.payload 2 2) (field r.payload 4 4) = false) ∧
    (∃ (t : Nat) (r : Req) (s : State) (ws : List (Nat × Nat)) (st' : Nat), State.accepts paramWriteCmd r (s.arrive t) ∧
    rangeOk (field r.payload 0 2) (field r.payload 2 2) (field r.payload 4 4) = true ∧
    ws = List.map (fun i => (field r.payload 4 4 + i, field r.payload (8 + 4 * i) 4)) (List.range (field r.payload 2 2)) ∧
    (State.take r (s.arrive t)).writeCheck r.mb (field r.payload 0 2) ws = some st') ∧
    (∃ (t : Nat) (r : Req) (s : State) (ws : List (Nat × Nat)), State.accepts paramWriteCmd r (s.arrive t) ∧
    rangeOk (field r.payload 0 2) (field r.payload 2 2) (field r.payload 4 4) = true ∧
    ws = List.map (fun i => (field r.payload 4 4 + i, field r.payload (8 + 4 * i) 4)) (List.range (field r.payload 2 2)) ∧
    (State.take r (s.arrive t)).writeCheck r.mb (field r.payload 0 2) ws = none) ∧
    (∃ (b : Nat) (first : Nat) (w : Nat), (first < w ∨ twoWord.contains (b, w - 1) = false)) ∧
    (∃ (b : Nat) (w : Nat), (b, w) ∈ clrWords) ∧
    (∃ (b : Nat) (w : Nat), (b, w) ∉ clrWords ∧
    b ∉ [1, 7, 8, 9, 10, 13, 15]) ∧
    (∃ (w : Nat), (w < 32 ∨ 48 ≤ w)) ∧
    (∃ (w : Nat), 32 ≤ w ∧
    w < 48) ∧
    (∃ (t : Nat) (r : Req) (s : State), State.accepts { plainCmd 258 1 0 with runtime := true, twin := true } r (s.arrive t)) ∧
    (∃ (t : Nat) (ch : Nat) (h : Hdr) (s : State), ch < 2 ∧
    2 ≤ (s.arrive t).rights h.mb ∧
    State.accepts paramWriteCmd (writeReq h 13 144 [BitVec.ofNat 32 (if ch = 0 then 4 else 8)]) (s.arrive t)) ∧
    (∃ (t : Nat) (mask : Nat) (h : Hdr) (s : State), 0 < mask ∧
    mask < 256 ∧
    State.accepts paramWriteCmd (writeReq h 7 48 [BitVec.ofNat 32 (256 * (mask % 256))]) (s.arrive t) ∧
    4 ≤ (s.arrive t).rights h.mb ∧
    (s.arrive t).power.mode = 2) ∧
    (∃ (t : Nat) (mask : Nat) (h : Hdr) (s : State), 0 < mask ∧
    mask < 256 ∧
    State.accepts paramWriteCmd (writeReq h 7 48 [BitVec.ofNat 32 (256 * (mask % 256))]) (s.arrive t) ∧
    4 ≤ (s.arrive t).rights h.mb ∧
    (s.arrive t).power.mode ≠ 2) ∧
    (∃ (t : Nat) (h : Hdr) (s : State), 4 ≤ (s.arrive t).rights h.mb ∧
    (s.arrive t).power.mode = 2 ∧
    ((s.arrive t).sec.lifecycle = 1 ∨ (s.arrive t).sec.lifecycle = 2) ∧
    State.accepts paramWriteCmd (writeReq h 9 64 [2#32]) (s.arrive t) ∧
    (s.arrive t).gate.debugOpen = false) ∧
    (∃ (t : Nat) (h : Hdr) (s : State), 4 ≤ (s.arrive t).rights h.mb ∧
    (s.arrive t).power.mode = 2 ∧
    ((s.arrive t).sec.lifecycle = 1 ∨ (s.arrive t).sec.lifecycle = 2) ∧
    State.accepts paramWriteCmd (writeReq h 9 64 [4#32]) (s.arrive t) ∧
    (s.arrive t).gate.debugOpen = true) :=
  ⟨⟨0, wCmd 0x200 (zeroBytes 8), wUser, by unfold State.accepts; decide +kernel⟩,
    ⟨0, wCmd 0x200 [1#8, 0#8, 1#8, 0#8, 0#8, 0#8, 0#8, 0#8], wUser, by unfold State.accepts; decide +kernel⟩,
    ⟨0, wCmd 0x201 (zeroBytes 8), wUser, by unfold State.accepts; decide +kernel⟩,
    ⟨0, wCmd 0x201 ([1#8, 0#8, 1#8, 0#8] ++ zeroBytes 8), wUser, [(0, 0)], stDenied, by unfold State.accepts; decide +kernel⟩,
    ⟨0, wCmd 0x201 ([2#8, 0#8, 1#8, 0#8, 64#8, 0#8, 0#8, 0#8] ++ leBytes 4 1), wUser, [(64, 1)], by unfold State.accepts; decide +kernel⟩,
    ⟨0, 0, 0, by decide +kernel⟩,
    ⟨2, 64, by decide +kernel⟩,
    ⟨0, 0, by decide +kernel⟩,
    ⟨0, by decide +kernel⟩,
    ⟨32, by decide +kernel⟩,
    ⟨0, wCmd 258 [], wUser, by unfold State.accepts; decide +kernel⟩,
    ⟨0, 0, wH, wUser, by unfold State.accepts; decide +kernel⟩,
    ⟨0, 1, wH, wUser, by unfold State.accepts; decide +kernel⟩,
    ⟨0, 1, wH, wUser.upPower fun p => { p with mode := 5 }, by unfold State.accepts; decide +kernel⟩,
    ⟨0, wH, (wUser.upSec fun p => { p with lifecycle := 1 }).upGate fun p => { p with debugOpen := false }, by unfold State.accepts; decide +kernel⟩,
    ⟨0, wH, (wUser.upSec fun p => { p with lifecycle := 1 }).upGate fun p => { p with debugOpen := true }, by unfold State.accepts; decide +kernel⟩⟩
/-- Hypotheses of `Obligations.PointsAndTimeAreCommanded` that hold together. -/
theorem witness_PointsAndTimeAreCommanded :
    (∃ (t : Nat) (r : Req) (s : State), State.accepts pointReadCmd r (s.arrive t)) ∧
    (∃ (t : Nat) (r : Req) (s : State), State.accepts (plainCmd 771 1 8) r (s.arrive t)) ∧
    (∃ (t : Nat) (r : Req) (s : State) (c : Cmd), c = { plainCmd 769 3 12 with modes := [5, 6] } ∧
    State.accepts c r (s.arrive t)) ∧
    (∃ (t : Nat) (r : Req) (s : State) (c : Cmd), c = { plainCmd 770 3 4 with modes := [5, 6] } ∧
    State.accepts c r (s.arrive t)) ∧
    (∃ (h : Nat) (s : State), s.pts.force h = none) ∧
    (∃ (h : Nat) (s : State), s.pts.force h ≠ none ∧
    Memory.wf s.mem = true ∧
    h ≤ 6291455 ∧
    ruleKind (s.ruleOf h) ≠ 0) ∧
    (∃ (t : Nat) (r : Req) (s : State), State.accepts (plainCmd 1536 1 0) r (s.arrive t)) ∧
    (∃ (t : Nat) (r : Req) (s : State) (c : Cmd), c = { plainCmd 1537 3 20 with modes := [2] } ∧
    State.accepts c r (s.arrive t)) :=
  ⟨⟨0, wCmd 0x300 (zeroBytes 4), wUser, by unfold State.accepts; decide +kernel⟩,
    ⟨0, (hdrReq wH 771 (zeroBytes 8)), wUser, by unfold State.accepts; decide +kernel⟩,
    ⟨0, wCmd 769 (zeroBytes 12), wUser.upPower fun p => { p with mode := 5 }, { plainCmd 769 3 12 with modes := [5, 6] }, rfl,
      by unfold State.accepts; decide +kernel⟩,
    ⟨0, wCmd 770 (zeroBytes 4), wUser.upPower fun p => { p with mode := 5 }, { plainCmd 770 3 4 with modes := [5, 6] }, rfl,
      by unfold State.accepts; decide +kernel⟩,
    ⟨0, State.reset, by decide +kernel⟩,
    ⟨1, (wPt 1 0x1000000000000000#64).upPts fun p => { p with forces := [{ handle := 1, mode := 0, value := 0#32, session := 9 }] },
      by decide +kernel⟩,
    ⟨0, (hdrReq wH 1536 (zeroBytes 0)), wUser, by unfold State.accepts; decide +kernel⟩,
    ⟨0, wCmd 1537 (zeroBytes 20), wUser.upPower fun p => { p with mode := 2 }, { plainCmd 1537 3 20 with modes := [2] }, rfl,
      by unfold State.accepts; decide +kernel⟩⟩
/-- Hypotheses of `Obligations.QualityFollowsTable210` that hold together. -/
theorem witness_QualityFollowsTable210 :
    (∃ (g : Img), g.forced = false ∧
    g.simulated = false) ∧
    (∃ (g : Img), (g.forced = true ∨ g.simulated = true)) ∧
    (∃ (g : Img), g.forced = true) ∧
    (∃ (g : Img), g.forced = false ∧
    g.simulated = true) ∧
    (∃ (h : Nat) (s : State), Memory.wf s.mem = true ∧
    h ≤ 6291455 ∧
    ruleKind (s.ruleOf h) ≠ 0) ∧
    (∃ (h : Nat) (v : Word) (s : State), Memory.wf s.mem = true ∧
    h ≤ 6291455 ∧
    ruleKind (s.ruleOf h) ≠ 0 ∧
    v ≠ s.carriedValue h) :=
  ⟨⟨{ wImg with forced := false, simulated := false }, by decide +kernel⟩,
    ⟨{ wImg with forced := true }, by decide +kernel⟩,
    ⟨{ wImg with forced := true }, by decide +kernel⟩,
    ⟨{ wImg with forced := false, simulated := true }, by decide +kernel⟩,
    ⟨1, wPt 1 0x1000000000000000#64, by decide +kernel⟩,
    ⟨1, 1#32, wPt 1 0x1000000000000000#64, by decide +kernel⟩⟩
/-- Hypotheses of `Obligations.ReceivedFramesAreCheckedInOrder` that hold together. -/
theorem witness_ReceivedFramesAreCheckedInOrder :
    (∃ (x : RxFrame) (s : State) (b : List Byte), b = x.bytes ∧
    (frameTagged b = false ∨ bits (beNat (slice b 14 2)) 0 12 ≠ s.conf.map.vid)) ∧
    (∃ (x : RxFrame) (s : State) (b : List Byte) (n : Nat), b = x.bytes ∧
    n = field (slice b 18 24) 16 2 ∧
    frameTagged b = true ∧
    bits (beNat (slice b 14 2)) 0 12 = s.conf.map.vid ∧
    (b.length < n + 50 ∨ 1472 < n ∨ b.length ≠ n + 50 ∧ b.length ≠ 64)) ∧
    (∃ (x : RxFrame) (s : State) (b : List Byte) (n : Nat), b = x.bytes ∧
    n = field (slice b 18 24) 16 2 ∧
    frameTagged b = true ∧
    bits (beNat (slice b 14 2)) 0 12 = s.conf.map.vid ∧
    n ≤ 1472 ∧
    (b.length = n + 50 ∨ n + 50 ≤ 64 ∧ b.length = 64) ∧
    BitVec.toNat (crc32c (slice b 18 (24 + n))) ≠ field b (42 + n) 4) ∧
    (∃ (x : RxFrame) (s : State) (b : List Byte) (n : Nat) (f : Fsp), b = x.bytes ∧
    n = field (slice b 18 24) 16 2 ∧
    f = parseFsp x ∧
    frameTagged b = true ∧
    bits (beNat (slice b 14 2)) 0 12 = s.conf.map.vid ∧
    n ≤ 1472 ∧
    (b.length = n + 50 ∨ n + 50 ≤ 64 ∧ b.length = 64) ∧
    BitVec.toNat (crc32c (slice b 18 (24 + n))) = field b (42 + n) 4 ∧
    f.version ≠ 1) ∧
    (∃ (x : RxFrame) (s : State) (b : List Byte) (n : Nat) (f : Fsp), b = x.bytes ∧
    n = field (slice b 18 24) 16 2 ∧
    f = parseFsp x ∧
    frameTagged b = true ∧
    bits (beNat (slice b 14 2)) 0 12 = s.conf.map.vid ∧
    n ≤ 1472 ∧
    (b.length = n + 50 ∨ n + 50 ≤ 64 ∧ b.length = 64) ∧
    BitVec.toNat (crc32c (slice b 18 (24 + n))) = field b (42 + n) 4 ∧
    f.version = 1 ∧
    f.kind ∉ [2, 4, 6, 7, 8, 9, 10]) ∧
    (∃ (x : RxFrame) (s : State) (b : List Byte) (n : Nat) (f : Fsp), b = x.bytes ∧
    n = field (slice b 18 24) 16 2 ∧
    f = parseFsp x ∧
    frameTagged b = true ∧
    bits (beNat (slice b 14 2)) 0 12 = s.conf.map.vid ∧
    n ≤ 1472 ∧
    (b.length = n + 50 ∨ n + 50 ≤ 64 ∧ b.length = 64) ∧
    BitVec.toNat (crc32c (slice b 18 (24 + n))) = field b (42 + n) 4 ∧
    f.version = 1 ∧
    f.kind ∈ [2, 4, 6, 7, 8, 9, 10] ∧
    f.spare = false) ∧
    (∃ (x : RxFrame) (s : State) (b : List Byte) (n : Nat) (f : Fsp), b = x.bytes ∧
    n = field (slice b 18 24) 16 2 ∧
    f = parseFsp x ∧
    frameTagged b = true ∧
    bits (beNat (slice b 14 2)) 0 12 = s.conf.map.vid ∧
    n ≤ 1472 ∧
    (b.length = n + 50 ∨ n + 50 ≤ 64 ∧ b.length = 64) ∧
    BitVec.toNat (crc32c (slice b 18 (24 + n))) = field b (42 + n) 4 ∧
    f.version = 1 ∧
    f.kind ∈ [2, 4, 6, 7, 8, 9, 10] ∧
    f.spare = true ∧
    (State.eliminate f s).2 = false) ∧
    (∃ (x : RxFrame) (s : State) (b : List Byte) (n : Nat) (f : Fsp), b = x.bytes ∧
    n = field (slice b 18 24) 16 2 ∧
    f = parseFsp x ∧
    frameTagged b = true ∧
    bits (beNat (slice b 14 2)) 0 12 = s.conf.map.vid ∧
    n ≤ 1472 ∧
    (b.length = n + 50 ∨ n + 50 ≤ 64 ∧ b.length = 64) ∧
    BitVec.toNat (crc32c (slice b 18 (24 + n))) = field b (42 + n) 4 ∧
    f.version = 1 ∧
    f.kind ∈ [2, 4, 6, 7, 8, 9, 10] ∧
    f.spare = true ∧
    (State.eliminate f s).2 = true ∧
    (f.kind = 8 ∧ ((State.eliminate f s).1).peerOf (field f.payload 0 4) = none ∨ f.kind ≠ 8 ∧ ((State.eliminate f s).1).station f.station = none)) ∧
    (∃ (x : RxFrame) (s : State) (b : List Byte) (n : Nat) (f : Fsp), b = x.bytes ∧
    n = field (slice b 18 24) 16 2 ∧
    f = parseFsp x ∧
    frameTagged b = true ∧
    bits (beNat (slice b 14 2)) 0 12 = s.conf.map.vid ∧
    n ≤ 1472 ∧
    (b.length = n + 50 ∨ n + 50 ≤ 64 ∧ b.length = 64) ∧
    BitVec.toNat (crc32c (slice b 18 (24 + n))) = field b (42 + n) 4 ∧
    f.version = 1 ∧
    f.kind ∈ [2, 4, 6, 7, 8, 9, 10] ∧
    f.spare = true ∧
    (State.eliminate f s).2 = true ∧
    (f.kind = 8 → ((State.eliminate f s).1).peerOf (field f.payload 0 4) ≠ none) ∧
    (f.kind ≠ 8 → ((State.eliminate f s).1).station f.station ≠ none) ∧
    bit f.flags 1 = true) ∧
    (∃ (x : RxFrame) (s : State) (b : List Byte) (n : Nat) (f : Fsp), b = x.bytes ∧
    n = field (slice b 18 24) 16 2 ∧
    f = parseFsp x ∧
    frameTagged b = true ∧
    bits (beNat (slice b 14 2)) 0 12 = s.conf.map.vid ∧
    n ≤ 1472 ∧
    (b.length = n + 50 ∨ n + 50 ≤ 64 ∧ b.length = 64) ∧
    BitVec.toNat (crc32c (slice b 18 (24 + n))) = field b (42 + n) 4 ∧
    f.version = 1 ∧
    f.kind ∈ [2, 4, 6, 7, 8, 9, 10] ∧
    f.spare = true ∧
    (State.eliminate f s).2 = true ∧
    (f.kind = 8 → ((State.eliminate f s).1).peerOf (field f.payload 0 4) ≠ none) ∧
    (f.kind ≠ 8 → ((State.eliminate f s).1).station f.station ≠ none) ∧
    bit f.flags 1 = false) ∧
    (∃ (x : RxFrame) (s : State) (u : State), State.checkFrame x s = (u, none)) ∧
    (∃ (x : RxFrame) (s : State) (u : State) (f : Fsp), State.checkFrame x s = (u, some f)) ∧
    (∃ (f : Fsp), bit f.flags 2 = false) ∧
    (∃ (f : Fsp), bit f.flags 2 = true) ∧
    (∃ (seq : Nat) (x : StreamSt) (d : Nat), seq < 65536 ∧
    x.last < 65536 ∧
    1 ≤ d ∧
    d < 32 ∧
    seq = (x.last + d) % 65536) ∧
    (∃ (seq : Nat) (x : StreamSt), seq < 65536 ∧
    x.last < 65536 ∧
    seq = x.last) ∧
    (∃ (seq : Nat) (x : StreamSt) (d : Nat), seq < 65536 ∧
    x.last < 65536 ∧
    1 ≤ d ∧
    d < 32 ∧
    x.last = (seq + d) % 65536) ∧
    (∃ (seq : Nat) (x : StreamSt), seq < 65536 ∧
    x.last < 65536 ∧
    32 ≤ (seq + 65536 - x.last) % 65536 ∧
    32 ≤ (x.last + 65536 - seq) % 65536) ∧
    (∃ (f : Fsp) (s : State), s.pair.owner = true ∧
    serialAfter f.term s.pair.term = true) ∧
    (∃ (f : Fsp) (s : State), (s.pair.owner = false ∨ serialAfter f.term s.pair.term = false)) ∧
    (∃ (t : Nat) (f : RxFrame) (s : State), (s.arrive t).awake = true ∧
    (s.arrive t).boot.coresOff = false ∧
    (s.arrive t).linkUp f.port = true ∧
    frameType f.bytes ≠ (s.arrive t).conf.map.ethertype ∧
    frameType f.bytes ≠ 35063) ∧
    (∃ (t : Nat) (s : State), (s.arrive t).awake = true) :=
  ⟨⟨wFrame, State.reset, (wFrame.bytes), by decide +kernel⟩,
    ⟨{ port := 0, bytes := slice (wRx 0x12 0x1000 0 0 []).bytes 0 49 }, State.reset, slice (wRx 0x12 0x1000 0 0 []).bytes 0 49, 0, by decide +kernel⟩,
    ⟨{ port := 0, bytes := slice (wRx 0x12 0x1000 0 0 []).bytes 0 42 ++ zeroBytes 8 }, State.reset,
      slice (wRx 0x12 0x1000 0 0 []).bytes 0 42 ++ zeroBytes 8, 0, by decide +kernel⟩,
    ⟨wRx 0x22 0x1000 0 0 [], State.reset, (wRx 0x22 0x1000 0 0 []).bytes, 0, parseFsp (wRx 0x22 0x1000 0 0 []), by decide +kernel, by decide +kernel,
      rfl, by decide +kernel, by decide +kernel, by decide +kernel, by decide +kernel, by decide +kernel, by decide +kernel⟩,
    ⟨wRx 0x13 0x1000 0 0 [], State.reset, (wRx 0x13 0x1000 0 0 []).bytes, 0, parseFsp (wRx 0x13 0x1000 0 0 []), by decide +kernel, by decide +kernel,
      rfl, by decide +kernel, by decide +kernel, by decide +kernel, by decide +kernel, by decide +kernel, by decide +kernel, by decide +kernel⟩,
    ⟨wRx 0x12 0x1000 0 1 [], State.reset, (wRx 0x12 0x1000 0 1 []).bytes, 0, parseFsp (wRx 0x12 0x1000 0 1 []), by decide +kernel, by decide +kernel,
      rfl, by decide +kernel, by decide +kernel, by decide +kernel, by decide +kernel, by decide +kernel, by decide +kernel, by decide +kernel,
      by decide +kernel⟩,
    ⟨wRx 0x12 0x1000 4 0 [], State.reset.upFsp fun p => { p with streams := [{ wStream with source := 0, dest := 0 }] },
      (wRx 0x12 0x1000 4 0 []).bytes, 0, parseFsp (wRx 0x12 0x1000 4 0 []), by decide +kernel, by decide +kernel, rfl, by decide +kernel,
      by decide +kernel, by decide +kernel, by decide +kernel, by decide +kernel, by decide +kernel, by decide +kernel, by decide +kernel,
      by decide +kernel⟩,
    ⟨wRx 0x12 0x1000 0 0 [], State.reset, (wRx 0x12 0x1000 0 0 []).bytes, 0, parseFsp (wRx 0x12 0x1000 0 0 []), by decide +kernel, by decide +kernel,
      rfl, by decide +kernel, by decide +kernel, by decide +kernel, by decide +kernel, by decide +kernel, by decide +kernel, by decide +kernel,
      by decide +kernel, by decide +kernel, by decide +kernel⟩,
    ⟨wRx 0x12 0x1000 2 0 [],
      State.reset.upCfg fun p => { p with sown := { p.sown with present := true, cfg := { p.sown.cfg with map := { p.sown.cfg.map with stations := [wStation] } } } },
      (wRx 0x12 0x1000 2 0 []).bytes, 0, parseFsp (wRx 0x12 0x1000 2 0 []), by decide +kernel, by decide +kernel, rfl, by decide +kernel,
      by decide +kernel, by decide +kernel, by decide +kernel, by decide +kernel, by decide +kernel, by decide +kernel, by decide +kernel,
      by decide +kernel, by decide +kernel, by decide +kernel, by decide +kernel⟩,
    ⟨wRx 0x12 0x1000 0 0 [],
      State.reset.upCfg fun p => { p with sown := { p.sown with present := true, cfg := { p.sown.cfg with map := { p.sown.cfg.map with stations := [wStation] } } } },
      (wRx 0x12 0x1000 0 0 []).bytes, 0, parseFsp (wRx 0x12 0x1000 0 0 []), by decide +kernel, by decide +kernel, rfl, by decide +kernel,
      by decide +kernel, by decide +kernel, by decide +kernel, by decide +kernel, by decide +kernel, by decide +kernel, by decide +kernel,
      by decide +kernel, by decide +kernel, by decide +kernel, by decide +kernel⟩,
    ⟨wFrame, State.reset, (State.checkFrame wFrame State.reset).1, Prod.ext rfl (by decide +kernel)⟩,
    ⟨wRx 0x12 0x1000 0 0 [],
      State.reset.upCfg fun p => { p with sown := { p.sown with present := true, cfg := { p.sown.cfg with map := { p.sown.cfg.map with stations := [wStation] } } } },
      (State.checkFrame (wRx 0x12 0x1000 0 0 []) (State.reset.upCfg fun p => { p with sown := { p.sown with present := true, cfg := { p.sown.cfg with map := { p.sown.cfg.map with stations := [wStation] } } } })).1,
      ((State.checkFrame (wRx 0x12 0x1000 0 0 []) (State.reset.upCfg fun p => { p with sown := { p.sown with present := true, cfg := { p.sown.cfg with map := { p.sown.cfg.map with stations := [wStation] } } } })).2.getD wFsp),
      Prod.ext rfl (some_getD (by decide +kernel))⟩,
    ⟨wFsp, by decide +kernel⟩,
    ⟨{ wFsp with flags := 4 }, by decide +kernel⟩,
    ⟨((wStream.last + 1) % 65536), wStream, 1, by decide +kernel⟩,
    ⟨(wStream.last), wStream, by decide +kernel⟩,
    ⟨0, { wStream with last := (0 + 1) % 65536 }, 1, by decide +kernel⟩,
    ⟨32768, { wStream with last := 0 }, by decide +kernel⟩,
    ⟨{ wFsp with term := 1 }, State.reset.upPair fun p => { p with owner := true }, by decide +kernel⟩,
    ⟨wFsp, State.reset.upPair fun p => { p with owner := false }, by decide +kernel⟩,
    ⟨0, { port := 0, bytes := zeroBytes 12 ++ [8#8, 0#8] }, State.reset.upSfp fun p => (setAt p 0 fun e0 => { e0 with linkUp := true }),
      by decide +kernel⟩,
    ⟨0, State.reset, by decide +kernel⟩⟩
/-- Hypotheses of `Obligations.RecorderAcceptsAndFlushes` that hold together. -/
theorem witness_RecorderAcceptsAndFlushes :
    (∃ (t : Nat) (s : State), Memory.wf s.mem = true ∧
    (s.arrive t).log.exhausted = false ∧
    (s.arrive t).recRoom = true ∧
    (s.arrive t).log.droppedUnreported = 0) ∧
    (∃ (t : Nat) (s : State), (s.arrive t).log.exhausted = false ∧
    (s.arrive t).recRoom = false) ∧
    (∃ (t : Nat) (s : State), (s.arrive t).log.exhausted = true) ∧
    (∃ (t : Nat) (s : State), (512 ≤ (s.arrive t).log.unflushed ∨ 0 < (s.arrive t).log.unflushed ∧ (s.arrive t).log.oldestUnflushed + 250000000 ≤ (s.arrive t).time.now)) ∧
    (∃ (t : Nat) (s : State), (s.arrive t).log.unflushed < 512 ∧
    ((s.arrive t).log.unflushed = 0 ∨ (s.arrive t).time.now < (s.arrive t).log.oldestUnflushed + 250000000)) :=
  ⟨⟨0, State.reset.upLog fun p => { p with exhausted := false, droppedUnreported := 0 }, by decide +kernel⟩,
    ⟨0, State.reset.upLog fun p => { p with exhausted := false, unflushed := 32768 }, by decide +kernel⟩,
    ⟨0, State.reset.upLog fun p => { p with exhausted := true }, by decide +kernel⟩,
    ⟨0, State.reset.upLog fun p => { p with unflushed := 512 }, by decide +kernel⟩,
    ⟨0, State.reset.upLog fun p => { p with unflushed := 0 }, by decide +kernel⟩⟩
/-- Hypotheses of `Obligations.RecordsDisplayAndDiagnosticsAreCommanded` that hold together. -/
theorem witness_RecordsDisplayAndDiagnosticsAreCommanded :
    (∃ (t : Nat) (r : Req) (s : State), State.accepts (plainCmd 1792 1 8) r (s.arrive t) ∧
    r.mb < s.msg.boxes.length) ∧
    (∃ (t : Nat) (r : Req) (s : State), State.accepts (plainCmd 1793 1 4) r (s.arrive t) ∧
    r.mb < s.msg.boxes.length) ∧
    (∃ (t : Nat) (r : Req) (s : State), State.accepts (plainCmd 1794 1 0) r (s.arrive t) ∧
    r.mb < s.msg.boxes.length) ∧
    (∃ (t : Nat) (r : Req) (s : State), State.accepts recMarkCmd r (s.arrive t)) ∧
    (∃ (t : Nat) (r : Req) (s : State), State.accepts displayTextCmd r (s.arrive t)) ∧
    (∃ (t : Nat) (r : Req) (s : State), State.accepts (plainCmd 2305 2 0) r (s.arrive t)) ∧
    (∃ (t : Nat) (r : Req) (s : State) (c : Cmd), c = { plainCmd 259 3 0 with modes := [5] } ∧
    State.accepts c r (s.arrive t)) ∧
    (∃ (t : Nat) (r : Req) (s : State) (src : Nat) (a : Nat) (page : Nat), State.accepts diagReadCmd r (s.arrive t) ∧
    src = field r.payload 0 1 ∧
    a = field r.payload 2 2 ∧
    page = field r.payload 4 2 ∧
    (¬(src < 3 ∧ zeros r.payload 1 1 = true ∧ zeros r.payload 6 2 = true ∧ (src = 1 → 1 ≤ a ∧ a ≤ 4094 ∧ page < 256)))) ∧
    (∃ (t : Nat) (r : Req) (s : State) (src : Nat), State.accepts diagReadCmd r (s.arrive t) ∧
    src = field r.payload 0 1 ∧
    zeros r.payload 1 1 = true ∧
    zeros r.payload 6 2 = true ∧
    src = 0) ∧
    (∃ (t : Nat) (r : Req) (s : State) (src : Nat), State.accepts diagReadCmd r (s.arrive t) ∧
    src = field r.payload 0 1 ∧
    zeros r.payload 1 1 = true ∧
    zeros r.payload 6 2 = true ∧
    src = 2) ∧
    (∃ (t : Nat) (r : Req) (s : State) (src : Nat) (a : Nat) (page : Nat), State.accepts diagReadCmd r (s.arrive t) ∧
    src = field r.payload 0 1 ∧
    a = field r.payload 2 2 ∧
    page = field r.payload 4 2 ∧
    zeros r.payload 1 1 = true ∧
    zeros r.payload 6 2 = true ∧
    src = 1 ∧
    1 ≤ a ∧
    a ≤ 4094 ∧
    page < 256 ∧
    (s.arrive t).diagBusy a = true) ∧
    (∃ (t : Nat) (r : Req) (s : State) (src : Nat) (a : Nat) (page : Nat), State.accepts diagReadCmd r (s.arrive t) ∧
    src = field r.payload 0 1 ∧
    a = field r.payload 2 2 ∧
    page = field r.payload 4 2 ∧
    zeros r.payload 1 1 = true ∧
    zeros r.payload 6 2 = true ∧
    src = 1 ∧
    1 ≤ a ∧
    a ≤ 4094 ∧
    page < 256 ∧
    (s.arrive t).diagBusy a = false) ∧
    (∃ (f : Fsp) (s : State), List.find? (fun d => d.station == f.station && d.number == f.tag) s.fsp.diags = none) ∧
    (∃ (f : Fsp) (s : State) (d : DiagSt), List.find? (fun d => d.station == f.station && d.number == f.tag) s.fsp.diags = some d ∧
    4 ≤ f.payload.length ∧
    field f.payload 0 2 = d.page ∧
    zeros f.payload 2 2 = true) ∧
    (∃ (f : Fsp) (s : State) (d : DiagSt), List.find? (fun d => d.station == f.station && d.number == f.tag) s.fsp.diags = some d ∧
    (f.payload.length < 4 ∨ field f.payload 0 2 ≠ d.page ∨ zeros f.payload 2 2 = false)) ∧
    (∃ (t : Nat) (f : RxFrame) (s : State), State.hears f (s.arrive t) = true) ∧
    (∃ (t : Nat) (a : Nat) (s : State) (d : DiagSt), (s.arrive t).awake = true ∧
    List.find? (fun d => d.station == a) (s.arrive t).fsp.diags = some d) ∧
    (∃ (d : DiagSt) (s : State) (h : Hdr), s.cfg.job = none ∧
    d.forEntry = none ∧
    d.forReq = some h ∧
    (State.upFsp (fun q => { counters := q.counters, binds := q.binds, diags := List.filter (fun e => e.station != d.station) q.diags, diagNo := q.diagNo, txSeq := q.txSeq, streams := q.streams, unknownAt := q.unknownAt }) s).waitsFor h = true) ∧
    (∃ (d : DiagSt) (s : State) (h : Hdr), s.cfg.job = none ∧
    d.forEntry = none ∧
    d.forReq = some h ∧
    (State.upFsp (fun q => { counters := q.counters, binds := q.binds, diags := List.filter (fun e => e.station != d.station) q.diags, diagNo := q.diagNo, txSeq := q.txSeq, streams := q.streams, unknownAt := q.unknownAt }) s).waitsFor h = true ∧
    d.page ≠ 0) ∧
    (∃ (d : DiagSt) (s : State), s.cfg.job = none ∧
    d.forEntry = none ∧
    d.forReq = none) ∧
    (∃ (d : DiagSt) (s : State), s.cfg.job = none ∧
    d.forEntry = none ∧
    d.forReq = none ∧
    d.page = 0) :=
  ⟨⟨0, (hdrReq wH 1792 (zeroBytes 8)), wUser, by unfold State.accepts; decide +kernel⟩,
    ⟨0, (hdrReq wH 1793 (zeroBytes 4)), wUser, by unfold State.accepts; decide +kernel⟩,
    ⟨0, (hdrReq wH 1794 (zeroBytes 0)), wUser, by unfold State.accepts; decide +kernel⟩,
    ⟨0, wCmd 0x703 [65#8], wUser, by unfold State.accepts; decide +kernel⟩,
    ⟨0, wCmd 0x900 [0#8, 1#8, 0#8, 0#8, 65#8], wUser, by unfold State.accepts; decide +kernel⟩,
    ⟨0, (hdrReq wH 2305 (zeroBytes 0)), wUser, by unfold State.accepts; decide +kernel⟩,
    ⟨0, wCmd 259 [], wUser.upPower fun p => { p with mode := 5 }, { plainCmd 259 3 0 with modes := [5] }, rfl,
      by unfold State.accepts; decide +kernel⟩,
    ⟨0, wCmd 0xB00 [3#8, 0#8, 0#8, 0#8, 0#8, 0#8, 0#8, 0#8], wUser, 3, 0, 0, by unfold State.accepts; decide +kernel⟩,
    ⟨0, wCmd 0xB00 [0#8, 0#8, 0#8, 0#8, 0#8, 0#8, 0#8, 0#8], wUser, 0, by unfold State.accepts; decide +kernel⟩,
    ⟨0, wCmd 0xB00 [2#8, 0#8, 0#8, 0#8, 0#8, 0#8, 0#8, 0#8], wUser, 2, by unfold State.accepts; decide +kernel⟩,
    ⟨0, wCmd 0xB00 [1#8, 0#8, 1#8, 0#8, 0#8, 0#8, 0#8, 0#8], wUser.upFsp fun p => { p with diags := [wDiag] }, 1, 1, 0,
      by unfold State.accepts; decide +kernel⟩,
    ⟨0, wCmd 0xB00 [1#8, 0#8, 1#8, 0#8, 0#8, 0#8, 0#8, 0#8], wUser, 1, 1, 0, by unfold State.accepts; decide +kernel⟩,
    ⟨wFsp, State.reset, by decide +kernel⟩,
    ⟨{ wFsp with payload := zeroBytes 4 }, State.reset.upFsp fun p => { p with diags := [wDiag] }, wDiag, by decide +kernel⟩,
    ⟨wFsp, State.reset.upFsp fun p => { p with diags := [wDiag] }, wDiag, by decide +kernel⟩,
    ⟨0, wRx 0x12 0x1000 0 0 [], State.reset.upSfp fun p => (setAt p 0 fun e0 => { e0 with linkUp := true }), by decide +kernel⟩,
    ⟨0, 1, State.reset.upFsp fun p => { p with diags := [wDiag] }, wDiag, by decide +kernel⟩,
    ⟨{ wDiag with forReq := some wH, page := 0 },
      (State.reset.upCfg fun p => { p with job := none }).upMsg fun p => { p with boxes := (setAt p.boxes 0 fun e1 => { e1 with busy := true, sid := 9 }) },
      wH, by decide +kernel⟩,
    ⟨{ wDiag with forReq := some wH, page := 1 },
      (State.reset.upCfg fun p => { p with job := none }).upMsg fun p => { p with boxes := (setAt p.boxes 0 fun e1 => { e1 with busy := true, sid := 9 }) },
      wH, by decide +kernel⟩,
    ⟨{ wDiag with forEntry := none, forReq := none }, State.reset.upCfg fun p => { p with job := none }, by decide +kernel⟩,
    ⟨{ wDiag with forEntry := none, forReq := none, page := 0 }, State.reset.upCfg fun p => { p with job := none }, by decide +kernel⟩⟩
/-- Hypotheses of `Obligations.RequestsAreCheckedInOrder` that hold together. -/
theorem witness_RequestsAreCheckedInOrder :
    (∃ (r : Req) (s : State), s.reaches r = false) ∧
    (∃ (r : Req) (s : State), s.reaches r = true ∧
    s.postBusy r = true) ∧
    (∃ (r : Req) (s : State), s.reaches r = true ∧
    16 ≤ r.mb) ∧
    (∃ (r : Req) (s : State), s.reaches r = true ∧
    s.postBusy r = false ∧
    r.mb < 16 ∧
    s.power.mode = 1) ∧
    (∃ (r : Req) (s : State), s.reaches r = true ∧
    s.postBusy r = false ∧
    r.mb < 16 ∧
    s.power.mode ≠ 1 ∧
    s.postBad r = true) ∧
    (∃ (r : Req) (s : State), s.reaches r = true ∧
    s.postBusy r = false ∧
    r.mb < 16 ∧
    s.power.mode ≠ 1 ∧
    s.postBad r = false ∧
    r.version ≠ 1) ∧
    (∃ (r : Req) (s : State), s.reaches r = true ∧
    s.postBusy r = false ∧
    r.mb < 16 ∧
    s.power.mode ≠ 1 ∧
    s.postBad r = false ∧
    r.version = 1 ∧
    s.reqRoom r.mb < r.length) ∧
    (∃ (c : Cmd) (r : Req) (s : State), s.reaches r = true ∧
    s.postBusy r = false ∧
    r.mb < 16 ∧
    s.power.mode ≠ 1 ∧
    s.postBad r = false ∧
    r.version = 1 ∧
    r.length ≤ s.reqRoom r.mb ∧
    reqCrcOk c.code r = false) ∧
    (∃ (c : Cmd) (r : Req) (s : State), s.reaches r = true ∧
    s.postBusy r = false ∧
    r.mb < 16 ∧
    s.power.mode ≠ 1 ∧
    s.postBad r = false ∧
    r.version = 1 ∧
    r.length ≤ s.reqRoom r.mb ∧
    reqCrcOk c.code r = true ∧
    (bit r.flags 0 = true ∨ bits r.flags 2 6 ≠ 0 ∨ r.status ≠ 0)) ∧
    (∃ (c : Cmd) (r : Req) (s : State), s.reaches r = true ∧
    s.postBusy r = false ∧
    r.mb < 16 ∧
    s.power.mode ≠ 1 ∧
    s.postBad r = false ∧
    r.version = 1 ∧
    r.length ≤ s.reqRoom r.mb ∧
    reqCrcOk c.code r = true ∧
    bit r.flags 0 = false ∧
    bits r.flags 2 6 = 0 ∧
    r.status = 0 ∧
    r.mb < 8 ∧
    (s.box r.mb).busy = true) ∧
    (∃ (c : Cmd) (r : Req) (s : State), s.reaches r = true ∧
    s.postBusy r = false ∧
    r.mb < 16 ∧
    s.power.mode ≠ 1 ∧
    s.postBad r = false ∧
    r.version = 1 ∧
    r.length ≤ s.reqRoom r.mb ∧
    reqCrcOk c.code r = true ∧
    bit r.flags 0 = false ∧
    bits r.flags 2 6 = 0 ∧
    r.status = 0 ∧
    (8 ≤ r.mb ∨ (s.box r.mb).busy = false) ∧
    s.sessionOk c.code r = false) ∧
    (∃ (c : Cmd) (r : Req) (s : State), s.reaches r = true ∧
    s.postBusy r = false ∧
    r.mb < 16 ∧
    s.power.mode ≠ 1 ∧
    s.postBad r = false ∧
    r.version = 1 ∧
    r.length ≤ s.reqRoom r.mb ∧
    reqCrcOk c.code r = true ∧
    bit r.flags 0 = false ∧
    bits r.flags 2 6 = 0 ∧
    r.status = 0 ∧
    (8 ≤ r.mb ∨ (s.box r.mb).busy = false) ∧
    s.sessionOk c.code r = true ∧
    continues r = true ∧
    definedCodes.contains c.code = true) ∧
    (∃ (c : Cmd) (r : Req) (s : State), s.reaches r = true ∧
    s.postBusy r = false ∧
    r.mb < 16 ∧
    s.power.mode ≠ 1 ∧
    s.postBad r = false ∧
    r.version = 1 ∧
    r.length ≤ s.reqRoom r.mb ∧
    reqCrcOk c.code r = true ∧
    bit r.flags 0 = false ∧
    bits r.flags 2 6 = 0 ∧
    r.status = 0 ∧
    (8 ≤ r.mb ∨ (s.box r.mb).busy = false) ∧
    s.sessionOk c.code r = true ∧
    definedCodes.contains c.code = false) ∧
    (∃ (c : Cmd) (r : Req) (s : State), s.reaches r = true ∧
    s.postBusy r = false ∧
    r.mb < 16 ∧
    s.power.mode ≠ 1 ∧
    s.postBad r = false ∧
    r.version = 1 ∧
    r.length ≤ s.reqRoom r.mb ∧
    reqCrcOk c.code r = true ∧
    bit r.flags 0 = false ∧
    bits r.flags 2 6 = 0 ∧
    r.status = 0 ∧
    (8 ≤ r.mb ∨ (s.box r.mb).busy = false) ∧
    s.sessionOk c.code r = true ∧
    continues r = false ∧
    definedCodes.contains c.code = true ∧
    s.permitted c r.mb = false) ∧
    (∃ (c : Cmd) (r : Req) (s : State), s.reaches r = true ∧
    s.postBusy r = false ∧
    r.mb < 16 ∧
    s.power.mode ≠ 1 ∧
    s.postBad r = false ∧
    r.version = 1 ∧
    r.length ≤ s.reqRoom r.mb ∧
    reqCrcOk c.code r = true ∧
    bit r.flags 0 = false ∧
    bits r.flags 2 6 = 0 ∧
    r.status = 0 ∧
    (8 ≤ r.mb ∨ (s.box r.mb).busy = false) ∧
    s.sessionOk c.code r = true ∧
    continues r = false ∧
    definedCodes.contains c.code = true ∧
    s.permitted c r.mb = true ∧
    s.inModes c r.mb = false) ∧
    (∃ (c : Cmd) (r : Req) (s : State), s.reaches r = true ∧
    s.postBusy r = false ∧
    r.mb < 16 ∧
    s.power.mode ≠ 1 ∧
    s.postBad r = false ∧
    r.version = 1 ∧
    r.length ≤ s.reqRoom r.mb ∧
    reqCrcOk c.code r = true ∧
    bit r.flags 0 = false ∧
    bits r.flags 2 6 = 0 ∧
    r.status = 0 ∧
    (8 ≤ r.mb ∨ (s.box r.mb).busy = false) ∧
    s.sessionOk c.code r = true ∧
    continues r = false ∧
    definedCodes.contains c.code = true ∧
    s.permitted c r.mb = true ∧
    s.inModes c r.mb = true ∧
    c.size r.payload = false) ∧
    (∃ (c : Cmd) (r : Req) (body : State → State × Option (Nat × List Byte)) (s : State) (v : State) (st : Nat) (data : List Byte), s.reaches r = true ∧
    s.postBusy r = false ∧
    r.mb < 16 ∧
    s.power.mode ≠ 1 ∧
    s.postBad r = false ∧
    r.version = 1 ∧
    r.length ≤ s.reqRoom r.mb ∧
    reqCrcOk c.code r = true ∧
    bit r.flags 0 = false ∧
    bits r.flags 2 6 = 0 ∧
    r.status = 0 ∧
    (8 ≤ r.mb ∨ (s.box r.mb).busy = false) ∧
    s.sessionOk c.code r = true ∧
    continues r = false ∧
    definedCodes.contains c.code = true ∧
    s.permitted c r.mb = true ∧
    s.inModes c r.mb = true ∧
    c.size r.payload = true ∧
    body (State.take r s) = (v, some (st, data))) :=
  ⟨⟨wReq, State.reset.upPower fun p => { p with mode := 2 }, by decide +kernel⟩,
    ⟨{ wReq with mb := 8 }, wUser.setBox 8 fun b => { b with busy := true }, by decide +kernel⟩,
    ⟨{ wReq with mb := 16 }, wUser.upMsg fun m => { m with extra := 1 }, by decide +kernel⟩,
    ⟨wCmd 0 [], wUser.upPower fun p => { p with mode := 1 }, by decide +kernel⟩,
    ⟨{ wReq with mb := 8, length := 1 }, wUser, by decide +kernel⟩,
    ⟨{ wCmd 0 [] with version := 2 }, wUser, by decide +kernel⟩,
    ⟨{ wReq with length := 65517 }, wUser, by decide +kernel⟩,
    ⟨(plainCmd 0 1 0), { wCmd 0 [] with crc := 0#32 }, wUser, by decide +kernel⟩,
    ⟨(plainCmd 0 1 0), { wReq with flags := 1, crc := crc32c (reqHeader 0 { wReq with flags := 1 }) }, wUser, by decide +kernel⟩,
    ⟨(plainCmd 0 1 0), wCmd 0 [], wUser.setBox 0 fun b => { b with busy := true }, by decide +kernel⟩,
    ⟨(plainCmd 2 1 0), hdrReq { wH with session := 8 } 2 [], wUser, by decide +kernel⟩,
    ⟨(plainCmd 0 1 0), { wReq with flags := 2, session := 9, crc := crc32c (reqHeader 0 { wReq with flags := 2, session := 9 }) }, wUser,
      by decide +kernel⟩,
    ⟨(plainCmd 0x999 1 0), wCmd 0x999 [], wUser, by decide +kernel⟩,
    ⟨(plainCmd 0x402 3 4), wCmd 0x402 (zeroBytes 4), wUser.setBox 0 fun b => { b with role := 1 }, by decide +kernel⟩,
    ⟨{ plainCmd 0x402 3 4 with modes := [5] }, wCmd 0x402 (zeroBytes 4), wUser, by decide +kernel⟩,
    ⟨(plainCmd 0x402 3 5), wCmd 0x402 (zeroBytes 4), wUser, by decide +kernel⟩,
    ⟨(plainCmd 0 1 0), wCmd 0 [], fun s => (s, some (0, [])), wUser, (State.take (wCmd 0 []) wUser), 0, [], by decide +kernel, by decide +kernel,
      by decide +kernel, by decide +kernel, by decide +kernel, by decide +kernel, by decide +kernel, by decide +kernel, by decide +kernel,
      by decide +kernel, by decide +kernel, by decide +kernel, by decide +kernel, by decide +kernel, by decide +kernel, by decide +kernel,
      by decide +kernel, by decide +kernel, rfl⟩⟩
/-- Hypotheses of `Obligations.ResponsesFillTheirBuffers` that hold together. -/
theorem witness_ResponsesFillTheirBuffers :
    (∃ (h : Hdr) (data : List Byte) (s : State), data.length ≤ s.rspRoom h.mb ∧
    h.mb < s.msg.boxes.length ∧
    8 ≤ h.mb ∧
    h.mb < 16) ∧
    (∃ (h : Hdr) (data : List Byte) (s : State), s.rspRoom h.mb < data.length ∧
    h.mb < s.msg.boxes.length) ∧
    (∃ (code : Nat) (r : Req) (x : HeldRsp) (s : State), r.payload.length = 8 ∧
    (s.box r.mb).held = some x ∧
    r.mb < s.msg.boxes.length ∧
    (x.code ≠ code ∨ field r.payload 4 4 ≠ x.number ∨ field r.payload 0 4 ≠ x.off)) ∧
    (∃ (code : Nat) (r : Req) (x : HeldRsp) (s : State), r.payload.length = 8 ∧
    (s.box r.mb).held = some x ∧
    r.mb < s.msg.boxes.length ∧
    x.code = code ∧
    field r.payload 4 4 = x.number ∧
    field r.payload 0 4 = x.off ∧
    (List.drop x.off x.data).length ≤ s.rspRoom r.mb) ∧
    (∃ (code : Nat) (r : Req) (x : HeldRsp) (s : State), r.payload.length = 8 ∧
    (s.box r.mb).held = some x ∧
    r.mb < s.msg.boxes.length ∧
    x.code = code ∧
    field r.payload 4 4 = x.number ∧
    field r.payload 0 4 = x.off ∧
    s.rspRoom r.mb < (List.drop x.off x.data).length) ∧
    (∃ (t : Nat) (code : Nat) (s : State), (s.arrive t).awake = true ∧
    definedCodes.contains code = false) :=
  ⟨⟨{ wH with mb := 15 }, [], State.reset, by decide +kernel⟩,
    ⟨wH, zeroBytes 65517, State.reset, by decide +kernel⟩,
    ⟨2, { wReq with payload := leBytes 4 0 ++ leBytes 4 1 }, wHeld,
      State.reset.upMsg fun p => { p with boxes := (setAt p.boxes 0 fun e1 => { e1 with held := some wHeld }) }, by decide +kernel⟩,
    ⟨1, { wReq with payload := leBytes 4 0 ++ leBytes 4 1 }, wHeld,
      State.reset.upMsg fun p => { p with boxes := (setAt p.boxes 0 fun e1 => { e1 with held := some wHeld }) }, by decide +kernel⟩,
    ⟨1, { wReq with payload := leBytes 4 0 ++ leBytes 4 1 }, { wHeld with data := zeroBytes 65517 },
      State.reset.upMsg fun p => { p with boxes := (setAt p.boxes 0 fun e1 => { e1 with held := some { wHeld with data := zeroBytes 65517 } }) },
      by decide +kernel⟩,
    ⟨0, 0x999, State.reset, by decide +kernel⟩⟩
/-- Hypotheses of `Obligations.RetiresRunTheirTimeline` that hold together. -/
theorem witness_RetiresRunTheirTimeline :
    (∃ (s : State), s.boot.retiring = false) ∧
    (∃ (s : State), s.boot.retiring = true) ∧
    (∃ (t : Nat) (s : State), (s.arrive t).awake = true ∧
    (s.arrive t).power.riding = true ∧
    (s.arrive t).boot.retirePending = none) ∧
    (∃ (t : Nat) (s : State) (r : Nat), (s.arrive t).awake = true ∧
    (s.arrive t).boot.retirePending = some r) ∧
    (∃ (t : Nat) (s : State), (s.arrive t).boot.retiring = true ∧
    (s.arrive t).boot.coresOff = false ∧
    (s.arrive t).boot.retireAt + 1250000 ≤ (s.arrive t).time.now) ∧
    (∃ (t : Nat) (s : State), (s.arrive t).boot.retiring = true ∧
    (s.arrive t).boot.coresOff = true ∧
    (s.arrive t).boot.committed = false) ∧
    (∃ (t : Nat) (mj : Nat) (s : State), (s.arrive t).boot.retiring = true ∧
    (s.arrive t).disp.retireImage = false ∧
    (s.arrive t).disp.retireSkipped = false ∧
    (s.arrive t).boot.retireAt + 125000000 ≤ (s.arrive t).time.now ∧
    8500 ≤ mj ∧
    (s.arrive t).disp.frozen = false ∧
    (s.arrive t).disp.panelOk = true) ∧
    (∃ (t : Nat) (mj : Nat) (s : State), (s.arrive t).boot.retiring = true ∧
    (s.arrive t).disp.retireImage = false ∧
    (s.arrive t).disp.retireSkipped = false ∧
    (s.arrive t).boot.retireAt + 125000000 ≤ (s.arrive t).time.now ∧
    (mj < 8500 ∨ (s.arrive t).disp.frozen = true ∨ (s.arrive t).disp.panelOk = false)) ∧
    (∃ (t : Nat) (s : State), (s.arrive t).boot.retiring = true ∧
    (s.arrive t).boot.coresOff = true ∧
    ((s.arrive t).power.mainGood = false ∨ (s.arrive t).power.retireReason ≠ 1 ∧ (s.arrive t).power.retireReason ≠ 2 ∧ (s.arrive t).power.retireReason ≠ 5)) ∧
    (∃ (t : Nat) (s : State), (s.arrive t).boot.retiring = true ∧
    (s.arrive t).boot.coresOff = true ∧
    (s.arrive t).power.mainGood = true ∧
    (s.arrive t).power.retireReason = 1) :=
  ⟨⟨State.reset.upBoot fun p => { p with retiring := false }, by decide +kernel⟩,
    ⟨State.reset.upBoot fun p => { p with retiring := true }, by decide +kernel⟩,
    ⟨0, (State.reset.upPower fun p => { p with riding := true }).upBoot fun p => { p with retirePending := none }, by decide +kernel⟩,
    ⟨0, State.reset.upBoot fun p => { p with retirePending := some 0 }, 0, by decide +kernel⟩,
    ⟨0, (State.reset.upBoot fun p => { p with retiring := true, coresOff := false }).upTime fun p => { p with now := 0 + 1250000 },
      by decide +kernel⟩,
    ⟨0, State.reset.upBoot fun p => { p with retiring := true, coresOff := true, committed := false }, by decide +kernel⟩,
    ⟨0, 8500,
      ((State.reset.upBoot fun p => { p with retiring := true }).upDisp fun p => { p with retireImage := false, retireSkipped := false, frozen := false, panelOk := true }).upTime fun p => { p with now := 0 + 125000000 },
      by decide +kernel⟩,
    ⟨0, 0,
      ((State.reset.upBoot fun p => { p with retiring := true }).upDisp fun p => { p with retireImage := false, retireSkipped := false }).upTime fun p => { p with now := 0 + 125000000 },
      by decide +kernel⟩,
    ⟨0, (State.reset.upBoot fun p => { p with retiring := true, coresOff := true }).upPower fun p => { p with mainGood := false }, by decide +kernel⟩,
    ⟨0, (State.reset.upBoot fun p => { p with retiring := true, coresOff := true }).upPower fun p => { p with mainGood := true, retireReason := 1 },
      by decide +kernel⟩⟩
/-- Hypotheses of `Obligations.RuntimeCallsAndStationFramesAct` that hold together. -/
theorem witness_RuntimeCallsAndStationFramesAct :
    (∃ (t : Nat) (f : RxFrame) (s : State), State.hears f (s.arrive t) = true) ∧
    (∃ (f : Fsp) (s : State), s.peerOf (field f.payload 0 4) = none) ∧
    (∃ (f : Fsp) (s : State) (p : PeerRec) (tm : Nat × Nat), s.peerOf (field f.payload 0 4) = some p ∧
    List.find? (fun t => t.1 == p.peer) s.pts.peerTerms = some tm ∧
    serialGe f.term tm.2 = false) ∧
    (∃ (f : Fsp) (s : State) (p : PeerRec), s.peerOf (field f.payload 0 4) = some p ∧
    (∀ (tm : ℕ × ℕ), List.find? (fun t => t.1 == p.peer) s.pts.peerTerms = some tm → serialGe f.term tm.2 = true) ∧
    parsePeerItems f.payload = none) ∧
    (∃ (f : Fsp) (s : State) (p : PeerRec) (first : Nat) (items : List (Nat × Nat)), s.peerOf (field f.payload 0 4) = some p ∧
    (∀ (tm : ℕ × ℕ), List.find? (fun t => t.1 == p.peer) s.pts.peerTerms = some tm → serialGe f.term tm.2 = true) ∧
    parsePeerItems f.payload = some (first, items) ∧
    (183 < items.length ∨ 65536 < first + items.length)) ∧
    (∃ (f : Fsp) (s : State) (p : PeerRec) (first : Nat) (items : List (Nat × Nat)) (i : Nat), s.peerOf (field f.payload 0 4) = some p ∧
    (∀ (tm : ℕ × ℕ), List.find? (fun t => t.1 == p.peer) s.pts.peerTerms = some tm → serialGe f.term tm.2 = true) ∧
    parsePeerItems f.payload = some (first, items) ∧
    items.length ≤ 183 ∧
    first + items.length ≤ 65536 ∧
    i < items.length) ∧
    (∃ (t : Nat) (a : Nat) (s : State), (s.arrive t).pair.owner = true ∧
    List.find? (fun b => b.station == a && b.st == 0) (s.arrive t).fsp.binds = none) ∧
    (∃ (t : Nat) (a : Nat) (s : State) (b : BindSt), (s.arrive t).pair.owner = true ∧
    List.find? (fun b => b.station == a && b.st == 0) (s.arrive t).fsp.binds = some b ∧
    4 ≤ b.attempts) ∧
    (∃ (t : Nat) (a : Nat) (s : State) (b : BindSt), (s.arrive t).pair.owner = true ∧
    List.find? (fun b => b.station == a && b.st == 0) (s.arrive t).fsp.binds = some b ∧
    b.attempts < 4) ∧
    (∃ (f : Fsp), field f.payload 0 1 ≠ 17) ∧
    (∃ (f : Fsp), field f.payload 0 1 = 17 ∧
    (f.payload.length ≠ 8 ∨ zeros f.payload 1 3 = false)) ∧
    (∃ (f : Fsp), field f.payload 0 1 = 17 ∧
    f.payload.length = 8 ∧
    zeros f.payload 1 3 = true) ∧
    (∃ (f : Fsp), f.isStart = false) ∧
    (∃ (f : Fsp), f.isStart = true ∧
    (f.payload.length ≠ 16 ∨ zeros f.payload 1 3 = false)) ∧
    (∃ (f : Fsp) (s : State), f.isStart = true ∧
    f.payload.length = 16 ∧
    zeros f.payload 1 3 = true ∧
    (State.hearTerm (field f.payload 8 4) (State.fspCount 12 s)).pair.owner = false) ∧
    (∃ (f : Fsp) (s : State), f.isStart = true ∧
    f.payload.length = 16 ∧
    zeros f.payload 1 3 = true ∧
    (State.hearTerm (field f.payload 8 4) (State.fspCount 12 s)).pair.owner = true) ∧
    (∃ (t : Nat) (s : State), (s.arrive t).pair.owner = true) ∧
    (∃ (t : Nat) (h : Nat) (s : State), (s.arrive t).pair.owner = true ∧
    h ≠ 0 ∧
    h < 6291456 ∧
    (ruleIsOut ((s.arrive t).ruleOf h) = false ∨ ruleTimed ((s.arrive t).ruleOf h) = true ∨ ruleKind ((s.arrive t).ruleOf h) = 0 ∨ ruleKind ((s.arrive t).ruleOf h) = 10)) ∧
    (∃ (t : Nat) (h : Nat) (s : State), (s.arrive t).pair.owner = true ∧
    h ≠ 0 ∧
    h < 6291456 ∧
    ruleIsOut ((s.arrive t).ruleOf h) = true ∧
    ruleTimed ((s.arrive t).ruleOf h) = false ∧
    ruleKind ((s.arrive t).ruleOf h) ≠ 0 ∧
    ruleKind ((s.arrive t).ruleOf h) ≠ 10) ∧
    (∃ (t : Nat) (h : Nat) (s : State), (s.arrive t).pair.owner = true ∧
    h ≠ 0 ∧
    h < 6291456 ∧
    ruleKind ((s.arrive t).ruleOf h) ≠ 8 ∧
    ruleKind ((s.arrive t).ruleOf h) ≠ 9) ∧
    (∃ (t : Nat) (h : Nat) (s : State), (s.arrive t).pair.owner = true ∧
    h ≠ 0 ∧
    h < 6291456 ∧
    (ruleKind ((s.arrive t).ruleOf h) = 8 ∨ ruleKind ((s.arrive t).ruleOf h) = 9)) ∧
    (∃ (t : Nat) (own : Nat) (x : Nat) (s : State), (s.arrive t).pair.owner = true ∧
    x < 4 ∧
    ((s.arrive t).cl x).pubWord % 2 = 0 ∧
    (¬(((s.arrive t).cl x).tasks = true ∧ ((s.arrive t).cl x).skipped = true ∧ own = x))) ∧
    (∃ (t : Nat) (own : Nat) (x : Nat) (s : State), (s.arrive t).pair.owner = true ∧
    x < 4 ∧
    ((s.arrive t).cl x).pubWord % 2 = 1 ∧
    own < x) ∧
    (∃ (t : Nat) (x : Nat) (s : State), (s.arrive t).pair.owner = true ∧
    x < 4 ∧
    ((s.arrive t).cl x).tasks = true ∧
    (((s.arrive t).cl x).pubWord % 2 = 1 ∨ ((s.arrive t).cl x).skipped = true)) ∧
    (∃ (t : Nat) (own : Nat) (x : Nat) (s : State), (s.arrive t).pair.owner = true ∧
    x < 4 ∧
    ((s.arrive t).cl x).pubWord % 2 = 1 ∧
    x < own) :=
  ⟨⟨0, wRx 0x12 0x1000 0 0 [], State.reset.upSfp fun p => (setAt p 0 fun e0 => { e0 with linkUp := true }), by decide +kernel⟩,
    ⟨wFsp, State.reset, by decide +kernel⟩,
    ⟨{ wFsp with kind := 8, payload := leBytes 4 1 ++ leBytes 2 0 ++ zeroBytes 2 },
      (State.reset.upCfg fun p => { p with sown := { p.sown with present := true, cfg := { p.sown.cfg with map := { p.sown.cfg.map with peers := [wPeer] } } } }).upPts fun p => { p with peerTerms := [(1, 1)] },
      wPeer, (1, 1), by decide +kernel⟩,
    ⟨{ wFsp with kind := 8, payload := leBytes 4 1 ++ leBytes 2 0 ++ zeroBytes 2 },
      State.reset.upCfg fun p => { p with sown := { p.sown with present := true, cfg := { p.sown.cfg with map := { p.sown.cfg.map with peers := [wPeer] } } } },
      wPeer, by decide +kernel, fun tm h => by simp [State.upCfg, State.reset, PointSt.reset, wPt] at h, by decide +kernel⟩,
    ⟨{ wFsp with kind := 8, payload := leBytes 4 1 ++ leBytes 2 65535 ++ zeroBytes 18 },
      State.reset.upCfg fun p => { p with sown := { p.sown with present := true, cfg := { p.sown.cfg with map := { p.sown.cfg.map with peers := [wPeer] } } } },
      wPeer, 65535, [(0, 0), (0, 0)], by decide +kernel, fun tm h => by simp [State.upCfg, State.reset, PointSt.reset, wPt] at h, by decide +kernel⟩,
    ⟨{ wFsp with kind := 8, payload := leBytes 4 1 ++ leBytes 2 65535 ++ zeroBytes 10 },
      State.reset.upCfg fun p => { p with sown := { p.sown with present := true, cfg := { p.sown.cfg with map := { p.sown.cfg.map with peers := [wPeer] } } } },
      wPeer, 65535, [(0, 0)], 0, by decide +kernel, fun tm h => by simp [State.upCfg, State.reset, PointSt.reset, wPt] at h, by decide +kernel⟩,
    ⟨0, 0, State.reset.upPair fun p => { p with owner := true }, by decide +kernel⟩,
    ⟨0, 1, (State.reset.upPair fun p => { p with owner := true }).upFsp fun p => { p with binds := [{ wBind with attempts := 4 }] },
      { wBind with attempts := 4 }, by decide +kernel⟩,
    ⟨0, 1, (State.reset.upPair fun p => { p with owner := true }).upFsp fun p => { p with binds := [{ wBind with attempts := 3 }] },
      { wBind with attempts := 3 }, by decide +kernel⟩,
    ⟨wFsp, by decide +kernel⟩,
    ⟨{ wFsp with payload := [17#8] }, by decide +kernel⟩,
    ⟨{ wFsp with payload := 17#8 :: zeroBytes 7 }, by decide +kernel⟩,
    ⟨wFsp, by decide +kernel⟩,
    ⟨{ wFsp with kind := 10, payload := [16#8] }, by decide +kernel⟩,
    ⟨{ wFsp with kind := 10, payload := (16#8 :: zeroBytes 15) }, State.reset, by decide +kernel⟩,
    ⟨{ wFsp with kind := 10, payload := (16#8 :: zeroBytes 15) }, State.reset.upPair fun p => { p with owner := true }, by decide +kernel⟩,
    ⟨0, State.reset.upPair fun p => { p with owner := true }, by decide +kernel⟩,
    ⟨0, 0x5FFFFF, State.reset.upPair fun p => { p with owner := true }, by decide +kernel⟩,
    ⟨0, 1, (wPt 1 0x1001000020000000#64).upPair fun p => { p with owner := true }, by decide +kernel⟩,
    ⟨0, 0x5FFFFF, State.reset.upPair fun p => { p with owner := true }, by decide +kernel⟩,
    ⟨0, 1, (wPt 1 0x8001000020000000#64).upPair fun p => { p with owner := true }, by decide +kernel⟩,
    ⟨0, 0, 0, State.reset.upPair fun p => { p with owner := true }, by decide +kernel⟩,
    ⟨0, 0, 3,
      (State.reset.upPair fun p => { p with owner := true }).upCyc fun p => { p with cls := (setAt p.cls 3 fun e1 => { e1 with pubWord := 1 }) },
      by decide +kernel⟩,
    ⟨0, 0,
      (State.reset.upPair fun p => { p with owner := true }).upCyc fun p => { p with cls := (setAt p.cls 0 fun e1 => { e1 with pubWord := 1, tasks := true }) },
      by decide +kernel⟩,
    ⟨0, 3, 0,
      (State.reset.upPair fun p => { p with owner := true }).upCyc fun p => { p with cls := (setAt p.cls 0 fun e1 => { e1 with pubWord := 1 }) },
      by decide +kernel⟩⟩
/-- Hypotheses of `Obligations.ScrubMowerAndMemoryTests` that hold together. -/
theorem witness_ScrubMowerAndMemoryTests :
    (∃ (t : Nat) (addr : Nat) (s : State) (w : Nat), (s.arrive t).awake = true ∧
    scrubbed addr = true ∧
    addr / 8 * 8 ≠ 201326584 ∧
    w = addr / 8 * 8 ∧
    w ∉ (s.arrive t).mem.bad) ∧
    (∃ (t : Nat) (addr : Nat) (s : State) (w : Nat), (s.arrive t).awake = true ∧
    scrubbed addr = true ∧
    addr / 8 * 8 ≠ 201326584 ∧
    w = addr / 8 * 8 ∧
    w ∉ (s.arrive t).mem.bad) ∧
    (∃ (t : Nat) (addr : Nat) (s : State), (s.arrive t).awake = true ∧
    scrubbed addr = true ∧
    addr / 8 * 8 ≠ 201326584) ∧
    (∃ (t : Nat) (s : State), (s.arrive t).awake = true ∧
    201326584 ∉ (s.arrive t).mem.bad) ∧
    (∃ (t : Nat) (bank : Nat) (window : Nat) (s : State), (s.arrive t).awake = true ∧
    (s.arrive t).power.mode ≠ 1 ∧
    (s.arrive t).bankFree bank = true ∧
    (bank ≠ 255 ∨ window ≠ 1535)) ∧
    (∃ (t : Nat) (s : State), (s.arrive t).awake = true ∧
    (s.arrive t).power.mode ≠ 1 ∧
    (s.arrive t).bankFree 255 = true) ∧
    (∃ (t : Nat) (bank : Nat) (window : Nat) (n : Nat) (s : State), (s.arrive t).awake = true ∧
    (s.arrive t).retryOf bank window = some n) ∧
    (∃ (t : Nat) (r : Req) (s : State), State.accepts (plainCmd 2048 3 8) r (s.arrive t)) ∧
    (∃ (t : Nat) (id : Nat) (bank : Option Nat) (s : State), (s.arrive t).awake = true ∧
    (s.arrive t).mower.test = some (id, true, bank)) ∧
    (∃ (t : Nat) (id : Nat) (bank : Option Nat) (s : State), (s.arrive t).awake = true ∧
    (s.arrive t).mower.test = some (id, false, bank)) ∧
    (∃ (t : Nat) (faults : Nat) (id : Nat) (bank : Option Nat) (s : State), (s.arrive t).awake = true ∧
    (s.arrive t).mower.test = some (id, false, bank) ∧
    0 < faults) :=
  ⟨⟨0, 0, State.reset, (0 / 8 * 8), by decide +kernel⟩,
    ⟨0, 0, State.reset, (0 / 8 * 8), by decide +kernel⟩,
    ⟨0, 0, State.reset, by decide +kernel⟩,
    ⟨0, State.reset, by decide +kernel⟩,
    ⟨0, 0, 0, State.reset.upPower fun p => { p with mode := 0 }, by decide +kernel⟩,
    ⟨0, State.reset.upPower fun p => { p with mode := 0 }, by decide +kernel⟩,
    ⟨0, 0, 0, 1, (State.reset.upMower fun p => { p with windows := [(0, 0, 1, 0)] }).upTime fun p => { p with now := 250000 }, by decide +kernel⟩,
    ⟨0, (hdrReq wH 2048 (zeroBytes 8)), wUser, by unfold State.accepts; decide +kernel⟩,
    ⟨0, 0, none, State.reset.upMower fun p => { p with test := some (0, true, none) }, by decide +kernel⟩,
    ⟨0, 0, none, State.reset.upMower fun p => { p with test := some (0, false, none) }, by decide +kernel⟩,
    ⟨0, 1, 0, none, State.reset.upMower fun p => { p with test := some (0, false, none) }, by decide +kernel⟩⟩
/-- Hypotheses of `Obligations.SessionsAndJobs` that hold together. -/
theorem witness_SessionsAndJobs :
    (∃ (t : Nat) (r : Req) (s : State), State.accepts identifyCmd r (s.arrive t)) ∧
    (∃ (t : Nat) (r : Req) (s : State), State.accepts modeGetCmd r (s.arrive t)) ∧
    (∃ (t : Nat) (r : Req) (s : State), State.accepts jobStatusCmd r (s.arrive t) ∧
    zeros r.payload 2 2 = true) ∧
    (∃ (t : Nat) (r : Req) (s : State), State.accepts (plainCmd 1 0 4) r (s.arrive t) ∧
    zeros r.payload 1 3 = true ∧
    1 ≤ field r.payload 0 1 ∧
    field r.payload 0 1 ≤ 4 ∧
    r.mb < (s.arrive t).msg.boxes.length ∧
    ((s.arrive t).box r.mb).granted < field r.payload 0 1) ∧
    (∃ (t : Nat) (r : Req) (s : State), State.accepts (plainCmd 1 0 4) r (s.arrive t) ∧
    zeros r.payload 1 3 = true ∧
    1 ≤ field r.payload 0 1 ∧
    field r.payload 0 1 ≤ 4 ∧
    r.mb < (s.arrive t).msg.boxes.length ∧
    field r.payload 0 1 ≤ ((s.arrive t).box r.mb).granted ∧
    ((s.arrive t).box r.mb).sid ≠ 0) ∧
    (∃ (t : Nat) (r : Req) (s : State), State.accepts (plainCmd 1 0 4) r (s.arrive t) ∧
    zeros r.payload 1 3 = true ∧
    1 ≤ field r.payload 0 1 ∧
    field r.payload 0 1 ≤ 4 ∧
    r.mb < (s.arrive t).msg.boxes.length ∧
    field r.payload 0 1 ≤ ((s.arrive t).box r.mb).granted ∧
    ((s.arrive t).box r.mb).sid = 0) ∧
    (∃ (t : Nat) (r : Req) (s : State), State.accepts (plainCmd 2 1 0) r (s.arrive t) ∧
    r.mb < 8) ∧
    (∃ (mb : Nat) (s : State), mb < 8 ∧
    mb < s.msg.boxes.length) ∧
    (∃ (t : Nat) (mb : Nat) (s : State), (s.arrive t).awake = true ∧
    8 ≤ mb ∧
    mb < 16 ∧
    (((s.arrive t).box mb).post ≠ 0 ∨ ((s.arrive t).box mb).doneLen ≠ 0)) ∧
    (∃ (t : Nat) (mb : Nat) (s : State), (s.arrive t).awake = true ∧
    8 ≤ mb ∧
    mb < 16 ∧
    ((s.arrive t).box mb).post = 0 ∧
    ((s.arrive t).box mb).doneLen = 0 ∧
    20 ≤ (20 + memReadN (s.arrive t).mem ((s.arrive t).bufAddr (2 * mb) + 8) 4) ∧
    (20 + memReadN (s.arrive t).mem ((s.arrive t).bufAddr (2 * mb) + 8) 4) ≤ 2 ^ ((s.arrive t).box mb).reqLog) ∧
    (∃ (t : Nat) (mb : Nat) (len : Nat) (s : State), (s.arrive t).awake = true ∧
    8 ≤ mb ∧
    mb < 16 ∧
    ((s.arrive t).box mb).post = 0 ∧
    ((s.arrive t).box mb).doneLen = 0 ∧
    len < 20) ∧
    (∃ (t : Nat) (mb : Nat) (s : State), (s.arrive t).awake = true ∧
    8 ≤ mb ∧
    mb < 16 ∧
    ((s.arrive t).box mb).doneLen ≠ 0) ∧
    (∃ (t : Nat) (s : State), (s.arrive t).e0Open = true) ∧
    (∃ (t : Nat) (fp : List Byte) (s : State) (role : Nat) (n : Nat), (s.arrive t).e0Open = true ∧
    (s.arrive t).grantedRole fp = some role ∧
    n < 8 ∧
    ((s.arrive t).box n).connected = false ∧
    (∀ k < n, ((s.arrive t).box k).connected = true)) ∧
    (∃ (t : Nat) (fp : List Byte) (s : State) (role : Nat), (s.arrive t).e0Open = true ∧
    (s.arrive t).grantedRole fp = some role ∧
    (∀ k < 8, ((s.arrive t).box k).connected = true)) ∧
    (∃ (t : Nat) (mb : Nat) (s : State), (s.arrive t).awake = true ∧
    mb < 8 ∧
    mb < (s.arrive t).msg.boxes.length ∧
    ((s.arrive t).box mb).connected = true) ∧
    (∃ (t : Nat) (mb : Nat) (s : State), (s.arrive t).awake = true ∧
    mb < 8 ∧
    mb < (s.arrive t).msg.boxes.length ∧
    ((s.arrive t).box mb).sid ≠ 0 ∧
    ((s.arrive t).box mb).lastAt + 600 * 250000000 ≤ (s.arrive t).time.now) ∧
    (∃ (t : Nat) (mb : Nat) (s : State) (x : HeldRsp), (s.arrive t).awake = true ∧
    mb < 8 ∧
    mb < (s.arrive t).msg.boxes.length ∧
    ((s.arrive t).box mb).held = some x ∧
    ((s.arrive t).box mb).lastAt + 60 * 250000000 ≤ (s.arrive t).time.now) ∧
    (∃ (held : List Nat), (∀ h ∈ held, h < 65536) ∧
    held.length < 64) :=
  ⟨⟨0, wCmd 0 [], wUser, by unfold State.accepts; decide +kernel⟩,
    ⟨0, wCmd 256 [], wUser, by unfold State.accepts; decide +kernel⟩,
    ⟨0, wCmd 3 (zeroBytes 4), wUser, by unfold State.accepts; decide +kernel⟩,
    ⟨0, hdrReq { wH with session := 0 } 1 [2#8, 0#8, 0#8, 0#8], wUser.setBox 0 fun b => { b with granted := 1 },
      by unfold State.accepts; decide +kernel⟩,
    ⟨0, hdrReq { wH with session := 0 } 1 [4#8, 0#8, 0#8, 0#8], wUser, by unfold State.accepts; decide +kernel⟩,
    ⟨0, hdrReq { wH with session := 0 } 1 [4#8, 0#8, 0#8, 0#8], wUser.setBox 0 fun b => { b with sid := 0 }, by unfold State.accepts; decide +kernel⟩,
    ⟨0, (hdrReq wH 2 (zeroBytes 0)), wUser, by unfold State.accepts; decide +kernel⟩,
    ⟨0, State.reset, by decide +kernel⟩,
    ⟨0, 8, State.reset.upMsg fun p => { p with boxes := (setAt p.boxes 8 fun e1 => { e1 with post := 1 }) }, by decide +kernel⟩,
    ⟨0, 15, State.reset.upMsg fun p => { p with boxes := (setAt p.boxes 15 fun e1 => { e1 with post := 0, doneLen := 0 }) }, by decide +kernel⟩,
    ⟨0, 8, 0, State.reset.upMsg fun p => { p with boxes := (setAt p.boxes 8 fun e1 => { e1 with post := 0, doneLen := 0 }) }, by decide +kernel⟩,
    ⟨0, 8, State.reset.upMsg fun p => { p with boxes := (setAt p.boxes 8 fun e1 => { e1 with doneLen := 1 }) }, by decide +kernel⟩,
    ⟨0, (State.reset.upBoot fun p => { p with step := 2 }).upSec fun p => { p with lifecycle := 2 }, by decide +kernel⟩,
    ⟨0, [1#8],
      ((State.reset.upMsg fun p => { p with boxes := (setAt p.boxes 0 fun e1 => { e1 with connected := false }) }).upBoot fun p => { p with step := 2 }).upSec fun p => { p with lifecycle := 2, roles := [(0, [1#8], 2)] },
      2, 0, by decide +kernel⟩,
    ⟨0, [1#8],
      ((State.reset.upBoot fun p => { p with step := 2 }).upSec fun p => { p with lifecycle := 2, roles := [(0, [1#8], 2)] }).upMsg fun p => { p with boxes := (List.range 16).map fun n => { Mailbox.reset n with connected := true } },
      2, by decide +kernel⟩,
    ⟨0, 0, State.reset.upMsg fun p => { p with boxes := (setAt p.boxes 0 fun e1 => { e1 with connected := true }) }, by decide +kernel⟩,
    ⟨0, 0,
      (State.reset.upMsg fun p => { p with boxes := (setAt p.boxes 0 fun e1 => { e1 with sid := 9 }) }).upTime fun p => { p with now := 150000000000 },
      by decide +kernel⟩,
    ⟨0, 0,
      (State.reset.upMsg fun p => { p with boxes := (setAt p.boxes 0 fun e1 => { e1 with held := some wHeld }) }).upTime fun p => { p with now := 15000000000 },
      wHeld, by decide +kernel⟩,
    ⟨[], by decide +kernel⟩⟩
/-- Hypotheses of `Obligations.SheavesAreLoadedAndVerified` that hold together. -/
theorem witness_SheavesAreLoadedAndVerified :
    (∃ (b : List Byte) (st : Nat), headerFault b = some st) ∧
    (∃ (t : Nat) (r : Req) (s : State), State.accepts (sheafCmd 1280 fun b => decide (9 ≤ b.length)) r (s.arrive t)) ∧
    (∃ (t : Nat) (r : Req) (s : State), State.accepts (sheafCmd 1281 (sizeIs 0)) r (s.arrive t)) ∧
    (∃ (t : Nat) (s : State) (check : Nat) (comp : Nat) (status : Nat), (s.arrive t).awake = true ∧
    (s.arrive t).sheaf.st = 3 ∧
    (s.arrive t).verifyFault = some (check, comp, status)) ∧
    (∃ (s : State), check1 (s.sheaf.loaded) ≠ none) ∧
    (∃ (s : State), check1 (s.sheaf.loaded) = none ∧
    s.check2 (s.sheaf.loaded) ≠ none) :=
  ⟨⟨[], stRange, by decide +kernel⟩,
    ⟨0, wCmd 1280 (zeroBytes 9), wUser, by unfold State.accepts; decide +kernel⟩,
    ⟨0, wCmd 1281 [], wUser, by unfold State.accepts; decide +kernel⟩,
    ⟨0, State.reset.upSheaf fun p => { p with st := 3 }, 1, 0, stRange, by decide +kernel⟩,
    ⟨State.reset, by decide +kernel⟩,
    ⟨State.reset.upSheaf fun h => { h with loaded := wMan }, by decide +kernel⟩⟩
/-- Hypotheses of `Obligations.SheavesAreLoadedAndVerified` that hold together, where the opaque functions of Config answer so. -/
theorem witness_SheavesAreLoadedAndVerified_given1 (hd : Config.sha384 (slice wMan 0 36 ++ zeroBytes 144 ++ slice wMan 180 940) = zeroBytes 48) (hs : Config.ecdsaOk (zeroBytes 48) (zeroBytes 96) [] = true) (h0 : Config.sha384 [] = zeroBytes 48) :
    (∃ (t : Nat) (s : State), (s.arrive t).awake = true ∧
    (s.arrive t).sheaf.st = 3 ∧
    (s.arrive t).verifyFault = none) ∧
    (∃ (s : State), check1 (s.sheaf.loaded) = none ∧
    s.check2 (s.sheaf.loaded) = none ∧
    check3 (s.sheaf.loaded) = none ∧
    s.check4 (s.sheaf.loaded) ≠ none) ∧
    (∃ (s : State), check1 (s.sheaf.loaded) = none ∧
    s.check2 (s.sheaf.loaded) = none ∧
    check3 (s.sheaf.loaded) = none ∧
    s.check4 (s.sheaf.loaded) = none ∧
    s.check5 (s.sheaf.loaded) ≠ none) ∧
    (∃ (s : State), check1 (s.sheaf.loaded) = none ∧
    s.check2 (s.sheaf.loaded) = none ∧
    check3 (s.sheaf.loaded) = none ∧
    s.check4 (s.sheaf.loaded) = none ∧
    s.check5 (s.sheaf.loaded) = none) :=
  ⟨⟨0, wSheaf, by decide +kernel, by decide +kernel, wMan_verifies hd hs h0⟩,
    ⟨wSheaf.upSheaf fun h => { h with active := 2 }, by decide +kernel, wMan_check2 hd hs, wMan_check3 h0, by decide +kernel⟩,
    ⟨wSheaf.upCfg fun c => { c with sown := { c.sown with present := true, cfg := { c.sown.cfg with pair := { c.sown.cfg.pair with minimums := [(1, 3)] } } } },
      by decide +kernel, wMan_check2 hd hs, wMan_check3 h0, by decide +kernel⟩,
    ⟨wSheaf, by decide +kernel, wMan_check2 hd hs, wMan_check3 h0, by decide +kernel⟩⟩
/-- Hypotheses of `Obligations.SheavesAreLoadedAndVerified` that hold together, where the opaque functions of Config answer so. -/
theorem witness_SheavesAreLoadedAndVerified_given2 (hd : Config.sha384 (slice wMan 0 36 ++ zeroBytes 144 ++ slice wMan 180 940) = zeroBytes 48) (hs : Config.ecdsaOk (zeroBytes 48) (zeroBytes 96) [] = true) (h0 : Config.sha384 [] ≠ zeroBytes 48) :
    ∃ (s : State), check1 (s.sheaf.loaded) = none ∧
    s.check2 (s.sheaf.loaded) = none ∧
    check3 (s.sheaf.loaded) ≠ none :=
  ⟨wSheaf, by decide +kernel, wMan_check2 hd hs, wMan_check3_bad h0⟩
/-- Hypotheses of `Obligations.SheavesAreTriedAndConfirmed` that hold together. -/
theorem witness_SheavesAreTriedAndConfirmed :
    (∃ (t : Nat) (r : Req) (s : State), State.accepts (sheafCmd 1282 (sizeIs 0)) r (s.arrive t)) ∧
    (∃ (t : Nat) (s : State) (a : Nat), (s.arrive t).awake = true ∧
    (s.arrive t).sheaf.st = 5 ∧
    (s.arrive t).sheaf.tokenWait = some a ∧
    a + 2500000 ≤ (s.arrive t).time.now) ∧
    (∃ (t : Nat) (s : State), (s.arrive t).awake = true ∧
    (s.arrive t).sheaf.st = 5 ∧
    (s.arrive t).sheaf.tokenWait = none ∧
    (s.arrive t).power.holdupMj < 32000) ∧
    (∃ (t : Nat) (s : State), (s.arrive t).awake = true ∧
    (s.arrive t).sheaf.st = 5 ∧
    (s.arrive t).sheaf.tokenWait = none ∧
    32000 ≤ (s.arrive t).power.holdupMj) ∧
    (∃ (s : State), s.sheaf.recTrial = true ∧
    s.sheaf.trialBoots = 3) ∧
    (∃ (s : State), s.sheaf.recTrial = true ∧
    s.sheaf.trialBoots ≠ 3 ∧
    s.sheaf.trialBoots ≠ 0 ∧
    s.sheaf.trialStart + s.sheaf.windowRec < s.tb3s) ∧
    (∃ (s : State), s.sheaf.recTrial = true ∧
    s.sheaf.trialBoots ≠ 3 ∧
    (s.sheaf.trialBoots = 0 ∨ s.tb3s ≤ s.sheaf.trialStart + s.sheaf.windowRec)) ∧
    (∃ (t : Nat) (s : State), (s.arrive t).dwellOver = true) ∧
    (∃ (t : Nat) (r : Req) (s : State), State.accepts (plainCmd 1283 3 0) r (s.arrive t)) ∧
    (∃ (t : Nat) (r : Req) (s : State), State.accepts { plainCmd 1284 1 0 with twin := true } r (s.arrive t)) ∧
    (∃ (t : Nat) (r : Req) (s : State), State.accepts (plainCmd 1285 3 0) r (s.arrive t) ∧
    (s.arrive t).sheaf.st ≠ 6) ∧
    (∃ (t : Nat) (r : Req) (s : State), State.accepts (plainCmd 1285 3 0) r (s.arrive t) ∧
    (s.arrive t).sheaf.st = 6 ∧
    (s.arrive t).inControl = true ∧
    (s.arrive t).twinSynced = false) ∧
    (∃ (t : Nat) (r : Req) (s : State), State.accepts (plainCmd 1285 3 0) r (s.arrive t) ∧
    (s.arrive t).sheaf.st = 6 ∧
    ((s.arrive t).inControl = false ∨ (s.arrive t).twinSynced = true)) ∧
    (∃ (t : Nat) (s : State), (s.arrive t).awake = true ∧
    (s.arrive t).power.mode ≠ 1 ∧
    (s.arrive t).sheaf.st = 6 ∧
    (s.arrive t).sheaf.recTrial = true ∧
    (s.arrive t).sheaf.trialStart + (s.arrive t).sheaf.windowRec < (s.arrive t).tb3s) ∧
    (∃ (s : State), s.inControl = false) ∧
    (∃ (s : State), s.inControl = true ∧
    s.twinSynced = false) ∧
    (∃ (s : State), s.inControl = true ∧
    s.twinSynced = true) ∧
    (∃ (t : Nat) (s : State), (s.arrive t).awake = true ∧
    (s.arrive t).power.mode ≠ 1 ∧
    (s.arrive t).swathSilent = false) :=
  ⟨⟨0, wCmd 1282 [], wUser.upSheaf fun h => { h with st := 4 }, by unfold State.accepts; decide +kernel⟩,
    ⟨0, (State.reset.upSheaf fun p => { p with st := 5, tokenWait := some 0 }).upTime fun p => { p with now := 0 + 2500000 }, 0, by decide +kernel⟩,
    ⟨0, State.reset.upSheaf fun p => { p with st := 5, tokenWait := none }, by decide +kernel⟩,
    ⟨0, (State.reset.upSheaf fun p => { p with st := 5, tokenWait := none }).upPower fun p => { p with holdupMj := 32000 }, by decide +kernel⟩,
    ⟨State.reset.upSheaf fun p => { p with recTrial := true, trialBoots := 3 }, by decide +kernel⟩,
    ⟨(State.reset.upSheaf fun p => { p with recTrial := true, trialBoots := 1 }).upTime fun p => { p with tb3 := 65536000000000 }, by decide +kernel⟩,
    ⟨State.reset.upSheaf fun p => { p with recTrial := true, trialBoots := 0 }, by decide +kernel⟩,
    ⟨0, ((State.reset.upSheaf fun p => { p with st := 6 }).upPower fun p => { p with mode := 6 }).upTime fun p => { p with now := 75000000000 },
      by decide +kernel⟩,
    ⟨0, (hdrReq wH 1283 (zeroBytes 0)), wUser, by unfold State.accepts; decide +kernel⟩,
    ⟨0, wCmd 1284 [], wUser, by unfold State.accepts; decide +kernel⟩,
    ⟨0, (hdrReq wH 1285 (zeroBytes 0)), wUser.upSheaf fun p => { p with st := 0 }, by unfold State.accepts; decide +kernel⟩,
    ⟨0, wCmd 1285 [], (wUser.upSheaf fun p => { p with st := 6 }).upPower fun p => { p with mode := 6 }, by unfold State.accepts; decide +kernel⟩,
    ⟨0, (hdrReq wH 1285 (zeroBytes 0)), wUser.upSheaf fun p => { p with st := 6 }, by unfold State.accepts; decide +kernel⟩,
    ⟨0,
      ((State.reset.upPower fun p => { p with mode := 6 }).upSheaf fun p => { p with st := 6, recTrial := true }).upTime fun p => { p with tb3 := 65536000000000 },
      by decide +kernel⟩,
    ⟨State.reset, by decide +kernel⟩,
    ⟨State.reset.upPower fun p => { p with mode := 6 }, by decide +kernel⟩,
    ⟨(State.reset.upPower fun p => { p with mode := 6 }).upPair fun p => { p with twinMode := 4, lane0 := true }, by decide +kernel⟩,
    ⟨0, (State.reset.upPower fun p => { p with mode := 0 }).upPair fun p => { p with lane0 := true }, by decide +kernel⟩⟩
/-- Hypotheses of `Obligations.StartDecisionsTakeTheFirstStep` that hold together. -/
theorem witness_StartDecisionsTakeTheFirstStep :
    (∃ (s : State), s.sec.lifecycle ≠ 2) ∧
    (∃ (s : State), s.sec.lifecycle = 2 ∧
    (s.cfg.sown.present = false ∨ s.boot.cfgOk = false)) ∧
    (∃ (s : State), s.sec.lifecycle = 2 ∧
    s.cfg.sown.present = true ∧
    s.boot.cfgOk = true ∧
    s.power.latch = true) ∧
    (∃ (s : State), s.sec.lifecycle = 2 ∧
    s.cfg.sown.present = true ∧
    s.boot.cfgOk = true ∧
    s.power.latch = false ∧
    (s.boot.mowerOk = false ∨ s.sheaf.bootFault ≠ 0)) ∧
    (∃ (s : State), s.sec.lifecycle = 2 ∧
    s.cfg.sown.present = true ∧
    s.boot.cfgOk = true ∧
    s.power.latch = false ∧
    s.boot.mowerOk = true ∧
    s.sheaf.bootFault = 0 ∧
    State.placementFor s.lock.disabled s = none) ∧
    (∃ (s : State), s.sec.lifecycle = 2 ∧
    s.cfg.sown.present = true ∧
    s.boot.cfgOk = true ∧
    s.power.latch = false ∧
    s.boot.mowerOk = true ∧
    s.sheaf.bootFault = 0 ∧
    State.placementFor s.lock.disabled s ≠ none) ∧
    (∃ (s : State), s.pair.twinClaim = true) ∧
    (∃ (s : State), s.pair.twinClaim = false ∧
    s.conf.pair.autoStart = false ∧
    s.power.released = false) ∧
    (∃ (s : State), s.pair.twinClaim = false ∧
    (s.conf.pair.autoStart = true ∨ s.power.released = true) ∧
    s.tb0Valid = false) ∧
    (∃ (s : State), s.pair.twinClaim = false ∧
    (s.conf.pair.autoStart = true ∨ s.power.released = true) ∧
    s.tb0Valid = true ∧
    s.mustWait = true) ∧
    (∃ (s : State), s.pair.twinClaim = false ∧
    (s.conf.pair.autoStart = true ∨ s.power.released = true) ∧
    s.tb0Valid = true ∧
    s.mustWait = false) ∧
    (∃ (t : Nat) (s : State), (s.arrive t).mayEndBoot = true ∧
    ((s.arrive t).power.bootKind ≠ 1 ∨ (s.arrive t).time.now ≤ (s.arrive t).boot.startAt + 412500000)) ∧
    (∃ (t : Nat) (s : State), (s.arrive t).waitOver = true) ∧
    (∃ (t : Nat) (s : State), (s.arrive t).windowEnds = true ∧
    (s.arrive t).pair.ownClaim = false ∧
    (s.arrive t).pair.twinClaim = false) ∧
    (∃ (t : Nat) (s : State), (s.arrive t).windowEnds = true ∧
    (s.arrive t).pair.ownClaim = false ∧
    (s.arrive t).pair.twinClaim = true ∧
    (s.arrive t).pair.twinClaimAt + 500 < (s.arrive t).time.now) :=
  ⟨⟨State.reset.upSec fun p => { p with lifecycle := 0 }, by decide +kernel⟩,
    ⟨(State.reset.upSec fun p => { p with lifecycle := 2 }).upCfg fun p => { p with sown := { p.sown with present := false } }, by decide +kernel⟩,
    ⟨(((State.reset.upSec fun p => { p with lifecycle := 2 }).upCfg fun p => { p with sown := { p.sown with present := true } }).upBoot fun p => { p with cfgOk := true }).upPower fun p => { p with latch := true },
      by decide +kernel⟩,
    ⟨(((State.reset.upSec fun p => { p with lifecycle := 2 }).upCfg fun p => { p with sown := { p.sown with present := true } }).upBoot fun p => { p with cfgOk := true, mowerOk := false }).upPower fun p => { p with latch := false },
      by decide +kernel⟩,
    ⟨(((((State.reset.upSec fun p => { p with lifecycle := 2 }).upCfg fun p => { p with sown := { p.sown with present := true } }).upBoot fun p => { p with cfgOk := true, mowerOk := true }).upPower fun p => { p with latch := false }).upSheaf fun p => { p with bootFault := 0 }).upLock fun p => { p with pairs := (setAt (setAt p.pairs 0 fun e1 => { e1 with disabled := true }) 1 fun e1 => { e1 with disabled := true }) },
      by decide +kernel⟩,
    ⟨((((State.reset.upSec fun p => { p with lifecycle := 2 }).upCfg fun p => { p with sown := { p.sown with present := true } }).upBoot fun p => { p with cfgOk := true, mowerOk := true }).upPower fun p => { p with latch := false }).upSheaf fun p => { p with bootFault := 0 },
      by decide +kernel⟩,
    ⟨State.reset.upPair fun p => { p with twinClaim := true }, by decide +kernel⟩,
    ⟨((State.reset.upPair fun p => { p with twinClaim := false }).upCfg fun p => { p with sown := { p.sown with present := true, cfg := { p.sown.cfg with pair := { p.sown.cfg.pair with autoStart := false } } } }).upPower fun p => { p with released := false },
      by decide +kernel⟩,
    ⟨(State.reset.upPair fun p => { p with twinClaim := false }).upCfg fun p => { p with sown := { p.sown with present := true, cfg := { p.sown.cfg with pair := { p.sown.cfg.pair with autoStart := true } } } },
      by decide +kernel⟩,
    ⟨((State.reset.upPair fun p => { p with twinClaim := false, peerPresent := true, slotId := 1 }).upCfg fun p => { p with sown := { p.sown with present := true, cfg := { p.sown.cfg with pair := { p.sown.cfg.pair with autoStart := true } } } }).upTime fun p => { p with tb0 := { p.tb0 with st := 2 } },
      by decide +kernel⟩,
    ⟨((State.reset.upPair fun p => { p with twinClaim := false }).upCfg fun p => { p with sown := { p.sown with present := true, cfg := { p.sown.cfg with pair := { p.sown.cfg.pair with autoStart := true } } } }).upTime fun p => { p with tb0 := { p.tb0 with st := 2 } },
      by decide +kernel⟩,
    ⟨0, (State.reset.upPower fun p => { p with bootKind := 0 }).upBoot fun p => { p with step := 8 }, by decide +kernel⟩,
    ⟨0, (State.reset.upBoot fun p => { p with waiting := true }).upTime fun p => { p with now := 500000000 }, by decide +kernel⟩,
    ⟨0, (State.reset.upPair fun p => { p with ownClaim := false, twinClaim := false, termOpen := true }).upTime fun p => { p with now := 25000000 },
      by decide +kernel⟩,
    ⟨0, (State.reset.upPair fun p => { p with ownClaim := false, twinClaim := true, termOpen := true }).upTime fun p => { p with now := 25000000 },
      by decide +kernel⟩⟩
/-- Hypotheses of `Obligations.StepsKeepTheForm` that hold together. -/
theorem witness_StepsKeepTheForm :
    ∃ (s : State) (s' : State), s.Wf ∧
    step s = Host.Outcome.next s' :=
  ⟨State.reset, (State.reset.arrive 1), (by
      constructor <;> decide +kernel), rfl⟩
/-- Hypotheses of `Obligations.SuppliesAndContacts` that hold together. -/
theorem witness_SuppliesAndContacts :
    (∃ (t : Nat) (s : State), (s.arrive t).power.mainGood = false ∧
    (s.arrive t).power.mode ≠ 8 ∧
    (s.arrive t).boot.stopped = false) ∧
    (∃ (t : Nat) (s : State), (s.arrive t).power.mainGood = false ∧
    (s.arrive t).power.mode = 8 ∧
    (s.arrive t).boot.lingKept = true) ∧
    (∃ (t : Nat) (s : State), (s.arrive t).power.mainGood = false ∧
    (s.arrive t).power.mode = 8 ∧
    (s.arrive t).boot.lingKept = false) ∧
    (∃ (t : Nat) (s : State), (s.arrive t).power.mainGood = true ∧
    (s.arrive t).power.mode ≠ 1 ∧
    (s.arrive t).power.mode ≠ 8 ∧
    (s.arrive t).boot.retiring = false) ∧
    (∃ (t : Nat) (s : State), (s.arrive t).power.mainGood = true ∧
    (s.arrive t).power.mode = 1) ∧
    (∃ (t : Nat) (s : State), (s.arrive t).power.riding = true ∧
    (s.arrive t).boot.retiring = false) ∧
    (∃ (t : Nat) (s : State), (s.arrive t).power.presentN = true ∧
    (s.arrive t).boot.retiring = false ∧
    (s.arrive t).power.mode ≠ 1 ∧
    (s.arrive t).power.mode ≠ 8) ∧
    (∃ (t : Nat) (s : State), (s.arrive t).power.presentN = true ∧
    (s.arrive t).boot.retiring = false ∧
    (s.arrive t).power.mode = 8) ∧
    (∃ (t : Nat) (s : State), (s.arrive t).power.presentN = true ∧
    (s.arrive t).boot.retiring = false ∧
    (s.arrive t).power.mode = 1) ∧
    (∃ (t : Nat) (s : State), (s.arrive t).power.ejectOpen = false ∧
    (s.arrive t).awake = true ∧
    (s.arrive t).boot.retiring = false ∧
    (s.arrive t).pair.owner = true ∧
    (s.arrive t).twinSynced = true) ∧
    (∃ (t : Nat) (s : State), (s.arrive t).power.ejectOpen = false ∧
    (s.arrive t).awake = true ∧
    (s.arrive t).boot.retiring = false ∧
    ((s.arrive t).pair.owner = false ∨ (s.arrive t).twinSynced = false)) ∧
    (∃ (t : Nat) (s : State), (s.arrive t).power.ejectOpen = true) ∧
    (∃ (t : Nat) (s : State), (s.arrive t).power.safeN = false) ∧
    (∃ (t : Nat) (s : State), (s.arrive t).power.safeN = true) ∧
    (∃ (t : Nat) (present : Bool) (s : State), (s.arrive t).pair.peerPresent ≠ present) ∧
    (∃ (t : Nat) (s : State), (s.arrive t).power.mode = 8 ∧
    (s.arrive t).power.mainGood = true ∧
    ((s.arrive t).boot.wakeDue = true ∨ (s.arrive t).power.retireReason = 3 ∧ (s.arrive t).power.wakeDelay ≠ 0 ∧ (s.arrive t).boot.sleepAt + (s.arrive t).power.wakeDelay ≤ (s.arrive t).tb3s)) ∧
    (∃ (t : Nat) (s : State), (s.arrive t).awake = true ∧
    (s.arrive t).power.mainGood = true ∧
    (s.arrive t).power.holdupTestS + 86400 ≤ (s.arrive t).tb3s) ∧
    (∃ (t : Nat) (s : State), (s.arrive t).power.lingLow = false) ∧
    (∃ (t : Nat) (s : State), (s.arrive t).unpowered = true ∧
    (s.arrive t).power.mainGood = false ∧
    (s.arrive t).power.auxGood = false) :=
  ⟨⟨0, (State.reset.upPower fun p => { p with mainGood := false, mode := 0 }).upBoot fun p => { p with stopped := false }, by decide +kernel⟩,
    ⟨0, (State.reset.upPower fun p => { p with mainGood := false, mode := 8 }).upBoot fun p => { p with lingKept := true }, by decide +kernel⟩,
    ⟨0, (State.reset.upPower fun p => { p with mainGood := false, mode := 8 }).upBoot fun p => { p with lingKept := false }, by decide +kernel⟩,
    ⟨0, (State.reset.upPower fun p => { p with mainGood := true, mode := 0 }).upBoot fun p => { p with retiring := false }, by decide +kernel⟩,
    ⟨0, State.reset.upPower fun p => { p with mainGood := true, mode := 1 }, by decide +kernel⟩,
    ⟨0, (State.reset.upPower fun p => { p with riding := true }).upBoot fun p => { p with retiring := false }, by decide +kernel⟩,
    ⟨0, (State.reset.upPower fun p => { p with presentN := true, mode := 0 }).upBoot fun p => { p with retiring := false }, by decide +kernel⟩,
    ⟨0, (State.reset.upPower fun p => { p with presentN := true, mode := 8 }).upBoot fun p => { p with retiring := false }, by decide +kernel⟩,
    ⟨0, (State.reset.upPower fun p => { p with presentN := true, mode := 1 }).upBoot fun p => { p with retiring := false }, by decide +kernel⟩,
    ⟨0,
      ((State.reset.upPower fun p => { p with ejectOpen := false }).upBoot fun p => { p with retiring := false }).upPair fun p => { p with owner := true, twinMode := 4, lane0 := true },
      by decide +kernel⟩,
    ⟨0,
      ((State.reset.upPower fun p => { p with ejectOpen := false }).upBoot fun p => { p with retiring := false }).upPair fun p => { p with owner := false },
      by decide +kernel⟩,
    ⟨0, State.reset.upPower fun p => { p with ejectOpen := true }, by decide +kernel⟩,
    ⟨0, State.reset.upPower fun p => { p with safeN := false }, by decide +kernel⟩,
    ⟨0, State.reset.upPower fun p => { p with safeN := true }, by decide +kernel⟩,
    ⟨0, true, State.reset.upPair fun p => { p with peerPresent := 0 }, by decide +kernel⟩,
    ⟨0, (State.reset.upPower fun p => { p with mode := 8, mainGood := true }).upBoot fun p => { p with wakeDue := true }, by decide +kernel⟩,
    ⟨0, (State.reset.upPower fun p => { p with mainGood := true }).upTime fun p => { p with tb3 := 86400 * 65536000000000 }, by decide +kernel⟩,
    ⟨0, State.reset.upPower fun p => { p with lingLow := false }, by decide +kernel⟩,
    ⟨0, (State.reset.upBoot fun p => { p with stopped := true }).upPower fun p => { p with mainGood := false, auxGood := false }, by decide +kernel⟩⟩
/-- Hypotheses of `Obligations.SwathLinkAndTwin` that hold together. -/
theorem witness_SwathLinkAndTwin :
    (∃ (t : Nat) (lane : Nat) (s : State), (s.arrive t).awake = true ∧
    lane < 2) ∧
    (∃ (t : Nat) (s : State), (s.arrive t).awake = true ∧
    (s.arrive t).pair.lane1 = true) ∧
    (∃ (t : Nat) (s : State), (s.arrive t).awake = true ∧
    (s.arrive t).pair.lane0 = true ∧
    (s.arrive t).pair.lane1 = false) ∧
    (∃ (t : Nat) (lane : Nat) (s : State), ((s.arrive t).power.mode = 3 ∨ (s.arrive t).power.mode = 4) ∧
    lane < 2) ∧
    (∃ (t : Nat) (s : State), (s.arrive t).awake = true ∧
    (s.arrive t).pair.twinReportAt + 25000000 ≤ (s.arrive t).time.now) :=
  ⟨⟨0, 0, State.reset, by decide +kernel⟩,
    ⟨0, State.reset.upPair fun p => { p with lane1 := true }, by decide +kernel⟩,
    ⟨0, State.reset.upPair fun p => { p with lane0 := true, lane1 := false }, by decide +kernel⟩,
    ⟨0, 0, State.reset.upPower fun p => { p with mode := 3 }, by decide +kernel⟩,
    ⟨0, State.reset.upTime fun p => { p with now := 0 + 25000000 }, by decide +kernel⟩⟩
/-- Hypotheses of `Obligations.SyncsDisciplineABase` that hold together. -/
theorem witness_SyncsDisciplineABase :
    (∃ (t : Nat) (s : State), (s.arrive t).timeRuns = true) ∧
    (∃ (off : Int), 65536000000 < off.natAbs) ∧
    (∃ (run : Nat) (off : Int), off.natAbs ≤ 65536000 ∧
    15 ≤ run) ∧
    (∃ (run : Nat) (off : Int), off.natAbs ≤ 65536000 ∧
    run < 15) ∧
    (∃ (run : Nat) (off : Int), 65536000 < off.natAbs ∧
    off.natAbs ≤ 65536000000 ∧
    3 ≤ run) ∧
    (∃ (run : Nat) (off : Int), 65536000 < off.natAbs ∧
    off.natAbs ≤ 65536000000 ∧
    run < 3) :=
  ⟨⟨0, State.reset.upPower fun p => { p with mode := 6 }, by decide +kernel⟩,
    ⟨-65536000001, by decide +kernel⟩,
    ⟨15, 0, by decide +kernel⟩,
    ⟨0, 0, by decide +kernel⟩,
    ⟨3, 65536001, by decide +kernel⟩,
    ⟨2, 65536001, by decide +kernel⟩⟩
/-- Hypotheses of `Obligations.TakeoverAndCheckpointsKeepThePair` that hold together. -/
theorem witness_TakeoverAndCheckpointsKeepThePair :
    (∃ (t : Nat) (s : State), (s.arrive t).mayConfirm = true) ∧
    (∃ (t : Nat) (s : State), (s.arrive t).mayConfirm = false) ∧
    (∃ (s : State), (s.pair.claimKind) = 1) ∧
    (∃ (s : State), s.pair.claimKind = 0 ∧
    (s.control).cyc.cls ≠ []) ∧
    (∃ (s : State), s.pair.claimKind ≠ 0) ∧
    (∃ (s : State) (f : ArmedFlip), s.cfg.armed = some f) ∧
    (∃ (x : Nat) (s : State), x < s.cyc.cls.length ∧
    s.cnt.applied.getD x none = none) ∧
    (∃ (x : Nat) (a : Nat) (s : State), x < s.cyc.cls.length ∧
    s.cnt.applied.getD x none = some a ∧
    ((s.tb0 / s.periodNs x) + 2 ^ 32 - a % 2 ^ 32) % 2 ^ 32 = 0) ∧
    (∃ (x : Nat) (a : Nat) (s : State), x < s.cyc.cls.length ∧
    s.cnt.applied.getD x none = some a ∧
    (((s.tb0 / s.periodNs x) + 2 ^ 32 - a % 2 ^ 32) % 2 ^ 32) ≠ 0 ∧
    (((s.tb0 / s.periodNs x) + 2 ^ 32 - a % 2 ^ 32) % 2 ^ 32) < 2 ^ 31) ∧
    (∃ (x : Nat) (s : State), x < s.cyc.cls.length) ∧
    (∃ (x : Nat) (s : State), x < s.cyc.cls.length ∧
    (s.cl x).rerunTo ≠ none) ∧
    (∃ (t : Nat) (c : Ckpt) (s : State), ((s.arrive t).power.mode = 3 ∨ (s.arrive t).power.mode = 4) ∧
    c.cls < 4 ∧
    ckptComplete c = false) ∧
    (∃ (t : Nat) (c : Ckpt) (s : State), ((s.arrive t).power.mode = 3 ∨ (s.arrive t).power.mode = 4) ∧
    c.cls < 4 ∧
    ckptComplete c = true ∧
    c.cfgVersion ≠ (s.arrive t).conf.version) ∧
    (∃ (t : Nat) (c : Ckpt) (s : State), ((s.arrive t).power.mode = 3 ∨ (s.arrive t).power.mode = 4) ∧
    c.cls < 4 ∧
    ckptComplete c = true ∧
    c.cfgVersion = (s.arrive t).conf.version ∧
    (s.arrive t).power.mode = 3 ∧
    (s.arrive t).pair.copyDone = false) ∧
    (∃ (t : Nat) (c : Ckpt) (s : State), ((s.arrive t).power.mode = 3 ∨ (s.arrive t).power.mode = 4) ∧
    c.cls < 4 ∧
    ckptComplete c = true ∧
    c.cfgVersion = (s.arrive t).conf.version ∧
    ((s.arrive t).power.mode = 4 ∨ (s.arrive t).pair.copyDone = true)) ∧
    (∃ (s : State), s.power.mode ≠ 4) ∧
    (∃ (s : State), s.power.mode = 4) ∧
    (∃ (h : Nat) (s : State) (e : Nat × Word64), List.find? (fun e => e.1 == h) s.cyc.newShots = some e) ∧
    (∃ (version : Nat) (s : State), version ≠ 0 ∧
    s.cfg.seed.present = true ∧
    s.cfg.seed.cfg.version = version) ∧
    (∃ (t : Nat) (s : State), (s.arrive t).pair.owner = true) ∧
    (∃ (t : Nat) (x : Nat) (s : State), (s.arrive t).ckptIsLate x = true) ∧
    (∃ (t : Nat) (s : State), (s.arrive t).maySync = true) :=
  ⟨⟨0, (State.reset.upPair fun p => { p with ownClaim := true }).upTime fun p => { p with now := 500 }, by decide +kernel⟩,
    ⟨0, State.reset, by decide +kernel⟩,
    ⟨State.reset.upPair fun p => { p with claimKind := 1 }, by decide +kernel⟩,
    ⟨State.reset.upPair fun p => { p with claimKind := 0 }, by decide +kernel⟩,
    ⟨State.reset.upPair fun p => { p with claimKind := 1 }, by decide +kernel⟩,
    ⟨State.reset.upCfg fun p => { p with armed := some wFlip }, wFlip, by decide +kernel⟩,
    ⟨0, State.reset, by decide +kernel⟩,
    ⟨0, 0, State.reset.upCnt fun p => { p with applied := (setAt p.applied 0 fun e1 => some 0) }, by decide +kernel⟩,
    ⟨0, 0,
      (State.reset.upCnt fun p => { p with applied := (setAt p.applied 0 fun e1 => some 0) }).upTime fun p => { p with tb0 := { p.tb0 with acc := 10 ^ 6 * 2 ^ 48 } },
      by decide +kernel⟩,
    ⟨0, State.reset, by decide +kernel⟩,
    ⟨0, State.reset.upCyc fun p => { p with cls := (setAt p.cls 0 fun e1 => { e1 with rerunTo := some 1 }) }, by decide +kernel⟩,
    ⟨0, { wCkpt with crcOk := false }, State.reset.upPower fun p => { p with mode := 3 }, by decide +kernel⟩,
    ⟨0, { wCkpt with trailerLen := Ckpt.bytes wCkpt, cfgVersion := 1 }, State.reset.upPower fun p => { p with mode := 3 }, by decide +kernel⟩,
    ⟨0, { wCkpt with trailerLen := Ckpt.bytes wCkpt }, State.reset.upPower fun p => { p with mode := 3 }, by decide +kernel⟩,
    ⟨0, { wCkpt with trailerLen := Ckpt.bytes wCkpt }, State.reset.upPower fun p => { p with mode := 4 }, by decide +kernel⟩,
    ⟨State.reset.upPower fun p => { p with mode := 0 }, by decide +kernel⟩,
    ⟨State.reset.upPower fun p => { p with mode := 4 }, by decide +kernel⟩,
    ⟨1, State.reset.upCyc fun p => { p with newShots := [(1, 5#64)] }, (1, 5#64), by decide +kernel⟩,
    ⟨1, State.reset.upCfg fun p => { p with seed := { p.seed with present := true, cfg := { p.seed.cfg with version := 1 } } }, by decide +kernel⟩,
    ⟨0, State.reset.upPair fun p => { p with owner := true }, by decide +kernel⟩,
    ⟨0, 0,
      ((State.reset.upPower fun p => { p with mode := 4 }).upPair fun p => { p with synced := true, lane0 := true }).upTime fun p => { p with tb0 := { p.tb0 with acc := 10 ^ 6 * 2 ^ 48 } },
      by decide +kernel⟩,
    ⟨0,
      (((State.reset.upPower fun p => { p with mode := 3 }).upPair fun p => { p with copyDone := true, loopOk := 1, twinClaim := true }).upCnt fun p => { p with applied := [some 0, some 0, some 0, some 0] }).upTime fun p => { p with tb0 := { p.tb0 with st := 7 } },
      by decide +kernel⟩⟩
/-- Hypotheses of `Obligations.TamperAndWatchdog` that hold together. -/
theorem witness_TamperAndWatchdog :
    (∃ (t : Nat) (s : State), (s.arrive t).unpowered = true ∧
    (s.arrive t).boot.lingKept = true) ∧
    (∃ (t : Nat) (s : State), (s.arrive t).unpowered = true ∧
    (s.arrive t).boot.lingKept = false) ∧
    (∃ (s : State), s.unpowered = false ∧
    3 ≤ s.power.mode ∧
    s.power.mode ≤ 7 ∧
    s.boot.retiring = false) ∧
    (∃ (s : State), s.unpowered = false ∧
    s.power.mode = 2 ∧
    s.boot.retiring = false ∧
    s.sec.fuse = false) ∧
    (∃ (s : State), s.unpowered = false ∧
    (s.power.mode = 1 ∨ s.boot.retiring = true)) ∧
    (∃ (t : Nat) (cycles : Nat) (s : State), (s.arrive t).unpowered = false ∧
    12475000 ≤ cycles ∧
    cycles ≤ 12525000) ∧
    (∃ (t : Nat) (cycles : Nat) (s : State), (s.arrive t).unpowered = false ∧
    (cycles < 12475000 ∨ 12525000 < cycles) ∧
    (s.arrive t).boot.clockBad = 0) ∧
    (∃ (t : Nat) (cycles : Nat) (s : State), (s.arrive t).unpowered = false ∧
    (cycles < 12475000 ∨ 12525000 < cycles) ∧
    0 < (s.arrive t).boot.clockBad) ∧
    (∃ (t : Nat) (s : State), (s.arrive t).stewardUp = true ∧
    (s.arrive t).boot.hung = false ∧
    (s.arrive t).boot.watchdogRecord = none) ∧
    (∃ (t : Nat) (s : State), (s.arrive t).stewardUp = true ∧
    (s.arrive t).boot.watchdogAt + 12500000 ≤ (s.arrive t).time.now) :=
  ⟨⟨0, State.reset.upBoot fun p => { p with stopped := true, lingKept := true }, by decide +kernel⟩,
    ⟨0, State.reset.upBoot fun p => { p with stopped := true, lingKept := false }, by decide +kernel⟩,
    ⟨(State.reset.upPower fun p => { p with mode := 3 }).upBoot fun p => { p with retiring := false }, by decide +kernel⟩,
    ⟨((State.reset.upPower fun p => { p with mode := 2 }).upBoot fun p => { p with retiring := false }).upSec fun p => { p with fuse := false },
      by decide +kernel⟩,
    ⟨State.reset.upPower fun p => { p with mode := 1 }, by decide +kernel⟩,
    ⟨0, 12475000, State.reset, by decide +kernel⟩,
    ⟨0, 0, State.reset.upBoot fun p => { p with clockBad := 0 }, by decide +kernel⟩,
    ⟨0, 12525001, State.reset.upBoot fun p => { p with clockBad := 1 }, by decide +kernel⟩,
    ⟨0, State.reset.upBoot fun p => { p with hung := false, watchdogRecord := none, step := 2 }, by decide +kernel⟩,
    ⟨0, (State.reset.upBoot fun p => { p with step := 2 }).upTime fun p => { p with now := 0 + 12500000 }, by decide +kernel⟩⟩
/-- Hypotheses of `Obligations.TheDebugLinkActsAsMaster18` that hold together. -/
theorem witness_TheDebugLinkActsAsMaster18 :
    (∃ (t : Nat) (s : State) (n : Nat), (s.arrive t).debugLink = true ∧
    1 ≤ n ∧
    n ≤ 256) ∧
    (∃ (t : Nat) (addr : Nat) (s : State) (n : Nat) (u : State) (ds : List Word), (s.arrive t).debugLink = true ∧
    1 ≤ n ∧
    n ≤ 256 ∧
    (∃ d, State.debugWords AccessOp.read (List.map (fun i => (addr + 4 * i, 0#32)) (List.range n)) [] (s.arrive t) = (u, WordEnd.done d, ds))) ∧
    (∃ (t : Nat) (addr : Nat) (s : State) (n : Nat) (u : State) (ds : List Word), (s.arrive t).debugLink = true ∧
    1 ≤ n ∧
    n ≤ 256 ∧
    State.debugWords AccessOp.read (List.map (fun i => (addr + 4 * i, 0#32)) (List.range n)) [] (s.arrive t) = (u, WordEnd.busError, ds)) ∧
    (∃ (t : Nat) (s : State), (s.arrive t).debugLink = true) ∧
    (∃ (t : Nat) (s : State) (ws : List Word), (s.arrive t).debugLink = true ∧
    ws ≠ [] ∧
    ws.length ≤ 256) ∧
    (∃ (t : Nat) (addr : Nat) (s : State) (ws : List Word) (u : State) (d : Nat) (ds : List Word), (s.arrive t).debugLink = true ∧
    ws ≠ [] ∧
    ws.length ≤ 256 ∧
    State.debugWords AccessOp.write (mapFrom (fun i p => (addr + 4 * i, p.2)) 0 (List.map (fun w => (0, w)) ws)) [] (s.arrive t) = (u, WordEnd.done d, ds)) ∧
    (∃ (t : Nat) (addr : Nat) (s : State) (ws : List Word) (u : State) (ds : List Word), (s.arrive t).debugLink = true ∧
    ws ≠ [] ∧
    ws.length ≤ 256 ∧
    State.debugWords AccessOp.write (mapFrom (fun i p => (addr + 4 * i, p.2)) 0 (List.map (fun w => (0, w)) ws)) [] (s.arrive t) = (u, WordEnd.busError, ds)) ∧
    (∃ (op : AccessOp) (addr : Nat) (x : Word) (s : State) (u : State) (d : Nat), State.access (debugAccess op addr x) s = (u, WordEnd.done d)) ∧
    (∃ (op : AccessOp) (addr : Nat) (x : Word) (s : State) (u : State), State.access (debugAccess op addr x) s = (u, WordEnd.busError)) ∧
    (∃ (t : Nat) (n : Nat) (s : State), (s.arrive t).debugLink = true ∧
    n < 8) ∧
    (∃ (t : Nat) (n : Nat) (s : State), (s.arrive t).debugLink = true ∧
    n < 8 ∧
    (s.arrive t).gate.debugOpen = false) ∧
    (∃ (t : Nat) (n : Nat) (s : State), (s.arrive t).debugLink = true ∧
    n < 8 ∧
    (s.arrive t).gate.debugOpen = true) :=
  ⟨⟨0, State.reset, 1, by decide +kernel⟩,
    ⟨0, 0x03000000, wDebug, 256,
      (State.debugWords AccessOp.read (List.map (fun i => (0x03000000 + 4 * i, 0#32)) (List.range 256)) [] (State.arrive 0 wDebug)).1,
      (State.debugWords AccessOp.read (List.map (fun i => (0x03000000 + 4 * i, 0#32)) (List.range 256)) [] (State.arrive 0 wDebug)).2.2,
      by decide +kernel, by decide +kernel, by decide +kernel, ⟨0, Prod.ext rfl (Prod.ext (isDone_eq (by decide +kernel)) rfl)⟩⟩,
    ⟨0, 0x0C200000, wDebug, 1,
      (State.debugWords AccessOp.read (List.map (fun i => (0x0C200000 + 4 * i, 0#32)) (List.range 1)) [] (State.arrive 0 wDebug)).1,
      (State.debugWords AccessOp.read (List.map (fun i => (0x0C200000 + 4 * i, 0#32)) (List.range 1)) [] (State.arrive 0 wDebug)).2.2,
      by decide +kernel, by decide +kernel, by decide +kernel, Prod.ext rfl (Prod.ext (isBus_eq (by decide +kernel)) rfl)⟩,
    ⟨0, State.reset, by decide +kernel⟩,
    ⟨0, State.reset, [0#32], by decide +kernel⟩,
    ⟨0, 0x03000000, wDebug, [5#32],
      (State.debugWords AccessOp.write (mapFrom (fun i p => (0x03000000 + 4 * i, p.2)) 0 (List.map (fun w => (0, w)) [5#32])) [] (State.arrive 0 wDebug)).1,
      0,
      (State.debugWords AccessOp.write (mapFrom (fun i p => (0x03000000 + 4 * i, p.2)) 0 (List.map (fun w => (0, w)) [5#32])) [] (State.arrive 0 wDebug)).2.2,
      by decide +kernel, by decide +kernel, by decide +kernel, Prod.ext rfl (Prod.ext (isDone_eq (by decide +kernel)) rfl)⟩,
    ⟨0, 0x0C200000, wDebug, [5#32],
      (State.debugWords AccessOp.write (mapFrom (fun i p => (0x0C200000 + 4 * i, p.2)) 0 (List.map (fun w => (0, w)) [5#32])) [] (State.arrive 0 wDebug)).1,
      (State.debugWords AccessOp.write (mapFrom (fun i p => (0x0C200000 + 4 * i, p.2)) 0 (List.map (fun w => (0, w)) [5#32])) [] (State.arrive 0 wDebug)).2.2,
      by decide +kernel, by decide +kernel, by decide +kernel, Prod.ext rfl (Prod.ext (isBus_eq (by decide +kernel)) rfl)⟩,
    ⟨.read, 0x03000000, 0#32, wDebug, (State.access (debugAccess .read 0x03000000 0#32) wDebug).1, 0, Prod.ext rfl (isDone_eq (by decide +kernel))⟩,
    ⟨.read, 0x0C200000, 0#32, wDebug, (State.access (debugAccess .read 0x0C200000 0#32) wDebug).1, Prod.ext rfl (isBus_eq (by decide +kernel))⟩,
    ⟨0, 0, State.reset, by decide +kernel⟩,
    ⟨0, 0, State.reset.upGate fun p => { p with debugOpen := false }, by decide +kernel⟩,
    ⟨0, 0, State.reset.upGate fun p => { p with debugOpen := true }, by decide +kernel⟩⟩
/-- Hypotheses of `Obligations.TheStandbyIsProved` that hold together. -/
theorem witness_TheStandbyIsProved :
    (∃ (t : Nat) (s : State), (s.arrive t).power.mode = 4) ∧
    (∃ (t : Nat) (s : State), (s.arrive t).awake = true) :=
  ⟨⟨0, State.reset.upPower fun p => { p with mode := 4 }, by decide +kernel⟩,
    ⟨0, State.reset, by decide +kernel⟩⟩
/-- Hypotheses of `Obligations.TimeBasesCountTicks` that hold together. -/
theorem witness_TimeBasesCountTicks :
    (∃ (t : Nat) (s : State), t ≤ s.time.now) ∧
    (∃ (t : Nat) (s : State), s.time.now ≤ t ∧
    s.power.mode ≠ 8 ∧
    s.boot.stopped = false) :=
  ⟨⟨0, State.reset, by decide +kernel⟩,
    ⟨0, (State.reset.upPower fun p => { p with mode := 0 }).upBoot fun p => { p with stopped := false }, by decide +kernel⟩⟩
/-- Hypotheses of `Obligations.TimedActionsAreQueuedSentAndSettled` that hold together. -/
theorem witness_TimedActionsAreQueuedSentAndSettled :
    (∃ (e : Entry), e.id < 2 ^ 32 ∧
    e.handle < 2 ^ 24 ∧
    e.state < 256 ∧
    e.term < 2 ^ 32 ∧
    e.apply < 2 ^ 64 ∧
    e.dispatch < 1024 ∧
    e.cls < 4 ∧
    e.cycle < 2 ^ 30) ∧
    (∃ (s : State) (h : Nat), s.timedPoint h = false) ∧
    (∃ (s : State) (h : Nat) (x : Word), s.timedPoint h = true ∧
    s.conf.outRaw (s.ruleOf h) x = none) ∧
    (∃ (s : State) (h : Nat) (x : Word) (apply : Nat), s.timedPoint h = true ∧
    s.conf.outRaw (s.ruleOf h) x ≠ none ∧
    s.tb0 + 3600000000000 < apply) ∧
    (∃ (s : State) (h : Nat) (x : Word) (apply : Nat), s.timedPoint h = true ∧
    s.conf.outRaw (s.ruleOf h) x ≠ none ∧
    apply ≤ s.tb0 + 3600000000000 ∧
    apply ≤ ((s.cyc.cls.getD (ruleClass (s.ruleOf h)) ClassSt.reset).heldApply)) ∧
    (∃ (s : State) (h : Nat) (x : Word) (apply : Nat), s.timedPoint h = true ∧
    s.conf.outRaw (s.ruleOf h) x ≠ none ∧
    apply ≤ s.tb0 + 3600000000000 ∧
    ((s.cyc.cls.getD (ruleClass (s.ruleOf h)) ClassSt.reset).heldApply) < apply ∧
    apply < s.tb0 + 1000 * s.leadUs) ∧
    (∃ (s : State) (h : Nat) (x : Word) (apply : Nat) (asap : Bool), s.timedPoint h = true ∧
    s.conf.outRaw (s.ruleOf h) x ≠ none ∧
    apply ≤ s.tb0 + 3600000000000 ∧
    ((s.cyc.cls.getD (ruleClass (s.ruleOf h)) ClassSt.reset).heldApply) < apply ∧
    (s.tb0 + 1000 * s.leadUs ≤ apply ∨ asap = true)) ∧
    (∃ (t : Nat) (h : Nat) (x : Word) (apply : Nat) (asap : Bool) (s : State) (st : Nat), (s.arrive t).pair.owner = true ∧
    (s.arrive t).putRefusal h x apply asap = some st) ∧
    (∃ (t : Nat) (h : Nat) (x : Word) (apply : Nat) (asap : Bool) (s : State), (s.arrive t).pair.owner = true ∧
    (s.arrive t).putRefusal h x apply asap = none ∧
    List.Pairwise (fun x1 x2 => x1 < x2) (s.arrive t).sched.used) ∧
    (∃ (n : Nat) (o : Nat) (s : State) (k : Nat), (o ≠ 5 → k = o) ∧
    (o = 5 → k = match List.find? (fun c => c.1 == (s.entry n).id) s.sched.causes with | some c => c.2 | none => 5) ∧
    k ≠ 8) ∧
    (∃ (t : Nat) (id : Nat) (s : State), (s.arrive t).pair.owner = true ∧
    (s.arrive t).findEntry id = none ∧
    (∀ r ∈ (s.arrive t).sched.ring, r.1 ≠ id)) ∧
    (∃ (t : Nat) (id : Nat) (s : State) (r : Nat × Nat × Nat), (s.arrive t).pair.owner = true ∧
    (s.arrive t).findEntry id = none ∧
    List.find? (fun r => r.1 == id) (s.arrive t).sched.ring.reverse = some r) ∧
    (∃ (t : Nat) (id : Nat) (s : State) (n : Nat), (s.arrive t).pair.owner = true ∧
    (s.arrive t).findEntry id = some n ∧
    ((s.arrive t).entry n).state = 1) ∧
    (∃ (t : Nat) (id : Nat) (s : State) (n : Nat), (s.arrive t).pair.owner = true ∧
    (s.arrive t).findEntry id = some n ∧
    ((s.arrive t).entry n).state = 4) ∧
    (∃ (t : Nat) (id : Nat) (s : State) (n : Nat), (s.arrive t).pair.owner = true ∧
    (s.arrive t).findEntry id = some n ∧
    ((s.arrive t).entry n).state ≠ 1 ∧
    ((s.arrive t).entry n).state ≠ 4 ∧
    (s.arrive t).lastDispatch ((s.arrive t).entry n) < (s.arrive t).tb0) ∧
    (∃ (t : Nat) (id : Nat) (s : State) (n : Nat), (s.arrive t).pair.owner = true ∧
    (s.arrive t).findEntry id = some n ∧
    ((s.arrive t).entry n).state ≠ 1 ∧
    ((s.arrive t).entry n).state ≠ 4 ∧
    (s.arrive t).tb0 ≤ (s.arrive t).lastDispatch ((s.arrive t).entry n)) ∧
    (∃ (s : State) (n : Nat), s.entryBad n = false ∧
    ((s.img (s.entry n).handle).forced = true ∨ (s.img (s.entry n).handle).simulated = true)) ∧
    (∃ (s : State) (n : Nat), s.entryBad n = false ∧
    (s.img (s.entry n).handle).forced = false ∧
    (s.img (s.entry n).handle).simulated = false ∧
    s.lastDispatch (s.entry n) < s.tb0 ∧
    (s.entry n).asap = false) ∧
    (∃ (s : State) (l : List (Nat × Nat)) (n : Nat), s.entryBad n = false ∧
    (s.img (s.entry n).handle).forced = false ∧
    (s.img (s.entry n).handle).simulated = false ∧
    (s.tb0 ≤ s.lastDispatch (s.entry n) ∨ (s.entry n).asap = true) ∧
    (256 ≤ s.heldAt (s.stationOf (s.entry n)) + ((List.filter (fun p => p.1 == (s.stationOf (s.entry n))) l).length) ∨ (s.schedStation (s.stationOf (s.entry n))).free ≤ s.inflightAt (s.stationOf (s.entry n)) + ((List.filter (fun p => p.1 == (s.stationOf (s.entry n))) l).length))) ∧
    (∃ (s : State) (l : List (Nat × Nat)) (n : Nat), s.entryBad n = false ∧
    (s.img (s.entry n).handle).forced = false ∧
    (s.img (s.entry n).handle).simulated = false ∧
    (s.tb0 ≤ s.lastDispatch (s.entry n) ∨ (s.entry n).asap = true) ∧
    s.heldAt (s.stationOf (s.entry n)) + ((List.filter (fun p => p.1 == (s.stationOf (s.entry n))) l).length) < 256 ∧
    s.inflightAt (s.stationOf (s.entry n)) + ((List.filter (fun p => p.1 == (s.stationOf (s.entry n))) l).length) < (s.schedStation (s.stationOf (s.entry n))).free) ∧
    (∃ (a : Nat) (re : Bool) (k : Nat) (ns : List Nat) (s : State), (State.sendEntries a re k ns s).sched.frames ≠ []) ∧
    (∃ (t : Nat) (a : Nat) (no : Nat) (s : State), (s.arrive t).pair.owner = true ∧
    List.find? (fun x => x.station == a && x.number == no) (s.arrive t).sched.frames = none) ∧
    (∃ (t : Nat) (a : Nat) (no : Nat) (s : State) (f : SchedFrame), (s.arrive t).pair.owner = true ∧
    List.find? (fun x => x.station == a && x.number == no) (s.arrive t).sched.frames = some f ∧
    (s.arrive t).time.now < f.sentAt + psTicks ((s.arrive t).rttPs a)) ∧
    (∃ (t : Nat) (a : Nat) (no : Nat) (s : State) (f : SchedFrame), (s.arrive t).pair.owner = true ∧
    List.find? (fun x => x.station == a && x.number == no) (s.arrive t).sched.frames = some f ∧
    f.sentAt + psTicks ((s.arrive t).rttPs a) ≤ (s.arrive t).time.now ∧
    (f.retried = true ∨ ∃ l, f.latest = some l ∧ l < (s.arrive t).tb0)) ∧
    (∃ (t : Nat) (a : Nat) (no : Nat) (s : State) (f : SchedFrame), (s.arrive t).pair.owner = true ∧
    List.find? (fun x => x.station == a && x.number == no) (s.arrive t).sched.frames = some f ∧
    f.sentAt + psTicks ((s.arrive t).rttPs a) ≤ (s.arrive t).time.now ∧
    f.retried = false ∧
    (∀ (l : ℕ), f.latest = some l → (s.arrive t).tb0 ≤ l)) ∧
    (∃ (t : Nat) (f : RxFrame) (s : State), State.hears f (s.arrive t) = true) ∧
    (∃ (f : Fsp) (s : State), State.versionKnown f s = false) ∧
    (∃ (f : Fsp) (s : State), State.versionKnown f s = true ∧
    f.term ≠ s.pair.term) ∧
    (∃ (f : Fsp) (s : State), State.versionKnown f s = true ∧
    f.term = s.pair.term ∧
    s.pair.owner = true ∧
    List.find? (fun x => x.station == f.station && x.number == f.tag && x.term == f.term) s.sched.frames = none) ∧
    (∃ (f : Fsp) (s : State) (x : SchedFrame), State.versionKnown f s = true ∧
    f.term = s.pair.term ∧
    s.pair.owner = true ∧
    List.find? (fun x => x.station == f.station && x.number == f.tag && x.term == f.term) s.sched.frames = some x ∧
    parseSchedAck f.payload = none) ∧
    (∃ (f : Fsp) (s : State) (x : SchedFrame) (free : Nat) (items : List (Nat × Nat)), State.versionKnown f s = true ∧
    f.term = s.pair.term ∧
    s.pair.owner = true ∧
    List.find? (fun x => x.station == f.station && x.number == f.tag && x.term == f.term) s.sched.frames = some x ∧
    parseSchedAck f.payload = some (free, items) ∧
    List.map (fun i => i.1) items ≠ x.ids) ∧
    (∃ (f : Fsp) (s : State) (x : SchedFrame) (free : Nat) (items : List (Nat × Nat)), State.versionKnown f s = true ∧
    f.term = s.pair.term ∧
    s.pair.owner = true ∧
    List.find? (fun x => x.station == f.station && x.number == f.tag && x.term == f.term) s.sched.frames = some x ∧
    parseSchedAck f.payload = some (free, items) ∧
    List.map (fun i => i.1) items = x.ids) ∧
    (∃ (id : Nat) (n : Nat) (s : State), s.findEntry id = some n) ∧
    (∃ (f : Fsp), parsePublish f.payload = none) ∧
    (∃ (f : Fsp) (items : List (Nat × Nat × Nat)), parsePublish f.payload = some items) ∧
    (∃ (id : Nat) (s : State) (n : Nat), s.findEntry id = some n) ∧
    (∃ (id : Nat) (outcome : Nat) (s : State) (n : Nat), s.findEntry id = some n ∧
    outcome ≠ 0) ∧
    (∃ (id : Nat) (s : State) (h : Nat), s.findEntry id = none ∧
    s.pair.owner = true ∧
    h < 6291456) ∧
    (∃ (id : Nat) (outcome : Nat) (s : State), s.findEntry id = none ∧
    outcome ≠ 0) ∧
    (∃ (t : Nat) (id : Nat) (s : State), (s.arrive t).pair.owner = true ∧
    (s.arrive t).findEntry id = none) ∧
    (∃ (t : Nat) (id : Nat) (s : State) (n : Nat), (s.arrive t).pair.owner = true ∧
    (s.arrive t).findEntry id = some n ∧
    2 ≤ ((s.arrive t).entry n).state ∧
    (s.arrive t).reportDeadline ((s.arrive t).entry n) ≤ (s.arrive t).tb0) ∧
    (∃ (t : Nat) (id : Nat) (s : State) (n : Nat), (s.arrive t).pair.owner = true ∧
    (s.arrive t).findEntry id = some n ∧
    (((s.arrive t).entry n).state < 2 ∨ (s.arrive t).tb0 < (s.arrive t).reportDeadline ((s.arrive t).entry n))) ∧
    (∃ (t : Nat) (id : Nat) (n : Nat) (s : State), (s.arrive t).pair.owner = true ∧
    (s.arrive t).findEntry id = some n ∧
    2 ≤ ((s.arrive t).entry n).state ∧
    (s.arrive t).reportDeadline ((s.arrive t).entry n) ≤ (s.arrive t).tb0) :=
  ⟨⟨wEntry, by decide +kernel⟩,
    ⟨State.reset, 0, by decide +kernel⟩,
    ⟨(State.reset.setRule 1 0x6001000030000000#64).upCfg fun p => { p with sown := { p.sown with present := true, cfg := { p.sown.cfg with map := { p.sown.cfg.map with stations := [{ wStation with flags := 1 }] } } } },
      1, 0x7FC00000#32, by decide +kernel⟩,
    ⟨wOwn.upCfg fun p => { p with sown := { p.sown with present := true, cfg := { p.sown.cfg with map := { p.sown.cfg.map with stations := [{ wStation with flags := 1 }] } } } },
      1, 0#32, 3600000000001, by decide +kernel⟩,
    ⟨wOwn.upCfg fun p => { p with sown := { p.sown with present := true, cfg := { p.sown.cfg with map := { p.sown.cfg.map with stations := [{ wStation with flags := 1 }] } } } },
      1, 0#32, 0, by decide +kernel⟩,
    ⟨wOwn.upCfg fun p => { p with sown := { p.sown with present := true, cfg := { p.sown.cfg with map := { p.sown.cfg.map with stations := [{ wStation with flags := 1 }] } } } },
      1, 0#32, 1, by decide +kernel, by decide +kernel, by decide +kernel, by decide +kernel, by
      show 1 < State.tb0 _ + 1000 * State.leadUs _
      unfold State.leadUs; omega⟩,
    ⟨wOwn.upCfg fun p => { p with sown := { p.sown with present := true, cfg := { p.sown.cfg with map := { p.sown.cfg.map with stations := [{ wStation with flags := 1 }] } } } },
      1, 0#32, 1, true, by decide +kernel, by decide +kernel, by decide +kernel, by decide +kernel, Or.inr rfl⟩,
    ⟨0, 1, 0#32, 0, true, wOwn.upPair fun p => { p with owner := true }, stRange, by decide +kernel⟩,
    ⟨0, 1, 0#32, 1, true,
      (wOwn.upPair fun p => { p with owner := true }).upCfg fun p => { p with sown := { p.sown with present := true, cfg := { p.sown.cfg with map := { p.sown.cfg.map with stations := [{ wStation with flags := 1 }] } } } },
      by decide +kernel, (by
      unfold State.putRefusal
      rw [if_neg (by decide +kernel), if_neg (by decide +kernel), if_neg (by decide +kernel), if_neg (by decide +kernel), if_neg (by simp), if_neg (by decide +kernel)]),
       by decide +kernel⟩,
    ⟨0, 0, State.reset, 0, by decide +kernel, fun h => absurd h (by decide), by decide +kernel⟩,
    ⟨0, 0, State.reset.upPair fun p => { p with owner := true }, by decide +kernel⟩,
    ⟨0, 1, (State.reset.upPair fun p => { p with owner := true }).upSched fun p => { p with ring := [(1, 0, 0)] }, (1, 0, 0), by decide +kernel⟩,
    ⟨0, 1, (wQ wEntry).upPair fun p => { p with owner := true }, 0, by decide +kernel⟩,
    ⟨0, 1, (wQ { wEntry with state := 4 }).upPair fun p => { p with owner := true }, 0, by decide +kernel⟩,
    ⟨0, 1,
      ((wQ { wEntry with state := 2 }).upPair fun p => { p with owner := true }).upTime fun p => { p with tb0 := { p.tb0 with acc := 10 ^ 6 * 2 ^ 48 } },
      0, by decide +kernel⟩,
    ⟨0, 1, (wQ { wEntry with state := 2 }).upPair fun p => { p with owner := true }, 0, by decide +kernel⟩,
    ⟨(wQ wEntry).upImg 1 fun g => { g with forced := true }, 0, by decide +kernel, Or.inl (by decide +kernel)⟩,
    ⟨(wQ wEntry).upTime fun p => { p with tb0 := { p.tb0 with acc := 10 ^ 6 * 2 ^ 48 } }, 0, by decide +kernel⟩,
    ⟨(wQ wEntry).upSched fun p => { p with stations := [{ station := 1, free := 0, nextNo := 0 }] }, [], 0, by decide +kernel⟩,
    ⟨State.reset, [], 0, by decide +kernel⟩,
    ⟨1, false, 1, [0], wQ wEntry, by decide +kernel⟩,
    ⟨0, 0, 0, State.reset.upPair fun p => { p with owner := true }, by decide +kernel⟩,
    ⟨0, 1, 0,
      (wOwn.upCfg fun p => { p with sown := { p.sown with present := true, cfg := { p.sown.cfg with map := { p.sown.cfg.map with stations := [{ wStation with flags := 1 }] } } } }).upSched fun p => { p with frames := [wSched] },
      wSched, by decide +kernel⟩,
    ⟨0, 1, 0, wOwn.upSched fun p => { p with frames := [{ wSched with retried := true }] }, { wSched with retried := true }, by decide +kernel,
      by decide +kernel, by decide +kernel, Or.inl rfl⟩,
    ⟨0, 1, 0, wOwn.upSched fun p => { p with frames := [wSched] }, wSched, by decide +kernel, by decide +kernel, by decide +kernel, by decide +kernel,
      fun l h => by simp [wSched] at h⟩,
    ⟨0, wRx 0x12 0x1000 0 0 [], State.reset.upSfp fun p => (setAt p 0 fun e0 => { e0 with linkUp := true }), by decide +kernel⟩,
    ⟨{ wFsp with cfg := 1 }, State.reset, by decide +kernel⟩,
    ⟨{ wFsp with term := 1 }, State.reset, by decide +kernel⟩,
    ⟨wFsp, State.reset.upPair fun p => { p with owner := true }, by decide +kernel⟩,
    ⟨wFsp, (State.reset.upPair fun p => { p with owner := true }).upSched fun p => { p with frames := [wSched] }, wSched, by decide +kernel⟩,
    ⟨{ wFsp with payload := zeroBytes 12 }, (State.reset.upPair fun p => { p with owner := true }).upSched fun p => { p with frames := [wSched] },
      wSched, 0, [(0, 0)], by decide +kernel⟩,
    ⟨{ wFsp with payload := zeroBytes 12 },
      (State.reset.upPair fun p => { p with owner := true }).upSched fun p => { p with frames := [{ wSched with ids := [0] }] },
      { wSched with ids := [0] }, 0, [(0, 0)], by decide +kernel⟩,
    ⟨1, 0, wQ wEntry, by decide +kernel⟩,
    ⟨wFsp, by decide +kernel⟩,
    ⟨{ wFsp with payload := zeroBytes 16 }, [(0, 0, 0)], by decide +kernel⟩,
    ⟨1, wQ wEntry, 0, by decide +kernel⟩,
    ⟨1, 1, wQ wEntry, 0, by decide +kernel⟩,
    ⟨0, State.reset.upPair fun p => { p with owner := true }, 0, by decide +kernel⟩,
    ⟨0, 1, State.reset, by decide +kernel⟩,
    ⟨0, 1, State.reset.upPair fun p => { p with owner := true }, by decide +kernel⟩,
    ⟨0, 1, (wQ { wEntry with state := 2 }).upTime fun p => { p with tb0 := { p.tb0 with acc := 10 ^ 6 * 2 ^ 48 } }, 0, by decide +kernel⟩,
    ⟨0, 1, wQ { wEntry with state := 1 }, 0, by decide +kernel⟩,
    ⟨0, 1, 0,
      ((wQ { wEntry with state := 2 }).upPair fun p => { p with owner := true }).upTime fun p => { p with tb0 := { p.tb0 with acc := 10 ^ 6 * 2 ^ 48 } },
      by decide +kernel⟩⟩
/-- Hypotheses of `Obligations.TransceiversFollowTheirIdentity` that hold together. -/
theorem witness_TransceiversFollowTheirIdentity :
    ∃ (t : Nat) (port : Nat) (high : Bool) (s : State), (s.arrive t).awake = true ∧
    (s.arrive t).boot.coresOff = false ∧
    List.map (fun x => x.linkUp) (setAt (s.arrive t).sfp port (SfpSt.monitor (s.arrive t).time.now high)) = List.map (fun x => x.linkUp) (s.arrive t).sfp :=
  ⟨0, 0, true, State.reset.upBoot fun p => { p with coresOff := false }, by decide +kernel⟩

end Sys2Proof.Tests
end

/-! Proofs of the statements about accesses: one word or two, the decoder, the gate, the memory behind it (O47). -/

namespace Sys2Proof.Machine

/-! ## How an access completes (12 R270) -/

section completion

variable {t : Nat} {a : Access} {s v : State} {d : Nat}

theorem fabricAccess_asleep (h : (s.arrive t).awake = false) : exec (.fabricAccess t a) s = .next (s.arrive t) := by
  rw [exec_fabricAccess, execFabricAccess, if_neg (by simp [h])]

theorem fabricAccess_done (h : (s.arrive t).awake = true) (e : (s.arrive t).access a = (v, .done d)) :
    exec (.fabricAccess t a) s = .next (v.emit (.access false d)) := by
  rw [exec_fabricAccess, execFabricAccess, if_pos h, State.fabric, e]

theorem fabricAccess_busError (h : (s.arrive t).awake = true) (e : (s.arrive t).access a = (v, .busError)) :
    exec (.fabricAccess t a) s = .next (v.emit (.access true 0)) := by
  rw [exec_fabricAccess, execFabricAccess, if_pos h, State.fabric, e]

end completion

/-! ## One word or two halves (12 R271) -/

section halves

variable {a : Access} {s : State} {n : Nat}

/-- A compare-and-swap is of one aligned word. -/
theorem access_cas_misplaced (h : a.op = .cas) (hw : a.size ≠ 8 ∨ a.addr % 8 ≠ 0) : s.access a = (s, .busError) := by
  unfold State.access
  rw [if_pos (by simpa [h] using hw)]

theorem access_within_word (h : a.addr % 8 + a.size ≤ 8) (hc : a.op = .cas → a.size = 8) :
    s.access a = s.wordAccess a a.addr a.size (a.data % 2 ^ (8 * a.size)) a.ecc := by
  have placed : ¬(a.op == .cas && (a.size != 8 || a.addr % 8 != 0)) = true := by
    simp only [Bool.and_eq_true, Bool.or_eq_true, beq_iff_eq, bne_iff_ne, not_and, not_or, not_not]
    intro hcas
    have := hc hcas
    omega
  have whole : min a.size (8 - a.addr % 8) = a.size := by omega
  unfold State.access
  rw [if_neg placed]
  simp only [whole, if_true]

/-- The second half of an access that crosses a word. -/
def State.upperHalf (a : Access) (n : Nat) (s : State) : State × WordEnd :=
  s.wordAccess { a with portA := none } (a.addr + n) (a.size - n) (a.data / 2 ^ (8 * n) % 2 ^ (8 * (a.size - n))) .clean

theorem access_across_words (h : a.op ≠ .cas) (hs : 8 < a.addr % 8 + a.size) (hn : n = 8 - a.addr % 8) :
    s.access a = match s.wordAccess a a.addr n (a.data % 2 ^ (8 * n)) a.ecc with
      | (u, .done lo) => (match u.upperHalf a n with
        | (v, .done hi) => (v, .done (lo + hi * 2 ^ (8 * n)))
        | r => r)
      | r => r := by
  have first : min a.size (8 - a.addr % 8) = n := by omega
  unfold State.access
  simp only [first]
  rw [if_neg (by simp [h]), if_neg (by omega)]
  rfl

end halves

/-! ## Decoder and gate (12 R281) -/

section gate

variable {a : Access} {s : State} {addr n data g reason rule : Nat} {ecc : Ecc}

theorem wordAccess_unmapped (h : gateOf addr = none) :
    s.wordAccess a addr n data ecc = (s.record 0x0103 [(8, addr), (1, a.master), (1, opCode a.op)], .busError) := by
  simp only [State.wordAccess, h]

theorem wordAccess_refused (h : gateOf addr = some g) (hr : s.gateRefuses g addr a.master a.priv (a.op != .read) = some (reason, rule)) :
    s.wordAccess a addr n data ecc = (s.violation g addr a.master rule reason a.priv (a.op != .read) a.size, .busError) := by
  simp only [State.wordAccess, h, hr]

theorem wordAccess_memory (h : gateOf addr = some g) (hg : g < 12) (hr : s.gateRefuses g addr a.master a.priv (a.op != .read) = none) :
    s.wordAccess a addr n data ecc = s.memAccess a (addr / 8 * 8) (addr % 8) n data ecc := by
  simp only [State.wordAccess, h, hr, hg, if_true]

end gate

/-! ## The memory behind a gate (12 R270, R272) -/

section memory

variable {a : Access} {s : State} {w o n data : Nat} {ecc : Ecc}

theorem portAWrite_none (s : State) : s.portAWrite none = s := rfl

/-- A word is read unless all of it is written. -/
theorem memAccess_uncorrectable (hp : a.portA = none) (hr : a.op ≠ .write ∨ n ≠ 8) (hb : ecc = .double ∨ w ∈ s.mem.bad) :
    s.memAccess a w o n data ecc = ((s.uncorrectable w).masterActs a.master w, .busError) := by
  have reads : ((a.op != .write || n != 8) && (ecc == .double || s.mem.bad.contains w)) = true := by simpa using ⟨hr, hb⟩
  unfold State.memAccess
  rw [hp]
  exact if_pos reads

theorem memAccess_read_clean (hop : a.op = .read) (hb : w ∉ s.mem.bad) :
    s.memAccess a w o n data .clean = (s.portAWrite a.portA, .done (lanes (s.memWordAt w) o n)) := by
  simp [State.memAccess, hop, hb]

/-- A write of a whole word reads nothing, so no error of the old word stops it. -/
theorem memAccess_write (hop : a.op = .write) (hok : n = 8 ∨ ecc = .clean ∧ w ∉ s.mem.bad) :
    s.memAccess a w o n data ecc = (s.putBytes a.portA w o n data, .done 0) := by
  rcases hok with hn | ⟨he, hb⟩
  · simp [State.memAccess, hop, hn]
  · simp [State.memAccess, hop, he, hb]

theorem memAccess_cas (hop : a.op = .cas) (hb : w ∉ s.mem.bad) :
    s.memAccess a w o n data .clean =
      (if s.memWordAt w = a.expected % 2 ^ 64 then s.putBytes a.portA w 0 8 data else s.portAWrite a.portA, .done (s.memWordAt w)) := by
  simp [State.memAccess, hop, hb]

/-- A single error is counted and the word reads as corrected. -/
theorem memAccess_read_single (hop : a.op = .read) (hb : w ∉ s.mem.bad) (hp : a.portA = none) :
    s.memAccess a w o n data .single = (s.corrected w, .done (lanes (s.memWordAt w) o n)) := by
  have hword : (s.corrected w).memWordAt w = s.memWordAt w := by
    unfold State.memWordAt State.image State.ruleOf State.corrected; rfl
  simp [State.memAccess, hop, hb, hp, hword, portAWrite_none]

/-- Without a write through port A, and away from the schedule queue, bytes that are written change memory alone. -/
theorem putBytes_of_no_portA (hp : a.portA = none) (hq : w < queueBase ∨ queueBase + 0x200000 ≤ w) :
    s.putBytes a.portA w o n data = s.upMem (memStore (leBytes n data) (w + o)) := by
  have outside : ¬(decide (queueBase ≤ w) && decide (w < queueBase + 0x200000)) = true := by simp; omega
  rw [hp]
  unfold State.putBytes
  dsimp only [portAWrite_none, collides]
  rw [if_neg outside]
  rfl

theorem memWordAt_of_memory (h : 0x03000000 ≤ w) : s.memWordAt w = memReadN s.mem w 8 := by
  unfold State.memWordAt
  rw [if_neg (by omega)]

/-- The bytes read are those of the word from the access's address on. -/
theorem lanes_memWordAt (h : 0x03000000 ≤ w) (hn : o + n ≤ 8) : lanes (s.memWordAt w) o n = memReadN s.mem (w + o) n := by
  rw [memWordAt_of_memory h, lanes_mem _ _ _ _ hn]

end memory

/-! ## What a write leaves in memory -/

section stored

variable {m : Mem} {addr n d : Nat}

theorem ofNat_byte_of_mod (i : Nat) (h : i < n) : BitVec.ofNat 8 (d % 2 ^ (8 * n) / 256 ^ i) = BitVec.ofNat 8 (d / 256 ^ i) := by
  have hsplit : 2 ^ (8 * n) = 256 ^ i * 256 ^ (n - i) := by rw [← pow_add, Nat.add_sub_cancel' h.le, pow_mul]; rfl
  have hbyte : 256 ∣ 256 ^ (n - i) := dvd_pow_self 256 (by omega)
  rw [hsplit, Nat.mod_mul_right_div_self]
  exact BitVec.eq_of_toNat_eq (by simpa using Nat.mod_mod_of_dvd _ hbyte)

theorem memRead_store_in (w : Memory.wf m = true) (i : Nat) (h : i < n) :
    memRead (memStore (leBytes n (d % 2 ^ (8 * n))) addr m) (addr + i) = BitVec.ofNat 8 (d / 256 ^ i) := by
  have hlen : i < (leBytes n (d % 2 ^ (8 * n))).length := by rwa [leBytes_length]
  have hread := memRead_writeBytes_in (leBytes n (d % 2 ^ (8 * n))) addr i m w hlen
  rw [leBytes_getElem, ofNat_byte_of_mod i h] at hread
  exact hread

/-- A whole word that is written is sound again (12 R272). -/
theorem memStore_word_sound (bs : List Byte) (h : bs.length = 8) : addr ∉ (memStore bs addr m).bad := by
  simp [memStore, h]

end stored

/-! ## An uncorrectable word (12 R272), a violation (12 R285) -/

theorem uncorrectable_mower (w : Nat) (s : State) :
    (s.uncorrectable w).mower = if isDram w then { s.mower with ueDram := inc32 s.mower.ueDram, lastUe := w }
      else { s.mower with ueSram := inc32 s.mower.ueSram, lastUe := w } := by
  unfold State.uncorrectable
  exact (record_keeps _ _ _).frame .mower (by decide)

/-- The word counts as bad, and the record of it writes no memory but the recorder cache. -/
theorem uncorrectable_marks {w : Nat} (s : State) (h : inCache w = false) : w ∈ (s.uncorrectable w).mem.bad := by
  unfold State.uncorrectable
  refine ((record_keeps _ _ _).frame .mem (by decide) w (by simp [h])).2.2 ?_
  show w ∈ (if s.mem.bad.contains w then s.mem.bad else w :: s.mem.bad)
  split
  · rename_i listed
    simpa using listed
  · exact List.mem_cons_self

theorem uncorrectable_memRead (w : Nat) (s : State) {addr : Nat} (h : inCache addr = false) :
    memRead (s.uncorrectable w).mem addr = memRead s.mem addr := by
  unfold State.uncorrectable
  exact ((record_keeps _ _ _).frame .mem (by decide) addr (by simp [h])).1

theorem violation_gate (g addr master rule reason : Nat) (priv write : Bool) (size : Nat) (s : State) :
    (s.violation g addr master rule reason priv write size).gate =
      { s.gate with
        violations := setAt s.gate.violations g inc32, logged := setAt s.gate.logged g (· + 1),
        logs := (16 * g + s.gate.logged.getD g 0 % 16, faultEntry addr master rule reason priv write size s.gate.epoch (s.gate.logged.getD g 0)) ::
          s.gate.logs.filter fun e => e.1 != 16 * g + s.gate.logged.getD g 0 % 16 } := by
  unfold State.violation
  rw [(coreException_keeps _ _).frame .gate (by decide), (recordAtMost_keeps _ _ _ _ _).frame .gate (by decide)]
  rfl

/-! ## Accesses to memory that the gate grants -/

section granted

/-- The access lies within one word of memory, its gate grants it, and nothing comes through port A. -/
structure State.Grants (s : State) (a : Access) : Prop where
  within : a.addr % 8 + a.size ≤ 8
  cas : a.op = .cas → a.size = 8
  gate : ∃ g, gateOf a.addr = some g ∧ g < 12 ∧ s.gateRefuses g a.addr a.master a.priv (a.op != .read) = none
  portA : a.portA = none

variable {a : Access} {s : State}

theorem access_granted (h : s.Grants a) :
    s.access a = s.memAccess a (a.addr / 8 * 8) (a.addr % 8) a.size (a.data % 2 ^ (8 * a.size)) a.ecc := by
  obtain ⟨g, hg, h12, hr⟩ := h.gate
  rw [access_within_word h.within h.cas, wordAccess_memory hg h12 hr]

theorem access_read_clean (h : s.Grants a) (hop : a.op = .read) (he : a.ecc = .clean) (hb : a.addr / 8 * 8 ∉ s.mem.bad)
    (hw : 0x03000000 ≤ a.addr / 8 * 8) : s.access a = (s, .done (memReadN s.mem a.addr a.size)) := by
  rw [access_granted h, he, memAccess_read_clean hop hb, h.portA, lanes_memWordAt hw h.within, Nat.div_add_mod']
  rfl

theorem access_read_single (h : s.Grants a) (hop : a.op = .read) (he : a.ecc = .single) (hb : a.addr / 8 * 8 ∉ s.mem.bad)
    (hw : 0x03000000 ≤ a.addr / 8 * 8) : s.access a = (s.corrected (a.addr / 8 * 8), .done (memReadN s.mem a.addr a.size)) := by
  rw [access_granted h, he, memAccess_read_single hop hb h.portA, lanes_memWordAt hw h.within, Nat.div_add_mod']

theorem access_write (h : s.Grants a) (hop : a.op = .write) (hok : a.size = 8 ∨ a.ecc = .clean ∧ a.addr / 8 * 8 ∉ s.mem.bad)
    (hq : a.addr / 8 * 8 < queueBase ∨ queueBase + 0x200000 ≤ a.addr / 8 * 8) :
    s.access a = (s.upMem (memStore (leBytes a.size (a.data % 2 ^ (8 * a.size))) a.addr), .done 0) := by
  rw [access_granted h, memAccess_write hop hok, putBytes_of_no_portA h.portA hq, Nat.div_add_mod']

theorem access_cas (h : s.Grants a) (hop : a.op = .cas) (he : a.ecc = .clean) (hb : a.addr / 8 * 8 ∉ s.mem.bad)
    (hq : a.addr / 8 * 8 < queueBase ∨ queueBase + 0x200000 ≤ a.addr / 8 * 8) :
    s.access a = (if s.memWordAt (a.addr / 8 * 8) = a.expected % 2 ^ 64
        then s.upMem (memWriteN · (a.addr / 8 * 8) 8 (a.data % 2 ^ 64)) else s, .done (s.memWordAt (a.addr / 8 * 8))) := by
  rw [access_granted h, he, memAccess_cas hop hb, putBytes_of_no_portA h.portA hq, h.portA, h.cas hop]
  rfl

end granted

/-- Settles O47: an access is split into words, each word passes the decoder and its gate, and the memory behind a gate that grants
it answers. -/
theorem accessesActOnTheirWords : Obligations.AccessesActOnTheirWords := by
  unfold Obligations.AccessesActOnTheirWords
  refine ⟨fun t a s h => fabricAccess_asleep h, fun t a s h => ⟨fun hop hw => fabricAccess_busError h (access_cas_misplaced hop hw),
    fun _ hin hcas => ⟨fun hg => ?_, fun g reason rule hg hr => ?_, fun g hg h12 hr hp w hw => ?_⟩, fun hop hs _ n hn => ?_⟩,
    fun w s => ?_, fun g addr master rule reason priv write size s hlen => ?_⟩
  · exact fabricAccess_busError h ((access_within_word hin hcas).trans (wordAccess_unmapped hg))
  · exact fabricAccess_busError h ((access_within_word hin hcas).trans (wordAccess_refused hg hr))
  · have grants : (s.arrive t).Grants a := ⟨hin, hcas, ⟨g, hg, h12, hr⟩, hp⟩
    subst hw
    refine ⟨fun hop hb => ?_, fun hop he hb hlo => ?_, fun hop he hb hlo => ?_, fun hop hok hq hwf => ?_, fun hop he hb halign hq => ?_⟩
    · exact fabricAccess_busError h ((access_granted grants).trans (memAccess_uncorrectable hp hop hb))
    · exact fabricAccess_done h (access_read_clean grants hop he hb hlo)
    · exact fabricAccess_done h (access_read_single grants hop he hb hlo)
    · refine ⟨_, fabricAccess_done h (access_write grants hop hok hq), ?_, memRead_store_in hwf, fun b hb => ?_, fun h8 => ?_⟩
      · exact ((upMem_keeps _ _ (memStore_wf _ _)).mono (by decide)).frame
      · exact memRead_store_out _ _ _ _ (by rwa [leBytes_length])
      · have haligned : a.addr / 8 * 8 = a.addr := by omega
        rw [haligned]
        exact memStore_word_sound _ (by rw [leBytes_length, h8])
    · have e := access_cas grants hop he hb hq
      refine ⟨fun hne => ?_, fun heq => ?_⟩
      · rw [if_neg hne] at e
        exact fabricAccess_done h e
      · rw [if_pos heq] at e
        exact fabricAccess_done h e
  · have e := access_across_words (s := s.arrive t) hop hs hn
    refine ⟨fun u hu => ?_, fun u lo hu => ⟨fun v hv => ?_, fun v hi hv => ?_⟩⟩
    · rw [hu] at e
      exact fabricAccess_busError h e
    · rw [hu] at e
      dsimp only at e
      rw [State.upperHalf, hv] at e
      exact fabricAccess_busError h e
    · rw [hu] at e
      dsimp only at e
      rw [State.upperHalf, hv] at e
      exact fabricAccess_done h e
  · exact ⟨uncorrectable_mower w s, uncorrectable_marks s, (uncorrectable_keeps w s).frame, fun _ => uncorrectable_memRead w s⟩
  · rw [violation_gate]
    exact ⟨getD_setAt_self _ _ _ _ hlen, rfl, List.mem_cons_self⟩

end Sys2Proof.Machine

/-! Proofs of the statements about tamper, the clock check and the watchdog (O42). -/

namespace Sys2Proof.Machine

/-! ## Tamper (08 R188, 12 R287) -/

section tamper

variable {s : State}

/-- The claim's fall comes first and leaves what the wipe then reads and keeps. -/
theorem dropClaim_tamperWipe_keeps (k : Nat) (s : State) :
    (s.dropClaim.tamperWipe k).power = s.power ∧ (s.dropClaim.tamperWipe k).boot = s.boot ∧
    (s.dropClaim.tamperWipe k).pair = s.dropClaim.pair := by
  obtain ⟨_, _, _, _, _, _, _, _, hpower, hpair, hboot⟩ := tamperWipe_f k s.dropClaim
  obtain ⟨_, _, hpower', hboot', _⟩ := dropClaim_f s
  exact ⟨hpower.trans hpower', hboot.trans hboot', hpair⟩

theorem tampered_unpowered (k : Nat) (h : s.unpowered = true) :
    s.tampered k = if s.boot.lingKept then s.upBoot fun b => { b with tamperLatched := some k } else s := by
  unfold State.tampered; rw [if_pos h]

/-- In BOOT and in a retire the mode stays (08 Table 8.2). -/
theorem tampered_of_boot_or_retiring (k : Nat) (h : s.unpowered = false) (hm : s.power.mode = 1 ∨ s.boot.retiring = true) :
    s.tampered k = (s.dropClaim.tamperWipe k).stayMode 4 := by
  obtain ⟨hpower, hboot, _⟩ := dropClaim_tamperWipe_keeps k s
  unfold State.tampered
  rw [if_neg (by simp [h])]
  dsimp only
  rw [if_pos (by simpa [hpower, hboot] using hm)]

/-- MAINTENANCE stays, and a module that is BLANK after the wipe opens debug there (12 R291). -/
theorem tampered_of_maintenance (k : Nat) (h : s.unpowered = false) (hm : s.power.mode = 2) (hr : s.boot.retiring = false) :
    s.tampered k = if ((s.dropClaim.tamperWipe k).stayMode 4).sec.lifecycle = 0
      then ((s.dropClaim.tamperWipe k).stayMode 4).openDebug none else (s.dropClaim.tamperWipe k).stayMode 4 := by
  obtain ⟨hpower, hboot, _⟩ := dropClaim_tamperWipe_keeps k s
  unfold State.tampered
  rw [if_neg (by simp [h])]
  dsimp only
  rw [if_neg (by simp [hpower, hboot, hm, hr]), if_pos (by rw [hpower, hm])]

/-- Every other mode ends in SAFE HOLD. -/
theorem tampered_of_other_mode (k : Nat) (h : s.unpowered = false) (h1 : s.power.mode ≠ 1) (h2 : s.power.mode ≠ 2)
    (hr : s.boot.retiring = false) : s.tampered k = (s.dropClaim.tamperWipe k).cancelStart.safeHold 4 := by
  obtain ⟨hpower, hboot, _⟩ := dropClaim_tamperWipe_keeps k s
  unfold State.tampered
  rw [if_neg (by simp [h])]
  dsimp only
  rw [if_neg (by simp [hpower, hboot, h1, hr]), if_neg (by rw [hpower]; exact h2)]

/-- Where a powered module goes after the wipe: the wiped state with no more than its record, its debug or its control changed. -/
theorem tampered_after_wipe (k : Nat) (h : s.unpowered = false) :
    (s.tampered k).sec = (s.dropClaim.tamperWipe k).sec ∧ (s.tampered k).pair.ownClaim = false := by
  obtain ⟨_, _, hpair⟩ := dropClaim_tamperWipe_keeps k s
  obtain ⟨hclaim, _⟩ := dropClaim_f s
  have stays := (stayMode_keeps 4 (s.dropClaim.tamperWipe k)).frame
  have hsec : ((s.dropClaim.tamperWipe k).stayMode 4).sec = _ := stays .sec (by decide)
  have hpair' : ((s.dropClaim.tamperWipe k).stayMode 4).pair = _ := stays .pair (by decide)
  by_cases hm : s.power.mode = 1 ∨ s.boot.retiring = true
  · rw [tampered_of_boot_or_retiring k h hm]
    exact ⟨hsec, by rw [hpair', hpair, hclaim]⟩
  · obtain ⟨h1, hr⟩ : s.power.mode ≠ 1 ∧ s.boot.retiring = false := by simpa using hm
    by_cases h2 : s.power.mode = 2
    · rw [tampered_of_maintenance k h h2 hr]
      split
      · have opens := (openDebug_keeps none ((s.dropClaim.tamperWipe k).stayMode 4)).frame
        exact ⟨(opens .sec (by decide)).trans hsec, by rw [opens .pair (by decide), hpair', hpair, hclaim]⟩
      · exact ⟨hsec, by rw [hpair', hpair, hclaim]⟩
    · rw [tampered_of_other_mode k h h1 h2 hr]
      obtain ⟨_, _, _, hown, _⟩ := safeHold_f 4 (s.dropClaim.tamperWipe k).cancelStart
      exact ⟨((safeHold_keeps 4 _).frame .sec (by decide)).trans ((cancelStart_keeps _).frame .sec (by decide)), hown⟩

/-- The wipe of R287: keys and sealed record gone, BLANK or DECOMMISSIONED, and the reason counted. -/
theorem tampered_wipes (k : Nat) (h : s.unpowered = false) :
    (s.tampered k).sec.serverKey = [] ∧ (s.tampered k).sec.cfgKeys = [] ∧ (s.tampered k).sec.sheafKeys = [] ∧
    (s.tampered k).sec.sealedRec = false ∧ (s.tampered k).sec.lifecycle = (if s.sec.fuse = true then 3 else 0) ∧
    (s.tampered k).sec.wipeReason = k ∧ (s.tampered k).sec.wipes = inc32 s.sec.wipes := by
  obtain ⟨hserver, hcfg, hsheaf, hsealed, hlife, hreason, hwipes, _⟩ := tamperWipe_f k s.dropClaim
  have hsec : s.dropClaim.sec = s.sec := (dropClaim_keeps s).frame .sec (by decide)
  rw [(tampered_after_wipe k h).1]
  exact ⟨hserver, hcfg, hsheaf, hsealed, by rw [hlife, hsec], hreason, by rw [hwipes, hsec]⟩

theorem tampered_enters_safeHold (k : Nat) (h : s.unpowered = false) (h3 : 3 ≤ s.power.mode) (hr : s.boot.retiring = false) :
    (s.tampered k).power.mode = 7 ∧ (s.tampered k).power.reason = 4 ∧ (s.tampered k).pair.owner = false := by
  rw [tampered_of_other_mode k h (by omega) (by omega) hr]
  obtain ⟨hmode, hreason, howner, _⟩ := safeHold_f 4 (s.dropClaim.tamperWipe k).cancelStart
  exact ⟨hmode, hreason, howner⟩

theorem openDebug_opens (mb : Option Nat) (hm : s.power.mode = 2) : (s.openDebug mb).gate.debugOpen = true := by
  unfold State.openDebug
  split
  · rename_i hopen
    simpa [hm] using hopen
  · dsimp only
    rw [rec_gate]
    rfl

theorem tampered_keeps_maintenance (k : Nat) (h : s.unpowered = false) (hm : s.power.mode = 2) (hr : s.boot.retiring = false) :
    (s.tampered k).power.mode = 2 ∧ (s.sec.fuse = false → (s.tampered k).gate.debugOpen = true) := by
  obtain ⟨hpower, _, _⟩ := dropClaim_tamperWipe_keeps k s
  obtain ⟨_, _, _, _, hlife, _⟩ := tamperWipe_f k s.dropClaim
  have stays := (stayMode_keeps 4 (s.dropClaim.tamperWipe k)).frame
  have hpower' : ((s.dropClaim.tamperWipe k).stayMode 4).power = s.power := (stays .power (by decide)).trans hpower
  have hsec : ((s.dropClaim.tamperWipe k).stayMode 4).sec = _ := stays .sec (by decide)
  have hfuse : s.dropClaim.sec = s.sec := (dropClaim_keeps s).frame .sec (by decide)
  rw [tampered_of_maintenance k h hm hr, hsec, hlife, hfuse]
  generalize (s.dropClaim.tamperWipe k).stayMode 4 = w at *
  have hmode : w.power.mode = 2 := by rw [hpower', hm]
  have hdebug : (w.openDebug none).power = w.power := (openDebug_keeps none w).frame .power (by decide)
  cases hf : s.sec.fuse with
  | false => exact ⟨hdebug ▸ hmode, fun _ => openDebug_opens none hmode⟩
  | true => exact ⟨hmode, fun h => absurd h (by decide)⟩

theorem tampered_keeps_power (k : Nat) (h : s.unpowered = false) (hm : s.power.mode = 1 ∨ s.boot.retiring = true) :
    (s.tampered k).power = s.power := by
  rw [tampered_of_boot_or_retiring k h hm]
  exact ((stayMode_keeps 4 _).frame .power (by decide)).trans (dropClaim_tamperWipe_keeps k s).1

end tamper

/-! ## The clock check (01 R11) -/

section clock

variable {cycles : Nat} {s : State}

theorem clockWindow_good (h : 12475000 ≤ cycles) (h' : cycles ≤ 12525000) :
    s.clockWindow cycles = s.upBoot fun b => { b with clockBad := 0 } := by
  have hgood : (decide (12525000 < cycles) || decide (cycles < 12475000)) = false := by simp; omega
  simp [State.clockWindow, hgood]

theorem clockWindow_bad (h : cycles < 12475000 ∨ 12525000 < cycles) :
    s.clockWindow cycles = if s.boot.clockBad = 0 then s.upBoot fun b => { b with clockBad := b.clockBad + 1 }
      else (s.upBoot fun b => { b with clockBad := 0 }).tampered 4 := by
  have hbad : (decide (12525000 < cycles) || decide (cycles < 12475000)) = true := by simp; omega
  have hfirst : s.boot.clockBad + 1 < 2 ↔ s.boot.clockBad = 0 := by omega
  simp [State.clockWindow, hbad, hfirst]

end clock

/-! ## The watchdog (01 R9) -/

section watchdog

theorem service_of_no_record {s : State} (h : s.boot.watchdogRecord = none) :
    s.service = s.upBoot fun b => { b with watchdogAt := s.time.now } := by
  simp [State.service, h]

/-- The steward after its reset by the watchdog, before Table 8.2 decides the mode. -/
def State.stewardReset (s : State) : State :=
  (s.dropClaim.upBoot fun b => { b with hung := false, watchdogAt := s.time.now, watchdogRecord := some s.tb3ns }).upSheaf
    fun h => { h with healthBroken := true, healthPassed := false }

/-- Outside BOOT: a retire goes on, MAINTENANCE stays, and any other mode ends in SAFE HOLD (Table 8.2). -/
def State.stewardResetMode (s : State) : State :=
  if s.boot.retiring then s else if s.power.mode = 2 then s.stayMode 3 else s.cancelStart.safeHold 3

theorem stewardReset_power (s : State) : s.stewardReset.power = s.power := (dropClaim_keeps s).frame .power (by decide)

theorem watchdogFires_eq (s : State) :
    s.watchdogFires = if s.power.mode = 1 then s.stewardReset.startBoot 2 3 s.power.released
      else s.stewardReset.stewardResetMode.trialBoot.upSheaf fun h => { h with healthBroken := true, healthPassed := false } := by
  rw [← stewardReset_power s]
  rfl

theorem stewardReset_retiring (s : State) : s.stewardReset.boot.retiring = s.boot.retiring := by
  have hboot : s.dropClaim.boot = s.boot := (dropClaim_keeps s).frame .boot (by decide)
  show s.dropClaim.boot.retiring = _
  rw [hboot]

/-- The expiry's instant is kept for the steward to record. -/
theorem stewardReset_watchdogRecord (s : State) : s.stewardReset.boot.watchdogRecord = some s.tb3ns := rfl

theorem cancelStart_watchdogRecord (s : State) : s.cancelStart.boot.watchdogRecord = s.boot.watchdogRecord := by
  unfold State.cancelStart
  split
  · rfl
  · obtain ⟨_, _, _, hboot, _⟩ := dropClaim_f ((s.upBoot fun b => { b with waiting := false }).upPair fun p => { p with termOpen := false })
    rw [hboot]
    rfl

theorem stewardResetMode_watchdogRecord (s : State) : s.stewardResetMode.boot.watchdogRecord = s.boot.watchdogRecord := by
  unfold State.stewardResetMode
  split
  · rfl
  · split
    · rw [(stayMode_keeps 3 s).frame .boot (by decide)]
    · rw [(safeHold_keeps 3 _).frame .boot (by decide), cancelStart_watchdogRecord]

theorem stewardResetMode_maintenance {s : State} (h : s.power.mode = 2) : s.stewardResetMode.power.mode = 2 := by
  unfold State.stewardResetMode
  split
  · exact h
  · rw [(stayMode_keeps 3 s).frame .power (by decide), h]

theorem stewardResetMode_enters_safeHold {s : State} (h : 3 ≤ s.power.mode) (hr : s.boot.retiring = false) :
    s.stewardResetMode.power.mode = 7 ∧ s.stewardResetMode.power.reason = 3 ∧ s.stewardResetMode.pair.owner = false ∧
    s.stewardResetMode.pair.ownClaim = false := by
  unfold State.stewardResetMode
  rw [if_neg (by simp [hr]), if_neg (by omega)]
  obtain ⟨hmode, hreason, howner, hclaim, _⟩ := safeHold_f 3 s.cancelStart
  exact ⟨hmode, hreason, howner, hclaim⟩

theorem watchdogFires_in_boot {s : State} (h : s.power.mode = 1) : s.watchdogFires.power.mode = 1 ∧ s.watchdogFires.power.bootKind = 2 := by
  rw [watchdogFires_eq, if_pos h]
  obtain ⟨hmode, hkind, _⟩ := startBoot_f 2 3 s.power.released s.stewardReset
  exact ⟨hmode, hkind⟩

/-- Outside BOOT the further start of the boot ROM (13 R305) keeps what Table 8.2 decided. -/
theorem watchdogFires_outside_boot {s : State} (h : s.power.mode ≠ 1) :
    s.watchdogFires.power = s.stewardReset.stewardResetMode.power ∧ s.watchdogFires.pair = s.stewardReset.stewardResetMode.pair ∧
    s.watchdogFires.sheaf.healthBroken = true ∧ s.watchdogFires.boot.watchdogRecord = some s.tb3ns := by
  rw [watchdogFires_eq, if_neg h]
  obtain ⟨hpower, hpair, hrecord⟩ := trialBoot_f s.stewardReset.stewardResetMode
  exact ⟨hpower, hpair, rfl, hrecord.trans ((stewardResetMode_watchdogRecord _).trans (stewardReset_watchdogRecord s))⟩

end watchdog

/-- Settles O42: the wipe comes first and nothing after it writes the secure state; the mode then follows Table 8.2. -/
theorem tamperAndWatchdog : Obligations.TamperAndWatchdog := by
  unfold Obligations.TamperAndWatchdog
  refine ⟨fun t k s => ⟨fun h hl => ?_, fun h hl => ?_, fun _ => ⟨_, rfl, rfl⟩⟩, fun k s h => ?_, fun t s h => ?_, fun t cycles s h => ?_,
    fun t s h => ⟨fun hh hn => ?_, fun hd => ?_⟩⟩
  · rw [exec_tamper, execTamper, happens_of rfl, tampered_unpowered _ h, if_pos hl]
  · rw [exec_tamper, execTamper, happens_of rfl, tampered_unpowered _ h, if_neg (by simp [hl])]
  · obtain ⟨hserver, hcfg, hsheaf, hsealed, hlife, hreason, hwipes⟩ := tampered_wipes k h
    exact ⟨hserver, hcfg, hsheaf, hsealed, hlife, hreason, hwipes, (tampered_after_wipe k h).2, fun h3 _ => tampered_enters_safeHold k h h3,
      tampered_keeps_maintenance k h, tampered_keeps_power k h⟩
  · rw [exec_pllLossOfLock, execPllLossOfLock, happens_of (by simp [h])]
  · rw [exec_clockCheckWindow, execClockCheckWindow, happens_of (by simp [h])]
    refine ⟨fun hlo hhi => by rw [clockWindow_good hlo hhi], fun hbad => ⟨fun h0 => ?_, fun h0 => ?_⟩⟩
    · rw [clockWindow_bad hbad, if_pos h0]
    · rw [clockWindow_bad hbad, if_neg (by omega)]
  · rw [exec_watchdogService, execWatchdogService, happens_of (by simp [h, hh]), service_of_no_record hn]
  · refine ⟨(s.arrive t).watchdogFires, ?_, watchdogFires_in_boot, fun h2 => ?_, fun h3 hr => ?_, fun h1 => ?_⟩
    · rw [exec_watchdogExpiry, execWatchdogExpiry, happens_of (by simpa [h] using hd)]
    · rw [(watchdogFires_outside_boot (by omega)).1]
      exact stewardResetMode_maintenance (by rw [stewardReset_power, h2])
    · obtain ⟨hpower, hpair, _⟩ := watchdogFires_outside_boot (s := s.arrive t) (by omega)
      rw [hpower, hpair]
      exact stewardResetMode_enters_safeHold (by rwa [stewardReset_power]) (by rw [stewardReset_retiring, hr])
    · obtain ⟨_, _, hhealth, hrecord⟩ := watchdogFires_outside_boot h1
      exact ⟨hhealth, hrecord⟩

end Sys2Proof.Machine

/-! Proofs of the statements about points and the image: entries and their quality, the commands on points and time, and the counters
of the blocks (O21, O22, O36, O52). -/

namespace Sys2Proof.Machine

/-! ## Entries of the image (02 R18–R21, Table 2.2) -/

section entries

variable {g : Img} {h k : Nat} {e : Word64} {s : State}

theorem imgWord_toNat (hq : g.quality < 256) (ha : g.age < 65536) : (imgWord g).toNat = g.value.toNat * 2 ^ 32 + g.quality * 2 ^ 24 +
    b2n g.forced * 2 ^ 23 + b2n g.simulated * 2 ^ 22 + b2n g.changed * 2 ^ 21 + b2n g.stamped * 2 ^ 20 + b2n g.held * 2 ^ 19 +
    b2n g.pend * 2 ^ 18 + b2n g.timed * 2 ^ 17 + g.age := by
  have flag_le (x : Bool) : b2n x ≤ 1 := by cases x <;> decide
  have := g.value.isLt
  have := flag_le g.forced
  have := flag_le g.simulated
  have := flag_le g.changed
  have := flag_le g.stamped
  have := flag_le g.held
  have := flag_le g.pend
  have := flag_le g.timed
  rw [imgWord, BitVec.toNat_ofNat, Nat.mod_eq_of_lt hq, Nat.mod_eq_of_lt ha, Nat.mod_eq_of_lt (by omega)]

theorem img_setImage_ne (hh : h ≤ 0x5FFFFF) (hk : k ≠ h) : (s.setImage h e).img k = s.img k :=
  congrArg imgOf (image_setImage_ne h k e s (by omega) hk)

theorem memRead_setImage_out (a : Nat) (ha : a < 8 * h ∨ 8 * h + 8 ≤ a) : memRead (s.setImage h e).mem a = memRead s.mem a :=
  memRead_store_out _ _ _ _ (by rwa [leBytes_length])

theorem memRead_setImage_in (w : Memory.wf s.mem = true) (i : Nat) (hi : i < 8) :
    memRead (s.setImage h e).mem (8 * h + i) = BitVec.ofNat 8 (e.toNat / 256 ^ i) := by
  have hread := memRead_store_in (addr := 8 * h) (d := e.toNat) w i hi
  rwa [Nat.mod_eq_of_lt e.isLt] at hread

theorem setImage_frame : Frame [.cache, .mem] s (s.setImage h e) := ((setImage_keeps h e s).mono (by decide)).frame

/-- A handle whose rule has kind 0 shows the entry of R19, whatever its word holds. -/
theorem image_of_kind_zero (hk : ruleKind (s.ruleOf h) = 0) : s.image h = unusedEntry := by
  rw [kind_div] at hk
  rw [State.image, if_pos hk]

theorem imgOf_unusedEntry : (imgOf unusedEntry).quality = 0x86 ∧ (imgOf unusedEntry).age = 0xFFFF ∧ (imgOf unusedEntry).value = 0 := by decide

end entries

/-- Settles O21: an entry is one stored word, and imgOf takes apart what imgWord put together. -/
theorem imageEntriesReadBack : Obligations.ImageEntriesReadBack := by
  unfold Obligations.ImageEntriesReadBack
  refine ⟨fun h g s w hh hk hq ha => ?_, fun g => imgWord_toNat, fun h s hk => ?_, fun h f s w hh hk => upImg_self h f s w hh hk⟩
  · exact ⟨img_self h g s w hh hk hq ha, fun k => img_setImage_ne hh, fun k => ruleOf_setImage h k _ s (by omega), memRead_setImage_out,
      memRead_setImage_in w, setImage_frame⟩
  · have himg : s.img h = imgOf unusedEntry := congrArg imgOf (image_of_kind_zero hk)
    rw [himg]
    exact ⟨image_of_kind_zero hk, imgOf_unusedEntry⟩

/-! ## Quality (02 R22, R38–R41, Table 2.10) -/

section quality

variable {g : Img} {h q : Nat} {v same : Word} {s : State}

theorem good_of_free (hf : g.forced = false) (hs : g.simulated = false) (st : Bool) :
    g.good v st same = { g with value := v, quality := 0, age := 0, held := false, changed := v != same, stamped := st } := by
  simp [Img.good, hf, hs]

/-- A value for a point under a force or a simulation is discarded (R41). -/
theorem good_of_overridden (ho : g.forced = true ∨ g.simulated = true) (st : Bool) :
    g.good v st same = { g with age := 0, changed := g.value != same, stamped := false } :=
  if_pos (by simpa using ho)

theorem bad_of_free (hf : g.forced = false) (hs : g.simulated = false) :
    g.bad q same = { g with quality := q, age := ageUp g.age, held := true, changed := g.value != same, stamped := false } := by
  simp [Img.bad, hf, hs]

theorem bad_of_overridden (ho : g.forced = true ∨ g.simulated = true) :
    g.bad q same = { g with age := ageUp g.age, changed := g.value != same, stamped := false } :=
  if_pos (by simpa using ho)

theorem bad_value_age : (g.bad q same).value = g.value ∧ (g.bad q same).age = ageUp g.age := by
  unfold Img.bad
  split <;> exact ⟨rfl, rfl⟩

theorem withQuality_of_forced (hf : g.forced = true) : (g.withQuality q).quality = 1 := if_pos hf

theorem withQuality_of_simulated (hf : g.forced = false) (hs : g.simulated = true) : (g.withQuality q).quality = 2 := by
  simp [Img.withQuality, hf, hs]

theorem withQuality_of_free (hf : g.forced = false) (hs : g.simulated = false) : (g.withQuality q).quality = q := by
  simp [Img.withQuality, hf, hs]

theorem withQuality_lt (hq : q < 256) : (g.withQuality q).quality < 256 := by
  unfold Img.withQuality
  dsimp only
  split_ifs <;> omega

theorem statusAllowed_iff : statusAllowed q = true ↔ q = 0 ∨ (0x81 ≤ q ∧ q ≤ 0x85) ∨ q = 0x87 := by
  simp [statusAllowed, or_assoc]

/-- The acknowledged value is the one that the next WRITE would carry: the point is current (R22). -/
theorem ackOutput_current (w : Memory.wf s.mem = true) (hh : h ≤ 0x5FFFFF) (hk : ruleKind (s.ruleOf h) ≠ 0) (hv : v = s.carriedValue h) :
    (s.ackOutput h v).img h = ({ s.img h with held := false, pend := false, age := 0 } : Img).withQuality 0 := by
  rw [State.ackOutput, if_pos hv]
  exact upImg_self h _ s w hh hk (withQuality_lt (by decide)) (show 0 < 65536 by decide)

/-- The value has changed since it was sent: the acknowledgement only ends HELD. -/
theorem ackOutput_outdated (w : Memory.wf s.mem = true) (hh : h ≤ 0x5FFFFF) (hk : ruleKind (s.ruleOf h) ≠ 0) (hv : v ≠ s.carriedValue h) :
    (s.ackOutput h v).img h = { s.img h with held := false } := by
  rw [State.ackOutput, if_neg hv]
  exact upImg_self h _ s w hh hk (img_bounds s h).1 (img_bounds s h).2

end quality

/-- Settles O22: one case of each row for a free point and one for a point under a force or a simulation. -/
theorem qualityFollowsTable210 : Obligations.QualityFollowsTable210 := by
  unfold Obligations.QualityFollowsTable210
  refine ⟨fun g v same st hf hs => good_of_free hf hs st, fun g v same st ho => ?_, fun g q same => ?_, fun g limit same => ?_, fun g limit => ?_,
    fun g q => ⟨withQuality_of_forced, withQuality_of_simulated, withQuality_of_free⟩, fun g => rfl, fun init => rfl, fun q => ?_,
    fun h v s w hh hk => ⟨ackOutput_current w hh hk, ackOutput_outdated w hh hk⟩⟩
  · rw [good_of_overridden ho]
    exact ⟨rfl, rfl, rfl⟩
  · obtain ⟨hvalue, hage⟩ := bad_value_age (g := g) (q := q) (same := same)
    refine ⟨hvalue, hage, fun hf hs => ?_, fun ho => ?_⟩
    · rw [bad_of_free hf hs]
      exact ⟨rfl, rfl⟩
    · rw [bad_of_overridden ho]
  · exact ⟨rfl, rfl, rfl, fun hf hs => withQuality_of_free hf hs⟩
  · exact ⟨rfl, rfl, rfl, rfl, fun hf hs => withQuality_of_free hf hs⟩
  · rw [statusQuality]
    simp only [statusAllowed_iff]

/-! ## A write of CLR_COUNTERS (11 R265 and the block tables) -/

section counters

variable {i : Instr} {t b w : Nat} {h : Hdr} {s : State} {ps : List Part} {clear : State → State} {q : State → State → Prop}

/-- An ENGINEER may write 1 to a word that holds CLR_COUNTERS, alone or beside other bits. -/
theorem wordCheck_of_clear {mb : Nat} {o : Nat → Option Nat} (h3 : 3 ≤ s.rights mb)
    (hw : clrWords.contains (b, w) = true ∨ (b, w) ∈ [(0x07, 0x30), (0x09, 0x40), (0x0D, 0x90)]) : s.wordCheck mb b w 1 o = none := by
  have role : roleCheck s mb 3 = none := if_neg (by omega)
  rcases hw with hw | hw
  · unfold State.wordCheck
    rw [if_pos hw, clrCheck, role]
    rfl
  · simp only [List.mem_cons, List.not_mem_nil, or_false, Prod.mk.injEq] at hw
    rcases hw with ⟨rfl, rfl⟩ | ⟨rfl, rfl⟩ | ⟨rfl, rfl⟩ <;> rw [State.wordCheck, if_neg (by decide)] <;>
      simp [role, firstOf, rangeCheck, bits, bit, Nat.testBit_succ]

/-- A write of 1 to CLR_COUNTERS answers OK, and its effect is that of the word. -/
theorem clrCounters_answers (he : exec i s = writeField t h b w 1 s) (ha : (s.arrive t).accepts paramWriteCmd (writeReq h b w [1#32]))
    (h3 : 3 ≤ (s.arrive t).rights h.mb) (hw : clrWords.contains (b, w) = true ∨ (b, w) ∈ [(0x07, 0x30), (0x09, 0x40), (0x0D, 0x90)])
    (hclear : ∀ u : State, u.writeWord h.mb b w 1 = clear u) (hkeeps : ∀ u, Keeps ps u (clear u)) (hq : ∀ u, q u (clear u))
    (hb : b < 65536 := by decide) (hw32 : w < 2 ^ 32 := by decide) (hr : rangeOk b 1 w = true := by decide) :
    Answers i t s paramWriteCmd (writeReq h b w [1#32]) ps fun u st data v => st = 0 ∧ data = [] ∧ q u v := by
  refine wf_ans he ha hb hw32 (by decide) hr (fun o => wordCheck_of_clear (by rwa [take_rights]) hw) ?_ ⟨rfl, rfl, ?_⟩
  · rw [hclear]
    exact (hkeeps _).frame
  · rw [hclear]
    exact hq _

theorem markReenable_zero (s : State) : s.markReenable 0 = s := by
  rw [State.markReenable, State.upLock, mapFrom_id _ _ _ fun n c => by simp [bit]]

theorem writeWord_clearLock (mb : Nat) (s : State) : s.writeWord mb 0x07 0x30 1 = s.clearLock := markReenable_zero s.clearLock

end counters

/-- Settles O36: each block's word passes its check for an ENGINEER, and its bit 0 is the block's clearing alone. -/
theorem countersAreCleared : Obligations.CountersAreCleared := by
  unfold Obligations.CountersAreCleared
  refine fun t h s h3 => ⟨fun ha => ?pair, fun ha => ?points, fun ha => ?cycle, fun ha => ?sched, fun ha => ?time, fun ha => ?lock, fun ha => ?mem,
    fun ha => ?gate, fun ha => ?sheaf, fun ha => ?dio, fun ha => ?ua, fun ha => ?can, fun ha => ?rec, fun ha => ?disp, fun ha => ?power⟩
  case pair => exact clrCounters_answers rfl ha h3 (.inl (by decide)) (fun _ => rfl) clearPair_keeps fun _ => rfl
  case points => exact clrCounters_answers rfl ha h3 (.inl (by decide)) (fun _ => rfl) clearPoints_keeps fun _ => rfl
  case cycle => exact clrCounters_answers rfl ha h3 (.inl (by decide)) (fun _ => rfl) clearCycle_keeps fun _ => ⟨rfl, rfl⟩
  case sched => exact clrCounters_answers rfl ha h3 (.inl (by decide)) (fun _ => rfl) clearSched_keeps fun _ => rfl
  case time => exact clrCounters_answers rfl ha h3 (.inl (by decide)) (fun _ => rfl) clearTime_keeps fun _ => rfl
  case lock =>
    exact clrCounters_answers rfl ha h3 (.inr (by decide)) (writeWord_clearLock h.mb) clearLock_keeps
      fun _ => ⟨rfl, rfl, rfl, rfl, rfl, rfl, rfl, rfl, rfl, rfl⟩
  case mem => exact clrCounters_answers rfl ha h3 (.inl (by decide)) (fun _ => rfl) clearMem_keeps fun _ => rfl
  case gate => exact clrCounters_answers rfl ha h3 (.inr (by decide)) (fun _ => rfl) clearGate_keeps fun _ => rfl
  case sheaf => exact clrCounters_answers rfl ha h3 (.inl (by decide)) (fun _ => rfl) Keeps.refl fun _ => rfl
  case dio => exact clrCounters_answers rfl ha h3 (.inl (by decide)) (fun _ => rfl) clearDio_keeps fun _ => rfl
  case ua => exact clrCounters_answers rfl ha h3 (.inl (by decide)) (fun _ => rfl) clearUa_keeps fun _ => rfl
  case can => exact clrCounters_answers rfl ha h3 (.inr (by decide)) (fun _ => rfl) clearCan_keeps fun _ => rfl
  case rec => exact clrCounters_answers rfl ha h3 (.inl (by decide)) (fun _ => rfl) clearRec_keeps fun _ => rfl
  case disp => exact clrCounters_answers rfl ha h3 (.inl (by decide)) (fun _ => rfl) clearDisp_keeps fun _ => rfl
  case power => exact clrCounters_answers rfl ha h3 (.inl (by decide)) (fun _ => rfl) clearPower_keeps fun _ => rfl

/-! ## POINT_READ and POINT_BROWSE (02 R16; 11 Table 11.6) -/

/-- Some check refuses where what the checks ask for does not hold. -/
theorem exists_check_fails {checks : List (State → Option Nat)} {s : State} {p : Prop} (hp : (∀ f ∈ checks, f s = none) ↔ p) (h : ¬p) :
    ∃ f, f ∈ checks ∧ f s ≠ none := by
  have hfail := mt hp.1 h
  push Not at hfail
  exact hfail

theorem handleOk_iff (h : Nat) : handleOk h = true ↔ 1 ≤ h ∧ h ≤ 0x5FFFFF := by simp [handleOk]

section read

variable {r : Req} {s : State}

/-- The handles that a `POINT_READ` names. -/
def readHandles (r : Req) : List Nat := (List.range (field r.payload 0 2)).map fun i => field r.payload (4 + 4 * i) 4

/-- What `POINT_READ` asks of its operands. -/
def Readable (r : Req) : Prop :=
  1 ≤ field r.payload 0 2 ∧ field r.payload 0 2 ≤ 256 ∧ field r.payload 2 1 < 2 ∧ zeros r.payload 3 1 = true ∧
    ∀ h, h ∈ readHandles r → 1 ≤ h ∧ h ≤ 0x5FFFFF

/-- The checks of `POINT_READ`. -/
def readChecks (r : Req) : List (State → Option Nat) :=
  [need (fun _ => decide (1 ≤ field r.payload 0 2) && decide (field r.payload 0 2 ≤ 256)) stRange,
   need (fun _ => decide (field r.payload 2 1 < 2)) stRange, reserved r.payload 3 1, need (fun _ => (readHandles r).all handleOk) stRange]

theorem readChecks_pass_iff : (∀ f ∈ readChecks r, f s = none) ↔ Readable r := by
  simp [readChecks, Readable, need_iff, reserved_iff, handleOk_iff, and_assoc]

theorem readChecks_status : ∀ f ∈ readChecks r, f s = none ∨ f s = some stRange := by
  simp [readChecks, need_or, reserved_or]

/-- The response of `POINT_READ`: the entries, each with its slot where the request asks for slots. -/
def State.readBytes (s : State) (r : Req) : List Byte :=
  (readHandles r).flatMap fun h => leBytes 8 (s.image h).toNat ++ if bit (field r.payload 2 1) 0 then s.slotTail h else []

theorem pointRead_eq : pointRead r s = guarded (readChecks r) (fun s => reply stOk (s.readBytes r) s) s := rfl

theorem pointRead_ok (h : Readable r) : pointRead r s = (s, some (stOk, s.readBytes r)) := by
  rw [pointRead_eq, guarded_ok (readChecks_pass_iff.2 h), reply]

theorem pointRead_refused (h : ¬Readable r) : pointRead r s = (s, some (stRange, [])) := by
  rw [pointRead_eq, guarded_bad readChecks_status (exists_check_fails readChecks_pass_iff h)]

/-- What `POINT_BROWSE` asks of its operands. -/
def Browsable (r : Req) : Prop :=
  (field r.payload 0 4 = 0xFFFFFF ∨ 1 ≤ field r.payload 0 4 ∧ field r.payload 0 4 ≤ 0x5FFFFF) ∧ 1 ≤ field r.payload 4 2 ∧
    field r.payload 4 2 ≤ 4096 ∧ field r.payload 6 1 < 4 ∧ zeros r.payload 7 1 = true

/-- The checks of `POINT_BROWSE`. -/
def browseChecks (r : Req) : List (State → Option Nat) :=
  [need (fun _ => field r.payload 0 4 == 0xFFFFFF || handleOk (field r.payload 0 4)) stRange,
   need (fun _ => decide (1 ≤ field r.payload 4 2) && decide (field r.payload 4 2 ≤ 4096)) stRange,
   need (fun _ => decide (field r.payload 6 1 < 4)) stRange, reserved r.payload 7 1]

theorem browseChecks_pass_iff : (∀ f ∈ browseChecks r, f s = none) ↔ Browsable r := by
  simp [browseChecks, Browsable, need_iff, reserved_iff, handleOk_iff, and_assoc]

theorem browseChecks_status : ∀ f ∈ browseChecks r, f s = none ∨ f s = some stRange := by
  simp [browseChecks, need_or, reserved_or]

/-- The response of `POINT_BROWSE` over the points that pass: how many follow, the first beyond them, and each with its rule and entry. -/
def State.browseBytes (s : State) (all : List PointRec) (n : Nat) : List Byte :=
  leBytes 2 (all.take n).length ++ leBytes 2 0 ++ leBytes 4 (match (all.drop n).head? with | some p => p.handle | none => 0) ++
    (all.take n).flatMap fun p => leBytes 4 p.handle ++ leBytes 8 (s.ruleOf p.handle).toNat ++ leBytes 8 (s.image p.handle).toNat ++ leBytes 4 0

/-- The points that a `POINT_BROWSE` walks over. -/
def State.browsed (s : State) (r : Req) : List PointRec :=
  s.browse (if field r.payload 0 4 = 0xFFFFFF then 1 else field r.payload 0 4) (field r.payload 6 1)

theorem pointBrowse_eq :
    pointBrowse r s = guarded (browseChecks r) (fun s => reply stOk (s.browseBytes (s.browsed r) (field r.payload 4 2)) s) s := rfl

theorem pointBrowse_ok (h : Browsable r) : pointBrowse r s = (s, some (stOk, s.browseBytes (s.browsed r) (field r.payload 4 2))) := by
  rw [pointBrowse_eq, guarded_ok (browseChecks_pass_iff.2 h), reply]

theorem pointBrowse_refused (h : ¬Browsable r) : pointBrowse r s = (s, some (stRange, [])) := by
  rw [pointBrowse_eq, guarded_bad browseChecks_status (exists_check_fails browseChecks_pass_iff h)]

end read

/-! ## POINT_FORCE and POINT_RELEASE (02 R41, R42) -/

section force

variable {r : Req} {h mode session : Nat} {x : Word} {s w : State}

/-- What `POINT_FORCE` asks of its operands, before room in the force table. -/
def State.Forcible (s : State) (r : Req) : Prop :=
  1 ≤ field r.payload 0 4 ∧ field r.payload 0 4 ≤ 0x5FFFFF ∧ s.declared (field r.payload 0 4) = true ∧ field r.payload 4 1 < 2 ∧
    zeros r.payload 5 3 = true ∧ ruleKind (s.ruleOf (field r.payload 0 4)) ≠ 8 ∧ ruleKind (s.ruleOf (field r.payload 0 4)) ≠ 9

/-- The checks of `POINT_FORCE` on its operands. -/
def forceChecks (r : Req) : List (State → Option Nat) :=
  [need (fun s => handleOk (field r.payload 0 4) && s.declared (field r.payload 0 4)) stRange,
   need (fun _ => decide (field r.payload 4 1 < 2)) stRange, reserved r.payload 5 3,
   need (fun s => ruleKind (s.ruleOf (field r.payload 0 4)) != 8 && ruleKind (s.ruleOf (field r.payload 0 4)) != 9) stRange]

/-- A handle has its place in the force table already, or the table has room. -/
def State.forceRoom (s : State) (h : Nat) : Bool := (s.pts.force h).isSome || decide (s.pts.forces.length < 65536)

theorem forceRoom_false_iff : s.forceRoom h = false ↔ s.pts.force h = none ∧ 65536 ≤ s.pts.forces.length := by
  simp [State.forceRoom]

theorem forceChecks_pass_iff : (∀ f ∈ forceChecks r, f s = none) ↔ s.Forcible r := by
  simp [forceChecks, State.Forcible, need_iff, reserved_iff, handleOk_iff, and_assoc]

theorem forceChecks_status : ∀ f ∈ forceChecks r, f s = none ∨ f s = some stRange := by
  simp [forceChecks, need_or, reserved_or]

theorem pointForce_eq : pointForce r s = guarded (forceChecks r ++ [need (fun s => s.forceRoom (field r.payload 0 4)) stCapacity])
    (fun s => reply stOk [] (s.force (field r.payload 0 4) (field r.payload 4 1) (BitVec.ofNat 32 (field r.payload 8 4)) r.session)) s := rfl

theorem pointForce_refused (hf : ¬s.Forcible r) : pointForce r s = (s, some (stRange, [])) := by
  rw [pointForce_eq]
  exact guarded_bad_append forceChecks_status (exists_check_fails forceChecks_pass_iff hf)

theorem pointForce_full (hf : s.Forcible r) (hroom : s.forceRoom (field r.payload 0 4) = false) : pointForce r s = (s, some (stCapacity, [])) := by
  rw [pointForce_eq, guarded_append (forceChecks_pass_iff.2 hf), guarded_first (need_no hroom)]

theorem pointForce_ok (hf : s.Forcible r) (hroom : s.forceRoom (field r.payload 0 4) = true) :
    pointForce r s = (s.force (field r.payload 0 4) (field r.payload 4 1) (BitVec.ofNat 32 (field r.payload 8 4)) r.session, some (stOk, [])) := by
  rw [pointForce_eq, guarded_append (forceChecks_pass_iff.2 hf), guarded_pass (need_ok hroom), guarded_nil, reply]

/-- Only the values kept for CHANGED differ. -/
theorem keepBefore_eq (h : Nat) (s : State) : ∃ b, s.keepBefore h = s.upPts fun p => { p with before := b } := by
  unfold State.keepBefore
  split
  · exact ⟨s.pts.before, rfl⟩
  · exact ⟨_, rfl⟩

theorem record_pts (type : Nat) (qs : List (Nat × Nat)) (s : State) : (s.record type qs).pts = s.pts :=
  (record_keeps type qs s).frame .pts (by decide)

/-- A force takes the handle's place in the table, after its timed actions are cancelled. -/
theorem force_forces (hw : w = s.cancelHandle h 6) : (s.force h mode x session).pts.forces =
    { handle := h, mode := mode, value := if mode = 1 ∧ ruleIsOut (w.ruleOf h) = true then w.frozenValue h else x, session := session } ::
      w.pts.forces.filter fun f => f.handle != h := by
  subst hw
  obtain ⟨b, hb⟩ := keepBefore_eq h (s.cancelHandle h 6)
  unfold State.force
  dsimp only
  rw [record_pts, hb]
  simp only [Bool.and_eq_true, decide_eq_true_eq]
  rfl

theorem force_img (hw : w = s.cancelHandle h 6) (hm : mode < 2) (hh : h ≤ 0x5FFFFF) (wf : Memory.wf w.mem = true)
    (hk : ruleKind (w.ruleOf h) ≠ 0) :
    (s.force h mode x session).img h = { w.img h with value := x, forced := mode == 0, simulated := mode == 1, quality := mode + 1 } := by
  subst hw
  obtain ⟨b, hb⟩ := keepBefore_eq h (s.cancelHandle h 6)
  unfold State.force
  dsimp only
  rw [(rec_imgOf _ _ _ _ hh).1, hb]
  exact upImg_self h _ (((s.cancelHandle h 6).upPts _).upPts _) wf hh hk (show mode + 1 < 256 by omega) (img_bounds (s.cancelHandle h 6) h).2

theorem release_of_unforced (hf : s.pts.force h = none) : s.release session h = s := by
  rw [State.release, if_pos (by simp [hf])]

theorem release_forces (hf : s.pts.force h ≠ none) : (s.release session h).pts.forces = s.pts.forces.filter fun f => f.handle != h := by
  rw [State.release, if_neg (by simpa using hf)]
  exact congrArg PointSt.forces (record_pts ..)

/-- Release of every handle of the force table. -/
def State.releaseAll (session : Nat) (s : State) : State := (s.pts.forces.map fun f => f.handle).foldl (fun x k => x.release session k) s

theorem releaseAll_keeps (session : Nat) (s : State) : Keeps [.cache, .mem, .out, .pts, .fsp, .sched, .log] s (s.releaseAll session) :=
  Keeps.foldl (Keeps.refl s) (fun u k => release_keeps session k u) _

/-- `POINT_RELEASE` names every handle, or a declared one. -/
def State.releasable (s : State) (h : Nat) : Bool := h == 0xFFFFFF || (handleOk h && s.declared h)

theorem releasable_of_one (hall : h ≠ 0xFFFFFF) : s.releasable h = true ↔ 1 ≤ h ∧ h ≤ 0x5FFFFF ∧ s.declared h = true := by
  simp [State.releasable, handleOk_iff, hall, and_assoc]

theorem pointRelease_eq : pointRelease r s = guarded [need (fun s => s.releasable (field r.payload 0 4)) stRange]
    (fun s => reply stOk [] (if field r.payload 0 4 = 0xFFFFFF then s.releaseAll r.session else s.release r.session (field r.payload 0 4))) s := rfl

theorem pointRelease_refused (hno : s.releasable (field r.payload 0 4) = false) : pointRelease r s = (s, some (stRange, [])) := by
  rw [pointRelease_eq, guarded_first (need_no hno)]

theorem pointRelease_one (hall : field r.payload 0 4 ≠ 0xFFFFFF) (hok : s.releasable (field r.payload 0 4) = true) :
    pointRelease r s = (s.release r.session (field r.payload 0 4), some (stOk, [])) := by
  rw [pointRelease_eq, guarded_pass (need_ok hok), guarded_nil, if_neg hall, reply]

theorem pointRelease_all (hall : field r.payload 0 4 = 0xFFFFFF) : pointRelease r s = (s.releaseAll r.session, some (stOk, [])) := by
  rw [pointRelease_eq, guarded_pass (need_ok (by simp [State.releasable, hall])), guarded_nil, if_pos hall, reply]

end force

/-! ## TIME_STATUS and TIME_STEP (06 R131; 11 Table 11.6) -/

section time

variable {r : Req} {s : State}

/-- What `TIME_STEP` asks of its operands. -/
def Steppable (r : Req) : Prop :=
  field r.payload 0 1 < 2 ∧ field r.payload 1 1 < 2 ∧ zeros r.payload 2 2 = true ∧ (field r.payload 1 1 = 1 ∨ zeros r.payload 4 14 = true) ∧
    field r.payload 6 4 < 1000000000 ∧ zeros r.payload 18 2 = true

/-- The checks of `TIME_STEP` on its operands. -/
def stepChecks (r : Req) : List (State → Option Nat) :=
  [need (fun _ => decide (field r.payload 0 1 < 2)) stRange, need (fun _ => decide (field r.payload 1 1 < 2)) stRange, reserved r.payload 2 2,
   need (fun _ => field r.payload 1 1 == 1 || zeros r.payload 4 14) stRange, need (fun _ => decide (field r.payload 6 4 < 1000000000)) stRange,
   reserved r.payload 18 2]

theorem stepChecks_pass_iff : (∀ f ∈ stepChecks r, f s = none) ↔ Steppable r := by
  simp [stepChecks, Steppable, need_iff, reserved_iff]

theorem stepChecks_status : ∀ f ∈ stepChecks r, f s = none ∨ f s = some stRange := by
  simp [stepChecks, need_or, reserved_or]

/-- A base that a foreign grandmaster disciplines is not stepped by hand. -/
def State.stepFree (s : State) (r : Req) : Bool := field r.payload 1 1 == 0 || (s.base (field r.payload 0 1)).foreign.isNone

theorem stepFree_of_step (ha : field r.payload 1 1 = 1) (hforeign : (s.base (field r.payload 0 1)).foreign ≠ none) : s.stepFree r = false := by
  simp [State.stepFree, ha, Option.isSome_iff_ne_none, hforeign]

theorem timeStep_eq : timeStep r s = guarded (stepChecks r ++ [need (fun s => s.stepFree r) stConflict])
    (fun s => reply stOk [] (if field r.payload 1 1 = 0 then s.reacquire (field r.payload 0 1)
      else s.stepBase (field r.payload 0 1) (fineOfFull (slice r.payload 4 14) * 2 ^ 32))) s := rfl

theorem timeStep_refused (hs : ¬Steppable r) : timeStep r s = (s, some (stRange, [])) := by
  rw [timeStep_eq]
  exact guarded_bad_append stepChecks_status (exists_check_fails stepChecks_pass_iff hs)

theorem timeStep_conflict (hs : Steppable r) (hfree : s.stepFree r = false) : timeStep r s = (s, some (stConflict, [])) := by
  rw [timeStep_eq, guarded_append (stepChecks_pass_iff.2 hs), guarded_first (need_no hfree)]

theorem timeStep_reacquires (hs : Steppable r) (ha : field r.payload 1 1 = 0) : timeStep r s = (s.reacquire (field r.payload 0 1), some (stOk, [])) := by
  rw [timeStep_eq, guarded_append (stepChecks_pass_iff.2 hs), guarded_pass (need_ok (by simp [State.stepFree, ha])), guarded_nil, if_pos ha]
  rfl

theorem timeStep_steps (hs : Steppable r) (ha : field r.payload 1 1 = 1) (hfree : (s.base (field r.payload 0 1)).foreign = none) :
    timeStep r s = (s.stepBase (field r.payload 0 1) (fineOfFull (slice r.payload 4 14) * 2 ^ 32), some (stOk, [])) := by
  rw [timeStep_eq, guarded_append (stepChecks_pass_iff.2 hs), guarded_pass (need_ok (by simp [State.stepFree, hfree])), guarded_nil,
    if_neg (by omega)]
  rfl

theorem flatMap_range_four {α : Type} (f : Nat → List α) : (List.range 4).flatMap f = f 0 ++ f 1 ++ f 2 ++ f 3 := by
  simp [List.range_succ]

end time

/-- Settles O52: each command's checks decide its status, and past them its body is one operation on points or on a base. -/
theorem pointsAndTimeAreCommanded : Obligations.PointsAndTimeAreCommanded := by
  unfold Obligations.PointsAndTimeAreCommanded
  refine ⟨?read, ?browse, ?force, ?release, fun session h s => ⟨release_of_unforced, fun hf => ⟨release_forces hf, release_img s h session hf⟩⟩,
    ?status, ?step⟩
  case read =>
    rintro t r s ha _ _ rfl rfl
    by_cases hr : Readable r
    · refine answers_run rfl ha ⟨_, _, _, pointRead_ok hr, Frame.rfl_, rfl,
        fun _ _ _ _ _ => ⟨rfl, fun h0 => ?_, fun h1 => ?_⟩, fun hno => absurd hr hno⟩
      · simp [h0, bit, State.readBytes, readHandles]
      · simp [h1, bit, State.readBytes, readHandles]
    · exact answers_run rfl ha ⟨_, _, _, pointRead_refused hr, Frame.rfl_, rfl, fun h1 h2 h3 h4 h5 => absurd ⟨h1, h2, h3, h4, h5⟩ hr,
        fun _ => ⟨rfl, rfl⟩⟩
  case browse =>
    rintro t r s ha _ _ _ rfl rfl rfl
    by_cases hb : Browsable r
    · refine answers_run rfl ha ⟨_, _, _, pointBrowse_ok hb, Frame.rfl_, rfl, fun hno => absurd hb hno, fun _ _ _ _ _ => ⟨rfl, ?_⟩⟩
      rintro _ rfl
      rfl
    · exact answers_run rfl ha ⟨_, _, _, pointBrowse_refused hb, Frame.rfl_, rfl, fun _ => ⟨rfl, rfl⟩,
        fun h1 h2 h3 h4 h5 => absurd ⟨h1, h2, h3, h4, h5⟩ hb⟩
  case force =>
    rintro t r s _ rfl ha _ _ _ rfl rfl rfl
    by_cases hf : ((s.arrive t).take r).Forcible r
    · cases hroom : ((s.arrive t).take r).forceRoom (field r.payload 0 4) with
      | false =>
        refine answers_run rfl ha ⟨_, _, _, pointForce_full hf hroom, Frame.rfl_, rfl, fun hno => absurd hf hno, fun _ _ _ _ _ _ _ =>
          ⟨fun _ _ => ⟨rfl, rfl⟩, fun hsome => ?_⟩⟩
        exact absurd (by simpa [State.forceRoom] using hsome) (ne_true_of_eq_false hroom)
      | true =>
        refine answers_run rfl ha ⟨_, _, _, pointForce_ok hf hroom, (force_keeps ..).frame, rfl, fun hno => absurd hf hno,
          fun _ h2 _ hm _ _ _ => ⟨fun hn hl => ?_, fun _ => ⟨rfl, fun w hw => ⟨force_forces hw, force_img hw hm h2⟩⟩⟩⟩
        exact absurd (forceRoom_false_iff.2 ⟨hn, hl⟩) (by simp [hroom])
    · exact answers_run rfl ha ⟨_, _, _, pointForce_refused hf, Frame.rfl_, rfl, fun _ => ⟨rfl, rfl⟩,
        fun h1 h2 h3 h4 h5 h6 h7 => absurd ⟨h1, h2, h3, h4, h5, h6, h7⟩ hf⟩
  case release =>
    rintro t r s _ rfl ha _ rfl
    by_cases hall : field r.payload 0 4 = 0xFFFFFF
    · exact answers_run rfl ha ⟨_, _, _, pointRelease_all hall, (releaseAll_keeps ..).frame, rfl, fun hne => absurd hall hne,
        fun _ h2 => absurd h2 (by omega), fun _ => ⟨rfl, rfl⟩⟩
    · have hone := releasable_of_one (s := (s.arrive t).take r) hall
      cases hok : ((s.arrive t).take r).releasable (field r.payload 0 4) with
      | true =>
        exact answers_run rfl ha ⟨_, _, _, pointRelease_one hall hok, (release_keeps ..).frame, rfl, fun _ hno => absurd (hone.1 hok) hno,
          fun _ _ _ => ⟨rfl, rfl⟩, fun h => absurd h hall⟩
      | false =>
        exact answers_run rfl ha ⟨_, _, _, pointRelease_refused hok, Frame.rfl_, rfl, fun _ _ => ⟨rfl, rfl⟩,
          fun h1 h2 h3 => absurd (hone.2 ⟨h1, h2, h3⟩) (ne_true_of_eq_false hok), fun h => absurd h hall⟩
  case status =>
    intro t r s ha
    refine answers_run rfl ha ⟨_, _, _, rfl, (timeStatus_keeps _).frame, rfl, rfl, ?_⟩
    rw [flatMap_range_four]
  case step =>
    rintro t r s _ rfl ha _ _ rfl rfl
    by_cases hs : Steppable r
    · by_cases h0 : field r.payload 1 1 = 0
      · obtain ⟨hst, hstepped, hacc⟩ := reacquire_base (field r.payload 0 1) ((s.arrive t).take r)
        exact answers_run rfl ha ⟨_, _, _, timeStep_reacquires hs h0, (reacquire_keeps ..).frame, rfl, fun hno => absurd hs hno,
          fun _ _ _ _ _ _ => ⟨fun _ => ⟨rfl, hst, hstepped, hacc⟩, fun h1 => absurd h1 (by omega), fun h1 => absurd h1 (by omega)⟩⟩
      · have h1 : field r.payload 1 1 = 1 := by
          have := hs.2.1
          omega
        by_cases hfree : (((s.arrive t).take r).base (field r.payload 0 1)).foreign = none
        · obtain ⟨hacc, hstepped, hsteps⟩ := stepBase_base (field r.payload 0 1) (fineOfFull (slice r.payload 4 14) * 2 ^ 32) ((s.arrive t).take r)
          exact answers_run rfl ha ⟨_, _, _, timeStep_steps hs h1 hfree, (stepBase_keeps ..).frame, rfl,
            fun hno => absurd hs hno,
            fun _ _ _ _ _ _ => ⟨fun h => absurd h h0, fun _ hn => absurd hfree hn, fun _ _ => ⟨rfl, hacc, hstepped, hsteps⟩⟩⟩
        · exact answers_run rfl ha ⟨_, _, _, timeStep_conflict hs (stepFree_of_step h1 hfree), Frame.rfl_, rfl, fun hno => absurd hs hno,
            fun _ _ _ _ _ _ => ⟨fun h => absurd h h0, fun _ _ => ⟨rfl, rfl⟩, fun _ hn => absurd hn hfree⟩⟩
    · exact answers_run rfl ha ⟨_, _, _, timeStep_refused hs, Frame.rfl_, rfl, fun _ => ⟨rfl, rfl⟩,
        fun h1 h2 h3 h4 h5 h6 => absurd ⟨h1, h2, h3, h4, h5, h6⟩ hs⟩

end Sys2Proof.Machine

/-! Proofs of the statements about cycles and transactions: a cycle from its start over issue, completion and retry to publication,
tasks and outputs (O56). -/

namespace Sys2Proof.Machine

/-! ## A class through the operations of a cycle -/

section classes

variable {x y : Nat} {s v : State} {c d : ClassSt} {f : ClassSt → ClassSt}

theorem setCl_self (hx : x < s.cyc.cls.length) : (s.setCl x f).cl x = f (s.cl x) := by
  rw [setCl_cl, if_pos ⟨rfl, hx⟩]

theorem cl_of_cyc (h : v.cyc = s.cyc) (x : Nat) : v.cl x = s.cl x := cl_of (congrArg CycleSt.cls h) x

theorem applyAt_of (hcyc : v.cyc = s.cyc) (hcfg : v.cfg = s.cfg) (x : Nat) : v.applyAt x = s.applyAt x := by
  simp only [State.applyAt, State.classRec, State.conf, cl_of_cyc hcyc, hcfg]

/-- Fields of a class that issuing leaves. -/
theorem fields_of_core (h : coreOf c = coreOf d) :
    c.cycle = d.cycle ∧ c.t0 = d.t0 ∧ c.phase = d.phase ∧ c.pubWord = d.pubWord ∧ c.done = d.done ∧ c.written = d.written :=
  ⟨(congrArg ClassSt.cycle h :), (congrArg ClassSt.t0 h :), (congrArg ClassSt.phase h :), (congrArg ClassSt.pubWord h :),
    (congrArg ClassSt.done h :), (congrArg ClassSt.written h :)⟩

theorem pump_done : ((s.pump x).cl y).done = (s.cl y).done := (congrArg ClassSt.done (pump_core x y s).1 :)

theorem pump_completed : (s.pump x).cyc.completed = s.cyc.completed := by rw [(pump_core x x s).2]

theorem completeItems_cyc (items : List (Nat × Nat × List Word)) (s : State) :
    (items.foldl (fun s i => s.completeItem i) s).cyc = s.cyc :=
  foldl_cyc State.cyc (fun s i => s.completeItem i) (fun z i => item_cyc i z) items s

theorem sentValues_cyc (l : List (Nat × Word)) (s : State) : (l.foldl (fun s p => s.sentValue p.1 p.2) s).cyc = s.cyc := by
  induction l generalizing s with
  | nil => rfl
  | cons p l ih => rw [List.foldl_cons, ih, sent_cyc]

theorem ackOutputs_cyc (l : List (Nat × Word)) (s : State) : (l.foldl (fun s p => s.ackOutput p.1 p.2) s).cyc = s.cyc :=
  foldl_cyc State.cyc (fun s p => s.ackOutput p.1 p.2) (fun z p => ack_cyc p.1 p.2 z) l s

theorem latchLocal_cl (prev : Nat) (hx : x < s.cyc.cls.length) : ∃ l, (s.latchLocal x prev).cl x = { s.cl x with localDone := l } := by
  obtain ⟨l, hl⟩ := latchLocal_core x prev s
  refine ⟨l (s.cl x), ?_⟩
  rw [State.cl, hl, getD_setAt_self _ _ _ _ hx]
  rfl

end classes

/-! ## Start of a cycle (03 R52) -/

section start

variable {x : Nat} {s : State}

theorem startCycle_cl (hm : s.power.mode ≠ 2) (hx : x < s.cyc.cls.length) :
    ∃ l, coreOf ((s.startCycle x).cl x) = coreOf { s.cl x with
      cycle := s.tb0 / s.periodNs x, t0 := s.tb0 / s.periodNs x * s.periodNs x, phase := if s.pair.owner then 1 else 0,
      pubWord := if s.pair.owner then (2 * (s.tb0 / s.periodNs x) + 1) % 2 ^ 32 else (s.cl x).pubWord,
      done := [], localDone := l, written := false, overran := false } := by
  unfold State.startCycle
  dsimp only
  generalize hz : (if x = 0 then s.fold else s) = z
  have fz : Frame [.free, .lock] s z := by
    rw [← hz]
    exact (Keeps.ite (fold_keeps s) (Keeps.refl s)).frame
  have hcyc : z.cyc = s.cyc := fz .cyc (by decide)
  have hpower : z.power = s.power := fz .power (by decide)
  have hpair : z.pair = s.pair := fz .pair (by decide)
  have hperiod : z.periodNs x = s.periodNs x := by rw [State.periodNs, State.classRec, State.conf, fz .cfg (by decide)]; rfl
  have hz' : x < z.cyc.cls.length := hcyc ▸ hx
  rw [hpower, if_neg hm, hpair, hperiod]
  generalize hw : z.setCl x _ = w
  have hw' : x < w.cyc.cls.length := by rwa [← hw, setCl_len]
  obtain ⟨l, hl⟩ := latchLocal_cl (s.cl x).t0 hw'
  refine ⟨l, (pump_core x x _).1.trans ?_⟩
  rw [hl, ← hw, setCl_self hz', cl_of_cyc hcyc]
  rfl

end start

/-! ## Order of issue and tags (03 R54, R55) -/

section issue

variable {x tag a b c : Nat} {s : State}

/-- Not before: a shorter round trip, or the same one and an address that is not lower. -/
theorem issuedBefore_false_iff :
    s.issuedBefore b a = false ↔ s.rttPs b < s.rttPs a ∨ (s.rttPs b = s.rttPs a ∧ a ≤ b) := by
  simp only [State.issuedBefore, Bool.or_eq_false_iff, Bool.and_eq_false_iff, decide_eq_false_iff_not, beq_eq_false_iff_ne]
  omega

theorem issuedBefore_trans (h : s.issuedBefore b a = false) (k : s.issuedBefore c b = false) : s.issuedBefore c a = false := by
  rw [issuedBefore_false_iff] at *
  omega

theorem issuedBefore_asymm (h : s.issuedBefore a b = true) : s.issuedBefore b a = false := by
  rw [issuedBefore_false_iff]
  simp only [State.issuedBefore, Bool.or_eq_true, Bool.and_eq_true, decide_eq_true_eq, beq_iff_eq] at h
  omega

theorem issueOrder_perm (ts : List TransRec) (s : State) : (s.issueOrder ts).Perm (List.range ts.length) := sortBy_perm _ _

theorem issueOrder_pairwise (ts : List TransRec) (s : State) : (s.issueOrder ts).Pairwise fun i j =>
    ∀ a b, ts[i]? = some a → ts[j]? = some b → s.issuedBefore b.station a.station = false := by
  unfold State.issueOrder
  refine (sortBy_pairwise _ ?_ ?_ _).imp ?_
  · exact fun _ _ _ => issuedBefore_trans
  · exact fun _ _ => issuedBefore_asymm
  · intro i j h a b ha hb
    simpa only [ha, hb] using h

theorem freeTag_some (h : s.freeTag x = some tag) :
    s.quotaBase x ≤ tag ∧ tag < s.quotaBase x + (s.classRec x).quota ∧ ∀ f, f ∈ (s.cl x).held → f.tag ≠ tag := by
  have hm := List.mem_of_find?_eq_some h
  have hp := List.find?_some h
  simp only [List.mem_map, List.mem_range] at hm
  obtain ⟨i, hi, rfl⟩ := hm
  exact ⟨by omega, by omega, by simpa using hp⟩

theorem freeTag_none (h : ∀ tag, s.quotaBase x ≤ tag → tag < s.quotaBase x + (s.classRec x).quota → ∃ f, f ∈ (s.cl x).held ∧ f.tag = tag) :
    s.freeTag x = none := by
  refine List.find?_eq_none.2 fun tag hm => ?_
  simp only [List.mem_map, List.mem_range] at hm
  obtain ⟨i, hi, rfl⟩ := hm
  simpa using h _ (by omega) (by omega)

/-- Without a free tag the class waits, and the wait has begun. -/
theorem pump_waits (hfree : s.freeTag x = none) (hw : (s.cl x).toIssue ≠ [] ∨ (s.cl x).toWrite ≠ []) :
    s.pump x = s.setCl x fun c => { c with waitFrom := some (c.waitFrom.getD s.time.now) } := by
  obtain ⟨n, hn⟩ : ∃ n, (s.cl x).toIssue.length + (s.cl x).toWrite.length = n + 1 := by
    refine Nat.exists_eq_succ_of_ne_zero ?_
    rcases hw with h | h <;> simp [h]
  have hsome : ¬((s.cl x).toIssue.isEmpty && (s.cl x).toWrite.isEmpty) = true := by
    simp only [Bool.and_eq_true, List.isEmpty_iff, not_and_or]
    exact hw
  rw [State.pump, hn, State.issue]
  dsimp only
  rw [if_neg hsome, hfree]

end issue

/-! ## Frames and completions while a change set is written (10 R236) -/

section held

variable {t : Nat} {d : HeldDone} {k : State → State} {f : RxFrame} {s : State}

theorem heldBack_open (h : s.cfg.windowOpen = true) : s.heldBack d k = s.upCfg fun c => { c with heldFrames := c.heldFrames ++ [d] } :=
  if_pos h

theorem heldBack_closed (h : s.cfg.windowOpen = false) : s.heldBack d k = k s := if_neg (by simp [h])

theorem exec_readRsp_heard (h : (s.arrive t).hears f = true) :
    exec (.readRsp t f) s = .next ((s.arrive t).heldBack (.frame f) (State.receive 2 State.readRsp f)) :=
  (exec_readRsp ..).trans (happens_of h)

theorem exec_writeAck_heard (h : (s.arrive t).hears f = true) :
    exec (.writeAck t f) s = .next ((s.arrive t).heldBack (.frame f) (State.receive 4 State.writeAck f)) :=
  (exec_writeAck ..).trans (happens_of h)

theorem exec_localCompletion_driven {o st : Nat} {item : List Word}
    (h : (s.arrive t).pair.owner = true ∨ (s.arrive t).power.mode = 3 ∨ (s.arrive t).power.mode = 4) :
    exec (.localCompletion t o st item) s =
      .next ((s.arrive t).heldBack (.channel o st item) (State.localCompletion o st item)) :=
  (exec_localCompletion ..).trans (happens_of (by simpa [State.followsOwner] using h))

/-- A local channel for which no class waits changes nothing. -/
theorem localCompletion_unawaited {o st : Nat} {item : List Word}
    (h : ∀ x p, x < 4 → p ∈ s.conf.awaited x → ruleOffset p.rule ≠ o) (ho : o ≠ 15) : s.localCompletion o st item = s := by
  have hnone (x : Nat) (hx : x ∈ List.range 4) (q : PointRec → Bool) :
      (s.conf.awaited x).filter (fun p => ruleOffset p.rule == o && q p) = [] := by
    simp only [List.filter_eq_nil_iff, Bool.and_eq_true, beq_iff_eq, not_and]
    exact fun p hp heq => absurd heq (h x p (List.mem_range.1 hx) hp)
  unfold State.localCompletion
  dsimp only
  rw [if_neg ho]
  refine List.foldlRecOn (motive := fun z => z = s) (List.range 4) _ rfl ?_
  rintro z rfl x hx
  rw [hnone x hx]
  rfl

end held

/-! ## Completion (03 R56; 04 Table 4.8) -/

section completion

variable {f : Fsp} {k : State → State} {s : State} {h : Flight}

theorem checkTerm_unknown (hv : s.versionKnown f = false) : s.checkTerm f k = s.fspCount 7 := if_pos (by simp [hv])

theorem checkTerm_foreign (hv : s.versionKnown f = true) (ht : f.term ≠ s.pair.term) : s.checkTerm f k = s.fspCount 8 := by
  rw [State.checkTerm, if_neg (by simp [hv]), if_pos (by simpa using ht)]

theorem checkTerm_passed (hv : s.versionKnown f = true) (ht : f.term = s.pair.term) : s.checkTerm f k = k s := by
  rw [State.checkTerm, if_neg (by simp [hv]), if_neg (by simpa using ht)]

theorem readRsp_owner (hv : s.versionKnown f = true) (ht : f.term = s.pair.term) (ho : s.pair.owner = true) :
    s.readRsp f = s.ownRsp f := by
  rw [State.readRsp, checkTerm_passed hv ht, if_pos ho]

theorem readRsp_follower (hv : s.versionKnown f = true) (ht : f.term = s.pair.term) (ho : s.pair.owner = false)
    (hm : s.power.mode = 3 ∨ s.power.mode = 4) (hc : s.conf.version = f.cfg) : s.readRsp f = s.heardRsp f := by
  rw [State.readRsp, checkTerm_passed hv ht, if_neg (by simp [ho]), if_pos (by simpa [State.followsOwner, hc] using hm)]

/-- The class's cycle is over for a frame: its number has passed, or its epoch was published. -/
def State.lateFor (f : Fsp) (s : State) : Bool :=
  serialAfter (s.cl f.cls).cycle f.cycle || (f.cycle == (s.cl f.cls).cycle % 2 ^ 32 && (s.cl f.cls).phase != 1)

/-- The held read that a READ_RSP matches. -/
def State.readOf (f : Fsp) (s : State) : Option Flight :=
  (s.cl f.cls).held.find? fun h => !h.isWrite && h.tag == f.tag && h.station == f.station && h.cycle % 2 ^ 32 == f.cycle && h.version == f.cfg

theorem ownRsp_unmatched (hr : s.readOf f = none) : s.ownRsp f = s.dropFrame (s.lateFor f) f := by
  unfold State.readOf at hr
  simp only [State.ownRsp, hr]
  rfl

theorem ownRsp_late (hr : s.readOf f = some h) (hl : s.lateFor f = true) : s.ownRsp f = s.dropLate := by
  unfold State.readOf at hr
  unfold State.lateFor at hl
  simp only [State.ownRsp, hr]
  exact if_pos hl

theorem ownRsp_unparsed (hr : s.readOf f = some h) (hl : s.lateFor f = false) (hp : parseRsp h.ranges f.payload = none) :
    s.ownRsp f = s.fspCount 15 := by
  unfold State.readOf at hr
  unfold State.lateFor at hl
  simp only [State.ownRsp, hr, hl, hp, Bool.false_eq_true, if_false]

/-- A matched response completes its read. -/
theorem ownRsp_completes {p : List (Nat × Nat × Nat) × List Byte} {tr : TransRec} (hr : s.readOf f = some h) (hl : s.lateFor f = false)
    (hp : parseRsp h.ranges f.payload = some p) (ht : (s.conf.transOf f.cls false)[h.idx]? = some tr) (hx : f.cls < s.cyc.cls.length) :
    ((s.ownRsp f).cl f.cls).done = (s.cl f.cls).done ++ [(h.idx, if h.retried then 1 else 0)] ∧
      (s.ownRsp f).cyc.completed = doneKey f :: s.cyc.completed := by
  unfold State.readOf at hr
  unfold State.lateFor at hl
  simp only [State.ownRsp, hr, hl, hp, ht, Bool.false_eq_true, if_false]
  generalize hw : State.setCl f.cls _ s = w
  have hdone : (w.cl f.cls).done = (s.cl f.cls).done ++ [(h.idx, if h.retried then 1 else 0)] := by rw [← hw, setCl_self hx]
  have hcompleted : w.cyc.completed = s.cyc.completed := by rw [← hw]; rfl
  refine ⟨?_, ?_⟩
  · rw [pump_done, cl_of_cyc (completeItems_cyc _ _)]
    exact hdone
  · rw [pump_completed, completeItems_cyc]
    exact congrArg (doneKey f :: ·) hcompleted

theorem dropFrame_late : s.dropFrame true f = s.upCyc fun c => { c with lateDrops := inc32 c.lateDrops } := rfl

theorem dropFrame_oldCfg (hc : f.cfg ≠ s.conf.version) :
    s.dropFrame false f = s.upCyc fun c => { c with oldCfgDrops := inc32 c.oldCfgDrops } := by
  simp [State.dropFrame, hc]

theorem dropFrame_duplicate (hc : f.cfg = s.conf.version) (hd : doneKey f ∈ s.cyc.completed) :
    s.dropFrame false f = s.upCyc fun c => { c with dupDrops := inc32 c.dupDrops } := by
  simp [State.dropFrame, hc, hd]

theorem dropFrame_unmatched (hc : f.cfg = s.conf.version) (hd : doneKey f ∉ s.cyc.completed) :
    s.dropFrame false f = s.upCyc fun c => { c with unmatched := inc32 c.unmatched } := by
  simp [State.dropFrame, hc, hd, State.dropUnmatched]

end completion

/-! ## Retries (03 R57, R64) -/

section retry

variable {t tag : Nat} {write : Bool} {f : Flight} {s : State}

theorem flightOn_isWrite (h : s.flightOn tag write = some f) : f.isWrite = write := by
  have hp := List.find?_some h
  simp only [Bool.and_eq_true, beq_iff_eq] at hp
  exact hp.2

theorem mayRetry_iff : s.mayRetry f = true ↔ f.retried = false ∧ f.issued + psTicks (s.rttPs f.station) ≤ s.time.now ∧
    (f.isWrite = true → (s.cl f.cls).toWrite = []) ∧ (f.isWrite = false → (s.cl f.cls).toIssue = []) := by
  cases hw : f.isWrite <;> simp [State.mayRetry, hw, and_assoc]

theorem markRetry_retries : (s.markRetry f).cyc.retries = inc32 s.cyc.retries := rfl

theorem exec_readRetryTimeout_owner (h : (s.arrive t).pair.owner = true) :
    exec (.readRetryTimeout t tag) s = .next ((s.arrive t).retryRead tag) := (exec_readRetryTimeout ..).trans (happens_of h)

theorem exec_writeRetryTimeout_owner (h : (s.arrive t).pair.owner = true) :
    exec (.writeRetryTimeout t tag) s = .next ((s.arrive t).retryWrite tag) := (exec_writeRetryTimeout ..).trans (happens_of h)

theorem retryRead_idle (h : s.flightOn tag false = none) : s.retryRead tag = s := by rw [State.retryRead, h]

theorem retryWrite_idle (h : s.flightOn tag true = none) : s.retryWrite tag = s := by rw [State.retryWrite, h]

theorem retryRead_refused (h : s.flightOn tag false = some f)
    (hno : ¬(s.mayRetry f = true ∧ s.tb0 + psNs (s.rttPs f.station) ≤ s.deadline f.cls)) : s.retryRead tag = s := by
  rw [State.retryRead, h]
  exact if_neg (by simpa using hno)

theorem retryRead_repeats (h : s.flightOn tag false = some f) (hm : s.mayRetry f = true)
    (hd : s.tb0 + psNs (s.rttPs f.station) ≤ s.deadline f.cls) : (s.retryRead tag).cyc.retries = inc32 s.cyc.retries := by
  rw [State.retryRead, h]
  dsimp only
  rw [if_pos (by simp [hm, hd]), toStation_cyc, markRetry_retries]

theorem retryWrite_refused (h : s.flightOn tag true = some f)
    (hno : ¬(s.mayRetry f = true ∧ s.tb0 + s.leadInNs f.station ≤ f.apply)) : s.retryWrite tag = s := by
  rw [State.retryWrite, h]
  exact if_neg (by simpa using hno)

theorem retryWrite_repeats (h : s.flightOn tag true = some f) (hm : s.mayRetry f = true)
    (hd : s.tb0 + s.leadInNs f.station ≤ f.apply) : (s.retryWrite tag).cyc.retries = inc32 s.cyc.retries := by
  rw [State.retryWrite, h]
  dsimp only
  rw [if_pos (by simp [hm, hd]), sendWrite_cyc, markRetry_retries]

end retry

/-! ## Publication and tasks (03 R59, R60, R63, R65) -/

section publication

variable {x : Nat} {s w : State}

theorem publish_eq (hw : w = (s.publishEpoch x).releaseTasks x) :
    s.publish x = if w.pair.owner && !(w.cl x).tasks then w.tw x else w := by
  rw [hw, State.publish]

theorem publishEpoch_cl (hx : x < s.cyc.cls.length) : ∃ load peak, (s.publishEpoch x).cl x = { s.cl x with
    phase := 2, pubWord := 2 * (s.cl x).cycle % 2 ^ 32, held := [], toIssue := [], toWrite := [], waitFrom := none, unsent := [],
    cycleNo := (s.cl x).cycle % 2 ^ 32, loadLast := load, loadPeak := peak, missingLast := (s.missingReads x).length,
    deadlinePubs := if (s.missingReads x).isEmpty then (s.cl x).deadlinePubs else inc32 (s.cl x).deadlinePubs,
    unacked := add32 (s.cl x).unacked ((s.unackedWrites x).length + s.withheldOf x) } := by
  unfold State.publishEpoch
  dsimp only
  rw [cl_of (answerReads_cls x _), cl_of_cyc (seePeers_cyc x _)]
  generalize hz : State.countApps _ _ = z
  have hcyc : z.cyc = s.cyc := by
    rw [← hz, apps_cyc, foldl_cyc State.cyc _ fun z h => fail_cyc h _ z, foldl_cyc State.cyc _ fun z h => miss_cyc h z]
  have hx' : x < z.cyc.cls.length := hcyc ▸ hx
  generalize hw : z.setCl x _ = w
  rw [cl_of (v := State.upCyc _ w) (s := w) rfl, ← hw, setCl_self hx', cl_of_cyc hcyc]
  exact ⟨_, _, rfl⟩

theorem releaseTasks_free (hx : x < s.cyc.cls.length) (ht : (s.cl x).tasks = false) :
    (s.releaseTasks x).cl x = { s.cl x with tasks := s.conf.hasTasks x, skipped := false, consecSkips := 0 } := by
  rw [State.releaseTasks, if_neg (by simp [ht]), setCl_self hx]

/-- A skip that the class tolerates is counted, and the mode stays. -/
theorem skipTasks_tolerated (hx : x < s.cyc.cls.length)
    (ho : (s.classRec x).overrun = 0 ∨ (s.cl x).consecSkips + 1 < (s.classRec x).overrun) :
    (s.skipTasks x).power = s.power ∧ (s.skipTasks x).cl x =
      { s.cl x with taskSkips := inc32 (s.cl x).taskSkips, consecSkips := (s.cl x).consecSkips + 1, skipped := true } := by
  obtain ⟨hcl, hpower, hcfg⟩ := skip_f x s hx _ _ rfl
  unfold State.skipTasks State.classRec State.conf
  dsimp only
  rw [if_neg]
  · exact ⟨hpower, hcl⟩
  · rw [hcl, hcfg]
    simp only [Bool.and_eq_true, bne_iff_ne, decide_eq_true_eq]
    unfold State.classRec State.conf at ho
    omega

/-- The last skip that a class tolerates ends in SAFE HOLD. -/
theorem skipTasks_overrun (hx : x < s.cyc.cls.length) (h0 : (s.classRec x).overrun ≠ 0)
    (ho : (s.classRec x).overrun ≤ (s.cl x).consecSkips + 1) : (s.skipTasks x).power.mode = 7 ∧ (s.skipTasks x).power.reason = 7 := by
  obtain ⟨hcl, hpower, hcfg⟩ := skip_f x s hx _ _ rfl
  unfold State.skipTasks State.classRec State.conf
  dsimp only
  rw [if_pos]
  · exact ⟨(safeHold_f 7 _).1, (safeHold_f 7 _).2.1⟩
  · rw [hcl, hcfg]
    simp only [Bool.and_eq_true, bne_iff_ne, decide_eq_true_eq]
    exact ⟨h0, ho⟩

theorem releaseTasks_busy (ht : (s.cl x).tasks = true) : s.releaseTasks x = s.skipTasks x := by rw [State.releaseTasks, if_pos ht]

end publication

/-! ## End of a task and the output cut-off (03 R52, R62, R63) -/

section tasks

variable {t x : Nat} {d : Option Nat} {pages : List Nat} {s : State}

theorem exec_taskEnd_running (ho : (s.arrive t).pair.owner = true) (h4 : x < 4) (ht : ((s.arrive t).cl x).tasks = true) :
    exec (.taskEnd t x d pages) s = .next ((s.arrive t).endTask x d pages) :=
  (exec_taskEnd ..).trans (happens_of (by simp [ho, h4, ht]))

/-- The tasks of a class are over, and the pages that they wrote are listed. -/
def State.tasksOver (x : Nat) (pages : List Nat) (s : State) : State :=
  s.setCl x fun c => { c with tasks := false, dirty := pages.foldl (fun l a => touch a l) c.dirty }

theorem endTask_same : s.endTask x none pages =
    if ((s.fold.tasksOver x pages).cl x).phase == 2 && !((s.fold.tasksOver x pages).cl x).written then (s.fold.tasksOver x pages).tw x
    else s.fold.tasksOver x pages := by
  unfold State.endTask
  generalize s.fold = z
  rfl

theorem tasksOver_cl (hx : x < s.cyc.cls.length) :
    ((s.fold.tasksOver x pages).cl x).phase = (s.cl x).phase ∧ ((s.fold.tasksOver x pages).cl x).written = (s.cl x).written := by
  have hcyc : s.fold.cyc = s.cyc := (fold_keeps s).frame .cyc (by decide)
  rw [State.tasksOver, setCl_self (by rwa [hcyc]), cl_of_cyc hcyc]
  exact ⟨rfl, rfl⟩

/-- A class without a re-run is at its output cut-off: counted and recorded, the PEER frames and the checkpoint sent. -/
def State.cutOff (x : Nat) (s : State) : State :=
  (((s.setCl x fun c => { c with overran := true, written := true, overruns := inc32 c.overruns }).record 0x0401
    [(1, x), (4, (s.cl x).cycle)]).sendPeers x).ship x

theorem cutOff_keeps : Keeps [.cache, .out, .cnt, .cyc, .fsp, .sched, .log] s (s.cutOff x) :=
  (ship_keeps x _).chain ((sendPeers_keeps x _).chain ((record_keeps ..).chain ((setCl_keeps ..).mono (by decide))))

theorem cutOff_cl (hx : x < s.cyc.cls.length) : ∃ dirty, (s.cutOff x).cl x =
    { s.cl x with overran := true, written := true, overruns := inc32 (s.cl x).overruns, dirty := dirty } := by
  unfold State.cutOff
  generalize hz : State.sendPeers x _ = z
  obtain ⟨dirty, hd⟩ := ship_core x x z
  refine ⟨dirty, ?_⟩
  rw [hd, ← hz, cl_of_cyc ((sendPeers_keeps ..).frame .cyc (by decide)), cl_of_cyc ((record_keeps ..).frame .cyc (by decide)), setCl_self hx]

theorem overrunAt_eq (hx : x < s.cyc.cls.length) (hr : (s.cl x).rerunTo = none) : s.overrunAt x = s.cutOff x := by
  obtain ⟨dirty, hc⟩ := cutOff_cl hx
  have hnone : ((s.cutOff x).cl x).rerunTo = none := by rw [hc]; exact hr
  have e : s.overrunAt x = (s.cutOff x).afterWrite x := by
    unfold State.overrunAt State.cutOff
    dsimp only
  rw [e, State.afterWrite, hnone]

end tasks

/-! ## Outputs (03 R62; 04 R78) -/

section outputs

variable {x i : Nat} {tr : TransRec} {f : Flight} {s : State}

/-- What the WRITE built for a transaction carries of its class and configuration. -/
def State.BuiltFor (x : Nat) (tr : TransRec) (f : Flight) (s : State) : Prop :=
  f.isWrite = true ∧ f.cls = x ∧ f.station = tr.station ∧ f.cycle = (s.cl x).cycle ∧ f.version = s.conf.version ∧
    f.apply = s.applyAt x ∧ f.ranges ≠ [] ∧ f.ranges.length ≤ 8

theorem buildWrite_toWrite (hx : x < s.cyc.cls.length) (hf : f ∈ ((s.buildWrite x i tr).cl x).toWrite) :
    f ∈ (s.cl x).toWrite ∨ s.BuiltFor x tr f := by
  unfold State.buildWrite at hf
  dsimp only at hf
  generalize hz : List.foldl _ (State.countApps _ s) _ = z at hf
  have kz : Keeps [.cache, .mem, .pts] s z := by
    rw [← hz]
    exact Keeps.foldl ((countApps_keeps _ _).mono (by decide)) (fun u p => overrangeOutput_keeps _ u) _
  have hcyc : z.cyc = s.cyc := kz.frame .cyc (by decide)
  have hcfg : z.cfg = s.cfg := kz.frame .cfg (by decide)
  have hzx : x < z.cyc.cls.length := hcyc ▸ hx
  split at hf
  · exact .inl (cl_of_cyc hcyc x ▸ hf)
  next hne =>
  split at hf
  · rw [setCl_self hzx] at hf
    exact .inl (cl_of_cyc hcyc x ▸ hf)
  next hle =>
  generalize hu : List.foldl _ z _ = u at hf
  have hucyc : u.cyc = z.cyc := by
    rw [← hu, sentValues_cyc]
  rw [setCl_self (hucyc ▸ hzx), cl_of_cyc hucyc, cl_of_cyc hcyc] at hf
  rcases List.mem_append.1 hf with hold | hnew
  · exact .inl hold
  · obtain rfl := List.mem_singleton.1 hnew
    refine .inr ⟨rfl, rfl, rfl, rfl, ?_, applyAt_of hcyc hcfg x, ?_, ?_⟩
    · rw [State.conf, hcfg]
      rfl
    · simpa using hne
    · exact Nat.le_of_not_lt hle

end outputs

/-! ## WRITE_ACK (03 R64; 04 R79) -/

section ack

variable {result free : Nat} {f : Fsp} {h : Flight} {s : State}

theorem writeAck_unmatched (hv : s.versionKnown f = true) (ht : f.term = s.pair.term) (ho : s.pair.owner = true)
    (ha : s.ackedFlight f = none) : s.writeAck f =
      s.dropFrame (serialAfter (s.cl f.cls).cycle f.cycle && f.cfg == s.conf.version && !s.cyc.completed.contains (doneKey f)) f := by
  rw [State.writeAck, checkTerm_passed hv ht, if_pos ho, ha]

theorem writeAck_unparsed (hv : s.versionKnown f = true) (ht : f.term = s.pair.term) (ho : s.pair.owner = true)
    (ha : s.ackedFlight f = some h) (hp : parseAck f.payload = none) : s.writeAck f = s.fspCount 15 := by
  rw [State.writeAck, checkTerm_passed hv ht, if_pos ho, ha]
  simp only [hp]

theorem writeAck_matched (hv : s.versionKnown f = true) (ht : f.term = s.pair.term) (ho : s.pair.owner = true)
    (ha : s.ackedFlight f = some h) (hp : parseAck f.payload = some (result, free)) :
    s.writeAck f = (s.setSchedStation { s.schedStation f.station with free := free }).ackResult f h result := by
  rw [State.writeAck, checkTerm_passed hv ht, if_pos ho, ha]
  simp only [hp]

/-- ACCEPTED completes the write. -/
theorem ackResult_accepted : (s.ackResult f h 0).cyc.completed = doneKey f :: s.cyc.completed := by
  simp only [State.ackResult]
  rw [pump_completed]
  show doneKey f :: (h.carried.foldl (fun s p => s.ackOutput p.1 p.2) s).cyc.completed = _
  rw [ackOutputs_cyc]

end ack

/-- Settles O56: each command runs one operation of the transaction engine, and each operation is taken apart above. -/
theorem cyclesRunThroughTheirInstants : Obligations.CyclesRunThroughTheirInstants := by
  unfold Obligations.CyclesRunThroughTheirInstants
  refine ⟨?start, fun ts s => ⟨issueOrder_perm ts s, ?order⟩, fun x tag s => freeTag_some, fun x s hall hw => pump_waits (freeTag_none hall) hw,
    ?frames, ?readRsp, ?drop, ?channel, fun o st item s => localCompletion_unawaited, ?retry, ?publication, ?epoch, ?release, ?taskEnd, ?cutoff,
    fun x i tr s f => buildWrite_toWrite, ?ack⟩
  case start =>
    intro t x s hstart hx hm
    refine ⟨_, (exec_cycleStart ..).trans (happens_of hstart), (startCycle_keeps x _).frame, ?_⟩
    rintro _ _ rfl rfl
    obtain ⟨l, hl⟩ := startCycle_cl hm hx
    obtain ⟨hcycle, ht0, hphase, hpub, hdone, hwritten⟩ := fields_of_core hl
    refine ⟨hcycle, ht0, hdone, hwritten, fun ho => ⟨hphase.trans (if_pos ho), hpub.trans (if_pos ho)⟩, fun ho => ?_⟩
    have hno : ¬(s.arrive t).pair.owner = true := by simp [ho]
    exact ⟨hphase.trans (if_neg hno), hpub.trans (if_neg hno)⟩
  case order => exact (issueOrder_pairwise ts s).imp fun h a b ha hb => issuedBefore_false_iff.1 (h a b ha hb)
  case frames =>
    intro t f s h
    rw [exec_readRsp_heard h, exec_writeAck_heard h]
    refine ⟨fun hopen v hv => ?_, fun hclosed => ?_⟩
    · rw [heldBack_open hopen, heldBack_open hopen, hv]
      exact ⟨rfl, rfl⟩
    · rw [heldBack_closed hclosed, heldBack_closed hclosed]
      exact ⟨rfl, rfl⟩
  case readRsp =>
    refine fun f s => ⟨fun hv => ⟨checkTerm_unknown hv, checkTerm_unknown hv⟩, fun hv ht => ⟨checkTerm_foreign hv ht, checkTerm_foreign hv ht⟩,
      readRsp_follower, ?_⟩
    rintro hv ht ho _ rfl _ rfl
    rw [readRsp_owner hv ht ho]
    refine ⟨ownRsp_unmatched, fun hhit hlate => ?_, fun h => ownRsp_unparsed, fun h p tr => ownRsp_completes⟩
    obtain ⟨h, hh⟩ := Option.ne_none_iff_exists'.1 hhit
    exact ownRsp_late hh hlate
  case drop =>
    refine fun late f s => ⟨?_, ?_, ?_⟩
    · rintro rfl
      exact dropFrame_late
    · rintro rfl
      exact dropFrame_oldCfg
    · rintro rfl hc
      exact ⟨dropFrame_duplicate hc, dropFrame_unmatched hc⟩
  case channel =>
    intro t o st item s h
    rw [exec_localCompletion_driven h]
    exact ⟨fun hopen => by rw [heldBack_open hopen], fun hclosed => by rw [heldBack_closed hclosed]⟩
  case retry =>
    intro t tag s ho
    have hread := exec_readRetryTimeout_owner (tag := tag) ho
    have hwrite := exec_writeRetryTimeout_owner (tag := tag) ho
    refine ⟨fun h => hread.trans (by rw [retryRead_idle h]), fun h => hwrite.trans (by rw [retryWrite_idle h]), ?_, ?_⟩
    · rintro f hf _ rfl
      have hw := flightOn_isWrite hf
      refine ⟨fun hno => ?_, fun _ h1 h2 h3 h4 => ⟨_, hread, (retryRead_keeps ..).frame, retryRead_repeats hf ?_ h4⟩⟩
      · rw [hread, retryRead_refused hf]
        rw [mayRetry_iff]
        rintro ⟨⟨h1, h2, -, h3⟩, h4⟩
        rcases hno with h | h | ⟨h, -⟩ | h
        · simp [h] at h1
        · omega
        · exact h (h3 hw)
        · omega
      · exact mayRetry_iff.2 ⟨h1, h2, by simp [hw], fun _ => h3⟩
    · rintro f hf hw _ rfl
      refine ⟨fun hno => ?_, fun h1 h2 h3 h4 => ⟨_, hwrite, (retryWrite_keeps ..).frame, retryWrite_repeats hf ?_ h4⟩⟩
      · rw [hwrite, retryWrite_refused hf]
        rw [mayRetry_iff]
        rintro ⟨⟨h1, h2, h3, -⟩, h4⟩
        rcases hno with h | h | h | h
        · simp [h] at h1
        · omega
        · exact h (h3 hw)
        · omega
      · exact mayRetry_iff.2 ⟨h1, h2, fun _ => h3, by simp [hw]⟩
  case publication =>
    intro t x s h w hw
    rw [exec_publication, execPublication, happens_of h, publish_eq hw]
    refine ⟨fun hno => ?_, fun htasks ho => ?_⟩
    · rw [if_neg (by rcases hno with h | h <;> simp [h])]
    · rw [if_pos (by simp [htasks, ho])]
  case epoch =>
    rintro x s _ hx rfl
    obtain ⟨load, peak, hc⟩ := publishEpoch_cl hx
    rw [hc]
    exact ⟨rfl, rfl, rfl, rfl, rfl, rfl, rfl, rfl, rfl⟩
  case release =>
    rintro x s _ hx rfl
    refine ⟨fun hfree => ?_, fun hbusy => ?_⟩
    · rw [releaseTasks_free hx hfree]
      exact ⟨rfl, rfl, rfl⟩
    · rw [releaseTasks_busy hbusy]
      refine ⟨fun ho => ?_, skipTasks_overrun hx⟩
      obtain ⟨hpower, hc⟩ := skipTasks_tolerated hx ho
      rw [hpower, hc]
      exact ⟨rfl, rfl, rfl, rfl⟩
  case taskEnd =>
    rintro t x d pages s ho h4 hx htasks _ rfl
    obtain ⟨hphase, hwritten⟩ := tasksOver_cl (pages := pages) hx
    rw [exec_taskEnd_running ho h4 htasks]
    refine ⟨?_, ?_, ?_⟩
    · rintro cp rfl
      rfl
    · rintro rfl hno
      rw [endTask_same, if_neg (by rw [hphase, hwritten]; rcases hno with h | h <;> simp [h])]
      rfl
    · rintro rfl hp hwr
      rw [endTask_same, if_pos (by simp [hphase, hwritten, hp, hwr])]
      rfl
  case cutoff =>
    intro t x s h hx hr
    refine ⟨_, (exec_outputCutoff ..).trans (happens_of h), ?_⟩
    rw [overrunAt_eq hx hr]
    refine ⟨cutOff_keeps.frame, ?_⟩
    obtain ⟨dirty, hc⟩ := cutOff_cl hx
    rw [hc]
    exact ⟨rfl, rfl, rfl, rfl, rfl, rfl⟩
  case ack =>
    refine fun f s hv ht ho => ⟨fun h ha => ⟨writeAck_unparsed hv ht ho ha, ?_⟩, writeAck_unmatched hv ht ho⟩
    rintro result free _ hp rfl
    rw [writeAck_matched hv ht ho ha hp]
    refine ⟨?_, ?_, ?_, ?_⟩ <;> rintro rfl
    · rfl
    · rfl
    · rfl
    · exact ackResult_accepted

end Sys2Proof.Machine

/-! Proofs of the statements about the pair: a confirmed claim, the checkpoints that a STANDBY applies, and its synchronisation (O58). -/

namespace Sys2Proof.Machine

/-! ## A confirmed claim (07 R149, R163, R164; 10 R239) -/

section claim

variable {s : State} {f : ArmedFlip}

/-- A claim confirmed after a takeover or a handover resumes the cycles that run. -/
theorem control_resumes (h : s.pair.claimKind ≠ 0) : s.control =
    ((((List.range 4).foldl (fun z x => z.resume x) ((((if s.pair.claimKind = 1 then s.own.abandonFlip else s.own).takeBases).redispatch).upCyc
      fun c => { c with oldTags := [], oldAcks := [false, false, false, false], completed := [], waiting := [] })).select 0).select 1
        |>.pollHart 0 0).pollHart 0 1 := by
  unfold State.control
  dsimp only
  rw [if_neg h]

theorem abandonFlip_armed (h : s.cfg.armed = some f) : s.abandonFlip.cfg.armed = none ∧ s.abandonFlip.cfg.seed.valid = false ∧
    s.abandonFlip.cfg.sown = s.cfg.sown ∧ s.abandonFlip.msg = (s.endJob f.job stState []).msg := by
  rw [State.abandonFlip, h]
  exact ⟨rfl, rfl, rfl, rfl⟩

end claim

/-! ## Checkpoints received (07 R154–R156) -/

section checkpoint

variable {t i h : Nat} {c : Ckpt} {heard : Bool} {s : State}

theorem ckptComplete_iff : ckptComplete c = true ↔ c.trailerSeq = c.seq ∧ c.trailerLen = Ckpt.bytes c ∧ c.crcOk = true := by
  simp [ckptComplete, and_assoc]

theorem exec_checkpointReceived_follower (hm : (s.arrive t).power.mode = 3 ∨ (s.arrive t).power.mode = 4) (hc : c.cls < 4) :
    exec (.checkpointReceived t c) s = .next ((s.arrive t).hearCkpt c) :=
  (exec_checkpointReceived ..).trans (happens_of (by simpa [State.followsOwner, hc] using hm))

theorem hearCkpt_incomplete (h : ckptComplete c = false) : s.hearCkpt c = s := by
  rw [State.hearCkpt, if_pos (by simp [h])]

theorem hearCkpt_foreign (h : ckptComplete c = true) (hv : c.cfgVersion ≠ s.conf.version) : s.hearCkpt c = s.resync := by
  rw [State.hearCkpt, if_neg (by simp [h]), if_pos (by simpa using hv)]

theorem hearCkpt_early (h : ckptComplete c = true) (hv : c.cfgVersion = s.conf.version) (hm : s.power.mode = 3)
    (hd : s.pair.copyDone = false) : s.hearCkpt c = s.upCnt fun k => { k with early := k.early ++ [c] } := by
  rw [State.hearCkpt, if_neg (by simp [h]), if_neg (by simpa using hv), if_pos (by simp [hm, hd])]

theorem hearCkpt_applies (h : ckptComplete c = true) (hv : c.cfgVersion = s.conf.version)
    (hm : s.power.mode = 4 ∨ s.pair.copyDone = true) : s.hearCkpt c = s.applyCkpt c := by
  rw [State.hearCkpt, if_neg (by simp [h]), if_neg (by simpa using hv), if_neg (by rcases hm with h | h <;> simp [h])]

/-- A gap is a read that the checkpoint counts as completed and of which the shadow holds nothing. -/
theorem mem_gapsOf : i ∈ s.gapsOf c ↔ (∃ b, (i, b) ∈ c.reads ∧ b < 2) ∧ ∀ a, (c.cls, i, a) ∉ s.cyc.shadow := by
  have hshadow (j : Nat) : s.cyc.shadow.any (fun e => e.1 == c.cls && e.2.1 == j) = false ↔ ∀ a, (c.cls, j, a) ∉ s.cyc.shadow := by
    simp only [List.any_eq_false, Bool.and_eq_true, beq_iff_eq, not_and]
    refine ⟨fun h a ha => h _ ha rfl rfl, ?_⟩
    rintro h ⟨_, _, a⟩ ha rfl rfl
    exact h a ha
  simp only [State.gapsOf, List.mem_map, List.mem_filter, Bool.and_eq_true, decide_eq_true_eq, Bool.not_eq_true', hshadow]
  constructor
  · rintro ⟨⟨_, b⟩, ⟨hr, hb, hn⟩, rfl⟩
    exact ⟨⟨b, hr, hb⟩, hn⟩
  · rintro ⟨⟨b, hr, hb⟩, hn⟩
    exact ⟨(i, b), ⟨hr, hb, hn⟩, rfl⟩

theorem publishPoint_heard {e : Nat × Word64} (hnew : s.cyc.newShots.find? (fun e => e.1 == h) = some e) (hh : heard = true) :
    s.publishPoint heard h = s.setImage h e.2 := by
  simp only [State.publishPoint, hnew, hh, if_true]

theorem publishPoint_missed (hmissed : heard = false ∨ s.cyc.newShots.find? (fun e => e.1 == h) = none) :
    s.publishPoint heard h = s.missInput h := by
  unfold State.publishPoint
  rcases hmissed with rfl | hnone
  · split <;> rfl
  · rw [hnone]

/-- What an acknowledgement changes: the gaps are due for repair, and the shipped checkpoint is acknowledged. -/
theorem hearAck_cnt (cls seq : Nat) (gaps : List Nat) (s : State) :
    (∀ r, r ∈ (s.hearAck cls seq gaps).cnt.dueRepairs ↔ r ∈ s.cnt.dueRepairs ∨ (r.1 = cls ∧ r.2 ∈ s.readPoints cls gaps)) ∧
      (s.hearAck cls seq gaps).cnt.acked = s.cnt.acked.map fun e => if e = (cls, seq + 1) then (cls, 0) else e := by
  refine ⟨?_, ?_⟩
  · rintro ⟨x, h⟩
    simp only [State.hearAck, State.upCnt_cnt, List.mem_append, List.mem_filter, List.mem_map, Prod.mk.injEq]
    by_cases hr : (x, h) ∈ s.cnt.dueRepairs
    · simp [hr]
    · simp only [hr, false_or, List.contains_eq_mem, decide_false, Bool.not_false, and_true]
      exact ⟨fun ⟨_, hp, hx, hh⟩ => ⟨hx.symm, hh ▸ hp⟩, fun ⟨hx, hp⟩ => ⟨h, hp, hx.symm, rfl⟩⟩
  · refine List.map_congr_left fun e _ => ?_
    simp only [Prod.ext_iff, Bool.and_eq_true, beq_iff_eq]

end checkpoint

/-! ## Synchronisation lost and gained (07 R157, R158) -/

section synchronisation

variable {x : Nat} {s : State}

theorem ckptIsLate_iff : s.ckptIsLate x = true ↔ s.power.mode = 4 ∧ s.pair.synced = true ∧ s.swathSilent = false ∧ x < 4 ∧
    s.deadline x ≤ s.tb0 ∧ ∀ a, s.cnt.applied.getD x none = some a → serialGe (a + 1) (s.cl x).cycle = false := by
  unfold State.ckptIsLate
  cases s.cnt.applied.getD x none <;>
    simp only [Bool.and_eq_true, Bool.not_eq_true', beq_iff_eq, decide_eq_true_eq, Option.some.injEq, forall_eq', reduceCtorEq,
      false_implies, implies_true, and_true] <;> tauto

/-- A checkpoint that is late is counted, and the STANDBY is SYNCING again. -/
theorem ckptLate_standby (hm : s.power.mode = 4) :
    s.ckptLate.cnt.ckptLate = inc32 s.cnt.ckptLate ∧ s.ckptLate.pair.synced = false ∧ s.ckptLate.power.mode = 3 := by
  obtain ⟨hmode, hsynced, -, -, -, -, -, -, -, -, -, -, -, hlate⟩ :=
    (resync_f (s.upCnt fun k => { k with ckptLate := inc32 k.ckptLate })).2 hm
  exact ⟨hlate, hsynced, hmode⟩

theorem maySync_iff : s.maySync = true ↔ s.power.mode = 3 ∧ s.pair.copyDone = true ∧ (∀ a, a ∈ s.cnt.applied → a ≠ none) ∧
    s.time.twinDiff.natAbs ≤ 2560 ∧ s.pair.loopOk ≠ 0 ∧ s.pair.twinClaim = true ∧ s.time.tb0.st = 7 := by
  simp [State.maySync, Option.isSome_iff_ne_none, and_assoc]

theorem synchronise_standby : s.synchronise.power.mode = 4 ∧
    s.synchronise.pair = { s.pair with synced := true, isolated := false, yielded := false, settleFrom := s.time.now, owner := false } := by
  rw [State.synchronise, goMode_power, goMode_pair]
  exact ⟨rfl, by simp⟩

end synchronisation

/-- Settles O58: the claim, the checkpoints and the synchronisation, each command by the operation that it runs. -/
theorem takeoverAndCheckpointsKeepThePair : Obligations.TakeoverAndCheckpointsKeepThePair := by
  unfold Obligations.TakeoverAndCheckpointsKeepThePair
  refine ⟨mayC, fun t s => ⟨fun h => ?confirmed, fun h => ?unconfirmed⟩, ?own, fun s w => control0 s w, fun s => control_resumes,
    fun s f => abandonFlip_armed, resume_f, begin_f, trim_f, fun c => ckptComplete_iff, ?received, fun c s v gaps => apply_f c s v gaps,
    fun c i s => mem_gapsOf, fun heard h s => ⟨fun e => publishPoint_heard, publishPoint_missed⟩, ?resync, follow_f, ?ack,
    fun s x => ckptIsLate_iff, ?late, fun s => maySync_iff, ?synchronised⟩
  case confirmed => exact ⟨_, (exec_claimConfirmed ..).trans (happens_of h), (control_keeps _).frame, rfl⟩
  case unconfirmed => exact (exec_claimConfirmed ..).trans (happens_not h)
  case own =>
    rintro s _ k term hk hterm rfl
    exact own_f s k term hk hterm
  case received =>
    rintro t c s _ rfl hm hc
    rw [exec_checkpointReceived_follower hm hc]
    refine ⟨fun h => by rw [hearCkpt_incomplete h], fun h hv => by rw [hearCkpt_foreign h hv],
      fun h hv hmode hd => by rw [hearCkpt_early h hv hmode hd], fun h hv hd => ?_⟩
    exact ⟨_, exec_checkpointReceived_follower hm hc, (hearCkpt_keeps ..).frame, hearCkpt_applies h hv hd⟩
  case resync =>
    refine fun s => ⟨(resync_f s).1, fun h => ?_⟩
    obtain ⟨hmode, hsynced, hcopy, happlied, hshadow, hjournal, hcfg, -⟩ := (resync_f s).2 h
    exact ⟨hmode, hsynced, hcopy, happlied, hshadow, hjournal, hcfg⟩
  case ack =>
    intro t cls seq gaps s ho
    obtain ⟨hdue, hacked⟩ := hearAck_cnt cls seq gaps (s.arrive t)
    exact ⟨_, (exec_checkpointAck ..).trans (happens_of ho), (hearAck_keeps ..).frame,
      fun h hh => (hdue (cls, h)).2 (.inr ⟨rfl, hh⟩), fun r => (hdue r).1, hacked⟩
  case late =>
    intro t x s h
    exact ⟨_, (exec_ckptLate ..).trans (happens_of h), (ckptLate_keeps _).frame, ckptLate_standby (ckptIsLate_iff.1 h).1⟩
  case synchronised =>
    intro t s h
    exact ⟨_, (exec_synchronised ..).trans (happens_of h), (synchronise_keeps _).frame, synchronise_standby⟩

end Sys2Proof.Machine

/-! Proofs of the statements about the station protocol: the ordered checks of a received frame with elimination and FENCED (O60), and
the commands on records, the display, handovers and station diagnostics (O53). -/

namespace Sys2Proof.Machine

/-! ## Checks 1 to 6 of a received frame (04 Table 4.8) -/

section checks

variable {x : RxFrame} {s : State} {b : List Byte}

/-- What check 2 asks: the payload in its bound, and nothing beyond the trailer but padding to 64 bytes. -/
theorem lengthOk_iff : lengthOk b = true ↔ field (slice b 18 24) 16 2 ≤ 1472 ∧
    (b.length = field (slice b 18 24) 16 2 + 50 ∨ field (slice b 18 24) 16 2 + 50 ≤ 64 ∧ b.length = 64) := by
  simp only [lengthOk, Bool.and_eq_true, Bool.or_eq_true, beq_iff_eq, decide_eq_true_eq]
  omega

theorem crcOk_iff : crcOk b = true ↔
    (crc32c (slice b 18 (24 + field (slice b 18 24) 16 2))).toNat = field b (42 + field (slice b 18 24) 16 2) 4 := decide_eq_true_iff

/-- What check 1 asks: a tag of the plant's VLAN. -/
def State.vlanOk (s : State) (x : RxFrame) : Bool :=
  frameTagged x.bytes && bits (beNat (slice x.bytes 14 2)) 0 12 == s.conf.map.vid

theorem vlanOk_iff : s.vlanOk x = true ↔ frameTagged x.bytes = true ∧ bits (beNat (slice x.bytes 14 2)) 0 12 = s.conf.map.vid := by
  simp [State.vlanOk]

/-- A frame with a sound header: elimination, check 7, and FENCED. -/
def State.afterHeader (f : Fsp) (s : State) : State × Option Fsp :=
  if (s.eliminate f).2 = false then ((s.eliminate f).1, none)
  else if (f.kind == 8 && ((s.eliminate f).1.peerOf (field f.payload 0 4)).isNone) ||
      (f.kind != 8 && ((s.eliminate f).1.station f.station).isNone) then ((s.eliminate f).1.unknownStation f, none)
  else if bit f.flags 1 then ((s.eliminate f).1.fenced f, none)
  else ((s.eliminate f).1, some f)

/-- The first of checks 1 to 6 that fails names the counter; past them the frame goes on. -/
theorem checkFrame_eq (x : RxFrame) (s : State) : s.checkFrame x =
    if s.vlanOk x = false then (s.fspCount 0, none)
    else if lengthOk x.bytes = false then (s.fspCount 1, none)
    else if crcOk x.bytes = false then (s.fspCount 2, none)
    else if (parseFsp x).version ≠ 1 then (s.fspCount 3, none)
    else if (parseFsp x).kind ∉ [2, 4, 6, 7, 8, 9, 10] then (s.fspCount 4, none)
    else if (parseFsp x).spare = false then (s.fspCount 5, none)
    else s.afterHeader (parseFsp x) := by
  have hvlan : (!frameTagged x.bytes || bits (beNat (slice x.bytes 14 2)) 0 12 != s.conf.map.vid) = !s.vlanOk x := by
    rw [State.vlanOk, Bool.not_and]
    rfl
  simp only [State.checkFrame, State.afterHeader, hvlan, ← kind_in, Bool.not_eq_true', bne_iff_ne, Bool.not_eq_true]

/-- Checks 1 to 3 find the VLAN, the lengths and the CRC sound. -/
structure State.Intact (s : State) (x : RxFrame) : Prop where
  vlan : s.vlanOk x = true
  length : lengthOk x.bytes = true
  crc : crcOk x.bytes = true

theorem checkFrame_of_intact (h : s.Intact x) : s.checkFrame x =
    if (parseFsp x).version ≠ 1 then (s.fspCount 3, none)
    else if (parseFsp x).kind ∉ [2, 4, 6, 7, 8, 9, 10] then (s.fspCount 4, none)
    else if (parseFsp x).spare = false then (s.fspCount 5, none)
    else s.afterHeader (parseFsp x) := by
  rw [checkFrame_eq, if_neg (by simp [h.vlan]), if_neg (by simp [h.length]), if_neg (by simp [h.crc])]

end checks

/-! ## Elimination on rings (04 R89–R91) -/

section elimination

variable {f : Fsp} {s : State} {x : StreamSt} {ring source dest seq now d : Nat}

theorem eliminate_off_ring (h : bit f.flags 2 = false) : s.eliminate f = (s, true) := by
  rw [State.eliminate, if_pos (by simp [h])]

/-- On a ring the stream's recovery decides, and the stream takes its new state. -/
theorem eliminate_on_ring {r : StreamSt × Bool} (h : bit f.flags 2 = true)
    (hr : r = recover (s.fsp.streams.find? (StreamSt.is (f.port / 2) f.source f.dest)) (f.port / 2) f.source f.dest f.seq s.time.now) :
    (s.eliminate f).2 = r.2 ∧ (s.eliminate f).1.fsp.streams = r.1 :: s.fsp.streams.filter (fun x => !x.is (f.port / 2) f.source f.dest) ∧
      (s.eliminate f).1.fsp.counters = if r.2 = true then s.fsp.counters else setAt s.fsp.counters 11 inc32 := by
  unfold State.eliminate
  dsimp only
  rw [if_neg (by simp [h]), ← hr]
  cases hok : r.2 <;> simp [State.fspCount]

theorem recover_repeated (h : seq = x.last) : recover (some x) ring source dest seq now = ({ x with lastAt := now }, false) := by
  have hup : (seq + 65536 - x.last) % 65536 = 0 := by omega
  simp only [recover, hup, if_true]

theorem recover_ahead (hx : x.last < 65536) (h1 : 1 ≤ d) (h32 : d < 32) (h : seq = (x.last + d) % 65536) :
    recover (some x) ring source dest seq now = ({ x with last := seq, hist := (x.hist * 2 ^ d + 1) % 2 ^ 32, lastAt := now }, true) := by
  have hup : (seq + 65536 - x.last) % 65536 = d := by omega
  simp only [recover, hup]
  rw [if_neg (by omega), if_pos h32]

/-- A frame of the history is accepted once. -/
theorem recover_behind (hs : seq < 65536) (h1 : 1 ≤ d) (h32 : d < 32) (h : x.last = (seq + d) % 65536) :
    recover (some x) ring source dest seq now =
      if bit x.hist d = true then ({ x with lastAt := now }, false) else ({ x with hist := setBits x.hist d 1 1, lastAt := now }, true) := by
  have hup : (seq + 65536 - x.last) % 65536 = 65536 - d := by omega
  have hdown : (x.last + 65536 - seq) % 65536 = d := by omega
  simp only [recover, hup, hdown]
  rw [if_neg (by omega), if_neg (by omega), if_pos h32]

theorem recover_rogue (hup : 32 ≤ (seq + 65536 - x.last) % 65536) (hdown : 32 ≤ (x.last + 65536 - seq) % 65536) :
    recover (some x) ring source dest seq now = ({ x with lastAt := now }, false) := by
  unfold recover
  dsimp only
  rw [if_neg (by omega), if_neg (by omega), if_neg (by omega)]

/-- A reset takes out the stream that it names, once that has been idle for 10 ms. -/
theorem exec_recoveryReset_awake {t port : Nat} (h : (s.arrive t).awake = true) : exec (.recoveryReset t port source dest) s =
    .next ((s.arrive t).upFsp fun q =>
      { q with streams := q.streams.filter fun x => !(x.is port source dest && decide (x.lastAt + 2500000 ≤ (s.arrive t).time.now)) }) :=
  (exec_recoveryReset ..).trans (happens_of h)

theorem not_idle_iff : (!(x.is ring source dest && decide (x.lastAt + 2500000 ≤ now))) = true ↔
    (x.ring = ring → x.source = source → x.dest = dest → now < x.lastAt + 2500000) := by
  simp only [StreamSt.is, Bool.not_eq_true', Bool.and_eq_false_iff, beq_eq_false_iff_ne, decide_eq_false_iff_not]
  omega

end elimination

/-! ## Check 7 and FENCED (04 R73, R86; 07 R161) -/

section sender

variable {f : Fsp} {s u : State}

/-- Check 7: the map holds the peer of a PEER frame, and the station of any other. -/
def State.Knows (s : State) (f : Fsp) : Prop :=
  (f.kind = 8 → s.peerOf (field f.payload 0 4) ≠ none) ∧ (f.kind ≠ 8 → s.station f.station ≠ none)

theorem unknown_iff : ((f.kind == 8 && (s.peerOf (field f.payload 0 4)).isNone) || (f.kind != 8 && (s.station f.station).isNone)) = true ↔
    (f.kind = 8 ∧ s.peerOf (field f.payload 0 4) = none) ∨ (f.kind ≠ 8 ∧ s.station f.station = none) := by simp

theorem not_unknown_of_knows (h : s.Knows f) :
    ¬((f.kind == 8 && (s.peerOf (field f.payload 0 4)).isNone) || (f.kind != 8 && (s.station f.station).isNone)) = true := by
  rw [unknown_iff]
  rintro (⟨hk, hp⟩ | ⟨hk, hp⟩)
  · exact h.1 hk hp
  · exact h.2 hk hp

theorem afterHeader_eliminated (h : (s.eliminate f).2 = false) : s.afterHeader f = ((s.eliminate f).1, none) := if_pos h

theorem afterHeader_unknown (h : (s.eliminate f).2 = true) (hu : u = (s.eliminate f).1)
    (hno : (f.kind = 8 ∧ u.peerOf (field f.payload 0 4) = none) ∨ (f.kind ≠ 8 ∧ u.station f.station = none)) :
    s.afterHeader f = (u.unknownStation f, none) := by
  subst hu
  rw [State.afterHeader, if_neg (by simp [h]), if_pos (unknown_iff.2 hno)]

theorem afterHeader_fenced (h : (s.eliminate f).2 = true) (hu : u = (s.eliminate f).1) (hk : u.Knows f) (hb : bit f.flags 1 = true) :
    s.afterHeader f = (u.fenced f, none) := by
  subst hu
  rw [State.afterHeader, if_neg (by simp [h]), if_neg (not_unknown_of_knows hk), if_pos hb]

theorem afterHeader_heard (h : (s.eliminate f).2 = true) (hu : u = (s.eliminate f).1) (hk : u.Knows f) (hb : bit f.flags 1 = false) :
    s.afterHeader f = (u, some f) := by
  subst hu
  rw [State.afterHeader, if_neg (by simp [h]), if_neg (not_unknown_of_knows hk), if_neg (by simp [hb])]

/-- A later term ends the ownership; any other leaves the count and the term heard. -/
theorem fenced_eq (f : Fsp) (s : State) : s.fenced f =
    if s.pair.owner = true ∧ serialAfter f.term s.pair.term = true then
      ((((s.fspCount 9).hearTerm f.term).upCnt fun k => { k with fencedExits := inc32 k.fencedExits }).record 0x0206 []).safeHold 5
    else (s.fspCount 9).hearTerm f.term := by
  obtain ⟨howner, hterm, -⟩ := hear_same f.term (s.fspCount 9)
  unfold State.fenced
  dsimp only
  rw [howner, hterm]
  simp only [Bool.and_eq_true]
  rfl

theorem fenced_ends_ownership (ho : s.pair.owner = true) (ht : serialAfter f.term s.pair.term = true) : (s.fenced f).power.mode = 7 ∧
    (s.fenced f).power.reason = 5 ∧ (s.fenced f).pair.owner = false ∧ (s.fenced f).cnt.fencedExits = inc32 s.cnt.fencedExits := by
  rw [fenced_eq, if_pos ⟨ho, ht⟩]
  refine fenced_f s _ _ ?_
  rw [fencedExits_up, (hear_same f.term (s.fspCount 9)).2.2]
  rfl

theorem fenced_only_heard (h : s.pair.owner = false ∨ serialAfter f.term s.pair.term = false) :
    s.fenced f = (s.fspCount 9).hearTerm f.term := by
  rw [fenced_eq, if_neg (by rcases h with h | h <;> simp [h])]

end sender

/-- Settles O60: the first check that fails decides, and each of elimination, FENCED and the idle stream is one operation. -/
theorem receivedFramesAreCheckedInOrder : Obligations.ReceivedFramesAreCheckedInOrder := by
  unfold Obligations.ReceivedFramesAreCheckedInOrder
  refine ⟨?checks, fun kind k x s u f => ⟨fun h => ?_, fun h => ?_⟩, fun f s => ⟨eliminate_off_ring, fun h r => eliminate_on_ring h⟩,
    fun ring source dest seq now x => ⟨rfl, fun hs hx => ⟨fun d => recover_ahead hx, recover_repeated, fun d => recover_behind hs, recover_rogue⟩⟩,
    fun f s => ⟨fenced_ends_ownership, fenced_only_heard⟩, ?foreign, fun t port source dest s h => ?reset⟩
  case checks =>
    rintro x s _ _ _ rfl rfl rfl
    refine ⟨fun hno => ?_, fun htag hvid => ?_⟩
    · rw [checkFrame_eq, if_pos (by rcases hno with h | h <;> simp [State.vlanOk, h])]
    have hvlan := vlanOk_iff.2 ⟨htag, hvid⟩
    refine ⟨fun hno => ?_, fun hn hlen => ?_⟩
    · have hl : lengthOk x.bytes = false := by
        rw [Bool.eq_false_iff, Ne, lengthOk_iff]
        omega
      rw [checkFrame_eq, if_neg (by simp [hvlan]), if_pos hl]
    have hlength := lengthOk_iff.2 ⟨hn, hlen⟩
    refine ⟨fun hno => ?_, fun hcrc => ?_⟩
    · rw [checkFrame_eq, if_neg (by simp [hvlan]), if_neg (by simp [hlength]), if_pos (Bool.eq_false_iff.2 (mt crcOk_iff.1 hno))]
    rw [checkFrame_of_intact ⟨hvlan, hlength, crcOk_iff.2 hcrc⟩]
    refine ⟨fun hno => if_pos hno, fun hv hno => ?_, fun hv hk hno => ?_, fun hv hk hsp => ?_⟩
    · rw [if_neg (not_not.2 hv), if_pos hno]
    · rw [if_neg (not_not.2 hv), if_neg (not_not.2 hk), if_pos hno]
    rw [if_neg (not_not.2 hv), if_neg (not_not.2 hk), if_neg (by simp [hsp])]
    exact ⟨afterHeader_eliminated, fun h u hu => ⟨afterHeader_unknown h hu,
      fun hp hst => ⟨afterHeader_fenced h hu ⟨hp, hst⟩, afterHeader_heard h hu ⟨hp, hst⟩⟩⟩⟩
  · rw [State.receive, h]
  · rw [State.receive, h]
  case foreign =>
    rintro t f s _ rfl hawake hcores hlink htype hpdelay
    refine ⟨_, (exec_foreignFrame ..).trans (happens_of ?_), (fspCount_keeps 16 _).frame, rfl⟩
    simp [hawake, hcores, hlink, htype, hpdelay]
  case reset =>
    refine ⟨_, exec_recoveryReset_awake h, (upFsp_keeps ..).frame, rfl, fun x => ?_⟩
    simp only [State.upFsp_fsp, List.mem_filter, not_idle_iff]

/-! ## The recorder's windows (17 R377) -/

section windows

variable {r : Req} {s : State} {cur : Nat} {rs : List Record}

/-- A window that is set on the request's mailbox is what the mailbox then holds. -/
theorem box_window_setBox {mb : Nat} (h : mb < s.msg.boxes.length) (w : Option Nat) :
    ((s.setBox mb fun x => { x with window := w }).box mb).window = w := by
  rw [setBox_box, if_pos ⟨rfl, h⟩]

/-- What `REC_OPEN` asks of its operands. -/
def State.Openable (s : State) (r : Req) : Prop :=
  field r.payload 0 1 < 3 ∧ zeros r.payload 1 1 = true ∧ (field r.payload 0 1 = 2 → field r.payload 2 6 ≤ s.newestSeq + 1)

/-- The checks of `REC_OPEN`. -/
def openChecks (r : Req) : List (State → Option Nat) :=
  [need (fun _ => decide (field r.payload 0 1 < 3)) stRange, reserved r.payload 1 1,
   need (fun s => field r.payload 0 1 != 2 || decide (field r.payload 2 6 ≤ s.newestSeq + 1)) stRange]

theorem openChecks_pass_iff : (∀ f ∈ openChecks r, f s = none) ↔ s.Openable r := by
  simp [openChecks, State.Openable, need_iff, reserved_iff, Decidable.imp_iff_not_or]

theorem openChecks_status : ∀ f ∈ openChecks r, f s = none ∨ f s = some stRange := by
  simp [openChecks, need_or, reserved_or]

/-- Where a window opens: at the oldest record, the newest or one named, and never before the oldest. -/
def State.openCursor (s : State) (r : Req) : Nat :=
  max (if field r.payload 0 1 = 0 then s.oldestSeq else if field r.payload 0 1 = 1 then s.newestSeq else field r.payload 2 6) s.oldestSeq

theorem recOpen_eq : recOpen r s = guarded (openChecks r)
    (fun s => reply stOk (leBytes 8 (s.openCursor r) ++ leBytes 8 s.oldestSeq ++ leBytes 8 s.newestSeq)
      (s.setBox r.mb fun x => { x with window := some (s.openCursor r) })) s := rfl

theorem recOpen_ok (h : s.Openable r) : recOpen r s = (s.setBox r.mb fun x => { x with window := some (s.openCursor r) },
    some (stOk, leBytes 8 (s.openCursor r) ++ leBytes 8 s.oldestSeq ++ leBytes 8 s.newestSeq)) := by
  rw [recOpen_eq, guarded_ok (openChecks_pass_iff.2 h), reply]

theorem recOpen_refused (h : ¬s.Openable r) : recOpen r s = (s, some (stRange, [])) := by
  rw [recOpen_eq, guarded_bad openChecks_status (exists_check_fails openChecks_pass_iff h)]

/-- What `REC_READ` asks of its operands. -/
def RecordsReadable (r : Req) : Prop := 1 ≤ field r.payload 0 2 ∧ field r.payload 0 2 ≤ 1024 ∧ zeros r.payload 2 2 = true

/-- The checks of `REC_READ` on its operands. -/
def recReadChecks (r : Req) : List (State → Option Nat) :=
  [need (fun _ => decide (1 ≤ field r.payload 0 2) && decide (field r.payload 0 2 ≤ 1024)) stRange, reserved r.payload 2 2]

theorem recReadChecks_pass_iff : (∀ f ∈ recReadChecks r, f s = none) ↔ RecordsReadable r := by
  simp [recReadChecks, RecordsReadable, need_iff, reserved_iff, and_assoc]

theorem recReadChecks_status : ∀ f ∈ recReadChecks r, f s = none ∨ f s = some stRange := by
  simp [recReadChecks, need_or, reserved_or]

/-- The records that a `REC_READ` answers from a cursor on. -/
def State.recordsFrom (s : State) (cur n : Nat) : List Record := (s.log.ring.filter fun x => decide (cur ≤ x.seq)).take n

/-- The cursor after some records. -/
def cursorAfter (rs : List Record) (cur : Nat) : Nat := match rs.getLast? with | some x => x.seq + 1 | none => cur

/-- A read at a cursor: the gap before the oldest record, or the records from there on. -/
def State.readAt (s : State) (r : Req) (cur : Nat) : State × Option (Nat × List Byte) :=
  if s.lostRecords cur != 0 then
    reply stGap (leBytes 2 0 ++ leBytes 2 0 ++ leBytes 4 (sat32 (s.lostRecords cur)) ++ leBytes 8 s.oldestSeq)
      ((s.setBox r.mb fun x => { x with window := some s.oldestSeq }).upLog fun l => { l with gaps := inc32 l.gaps })
  else
    reply stOk (leBytes 2 (s.recordsFrom cur (field r.payload 0 2)).length ++ leBytes 2 0 ++ leBytes 4 0 ++
        leBytes 8 (cursorAfter (s.recordsFrom cur (field r.payload 0 2)) cur) ++ (s.recordsFrom cur (field r.payload 0 2)).flatMap recordBytes)
      (s.setBox r.mb fun x => { x with window := some (cursorAfter (s.recordsFrom cur (field r.payload 0 2)) cur) })

theorem recRead_eq : recRead r s = guarded (recReadChecks r ++ [need (fun s => (s.box r.mb).window.isSome) stState])
    (fun s => s.readAt r ((s.box r.mb).window.getD 0)) s := rfl

theorem recRead_refused (h : ¬RecordsReadable r) : recRead r s = (s, some (stRange, [])) := by
  rw [recRead_eq]
  exact guarded_bad_append recReadChecks_status (exists_check_fails recReadChecks_pass_iff h)

theorem recRead_unopened (h : RecordsReadable r) (hw : (s.box r.mb).window = none) : recRead r s = (s, some (stState, [])) := by
  rw [recRead_eq, guarded_append (recReadChecks_pass_iff.2 h), guarded_first (need_no (by simp [hw]))]

theorem recRead_opened (h : RecordsReadable r) (hw : (s.box r.mb).window = some cur) : recRead r s = s.readAt r cur := by
  rw [recRead_eq, guarded_append (recReadChecks_pass_iff.2 h), guarded_pass (need_ok (by simp [hw])), guarded_nil, hw, Option.getD_some]

theorem readAt_gap (h : s.lostRecords cur ≠ 0) : s.readAt r cur =
    ((s.setBox r.mb fun x => { x with window := some s.oldestSeq }).upLog fun l => { l with gaps := inc32 l.gaps },
      some (stGap, leBytes 2 0 ++ leBytes 2 0 ++ leBytes 4 (sat32 (s.lostRecords cur)) ++ leBytes 8 s.oldestSeq)) := by
  rw [State.readAt, if_pos (by simpa using h), reply]

theorem readAt_records (h : s.lostRecords cur = 0) (hrs : rs = s.recordsFrom cur (field r.payload 0 2)) : s.readAt r cur =
    (s.setBox r.mb fun x => { x with window := some (cursorAfter rs cur) },
      some (stOk, leBytes 2 rs.length ++ leBytes 2 0 ++ leBytes 4 0 ++ leBytes 8 (cursorAfter rs cur) ++ rs.flatMap recordBytes)) := by
  rw [State.readAt, if_neg (by simpa using h), reply, hrs]

end windows

/-! ## Marks (17 R377) -/

section marks

variable {r : Req} {s : State}

/-- The record of a mark: the session, and the payload as it came. -/
def State.mark (s : State) (r : Req) : State := s.record_ 0x0E03 (leBytes 4 r.session ++ padTo 28 r.payload)

/-- The recorder takes the mark, also after the record of what was dropped before it. -/
def State.takesMark (s : State) : Bool := s.recRoom && s.reportDrops.recRoom

theorem recMark_stopped (h : s.log.exhausted = true) : recMark r s = (s, some (stState, [])) := if_pos h

theorem recMark_taken (hx : s.log.exhausted = false) (h : s.takesMark = true) :
    recMark r s = (s.mark r, some (stOk, leBytes 8 (s.mark r).newestSeq)) :=
  (if_neg (by simp [hx])).trans (if_pos h)

theorem recMark_dropped (hx : s.log.exhausted = false) (h : s.takesMark = false) : recMark r s = (s.mark r, some (stCapacity, [])) :=
  (if_neg (by simp [hx])).trans (if_neg (show ¬s.takesMark = true by simp [h]))

theorem reportDrops_none (h : s.log.droppedUnreported = 0) : s.reportDrops = s := if_pos h

theorem takesMark_of_room (hr : s.recRoom = true) (hd : s.log.droppedUnreported = 0) : s.takesMark = true := by
  rw [State.takesMark, reportDrops_none hd, hr]
  rfl

theorem takesMark_of_no_room (hr : s.recRoom = false) : s.takesMark = false := by
  rw [State.takesMark, hr]
  rfl

/-- With room and nothing dropped before it, a mark takes the next sequence. -/
theorem mark_newestSeq (hx : s.log.exhausted = false) (hr : s.recRoom = true) (hd : s.log.droppedUnreported = 0) :
    (s.mark r).newestSeq = s.log.nextSeq := by
  rw [State.mark, State.record_, if_neg (by simp [hx]), if_neg (by simp [hr]), reportDrops_none hd, if_pos hr, newest_put]

end marks

/-! ## The display (18 R380, R382) -/

section display

variable {r : Req} {s : State}

/-- What `DISPLAY_TEXT` asks of its operands. -/
def Displayable (r : Req) : Prop :=
  field r.payload 0 1 < 2 ∧ field r.payload 1 1 ≤ 36 ∧ zeros r.payload 2 2 = true ∧ (r.payload.drop 4).all printable = true

/-- The checks of `DISPLAY_TEXT`. -/
def textChecks (r : Req) : List (State → Option Nat) :=
  [need (fun _ => decide (field r.payload 0 1 < 2)) stRange, need (fun _ => decide (field r.payload 1 1 ≤ 36)) stRange, reserved r.payload 2 2,
   need (fun _ => (r.payload.drop 4).all printable) stRange]

theorem textChecks_pass_iff : (∀ f ∈ textChecks r, f s = none) ↔ Displayable r := by
  simp [textChecks, Displayable, need_iff, reserved_iff]

theorem textChecks_status : ∀ f ∈ textChecks r, f s = none ∨ f s = some stRange := by
  simp [textChecks, need_or, reserved_or]

/-- One text line of the display takes the request's text. -/
def State.showText (s : State) (r : Req) : State :=
  s.upDisp fun d => { d with lines := setAt d.lines (field r.payload 0 1) fun _ => r.payload.drop 4 }

theorem displayText_eq : displayText r s = guarded (textChecks r) (fun s => reply stOk [] (s.showText r)) s := rfl

theorem displayText_ok (h : Displayable r) : displayText r s = (s.showText r, some (stOk, [])) := by
  rw [displayText_eq, guarded_ok (textChecks_pass_iff.2 h), reply]

theorem displayText_refused (h : ¬Displayable r) : displayText r s = (s, some (stRange, [])) := by
  rw [displayText_eq, guarded_bad textChecks_status (exists_check_fails textChecks_pass_iff h)]

theorem displayRefresh_frozen (h : s.disp.frozen = true) : displayRefresh s = (s, some (stState, [])) := by
  rw [displayRefresh, guarded_first (need_no (by simp [h]))]

theorem displayRefresh_ok (h : s.disp.frozen = false) :
    displayRefresh s = (s.upDisp fun d => { d with fullPending := true }, some (stOk, [])) := by
  rw [displayRefresh, guarded_pass (need_ok (by simp [h])), guarded_nil, reply]

end display

/-! ## PAIR_HANDOVER (07 R166) -/

section handover

variable {s v : State} {th : Nat} {f : ArmedFlip} {o : Option (Nat × List Byte)}

/-- The pair can hand over: a synchronised twin, no trial on it, and no HEDGE_FAULT. -/
def State.canHandOver (s : State) : Bool := s.twinSynced && s.sheaf.twinState != 6 && !s.pair.hedgeFault

theorem canHandOver_iff : s.canHandOver = true ↔ s.twinSynced = true ∧ s.sheaf.twinState ≠ 6 ∧ s.pair.hedgeFault = false := by
  simp [State.canHandOver, and_assoc]

theorem canHandOver_false_iff : s.canHandOver = false ↔ s.twinSynced = false ∨ s.sheaf.twinState = 6 ∨ s.pair.hedgeFault = true := by
  rw [Bool.eq_false_iff, Ne, canHandOver_iff, not_and_or, not_and_or]
  simp

/-- A flip is armed for an instant. -/
def State.flipsAt (s : State) (th : Nat) : Bool := match s.cfg.armed with | some f => f.tb == th | none => false

/-- The boundary at which a handover on request falls; a flip armed for the same one comes first. -/
def State.handoverAt (s : State) : Nat :=
  if s.flipsAt (s.nextT0 3 (s.tb0 + 100000000)) then s.nextT0 3 (s.nextT0 3 (s.tb0 + 100000000) + 1) else s.nextT0 3 (s.tb0 + 100000000)

theorem handoverAt_unhindered (hth : th = s.nextT0 3 (s.tb0 + 100000000)) (h : ∀ f, s.cfg.armed = some f → f.tb ≠ th) : s.handoverAt = th := by
  have hno : s.flipsAt th = false := by
    cases ha : s.cfg.armed with
    | none => simp [State.flipsAt, ha]
    | some f => simpa [State.flipsAt, ha] using h f ha
  rw [State.handoverAt, ← hth, hno, if_neg (by decide)]

theorem handoverAt_after_flip (ha : s.cfg.armed = some f) (h : f.tb = s.nextT0 3 (s.tb0 + 100000000)) :
    s.handoverAt = s.nextT0 3 (f.tb + 1) := by
  rw [State.handoverAt, ← h, State.flipsAt, ha, if_pos (by simp)]

/-- Past its checks the command arms a handover with its job. -/
def armOnRequest : State → State × Option (Nat × List Byte) := withJob 0x103 fun id s => s.armHandover 0 s.handoverAt id

theorem armOnRequest_some (s : State) : ∃ v st data, armOnRequest s = (v, some (st, data)) := withJob_some ..

theorem pairHandover_eq : pairHandover s = guarded [need State.canHandOver stState, need (fun s => s.pair.armed.isNone) stBusy] armOnRequest s := rfl

theorem pairHandover_unable (h : s.canHandOver = false) : pairHandover s = (s, some (stState, [])) := by
  rw [pairHandover_eq, guarded_first (need_no h)]

theorem pairHandover_busy (h : s.canHandOver = true) (ha : s.pair.armed ≠ none) : pairHandover s = (s, some (stBusy, [])) := by
  rw [pairHandover_eq, guarded_pass (need_ok h), guarded_first (need_no (by simpa [Option.isSome_iff_ne_none] using ha))]

theorem pairHandover_free (h : s.canHandOver = true) (ha : s.pair.armed = none) : pairHandover s = armOnRequest s := by
  rw [pairHandover_eq, guarded_pass (need_ok h), guarded_pass (need_ok (by simp [ha])), guarded_nil]

theorem pairHandover_frame (h : pairHandover s = (v, o)) : Frame [.out, .pair, .msg] s v := by
  have hf := (pairHandover_keeps s).frame
  rwa [h] at hf

/-- With room for a job, the handover is armed at its boundary and announced to the twin. -/
theorem armOnRequest_arms (h : s.msg.jobs.length < 64) : ∃ v id, armOnRequest s = (v, some (stAccepted, jobPayload id)) ∧
    v.pair.armed = some { kind := 0, th := s.handoverAt, deferrals := 0, job := id } ∧ v.out = s.out ++ [.swath (.armHandover s.handoverAt)] := by
  obtain ⟨id, hb, -⟩ := withJob_ok 0x103 (fun id s => s.armHandover 0 s.handoverAt id) s h
  exact ⟨_, id, hb, rfl, rfl⟩

end handover

/-! ## DIAG_READ and the DIAG requests to stations (04 R82) -/

section diagnostics

variable {t : Nat} {r : Req} {s v : State}

/-- What `DIAG_READ` asks of its operands. -/
def DiagReadable (r : Req) : Prop :=
  field r.payload 0 1 < 3 ∧ zeros r.payload 1 1 = true ∧ zeros r.payload 6 2 = true ∧
    (field r.payload 0 1 = 1 → 1 ≤ field r.payload 2 2 ∧ field r.payload 2 2 ≤ 0xFFE ∧ field r.payload 4 2 < 256)

/-- The checks of `DIAG_READ` on its operands. -/
def diagChecks (r : Req) : List (State → Option Nat) :=
  [need (fun _ => decide (field r.payload 0 1 < 3)) stRange, reserved r.payload 1 1, reserved r.payload 6 2,
   need (fun _ => field r.payload 0 1 != 1 ||
    (decide (1 ≤ field r.payload 2 2) && decide (field r.payload 2 2 ≤ 0xFFE) && decide (field r.payload 4 2 < 256))) stRange]

theorem diagChecks_pass_iff : (∀ f ∈ diagChecks r, f s = none) ↔ DiagReadable r := by
  simp [diagChecks, DiagReadable, need_iff, reserved_iff, Decidable.imp_iff_not_or, and_assoc]

theorem diagChecks_status : ∀ f ∈ diagChecks r, f s = none ∨ f s = some stRange := by
  simp [diagChecks, need_or, reserved_or]

/-- What `DIAG_READ` answers from: the FSP counters, the Pastasy counters, or the station asked. -/
def State.diagnose (s : State) (r : Req) : State × Option (Nat × List Byte) :=
  if field r.payload 0 1 = 0 then reply stOk (s.fsp.counters.flatMap (leBytes 4)) s
  else if field r.payload 0 1 = 2 then reply stOk (s.msg.counters.flatMap (leBytes 4)) s
  else (s.sendDiag (field r.payload 2 2) (field r.payload 4 2) (some (hdrOf r)) none, none)

theorem diagRead_eq : diagRead r s = guarded (diagChecks r ++ [need (fun s => field r.payload 0 1 != 1 || !s.diagBusy (field r.payload 2 2)) stBusy])
    (fun s => s.diagnose r) s := rfl

theorem diagRead_refused (hno : ¬DiagReadable r) : diagRead r s = (s, some (stRange, [])) := by
  rw [diagRead_eq]
  exact guarded_bad_append diagChecks_status (exists_check_fails diagChecks_pass_iff hno)

theorem diagRead_busy (hr : DiagReadable r) (h1 : field r.payload 0 1 = 1) (hb : s.diagBusy (field r.payload 2 2) = true) :
    diagRead r s = (s, some (stBusy, [])) := by
  rw [diagRead_eq, guarded_append (diagChecks_pass_iff.2 hr), guarded_first (need_no (by simp [h1, hb]))]

theorem diagRead_free (hr : DiagReadable r) (hf : field r.payload 0 1 ≠ 1 ∨ s.diagBusy (field r.payload 2 2) = false) :
    diagRead r s = s.diagnose r := by
  rw [diagRead_eq, guarded_append (diagChecks_pass_iff.2 hr), guarded_pass (need_ok (by simpa using hf)), guarded_nil]

theorem diagnose_fsp (h0 : field r.payload 0 1 = 0) : s.diagnose r = (s, some (stOk, s.fsp.counters.flatMap (leBytes 4))) := if_pos h0

theorem diagnose_pastasy (h2 : field r.payload 0 1 = 2) : s.diagnose r = (s, some (stOk, s.msg.counters.flatMap (leBytes 4))) := by
  rw [State.diagnose, if_neg (by omega), if_pos h2, reply]

theorem diagnose_station (h1 : field r.payload 0 1 = 1) :
    s.diagnose r = (s.sendDiag (field r.payload 2 2) (field r.payload 4 2) (some (hdrOf r)) none, none) := by
  rw [State.diagnose, if_neg (by omega), if_neg (by omega)]

theorem exec_diagRead_answered {st : Nat} {data : List Byte} (ha : (s.arrive t).accepts diagReadCmd r)
    (hb : diagRead r ((s.arrive t).take r) = (v, some (st, data))) :
    exec (.diagRead t r) s = .next (v.respond (hdrOf r) 0xB00 st data) := by
  rw [exec_diagRead, execDiagRead, happens_of ha.1, run_ok ha hb]
  rfl

theorem exec_diagRead_asks (ha : (s.arrive t).accepts diagReadCmd r) (hb : diagRead r ((s.arrive t).take r) = (v, none)) :
    exec (.diagRead t r) s = .next (v.setBox r.mb fun x => { x with busy := true }) := by
  rw [exec_diagRead, execDiagRead, happens_of ha.1, run_none ha hb]

/-- Sending changes no more of the FSP state than the sequence numbers of the transmit streams. -/
theorem sendPair_fsp (ring mask : Nat) (f : OutFrame) (s : State) : ∃ q, (s.sendPair ring mask f).fsp = { s.fsp with txSeq := q } := by
  unfold State.sendPair
  dsimp only
  split_ifs
  · exact ⟨_, rfl⟩
  · exact ⟨_, rfl⟩
  · exact ⟨_, rfl⟩

theorem sendFrame_fsp (mask : Nat) (f : OutFrame) (s : State) : ∃ q, (s.sendFrame mask f).fsp = { s.fsp with txSeq := q } := by
  obtain ⟨p, hp⟩ := sendPair_fsp 0 mask f s
  obtain ⟨q, hq⟩ := sendPair_fsp 1 mask f (s.sendPair 0 mask f)
  exact ⟨q, hq.trans (by rw [hp])⟩

theorem toStation_fsp (a : Nat) (f : OutFrame) (s : State) : ∃ q, (s.toStation a f).fsp = { s.fsp with txSeq := q } := by
  unfold State.toStation
  split
  · exact sendFrame_fsp ..
  · exact ⟨_, rfl⟩

/-- A request stays outstanding under the number that it took. -/
theorem sendDiag_outstanding (a page : Nat) (h : Option Hdr) (e : Option Nat) (s : State) : (s.sendDiag a page h e).fsp.diags =
      { station := a, number := s.fsp.diagNo, page := page, forReq := h, forEntry := e } :: s.fsp.diags ∧
    (s.sendDiag a page h e).fsp.diagNo = (s.fsp.diagNo + 1) % 1024 := by
  unfold State.sendDiag
  dsimp only
  obtain ⟨q, hq⟩ := toStation_fsp a _ (State.upFsp _ s)
  rw [hq]
  exact ⟨rfl, rfl⟩

end diagnostics

/-! ## The end of a DIAG request (04 R82, R96) -/

section diagEnd

variable {t a : Nat} {s : State} {h : Hdr} {f : Fsp} {d : DiagSt} {b : List Byte}

theorem diagResponse_unmatched (hd : s.fsp.diags.find? (fun d => d.station == f.station && d.number == f.tag) = none) :
    s.diagResponse f = s.upCyc fun c => { c with unmatched := inc32 c.unmatched } := by
  rw [State.diagResponse, hd]

theorem diagResponse_matched (hd : s.fsp.diags.find? (fun d => d.station == f.station && d.number == f.tag) = some d) :
    s.diagResponse f = if f.payload.length < 4 ∨ field f.payload 0 2 ≠ d.page ∨ zeros f.payload 2 2 = false then s.fspCount 15
      else s.endDiag d (some f.payload) := by
  rw [State.diagResponse, hd]
  simp only [Bool.or_eq_true, decide_eq_true_eq, bne_iff_ne, Bool.not_eq_true', or_assoc]

theorem exec_diagResponse_heard {x : RxFrame} (hx : (s.arrive t).hears x = true) :
    exec (.diagResponse t x) s = .next ((s.arrive t).receive 9 State.diagResponse x) := (exec_diagResponse ..).trans (happens_of hx)

theorem exec_diagTimeout_outstanding (hawake : (s.arrive t).awake = true) (hd : (s.arrive t).fsp.diags.find? (fun d => d.station == a) = some d) :
    exec (.diagTimeout t a) s = .next ((s.arrive t).endDiag d none) := by
  rw [exec_diagTimeout, execDiagTimeout, happens_of hawake, hd]

/-- A request that ends is no longer outstanding. -/
def State.forgetDiag (d : DiagSt) (s : State) : State := s.upFsp fun q => { q with diags := q.diags.filter fun e => e.station != d.station }

theorem respond_cfg (h : Hdr) (code status : Nat) (data : List Byte) (s : State) : (s.respond h code status data).cfg = s.cfg :=
  (respond_keeps h code status data s).frame .cfg (by decide)

/-- No check job hears of the end, and no settled entry waits for its counters. -/
structure DiagSt.Plain (d : DiagSt) (s : State) : Prop where
  job : s.cfg.job = none
  entry : d.forEntry = none

theorem endDiag_timeout (hp : d.Plain s) (hr : d.forReq = some h) (hw : (s.forgetDiag d).waitsFor h = true) :
    s.endDiag d none = (s.forgetDiag d).respond h 0xB00 stTimeout [] := by
  have hcfg := respond_cfg h 0xB00 stTimeout [] (s.forgetDiag d)
  unfold State.forgetDiag at hw hcfg ⊢
  simp only [State.endDiag, hr, hp.entry, hw, Bool.not_true, Bool.false_eq_true, if_false]
  exact probeEnds_none _ _ _ (by rw [hcfg]; exact hp.job)

theorem endDiag_page (hp : d.Plain s) (hr : d.forReq = some h) (hw : (s.forgetDiag d).waitsFor h = true) (h0 : d.page ≠ 0) :
    s.endDiag d (some b) = (s.forgetDiag d).respond h 0xB00 stOk b := by
  have hcfg := respond_cfg h 0xB00 stOk b (s.forgetDiag d)
  unfold State.forgetDiag at hw hcfg ⊢
  simp only [State.endDiag, hr, hp.entry, hw, h0, Bool.not_true, Bool.false_eq_true, if_false]
  exact probeEnds_none _ _ _ (by rw [hcfg]; exact hp.job)

theorem endDiag_unasked_timeout (hp : d.Plain s) (hr : d.forReq = none) : s.endDiag d none = s.forgetDiag d := by
  simp only [State.endDiag, hr, hp.entry]
  exact probeEnds_none _ _ _ hp.job

/-- Page 0 holds the station's term, which a starting module learns (07 R160). -/
theorem endDiag_unasked_page_zero (hp : d.Plain s) (hr : d.forReq = none) (h0 : d.page = 0) :
    s.endDiag d (some b) = (s.forgetDiag d).hearTerm (field b 24 4) := by
  have hcfg : ((s.forgetDiag d).hearTerm (field b 24 4)).cfg = s.cfg := (hearTerm_keeps ..).frame .cfg (by decide)
  simp only [State.endDiag, hr, hp.entry, h0, if_true]
  exact probeEnds_none _ _ _ ((congrArg CfgSt.job hcfg).trans hp.job)

end diagEnd

/-- Settles O53: each command's checks decide its status, and past them its body is one operation on a window, the display, the pair
or a station. -/
theorem recordsDisplayAndDiagnosticsAreCommanded : Obligations.RecordsDisplayAndDiagnosticsAreCommanded := by
  unfold Obligations.RecordsDisplayAndDiagnosticsAreCommanded
  refine ⟨?opened, ?read, ?closed, ?mark, ?text, ?refresh, ?handover, ?diag, sendDiag_outstanding, ?response,
    fun t f s => exec_diagResponse_heard, fun t a s d => exec_diagTimeout_outstanding, ?ended⟩
  case opened =>
    rintro t r s ha hmb _ _ rfl rfl
    by_cases ho : ((s.arrive t).take r).Openable r
    · refine answers_run rfl ha ⟨_, _, _, recOpen_ok ho, (setBox_keeps ..).frame, fun hno => ?_, ?_⟩
      · obtain ⟨hkind, hzero, hseq⟩ := ho
        rcases hno with h | h | ⟨h, h'⟩
        · omega
        · simp [hzero] at h
        · have := hseq h
          omega
      · rintro _ _ _ _ rfl
        exact ⟨rfl, rfl, box_window_setBox (by rwa [arr_len]) _⟩
    · exact answers_run rfl ha ⟨_, _, _, recOpen_refused ho, Frame.rfl_, fun _ => ⟨rfl, rfl, rfl⟩, fun h1 h2 h3 => absurd ⟨h1, h2, h3⟩ ho⟩
  case read =>
    rintro t r s ha hmb _ rfl
    by_cases hr : RecordsReadable r
    · cases hw : (((s.arrive t).take r).box r.mb).window with
      | none =>
        exact answers_run rfl ha ⟨_, _, _, recRead_unopened hr hw, Frame.rfl_, fun hno => absurd hr hno,
          fun _ _ _ => ⟨fun _ => ⟨rfl, rfl, rfl⟩, fun cur h => by simp [hw] at h⟩⟩
      | some cur =>
        by_cases hlost : ((s.arrive t).take r).lostRecords cur = 0
        · refine answers_run rfl ha ⟨_, _, _, (recRead_opened hr hw).trans (readAt_records hlost rfl),
            ((setBox_keeps ..).mono (by decide)).frame, fun hno => absurd hr hno, fun _ _ _ => ⟨fun h => by simp [hw] at h, fun cur' h => ?_⟩⟩
          obtain rfl : cur = cur' := Option.some.inj (hw.symm.trans h)
          refine ⟨fun h => absurd hlost h, fun _ => ?_⟩
          rintro _ _ rfl rfl
          exact ⟨rfl, rfl, box_window_setBox (by rwa [arr_len]) _, rfl⟩
        · refine answers_run rfl ha ⟨_, _, _, (recRead_opened hr hw).trans (readAt_gap hlost),
            ((upLog_keeps ..).chain ((setBox_keeps ..).mono (by decide))).frame, fun hno => absurd hr hno,
            fun _ _ _ => ⟨fun h => by simp [hw] at h, fun cur' h => ?_⟩⟩
          obtain rfl : cur = cur' := Option.some.inj (hw.symm.trans h)
          exact ⟨fun _ => ⟨rfl, rfl, box_window_setBox (by rwa [arr_len]) _, rfl⟩, fun h => absurd h hlost⟩
    · exact answers_run rfl ha ⟨_, _, _, recRead_refused hr, Frame.rfl_, fun _ => ⟨rfl, rfl, rfl⟩, fun h1 h2 h3 => absurd ⟨h1, h2, h3⟩ hr⟩
  case closed =>
    intro t r s ha hmb
    exact answers_run rfl ha ⟨_, _, _, rfl, (setBox_keeps ..).frame, rfl, rfl, box_window_setBox (by rwa [arr_len]) _⟩
  case mark =>
    intro t r s ha
    cases hx : ((s.arrive t).take r).log.exhausted with
    | true =>
      exact answers_run rfl ha ⟨_, _, _, recMark_stopped hx, Frame.rfl_, fun _ => ⟨rfl, rfl, rfl⟩, fun h => by simp [hx] at h⟩
    | false =>
      cases hm : ((s.arrive t).take r).takesMark with
      | true =>
        refine answers_run rfl ha ⟨_, _, _, recMark_taken hx hm, (record__keeps ..).frame, fun h => by simp [hx] at h,
          fun _ => ⟨rfl, fun hr hd => ⟨rfl, by rw [mark_newestSeq hx hr hd]⟩, fun hr => ?_⟩⟩
        simp [takesMark_of_no_room hr] at hm
      | false =>
        refine answers_run rfl ha ⟨_, _, _, recMark_dropped hx hm, (record__keeps ..).frame, fun h => by simp [hx] at h,
          fun _ => ⟨rfl, fun hr hd => ?_, fun _ => ⟨rfl, rfl⟩⟩⟩
        simp [takesMark_of_room hr hd] at hm
  case text =>
    intro t r s ha
    by_cases hd : Displayable r
    · exact answers_run rfl ha ⟨_, _, _, displayText_ok hd, (upDisp_keeps ..).frame, rfl, fun hno => absurd hd hno, fun _ _ _ _ => ⟨rfl, rfl⟩⟩
    · exact answers_run rfl ha ⟨_, _, _, displayText_refused hd, Frame.rfl_, rfl, fun _ => ⟨rfl, rfl⟩,
        fun h1 h2 h3 h4 => absurd ⟨h1, h2, h3, h4⟩ hd⟩
  case refresh =>
    intro t r s ha
    cases hf : ((s.arrive t).take r).disp.frozen with
    | true => exact answers_run rfl ha ⟨_, _, _, displayRefresh_frozen hf, Frame.rfl_, rfl, fun _ => ⟨rfl, rfl⟩, fun h => by simp [hf] at h⟩
    | false =>
      exact answers_run rfl ha ⟨_, _, _, displayRefresh_ok hf, (upDisp_keeps ..).frame, rfl, fun h => by simp [hf] at h, fun _ => ⟨rfl, rfl⟩⟩
  case handover =>
    rintro t r s _ rfl ha
    cases hc : ((s.arrive t).take r).canHandOver with
    | false =>
      refine answers_run rfl ha ⟨_, _, _, pairHandover_unable hc, Frame.rfl_, fun _ => ⟨rfl, rfl, rfl⟩, fun h1 h2 h3 => ?_⟩
      simp [canHandOver_iff.2 ⟨h1, h2, h3⟩] at hc
    | true =>
      have able {p : Prop} (hno : _) : p := absurd (canHandOver_false_iff.2 hno) (ne_false_of_eq_true hc)
      by_cases harmed : ((s.arrive t).take r).pair.armed = none
      · by_cases hjobs : ((s.arrive t).take r).msg.jobs.length < 64
        · obtain ⟨v, id, hb, hpair, hout⟩ := armOnRequest_arms hjobs
          have hrun := (pairHandover_free hc harmed).trans hb
          refine answers_run rfl ha ⟨_, _, _, hrun, pairHandover_frame hrun, able,
            fun _ _ _ => ⟨fun h => absurd harmed h, fun _ _ => ?_, fun _ _ f hf hth => ?_⟩⟩
          · rintro _ rfl hfree
            rw [handoverAt_unhindered rfl hfree] at hpair hout
            exact ⟨id, rfl, rfl, hpair, hout⟩
          · rw [handoverAt_after_flip hf hth] at hpair
            exact ⟨id, rfl, rfl, hpair⟩
        · obtain ⟨v, st, data, hb⟩ := armOnRequest_some ((s.arrive t).take r)
          have hrun := (pairHandover_free hc harmed).trans hb
          exact answers_run rfl ha ⟨_, _, _, hrun, pairHandover_frame hrun, able,
            fun _ _ _ => ⟨fun h => absurd harmed h, fun _ h => absurd h hjobs, fun _ h => absurd h hjobs⟩⟩
      · exact answers_run rfl ha ⟨_, _, _, pairHandover_busy hc harmed, Frame.rfl_, able,
          fun _ _ _ => ⟨fun _ => ⟨rfl, rfl, rfl⟩, fun h => absurd h harmed, fun h => absurd h harmed⟩⟩
  case diag =>
    rintro t r s ha _ _ _ rfl rfl rfl
    refine ⟨fun hno => exec_diagRead_answered ha (diagRead_refused hno), fun hz1 hz6 => ⟨fun h0 => ?_, fun h2 => ?_, fun h1 hlo hhi hpage => ?_⟩⟩
    · have hr : DiagReadable r := ⟨by omega, hz1, hz6, fun h => by omega⟩
      exact exec_diagRead_answered ha ((diagRead_free hr (.inl (by omega))).trans (diagnose_fsp h0))
    · have hr : DiagReadable r := ⟨by omega, hz1, hz6, fun h => by omega⟩
      exact exec_diagRead_answered ha ((diagRead_free hr (.inl (by omega))).trans (diagnose_pastasy h2))
    · have hr : DiagReadable r := ⟨by omega, hz1, hz6, fun _ => ⟨hlo, hhi, hpage⟩⟩
      exact ⟨fun hb => exec_diagRead_answered ha (diagRead_busy hr h1 hb),
        fun hb => exec_diagRead_asks ha ((diagRead_free (s := (s.arrive t).take r) hr (.inr hb)).trans (diagnose_station h1))⟩
  case response =>
    refine fun f s => ⟨diagResponse_unmatched, fun d hd => ⟨fun h1 h2 h3 => ?_, fun hno => ?_⟩⟩
    · rw [diagResponse_matched hd, if_neg (by simp [h2, h3]; omega)]
    · rw [diagResponse_matched hd, if_pos hno]
  case ended =>
    rintro d page s hj he _ rfl
    have hp : d.Plain s := ⟨hj, he⟩
    refine ⟨fun h hr hw => ⟨?_, ?_⟩, fun hr => ?_, fun b hr => ?_⟩
    · rintro rfl
      exact endDiag_timeout hp hr hw
    · rintro b rfl h0
      exact endDiag_page hp hr hw h0
    · rintro rfl
      exact endDiag_unasked_timeout hp hr
    · rintro rfl h0
      exact endDiag_unasked_page_zero hp hr h0

end Sys2Proof.Machine

/-! Proofs of the statement about timed actions: the schedule queue from a call over dispatch and acknowledgement to its outcome (O59). -/

namespace Sys2Proof.Machine

/-! ## sched_put (05 R104, R105) -/

section put

variable {cls h apply st : Nat} {x : Word} {asap : Bool} {s : State}

/-- The id that sched_put gives out next. -/
def State.newId (s : State) : Nat := s.allocId (s.sched.used.length + 2) s.sched.nextId

/-- The place that sched_put takes next. -/
def State.newPlace (s : State) : Nat := firstFree 0 s.sched.used

/-- The WAITING entry that sched_put makes of its operands (05 Table 5.1). -/
def State.newEntry (s : State) (cls h : Nat) (x : Word) (apply : Nat) (asap : Bool) : Entry :=
  { id := s.newId, handle := h, state := 1, value := x, term := 0, apply := apply, retried := false, cancelReq := false,
    asap := asap, dispatch := 0, cls := cls, cycle := (s.cyc.cls.getD cls ClassSt.reset).cycle }

/-- An entry filed at the next place, before its point shows TIMED. -/
def State.fileEntry (e : Entry) (s : State) : State :=
  (s.setEntry s.newPlace e).upSched fun q =>
    { q with used := insertRising s.newPlace q.used, nextId := (e.id + 1) % 2 ^ 32, peak := max q.peak (q.used.length + 1) }

theorem schedPut_refused (hr : s.putRefusal h x apply asap = some st) : s.schedPut cls h x apply asap =
    (s.upSched fun q => { q with tooLate := if st = stTooLate then inc32 q.tooLate else q.tooLate,
                                 capacity := if st = stCapacity then inc32 q.capacity else q.capacity }).ret st [] := by
  simp only [State.schedPut, hr]

theorem schedPut_refused_keeps (hr : s.putRefusal h x apply asap = some st) : Keeps [.out, .sched] s (s.schedPut cls h x apply asap) := by
  rw [schedPut_refused hr]
  exact (ret_keeps ..).chain ((upSched_keeps ..).mono (by decide))

theorem schedPut_accepted (hr : s.putRefusal h x apply asap = none) : s.schedPut cls h x apply asap =
    ((s.fileEntry (s.newEntry cls h x apply asap)).showTimed h).ret stOk [s.newId] := by
  simp only [State.schedPut, hr]
  rfl

theorem ret_sched (st : Nat) (vs : List Nat) (s : State) : (s.ret st vs).sched = s.sched := rfl

theorem ret_mem (st : Nat) (vs : List Nat) (s : State) : (s.ret st vs).mem = s.mem := rfl

theorem showTimed_out (h : Nat) (s : State) : (s.showTimed h).out = s.out := rfl

theorem showTimed_sched (h : Nat) (s : State) : (s.showTimed h).sched = s.sched := rfl

theorem fileEntry_out (e : Entry) (s : State) : (s.fileEntry e).out = s.out := by
  simp only [State.fileEntry, State.setEntry, State.upSched_out, State.upMem_out]

theorem fileEntry_mem (e : Entry) (s : State) : (s.fileEntry e).mem = memStore (entryBytes e) (entryAddr s.newPlace) s.mem := by
  simp only [State.fileEntry, State.setEntry, State.upSched_mem, State.upMem_mem]

theorem fileEntry_sched (e : Entry) (s : State) : (s.fileEntry e).sched =
    { s.sched with used := insertRising s.newPlace s.sched.used, nextId := (e.id + 1) % 2 ^ 32,
                   peak := max s.sched.peak (s.sched.used.length + 1), touched := touch s.newPlace s.sched.touched } := by
  simp only [State.fileEntry, State.setEntry, State.upSched_sched, State.upMem_sched]

theorem used_length_lt_of_putRefusal_none (hr : s.putRefusal h x apply asap = none) : s.sched.used.length < 65536 := by
  unfold State.putRefusal at hr
  split_ifs at hr with _ _ _ _ _ hfull
  exact Nat.not_le.1 hfull

theorem newId_free (hr : s.putRefusal h x apply asap = none) : s.newId ≠ 0 ∧ s.findEntry s.newId = none := by
  have hfree : ¬heldId s s.newId := alloc_free s s.sched.nextId (used_length_lt_of_putRefusal_none hr)
  simpa [heldId] using hfree

theorem newPlace_notMem_used (hs : s.sched.used.Pairwise (· < ·)) : s.newPlace ∉ s.sched.used := (firstFree_out _ 0 hs).1

end put

/-! ## The entries whose dispatch instant has come (05 R107) -/

section due

variable {n : Nat} {s : State}

theorem mem_due : n ∈ s.due ↔ n ∈ s.sched.used ∧ (s.entry n).state = 1 ∧ (s.entry n).apply ≤ s.tb0 + 1000 * s.leadUs := by
  rw [State.due, (due_perm s _ []).mem_iff]
  simp

theorem due_rises (s : State) : s.due.Pairwise fun a b => (s.entry a).apply ≤ (s.entry b).apply := due_sorted s _ [] .nil

end due

/-! ## The evaluation of one due entry (05 R107) -/

section evaluation

variable {n : Nat} {l : List (Nat × Nat)} {s : State}

/-- The point of an entry is forced or simulated: its action is discarded. -/
def State.overridden (s : State) (n : Nat) : Bool := (s.img (s.entry n).handle).forced || (s.img (s.entry n).handle).simulated

/-- An entry that can no longer arrive in time, and that ASAP does not excuse. -/
def State.missed (s : State) (n : Nat) : Bool := decide (s.lastDispatch (s.entry n) < s.tb0) && !(s.entry n).asap

/-- The items of a list of entries to be sent that go to the station of an entry. -/
def State.goingWith (s : State) (l : List (Nat × Nat)) (n : Nat) : Nat := (l.filter fun p => p.1 == s.stationOf (s.entry n)).length

/-- The station of an entry holds all that it may, or has announced no further room. -/
def State.stationFull (s : State) (l : List (Nat × Nat)) (n : Nat) : Bool :=
  decide (256 ≤ s.heldAt (s.stationOf (s.entry n)) + s.goingWith l n) ||
    decide ((s.schedStation (s.stationOf (s.entry n))).free ≤ s.inflightAt (s.stationOf (s.entry n)) + s.goingWith l n)

theorem overridden_iff : s.overridden n = true ↔ (s.img (s.entry n).handle).forced = true ∨ (s.img (s.entry n).handle).simulated = true := by
  simp [State.overridden]

theorem missed_iff : s.missed n = true ↔ s.lastDispatch (s.entry n) < s.tb0 ∧ (s.entry n).asap = false := by
  simp [State.missed]

theorem stationFull_iff : s.stationFull l n = true ↔ 256 ≤ s.heldAt (s.stationOf (s.entry n)) + s.goingWith l n ∨
    (s.schedStation (s.stationOf (s.entry n))).free ≤ s.inflightAt (s.stationOf (s.entry n)) + s.goingWith l n := by
  simp [State.stationFull]

/-- An entry waits for its station; its first wait is counted. -/
def State.waitForRoom (n : Nat) (s : State) : State :=
  if (s.entry n).id ∈ s.sched.waited then s
  else s.upSched fun q => { q with waited := (s.entry n).id :: q.waited, fullWaits := inc32 q.fullWaits }

theorem evalEntry_sound (hb : s.entryBad n = false) : State.evalEntry (s, l) n =
    if s.overridden n then (s.settle n 6 0, l) else if s.missed n then (s.settle n 2 0, l)
    else if s.stationFull l n then (s.waitForRoom n, l) else (s, l ++ [(s.stationOf (s.entry n), n)]) := by
  simp only [State.evalEntry, hb, Bool.false_eq_true, if_false, List.contains_eq_mem, decide_eq_true_eq]
  rfl

theorem evalEntry_overridden (hb : s.entryBad n = false) (ho : s.overridden n) : State.evalEntry (s, l) n = (s.settle n 6 0, l) := by
  rw [evalEntry_sound hb, if_pos ho]

theorem evalEntry_missed (hb : s.entryBad n = false) (ho : ¬s.overridden n) (hm : s.missed n) :
    State.evalEntry (s, l) n = (s.settle n 2 0, l) := by
  rw [evalEntry_sound hb, if_neg ho, if_pos hm]

theorem evalEntry_waits (hb : s.entryBad n = false) (ho : ¬s.overridden n) (hm : ¬s.missed n) (hf : s.stationFull l n) :
    State.evalEntry (s, l) n = (s.waitForRoom n, l) := by
  rw [evalEntry_sound hb, if_neg ho, if_neg hm, if_pos hf]

theorem evalEntry_goes (hb : s.entryBad n = false) (ho : ¬s.overridden n) (hm : ¬s.missed n) (hf : ¬s.stationFull l n) :
    State.evalEntry (s, l) n = (s, l ++ [(s.stationOf (s.entry n), n)]) := by
  rw [evalEntry_sound hb, if_neg ho, if_neg hm, if_neg hf]

end evaluation

/-! ## A dispatch without its acknowledgement (05 R108) -/

section retry

variable {t a no : Nat} {f : SchedFrame} {s : State}

/-- A dispatch held for its acknowledgement. -/
def State.heldFrame (s : State) (a no : Nat) : Option SchedFrame := s.sched.frames.find? fun x => x.station == a && x.number == no

/-- The dispatches held but for one. -/
def State.otherFrames (s : State) (a no : Nat) : List SchedFrame := s.sched.frames.filter fun y => !(y.station == a && y.number == no)

/-- The entry of an id carries RETRIED. -/
def State.markRetried (s : State) (id : Nat) : State :=
  match s.findEntry id with
  | some n => s.setEntry n { s.entry n with retried := true }
  | none => s

/-- A dispatch repeated: its entries carry RETRIED, and it is held anew from this instant. -/
def State.repeatSched (s : State) (a no : Nat) (f : SchedFrame) : State :=
  let u := f.ids.foldl State.markRetried s
  (u.upSched fun q => { q with frames := s.otherFrames a no ++ [{ f with retried := true, sentAt := u.time.now }] }).toStation a
    { kind := 5, station := a, tag := no, cls := 0, cycle := 0, pending := false, retry := true, pcp := u.conf.map.pcp.getD 1 0,
      dest := [], payload := f.payload }

/-- A dispatch is not repeated: it was once, or it can no longer arrive in time. -/
def SchedFrame.lapsed (f : SchedFrame) (tb0 : Nat) : Bool :=
  f.retried || !(match f.latest with | some l => decide (tb0 ≤ l) | none => true)

theorem lapsed_iff {tb0 : Nat} : f.lapsed tb0 = true ↔ f.retried = true ∨ ∃ l, f.latest = some l ∧ l < tb0 := by
  unfold SchedFrame.lapsed
  cases f.latest <;> simp

theorem exec_schedRetryTimeout_owner (ho : (s.arrive t).pair.owner = true) :
    exec (.schedRetryTimeout t a no) s = .next ((s.arrive t).retrySched a no) := (exec_schedRetryTimeout ..).trans (happens_of ho)

theorem retrySched_unknown (hf : s.heldFrame a no = none) : s.retrySched a no = s := by
  unfold State.heldFrame at hf
  simp only [State.retrySched, hf]

theorem retrySched_early (hf : s.heldFrame a no = some f) (he : s.time.now < f.sentAt + psTicks (s.rttPs a)) : s.retrySched a no = s := by
  unfold State.heldFrame at hf
  simp only [State.retrySched, hf, if_pos he]

/-- Once RTT_s has passed, a dispatch is repeated one time, and only while it can still arrive in time. -/
theorem retrySched_timeout (hf : s.heldFrame a no = some f) (he : f.sentAt + psTicks (s.rttPs a) ≤ s.time.now) : s.retrySched a no =
    if f.lapsed s.tb0 then s.upSched fun q => { q with frames := s.otherFrames a no } else s.repeatSched a no f := by
  unfold State.heldFrame at hf
  simp only [State.retrySched, hf, if_neg (Nat.not_lt.2 he)]
  rfl

theorem markRetried_fold (ids : List Nat) (s : State) : (ids.foldl State.markRetried s).sched.used = s.sched.used ∧
    (ids.foldl State.markRetried s).time = s.time := retry_fold ids s

theorem repeatSched_sched : (s.repeatSched a no f).sched.used = s.sched.used ∧
    (s.repeatSched a no f).sched.frames = s.otherFrames a no ++ [{ f with retried := true, sentAt := s.time.now }] := by
  obtain ⟨hused, htime⟩ := markRetried_fold f.ids s
  have hsend (w : State) (g : OutFrame) : (w.toStation a g).sched = w.sched := (toStation_keeps a g w).frame .sched (by decide)
  simp only [State.repeatSched, hsend, State.upSched_sched, hused, htime, and_self]

end retry

/-! ## SCHED_ACK (05 R108, R109) -/

section acknowledgement

variable {a free id n : Nat} {x : SchedFrame} {f : Fsp} {s : State}

theorem schedStation_station (a : Nat) (s : State) : (s.schedStation a).station = a := by
  unfold State.schedStation
  split
  next x hx => simpa using List.find?_some hx
  next => rfl

theorem schedStation_setSchedStation (x : SchedStation) (s : State) : (s.setSchedStation x).schedStation x.station = x := by
  simp only [State.schedStation, State.setSchedStation, State.upSched_sched, List.find?_cons, beq_self_eq_true]

/-- The dispatch that a SCHED_ACK answers. -/
def State.answered (s : State) (f : Fsp) : Option SchedFrame :=
  s.sched.frames.find? fun x => x.station == f.station && x.number == f.tag && x.term == f.term

/-- The station has announced its room, and the dispatch is out of the flight. -/
def State.takeRoom (s : State) (a free : Nat) (x : SchedFrame) : State :=
  (s.setSchedStation { s.schedStation a with free := free }).upSched fun q =>
    { q with frames := q.frames.filter fun y => !(y.station == x.station && y.number == x.number) }

/-- A SCHED_ACK that matches no dispatch. -/
def State.countUnmatched (s : State) : State := s.upCyc fun c => { c with unmatched := inc32 c.unmatched }

theorem takeRoom_free : ((s.takeRoom a free x).schedStation a).free = free := by
  have hself := schedStation_setSchedStation { s.schedStation a with free := free } s
  rw [schedStation_station a s] at hself
  exact congrArg SchedStation.free hself

theorem schedAck_unknownVersion (hv : s.versionKnown f = false) : s.schedAck f = s.fspCount 7 := by
  simp only [State.schedAck, hv, Bool.not_false, if_true]

theorem schedAck_foreignTerm (hv : s.versionKnown f = true) (ht : f.term ≠ s.pair.term) : s.schedAck f = s.countUnmatched := by
  unfold State.schedAck
  rw [if_neg (by simp [hv]), if_pos (by simpa using ht)]
  rfl

/-- What the owner does with a SCHED_ACK of its configuration and term. -/
theorem schedAck_owner (hv : s.versionKnown f = true) (ht : f.term = s.pair.term) (ho : s.pair.owner = true) : s.schedAck f =
    match s.answered f, parseSchedAck f.payload with
    | none, _ => s.countUnmatched
    | some _, none => s.fspCount 15
    | some x, some (free, items) =>
      if items.map (fun i => i.1) = x.ids then items.foldl (fun s i => s.ackItem f.station i) (s.takeRoom f.station free x)
      else s.fspCount 15 := by
  unfold State.schedAck State.answered
  rw [if_neg (by simp [hv]), if_neg (by simp [ht])]
  cases s.sched.frames.find? fun x => x.station == f.station && x.number == f.tag && x.term == f.term <;>
    cases parseSchedAck f.payload
  case none.none => simp [ho, State.countUnmatched]
  case none.some r => simp [ho, State.countUnmatched]
  case some.none x => simp
  case some.some x r =>
    by_cases hids : r.2.map (fun i => i.1) = x.ids <;> simp [ho, hids, State.takeRoom]

/-- Table 5.3 for an id that the queue holds. -/
theorem ackItem_held (a : Nat) (hn : s.findEntry id = some n) :
    (∀ r, r = 0 ∨ r = 1 → s.ackItem a (id, r) = if (s.entry n).state = 4 then s else s.setEntry n { s.entry n with state := 3 }) ∧
      s.ackItem a (id, 2) = s.setEntry n { s.entry n with state := 1 } ∧ s.ackItem a (id, 3) = s.settle n 3 0 ∧
      s.ackItem a (id, 4) = s.settle n 5 0 ∧ s.ackItem a (id, 5) = s ∧ s.ackItem a (id, 6) = s.settle n 4 0 ∧
      s.ackItem a (id, 7) = s.settle n 4 0 := by
  simp only [State.ackItem, hn, and_self, and_true]
  rintro _ (rfl | rfl) <;> rfl

end acknowledgement

/-! ## PUBLISH (05 R110, R114) -/

section report

variable {a id n outcome stamp : Nat} {f : Fsp} {s : State}

/-- An id is no longer one that only its station's answers name. -/
def State.dropHeard (s : State) (id : Nat) : State := s.upSched fun q => { q with heard := q.heard.filter fun h => h.1 != id }

/-- The executed value of an entry in the image; a forced VALUE stays (02 R41). -/
def State.showExecuted (s : State) (e : Entry) : State :=
  s.upImg e.handle fun g => ({ g with value := if g.forced then g.value else e.value, age := 0 } : Img).withQuality 0

theorem publishReport_malformed (hp : parsePublish f.payload = none) : s.publishReport f = s.fspCount 15 := by
  simp only [State.publishReport, hp]

theorem publishReport_items {items : List (Nat × Nat × Nat)} (hp : parsePublish f.payload = some items) :
    s.publishReport f = items.foldl (fun s i => s.report f.station i) s := by
  simp only [State.publishReport, hp]

theorem report_held (hn : s.findEntry id = some n) : s.report a (id, outcome, stamp) =
    if outcome = 0 then ((s.dropHeard id).showExecuted (s.entry n)).settle n 0 stamp else (s.dropHeard id).settle n 1 0 := by
  have hdropped : (s.dropHeard id).findEntry id = some n := hn
  unfold State.dropHeard at hdropped
  simp only [State.report, hdropped]
  rfl

theorem report_orphan (hn : s.findEntry id = none) : s.report a (id, outcome, stamp) =
    if outcome = 0 ∧ s.pair.owner = true then
      ((s.dropHeard id).outcome id 9 stamp).recordOutcome 9 [(2, a), (4, id), (8, stamp)]
    else s.dropHeard id := by
  have hdropped : (s.dropHeard id).findEntry id = none := hn
  unfold State.dropHeard at hdropped
  simp only [State.report, hdropped, Bool.and_eq_true, decide_eq_true_eq]
  rfl

theorem recordOutcome_sched (o : Nat) (qs : List (Nat × Nat)) (s : State) : (s.recordOutcome o qs).sched = s.sched :=
  (recordOutcome_keeps o qs s).frame .sched (by decide)

/-- An orphan's execution is counted and recorded; no entry and no point changes. -/
theorem report_orphan_executed_keeps (hn : s.findEntry id = none) (ho : s.pair.owner = true) :
    (s.report a (id, 0, stamp)).sched.outcomes = setAt s.sched.outcomes 9 inc32 ∧ (s.report a (id, 0, stamp)).sched.used = s.sched.used ∧
      ∀ h, h < 0x600000 → (s.report a (id, 0, stamp)).image h = s.image h := by
  rw [report_orphan hn, if_pos ⟨rfl, ho⟩]
  have hmem := (recordOutcome_keeps 9 [(2, a), (4, id), (8, stamp)] ((s.dropHeard id).outcome id 9 stamp)).frame .mem (by decide)
  rw [recordOutcome_sched]
  exact ⟨rfl, rfl, fun h hh => (rec_like h s _ hh hmem).1⟩

end report

/-! ## REPORT_DEADLINE_EXPIRY (05 R111) -/

section deadline

variable {t id n : Nat} {s : State}

/-- The report of an entry is overdue: it was sent, and its report deadline has come. -/
def State.overdue (s : State) (n : Nat) : Prop := 2 ≤ (s.entry n).state ∧ s.reportDeadline (s.entry n) ≤ s.tb0

theorem exec_reportDeadlineExpiry_unknown (ho : (s.arrive t).pair.owner = true) (hn : (s.arrive t).findEntry id = none) :
    exec (.reportDeadlineExpiry t id) s = .next (s.arrive t) := by
  rw [exec_reportDeadlineExpiry, execReportDeadlineExpiry, happens_of ho, hn]

theorem exec_reportDeadlineExpiry_overdue (ho : (s.arrive t).pair.owner = true) (hn : (s.arrive t).findEntry id = some n)
    (hd : (s.arrive t).overdue n) : exec (.reportDeadlineExpiry t id) s = .next ((s.arrive t).settle n 8 0) := by
  rw [exec_reportDeadlineExpiry, execReportDeadlineExpiry, happens_of ho, hn]
  exact congrArg _ (if_pos (by simpa [State.overdue] using hd))

theorem exec_reportDeadlineExpiry_early (ho : (s.arrive t).pair.owner = true) (hn : (s.arrive t).findEntry id = some n)
    (hd : ¬(s.arrive t).overdue n) : exec (.reportDeadlineExpiry t id) s = .next (s.arrive t) := by
  rw [exec_reportDeadlineExpiry, execReportDeadlineExpiry, happens_of ho, hn]
  exact congrArg _ (if_neg (by simpa [State.overdue] using hd))

end deadline

/-- Settles O59: each command runs one operation on the queue, and each operation is taken apart by its cases. -/
theorem timedActionsAreQueuedSentAndSettled : Obligations.TimedActionsAreQueuedSentAndSettled := by
  unfold Obligations.TimedActionsAreQueuedSentAndSettled
  refine ⟨entry_trip, put_f_timed, fun t cls h x apply asap s ho => ⟨fun st hr => ?refused, fun hr hs => ?accepted⟩, ?settled, cancel_f,
    fun s n => mem_due, due_rises, ?evaluation, ?entry, sendEntries_f, ?retry, ?heard, ?ack, ?item,
    fun f s => ⟨publishReport_malformed, fun items => publishReport_items⟩, ?report, ?expiry, ?unreported⟩
  case refused =>
    refine ⟨_, (exec_schedPut ..).trans (happens_of ho), (schedPut_refused_keeps hr).frame, ?_⟩
    rw [schedPut_refused hr]
    exact ⟨rfl, rfl⟩
  case accepted =>
    obtain ⟨hid, hfree⟩ := newId_free hr
    refine ⟨_, (exec_schedPut ..).trans (happens_of ho), (schedPut_keeps ..).frame, (s.arrive t).newId, (s.arrive t).newPlace, ?_⟩
    simp only [schedPut_accepted hr, ret_out, ret_sched, ret_mem, showTimed_out, showTimed_sched, fileEntry_out, fileEntry_sched,
      true_and]
    exact ⟨rfl, hid, hfree, newPlace_notMem_used hs, rfl, _, fileEntry_mem _ _, fileEntry_sched _ _, rfl⟩
  case settled =>
    intro n o stamp s v k hk hcause hv
    obtain ⟨hused, hfreed, hout, hring, hstations, hframes, hsilent, -, -⟩ := settle_f_timed n o stamp s v k hk hcause hv
    exact ⟨hused, hfreed, hout, hring, hstations, hframes, hsilent⟩
  case evaluation =>
    intro t s ho
    refine ⟨_, (exec_schedEvaluation ..).trans (happens_of ho), (evaluate_keeps _).frame, ?_⟩
    rintro _ rfl
    rfl
  case entry =>
    rintro s l n _ _ _ rfl rfl rfl hb
    refine ⟨fun ho => evalEntry_overridden hb (overridden_iff.2 ho), fun hf hs => ?_⟩
    have ho : ¬s.overridden n := by simp [State.overridden, hf, hs]
    refine ⟨fun hl ha => evalEntry_missed hb ho (missed_iff.2 ⟨hl, ha⟩), fun hin => ?_⟩
    have hm : ¬s.missed n := by
      rw [missed_iff]
      rintro ⟨hl, ha⟩
      exact hin.elim (Nat.not_le.2 hl) (by simp [ha])
    refine ⟨fun hfull => ?_, fun h1 h2 => evalEntry_goes hb ho hm fun hfull => ?_⟩
    · rw [evalEntry_waits hb ho hm (stationFull_iff.2 hfull)]
      exact ⟨rfl, rfl⟩
    · exact (stationFull_iff.1 hfull).elim (Nat.not_le.2 h1) (Nat.not_le.2 h2)
  case retry =>
    rintro t a no s _ rfl ho
    rw [exec_schedRetryTimeout_owner ho]
    refine ⟨fun hf => by rw [retrySched_unknown hf], ?_⟩
    rintro f _ hf rfl
    refine ⟨fun he => by rw [retrySched_early hf he], fun he hd => ?_, fun he hr hl => ?_⟩
    · rw [retrySched_timeout hf he, if_pos (lapsed_iff.2 hd)]
      rfl
    · have hd : ¬f.lapsed (s.arrive t).tb0 := by
        rw [lapsed_iff]
        rintro (h | ⟨l, hlatest, h⟩)
        · simp [hr] at h
        · exact Nat.not_le.2 h (hl l hlatest)
      refine ⟨_, exec_schedRetryTimeout_owner ho, (retrySched_keeps ..).frame, ?_⟩
      rw [retrySched_timeout hf he, if_neg hd]
      exact repeatSched_sched.symm
  case heard => exact fun t f s hh => ⟨(exec_schedAck ..).trans (happens_of hh), (exec_publish ..).trans (happens_of hh)⟩
  case ack =>
    refine fun f s => ⟨schedAck_unknownVersion, schedAck_foreignTerm, fun hv ht ho => ?_⟩
    rw [schedAck_owner hv ht ho]
    refine ⟨fun hx => ?_, fun x hx => ⟨fun hp => ?_, fun free items hp => ⟨fun hids => ?_, fun hids => ?_⟩⟩⟩
    · rw [State.answered, hx]
      rfl
    · rw [State.answered, hx, hp]
    · rw [State.answered, hx, hp]
      exact if_neg hids
    · refine ⟨s.takeRoom f.station free x, takeRoom_free, rfl, rfl, rfl, ?_⟩
      rw [State.answered, hx, hp]
      exact if_pos hids
  case item =>
    rintro a id n s _ hn rfl
    exact ackItem_held a hn
  case report =>
    rintro a id outcome stamp s _ rfl
    refine ⟨fun n hn => ?_, fun hn => ⟨?_, fun ho => ?_⟩⟩
    · rw [report_held hn]
      exact ⟨fun ho => if_pos ho, fun ho => if_neg ho⟩
    · rintro rfl
      exact report_orphan_executed_keeps hn
    · rw [report_orphan hn]
      exact if_neg fun h => ho h.1
  case expiry =>
    rintro t id s _ rfl ho
    refine ⟨exec_reportDeadlineExpiry_unknown ho, fun n hn => ⟨fun h1 h2 => exec_reportDeadlineExpiry_overdue ho hn ⟨h1, h2⟩, fun hno => ?_⟩⟩
    exact exec_reportDeadlineExpiry_early ho hn fun hd => hno.elim (Nat.not_lt.2 hd.1) (Nat.not_lt.2 hd.2)
  case unreported =>
    intro t id n s ho hn h1 h2
    refine ⟨_, exec_reportDeadlineExpiry_overdue ho hn ⟨h1, h2⟩, (settle_keeps ..).frame, ?_⟩
    obtain ⟨hused, -, hout, -, -, -, -, -, himage⟩ := settle_f_timed n 8 0 (s.arrive t) _ 8 (fun _ => rfl) (by simp) rfl
    exact ⟨hused, hout, himage⟩

end Sys2Proof.Machine

/-! Proofs of the statements about the queue, the clock and the time bases: the tick, clock reads, pulses and captures, Syncs,
grandmasters and the twin's time (O2, O5, O7, O24, O25, O26). -/

namespace Sys2Proof.Machine

/-! ## The queue and the clock (06 R122, R123) -/

section clock

variable {c : Instr} {cs : List Instr} {t : Nat} {s s' : State}

theorem arrive_past (h : t ≤ s.time.now) : s.arrive t = s := by
  simp [State.arrive, State.upTime, advanceTime, h]

theorem step_idle (h : s.pending = []) : step s = .next (s.arrive (s.time.now + 1)) := by
  rw [step, h]

theorem step_command (h : s.pending = c :: cs) : step s = exec c { s with pending := cs } := by
  rw [step, h]

theorem exec_pending (h : exec c s = .next s') : s'.pending = s.pending := by
  obtain ⟨t, k⟩ := exec_keeps c s s' h
  exact k.frame .pending (by decide)

theorem exec_now_le (h : exec c s = .next s') : s.time.now ≤ s'.time.now := by
  obtain ⟨t, k⟩ := exec_keeps c s s' h
  rw [k.now, arrive_now]
  exact le_max_left ..

theorem step_now_le (h : step s = .next s') : s.time.now ≤ s'.time.now := by
  match hp : s.pending with
  | [] =>
    rw [step_idle hp] at h
    cases h
    rw [arrive_now]
    exact le_max_left ..
  | c :: cs =>
    rw [step_command hp] at h
    exact exec_now_le (s := { s with pending := cs }) h

theorem ahead_zero (b : Base) : b.ahead 0 = b := by
  simp [Base.ahead]

/-- While the die is on, every counter runs from the clock's instant to the command's. -/
theorem arrive_time_running (ht : s.time.now ≤ t) (hmode : s.power.mode ≠ 8) (hon : s.boot.stopped = false) :
    (s.arrive t).time = { s.time with
      now := t, tb0 := s.time.tb0.ahead (t - s.time.now), tb1 := s.time.tb1.ahead (t - s.time.now), tb3 := s.time.tb3 + (t - s.time.now) * 262144 } := by
  rcases ht.eq_or_lt with rfl | hlt
  · simp [arrive_past le_rfl, ahead_zero]
  · simp [State.arrive, advanceTime, hmode, hon, hlt]

end clock

/-- Settles O2: with an empty queue a step is the arrival at the next tick. -/
theorem anIdleStepIsOneTick : Obligations.AnIdleStepIsOneTick := by
  unfold Obligations.AnIdleStepIsOneTick
  intro s h
  refine ⟨step_idle h, ?_, arrive_frame _ s⟩
  rw [arrive_now]
  exact max_eq_right (Nat.le_succ _)

/-- Settles O5: what each command keeps, the queue and its instant among it, is one lemma over all commands. -/
theorem commandsLeaveTheQueueAndTheClockGoesOn : Obligations.CommandsLeaveTheQueueAndTheClockGoesOn := by
  unfold Obligations.CommandsLeaveTheQueueAndTheClockGoesOn
  exact ⟨fun _ _ _ => exec_pending, fun _ _ => step_now_le⟩

/-- Settles O7: the clocks move by one function of the elapsed ticks. -/
theorem timeBasesCountTicks : Obligations.TimeBasesCountTicks := by
  unfold Obligations.TimeBasesCountTicks
  refine fun t s => ⟨arrive_past, fun ht => ⟨arrive_frame t s, ?_, fun hmode hon => ?_⟩⟩
  · rw [arrive_now]
    exact max_eq_right ht
  · rw [arrive_time_running ht hmode hon]
    exact ⟨rfl, rfl, rfl⟩

/-! ## gPTP intervals and ports (06 R125, R126) -/

section intervals

variable {k p d n : Nat} {s : State}

theorem sendInterval_pdelayReq (h : s.linkUp p = true) : s.sendInterval 1 p d = s.emit (.gptp 1 p 0 0) := by
  simp [State.sendInterval, h]

/-- Sync and Announce of a grandmaster go out on a master port. -/
theorem sendInterval_grandmaster (h : s.linkUp p = true) (hk : k = 0 ∨ k = 2) (hd : s.baseOfDomain d = some n) (hr : (s.port p).role n = 1)
    (hst : (s.base n).st = 6) (hgm : s.mayBeGm n = true) : s.sendInterval k p d = s.emit (.gptp k p d s.priority1) := by
  have hk1 : k ≠ 1 := by omega
  have hk2 : ¬2 < k := by omega
  simp [State.sendInterval, h, hk1, hk2, hd, hr, hst, hgm]

theorem sendInterval_notMaster (h : s.linkUp p = true) (hk : k = 0 ∨ k = 2) (hd : s.baseOfDomain d = some n) (hr : (s.port p).role n ≠ 1) :
    s.sendInterval k p d = s := by
  have hk1 : k ≠ 1 := by omega
  simp [State.sendInterval, h, hk1, hd, hr]

theorem setIntervals_eq (a b : Int) : s.setIntervals p a b = s.setPort p fun q =>
    { q with logSync := if -7 ≤ a ∧ a ≤ 0 then a else q.logSync, logPdelay := if -3 ≤ b ∧ b ≤ 3 then b else q.logPdelay } := by
  simp only [State.setIntervals, Bool.and_eq_true, decide_eq_true_eq]

end intervals

/-! ## Trigger slots and gate lists (06 R138, R140) -/

section triggers

variable {slot p : Nat} {s : State} {e : GclEntry} {es : List GclEntry}

theorem fireTrigger_convert (h : bits ((s.trigger slot).getD 0 0) 24 8 = 2) :
    s.fireTrigger slot = s.emit (.convert (bits ((s.trigger slot).getD 0 0) 16 8)) := by
  simp only [State.fireTrigger, h]

/-- A slot of kind 3 starts its port's gate list at the first entry. -/
theorem fireTrigger_gates (h : bits ((s.trigger slot).getD 0 0) 24 8 = 3) (hl : s.gclOf (bits ((s.trigger slot).getD 0 0) 16 8) = e :: es) :
    s.fireTrigger slot = s.setPort (bits ((s.trigger slot).getD 0 0) 16 8) fun q => { q with gclRunning := true, gclIndex := 0, gates := e.gates } := by
  simp only [State.fireTrigger, h, hl, List.head?_cons]

theorem fireTrigger_pulse (h : bits ((s.trigger slot).getD 0 0) 24 8 = 4) :
    s.fireTrigger slot = s.emit (.trigOut (bits ((s.trigger slot).getD 3 0) 0 24)) := by
  simp only [State.fireTrigger, h]

theorem nextGate_entry (h : (s.gclOf p)[(s.port p).gclIndex + 1]? = some e) (hr : (s.port p).gclRunning = true) :
    s.nextGate p = s.setPort p fun q => { q with gclIndex := q.gclIndex + 1, gates := e.gates } := by
  simp only [State.nextGate, h, hr, if_true]

theorem nextGate_end (h : (s.gclOf p)[(s.port p).gclIndex + 1]? = none) : s.nextGate p = s := by
  simp only [State.nextGate, h]

end triggers

/-! ## PPS_IN and DIO15 (06 R142) -/

section captures

variable {rising : Bool} {s : State}

theorem ppsOffset_range (fine : Nat) : -500000000 ≤ ppsOffset fine ∧ ppsOffset fine ≤ 499999999 := by
  have hlt := Nat.mod_lt (fine / 65536) (show 1000000000 > 0 by omega)
  simp only [ppsOffset]
  split <;> omega

/-- The offset after an edge: measured where `PPS_IN` captures TB0, else as it was. -/
def State.ppsOffsetNow (s : State) : Int := if bits s.conf.time.ppsIn 2 2 = 0 then ppsOffset (s.fine 0) else s.time.ppsOffset

theorem ppsEdge_overflow (h : 16 ≤ s.time.fifo.length) :
    (s.ppsEdge rising).time = { s.time with ppsOffset := s.ppsOffsetNow, overflows := inc32 s.time.overflows } := by
  unfold State.ppsEdge State.ppsOffsetNow
  by_cases hb : bits s.conf.time.ppsIn 2 2 = 0 <;> simp [hb, h]

theorem ppsEdge_stamped (h : s.time.fifo.length < 16) :
    (s.ppsEdge rising).time = { s.time with
      ppsOffset := s.ppsOffsetNow, ppsEdges := inc32 s.time.ppsEdges,
      fifo := s.time.fifo ++ [{ stamp := s.fine (bits s.conf.time.ppsIn 2 2), rising := rising, base := bits s.conf.time.ppsIn 2 2 }] } := by
  unfold State.ppsEdge State.ppsOffsetNow
  by_cases hb : bits s.conf.time.ppsIn 2 2 = 0 <;> simp [hb, h]

theorem ppsEdge_offset : (s.ppsEdge rising).time.ppsOffset = s.ppsOffsetNow := by
  rcases Nat.lt_or_ge s.time.fifo.length 16 with h | h
  · rw [ppsEdge_stamped h]
  · rw [ppsEdge_overflow h]

theorem ppsEdge_bases : (s.ppsEdge rising).time.tb0 = s.time.tb0 ∧ (s.ppsEdge rising).time.tb1 = s.time.tb1 ∧
    (s.ppsEdge rising).time.tb3 = s.time.tb3 := by
  rcases Nat.lt_or_ge s.time.fifo.length 16 with h | h
  · simp [ppsEdge_stamped h]
  · simp [ppsEdge_overflow h]

/-- Every edge counts and is the last. -/
theorem dio15Edge_counts : (s.dio15Edge rising).time.dio15Edges = inc32 s.time.dio15Edges ∧
    (s.dio15Edge rising).time.dio15At = some s.time.now ∧ (s.dio15Edge rising).time.dio15Rising = rising := by
  cases ha : s.time.dio15At with
  | none => simp [State.dio15Edge, ha]
  | some a => by_cases h : s.time.now < a + 2500 <;> simp [State.dio15Edge, ha, h]

theorem dio15Edge_apart (h : ∀ a, s.time.dio15At = some a → a + 2500 ≤ s.time.now) :
    (s.dio15Edge rising).time.dio15Last = some s.tb0 ∧ (s.dio15Edge rising).time.dio15Lost = s.time.dio15Lost := by
  cases ha : s.time.dio15At with
  | none => simp [State.dio15Edge, ha]
  | some a => simp [State.dio15Edge, ha, Nat.not_lt.2 (h a ha)]

theorem dio15Edge_burst {a : Nat} (ha : s.time.dio15At = some a) (h : s.time.now < a + 2500) :
    (s.dio15Edge rising).time.dio15Last = s.time.dio15Last ∧ (s.dio15Edge rising).time.dio15Lost = s.time.dio15Lost + 1 := by
  simp [State.dio15Edge, ha, h]

end captures

/-- Settles O24: each command is an event with one operation, whose cases the lemmas above give. -/
theorem clockReadsPulsesAndCaptures : Obligations.ClockReadsPulsesAndCaptures := by
  unfold Obligations.ClockReadsPulsesAndCaptures
  refine ⟨?now, ?interval, fun s h => if_pos h, fun s h => if_neg h, ?request, ?trigger, ?ppsOut, ?ppsIn, ?dio15, ?gate, ?save⟩
  case now =>
    intro t b s hawake hcores hb
    exact (exec_timeNow ..).trans (happens_of (by simp [hawake, hcores, hb]))
  case interval =>
    intro t p d s hruns hlink
    have sent (k : Nat) : exec (.gptpIntervalTimer t k p d) s = .next ((s.arrive t).sendInterval k p d) :=
      (exec_gptpIntervalTimer ..).trans (happens_of hruns)
    refine ⟨?_, fun k n hk hd hr hst hgm => ?_, fun k n hk hd hr => ?_⟩
    · rw [sent, sendInterval_pdelayReq hlink]
    · rw [sent, sendInterval_grandmaster hlink hk hd hr hst hgm]
    · rw [sent, sendInterval_notMaster hlink hk hd hr]
  case request =>
    intro t p d n a b c s hruns hd
    rw [exec_messageIntervalRequest, execMessageIntervalRequest, happens_of (by simp [hruns, hd]), setIntervals_eq]
  case trigger =>
    intro t slot s hon
    have fired : exec (.triggerFire t slot) s = .next ((s.arrive t).fireTrigger slot) := (exec_triggerFire ..).trans (happens_of hon)
    refine ⟨fun h => ?_, fun h e es hl => ?_, fun h => ?_⟩
    · rw [fired, fireTrigger_convert h]
    · rw [fired, fireTrigger_gates h hl]
    · rw [fired, fireTrigger_pulse h]
  case ppsOut =>
    intro t s hawake
    refine ⟨fun h => ?_, fun h => ?_⟩
    · exact (exec_ppsOutPulse ..).trans (happens_of (by simpa [hawake, Base.valid] using h))
    · exact (exec_ppsOutPulse ..).trans (happens_not (by simpa [hawake, Base.valid] using h))
  case ppsIn =>
    intro t rising s hon
    refine ⟨_, (exec_ppsInEdge ..).trans (happens_of hon), (ppsEdge_keeps ..).frame, fun h => ?_, fun h => ?_, fun h => ?_, fun h => ?_, ppsEdge_bases⟩
    · rw [ppsEdge_overflow h]
      exact ⟨rfl, rfl, rfl⟩
    · rw [ppsEdge_stamped h]
      exact ⟨rfl, rfl, rfl⟩
    · rw [ppsEdge_offset, State.ppsOffsetNow, if_pos h]
      exact ⟨rfl, ppsOffset_range _⟩
    · rw [ppsEdge_offset, State.ppsOffsetNow, if_neg h]
  case dio15 =>
    intro t rising s hon
    obtain ⟨hedges, hat, hrising⟩ := dio15Edge_counts (rising := rising) (s := s.arrive t)
    exact ⟨_, (exec_dio15Edge ..).trans (happens_of hon), (dio15Edge_keeps ..).frame, hedges, hat, hrising, dio15Edge_apart,
      fun _ => dio15Edge_burst⟩
  case gate =>
    intro t p s hawake
    have next : exec (.gateControlInterval t p) s = .next ((s.arrive t).nextGate p) := (exec_gateControlInterval ..).trans (happens_of hawake)
    refine ⟨fun e he hr => ?_, fun he => ?_⟩
    · rw [next, nextGate_entry he hr]
    · rw [next, nextGate_end he]
  case save =>
    intro t s hawake hmode
    exact (exec_tb3Save ..).trans (happens_of (by simp [hawake, hmode]))

/-! ## The state that an offset gives (06 Table 6.4) -/

section offsets

variable {st run : Nat} {off : Int}

theorem nextState_far (h : 65536000000 < off.natAbs) : nextState st run off = (4, 0) :=
  if_pos (show msFine < off.natAbs by unfold msFine; omega)

/-- Within 1 µs. -/
theorem nextState_near (h : off.natAbs ≤ 65536000) :
    nextState 2 run off = (2, 0) ∧ nextState 3 run off = (if 16 ≤ run + 1 then (2, 0) else (3, run + 1)) ∧
      nextState 4 run off = (3, 0) ∧ nextState 5 run off = (2, 0) := by
  have hus : (off.natAbs : Int) ≤ usFine := by unfold usFine; omega
  have hms : ¬msFine < off.natAbs := by unfold msFine; omega
  simp [nextState, byOffset, -Nat.cast_natAbs, hms, hus, not_lt.2 hus]

/-- Beyond 1 µs, up to 1 ms. -/
theorem nextState_mid (hlo : 65536000 < off.natAbs) (hhi : off.natAbs ≤ 65536000000) :
    nextState 2 run off = (if 4 ≤ run + 1 then (3, 0) else (2, run + 1)) ∧ nextState 3 run off = (3, 0) ∧
      nextState 4 run off = (3, 0) ∧ nextState 5 run off = (3, 0) := by
  have hus : usFine < (off.natAbs : Int) := by unfold usFine; omega
  have hms : ¬msFine < off.natAbs := by unfold msFine; omega
  simp [nextState, byOffset, -Nat.cast_natAbs, hms, hus, not_le.2 hus]

end offsets

/-! ## A Sync (06 R122, R127–R129) -/

section sync

variable {n : Nat} {off : Int} {m : SyncMsg} {s : State}

theorem setBase_steps (n : Nat) (f : Base → Base) (s : State) : (s.setBase n f).time.steps = s.time.steps := by
  by_cases h : n = 0 <;> simp [State.setBase, h]

/-- The offset that a Sync shows: received, less sent and the link's delay (06 R127, R128). -/
def State.syncOffset (m : SyncMsg) (s : State) : Int := s.rxStamp m.port m.rawRx - m.origin - 256 * (s.port m.port).delay

/-- The port of a Sync holds its kind. -/
def State.hearsAt (m : SyncMsg) (s : State) : State := s.setPort m.port fun q => { q with oneStep := m.oneStep }

/-- A Sync on the slave port is measured, whatever it goes on to do. -/
def State.measured (n : Nat) (m : SyncMsg) (s : State) : State :=
  (s.hearsAt m).setBase n fun b => { b with offset := (s.hearsAt m).syncOffset m, freq := clampTo rateMax m.ratio }

theorem hearsAt_port (hp : m.port < s.time.ports.length) : (s.hearsAt m).port m.port = { s.port m.port with oneStep := m.oneStep } :=
  port_set _ _ _ hp

theorem hearsAt_syncOffset (hp : m.port < s.time.ports.length) : (s.hearsAt m).syncOffset m = s.syncOffset m := by
  unfold State.syncOffset State.rxStamp
  rw [hearsAt_port hp]
  rfl

theorem measured_base (hp : m.port < s.time.ports.length) :
    (s.measured n m).base n = { s.base n with offset := s.syncOffset m, freq := clampTo rateMax m.ratio } := by
  rw [State.measured, base_self, hearsAt_syncOffset hp, State.hearsAt, setPort_base]

theorem measured_steps : (s.measured n m).time.steps = s.time.steps := by
  rw [State.measured, setBase_steps]
  rfl

theorem hearSync_noBase (h : s.baseOfDomain m.domain = none) : s.hearSync m = s.upTime fun c => { c with discarded := c.discarded + 1 } := by
  rw [State.hearSync, h]

theorem hearSync_notSlave (h : s.baseOfDomain m.domain = some n) (hp : m.port < s.time.ports.length) (hr : (s.port m.port).role n ≠ 2) :
    s.hearSync m = s.hearsAt m := by
  have other : (((s.hearsAt m).port m.port).role n != 2) = true := by
    rw [hearsAt_port hp]
    exact bne_iff_ne.2 hr
  rw [State.hearSync, h]
  exact if_pos other

theorem hearSync_slave (h : s.baseOfDomain m.domain = some n) (hp : m.port < s.time.ports.length) (hr : (s.port m.port).role n = 2) :
    s.hearSync m = if (s.base n).st = 7 then s.measured n m
      else if (s.base n).stepped then (s.measured n m).discipline n (s.syncOffset m) else (s.measured n m).acquire n (s.syncOffset m) := by
  have slave : ¬(((s.hearsAt m).port m.port).role n != 2) = true := by
    rw [hearsAt_port hp]
    exact ne_true_of_eq_false (bne_eq_false_iff_eq.2 hr)
  have servo : s.hearSync m = if ((s.measured n m).base n).st = 7 then s.measured n m
      else if ((s.measured n m).base n).stepped then (s.measured n m).discipline n ((s.hearsAt m).syncOffset m)
        else (s.measured n m).acquire n ((s.hearsAt m).syncOffset m) := by
    rw [State.hearSync, h]
    exact if_neg slave
  rw [servo, measured_base hp, hearsAt_syncOffset hp]

/-- The offsets measured, this one the last: at most eight are held. -/
def Base.recentWith (b : Base) (off : Int) : List Int := (b.recent ++ [off]).drop (b.recent.length + 1 - 8)

theorem baseTo_same {st : Nat} (h : (s.base n).st = st) : s.baseTo n st = s := by
  simp [State.baseTo, h]

theorem acquire_agrees (hst : (s.base n).st = 1) (h : agree8 ((s.base n).recentWith off) = true) :
    ((s.acquire n off).base n).st = 2 ∧ ((s.acquire n off).base n).stepped = true ∧
      ((s.acquire n off).base n).acc = (((s.base n).acc : Int) - off * 2 ^ 32).toNat ∧ (s.acquire n off).time.steps = inc32 s.time.steps := by
  have e : s.acquire n off =
      ((s.stepBase n (((s.base n).acc : Int) - off * 2 ^ 32).toNat).setBase n fun b => { b with offset := 0 }).baseTo n 2 := by
    unfold State.acquire
    rw [baseTo_same hst]
    exact if_pos h
  obtain ⟨hto, hacc, hstepped, -⟩ := baseTo_f n 2 ((s.stepBase n (((s.base n).acc : Int) - off * 2 ^ 32).toNat).setBase n fun b => { b with offset := 0 })
  rw [base_self, stepBase_self] at hacc hstepped
  rw [e, baseTo_steps, setBase_steps, stepBase_steps]
  exact ⟨hto, hstepped, hacc, rfl⟩

theorem acquire_disagrees (hst : (s.base n).st = 1) (h : agree8 ((s.base n).recentWith off) = false) :
    (s.acquire n off).base n = { s.base n with rate := clampTo rateMax (s.base n).freq, recent := (s.base n).recentWith off } ∧
      (s.acquire n off).time.steps = s.time.steps := by
  have e : s.acquire n off = (s.setRate n (s.base n).freq).setBase n fun b => { b with recent := (s.base n).recentWith off } := by
    unfold State.acquire
    rw [baseTo_same hst]
    exact if_neg (ne_true_of_eq_false h)
  rw [e, base_self, setRate_self, setBase_steps, State.setRate, setBase_steps]
  exact ⟨rfl, rfl⟩

end sync

/-- Settles O25: a Sync is measured, and then disciplines its base or adds to what the base acquires. -/
theorem syncsDisciplineABase : Obligations.SyncsDisciplineABase := by
  unfold Obligations.SyncsDisciplineABase
  refine ⟨fun t m s hruns => ⟨(s.arrive t).hearSync m, (exec_sync ..).trans (happens_of hruns), (hearSync_keeps ..).frame, hearSync_noBase,
      fun n hd hp => ⟨hearSync_notSlave hd hp, ?slave⟩⟩,
    clamp_rate, fun st run off h => by rw [nextState_far h], ?near, ?mid⟩
  case slave =>
    rintro hr _ _ rfl rfl
    rw [hearSync_slave hd hp hr]
    generalize s.arrive t = u at hd hp hr ⊢
    refine ⟨fun h7 => ?_, fun h7 hs => ?_, fun h1 hs ha => ?_, fun h1 hs ha => ?_⟩
    · rw [if_pos h7]
      exact measured_base hp
    · rw [if_neg h7, if_pos hs]
      obtain ⟨hst, hacc, hstepped, hoff, hrate⟩ := disc_f n (u.syncOffset m) (u.measured n m)
      rw [measured_base hp] at hst hacc hstepped hoff hrate
      exact ⟨hst, hacc, hstepped.trans hs, hoff, hrate⟩
    all_goals
      have hm : ((u.measured n m).base n).st = 1 := by rw [measured_base hp]; exact h1
      have hrecent : ((u.measured n m).base n).recentWith (u.syncOffset m) = (u.base n).recentWith (u.syncOffset m) := by rw [measured_base hp]; rfl
      rw [if_neg (by omega), if_neg (ne_true_of_eq_false hs)]
    · obtain ⟨hst, hstepped, hacc, hsteps⟩ := acquire_agrees hm ((congrArg agree8 hrecent).trans ha)
      rw [measured_base hp] at hacc
      rw [measured_steps] at hsteps
      exact ⟨hst, hstepped, hacc, hsteps⟩
    · obtain ⟨hbase, hsteps⟩ := acquire_disagrees hm ((congrArg agree8 hrecent).trans ha)
      rw [hrecent, measured_base hp] at hbase
      rw [hbase]
      exact ⟨h1, hs, rfl, rfl, hsteps.trans measured_steps⟩
  case near =>
    intro run off h
    obtain ⟨h2, h3, h4, h5⟩ := nextState_near (run := run) h
    rw [h2, h3, h4, h5]
    exact ⟨rfl, rfl, rfl, fun hr => by rw [if_pos (by omega)], fun hr => if_neg (by omega)⟩
  case mid =>
    intro run off hlo hhi
    obtain ⟨h2, h3, h4, h5⟩ := nextState_mid (run := run) hlo hhi
    rw [h2, h3, h4, h5]
    exact ⟨rfl, rfl, rfl, fun hr => by rw [if_pos (by omega)], fun hr => if_neg (by omega)⟩

/-! ## Best master selection (06 R125, R126) -/

section selection

variable {n : Nat} {m : AnnounceMsg} {s : State}

theorem hearAnnounce_noBase (h : s.baseOfDomain m.domain = none) : s.hearAnnounce m = s.upTime fun c => { c with discarded := c.discarded + 1 } := by
  rw [State.hearAnnounce, h]

theorem hearAnnounce_base (h : s.baseOfDomain m.domain = some n) :
    s.hearAnnounce m = (s.setPort m.port fun q => q.setAnn n (some m)).select n := by
  rw [State.hearAnnounce, h]

section best

variable {p : Nat} {a : AnnounceMsg} (hx : s.extPorts n = false) (hb : bestOf (s.candidates n) = some (p, a))

include hx hb

theorem select_foreign (h : s.mayBeGm n = false ∨ annKey a ≤ s.ownKey) : s.select n = (s.roles n (some (p, a))).takeGm n a := by
  have notOwn : ¬(s.mayBeGm n && decide (s.ownKey < annKey a)) = true := by
    rcases h with h | h
    · simp [h]
    · simp [not_lt.2 h]
  rw [State.select, hx, if_neg Bool.false_ne_true, hb]
  exact if_neg notOwn

theorem select_own (hgm : s.mayBeGm n = true) (h : s.ownKey < annKey a) : s.select n = (s.roles n none).becomeGm n := by
  rw [State.select, hx, if_neg Bool.false_ne_true, hb]
  exact if_pos (by simp [hgm, h])

end best

/-! ## The loss of a grandmaster (06 Table 6.4) -/

section alone

variable (hx : s.extPorts n = false) (hgm : s.mayBeGm n = false) (hports : ∀ q ∈ s.time.ports, q.role n ≠ 2 → q.ann n = none)

include hx hgm hports

/-- With no other candidate, and unfit to be grandmaster, the module has none. -/
theorem loseGm_base : ((s.loseGm n).base n).foreign = none ∧ ((s.loseGm n).base n).acc = (s.base n).acc ∧
    ((s.loseGm n).base n).st = (if (s.base n).st = 1 then 0 else if (s.base n).st = 6 then 5 else (s.base n).st) ∧
    ((s.base n).st = 1 → ((s.loseGm n).base n).rate = 0) ∧ ((s.base n).st ≠ 1 → ((s.loseGm n).base n).freq = (s.base n).freq) := by
  obtain ⟨w, hw, hbase⟩ := loseGm_f n s hx hgm hports
  rw [hw, ← hbase]
  exact noGm_f n w

theorem loseGm_st_ne_one : ((s.loseGm n).base n).st ≠ 1 := by
  obtain ⟨-, -, hst, -⟩ := loseGm_base hx hgm hports
  rw [hst]
  split
  · decide
  · split
    · decide
    · assumption

theorem syncLost_holdover (h : ((s.loseGm n).base n).st = 2 ∨ ((s.loseGm n).base n).st = 3 ∨ ((s.loseGm n).base n).st = 4) :
    s.syncLost n = ((s.loseGm n).setRate n ((s.loseGm n).base n).freq).baseTo n 5 := by
  obtain ⟨hf, -⟩ := loseGm_base hx hgm hports
  unfold State.syncLost
  exact if_pos (by simpa [hf, or_assoc] using h)

theorem syncLost_keeps_loss (h : ¬(((s.loseGm n).base n).st = 2 ∨ ((s.loseGm n).base n).st = 3 ∨ ((s.loseGm n).base n).st = 4)) :
    s.syncLost n = s.loseGm n := by
  have h1 := loseGm_st_ne_one hx hgm hports
  unfold State.syncLost
  refine (if_neg ?_).trans (if_neg (by simp [h1]))
  simp only [Bool.and_eq_true, Bool.or_eq_true, decide_eq_true_eq, or_assoc]
  exact fun hn => h hn.2

theorem syncLost_base : ((s.syncLost n).base n).acc = (s.base n).acc ∧
    ((s.base n).st = 1 → ((s.syncLost n).base n).st = 0 ∧ ((s.syncLost n).base n).rate = 0) ∧
    ((s.base n).st = 2 ∨ (s.base n).st = 3 ∨ (s.base n).st = 4 →
      ((s.syncLost n).base n).st = 5 ∧ ((s.syncLost n).base n).rate = clampTo rateMax (s.base n).freq) := by
  obtain ⟨-, hacc, hst, hrate, hfreq⟩ := loseGm_base hx hgm hports
  by_cases h : (s.base n).st = 2 ∨ (s.base n).st = 3 ∨ (s.base n).st = 4
  · have hsame : ((s.loseGm n).base n).st = (s.base n).st := by rw [hst, if_neg (by omega), if_neg (by omega)]
    obtain ⟨hto, hacc', -, -, -, hrate', -⟩ := baseTo_f n 5 ((s.loseGm n).setRate n ((s.loseGm n).base n).freq)
    rw [setRate_self] at hacc' hrate'
    rw [syncLost_holdover hx hgm hports (hsame ▸ h)]
    refine ⟨hacc'.trans hacc, fun h1 => absurd h1 (by omega), fun _ => ⟨hto, ?_⟩⟩
    rw [hrate', hfreq (by omega)]
  · have hnot : ¬(((s.loseGm n).base n).st = 2 ∨ ((s.loseGm n).base n).st = 3 ∨ ((s.loseGm n).base n).st = 4) := by
      rw [hst]
      split
      · omega
      · split <;> omega
    rw [syncLost_keeps_loss hx hgm hports hnot]
    exact ⟨hacc, fun h1 => ⟨hst.trans (if_pos h1), hrate h1⟩, fun hn => absurd hn h⟩

end alone

end selection

/-! ## Peer delay (06 R125, R128) -/

section pdelay

variable {p t1 t2 t3 t4 : Nat} {rate d : Int} {ok : Bool} {s : State}

theorem pdelay_requestReceived (a b : Nat) (h : s.linkUp p = true) : s.pdelay p (.requestReceived a b) = s.emit (.gptp 3 p 0 0) :=
  if_pos h

/-- An exchange that leaves asCapable as it is selects no master anew. -/
theorem pdelay_completed
    (hd : d = (s.rxStamp p t4 - s.txStamp p t1 + ((s.rxStamp p t4 - s.txStamp p t1) * rate).tdiv (2 ^ 40) - ((t3 : Int) - t2)).tdiv 512)
    (hok : ok = true ↔ 0 ≤ d ∧ d ≤ 256 * s.conf.time.thresholdNs) (hcap : (s.port p).asCapable = ok) :
    s.pdelay p (.completed t1 t2 t3 t4 rate) =
      s.setPort p fun q => { q with delay := min 0xFFFFFFFF d.toNat, neighborRate := rate, asCapable := ok } := by
  have decided : (decide (0 ≤ d) && decide (d ≤ 256 * s.conf.time.thresholdNs)) = ok := by
    rw [Bool.eq_iff_iff, hok]
    simp
  subst hd
  simp only [State.pdelay, decided, hcap, if_true]

end pdelay

/-! ## The twin's time (06 R133) -/

section twin

variable {n k st twin : Nat} {rate : Int} {m : Marker} {s : State}

theorem baseTo_ne (h : (n = 0) ≠ (k = 0)) : (s.baseTo n st).base k = s.base k := by
  have moved (u : State) (qs : List (Nat × Nat)) :
      ((u.setBase n fun b => { b with st := st, run := 0, recent := [] }).record 0x0601 qs).base k = u.base k := by
    rw [base_time (rec_time ..), base_ne n k _ u h]
  unfold State.baseTo
  dsimp only
  split
  · rfl
  · split
    · rw [base_time (rec_time ..), up_base _ _ ⟨rfl, rfl⟩, moved]
    · exact moved ..

theorem stepBase_ne (acc : Nat) (h : (n = 0) ≠ (k = 0)) : (s.stepBase n acc).base k = s.base k := by
  unfold State.stepBase
  dsimp only
  rw [base_time (rec_time' ..), up_base _ _ ⟨rfl, rfl⟩, base_ne n k _ s h]

/-- The one step of a base at the entry to SYNCING. -/
def State.entryStep (n twin : Nat) (s : State) : State := if (s.base n).st ≤ 1 && !(s.base n).stepped then s.stepBase n (twin * 2 ^ 32) else s

theorem entryStep_steps (hst : (s.base n).st ≤ 1) (hs : (s.base n).stepped = false) :
    (s.entryStep n twin).base n = { s.base n with acc := twin * 2 ^ 32, stepped := true } := by
  rw [State.entryStep, if_pos (by simp [hst, hs]), stepBase_self]

theorem entryStep_none (h : 1 < (s.base n).st ∨ (s.base n).stepped = true) : s.entryStep n twin = s := by
  refine if_neg ?_
  rcases h with h | h
  · simp [not_le.2 h]
  · simp [h]

theorem entryStep_ne (h : (n = 0) ≠ (k = 0)) : (s.entryStep n twin).base k = s.base k := by
  unfold State.entryStep
  split
  · exact stepBase_ne _ h
  · rfl

/-- After its step a base follows by RATE alone, which is free within its bounds (log 27). -/
theorem followTwin_eq : ∃ r, s.followTwin n twin rate = ((s.entryStep n twin).setRate n r).baseTo n 7 := ⟨_, rfl⟩

theorem followTwin_base : ((s.followTwin n twin rate).base n).st = 7 ∧ ((s.followTwin n twin rate).base n).acc = ((s.entryStep n twin).base n).acc ∧
    ((s.followTwin n twin rate).base n).stepped = ((s.entryStep n twin).base n).stepped ∧
    -549755813 ≤ ((s.followTwin n twin rate).base n).rate ∧ ((s.followTwin n twin rate).base n).rate ≤ 549755813 := by
  obtain ⟨r, e⟩ := followTwin_eq (s := s) (n := n) (twin := twin) (rate := rate)
  obtain ⟨hst, hacc, hstepped, -, -, hrate, -⟩ := baseTo_f n 7 ((s.entryStep n twin).setRate n r)
  rw [setRate_self] at hacc hstepped hrate
  rw [e, hrate]
  exact ⟨hst, hacc, hstepped, clamp_rate r⟩

theorem followTwin_ne (h : (n = 0) ≠ (k = 0)) : (s.followTwin n twin rate).base k = s.base k := by
  obtain ⟨r, e⟩ := followTwin_eq (s := s) (n := n) (twin := twin) (rate := rate)
  rw [e, baseTo_ne h, State.setRate, base_ne n k _ _ h, entryStep_ne h]

/-- The bases after a marker. -/
def State.follows (m : Marker) (s : State) : State :=
  if s.conf.time.domain1 = 0xFF then s.followTwin 0 (m.tb0 + m.roundTrip / 2) m.rate0
  else (s.followTwin 0 (m.tb0 + m.roundTrip / 2) m.rate0).followTwin 1 (m.tb1 + m.roundTrip / 2) m.rate1

theorem follows_base_zero : (s.follows m).base 0 = (s.followTwin 0 (m.tb0 + m.roundTrip / 2) m.rate0).base 0 := by
  unfold State.follows
  split
  · rfl
  · exact followTwin_ne (by simp)

theorem follows_base_one (h : s.conf.time.domain1 ≠ 0xFF) : ((s.follows m).base 1).st = 7 := by
  rw [State.follows, if_neg h]
  exact followTwin_base.1

theorem time_of_recorded (p : Prop) [Decidable p] (ty : Nat) (qs : List (Nat × Nat)) (s : State) : (if p then s.record ty qs else s).time = s.time := by
  split
  · exact rec_time ..
  · rfl

/-- A marker's report and its record leave the bases as they follow. -/
theorem hearMarker_time : ∃ diff far, (s.hearMarker m).time = { (s.follows m).time with twinDiff := diff, twinTimeLost := false, twinFar := far } := by
  have hconf : (s.followTwin 0 (m.tb0 + m.roundTrip / 2) m.rate0).conf = s.conf := conf_of ((followTwin_keeps ..).frame .cfg (by decide))
  unfold State.hearMarker State.follows
  dsimp only
  rw [hconf]
  exact ⟨_, _, time_of_recorded ..⟩

theorem hearMarker_base (k : Nat) : (s.hearMarker m).base k = (s.follows m).base k := by
  obtain ⟨diff, far, e⟩ := hearMarker_time (s := s) (m := m)
  unfold State.base
  rw [e]

theorem hearMarker_timeLost : (s.hearMarker m).time.twinTimeLost = false := by
  obtain ⟨diff, far, e⟩ := hearMarker_time (s := s) (m := m)
  rw [e]

end twin

/-- Settles O26: each command is a selection of the master, a measure of a link, or a step after the twin. -/
theorem grandmastersAndTwinTime : Obligations.GrandmastersAndTwinTime := by
  unfold Obligations.GrandmastersAndTwinTime
  refine ⟨fun t m s hruns => ?announce, fun l => bestOf_min l, ?timeouts, fun t p a b s hruns hlink => ?request, fun t p s hruns => ?lost,
    fun t p t1 t2 t3 t4 rate d s hruns hd ok hok hcap => ?completed, fun t m s hmode => ?marker⟩
  case announce =>
    have heard : exec (.gptpAnnounce t m) s = .next ((s.arrive t).hearAnnounce m).startAgain := (exec_gptpAnnounce ..).trans (happens_of hruns)
    refine ⟨fun hd => ?_, fun n hd hx _ => ?_⟩
    · rw [heard, hearAnnounce_noBase hd]
    · intro u hu
      have selects : (s.arrive t).hearAnnounce m = u.select n := hu ▸ hearAnnounce_base hd
      have hxu : u.extPorts n = false := hu ▸ hx
      refine ⟨_, heard, (hearAnnounce_keeps ..).frame, fun p a hb hforeign h0 => ?_, fun p a hb hgm hown h7 => ?_⟩
      · rw [selects, select_foreign hxu hb hforeign]
        exact takeGm_f n a _ (by rwa [roles_base])
      · obtain ⟨hst, hrate, hacc⟩ := becomeGm_f n (u.roles n none) (by rwa [roles_base])
        rw [roles_base] at hacc
        rw [selects, select_own hxu hb hgm hown]
        exact ⟨hst, hrate, hacc⟩
  case timeouts =>
    intro t n s hruns hn hx hgm hports
    obtain ⟨hforeign, hacc, hst, -, -⟩ := loseGm_base hx hgm hports
    exact ⟨⟨_, (exec_announceReceiptTimeout ..).trans (happens_of (by simp [hruns, hn])), (loseGm_keeps ..).frame, hforeign, hacc, hst⟩,
      ⟨_, (exec_syncReceiptTimeout ..).trans (happens_of (by simp [hruns, hn])), (syncLost_keeps ..).frame, syncLost_base hx hgm hports⟩⟩
  case request => rw [exec_pdelayExchange, execPdelayExchange, happens_of hruns, pdelay_requestReceived a b hlink]
  case lost => exact (exec_pdelayExchange ..).trans (happens_of hruns)
  case completed => rw [exec_pdelayExchange, execPdelayExchange, happens_of hruns, pdelay_completed hd hok hcap]
  case marker =>
    obtain ⟨hst, hacc, hstepped, hrate⟩ :=
      followTwin_base (s := s.arrive t) (n := 0) (twin := m.tb0 + m.roundTrip / 2) (rate := m.rate0)
    refine ⟨_, (exec_timeMarker ..).trans (happens_of (by simpa using hmode)), (hearMarker_keeps ..).frame, ?_⟩
    beta_reduce
    rw [hearMarker_base, hearMarker_base, follows_base_zero, hacc, hstepped]
    refine ⟨hst, follows_base_one, hearMarker_timeLost, fun h hs => ?_, fun h => ?_, hrate⟩
    · rw [entryStep_steps h hs]
      exact ⟨rfl, rfl⟩
    · rw [entryStep_none h]

end Sys2Proof.Machine

/-! Proofs of the statements about the pair: the claims on the HEDGE pins, the Swath link, handovers, the proof of the STANDBY, and flips (O28, O29, O30, O31, O55). -/

namespace Sys2Proof.Machine

/-! ## What a record leaves as it was (17 R372) -/

theorem record_cnt (type : Nat) (qs : List (Nat × Nat)) (s : State) : (s.record type qs).cnt = s.cnt := rec_f _ _ _ .cnt (by decide)

theorem record_pair (type : Nat) (qs : List (Nat × Nat)) (s : State) : (s.record type qs).pair = s.pair := rec_f _ _ _ .pair (by decide)

theorem record_out (type : Nat) (qs : List (Nat × Nat)) (s : State) : (s.record type qs).out = s.out := rec_f _ _ _ .out (by decide)

/-! ## Proof of the STANDBY (07 R172–R174) -/

section proof

variable {s : State} {n : Nat}

/-- The tenth mismatch in a row, and no other, is a failure. -/
theorem readback_differs : (s.readback false).cnt.readbackBad = min 11 (s.cnt.readbackBad + 1) ∧
    (s.readback false).cnt.proof = setBits s.cnt.proof 4 1 0 ∧
    (s.readback false).cnt.proofFails = if s.cnt.readbackBad = 9 then inc32 s.cnt.proofFails else s.cnt.proofFails := by
  unfold State.readback
  dsimp only
  by_cases hten : s.cnt.readbackBad = 9
  · rw [if_pos (by simp [hten]), record_cnt, if_pos hten]
    exact ⟨rfl, rfl, rfl⟩
  · rw [if_neg (by simp; omega), if_neg hten]
    exact ⟨rfl, rfl, rfl⟩

theorem unprovenTick_unproven (h : n < s.cnt.unproven.length) :
    s.unprovenTick.cnt.unproven.getD n 0 = if s.unprovenRuns n then inc32 (s.cnt.unproven.getD n 0) else 0 := by
  refine (mapFrom_getD _ 0 _ 0 n h).trans ?_
  rw [Nat.zero_add]

end proof

/-- Settles O31: a readback that agrees clears the run of mismatches, one that differs lengthens it, and the unproven times count one by one. -/
theorem theStandbyIsProved : Obligations.TheStandbyIsProved := by
  unfold Obligations.TheStandbyIsProved
  refine ⟨fun t s hmode => ?_, fun t s hawake => ?_⟩
  · have reads (agrees : Bool) : exec (.fieldReadback t agrees) s = .next ((s.arrive t).readback agrees) :=
      (exec_fieldReadback ..).trans (happens_of (by simp [hmode]))
    exact ⟨does_keeps (reads true) (readback_keeps ..) ⟨rfl, rfl⟩, does_keeps (reads false) (readback_keeps ..) readback_differs⟩
  · exact does_keeps ((exec_unprovenTick ..).trans (happens_of hawake)) (unprovenTick_keeps _) fun n => unprovenTick_unproven

/-! ## The twin's claim begins (07 R147, R149) -/

section begins

variable {t : Nat} {s : State}

/-- The own claim is young: one of the twin's that begins now ties with it. -/
def State.youngClaim (s : State) : Bool := s.pair.ownClaim && !s.pair.confirmed && decide (s.time.now ≤ s.pair.ownClaimAt + 500)

theorem youngClaim_iff : s.youngClaim = true ↔ s.pair.ownClaim = true ∧ s.pair.confirmed = false ∧ s.time.now ≤ s.pair.ownClaimAt + 500 := by
  simp [State.youngClaim, and_assoc]

theorem youngClaim_false_iff :
    s.youngClaim = false ↔ s.pair.ownClaim = false ∨ s.pair.confirmed = true ∨ s.pair.ownClaimAt + 500 < s.time.now := by
  simp [State.youngClaim, imp_iff_not_or, or_assoc]

/-- The twin's claim is seen at this instant. -/
def State.seeClaim (s : State) : State := s.upPair fun p => { p with twinClaim := true, twinClaimAt := s.time.now }

theorem twinClaims_begins (hc : s.pair.twinClaim = false) : s.twinClaims false = if s.youngClaim then s.seeClaim.tieBreak else s.seeClaim := by
  show (if s.pair.twinClaim then s else if s.youngClaim then s.seeClaim.tieBreak else s.seeClaim) = _
  rw [hc, if_neg (by decide)]

/-- A malformed interval within a claim that is present leaves the claim as it is. -/
theorem twinClaims_malformed (hc : s.pair.twinClaim = true) :
    s.twinClaims true = (s.upPair fun p => { p with malformed := true }).record 0x0205 [] := by
  unfold State.twinClaims State.hedgeIn
  dsimp only
  rw [if_pos rfl, record_pair]
  exact if_pos hc

/-- What a tie counts and records, in either slot. -/
def State.countTie (s : State) : State := (s.upCnt fun k => { k with tieBreaks := inc32 k.tieBreaks }).record 0x0204 []

theorem countTie_f (s : State) : s.countTie.cnt.tieBreaks = inc32 s.cnt.tieBreaks ∧ s.countTie.pair = s.pair ∧ s.countTie.out = s.out :=
  ⟨congrArg PairCnt.tieBreaks (record_cnt ..), record_pair .., record_out ..⟩

/-- The claim is withdrawn with the release pattern. -/
def State.withdraw (s : State) : State :=
  (s.upPair fun p => { p with ownClaim := false, ownReadback := false, confirmed := false, tied := false }).emit (.hedge 2)

theorem tieBreak_eq (s : State) : s.tieBreak = if s.slotB then s.countTie.withdraw else s.countTie.upPair fun p => { p with tied := true } := by
  have hslot : s.countTie.slotB = s.slotB := congrArg (fun p : PairSt => bit p.slotId 0) (countTie_f s).2.1
  rw [← hslot]
  rfl

theorem exec_twinClaimBegin_awake (malformed : Bool) (h : (s.arrive t).awake = true) :
    exec (.twinClaimBegin t malformed) s = .next (State.afterTie (s.arrive t) ((s.arrive t).twinClaims malformed)) :=
  (exec_twinClaimBegin ..).trans (happens_of h)

/-- No start is decided again while the own claim stays as it was. -/
theorem afterTie_keptClaim {v : State} (h : v.pair.ownClaim = s.pair.ownClaim) : State.afterTie s v = v := by
  cases hc : s.pair.ownClaim with
  | false => exact afterTie_id _ _ (.inl hc)
  | true => exact afterTie_id _ _ (.inr (.inr (.inl (h.trans hc))))

theorem claimBegins_alone (hc : s.pair.twinClaim = false) (hy : s.youngClaim = false) : State.afterTie s (s.twinClaims false) = s.seeClaim := by
  rw [twinClaims_begins hc, hy, if_neg (by decide)]
  exact afterTie_keptClaim rfl

/-- What a tie leaves, before a start decides again: slot A keeps its claim, slot B withdraws. -/
theorem twinClaims_tied (hc : s.pair.twinClaim = false) (hy : s.youngClaim = true) : s.twinClaims false =
    if s.slotB then s.seeClaim.countTie.withdraw else s.seeClaim.countTie.upPair fun p => { p with tied := true } := by
  rw [twinClaims_begins hc, hy, if_pos rfl, tieBreak_eq]
  rfl

theorem claimBegins_slotA (hc : s.pair.twinClaim = false) (hy : s.youngClaim = true) (hslot : s.slotB = false) :
    State.afterTie s (s.twinClaims false) = s.seeClaim.countTie.upPair fun p => { p with tied := true } := by
  rw [twinClaims_tied hc hy, hslot, if_neg (by decide)]
  exact afterTie_keptClaim (congrArg PairSt.ownClaim (countTie_f s.seeClaim).2.1 :)

theorem claimBegins_slotB (hc : s.pair.twinClaim = false) (hy : s.youngClaim = true) (hslot : s.slotB = true)
    (h : s.pair.claimKind ≠ 0 ∨ (s.power.mode ≠ 1 ∧ s.power.mode ≠ 7)) :
    State.afterTie s (s.twinClaims false) = s.seeClaim.countTie.withdraw := by
  have hpower : s.seeClaim.countTie.withdraw.power = s.power := record_power ..
  rw [twinClaims_tied hc hy, hslot, if_pos rfl]
  exact afterTie_id _ _ (h.elim (fun h => .inr (.inl h)) fun h => .inr (.inr (.inr (by rwa [hpower]))))

/-- A claim of the start that slot B withdraws: the start is decided again, and the twin's claim sends it to SYNCING (08 R183). -/
theorem claimBegins_starting (hc : s.pair.twinClaim = false) (hy : s.youngClaim = true) (hslot : s.slotB = true) (hk : s.pair.claimKind = 0)
    (hm : s.power.mode = 1 ∨ s.power.mode = 7) : State.afterTie s (s.twinClaims false) = s.seeClaim.countTie.withdraw.beginSync := by
  have hpower : s.seeClaim.countTie.withdraw.power = s.power := record_power ..
  have hclaimed : s.seeClaim.countTie.withdraw.pair.twinClaim = true := congrArg PairSt.twinClaim (countTie_f s.seeClaim).2.1
  rw [twinClaims_tied hc hy, hslot, if_pos rfl, afterTie_go _ _ (youngClaim_iff.1 hy).1 hk rfl (by rwa [hpower])]
  exact if_pos hclaimed

end begins

/-! ## The twin's claim ends (07 R147, R162) -/

section ends

variable {t tf : Nat} {s : State}

/-- The twin's claim is absent from now on. -/
def State.claimGone (tf : Nat) (s : State) : State := s.upPair fun p =>
  { p with twinClaim := false, tied := false, ownClaimAt := if p.tied then s.time.now else p.ownClaimAt, tfAt := if p.yielded then min p.yieldAt tf else tf }

theorem twinAbsent_claimed (hc : s.pair.twinClaim = true) : s.twinAbsent tf = (s.claimGone tf).twinFailed := by
  unfold State.twinAbsent
  rw [hc, if_neg (by decide)]
  rfl

theorem exec_twinClaimAbsent_awake (h : (s.arrive t).awake = true) (hc : (s.arrive t).pair.twinClaim = true) :
    exec (.twinClaimAbsent t false) s = .next ((s.arrive t).claimGone ((s.arrive t).time.now - 3750)).twinFailed.startAgain := by
  rw [exec_twinClaimAbsent, execTwinClaimAbsent, happens_of h, ← twinAbsent_claimed hc]
  rfl

theorem startClaim_free (kind : Nat) (ho : s.pair.ownClaim = false) (hc : s.pair.twinClaim = false) (hr : s.boot.retiring = false) :
    s.startClaim kind = (s.upPair fun p => { p with ownClaim := true, ownClaimAt := s.time.now, confirmed := false, tied := false, claimKind := kind,
                                                    ownReadback := true }).emit (.hedge 1) := by
  simp [State.startClaim, ho, hc, hr]

/-- A synchronised STANDBY whose owner has yielded claims at the release pattern. -/
theorem released_claims (hm : s.power.mode = 4) (hs : s.pair.synced = true) (hy : s.pair.yielded = true) (hc : s.pair.twinClaim = true)
    (ho : s.pair.ownClaim = false) (hr : s.boot.retiring = false) : s.released = (s.upPair fun p =>
      { p with twinClaim := false, tied := false, ownClaimAt := s.time.now, tfAt := min p.yieldAt s.time.now, ownClaim := true,
               confirmed := false, claimKind := 2, ownReadback := true }).emit (.hedge 1) := by
  have hgone : s.twinAbsent s.time.now = s.claimGone s.time.now := by
    rw [twinAbsent_claimed hc]
    exact tf_no _ (.inl ⟨by simp [State.claimGone, hm], .inr hs⟩)
  have hclaims : s.released = (s.claimGone s.time.now).startClaim 2 := by
    unfold State.released
    rw [hgone]
    exact if_pos (by simp [State.claimGone, hm, hs, hy])
  rw [hclaims, startClaim_free (s := s.claimGone s.time.now) 2 ho rfl hr]
  simp [State.claimGone, State.upPair, hy]

/-- A module that need not fail at a YIELD notes it. -/
theorem hearYield_heard (h : s.power.mode ≠ 3 ∧ (s.power.mode ≠ 4 ∨ s.pair.synced = true) ∨ s.pair.twinClaim = true) :
    s.hearYield = s.upPair fun p => { p with yielded := true, yieldAt := s.time.now, tfAt := if p.twinClaim then s.time.now else p.tfAt } :=
  tf_no _ (h.imp id .inl)

theorem mayTakeOver_iff : s.mayTakeOver = true ↔ s.power.mode = 4 ∧ s.pair.synced = true ∧ s.pair.twinClaim = false ∧ s.pair.ownClaim = false ∧
    (s.swathSilent = true ∨ s.pair.yielded = true) := by
  simp [State.mayTakeOver, and_assoc]

end ends

/-! ## The own claim, reports and faults (07 R150, R152, R162, R169; 19 R395) -/

section faults

variable {t : Nat} {s : State}

/-- An owner that no longer reads its own claim back gives the pair up in SAFE HOLD. -/
theorem loseOwnClaim_f (ho : s.pair.owner = true) (hc : s.pair.ownClaim = true) :
    s.loseOwnClaim.power.mode = 7 ∧ s.loseOwnClaim.power.reason = 6 ∧ s.loseOwnClaim.pair.owner = false ∧ s.loseOwnClaim.pair.ownClaim = false ∧
      (s.swathSilent = false → s.loseOwnClaim.out = s.out ++ [.hedge 0, .swath (.yield s.pair.term), .safeStates]) := by
  have hpair := record_pair 0x0205 [] (s.upPair fun p => { p with ownReadback := false })
  obtain ⟨hmode, hreason, howner, hclaim, -, -, -, -, -, -, hout, -⟩ :=
    safeHold_f 6 ((s.upPair fun p => { p with ownReadback := false }).record 0x0205 [])
  rw [State.swathSilent, record_out, hpair] at hout
  exact ⟨hmode, hreason, howner, hclaim, hout ho hc⟩

theorem setHedgeFault_pair (s : State) : s.setHedgeFault.pair = { s.pair with hedgeFault := true } := by
  unfold State.setHedgeFault
  split
  · next h => rw [← h]
  · exact record_pair ..

theorem claimReport_silent (sees readback : Bool) (h : s.swathSilent = true) : s.claimReport sees readback = s := if_pos h

theorem claimReport_unseen (readback : Bool) (h : s.swathSilent = false) (ho : s.pair.owner = true) (hc : s.pair.confirmed = true)
    (hat : s.pair.ownClaimAt + 30000 ≤ s.time.now) : s.claimReport false readback = s.setHedgeFault := by
  simp [State.claimReport, h, ho, hc, hat]

/-- The owner's readback shows a claim that the STANDBY does not see. -/
theorem claimReport_unheard (sees : Bool) (h : s.swathSilent = false) (hm : s.power.mode = 4) (ho : s.pair.owner = false)
    (hc : s.pair.twinClaim = false) (hy : s.pair.yielded = false) : s.claimReport sees true = s.setHedgeFault := by
  simp [State.claimReport, h, ho, hm, hc, hy]

end faults

/-- Settles O28: each claim, its end and each report is one operation on the pair, and what a start or a tie decides follows it. -/
theorem claimsFollowTheHedge : Obligations.ClaimsFollowTheHedge := by
  unfold Obligations.ClaimsFollowTheHedge
  refine ⟨fun t s ho hc => ?lost, fun t s hw hc => ⟨fun h => ?alone, fun ho hconf hat => ⟨fun hslot => ?slotA, fun hslot h => ?slotB, fun hslot hk hm => ?start⟩⟩,
    fun t s hw hc => ⟨?malformed, fun h => ?absent, fun hu h => ?unsynced, fun hm hs hy ho hr => ?released⟩, fun t s hm hs hc ho h hr => ?takeover,
    fun t term s hw h => ?yield, fun t sees readback s hw => ?report, fun t s hw hy hc hat => ?present, fun s => ⟨setHedgeFault_pair s, (setHedgeFault_keeps s).frame⟩,
    fun t s hm hs hsil hc hat => ?isolated⟩
  case lost => exact does_keeps ((exec_ownClaimLost ..).trans (happens_of (by simp [ho, hc]))) (loseOwnClaim_keeps _) (loseOwnClaim_f ho hc)
  case alone => rw [exec_twinClaimBegin_awake _ hw, claimBegins_alone hc (youngClaim_false_iff.2 h), State.seeClaim]
  case slotA =>
    obtain ⟨hties, hpair, hout⟩ := countTie_f (s.arrive t).seeClaim
    refine ⟨_, exec_twinClaimBegin_awake _ hw, ?_⟩
    rw [claimBegins_slotA hc (youngClaim_iff.2 ⟨ho, hconf, hat⟩) hslot, State.upPair_pair, hpair]
    exact ⟨hties, rfl, hout⟩
  case slotB =>
    obtain ⟨hties, hpair, hout⟩ := countTie_f (s.arrive t).seeClaim
    refine ⟨_, exec_twinClaimBegin_awake _ hw, ?_⟩
    rw [claimBegins_slotB hc (youngClaim_iff.2 ⟨ho, hconf, hat⟩) hslot h, State.withdraw, State.emit_pair, State.upPair_pair, hpair, State.emit_out, State.upPair_out, hout]
    exact ⟨hties, rfl, rfl⟩
  case start =>
    obtain ⟨hmode, hclaim, hties⟩ := beginSync_f (s.arrive t).seeClaim.countTie.withdraw
    refine ⟨_, exec_twinClaimBegin_awake _ hw, ?_⟩
    rw [claimBegins_starting hc (youngClaim_iff.2 ⟨ho, hconf, hat⟩) hslot hk hm]
    exact ⟨hmode, hclaim, hties.trans (countTie_f _).1⟩
  case malformed =>
    rw [exec_twinClaimBegin_awake _ hw, twinClaims_malformed hc, afterTie_keptClaim]
    rw [record_pair]
    rfl
  case absent =>
    have hstays : ((s.arrive t).claimGone ((s.arrive t).time.now - 3750)).twinFailed = (s.arrive t).claimGone ((s.arrive t).time.now - 3750) :=
      tf_no _ (h.imp id .inr)
    rw [exec_twinClaimAbsent_awake hw hc, hstays]
    rfl
  case unsynced =>
    have hfails := tf_yes ((s.arrive t).claimGone ((s.arrive t).time.now - 3750)) hu rfl h
    obtain ⟨hmode, hreason, -, -, -, -, -, hclaim, -⟩ := safeHold_f 0xA ((s.arrive t).claimGone ((s.arrive t).time.now - 3750))
    exact ⟨_, exec_twinClaimAbsent_awake hw hc, by rw [hfails]; exact ⟨hmode, hreason, hclaim⟩⟩
  case released =>
    rw [exec_releasePattern, execReleasePattern, happens_of hw, State.hedgeIn, if_neg (by decide), released_claims hm hs hy hc ho hr]
    exact congrArg _ (startAgain_id _ (by simp [hm]))
  case takeover =>
    rw [exec_takeover, execTakeover, happens_of (mayTakeOver_iff.2 ⟨hm, hs, hc, ho, h⟩)]
    exact congrArg _ (startClaim_free (s := (s.arrive t).upLock fun l => { l with lbistRunning := none }) 1 ho hc hr)
  case yield =>
    rw [exec_yield, execYield, happens_of hw, hearYield_heard h]
  case report =>
    have reports (sees readback : Bool) : exec (.claimReport t sees readback) s = .next ((s.arrive t).claimReport sees readback) :=
      (exec_claimReport ..).trans (happens_of hw)
    exact ⟨fun h => by rw [reports, claimReport_silent _ _ h], fun h ho hc hat => by rw [reports, claimReport_unseen _ h ho hc hat],
      fun h hm ho hc hy => by rw [reports, claimReport_unheard _ h hm ho hc hy]⟩
  case present => exact (exec_yieldClaimStillPresent ..).trans (happens_of (by simp [hw, hy, hc, hat]))
  case isolated => exact (exec_isolated ..).trans (happens_of (by simp [hm, hs, hsil, hc, hat]))

/-! ## A lane starts up (13 R311; 19 R395) -/

section startUp

variable {l proto min slotId : Nat} {s : State}

theorem compatible_iff (a b c d : Nat) : compatible a b c d = true ↔ a = c ∨ (a < c ∧ d ≤ a) ∨ (c < a ∧ b ≤ c) := by
  unfold compatible
  split
  · simp [*]
  · split <;> simp only [decide_eq_true_eq] <;> omega

/-- The protocols are exchanged over the lane. -/
def State.greet (l proto min : Nat) (s : State) : State :=
  (s.upSheaf fun h => { h with twinProto := proto, twinMin := min }).emit (.swath (.laneStart l s.sheaf.proto s.sheaf.min s.pair.slotId))

/-- The twins' SLOT_ID readings do not belong to one pair: the same slot letter, or two positions. -/
def State.slotsClash (s : State) (slotId : Nat) : Bool := bit slotId 0 == bit s.pair.slotId 0 || bits slotId 1 5 != bits s.pair.slotId 1 5

/-- A lane starts up as far as the readings decide. -/
def State.meet (l proto min slotId : Nat) (s : State) : State :=
  if s.slotsClash slotId then (s.greet l proto min).setHedgeFault else s.greet l proto min

theorem meet_f (l proto min slotId : Nat) (s : State) :
    (s.meet l proto min slotId).sheaf = { s.sheaf with twinProto := proto, twinMin := min } ∧ (s.meet l proto min slotId).power = s.power ∧
      (s.meet l proto min slotId).out = s.out ++ [.swath (.laneStart l s.sheaf.proto s.sheaf.min s.pair.slotId)] ∧
      (s.meet l proto min slotId).pair = { s.pair with hedgeFault := s.pair.hedgeFault || s.slotsClash slotId } := by
  unfold State.meet
  split
  · next h =>
    obtain ⟨-, hout, hsheaf, hpower, -⟩ := setHedgeFault_keep (s.greet l proto min)
    rw [hsheaf, hpower, hout, setHedgeFault_pair, h, Bool.or_true]
    exact ⟨rfl, rfl, rfl, rfl⟩
  · next h =>
    rw [Bool.eq_false_iff.2 h, Bool.or_false]
    exact ⟨rfl, rfl, rfl, rfl⟩

/-- What the protocols decide: an incompatible twin brings no lane up, and a lane that ends the silence of a STANDBY ends its synchronisation. -/
def State.openLane (l proto min : Nat) (s : State) : State :=
  if !compatible s.sheaf.proto s.sheaf.min proto min then s.record 0x0200 [(2, proto), (2, min)]
  else if s.swathSilent && s.power.mode == 4 then (s.upPair (setLane l true)).resync
  else s.upPair (setLane l true)

theorem startLane_eq (l proto min slotId : Nat) (s : State) : s.startLane l proto min slotId = (s.meet l proto min slotId).openLane l proto min := rfl

theorem openLane_incompatible (h : compatible s.sheaf.proto s.sheaf.min proto min = false) :
    s.openLane l proto min = s.record 0x0200 [(2, proto), (2, min)] := if_pos (by simp [h])

theorem openLane_compatible (h : compatible s.sheaf.proto s.sheaf.min proto min = true) : s.openLane l proto min =
    if s.swathSilent = true ∧ s.power.mode = 4 then (s.upPair (setLane l true)).resync else s.upPair (setLane l true) := by
  simp [State.openLane, h]

/-- Whatever a lane decides, the exchange itself stands. -/
theorem openLane_f (l proto min : Nat) (s : State) : (s.openLane l proto min).sheaf.twinProto = s.sheaf.twinProto ∧
    (s.openLane l proto min).sheaf.twinMin = s.sheaf.twinMin ∧ (s.openLane l proto min).out = s.out ∧
    (s.openLane l proto min).pair.hedgeFault = s.pair.hedgeFault := by
  have hlane (p : PairSt) : (setLane l true p).hedgeFault = p.hedgeFault := by unfold setLane; split <;> rfl
  cases hc : compatible s.sheaf.proto s.sheaf.min proto min with
  | false =>
    rw [openLane_incompatible hc, record_pair, record_out, rec_f _ _ _ .sheaf (by decide)]
    exact ⟨rfl, rfl, rfl, rfl⟩
  | true =>
    rw [openLane_compatible hc]
    split
    · next h =>
      obtain ⟨-, -, -, hout, hproto, hmin, hfault⟩ := resync_yes (s.upPair (setLane l true)) h.2
      exact ⟨hproto, hmin, hout, hfault.trans (hlane _)⟩
    · exact ⟨rfl, rfl, rfl, hlane _⟩

theorem openLane_opens (h : compatible s.sheaf.proto s.sheaf.min proto min = true) :
    (if l = 0 then (s.openLane l proto min).pair.lane0 else (s.openLane l proto min).pair.lane1) = true ∧
      (s.openLane l proto min).power.mode = if s.swathSilent = true ∧ s.power.mode = 4 then 3 else s.power.mode := by
  have hopen := setLane_f l true s.pair
  by_cases hends : s.swathSilent = true ∧ s.power.mode = 4
  · obtain ⟨hmode, hl0, hl1, -⟩ := resync_yes (s.upPair (setLane l true)) hends.2
    rw [(openLane_compatible h).trans (if_pos hends), if_pos hends, hl0, hl1]
    exact ⟨hopen, hmode⟩
  · rw [(openLane_compatible h).trans (if_neg hends), if_neg hends]
    exact ⟨hopen, rfl⟩

theorem startLane_f (l proto min slotId : Nat) (s : State) : (s.startLane l proto min slotId).sheaf.twinProto = proto ∧
    (s.startLane l proto min slotId).sheaf.twinMin = min ∧
    (s.startLane l proto min slotId).out = s.out ++ [.swath (.laneStart l s.sheaf.proto s.sheaf.min s.pair.slotId)] ∧
    (s.startLane l proto min slotId).pair.hedgeFault = (s.pair.hedgeFault || s.slotsClash slotId) := by
  obtain ⟨hsheaf, -, hout, hpair⟩ := meet_f l proto min slotId s
  obtain ⟨hp, hm, ho, hf⟩ := openLane_f l proto min (s.meet l proto min slotId)
  rw [startLane_eq, hp, hm, ho, hf, hsheaf, hpair]
  exact ⟨rfl, rfl, hout, rfl⟩

theorem startLane_incompatible (slotId : Nat) (h : compatible s.sheaf.proto s.sheaf.min proto min = false) :
    (s.startLane l proto min slotId).pair.lane0 = s.pair.lane0 ∧ (s.startLane l proto min slotId).pair.lane1 = s.pair.lane1 ∧
      (s.startLane l proto min slotId).power = s.power := by
  obtain ⟨hsheaf, hpower, -, hpair⟩ := meet_f l proto min slotId s
  rw [startLane_eq, openLane_incompatible (by rw [hsheaf]; exact h), record_pair, record_power, hpair, hpower]
  exact ⟨rfl, rfl, rfl⟩

theorem startLane_compatible (slotId : Nat) (h : compatible s.sheaf.proto s.sheaf.min proto min = true) :
    (if l = 0 then (s.startLane l proto min slotId).pair.lane0 else (s.startLane l proto min slotId).pair.lane1) = true ∧
      (s.startLane l proto min slotId).power.mode = if s.swathSilent = true ∧ s.power.mode = 4 then 3 else s.power.mode := by
  obtain ⟨hsheaf, hpower, -, hpair⟩ := meet_f l proto min slotId s
  obtain ⟨hopen, hmode⟩ := openLane_opens (s := s.meet l proto min slotId) (l := l) (by rw [hsheaf]; exact h)
  rw [hpower, State.swathSilent, hpair] at hmode
  exact ⟨hopen, hmode⟩

end startUp

/-! ## A lane goes down (07 R152) -/

section down

variable {t l : Nat} {s : State}

/-- The link that has just fallen silent. -/
def State.silence (l : Nat) (s : State) : State :=
  ((s.upPair (setLane l false)).upPair fun p => { p with silentAt := s.time.now, twinHomeArmed := false }).loseMarkers

theorem laneDown_oneLeft (h : (s.upPair (setLane l false)).swathSilent = false) : s.laneDown l = s.upPair (setLane l false) :=
  if_neg (by simp [h])

theorem laneDown_last (hup : s.swathSilent = false) (h : (s.upPair (setLane l false)).swathSilent = true) :
    s.laneDown l = (s.silence l).twinFailed := if_pos (by simp [h, hup])

theorem silence_f (l : Nat) (s : State) : (s.silence l).pair = { setLane l false s.pair with silentAt := s.time.now, twinHomeArmed := false } ∧
    (s.silence l).power = s.power :=
  ⟨(loseMarkers_keeps _).frame .pair (by decide), (loseMarkers_keeps _).frame .power (by decide)⟩

theorem twinFailed_lanes (s : State) : s.twinFailed.pair.lane0 = s.pair.lane0 ∧ s.twinFailed.pair.lane1 = s.pair.lane1 ∧
    s.twinFailed.pair.silentAt = s.pair.silentAt := by
  unfold State.twinFailed
  split
  · obtain ⟨-, -, -, -, -, -, -, -, -, -, -, -, -, -, hlanes⟩ := safeHold_f 0xA s
    exact hlanes
  · exact ⟨rfl, rfl, rfl⟩

/-- The last lane goes down: a module that is not synchronised fails with its twin, any other goes on. -/
theorem laneDown_silences (h0 : s.pair.lane0 = true) (h1 : s.pair.lane1 = false) :
    (s.laneDown 0).pair.lane0 = false ∧ (s.laneDown 0).pair.lane1 = false ∧ (s.laneDown 0).pair.silentAt = s.time.now ∧
      ((s.power.mode = 3 ∨ s.power.mode = 4 ∧ s.pair.synced = false) → s.pair.twinClaim = false →
        (s.laneDown 0).power.mode = 7 ∧ (s.laneDown 0).power.reason = 0xA) ∧
      ((s.power.mode ≠ 3 ∧ (s.power.mode ≠ 4 ∨ s.pair.synced = true) ∨ s.pair.twinClaim = true) → (s.laneDown 0).power = s.power) := by
  obtain ⟨hpair, hpower⟩ := silence_f 0 s
  obtain ⟨hl0, hl1, hat⟩ := twinFailed_lanes (s.silence 0)
  have hsilent : (s.silence 0).swathSilent = true := by rw [State.swathSilent, hpair]; simp [setLane, h1]
  rw [laneDown_last (by simp [State.swathSilent, h0]) (by simp [State.swathSilent, setLane, h1])]
  refine ⟨hl0.trans (by rw [hpair]; rfl), hl1.trans (by rw [hpair]; exact h1), hat.trans (by rw [hpair]), fun hu hc => ?_, fun hgoes => ?_⟩
  · rw [tf_yes (s.silence 0) (by rw [hpower, hpair]; exact hu) (by rw [hpair]; exact hc) (.inl hsilent)]
    obtain ⟨hmode, hreason, -⟩ := safeHold_f 0xA (s.silence 0)
    exact ⟨hmode, hreason⟩
  · rw [tf_no (s.silence 0) (by rw [hpower, hpair]; exact hgoes.imp id .inl), hpower]

end down

/-! ## The loopback test (07 R172) -/

section loopback

variable {l n : Nat} {s : State}

theorem proved_passes (n : Nat) (s : State) : s.proved n true = s.upCnt fun k => { k with proof := setBits k.proof n 1 1 } := rfl

theorem proved_fails (n : Nat) (s : State) : (s.proved n false).cnt.proof = setBits s.cnt.proof n 1 0 ∧
    (s.power.mode = 4 → (s.proved n false).cnt.proofFails = inc32 s.cnt.proofFails) := by
  unfold State.proved
  dsimp only
  split
  · rw [record_cnt]
    exact ⟨rfl, fun _ => rfl⟩
  · next h => exact ⟨rfl, fun hm => absurd (by simp [hm]) h⟩

theorem loopback_passes (l : Nat) (s : State) : s.loopback l true =
    (s.proved 3 true).upPair fun p => { p with loopOk := setBits p.loopOk l 1 1 } := rfl

/-- A failed test counts against the proof, and the lane goes down. -/
def State.failLane (l : Nat) (s : State) : State := ((s.proved 3 false).upPair fun p => { p with loopOk := setBits p.loopOk l 1 0 }).laneDown l

theorem loopback_fails_eq (l : Nat) (s : State) :
    s.loopback l false = if (s.failLane l).swathSilent then (s.failLane l).resync else s.failLane l := rfl

theorem failLane_f (l : Nat) (s : State) : (if l = 0 then (s.failLane l).pair.lane0 else (s.failLane l).pair.lane1) = false ∧
    (s.failLane l).cnt = (s.proved 3 false).cnt := laneDown_f l _

theorem resync_proof (s : State) : s.resync.cnt.proof = s.cnt.proof ∧ s.resync.cnt.proofFails = s.cnt.proofFails := by
  obtain ⟨-, -, hcnt⟩ := resync_g s
  exact ⟨(congrArg PairCnt.proof hcnt :), (congrArg PairCnt.proofFails hcnt :)⟩

/-- With both lanes down after the test the synchronisation ends too, which leaves the result of the test. -/
theorem loopback_fails (l : Nat) (s : State) :
    (if l = 0 then (s.loopback l false).pair.lane0 else (s.loopback l false).pair.lane1) = false ∧
      (s.loopback l false).cnt.proof = setBits s.cnt.proof 3 1 0 ∧
      (s.power.mode = 4 → (s.loopback l false).cnt.proofFails = inc32 s.cnt.proofFails) := by
  obtain ⟨hlane, hcnt⟩ := failLane_f l s
  by_cases h : (s.failLane l).swathSilent = true
  · obtain ⟨hl0, hl1, -⟩ := resync_g (s.failLane l)
    obtain ⟨hproof, hfails⟩ := resync_proof (s.failLane l)
    rw [(loopback_fails_eq ..).trans (if_pos h), hl0, hl1, hproof, hfails, hcnt]
    exact ⟨hlane, proved_fails 3 s⟩
  · rw [(loopback_fails_eq ..).trans (if_neg h), hcnt]
    exact ⟨hlane, proved_fails 3 s⟩

end loopback

/-! ## Reports of the twin (08 R179) -/

/-- A twin that no longer reports holds nothing, and leaves its owner SOLO. -/
theorem twinSilent_f (s : State) : s.twinSilent.pair.twinMode = 0 ∧ s.twinSilent.pair.homeArmed = false ∧ s.twinSilent.cfg.checkedTwin = false ∧
    s.twinSilent.pair.owner = s.pair.owner ∧ s.twinSilent.power.mode = if s.power.mode = 5 ∧ s.pair.owner = true then 6 else s.power.mode := by
  have hcfg (w : State) : (w.goMode 6 0).cfg = w.cfg := (goMode_keeps 6 0 w).frame .cfg (by decide)
  unfold State.twinSilent
  by_cases h : s.power.mode = 5 ∧ s.pair.owner = true
  · dsimp only
    rw [if_pos (by simp [h]), if_pos h, goMode_pair, goMode_power, hcfg]
    exact ⟨rfl, rfl, rfl, by simp, rfl⟩
  · dsimp only
    rw [if_neg (by simpa using h), if_neg h]
    exact ⟨rfl, rfl, rfl, rfl, rfl⟩

/-- Settles O29: each event on a lane, and the twin's silence, is one operation on the link, and a start that waits follows it. -/
theorem swathLinkAndTwin : Obligations.SwathLinkAndTwin := by
  unfold Obligations.SwathLinkAndTwin
  refine ⟨fun t lane proto min slotId s hw hl => ?startUp, compatible_iff, fun t lane s hw => ⟨?sound, ?broken⟩,
    fun t s hw => ⟨fun h1 => ?lane0, fun h0 => ?lane1, fun h0 h1 => ?last⟩, fun t lane s hm hl => ⟨?passed, ?failed⟩, fun t s hw hat => ?silent⟩
  case startUp =>
    obtain ⟨hproto, hmin, hout, hfault⟩ := startLane_f lane proto min slotId (s.arrive t)
    refine does_keeps ((exec_laneStartUp ..).trans (happens_of (by simp [hw, hl]))) (startLane_keeps ..)
      ⟨hproto, hmin, hout, fun h => ?_, startLane_incompatible slotId, startLane_compatible slotId⟩
    have hclash : (s.arrive t).slotsClash slotId = true := by simpa [State.slotsClash] using h
    rw [hfault, hclash, Bool.or_true]
  case sound => exact (exec_swathBlockReceived ..).trans (happens_of hw)
  case broken => exact (exec_swathBlockReceived ..).trans (happens_of hw)
  case lane0 =>
    rw [exec_laneDown, execLaneDown, happens_of (by simp [hw]), laneDown_oneLeft (by simp [State.swathSilent, setLane, h1])]
    rfl
  case lane1 =>
    rw [exec_laneDown, execLaneDown, happens_of (by simp [hw]), laneDown_oneLeft (by simp [State.swathSilent, setLane, h0])]
    rfl
  case last => exact ⟨_, (exec_laneDown ..).trans (happens_of (by simp [hw])), laneDown_silences h0 h1⟩
  case passed =>
    refine ⟨(s.arrive t).loopback lane true, ?_, ?_, rfl, rfl⟩
    · rw [exec_swathLoopback, execSwathLoopback, happens_of (by simpa [hl] using hm)]
      exact congrArg _ (startAgain_id _ (by rcases hm with hm | hm <;> simp [loopback_passes, proved_passes, hm]))
    · rw [loopback_passes, proved_passes]
      exact ((upPair_keeps _ _ id).chain ((upCnt_keeps ..).mono (by decide))).frame
  case failed => exact ⟨_, (exec_swathLoopback ..).trans (happens_of (by simpa [hl] using hm)), loopback_fails lane _⟩
  case silent => exact does_keeps ((exec_twinReportTimeout ..).trans (happens_of (by simp [hw, hat]))) (twinSilent_keeps _) (twinSilent_f _)

/-! ## Handovers (07 R166–R168) -/

section handovers

variable {s : State} {h : HandoverSt}

theorem homeDeferred_iff : s.homeDeferred = true ↔ s.cfg.armed ≠ none ∨ s.sheaf.st = 6 ∨ s.sheaf.twinState = 6 ∨ s.pair.hedgeFault = true := by
  simp [State.homeDeferred, State.inTrial, Option.isSome_iff_ne_none, or_assoc]

theorem allAcked_iff : s.allAcked = true ↔ ∀ e ∈ s.cnt.acked, e.2 = 0 := by
  simp [State.allAcked]

theorem checkHandover_ready (ha : ∀ e ∈ s.cnt.acked, e.2 = 0) (ht : s.twinSynced = true) : s.checkHandover = s := by
  rw [State.checkHandover, if_pos (by simp [allAcked_iff.2 ha, ht])]

theorem checkHandover_unready (hno : (∃ e ∈ s.cnt.acked, e.2 ≠ 0) ∨ s.twinSynced = false) : s.checkHandover = s.deferHandover := by
  have hcond : ¬(s.allAcked && s.twinSynced) = true := by
    rw [Bool.and_eq_true, allAcked_iff]
    rintro ⟨ha, ht⟩
    rcases hno with ⟨e, he, hne⟩ | hno
    · exact hne (ha e he)
    · simp [ht] at hno
  rw [State.checkHandover, if_neg hcond]

/-- The boundary to which a handover moves: class A for an ejection, else class D. -/
def State.nextHandoverAt (s : State) (h : HandoverSt) : Nat := s.nextT0 (if h.kind = 4 then 0 else 3) (h.th + 1)

theorem deferHandover_moves (ha : s.pair.armed = some h) (hk : h.kind ≠ 0 ∨ h.deferrals < 2) : s.deferHandover =
    s.countDeferral.upPair fun p => { p with armed := some { h with th := s.nextHandoverAt h, deferrals := h.deferrals + 1 } } := by
  have hcond : ¬(decide (h.kind = 0) && decide (3 ≤ h.deferrals + 1)) = true := by simp; omega
  rw [State.deferHandover, ha]
  dsimp only
  rw [if_neg hcond]
  rfl

theorem dropHandover_armed (st : Nat) (ha : s.pair.armed = some h) :
    s.dropHandover st = (s.endJob h.job st []).upPair fun p => { p with armed := none, homeArmed := false } := by
  rw [State.dropHandover, ha]

theorem deferHandover_drops (ha : s.pair.armed = some h) (hk : h.kind = 0) (hd : 2 ≤ h.deferrals) :
    s.deferHandover = (s.countDeferral.endJob h.job (if s.twinSynced then stTimeout else stState) []).upPair
      fun p => { p with armed := none, homeArmed := false } := by
  have hcond : (decide (h.kind = 0) && decide (3 ≤ h.deferrals + 1)) = true := by simp; omega
  rw [State.deferHandover, ha]
  dsimp only
  rw [if_pos hcond]
  exact dropHandover_armed (s := s.countDeferral) _ ha

/-- Handing over leaves the mode, and ends the claim and what this module issues. -/
theorem handOver_f (s : State) :
    s.handOver.pair = { s.pair with owner := false, ownClaim := false, confirmed := false, ownReadback := false, tied := false, ownerSince := s.tb3s } ∧
      s.handOver.cnt = { s.cnt with handovers := inc32 s.cnt.handovers } ∧ s.handOver.cyc = s.cyc.stop ∧
      s.handOver.sched = { s.sched with frames := [] } ∧ s.handOver.can = s.can.map CanCh.monitor ∧
      s.handOver.out = s.out ++ (if s.swathSilent then [] else [.swath (.yield s.pair.term)]) ++ [.hedge 2] := by
  unfold State.handOver State.sendYield
  split
  · refine ⟨rfl, rfl, rfl, rfl, rfl, ?_⟩
    rw [List.append_nil]
    rfl
  · exact ⟨rfl, rfl, rfl, rfl, rfl, rfl⟩

end handovers

/-! ## The end of a handover (07 R167, R168, R175) -/

section standby

variable {s : State} {h : HandoverSt}

/-- The pair's part of the entry into STANDBY. -/
def State.standby (s : State) (h : HandoverSt) : State :=
  (s.endJob h.job stOk []).upPair fun p =>
    { p with armed := none, homeArmed := false, twinHomeArmed := false, synced := true, isolated := false, yielded := false, copyDone := true,
             settleFrom := s.time.now, provingFrom := if h.kind = 2 then some s.tb3s else none }

/-- Both bases follow the twin's, or base 0 alone where domain 1 is unused. -/
def State.basesFollow (s : State) : State :=
  if s.conf.time.domain1 = 0xFF then s.baseTo 0 7 else (s.baseTo 0 7).baseTo 1 7

theorem basesFollow_keeps (s : State) : Keeps [.cache, .time, .log] s s.basesFollow :=
  Keeps.ite (baseTo_keeps ..) ((baseTo_keeps ..).chain (baseTo_keeps ..))

theorem becomeStandby_armed (ha : s.pair.armed = some h) (h4 : h.kind ≠ 4) (h5 : h.kind ≠ 5) :
    s.becomeStandby = (s.standby h).basesFollow.goMode 4 0 := by
  have hconf : ((s.standby h).baseTo 0 7).conf = (s.standby h).conf := baseTo_conf ..
  rw [State.becomeStandby, ha]
  dsimp only
  rw [if_neg h4, if_neg h5]
  unfold State.basesFollow
  rw [← hconf]
  rfl

theorem basesFollow_base (s : State) : (s.basesFollow.base 0).st = 7 ∧ (s.basesFollow.base 0).acc = (s.base 0).acc := by
  unfold State.basesFollow
  split
  · exact baseTo0 s
  · rw [baseTo10]
    exact baseTo0 s

theorem becomeStandby_f (ha : s.pair.armed = some h) (h4 : h.kind ≠ 4) (h5 : h.kind ≠ 5) :
    s.becomeStandby.power.mode = 4 ∧ s.becomeStandby.pair.synced = true ∧ s.becomeStandby.pair.armed = none ∧
      s.becomeStandby.pair.owner = false ∧ (s.becomeStandby.base 0).st = 7 ∧ (s.becomeStandby.base 0).acc = (s.base 0).acc ∧
      s.becomeStandby.pair.provingFrom = if h.kind = 2 then some s.tb3s else none := by
  rw [becomeStandby_armed ha h4 h5]
  obtain ⟨hst, hacc⟩ := basesFollow_base (s.standby h)
  have hpair : (s.standby h).basesFollow.pair = (s.standby h).pair := (basesFollow_keeps _).frame .pair (by decide)
  have htime (w : State) : (w.goMode 4 0).time = w.time := (goMode_keeps 4 0 w).frame .time (by decide)
  rw [goMode_power, goMode_pair, base_time (htime _), hpair]
  exact ⟨rfl, rfl, rfl, by simp, hst, hacc, rfl⟩

end standby

/-! ## Home return and proving (07 R170, R171, R175) -/

section home

variable {t : Nat} {s : State}

/-- The class-D boundary for which an owner arms a handover of its own. -/
def State.homeAt (s : State) : Nat := s.nextT0 3 (s.tb0 + 1)

theorem homeHandover_deferred (kind : Nat) (h : s.homeDeferred = true ∨ s.power.mode ≠ 5 ∨ s.twinSynced = false) :
    s.homeHandover kind = s.countDeferral := by
  rw [State.homeHandover, if_pos]
  rcases h with h | h | h <;> simp [h]

theorem homeHandover_arms {kind : Nat} (hk : kind = 1 ∨ kind = 2) (hd : s.homeDeferred = false) (hm : s.power.mode = 5) (ht : s.twinSynced = true)
    (ha : s.pair.armed = none) : s.homeHandover kind =
      (s.upPair fun p => { p with armed := some { kind := kind, th := s.homeAt, deferrals := 0, job := 0 }, homeArmed := true }).emit
        (.swath (.armHandover s.homeAt)) := by
  rw [State.homeHandover, if_neg (by simp [hd, hm, ht]), if_neg (by simp [ha])]
  have harms : (s.pair.homeArmed || kind == 1 || kind == 2 || kind == 3) = true := by rcases hk with rfl | rfl <;> simp
  unfold State.armHandover State.upPair
  dsimp only
  rw [harms]
  rfl

theorem proveDue_iff : s.proveDue = true ↔ s.pair.owner = true ∧ s.conf.pair.proveEnable = true ∧ s.pair.armed = none ∧
    s.pair.ownerSince + 3600 * s.conf.pair.provePeriodH ≤ s.tb3s := by
  simp [State.proveDue, and_assoc]

theorem settled_iff : s.settled = true ↔ s.power.mode = 4 ∧ s.pair.synced = true ∧ s.inHomeSlot = true ∧ s.conf.pair.homeSettle ≠ 0 ∧
    s.pair.settleFrom + 250000000 * s.conf.pair.homeSettle ≤ s.time.now := by
  simp [State.settled, secTicks, Nat.mul_comm, and_assoc]

theorem requestHome_deferred (h : s.homeDeferred = true ∨ s.pair.twinMode ≠ 5) : s.requestHome = s.countDeferral := by
  rw [State.requestHome, if_pos]
  rcases h with h | h <;> simp [h]

theorem requestHome_asks (hd : s.homeDeferred = false) (ht : s.pair.twinMode = 5) :
    s.requestHome = (s.upPair fun p => { p with twinHomeArmed := true }).emit (.swath .requestHandover) := by
  rw [State.requestHome, if_neg (by simp [hd, ht])]

theorem dwellDue_of {a : Nat} (hm : s.power.mode = 4) (hs : s.pair.synced = true) (hp : s.pair.provingFrom = some a)
    (hd : a + s.conf.pair.proveDwellS ≤ s.tb3s) : s.dwellDue = true := by
  simp [State.dwellDue, hm, hs, hp, hd]

end home

/-- Settles O30: each command runs one operation on the armed handover, and defers it or goes on. -/
theorem handoversRunTheirTimeline : Obligations.HandoversRunTheirTimeline := by
  unfold Obligations.HandoversRunTheirTimeline
  refine ⟨fun t h s ho ha => ?armed, fun t h s hm ho hc ha hth h4 h5 => ?standby, fun t s hm hs hslot hset hnow => ?settle, fun t s ho => ?owner,
    fun t a s hm hs hp hd => (exec_proveDwellExpiry ..).trans (happens_of (dwellDue_of hm hs hp hd)), fun s => homeDeferred_iff,
    fun x a s => nextT0_f x a s⟩
  case armed =>
    have checks : exec (.handoverArmCheck t) s = .next (s.arrive t).checkHandover :=
      (exec_handoverArmCheck ..).trans (happens_of (by simp [ho, ha]))
    refine ⟨fun hacked ht => checks.trans (by rw [checkHandover_ready hacked ht]), fun hno hk => ?_, fun hno hk hd => ?_, fun ht hth => ?_⟩
    · refine does_keeps checks (checkHandover_keeps _) ?_
      rw [checkHandover_unready hno, deferHandover_moves ha hk]
      exact ⟨rfl, rfl, rfl⟩
    · refine does_keeps checks (checkHandover_keeps _) ?_
      rw [checkHandover_unready hno, deferHandover_drops ha hk hd]
      exact ⟨rfl, rfl⟩
    · exact does_keeps ((exec_handover ..).trans (happens_of (by simp [ho, ht, ha, hth]))) (handOver_keeps _) (handOver_f _)
  case standby =>
    have hdone : (s.arrive t).handoverDone = true := by simp [State.handoverDone, hm, ho, hc, ha, hth]
    exact ⟨_, (exec_handoverStandbyEntry ..).trans (happens_of hdone), becomeStandby_f ha h4 h5⟩
  case settle =>
    have asks : exec (.homeSettleExpiry t) s = .next (s.arrive t).requestHome :=
      (exec_homeSettleExpiry ..).trans (happens_of (settled_iff.2 ⟨hm, hs, hslot, hset, hnow⟩))
    exact ⟨fun hd ht => asks.trans (by rw [requestHome_asks hd ht]), fun h => asks.trans (by rw [requestHome_deferred h]; rfl)⟩
  case owner =>
    have requested : exec (.homeReturnRequest t) s = .next ((s.arrive t).homeHandover 1) := (exec_homeReturnRequest ..).trans (happens_of ho)
    have proves (ha : (s.arrive t).pair.armed = none) (he : (s.arrive t).conf.pair.proveEnable = true)
        (hp : (s.arrive t).pair.ownerSince + 3600 * (s.arrive t).conf.pair.provePeriodH ≤ (s.arrive t).tb3s) :
        exec (.provePeriodExpiry t) s = .next ((s.arrive t).homeHandover 2) :=
      (exec_provePeriodExpiry ..).trans (happens_of (proveDue_iff.2 ⟨ho, he, ha, hp⟩))
    refine ⟨fun h => requested.trans (by rw [homeHandover_deferred _ h]; rfl), fun hd hm ht ha => ⟨requested.trans ?_, fun he hp => (proves ha he hp).trans ?_⟩,
      fun ha hd he hp => (proves ha he hp).trans (by rw [homeHandover_deferred _ (.inl hd)]; rfl)⟩
    · rw [homeHandover_arms (.inl rfl) hd hm ht ha]
      rfl
    · rw [homeHandover_arms (.inr rfl) hd hm ht ha]
      rfl

/-! ## CFG_FLIP and CFG_REVERT (10 R237, R242) -/

section request

variable {back : Bool} {s v : State} {st : Nat} {ans : List Byte}

/-- The slot that a flip or a revert puts in force. -/
def State.slotFor (back : Bool) (s : State) : Slot := if back then s.cfg.fallow else s.cfg.seed

/-- What the two commands do past the checks of Table 11.3. -/
def flipRequest (back : Bool) : State → State × Option (Nat × List Byte) := if back then revertBody else flipBody

/-- The slot is there, a seed is checked, and the twin is not SYNCING. -/
def State.flippable (back : Bool) (s : State) : Bool := (s.slotFor back).present && (back || (s.slotFor back).valid) && s.pair.twinMode != 3

theorem flippable_iff : s.flippable back = true ↔
    (s.slotFor back).present = true ∧ (back = false → (s.slotFor back).valid = true) ∧ s.pair.twinMode ≠ 3 := by
  cases back <;> simp [State.flippable, and_assoc]

theorem flippable_false_iff : s.flippable back = false ↔
    (s.slotFor back).present = false ∨ (back = false ∧ (s.slotFor back).valid = false) ∨ s.pair.twinMode = 3 := by
  cases back <;> simp [State.flippable, imp_iff_not_or, or_assoc]

theorem flipFree_false (h : s.cfg.job ≠ none ∨ s.cfg.armed ≠ none ∨ s.sheaf.st ∈ [3, 5, 6] ∨ s.sheaf.twinState ∈ [3, 5, 6]) : s.flipFree = false := by
  rw [Bool.eq_false_iff, Ne, flipFree_iff]
  tauto

/-- The checks of the two commands, a revert's placement last. -/
theorem flipRequest_eq (back : Bool) (s : State) : flipRequest back s =
    guarded (need (State.flippable back) stState :: need State.flipFree stBusy ::
      if back then [need (fun s => s.placed (s.slotFor true).cfg) stCapacity] else []) (acceptFlip back) s := by
  cases back with
  | false => rfl
  | true =>
    have hreq : State.flippable true = fun s => s.cfg.fallow.present && s.pair.twinMode != 3 :=
      funext fun s => by simp [State.flippable, State.slotFor]
    rw [hreq]
    rfl

theorem flipRequest_refused (h : s.flippable back = false) : flipRequest back s = (s, some (stState, [])) := by
  rw [flipRequest_eq, guarded_first (need_no h)]

theorem flipRequest_busy (h : s.flippable back = true) (hb : s.flipFree = false) : flipRequest back s = (s, some (stBusy, [])) := by
  rw [flipRequest_eq, guarded_pass (need_ok h), guarded_first (need_no hb)]

theorem flipRequest_unplaced (h : s.flippable back = true) (hf : s.flipFree = true) (hback : back = true)
    (hp : s.placed (s.slotFor back).cfg = false) : flipRequest back s = (s, some (stCapacity, [])) := by
  subst hback
  rw [flipRequest_eq, guarded_pass (need_ok h), guarded_pass (need_ok hf), if_pos rfl, guarded_first (need_no hp)]

theorem flipRequest_accepted (h : s.flippable back = true) (hf : s.flipFree = true) (hp : back = true → s.placed (s.slotFor back).cfg = true) :
    flipRequest back s = acceptFlip back s := by
  rw [flipRequest_eq, guarded_pass (need_ok h), guarded_pass (need_ok hf)]
  cases back with
  | false => rfl
  | true => exact guarded_pass (need_ok (hp rfl))

theorem flipRequest_some (back : Bool) (s : State) : ∃ v st ans, flipRequest back s = (v, some (st, ans)) := by
  cases back with
  | false => exact guarded_some (accept_some false s)
  | true => exact guarded_some (accept_some true s)

theorem flipRequest_keeps (back : Bool) (s : State) :
    Keeps [.cache, .mem, .out, .time, .pair, .pts, .fsp, .sched, .cfg, .msg, .gate, .dio, .ua, .can, .log] s (flipRequest back s).1 := by
  cases back with
  | false => exact flipBody_keeps s
  | true => exact revertBody_keeps s

/-- What a request answers that changes nothing. -/
theorem answer_unchanged {b : State × Option (Nat × List Byte)} {st' : Nat} (e : b = (v, some (st, ans))) (h : b = (s, some (st', []))) :
    st = st' ∧ ans = [] ∧ v = s := by
  obtain ⟨hv, hst, hans⟩ := pair_inj (e.symm.trans h)
  exact ⟨hst, hans, hv⟩

end request

/-! ## What a flip switches (10 R238, R241–R243, Tables 10.6–10.8) -/

section switch

variable {h tb : Nat} {s v : State} {old new : Cfg} {restored : List (Nat × Word64)} {p : PointRec}

theorem switchTo_flip (tb : Nat) (s : State) : (s.switchTo false tb).cfg.sown = { s.cfg.seed with sownAt := tb, snapshot := [], valid := false } ∧
    (s.switchTo false tb).cfg.seed = Slot.empty ∧
    (s.switchTo false tb).cfg.fallow =
      (if s.cfg.sown.present then { s.cfg.sown with snapshot := s.snapshotOf s.conf s.cfg.seed.cfg, valid := false } else Slot.empty) := by
  rw [(switch_cfg false tb s).1]
  exact ⟨rfl, rfl, rfl⟩

theorem switchTo_revert (tb : Nat) (s : State) : (s.switchTo true tb).cfg.sown = { s.cfg.fallow with sownAt := tb, snapshot := [] } ∧
    (s.switchTo true tb).cfg.seed = { s.cfg.seed with valid := false } ∧
    (s.switchTo true tb).cfg.fallow =
      (if s.cfg.sown.present then { s.cfg.sown with snapshot := s.snapshotOf s.conf s.cfg.fallow.cfg, valid := false } else Slot.empty) := by
  rw [(switch_cfg true tb s).1]
  exact ⟨rfl, rfl, rfl⟩

/-- What both leave: the high-water mark, no armed flip, and stopped lists. -/
theorem switchTo_both (back : Bool) (tb : Nat) (s : State) : (s.switchTo back tb).cfg.highWater = s.cfg.highWater ∧
    (s.switchTo back tb).cfg.armed = none ∧ ∀ p, p ∈ (s.switchTo back tb).time.ports → p.gclRunning = false ∧ p.gates = 0xFF := by
  obtain ⟨hcfg, hports⟩ := switch_cfg back tb s
  refine ⟨?_, by rw [hcfg], hports⟩
  rw [hcfg]
  cases back <;> rfl

theorem mem_snapshotOf {e : Nat × Word64} : e ∈ s.snapshotOf old new ↔ ∃ p, p ∈ old.points ∧ e = (p.handle, s.image p.handle) ∧
    (ruleKind (new.rule p.handle) ≠ ruleKind p.rule ∨ ruleIsOut (new.rule p.handle) ≠ ruleIsOut p.rule) := by
  have hlost (p : PointRec) : p ∈ lostHandles old new ↔ p ∈ old.points ∧
      (ruleKind (new.rule p.handle) ≠ ruleKind p.rule ∨ ruleIsOut (new.rule p.handle) ≠ ruleIsOut p.rule) := by
    simp [lostHandles]
  simp only [State.snapshotOf, List.mem_map, hlost]
  exact ⟨fun ⟨p, ⟨hp, hne⟩, he⟩ => ⟨p, hp, he.symm, hne⟩, fun ⟨p, hp, he, hne⟩ => ⟨p, ⟨hp, hne⟩, he.symm⟩⟩

/-- Transform, filter and class of a kept handle stay. -/
def sameTreatment (old new : Word64) : Bool :=
  ruleTransform old == ruleTransform new && ruleFilter old == ruleFilter new && ruleClass old == ruleClass new

theorem carryPoint_kept (hk : keptRule (old.rule p.handle) p.rule = true) : s.carryPoint old new restored p =
    if sameTreatment (old.rule p.handle) p.rule then s.setRule p.handle p.rule
    else (s.setRule p.handle p.rule).upPts fun q =>
      { q with filters := q.filters.filter fun f => f.handle != p.handle, reseed := p.handle :: q.reseed.filter (· != p.handle) } := if_pos hk

/-- A kept handle takes its rule, and keeps its entry and its force. -/
theorem carryPoint_kept_f (hw : Memory.wf s.mem = true) (hh : p.handle ≤ 0x5FFFFF) (hk : keptRule (old.rule p.handle) p.rule = true) :
    (s.carryPoint old new restored p).ruleOf p.handle = p.rule ∧
      memReadN (s.carryPoint old new restored p).mem (imageAddr p.handle) 8 = memReadN s.mem (imageAddr p.handle) 8 ∧
      (s.carryPoint old new restored p).pts.forces = s.pts.forces := by
  have hrule := ruleOf_setRule p.handle p.rule s hw
  have himage := img_setRule p.handle p.rule s p.handle hh
  rw [carryPoint_kept hk]
  cases sameTreatment (old.rule p.handle) p.rule with
  | false => exact ⟨hrule, himage, rfl⟩
  | true => exact ⟨hrule, himage, rfl⟩

/-- A kept handle that is treated as before keeps the rest of its state too. -/
theorem carryPoint_sameTreatment (hk : keptRule (old.rule p.handle) p.rule = true) (ht : sameTreatment (old.rule p.handle) p.rule = true) :
    (s.carryPoint old new restored p).pts = s.pts := by
  rw [carryPoint_kept hk, if_pos ht]
  rfl

/-- A kept handle that is treated otherwise begins its filter anew. -/
theorem carryPoint_otherTreatment (hk : keptRule (old.rule p.handle) p.rule = true) (ht : sameTreatment (old.rule p.handle) p.rule = false) :
    p.handle ∈ (s.carryPoint old new restored p).pts.reseed ∧
      (s.carryPoint old new restored p).pts.filters = s.pts.filters.filter fun f => f.handle != p.handle := by
  rw [carryPoint_kept hk, if_neg (by simp [ht])]
  exact ⟨List.mem_cons_self, rfl⟩

/-- Any other handle starts anew, or from its snapshot. -/
theorem carryPoint_fresh (hk : keptRule (old.rule p.handle) p.rule = false) : s.carryPoint old new restored p =
    match restored.find? fun e => e.1 == p.handle with
    | some e => (((s.forget p.handle).declare p).zeroSlots new p).setImage p.handle (imgWord (restoredImg p e.2))
    | none => ((s.forget p.handle).declare p).zeroSlots new p := if_neg (by simp [hk])

theorem restoredImg_bounds (p : PointRec) (e : Word64) : (restoredImg p e).quality < 256 ∧ (restoredImg p e).age < 65536 := by
  refine ⟨show 0x40 < 256 by decide, ?_⟩
  show bits e.toNat 0 16 < 65536
  exact Nat.mod_lt _ (by decide)

theorem carryPoint_fresh_f (hw : Memory.wf s.mem = true) (hh : p.handle ≤ 0x5FFFFF) (hkind : ruleKind p.rule ≠ 0)
    (hk : keptRule (old.rule p.handle) p.rule = false) : (s.carryPoint old new restored p).ruleOf p.handle = p.rule ∧
      (s.carryPoint old new restored p).pts.force p.handle = none ∧
      (∀ f, f ∈ (s.carryPoint old new restored p).pts.filters → f.handle ≠ p.handle) ∧
      (restored.find? (fun e => e.1 == p.handle) = none → (s.carryPoint old new restored p).img p.handle = newImg p.init) ∧
      (∀ e, restored.find? (fun e => e.1 == p.handle) = some e → (s.carryPoint old new restored p).img p.handle = restoredImg p e.2) := by
  obtain ⟨hwf, hrule, himg, hpts⟩ := carry_new old new p s hw hh hkind _ rfl
  obtain ⟨-, -, hforce, hfilters⟩ := forget_f p.handle s hw
  rw [← hpts] at hforce hfilters
  rw [carryPoint_fresh hk]
  cases hr : restored.find? fun e => e.1 == p.handle with
  | none => exact ⟨hrule, hforce, hfilters, fun _ => himg, fun e he => by cases he⟩
  | some e =>
    obtain ⟨hq, ha⟩ := restoredImg_bounds p e.2
    refine ⟨(ruleOf_setImage _ _ _ _ (by omega)).trans hrule, hforce, hfilters, fun hno => (by cases hno), fun e' he => ?_⟩
    cases he
    exact img_self _ _ _ hwf hh (by rw [hrule]; exact hkind) hq ha

theorem undeclare_forgotten (hw : Memory.wf s.mem = true) (h : Nat) : ((s.forget h).undeclare h).image h = unusedEntry ∧
    ((s.forget h).undeclare h).pts.force h = none := by
  obtain ⟨hwf, -, hforce, -⟩ := forget_f h s hw
  exact ⟨und_image h _ hwf, hforce⟩

end switch

/-! ## Arming and the boundary (10 R166, R236, R238) -/

section timeline

variable {t version cycle : Nat} {s : State} {f : ArmedFlip}

theorem deferFlip_third (h : 2 ≤ f.deferrals) : s.deferFlip f = (s.endJob f.job stState []).upCfg fun c => { c with armed := none } :=
  if_pos (by omega)

theorem deferFlip_again (h : f.deferrals < 2) : s.deferFlip f = s.armFlip f.isRevert f.solo (f.deferrals + 1) f.job := if_neg (by omega)

theorem exec_flipArmCheck_none (ho : (s.arrive t).pair.owner = true) (ha : (s.arrive t).cfg.armed = none) :
    exec (.flipArmCheck t) s = .next (s.arrive t) := by
  rw [exec_flipArmCheck, execFlipArmCheck, happens_of ho, ha]

theorem exec_flipArmCheck_armed (ho : (s.arrive t).pair.owner = true) (ha : (s.arrive t).cfg.armed = some f) : exec (.flipArmCheck t) s =
    .next (if f.tb ≤ (s.arrive t).tb0 + 100000000 ∧ f.goHeld = false then (s.arrive t).checkFlip f else s.arrive t) := by
  rw [exec_flipArmCheck, execFlipArmCheck, happens_of ho, ha]
  simp

theorem checkFlip_alone (h : f.solo = true ∨ s.power.mode ≠ 5) : s.checkFlip f = s :=
  if_pos (by rcases h with h | h <;> simp [State.needsStandby, h])

/-- A flip that needs the STANDBY waits for it, moves, or goes. -/
theorem checkFlip_paired (hs : f.solo = false) (hm : s.power.mode = 5) : s.checkFlip f =
    if f.twinArmed = false ∨ s.twinSynced = false then s.deferFlip f
    else if s.tb0 + 20000 < f.tb then s
    else if s.allAcked = false then s.deferFlip f
    else (s.upCfg fun c => { c with armed := some { f with goHeld := true } }).emit (.swath .flipGo) := by
  simp [State.checkFlip, State.needsStandby, hs, hm]

theorem checkFlip_unready (hs : f.solo = false) (hm : s.power.mode = 5) (h : f.twinArmed = false ∨ s.twinSynced = false) :
    s.checkFlip f = s.deferFlip f := (checkFlip_paired hs hm).trans (if_pos h)

/-- A flip that needs the STANDBY, which is armed and synchronised for it. -/
structure State.Paired (s : State) (f : ArmedFlip) : Prop where
  solo : f.solo = false
  mode : s.power.mode = 5
  armed : f.twinArmed = true
  synced : s.twinSynced = true

theorem checkFlip_ready (h : s.Paired f) : s.checkFlip f =
    if s.tb0 + 20000 < f.tb then s
    else if s.allAcked = false then s.deferFlip f
    else (s.upCfg fun c => { c with armed := some { f with goHeld := true } }).emit (.swath .flipGo) := by
  rw [checkFlip_paired h.solo h.mode, if_neg (by simp [h.armed, h.synced])]

theorem mayFlip_iff : s.mayFlip f = true ↔ f.tb ≤ s.tb0 ∧
    ((s.pair.owner = true ∧ (f.goHeld = true ∨ f.solo = true ∨ s.power.mode ≠ 5)) ∨ (s.power.mode = 4 ∧ f.goHeld = true)) := by
  simp only [State.mayFlip, State.needsStandby, Bool.and_eq_true, Bool.or_eq_true, decide_eq_true_eq, beq_iff_eq, Bool.not_eq_true',
    Bool.not_eq_false', Bool.and_eq_false_iff, beq_eq_false_iff_ne]
  tauto

theorem exec_flipBoundary_none (hw : (s.arrive t).awake = true) (ha : (s.arrive t).cfg.armed = none) :
    exec (.flipBoundary t) s = .next (s.arrive t) := by
  rw [exec_flipBoundary, execFlipBoundary, happens_of hw, ha]

theorem exec_flipBoundary_armed (hw : (s.arrive t).awake = true) (ha : (s.arrive t).cfg.armed = some f) :
    exec (.flipBoundary t) s = .next (if (s.arrive t).mayFlip f then (s.arrive t).flipAt f else s.arrive t) := by
  rw [exec_flipBoundary, execFlipBoundary, happens_of hw, ha]

/-- The configuration that an armed flip puts in force. -/
def State.flipTo (s : State) (f : ArmedFlip) : Cfg := if f.isRevert then s.cfg.fallow.cfg else s.cfg.seed.cfg

/-- The owner's timed actions that the new configuration does not know end first. -/
def State.beforeFlip (s : State) (f : ArmedFlip) : State := if s.pair.owner then s.discardEntries s.conf (s.flipTo f) else s

/-- What waits for the store at the boundary. -/
def State.flipDone (s : State) (f : ArmedFlip) : FlipDone :=
  { sown := s.cfg.sown, fallow := s.cfg.fallow, seed := s.cfg.seed, tb := f.tb, isRevert := f.isRevert, job := f.job }

theorem flipAt_eq (f : ArmedFlip) (s : State) : s.flipAt f =
    (((s.beforeFlip f).switchTo f.isRevert f.tb).flipClasses s.conf (s.flipTo f) f.tb).upCfg fun c =>
      { c with commits := c.commits ++ [s.flipDone f], windowOpen := true, heldFrames := [] } := rfl

theorem beforeFlip_cfg (f : ArmedFlip) (s : State) : (s.beforeFlip f).cfg = s.cfg := by
  unfold State.beforeFlip
  split
  · exact (discardEntries_keeps ..).frame .cfg (by decide)
  · rfl

theorem flipAt_cfg (f : ArmedFlip) (s : State) : ∃ snap, (s.flipAt f).cfg = { s.cfg.switch f.isRevert f.tb snap with
    changed := changeSet s.conf (s.flipTo f), flipTb := f.tb, fallbackOk := (s.flipTo f).usable, armed := none, checkedTwin := false,
    commits := s.cfg.commits ++ [s.flipDone f], windowOpen := true, heldFrames := [] } := by
  have hcfg := (switch_cfg f.isRevert f.tb (s.beforeFlip f)).1
  have hclasses (w : State) : (w.flipClasses s.conf (s.flipTo f) f.tb).cfg = w.cfg := (flipClasses_keeps ..).frame .cfg (by decide)
  rw [flipAt_eq, State.upCfg_cfg, hclasses, hcfg, conf_of (beforeFlip_cfg f s), beforeFlip_cfg]
  refine ⟨(s.beforeFlip f).snapshotOf s.conf (s.flipTo f), ?_⟩
  cases hr : f.isRevert <;> simp [CfgSt.switch, State.flipTo, hr]

theorem flipAt_f (f : ArmedFlip) (s : State) : (s.flipAt f).cfg.armed = none ∧ (s.flipAt f).cfg.flipTb = f.tb ∧ (s.flipAt f).cfg.windowOpen = true ∧
    (s.flipAt f).cfg.heldFrames = [] ∧ (s.flipAt f).cfg.highWater = s.cfg.highWater ∧ (s.flipAt f).cfg.commits = s.cfg.commits ++ [s.flipDone f] ∧
    (s.flipAt f).cfg.fallow =
      (if s.cfg.sown.present then { s.cfg.sown with snapshot := (s.flipAt f).cfg.fallow.snapshot, valid := false } else Slot.empty) ∧
    (f.isRevert = false → (s.flipAt f).cfg.sown = { s.cfg.seed with sownAt := f.tb, snapshot := [], valid := false } ∧
      (s.flipAt f).cfg.seed = Slot.empty ∧ (s.flipAt f).cfg.changed = changeSet s.conf s.cfg.seed.cfg) ∧
    (f.isRevert = true → (s.flipAt f).cfg.sown = { s.cfg.fallow with sownAt := f.tb, snapshot := [] } ∧
      (s.flipAt f).cfg.seed = { s.cfg.seed with valid := false } ∧ (s.flipAt f).cfg.changed = changeSet s.conf s.cfg.fallow.cfg) ∧
    ∀ c, c ∈ (s.flipAt f).cyc.cls → c.held = [] ∧ c.toIssue = [] ∧ c.toWrite = [] ∧ c.notBefore = f.tb ∧ c.tasks = false := by
  obtain ⟨snap, hcfg⟩ := flipAt_cfg f s
  have hclasses : (s.flipAt f).cyc = (((s.beforeFlip f).switchTo f.isRevert f.tb).flipClasses s.conf (s.flipTo f) f.tb).cyc := rfl
  rw [hclasses, hcfg, State.flipTo]
  cases f.isRevert with
  | false => exact ⟨rfl, rfl, rfl, rfl, rfl, rfl, ite_congr rfl (fun h => by simp [CfgSt.switch, h]) fun _ => rfl, fun _ => ⟨rfl, rfl, rfl⟩, nofun, flipClasses_cls _ _ _ _⟩
  | true => exact ⟨rfl, rfl, rfl, rfl, rfl, rfl, ite_congr rfl (fun h => by simp [CfgSt.switch, h]) fun _ => rfl, nofun, fun _ => ⟨rfl, rfl, rfl⟩, flipClasses_cls _ _ _ _⟩

/-- The STANDBY's seed has a version. -/
def State.seedIs (version : Nat) (s : State) : Bool := s.cfg.seed.present && s.cfg.seed.cfg.version == version

/-- The STANDBY holds a version. -/
def State.holdsVersion (version : Nat) (s : State) : Bool :=
  s.seedIs version || s.cfg.fallow.present && s.cfg.fallow.cfg.version == version

/-- The full class-D cycle number that a number modulo 2^32 stands for. -/
def State.flipCycle (cycle : Nat) (s : State) : Nat :=
  s.tb0 / s.periodNs 3 + (cycle + 2 ^ 32 - s.tb0 / s.periodNs 3 % 2 ^ 32) % 2 ^ 32

theorem flipCycle_f (cycle : Nat) (s : State) : s.tb0 / s.periodNs 3 ≤ s.flipCycle cycle ∧ s.flipCycle cycle < s.tb0 / s.periodNs 3 + 2 ^ 32 ∧
    s.flipCycle cycle % 2 ^ 32 = cycle % 2 ^ 32 := by
  unfold State.flipCycle
  generalize s.tb0 / s.periodNs 3 = k
  omega

/-- Already armed for a cycle. -/
def State.armedAt (cycle : Nat) (s : State) : Bool := match s.cfg.armed with | some f => f.tb == s.flipCycle cycle * s.periodNs 3 | none => false

theorem followFlip_eq (version cycle : Nat) (s : State) : s.followFlip version cycle =
    if version = 0 || !s.holdsVersion version then s.upCfg fun c => { c with armed := none }
    else if s.armedAt cycle then s
    else s.upCfg fun c =>
      { c with armed := some { isRevert := !s.seedIs version, solo := false, tb := s.flipCycle cycle * s.periodNs 3, cycle := s.flipCycle cycle,
                               deferrals := 0, job := 0, twinArmed := false, goHeld := false } } := rfl

theorem followFlip_unknown (h : version = 0 ∨ s.holdsVersion version = false) : s.followFlip version cycle = s.upCfg fun c => { c with armed := none } := by
  rw [followFlip_eq, if_pos (by simpa using h)]

theorem followFlip_arms (hv : version ≠ 0) (hh : s.holdsVersion version = true) (ha : s.cfg.armed = none) :
    s.followFlip version cycle = s.upCfg fun c =>
      { c with armed := some { isRevert := !s.seedIs version, solo := false, tb := s.flipCycle cycle * s.periodNs 3, cycle := s.flipCycle cycle,
                               deferrals := 0, job := 0, twinArmed := false, goHeld := false } } := by
  rw [followFlip_eq, if_neg (by simp [hv, hh]), if_neg (by simp [State.armedAt, ha])]

theorem exec_flipArming_standby (hm : (s.arrive t).power.mode = 4) (hs : (s.arrive t).pair.synced = true) : exec (.flipArming t version cycle) s =
    .next (if ((s.arrive t).followFlip version cycle).cfg.armed.isSome then ((s.arrive t).followFlip version cycle).emit (.swath .flipArmed)
      else (s.arrive t).followFlip version cycle) := by
  rw [exec_flipArming, execFlipArming, happens_of (by simp [hm, hs])]

end timeline

/-! ## The change set and the commit (10 R236, R238) -/

section commit

variable {t : Nat} {s : State} {d : FlipDone} {rest : List FlipDone} {x : RxFrame}

/-- The window of a change set closes. -/
def State.closeWindow (s : State) : State := s.upCfg fun c => { c with windowOpen := false, heldFrames := [] }

theorem exec_changeSetWritten_due (hw : (s.arrive t).cfg.windowOpen = true)
    (hat : (s.arrive t).cfg.flipTb + ceilDiv (2000000 + 625 * (s.arrive t).cfg.changed.length) 1000 ≤ (s.arrive t).tb0) :
    exec (.changeSetWritten t) s = .next (s.arrive t).writeChangeSet :=
  (exec_changeSetWritten ..).trans (happens_of (Bool.and_eq_true_iff.2 ⟨hw, decide_eq_true hat⟩))

theorem writeChangeSet_none (h : s.cfg.heldFrames = []) : s.writeChangeSet = s.closeWindow := by
  rw [State.writeChangeSet, h]
  rfl

theorem writeChangeSet_frame (h : s.cfg.heldFrames = [.frame x]) : s.writeChangeSet =
    if (parseFsp x).kind = 4 then s.closeWindow.receive 4 State.writeAck x else s.closeWindow.receive 2 State.readRsp x := by
  rw [State.writeChangeSet, h]
  rfl

theorem writeChangeSet_channel {o st : Nat} {item : List Word} (h : s.cfg.heldFrames = [.channel o st item]) :
    s.writeChangeSet = s.closeWindow.localCompletion o st item := by
  rw [State.writeChangeSet, h]
  rfl

theorem exec_snapshotCommit_awake (hw : (s.arrive t).awake = true) (hc : (s.arrive t).cfg.commits = d :: rest) :
    exec (.snapshotCommit t) s = .next (if d.tb + 1000000000 ≤ (s.arrive t).tb0 then (s.arrive t).commitFlip d else s.arrive t) := by
  rw [exec_snapshotCommit, execSnapshotCommit, happens_of hw, hc]

theorem endJob_msg (id st : Nat) (result : List Byte) {w : State} (hm : w.msg = s.msg) (ht : w.time = s.time) :
    (w.endJob id st result).msg = (s.endJob id st result).msg := by
  simp [State.endJob, hm, ht]

theorem commitFlip_f (hc : s.cfg.commits = d :: rest) : (s.commitFlip d).cfg = { s.cfg with commits := rest } ∧
    (s.commitFlip d).msg = (s.endJob d.job 0 []).msg := by
  refine ⟨?_, endJob_msg _ _ _ (rec_f _ _ _ .msg (by decide)) (rec_f _ _ _ .time (by decide))⟩
  refine (rec_f _ _ (s.upCfg fun c => { c with commits := c.commits.drop 1 }) .cfg (by decide)).trans ?_
  rw [State.upCfg_cfg, hc]
  rfl

end commit

/-- Settles O55: a request arms or switches, each check of the timeline decides by one condition, and the boundary is one operation on the
slots, the points and the classes. -/
theorem flipsFollowTheTimeline : Obligations.FlipsFollowTheTimeline := by
  unfold Obligations.FlipsFollowTheTimeline
  refine ⟨?request, ?flip, ?revert, fun old new s e => mem_snapshotOf, ?carry, fun h s hw => undeclare_forgotten hw h,
    fun f s => ⟨deferFlip_third, fun h tb htb => ?defer⟩, fun t s ho => ⟨exec_flipArmCheck_none ho, fun f ha => ?check⟩, fun t s hm hs => ?go,
    fun t s ho => ?armed, fun t version cycle s hm hs => ?arming, fun t s hw => ⟨exec_flipBoundary_none hw, fun f ha => ?boundary⟩,
    fun t s hwin hat w hw => ?written, fun t s d rest hw hc => ?commit⟩
  case request =>
    rintro t r s back i x rfl hacc rfl
    have hexec : exec (if back = true then .cfgRevert t r else .cfgFlip t r) s =
        happens t s State.awake (State.run (cfgCmd (if back = true then 0x403 else 0x402)) r (flipRequest back)) := by cases back <;> rfl
    refine answers_body hexec hacc (flipRequest_some ..) (flipRequest_keeps back) fun u v st ans hu e => ?_
    have hslot : (if back = true then (s.arrive t).cfg.fallow else (s.arrive t).cfg.seed) = u.slotFor back := hu ▸ rfl
    rw [hslot]
    refine ⟨fun h => answer_unchanged e (flipRequest_refused (flippable_false_iff.2 h)), fun hp hv ht => ?_⟩
    have hable : u.flippable back = true := flippable_iff.2 ⟨hp, hv, ht⟩
    refine ⟨fun h => answer_unchanged e (flipRequest_busy hable (flipFree_false h)), fun hj ha hst htw => ?_⟩
    have hfree : u.flipFree = true := (flipFree_iff u).2 ⟨hj, ha, hst, htw⟩
    refine ⟨fun hb hno => answer_unchanged e (flipRequest_unplaced hable hfree hb hno), fun hplaced => ?_⟩
    exact accept_all back u v st ans ((flipRequest_accepted hable hfree hplaced).symm.trans e)
  case flip =>
    rintro tb s _ rfl
    obtain ⟨hsown, hseed, hfallow⟩ := switchTo_flip tb s
    exact ⟨hsown, hseed, fun h => hfallow.trans (if_pos h), fun h => hfallow.trans (if_neg (by simp [h])), switchTo_both false tb s⟩
  case revert =>
    rintro tb s _ rfl
    obtain ⟨hsown, hseed, hfallow⟩ := switchTo_revert tb s
    exact ⟨hsown, hseed, fun h => hfallow.trans (if_pos h), fun h => hfallow.trans (if_neg (by simp [h])), switchTo_both true tb s⟩
  case carry =>
    rintro old new restored p s _ hw hh hkind rfl
    refine ⟨?_, fun hk => ?_, fun hk => ?_⟩
    · cases hk : keptRule (old.rule p.handle) p.rule with
      | false => exact (carryPoint_fresh_f hw hh hkind hk).1
      | true => exact (carryPoint_kept_f hw hh hk).1
    · obtain ⟨-, himage, hforces⟩ := carryPoint_kept_f (new := new) (restored := restored) hw hh hk
      exact ⟨himage, hforces, fun h1 h2 h3 => carryPoint_sameTreatment hk (by simp [sameTreatment, h1, h2, h3]),
        fun h => carryPoint_otherTreatment hk (by simpa [sameTreatment, imp_iff_not_or, or_assoc] using h)⟩
    · obtain ⟨-, hforce, hfilters, hnew, hrestored⟩ := carryPoint_fresh_f (new := new) (restored := restored) hw hh hkind hk
      exact ⟨hforce, hfilters, hnew, hrestored⟩
  case defer =>
    subst htb
    rw [deferFlip_again h]
    exact (arm_cfg ..).1
  case check =>
    have hexec := exec_flipArmCheck_armed ho ha
    refine ⟨fun h => hexec.trans (congrArg _ ?_), fun hat hgo hsolo hm => ?_⟩
    · split
      · next hdue =>
        obtain ⟨hat, hgo⟩ := hdue
        exact checkFlip_alone (h.resolve_left (Nat.not_lt.2 hat) |>.resolve_left (by simp [hgo]))
      · rfl
    · have hchecks : exec (.flipArmCheck t) s = .next ((s.arrive t).checkFlip f) := hexec.trans (congrArg _ (if_pos ⟨hat, hgo⟩))
      refine ⟨fun h => by rw [hchecks, checkFlip_unready hsolo hm h], fun harmed hsynced => ?_⟩
      have hready := checkFlip_ready ⟨hsolo, hm, harmed, hsynced⟩
      refine ⟨fun h => by rw [hchecks, hready, if_pos h], fun h hno => by rw [hchecks, hready, if_neg (Nat.not_lt.2 h), if_pos hno], fun h hall => ?_⟩
      rw [if_neg (Nat.not_lt.2 h), if_neg (by simp [hall])] at hready
      rw [hready] at hchecks
      exact does_keeps hchecks ((emit_keeps ..).chain ((upCfg_keeps ..).mono (by decide))) ⟨rfl, rfl⟩
  case go => exact does_keeps ((exec_flipGo ..).trans (happens_of (by simp [hm, hs]))) (upCfg_keeps ..) rfl
  case armed => exact does_keeps ((exec_flipArmed ..).trans (happens_of ho)) (upCfg_keeps ..) rfl
  case arming =>
    refine does_exec (fun _ => execFlipArming_keeps t version cycle s) ⟨_, exec_flipArming_standby hm hs, ?_⟩
    rintro _ rfl _ rfl
    refine ⟨fun h => ?_, fun hv hheld ha => ?_⟩
    · rw [followFlip_unknown h]
      exact ⟨rfl, rfl⟩
    · obtain ⟨hlow, hhigh, hmod⟩ := flipCycle_f cycle (s.arrive t)
      rw [followFlip_arms hv hheld ha]
      exact ⟨_, hlow, hhigh, hmod, rfl, rfl⟩
  case boundary =>
    refine ⟨fun h => ?_, fun hat h => ?_⟩
    · have hno : ¬(s.arrive t).mayFlip f = true := by
        rw [mayFlip_iff]
        rintro ⟨hat, ⟨ho, -⟩ | ⟨hm, hgo⟩⟩ <;> rcases h with h | ⟨hno, h⟩
        · omega
        · simp [hno] at ho
        · omega
        · simp [hm, hgo] at h
      rw [exec_flipBoundary_armed hw ha, if_neg hno]
    · refine does_keeps ((exec_flipBoundary_armed hw ha).trans (congrArg _ (if_pos (mayFlip_iff.2 ⟨hat, h⟩)))) (flipAt_keeps ..) (flipAt_f f _)
  case written =>
    subst hw
    have hexec := exec_changeSetWritten_due hwin hat
    refine ⟨fun h => ?_, fun x h hk => ?_, fun x h hk => ?_, fun o st item h => ?_⟩
    · rw [hexec, writeChangeSet_none h]
      rfl
    · rw [hexec, writeChangeSet_frame h, if_pos hk]
      rfl
    · rw [hexec, writeChangeSet_frame h, if_neg (by simp [hk])]
      rfl
    · rw [hexec, writeChangeSet_channel h]
      rfl
  case commit =>
    have hexec := exec_snapshotCommit_awake hw hc
    refine ⟨fun hat => hexec.trans (by rw [if_neg (Nat.not_le.2 hat)]), fun hat => ?_⟩
    exact does_keeps (hexec.trans (congrArg _ (if_pos hat))) (commitFlip_keeps ..) (commitFlip_f hc)

end Sys2Proof.Machine

/-! Proofs of the statements about modes, supplies, retires, BOOT and the start (O3, O4, O27, O40, O41, O43, O44, O45). -/

namespace Sys2Proof.Machine

/-! ## The form of a state -/

section form

variable {c : Instr} {s s' : State}

theorem exec_wf (h : exec c s = .next s') (w : s.Wf) : s'.Wf := by
  obtain ⟨t, k⟩ := exec_keeps c s s' h
  exact k.wf (arrive_wf t w)

/-- The queue is no part of the form. -/
theorem wf_of_queue (cs : List Instr) (w : s.Wf) : State.Wf { s with pending := cs } := ⟨w.mem, w.mode, w.owner, w.debug⟩

theorem step_wf (h : step s = .next s') (w : s.Wf) : s'.Wf := by
  match hp : s.pending with
  | [] =>
    rw [step_idle hp] at h
    cases h
    exact arrive_wf _ w
  | c :: cs =>
    rw [step_command hp] at h
    exact exec_wf h (wf_of_queue cs w)

end form

/-- Settles O3: the form holds at the instant of a command, and what any command runs keeps it. -/
theorem stepsKeepTheForm : Obligations.StepsKeepTheForm := by
  unfold Obligations.StepsKeepTheForm
  exact fun s s' w h => step_wf h w

/-- Settles O4: after reset memory is empty, the mode is BOOT, nothing is owned and debug is closed. -/
theorem resetHasTheForm : Obligations.ResetHasTheForm := by
  unfold Obligations.ResetHasTheForm
  exact ⟨{ mem := rfl, mode := by decide, owner := fun h => absurd h (by decide), debug := fun h => absurd h (by decide) }, rfl⟩

/-! ## Modes (08 R180, Table 8.2) -/

/-- Settles O27: the parts that a transition and the entry into SAFE HOLD write, and a decision that runs again in SAFE HOLD only. -/
theorem modeTransitions : Obligations.ModeTransitions := by
  unfold Obligations.ModeTransitions
  refine ⟨fun new reason s => ⟨goMode_power .., goMode_pair .., fun hlo hhi => (goMode_keeps new reason s ⟨hlo, hhi⟩).frame⟩,
    fun reason s => ?_, startAgain_id⟩
  obtain ⟨hmode, hreason, howner, hclaim, hsynced, harmed, hflip, htwin, hterm, hfrom, hout, hdio, hua, hframe, -⟩ := safeHold_f reason s
  exact ⟨hmode, hreason, howner, hclaim, hsynced, harmed, hflip, htwin, hterm, hfrom, hout, hdio, hua, hframe⟩

/-! ## Supplies (08 R184–R190, R193) -/

section supplies

variable {t mv mj full now : Nat} {s : State}

/-- Power-good counted and 24V_MAIN read, before the mode decides what follows. -/
def State.supplied (mv : Nat) (s : State) : State :=
  (s.upPower fun p => { p with mainGood := true, presentN := true, powerCycles := inc32 p.powerCycles }).upPower (PowerSt.readMain mv)

theorem supplied_keeps (mv : Nat) (s : State) : Keeps [.power] s (s.supplied mv) :=
  (upPower_keeps (fun p => PowerSt.readMain mv { p with mainGood := true, presentN := true, powerCycles := inc32 p.powerCycles }) s rfl)

theorem powerUp_awake (hm : s.power.mode ≠ 8) (hs : s.boot.stopped = false) : s.powerUp mv = s.supplied mv :=
  (if_neg hm).trans (if_neg (by simp [hs]))

theorem powerUp_asleep (hm : s.power.mode = 8) (hl : s.boot.lingKept = true) :
    s.powerUp mv = (s.supplied mv).upBoot fun b => { b with wakeDue := true } :=
  (if_pos hm).trans (if_pos hl)

theorem powerUp_lingLost (hm : s.power.mode = 8) (hl : s.boot.lingKept = false) : s.powerUp mv = (s.supplied mv).startBoot 0 0 false :=
  (if_pos hm).trans (if_neg (by simp [hl]))

theorem exec_powerGood_lost (hg : (s.arrive t).power.mainGood = false) : exec (.powerGood t mv) s = .next ((s.arrive t).powerUp mv) :=
  (exec_powerGood ..).trans (happens_of (by simp [hg]))

/-- The reading of 24V_MAIN once power-good is lost. -/
def State.unsupplied (mv : Nat) (s : State) : State := s.upPower fun p => { p with mainGood := false, mainMv := mv }

theorem losePower_dips (h1 : s.power.mode ≠ 1) (h8 : s.power.mode ≠ 8) (hr : s.boot.retiring = false) :
    s.losePower mv = (s.unsupplied mv).upPower fun p => { p with riding := true, dipAt := s.time.now } :=
  (if_neg h1).trans (if_neg (by simp [State.upPower, h8, hr]))

theorem losePower_inBoot (h1 : s.power.mode = 1) : s.losePower mv = (s.unsupplied mv).bootStops := if_pos h1

theorem exec_dip_supplied (hg : (s.arrive t).power.mainGood = true) : exec (.dip t mv) s = .next ((s.arrive t).losePower mv) :=
  (exec_dip ..).trans (happens_of hg)

theorem endDip_power (mv : Nat) (s : State) : (s.endDip mv).power =
    PowerSt.readMain mv { s.power with riding := false, mainGood := true, rideThroughs := inc32 s.power.rideThroughs } :=
  record_power ..

/-- A record of a threshold newly crossed keeps the power state. -/
theorem note_power (was is : Bool) (type : Nat) (qs : List (Nat × Nat)) (s : State) :
    (if is && !was then s.record type qs else s).power = s.power := by
  split
  · exact record_power ..
  · rfl

theorem measureHoldup_power (full now : Nat) (s : State) : (s.measureHoldup full now).power =
    { s.power with fullMj := full, holdupMj := now, noUpdate := decide (full < 32000), worn := decide (full < 24000), insufficient := decide (full < 20000),
                   below32 := decide (now < 32000), holdupTestS := s.tb3s } := by
  unfold State.measureHoldup
  dsimp only
  rw [note_power, note_power, note_power]
  rfl

/-- The ling cell's reading while it is low (08 R189). -/
def State.lingNoted (mv : Nat) (s : State) : State := s.upPower fun p => { p with lingLow := true, lingMv := mv }

/-- A module whose die runs records it as well. -/
def State.lingReported (mv : Nat) (s : State) : State := if s.awake then (s.lingNoted mv).record 0x1000 [(2, mv)] else s.lingNoted mv

theorem lingReported_keeps (mv : Nat) (s : State) : Keeps [.cache, .power, .log] s (s.lingReported mv) := by
  have hnoted : Keeps [.cache, .power, .log] s (s.lingNoted mv) := (upPower_keeps _ _ rfl).mono (by decide)
  exact Keeps.ite (Keeps.chain (record_keeps ..) hnoted) hnoted

theorem lingReported_power (mv : Nat) (s : State) : (s.lingReported mv).power = { s.power with lingLow := true, lingMv := mv } := by
  unfold State.lingReported
  split
  · exact record_power ..
  · rfl

end supplies

/-! ## Contacts (08 R194–R196) -/

section contacts

variable {t : Nat} {s : State}

/-- The module without its seat: PRESENT_N broken and 24V_MAIN gone. -/
def State.unseated (s : State) : State := s.upPower fun p => { p with presentN := false, mainGood := false }

theorem unplug_eq (s : State) : s.unplug =
    if s.power.mode = 1 then s.unseated.bootStops else if s.power.mode = 8 then s.unseated else s.unseated.beginRetire 5 := rfl

theorem unplug_retires (h1 : s.power.mode ≠ 1) (h8 : s.power.mode ≠ 8) (hr : s.boot.retiring = false) :
    s.unplug.power.presentN = false ∧ s.unplug.power.mainGood = false ∧ s.unplug.power.retireReason = 5 ∧ s.unplug.boot.retiring = true ∧
    s.unplug.pair.owner = false := by
  obtain ⟨hpower, hretiring, -, -, -, -, howner, -⟩ := beginRetire_f 5 s.unseated hr
  rw [unplug_eq, if_neg h1, if_neg h8, hpower]
  exact ⟨rfl, rfl, rfl, hretiring, howner⟩

theorem unplug_inBoot (h1 : s.power.mode = 1) : s.unplug.boot.stopped = true ∧ s.unplug.power.presentN = false := by
  obtain ⟨hstopped, -, -, hpower⟩ := bootStops_f s.unseated
  rw [unplug_eq, if_pos h1, hpower]
  exact ⟨hstopped, rfl⟩

/-- The module with its ejector open. -/
def State.unlatched (s : State) : State := s.upPower fun p => { p with ejectOpen := true }

/-- An owner's twin that is synchronised takes over before the retire begins. -/
theorem eject_eq (s : State) : s.eject = if !s.awake then s.unlatched
    else if s.pair.owner && s.twinSynced && !s.boot.retiring then
      ((s.unlatched.dropHandover stState).armHandover 4 (s.nextT0 0 (s.tb0 + 1000000)) 0).upBoot fun b => { b with retirePending := some 2 }
    else s.unlatched.beginRetire 2 := rfl

theorem eject_retires (ha : s.awake = true) (ho : s.pair.owner = false ∨ s.twinSynced = false) : s.eject = s.unlatched.beginRetire 2 := by
  rw [eject_eq, if_neg (by simp [ha]), if_neg (by rcases ho with ho | ho <;> simp [ho])]

theorem eject_handsOver (ha : s.awake = true) (hr : s.boot.retiring = false) (ho : s.pair.owner = true) (ht : s.twinSynced = true) :
    s.eject = ((s.unlatched.dropHandover stState).armHandover 4 (s.nextT0 0 (s.tb0 + 1000000)) 0).upBoot
      fun b => { b with retirePending := some 2 } := by
  rw [eject_eq, if_neg (by simp [ha]), if_pos (by simp [hr, ho, ht])]

theorem dropHandover_owner (st : Nat) (s : State) : (s.dropHandover st).pair.owner = s.pair.owner := by
  unfold State.dropHandover
  split <;> rfl

theorem exec_ejectNOpen_closed (he : (s.arrive t).power.ejectOpen = false) : exec (.ejectNOpen t) s = .next (s.arrive t).eject :=
  (exec_ejectNOpen ..).trans (happens_of (by simp [he]))

/-- SAFE_N counted. -/
def State.safeAsserted (s : State) : State := s.upPower fun p => { p with safeN := true, safeEvents := inc32 p.safeEvents }

theorem assertSafe_eq (s : State) : s.assertSafe = if !s.awake then s.safeAsserted else
    if (s.safeAsserted.record 0x1003 []).driving then ((s.safeAsserted.record 0x1003 []).dioToSafe.uaToSafe.emit .safeStates)
    else s.safeAsserted.record 0x1003 [] := rfl

theorem assertSafe_power (s : State) : s.assertSafe.power = { s.power with safeN := true, safeEvents := inc32 s.power.safeEvents } := by
  rw [assertSafe_eq]
  split
  · rfl
  · split <;> exact record_power 0x1003 [] s.safeAsserted

theorem dioToSafe_dioCh {n : Nat} (hn : n < s.dio.ch.length) :
    s.dioToSafe.dioCh n = { s.dioCh n with commanded := dioSafe (s.dioWord n) (s.dioCh n) } := by
  refine (mapFrom_getD _ _ _ _ _ hn).trans ?_
  rw [Nat.zero_add]
  rfl

/-- A module that drives shows the safe states of its outputs (14 R325). -/
theorem assertSafe_driving (ha : s.awake = true) (hd : s.driving = true) : s.assertSafe.out = s.out ++ [.safeStates] ∧
    ∀ n, n < s.dio.ch.length → s.assertSafe.dioCh n = { s.dioCh n with commanded := dioSafe (s.dioWord n) (s.dioCh n) } := by
  have hpair : (s.safeAsserted.record 0x1003 []).pair = s.pair := record_pair ..
  have hdio : (s.safeAsserted.record 0x1003 []).dio = s.dio := rec_f _ _ _ .dio (by decide)
  have hcfg : (s.safeAsserted.record 0x1003 []).cfg = s.cfg := rec_f _ _ _ .cfg (by decide)
  have hout : (s.safeAsserted.record 0x1003 []).out = s.out := record_out ..
  rw [assertSafe_eq, if_neg (by simp [ha]), if_pos (by rwa [State.driving, hpair])]
  generalize s.safeAsserted.record 0x1003 [] = w at *
  refine ⟨congrArg (· ++ [Emission.safeStates]) hout, fun n hn => (dioToSafe_dioCh (s := w) (by rwa [hdio])).trans ?_⟩
  rw [State.dioCh, State.dioWord, State.conf, hdio, hcfg]
  rfl

/-- The module once PEER_PRESENT_N has changed; current inputs deliver nothing for 10 ms. -/
theorem peerChanges_f (present : Bool) (s : State) : (s.peerChanges present).pair = { s.pair with peerPresent := present } ∧
    (present = false → (s.peerChanges present).cfg.checkedTwin = false) ∧
    ∀ n, n < s.ua.ch.length → s.uaMode n = 2 ∨ s.uaMode n = 3 → ((s.peerChanges present).uaCh n).quietUntil = s.time.now + 2500000 := by
  have hch : (s.peerChanges present).ua.ch =
      mapFrom (fun n c => if s.uaMode n = 2 || s.uaMode n = 3 then { c with quietUntil := s.time.now + usTicks 10000 } else c) 0 s.ua.ch := by
    cases present <;> rfl
  refine ⟨by cases present <;> rfl, by rintro rfl; rfl, fun n hn hm => ?_⟩
  rw [State.uaCh, hch, mapFrom_getD _ _ _ _ _ hn, Nat.zero_add, if_pos (by simpa using hm)]

end contacts

/-! ## Wakes (08 R186, R187) -/

section wakes

variable {t mj : Nat} {s : State}

/-- The module with this much energy in its holdup store. -/
def State.withEnergy (mj : Nat) (s : State) : State := s.upPower fun p => { p with holdupMj := mj }

/-- Power comes back to a module with this much energy. -/
def State.wakeWith (mj : Nat) (s : State) : State := (s.withEnergy mj).wake

theorem wake_mode (s : State) : s.wake.power.mode = 1 := (startBoot_f ..).1

theorem wakeWith_f (mj : Nat) (s : State) : (s.wakeWith mj).power.mode = 1 ∧ (s.wakeWith mj).pair.owner = false ∧ (s.wakeWith mj).power.bootKind =
    if s.boot.lingKept = true ∧ s.boot.tamperLatched = none ∧ 20000 ≤ mj ∧ s.boot.committed = true ∧ s.boot.recordSinceVerify = false then 1 else 0 := by
  obtain ⟨hmode, hkind, howner, -⟩ := startBoot_f (if (s.withEnergy mj).wakes then 1 else 0) 0 false (s.withEnergy mj)
  exact ⟨hmode, howner, hkind.trans (if_congr (wakes_eq mj s) rfl rfl)⟩

theorem exec_wakeEvent_due (hm : (s.arrive t).power.mode = 8) (hd : (s.arrive t).boot.wakeDue = true) (hg : (s.arrive t).power.mainGood = true) :
    exec (.wakeEvent t mj) s = .next ((s.arrive t).wakeWith mj) :=
  (exec_wakeEvent ..).trans (happens_of (by simp [hm, hd, hg]))

theorem exec_wakeDelayExpiry_due (hm : (s.arrive t).power.mode = 8) (hr : (s.arrive t).power.retireReason = 3) (hd : (s.arrive t).power.wakeDelay ≠ 0)
    (hg : (s.arrive t).power.mainGood = true) (hat : (s.arrive t).boot.sleepAt + (s.arrive t).power.wakeDelay ≤ (s.arrive t).tb3s) :
    exec (.wakeDelayExpiry t mj) s = .next ((s.arrive t).wakeWith mj) :=
  (exec_wakeDelayExpiry ..).trans (happens_of (by simp [hm, hr, hd, hg, hat]))

end wakes

/-- Settles O40: each supply and each contact is one event with one operation, whose branch the mode decides. -/
theorem suppliesAndContacts : Obligations.SuppliesAndContacts := by
  unfold Obligations.SuppliesAndContacts
  refine ⟨fun t mv s hg => ?powerGood, fun t mv s hg => ?dip, fun t mv s hride hr => ?rideThrough, fun t mv rising s => ?aux, fun t s hp hr => ?present,
    fun t s he ha hr => ?ejectOpen, fun t s he => ?ejectClose, fun t s => ?safe, fun t present s hp => ?peer, fun t mj s hm hg hdue c hc => ?wake,
    fun t full now s ha hg hat => ?holdup, fun t mv s hl => ?lingLow, fun t s hu hg ha => ?lingEmpty⟩
  case powerGood =>
    have hexec := exec_powerGood_lost (mv := mv) hg
    refine ⟨fun hm hs => ?_, fun hm hl => ?_, fun hm hl => ⟨_, hexec, ?_⟩⟩
    · rw [powerUp_awake hm hs] at hexec
      exact does_keeps hexec (supplied_keeps ..) ⟨rfl, rfl, rfl, rfl, rfl, rfl, rfl⟩
    · rw [powerUp_asleep hm hl] at hexec
      exact does_keeps hexec (Keeps.chain (upBoot_keeps ..) ((supplied_keeps ..).mono (by decide))) ⟨rfl, rfl, rfl, hm⟩
    · rw [powerUp_lingLost hm hl]
      obtain ⟨hmode, hkind, howner, hcycles, -⟩ := startBoot_f 0 0 false ((s.arrive t).supplied mv)
      exact ⟨hmode, hkind, howner, hcycles⟩
  case dip =>
    have hexec := exec_dip_supplied (mv := mv) hg
    refine ⟨fun h1 h8 hr => ?_, fun h1 => does_keeps hexec (losePower_keeps ..) ?_⟩
    · rw [losePower_dips h1 h8 hr] at hexec
      exact does_keeps hexec (Keeps.chain (upPower_keeps _ _ rfl) (upPower_keeps _ _ rfl)) rfl
    · rw [losePower_inBoot h1]
      obtain ⟨hstopped, hwaiting, hclaim, hpower⟩ := bootStops_f ((s.arrive t).unsupplied mv)
      rw [hpower]
      exact ⟨hstopped, hwaiting, hclaim, rfl, rfl⟩
  case rideThrough =>
    refine does_keeps ((exec_rideThroughEnd ..).trans (happens_of (by simp [hride, hr]))) (endDip_keeps ..) ?_
    rw [endDip_power]
    exact ⟨rfl, rfl, rfl, rfl, rfl⟩
  case aux => exact (exec_auxGoodChange ..).trans (happens_of rfl)
  case present =>
    have hexec : exec (.presentNBreak t) s = .next (s.arrive t).unplug := (exec_presentNBreak ..).trans (happens_of hp)
    refine ⟨fun h1 h8 => ⟨_, hexec, unplug_retires h1 h8 hr⟩, fun h8 => hexec.trans ?_, fun h1 => ⟨_, hexec, unplug_inBoot h1⟩⟩
    rw [unplug_eq, if_neg (by omega), if_pos h8]
    rfl
  case ejectOpen =>
    refine ⟨fun ho ht => ⟨_, exec_ejectNOpen_closed he, ?_⟩, fun ho => ⟨_, exec_ejectNOpen_closed he, ?_⟩⟩
    · rw [eject_handsOver ha hr ho ht]
      have hpower : ((s.arrive t).unlatched.dropHandover stState).power = (s.arrive t).unlatched.power :=
        (dropHandover_keeps ..).frame .power (by decide)
      have hboot : ((s.arrive t).unlatched.dropHandover stState).boot = (s.arrive t).boot := (dropHandover_keeps ..).frame .boot (by decide)
      exact ⟨congrArg PowerSt.ejectOpen hpower, rfl, (congrArg BootSt.retiring hboot).trans hr, (dropHandover_owner ..).trans ho, _, rfl, rfl, rfl⟩
    · rw [eject_retires ha ho]
      obtain ⟨hpower, hretiring, -, -, -, -, howner, -⟩ := beginRetire_f 2 (s.arrive t).unlatched hr
      rw [hpower]
      exact ⟨rfl, hretiring, rfl, howner⟩
  case ejectClose =>
    exact does_keeps ((exec_ejectNClose ..).trans (happens_of he)) (Keeps.chain (upBoot_keeps ..) ((upPower_keeps _ _ rfl).mono (by decide))) ⟨rfl, rfl⟩
  case safe =>
    refine ⟨fun hs => ?_, fun hs => (exec_safeNRelease ..).trans (happens_of hs)⟩
    exact does_keeps ((exec_safeNAssert ..).trans (happens_of (by simp [hs]))) (assertSafe_keeps _) ⟨assertSafe_power _, assertSafe_driving⟩
  case peer => exact does_keeps ((exec_peerPresentNChange ..).trans (happens_of (by simpa using hp))) (peerChanges_keeps ..) (peerChanges_f ..)
  case wake =>
    subst hc
    refine ⟨_, ?_, wakeWith_f mj (s.arrive t)⟩
    cases hw : (s.arrive t).boot.wakeDue with
    | true => exact exec_wakeEvent_due hm hw hg
    | false =>
      obtain ⟨hr, hd, hat⟩ := hdue.resolve_left (by simp [hw])
      exact exec_wakeDelayExpiry_due hm hr hd hg hat
  case holdup =>
    exact does_keeps ((exec_holdupMeasurement ..).trans (happens_of (by simp [ha, hg, hat]))) (measureHoldup_keeps ..) (measureHoldup_power ..)
  case lingLow =>
    have hexec : exec (.lingCellLow t mv) s = .next ((s.arrive t).lingReported mv) := (exec_lingCellLow ..).trans (happens_of (by simp [hl]))
    exact does_keeps hexec (lingReported_keeps ..) (lingReported_power ..)
  case lingEmpty => exact (exec_lingCellEmpty ..).trans (happens_of (by simp [hu, hg, ha]))

/-! ## Retires (08 R188, R191, R192, Table 8.8; 18 R388) -/

section retires

variable {t mj : Nat} {s : State}

theorem beginRetire_retiring (reason : Nat) (h : s.boot.retiring = true) : s.beginRetire reason = s := if_pos h

theorem exec_retireStart_due (ha : (s.arrive t).awake = true) (hd : (s.arrive t).power.riding = true ∨ (s.arrive t).boot.retirePending.isSome = true) :
    exec (.retireStart t) s = .next ((s.arrive t).beginRetire ((s.arrive t).boot.retirePending.getD 1)) :=
  (exec_retireStart ..).trans (happens_of (by simpa [ha] using hd))

/-- What is switched off at r0 + 5 ms: no link is up, and DRAM reads 0, which the other memory does not notice. -/
theorem switchOff_f (s : State) : s.switchOff.boot = { s.boot with coresOff := true } ∧ (∀ x ∈ s.switchOff.sfp, x.linkUp = false) ∧
    (∀ a, 0x1000000000 ≤ a → a ≤ 0x13FFFFFFFF → memRead s.switchOff.mem a = 0#8) ∧
    (∀ a, a < 0x1000000000 → memRead s.switchOff.mem a = memRead s.mem a) := by
  refine ⟨rfl, fun x hx => ?_, fun a hlo hhi => memRead_clear_in _ _ _ _ hlo hhi, fun a ha => memRead_clear_out _ _ _ _ (.inl ha)⟩
  obtain ⟨y, -, rfl⟩ := List.mem_map.1 hx
  rfl

theorem commitWrites_f (s : State) : s.commitWrites.boot = { s.boot with committed := true } ∧ s.commitWrites.pair = { s.pair with storedTerm := s.pair.term } ∧
    s.commitWrites.disp = { s.disp with storedLedgers := s.disp.ledgers } ∧ s.commitWrites.log.unflushed = 0 := by
  refine ⟨?_, record_pair .., rec_f _ _ _ .disp (by decide), rfl⟩
  exact congrArg (fun b : BootSt => { b with committed := true }) (rec_f _ _ _ .boot (by decide))

theorem retireRefresh_draws (he : 8500 ≤ mj) (hf : s.disp.frozen = false) (hp : s.disp.panelOk = true) :
    (s.retireRefresh mj).disp.retireImage = true ∧ (s.retireRefresh mj).disp.shown = s.disp.frozenLines.take 8 ∧
    (s.retireRefresh mj).disp.fulls = inc32 s.disp.fulls ∧ (s.retireRefresh mj).power = { s.power with holdupMj := mj } ∧
    (s.retireRefresh mj).out = s.out ++ [.waveform 1 0 (fullMs s.disp.band)] := by
  unfold State.retireRefresh
  dsimp only
  rw [if_pos (by simp [State.upPower, he, hf, hp])]
  exact ⟨rfl, rfl, rfl, rfl, rfl⟩

theorem retireRefresh_skips (h : mj < 8500 ∨ s.disp.frozen = true ∨ s.disp.panelOk = false) :
    s.retireRefresh mj = (s.withEnergy mj).upDisp fun d => { d with retireSkipped := true } := by
  refine if_neg ?_
  rcases h with h | h | h
  · simp; omega
  · simp [State.upPower, h]
  · simp [State.upPower, h]

theorem exec_retireImage_due (hr : (s.arrive t).boot.retiring = true) (hi : (s.arrive t).disp.retireImage = false)
    (hk : (s.arrive t).disp.retireSkipped = false) (hat : (s.arrive t).boot.retireAt + 125000000 ≤ (s.arrive t).time.now) :
    exec (.retireImage t mj) s = .next ((s.arrive t).retireRefresh mj) :=
  (exec_retireImage ..).trans (happens_of (by simpa [hr, hi, hk] using hat))

/-- The mode is SLEEP: sessions and ownership have ended. -/
def State.roleEnded (s : State) : State := (s.endAllSessions.upPair fun p => { p with owner := false }).goMode 8 0

/-- The recorder is flushed where the commit was written. -/
def State.flushCommitted (s : State) : State := if s.boot.committed then s.flushRecords else s

/-- The hours of operation and the instant at which SLEEP begins are noted. -/
def State.noteSleep (s : State) : State :=
  (s.upPower fun p => { p with operatingBase := s.opSeconds, operatingFrom := s.tb3s }).upBoot fun b =>
    { b with retiring := false, lingKept := true, sleepAt := s.tb3s, wakeDue := false }

/-- SLEEP, before a cause that has gone wakes the module. -/
def State.asleep (s : State) : State := s.roleEnded.flushCommitted.noteSleep

theorem endRetire_eq (s : State) : s.endRetire = if s.asleep.wakesAtOnce then s.asleep.wake else s.asleep := by
  unfold State.endRetire State.asleep
  rw [← State.roleEnded]
  generalize s.roleEnded = w
  rfl

theorem roleEnded_f (s : State) : s.roleEnded.power = { s.power with mode := 8 } ∧ s.roleEnded.pair.owner = false ∧ s.roleEnded.time = s.time := by
  have hsessions := (endAllSessions_keeps s).frame
  have hpower : s.endAllSessions.power = s.power := hsessions .power (by decide)
  have htime : s.endAllSessions.time = s.time := hsessions .time (by decide)
  have hsleeps (w : State) : (w.goMode 8 0).time = w.time := (goMode_keeps 8 0 w).frame .time (by decide)
  unfold State.roleEnded
  rw [goMode_power, goMode_pair, hsleeps, State.upPair_power, State.upPair_time, hpower, htime]
  exact ⟨rfl, rfl, rfl⟩

theorem flushCommitted_keeps (s : State) : Keeps [.log] s s.flushCommitted := Keeps.ite (upLog_keeps ..) (Keeps.refl s)

theorem atRest_f (s : State) : s.roleEnded.flushCommitted.power = { s.power with mode := 8 } ∧ s.roleEnded.flushCommitted.pair.owner = false ∧
    s.roleEnded.flushCommitted.tb3s = s.tb3s := by
  obtain ⟨hpower, howner, htime⟩ := roleEnded_f s
  have hflush := (flushCommitted_keeps s.roleEnded).frame
  have hflushPair : s.roleEnded.flushCommitted.pair = s.roleEnded.pair := hflush .pair (by decide)
  have hflushTime : s.roleEnded.flushCommitted.time = s.roleEnded.time := hflush .time (by decide)
  exact ⟨(hflush .power (by decide)).trans hpower, by rw [hflushPair, howner], by rw [State.tb3s, hflushTime, htime, State.tb3s]⟩

theorem noteSleep_f (s : State) : s.noteSleep.power = { s.power with operatingBase := s.opSeconds, operatingFrom := s.tb3s } ∧
    s.noteSleep.boot = { s.boot with retiring := false, lingKept := true, sleepAt := s.tb3s, wakeDue := false } ∧ s.noteSleep.pair = s.pair :=
  ⟨rfl, rfl, rfl⟩

theorem asleep_f (s : State) : s.asleep.power.mode = 8 ∧ s.asleep.boot.retiring = false ∧ s.asleep.boot.lingKept = true ∧ s.asleep.boot.sleepAt = s.tb3s ∧
    s.asleep.pair.owner = false ∧ s.asleep.power.operatingFrom = s.tb3s := by
  obtain ⟨hpower, howner, htb3⟩ := atRest_f s
  obtain ⟨hnotedPower, hnotedBoot, hnotedPair⟩ := noteSleep_f s.roleEnded.flushCommitted
  unfold State.asleep
  rw [hnotedPower, hnotedBoot, hnotedPair, hpower, howner, htb3]
  exact ⟨rfl, rfl, rfl, rfl, rfl, rfl⟩

/-- Going to sleep keeps what decides whether the module wakes at once. -/
theorem asleep_wakesAtOnce (s : State) : s.asleep.wakesAtOnce = s.wakesAtOnce := by
  obtain ⟨hpower, -⟩ := atRest_f s
  unfold State.asleep State.wakesAtOnce
  rw [(noteSleep_f _).1, hpower]

theorem exec_retireEnd_off (hr : (s.arrive t).boot.retiring = true) (hc : (s.arrive t).boot.coresOff = true) :
    exec (.retireEnd t) s = .next (s.arrive t).endRetire :=
  (exec_retireEnd ..).trans (happens_of (by simp [hr, hc]))

end retires

/-- Settles O41: r0 is one operation of a module that does not retire yet, and each later instant runs one operation of the timeline. -/
theorem retiresRunTheirTimeline : Obligations.RetiresRunTheirTimeline := by
  unfold Obligations.RetiresRunTheirTimeline
  refine ⟨fun reason s hr => ?begin, fun reason s hr => beginRetire_retiring reason hr,
    fun t s ha => ⟨fun hride hp => ?dip, fun r hp => ?eject, fun tenths => ?hot⟩,
    fun t s hr hc hat => ?off, fun t s hr hc hw => ?commit, fun t mj s hr hi hk hat => ?image, fun t s hr hc => ?sleep⟩
  case begin =>
    obtain ⟨hpower, hretiring, hat, hrole, hcommitted, hpending, howner, hclaim, hflip, hlines, hskipped⟩ := beginRetire_f reason s hr
    exact ⟨hpower, hretiring, hat, hrole, hcommitted, hpending, howner, hclaim, hflip, hlines, hskipped, (beginRetire_keeps reason s).frame⟩
  case dip => rw [exec_retireStart_due ha (.inl hride), hp, Option.getD_none]
  case eject => rw [exec_retireStart_due ha (.inr (by simp [hp])), hp, Option.getD_some]
  case hot => exact (exec_overTemperature ..).trans (happens_of ha)
  case off => exact does_keeps ((exec_retireSwitchOff ..).trans (happens_of (by simpa [hr, hc] using hat))) (switchOff_keeps _) (switchOff_f _)
  case commit => exact does_keeps ((exec_retireCommitWrites ..).trans (happens_of (by simp [hr, hc, hw]))) (commitWrites_keeps _) (commitWrites_f _)
  case image =>
    have hexec := exec_retireImage_due (mj := mj) hr hi hk hat
    refine ⟨fun he hf hp => does_keeps hexec (retireRefresh_keeps ..) (retireRefresh_draws he hf hp), fun hno => ?_⟩
    rw [retireRefresh_skips hno] at hexec
    exact does_keeps hexec (Keeps.chain (upDisp_keeps ..) ((upPower_keeps _ _ rfl).mono (by decide))) ⟨rfl, rfl⟩
  case sleep =>
    have hexec := exec_retireEnd_off hr hc
    rw [endRetire_eq, asleep_wakesAtOnce] at hexec
    refine ⟨fun hstays => ?_, fun hg h1 => ?_⟩
    · have hno : (s.arrive t).wakesAtOnce = false := by
        rcases hstays with h | ⟨h1, h2, h5⟩
        · simp [State.wakesAtOnce, h]
        · simp [State.wakesAtOnce, h1, h2, h5]
      rw [if_neg (by simp [hno])] at hexec
      exact ⟨_, hexec, asleep_f _⟩
    · have hyes : (s.arrive t).wakesAtOnce = true := by simp [State.wakesAtOnce, hg, h1]
      rw [if_pos hyes] at hexec
      exact ⟨_, hexec, wake_mode _⟩

/-! ## The start decision (08 R182, R183; 07 R160) -/

section start

variable {t : Nat} {s : State}

theorem maintain_enters (reason : Nat) (s : State) : (s.maintain reason).power.mode = 2 ∧ (s.maintain reason).power.reason = reason := by
  rw [maintain_f]
  exact ⟨rfl, rfl⟩

theorem safeHold_enters (reason : Nat) (s : State) : (s.safeHold reason).power.mode = 7 ∧ (s.safeHold reason).power.reason = reason := by
  obtain ⟨hmode, hreason, -⟩ := safeHold_f reason s
  exact ⟨hmode, hreason⟩

/-- Steps 1 to 4: what sends the module to MAINTENANCE. -/
theorem startDecision_unconfigured (hl : s.sec.lifecycle = 2) (hc : s.cfg.sown.present = false ∨ s.boot.cfgOk = false) :
    s.startDecision = s.maintain 0xB := by
  unfold State.startDecision
  rw [if_neg (by simp [hl]), if_pos (by simpa using hc)]

theorem startDecision_latched (hl : s.sec.lifecycle = 2) (hp : s.cfg.sown.present = true) (hc : s.boot.cfgOk = true) (hk : s.power.latch = true) :
    s.startDecision = s.maintain 0xF := by
  unfold State.startDecision
  rw [if_neg (by simp [hl]), if_neg (by simp [hp, hc]), if_pos hk]

/-- Past MAINTENANCE: a fault of BOOT, no placement, or steps 5 to 9. -/
theorem startDecision_configured (hl : s.sec.lifecycle = 2) (hp : s.cfg.sown.present = true) (hc : s.boot.cfgOk = true) (hk : s.power.latch = false) :
    s.startDecision = if !s.boot.mowerOk || s.sheaf.bootFault != 0 then s.safeHold 0xD
      else if (s.placementFor s.lock.disabled).isNone then s.safeHold (if s.boot.lbistOk = 255 then 0xE else 0xD) else s.decide5 := by
  unfold State.startDecision
  rw [if_neg (by simp [hl]), if_neg (by simp [hp, hc]), if_neg (by simp [hk])]

theorem decide5_claimed (hc : s.pair.twinClaim = true) : s.decide5 = s.beginSync := if_pos hc

theorem decide5_held (hc : s.pair.twinClaim = false) (ha : s.conf.pair.autoStart = false) (hr : s.power.released = false) : s.decide5 = s.safeHold 8 := by
  unfold State.decide5
  rw [if_neg (by simp [hc]), if_pos (by simp [ha, hr])]

/-- A start that nothing holds needs a valid TB0, and may have to wait for the twin. -/
theorem decide5_starts (hc : s.pair.twinClaim = false) (hs : s.conf.pair.autoStart = true ∨ s.power.released = true) :
    s.decide5 = if !s.tb0Valid then s.safeHold 9 else if s.mustWait then s.upBoot fun b => { b with waiting := true, waitAt := s.time.now } else s.openWindow := by
  unfold State.decide5
  rw [if_neg (by simp [hc]), if_neg (by rcases hs with h | h <;> simp [h])]

theorem mustWait_iff : s.mustWait = true ↔ s.pair.peerPresent = true ∧ s.boot.waitDone = false ∧
    ((s.swathSilent = true ∧ s.slotB = true) ∨ (s.swathSilent = false ∧ s.pair.twinMode ≤ 1 ∧
      ((s.conf.pair.homeSlot < 2 ∧ s.inHomeSlot = false) ∨ (2 ≤ s.conf.pair.homeSlot ∧ s.slotB = true)))) := by
  have hpreferred : s.preferred = false ↔
      (s.conf.pair.homeSlot < 2 ∧ s.inHomeSlot = false) ∨ (2 ≤ s.conf.pair.homeSlot ∧ s.slotB = true) := by
    unfold State.preferred
    split
    · next h => simp [h, Nat.not_le.2 h]
    · next h => simp [h, Nat.not_lt.1 h]
  rw [← hpreferred]
  cases hs : s.swathSilent <;> simp [State.mustWait, State.twinUndecided, hs, and_assoc]

/-! ## The end of BOOT, of the wait and of the term window -/

/-- The bases run and BOOT is over; the start decision comes next. -/
def State.booted (s : State) : State :=
  ((s.upTime TimeSt.startBases).upBoot fun b => { b with step := 9, waitDone := false }).upPower fun p =>
    { p with lastBootMs := min 0xFFFFFFFF ((s.time.now - s.boot.startAt) / 250000) }

theorem overrun_inTime (h : s.power.bootKind ≠ 1 ∨ s.time.now ≤ s.boot.startAt + 412500000) : s.overrun = s := by
  refine if_neg ?_
  rcases h with h | h
  · simp [h]
  · simp
    omega

theorem mayEndBoot_step (h : s.mayEndBoot = true) : s.boot.step = 8 := by
  simp only [State.mayEndBoot, Bool.and_eq_true, beq_iff_eq] at h
  obtain ⟨⟨-, hstep⟩, -⟩ := h
  exact hstep

theorem exec_bootEnd_inTime (hm : (s.arrive t).mayEndBoot = true)
    (hi : (s.arrive t).power.bootKind ≠ 1 ∨ (s.arrive t).time.now ≤ (s.arrive t).boot.startAt + 412500000) :
    exec (.bootEnd t) s = .next ((((s.arrive t).booted.startDecision).select 0).select 1).startAgain := by
  rw [exec_bootEnd, execBootEnd, happens_of hm, State.endBoot, overrun_inTime hi]
  exact congrArg _ (if_neg (by simp [mayEndBoot_step hm]))

/-- The selection of the masters leaves the mode, and no decision runs again outside SAFE HOLD. -/
theorem selected_startAgain_power (h : s.power.mode ≠ 7) : ((s.select 0).select 1).startAgain.power = s.power := by
  have hpower : ((s.select 0).select 1).power = s.power :=
    ((select_keeps 1 _).frame .power (by decide) : _ = (s.select 0).power).trans ((select_keeps 0 s).frame .power (by decide))
  rw [startAgain_id _ (by rwa [hpower]), hpower]

theorem windowEnds_retiring (h : s.windowEnds = true) : s.boot.retiring = false := by
  simp only [State.windowEnds, Bool.and_eq_true, Bool.not_eq_true'] at h
  obtain ⟨⟨⟨⟨-, hretiring⟩, -⟩, -⟩, -⟩ := h
  exact hretiring

/-- The term window closes. -/
def State.termClosed (s : State) : State := s.upPair fun p => { p with termOpen := false }

theorem endWindow_eq (s : State) : s.endWindow = if (s.termClosed.startClaim 0).pair.ownClaim then s.termClosed.startClaim 0
    else (s.termClosed.startClaim 0).decide5 := rfl

theorem endWindow_claims (hr : s.boot.retiring = false) (ho : s.pair.ownClaim = false) (hc : s.pair.twinClaim = false) :
    s.endWindow = (s.upPair fun p => { p with termOpen := false, ownClaim := true, ownClaimAt := s.time.now, confirmed := false, tied := false,
                                              claimKind := 0, ownReadback := true }).emit (.hedge 1) := by
  rw [endWindow_eq, startClaim_free (s := s.termClosed) 0 ho hc hr]
  exact if_pos rfl

/-- The twin was first by more than a tie: the module synchronises with it. -/
theorem endWindow_yields (ho : s.pair.ownClaim = false) (hc : s.pair.twinClaim = true) (hlate : s.pair.twinClaimAt + 500 < s.time.now) :
    s.endWindow = s.termClosed.beginSync := by
  have hclaim : s.termClosed.startClaim 0 = s.termClosed := if_pos (by simp [State.termClosed, State.upPair, hc, hlate])
  rw [endWindow_eq, hclaim, if_neg (by simp [State.termClosed, State.upPair, ho]), decide5_claimed (s := s.termClosed) hc]

end start

/-- Settles O43: each step of the decision is one branch, and BOOT_END, the wait and the term window lead into it. -/
theorem startDecisionsTakeTheFirstStep : Obligations.StartDecisionsTakeTheFirstStep := by
  unfold Obligations.StartDecisionsTakeTheFirstStep
  refine ⟨fun s => ⟨fun hl => ?blank, fun hl => ⟨fun hc => ?unconfigured, fun hp hc =>
      ⟨fun hk => ?latched, fun hk => ⟨fun hf => ?fault, fun hw hf => ⟨fun hn => ?unplaced, fun hn => ?placed⟩⟩⟩⟩⟩,
    fun s => ⟨fun hc => ?claimed, fun hc => ⟨fun ha hr => ?held, fun hs => ⟨fun hv => ?timeless, fun hv => ⟨fun hw => ?waits, fun hw => ?opens⟩⟩⟩⟩,
    fun s => mustWait_iff, fun t s hm hi => ⟨_, rfl, exec_bootEnd_inTime hm hi, selected_startAgain_power⟩,
    fun t s hw => (exec_startWaitExpiry ..).trans (happens_of hw), fun t s hw ho => ⟨fun hc => ?window, fun hc hlate => ?late⟩⟩
  case blank =>
    rw [show s.startDecision = s.maintain 0xC from if_pos (by simp [hl])]
    exact maintain_enters ..
  case unconfigured =>
    rw [startDecision_unconfigured hl hc]
    exact maintain_enters ..
  case latched =>
    rw [startDecision_latched hl hp hc hk]
    exact maintain_enters ..
  case fault =>
    rw [startDecision_configured hl hp hc hk, if_pos (by simpa using hf)]
    exact safeHold_enters ..
  case unplaced =>
    rw [startDecision_configured hl hp hc hk, if_neg (by simp [hw, hf]), if_pos (by simp [hn])]
    exact safeHold_enters ..
  case placed => rw [startDecision_configured hl hp hc hk, if_neg (by simp [hw, hf]), if_neg (by simpa using hn)]
  case claimed =>
    rw [decide5_claimed hc]
    obtain ⟨hmode, hsynced, hcopied, hwaiting, -⟩ := beginSync_f_starts s
    exact ⟨hmode, hsynced, hcopied, hwaiting⟩
  case held =>
    rw [decide5_held hc ha hr]
    exact safeHold_enters ..
  case timeless =>
    rw [decide5_starts hc hs, if_pos (by simp [hv])]
    exact safeHold_enters ..
  case waits => rw [decide5_starts hc hs, if_neg (by simp [hv]), if_pos hw]
  case opens =>
    rw [decide5_starts hc hs, if_neg (by simp [hv]), if_neg (by simp [hw])]
    exact openWindow_f s
  case window => exact (exec_termWindowEnd ..).trans ((happens_of hw).trans (by rw [endWindow_claims (windowEnds_retiring hw) ho hc]))
  case late =>
    obtain ⟨hmode, -, -, -, hterm, hclaim⟩ := beginSync_f_starts (s.arrive t).termClosed
    refine ⟨_, (exec_termWindowEnd ..).trans (happens_of hw), ?_⟩
    rw [endWindow_yields ho hc hlate]
    exact ⟨hmode, hclaim.trans ho, hterm⟩

/-! ## The steps of BOOT (08 R184, R186, Tables 8.5, 8.6) -/

section boot

variable {t n passed : Nat} {st : BootStep} {ok prevOk : Bool} {s w : State}

theorem mayStep_iff : s.mayStep st = true ↔ s.power.mode = 1 ∧ s.awake = true ∧ s.boot.retiring = false ∧ s.boot.step = bootStepNo st := by
  simp [State.mayStep, and_assoc]

/-- Only a wake can overrun: a step of any other BOOT is its own effect. -/
theorem exec_bootStepEnd_done (hm : (s.arrive t).mayStep st = true) (hstep : (s.arrive t).bootStep st = w.overrun) (hk : w.power.bootKind ≠ 1) :
    exec (.bootStepEnd t st) s = .next w :=
  step_ev hm (hstep.trans (overrun_no w hk))

/-- A step other than the load of the configuration goes on to the next one. -/
theorem stepDone_at (h : s.boot.step = n) (h6 : n ≠ 6) : s.stepDone = s.upBoot fun b => { b with step := n + 1 } := by
  rw [stepDone_no s (by omega), ← h]
  rfl

/-- A ling domain that lost its power: TB3 goes on a minute past its stored value, with the gap flagged (06 R123). -/
def State.lingRestored (s : State) : State :=
  (s.upTime fun c => { c with tb3 := c.storedTb3 + 60 * 65536000000000, tb3Gap := true }).upBoot fun b => { b with lingKept := true }

/-- The hours of operation count from there, and the gap is recorded. -/
def State.gapNoted (s : State) : State := (s.upPower fun p => { p with operatingFrom := s.tb3s }).record 0x0603 []

theorem readLing_kept (hl : s.boot.lingKept = true) : s.readLing = s.stepDone := if_pos hl

theorem readLing_lost (hl : s.boot.lingKept = false) : s.readLing = s.lingRestored.gapNoted.stepDone := if_neg (by simp [hl])

theorem gapNoted_f (s : State) : s.gapNoted.time = s.time ∧ s.gapNoted.boot = s.boot ∧ s.gapNoted.power.bootKind = s.power.bootKind := by
  have hrecorded := (record_keeps 0x0603 [] (s.upPower fun p => { p with operatingFrom := s.tb3s })).frame
  exact ⟨hrecorded .time (by decide), hrecorded .boot (by decide), by rw [State.gapNoted, record_power]; rfl⟩

theorem lingRestored_f (s : State) : s.lingRestored.time.tb3 = s.time.storedTb3 + 60 * 65536000000000 ∧ s.lingRestored.time.tb3Gap = true := by
  simp only [State.lingRestored, State.upBoot_time, State.upTime_time, and_self]

theorem readLing_lost_f (hl : s.boot.lingKept = false) (h0 : s.boot.step = 0) :
    s.readLing.time.tb3 = s.time.storedTb3 + 60 * 65536000000000 ∧ s.readLing.time.tb3Gap = true ∧ s.readLing.boot.step = 1 ∧
    s.readLing.boot.lingKept = true ∧ s.readLing.power.bootKind = s.power.bootKind := by
  obtain ⟨htime, hboot, hkind⟩ := gapNoted_f s.lingRestored
  obtain ⟨htb3, hgap⟩ := lingRestored_f s
  have hstep : s.lingRestored.gapNoted.boot.step = 0 := (congrArg BootSt.step hboot).trans h0
  rw [readLing_lost hl, stepDone_at hstep (by decide), State.upBoot_time, State.upBoot_boot, State.upBoot_power, htime, hboot, htb3, hgap, hkind]
  exact ⟨rfl, rfl, rfl, rfl, rfl⟩

theorem trialBoot_settled (h : s.sheaf.recTrial = false) : s.trialBoot = s := by
  unfold State.trialBoot
  exact if_pos (by simp [h])

theorem bootRom_verified (h : s.sheaf.recTrial = false) : s.bootRom true prevOk = s.stewardRuns := by
  unfold State.bootRom
  rw [if_neg (by simp), trialBoot_settled h]
  exact if_pos rfl

/-- No set can be started: the boot ROM stops (13 R310). -/
theorem bootRom_halts (hk : s.power.bootKind ≠ 1) (h : s.sheaf.recTrial = false) (hp : prevOk = false ∨ s.sheaf.previous = 0) :
    s.bootRom false prevOk = s.upBoot fun b => { b with halted := true } := by
  unfold State.bootRom
  rw [if_neg (by simp [hk]), trialBoot_settled h]
  dsimp only
  rw [if_neg (by decide), if_neg (by simp [h]), if_neg (by rcases hp with hp | hp <;> simp [hp])]

/-- Main SRAM, mailbox RAM and the secure partition are zeroed, and the records of this BOOT cached again (12 R274). -/
def State.mowed (s : State) : State := (s.upMem fun m => memClear m 0 0x0C2FFFFF).recache

theorem mowed_keeps (s : State) : Keeps [.cache, .mem] s s.mowed :=
  Keeps.chain (recache_keeps _) ((upMem_keeps _ s (memClear_wf _ _)).mono (by decide))

theorem mowed_memRead (s : State) {a : Nat} (ha : a ≤ 0x0C2FFFFF) (hc : inCache a = false) : memRead s.mowed.mem a = 0#8 :=
  recache_zero _ _ hc (memRead_clear_in _ _ _ _ (Nat.zero_le a) ha)

theorem bootMower_clean (h : s.boot.step = 2) : s.bootMower none =
    (s.mowed.upMower fun m => { m with bootPassOk := true }).upBoot fun b => { b with step := 3 } :=
  stepDone_at (s := s.mowed.upMower fun m => { m with bootPassOk := true }) ((congrArg BootSt.step ((mowed_keeps s).frame .boot (by decide))).trans h) (by decide)

theorem bootMower_faulty (addr bit : Nat) (h : s.boot.step = 2) : s.bootMower (some (addr, bit)) =
    ((s.mowed.upMower fun m => { m with bootPassOk := false, faultAddr := addr, faultBit := bit }).upBoot fun b => { b with mowerOk := false }).upBoot
      fun b => { b with step := 3 } :=
  stepDone_at (s := (s.mowed.upMower fun m => { m with bootPassOk := false, faultAddr := addr, faultBit := bit }).upBoot fun b => { b with mowerOk := false })
    ((congrArg BootSt.step ((mowed_keeps s).frame .boot (by decide))).trans h) (by decide)

theorem bootComponents_clean (prevOk : Bool) (s : State) : s.bootComponents none prevOk = s.loadSet 0 := by
  unfold State.bootComponents
  rw [ite_self]

theorem bootComponents_failed (c : Nat) (hk : s.power.bootKind ≠ 1) : s.bootComponents (some c) prevOk =
    if !s.sheaf.recTrial && prevOk && s.sheaf.previous != 0 then (s.fallback 5).upBoot fun b => { b with step := 3 } else s.loadSet c := by
  unfold State.bootComponents
  rw [if_neg hk]

/-- The fallback to the previous set (13 R308). -/
theorem fallback_f (result : Nat) (s : State) : (s.fallback result).boot = { s.boot with recordSinceVerify := true } ∧
    (s.fallback result).sheaf.active = s.sheaf.previous ∧ (s.fallback result).sheaf.previous = 0 ∧ (s.fallback result).sheaf.result = result ∧
    (s.fallback result).sheaf.fallbacks = inc32 s.sheaf.fallbacks := by
  unfold State.fallback
  generalize hw : s.writeCommit (SheafSt.fallBack result) = w
  have hsheaf : (w.record 0x0A03 [(4, w.sheaf.active), (1, result)]).sheaf = w.sheaf := rec_f _ _ _ .sheaf (by decide)
  have hboot : (w.record 0x0A03 [(4, w.sheaf.active), (1, result)]).boot = w.boot := rec_f _ _ _ .boot (by decide)
  rw [hsheaf, hboot, ← hw]
  exact ⟨rfl, rfl, rfl, rfl, rfl⟩

/-- Every pair has had its LBIST, with the verdict of the proof (09 R209). -/
def State.lbistsRun (passed : Nat) (s : State) : State :=
  ((List.range 8).foldl (fun (x : State) n => x.bootLbist passed n) s).proved 0 (decide (passed % 256 = 255))

/-- The placement that the enabled pairs give, where one fits (09 R210). -/
def State.replaced (s : State) : State :=
  match s.placementFor s.lock.disabled with
  | some p => s.upLock fun l => { l with placement := p }
  | none => s

theorem bootLbists_eq (passed : Nat) (s : State) : s.bootLbists passed = (s.lbistsRun passed).replaced.stepDone := by
  unfold State.bootLbists
  rw [← State.lbistsRun]
  generalize s.lbistsRun passed = w
  rfl

theorem replaced_keeps (s : State) : Keeps [.lock] s s.replaced := by
  unfold State.replaced
  split
  · exact upLock_keeps ..
  · exact Keeps.refl _

theorem lbistsRun_step (passed : Nat) (s : State) : (s.lbistsRun passed).boot.step = s.boot.step := by
  obtain ⟨-, hstep⟩ := foldLbist passed (List.range 8) s
  have hproved (x : State) (b : Bool) : (x.proved 0 b).boot = x.boot := (proved_keeps 0 b x).frame .boot (by decide)
  rw [State.lbistsRun, hproved, hstep]

theorem bootLbists_step (h : s.boot.step = 5) : (s.bootLbists passed).boot.step = 6 := by
  have hreplaced : (s.lbistsRun passed).replaced.boot = (s.lbistsRun passed).boot := (replaced_keeps _).frame .boot (by decide)
  have hstep : (s.lbistsRun passed).replaced.boot.step = 5 := by rw [hreplaced, lbistsRun_step, h]
  rw [bootLbists_eq, stepDone_at hstep (by decide)]
  rfl

theorem rulesOf_eq (hm : w.msg = s.msg) (hc : w.cfg = s.cfg) (hg : w.gate = s.gate) : w.rulesOf = s.rulesOf := by
  simp [State.rulesOf, State.fixedRules, State.bufAddr, State.bufLog, State.box, State.conf, hm, hc, hg]

/-- The verdict on the sown configuration. -/
def State.cfgChecked (ok : Bool) (s : State) : State := s.upBoot fun b => { b with cfgOk := ok }

theorem bootConfig_eq (ok : Bool) (s : State) : s.bootConfig ok =
    (if ok && s.cfg.sown.present then (s.cfgChecked (ok && s.cfg.sown.present)).freshPoints.installRules
      else s.cfgChecked (ok && s.cfg.sown.present)).stepDone := rfl

theorem bootConfig_f (hk : s.power.bootKind ≠ 1) (h : s.boot.step = 6) : (s.bootConfig ok).boot.step = 7 ∧
    (s.bootConfig ok).boot.cfgOk = (ok && s.cfg.sown.present) ∧ (ok = true → s.cfg.sown.present = true → (s.bootConfig ok).gate.active = s.rulesOf) := by
  rw [bootConfig_eq]
  generalize hv : (ok && s.cfg.sown.present) = v
  have hfresh := (freshPoints_keeps (s.cfgChecked v)).frame
  have hboot : (s.cfgChecked v).freshPoints.boot = (s.cfgChecked v).boot := hfresh .boot (by decide)
  have hpower : (s.cfgChecked v).freshPoints.power = s.power := hfresh .power (by decide)
  cases v with
  | true =>
    have hstep : ((s.cfgChecked true).freshPoints.installRules).stepDone = _ := stepDone_f _ (by rwa [State.installRules, State.upGate_power, hpower])
    rw [if_pos rfl, hstep]
    refine ⟨?_, ?_, fun _ _ => ?_⟩
    · show (s.cfgChecked true).freshPoints.boot.step + 1 = 7
      rw [hboot]
      exact congrArg (· + 1) h
    · exact congrArg BootSt.cfgOk hboot
    · exact rulesOf_eq (w := (s.cfgChecked true).freshPoints) (hfresh .msg (by decide)) (hfresh .cfg (by decide)) (hfresh .gate (by decide))
  | false =>
    have hstep : (s.cfgChecked false).stepDone = _ := stepDone_f _ hk
    rw [if_neg (by decide), hstep]
    refine ⟨congrArg (· + 1) h, rfl, fun hok hp => ?_⟩
    simp [hok, hp] at hv

end boot

/-! ## LBIST at BOOT (09 R209, R211) -/

section lbist

variable {passed n : Nat} {s : State}

/-- The result of one pair's LBIST is noted and counted. -/
def State.lbistNoted (ok : Bool) (n : Nat) (s : State) : State :=
  (s.setPair n fun c => { c with lbistOk := ok, lbistAt := if ok then s.tb3s else c.lbistAt, reenable := false }).upLock fun l =>
    { l with lbistRuns := inc32 l.lbistRuns, lbistFails := if ok then l.lbistFails else inc32 l.lbistFails }

/-- A disabled pair that comes back is recorded (09 R209). -/
def State.readmitted (n : Nat) (s : State) : State :=
  ((s.setPair n fun c => { c with disabled := false, permanent := false }).invalidate).record 0x0703 [(1, n)]

/-- A pair that fails is recorded and disabled as CORE. -/
def State.lbistFailed (n : Nat) (s : State) : State :=
  ((s.record 0x0702 [(1, n)]).disablePair n 1).upBoot fun b => { b with lbistOk := setBits b.lbistOk n 1 0 }

theorem bootLbist_eq (passed n : Nat) (s : State) : s.bootLbist passed n =
    if ((s.lbistNoted (bit passed n) n).corePair n).disabled then
      if bit passed n && s.readmits (s.corePair n) then (s.lbistNoted (bit passed n) n).readmitted n else s.lbistNoted (bit passed n) n
    else if bit passed n then s.lbistNoted (bit passed n) n else (s.lbistNoted (bit passed n) n).lbistFailed n := rfl

theorem corePair_of_lock {u w : State} (h : u.lock = w.lock) (n : Nat) : u.corePair n = w.corePair n := by rw [State.corePair, h, State.corePair]

theorem lbistNoted_corePair (ok : Bool) (hn : n < s.lock.pairs.length) : (s.lbistNoted ok n).corePair n =
    { s.corePair n with lbistOk := ok, lbistAt := if ok then s.tb3s else (s.corePair n).lbistAt, reenable := false } :=
  setPair_get n _ s hn

theorem lbistNoted_length (ok : Bool) (n : Nat) (s : State) : (s.lbistNoted ok n).lock.pairs.length = s.lock.pairs.length := setAt_length ..

theorem readmitted_corePair (hn : n < s.lock.pairs.length) : ((s.readmitted n).corePair n).disabled = false := by
  have hlock : (s.readmitted n).lock = (s.setPair n fun c => { c with disabled := false, permanent := false }).lock := rec_f _ _ _ .lock (by decide)
  rw [corePair_of_lock hlock, setPair_get _ _ _ hn]

theorem lbistFailed_corePair (hn : n < s.lock.pairs.length) : ((s.lbistFailed n).corePair n).disabled = true ∧
    ((s.lbistFailed n).corePair n).lastClass = 1 ∧ ((s.lbistFailed n).corePair n).permanent = true := by
  have hlock : (s.record 0x0702 [(1, n)]).lock = s.lock := rec_f _ _ _ .lock (by decide)
  have hpair : (s.lbistFailed n).corePair n = _ := setPair_get n _ (s.record 0x0702 [(1, n)]) (by rwa [hlock])
  rw [hpair]
  exact ⟨rfl, rfl, by simp⟩

theorem bootLbist_fails (hn : n < s.lock.pairs.length) (he : (s.corePair n).disabled = false) (hb : bit passed n = false) :
    ((s.bootLbist passed n).corePair n).disabled = true ∧ ((s.bootLbist passed n).corePair n).lastClass = 1 ∧
    ((s.bootLbist passed n).corePair n).permanent = true := by
  rw [bootLbist_eq, lbistNoted_corePair _ hn, if_neg (by simp [he]), if_neg (by simp [hb])]
  exact lbistFailed_corePair (by rwa [lbistNoted_length])

theorem bootLbist_passes (hn : n < s.lock.pairs.length) (he : (s.corePair n).disabled = false) (hb : bit passed n = true) :
    ((s.bootLbist passed n).corePair n).disabled = false ∧ ((s.bootLbist passed n).corePair n).lbistOk = true := by
  rw [bootLbist_eq, lbistNoted_corePair _ hn, if_neg (by simp [he]), if_pos hb, lbistNoted_corePair _ hn]
  exact ⟨he, hb⟩

theorem bootLbist_disabled (hn : n < s.lock.pairs.length) (hd : (s.corePair n).disabled = true) :
    ((s.bootLbist passed n).corePair n).disabled = !(bit passed n && s.readmits (s.corePair n)) := by
  rw [bootLbist_eq, lbistNoted_corePair _ hn, if_pos hd]
  cases hback : bit passed n && s.readmits (s.corePair n) with
  | true =>
    rw [if_pos rfl, readmitted_corePair (by rwa [lbistNoted_length])]
    rfl
  | false =>
    rw [if_neg (by decide), lbistNoted_corePair _ hn]
    exact hd

end lbist

/-- Settles O44: a step in its order runs one operation, and none of them but that of a wake can overrun. -/
theorem bootStepsRunInOrder : Obligations.BootStepsRunInOrder := by
  unfold Obligations.BootStepsRunInOrder
  refine ⟨fun st s => by cases st <;> exact mayStep_iff, fun t st s hm => (exec_bootStepEnd ..).trans (happens_not hm), fun t s hk =>
    ⟨fun hm => ⟨fun hl => ?lingKept, fun hl => ?lingLost⟩, fun prevOk hm htrial hcalm hlatch => ?steward, fun prevOk hm htrial hp => ?halts, fun hm => ?mowed,
      fun addr n hm => ?mowerFault, fun hm => ?store, fun prevOk hm => ?components, fun c prevOk hm => ⟨fun htrial hok hp => ?fallback, fun hno => ?failed⟩,
      fun passed hm => ?lbist, fun ok hm => ?config, fun hm => ?holdup⟩,
    fun passed n s hn => ⟨bootLbist_fails hn, bootLbist_passes hn, bootLbist_disabled hn⟩, fun kind reason released s => ?start⟩
  case lingKept =>
    have hdone := (readLing_kept hl).trans (stepDone_at (mayStep_f hm) (by decide))
    exact exec_bootStepEnd_done hm (congrArg State.overrun hdone) hk
  case lingLost =>
    obtain ⟨htb3, hgap, hstep, hkept, hkind⟩ := readLing_lost_f hl (mayStep_f hm)
    exact does_keeps (exec_bootStepEnd_done hm rfl (by rwa [hkind])) (readLing_keeps _) ⟨htb3, hgap, hstep, hkept⟩
  case steward =>
    obtain ⟨hkeeps, hstep, hat, hrecord, hlife, hlatched, hrules⟩ := stewardCalm _ hcalm hlatch (mayStep_f hm)
    have hpower : (s.arrive t).stewardRuns.power = (s.arrive t).power := hkeeps.frame .power (by decide)
    exact does_keeps (exec_bootStepEnd_done hm (congrArg State.overrun (bootRom_verified htrial)) (by rwa [hpower])) hkeeps
      ⟨hstep, hat, hrecord, hlife, hlatched, hrules⟩
  case halts => exact exec_bootStepEnd_done hm (congrArg State.overrun (bootRom_halts hk htrial hp)) hk
  case mowed =>
    have hmowed := mowed_keeps (s.arrive t)
    have hpower : (s.arrive t).mowed.power = (s.arrive t).power := hmowed.frame .power (by decide)
    have hmower : (s.arrive t).mowed.mower = (s.arrive t).mower := hmowed.frame .mower (by decide)
    refine does_keeps (exec_bootStepEnd_done hm (congrArg State.overrun (bootMower_clean (mayStep_f hm))) ?_)
      (Keeps.chain (upBoot_keeps ..) (Keeps.chain (upMower_keeps ..) (hmowed.mono (by decide)))) ⟨rfl, ?_, fun a ha hc => mowed_memRead _ ha hc⟩
    · rwa [State.upBoot_power, State.upMower_power, hpower]
    · rw [State.upBoot_mower, State.upMower_mower, hmower]
  case mowerFault =>
    have hmowed := mowed_keeps (s.arrive t)
    have hpower : (s.arrive t).mowed.power = (s.arrive t).power := hmowed.frame .power (by decide)
    have hmower : (s.arrive t).mowed.mower = (s.arrive t).mower := hmowed.frame .mower (by decide)
    have hboot : (s.arrive t).mowed.boot = (s.arrive t).boot := hmowed.frame .boot (by decide)
    refine does_keeps (exec_bootStepEnd_done hm (congrArg State.overrun (bootMower_faulty addr n (mayStep_f hm))) ?_)
      (Keeps.chain (upBoot_keeps ..) (Keeps.chain (upBoot_keeps ..) (Keeps.chain (upMower_keeps ..) (hmowed.mono (by decide))))) ⟨?_, ?_⟩
    · rwa [State.upBoot_power, State.upBoot_power, State.upMower_power, hpower]
    · rw [State.upBoot_boot, State.upBoot_boot, State.upMower_boot, hboot]
    · rw [State.upBoot_mower, State.upBoot_mower, State.upMower_mower, hmower]
  case store => exact exec_bootStepEnd_done hm (congrArg State.overrun (stepDone_at (mayStep_f hm) (by decide))) hk
  case components =>
    obtain ⟨hboot, hfault, hdio, hua, hpanel⟩ := loadSet_f (s.arrive t) 0 hk (mayStep_f hm)
    have hpower : ((s.arrive t).loadSet 0).power = (s.arrive t).power := (loadSet_keeps 0 _).frame .power (by decide)
    exact does_keeps (exec_bootStepEnd_done hm (congrArg State.overrun (bootComponents_clean prevOk _)) (by rwa [hpower])) (loadSet_keeps ..)
      ⟨hboot, hfault, hdio, hua, hpanel⟩
  case fallback =>
    obtain ⟨hboot, hactive, hprevious, hresult, hcount⟩ := fallback_f 5 (s.arrive t)
    have hpower : ((s.arrive t).fallback 5).power = (s.arrive t).power := (fallback_keeps 5 _).frame .power (by decide)
    have hfalls := (bootComponents_failed (prevOk := prevOk) c hk).trans (if_pos (by simp [htrial, hok, hp]))
    refine does_keeps (exec_bootStepEnd_done hm (congrArg State.overrun hfalls) (by rwa [State.upBoot_power, hpower]))
      (Keeps.chain (upBoot_keeps ..) (fallback_keeps ..)) ⟨?_, hactive, hprevious, hresult, hcount⟩
    rw [State.upBoot_boot, hboot]
  case failed =>
    obtain ⟨hboot, hfault, hdio, hua, hpanel⟩ := loadSet_f (s.arrive t) c hk (mayStep_f hm)
    have hpower : ((s.arrive t).loadSet c).power = (s.arrive t).power := (loadSet_keeps c _).frame .power (by decide)
    have hloads := (bootComponents_failed (prevOk := prevOk) c hk).trans (if_neg (by rcases hno with h | h | h <;> simp [h]))
    exact does_keeps (exec_bootStepEnd_done hm (congrArg State.overrun hloads) (by rwa [hpower])) (loadSet_keeps ..)
      ⟨congrArg BootSt.step hboot, hfault, hdio, hua, hpanel⟩
  case lbist =>
    have hpower : ((s.arrive t).bootLbists passed).power = (s.arrive t).power := (bootLbists_keeps passed _).frame .power (by decide)
    refine ⟨_, exec_bootStepEnd_done hm rfl (by rwa [hpower]), bootLbists_step (mayStep_f hm), ?_⟩
    rintro _ rfl
    exact bootLbists_eq ..
  case config =>
    have hpower : ((s.arrive t).bootConfig ok).power = (s.arrive t).power := (bootConfig_keeps ok _).frame .power (by decide)
    exact ⟨_, exec_bootStepEnd_done hm rfl (by rwa [hpower]), bootConfig_f hk (mayStep_f hm)⟩
  case holdup => exact exec_bootStepEnd_done hm (congrArg State.overrun (stepDone_at (mayStep_f hm) (by decide))) hk
  case start =>
    obtain ⟨hmode, hkind, howner, hcycles, -⟩ := startBoot_f kind reason released s
    exact ⟨hmode, hkind, howner, hcycles⟩

/-! ## Mode requests (08 R181, Table 8.4) -/

section requests

variable {t target delay : Nat} {r : Req} {s v : State}

theorem modeAccepted_iff (ht : target ∈ [1, 2, 5, 7, 8]) : s.modeAccepted target = true ↔ s.boot.retiring = false ∧
    ((target = 1 ∨ target = 2) ∧ s.power.mode ∈ [2, 3, 4, 7] ∨ target = 5 ∧ (s.power.mode ∈ [2, 5, 6] ∨ s.power.mode = 7 ∧ s.power.reason = 8) ∨
      target = 7 ∧ s.power.mode ≠ 2 ∨ target = 8 ∧ s.power.mode ∈ [2, 7]) := by
  simp only [List.mem_cons, List.not_mem_nil, or_false] at ht
  rcases ht with rfl | rfl | rfl | rfl | rfl
  · simp [State.modeAccepted, or_assoc]
  · simp [State.modeAccepted, or_assoc]
  · simp [State.modeAccepted]
    tauto
  · simp [State.modeAccepted]
  · simp [State.modeAccepted]

theorem modeRole_eq (target mode : Nat) : modeRole target mode = if target = 7 ∧ (mode = 5 ∨ mode = 6) then 4 else 3 := by
  simp [modeRole]

/-- The checks of MODE_REQUEST in their order (Table 8.4, R263). -/
theorem modeBody_untargeted (ht : field r.payload 0 1 ∉ [1, 2, 5, 7, 8]) : modeBody r s = (s, some (stRange, [])) :=
  guarded_first (need_no (by simpa [modeTargets] using ht))

/-- No job of the configuration or of a Sheaf holds a target that would end it. -/
def State.modeFree (target : Nat) (s : State) : Bool := !(s.jobHolds && (target == 1 || target == 2 || target == 8))

theorem modeFree_iff : s.modeFree target = true ↔ s.jobHolds = false ∨ target ∉ [1, 2, 8] := by
  simp [State.modeFree, and_assoc]

theorem modeBody_targeted (ht : field r.payload 0 1 ∈ [1, 2, 5, 7, 8]) (hz : zeros r.payload 1 3 = true) : modeBody r s =
    guarded [need (State.modeAccepted (field r.payload 0 1)) stState, need (State.modeFree (field r.payload 0 1)) stBusy] (reply stOk []) s :=
  (guarded_pass (need_ok (by simpa [modeTargets] using ht))).trans (guarded_pass (res_ok hz))

theorem modeBody_refused (ht : field r.payload 0 1 ∈ [1, 2, 5, 7, 8]) (hz : zeros r.payload 1 3 = true)
    (ha : s.modeAccepted (field r.payload 0 1) = false) : modeBody r s = (s, some (stState, [])) := by
  rw [modeBody_targeted ht hz, guarded_first (need_no ha)]

theorem modeBody_busy (ht : field r.payload 0 1 ∈ [1, 2, 5, 7, 8]) (hz : zeros r.payload 1 3 = true)
    (ha : s.modeAccepted (field r.payload 0 1) = true) (hb : s.modeFree (field r.payload 0 1) = false) :
    modeBody r s = (s, some (stBusy, [])) := by
  rw [modeBody_targeted ht hz, guarded_pass (need_ok ha), guarded_first (need_no hb)]

theorem modeBody_accepted (ht : field r.payload 0 1 ∈ [1, 2, 5, 7, 8]) (hz : zeros r.payload 1 3 = true)
    (ha : s.modeAccepted (field r.payload 0 1) = true) (hf : s.modeFree (field r.payload 0 1) = true) :
    modeBody r s = (s, some (stOk, [])) := by
  rw [modeBody_targeted ht hz, guarded_pass (need_ok ha), guarded_pass (need_ok hf), guarded_nil, reply]

/-- A request that a check refuses is answered and has no effect. -/
theorem exec_modeRequest_refused {st : Nat} (ha : (s.arrive t).accepts (plainCmd 0x101 (modeRole (field r.payload 0 1) (s.arrive t).power.mode) 8) r)
    (hb : modeBody r ((s.arrive t).take r) = ((s.arrive t).take r, some (st, []))) (hst : st ≠ stOk) :
    exec (.modeRequest t r) s = .next (((s.arrive t).take r).respond (hdrOf r) 0x101 st []) := by
  rw [exec_modeRequest, execModeRequest, happens_of ha.1, serve_ok ha hb]
  exact congrArg _ (if_neg hst)

/-- An accepted request is answered before it takes effect. -/
theorem exec_modeRequest_accepted (ha : (s.arrive t).accepts (plainCmd 0x101 (modeRole (field r.payload 0 1) (s.arrive t).power.mode) 8) r)
    (hb : modeBody r ((s.arrive t).take r) = ((s.arrive t).take r, some (stOk, []))) :
    exec (.modeRequest t r) s = .next ((((s.arrive t).take r).respond (hdrOf r) 0x101 stOk []).requestMode (field r.payload 0 1) (field r.payload 4 4)) := by
  rw [exec_modeRequest, execModeRequest, happens_of ha.1, serve_ok ha hb]
  exact congrArg _ (if_pos rfl)

/-! ### What an accepted target does -/

theorem requestMode_boot (delay : Nat) (s : State) : s.requestMode 1 delay = s.restart 1 false := by unfold State.requestMode; rfl

theorem requestMode_maintenance (delay : Nat) (s : State) : s.requestMode 2 delay = s.enterMaintenance := by unfold State.requestMode; rfl

theorem requestMode_sleep (delay : Nat) (s : State) : s.requestMode 8 delay = (s.upPower fun p => { p with wakeDelay := delay }).beginRetire 3 := by
  unfold State.requestMode
  rfl

theorem enterMaintenance_there (h : s.power.mode = 2) : s.enterMaintenance = s.upPower fun p => { p with latch := true } := if_pos h

/-- The module with its latch set, out of the pair's operations. -/
def State.withdrawn (s : State) : State := (((s.upPower fun p => { p with latch := true }).abandonArmed stState).cancelStart)

theorem withdrawn_power (s : State) : s.withdrawn.power = { s.power with latch := true } :=
  ((cancelStart_keeps _).frame .power (by decide) : s.withdrawn.power = ((s.upPower fun p => { p with latch := true }).abandonArmed stState).power).trans
    ((abandonArmed_keeps _ _).frame .power (by decide))

theorem enterMaintenance_elsewhere (h : s.power.mode ≠ 2) : s.enterMaintenance.power = (s.withdrawn.maintain 1).power := by
  unfold State.enterMaintenance
  dsimp only
  rw [if_neg (by exact h), State.upPair_power, State.withdrawn]

theorem enterMaintenance_f (s : State) : s.enterMaintenance.power.mode = 2 ∧ s.enterMaintenance.power.latch = true := by
  by_cases h : s.power.mode = 2
  · rw [enterMaintenance_there h]
    exact ⟨h, rfl⟩
  · rw [enterMaintenance_elsewhere h, maintain_f, withdrawn_power]
    exact ⟨rfl, rfl⟩

theorem requestMode_start_there (h : s.power.mode = 5 ∨ s.power.mode = 6) : s.requestMode 5 delay = s := by
  rw [rm5, if_neg (by omega), if_neg (by omega)]

/-- SAFE HOLD releases the start that it holds, where no decision is in progress. -/
theorem requestMode_start_held (h : s.power.mode = 7) (hw : s.boot.waiting = false) (ht : s.pair.termOpen = false) (ho : s.pair.ownClaim = false) :
    s.requestMode 5 delay = (s.upPower fun p => { p with released := true }).decide5 := by
  rw [rm5, if_neg (by omega), if_pos h]
  exact if_neg (by simp [hw, ht, ho])

theorem requestMode_sleep_retires (hr : s.boot.retiring = false) : (s.requestMode 8 delay).boot.retiring = true ∧
    (s.requestMode 8 delay).power.retireReason = 3 ∧ (s.requestMode 8 delay).power.wakeDelay = delay := by
  obtain ⟨hpower, hretiring, -⟩ := beginRetire_f 3 (s.upPower fun p => { p with wakeDelay := delay }) hr
  rw [requestMode_sleep, hpower]
  exact ⟨hretiring, rfl, rfl⟩

end requests

/-- Settles O45: the first check that fails is the answer, and past the checks each target is one operation. -/
theorem modeRequestsFollowTable84 : Obligations.ModeRequestsFollowTable84 := by
  unfold Obligations.ModeRequestsFollowTable84
  refine ⟨fun target s ht => modeAccepted_iff ht, modeRole_eq, ?answers, fun delay s => ⟨?restarts, ?maintains, fun h => ?releases, requestMode_start_there,
    requestMode_start_held, fun h => (rm7 ..).trans (if_pos h), fun h => ?holds, requestMode_sleep_retires⟩⟩
  case answers =>
    rintro t _ r s rfl ha
    refine ⟨fun ht => ?_, fun ht hz => ⟨fun hno => ?_, fun hyes hj h => ?_, fun hyes h => ?_⟩⟩
    · exact exec_modeRequest_refused ha (modeBody_untargeted ht) (by decide)
    · exact exec_modeRequest_refused ha (modeBody_refused ht hz hno) (by decide)
    · have hb : (s.arrive t).modeFree (field r.payload 0 1) = false :=
        Bool.eq_false_iff.2 fun hf => (modeFree_iff.1 hf).elim (by simp [hj]) (absurd h)
      exact exec_modeRequest_refused ha (modeBody_busy ht hz hyes hb) (by decide)
    · exact exec_modeRequest_accepted ha (modeBody_accepted ht hz hyes (modeFree_iff.2 h))
  case restarts =>
    obtain ⟨hmode, hkind, hlatch, -⟩ := restart_power 1 false s
    rw [requestMode_boot]
    exact ⟨hmode, hkind, hlatch⟩
  case maintains =>
    obtain ⟨hmode, hlatch⟩ := enterMaintenance_f s
    rw [requestMode_maintenance]
    exact ⟨hmode, hlatch, enterMaintenance_there⟩
  case releases =>
    rw [rm5, if_pos h]
    exact restart_power 1 true _
  case holds =>
    rw [rm7, if_neg h]
    obtain ⟨hmode, hreason, howner, -⟩ := safeHold_f 1 s
    exact ⟨hmode, hreason, howner⟩

end Sys2Proof.Machine

/-! Proofs of the statement about lockstep: a fault, the comparator self-test, LBIST and the end of a diagnosis (O32). -/

namespace Sys2Proof.Machine

/-! ## A pair as it is disabled (09 R209) -/

section disable

variable {n : Nat} {s : State}

theorem record_lock (type : Nat) (qs : List (Nat × Nat)) (s : State) : (s.record type qs).lock = s.lock := rec_f _ _ _ .lock (by decide)

theorem disablePair_corePair (cls : Nat) (hn : n < s.lock.pairs.length) : (s.disablePair n cls).corePair n =
    { s.corePair n with disabled := true, lastClass := cls, permanent := (s.corePair n).permanent || cls != 4 } :=
  setPair_get n _ s hn

theorem disablePair_seed (n cls : Nat) (s : State) : (s.disablePair n cls).cfg.seed.valid = false := rfl

end disable

/-! ## A fault and the self-test that can find it (09 R206, R207) -/

section faults

variable {t n g : Nat} {f : LockFinding} {s : State}

theorem exec_lockstepFault_awake (hw : (s.arrive t).awake = true) (hc : (s.arrive t).boot.coresOff = false) (hn : n < 8) :
    exec (.lockstepFault t n f g) s = .next ((s.arrive t).lockFault n f g) := by
  rw [exec_lockstepFault, execLockstepFault, happens_of (by simp [hw, hc, hn])]

theorem exec_comparatorSelfTest_awake (failed : Option Nat) (hw : (s.arrive t).awake = true) (hc : (s.arrive t).boot.coresOff = false) :
    exec (.comparatorSelfTest t failed) s = .next ((s.arrive t).selfTest failed) := by
  rw [exec_comparatorSelfTest, execComparatorSelfTest, happens_of (by simp [hw, hc])]

theorem lockFault_halted (h : (s.corePair n).halted = true) : s.lockFault n f g = s := if_pos h

/-- Every enabled pair has run its self-test, with the verdict of the proof. -/
def State.selfTestsRun (ok : Bool) (s : State) : State :=
  (s.upLock fun l =>
    { l with selftestsRun := add32 l.selftestsRun (8 - l.disabled.length),
             pairs := l.pairs.map fun c => if c.disabled then c else { c with selfTests := c.selfTests + 1 } }).proved 1 ok

theorem selfTest_passes (s : State) : s.selfTest none = s.selfTestsRun true := rfl

/-- A failed comparator is a broken health and a lockstep fault of its pair. -/
theorem selfTest_fails (n : Nat) (s : State) : s.selfTest (some n) =
    ((s.selfTestsRun false).upSheaf fun h => { h with healthBroken := true, healthPassed := false }).lockFault n .selfTestFailed 0xFE := rfl

theorem selfTestsRun_lock (ok : Bool) (s : State) : (s.selfTestsRun ok).lock =
    { s.lock with selftestsRun := add32 s.lock.selftestsRun (8 - s.lock.disabled.length),
                  pairs := s.lock.pairs.map fun c => if c.disabled then c else { c with selfTests := c.selfTests + 1 } } :=
  (proved_f ..).1

theorem selfTestsRun_power (ok : Bool) (s : State) : (s.selfTestsRun ok).power = s.power := (proved_keeps ..).frame .power (by decide)

theorem selfTestsRun_length (ok : Bool) (s : State) : (s.selfTestsRun ok).lock.pairs.length = s.lock.pairs.length := by
  rw [selfTestsRun_lock, List.length_map]

theorem selfTestsRun_halted (ok : Bool) (hn : n < s.lock.pairs.length) : ((s.selfTestsRun ok).corePair n).halted = (s.corePair n).halted := by
  rw [State.corePair, selfTestsRun_lock, State.corePair, List.getD_eq_getElem _ _ hn, List.getD_eq_getElem _ _ (by rwa [List.length_map]),
    List.getElem_map]
  exact (apply_ite CorePair.halted ..).trans (ite_self _)

/-- What a failed self-test of a running pair does in a mode that SAFE HOLD can follow. -/
theorem selfTest_stops_control (hh : (s.corePair n).halted = false) (hlo : 3 ≤ s.power.mode) (hhi : s.power.mode ≤ 6) (hn : n < s.lock.pairs.length) :
    (s.selfTest (some n)).power.mode = 7 ∧ (s.selfTest (some n)).power.reason = 2 ∧ ((s.selfTest (some n)).corePair n).halted = true ∧
    ((s.selfTest (some n)).corePair n).kindAtFault = 3 ∧ (s.selfTest (some n)).sheaf.healthBroken = true := by
  rw [selfTest_fails]
  generalize hu : (s.selfTestsRun false).upSheaf (fun h => { h with healthBroken := true, healthPassed := false }) = u
  have hlock : u.lock = (s.selfTestsRun false).lock := hu ▸ rfl
  have hpower : u.power = s.power := hu ▸ selfTestsRun_power false s
  have hbroken : u.sheaf.healthBroken = true := hu ▸ rfl
  have hlen : n < u.lock.pairs.length := by rwa [hlock, selfTestsRun_length]
  have hrunning : (u.corePair n).halted = false := by rw [corePair_of_lock hlock, selfTestsRun_halted _ hn, hh]
  obtain ⟨hpair, -, -, -, -, hstop, -, hhealth⟩ := lockFault_f n 0xFE .selfTestFailed u hlen hrunning
  rw [hpower] at hstop hhealth
  obtain ⟨hmode, hreason, -⟩ := hstop hlo hhi
  rw [hpair]
  exact ⟨hmode, hreason, rfl, rfl, (hhealth hbroken).resolve_right (not_not_intro ⟨hlo, hhi⟩)⟩

end faults

/-! ## LBIST in operation (09 R211, R212) -/

section lbistRuns

variable {t n : Nat} {s : State}

theorem exec_lbistStart_due (hm : (s.arrive t).power.mode = 2 ∨ (s.arrive t).power.mode = 4) (hr : (s.arrive t).lock.lbistRunning = none)
    (hd : (s.arrive t).lock.lbistDue ≤ (s.arrive t).tb3s) : exec (.lbistStart t) s = .next (s.arrive t).startLbist := by
  rw [exec_lbistStart, execLbistStart, happens_of (by simp [State.lbistDue, hm, hr, hd])]

theorem exec_lbistComplete_running (passed : Bool) (hr : (s.arrive t).lock.lbistRunning = some n) :
    exec (.lbistComplete t passed) s = .next ((s.arrive t).endLbist n passed) := by
  rw [exec_lbistComplete, execLbistComplete, happens_of (by simp [hr]), hr, Option.getD_some]

/-- The run of one pair is over: its result is noted, counted and taken into the proof. -/
def State.lbistOver (n : Nat) (ok : Bool) (s : State) : State :=
  ((s.upLock fun l => { l with lbistRunning := none, lbistRuns := inc32 l.lbistRuns,
                               lbistFails := if ok then l.lbistFails else inc32 l.lbistFails }).setPair n fun c =>
    { c with lbistOk := ok, lbistAt := if ok then s.tb3s else c.lbistAt }).proved 0 ok

/-- The placement that the enabled pairs still give; where none fits, SAFE HOLD follows STANDBY and another mode stays (09 R212). -/
def State.placedOrHeld (s : State) : State :=
  match s.placementFor s.lock.disabled with
  | some p => s.upLock fun l => { l with placement := p }
  | none => if s.power.mode = 4 then s.safeHold 2 else s.stayMode 2

theorem endLbist_passes (n : Nat) (s : State) : s.endLbist n true = s.lbistOver n true := rfl

theorem endLbist_fails (n : Nat) (s : State) :
    s.endLbist n false = (((s.lbistOver n false).record 0x0702 [(1, n)]).disablePair n 1).placedOrHeld := rfl

theorem lbistOver_lock (n : Nat) (ok : Bool) (s : State) : (s.lbistOver n ok).lock =
    { s.lock with lbistRunning := none, lbistRuns := inc32 s.lock.lbistRuns,
                  lbistFails := if ok then s.lock.lbistFails else inc32 s.lock.lbistFails,
                  pairs := setAt s.lock.pairs n fun c => { c with lbistOk := ok, lbistAt := if ok then s.tb3s else c.lbistAt } } :=
  (proved_f ..).1

theorem lbistOver_power (n : Nat) (ok : Bool) (s : State) : (s.lbistOver n ok).power = s.power := (proved_keeps ..).frame .power (by decide)

theorem lbistOver_corePair (ok : Bool) (hn : n < s.lock.pairs.length) : (s.lbistOver n ok).corePair n =
    { s.corePair n with lbistOk := ok, lbistAt := if ok then s.tb3s else (s.corePair n).lbistAt } := by
  rw [State.corePair, lbistOver_lock]
  exact getD_setAt_self _ _ _ _ hn

theorem placedOrHeld_lock (s : State) : ∃ p, s.placedOrHeld.lock = { s.lock with placement := p } := by
  unfold State.placedOrHeld
  split
  · next p _ => exact ⟨p, rfl⟩
  · refine ⟨s.lock.placement, ?_⟩
    split
    · exact safeHold_lock 2 s
    · exact stayMode_f 2 s .lock (by decide)

theorem placedOrHeld_seed (s : State) : s.placedOrHeld.cfg.seed.valid = s.cfg.seed.valid := by
  unfold State.placedOrHeld
  split
  · rfl
  · split
    · exact safeHold_seed 2 s
    · exact congrArg (fun c : CfgSt => c.seed.valid) (stayMode_f 2 s .cfg (by decide))

theorem endLbist_fails_f (hn : n < s.lock.pairs.length) : (s.endLbist n false).lock.lbistRunning = none ∧
    (s.endLbist n false).lock.lbistFails = inc32 s.lock.lbistFails ∧ ((s.endLbist n false).corePair n).disabled = true ∧
    ((s.endLbist n false).corePair n).lastClass = 1 ∧ ((s.endLbist n false).corePair n).permanent = true ∧ (s.endLbist n false).cfg.seed.valid = false := by
  rw [endLbist_fails]
  generalize hw : (s.lbistOver n false).record 0x0702 [(1, n)] = w
  have hlock : w.lock = (s.lbistOver n false).lock := hw ▸ record_lock ..
  have hlen : n < w.lock.pairs.length := by rw [hlock, lbistOver_lock]; simpa using hn
  obtain ⟨p, hplaced⟩ := placedOrHeld_lock (w.disablePair n 1)
  have hpair : (w.disablePair n 1).placedOrHeld.corePair n = (w.disablePair n 1).corePair n := by
    rw [State.corePair, hplaced]
    rfl
  rw [hpair, hplaced, placedOrHeld_seed, disablePair_corePair 1 hlen]
  refine ⟨?_, ?_, rfl, rfl, Bool.or_true _, disablePair_seed ..⟩
  · exact congrArg LockSt.lbistRunning (hlock.trans (lbistOver_lock ..))
  · exact congrArg LockSt.lbistFails (hlock.trans (lbistOver_lock ..))

end lbistRuns

/-! ## The end of a diagnosis (09 R207–R209, Table 9.3) -/

section diagnosis

variable {t n : Nat} {a b c d : Bool} {s : State}

theorem exec_lockstepDiagnosisEnd_halted (hw : (s.arrive t).awake = true) (hh : ((s.arrive t).corePair n).halted = true)
    (hk : ((s.arrive t).corePair n).kindAtFault ≠ 0) :
    exec (.lockstepDiagnosisEnd t n a b c d) s = .next ((s.arrive t).diagnosed n a b c d) := by
  rw [exec_lockstepDiagnosisEnd, execLockstepDiagnosisEnd, happens_of (by simp [hw, hh, hk])]

/-- The retest of a pair is over: the finding is cleared, LBIST noted and counted, and an UNKNOWN joins those before it. -/
def State.retested (n cls : Nat) (ok : Bool) (s : State) : State :=
  (s.upLock fun l => { l with lbistRuns := inc32 l.lbistRuns, lbistFails := if ok then l.lbistFails else inc32 l.lbistFails }).setPair n fun c =>
    { c with kindAtFault := 0, lbistOk := ok, lbistAt := if ok then s.tb3s else c.lbistAt,
             permanent := c.permanent || (cls == 4 && (s.corePair n).unknowns.any fun a => decide (s.tb3s ≤ a + 2592000)),
             unknowns := if cls = 4 then s.tb3s :: c.unknowns else c.unknowns }

/-- The retested pair is recorded and disabled as its class. -/
def State.classified (n cls : Nat) (ok : Bool) (s : State) : State :=
  ((s.retested n cls ok).record 0x0701 [(1, n), (1, (s.corePair n).lastGroup), (1, cls)]).disablePair n cls

theorem diagnosed_eq (n : Nat) (a b c d : Bool) (s : State) : s.diagnosed n a b c d =
    let v := s.classified n (faultClass (s.corePair n).kindAtFault a b c d) c
    if v.power.mode = 7 && !v.boot.retiring && (v.placementFor v.lock.disabled).isSome then v.restart 2 false else v := rfl

theorem classified_power (n cls : Nat) (ok : Bool) (s : State) : (s.classified n cls ok).power = s.power := record_power ..

/-- The module restarts out of SAFE HOLD alone. -/
theorem diagnosed_without_restart (hm : s.power.mode ≠ 7) :
    s.diagnosed n a b c d = s.classified n (faultClass (s.corePair n).kindAtFault a b c d) c :=
  (diagnosed_eq ..).trans (if_neg (by simp [classified_power, hm]))

theorem classified_corePair (cls : Nat) (ok : Bool) (hn : n < s.lock.pairs.length) : (s.classified n cls ok).corePair n =
    { (s.retested n cls ok).corePair n with disabled := true, lastClass := cls, permanent := ((s.retested n cls ok).corePair n).permanent || cls != 4 } := by
  have hlock := record_lock 0x0701 [(1, n), (1, (s.corePair n).lastGroup), (1, cls)] (s.retested n cls ok)
  have hlen : (s.retested n cls ok).lock.pairs.length = s.lock.pairs.length := setAt_length ..
  rw [State.classified, disablePair_corePair cls (by rwa [hlock, hlen]), corePair_of_lock hlock]

theorem retested_kindAtFault (cls : Nat) (ok : Bool) (hn : n < s.lock.pairs.length) : ((s.retested n cls ok).corePair n).kindAtFault = 0 :=
  congrArg CorePair.kindAtFault (setPair_get n _ _ hn)

theorem diagnosed_f (hn : n < s.lock.pairs.length) (hm : s.power.mode ≠ 7) : ((s.diagnosed n a b c d).corePair n).disabled = true ∧
    ((s.diagnosed n a b c d).corePair n).kindAtFault = 0 ∧
    ((s.diagnosed n a b c d).corePair n).lastClass = faultClass (s.corePair n).kindAtFault a b c d ∧
    (faultClass (s.corePair n).kindAtFault a b c d ≠ 4 → ((s.diagnosed n a b c d).corePair n).permanent = true) ∧
    (s.diagnosed n a b c d).cfg.seed.valid = false ∧ (s.diagnosed n a b c d).power = s.power := by
  rw [diagnosed_without_restart hm, classified_corePair _ c hn, classified_power]
  exact ⟨rfl, retested_kindAtFault _ c hn, rfl, fun h => by simp [h], disablePair_seed .., rfl⟩

theorem faultClass_eq (kind : Nat) (a b c d : Bool) : faultClass kind a b c d =
    if kind ≠ 1 ∨ a = false then 3 else if b = false then 2 else if c = false ∨ d = true then 1 else 4 := by
  simp only [faultClass, Bool.or_eq_true, bne_iff_ne, Bool.not_eq_true']

end diagnosis

/-- Settles O32: each command of the chapter runs one operation, and where a finding stops control the operation enters SAFE HOLD. -/
theorem lockstepFaultsStopControl : Obligations.LockstepFaultsStopControl := by
  unfold Obligations.LockstepFaultsStopControl
  refine ⟨fun t n g f s hw hc h8 hn => ⟨fun hh => ?halted, fun hh => ?fault⟩, fun t s hw hc => ?tested, fun t n s hw hc hh hlo hhi hn => ?failed,
    fun t s => exec_lbistStart_due, fun t n s hr hn => ⟨?lbistPassed, ?lbistFailed⟩, fun t n a b c d s hw hh hk hn hm => ?diagnosis, faultClass_eq⟩
  case halted => rw [exec_lockstepFault_awake hw hc h8, lockFault_halted hh]
  case fault =>
    obtain ⟨hpair, hvector, hmismatch, hrail, hself, hstop, hstay, -⟩ := lockFault_f n g f (s.arrive t) hn hh
    exact ⟨_, exec_lockstepFault_awake hw hc h8, hpair, hvector, hmismatch, hrail, hself, hstop, hstay⟩
  case tested =>
    obtain ⟨-, -, hproof, -⟩ := proved_f 1 true _
    refine ⟨_, exec_comparatorSelfTest_awake none hw hc, ?_⟩
    rw [selfTest_passes, selfTestsRun_lock, selfTestsRun_power]
    exact ⟨rfl, hproof, rfl, rfl⟩
  case failed => exact ⟨_, exec_comparatorSelfTest_awake (some n) hw hc, selfTest_stops_control hh hlo hhi hn⟩
  case lbistPassed =>
    refine ⟨_, exec_lbistComplete_running true hr, ?_⟩
    rw [endLbist_passes, lbistOver_corePair true hn, lbistOver_lock, lbistOver_power]
    exact ⟨rfl, rfl, rfl, rfl, rfl, rfl⟩
  case lbistFailed => exact ⟨_, exec_lbistComplete_running false hr, endLbist_fails_f hn⟩
  case diagnosis => exact ⟨_, exec_lockstepDiagnosisEnd_halted hw hh hk, diagnosed_f hn hm⟩

end Sys2Proof.Machine

/-! Proofs of the statement about configurations: staging, checking and listing them, the twin's part over MB14, and the copy of SYNCING (O54). -/

namespace Sys2Proof.Machine

/-! ## CFG_STAGE (10 R231) -/

section staging

variable {r : Req} {s u : State} {img all : List Byte}

/-- What a chunk continues: nothing at offset 0, else what has been received. -/
def State.receivedBefore (r : Req) (s : State) : List Byte := if field r.payload 0 8 = 0 then [] else s.cfg.receiving.getD []

/-- The image as far as it is received with a chunk. -/
def State.receivedWith (r : Req) (s : State) : List Byte := s.receivedBefore r ++ r.payload.drop 8

/-- A chunk that does not continue what has been received. -/
def State.outOfPlace (r : Req) (s : State) : Bool :=
  field r.payload 0 8 != (s.receivedBefore r).length || (field r.payload 0 8 != 0 && s.cfg.receiving.isNone)

/-- The header with the first section table is there and gives a length that no image has. -/
def lengthRefused (all : List Byte) : Bool := decide (1280 ≤ all.length) && (decide (field all 16 8 < 1280) || decide (1073741824 < field all 16 8))

/-- The chunks go beyond the length that the header gives. -/
def overrunsLength (all : List Byte) : Bool := decide (256 ≤ all.length) && decide (field all 16 8 < all.length)

/-- The chunks end where the header says. -/
def imageComplete (all : List Byte) : Bool := decide (1280 ≤ all.length) && decide (field all 16 8 = all.length)

theorem stageChunk_eq (r : Req) (s : State) : stageChunk r s =
    if s.outOfPlace r then reply stRange [] s
    else if lengthRefused (s.receivedWith r) then
      reply (if field (s.receivedWith r) 16 8 < 1280 then stRange else stCapacity) [] (s.upCfg fun c => { c with receiving := none })
    else if overrunsLength (s.receivedWith r) then reply stRange [] (s.upCfg fun c => { c with receiving := some (s.receivedBefore r) })
    else if imageComplete (s.receivedWith r) then withJob 0x400 (State.startStage (r.mb == 14) (s.receivedWith r)) s
    else reply stOk [] (s.upCfg fun c => { c with receiving := some (s.receivedWith r) }) := rfl

theorem outOfPlace_iff : s.outOfPlace r = true ↔
    field r.payload 0 8 ≠ (s.receivedBefore r).length ∨ field r.payload 0 8 ≠ 0 ∧ s.cfg.receiving = none := by
  simp [State.outOfPlace]

theorem outOfPlace_false (hoff : field r.payload 0 8 = (s.receivedBefore r).length) (hrec : field r.payload 0 8 ≠ 0 → s.cfg.receiving ≠ none) :
    s.outOfPlace r = false := by
  rw [Bool.eq_false_iff, Ne, outOfPlace_iff]
  rintro (h | ⟨h0, hnone⟩)
  · exact h hoff
  · exact hrec h0 hnone

theorem lengthRefused_iff : lengthRefused all = true ↔ 1280 ≤ all.length ∧ (field all 16 8 < 1280 ∨ 1073741824 < field all 16 8) := by
  simp [lengthRefused]

theorem lengthRefused_false (h : 1280 ≤ all.length → 1280 ≤ field all 16 8 ∧ field all 16 8 ≤ 1073741824) : lengthRefused all = false := by
  rw [Bool.eq_false_iff, Ne, lengthRefused_iff]
  omega

theorem overrunsLength_iff : overrunsLength all = true ↔ 256 ≤ all.length ∧ field all 16 8 < all.length := by simp [overrunsLength]

theorem overrunsLength_false (h : all.length < 256 ∨ all.length ≤ field all 16 8) : overrunsLength all = false := by
  rw [Bool.eq_false_iff, Ne, overrunsLength_iff]
  omega

theorem imageComplete_iff : imageComplete all = true ↔ 1280 ≤ all.length ∧ field all 16 8 = all.length := by simp [imageComplete]

theorem stageChunk_outOfPlace (h : s.outOfPlace r = true) : stageChunk r s = (s, some (stRange, [])) := by
  rw [stageChunk_eq, if_pos h, reply]

theorem stageChunk_lengthRefused (hp : s.outOfPlace r = false) (h : lengthRefused (s.receivedWith r) = true) : stageChunk r s =
    (s.upCfg fun c => { c with receiving := none }, some (if field (s.receivedWith r) 16 8 < 1280 then stRange else stCapacity, [])) := by
  rw [stageChunk_eq, if_neg (by simp [hp]), if_pos h, reply]

theorem stageChunk_overruns (hp : s.outOfPlace r = false) (hl : lengthRefused (s.receivedWith r) = false) (h : overrunsLength (s.receivedWith r) = true) :
    stageChunk r s = (s.upCfg fun c => { c with receiving := some (s.receivedBefore r) }, some (stRange, [])) := by
  rw [stageChunk_eq, if_neg (by simp [hp]), if_neg (by simp [hl]), if_pos h, reply]

theorem stageChunk_complete (hp : s.outOfPlace r = false) (hl : lengthRefused (s.receivedWith r) = false) (ho : overrunsLength (s.receivedWith r) = false)
    (h : imageComplete (s.receivedWith r) = true) : stageChunk r s = withJob 0x400 (State.startStage (r.mb == 14) (s.receivedWith r)) s := by
  rw [stageChunk_eq, if_neg (by simp [hp]), if_neg (by simp [hl]), if_neg (by simp [ho]), if_pos h]

theorem stageChunk_taken (hp : s.outOfPlace r = false) (hl : lengthRefused (s.receivedWith r) = false) (ho : overrunsLength (s.receivedWith r) = false)
    (h : imageComplete (s.receivedWith r) = false) :
    stageChunk r s = (s.upCfg fun c => { c with receiving := some (s.receivedWith r) }, some (stOk, [])) := by
  rw [stageChunk_eq, if_neg (by simp [hp]), if_neg (by simp [hl]), if_neg (by simp [ho]), if_neg (by simp [h]), reply]

theorem stageChunk_some (r : Req) (s : State) : ∃ v st ans, stageChunk r s = (v, some (st, ans)) := by
  rw [stageChunk_eq]
  split
  · exact reply_some ..
  · split
    · exact reply_some ..
    · split
      · exact reply_some ..
      · split
        · exact withJob_some ..
        · exact reply_some ..

/-- What a command answers is what its body is shown to be. -/
theorem answer_eq {b : State × Option (Nat × List Byte)} {v w : State} {st st' : Nat} {ans ans' : List Byte} (e : b = (v, some (st, ans)))
    (h : b = (w, some (st', ans'))) : st = st' ∧ ans = ans' ∧ v = w := by
  obtain ⟨hv, hst, hans⟩ := pair_inj (e.symm.trans h)
  exact ⟨hst, hans, hv⟩

theorem stageBody_busy (h : s.cfgIdle = false) : stageBody r s = (s, some (stBusy, [])) := by
  rw [stageBody, guarded_first (need_no h)]

theorem stageBody_idle (h : s.cfgIdle = true) : stageBody r s = stageChunk r s := by
  rw [stageBody, guarded_pass (need_ok h), guarded_nil]

/-- On a PRIMARY an image that it would take itself goes to the STANDBY too. -/
def State.sharesStage (mb14 : Bool) (img : List Byte) (s : State) : Bool :=
  s.power.mode == 5 && !mb14 && s.imageOk img && (s.versionRefusal img).isNone

theorem startStage_f (mb14 : Bool) (img : List Byte) (id : Nat) (s : State) :
    (s.startStage mb14 img id).cfg = { s.cfg with
      receiving := some img, forward := if s.sharesStage mb14 img then some 0 else s.cfg.forward,
      job := some { id := id, isCheck := false, mb14 := mb14, needsTwin := s.sharesStage mb14 img, twin := none, twinReport := [], models := [], toAsk := [] } } ∧
    (s.startStage mb14 img id).out = s.out ++ if s.sharesStage mb14 img then [.mb14 s.msg.mb14Next 0 []] else [] := by
  unfold State.startStage
  dsimp only
  rw [show (s.power.mode == 5 && !mb14 && s.imageOk img && (s.versionRefusal img).isNone) = s.sharesStage mb14 img from rfl]
  cases s.sharesStage mb14 img with
  | false => exact ⟨rfl, (List.append_nil _).symm⟩
  | true => exact ⟨rfl, rfl⟩

end staging

/-! ## The version of an image, and the end of a stage job (10 R229, R231) -/

section stageEnd

variable {t : Nat} {s : State} {img : List Byte} {j : CfgJob}

/-- The seed holds the image already: its version and its digest. -/
def State.restages (img : List Byte) (s : State) : Bool :=
  s.cfg.seed.present && s.cfg.seed.cfg.version == field img 8 4 && s.cfg.seed.cfg.digest == slice img 40 48

theorem restages_iff : s.restages img = true ↔
    s.cfg.seed.present = true ∧ s.cfg.seed.cfg.version = field img 8 4 ∧ s.cfg.seed.cfg.digest = slice img 40 48 := by
  simp [State.restages, and_assoc]

theorem versionRefusal_eq (img : List Byte) (s : State) : s.versionRefusal img =
    if field img 8 4 = 0 then some stRange
    else if s.restages img then none
    else if s.cfg.highWater = 0xFFFFFFFF then some stCapacity
    else if field img 8 4 ≤ s.cfg.highWater then some stVersion else none := rfl

theorem versionRefusal_zero (h : field img 8 4 = 0) : s.versionRefusal img = some stRange := by rw [versionRefusal_eq, if_pos h]

theorem versionRefusal_restages (h0 : field img 8 4 ≠ 0) (h : s.restages img = true) : s.versionRefusal img = none := by
  rw [versionRefusal_eq, if_neg h0, if_pos h]

theorem versionRefusal_other (h0 : field img 8 4 ≠ 0) (h : s.restages img = false) : s.versionRefusal img =
    if s.cfg.highWater = 0xFFFFFFFF then some stCapacity else if field img 8 4 ≤ s.cfg.highWater then some stVersion else none := by
  rw [versionRefusal_eq, if_neg h0, if_neg (by simp [h])]

/-- The seed has the version of an image already. -/
def State.seedHas (img : List Byte) (s : State) : Bool := s.cfg.seed.present && s.cfg.seed.cfg.version == field img 8 4

theorem seedHas_iff : s.seedHas img = true ↔ s.cfg.seed.present = true ∧ s.cfg.seed.cfg.version = field img 8 4 := by simp [State.seedHas]

theorem seatSeed_of_seedHas (h : s.seedHas img = true) : s.seatSeed img = s := if_pos h

theorem seatSeed_cfg (h : s.seedHas img = false) : (s.seatSeed img).cfg = { s.cfg with
    seed := { Slot.empty with present := true, image := img, cfg := parseCfg img, stagedS := s.tb3s }, highWater := max s.cfg.highWater (field img 8 4) } :=
  (congrArg State.cfg (if_neg (Bool.eq_false_iff.1 h))).trans (rec_f _ _ _ .cfg (by decide))

/-- The seed that a stage job leaves: the image where its status is OK. -/
def State.seated (j : CfgJob) (s : State) : State := if s.stageStatus j = stOk then s.seatSeed (s.cfg.receiving.getD []) else s

theorem seated_keeps (j : CfgJob) (s : State) : Keeps [.cache, .cfg, .log] s (s.seated j) := Keeps.ite (seatSeed_keeps ..) (Keeps.refl _)

/-- Where no other image takes the seed's place, nothing changes. -/
theorem seated_unchanged (h : s.stageStatus j ≠ stOk ∨ s.seedHas (s.cfg.receiving.getD []) = true) : s.seated j = s := by
  unfold State.seated
  split
  · next hst => exact seatSeed_of_seedHas (h.resolve_left (not_not_intro hst))
  · rfl

theorem seated_seats (hst : s.stageStatus j = stOk) : s.seated j = s.seatSeed (s.cfg.receiving.getD []) := if_pos hst

/-- A job that is not a check leaves the slots as they are. -/
theorem seated_slots (j : CfgJob) (s : State) :
    (s.seated j).cfg.job = s.cfg.job ∧ (s.seated j).cfg.sown = s.cfg.sown ∧ (s.seated j).cfg.fallow = s.cfg.fallow := by
  by_cases h : s.stageStatus j ≠ stOk ∨ s.seedHas (s.cfg.receiving.getD []) = true
  · rw [seated_unchanged h]
    exact ⟨rfl, rfl, rfl⟩
  · obtain ⟨hst, hother⟩ := not_or.1 h
    rw [seated_seats (not_not.1 hst), seatSeed_cfg (Bool.eq_false_iff.2 hother)]
    exact ⟨rfl, rfl, rfl⟩

theorem endCfgJob_eq (st : Nat) (result : List Byte) (h : s.cfg.job = some j) : s.endCfgJob st result =
    (s.endJob j.id st result).upCfg fun c => { c with job := none, receiving := if j.isCheck then c.receiving else none, forward := none } := by
  rw [State.endCfgJob, h]

theorem endStage_eq (h : s.cfg.job = some j) : s.endStage = (s.seated j).endCfgJob (s.stageStatus j) [] := by
  rw [State.endStage, h]
  rfl

theorem endStage_f (h : s.cfg.job = some j) (hj : j.isCheck = false) :
    s.endStage.msg = (s.endJob j.id (s.stageStatus j) []).msg ∧
      s.endStage.cfg = { (s.seated j).cfg with job := none, receiving := none, forward := none } := by
  have hseated : (s.seated j).cfg.job = some j := (seated_slots j s).1.trans h
  rw [endStage_eq h, endCfgJob_eq _ _ hseated, hj]
  exact ⟨endJob_msg _ _ _ ((seated_keeps j s).frame .msg (by decide)) ((seated_keeps j s).frame .time (by decide)), rfl⟩

theorem stageMayEnd_of (h : s.cfg.job = some j) (hj : j.isCheck = false) (ht : j.needsTwin = true → j.twin ≠ none) : s.stageMayEnd = true := by
  rw [State.stageMayEnd, h]
  cases hn : j.needsTwin with
  | false => simp [hj, hn]
  | true => simp [hj, Option.isSome_iff_ne_none, ht hn]

theorem stageStatus_unverified (h : s.imageOk (s.cfg.receiving.getD []) = false) : s.stageStatus j = stIntegrity := if_pos (by simp [h])

theorem stageStatus_verified (h : s.imageOk (s.cfg.receiving.getD []) = true) :
    s.stageStatus j = (s.versionRefusal (s.cfg.receiving.getD [])).getD (j.twin.getD stOk) := by
  unfold State.stageStatus
  dsimp only
  rw [if_neg (by simp [h])]
  cases s.versionRefusal (s.cfg.receiving.getD []) <;> rfl

end stageEnd

/-! ## CFG_CHECK (10 R232–R234) -/

section checking

variable {r : Req} {s : State} {j : CfgJob}

theorem checkBody_busy (h : s.cfgIdle = false) : checkBody r s = (s, some (stBusy, [])) := by
  rw [checkBody, guarded_first (need_no h)]

theorem checkBody_noSeed (hi : s.cfgIdle = true) (h : s.cfg.seed.present = false) : checkBody r s = (s, some (stState, [])) := by
  rw [checkBody, guarded_pass (need_ok hi), guarded_first (need_no h)]

theorem checkBody_starts (hi : s.cfgIdle = true) (h : s.cfg.seed.present = true) :
    checkBody r s = withJob 0x401 (State.startCheck (r.mb == 14)) s := by
  rw [checkBody, guarded_pass (need_ok hi), guarded_pass (need_ok h), guarded_nil]

/-- A check job as it starts, with the stations that are asked later. -/
def State.checkJob (mb14 : Bool) (id : Nat) (later : List Nat) (s : State) : CfgJob :=
  { id := id, isCheck := true, mb14 := mb14, needsTwin := s.power.mode == 5 && !mb14, twin := none, twinReport := [], models := [], toAsk := later }

/-- The job of a check runs, and the twin is asked which seed it holds. -/
def State.openCheck (mb14 : Bool) (id : Nat) (s : State) : State :=
  let w := s.upCfg fun c => { c with job := some (s.checkJob mb14 id []) }
  if s.power.mode == 5 && !mb14 then w.askTwin 0x404 [] id else w

theorem openCheck_cfg (mb14 : Bool) (id : Nat) (s : State) :
    (s.openCheck mb14 id).cfg = { s.cfg with job := some (s.checkJob mb14 id []) } := by
  unfold State.openCheck
  dsimp only
  split <;> rfl

theorem startCheck_eq (mb14 : Bool) (id : Nat) (s : State) :
    s.startCheck mb14 id = if mb14 then s.openCheck mb14 id else (s.openCheck mb14 id).probeAll := rfl

theorem startCheck_cfg (mb14 : Bool) (id : Nat) (s : State) :
    ∃ later, (s.startCheck mb14 id).cfg = { s.cfg with job := some (s.checkJob mb14 id later) } := by
  have hopen := openCheck_cfg mb14 id s
  rw [startCheck_eq]
  cases mb14 with
  | true => exact ⟨[], hopen⟩
  | false =>
    obtain ⟨later, hprobe⟩ := probeAll_job (s.openCheck false id) (s.checkJob false id []) (by rw [hopen])
    refine ⟨later, hprobe.trans ?_⟩
    rw [hopen]
    rfl

/-- The twin's part is missing, or is about another seed. -/
def State.lacksPart (j : CfgJob) (s : State) : Bool :=
  j.needsTwin && (j.twinReport.isEmpty || field j.twinReport 16 4 != s.cfg.seed.cfg.version)

/-- The entries of a report: the own ones with the twin's. -/
def State.reportEntries (j : CfgJob) (s : State) : List (List Byte) :=
  mergeEntries ((s.allChecks s.cfg.seed.image j.models s.cfg.seed.cfg).map (checkEntryBytes (b2n s.slotB))) (twinEntries j.twinReport)

theorem checkResult_status (h : j.mb14 = false) : (s.checkResult j).1 =
    if s.lacksPart j then (if j.twin.getD stState = stOk then stState else j.twin.getD stState) else (firstFailing (s.reportEntries j)).2 := by
  unfold State.checkResult
  dsimp only
  rw [if_neg (by simp [h])]
  rfl

/-- A check without the twin's part never ends with OK (R232). -/
theorem checkResult_lacksPart (h : j.mb14 = false) (hl : s.lacksPart j = true) : (s.checkResult j).1 ≠ 0 := by
  rw [checkResult_status h, if_pos hl]
  split
  · decide
  · assumption

theorem checkResult_alone (h : j.mb14 = false) (hn : j.needsTwin = false) : (s.checkResult j).1 = (firstFailing (s.reportEntries j)).2 := by
  rw [checkResult_status h, if_neg (by simp [State.lacksPart, hn])]

/-- What a check leaves at the seed; the part of a twin leaves nothing. -/
def State.markChecked (j : CfgJob) (s : State) : State :=
  if j.mb14 then s
  else s.upCfg fun c => { c with seed := { c.seed with valid := (s.checkResult j).1 == stOk, checkStatus := (s.checkResult j).1 }, checkedTwin := j.needsTwin }

theorem markChecked_f (j : CfgJob) (s : State) :
    (s.markChecked j).cfg.job = s.cfg.job ∧ (s.markChecked j).msg = s.msg ∧ (s.markChecked j).time = s.time := by
  unfold State.markChecked
  split <;> exact ⟨rfl, rfl, rfl⟩

theorem endCheck_eq (h : s.cfg.job = some j) : s.endCheck = (s.markChecked j).endCfgJob (s.checkResult j).1 (s.checkResult j).2 := by
  rw [State.endCheck, h]
  rfl

theorem endCheck_f (h : s.cfg.job = some j) : s.endCheck.msg = (s.endJob j.id (s.checkResult j).1 (s.checkResult j).2).msg ∧
    s.endCheck.cfg.job = none ∧ s.endCheck.cfg.seed = (s.markChecked j).cfg.seed ∧ s.endCheck.cfg.checkedTwin = (s.markChecked j).cfg.checkedTwin := by
  obtain ⟨hjob, hmsg, htime⟩ := markChecked_f j s
  rw [endCheck_eq h, endCfgJob_eq _ _ (hjob.trans h)]
  exact ⟨endJob_msg _ _ _ hmsg htime, rfl, rfl, rfl⟩

theorem markChecked_twinPart (h : j.mb14 = true) : s.markChecked j = s := if_pos h

theorem markChecked_own (h : j.mb14 = false) : (s.markChecked j).cfg = { s.cfg with
    seed := { s.cfg.seed with valid := (s.checkResult j).1 == stOk, checkStatus := (s.checkResult j).1 }, checkedTwin := j.needsTwin } :=
  congrArg State.cfg (if_neg (by simp [h]))

end checking

/-! ## CFG_LIST (10 R240, R245; 11 R261) -/

section listing

variable {r : Req} {s : State}

/-- What MB14's `CFG_LIST` asks of its operands: a source, reserved bytes, and a range within the source. -/
def State.Listable (s : State) (r : Req) : Prop :=
  field r.payload 0 1 ≤ 3 ∧ zeros r.payload 1 3 = true ∧ 1 ≤ field r.payload 4 4 ∧ field r.payload 4 4 ≤ 16777216 ∧
    field r.payload 8 8 + field r.payload 4 4 ≤ (s.source (field r.payload 0 1)).length

/-- The checks of `CFG_LIST`. -/
def listChecks (r : Req) : List (State → Option Nat) :=
  [need (fun _ => r.payload.isEmpty || (decide (field r.payload 0 1 ≤ 3) && zeros r.payload 1 3 && decide (1 ≤ field r.payload 4 4) &&
     decide (field r.payload 4 4 ≤ 16777216))) stRange,
   need (fun s => r.payload.isEmpty || decide (field r.payload 8 8 + field r.payload 4 4 ≤ (s.source (field r.payload 0 1)).length)) stRange]

theorem listChecks_pass_of_empty (h : r.payload = []) : ∀ f ∈ listChecks r, f s = none := by simp [listChecks, need_iff, h]

theorem listChecks_pass_iff (h : r.payload ≠ []) : (∀ f ∈ listChecks r, f s = none) ↔ s.Listable r := by
  simp [listChecks, State.Listable, need_iff, h, and_assoc]

theorem listChecks_status : ∀ f ∈ listChecks r, f s = none ∨ f s = some stRange := by simp [listChecks, need_or]

theorem listBody_eq (r : Req) (s : State) : listBody r s = guarded (listChecks r) (fun s =>
    reply stOk (if r.payload.isEmpty then s.listing else slice (s.source (field r.payload 0 1)) (field r.payload 8 8) (field r.payload 4 4)) s) s := rfl

theorem listBody_slots (h : r.payload = []) : listBody r s = (s, some (stOk, s.listing)) := by
  rw [listBody_eq, guarded_ok (listChecks_pass_of_empty h), reply, if_pos (by simp [h])]

theorem listBody_part (h : r.payload ≠ []) (hl : s.Listable r) : listBody r s =
    (s, some (stOk, slice (s.source (field r.payload 0 1)) (field r.payload 8 8) (field r.payload 4 4))) := by
  rw [listBody_eq, guarded_ok ((listChecks_pass_iff h).2 hl), reply, if_neg (by simp [h])]

theorem listBody_refused (h : r.payload ≠ []) (hl : ¬s.Listable r) : listBody r s = (s, some (stRange, [])) := by
  rw [listBody_eq, guarded_bad listChecks_status (exists_check_fails (listChecks_pass_iff h) hl)]

theorem listBody_unchanged (r : Req) (s : State) : ∃ st ans, listBody r s = (s, some (st, ans)) := by
  by_cases h : r.payload = []
  · exact ⟨_, _, listBody_slots h⟩
  · by_cases hl : s.Listable r
    · exact ⟨_, _, listBody_part h hl⟩
    · exact ⟨_, _, listBody_refused h hl⟩

theorem slotRecord_empty {n st : Nat} {x : Slot} (h : x.present = false) : slotRecord n st x = leBytes 1 n ++ zeroBytes 95 := if_pos (by simp [h])

theorem slotRecord_present {n st : Nat} {x : Slot} (h : x.present = true) : slotRecord n st x =
    leBytes 1 n ++ leBytes 1 st ++ leBytes 2 x.checkStatus ++ leBytes 4 x.cfg.version ++ padTo 48 x.cfg.digest ++ leBytes 8 x.image.length ++
      leBytes 8 x.stagedS ++ leBytes 8 x.sownAt ++ leBytes 4 x.snapshot.length ++ zeroBytes 12 := if_neg (by simp [h])

end listing

/-! ## MB14: an answer of the twin (11 R261) -/

section heard

variable {t id : Nat} {q : Mb14Out} {m : Mb14Resp} {j : CfgJob} {s : State}

/-- A request to the twin is no longer outstanding. -/
def State.closeMb14 (id : Nat) (s : State) : State := s.upMsg fun x => { x with mb14 := x.mb14.filter fun r => r.id != id }

theorem exec_mb14Response_unasked (hw : (s.arrive t).awake = true) (hq : (s.arrive t).msg.mb14.find? (fun q => q.id == m.id) = none) :
    exec (.mb14Response t m) s = .next (s.arrive t) := by
  rw [exec_mb14Response, execMb14Response, happens_of hw, State.heardMb14, hq]

/-- What an answer feeds, by the command that was asked. -/
def State.feed (q : Mb14Out) (m : Mb14Resp) (s : State) : State :=
  match q.cmd with
  | 0x0000 => s.heardIdentify q m
  | 0x0400 => s.heardStage q m
  | 0x0401 => s.heardCheck q m
  | 0x0003 => s.heardJob q m
  | 0x0404 => s.heardList q m
  | 0x0504 =>
    if m.status = stOk then
      (if field m.payload 3 1 = 6 && s.sheaf.twinState != 6 then s.invalidate else s).upSheaf fun h => { h with twinState := field m.payload 3 1 }
    else s
  | _ => s

theorem exec_mb14Response_asked (hw : (s.arrive t).awake = true) (hq : (s.arrive t).msg.mb14.find? (fun q => q.id == m.id) = some q) :
    exec (.mb14Response t m) s = .next (((s.arrive t).closeMb14 m.id).feed q m) := by
  rw [exec_mb14Response, execMb14Response, happens_of hw, State.heardMb14, hq]
  rfl

theorem feed_sheafStatus (hc : q.cmd = 0x504) (hs : m.status = 0) : (s.feed q m).sheaf.twinState = field m.payload 3 1 := by
  rw [State.feed, hc]
  exact congrArg (fun v : State => v.sheaf.twinState) (if_pos hs)

/-- The job of a request takes the status that the twin answered. -/
def CfgJob.refusedBy (q : Mb14Out) (st : Nat) (j : CfgJob) : CfgJob := if j.id == q.job then { j with twin := some st } else j

theorem refusedBy_own (h : j.id = q.job) (st : Nat) : j.refusedBy q st = { j with twin := some st } := if_pos (by simp [h])

theorem setCfgJob_job (f : CfgJob → CfgJob) (h : s.cfg.job = some j) : (s.setCfgJob f).cfg.job = some (f j) := congrArg (Option.map f) h

theorem heardIdentify_sends (hs : m.status = 0) (hf : s.cfg.forward ≠ none) : s.heardIdentify q m =
    (s.upMsg fun x => { x with mb14Size := field m.payload 28 4 }).sendChunk q.job :=
  if_neg (by simp [hs, stOk, hf])

theorem heardStage_sends {off : Nat} (hs : m.status = 0) (hf : s.cfg.forward = some off) : s.heardStage q m =
    (s.upCfg fun c => { c with forward := some (off + (s.msg.mb14Size - 28)) }).sendChunk q.job := by
  rw [State.heardStage, if_pos (show m.status = stOk from hs)]
  simp only [State.upCfg, hf, Option.map_some]

theorem heardStage_accepted (hs : m.status = 1) (hj : q.job ≠ 0) :
    s.heardStage q m = s.stopForward.askTwin 3 (slice m.payload 0 2 ++ zeroBytes 2) q.job := by
  rw [State.heardStage, if_neg (by simp [hs, stOk]), if_pos (by simp [hs, stAccepted]), if_neg hj]

theorem heardStage_refused (hs : 2 ≤ m.status) : s.heardStage q m = s.stopForward.setCfgJob (CfgJob.refusedBy q m.status) := by
  rw [State.heardStage, if_neg (by simp [stOk]; omega), if_neg (by simp [stAccepted]; omega)]
  rfl

theorem heardCheck_accepted (hs : m.status = 1) : s.heardCheck q m = s.askTwinFrom q.at_ 3 (slice m.payload 0 2 ++ zeroBytes 2) q.job := if_pos hs

theorem heardCheck_refused (hs : 2 ≤ m.status) : s.heardCheck q m = s.setCfgJob (CfgJob.refusedBy q m.status) :=
  if_neg (by simp [stAccepted]; omega)

theorem heardJob_refused (hq : s.cfgJobOf q = some j) (hs : 3 ≤ m.status) :
    s.heardJob q m = s.setCfgJob fun j => { j with twin := some m.status, twinReport := [] } := by
  rw [State.heardJob, hq]
  dsimp only
  rw [if_neg (by simp [stPartial]; omega), if_pos (by simp [stOk]; omega)]

theorem heardJob_done (hq : s.cfgJobOf q = some j) (hs : m.status = 0) (hd : field (j.twinReport ++ m.payload) 4 1 = 2) :
    s.heardJob q m = s.setCfgJob fun k =>
      { k with twin := some (field (j.twinReport ++ m.payload) 8 2), twinReport := if k.isCheck then j.twinReport ++ m.payload else [] } := by
  rw [State.heardJob, hq]
  dsimp only
  rw [if_neg (by simp [stPartial, hs]), if_neg (by simp [stOk, hs]), if_neg (by simp [hd])]

theorem heardList_job (hj : q.job ≠ 0) (hq : s.cfgJobOf q = some j) (hs : m.status = 0) : s.heardList q m = s.heardSeed q m.payload := by
  rw [State.heardList, if_pos (by simpa using hj), hq]
  exact if_pos hs

theorem heardSeed_listed {b : List Byte} (h2 : 2 ≤ (listedSlot b 2).1) (hl : s.cfg.seed.isListed (listedSlot b 2) = true) :
    s.heardSeed q b = s.askTwinFrom q.at_ 0x401 [] q.job := if_pos (by simp [h2, hl])

theorem heardSeed_unlisted {b : List Byte} (h : (listedSlot b 2).1 < 2 ∨ s.cfg.seed.isListed (listedSlot b 2) = false) :
    s.heardSeed q b = s.setCfgJob fun j => { j with twin := some stState } :=
  if_neg (by rw [Bool.and_eq_true, decide_eq_true_eq, not_and_or, Bool.not_eq_true]; exact h.imp_left Nat.not_le.2)

end heard

/-! ## MB14: no answer in time (10 R232; 11 R261) -/

section timeout

variable {t id : Nat} {q : Mb14Out} {j : CfgJob} {s : State}

theorem exec_mb14Timeout_due (hw : (s.arrive t).awake = true) (hq : (s.arrive t).msg.mb14.find? (fun q => q.id == id) = some q)
    (hat : q.at_ + secTicks ((s.arrive t).mb14Limit q) ≤ (s.arrive t).time.now) : exec (.mb14Timeout t id) s = .next ((s.arrive t).mb14TimeOut id) :=
  (exec_mb14Timeout ..).trans (happens_of (by rw [hw, State.mb14Expired, hq, Bool.true_and, decide_eq_true_eq]; exact hat))

theorem mb14Limit_job (hj : s.cfgJobOf q = some j) : s.mb14Limit q = if j.isCheck then 120 else 10 := by rw [State.mb14Limit, hj]

theorem mb14Limit_noJob (hj : s.cfgJobOf q = none) : s.mb14Limit q = 10 := by rw [State.mb14Limit, hj]

theorem cfgJobOf_none (h : q.job = 0) : s.cfgJobOf q = none := by simp [State.cfgJobOf, h]

/-- A check that the twin does not answer leaves its seed unchecked. -/
def State.uncheck (j : CfgJob) (s : State) : State :=
  if j.isCheck then s.upCfg fun c => { c with seed := { c.seed with valid := false, checkStatus := stTimeout } } else s

theorem uncheck_f (j : CfgJob) (s : State) : (s.uncheck j).cfg.job = s.cfg.job ∧ (s.uncheck j).msg = s.msg ∧ (s.uncheck j).time = s.time ∧
    (j.isCheck = true → (s.uncheck j).cfg.seed.valid = false) := by
  unfold State.uncheck
  split
  · exact ⟨rfl, rfl, rfl, fun _ => rfl⟩
  · next h => exact ⟨rfl, rfl, rfl, fun hc => absurd hc h⟩

theorem mb14TimeOut_job (hq : s.msg.mb14.find? (fun q => q.id == id) = some q) (hj : s.cfgJobOf q = some j) :
    s.mb14TimeOut id = ((s.closeMb14 id).uncheck j).endCfgJob stTimeout [] := by
  have hkept : (s.closeMb14 id).cfgJobOf q = some j := hj
  rw [State.mb14TimeOut, hq]
  dsimp only
  rw [show (s.upMsg fun x => { x with mb14 := x.mb14.filter fun r => r.id != id }) = s.closeMb14 id from rfl, hkept]
  rfl

theorem mb14TimeOut_noJob (hq : s.msg.mb14.find? (fun q => q.id == id) = some q) (hj : s.cfgJobOf q = none) (hc : q.cmd ≠ 0x504) :
    s.mb14TimeOut id = (s.closeMb14 id).upCfg fun c => { c with fetch := [], fetched := [], forward := none } := by
  have hkept : (s.closeMb14 id).cfgJobOf q = none := hj
  rw [State.mb14TimeOut, hq]
  dsimp only
  rw [show (s.upMsg fun x => { x with mb14 := x.mb14.filter fun r => r.id != id }) = s.closeMb14 id from rfl, hkept]
  exact if_neg hc

theorem mb14TimeOut_job_f (hq : s.msg.mb14.find? (fun q => q.id == id) = some q) (hjob : s.cfg.job = some j) (hj : s.cfgJobOf q = some j) :
    (s.mb14TimeOut id).msg = ((s.closeMb14 id).endJob j.id stTimeout []).msg ∧ (s.mb14TimeOut id).cfg.job = none ∧
      (j.isCheck = true → (s.mb14TimeOut id).cfg.seed.valid = false) := by
  obtain ⟨hkeeps, hmsg, htime, hvalid⟩ := uncheck_f j (s.closeMb14 id)
  rw [mb14TimeOut_job hq hj, endCfgJob_eq _ _ (hkeeps.trans hjob)]
  exact ⟨endJob_msg _ _ _ hmsg htime, rfl, hvalid⟩

end timeout

/-! ## The copy of SYNCING (07 R158; 10 R229, R240) -/

section copy

variable {t src sownAt : Nat} {b : List Byte} {s : State}

theorem exec_syncingCopyBlock_syncing (x : CopyBlock) (h : (s.arrive t).power.mode = 3) :
    exec (.syncingCopyBlock t x) s = .next ((s.arrive t).copyBlock x) := (exec_syncingCopyBlock ..).trans (happens_of (by simp [h]))

theorem copyBlock_memory (a : Nat) (bs : List Byte) (s : State) : s.copyBlock (.memory a bs) = s.copyMemory a bs := rfl

/-- The twin's configuration opens with its listing. -/
theorem copyBlock_twinConfig (version : Nat) (digest : List Byte) (s : State) : s.copyBlock (.twinConfig version digest) =
    (s.upCfg fun c => { c with fetch := [(9, 304, 0)], fetched := [] }).askTwin 0x404 [] 0 := rfl

theorem memRead_store_getD {m : Mem} {a i : Nat} (w : Memory.wf m = true) (h : i < b.length) : memRead (memStore b a m) (a + i) = b.getD i 0 :=
  (memRead_writeBytes_in b a i m w h).trans (List.getElem_eq_getD 0)

theorem copyOver_of_none_early (h : s.cnt.early = []) : s.copyOver = ((s.upPair fun p => { p with copyDone := true, ckptSeen := 0 }).upCnt fun k =>
    { k with early := [], applied := [none, none, none, none] }) := by
  rw [State.copyOver, h]
  rfl

theorem takePart_unverified (h : src < 3) (hok : s.imageOk b = false) : s.takePart src sownAt b = s := by
  rw [State.takePart, if_neg (by omega), if_pos (by simp [hok])]

theorem takePart_snapshot (h : src = 3) : s.takePart src sownAt b = s.upCfg fun c => { c with fallow := { c.fallow with snapshot := parseSnapshot b } } :=
  if_pos h

theorem takePart_verified (h : src < 3) (hok : s.imageOk b = true) : (s.takePart src sownAt b).cfg.highWater = max s.cfg.highWater (field b 8 4) ∧
    (src = 0 → (s.takePart src sownAt b).cfg.sown = fetchedSlot b s.tb3s sownAt) ∧
    (src = 1 → (s.takePart src sownAt b).cfg.fallow = fetchedSlot b s.tb3s sownAt) ∧
    (src = 2 → (s.takePart src sownAt b).cfg.seed = fetchedSlot b s.tb3s 0) := by
  have hpoints (w : State) : w.freshPoints.installRules.cfg = w.cfg :=
    ((installRules_keeps _).frame .cfg (by decide)).trans ((freshPoints_keeps w).frame .cfg (by decide))
  obtain rfl | rfl | rfl : src = 0 ∨ src = 1 ∨ src = 2 := by omega
  · rw [State.takePart, if_neg (by decide), if_neg (by simp [hok]), if_pos rfl, hpoints]
    exact ⟨rfl, fun _ => rfl, nofun, nofun⟩
  · rw [State.takePart, if_neg (by decide), if_neg (by simp [hok]), if_neg (by decide), if_pos rfl]
    exact ⟨rfl, nofun, fun _ => rfl, nofun⟩
  · rw [State.takePart, if_neg (by decide), if_neg (by simp [hok]), if_neg (by decide), if_neg (by decide)]
    exact ⟨rfl, nofun, nofun, fun _ => rfl⟩

end copy

/-! ## Reports of the twin's mode (08 R179; 10 R231, R234) -/

section report

variable {m : Nat} {s : State}

/-- The report is the first of a twin in STANDBY. -/
def State.newStandby (m : Nat) (s : State) : Bool := m == 4 && s.pair.twinMode != 4

/-- A check that did not see the twin no longer counts. -/
def State.distrust (s : State) : State := if s.cfg.checkedTwin then s else s.invalidate

theorem twinReports_eq (m : Nat) (s : State) : s.twinReports m =
    if !s.newStandby m then s.hearMode m
    else if (s.hearMode m).distrust.pair.owner && (s.hearMode m).distrust.cfg.seed.present && (s.hearMode m).distrust.cfg.job.isNone then
      (s.hearMode m).distrust.askTwin 0x404 [] 0
    else (s.hearMode m).distrust := rfl

theorem distrust_keeps (s : State) : Keeps [.cfg] s s.distrust := Keeps.ite (Keeps.refl _) (invalidate_keeps _)

theorem distrust_f (s : State) : s.distrust.cfg.seed.present = s.cfg.seed.present ∧ s.distrust.cfg.job = s.cfg.job ∧
    (s.cfg.checkedTwin = false → s.distrust.cfg.seed.valid = false) := by
  unfold State.distrust
  split
  · next h => exact ⟨rfl, rfl, fun hc => absurd hc (by simp [h])⟩
  · exact ⟨rfl, rfl, fun _ => rfl⟩

/-- Mode and pair follow the heard mode alone. -/
theorem twinReports_pair_power (m : Nat) (s : State) : (s.twinReports m).pair = (s.hearMode m).pair ∧ (s.twinReports m).power = (s.hearMode m).power := by
  have hdistrust := distrust_keeps (s.hearMode m)
  have hpair : (s.hearMode m).distrust.pair = (s.hearMode m).pair := hdistrust.frame .pair (by decide)
  have hpower : (s.hearMode m).distrust.power = (s.hearMode m).power := hdistrust.frame .power (by decide)
  rw [twinReports_eq]
  split
  · exact ⟨rfl, rfl⟩
  · split <;> exact ⟨hpair, hpower⟩

theorem hearMode_cfg (m : Nat) (s : State) : (s.hearMode m).cfg = s.cfg := (hearMode_keeps m s).frame .cfg (by decide)

theorem hearMode_out (m : Nat) (s : State) : (s.hearMode m).out = s.out := (hearMode_keeps m s).frame .out (by decide)

theorem hearMode_msg (m : Nat) (s : State) : (s.hearMode m).msg = s.msg := (hearMode_keeps m s).frame .msg (by decide)

/-- The mode that the twin reports, and the instant of a report that it follows with. -/
def State.noteMode (m : Nat) (s : State) : State :=
  s.upPair fun p => { p with twinMode := m, twinReportAt := if m == 3 || m == 4 then s.time.now else p.twinReportAt }

theorem hearMode_eq (m : Nat) (s : State) : s.hearMode m =
    if s.power.mode == 6 && s.pair.owner && (m == 3 || m == 4) then (s.noteMode m).goMode 5 0 else s.noteMode m := rfl

theorem hearMode_twinMode (m : Nat) (s : State) : (s.hearMode m).pair.twinMode = m := by
  rw [hearMode_eq]
  split
  · rw [goMode_pair]
    rfl
  · rfl

/-- A twin that is there again makes a SOLO owner PRIMARY. -/
theorem hearMode_ends_solo (h6 : s.power.mode = 6) (ho : s.pair.owner = true) (hm : m = 3 ∨ m = 4) : (s.hearMode m).power.mode = 5 := by
  rw [hearMode_eq, if_pos (by simp [h6, ho, hm])]
  exact goMode_mode ..

theorem hearMode_owner (h : s.power.mode ≠ 6) : (s.hearMode m).pair.owner = s.pair.owner := by
  rw [hearMode_eq, if_neg (by simp [h])]
  rfl

theorem newStandby_false (h : m ≠ 4 ∨ s.pair.twinMode = 4) : s.newStandby m = false := by
  rcases h with h | h <;> simp [State.newStandby, h]

theorem newStandby_of (hm : m = 4) (ht : s.pair.twinMode ≠ 4) : s.newStandby m = true := by simp [State.newStandby, hm, ht]

theorem twinReports_again (h : s.newStandby m = false) : s.twinReports m = s.hearMode m := by rw [twinReports_eq, if_pos (by simp [h])]

theorem twinReports_seed (h : s.newStandby m = true) : (s.twinReports m).cfg = (s.hearMode m).distrust.cfg := by
  rw [twinReports_eq, if_neg (by simp [h])]
  split <;> rfl

theorem twinReports_asks (h : s.newStandby m = true) (hmode : s.power.mode ≠ 6) (ho : s.pair.owner = true) (hp : s.cfg.seed.present = true)
    (hj : s.cfg.job = none) : (s.twinReports m).out = s.out ++ [.mb14 s.msg.mb14Next 0x404 []] := by
  obtain ⟨hpresent, hjob, -⟩ := distrust_f (s.hearMode m)
  have hdistrust := distrust_keeps (s.hearMode m)
  have hpair : (s.hearMode m).distrust.pair = (s.hearMode m).pair := hdistrust.frame .pair (by decide)
  have hout : (s.hearMode m).distrust.out = s.out := (hdistrust.frame .out (by decide)).trans (hearMode_out m s)
  have hmsg : (s.hearMode m).distrust.msg = s.msg := (hdistrust.frame .msg (by decide)).trans (hearMode_msg m s)
  rw [twinReports_eq, if_neg (by simp [h]),
    if_pos (by simp [hpair, hearMode_owner hmode, ho, hpresent, hjob, hearMode_cfg, hp, hj]), ← hout, ← hmsg]
  rfl

end report

/-- Settles O54: each request is one chunk, one job or one listing; each end of a job and each answer of the twin is one operation on the
job that asked; and the copy and the reports of SYNCING are taken apart by their cases. -/
theorem configurationsAreStagedCheckedAndListed : Obligations.ConfigurationsAreStagedCheckedAndListed := by
  unfold Obligations.ConfigurationsAreStagedCheckedAndListed
  refine ⟨?stage, ?version, fun t j s hjob hstage htwin => ?staged, ?check, fun t j s hjob hend => ?checked, fun version es => rfl, ?list, listing_eq,
    fun n st x => ⟨slotRecord_empty, slotRecord_present⟩, fun t m s hw => ⟨exec_mb14Response_unasked hw, ?response⟩,
    fun q m j s hjob hid hq => ?heard, fun t id q s hw hq w hclosed => ?timeout, fun t s hm => ?copy,
    fun src sownAt b s => ⟨takePart_unverified, takePart_snapshot, fun hok hsrc => takePart_verified hsrc hok⟩, fun t m s hw => ?report⟩
  case stage =>
    rintro t r s hacc _ rfl
    refine answers_body rfl hacc (guarded_some (stageChunk_some ..)) (stageBody_keeps r) fun u v st ans hu e => ?_
    refine ⟨fun h => answer_eq e (stageBody_busy h), ?_⟩
    rintro hi got all len hgot hall rfl
    obtain rfl : got = u.receivedBefore r := hgot
    obtain rfl : all = u.receivedWith r := hall
    rw [stageBody_idle hi] at e
    refine ⟨fun h => answer_eq e (stageChunk_outOfPlace (outOfPlace_iff.2 h)), fun hoff hrec => ?_⟩
    have hplace := outOfPlace_false hoff hrec
    refine ⟨fun hlong hbad => answer_eq e (stageChunk_lengthRefused hplace (lengthRefused_iff.2 ⟨hlong, hbad⟩)),
      fun hlong hover hok => answer_eq e (stageChunk_overruns hplace (lengthRefused_false hok) (overrunsLength_iff.2 ⟨hlong, hover⟩)),
      fun hroom hok => ?_, fun hlong hmax hlen hjobs tw htw => ?_⟩
    · have hmore : imageComplete (u.receivedWith r) = false := by
        rw [Bool.eq_false_iff, Ne, imageComplete_iff]
        exact fun ⟨hlong, hlen⟩ => (hok hlong).2.2 hlen
      have hlength := lengthRefused_false fun hlong => ⟨(hok hlong).1, (hok hlong).2.1⟩
      exact answer_eq e (stageChunk_taken hplace hlength (overrunsLength_false hroom) hmore)
    · have hlength : lengthRefused (u.receivedWith r) = false := lengthRefused_false fun _ => ⟨by omega, hmax⟩
      have hwhole := stageChunk_complete hplace hlength (overrunsLength_false (.inr (by omega))) (imageComplete_iff.2 ⟨hlong, hlen⟩)
      obtain ⟨id, hstart, -⟩ := withJob_ok 0x400 (State.startStage (r.mb == 14) (u.receivedWith r)) u hjobs
      obtain ⟨hst, hans, rfl⟩ := answer_eq e (hwhole.trans hstart)
      obtain rfl : tw = u.sharesStage (r.mb == 14) (u.receivedWith r) := htw
      exact ⟨id, hst, hans, startStage_f ..⟩
  case version =>
    rintro img s _ rfl
    refine ⟨versionRefusal_zero, fun h0 hp hv hd => versionRefusal_restages h0 (restages_iff.2 ⟨hp, hv, hd⟩), fun h0 hother => ?_⟩
    rw [versionRefusal_other h0 (by rw [Bool.eq_false_iff, Ne, restages_iff]; exact hother)]
    exact ⟨fun h => if_pos h, fun h => ⟨fun hold => (if_neg h).trans (if_pos hold), fun hnew => (if_neg h).trans (if_neg (Nat.not_le.2 hnew))⟩⟩
  case staged =>
    have ends : exec (.cfgStageJobEnd t) s = .next (s.arrive t).endStage := (exec_cfgStageJobEnd ..).trans (happens_of (stageMayEnd_of hjob hstage htwin))
    refine does_keeps ends (endStage_keeps _) fun img himg => ?_
    subst himg
    obtain ⟨hmsg, hcfg⟩ := endStage_f hjob hstage
    obtain ⟨-, hsown, hfallow⟩ := seated_slots j (s.arrive t)
    refine ⟨?_, stageStatus_unverified, fun h => ⟨fun st hv => ?_, fun hv => ?_⟩⟩
    · rintro _ rfl
      rw [hcfg]
      refine ⟨hmsg, rfl, rfl, hsown, hfallow, fun h => ?_, fun hst hother => ?_⟩
      · rw [seated_unchanged (h.imp_right seedHas_iff.2)]
        exact ⟨rfl, rfl⟩
      · rw [seated_seats hst, seatSeed_cfg (Bool.eq_false_iff.2 (mt seedHas_iff.1 hother))]
        exact ⟨rfl, rfl⟩
    · rw [stageStatus_verified h, hv, Option.getD_some]
    · rw [stageStatus_verified h, hv, Option.getD_none, stOk]
  case check =>
    intro t r s hacc
    refine answers_body rfl hacc (guarded_some (withJob_some ..)) (checkBody_keeps r) fun u v st ans hu e => ?_
    refine ⟨fun h => answer_eq e (checkBody_busy h), fun hi h => answer_eq e (checkBody_noSeed hi h), fun hi h hjobs => ?_⟩
    obtain ⟨id, hstart, -⟩ := withJob_ok 0x401 (State.startCheck (r.mb == 14)) u hjobs
    obtain ⟨hst, hans, rfl⟩ := answer_eq e ((checkBody_starts hi h).trans hstart)
    obtain ⟨later, hcfg⟩ := startCheck_cfg (r.mb == 14) id _
    rw [hcfg]
    exact ⟨id, _, hst, hans, rfl, rfl, rfl⟩
  case checked =>
    have ends : exec (.cfgCheckJobEnd t) s = .next (s.arrive t).endCheck := (exec_cfgCheckJobEnd ..).trans (happens_of hend)
    refine does_keeps ends (endCheck_keeps _) fun st report hresult => ?_
    obtain ⟨rfl, rfl⟩ : st = ((s.arrive t).checkResult j).1 ∧ report = ((s.arrive t).checkResult j).2 :=
      ⟨congrArg Prod.fst hresult, congrArg Prod.snd hresult⟩
    obtain ⟨hmsg, hnone, hseed, hchecked⟩ := endCheck_f hjob
    rw [hseed, hchecked]
    refine ⟨hmsg, hnone, fun h => by rw [markChecked_twinPart h], fun h => ?_, fun h hn hpart => checkResult_lacksPart h ?_, checkResult_alone⟩
    · rw [markChecked_own h]
      exact ⟨rfl, rfl⟩
    · simpa [State.lacksPart, hn] using hpart
  case list =>
    rintro t r s hacc _ _ _ rfl rfl rfl
    refine answers_body rfl hacc ?_ (listBody_keeps r) fun u v st ans hu e => ⟨?_, fun h => ?_, fun h h1 h2 h3 h4 h5 => ?_, fun h hno => ?_⟩
    · obtain ⟨st, ans, h⟩ := listBody_unchanged r ((s.arrive t).take r)
      exact ⟨_, st, ans, h⟩
    · obtain ⟨_, _, h⟩ := listBody_unchanged r u
      exact (pair_inj (e.symm.trans h)).1
    · exact (pair_inj (e.symm.trans (listBody_slots h))).2
    · exact (pair_inj (e.symm.trans (listBody_part h ⟨h1, h2, h3, h4, h5⟩))).2
    · exact (pair_inj (e.symm.trans (listBody_refused h hno))).2
  case response =>
    rintro q w hq rfl
    have feeds := exec_mb14Response_asked hw hq
    refine ⟨fun h => feeds.trans ?_, fun h => feeds.trans ?_, fun h => feeds.trans ?_, fun h => feeds.trans ?_, fun h => feeds.trans ?_,
      fun h hs => ⟨_, feeds, feed_sheafStatus h hs⟩⟩
    all_goals
      rw [State.feed, h]
      rfl
  case heard =>
    have hof := job_of s j q hjob hid hq
    refine ⟨?identify, ?sends, fun hs => ?accepted, fun hs => ?refused, fun hs => ?ended, ?done, fun hs h2 hl => ?listed, fun hs h => ?unlisted⟩
    case identify =>
      rintro hs hf _ rfl
      rw [heardIdentify_sends hs hf]
      exact ⟨rfl, rfl⟩
    case sends =>
      rintro hs _ off rfl hf
      rw [heardStage_sends hs hf]
      exact ⟨rfl, rfl⟩
    case accepted =>
      rw [heardStage_accepted hs hq, heardCheck_accepted hs]
      exact ⟨rfl, rfl, rfl⟩
    case refused =>
      have hstopped : s.stopForward.cfg.job = some j := hjob
      rw [heardStage_refused hs, heardCheck_refused hs, setCfgJob_job _ hstopped, setCfgJob_job _ hjob, refusedBy_own hid]
      exact ⟨rfl, rfl, rfl⟩
    case ended => rw [heardJob_refused hof hs, setCfgJob_job _ hjob]
    case done =>
      rintro hs _ rfl hd
      rw [heardJob_done hof hs hd, setCfgJob_job _ hjob]
    case listed =>
      rw [heardList_job hq hof hs, heardSeed_listed h2 hl]
      rfl
    case unlisted =>
      rw [heardList_job hq hof hs, heardSeed_unlisted h, setCfgJob_job _ hjob]
      rfl
  case timeout =>
    subst hclosed
    refine ⟨fun j hjob hid hj hat => ?_, fun hj hc hat => ?_⟩
    · have hof := job_of (s.arrive t) j q hjob hid hj
      exact does_keeps (exec_mb14Timeout_due hw hq (by rw [mb14Limit_job hof]; exact hat)) (mb14TimeOut_keeps ..) (mb14TimeOut_job_f hq hjob hof)
    · have hof : (s.arrive t).cfgJobOf q = none := cfgJobOf_none hj
      rw [exec_mb14Timeout_due hw hq (by rw [mb14Limit_noJob hof]; exact hat), mb14TimeOut_noJob hq hof hc]
      rfl
  case copy =>
    refine ⟨fun a bs => does_keeps (exec_syncingCopyBlock_syncing _ hm) (copyMemory_keeps ..) ⟨copy_mem .., fun hwf i hi => ?_⟩,
      fun a b c d => exec_syncingCopyBlock_syncing _ hm, fun a b => ?_, fun he => ?_⟩
    · rw [copyBlock_memory, copy_mem]
      exact memRead_store_getD hwf hi
    · rw [Does, exec_syncingCopyBlock_syncing _ hm, copyBlock_twinConfig]
      exact ⟨_, rfl, ((askTwin_keeps ..).chain ((upCfg_keeps _ _).mono (by decide))).frame, rfl, rfl⟩
    · rw [exec_syncingCopyBlock_syncing _ hm]
      exact congrArg _ (copyOver_of_none_early he)
  case report =>
    obtain ⟨hpair, hpower⟩ := twinReports_pair_power m (s.arrive t)
    refine does_keeps ((exec_twinModeReport ..).trans (happens_of hw)) (twinReports_keeps ..) ⟨?_, fun h6 ho hm => ?_, fun h _ => ?_, fun h4 ht hc => ?_,
      fun h4 ht h5 ho hp hj => twinReports_asks (newStandby_of h4 ht) (by omega) ho hp hj⟩
    · rw [hpair]
      exact hearMode_twinMode ..
    · rw [hpower]
      exact hearMode_ends_solo h6 ho hm
    · rw [twinReports_again (newStandby_false h)]
      exact ⟨hearMode_cfg .., hearMode_out ..⟩
    · rw [twinReports_seed (newStandby_of h4 ht)]
      exact (distrust_f _).2.2 (by rw [hearMode_cfg]; exact hc)

end Sys2Proof.Machine

/-! Proofs of the statements about Pastasy: the ordered checks of a request (O33), and sessions, jobs, control words and connections
(O35). -/

namespace Sys2Proof.Machine

/-! ## Rows 1 to 6 of Table 11.3 (11 R251, R178) -/

section early

variable {code : Nat} {r : Req} {s : State}

theorem refusedEarly_boot (h : s.power.mode = 1) : s.refusedEarly code r = some stState := if_pos h

variable (hmode : s.power.mode ≠ 1)
include hmode

theorem refusedEarly_version (h : r.version ≠ 1) : s.refusedEarly code r = some stVersion := by
  simp [State.refusedEarly, hmode, h]

variable (hversion : r.version = 1)
include hversion

theorem refusedEarly_length (h : s.reqRoom r.mb < r.length) : s.refusedEarly code r = some stLength := by
  simp [State.refusedEarly, hmode, hversion, h]

variable (hlength : r.length ≤ s.reqRoom r.mb)
include hlength

theorem refusedEarly_integrity (h : reqCrcOk code r = false) : s.refusedEarly code r = some stIntegrity := by
  simp [State.refusedEarly, hmode, hversion, hlength.not_gt, h]

variable (hcrc : reqCrcOk code r = true)
include hcrc

theorem refusedEarly_range (h : bit r.flags 0 = true ∨ bits r.flags 2 6 ≠ 0 ∨ r.status ≠ 0) : s.refusedEarly code r = some stRange := by
  simp [State.refusedEarly, hmode, hversion, hlength.not_gt, hcrc, or_assoc, h]

variable (hresponse : bit r.flags 0 = false) (hflags : bits r.flags 2 6 = 0) (hstatus : r.status = 0)
include hresponse hflags hstatus

theorem refusedEarly_busy (hmb : r.mb < 8) (h : (s.box r.mb).busy = true) : s.refusedEarly code r = some stBusy := by
  simp [State.refusedEarly, hmode, hversion, hlength.not_gt, hcrc, hresponse, hflags, hstatus, hmb, h]

/-- Past row 5 the session alone decides. -/
theorem refusedEarly_free (hfree : 8 ≤ r.mb ∨ (s.box r.mb).busy = false) :
    s.refusedEarly code r = if s.sessionOk code r then none else some stDenied := by
  have hbusy : (decide (r.mb < 8) && (s.box r.mb).busy) = false := by
    rcases hfree with h | h
    · simp [h.not_gt]
    · simp [h]
  cases hs : s.sessionOk code r <;> simp [State.refusedEarly, hmode, hversion, hlength.not_gt, hcrc, hresponse, hflags, hstatus, hbusy, hs]

end early

/-! ## Rows 7 to 10 of Table 11.3 (11 R251, R258) -/

section late

variable {c : Cmd} {r : Req} {s : State}

theorem refusedLate_unknown (h : definedCodes.contains c.code = false) : s.refusedLate c r = some stUnknown := by
  rw [State.refusedLate, h]
  rfl

variable (hcode : definedCodes.contains c.code = true)
include hcode

theorem refusedLate_denied (h : s.permitted c r.mb = false) : s.refusedLate c r = some stDenied := by
  rw [State.refusedLate, hcode, h]
  rfl

variable (hrole : s.permitted c r.mb = true)
include hrole

theorem refusedLate_state (h : s.inModes c r.mb = false) : s.refusedLate c r = some stState := by
  rw [State.refusedLate, hcode, hrole, h]
  rfl

/-- Past row 9 the payload's size alone decides. -/
theorem refusedLate_inModes (h : s.inModes c r.mb = true) : s.refusedLate c r = if c.size r.payload then none else some stLength := by
  rw [State.refusedLate, hcode, hrole, h]
  cases c.size r.payload <;> rfl

end late

/-! ## A request that a row answers (11 R251–R253) -/

section ladder

variable {c : Cmd} {r : Req} {body : State → State × Option (Nat × List Byte)} {s v : State} {st : Nat} {data : List Byte}

theorem run_unreached (h : s.reaches r = false) : s.run c r body = s := by
  simp [State.run, State.serve, h]

theorem run_postBusy (h : s.reaches r = true) (hbusy : s.postBusy r = true) : s.run c r body = s.msgCount 12 := by
  simp [State.run, State.serve, h, hbusy]

/-- A ninth connection has no mailbox: its request is answered with BUSY and it closes (R258). -/
theorem run_extra (h : s.reaches r = true) (hmb : 16 ≤ r.mb) :
    s.run c r body = ((s.take r).respond (hdrOf r) c.code stBusy []).closeConnection 16 := by
  have hbusy : s.postBusy r = false := by simp [State.postBusy, hmb.not_gt]
  simp [State.run, State.serve, h, hbusy, hmb]

theorem take_postBad (r q : Req) (s : State) : (s.take r).postBad q = s.postBad q := by
  obtain ⟨-, -, -, -, -, hlog, -⟩ := take_box r s q.mb
  rw [State.postBad, State.reqRoom, hlog]
  rfl

theorem run_postBad (h : s.reaches r = true) (hbusy : s.postBusy r = false) (hmb : r.mb < 16) (hmode : s.power.mode ≠ 1)
    (hbad : s.postBad r = true) : s.run c r body = (s.take r).respond (hdrOf r) c.code stLength [] := by
  have hmode' : (s.take r).power.mode ≠ 1 := hmode
  simp [State.run, State.serve, h, hbusy, hmb.not_ge, hmode', take_postBad, hbad]

/-- A request comes before the rows of Table 11.3: it reaches the steward on a free mailbox, and what was posted is one message. -/
structure State.Meets (s : State) (r : Req) : Prop where
  reaches : s.reaches r = true
  free : s.postBusy r = false
  mb : r.mb < 16
  whole : s.power.mode ≠ 1 → s.postBad r = false

variable (hr : s.Meets r)
include hr

theorem run_refusedEarly (h : s.refusedEarly c.code r = some st) (hst : st ≠ stLength) :
    s.run c r body = (s.take r).respond (hdrOf r) c.code st [] := by
  rw [serve_ladder c r body s hr.reaches hr.free hr.mb hr.whole, h]
  simp [hst]

/-- After a length that exceeds the buffer nothing on the connection can be read (R253). -/
theorem run_refusedEarly_length (h : s.refusedEarly c.code r = some stLength) : s.run c r body =
    if r.mb < 8 then ((s.take r).respond (hdrOf r) c.code stLength []).closeConnection r.mb else (s.take r).respond (hdrOf r) c.code stLength [] := by
  rw [serve_ladder c r body s hr.reaches hr.free hr.mb hr.whole, h]
  simp

variable (hearly : s.refusedEarly c.code r = none)
include hearly

theorem run_continues (h : continues r = true) (hcode : definedCodes.contains c.code = true) :
    s.run c r body = (s.take r).nextSegment c.code r := by
  rw [serve_ladder c r body s hr.reaches hr.free hr.mb hr.whole, hearly, h, hcode]
  rfl

theorem run_refusedLate (hc : (continues r && definedCodes.contains c.code) = false) (h : s.refusedLate c r = some st) :
    s.run c r body = (s.take r).respond (hdrOf r) c.code st [] := by
  rw [serve_ladder c r body s hr.reaches hr.free hr.mb hr.whole, hearly, hc, h]
  rfl

theorem run_answered (hc : continues r = false) (h : s.refusedLate c r = none) (hbody : body (s.take r) = (v, some (st, data))) :
    s.run c r body = v.respond (hdrOf r) c.code st data := by
  rw [serve_ladder c r body s hr.reaches hr.free hr.mb hr.whole, hearly, hc, h, hbody]
  rfl

end ladder

/-- Settles O33: each row refuses where the rows before it pass, and the command runs where all pass. -/
theorem requestsAreCheckedInOrder : Obligations.RequestsAreCheckedInOrder := by
  unfold Obligations.RequestsAreCheckedInOrder
  refine fun c r body s => ⟨run_unreached, run_postBusy, run_extra, fun hreach hfree hmb =>
    ⟨fun hmode => ?boot, fun hmode hbad => run_postBad hreach hfree hmb hmode hbad, fun hmode hpost => ?rows⟩⟩
  case boot => exact run_refusedEarly ⟨hreach, hfree, hmb, fun h => absurd hmode h⟩ (refusedEarly_boot hmode) (by decide)
  case rows =>
    have hr : s.Meets r := ⟨hreach, hfree, hmb, fun _ => hpost⟩
    refine ⟨fun h => run_refusedEarly hr (refusedEarly_version hmode h) (by decide), fun hversion =>
      ⟨fun h => run_refusedEarly_length hr (refusedEarly_length hmode hversion h), fun hlength =>
      ⟨fun h => run_refusedEarly hr (refusedEarly_integrity hmode hversion hlength h) (by decide), fun hcrc =>
      ⟨fun h => run_refusedEarly hr (refusedEarly_range hmode hversion hlength hcrc h) (by decide), fun hresponse hflags hstatus =>
      ⟨fun hbox h => run_refusedEarly hr (refusedEarly_busy hmode hversion hlength hcrc hresponse hflags hstatus hbox h) (by decide),
        fun hfree => ?session⟩⟩⟩⟩⟩
    have hsession := refusedEarly_free hmode hversion hlength hcrc hresponse hflags hstatus hfree
    refine ⟨fun h => run_refusedEarly hr (by rw [hsession, h]; rfl) (by decide), fun h => ?command⟩
    have hearly : s.refusedEarly c.code r = none := by rw [hsession, h]; rfl
    refine ⟨run_continues hr hearly, fun hcode => run_refusedLate hr hearly (by rw [hcode, Bool.and_false]) (refusedLate_unknown hcode), fun hc hcode => ?late⟩
    have hnew : (continues r && definedCodes.contains c.code) = false := by rw [hc, Bool.false_and]
    refine ⟨fun h => run_refusedLate hr hearly hnew (refusedLate_denied hcode h),
      fun hrole h => run_refusedLate hr hearly hnew (refusedLate_state hcode hrole h),
      fun hrole hmodes h => run_refusedLate hr hearly hnew ?size, fun hrole hmodes h v st data => run_answered hr hearly hc ?pass⟩
    case size => rw [refusedLate_inModes hcode hrole hmodes, h]; rfl
    case pass => rw [refusedLate_inModes hcode hrole hmodes, h]; rfl

/-! ## SESSION_OPEN and JOB_STATUS (11 R256, R258) -/

section sessions

variable {t : Nat} {r : Req} {s : State} {j : Job}

/-- A session of the asked role opens on the request's mailbox, under a new id; one opened on an estimated time is recorded as such. -/
def State.opened (r : Req) (s : State) : State :=
  ((s.useFree.setBox r.mb fun x => { x with sid := s.newSid, role := field r.payload 0 1 }).msgCount 8).record 0x0101
    ([(4, s.newSid), (1, field r.payload 0 1)] ++ if s.tb0Valid then [] else [(1, 1)])

theorem take_boxes_length (r : Req) (s : State) : (s.take r).msg.boxes.length = s.msg.boxes.length := setAt_length ..

theorem openSession_eq : openSession r s = guarded
    [need (fun _ => decide (1 ≤ field r.payload 0 1) && decide (field r.payload 0 1 ≤ 4)) stRange, reserved r.payload 1 3,
      need (fun s => decide (field r.payload 0 1 ≤ (s.box r.mb).granted)) stDenied, need (fun s => (s.box r.mb).sid == 0) stState]
    (fun s => reply stOk (leBytes 4 s.newSid ++ leBytes 1 (field r.payload 0 1) ++ zeroBytes 3) (s.opened r)) s := rfl

theorem opened_box (h : r.mb < s.msg.boxes.length) :
    (s.opened r).box r.mb = { s.box r.mb with sid := s.newSid, role := field r.payload 0 1 } := by
  have hmsg : (s.opened r).msg = ((s.useFree.setBox r.mb fun x => { x with sid := s.newSid, role := field r.payload 0 1 }).msgCount 8).msg :=
    (record_keeps ..).frame .msg (by decide)
  rw [box_of (congrArg MsgSt.boxes hmsg)]
  exact (setBox_box ..).trans (if_pos ⟨rfl, h⟩)

section operands

variable (hlow : 1 ≤ field r.payload 0 1) (hhigh : field r.payload 0 1 ≤ 4) (hzero : zeros r.payload 1 3 = true)
include hlow hhigh hzero

/-- Past its operands a `SESSION_OPEN` needs the granted role and a mailbox without a session. -/
theorem openSession_formed : openSession r s = guarded
    [need (fun s => decide (field r.payload 0 1 ≤ (s.box r.mb).granted)) stDenied, need (fun s => (s.box r.mb).sid == 0) stState]
    (fun s => reply stOk (leBytes 4 s.newSid ++ leBytes 1 (field r.payload 0 1) ++ zeroBytes 3) (s.opened r)) s := by
  rw [openSession_eq, guarded_pass (need_ok (by simp [hlow, hhigh])), guarded_pass (res_ok hzero)]

theorem openSession_denied (h : (s.box r.mb).granted < field r.payload 0 1) : openSession r s = (s, some (stDenied, [])) := by
  rw [openSession_formed hlow hhigh hzero, guarded_first (need_no (by simpa using h))]

variable (hrole : field r.payload 0 1 ≤ (s.box r.mb).granted)
include hrole

theorem openSession_again (h : (s.box r.mb).sid ≠ 0) : openSession r s = (s, some (stState, [])) := by
  rw [openSession_formed hlow hhigh hzero, guarded_pass (need_ok (by simpa using hrole)), guarded_first (need_no (by simpa using h))]

theorem openSession_opens (h : (s.box r.mb).sid = 0) : openSession r s =
    (s.opened r, some (stOk, leBytes 4 s.newSid ++ leBytes 1 (field r.payload 0 1) ++ zeroBytes 3)) := by
  rw [openSession_formed hlow hhigh hzero, guarded_pass (need_ok (by simpa using hrole)), guarded_pass (need_ok (by simpa using h)), guarded_nil, reply]

end operands

theorem jobStatus_held (hzero : zeros r.payload 2 2 = true) (h : s.job (field r.payload 0 2) = some j) :
    jobStatus r s = (s, some (stOk, jobBytes j)) := by
  rw [jobStatus, guarded_pass (res_ok hzero), guarded_nil]
  simp only [h, reply]

theorem jobStatus_unknown (hzero : zeros r.payload 2 2 = true) (h : s.job (field r.payload 0 2) = none) :
    jobStatus r s = (s, some (stUnknown, [])) := by
  rw [jobStatus, guarded_pass (res_ok hzero), guarded_nil]
  simp only [h, reply]

/-- The connection closes after the response. -/
theorem exec_sessionClose_closes (ha : (s.arrive t).accepts (plainCmd 2 1 0) r) (hmb : r.mb < 8) :
    exec (.sessionClose t r) s = .next ((((s.arrive t).take r).respond (hdrOf r) 2 0 []).closeConnection r.mb) := by
  rw [exec_sessionClose, execSessionClose, happens_of ha.1, serve_ok ha rfl]
  exact congrArg _ (if_pos hmb)

end sessions

/-! ## Job ids (11 R256) -/

/-- Of as many numbers in a row as there are tries, fewer than 65536, no two are one id. -/
theorem nodup_ids {n : Nat} (hn : n ≤ 65536) (id : Nat) : ((List.range n).map fun k => (id + k) % 65536).Nodup := by
  refine List.Nodup.map_on (fun a ha b hb hab => ?_) List.nodup_range
  rw [List.mem_range] at ha hb
  omega

/-- With more tries than held ids, and one for 0, a free id is found. -/
theorem freeJobId_free {held : List Nat} {n : Nat} (hheld : held.length + 1 < n) (hn : n ≤ 65536) (id : Nat) :
    freeJobId held n id ≠ 0 ∧ freeJobId held n id < 65536 ∧ freeJobId held n id ∉ held := by
  refine (freeJobId_or held n id).resolve_right fun hall => ?_
  have hsub : ((List.range n).map fun k => (id + k) % 65536) ⊆ 0 :: held := by
    intro x hx
    obtain ⟨k, hk, rfl⟩ := List.mem_map.1 hx
    exact List.mem_cons.2 (hall k (List.mem_range.1 hk))
  have hle := ((nodup_ids hn id).subperm hsub).length_le
  simp only [List.length_map, List.length_range, List.length_cons] at hle
  omega

/-! ## Control words (11 R249) -/

section control

variable {mb len : Nat} {s : State}

theorem postWrite_outstanding (h : (s.box mb).post ≠ 0 ∨ (s.box mb).doneLen ≠ 0) : s.postWrite mb len = s.msgCount 12 :=
  if_pos (by simpa using h)

/-- The header of what stands in a mailbox's request buffer. -/
def State.postedHdr (s : State) (mb : Nat) : Hdr :=
  { mb := mb, tag := memReadN s.mem (s.bufAddr (2 * mb) + 4) 2, session := memReadN s.mem (s.bufAddr (2 * mb) + 12) 4 }

/-- A post is taken with its length. -/
def State.posted (s : State) (mb len : Nat) : State := s.setBox mb fun x => { x with post := len, lastAt := s.time.now }

/-- A post leaves the size of the request buffer. -/
theorem posted_reqLog : ((s.posted mb len).box mb).reqLog = (s.box mb).reqLog := by
  rw [State.posted, setBox_box]
  split <;> rfl

variable (hpost : (s.box mb).post = 0) (hdone : (s.box mb).doneLen = 0)
include hpost hdone

/-- On a free mailbox the length is compared with the buffer and with the header's LENGTH. -/
theorem postWrite_free : s.postWrite mb len =
    if len < 20 ∨ 2 ^ (s.box mb).reqLog < len ∨ len ≠ 20 + memReadN s.mem (s.bufAddr (2 * mb) + 8) 4 then
      (((s.posted mb len).msgCount 0).setBox mb fun x => { x with held := none }).respond (s.postedHdr mb)
        (memReadN s.mem (s.bufAddr (2 * mb) + 2) 2) (if s.power.mode = 1 then stState else stLength) []
    else s.posted mb len := by
  have hlog : ((s.posted mb len).box mb).reqLog = (s.box mb).reqLog := posted_reqLog
  unfold State.posted at hlog ⊢
  rw [State.postWrite, if_neg (by simp [hpost, hdone])]
  simp only [read16 _ _ 2 2 (by decide), read16 _ _ 4 2 (by decide), read16 _ _ 8 4 (by decide), read16 _ _ 12 4 (by decide), hlog,
    Bool.or_eq_true, decide_eq_true_eq, bne_iff_ne, or_assoc]
  rfl

theorem postWrite_fits (hlen : 20 ≤ len) (hroom : len ≤ 2 ^ (s.box mb).reqLog) (h : len = 20 + memReadN s.mem (s.bufAddr (2 * mb) + 8) 4) :
    s.postWrite mb len = s.posted mb len := by
  rw [postWrite_free hpost hdone, if_neg (by omega)]

theorem postWrite_short (h : len < 20) : s.postWrite mb len =
    (((s.posted mb len).msgCount 0).setBox mb fun x => { x with held := none }).respond (s.postedHdr mb)
      (memReadN s.mem (s.bufAddr (2 * mb) + 2) 2) (if s.power.mode = 1 then stState else stLength) [] := by
  rw [postWrite_free hpost hdone, if_pos (.inl h)]

end control

/-! ## TLS connections (11 R257, R258) -/

section connections

variable {n role : Nat} {fp : List Byte} {verified : Bool} {s : State}

theorem handshake_refused (h : verified = false ∨ s.grantedRole fp = none) : s.handshake verified fp = (s.msgCount 9).emit .tlsAlert := by
  have hnone : (if verified then s.grantedRole fp else none) = none := by
    rcases h with rfl | h
    · rfl
    · simp [h]
  rw [State.handshake, hnone]

variable (hrole : s.grantedRole fp = some role)
include hrole

theorem handshake_takes (hn : n < 8) (hfree : (s.box n).connected = false) (hbelow : ∀ k, k < n → (s.box k).connected = true) :
    s.handshake true fp = s.setBox n fun x =>
      { x with connected := true, granted := role, fingerprint := fp, role := 0, sid := 0, busy := false, held := none, lastAt := s.time.now } := by
  have hfirst : (List.range 8).find? (fun n => !(s.box n).connected) = some n :=
    List.find?_range_eq_some.2 ⟨by simp [hfree], List.mem_range.2 hn, fun k hk => by simp [hbelow k hk]⟩
  rw [State.handshake, if_pos rfl, hrole]
  simp only [hfirst]

theorem handshake_beyond (h : ∀ k, k < 8 → (s.box k).connected = true) :
    s.handshake true fp = s.upMsg fun m => { m with extra := m.extra + 1 } := by
  have hnone : (List.range 8).find? (fun n => !(s.box n).connected) = none :=
    List.find?_eq_none.2 fun k hk => by simp [h k (List.mem_range.1 hk)]
  rw [State.handshake, if_pos rfl, hrole]
  simp only [hnone]

end connections

/-! ## What time ends (11 R255, R256, R258) -/

section ends

variable {t mb job : Nat} {s : State} {x : HeldRsp}

theorem closeConnection_f (hmb : mb < 8) (hlen : mb < s.msg.boxes.length) : (s.closeConnection mb).out = s.out ++ [.close mb] ∧
    ((s.closeConnection mb).box mb).sid = 0 ∧ ((s.closeConnection mb).box mb).role = 0 ∧ ((s.closeConnection mb).box mb).connected = false ∧
    ((s.closeConnection mb).box mb).held = none ∧ ((s.closeConnection mb).box mb).window = none := by
  obtain ⟨hsid, hrole, hconn, hheld, hwindow, hout⟩ := dropConnection_f mb s hlen hmb
  exact ⟨congrArg (· ++ [Emission.close mb]) hout, hsid, hrole, hconn, hheld, hwindow⟩

theorem exec_connectionClosed_open (hawake : (s.arrive t).awake = true) (hmb : mb < 8) (h : ((s.arrive t).box mb).connected = true) :
    exec (.connectionClosed t mb) s = .next ((s.arrive t).dropConnection mb) :=
  (exec_connectionClosed ..).trans (happens_of (by simp [hawake, hmb, h]))

theorem idleFor_iff {sec : Nat} : s.idleFor mb sec = true ↔ (s.box mb).lastAt + secTicks sec ≤ s.time.now := decide_eq_true_iff

theorem exec_sessionIdleTimeout_idle (hawake : (s.arrive t).awake = true) (hmb : mb < 8) (hsid : ((s.arrive t).box mb).sid ≠ 0)
    (h : ((s.arrive t).box mb).lastAt + secTicks 600 ≤ (s.arrive t).time.now) :
    exec (.sessionIdleTimeout t mb) s = .next (((s.arrive t).msgCount 10).endSession mb) :=
  (exec_sessionIdleTimeout ..).trans (happens_of (by simp [hawake, hmb, hsid, idleFor_iff.2 h]))

theorem exec_cursorExpiry_held (hawake : (s.arrive t).awake = true) (hx : ((s.arrive t).box mb).held = some x)
    (h : ((s.arrive t).box mb).lastAt + secTicks 60 ≤ (s.arrive t).time.now) :
    exec (.cursorExpiry t mb) s = .next (((s.arrive t).setBox mb fun x => { x with held := none }).msgCount 7) :=
  (exec_cursorExpiry ..).trans (happens_of (by simp [hawake, hx, idleFor_iff.2 h]))

/-- The done job of an id is forgotten 600 s after its end. -/
def State.expireJob (job : Nat) (s : State) : State :=
  s.upMsg fun m => { m with jobs := m.jobs.filter fun j => !(j.id == job && j.done && decide (j.endAt + secTicks 600 ≤ s.time.now)) }

theorem mem_expireJob {j : Job} : j ∈ (s.expireJob job).msg.jobs ↔
    j ∈ s.msg.jobs ∧ ¬(j.id = job ∧ j.done = true ∧ j.endAt + secTicks 600 ≤ s.time.now) := by
  simp only [State.expireJob, State.upMsg_msg, List.mem_filter, Bool.not_eq_true', ← Bool.not_eq_true, Bool.and_eq_true, beq_iff_eq,
    decide_eq_true_eq, and_assoc]

end ends

/-- Settles O35: each command's checks decide its status, and each control word, connection and expiry is one operation on a mailbox. -/
theorem sessionsAndJobs : Obligations.SessionsAndJobs := by
  unfold Obligations.SessionsAndJobs
  refine ⟨fun t r s ha => ?identify, fun t r s ha => ?mode, fun t r s ha hzero => ?job, fun t r s ha hzero hlow hhigh hlen => ?opening,
    fun t r s => exec_sessionClose_closes, fun mb s => closeConnection_f, fun t mb len s hawake hlow hhigh => ?control,
    fun t fp s hopen => ?tls, fun t mb s hawake hmb hlen => ?ending, fun t job s hawake => ?expiry, fun held n _ hlen => ?ids⟩
  case identify => exact answers_run (exec_identify ..) ha ⟨_, _, _, rfl, Frame.rfl_, rfl, rfl, rfl⟩
  case mode => exact answers_run (exec_modeGet ..) ha ⟨_, _, _, rfl, Frame.rfl_, rfl, rfl, rfl⟩
  case job =>
    cases hj : ((s.arrive t).take r).job (field r.payload 0 2) with
    | some j =>
      refine answers_run (exec_jobStatus ..) ha ⟨_, _, _, jobStatus_held hzero hj, Frame.rfl_, rfl, ?_, ?_⟩
      · rintro _ h
        obtain rfl := Option.some.inj (hj.symm.trans h)
        exact ⟨rfl, rfl⟩
      · exact fun h => absurd (hj.symm.trans h) (Option.some_ne_none j)
    | none =>
      refine answers_run (exec_jobStatus ..) ha ⟨_, _, _, jobStatus_unknown hzero hj, Frame.rfl_, rfl, ?_, fun _ => ⟨rfl, rfl⟩⟩
      exact fun j h => absurd (h.symm.trans hj) (Option.some_ne_none j)
  case opening =>
    obtain ⟨-, hgranted, -, hsid, -⟩ := take_box r (s.arrive t) r.mb
    rw [← hgranted, ← hsid]
    refine ⟨fun h => ?_, fun hrole h => ?_, fun hrole h => ?_⟩
    · exact answers_run (exec_sessionOpen ..) ha ⟨_, _, _, openSession_denied hlow hhigh hzero h, Frame.rfl_, rfl, rfl, rfl⟩
    · exact answers_run (exec_sessionOpen ..) ha ⟨_, _, _, openSession_again hlow hhigh hzero hrole h, Frame.rfl_, rfl, rfl, rfl⟩
    · have hopens := openSession_opens hlow hhigh hzero hrole h
      have hbox := opened_box (r := r) (s := (s.arrive t).take r) (by rwa [take_boxes_length])
      have hframe := (openSession_keeps r ((s.arrive t).take r)).frame
      rw [hopens] at hframe
      exact answers_run (exec_sessionOpen ..) ha ⟨_, _, _, hopens, hframe, rfl, rfl, by rw [hbox], by rw [hbox]⟩
  case control =>
    have hpost (v : State) (h : (s.arrive t).postWrite mb len = v) : exec (.post t mb len) s = .next v :=
      h ▸ (exec_post ..).trans (happens_of (by simp [hawake, hlow, hhigh]))
    refine ⟨fun h => hpost _ (postWrite_outstanding h), fun hp hd => ⟨fun hlen hroom h => hpost _ (postWrite_fits hp hd hlen hroom h),
      fun h => ⟨_, hpost _ (postWrite_short hp hd h), ?_⟩⟩, fun h => ?_⟩
    · exact ((setBox_keeps ..).chain ((msgCount_keeps ..).chain (setBox_keeps ..))).frame
    · exact (exec_doneClear ..).trans ((happens_of (by simp [hawake, hlow, hhigh])).trans (congrArg _ (if_neg h)))
  case tls =>
    have hshake (verified : Bool) : exec (.tlsHandshake t verified fp) s = .next ((s.arrive t).handshake verified fp) :=
      (exec_tlsHandshake ..).trans (happens_of hopen)
    refine ⟨fun verified h => ?_, fun role hrole => ⟨fun n hn hfree hbelow => ?_, fun h => ?_⟩, (exec_handshakeTimeout ..).trans (happens_of hopen)⟩
    · rw [hshake, handshake_refused h]
    · rw [hshake, handshake_takes hrole hn hfree hbelow]
    · rw [hshake, handshake_beyond hrole h]
  case ending =>
    refine ⟨fun h => ?_, fun hsid h => ?_, fun x hx h => exec_cursorExpiry_held hawake hx h⟩
    · obtain ⟨hsid, -, hconn, -⟩ := dropConnection_f mb (s.arrive t) hlen hmb
      exact ⟨_, exec_connectionClosed_open hawake hmb h, hconn, hsid, (dropConnection_keeps ..).frame⟩
    · obtain ⟨hsid', hrole, -, -, -, -, hcounters⟩ := endSession_f mb ((s.arrive t).msgCount 10) hlen
      exact ⟨_, exec_sessionIdleTimeout_idle hawake hmb hsid h, hsid', hrole, hcounters,
        ((endSession_keeps ..).chain ((msgCount_keeps ..).mono (by decide))).frame⟩
  case expiry =>
    exact ⟨(s.arrive t).expireJob job, (exec_jobExpiry ..).trans (happens_of hawake), (upMsg_keeps ..).frame, fun j => mem_expireJob⟩
  case ids => exact freeJobId_free (by omega) (by decide) n

end Sys2Proof.Machine

/-! Proofs of the statements about the step, the transceivers, the recorder and the display (O1, O8, O9, O10, O15). -/

namespace Sys2Proof.Machine

/-- Settles O1: the step of a queue is the command at its front. -/
theorem stepRunsTheFrontCommand : Obligations.StepRunsTheFrontCommand := fun _ _ _ => step_command rfl

/-! ## Transceivers and their links (20 R400) -/

section transceivers

variable {t port : Nat} {s : State}

theorem sfpFits_iff {pmd : Nat} {id : SfpId} : sfpFits pmd id = true ↔
    id.present = true ∧ pmd ≠ 0 ∧ id.pmdCode = pmd ∧ (id.powerLevel = 1 ∨ id.powerLevel = 2) ∧ id.answers = true := by
  simp [sfpFits, and_assoc]

/-- Whatever the best master selection does, the transceivers are as the change left them. -/
theorem changeSfp_sfp (port : Nat) (f : SfpSt → SfpSt) (s : State) : (s.changeSfp port f).sfp = setAt s.sfp port f := by
  unfold State.changeSfp
  exact (relink_keeps s (s.upSfp fun l => setAt l port f)).frame .sfp (by decide)

theorem changeSfp_sameLinks {f : SfpSt → SfpSt} (h : ((setAt s.sfp port f).map fun x => x.linkUp) = s.sfp.map fun x => x.linkUp) :
    s.changeSfp port f = s.upSfp fun l => setAt l port f := by
  rw [State.changeSfp, State.relink, if_pos]
  simp [h]

theorem return_eq (pmd now : Nat) (x : SfpSt) : x.return pmd now =
    if x.linkUp = false ∧ x.alarm = false ∧ x.alarmClearAt + 2500000000 ≤ now ∧ sfpFits pmd x.id = true then { x with linkUp := true } else x := by
  simp [SfpSt.return, and_assoc]

/-- The cores are on, so that the module powers its transceivers. -/
theorem happens_powered {f : State → State} (hawake : (s.arrive t).awake = true) (hcores : (s.arrive t).boot.coresOff = false) :
    happens t s (fun s => s.awake && !s.boot.coresOff) f = .next (f (s.arrive t)) := happens_of (by simp [hawake, hcores])

end transceivers

/-- Settles O15: each event changes the transceiver of its port; best master selection, which may follow it, leaves the transceivers. -/
theorem transceiversFollowTheirIdentity : Obligations.TransceiversFollowTheirIdentity := by
  unfold Obligations.TransceiversFollowTheirIdentity
  refine ⟨fun pmd id => sfpFits_iff, fun t port id s hawake hcores => ?_, fun t port high s hawake hcores => ?_, fun t port s hawake hcores => ?_,
    fun t port high s hawake hcores hlinks => ?_⟩
  · exact ⟨_, (exec_transceiverInsertion ..).trans (happens_powered hawake hcores), changeSfp_sfp ..⟩
  · exact ⟨_, (exec_transceiverMonitor ..).trans (happens_powered hawake hcores), changeSfp_sfp ..⟩
  · exact ⟨_, (exec_linkReturn ..).trans (happens_powered hawake hcores), (changeSfp_sfp ..).trans (congrArg (setAt _ port) (funext (return_eq _ _)))⟩
  · exact (exec_transceiverMonitor ..).trans ((happens_powered hawake hcores).trans (congrArg _ (changeSfp_sameLinks hlinks)))

/-! ## Acceptance and flush of records (17 R372–R377) -/

section recorder

variable {type : Nat} {payload : List Byte} {s : State}

/-- The record that the recorder makes next. -/
def State.nextRecord (type : Nat) (payload : List Byte) (s : State) : Record :=
  { seq := s.log.nextSeq, type := type, opSeconds := s.opSeconds, severity := severityOf type,
    powerCycles := s.power.powerCycles, stamp := if s.tb0Valid then s.tb0 else 0, payload := padTo 32 payload }

theorem putRecord_mem (type : Nat) (payload : List Byte) (s : State) : (s.putRecord type payload).mem =
    memStore (recordBytes (s.nextRecord type payload)) (0x0AA00000 + 64 * (s.log.nextSeq % 32768)) s.mem := rfl

theorem putRecord_last (type : Nat) (payload : List Byte) (s : State) :
    (s.putRecord type payload).log.ring.getLast? = some (s.nextRecord type payload) := List.getLast?_concat ..

theorem nextRecord_length (type : Nat) (payload : List Byte) (s : State) : (recordBytes (s.nextRecord type payload)).length = 64 :=
  recordBytes_length _ (padTo_length _ _)

theorem recordAs_exhausted (h : s.log.exhausted = true) : s.record_ type payload = s := if_pos h

theorem recordAs_noRoom (hx : s.log.exhausted = false) (h : s.recRoom = false) : s.record_ type payload = s.dropRecord := by
  rw [State.record_, if_neg (by simp [hx]), if_pos (by simp [h])]

theorem recordAs_room (hx : s.log.exhausted = false) (h : s.recRoom = true) (hd : s.log.droppedUnreported = 0) :
    s.record_ type payload = s.putRecord type payload := by
  rw [State.record_, if_neg (by simp [hx]), if_neg (by simp [h]), reportDrops_none hd, if_pos h]

theorem exec_recordAccept_eq (t type : Nat) (payload : List Byte) (s : State) :
    exec (.recordAccept t type payload) s = .next ((s.arrive t).record_ type payload) := by
  rw [exec_recordAccept, execRecordAccept]

theorem flushDue_iff : s.flushDue = true ↔
    512 ≤ s.log.unflushed ∨ 0 < s.log.unflushed ∧ s.log.oldestUnflushed + 250000000 ≤ s.time.now := by
  simp [State.flushDue]

end recorder

/-- Settles O8: acceptance by whether the sequence has ended and whether the cache has room, and the flush by when it is due. -/
theorem recorderAcceptsAndFlushes : Obligations.RecorderAcceptsAndFlushes := by
  unfold Obligations.RecorderAcceptsAndFlushes
  refine ⟨fun t type payload s w hx hroom hd => ?_, fun t type payload s hx hroom => (exec_recordAccept_eq ..).trans (congrArg _ (recordAs_noRoom hx hroom)),
    fun t type payload s hx => (exec_recordAccept_eq ..).trans (congrArg _ (recordAs_exhausted hx)),
    fun t s h => (exec_recorderFlush ..).trans (happens_of (flushDue_iff.2 h)), fun t s h512 hyoung => ?_⟩
  · have heq := recordAs_room (type := type) (payload := payload) hx hroom hd
    have hlen := nextRecord_length type payload (s.arrive t)
    refine ⟨_, (exec_recordAccept_eq ..).trans (congrArg _ heq), ((putRecord_keeps ..).mono (by decide)).frame, (s.arrive t).nextRecord type payload, putRecord_last ..,
      rfl, rfl, rfl, rfl, rfl, rfl, rfl, rfl, rfl, rfl, fun i hi => ?_, fun a ha => ?_⟩
    · rw [putRecord_mem]
      exact memRead_store_getD w (by rwa [hlen])
    · rw [putRecord_mem]
      exact memRead_store_out _ _ _ _ (by rwa [hlen])
  · refine (exec_recorderFlush ..).trans (happens_not (Bool.eq_false_iff.2 fun h => ?_))
    rcases flushDue_iff.1 h with h | ⟨hpos, hold⟩ <;> omega

/-! ## The display (18 R382–R387) -/

section display

variable {t n : Nat} {x : Int} {s : State} {d : DispSt}

theorem exec_displayUpdate_due (h : (s.arrive t).canUpdate = true) : exec (.displayUpdate t) s = .next (s.arrive t).updateDisplay :=
  (exec_displayUpdate ..).trans (happens_of h)

/-- A frozen panel, a waveform or discharge that runs, or a start within the last second keeps a waveform from starting. -/
theorem canUpdate_false (h : s.disp.frozen = true ∨ s.disp.updating ≠ 0 ∨ ∃ a, s.disp.lastStart = some a ∧ s.time.now < a + 250000000) :
    s.canUpdate = false := by
  rcases h with hfrozen | hrun | ⟨a, ha, hearly⟩
  · simp [State.canUpdate, hfrozen]
  · simp [State.canUpdate, hrun]
  · simp [State.canUpdate, ha, hearly]

theorem updateDisplay_balances (h : s.disp.unbalanced = some n) : s.updateDisplay = s.balance n := by
  rw [State.updateDisplay, h]

theorem updateDisplay_fully (hb : s.disp.unbalanced = none) (hf : s.disp.fullPending = true) : s.updateDisplay = s.fullRefresh s.render := by
  rw [State.updateDisplay, hb]
  exact if_pos hf

theorem updateDisplay_partly (hb : s.disp.unbalanced = none) (hf : s.disp.fullPending = false)
    (h : s.render ≠ s.disp.shown ∨ s.icons ≠ s.disp.segments) : s.updateDisplay = s.partialUpdate s.render := by
  rw [State.updateDisplay, hb]
  exact (if_neg (by simp [hf])).trans (if_neg (by simpa [imp_iff_not_or] using h))

theorem updateDisplay_shown (hb : s.disp.unbalanced = none) (hf : s.disp.fullPending = false)
    (hr : s.render = s.disp.shown) (hi : s.icons = s.disp.segments) : s.updateDisplay = s := by
  rw [State.updateDisplay, hb]
  exact (if_neg (by simp [hf])).trans (if_pos (by simp [hr, hi]))

theorem partialUpdate_fullPending (lines : List (List Byte)) (hf : s.disp.fullPending = false) :
    (s.partialUpdate lines).disp.fullPending = true ↔ s.disp.fullEvery ≤ s.disp.partials + 1 := by
  simp [State.partialUpdate, State.useFree, State.emit, hf]

theorem nextFrozen_driven (x : Int) : nextFrozen false x = true ↔ x < 0 ∨ 500 < x := by simp [nextFrozen]

theorem nextFrozen_frozen (x : Int) : nextFrozen true x = false ↔ 10 ≤ x ∧ x ≤ 490 := by simp [nextFrozen]

theorem nextBand_rises {band : Nat} (h : band < bandOf x) : nextBand band x = bandOf x := if_pos h

theorem nextBand_falls {band : Nat} (hlo : bandOf (x + 5) < band) (hhi : bandOf x ≤ band) : nextBand band x = bandOf (x + 5) := by
  rw [nextBand, if_neg (by omega), if_pos hlo]

theorem nextBand_stays {band : Nat} (hlo : bandOf x ≤ band) (hhi : band ≤ bandOf (x + 5)) : nextBand band x = band := by
  rw [nextBand, if_neg (by omega), if_neg (by omega)]

theorem readPanel_fullPending : (d.readPanel x).fullPending = true ↔ d.fullPending = true ∨ d.frozen = true ∧ (d.readPanel x).frozen = false ∨
    d.lastFullBand + 2 ≤ (d.readPanel x).band ∨ (d.readPanel x).band + 2 ≤ d.lastFullBand := by
  simp [DispSt.readPanel, or_assoc]

/-- The band is that of the highest boundary at or below the temperature. -/
theorem bandOf_eq (x : Int) : bandOf x = if 400 ≤ x then 7 else if 300 ≤ x then 6 else if 250 ≤ x then 5 else if 200 ≤ x then 4
    else if 150 ≤ x then 3 else if 100 ≤ x then 2 else if 50 ≤ x then 1 else 0 := by
  simp only [bandOf, ← List.countP_eq_length_filter, List.countP_cons, List.countP_nil, decide_eq_true_eq]
  grind

/-- The rows of Table 18.3: band, lower and upper boundary in 0.1 °C, and the times of a full refresh and a partial update in ms. -/
def bandRows : List (Nat × Int × Int × Nat × Nat) :=
  [(0, 0, 50, 3000, 960), (1, 50, 100, 2400, 780), (2, 100, 150, 1920, 620), (3, 150, 200, 1560, 500),
   (4, 200, 250, 1260, 420), (5, 250, 300, 1080, 360), (6, 300, 400, 960, 320), (7, 400, 501, 840, 280)]

theorem bandRow_times : ∀ r ∈ bandRows, fullMs r.1 = r.2.2.2.1 ∧ partialMs r.1 = r.2.2.2.2 := by decide

/-- Between the boundaries of a row lies its band. -/
theorem bandRow_band : ∀ r ∈ bandRows, ∀ x, r.2.1 ≤ x → x < r.2.2.1 → bandOf x = r.1 := by
  simp only [bandRows, List.forall_mem_cons, List.not_mem_nil, false_imp_iff, implies_true, and_true, bandOf_eq]
  refine ⟨?_, ?_, ?_, ?_, ?_, ?_, ?_, ?_⟩ <;> intro x hlo hhi <;> split_ifs <;> omega

end display

/-- Settles O9: a due update does what the first row that holds says, and one that is not due does nothing. -/
theorem displayUpdatesInOrder : Obligations.DisplayUpdatesInOrder := by
  unfold Obligations.DisplayUpdatesInOrder
  refine ⟨fun t s hdue => ?_, fun t s h => (exec_displayUpdate ..).trans (happens_not (canUpdate_false h)),
    fun t s h => (exec_waveformEnd ..).trans (happens_of (by simp [h])),
    fun t s h => (exec_railDischargeDone ..).trans (happens_of (by simp [h])), fun t s h => (exec_ledgerSave ..).trans (happens_of h)⟩
  refine ⟨_, exec_displayUpdate_due hdue, (updateDisplay_keeps _).frame, fun n hb => ?balance, fun hb hf => ?full, fun hb hf hd => ?part,
    fun hb hf hr hi => updateDisplay_shown hb hf hr hi⟩
  case balance =>
    rw [updateDisplay_balances hb]
    exact ⟨rfl, rfl, rfl⟩
  case full =>
    rw [updateDisplay_fully hb hf]
    exact ⟨rfl, rfl, rfl, rfl, rfl, rfl, rfl, rfl, rfl, rfl⟩
  case part =>
    rw [updateDisplay_partly hb hf hd]
    exact ⟨rfl, rfl, rfl, partialUpdate_fullPending _ hf, rfl, rfl, rfl, rfl⟩

/-- Settles O10: the freeze and the band by their thresholds, and each row of Table 18.3 by the boundaries of its band. -/
theorem panelTemperatureSetsFreezeAndBand : Obligations.PanelTemperatureSetsFreezeAndBand := by
  unfold Obligations.PanelTemperatureSetsFreezeAndBand
  refine ⟨fun t x s hawake => ⟨_, (exec_panelTemperatureRead ..).trans (happens_of hawake), (upDisp_keeps ..).frame, rfl, fun hf => ?_, fun hf => ?_, rfl,
    nextBand_rises, nextBand_falls, nextBand_stays, readPanel_fullPending, rfl, rfl, rfl⟩, fun n lo hi full part h =>
    ⟨bandRow_band _ h, bandRow_times _ h⟩⟩
  · show nextFrozen _ x = true ↔ _
    rw [hf, nextFrozen_driven]
  · show nextFrozen _ x = false ↔ _
    rw [hf, nextFrozen_frozen]

end Sys2Proof.Machine

/-! Proofs of the statements about the CAN FD buses: filters and FIFOs, reception, and transmission (O11, O12, O13). -/

namespace Sys2Proof.Machine

/-! ## The elements of a filter (16 R354) -/

section filters

variable {c : CanCfg} {f : CanFrame} {e : Nat × Nat × Nat} {h : CanCh}

theorem decide_first {i : Nat} (hi : i < c.filters.length) (hm : filterMatches (c.filters.getD i (0, 0, 0)) f = true)
    (hl : ∀ j, j < i → filterMatches (c.filters.getD j (0, 0, 0)) f = false) :
    c.decide_ f = (i, bits (c.filters.getD i (0, 0, 0)).2.2 24 8) := by
  rw [CanCfg.decide_, find_first hi hl hm]

theorem decide_default (hl : ∀ j, j < c.filters.length → filterMatches (c.filters.getD j (0, 0, 0)) f = false) :
    c.decide_ f = (0xFFFF, if f.xtd then bits (c.word 2) 19 2 else bits (c.word 2) 21 2) := by
  rw [CanCfg.decide_, find_none hl]

/-- The identifier space that an element decides in. -/
def idSpace (f : CanFrame) : Nat := if f.xtd then 2 else 1

theorem filterMatches_eq : filterMatches e f = (bits e.2.2 2 2 == idSpace f &&
    (if bits e.2.2 0 2 = 0 then decide (bits e.1 0 29 ≤ f.id) && decide (f.id ≤ bits e.2.1 0 29)
     else if bits e.2.2 0 2 = 1 then f.id == bits e.1 0 29 || f.id == bits e.2.1 0 29
     else bits e.2.2 0 2 == 2 && (f.id &&& bits e.2.1 0 29) == (bits e.1 0 29 &&& bits e.2.1 0 29))) := by
  cases hx : f.xtd <;> simp [filterMatches, idSpace, hx]

theorem filterMatches_otherSpace (hs : bits e.2.2 2 2 ≠ idSpace f) : filterMatches e f = false := by
  rw [filterMatches_eq, beq_eq_false_iff_ne.2 hs, Bool.false_and]

theorem filterMatches_range (hs : bits e.2.2 2 2 = idSpace f) (hm : bits e.2.2 0 2 = 0) :
    filterMatches e f = true ↔ bits e.1 0 29 ≤ f.id ∧ f.id ≤ bits e.2.1 0 29 := by
  simp [filterMatches_eq, hs, hm]

theorem filterMatches_dual (hs : bits e.2.2 2 2 = idSpace f) (hm : bits e.2.2 0 2 = 1) :
    filterMatches e f = true ↔ f.id = bits e.1 0 29 ∨ f.id = bits e.2.1 0 29 := by
  simp [filterMatches_eq, hs, hm]

theorem filterMatches_mask (hs : bits e.2.2 2 2 = idSpace f) (hm : bits e.2.2 0 2 = 2) :
    filterMatches e f = true ↔ f.id &&& bits e.2.1 0 29 = bits e.1 0 29 &&& bits e.2.1 0 29 := by
  simp [filterMatches_eq, hs, hm]

theorem store_rejected (hr : f.remote = true ∨ (c.decide_ f).2 = 0) : h.store c f = { h with rejected := inc32 h.rejected } :=
  if_pos (by rwa [Bool.or_eq_true, decide_eq_true_iff])

end filters

/-! ## A FIFO of 64 records (16 R357) -/

section fifo

variable {keep lost : Bool} {q : List CanRec} {r : CanRec}

theorem fifoStore_room (hq : q.length < 64) : fifoStore keep lost q r = (q ++ [{ r with overrun := lost }], false, 0) := if_pos hq

theorem fifoStore_keepNewest (hq : 64 ≤ q.length) : fifoStore true lost q r = (q.drop 1 ++ [{ r with overrun := true }], false, 1) :=
  if_neg (by omega)

theorem fifoStore_keepOldest (hq : 64 ≤ q.length) : fifoStore false lost q r = (q, true, 1) := if_neg (by omega)

/-- A FIFO never holds more than its 64 records. -/
theorem fifoStore_length (hq : q.length ≤ 64) : (fifoStore keep lost q r).1.length ≤ 64 := by
  rcases hq.lt_or_eq with hlt | hfull
  · rw [fifoStore_room hlt, List.length_append, List.length_singleton]
    omega
  · cases keep
    · rw [fifoStore_keepOldest hfull.ge]
      exact hq
    · rw [fifoStore_keepNewest hfull.ge, List.length_append, List.length_drop, List.length_singleton]
      omega

end fifo

/-- Settles O11: the first element that holds decides, each kind of element by its own words, and a FIFO by its room and its mode. -/
theorem canFiltersDecideInOrder : Obligations.CanFiltersDecideInOrder := by
  unfold Obligations.CanFiltersDecideInOrder
  refine ⟨fun _ _ _ => decide_first, fun _ _ => decide_default, fun _ _ => filterMatches_otherSpace, fun _ _ => filterMatches_range,
    fun _ _ => filterMatches_dual, fun _ _ => filterMatches_mask, fun _ _ _ => store_rejected, fun keep lost q r =>
    ⟨fifoStore_room, fun hq hk => ?_, fun hq hk => ?_, fifoStore_length⟩⟩
  · rw [hk, fifoStore_keepNewest hq]
  · rw [hk, fifoStore_keepOldest hq]

/-! ## Reception, and the runtime's reads (16 R354, R357, R362, R363, R366) -/

section receive

variable {t n ch fifo after max stamp : Nat} {f : CanFrame} {s : State}

theorem recAfter_active (free : Nat) {x : Nat} (h : x ≤ 127) : recAfter free x = x - 1 := if_neg (by omega)

/-- From error-passive, a frame brings REC back to one of 119 to 127 (log 20). -/
theorem recAfter_passive (free : Nat) {x : Nat} (h : 127 < x) : 119 ≤ recAfter free x ∧ recAfter free x ≤ 127 := by
  rw [recAfter, if_pos h]
  omega

/-- A received frame is stored and counted, and REC follows. -/
def State.storeCan (n : Nat) (f : CanFrame) (s : State) : State :=
  (s.setCan n fun h => { (h.store (s.canInUse n) f) with
    rxFrames := inc32 h.rxFrames, rxErr := recAfter s.free h.rxErr, fc := fcState h.tec (recAfter s.free h.rxErr) }).useFree

theorem storeCan_keeps (n : Nat) (f : CanFrame) (s : State) : Keeps [.free, .can] s (s.storeCan n f) :=
  (useFree_keeps _).chain ((setCan_keeps ..).mono (by decide))

theorem canCh_ne {k : Nat} (u : State) (g : CanCh → CanCh) (h : k ≠ n) : (u.setCan n g).canCh k = u.canCh k := getD_setAt_ne _ _ _ _ _ h.symm

theorem exec_canFrameReceived_listens (hawake : (s.arrive t).awake = true) (hen : ((s.arrive t).conf.canCfg ch).enabled = true)
    (hfc : ((s.arrive t).canCh ch).fc ≠ 2) (hch : ch < 2) :
    exec (.canFrameReceived t ch f) s = .next (((s.arrive t).storeCan ch f).hearRef ch f) :=
  (exec_canFrameReceived ..).trans (happens_of (by simp [State.canListens, hawake, hen, hfc, hch]))

theorem hearRef_other (h : (s.conf.canCfg n).isRef f = false) : s.hearRef n f = s := if_pos (by simp [h])

theorem hearRef_twin (h : (s.conf.canCfg n).isRef f = true) (ho : s.pair.owner = false) :
    s.hearRef n f = s.setCan n fun h => { h with mark := some (s.refMark n f.sofNs) } := by
  rw [State.hearRef, if_neg (by simp [h]), if_neg (by simp [ho])]

/-- A foreign reference message within 60 s of the last record is only counted. -/
theorem hearRef_foreign_counted (h : (s.conf.canCfg n).isRef f = true) (ho : s.pair.owner = true)
    (hr : ∃ a, (s.canCh n).foreignAt = some a ∧ s.time.now < a + 15000000000) :
    s.hearRef n f = s.setCan n fun h => { h with foreignRef := inc32 h.foreignRef } := by
  obtain ⟨a, ha, hlate⟩ := hr
  have early : ¬a + secTicks 60 ≤ s.time.now := by simp only [secTicks]; omega
  rw [State.hearRef, if_neg (by simp [h]), if_pos ho, ha]
  simp [early]

theorem hearRef_foreign_recorded (h : (s.conf.canCfg n).isRef f = true) (ho : s.pair.owner = true)
    (hr : ∀ a, (s.canCh n).foreignAt = some a → a + 15000000000 ≤ s.time.now) :
    s.hearRef n f = (s.setCan n fun h => { h with foreignRef := inc32 h.foreignRef, foreignAt := some s.time.now }).record 0x0D03 [(1, n), (4, f.id)] := by
  rw [State.hearRef, if_neg (by simp [h]), if_pos ho]
  cases ha : (s.canCh n).foreignAt with
  | none => simp
  | some a => simp [hr a ha]

theorem readFifo_eq : s.readFifo n fifo after max = s.emit (if 2 ≤ n ∨ 2 ≤ fifo ∨ max = 0 ∨ 64 < max then .call stRange []
    else .call stOk (((((if fifo = 0 then (s.canCh n).fifo0 else (s.canCh n).fifo1).filter fun r =>
      decide (after < r.f.sofNs)).take max).flatMap CanRec.full).map BitVec.toNat)) := by
  simp only [State.readFifo, State.ret, Bool.or_eq_true, decide_eq_true_eq, or_assoc]
  split_ifs <;> rfl

theorem consumeFifo_eq : s.consumeFifo n fifo stamp = if 2 ≤ n ∨ 2 ≤ fifo then s.emit (.call stRange [])
    else (s.setCan n fun h => if fifo = 0 then { h with consumed0 := stamp } else { h with consumed1 := stamp }).emit (.call stOk []) := by
  simp only [State.consumeFifo, State.ret, Bool.or_eq_true, decide_eq_true_eq]

end receive

/-- Settles O12: a frame is stored and counted first, whatever it is; a reference message then also sets the mark or counts as foreign. -/
theorem canReceives : Obligations.CanReceives := by
  unfold Obligations.CanReceives
  refine ⟨fun t ch f s hawake hen hfc hch hno => ⟨recAfter (s.arrive t).free, fun _ => recAfter_active _, fun _ => recAfter_passive _, ?_⟩,
    fun t ch f s hawake hen hfc hch href => ⟨(s.arrive t).storeCan ch f, (storeCan_keeps ..).frame, fun _ => canCh_ne _ _, fun ho => ?_,
      fun ho hr => ?_, fun ho hr => ?_⟩,
    fun t ch fifo after max s hawake => (exec_canFifoRead ..).trans ((happens_of hawake).trans (congrArg _ readFifo_eq)),
    fun t ch fifo stamp s hawake => (exec_canFifoConsume ..).trans ((happens_of hawake).trans (congrArg _ consumeFifo_eq))⟩
  all_goals refine (exec_canFrameReceived_listens hawake hen hfc hch).trans (congrArg _ ?_)
  · exact hearRef_other (s := (s.arrive t).storeCan ch f) hno
  · exact hearRef_twin (s := (s.arrive t).storeCan ch f) href ho
  · exact hearRef_foreign_counted (s := (s.arrive t).storeCan ch f) href ho hr
  · exact hearRef_foreign_recorded (s := (s.arrive t).storeCan ch f) href ho hr

/-! ## A request and its buffer (16 R358–R360) -/

section request

variable {t n b : Nat} {p : PointRec} {s : State} {h : CanCh} {new : TxBuf}

/-- The BLOCK slot that carries a point's transmit record (16 R358). -/
def State.txSlot (p : PointRec) (s : State) : List Byte :=
  memReadBytes s.mem (poolBase + (s.carriedValue p.handle).toNat) (8 + s.conf.capacity p.handle)

/-- The sequence number of the slot. -/
def State.txSeq (p : PointRec) (s : State) : Nat := field (s.txSlot p) 4 4

/-- The frame that the slot spells. -/
def State.txFrame (p : PointRec) (s : State) : CanFrame := canFrameOf ((s.txSlot p).drop 8)

/-- The frame does not fit its point or the channel's format (16 R358). -/
def State.txBad (n : Nat) (p : PointRec) (s : State) : Bool :=
  decide (s.conf.capacity p.handle < 16 + dlcBytes (s.txFrame p).fdf (s.txFrame p).dlc) || ((s.txFrame p).fdf && !bit ((s.conf.canCfg n).word 1) 0) ||
    ((s.txFrame p).brs && !bit ((s.conf.canCfg n).word 1) 1)

theorem txBad_iff : s.txBad n p = true ↔ s.conf.capacity p.handle < 16 + dlcBytes (s.txFrame p).fdf (s.txFrame p).dlc ∨
    (s.txFrame p).fdf = true ∧ bit ((s.conf.canCfg n).word 1) 0 = false ∨ (s.txFrame p).brs = true ∧ bit ((s.conf.canCfg n).word 1) 1 = false := by
  simp [State.txBad, or_assoc]

theorem txBad_false (hc : 16 + dlcBytes (s.txFrame p).fdf (s.txFrame p).dlc ≤ s.conf.capacity p.handle)
    (hf : (s.txFrame p).fdf = true → bit ((s.conf.canCfg n).word 1) 0 = true) (hb : (s.txFrame p).brs = true → bit ((s.conf.canCfg n).word 1) 1 = true) :
    s.txBad n p = false := by
  rw [Bool.eq_false_iff, Ne, txBad_iff]
  rintro (h | ⟨h, h0⟩ | ⟨h, h1⟩)
  · omega
  · simp [hf h] at h0
  · simp [hb h] at h1

theorem exec_canTxRequest_due (ho : (s.arrive t).pair.owner = true) (hen : ((s.arrive t).conf.canCfg n).enabled = true)
    (hm : ((s.arrive t).canCh n).monitoring = false) (hr : (s.arrive t).boot.retiring = false)
    (hu : ((s.arrive t).conf.canCfg n).txUse b = 1 ∨ ((s.arrive t).conf.canCfg n).txUse b = 2) :
    exec (.canTxRequest t n b) s = .next ((s.arrive t).requestCan n b) :=
  (exec_canTxRequest ..).trans (happens_of (by simpa [ho, hen, hm, hr] using hu))

theorem requestCan_unbound (hp : s.conf.canOutput n b = none) : s.requestCan n b = s := by rw [State.requestCan, hp]

/-- A request on a buffer that is neither PENDING nor ACTIVE, on a channel that is not bus-off. -/
structure State.TxFree (n b : Nat) (s : State) : Prop where
  notPending : ((s.canCh n).tx.getD b TxBuf.reset).status ≠ 1
  notActive : ((s.canCh n).tx.getD b TxBuf.reset).status ≠ 2
  onBus : (s.canCh n).fc ≠ 2
  channel : n < s.can.length

theorem fc_request (hfc : h.fc ≠ 2) : (h.request b new).fc = h.fc := by
  rw [CanCh.request, if_neg hfc]
  split
  · rfl
  · exact (select_fields _).2.2.2.2.2.2.1

theorem request_busOff (hb : b < h.tx.length) (hfc : h.fc = 2) : (h.request b new).tx.getD b TxBuf.reset = { new with status := 7 } := by
  rw [CanCh.request, if_pos hfc]
  exact getD_setAt_self _ _ _ _ hb

/-- A request on the buffer that is being sent waits for its end. -/
theorem request_active (hb : b < h.tx.length) (hfc : h.fc ≠ 2) (ha : (h.tx.getD b TxBuf.reset).status = 2) :
    (h.request b new).txOverruns = inc32 h.txOverruns ∧ ((h.request b new).tx.getD b TxBuf.reset).after = new.content ∧
      ((h.request b new).tx.getD b TxBuf.reset).status = 2 := by
  rw [CanCh.request, if_neg hfc, if_pos ha]
  dsimp only
  rw [getD_setAt_self _ _ _ _ hb]
  exact ⟨rfl, rfl, ha⟩

theorem request_txOverruns (hfc : h.fc ≠ 2) (ha : (h.tx.getD b TxBuf.reset).status ≠ 2) :
    (h.request b new).txOverruns = if (h.tx.getD b TxBuf.reset).status = 1 then inc32 h.txOverruns else h.txOverruns := by
  rw [CanCh.request, if_neg hfc, if_neg ha]
  exact (select_fields _).2.2.2.2.2.2.2

/-- A buffer that asks again only for a new record, and whose record is the one that it sent last (16 R358). -/
def State.txRepeated (n b : Nat) (p : PointRec) (s : State) : Bool :=
  (s.conf.canCfg n).txUse b = 2 && ((s.canCh n).tx.getD b TxBuf.reset).lastSeq == some (s.txSeq p)

/-- The request that a point's slot makes. -/
def State.txRequest (p : PointRec) (s : State) : TxBuf :=
  { TxBuf.reset with content := some (s.txFrame p), lastSeq := some (s.txSeq p), value := s.carriedValue p.handle }

theorem requestCan_free (hp : s.conf.canOutput n b = some p) (hf : s.TxFree n b) : s.requestCan n b =
    if s.txRepeated n b p then s else if s.txBad n p then s.overrangeOutput p.handle else s.setCan n (CanCh.request b (s.txRequest p)) := by
  obtain ⟨hpending, hactive, hbus, hchannel⟩ := hf
  have hbus' : ((s.setCan n (CanCh.request b (s.txRequest p))).canCh n).fc ≠ 2 := by
    rw [canCh_self _ _ _ hchannel, fc_request hbus]
    exact hbus
  have hold : ¬((decide (((s.canCh n).tx.getD b TxBuf.reset).status = 1) || decide (((s.canCh n).tx.getD b TxBuf.reset).status = 2)) = true) := by
    simpa [-List.getD_eq_getElem?_getD] using ⟨hpending, hactive⟩
  unfold State.txRequest State.txSeq State.txFrame State.txSlot at hbus'
  unfold State.requestCan State.txRepeated State.txBad State.txRequest State.txSeq State.txFrame State.txSlot
  rw [hp]
  dsimp only
  rw [if_neg hold, if_neg hbus']

theorem requestCan_repeated (hp : s.conf.canOutput n b = some p) (hf : s.TxFree n b) (hu : (s.conf.canCfg n).txUse b = 2)
    (hq : ((s.canCh n).tx.getD b TxBuf.reset).lastSeq = some (s.txSeq p)) : s.requestCan n b = s := by
  rw [requestCan_free hp hf, State.txRepeated, hu, hq]
  simp

theorem txRepeated_false (h : (s.conf.canCfg n).txUse b = 1 ∨ ((s.canCh n).tx.getD b TxBuf.reset).lastSeq ≠ some (s.txSeq p)) :
    s.txRepeated n b p = false := by
  rcases h with h | h
  · simp [State.txRepeated, h]
  · rw [State.txRepeated, beq_eq_false_iff_ne.2 h, Bool.and_false]

theorem requestCan_bad (hp : s.conf.canOutput n b = some p) (hf : s.TxFree n b) (hr : s.txRepeated n b p = false) (hbad : s.txBad n p = true) :
    s.requestCan n b = s.overrangeOutput p.handle := by
  rw [requestCan_free hp hf, if_neg (by simp [hr]), if_pos hbad]

theorem requestCan_good (hp : s.conf.canOutput n b = some p) (hf : s.TxFree n b) (hr : s.txRepeated n b p = false) (hok : s.txBad n p = false) :
    s.requestCan n b = s.setCan n (CanCh.request b (s.txRequest p)) := by
  rw [requestCan_free hp hf, if_neg (by simp [hr]), if_neg (by simp [hok])]

end request

/-! ## The end of a transmission (16 R360, R362; 07 R174) -/

section transmitEnd

variable {t n b sof : Nat} {l : Option Nat} {o : CanTxOutcome} {s : State} {h : CanCh} {buf : TxBuf}

theorem exec_canTxEnd_sent (hawake : (s.arrive t).awake = true) (hb : (((s.arrive t).canCh n).tx.getD b TxBuf.reset).status = 2) :
    exec (.canTxEnd t n b o) s = .next ((s.arrive t).endCan n b o) := (exec_canTxEnd ..).trans (happens_of (by rw [hawake, hb]; rfl))

/-- The channel and the buffer after the outcome, before the point and the fault state follow. -/
def State.finishCan (n b : Nat) (o : CanTxOutcome) (s : State) : State :=
  (s.setCan n (CanCh.finish s.free ((s.conf.canCfg n).oneShot b) b o)).useFree

/-- The point, and then the record of a channel that is alone, follow the outcome. -/
def State.followedTx (n b : Nat) (o : CanTxOutcome) (s : State) : State :=
  (s.finishCan n b o).followTx n b o ((s.canCh n).tx.getD b TxBuf.reset)

/-- A channel that has just come to be alone is recorded. -/
def State.noteAlone (n : Nat) (wasAlone : Bool) (s : State) : State :=
  if (s.canCh n).alone && !wasAlone then s.record 0x0D02 [(1, n)] else s

theorem endCan_eq (n b : Nat) (o : CanTxOutcome) (s : State) : s.endCan n b o =
    ((((s.followedTx n b o).noteAlone n (s.canCh n).alone).confine n).setCan n CanCh.select) := rfl

theorem sameCh_setCan {g : CanCh → CanCh} (u : State) (hg : ∀ h, SameCh (g h) h) (k : Nat) : SameCh ((u.setCan n g).canCh k) (u.canCh k) := by
  by_cases hk : k = n
  · subst hk
    by_cases hl : k < u.can.length
    · rw [canCh_self _ _ _ hl]
      exact hg _
    · refine .of_eq ?_
      unfold State.canCh State.setCan
      rw [List.getD_eq_default _ _ (by simpa using Nat.le_of_not_lt hl), List.getD_eq_default _ _ (Nat.le_of_not_lt hl)]
  · exact .of_eq (getD_setAt_ne _ _ _ _ _ (Ne.symm hk))

theorem sameCh_can {u v : State} (h : v.can = u.can) (k : Nat) : SameCh (v.canCh k) (u.canCh k) := .of_eq (by rw [State.canCh, h]; rfl)

theorem noteAlone_keeps (n : Nat) (w : Bool) (s : State) : Keeps [.cache, .log] s (s.noteAlone n w) :=
  Keeps.ite (record_keeps ..) (Keeps.refl _)

/-- The error counters and the counts of a channel do not depend on what follows its point, and on the fault state. -/
theorem followTx_sameCh (n b : Nat) (o : CanTxOutcome) (buf : TxBuf) (s : State) (k : Nat) : SameCh ((s.followTx n b o buf).canCh k) (s.canCh k) := by
  unfold State.followTx
  split
  · dsimp only
    split
    · refine (sameCh_setCan _ (fun _ => ?_) k).trans (sameCh_can rfl k)
      exact ⟨rfl, rfl, rfl, rfl, rfl, rfl⟩
    · refine sameCh_can ?_ k
      split
      · rfl
      · split
        · exact (ackOutput_keeps ..).frame .can (by decide)
        · rfl
  · refine sameCh_can ?_ k
    split
    · rfl
    · exact (canFail_keeps ..).frame .can (by decide)

theorem confine_sameCh (n : Nat) (s : State) (k : Nat) : SameCh ((s.confine n).canCh k) (s.canCh k) := by
  unfold State.confine
  dsimp only
  split
  · refine (sameCh_can ((record_keeps ..).frame .can (by decide)) k).trans (sameCh_setCan _ (fun _ => ?_) k)
    exact ⟨rfl, rfl, rfl, rfl, rfl, rfl⟩
  · split
    · exact .of_eq rfl
    · refine sameCh_setCan _ (fun _ => ?_) k
      exact ⟨rfl, rfl, rfl, rfl, rfl, rfl⟩

theorem endCan_sameCh (n b : Nat) (o : CanTxOutcome) (hn : n < s.can.length) :
    SameCh ((s.endCan n b o).canCh n) (CanCh.finish s.free ((s.conf.canCfg n).oneShot b) b o (s.canCh n)) := by
  have hfinish : (s.finishCan n b o).canCh n = CanCh.finish s.free ((s.conf.canCfg n).oneShot b) b o (s.canCh n) := canCh_self _ _ _ hn
  rw [endCan_eq, ← hfinish]
  exact (sameCh_setCan _ sameCh_select n).trans ((confine_sameCh n _ n).trans
    ((sameCh_can ((noteAlone_keeps ..).frame .can (by decide)) n).trans (followTx_sameCh n b o _ _ n)))

theorem endCan_cnt (n b : Nat) (o : CanTxOutcome) (s : State) : (s.endCan n b o).cnt = (s.followedTx n b o).cnt :=
  (((setCan_keeps n CanCh.select _).mono (ps := [.cache, .can, .log]) (by decide)).frame .cnt (by decide)).trans
    (((confine_keeps n _).frame .cnt (by decide)).trans ((noteAlone_keeps ..).frame .cnt (by decide)))

/-- A success proves the channel (07 R174). -/
theorem followedTx_success : (s.followedTx n b (.success sof l)).cnt = { s.cnt with unproven := setAt s.cnt.unproven (24 + n) fun _ => 0 } := by
  unfold State.followedTx State.followTx
  dsimp only
  split
  · rfl
  · split
    · rfl
    · split
      · exact (ackOutput_keeps ..).frame .cnt (by decide)
      · rfl

theorem followedTx_lostArbitration : (s.followedTx n b .lostArbitration).cnt = s.cnt := by
  unfold State.followedTx State.followTx
  dsimp only
  split
  · rfl
  · exact (canFail_keeps ..).frame .cnt (by decide)

end transmitEnd

/-! ## Cancellation (16 R361) -/

section cancel

variable {t n b : Nat} {s : State}

/-- A buffer that no runtime call may cancel: one that does not exist, is unused, or carries the reference message (16 R361). -/
def State.cancelBarred (n b : Nat) (s : State) : Prop :=
  n ≥ 2 ∨ b ≥ 32 ∨ (s.conf.canCfg n).txUse b = 3 ∨ ((s.conf.canCfg n).tmEnable = true ∧ (s.conf.canCfg n).tmBuffer = b)

theorem cancelCan_barred (h : s.cancelBarred n b) : s.cancelCan n b = s.emit (.call stRange []) := by
  refine if_pos ?_
  simpa [State.cancelBarred, or_assoc] using h

theorem cancelCan_allowed (h : ¬s.cancelBarred n b) : s.cancelCan n b =
    if ((s.canCh n).tx.getD b TxBuf.reset).status = 1 then
      (s.setCan n fun h => { h with tx := setAt h.tx b fun x => { x with status := 5 } }).emit (.call stOk [])
    else if ((s.canCh n).tx.getD b TxBuf.reset).status = 2 then
      (s.setCan n fun h => { h with cancelLate := inc32 h.cancelLate, tx := setAt h.tx b fun x => { x with cancelled := true } }).emit (.call stTooLate [])
    else s.emit (.call stOk []) := by
  refine if_neg ?_
  simpa [State.cancelBarred, or_assoc] using h

end cancel

/-! ## Reference messages (16 R365, R366) -/

section reference

variable {t n : Nat} {s : State}

theorem refData_head (level2 : Bool) (cycle : Nat) (mark : Option (Nat × Nat)) : (refData level2 cycle mark).head? = some (BitVec.ofNat 8 (cycle % 64)) := by
  cases level2 <;> rfl

theorem refData_length (level2 : Bool) (cycle : Nat) (mark : Option (Nat × Nat)) : (refData level2 cycle mark).length = if level2 then 8 else 1 := by
  cases level2
  · rfl
  · cases mark with
    | none => rfl
    | some m =>
      show (leBytes 1 (cycle % 64) ++ if m.1 + 1 = cycle then _ else _).length = _
      split <;> simp [leBytes_length]

theorem exec_referenceMessage_due (ho : (s.arrive t).pair.owner = true) (hen : ((s.arrive t).conf.canCfg n).enabled = true)
    (htm : ((s.arrive t).conf.canCfg n).tmEnable = true) (hm : ((s.arrive t).canCh n).monitoring = false) (hv : (s.arrive t).tb0Valid = true)
    (hi : ((s.arrive t).canCh n).integrating = false) (hr : (s.arrive t).boot.retiring = false) :
    exec (.referenceMessage t n) s = .next ((s.arrive t).requestRef n) :=
  (exec_referenceMessage ..).trans (happens_of (by simp [State.tmActive, ho, hen, htm, hm, hv, hi, hr]))

theorem refIsLate_of (hr : ((s.canCh n).tx.getD (s.conf.canCfg n).tmBuffer TxBuf.reset).isRef = true)
    (hs : ((s.canCh n).tx.getD (s.conf.canCfg n).tmBuffer TxBuf.reset).status = 1)
    (hl : ((s.canCh n).tx.getD (s.conf.canCfg n).tmBuffer TxBuf.reset).refAt + (s.conf.canCfg n).basicNs / 2 ≤ s.tb0) : s.refIsLate n = true := by
  rw [State.refIsLate, hr, hs, decide_eq_true hl]
  rfl

end reference

/-- Settles O13: a request passes the checks of its point's slot before it reaches its buffer, and the end of a transmission changes the
counters of its channel in one place, which neither the point nor the fault state changes again. -/
theorem canTransmits : Obligations.CanTransmits := by
  unfold Obligations.CanTransmits
  refine ⟨fun t ch buf s ho hen hm hr hu => ?request, fun h b new hb => ?buffer, fun t ch buf o s hawake hactive hch => ?ended,
    fun t ch buf s hawake => ?cancel, fun t ch s ho hen htm hm hv hi hr => ?reference, fun t ch s hr hs hl => ?late⟩
  case request =>
    refine ⟨_, exec_canTxRequest_due ho hen hm hr hu, (requestCan_keeps ..).frame, requestCan_unbound, ?_⟩
    rintro p f seq hp hpending hactive hfc hch rfl rfl
    have hfree : (s.arrive t).TxFree ch buf := ⟨hpending, hactive, hfc, hch⟩
    exact ⟨requestCan_repeated hp hfree, fun hnew => ⟨fun hc hf hb => requestCan_good hp hfree (txRepeated_false hnew) (txBad_false hc hf hb),
      fun hbad => requestCan_bad hp hfree (txRepeated_false hnew) (txBad_iff.2 hbad)⟩⟩
  case buffer =>
    refine ⟨request_busOff hb, request_active hb, fun hfc h1 => ?_, fun hfc h1 h2 => ?_⟩
    · rw [request_txOverruns hfc (by omega), if_pos h1]
    · rw [request_txOverruns hfc h2, if_neg h1]
  case ended =>
    obtain ⟨htec, herrors, hackRun, halone, htxFrames, hlastError⟩ := endCan_sameCh ch buf o hch
    refine ⟨_, exec_canTxEnd_sent hawake hactive, (endCan_keeps ..).frame, ?_, ?_, ?_, ?_⟩
    · rintro sof l rfl
      exact ⟨htec, hackRun, halone, htxFrames, (endCan_cnt ..).trans followedTx_success⟩
    · rintro rfl
      exact ⟨htec, herrors, (endCan_cnt ..).trans followedTx_lostArbitration⟩
    · rintro rfl
      refine ⟨htec, hackRun, ?_⟩
      rw [halone]
      simp [CanCh.finish]
    · rintro code dp rfl
      exact ⟨htec, herrors, hlastError⟩
  case cancel =>
    have he : exec (.canCancel t ch buf) s = .next ((s.arrive t).cancelCan ch buf) := (exec_canCancel ..).trans (happens_of hawake)
    refine ⟨fun h => he.trans (congrArg _ (cancelCan_barred h)), fun hch hbuf huse htm => ?_⟩
    have hallowed : ¬(s.arrive t).cancelBarred ch buf := by
      rintro (h | h | h | h)
      · omega
      · omega
      · exact huse h
      · exact htm h
    rw [he, cancelCan_allowed hallowed]
    refine ⟨fun h => ?_, fun h => ?_, fun h1 h2 => ?_⟩
    · rw [if_pos h]
    · rw [if_neg (by omega), if_pos h]
    · rw [if_neg h1, if_neg h2]
  case reference =>
    exact ⟨_, refData_head .., refData_length .., exec_referenceMessage_due ho hen htm hm hv hi hr⟩
  case late => exact (exec_refLate ..).trans (happens_of (refIsLate_of hr hs hl))

end Sys2Proof.Machine

/-! Proof of the statement about HART: requests, transactions and polls (O20). -/

namespace Sys2Proof.Machine

/-! ## hart_put and hart_get (15 R346) -/

section calls

variable {n addr cmd id rc ds : Nat} {data : List Byte} {s : State}

/-- A device that the channel declares: the one of a point-to-point channel, or one of the polling addresses of a multi-drop channel. -/
def State.hartAddressed (n addr : Nat) (s : State) : Prop :=
  s.hartMode n = 1 ∧ addr = 0 ∨ s.hartMode n = 2 ∧ 1 ≤ addr ∧ addr ≤ s.hartDevices n

/-- A request of hart_put, as it stands in its modem's queue. -/
def State.hartRequest (n addr cmd : Nat) (data : List Byte) (s : State) : HartReq :=
  { id := s.ua.nextId, ch := n, addr := addr, cmd := cmd, data := data, tries := 0, internal := false }

theorem hartPut_eq (n addr cmd : Nat) (data : List Byte) (s : State) : s.hartPut n addr cmd data =
    if 8 ≤ n || !(s.hartMode n == 1 && addr == 0 || s.hartMode n == 2 && decide (1 ≤ addr) && decide (addr ≤ s.hartDevices n)) || 250 < data.length then
      s.emit (.call stRange [])
    else if 32 ≤ (s.modem (n / 4)).queue.length then s.emit (.call stCapacity [])
    else ((s.upUa fun u => { u with nextId := u.nextId + 1 }).queueHart (s.hartRequest n addr cmd data)).emit (.call stOk [s.ua.nextId]) := rfl

theorem hartPut_refused (h : 8 ≤ n ∨ 250 < data.length ∨ ¬s.hartAddressed n addr) : s.hartPut n addr cmd data = s.emit (.call stRange []) := by
  rw [hartPut_eq, if_pos]
  simp only [Bool.or_eq_true, Bool.not_eq_true', Bool.or_eq_false_iff, Bool.and_eq_false_iff, decide_eq_true_eq, decide_eq_false_iff_not, beq_eq_false_iff_ne]
  unfold State.hartAddressed at h
  omega

theorem hartPut_passes (hn : n < 8) (hd : data.length ≤ 250) (ha : s.hartAddressed n addr) : s.hartPut n addr cmd data =
    if 32 ≤ (s.modem (n / 4)).queue.length then s.emit (.call stCapacity [])
    else ((s.upUa fun u => { u with nextId := u.nextId + 1 }).queueHart (s.hartRequest n addr cmd data)).emit (.call stOk [s.ua.nextId]) := by
  rw [hartPut_eq, if_neg]
  simp only [Bool.or_eq_true, Bool.not_eq_true', Bool.or_eq_false_iff, Bool.and_eq_false_iff, decide_eq_true_eq, decide_eq_false_iff_not, beq_eq_false_iff_ne]
  unfold State.hartAddressed at ha
  omega

/-- The request of an id still waits in a queue. -/
def State.hartWaits (id : Nat) (s : State) : Bool := s.ua.modems.any fun d => d.queue.any fun q => q.id == id && !q.internal

theorem hartGet_waits (h : s.hartWaits id = true) : s.hartGet id = s.emit (.call stBusy []) := if_pos h

theorem hartGet_done (h : s.hartWaits id = false) : s.hartGet id = match s.ua.results.find? fun r => r.1 == id with
    | some r => if r.2.1 = stOk then s.emit (.call stOk (r.2.2.1 :: r.2.2.2.1 :: r.2.2.2.2.map BitVec.toNat)) else s.emit (.call r.2.1 [])
    | none => s.emit (.call stUnknown []) := by
  refine (if_neg (by rw [← State.hartWaits, h]; decide)).trans ?_
  cases s.ua.results.find? fun r => r.1 == id <;> rfl

theorem hartWaits_false (h : ∀ d ∈ s.ua.modems, ∀ q ∈ d.queue, q.id = id → q.internal = true) : s.hartWaits id = false := by
  simpa [State.hartWaits] using h

end calls

/-! ## The transactions of a modem (15 R345) -/

section transactions

variable {t m rc ds status : Nat} {data : List Byte} {q : HartReq} {qs : List HartReq} {e : HartEvent} {s : State}

theorem exec_hartReply_powered (hawake : (s.arrive t).awake = true) (ha : (s.arrive t).ua.afsLost = false) (hm : m < 2) :
    exec (.hartReply t m e) s = .next ((s.arrive t).hartEvent m e) := (exec_hartReply ..).trans (happens_of (by simp [hawake, ha, hm]))

/-- The front transaction leaves its queue with its result, before the modem serves the next. -/
def State.closeHart (m status rc ds : Nat) (data : List Byte) (q : HartReq) (s : State) : State :=
  (s.setModem m fun d =>
    { d with queue := d.queue.drop 1,
             answering := if status = stOk then (q.ch, q.addr) :: d.answering.filter fun a => a != (q.ch, q.addr)
                          else if q.internal then d.answering.filter fun a => a != (q.ch, q.addr) else d.answering }).upUa fun u =>
    { u with hartTransactions := inc32 u.hartTransactions, hartFailures := if status = stOk then u.hartFailures else inc32 u.hartFailures,
             results := if q.internal then u.results else (q.id, status, rc, ds, data) :: u.results }

/-- A reply without HART's configuration-changed bit, and a failure, bring no further command. -/
theorem endHart_front (hq : (s.modem m).queue = q :: qs) (h : status ≠ stOk ∨ bit ds 6 = false) :
    s.endHart m status rc ds data = (s.closeHart m status rc ds data q).serveHart m := by
  have hlast : (decide (status = stOk) && bit ds 6 && q.cmd != 0) = false := by
    rcases h with h | h <;> simp [h]
  rw [State.endHart, hq]
  exact if_neg (by simp [hlast])

theorem closeHart_f (hl : m < s.ua.modems.length) (hq : (s.modem m).queue = q :: qs) (hi : q.internal = false) :
    ((s.closeHart m status rc ds data q).modem m).queue = qs ∧ m < (s.closeHart m status rc ds data q).ua.modems.length ∧
    (s.closeHart m status rc ds data q).ua.results = (q.id, status, rc, ds, data) :: s.ua.results ∧
    (s.closeHart m status rc ds data q).ua.hartTransactions = inc32 s.ua.hartTransactions ∧
    (s.closeHart m status rc ds data q).ua.hartFailures = if status = stOk then s.ua.hartFailures else inc32 s.ua.hartFailures := by
  refine ⟨(congrArg Modem.queue (modem_self s m _ hl)).trans ?_, (setAt_length ..).symm ▸ hl, ?_, rfl, rfl⟩
  · show (s.modem m).queue.drop 1 = qs
    rw [hq]
    rfl
  · show (if q.internal = true then _ else _) = _
    rw [if_neg (by simp [hi])]
    rfl

/-- The end of the front transaction that a runtime asked for. -/
theorem endHart_f (hl : m < s.ua.modems.length) (hq : (s.modem m).queue = q :: qs) (hi : q.internal = false) (h : status ≠ stOk ∨ bit ds 6 = false) :
    ((s.endHart m status rc ds data).modem m).queue = qs ∧ (s.endHart m status rc ds data).ua.results = (q.id, status, rc, ds, data) :: s.ua.results ∧
    (s.endHart m status rc ds data).ua.hartTransactions = inc32 s.ua.hartTransactions ∧
    (s.endHart m status rc ds data).ua.hartFailures = if status = stOk then s.ua.hartFailures else inc32 s.ua.hartFailures := by
  obtain ⟨hqueue, hlen, hresults, htrans, hfail⟩ := closeHart_f (status := status) (rc := rc) (ds := ds) (data := data) hl hq hi
  obtain ⟨squeue, -, sresults, strans, sfail, -⟩ := serveHart_f m (s.closeHart m status rc ds data q) hlen
  rw [endHart_front hq h]
  exact ⟨squeue.trans hqueue, sresults.trans hresults, strans.trans htrans, sfail.trans hfail⟩

/-- One more try of the front transaction. -/
def State.retryHart (m : Nat) (q : HartReq) (s : State) : State :=
  s.setModem m fun d => { d with queue := { q with tries := q.tries + 1 } :: d.queue.drop 1 }

theorem noReply_retries (hq : (s.modem m).queue = q :: qs) (ht : q.tries < 2) : s.hartEvent m .noReply = (s.retryHart m q).serveHart m := by
  rw [State.hartEvent, hq]
  exact if_pos ht

theorem noReply_fails (hq : (s.modem m).queue = q :: qs) (ht : 2 ≤ q.tries) : s.hartEvent m .noReply = s.endHart m stTimeout 0 0 [] := by
  rw [State.hartEvent, hq]
  exact if_neg (by omega)

theorem retryHart_f (hl : m < s.ua.modems.length) (hq : (s.modem m).queue = q :: qs) :
    (((s.retryHart m q).serveHart m).modem m).queue = { q with tries := q.tries + 1 } :: qs ∧
    ((s.retryHart m q).serveHart m).ua.results = s.ua.results ∧ ((s.retryHart m q).serveHart m).ua.hartTransactions = s.ua.hartTransactions := by
  obtain ⟨hqueue, -, hresults, htrans, -⟩ := serveHart_f m (s.retryHart m q) ((setAt_length ..).symm ▸ hl)
  refine ⟨hqueue.trans ((congrArg Modem.queue (modem_self s m _ hl)).trans ?_), hresults, htrans⟩
  show _ :: (s.modem m).queue.drop 1 = _
  rw [hq]
  rfl

/-- The front end's own commands stand behind what waited. -/
theorem pollHart_queue (cmd : Nat) (hl : m < s.ua.modems.length) : ((s.pollHart cmd m).modem m).queue = (s.modem m).queue ++
    (s.declaredDevices m).map fun d => { id := 0, ch := d.1, addr := d.2, cmd := cmd, data := [], tries := 0, internal := true } := by
  have hfold (l : List (Nat × Nat)) (hch : ∀ d ∈ l, d.1 / 4 = m) : ∀ u : State, m < u.ua.modems.length →
      ((l.foldl (fun s d => s.queueHart { id := 0, ch := d.1, addr := d.2, cmd := cmd, data := [], tries := 0, internal := true }) u).modem m).queue =
        (u.modem m).queue ++ l.map fun d => { id := 0, ch := d.1, addr := d.2, cmd := cmd, data := [], tries := 0, internal := true } := by
    induction l with
    | nil => exact fun u _ => (List.append_nil _).symm
    | cons d l ih =>
      intro u hu
      have hd : d.1 / 4 = m := hch d List.mem_cons_self
      obtain ⟨hqueue, hlen, -⟩ := queueHart_f { id := 0, ch := d.1, addr := d.2, cmd := cmd, data := [], tries := 0, internal := true } u
        (show d.1 / 4 < _ by rwa [hd])
      simp only [hd] at hqueue
      rw [List.foldl_cons, ih (fun x hx => hch x (List.mem_cons_of_mem _ hx)) _ (hlen ▸ hu), hqueue, List.map_cons, List.append_assoc]
      rfl
  refine hfold _ (fun d hd => ?_) s hl
  obtain ⟨hlo, hhi, -⟩ := (declared_mem s m d.1 d.2).1 hd
  omega

end transactions

/-- Settles O20: the front of a modem's queue is the transaction that is served; its end, and only that, brings the next to the front. -/
theorem hartServesRequestsInOrder : Obligations.HartServesRequestsInOrder := by
  unfold Obligations.HartServesRequestsInOrder
  refine ⟨fun t n addr cmd data s hawake => ?put, fun t id s hawake => ?get, fun t m s hawake ha hm => ?reply, fun t m s hd ha hm hl => ?poll, declared_mem⟩
  case put =>
    have he : exec (.hartPut t n addr cmd data) s = .next ((s.arrive t).hartPut n addr cmd data) := (exec_hartPut ..).trans (happens_of hawake)
    refine ⟨fun h => he.trans (congrArg _ (hartPut_refused ?_)), fun hn hdata haddr => ⟨fun hfull => ?_, fun hroom hl => ?_⟩⟩
    · unfold State.hartAddressed
      omega
    · rw [he, hartPut_passes hn hdata haddr, if_pos hfull]
    · have hput := hartPut_passes (cmd := cmd) hn hdata haddr
      rw [if_neg (by omega)] at hput
      obtain ⟨hqueue, -, hid⟩ := queueHart_f ((s.arrive t).hartRequest n addr cmd data) ((s.arrive t).upUa fun u => { u with nextId := u.nextId + 1 })
        (show n / 4 < (s.arrive t).ua.modems.length by omega)
      exact ⟨_, he, (hartPut_keeps ..).frame, by rw [hput]; exact hid, by rw [hput]; exact List.getLast?_concat .., by rw [hput]; exact hqueue⟩
  case get =>
    have he : exec (.hartGet t id) s = .next ((s.arrive t).hartGet id) := (exec_hartGet ..).trans (happens_of hawake)
    refine ⟨fun h => he.trans (congrArg _ (hartGet_waits ?_)), fun h => ?_⟩
    · simpa [State.hartWaits] using h
    · rw [he, hartGet_done (hartWaits_false h)]
      refine ⟨fun rc ds data hr => ?_, fun rc ds data hr => ?_, fun hr => ?_⟩ <;> rw [hr] <;> rfl
  case reply =>
    refine ⟨exec_hartReply_powered hawake ha hm, fun hl q qs hq hi => ⟨fun rc ds data hbit => ?_, fun htries => ?_, fun htries => ?_⟩⟩
    · obtain ⟨hqueue, hresults, htrans, hfail⟩ := endHart_f (status := stOk) (rc := rc) (data := data) (by omega) hq hi (.inr hbit)
      exact ⟨_, exec_hartReply_powered hawake ha hm, (hartEvent_keeps ..).frame, hqueue, hresults, htrans, hfail⟩
    · have he := exec_hartReply_powered (e := .noReply) hawake ha hm
      rw [noReply_retries hq htries] at he
      exact ⟨_, he, noReply_retries hq htries ▸ (hartEvent_keeps ..).frame, retryHart_f (by omega) hq⟩
    · obtain ⟨hqueue, hresults, htrans, hfail⟩ := endHart_f (status := stTimeout) (rc := 0) (ds := 0) (data := []) (by omega) hq hi (.inl (by decide))
      have he := exec_hartReply_powered (e := .noReply) hawake ha hm
      rw [noReply_fails hq htries] at he
      exact ⟨_, he, noReply_fails hq htries ▸ (hartEvent_keeps ..).frame, hqueue, hresults, htrans, hfail⟩
  case poll =>
    exact ⟨_, (exec_hartPoll ..).trans (happens_of (by simp [hd, ha, hm])), (pollHart_keeps ..).frame, pollHart_queue 48 (by omega)⟩

end Sys2Proof.Machine

/-! Proofs of the statements about the gates and the debug link (O46, O48). -/

namespace Sys2Proof.Machine

/-! ## Which rule decides (12 R280, R281, R292) -/

section decides

variable {g addr master r : Nat} {priv write : Bool} {s : State}

theorem gateRefuses_ruled (hr : r < ruleCount g) (hl : ∀ i, i < r → ruleMatches (s.gate.rule g i) addr master = false)
    (hm : ruleMatches (s.gate.rule g r) addr master = true) : s.gateRefuses g addr master priv write =
      if ruleSecure (s.gate.rule g r) && !secureAttr master then some (2, r)
      else if rulePermits (s.gate.rule g r) priv write then none else some (1, r) := by
  rw [State.gateRefuses, find_first hr hl hm]

theorem gateRefuses_default (hl : ∀ i, i < ruleCount g → ruleMatches (s.gate.rule g i) addr master = false) : s.gateRefuses g addr master priv write =
    if !priv then some (0, 0xFF) else if s.inSecure g addr then some (if secureAttr master then 0 else 2, 0xFF) else none := by
  rw [State.gateRefuses, find_none hl]

theorem inSecure_iff : s.inSecure g addr = true ↔
    g = 10 ∨ ∃ r rule, (g, r, rule) ∈ s.gate.active ∧ ruleSecure rule = true ∧ ruleHolds rule addr = true := by
  simp only [State.inSecure, Bool.or_eq_true, beq_iff_eq, List.any_eq_true, Bool.and_eq_true, Prod.exists]
  refine or_congr_right ⟨?_, ?_⟩
  · rintro ⟨k, r, rule, hmem, ⟨rfl, hs⟩, hh⟩
    exact ⟨r, rule, hmem, hs, hh⟩
  · rintro ⟨r, rule, hmem, hs, hh⟩
    exact ⟨g, r, rule, hmem, ⟨rfl, hs⟩, hh⟩

/-- The rule that the steward installs over the secure partition (Table 12.3). -/
def secureRule : List Nat := ruleWords 0x0C200000 0x0C2FFFFF allMasters permSecure

theorem secureRule_installed (h : s.gate.active = s.rulesOf) : s.gate.rule 10 0 = secureRule := by
  rw [GateSt.rule, h]
  rfl

theorem secureRule_secure : ruleSecure secureRule = true := by decide

theorem allMasters_testBit (h : master < 19) : allMasters.testBit master = true := by
  unfold allMasters
  interval_cases master <;> rfl

theorem secureRule_matches (hlo : 0x0C200000 ≤ addr) (hhi : addr ≤ 0x0C2FFFFF) (hm : master < 19) : ruleMatches secureRule addr master = true :=
  (rule_words _ _ _ _ _ _ (by decide) (by decide) (by decide) (by decide) (by decide)).2 ⟨hlo, hhi, allMasters_testBit hm⟩

end decides

/-- Settles O46: the first rule that matches decides, and the default map where none does; the steward's rule over the secure partition
stands first in its gate. -/
theorem gatesDecideByTheFirstRule : Obligations.GatesDecideByTheFirstRule := by
  unfold Obligations.GatesDecideByTheFirstRule
  refine ⟨fun s g addr master r priv write hr hl hm => ?ruled, fun s g addr master priv write hl => ?default, fun s g addr => inSecure_iff,
    fun lo hi masters perm addr master h1 h2 h3 h4 h5 => rule_words _ _ _ _ _ _ h1 h2 h4 h3 h5, fun s addr master priv write hact hlo hhi hm h8 => ?secure⟩
  case ruled =>
    rw [gateRefuses_ruled hr hl hm]
    cases ruleSecure (s.gate.rule g r) <;> cases rulePermits (s.gate.rule g r) priv write <;> by_cases h8 : master = 8 <;> simp [secureAttr, h8]
  case default =>
    rw [gateRefuses_default hl]
    cases priv <;> cases hsec : s.inSecure g addr <;> simp
  case secure =>
    rw [gateRefuses_ruled (r := 0) (by decide) (fun i hi => absurd hi (Nat.not_lt_zero i))]
    · rw [secureRule_installed hact, secureRule_secure]
      simp [secureAttr, h8]
    · rw [secureRule_installed hact]
      exact secureRule_matches hlo hhi hm

/-! ## Words over the debug link (12 R290) -/

section link

variable {t addr n : Nat} {op : AccessOp} {crcOk : Bool} {x : Word} {ws : List (Nat × Word)} {words : List Word} {got ds : List Word} {s u : State} {d : Nat}

theorem debugWords_done (h : s.access (debugAccess op addr x) = (u, .done d)) :
    s.debugWords op ((addr, x) :: ws) got = u.debugWords op ws (got ++ [BitVec.ofNat 32 d]) := by
  rw [State.debugWords, h]

theorem debugWords_busError (h : s.access (debugAccess op addr x) = (u, .busError)) : s.debugWords op ((addr, x) :: ws) got = (u, .busError, []) := by
  rw [State.debugWords, h]

/-- A request that the link takes: it is up, and the request has 1 to 256 words. -/
def State.debugTakes (ws : List (Nat × Word)) (s : State) : Prop := s.debugLink = true ∧ ws ≠ [] ∧ ws.length ≤ 256

theorem debugOp_ignored (h : ¬s.debugTakes ws) : s.debugOp op ws crcOk = .next s := by
  refine if_pos ?_
  simpa [State.debugTakes, or_assoc, imp_iff_not_or] using h

theorem debugOp_taken (h : s.debugTakes ws) : s.debugOp op ws crcOk =
    if !crcOk then .next (s.emit (.debug 3 []))
    else match s.debugWords op ws [] with
      | (s, .done _, got) => .next (s.emit (.debug 0 (if op == .read then got else [])))
      | (s, .busError, _) => .next (s.emit (.debug 1 []))
      | (_, .device addr, _) => .refused (.deviceWindow addr) := by
  refine (if_neg ?_).trans rfl
  simpa [State.debugTakes, and_assoc] using h

theorem debugOp_badCrc (h : s.debugTakes ws) : s.debugOp op ws false = .next (s.emit (.debug 3 [])) := by
  rw [debugOp_taken h]
  rfl

theorem debugOp_done (h : s.debugTakes ws) (hw : s.debugWords op ws [] = (u, .done d, ds)) :
    s.debugOp op ws true = .next (u.emit (.debug 0 (if op == .read then ds else []))) := by
  rw [debugOp_taken h, hw]
  rfl

theorem debugOp_busError (h : s.debugTakes ws) (hw : s.debugWords op ws [] = (u, .busError, ds)) :
    s.debugOp op ws true = .next (u.emit (.debug 1 [])) := by
  rw [debugOp_taken h, hw]
  rfl

/-- The words that a read of `n` words names. -/
def readWords (addr n : Nat) : List (Nat × Word) := (List.range n).map fun i => (addr + 4 * i, 0#32)

/-- The words that a write names. -/
def writeWords (addr : Nat) (words : List Word) : List (Nat × Word) := mapFrom (fun i p => (addr + 4 * i, p.2)) 0 (words.map fun w => (0, w))

theorem writeWords_length (addr : Nat) (words : List Word) : (writeWords addr words).length = words.length := by
  rw [writeWords, mapFrom_len, List.length_map]

theorem takes_readWords (hl : s.debugLink = true) (h1 : 1 ≤ n) (h256 : n ≤ 256) : s.debugTakes (readWords addr n) := by
  refine ⟨hl, fun h => ?_, by simpa [readWords] using h256⟩
  have := congrArg List.length h
  simp [readWords] at this
  omega

theorem takes_writeWords (hl : s.debugLink = true) (h1 : words ≠ []) (h256 : words.length ≤ 256) : s.debugTakes (writeWords addr words) := by
  refine ⟨hl, fun h => ?_, by rwa [writeWords_length]⟩
  have := congrArg List.length h
  rw [writeWords_length] at this
  exact h1 (List.length_eq_zero_iff.1 this)

theorem exec_debugReadWords_eq (h : n ≤ 256) (s : State) : exec (.debugReadWords t addr n crcOk) s = (s.arrive t).debugOp .read (readWords addr n) crcOk := by
  rw [exec_debugReadWords, execDebugReadWords, min_eq_left (by omega)]
  rfl

/-- A count beyond 256 stays beyond it in the model's list of words. -/
theorem debugReadWords_ignored (h : n = 0 ∨ 256 < n) : exec (.debugReadWords t addr n crcOk) s = .next (s.arrive t) := by
  rw [exec_debugReadWords, execDebugReadWords]
  refine debugOp_ignored ?_
  rintro ⟨-, hne, hlen⟩
  rcases h with rfl | h
  · exact hne rfl
  · rw [min_eq_right (by omega), List.length_map, List.length_range] at hlen
    omega

theorem exec_debugWriteWords_eq (words : List Word) (s : State) :
    exec (.debugWriteWords t addr words crcOk) s = (s.arrive t).debugOp .write (writeWords addr words) crcOk := exec_debugWriteWords ..

theorem debugPair_closed (n : Nat) (halt : Bool) (h : s.gate.debugOpen = false) : s.debugPair n halt true = s.emit (.debug 2 []) := by
  simp [State.debugPair, h]

theorem debugPair_open (n : Nat) (halt : Bool) (h : s.gate.debugOpen = true) :
    s.debugPair n halt true = (s.setPair n fun c => { c with dbgHalted := halt }).emit (.debug 0 []) := by
  simp [State.debugPair, h]

end link

/-- Settles O48: a read and a write are one operation on a list of words, one access of master 18 for each. -/
theorem theDebugLinkActsAsMaster18 : Obligations.TheDebugLinkActsAsMaster18 := by
  unfold Obligations.TheDebugLinkActsAsMaster18
  refine ⟨fun _ _ _ => rfl, fun t addr crcOk s hl => ⟨fun n h1 h256 => ?read, fun n h => debugReadWords_ignored h, fun ws h1 h256 => ?write⟩,
    fun op addr x ws got s u => ⟨fun d => debugWords_done, debugWords_busError, rfl⟩, fun t n crcOk s hl hn => ?pair, fun t low s => rfl⟩
  case read =>
    have htakes := takes_readWords (addr := addr) hl h1 h256
    rw [exec_debugReadWords_eq h256]
    refine ⟨?_, ?_, ?_⟩
    · rintro rfl
      exact debugOp_badCrc htakes
    · rintro rfl u ds ⟨d, hw⟩
      exact debugOp_done htakes hw
    · rintro rfl u ds hw
      exact debugOp_busError htakes hw
  case write =>
    have htakes := takes_writeWords (addr := addr) hl h1 h256
    rw [exec_debugWriteWords_eq]
    refine ⟨?_, ?_, ?_⟩
    · rintro rfl
      exact debugOp_badCrc htakes
    · rintro rfl u d ds hw
      exact debugOp_done htakes hw
    · rintro rfl u ds hw
      exact debugOp_busError htakes hw
  case pair =>
    have hheard : ((s.arrive t).debugLink && decide (n < 8)) = true := by simp [hl, hn]
    have hhalt : exec (.debugHaltCorePair t n crcOk) s = .next ((s.arrive t).debugPair n true crcOk) := (exec_debugHaltCorePair ..).trans (happens_of hheard)
    have hresume : exec (.debugResumeCorePair t n crcOk) s = .next ((s.arrive t).debugPair n false crcOk) :=
      (exec_debugResumeCorePair ..).trans (happens_of hheard)
    rw [hhalt, hresume]
    refine ⟨?_, ?_, ?_⟩
    · rintro rfl
      exact ⟨rfl, rfl⟩
    · rintro rfl hc
      rw [debugPair_closed n _ hc, debugPair_closed n _ hc]
      exact ⟨rfl, rfl⟩
    · rintro rfl ho
      rw [debugPair_open n _ ho, debugPair_open n _ ho]
      exact ⟨rfl, rfl⟩

end Sys2Proof.Machine

/-! Proof of the statement about local outputs: silences, reports and the apply instant (O16). -/

namespace Sys2Proof.Machine

/-! ## Silence of the sequencer (14 R325, 15 R340) -/

section silence

variable {t : Nat} {s : State}

theorem dioSafe_on {word : Nat} {c : DioCh} (h : bits word 8 2 = 1) : dioSafe word c = true := if_pos h

theorem dioSafe_hold {word : Nat} {c : DioCh} (h : bits word 8 2 = 2) : dioSafe word c = c.lastApplied := by
  rw [dioSafe, if_neg (by omega), if_pos h]

theorem dioSafe_off {word : Nat} {c : DioCh} (h1 : bits word 8 2 ≠ 1) (h2 : bits word 8 2 ≠ 2) : dioSafe word c = false := by
  rw [dioSafe, if_neg h1, if_neg h2]

theorem uaToSafe_uaCh {n : Nat} (hn : n < s.ua.ch.length) :
    s.uaToSafe.uaCh n = { s.uaCh n with commanded := uaSafe (s.uaWord n) (s.uaWord1 n) (s.uaCh n) } := by
  refine (mapFrom_getD _ _ _ _ _ hn).trans ?_
  rw [Nat.zero_add]
  rfl

theorem silenceTrip_dio (h : s.dio.silent = false) : s.silenceTrip 0 =
    (s.upDio fun d => { d with silent := true, linkUp := false, silences := inc32 d.silences }).dioToSafe := by
  rw [State.silenceTrip, if_pos rfl, h]
  rfl

theorem silenceTrip_ua (h : s.ua.silent = false) : s.silenceTrip 1 =
    (s.upUa fun u => { u with silent := true, linkUp := false, silences := inc32 u.silences }).uaToSafe := by
  rw [State.silenceTrip, if_neg (by decide), h]
  rfl

theorem exec_silenceTimeout_awake (fe : Nat) (ha : (s.arrive t).awake = true) (hfe : fe < 2) :
    exec (.silenceTimeout t fe) s = .next ((s.arrive t).silenceTrip fe) :=
  (exec_silenceTimeout ..).trans (happens_of (by simp [ha, hfe]))

theorem exec_sequencerUpdate_awake (fe : Nat) (valid : Bool) (ha : (s.arrive t).awake = true) (hfe : fe < 2) :
    exec (.sequencerUpdate t fe valid) s = .next ((s.arrive t).sequencerUpdate fe valid) :=
  (exec_sequencerUpdate ..).trans (happens_of (by simp [ha, hfe]))

end silence

/-! ## The report of an output (14 R322, 15 R337) -/

section report

variable {off status k n : Nat} {v : Word} {m : Raw} {p : PointRec} {s : State}

theorem reportOutput_unbound (h : s.conf.localPoint off true = none) : s.reportOutput off status v = s := by
  rw [State.reportOutput, h]

theorem reportOutput_ok (h : s.conf.localPoint off true = some p) : s.reportOutput off 0 v = s.ackOutput p.handle v := by
  rw [State.reportOutput, h]
  exact if_pos rfl

theorem reportOutput_fault (h : s.conf.localPoint off true = some p) (hs : status ≠ 0) : s.reportOutput off status v =
    s.upImg p.handle fun g => ({ g with age := ageUp g.age, held := true }).withQuality (statusQuality status) := by
  rw [State.reportOutput, h]
  exact if_neg hs

theorem img_congr {u : State} (hm : u.mem = s.mem) (h : Nat) : u.img h = s.img h := by
  unfold State.img State.image State.ruleOf
  rw [hm]

theorem upImg_mem_congr {u : State} (hm : u.mem = s.mem) (h : Nat) (f : Img → Img) : (u.upImg h f).mem = (s.upImg h f).mem := by
  rw [State.upImg, State.upImg, img_congr hm, State.setImage, State.setImage, State.upMem, State.upMem, hm]

theorem ackOutput_mem_congr {u : State} (hm : u.mem = s.mem) (hp : u.pts = s.pts) (h : Nat) (v : Word) : (u.ackOutput h v).mem = (s.ackOutput h v).mem := by
  have hcarried : u.carriedValue h = s.carriedValue h := by rw [State.carriedValue, State.carriedValue, img_congr hm, hp]
  rw [State.ackOutput, State.ackOutput, hcarried]
  split <;> exact upImg_mem_congr hm ..

/-- A proof changes at most the count of its output and the instant from which it counts. -/
theorem proveDio_cases (n status : Nat) (m : Raw) (s : State) : (s.proveDio n status m).mem = s.mem ∧
    ((s.proveDio n status m).dio = s.dio ∨ ∃ a, (s.proveDio n status m).dio = (s.setDio n fun c => { c with provedFrom := a }).dio) := by
  unfold State.proveDio
  dsimp only
  split_ifs
  · exact ⟨rfl, .inr ⟨none, rfl⟩⟩
  · exact ⟨rfl, .inl rfl⟩
  · exact ⟨rfl, .inl rfl⟩
  · split
    · exact ⟨rfl, .inr ⟨some s.time.now, rfl⟩⟩
    · split_ifs <;> exact ⟨rfl, .inl rfl⟩

theorem proveDio_idle (h : status ≠ 0 ∨ s.pair.owner = false ∨ s.driving = false) : (s.proveDio n status m).cnt = s.cnt := by
  unfold State.proveDio
  dsimp only
  rw [if_pos]
  · rfl
  · rcases h with h | h | h <;> simp [h]

theorem proveDio_other (hk : k ≠ n) : (s.proveDio n status m).dioCh k = s.dioCh k := by
  obtain ⟨-, h | ⟨a, h⟩⟩ := proveDio_cases n status m s
  · rw [State.dioCh, h]
    rfl
  · rw [State.dioCh, h]
    exact dioCh_ne _ _ _ _ hk

/-- What a digital output is told to show, apart from its proof. -/
def DioCh.drive (c : DioCh) : Bool × Bool × Option (Bool × Word) := (c.commanded, c.lastApplied, c.loaded)

theorem proveDio_drive (hn : n < s.dio.ch.length) : ((s.proveDio n status m).dioCh n).drive = (s.dioCh n).drive := by
  obtain ⟨-, h | ⟨a, h⟩⟩ := proveDio_cases n status m s
  · rw [State.dioCh, h]
    rfl
  · refine (congrArg (fun d : DioSt => (d.ch.getD n DioCh.reset).drive) h).trans ?_
    have hself := congrArg DioCh.drive (dioCh_self s n (fun c => { c with provedFrom := a }) hn)
    exact hself

end report

/-! ## The apply instant of a digital output (14 R322, R325) -/

section applyDio

variable {t n k status : Nat} {m : Raw} {b : Bool} {v : Word} {p : PointRec} {s : State}

/-- The loaded value becomes the command, unless a safe state stays. -/
def State.commandDio (n : Nat) (b : Bool) (s : State) : State :=
  s.setDio n fun c => { (if s.dioSafeActive then c else { c with commanded := b, lastApplied := b }) with loaded := none }

/-- The item status of an output's report: the channel's own fault before the reported one. -/
def State.dioReport (n status : Nat) (s : State) : Nat := if s.dioOutStatus n != 0 then s.dioOutStatus n else status

theorem applyDio_loaded (h : (s.dioCh n).loaded = some (b, v)) : s.applyDio n status m =
    ((s.commandDio n b).reportOutput n (s.dioReport n status) v).proveDio n (s.dioReport n status) m := by
  rw [State.applyDio, h]
  rfl

theorem applyDio_empty (h : (s.dioCh n).loaded = none) : s.applyDio n status m = s := by
  rw [State.applyDio, h]

theorem exec_outputApply_dio (ha : (s.arrive t).awake = true) (hn : n < 16) :
    exec (.outputApply t n status m) s = .next ((s.arrive t).applyDio n status m) :=
  (exec_outputApply ..).trans ((happens_of ha).trans (congrArg _ (if_pos hn)))

theorem dioSafeActive_iff : s.dioSafeActive = true ↔ s.dio.silent = true ∨ s.power.safeN = true ∨ s.power.mode = 7 ∨ s.dio.retireSafe = true := by
  simp [State.dioSafeActive, or_assoc]

theorem dioReport_good (hf : s.dio.fldLost = false) (ho : (s.dioCh n).overload = false) : s.dioReport n status = status := by
  simp [State.dioReport, State.dioOutStatus, hf, ho]

theorem dioReport_fldLost (hf : s.dio.fldLost = true) : s.dioReport n status = 0x82 := by
  simp [State.dioReport, State.dioOutStatus, hf]

theorem dioReport_overload (hf : s.dio.fldLost = false) (ho : (s.dioCh n).overload = true) : s.dioReport n status = 0x87 := by
  simp [State.dioReport, State.dioOutStatus, hf, ho]

theorem dioReport_ne (h : status ≠ 0) : s.dioReport n status ≠ 0 := by
  rw [State.dioReport]
  split
  · next hs => exact bne_iff_ne.1 hs
  · exact h

theorem reportOutput_dio (off status : Nat) (v : Word) (s : State) : (s.reportOutput off status v).dio = s.dio :=
  (reportOutput_keeps off status v s).frame .dio (by decide)

theorem commandDio_drive (hn : n < s.dio.ch.length) : ((s.commandDio n b).dioCh n).drive =
    if s.dioSafeActive then ((s.dioCh n).commanded, (s.dioCh n).lastApplied, none) else (b, b, none) := by
  refine (congrArg DioCh.drive (dioCh_self s n _ hn)).trans ?_
  split <;> rfl

theorem applyDio_drive (h : (s.dioCh n).loaded = some (b, v)) (hn : n < s.dio.ch.length) : ((s.applyDio n status m).dioCh n).drive =
    if s.dioSafeActive then ((s.dioCh n).commanded, (s.dioCh n).lastApplied, none) else (b, b, none) := by
  have hdio := reportOutput_dio n (s.dioReport n status) v (s.commandDio n b)
  rw [applyDio_loaded h, proveDio_drive, State.dioCh, hdio]
  · exact commandDio_drive hn
  · rw [hdio]
    exact (setAt_length ..).symm ▸ hn

theorem applyDio_other (hk : k ≠ n) : (s.applyDio n status m).dioCh k = s.dioCh k := by
  cases h : (s.dioCh n).loaded with
  | none => rw [applyDio_empty h]
  | some bv =>
    rw [applyDio_loaded h, proveDio_other hk, State.dioCh, reportOutput_dio]
    exact dioCh_ne _ _ _ _ hk

theorem applyDio_mem (h : (s.dioCh n).loaded = some (b, v)) :
    (s.applyDio n status m).mem = ((s.commandDio n b).reportOutput n (s.dioReport n status) v).mem := by
  rw [applyDio_loaded h]
  exact (proveDio_cases ..).1

theorem applyDio_mem_unbound (h : (s.dioCh n).loaded = some (b, v)) (hp : s.conf.localPoint n true = none) :
    (s.applyDio n status m).mem = s.mem := by
  rw [applyDio_mem h, reportOutput_unbound (s := s.commandDio n b) hp]
  rfl

theorem applyDio_mem_good (h : (s.dioCh n).loaded = some (b, v)) (hp : s.conf.localPoint n true = some p) (hr : s.dioReport n status = 0) :
    (s.applyDio n status m).mem = (s.ackOutput p.handle v).mem := by
  rw [applyDio_mem h, hr, reportOutput_ok (s := s.commandDio n b) hp]
  exact ackOutput_mem_congr (s := s) (u := s.commandDio n b) rfl rfl ..

theorem applyDio_mem_fault (h : (s.dioCh n).loaded = some (b, v)) (hp : s.conf.localPoint n true = some p) (hr : s.dioReport n status ≠ 0) :
    (s.applyDio n status m).mem = (s.upImg p.handle fun g =>
      ({ g with age := ageUp g.age, held := true }).withQuality (statusQuality (s.dioReport n status))).mem := by
  rw [applyDio_mem h, reportOutput_fault (s := s.commandDio n b) hp hr]
  exact upImg_mem_congr rfl ..

theorem applyDio_cnt (h : (s.dioCh n).loaded = some (b, v)) (hi : status ≠ 0 ∨ s.pair.owner = false ∨ s.driving = false) :
    (s.applyDio n status m).cnt = s.cnt := by
  have hkeeps := (reportOutput_keeps n (s.dioReport n status) v (s.commandDio n b)).frame
  have hpair : ((s.commandDio n b).reportOutput n (s.dioReport n status) v).pair = s.pair := hkeeps .pair (by decide)
  rw [applyDio_loaded h, proveDio_idle]
  · exact hkeeps .cnt (by decide)
  · rw [State.driving, hpair]
    exact hi.imp_left dioReport_ne

end applyDio

/-! ## The apply instant of an analogue output (15 R337, R340) -/

section applyUa

variable {t n k status : Nat} {m x : Raw} {v : Word} {s : State}

/-- The loaded value becomes the command, unless a safe state or an overrange stays, and the measured value is the reading. -/
def State.commandUa (n : Nat) (x m : Raw) (s : State) : State :=
  s.setUa n fun c =>
    { (if s.uaSafeActive || c.overrange then c else { c with commanded := x, lastApplied := some x }) with
      loaded := none, conv := some m,
      reading := if bit (s.uaWord n) 9 then f32OfRat (decide (signed 32 m.toNat < 0)) (signed 32 m.toNat).natAbs 1000000 else m }

theorem exec_outputApply_ua (ha : (s.arrive t).awake = true) (hn : n < 8) :
    exec (.outputApply t (0x100 + n) status m) s = .next ((s.arrive t).applyUa n status m) := by
  refine (exec_outputApply ..).trans ((happens_of ha).trans (congrArg _ ?_))
  rw [if_neg (by omega), if_pos (by rw [Bool.and_eq_true, decide_eq_true_iff, decide_eq_true_iff]; omega), Nat.add_sub_cancel_left]

theorem applyUa_mute (hm : s.uaMute n = true) : s.applyUa n status m = s := by
  rw [State.applyUa]
  split
  · rfl
  · exact if_pos hm

/-- The report and the proof leave every analogue channel. -/
theorem applyUa_ua (h : (s.uaCh n).loaded = some (x, v)) (hm : s.uaMute n = false) : (s.applyUa n status m).ua = (s.commandUa n x m).ua := by
  rw [State.applyUa, h]
  refine (congrArg State.ua (if_neg (by simp [hm]))).trans ?_
  exact ((proveUa_keeps ..).frame .ua (by decide)).trans ((reportOutput_keeps ..).frame .ua (by decide))

theorem applyUa_self (h : (s.uaCh n).loaded = some (x, v)) (hm : s.uaMute n = false) (hn : n < s.ua.ch.length) :
    ((s.applyUa n status m).uaCh n).loaded = none ∧ ((s.applyUa n status m).uaCh n).conv = some m ∧
    (((s.applyUa n status m).uaCh n).commanded, ((s.applyUa n status m).uaCh n).lastApplied) =
      if s.uaSafeActive || (s.uaCh n).overrange then ((s.uaCh n).commanded, (s.uaCh n).lastApplied) else (x, some x) := by
  have hself : (s.applyUa n status m).uaCh n = (s.commandUa n x m).uaCh n := by
    rw [State.uaCh, applyUa_ua h hm]
    rfl
  rw [hself, State.commandUa, uaCh_self s n _ hn]
  refine ⟨rfl, rfl, ?_⟩
  split <;> rfl

theorem applyUa_other (h : (s.uaCh n).loaded = some (x, v)) (hm : s.uaMute n = false) (hk : k ≠ n) : (s.applyUa n status m).uaCh k = s.uaCh k := by
  rw [State.uaCh, applyUa_ua h hm]
  exact uaCh_ne _ _ _ _ hk

theorem uaSafeActive_iff : s.uaSafeActive = true ↔ s.ua.silent = true ∨ s.power.safeN = true ∨ s.power.mode = 7 ∨ s.ua.retireSafe = true := by
  simp [State.uaSafeActive, or_assoc]

end applyUa

/-- Settles O16: a silence shows every channel's safe state; the apply instant commands the output, reports it and proves it, and the last two
leave what the first has commanded. -/
theorem localOutputsFollowTheSequencer : Obligations.LocalOutputsFollowTheSequencer := by
  unfold Obligations.LocalOutputsFollowTheSequencer
  refine ⟨fun t s ha => ⟨?_, ?_, ?_, ?_⟩, fun t s ha => ⟨fun h => ?dioSilence, fun h => ?uaSilence, fun h => ?again⟩,
    fun t n status m b c s ha h16 hn hl => ?dio, fun t n status m s ha h16 hl => (exec_outputApply_dio ha h16).trans (congrArg _ (applyDio_empty hl)),
    fun t n status m x c s ha h8 hn hl => ⟨fun hm => (exec_outputApply_ua ha h8).trans (congrArg _ (applyUa_mute hm)), fun hm => ?ua⟩⟩
  case dioSilence =>
    refine ⟨_, exec_silenceTimeout_awake 0 ha (by decide), (silenceTrip_keeps ..).frame, ?_⟩
    rw [silenceTrip_dio h]
    refine ⟨rfl, rfl, rfl, rfl, rfl, fun n hn => (dioToSafe_dioCh hn).trans ?_⟩
    split
    · next h => rw [dioSafe_on h]
    · next h => rw [dioSafe_hold h]
    · next h1 h2 => rw [dioSafe_off h1 h2]
  case uaSilence =>
    refine ⟨_, exec_silenceTimeout_awake 1 ha (by decide), (silenceTrip_keeps ..).frame, ?_⟩
    rw [silenceTrip_ua h]
    exact ⟨rfl, rfl, rfl, rfl, fun n hn => uaToSafe_uaCh hn⟩
  case again => exact (exec_silenceTimeout_awake 0 ha (by decide)).trans (congrArg _ ((if_pos rfl).trans (if_pos h)))
  case dio =>
    have hdrive := applyDio_drive (status := status) (m := m) hl hn
    refine ⟨_, exec_outputApply_dio ha h16, (applyDio_keeps ..).frame, ?_, fun hsafe => ?_, fun h1 h2 h3 h4 => ?_, fun k => applyDio_other,
      fun p hp hf ho h0 => applyDio_mem_good hl hp ((dioReport_good hf ho).trans h0), fun p hp hf => ?_, fun p hp hf ho => ?_,
      applyDio_mem_unbound hl, applyDio_cnt hl⟩
    · have h3 := congrArg (fun d => d.2.2) hdrive
      refine h3.trans ?_
      split <;> rfl
    · rw [if_pos (dioSafeActive_iff.2 hsafe)] at hdrive
      injection hdrive with hc hdrive
      injection hdrive with ha
      exact ⟨hc, ha⟩
    · rw [if_neg (by simp [dioSafeActive_iff, h1, h2, h3, h4])] at hdrive
      injection hdrive with hc hdrive
      injection hdrive with ha
      exact ⟨hc, ha⟩
    · have hr := dioReport_fldLost (n := n) (status := status) hf
      rw [applyDio_mem_fault hl hp (by rw [hr]; decide), hr]
      rfl
    · have hr := dioReport_overload (status := status) hf ho
      rw [applyDio_mem_fault hl hp (by rw [hr]; decide), hr]
      rfl
  case ua =>
    obtain ⟨hloaded, hconv, hdrive⟩ := applyUa_self (status := status) (m := m) hl hm hn
    refine ⟨_, exec_outputApply_ua ha h8, (applyUa_keeps ..).frame, hloaded, hconv, fun k => applyUa_other hl hm, fun hsafe => ?_, fun h1 h2 h3 h4 h5 => ?_⟩
    · rw [if_pos (by simpa [uaSafeActive_iff, or_assoc] using hsafe)] at hdrive
      exact Prod.mk.inj hdrive
    · rw [if_neg (by simp [uaSafeActive_iff, h1, h2, h3, h4, h5])] at hdrive
      exact Prod.mk.inj hdrive
  all_goals exact exec_sequencerUpdate_awake _ _ ha (by decide)

end Sys2Proof.Machine

/-! Proofs of the statements about the secure partition: key records, the owner lock, the life cycle and gate commits (O38, O39). -/

namespace Sys2Proof.Machine

/-! ## KEY_CTRL and the key window (12 R289) -/

section keys

variable {i : Instr} {t v base : Nat} {h : Hdr} {s u : State} {ps : List Part} {op : State → State} {q : State → State → Prop} {c : SecureSt}

theorem keyCtrl_window (hb : base < 64) : s.keyCtrl (64 + base) = s.upSec fun c => { c with windowBase := base } := by
  have hop : bits (64 + base) 6 2 = 1 := by unfold bits; omega
  have hbase : bits (64 + base) 0 6 = base := by unfold bits; omega
  rw [State.keyCtrl, hop, hbase]
  rfl

theorem keyCtrl_commit (s : State) : s.keyCtrl 128 = s.keyCommit := rfl

theorem keyCtrl_discard (s : State) : s.keyCtrl 192 = s.upSec fun c => { c with staging := [] } := rfl

theorem keyCommit_blank (h : s.sec.lifecycle = 0) : s.keyCommit = s.upSec fun c => { c with pendingRec := some (keyRecord s.sec) } := if_pos h

/-- Beyond BLANK the record takes effect; the sessions that it ends leave the partition. -/
theorem keyCommit_sec (h : s.sec.lifecycle ≠ 0) (hc : s.sec.applied (keyRecord s.sec) = some c) : s.keyCommit.sec = { c with sealedRec := true } := by
  rw [State.keyCommit, if_neg h, hc]
  exact ((endRevoked_keeps _).frame .sec (by decide)).trans (rec_sec ..)

theorem keyCtrl_check (hk : keyCheck u h.mb = none) (hv : v < 256) (o : Nat → Option Nat) :
    u.wordCheck h.mb 8 0x20 v o = if bits v 6 2 = 2 then u.keyCommitCheck else none := by
  rw [kw_check _ _ _ _ hk, firstOf_cons, rangeCheck, if_pos (decide_eq_true hv), firstOf_cons, firstOf_cons, firstOf_nil]
  dsimp only
  split
  · next h => rw [h]
  · next h => rw [h]

theorem keyCommitCheck_take (r : Req) (s : State) : (s.take r).keyCommitCheck = s.keyCommitCheck := kcc _ _ rfl rfl

/-- A value that passes its check does its operation on the state that took the request. -/
theorem keyCtrl_answers (he : exec i s = writeField t h 8 0x20 v s) (ha : (s.arrive t).accepts paramWriteCmd (writeReq h 8 0x20 [BitVec.ofNat 32 v]))
    (hk : ∀ r, keyCheck ((s.arrive t).take r) h.mb = none) (hv : v < 256) (hc : bits v 6 2 = 2 → (s.arrive t).keyCommitCheck = none)
    (hop : ∀ u : State, u.keyCtrl v = op u) (hq : ∀ r, Keeps ps ((s.arrive t).take r) (op ((s.arrive t).take r)) ∧
      q ((s.arrive t).take r) (op ((s.arrive t).take r))) :
    Answers i t s paramWriteCmd (writeReq h 8 0x20 [BitVec.ofNat 32 v]) ps fun u st data w => st = 0 ∧ data = [] ∧ q u w := by
  have hword (u : State) : u.writeWord h.mb 8 0x20 v = op u := hop u
  refine wf_ans he ha (by decide) (by decide) (by omega) (by decide) (fun o => ?_) ?_ ?_
  · rw [keyCtrl_check (hk _) hv]
    split
    · next hop => exact (keyCommitCheck_take ..).trans (hc hop)
    · rfl
  · rw [hword]
    exact (hq _).1.frame
  · rw [hword]
    exact ⟨rfl, rfl, (hq _).2⟩

theorem keyCtrl_refused {st : Nat} (he : exec i s = writeField t h 8 0x20 v s)
    (ha : (s.arrive t).accepts paramWriteCmd (writeReq h 8 0x20 [BitVec.ofNat 32 v])) (hv : v < 2 ^ 32)
    (hc : ∀ r o, ((s.arrive t).take r).wordCheck h.mb 8 0x20 v o = some st) :
    Answers i t s paramWriteCmd (writeReq h 8 0x20 [BitVec.ofNat 32 v]) [] fun u st' data w => st' = st ∧ data = [] ∧ w = u :=
  answers_run he ha ⟨_, _, _, pw_no _ _ _ _ _ (by decide) (by decide) hv (by decide) (hc _), Frame.rfl_, rfl, rfl, rfl⟩

theorem keyWindows_keeps (l : List (Word × Nat)) (first : Nat) : ∀ s : State,
    Keeps [.sec] s (l.foldl (fun x e => x.keyWindow (first + e.2) e.1.toNat) s) := by
  induction l with
  | nil => exact Keeps.refl
  | cons e l ih => exact fun s => (ih _).chain (keyWindow_keeps ..)

/-- The words of a write of the key window, with their offsets. -/
theorem keyWindow_words {first : Nat} {words : List Word} (hl : words.length < 65536) (hw : first + words.length ≤ 256) :
    ((List.range words.length).map fun i => (0x100 + first + i, field (writeReq h 8 (0x100 + first) words).payload (8 + 4 * i) 4)) =
      words.zipIdx.map fun e => (0x100 + (first + e.2), e.1.toNat) := by
  obtain ⟨-, -, -, hfield⟩ := pw_many h 8 (0x100 + first) words (by decide) (by omega) hl
  refine List.ext_getElem (by simp) fun i hi _ => ?_
  rw [List.length_map, List.length_range] at hi
  simp [hfield i hi, Nat.add_assoc]

/-- Every word of the window is checked by its key check alone. -/
theorem paramWrite_keyWindow {first : Nat} {words : List Word} (hne : words ≠ []) (hw : first + words.length ≤ 256) (hk : keyCheck u h.mb = none) :
    paramWrite (writeReq h 8 (0x100 + first) words) u =
      (words.zipIdx.foldl (fun (x : State) e => x.keyWindow (first + e.2) e.1.toNat) u, some (stOk, [])) := by
  have hpos : 0 < words.length := List.length_pos_iff.2 hne
  obtain ⟨hblock, hcount, hfirst, -⟩ := pw_many h 8 (0x100 + first) words (by decide) (by omega) (by omega)
  have hrange : rangeOk 8 words.length (0x100 + first) = true := by
    have hlast : lastWord 8 = some 0x1FF := rfl
    rw [rangeOk, hlast]
    simp only [Bool.and_eq_true, decide_eq_true_eq]
    omega
  rw [paramWrite, hblock, hcount, hfirst, keyWindow_words (by omega) hw, guarded_pass (need_ok hrange), guarded_pass, guarded_nil, reply, kfold _ first,
    List.foldl_map]
  · simp
  · simp only [List.mem_map]
    rintro e ⟨x, -, rfl⟩
    omega
  · refine List.findSome?_eq_none_iff.2 fun e he => ?_
    obtain ⟨x, hx, rfl⟩ := List.mem_map.1 he
    have hidx := (List.mem_zipIdx hx).2.1
    have hclr : ¬clrWords.contains (8, 0x100 + (first + x.2)) = true := by simp [clrWords]; omega
    rw [State.wordCheck, if_neg hclr]
    refine (if_neg (by omega)).trans ((if_pos ?_).trans hk)
    simp only [Bool.and_eq_true, decide_eq_true_eq]
    omega

end keys

/-- Settles O38: with the key check passed, each value of `KEY_CTRL` is one operation, and a write of the window is one of each word in turn. -/
theorem keyRecordsAreStaged : Obligations.KeyRecordsAreStaged := by
  unfold Obligations.KeyRecordsAreStaged
  intro t h s hmode h3 hblank hrole
  have hk (r : Req) : keyCheck ((s.arrive t).take r) h.mb = none :=
    key_pass _ _ hmode h3 hblank fun hl => (hrole hl).trans_eq (take_rights ..).symm
  refine ⟨fun base hb ha => ?window, fun base hb ha => ?beyond, fun ha => ?discard, fun ha => ⟨fun st' hc => ?refused, fun hc hl => ?blank, fun hc hl c happ => ?commit⟩,
    fun first words hne hw ha => answers_run rfl ha ⟨_, _, _, paramWrite_keyWindow hne hw (hk _), (keyWindows_keeps ..).frame, rfl, rfl, rfl⟩⟩
  case window =>
    have he : exec (.keyCtrlSetWindowBase t h base) s = writeField t h 8 0x20 (64 + base) s := by
      rw [exec_keyCtrlSetWindowBase, execKeyCtrlSetWindowBase, if_pos hb]
    have hop : bits (64 + base) 6 2 ≠ 2 := by unfold bits; omega
    exact keyCtrl_answers he ha hk (by omega) (fun h => absurd h hop) (fun u => keyCtrl_window hb) fun r => ⟨upSec_keeps .., rfl⟩
  case beyond =>
    have he : exec (.keyCtrlSetWindowBase t h base) s = writeField t h 8 0x20 256 s := by
      rw [exec_keyCtrlSetWindowBase, execKeyCtrlSetWindowBase, if_neg (by omega)]
    refine keyCtrl_refused he ha (by decide) fun r o => ?_
    rw [kw_check _ _ _ _ (hk r)]
    rfl
  case discard =>
    exact keyCtrl_answers (exec_keyCtrlDiscardStaging ..) ha hk (by decide) (fun h => absurd h (by decide)) keyCtrl_discard fun r => ⟨upSec_keeps .., rfl⟩
  case refused =>
    refine keyCtrl_refused (exec_keyCtrlCommit ..) ha (by decide) fun r o => ?_
    rw [keyCtrl_check (hk r) (by decide), if_pos (by decide), keyCommitCheck_take, hc]
  case blank =>
    refine keyCtrl_answers (exec_keyCtrlCommit ..) ha hk (by decide) (fun _ => hc) keyCtrl_commit fun r => ?_
    rw [keyCommit_blank (s := (s.arrive t).take r) hl]
    exact ⟨upSec_keeps .., rfl⟩
  case commit =>
    exact keyCtrl_answers (exec_keyCtrlCommit ..) ha hk (by decide) (fun _ => hc) keyCtrl_commit fun r =>
      ⟨keyCommit_keeps _, keyCommit_sec (s := (s.arrive t).take r) hl happ⟩

/-! ## The owner lock and the life cycle (12 R287, R288; 13 R313) -/

section lifecycle

variable {t id mb target : Nat} {lock : Bool} {r : Req} {s : State}

theorem lockBody_same (h : s.sec.ownerLock = lock) : lockBody lock r s = (s, some (stOk, [])) := by
  rw [lockBody, if_pos h]
  rfl

theorem lockBody_changed (h : s.sec.ownerLock ≠ lock) : lockBody lock r s =
    ((s.upSec fun c => { c with ownerLock := lock }).record 0x0A04 [(4, r.session), (1, b2n lock)], some (stOk, [])) := by
  rw [lockBody, if_neg h]
  rfl

/-- The lock reads as asked, and nothing at all changes where it did before. -/
theorem lockBody_f (lock : Bool) (r : Req) (s : State) : ∃ v : State, lockBody lock r s = (v, some (stOk, [])) ∧
    Frame [.cache, .sec, .log] s v ∧ v.sec = { s.sec with ownerLock := lock } ∧ (s.sec.ownerLock = lock → v = s) := by
  by_cases h : s.sec.ownerLock = lock
  · exact ⟨s, lockBody_same h, Frame.rfl_, by rw [← h], fun _ => rfl⟩
  · have hkeeps : Keeps [.cache, .sec, .log] s ((s.upSec fun c => { c with ownerLock := lock }).record 0x0A04 [(4, r.session), (1, b2n lock)]) :=
      (record_keeps ..).chain ((upSec_keeps ..).mono (by decide))
    exact ⟨_, lockBody_changed h, hkeeps.frame, rec_sec .., fun h' => absurd h' h⟩

theorem mayAdvance_iff : s.mayAdvance mb target = true ↔
    (target = 1 ∧ s.sec.lifecycle = 0 ∧ mb = 15 ∧ s.sec.pendingRec ≠ none) ∨ (target = 2 ∧ s.sec.lifecycle = 1) ∨
      (target = 3 ∧ (s.sec.lifecycle = 1 ∨ s.sec.lifecycle = 2)) := by
  simp [State.mayAdvance, Option.isSome_iff_ne_none, and_assoc, or_assoc]

theorem lifecycleBody_refused (hz : zeros r.payload 1 3 = true) (hn : s.sec.advanceTo = none)
    (h : s.mayAdvance r.mb (field r.payload 0 1) = false) : lifecycleBody r s = (s, some (stState, [])) := by
  rw [lifecycleBody, guarded_pass (res_ok hz), guarded_pass (need_ok (by rw [hn]; rfl)), guarded_first (need_no h)]

theorem lifecycleBody_starts (hz : zeros r.payload 1 3 = true) (hn : s.sec.advanceTo = none)
    (h : s.mayAdvance r.mb (field r.payload 0 1) = true) : lifecycleBody r s =
      withJob 0x0A02 (fun id s => s.upSec fun c => { c with advanceTo := some (field r.payload 0 1, id) }) s := by
  rw [lifecycleBody, guarded_pass (res_ok hz), guarded_pass (need_ok (by rw [hn]; rfl)), guarded_pass (need_ok h), guarded_nil]

/-- A tamper leaves what a wipe leaves, with the life cycle that the fuse says. -/
theorem tamperWipe_sec (reason : Nat) (s : State) : (s.tamperWipe reason).sec =
    { (s.wipe reason).sec with lifecycle := if (s.wipe reason).sec.fuse then 3 else 0, latch := if (s.wipe reason).sec.fuse then 3 else 0,
                               sealedRec := false, pendingRec := none, staging := [], advanceTo := none } := by
  unfold State.tamperWipe
  exact rec_sec ..

theorem exec_lifecycleJobEnd_due (ha : (s.arrive t).awake = true) (hm : (s.arrive t).power.mode = 2)
    (h : (s.arrive t).sec.advanceTo = some (target, id)) : exec (.lifecycleJobEnd t) s =
      .next ((((s.arrive t).upSec fun c => { c with advanceTo := none }).advance target).endJob id stOk []) := by
  refine (exec_lifecycleJobEnd ..).trans ((happens_of (by simp [ha, hm])).trans ?_)
  rw [h]

end lifecycle

/-- Settles O39: the lock, the refusals and the job of the life cycle by their checks, and the end of the job by the wipe that it begins with. -/
theorem lifeCycleAndGateCommits : Obligations.LifeCycleAndGateCommits := by
  unfold Obligations.LifeCycleAndGateCommits
  refine ⟨fun t r s => ⟨fun ha => ?lock, fun ha => ?unlock, fun ha hz hn => ⟨fun h => ?refused, fun h hroom => ?starts⟩⟩, fun mb target s => mayAdvance_iff,
    fun t id s ha hm => ⟨fun h => ?operational, fun h => ?decommissioned⟩, fun reason s => ?wipe, fun reason s => ?tamper, fun t s => ⟨fun ha h => ?commit, fun h => ?drain⟩⟩
  case lock =>
    obtain ⟨v, hbody, hframe, hsec, hsame⟩ := lockBody_f true r ((s.arrive t).take r)
    exact answers_run (exec_ownerLock ..) ha ⟨v, _, _, hbody, hframe, rfl, rfl, hsec, hsame⟩
  case unlock =>
    obtain ⟨v, hbody, hframe, hsec, hsame⟩ := lockBody_f false r ((s.arrive t).take r)
    exact answers_run (exec_ownerUnlock ..) ha ⟨v, _, _, hbody, hframe, rfl, rfl, hsec, hsame⟩
  case refused =>
    exact answers_run (exec_lifecycleAdvance ..) ha ⟨_, _, _, lifecycleBody_refused (s := (s.arrive t).take r) hz hn h, Frame.rfl_, rfl, rfl, rfl⟩
  case starts =>
    obtain ⟨id, hjob, hjobs⟩ := withJob_ok 0x0A02 (fun id s => s.upSec fun c => { c with advanceTo := some (field r.payload 0 1, id) })
      ((s.arrive t).take r) hroom
    exact answers_run (exec_lifecycleAdvance ..) ha ⟨_, _, _, (lifecycleBody_starts (s := (s.arrive t).take r) hz hn h).trans hjob,
      ((upSec_keeps _ _).chain ((upMsg_keeps _ _).mono (by decide))).frame, id, rfl, rfl, rfl, hjobs⟩
  case operational =>
    obtain ⟨hsec, hdebug⟩ := advance2 ((s.arrive t).upSec fun c => { c with advanceTo := none })
    have hkeeps := (endJob_keeps id stOk [] (((s.arrive t).upSec fun c => { c with advanceTo := none }).advance 2)).frame
    refine ⟨_, exec_lifecycleJobEnd_due ha hm h, (hkeeps .sec (by decide)).trans hsec, ?_⟩
    exact (congrArg GateSt.debugOpen (hkeeps .gate (by decide))).trans hdebug
  case decommissioned =>
    obtain ⟨hlife, hlatch, hfuse, hsealed, hserver, hcfg, hsheaf, hroles, hanchors, hsown, hfallow, hseed, hdebug⟩ :=
      advance3 ((s.arrive t).upSec fun c => { c with advanceTo := none })
    have hkeeps := (endJob_keeps id stOk [] (((s.arrive t).upSec fun c => { c with advanceTo := none }).advance 3)).frame
    refine ⟨_, exec_lifecycleJobEnd_due ha hm h, ?_⟩
    rw [hkeeps .sec (by decide), hkeeps .cfg (by decide), hkeeps .gate (by decide)]
    exact ⟨hlife, hlatch, hfuse, hsealed, hserver, hcfg, hsheaf, hroles, hanchors, hsown, hfallow, hseed, hdebug⟩
  case wipe =>
    obtain ⟨hsec, hdebug, hmem, hboxes⟩ := wipe_f reason s
    exact ⟨hsec, hdebug, hmem, hboxes, (wipe_keeps ..).frame⟩
  case tamper =>
    rw [tamperWipe_sec, (wipe_f reason s).1]
    exact ⟨rfl, rfl, rfl, rfl, rfl, rfl⟩
  case commit => exact (exec_gateCommit ..).trans (happens_of (by simp [ha, h]))
  case drain => exact ⟨(exec_gateCommit ..).trans (happens_not (by simp [h])), (exec_commitDrainDone ..).trans (happens_of h)⟩

end Sys2Proof.Machine

/-! Proof of the statement about scrubbing, transparent passes and memory tests (O49). -/

namespace Sys2Proof.Machine

/-! ## The scrubber (12 R273) -/

section scrub

variable {t addr w : Nat} {ecc : Ecc} {s : State}

/-- What a visit counts, of the word at its address. -/
def State.scrubWord (w : Nat) (ecc : Ecc) (s : State) : State :=
  if ecc == .double || s.mem.bad.contains w then s.uncorrectable w else if ecc == .single then s.corrected w else s

theorem scrub_inner (h : addr / 8 * 8 ≠ 0x0BFFFFF8) : s.scrub addr ecc = s.scrubWord (addr / 8 * 8) ecc := if_neg h

/-- The visit of the last word of main SRAM ends a round. -/
theorem scrub_last (h : addr / 8 * 8 = 0x0BFFFFF8) : s.scrub addr ecc =
    (s.scrubWord 0x0BFFFFF8 ecc).upMower fun m => { m with lastScrubS := (s.scrubWord 0x0BFFFFF8 ecc).tb3s % 2 ^ 32 } := by
  rw [← h]
  exact if_pos h

theorem scrubWord_clean (h : w ∉ s.mem.bad) : s.scrubWord w .clean = s := by simp [State.scrubWord, h]

theorem scrubWord_single (h : w ∉ s.mem.bad) : s.scrubWord w .single = s.corrected w := by simp [State.scrubWord, h]

theorem scrubWord_uncorrectable (h : ecc = .double ∨ w ∈ s.mem.bad) : s.scrubWord w ecc = s.uncorrectable w :=
  if_pos (by rcases h with h | h <;> simp [h])

theorem exec_scrubVisit_awake (ha : (s.arrive t).awake = true) (hs : scrubbed addr = true) :
    exec (.scrubVisit t addr ecc) s = .next ((s.arrive t).scrub addr ecc) := (exec_scrubVisit ..).trans (happens_of (by simp [ha, hs]))

end scrub

/-! ## Windows of the transparent pass (12 R275–R277) -/

section windows

variable {t bank window n addr b : Nat} {demanded : Bool} {fault : Option (Nat × Nat)} {s : State}

theorem exec_mowerWindow_free (ha : (s.arrive t).awake = true) (hm : (s.arrive t).power.mode ≠ 1) (hb : (s.arrive t).bankFree bank = true) :
    exec (.mowerWindow t bank window demanded fault) s = .next ((s.arrive t).mow bank window demanded fault) :=
  (exec_mowerWindow ..).trans (happens_of (by simp [ha, hm, hb]))

/-- What one window does, before the last of them ends the pass. -/
def State.mowWindow (bank window : Nat) (demanded : Bool) (fault : Option (Nat × Nat)) (s : State) : State :=
  if demanded then s.abandonWindow bank window 1 else match fault with | some (addr, b) => s.mowerFault addr b | none => s

theorem mow_inner (h : bank ≠ 255 ∨ window ≠ 1535) : s.mow bank window demanded fault = s.mowWindow bank window demanded fault :=
  if_neg (by simpa [imp_iff_not_or] using h)

theorem mow_last (s : State) : s.mow 255 1535 false none = s.passOver := rfl

theorem abandonWindow_retries (h : n < 16) : (s.abandonWindow bank window n).mower =
    { s.mower with abandoned := inc32 s.mower.abandoned, windows := (bank, window, n, s.time.now) :: dropWindow bank window s.mower.windows } :=
  if_neg (by omega)

theorem abandonWindow_skips (h : 16 ≤ n) : (s.abandonWindow bank window n).mower =
    { s.mower with abandoned := inc32 s.mower.abandoned, skipped := inc32 s.mower.skipped, windows := dropWindow bank window s.mower.windows } :=
  if_pos h

theorem mowerFault_f (addr b : Nat) (s : State) : (s.mowerFault addr b).mower =
      { s.mower with fault := true, faults := inc32 s.mower.faults, faultAddr := addr, faultBit := b, passClean := false } ∧
    (s.mowerFault addr b).cnt.proof = setBits s.cnt.proof 2 1 0 ∧ (s.mowerFault addr b).power = s.power := by
  unfold State.mowerFault
  dsimp only
  refine ⟨(rec_f _ _ _ .mower (by decide)).trans ((proved_keeps ..).frame .mower (by decide)), ?_, ?_⟩
  · rw [record_cnt, (proved_fails ..).1]
    rfl
  · exact (rec_f _ _ _ .power (by decide)).trans ((proved_keeps ..).frame .power (by decide))

theorem passOver_clean (h : s.mower.passClean = true) : s.passOver =
    (s.upMower fun m => { m with lastPassS := s.tb3s % 2 ^ 32, passClean := true, windows := [] }).proved 2 true := if_pos h

theorem passOver_unclean (h : s.mower.passClean = false) : s.passOver =
    s.upMower fun m => { m with lastPassS := s.tb3s % 2 ^ 32, passClean := true, windows := [] } := if_neg (by simp [h])

theorem passOver_f (s : State) : s.passOver.mower = { s.mower with lastPassS := s.tb3s % 2 ^ 32, passClean := true, windows := [] } ∧
    s.passOver.cnt.proof = if s.mower.passClean = true then setBits s.cnt.proof 2 1 1 else s.cnt.proof := by
  cases h : s.mower.passClean with
  | true => rw [passOver_clean h, proved_passes]; exact ⟨rfl, rfl⟩
  | false => rw [passOver_unclean h]; exact ⟨rfl, rfl⟩

theorem retryWindow_due (h : s.retryOf bank window = some n) : s.retryWindow bank window demanded =
    if demanded then s.abandonWindow bank window (n + 1) else s.upMower fun m => { m with windows := dropWindow bank window m.windows } := by
  rw [State.retryWindow, h]

end windows

/-! ## Memory tests (12 R278) -/

/-- What a body answers is the state, the status and the data that an equation about it gives. -/
theorem body_answers {x : State × Option (Nat × List Byte)} {u v : State} {st st' : Nat} {ans ans' : List Byte} (h : x = (u, some (st, ans)))
    (hbody : x = (v, some (st', ans'))) : st' = st ∧ ans' = ans ∧ v = u := by
  obtain ⟨hv, hst, hans⟩ := pair_inj (hbody.symm.trans h)
  exact ⟨hst, hans, hv⟩

section memTest

variable {t id tested faults addr b : Nat} {bank : Option Nat} {destructive : Bool} {r : Req} {s : State}

theorem memTestBody_range (h : 2 ≤ field r.payload 0 1 ∨ 2 ≤ field r.payload 1 1 ∨ 256 ≤ field r.payload 2 2) :
    memTestBody r s = (s, some (stRange, [])) := by
  refine guarded_first (need_no ?_)
  simp only [Bool.and_eq_false_iff, decide_eq_false_iff_not]
  omega

/-- The operands that a memory test takes. -/
structure TestOperands (r : Req) : Prop where
  kind : field r.payload 0 1 < 2
  one : field r.payload 1 1 < 2
  bank : field r.payload 2 2 < 256
  zero : zeros r.payload 4 4 = true

/-- The job of a memory test, which takes its kind and its bank from the operands. -/
def startMemTest (r : Req) (id : Nat) (s : State) : State :=
  s.upMower fun m => { m with test := some (id, field r.payload 0 1 == 1, if field r.payload 1 1 = 1 then some (field r.payload 2 2) else none) }

theorem memTestBody_operands (h : TestOperands r) : memTestBody r s =
    guarded [need (fun s => field r.payload 0 1 == 0 || s.power.mode == 2) stState, need (fun s => s.mower.test.isNone) stBusy]
      (withJob 0x800 (startMemTest r)) s := by
  obtain ⟨hkind, hone, hbank, hzero⟩ := h
  refine (guarded_pass (need_ok ?_)).trans (guarded_pass (res_ok hzero))
  simp [hkind, hone, hbank]

theorem memTestBody_mode (h : TestOperands r) (hk : field r.payload 0 1 = 1) (hm : s.power.mode ≠ 2) : memTestBody r s = (s, some (stState, [])) := by
  rw [memTestBody_operands h, guarded_first (need_no (by simp [hk, hm]))]

theorem memTestBody_free (h : TestOperands r) (hk : field r.payload 0 1 = 0 ∨ s.power.mode = 2) : memTestBody r s =
    guarded [need (fun s => s.mower.test.isNone) stBusy] (withJob 0x800 (startMemTest r)) s := by
  rw [memTestBody_operands h, guarded_pass (need_ok (by simpa using hk))]

theorem memTestBody_busy (h : TestOperands r) (hk : field r.payload 0 1 = 0 ∨ s.power.mode = 2) (ht : s.mower.test ≠ none) :
    memTestBody r s = (s, some (stBusy, [])) := by
  rw [memTestBody_free h hk, guarded_first (need_no (Option.isNone_eq_false_iff.2 (Option.isSome_iff_ne_none.2 ht)))]

theorem memTestBody_starts (h : TestOperands r) (hk : field r.payload 0 1 = 0 ∨ s.power.mode = 2) (ht : s.mower.test = none) :
    memTestBody r s = withJob 0x800 (startMemTest r) s := by
  rw [memTestBody_free h hk, guarded_pass (need_ok (by rw [ht]; rfl)), guarded_nil]

/-- The result of a memory test. -/
def testResult (tested faults addr b : Nat) : List Byte := leBytes 4 tested ++ leBytes 4 faults ++ leBytes 4 addr ++ leBytes 1 b ++ zeroBytes 3

/-- The job of a test is over, with its result. -/
def State.closeTest (id : Nat) (result : List Byte) (s : State) : State := (s.upMower fun m => { m with test := none }).endJob id stOk result

theorem closeTest_keeps (id : Nat) (result : List Byte) (s : State) : Keeps [.msg, .mower] s (s.closeTest id result) :=
  (endJob_keeps ..).chain ((upMower_keeps ..).mono (by decide))

theorem endMemTest_destructive (h : s.mower.test = some (id, true, bank)) : s.endMemTest tested faults addr b =
    ((s.closeTest id (testResult tested faults addr b)).upMem (Mem.tested bank)).upSched fun q =>
      { q with used := q.used.filter fun n => (((s.closeTest id (testResult tested faults addr b)).upMem (Mem.tested bank)).entry n).state != 0 } := by
  rw [State.endMemTest, h]
  rfl

theorem endMemTest_destructive_keeps (h : s.mower.test = some (id, true, bank)) :
    Keeps [.cache, .mem, .sched, .msg, .mower] s (s.endMemTest tested faults addr b) := by
  rw [endMemTest_destructive h]
  exact (upSched_keeps _ _).chain ((upMem_keeps _ _ (tested_wf bank)).chain ((closeTest_keeps ..).mono (by decide)))

/-- The faults of a test without demand on its words are those of a pass, and its cleanness is not. -/
def State.noteFaults (faults addr b : Nat) (s : State) : State :=
  if faults = 0 then s else (s.mowerFault addr b).upMower fun m => { m with faults := add32 m.faults (faults - 1), passClean := s.mower.passClean }

/-- A test of all banks counts as a pass. -/
def State.notePass (bank : Option Nat) (clean : Bool) (s : State) : State :=
  if bank.isNone then
    if clean then (s.upMower fun m => { m with lastPassS := s.tb3s % 2 ^ 32 }).proved 2 true else s.upMower fun m => { m with lastPassS := s.tb3s % 2 ^ 32 }
  else s

theorem endMemTest_transparent (h : s.mower.test = some (id, false, bank)) : s.endMemTest tested faults addr b =
    ((s.closeTest id (testResult tested faults addr b)).noteFaults faults addr b).notePass bank (decide (faults = 0)) := by
  rw [State.endMemTest, h, State.notePass]
  simp only [decide_eq_true_eq]
  rfl

theorem noteFaults_keeps (faults addr b : Nat) (s : State) : Keeps [.cache, .cnt, .mower, .log] s (s.noteFaults faults addr b) :=
  Keeps.ite (Keeps.refl _) ((upMower_keeps _ _).chain (mowerFault_keeps ..))

theorem noteFaults_mower (h : 0 < faults) : (s.noteFaults faults addr b).mower =
    { s.mower with fault := true, faults := add32 (inc32 s.mower.faults) (faults - 1), faultAddr := addr, faultBit := b } := by
  rw [State.noteFaults, if_neg (by omega), State.upMower, (mowerFault_f addr b s).1]

theorem notePass_keeps (bank : Option Nat) (clean : Bool) (s : State) : Keeps [.cache, .cnt, .mower, .log] s (s.notePass bank clean) :=
  Keeps.ite (Keeps.ite ((proved_keeps ..).chain ((upMower_keeps ..).mono (by decide))) ((upMower_keeps ..).mono (by decide))) (Keeps.refl _)

/-- A pass leaves everything of the test but its instant. -/
theorem notePass_mower (bank : Option Nat) (clean : Bool) (s : State) : ∃ x, (s.notePass bank clean).mower = { s.mower with lastPassS := x } := by
  unfold State.notePass
  split_ifs
  · rw [proved_passes]
    exact ⟨_, rfl⟩
  · exact ⟨_, rfl⟩
  · exact ⟨s.mower.lastPassS, rfl⟩

theorem endMemTest_transparent_keeps (h : s.mower.test = some (id, false, bank)) :
    Keeps [.cache, .cnt, .msg, .mower, .log] s (s.endMemTest tested faults addr b) := by
  rw [endMemTest_transparent h]
  exact (notePass_keeps ..).chain ((noteFaults_keeps ..).chain ((closeTest_keeps ..).mono (by decide)))

theorem endMemTest_clean_mower (h : s.mower.test = some (id, false, bank)) :
    ∃ x, (s.endMemTest tested 0 addr b).mower = { s.mower with test := none, lastPassS := x } := by
  rw [endMemTest_transparent h]
  exact notePass_mower ..

theorem endMemTest_faulty_mower (h : s.mower.test = some (id, false, bank)) (hf : 0 < faults) :
    ∃ x, (s.endMemTest tested faults addr b).mower = { s.mower with
      test := none, fault := true, faults := add32 (inc32 s.mower.faults) (faults - 1), faultAddr := addr, faultBit := b, lastPassS := x } := by
  obtain ⟨x, hx⟩ := notePass_mower bank (decide (faults = 0)) ((s.closeTest id (testResult tested faults addr b)).noteFaults faults addr b)
  refine ⟨x, ?_⟩
  rw [endMemTest_transparent h, hx, noteFaults_mower hf]
  rfl

theorem endMemTest_transparent_msg (h : s.mower.test = some (id, false, bank)) :
    (s.endMemTest tested faults addr b).msg = (s.endJob id stOk (testResult tested faults addr b)).msg := by
  rw [endMemTest_transparent h]
  exact ((notePass_keeps ..).frame .msg (by decide)).trans ((noteFaults_keeps ..).frame .msg (by decide))

theorem exec_memTestJobEnd_awake (ha : (s.arrive t).awake = true) :
    exec (.memTestJobEnd t tested faults addr b) s = .next ((s.arrive t).endMemTest tested faults addr b) := (exec_memTestJobEnd ..).trans (happens_of ha)

end memTest

/-- Settles O49: a visit and a window are one operation each, the end of a pass is one more, and a test is its job and what its kind does to
memory or to the counts of the pass. -/
theorem scrubMowerAndMemoryTests : Obligations.ScrubMowerAndMemoryTests := by
  unfold Obligations.ScrubMowerAndMemoryTests
  refine ⟨fun t addr ecc s ha hs hne w hw => ?visit, fun t s ha hgood => ?lastWord, fun t bank window fault s ha hm hb hin => ?window,
    fun t s ha hm hb => ⟨_, exec_mowerWindow_free ha hm hb, (mow_keeps ..).frame, mow_last (s.arrive t) ▸ passOver_f (s.arrive t)⟩,
    fun t bank window n demanded s ha hr => ?retry, fun t r s ha kind one bank hkind hone hbank => ?test, fun t tested faults addr b id bank s ha => ?testEnd⟩
  case visit =>
    subst hw
    have he : exec (.scrubVisit t addr ecc) s = .next ((s.arrive t).scrubWord (addr / 8 * 8) ecc) :=
      (exec_scrubVisit_awake ha hs).trans (congrArg _ (scrub_inner hne))
    refine ⟨?_, ?_, fun h => he.trans (congrArg _ (scrubWord_uncorrectable h))⟩
    · rintro rfl hgood
      exact he.trans (congrArg _ (scrubWord_clean hgood))
    · rintro rfl hgood
      exact he.trans (congrArg _ (scrubWord_single hgood))
  case lastWord =>
    rw [exec_scrubVisit_awake ha (by decide), scrub_last (by decide), scrubWord_clean hgood]
  case window =>
    have he (demanded : Bool) (fault : Option (Nat × Nat)) : exec (.mowerWindow t bank window demanded fault) s =
        .next ((s.arrive t).mowWindow bank window demanded fault) := (exec_mowerWindow_free ha hm hb).trans (congrArg _ (mow_inner hin))
    refine ⟨⟨_, he true fault, (abandonWindow_keeps ..).frame, abandonWindow_retries (by decide)⟩, he false none, fun addr b => ?_⟩
    obtain ⟨hmower, hproof, hpower⟩ := mowerFault_f addr b (s.arrive t)
    exact ⟨_, he false (some (addr, b)), (mowerFault_keeps ..).frame, hmower, hproof, congrArg PowerSt.mode hpower⟩
  case retry =>
    refine ⟨_, (exec_windowAbandonedRetry ..).trans (happens_of ha), (retryWindow_keeps ..).frame, ?_⟩
    rw [retryWindow_due hr]
    refine ⟨?_, ?_, ?_⟩
    · rintro rfl
      rfl
    · rintro rfl hn
      exact abandonWindow_retries (by omega)
    · rintro rfl hn
      exact abandonWindow_skips (by omega)
  case test =>
    subst hkind hone hbank
    refine answers_all (exec_memTest ..) ha (fun u => guarded_some (withJob_some ..)) (memTestBody_keeps r) fun u v st data _ hbody =>
      ⟨fun h => ?_, fun hk ho hb hz => ⟨fun h1 hm => ?_, fun h0 => ⟨fun hbusy => ?_, fun hfree hroom => ?_⟩⟩⟩
    · exact body_answers (memTestBody_range h) hbody
    · exact body_answers (memTestBody_mode ⟨hk, ho, hb, hz⟩ h1 hm) hbody
    · exact body_answers (memTestBody_busy ⟨hk, ho, hb, hz⟩ h0 hbusy) hbody
    · obtain ⟨id, hjob, hjobs⟩ := withJob_ok 0x800 (startMemTest r) u hroom
      obtain ⟨hst, hdata, rfl⟩ := body_answers ((memTestBody_starts ⟨hk, ho, hb, hz⟩ h0 hfree).trans hjob) hbody
      exact ⟨id, hst, hdata, rfl, hjobs⟩
  case testEnd =>
    refine ⟨fun h => ⟨_, exec_memTestJobEnd_awake ha, (endMemTest_destructive_keeps h).frame, ?_⟩,
      fun h hf => ⟨_, exec_memTestJobEnd_awake ha, (endMemTest_transparent_keeps h).frame, ?_⟩,
      fun h hf => ⟨_, exec_memTestJobEnd_awake ha, (endMemTest_transparent_keeps h).frame, ?_⟩⟩
    · have hcells := memRead_filter_out (testCovers bank) (s.arrive t).mem (Mem.tested bank (s.arrive t).mem)
      rw [endMemTest_destructive h]
      exact ⟨rfl, rfl, fun a => (hcells a rfl).1, fun a => (hcells a rfl).2⟩
    · subst hf
      obtain ⟨x, hmower⟩ := endMemTest_clean_mower (tested := tested) (addr := addr) (b := b) h
      rw [hmower]
      exact ⟨rfl, rfl, endMemTest_transparent_msg h⟩
    · obtain ⟨x, hmower⟩ := endMemTest_faulty_mower (tested := tested) (addr := addr) (b := b) h hf
      rw [hmower]
      exact ⟨rfl, rfl, rfl, rfl, rfl⟩

end Sys2Proof.Machine

/-! Proof of the statement about the load and the verification of a Sheaf (O50). -/

namespace Sys2Proof.Machine

/-! ## The header of a Sheaf (13 R302) -/

section header

variable {b : List Byte}

/-- MAGIC, FORMAT, COUNT or MEMBER is not what a Sheaf of this member has. -/
def HeaderForeign (b : List Byte) : Prop := slice b 0 4 ≠ ascii "F9SH" ∨ field b 4 2 ≠ 1 ∨ field b 6 2 ≠ 9 ∨ field b 28 4 ≠ 9

theorem headerFault_foreign (h : HeaderForeign b) : headerFault b = some 0x010B :=
  if_pos (by simpa [HeaderForeign, or_assoc] using h)

theorem headerFault_own (h : ¬HeaderForeign b) : headerFault b = if 220205056 < field b 16 8 then some 0x0107 else none :=
  if_neg (by simpa [HeaderForeign, and_assoc] using h)

theorem headerFault_status {st : Nat} (h : headerFault b = some st) : st = 0x010B ∨ st = 0x0107 := by
  by_cases hf : HeaderForeign b
  · exact .inl (Option.some.inj (h.symm.trans (headerFault_foreign hf)))
  · rw [headerFault_own hf, Option.ite_none_right_eq_some] at h
    exact .inr (Option.some.inj h.2).symm

theorem headerFault_range_iff : headerFault b = some 0x010B ↔ HeaderForeign b := by
  refine ⟨fun h => ?_, headerFault_foreign⟩
  by_contra hf
  rw [headerFault_own hf, Option.ite_none_right_eq_some] at h
  exact absurd h.2 (by decide)

theorem headerFault_capacity_iff : headerFault b = some 0x0107 ↔ ¬HeaderForeign b ∧ 220205056 < field b 16 8 := by
  by_cases hf : HeaderForeign b
  · rw [headerFault_foreign hf]
    simp [hf]
  · rw [headerFault_own hf, Option.ite_none_right_eq_some]
    simp [hf]

end header

/-! ## SHEAF_LOAD (13 R302, R312) -/

section load

variable {off : Nat} {data : List Byte} {r : Req} {s : State}

/-- Steps 1 and 2 of R312 let a command through. -/
structure State.SheafFree (s : State) : Prop where
  unlocked : s.sec.ownerLock = false
  idle : s.sheaf.st ∉ [3, 5, 6]
  noArmed : s.cfg.armed = none
  noHome : s.pair.homeArmed = false
  noTwinHome : s.pair.twinHomeArmed = false
  noJob : s.cfg.job = none

theorem sheafFree_passes {checks : List (State → Option Nat)} {body : State → State × Option (Nat × List Byte)} (h : s.SheafFree) :
    guarded (sheafFree ++ checks) body s = guarded checks body s := sheafFree_ok h.unlocked h.idle h.noArmed h.noHome h.noTwinHome h.noJob

theorem loadBody_state (h : s.SheafFree) (hs : s.sheaf.st = 2 ∨ s.sheaf.st = 4 ∨ s.sheaf.st = 0 ∧ field r.payload 0 8 ≠ 0) :
    loadBody r s = (s, some (stState, [])) := by
  refine (sheafFree_passes h).trans (guarded_first (need_no ?_))
  rcases hs with hs | hs | ⟨hs, ho⟩
  · simp [hs]
  · simp [hs]
  · simp [hs, ho]

theorem loadBody_range (h : s.SheafFree) (hs : s.sheaf.st = 1) (ho : field r.payload 0 8 ≠ s.sheaf.loadedBytes) :
    loadBody r s = (s, some (stRange, [])) := by
  refine (sheafFree_passes h).trans ((guarded_pass (need_ok ?_)).trans (guarded_first (need_no ?_)))
  · simp [hs]
  · simp [hs, ho]

theorem loadBody_chunk (h : s.SheafFree) (hs : s.sheaf.st = 0 ∧ field r.payload 0 8 = 0 ∨ s.sheaf.st = 1 ∧ field r.payload 0 8 = s.sheaf.loadedBytes) :
    loadBody r s = s.loadChunk (field r.payload 0 8) (r.payload.drop 8) := by
  refine (sheafFree_passes h).trans ((guarded_pass (need_ok ?_)).trans ((guarded_pass (need_ok ?_)).trans guarded_nil))
  · rcases hs with ⟨hs, ho⟩ | ⟨hs, ho⟩ <;> simp [hs, ho]
  · rcases hs with ⟨hs, ho⟩ | ⟨hs, ho⟩ <;> simp [hs, ho]

/-- A load begins: the commit record gives up the previous set, and nothing is loaded yet. -/
def State.beginLoad (s : State) : State :=
  (s.writeCommit fun h => { h with previous := 0, prevVersions := List.replicate 9 0 }).upSheaf fun h => { h.idle with st := 1 }

/-- The first chunk is a chunk of the load that begins with it. -/
theorem loadChunk_begins (hs : s.sheaf.st = 0) : s.loadChunk 0 data = s.beginLoad.loadChunk 0 data := loadChunk_first 0 data s hs

theorem beginLoad_st (s : State) : s.beginLoad.sheaf.st ≠ 0 := Nat.succ_ne_zero 0

theorem beginLoad_loaded (s : State) (data : List Byte) : data = s.beginLoad.sheaf.loaded ++ data := rfl

theorem loadChunk_first_short (hs : s.sheaf.st = 0) (hl : data.length < 1120) : s.loadChunk 0 data =
    (s.beginLoad.upSheaf fun h => { h with loaded := data, loadedBytes := data.length, total := 0, st := 1 }, some (0, leBytes 8 data.length)) := by
  rw [loadChunk_begins hs]
  obtain ⟨hshort, -⟩ := loadChunk_load 0 data s.beginLoad (beginLoad_st s) data data.length (beginLoad_loaded s data) (Nat.zero_add _).symm
  exact hshort hl

theorem loadChunk_first_fault {e : Nat} (hs : s.sheaf.st = 0) (hl : 1120 ≤ data.length) (he : headerFault data = some e) :
    s.loadChunk 0 data = (s.beginLoad.upSheaf SheafSt.idle, some (e, [])) := by
  rw [loadChunk_begins hs]
  obtain ⟨-, hfault, -⟩ := loadChunk_load 0 data s.beginLoad (beginLoad_st s) data data.length (beginLoad_loaded s data) (Nat.zero_add _).symm
  exact hfault hl (by decide) e he

end load

/-! ## SHEAF_VERIFY (13 R303, R312) -/

section verify

variable {t check comp status : Nat} {b : List Byte} {s : State}

theorem verifyBody_state (h : s.SheafFree) (h2 : s.sheaf.st ≠ 2) (h4 : s.sheaf.st ≠ 4) : verifyBody s = (s, some (stState, [])) :=
  (sheafFree_passes h).trans (guarded_first (need_no (by simp [h2, h4])))

theorem verifyBody_starts (h : s.SheafFree) (hs : s.sheaf.st = 2 ∨ s.sheaf.st = 4) :
    verifyBody s = withJob 0x501 (fun id s => s.upSheaf fun h => { h with st := 3, job := id }) s :=
  (sheafFree_passes h).trans ((guarded_pass (need_ok (by simpa using hs))).trans guarded_nil)

theorem endVerify_fault (h : s.verifyFault = some (check, comp, status)) :
    s.endVerify = (s.endJob s.sheaf.job status (verifyResult s check comp)).upSheaf SheafSt.idle := by
  unfold State.endVerify
  rw [h]

theorem endVerify_ok (h : s.verifyFault = none) : s.endVerify = (s.endJob s.sheaf.job stOk (verifyResult s 0 0)).upSheaf fun h =>
    { h with st := 4, newVersions := manVersions s.sheaf.loaded, newProto := field s.sheaf.loaded 24 2, newMin := field s.sheaf.loaded 26 2 } := by
  unfold State.endVerify
  rw [h]

theorem exec_sheafVerifyJobEnd_verifying (ha : (s.arrive t).awake = true) (hs : (s.arrive t).sheaf.st = 3) :
    exec (.sheafVerifyJobEnd t) s = .next (s.arrive t).endVerify := (exec_sheafVerifyJobEnd ..).trans (happens_of (by simp [ha, hs]))

/-- The first of some checks that fails, in order. -/
def firstFault (checks : List (Option (Nat × Nat × Nat))) : Option (Nat × Nat × Nat) := checks.findSome? id

theorem firstFault_fails {x : Option (Nat × Nat × Nat)} {l : List (Option (Nat × Nat × Nat))} (h : x ≠ none) : firstFault (x :: l) = x := by
  obtain ⟨f, rfl⟩ := Option.ne_none_iff_exists'.1 h
  rfl

theorem firstFault_passes {x : Option (Nat × Nat × Nat)} {l : List (Option (Nat × Nat × Nat))} (h : x = none) : firstFault (x :: l) = firstFault l := by
  rw [h]
  rfl

theorem firstFault_single (x : Option (Nat × Nat × Nat)) : firstFault [x] = x := by cases x <;> rfl

theorem firstFault_cons (x : Option (Nat × Nat × Nat)) (l : List (Option (Nat × Nat × Nat))) :
    firstFault (x :: l) = x.orElse fun _ => firstFault l := by cases x <;> rfl

theorem orElse_assoc (x : Option (Nat × Nat × Nat)) (y z : Unit → Option (Nat × Nat × Nat)) :
    (x.orElse y).orElse z = x.orElse fun u => (y u).orElse z := by cases x <;> rfl

theorem verifyFault_eq (s : State) : s.verifyFault = firstFault [check1 s.sheaf.loaded, s.check2 s.sheaf.loaded, check3 s.sheaf.loaded,
    s.check4 s.sheaf.loaded, s.check5 s.sheaf.loaded, s.check6 s.sheaf.loaded] := by
  have hlast := firstFault_single (s.check6 s.sheaf.loaded)
  simp only [State.verifyFault, firstFault_cons (check1 _), firstFault_cons (s.check2 _), firstFault_cons (check3 _), firstFault_cons (s.check4 _),
    firstFault_cons (s.check5 _), hlast, orElse_assoc]

theorem check2_pass_iff : s.check2 b = none ↔ ∃ k, s.sec.sheafKey (field b 32 4) = some k ∧ manDigest b = slice b 36 48 ∧
    Config.ecdsaOk (slice b 36 48) (slice b 84 96) k = true := by
  unfold State.check2
  cases s.sec.sheafKey (field b 32 4) <;> simp

theorem check3_pass_iff : check3 b = none ↔ ∀ e, e ∈ manEntries b → Config.sha384 (slice b (entryOffset e) (entrySize e)) = slice e 32 48 := by
  simp [check3]

theorem check4_pass_iff : s.check4 b = none ↔ field b 8 4 ≠ s.sheaf.active ∧ field b 12 4 ≤ s.sheaf.active ∧
    ∀ e, e ∈ manEntries b → field e 8 4 ≤ s.sheaf.versions.getD (entryId e - 1) 0 := by
  unfold State.check4
  split
  · next h =>
    simp only [Bool.or_eq_true, beq_iff_eq, decide_eq_true_eq] at h
    refine iff_of_false (by simp) fun ⟨hactive, hmin, _⟩ => h.elim hactive (by omega)
  · next h =>
    simp only [Bool.or_eq_true, beq_iff_eq, decide_eq_true_eq, not_or, not_lt] at h
    simp [h, -List.getD_eq_getElem?_getD]

theorem check6_pass_iff : s.check6 b = none ↔
    (s.pair.peerPresent = true → compatible (field b 24 2) (field b 26 2) s.sheaf.twinProto s.sheaf.twinMin = true) := by
  simp [State.check6]

end verify

/-- Settles O50: the header by its two checks, a chunk by the state that it meets, verification by its job, and its result by the first check
that fails. -/
theorem sheavesAreLoadedAndVerified : Obligations.SheavesAreLoadedAndVerified := by
  unfold Obligations.SheavesAreLoadedAndVerified
  refine ⟨fun b => ⟨headerFault_range_iff, headerFault_capacity_iff.trans ?_, fun st => headerFault_status⟩, ?load, fun t r s ha => ?verify,
    fun t s ha h3 => ⟨fun check comp status h => ?_, fun h b hb => ?_⟩, fun s b hb => ?order⟩
  · simp [HeaderForeign, and_assoc]
  case load =>
    rintro t r s c rfl ha off data rfl rfl
    refine answers_all (exec_sheafLoad ..) ha (fun u => guarded_some (loadChunk_some ..)) (loadBody_keeps r) fun u v st ans _ hbody =>
      ⟨fun hlock => body_answers (sheafFree_locked hlock) hbody, fun hlock => ⟨fun hbusy => body_answers (sheafFree_busy hlock hbusy) hbody,
        fun h1 h2 h3 h4 h5 => ?_⟩⟩
    have hfree : u.SheafFree := ⟨hlock, h1, h2, h3, h4, h5⟩
    refine ⟨fun hs => body_answers (loadBody_state hfree hs) hbody, fun hs ho => body_answers (loadBody_range hfree hs ho) hbody,
      fun hs ho => ⟨fun hl => ?_, fun hl e he => ?_⟩, fun hs ho all n hall hn => ?_⟩
    · have hchunk := loadBody_chunk hfree (.inl ⟨hs, ho⟩)
      rw [ho, loadChunk_first_short hs hl] at hchunk
      obtain ⟨hst, hans, rfl⟩ := body_answers hchunk hbody
      exact ⟨hst, hans, rfl, rfl, rfl, rfl, rfl, rfl, rfl⟩
    · have hchunk := loadBody_chunk hfree (.inl ⟨hs, ho⟩)
      rw [ho, loadChunk_first_fault hs hl he] at hchunk
      obtain ⟨hst, hans, rfl⟩ := body_answers hchunk hbody
      exact ⟨hst, hans, rfl, rfl, rfl⟩
    · have hchunk := loadBody_chunk hfree (.inr ⟨hs, ho⟩)
      obtain ⟨hshort, hfault, hwhole⟩ := loadChunk_load _ _ u (by omega) all n hall hn
      refine ⟨fun hl => body_answers (hchunk.trans (hshort hl)) hbody, fun hl hoff e he => body_answers (hchunk.trans (hfault hl hoff e he)) hbody,
        fun hl hok => ?_⟩
      obtain ⟨hbeyond, hpart, hlast⟩ := hwhole hl hok
      exact ⟨fun h => body_answers (hchunk.trans (hbeyond h)) hbody, fun h => body_answers (hchunk.trans (hpart h)) hbody,
        fun h => body_answers (hchunk.trans (hlast h)) hbody⟩
  case verify =>
    refine answers_all (exec_sheafVerify ..) ha (fun u => guarded_some (withJob_some ..)) verifyBody_keeps fun u v st ans _ hbody h0 h1 h2 h3 h4 h5 => ?_
    have hfree : u.SheafFree := ⟨h0, h1, h2, h3, h4, h5⟩
    refine ⟨fun h2 h4 => body_answers (verifyBody_state hfree h2 h4) hbody, fun hs hroom => ?_⟩
    obtain ⟨id, hjob, hjobs⟩ := withJob_ok 0x501 (fun id s => s.upSheaf fun h => { h with st := 3, job := id }) u hroom
    obtain ⟨hst, hans, rfl⟩ := body_answers ((verifyBody_starts hfree hs).trans hjob) hbody
    exact ⟨id, hst, hans, rfl, hjobs⟩
  · exact (exec_sheafVerifyJobEnd_verifying ha h3).trans (congrArg _ (endVerify_fault h))
  · subst hb
    exact (exec_sheafVerifyJobEnd_verifying ha h3).trans (congrArg _ (endVerify_ok h))
  case order =>
    subst hb
    rw [verifyFault_eq]
    refine ⟨firstFault_fails, fun c1 c2 => ?_, fun c1 c2 c3 => ?_, fun c1 c2 c3 c4 => ?_, fun c1 c2 c3 c4 c5 => ?_, fun c1 c2 c3 c4 c5 => ?_,
      check2_pass_iff, check3_pass_iff, check4_pass_iff, check6_pass_iff⟩
    · rw [firstFault_passes c1, firstFault_fails c2]
    · rw [firstFault_passes c1, firstFault_passes c2, firstFault_fails c3]
    · rw [firstFault_passes c1, firstFault_passes c2, firstFault_passes c3, firstFault_fails c4]
    · rw [firstFault_passes c1, firstFault_passes c2, firstFault_passes c3, firstFault_passes c4, firstFault_fails c5]
    · rw [firstFault_passes c1, firstFault_passes c2, firstFault_passes c3, firstFault_passes c4, firstFault_passes c5, firstFault_single]

end Sys2Proof.Machine

/-! Proof of the statement about the activation, the trial and the end of a Sheaf (O51). -/

namespace Sys2Proof.Machine

/-! ## SHEAF_ACTIVATE (13 R304, R312) -/

section activate

variable {t a status : Nat} {r : Req} {s : State}

/-- A twin in its own trial, and one that no lane reaches, keep this module from asking for the token. -/
def State.tokenBarred (s : State) : Prop := s.sheaf.twinState = 6 ∨ s.pair.peerPresent = true ∧ s.swathSilent = true

theorem activateBody_busy (h : s.SheafFree) (hb : s.tokenBarred) : activateBody s = (s, some (stBusy, [])) := by
  refine (sheafFree_passes h).trans (guarded_first (need_no ?_))
  rcases hb with hb | ⟨hp, hs⟩
  · simp [hb]
  · simp [hp, hs]

/-- The job of an activation: it asks the twin for the token where there is one. -/
def startActivation (id : Nat) (s : State) : State :=
  let s := s.upSheaf fun h => { h with st := 5, job := id, tokenHeld := false, tokenWait := if s.pair.peerPresent then some s.time.now else none }
  if s.pair.peerPresent then s.emit (.swath .tokenRequest) else s

theorem startActivation_f (id : Nat) (s : State) : (startActivation id s).sheaf =
      { s.sheaf with st := 5, job := id, tokenHeld := false, tokenWait := if s.pair.peerPresent then some s.time.now else none } ∧
    (startActivation id s).out = (if s.pair.peerPresent = true then s.out ++ [.swath .tokenRequest] else s.out) ∧ (startActivation id s).msg = s.msg := by
  unfold startActivation
  cases hp : s.pair.peerPresent <;> simp [State.upSheaf, State.emit, hp]

theorem activateBody_asks (h : s.SheafFree) (hb : ¬s.tokenBarred) : activateBody s =
    guarded [need (fun s => s.sheaf.st == 4) stState, need State.energyOk stLowEnergy] (withJob 0x502 startActivation) s := by
  refine (sheafFree_passes h).trans (guarded_pass (need_ok ?_))
  simpa [State.tokenBarred, imp_iff_not_or] using hb

theorem activateBody_state (h : s.SheafFree) (hb : ¬s.tokenBarred) (hs : s.sheaf.st ≠ 4) : activateBody s = (s, some (stState, [])) := by
  rw [activateBody_asks h hb, guarded_first (need_no (by simp [hs]))]

theorem energyOk_iff : s.energyOk = true ↔ 32000 ≤ s.power.holdupMj := decide_eq_true_iff

theorem energyOk_false (h : s.power.holdupMj < 32000) : s.energyOk = false := decide_eq_false (by omega)

theorem activateBody_lowEnergy (h : s.SheafFree) (hb : ¬s.tokenBarred) (hs : s.sheaf.st = 4) (he : s.power.holdupMj < 32000) :
    activateBody s = (s, some (stLowEnergy, [])) := by
  rw [activateBody_asks h hb, guarded_pass (need_ok (by simp [hs])), guarded_first (need_no (energyOk_false he))]

theorem activateBody_starts (h : s.SheafFree) (hb : ¬s.tokenBarred) (hs : s.sheaf.st = 4) (he : 32000 ≤ s.power.holdupMj) :
    activateBody s = withJob 0x502 startActivation s := by
  rw [activateBody_asks h hb, guarded_pass (need_ok (by simp [hs])), guarded_pass (need_ok (energyOk_iff.2 he)), guarded_nil]

theorem activateBody_some (s : State) : ∃ v st ans, activateBody s = (v, some (st, ans)) := guarded_some (withJob_some ..)

end activate

/-! ## The token and the commit record (13 R300, R304, R312) -/

section token

variable {t a : Nat} {granted ok : Bool} {s : State}

theorem grantsToken_iff : s.grantsToken = true ↔ s.sheaf.st ≠ 6 ∧ (s.sheaf.st = 5 → s.sheaf.tokenWait ≠ none ∧ s.slotB = true) := by
  unfold State.grantsToken
  split_ifs with h6 h5
  · simp [h6]
  · simp [h5, Option.isSome_iff_ne_none]
  · simp [h6, h5]

theorem exec_trialTokenGrant_waiting (ha : (s.arrive t).awake = true) (h5 : (s.arrive t).sheaf.st = 5) (hw : (s.arrive t).sheaf.tokenWait = some a) :
    exec (.trialTokenGrant t granted) s = .next ((s.arrive t).tokenAnswer granted) :=
  (exec_trialTokenGrant ..).trans (happens_of (by simp [ha, h5, hw]))

theorem exec_trialTokenTimeout_waiting (ha : (s.arrive t).awake = true) (h5 : (s.arrive t).sheaf.st = 5) (hw : (s.arrive t).sheaf.tokenWait = some a)
    (hlate : a + 2500000 ≤ (s.arrive t).time.now) : exec (.trialTokenTimeout t) s = .next ((s.arrive t).noActivation stBusy) :=
  (exec_trialTokenTimeout ..).trans (happens_of (by simp [ha, h5, hw, usTicks, hlate]))

theorem exec_activationRecordWritten_due (ha : (s.arrive t).awake = true) (h5 : (s.arrive t).sheaf.st = 5) (hw : (s.arrive t).sheaf.tokenWait = none) :
    exec (.activationRecordWritten t ok) s = .next ((s.arrive t).recordWritten ok) :=
  (exec_activationRecordWritten ..).trans (happens_of (by simp [ha, h5, hw]))

theorem recordWritten_lowEnergy (h : s.power.holdupMj < 32000) : s.recordWritten ok = s.noActivation stLowEnergy :=
  if_pos (by simp [energyOk_false h])

theorem recordWritten_energy (h : 32000 ≤ s.power.holdupMj) : s.recordWritten ok = if ok then s.activate else s :=
  if_neg (by simp [energyOk_iff.2 h])

/-- The module as it restarts into the trial. -/
def State.activating (s : State) : State :=
  (((s.writeCommit SheafSt.activated).invalidate).endJob (s.writeCommit SheafSt.activated).sheaf.job stOk []).record 0x0A01
    [(4, (s.writeCommit SheafSt.activated).sheaf.active), (4, (s.writeCommit SheafSt.activated).sheaf.previous)]

theorem activate_eq (s : State) : s.activate = s.activating.restart 0 false := rfl

theorem activating_f (s : State) : s.activating.sheaf = ({ s.sheaf.activated with seq := s.sheaf.seq + 1 } : SheafSt) ∧
    s.activating.boot.recordSinceVerify = true :=
  ⟨rec_f _ _ _ .sheaf (by decide), congrArg BootSt.recordSinceVerify (rec_f _ _ _ .boot (by decide))⟩

end token

/-! ## The trial (13 R305–R307) -/

section trial

variable {t : Nat} {s : State}

theorem trialBoot_spent (ht : s.sheaf.recTrial = true) (h3 : s.sheaf.trialBoots = 3) : s.trialBoot = s.fallback 2 := by
  unfold State.trialBoot
  dsimp only
  rw [if_neg (by simp [ht]), if_pos h3]

theorem windowOver_iff : s.windowOver = true ↔ s.sheaf.trialStart + s.sheaf.windowRec < s.tb3s := decide_eq_true_iff

theorem trialBoot_late (ht : s.sheaf.recTrial = true) (h3 : s.sheaf.trialBoots ≠ 3) (h0 : s.sheaf.trialBoots ≠ 0)
    (hw : s.sheaf.trialStart + s.sheaf.windowRec < s.tb3s) : s.trialBoot = s.fallback 3 := by
  unfold State.trialBoot
  dsimp only
  rw [if_neg (by simp [ht]), if_neg h3, if_pos (by simp [h0, windowOver_iff.2 hw])]

/-- One more boot of a trial. -/
def State.countTrial (s : State) : State :=
  s.writeCommit fun h =>
    { h with trialBoots := h.trialBoots + 1, trialStart := if h.trialBoots = 0 then s.tb3s else h.trialStart, st := 6, healthPassed := false,
             healthBroken := false, healthFrom := s.time.now }

theorem trialBoot_counts (ht : s.sheaf.recTrial = true) (h3 : s.sheaf.trialBoots ≠ 3)
    (h : s.sheaf.trialBoots = 0 ∨ s.tb3s ≤ s.sheaf.trialStart + s.sheaf.windowRec) : s.trialBoot = s.countTrial := by
  have hopen : ¬(s.sheaf.trialBoots != 0 && s.windowOver) = true := by
    rw [Bool.and_eq_true, windowOver_iff, bne_iff_ne]
    omega
  unfold State.trialBoot
  dsimp only
  rw [if_neg (by simp [ht]), if_neg h3, if_neg hopen]
  rfl

theorem passHealth_manual (h : s.sheaf.manual = true) : s.passHealth = s.upSheaf fun h => { h with healthPassed := true } := if_pos h

theorem passHealth_automatic (h : s.sheaf.manual = false) : s.passHealth = (s.upSheaf fun h => { h with healthPassed := true }).confirm :=
  if_neg (by simp [State.upSheaf, h])

theorem dwellOver_iff : s.dwellOver = true ↔ s.awake = true ∧ s.sheaf.st = 6 ∧ s.sheaf.healthBroken = false ∧ s.sheaf.healthPassed = false ∧
    (s.power.mode = 2 ∨ s.power.mode = 4 ∧ s.pair.synced = true ∨ s.power.mode = 5 ∨ s.power.mode = 6) ∧
    s.sheaf.healthFrom + 250000000 * s.sheaf.dwellS ≤ s.time.now := by
  have hmode : healthyMode s.power.mode = true ∧ (s.power.mode ≠ 4 ∨ s.pair.synced = true) ↔
      s.power.mode = 2 ∨ s.power.mode = 4 ∧ s.pair.synced = true ∨ s.power.mode = 5 ∨ s.power.mode = 6 := by
    simp only [healthyMode, Bool.or_eq_true, beq_iff_eq]
    by_cases h4 : s.power.mode = 4
    · simp [h4]
    · simp [h4, or_assoc]
  have hticks : secTicks s.sheaf.dwellS = 250000000 * s.sheaf.dwellS := by rw [secTicks, Nat.mul_comm]
  simp only [State.dwellOver, State.healthy, Bool.and_eq_true, Bool.or_eq_true, bne_iff_ne, beq_iff_eq, Bool.not_eq_true', decide_eq_true_eq, hticks,
    ← hmode]
  tauto

theorem confirmBody_state (h : s.sheaf.st ≠ 6 ∨ s.sheaf.healthPassed = false) : confirmBody s = (s, some (stState, [])) := by
  refine guarded_first (need_no ?_)
  rcases h with h | h <;> simp [h]

theorem confirmBody_ok (h6 : s.sheaf.st = 6) (hp : s.sheaf.healthPassed = true) : confirmBody s = (s.confirm, some (stOk, [])) :=
  (guarded_pass (need_ok (by simp [h6, hp]))).trans guarded_nil

theorem status_words (s : State) : (((List.range 48).map (s.param 0x0A)).flatMap (leBytes 4)).length = 192 ∧
    ∀ w, w < 48 → field (((List.range 48).map (s.param 0x0A)).flatMap (leBytes 4)) (4 * w) 4 = s.param 0x0A w % 2 ^ 32 := by
  obtain ⟨hlen, hfield⟩ := flat_fields (s.param 0x0A) 48 0
  rw [List.flatMap_map, List.range_eq_range']
  exact ⟨hlen, fun w hw => (hfield w hw).trans (by rw [Nat.zero_add])⟩

end trial

/-! ## Fallback and abandonment (13 R308, R309) -/

section abandon

variable {t result st : Nat} {r : Req} {s : State}

theorem fallback_power (result : Nat) (s : State) : (s.fallback result).power = s.power := (fallback_keeps ..).frame .power (by decide)

theorem fallback_inControl (result : Nat) (s : State) : (s.fallback result).inControl = s.inControl := by
  rw [State.inControl, fallback_power]
  rfl

theorem fallbackNow_restarts (h : s.inControl = false) : s.fallbackNow result = (s.fallback result).restart 0 false :=
  if_pos (by rw [fallback_inControl, h]; rfl)

theorem fallbackNow_waits (h : s.inControl = true) (ht : s.twinSynced = false) : s.fallbackNow result = s.fallback result :=
  (if_neg (by rw [fallback_inControl, h]; decide)).trans (if_pos (by rw [ht]; rfl))

/-- A handover that a restart follows; one that is armed becomes such a one. -/
def State.armRestart (s : State) : State :=
  match s.pair.armed with
  | some h => s.upPair fun p => { p with armed := some { h with kind := 5 } }
  | none => s.armHandover 5 (s.nextT0 3 (s.tb0 + 100000000)) 0

theorem fallbackNow_handsOver (h : s.inControl = true) (ht : s.twinSynced = true) : s.fallbackNow result = (s.fallback result).armRestart :=
  (if_neg (by rw [fallback_inControl, h]; decide)).trans (if_neg (by rw [ht]; decide))

theorem armRestart_f (s : State) : s.armRestart.pair.owner = s.pair.owner ∧ (∃ h, s.armRestart.pair.armed = some h ∧ h.kind = 5) ∧
    s.armRestart.sheaf = s.sheaf := by
  unfold State.armRestart
  split
  · exact ⟨rfl, ⟨_, rfl, rfl⟩, rfl⟩
  · exact ⟨rfl, ⟨_, rfl, rfl⟩, rfl⟩

/-- Outside a trial an abandonment is its response alone. -/
theorem exec_sheafAbandon_untried (h : (s.arrive t).sheaf.st ≠ 6) :
    exec (.sheafAbandon t r) s = happens t s State.awake (State.run (plainCmd 0x505 3 0) r abandonBody) := by
  have htrial : ((s.arrive t).sheaf.st == 6) = false := beq_eq_false_iff_ne.2 h
  rw [exec_sheafAbandon, execSheafAbandon, happens, happens, State.run, htrial]
  split
  · rcases (s.arrive t).serve (plainCmd 0x505 3 0) r abandonBody with ⟨v, _ | st⟩ <;> rfl
  · rfl

theorem exec_sheafAbandon_tried {v : State} {data : List Byte} (ha : (s.arrive t).accepts (plainCmd 0x505 3 0) r) (h6 : (s.arrive t).sheaf.st = 6)
    (hbody : abandonBody ((s.arrive t).take r) = (v, some (st, data))) : exec (.sheafAbandon t r) s =
      .next (if st = stOk then (v.respond (hdrOf r) 0x505 st data).fallbackNow 4 else v.respond (hdrOf r) 0x505 st data) := by
  refine (exec_sheafAbandon ..).trans ((happens_of ha.1).trans (congrArg _ ?_))
  dsimp only
  rw [serve_ok ha hbody]
  dsimp only
  rw [h6]
  simp only [beq_self_eq_true, Bool.true_and, beq_iff_eq]
  rfl

theorem abandonBody_trial (h6 : s.sheaf.st = 6) :
    abandonBody s = (s, some (if s.inControl && !s.twinSynced then stState else stOk, [])) := by
  rw [abandonBody, if_neg (by omega), if_pos h6]
  rfl

theorem abandonBody_activating (h : s.sheaf.st = 5) : abandonBody s = (s, some (stBusy, [])) := if_pos h

theorem abandonBody_idle (h : s.sheaf.st = 0) : abandonBody s = (s, some (stOk, [])) := by
  rw [abandonBody, if_neg (by omega), if_neg (by omega), if_pos h]
  rfl

theorem abandonBody_verifying (h : s.sheaf.st = 3) : abandonBody s = ((s.endJob s.sheaf.job stState []).upSheaf SheafSt.idle, some (stOk, [])) := by
  rw [abandonBody, if_neg (by omega), if_neg (by omega), if_neg (by omega), if_pos h]
  rfl

theorem abandonBody_loaded (h : s.sheaf.st = 1 ∨ s.sheaf.st = 2 ∨ s.sheaf.st = 4) : abandonBody s = (s.upSheaf SheafSt.idle, some (stOk, [])) := by
  rw [abandonBody, if_neg (by omega), if_neg (by omega), if_neg (by omega), if_neg (by omega)]
  rfl

/-- The data of an abandonment is empty. -/
theorem abandonBody_some (s : State) : ∃ v st, abandonBody s = (v, some (st, [])) := by
  unfold abandonBody
  split_ifs <;> exact ⟨_, _, rfl⟩

end abandon

/-- Settles O51: each event of a trial is one write of the commit record, and a fallback outside BOOT is one more, with what the module's mode
lets follow it. -/
theorem sheavesAreTriedAndConfirmed : Obligations.SheavesAreTriedAndConfirmed := by
  unfold Obligations.SheavesAreTriedAndConfirmed
  refine ⟨fun t r s ha => ?activate, fun t s ha => (exec_trialTokenRequest ..).trans (happens_of ha), fun s => grantsToken_iff,
    fun t s a ha h5 hw => ⟨exec_trialTokenGrant_waiting ha h5 hw, ?refusal⟩, fun t ok s ha h5 hw => ⟨fun he => ?lowEnergy, fun he => ?written⟩,
    fun s ht => ⟨fun h3 => ?_, fun h3 h0 hlate => ?_, fun h3 h => ?_⟩, fun result h => ⟨rfl, rfl, rfl, rfl, rfl, rfl, rfl⟩, fun t s hover => ?dwell,
    fun s => dwellOver_iff, fun t r s ha => ?confirm, fun t r s ha => ?status, fun t r s ha => ⟨fun h6 => ?abandon, fun h6 => ?fallBack⟩,
    fun t s ha hm h6 ht hw => ?expiry, fun result s => ?modes, fun t s ha hm hsilent => ?poll⟩
  case activate =>
    refine answers_all (exec_sheafActivate ..) ha activateBody_some activateBody_keeps fun u v st ans _ hbody h0 h1 h2 h3 h4 h5 => ?_
    have hfree : u.SheafFree := ⟨h0, h1, h2, h3, h4, h5⟩
    refine ⟨fun hb => body_answers (activateBody_busy hfree hb) hbody, fun hb hb' => ?_⟩
    have hasks : ¬u.tokenBarred := by
      rintro (hb6 | ⟨hp, hs⟩)
      · exact hb hb6
      · exact absurd ((hb' hp).symm.trans hs) (by decide)
    refine ⟨fun hs => body_answers (activateBody_state hfree hasks hs) hbody, fun hs =>
      ⟨fun he => body_answers (activateBody_lowEnergy hfree hasks hs he) hbody, fun he hroom => ?_⟩⟩
    obtain ⟨id, hjob, -⟩ := withJob_ok 0x502 startActivation u hroom
    obtain ⟨hst, hans, rfl⟩ := body_answers ((activateBody_starts hfree hasks hs he).trans hjob) hbody
    obtain ⟨hsheaf, hout, -⟩ := startActivation_f id (u.upMsg fun m => { m with
      nextJob := (id + 1) % 65536, jobs := m.jobs ++ [{ id := id, cmd := 0x502, done := false, progress := 0, status := 0, result := [], endAt := 0 }] })
    exact ⟨id, hst, hans, hsheaf, hout⟩
  case refusal =>
    rintro v rfl
    exact ⟨exec_trialTokenGrant_waiting ha h5 hw, exec_trialTokenTimeout_waiting ha h5 hw⟩
  case lowEnergy => exact (exec_activationRecordWritten_due ha h5 hw).trans (congrArg _ (recordWritten_lowEnergy he))
  case written =>
    refine ⟨(exec_activationRecordWritten_due ha h5 hw).trans (congrArg _ (recordWritten_energy he)), ?_⟩
    rintro u rfl
    refine ⟨_, (exec_activationRecordWritten_due ha h5 hw).trans (congrArg _ (recordWritten_energy he)), ?_⟩
    obtain ⟨hsheaf, hrecord, hmode, hkind⟩ := restart_sheaf 0 false (s.arrive t).activating
    obtain ⟨hactivated, hsince⟩ := activating_f (s.arrive t)
    rw [if_pos rfl, activate_eq, hsheaf, hmode, hkind, hrecord, hactivated]
    exact ⟨rfl, rfl, rfl, rfl, rfl, rfl, rfl, rfl, rfl, rfl, hsince⟩
  · rw [trialBoot_spent ht h3, fallback_sheaf]
  · rw [trialBoot_late ht h3 h0 hlate, fallback_sheaf]
  · rw [trialBoot_counts ht h3 h]
    exact ⟨rfl, rfl, rfl, rfl⟩
  case dwell =>
    refine ⟨_, (exec_healthDwellPass ..).trans (happens_of hover), (passHealth_keeps _).frame, ?_⟩
    cases hmanual : (s.arrive t).sheaf.manual with
    | true =>
      rw [passHealth_manual hmanual]
      exact ⟨rfl, fun _ => ⟨rfl, rfl⟩, fun h => absurd (hmanual.symm.trans h) (by decide)⟩
    | false =>
      obtain ⟨hsheaf, hrecord⟩ := confirm_sheaf ((s.arrive t).upSheaf fun h => { h with healthPassed := true })
      rw [passHealth_automatic hmanual, hsheaf, hrecord]
      exact ⟨rfl, fun h => absurd (hmanual.symm.trans h) (by decide), fun _ => ⟨rfl, rfl, rfl, rfl, rfl, rfl⟩⟩
  case confirm =>
    refine answers_all (exec_sheafConfirm ..) ha (fun u => guarded_some (reply_some ..)) confirmBody_keeps fun u v st ans _ hbody => ?_
    by_cases hok : u.sheaf.st = 6 ∧ u.sheaf.healthPassed = true
    · obtain ⟨h6, hp⟩ := hok
      obtain ⟨hst, hans, rfl⟩ := body_answers (confirmBody_ok h6 hp) hbody
      rw [(confirm_sheaf u).1]
      exact ⟨hans, fun h => by simp [h6, hp] at h, fun _ _ => ⟨hst, rfl, rfl, rfl, rfl, rfl, rfl⟩⟩
    · have hno : u.sheaf.st ≠ 6 ∨ u.sheaf.healthPassed = false := by simpa [imp_iff_not_or] using hok
      obtain ⟨hst, hans, hv⟩ := body_answers (confirmBody_state hno) hbody
      exact ⟨hans, fun _ => ⟨hst, hv⟩, fun h6 hp => absurd ⟨h6, hp⟩ hok⟩
  case status =>
    obtain ⟨hlen, hfield⟩ := status_words ((s.arrive t).take r)
    exact answers_run (exec_sheafStatus ..) ha ⟨_, _, _, rfl, Frame.rfl_, rfl, rfl, hlen, hfield⟩
  case abandon =>
    obtain ⟨v, st, hsome⟩ := abandonBody_some ((s.arrive t).take r)
    refine answers_body (exec_sheafAbandon_untried h6) ha ⟨v, st, [], hsome⟩ abandonBody_keeps fun u v st ans _ hbody => ?_
    obtain ⟨w, st', hw⟩ := abandonBody_some u
    obtain ⟨-, hans, -⟩ := body_answers hw hbody
    subst hans
    refine ⟨rfl, fun h => ?_, fun h => ?_, fun h => ?_, fun h => ?_⟩
    · exact (body_answers (abandonBody_activating h) hbody).imp_right And.right
    · exact (body_answers (abandonBody_idle h) hbody).imp_right And.right
    · exact (body_answers (abandonBody_verifying h) hbody).imp_right And.right
    · exact (body_answers (abandonBody_loaded h) hbody).imp_right And.right
  case fallBack =>
    have he := exec_sheafAbandon_tried ha h6 (abandonBody_trial (s := (s.arrive t).take r) h6)
    have hcontrol : ((s.arrive t).take r).inControl = (s.arrive t).inControl := rfl
    have hsynced : ((s.arrive t).take r).twinSynced = (s.arrive t).twinSynced := rfl
    rw [hcontrol, hsynced] at he
    refine ⟨fun hc hn => ?_, fun h => ?_⟩
    · rw [he, hc, hn]
      exact congrArg _ (if_neg (by decide))
    · have hok : ((s.arrive t).inControl && !(s.arrive t).twinSynced) = false := by rcases h with h | h <;> simp [h]
      rw [he, hok]
      exact congrArg _ (if_pos rfl)
  case expiry => exact (exec_trialWindowExpiry ..).trans (happens_of (by simp [ha, hm, h6, ht, windowOver_iff.2 hw]))
  case modes =>
    refine ⟨fun h => ?_, fallbackNow_waits, fun h ht => ?_⟩
    · obtain ⟨hsheaf, -, hmode, hkind⟩ := restart_sheaf 0 false (s.fallback result)
      rw [fallbackNow_restarts h, hsheaf, fallback_sheaf]
      exact ⟨hmode, hkind, rfl, rfl, rfl⟩
    · obtain ⟨howner, harmed, hsheaf⟩ := armRestart_f (s.fallback result)
      have hpair : (s.fallback result).pair = s.pair := (fallback_keeps ..).frame .pair (by decide)
      rw [fallbackNow_handsOver h ht, howner, hsheaf, hpair, fallback_sheaf]
      exact ⟨rfl, harmed, rfl⟩
  case poll =>
    exact ⟨_, (exec_twinSheafPoll ..).trans (happens_of (by simp [ha, hm, hsilent])), (askTwin_keeps ..).frame, rfl, rfl, rfl⟩

end Sys2Proof.Machine
